-- ==== Sys2Proof/Word.lean ====
section
/-! DEFINITION. The word types, the identity ranges of Table 01-2 and the sparse map type. -/

namespace Sys2Proof

abbrev Byte := BitVec 8
/-- A 32-byte command of a list (R109). -/
abbrev Cmd := BitVec 256

/-- Core id y × 48 + x (R13). -/
abbrev CoreId := Fin 960
/-- List slot of a core (R94). -/
abbrev SlotId := Fin 4
/-- Cluster id cy × 12 + cx (R13). -/
abbrev ClusterId := Fin 60
/-- Half of the die: 0 west, 1 east (R13). -/
abbrev HalfId := Fin 2
/-- Host-class core HC0 to HC15 (R24). -/
abbrev HcId := Fin 16
/-- Damson DM0 to DM9 (R21). -/
abbrev DamId := Fin 10
/-- DDR channel, which is also the DIMM slot (R21). -/
abbrev ChanId := Fin 20
/-- Fabric port code of Table 12-2. -/
abbrev PortId := Fin 6
/-- Fabric dimension: 0 X, 1 Y, 2 Z. -/
abbrev DimId := Fin 3
/-- Fibre of a port (R315). -/
abbrev FibreId := Fin 8
/-- PCIe function: 0 PF, n VF n (R372). -/
abbrev FuncId := Fin 9
/-- Submission ring of a function (R379). -/
abbrev RingId := Fin 256
/-- Event queue (R390). -/
abbrev EvqId := Fin 64

/-- A sparse map from numbers: key and value pairs, keys strictly rising, no entry
holding the value an unlisted key reads as. Its operations are in Machine/Kv.lean. -/
abbrev KV (α : Type) := List (Nat × α)

end Sys2Proof
end

