-- ==== Sys2Proof/Syntax.lean ====
section
/-! DEFINITION. The commands of the block: one constructor of Instr for each row of the
table of operations and events, with the operands the row's rule gives it. -/

namespace Sys2Proof

/-- The five engines of a core, coded as RAS_RESET.ENGINE (R12, Table 15-7). -/
inductive Engine where
  | matrix | vector | row | access | sequencer
  deriving DecidableEq, Repr

/-- Agents of Table 18-2 that reach the set-up registers. -/
inductive Agent where
  /-- The host through BAR0 of the physical function. -/
  | pf
  /-- The host through BAR0 of virtual function n + 1. -/
  | vf (n : Fin 8)
  /-- Pip. -/
  | pip
  /-- A host-class core; HC0, HC1, HC8 and HC9 run firmware (R24). -/
  | hc (n : HcId)
  deriving DecidableEq, Repr

/-- Who requests a reset, fence or preemption, coded as CAUSE of Table 15-8. -/
inductive Requester where
  | host | firmware | hangMonitor | preemptBound | escalation | heartbeat
  deriving DecidableEq, Repr

/-- A read of `len` bytes or a write of the given bytes. -/
inductive Access where
  | read (len : Nat)
  | write (data : List Byte)
  deriving DecidableEq, Repr

/-- A request of a slab's engine side or router side (Table 07-3). -/
inductive SlabClient where
  | sequencer | row | vector | matrix | access | inbound | scrubber
  deriving DecidableEq, Repr

/-- A memory with a power state of its own: a slab of a core position or a segment of a
cluster's tier (R190). -/
inductive MemUnit where
  | slab (c : CoreId) (s : Fin 8)
  | seg (k : ClusterId) (s : Fin 12)
  deriving DecidableEq, Repr

/-- Where the response of a sync operation goes: a list slot or a sync-port slot (R292, R293). -/
inductive Waiter where
  | slot (c : CoreId) (sl : SlotId)
  | port (h : HcId) (n : Fin 16)
  deriving DecidableEq, Repr

/-- The router port at which a flit leaves the mesh (R18, R229). -/
inductive EjectPort where
  | local | vertical | edge
  deriving DecidableEq, Repr

/-- A mesh flit (R19, R229, R232): virtual channel 0 request, 1 response, 2 multicast; the
rectangle and the source position are used by multicast flits only; `chk` is the 64 check
bits as they arrive. -/
structure Flit where
  vc : Fin 3
  src : CoreId
  dst : CoreId
  out : EjectPort
  x0 : Fin 48
  x1 : Fin 48
  y0 : Fin 20
  y1 : Fin 20
  data : BitVec 512
  chk : BitVec 64
  deriving DecidableEq, Repr

/-- A fabric packet: the header slot of Table 12-8 and its data. Bit i of `bad` says that bytes 32i to
32i + 31 of the data are poisoned. -/
structure Packet where
  ptype : BitVec 8
  vc : BitVec 2
  fibre : BitVec 3
  dest : BitVec 14
  src : BitVec 14
  hops : BitVec 8
  status : BitVec 8
  ctx : BitVec 16
  tag : BitVec 16
  tagInc : BitVec 8
  len : BitVec 16
  addr : BitVec 64
  /-- Bytes 24 to 63 of the header slot. -/
  body : BitVec 320
  data : List Byte
  bad : Nat
  deriving DecidableEq, Repr

/-- A link frame as it arrives (R319, R321): the header's SEQ and ACK, the packets its slots
complete, the positions of the bytes that the line put in error, and whether the CRC
matches after correction. -/
structure Frame where
  seq : BitVec 12
  ack : BitVec 12
  errs : List Nat
  crcOk : Bool
  /-- Packets whose last slot this frame carries. -/
  packets : List Packet
  /-- 64-byte credits returned in control slots, by channel (R322). -/
  credits : List Nat
  deriving DecidableEq, Repr

/-- What a port's training ended with (R323, R346, R317, R318). -/
inductive TrainOutcome where
  /-- The optical path or the alignment failed: a result code of Table 12-6 other than OK,
  MISCABLED and SELF, which the identities decide. -/
  | failed (code : BitVec 4)
  /-- Identities were exchanged: the neighbour's coordinates and dimensions, its FEC request,
  its HALF_OK, and the fibre halves that passed in both directions (bit 0 fibres 0-3, bit 1
  fibres 4-7) as seen by this end and by the other. -/
  | found (id : BitVec 14) (dims : BitVec 14) (fecStrong : Bool) (halfOk : Bool)
      (goodHere : BitVec 2) (goodThere : BitVec 2)
  deriving DecidableEq, Repr

/-- The answer of PCIe ATS to a translation of a host-memory leaf (R206, R208). -/
inductive AtsReply where
  | success (addr : BitVec 56)
  | failure
  deriving DecidableEq, Repr

/-- The cache-block operations of a host-class core (R132). -/
inductive CacheOp where
  | inval | clean | flush
  deriving DecidableEq, Repr

/-- What a host-class core does to the device (R25, R132, R204); a firmware core also gates host-class
cores and wakes cores (R28, R356). -/
inductive HcAccess where
  | load (addr : BitVec 64) (len : Nat)
  | store (addr : BitVec 64) (data : List Byte)
  | fetch (addr : BitVec 64) (len : Nat)
  | cache (op : CacheOp) (addr : BitVec 64)
  | gate (h : HcId) (off : Bool)
  | wakeCore (c : CoreId)
  deriving DecidableEq, Repr

/-- A base address register of a function (Table 14-2), or its MSI-X table (log 104). -/
inductive Bar where
  | bar0 | bar2 | bar4 | msix
  deriving DecidableEq, Repr

/-- Who sends a slow-tier request (R264, R265). -/
inductive TierClient where
  | access (c : CoreId)
  | fetch (c : CoreId) (sl : SlotId)
  | walk (c : CoreId)
  | hostClass (h : HcId)
  | host
  | fabric (p : PortId)
  | update (k : DamId)
  | scrub (k : DamId)
  deriving DecidableEq, Repr

/-- A request at a channel: the physical address, and a read or a write of bytes of its line. -/
structure TierReq where
  client : TierClient
  pa : BitVec 56
  op : Access
  deriving DecidableEq, Repr

/-- One channel's result in a DDR training pass (R255, R256). -/
structure Dimm where
  present : Bool
  /-- SPD: a supported type, supply and ECC organisation. -/
  supported : Bool
  gib : Nat
  /-- Manufacturer part number, as a number. -/
  part : Nat
  banks : Nat
  deriving DecidableEq, Repr

/-- One telemetry sample (R433): input power mW, input voltage mV and the 136 sensors in the
order of PIP_SENS in °C. -/
structure Telemetry where
  power : BitVec 32
  volt : BitVec 32
  sensors : List (BitVec 8)
  deriving DecidableEq, Repr

/-- One ageing measurement (R434, R435): code of the item, instance, the measured value, its
limit and slope per day as FP64 encodings, and the days predicted. -/
structure AgeingSample where
  item : BitVec 4
  inst : BitVec 8
  value : BitVec 64
  limit : BitVec 64
  slope : BitVec 64
  days : BitVec 16
  deriving DecidableEq, Repr

/-- What the boot ROM finds in a firmware bank (R438): the manifest's SVN, whether the
signature verifies under the fused key hash, whether every image hash matches, whether the
flash reads. -/
structure Bank where
  readable : Bool
  sigOk : Bool
  svn : BitVec 7
  hashOk : Bool
  /-- SHA3-512 of the manifest and of its four images (R445). -/
  digests : List (BitVec 512)
  deriving DecidableEq, Repr

/-- A reset domain, coded as RAS_RESET.LEVEL, with its target (Table 15-5). -/
inductive Domain where
  | engine (c : CoreId) (e : Engine)
  | hostClass (h : HcId)
  | core (c : CoreId)
  | cluster (k : ClusterId)
  | fabricPort (d : DimId)
  | damson (k : DamId)
  | dieWarm
  | module
  deriving DecidableEq, Repr

/-- The operations of an IDE_KM message (R447). -/
inductive IdeOp where
  | program (stream : Fin 2) (key : BitVec 256)
  | start (stream : Fin 2)
  | stop (stream : Fin 2)
  deriving DecidableEq, Repr

/-- The commands: one constructor for each row of the table, in its order. -/
inductive Instr where
  -- sequencer
  | nop (c : CoreId) (sl : SlotId) (w : Cmd)
  | endList (c : CoreId) (sl : SlotId) (w : Cmd)
  | loop (c : CoreId) (sl : SlotId) (w : Cmd)
  | endloop (c : CoreId) (sl : SlotId) (w : Cmd)
  | skip (c : CoreId) (sl : SlotId) (w : Cmd)
  | brk (c : CoreId) (sl : SlotId) (w : Cmd)
  | setx (c : CoreId) (sl : SlotId) (w : Cmd)
  | alux (c : CoreId) (sl : SlotId) (w : Cmd)
  | tpost (c : CoreId) (sl : SlotId) (w : Cmd)
  | csnap (c : CoreId) (sl : SlotId) (w : Cmd)
  | arrive (c : CoreId) (sl : SlotId) (w : Cmd)
  | wait (c : CoreId) (sl : SlotId) (w : Cmd)
  | signal (c : CoreId) (sl : SlotId) (w : Cmd)
  | claim (c : CoreId) (sl : SlotId) (w : Cmd)
  | fence (c : CoreId) (sl : SlotId) (w : Cmd)
  | sinit (c : CoreId) (sl : SlotId) (w : Cmd)
  | sfree (c : CoreId) (sl : SlotId) (w : Cmd)
  -- matrix
  | mma (c : CoreId) (sl : SlotId) (w : Cmd)
  | mrd (c : CoreId) (sl : SlotId) (w : Cmd)
  | msd (c : CoreId) (sl : SlotId) (w : Cmd)
  | mld (c : CoreId) (sl : SlotId) (w : Cmd)
  | mmove (c : CoreId) (sl : SlotId) (w : Cmd)
  | mrel (c : CoreId) (sl : SlotId) (w : Cmd)
  -- vector
  | vld (c : CoreId) (sl : SlotId) (w : Cmd)
  | vst (c : CoreId) (sl : SlotId) (w : Cmd)
  | vop (c : CoreId) (sl : SlotId) (w : Cmd)
  | vcvt (c : CoreId) (sl : SlotId) (w : Cmd)
  | vala (c : CoreId) (sl : SlotId) (w : Cmd)
  | vmove (c : CoreId) (sl : SlotId) (w : Cmd)
  | vrel (c : CoreId) (sl : SlotId) (w : Cmd)
  -- row
  | rred (c : CoreId) (sl : SlotId) (w : Cmd)
  | rnorm (c : CoreId) (sl : SlotId) (w : Cmd)
  | rnormb (c : CoreId) (sl : SlotId) (w : Cmd)
  | rsmax (c : CoreId) (sl : SlotId) (w : Cmd)
  | rsmaxb (c : CoreId) (sl : SlotId) (w : Cmd)
  | rspill (c : CoreId) (sl : SlotId) (w : Cmd)
  | rfill (c : CoreId) (sl : SlotId) (w : Cmd)
  -- access
  | copy (c : CoreId) (sl : SlotId) (w : Cmd)
  | skewc (c : CoreId) (sl : SlotId) (w : Cmd)
  | tskewc (c : CoreId) (sl : SlotId) (w : Cmd)
  | gather (c : CoreId) (sl : SlotId) (w : Cmd)
  | scatter (c : CoreId) (sl : SlotId) (w : Cmd)
  | mcast (c : CoreId) (sl : SlotId) (w : Cmd)
  | neighbour (c : CoreId) (sl : SlotId) (w : Cmd)
  | gcopy (c : CoreId) (sl : SlotId) (w : Cmd)
  | tload (c : CoreId) (sl : SlotId) (w : Cmd)
  | qcfg (c : CoreId) (sl : SlotId) (w : Cmd)
  | aprog (c : CoreId) (sl : SlotId) (w : Cmd)
  | put (c : CoreId) (sl : SlotId) (w : Cmd)
  | get (c : CoreId) (sl : SlotId) (w : Cmd)
  | atomic (c : CoreId) (sl : SlotId) (w : Cmd)
  | rput (c : CoreId) (sl : SlotId) (w : Cmd)
  | dset (c : CoreId) (sl : SlotId) (w : Cmd)
  | dupd (c : CoreId) (sl : SlotId) (w : Cmd)
  | dnorm (c : CoreId) (sl : SlotId) (w : Cmd)
  | dread (c : CoreId) (sl : SlotId) (w : Cmd)
  -- lists and engines
  | listLaunch (h : HcId) (c : CoreId) (addr : BitVec 64)
  | listStart (c : CoreId)
  | commandFetch (c : CoreId) (sl : SlotId) (off : BitVec 32) (hostErr : Bool)
  | tokenWaitRelease (c : CoreId) (e : Engine) (sl : SlotId)
  | tileComplete (c : CoreId) (t : Fin 4)
  | accessCommandComplete (c : CoreId) (n : Fin 64)
  | tloadRowArrival (c : CoreId) (n : Fin 64)
  | operandQueueRelease (c : CoreId) (q : Fin 8)
  | mcastAck (c : CoreId) (dst : CoreId)
  | preemptRequest (r : Requester) (c : CoreId) (ctx : BitVec 16)
  | preemptDrainComplete (c : CoreId) (sl : SlotId)
  | preemptBoundExpiry (c : CoreId) (sl : SlotId)
  -- translation and core windows
  | walkResponse (c : CoreId) (fetchSlot : Option SlotId) (ats : AtsReply)
  | memXltResume (a : Agent) (v : BitVec 32)
  | memTlbInv (a : Agent) (v : BitVec 32)
  | tlbInvDone
  | hostClassCoreAccess (h : HcId) (acc : HcAccess)
  -- memories
  | slabAccess (cl : SlabClient) (c : CoreId) (off : BitVec 23) (op : Access)
  | aliasWrite (c : CoreId) (set : Bool) (off : BitVec 21) (data : List Byte)
  | clusterMemoryAccess (k : ClusterId) (port : Fin 8) (off : BitVec 26) (op : Access)
  | memSlabState (a : Agent) (c : CoreId) (v : BitVec 32)
  | memSegState (a : Agent) (k : ClusterId) (v : BitVec 32)
  | memoryStateTransitionDone (m : MemUnit)
  | memoryWakeFromRet (m : MemUnit)
  | scrubRead (m : MemUnit)
  | correctionWriteback (m : MemUnit)
  -- mesh
  | flitArrival (r : CoreId) (f : Flit)
  | meshClockStop (h : HalfId)
  | meshWake (h : HalfId)
  -- slow tier and Damsons
  | slowTierRequest (r : TierReq)
  | bankRetry (r : TierReq)
  | channelRefresh (ch : ChanId) (begins : Bool)
  | onlineRetraining (ch : ChanId) (begins : Bool)
  | patrolScrub (ch : ChanId)
  | ddrTraining (dimms : List Dimm) (failed : List (BitVec 20))
  | dmsSplit (a : Agent) (v : BitVec 32)
  | dmsEpoch (a : Agent) (k : DamId) (v : BitVec 32)
  | dmsEpochAll (a : Agent) (v : BitVec 32)
  | updatePartStart (k : DamId)
  | updatePartComplete (k : DamId)
  | damsonResult (c : CoreId) (k : DamId)
  -- synchronisation
  | syncResponse (x : Waiter)
  | completionCounterAdd (h : HalfId)
  | waitTimeout (x : Waiter)
  | syncQuarantineEnd (ix : BitVec 16)
  | remoteSyncTimeout (tag : Fin 4096)
  | remoteStatePoll (h : HalfId) (handle : BitVec 64) (state : Option (BitVec 240))
  | creditLend (c : CoreId)
  -- fabric
  | frameReceive (p : PortId) (f : FibreId) (fr : Frame)
  | nakReceive (p : PortId) (f : FibreId) (seq : BitVec 12)
  | packetRoute (arrival : Option PortId) (pk : Packet)
  | putPacket (p : PortId) (pk : Packet)
  | getPacket (p : PortId) (pk : Packet)
  | atomicPacket (p : PortId) (pk : Packet)
  | rputPacket (p : PortId) (pk : Packet)
  | notifyPacket (p : PortId) (pk : Packet)
  | syncPacket (p : PortId) (pk : Packet)
  | syncupd (p : PortId) (pk : Packet)
  | getdata (p : PortId) (pk : Packet)
  | atomicrsp (p : PortId) (pk : Packet)
  | syncrsp (p : PortId) (pk : Packet)
  | ack (p : PortId) (pk : Packet)
  | nack (p : PortId) (pk : Packet)
  | dataRequestTimeout (p : PortId) (tag : BitVec 16)
  | tagQuarantineEnd (p : Option PortId) (tag : BitVec 16)
  | packetResidenceExpiry (p : PortId) (pk : Packet)
  | lightLoss (p : PortId)
  | portTraining (p : PortId) (o : TrainOutcome)
  | trainingRetry (p : PortId)
  | portEnable (a : Agent) (d : DimId)
  | portDisable (a : Agent) (p : PortId)
  | retrain (a : Agent) (p : PortId)
  | dimensionJoinTimeout (d : DimId)
  | fabTopo (a : Agent) (v : BitVec 32)
  -- energy, clocks, scheduling
  /-- The energies measured over the period that ends, in 1/256 µJ, outside the clusters and at
  the input, and T_c of the 60 clusters as sampled in its last tick. -/
  | creditPeriodStart (fixed input : Nat) (temps : List Byte)
  | pwrProfile (a : Agent) (v : BitVec 32)
  | profileChangeProgress (h : HalfId)
  | coreIdleTransition (c : CoreId)
  | coreWake (c : CoreId)
  | halfThermalThrottle (h : HalfId)
  | halfThermalRestore (h : HalfId)
  | thermtrip (sensor : Fin 136) (temp : BitVec 8)
  -- host interface
  | doorbellPoll (f : FuncId) (r : RingId) (doorbell : BitVec 32)
  | ringGoIdle (f : FuncId) (r : RingId) (doorbell : BitVec 32)
  | ringIdlePoll (f : FuncId) (r : RingId) (doorbell : BitVec 32)
  | wake (f : FuncId) (r : RingId)
  | submit (f : FuncId) (r : RingId) (d : BitVec 512)
  | restore (f : FuncId) (r : RingId) (d : BitVec 512)
  | preempt (f : FuncId) (r : RingId) (d : BitVec 512)
  | descriptorPlacement (f : FuncId) (r : RingId)
  | ringEnable (f : FuncId) (r : RingId) (v : BitVec 32)
  | ringDisable (f : FuncId) (r : RingId) (v : BitVec 32)
  | evqEnable (f : FuncId) (q : EvqId) (v : BitVec 64)
  | evqConsumerReread (q : EvqId) (consumer : BitVec 32)
  | msixModerationTimeout (q : EvqId)
  | hifCtxInv (a : Agent) (v : BitVec 32)
  | hifPart (a : Agent) (n : Fin 64) (v : BitVec 32)
  | hifApt (a : Agent) (n : Fin 64) (v : BitVec 64)
  | hifHcCtx (a : Agent) (n : HcId) (v : BitVec 32)
  | hostRequest (f : FuncId) (b : Bar) (off : BitVec 38) (op : Access) (poisoned : Bool)
  | atsInvalidation (lo : BitVec 64) (hi : BitVec 64)
  | flr (f : FuncId)
  | d3hotEntry
  | perstNAssert
  | perstNDeassert (width : BitVec 5) (speed : BitVec 4)
  -- security
  | getVersion
  | getCapabilities
  | negotiateAlgorithms (supported : Bool)
  | getCertificate (slot : Fin 8)
  | challenge (slot : Fin 8) (nonce : BitVec 256)
  | getMeasurements (sign : Bool) (nonce : BitVec 256)
  | keyExchange (ephemeral : BitVec 256)
  | finish (macOk : Bool)
  | ideKm (op : IdeOp)
  | commit (a : Agent) (v : BitVec 32)
  | fwUpdate (a : Agent) (v : BitVec 64)
  | fwUpdateDone (image : Bank) (flashOk : Bool)
  | secLock (a : Agent)
  -- reliability and recovery
  | hangSample
  | rasHb (a : Agent) (n : HcId)
  | heartbeatInterval
  | engineReset (r : Requester) (c : CoreId) (e : Engine)
  | hostClassCoreReset (r : Requester) (h : HcId)
  | coreReset (r : Requester) (c : CoreId)
  | clusterReset (r : Requester) (k : ClusterId)
  | fabricPortReset (r : Requester) (d : DimId)
  | damsonReset (r : Requester) (k : DamId)
  | dieWarmReset (r : Requester)
  | moduleReset (r : Requester)
  | resetComplete (d : Domain)
  | resetBoundExpiry (d : Domain)
  | fenceCore (r : Requester) (c : CoreId)
  | fenceCluster (r : Requester) (k : ClusterId) (portsAnswer : Bool)
  | fenceDrainEnd (c : CoreId)
  | fenceClear (a : Agent) (v : BitVec 32)
  | routerOutOfService (c : CoreId)
  | huskRecordWrite
  | norCopy (blockFails : Bool)
  | bbxSel (a : Agent) (v : BitVec 64)
  | ageingCalibration (samples : List AgeingSample)
  | telemetrySample (t : Telemetry)
  | telemetryEvent
  -- power and pins
  | inputPowerOn (banks : List Bank) (straps : BitVec 6)
  | inputPowerLoss (volt : BitVec 32) (power : BitVec 32) (hottest : BitVec 8)
  | pwrEnAssert
  | pwrEnDeassert
  | railSequenceStep
  | watchdogRefresh
  | watchdogPowerCycle
  | railFault (rail : Fin 7)
  | throttleNAssert
  | throttleNDeassert
  | throttleHoldEnd
  | throttleUnstable
  | throttleStable
  | throttleNote
  | entdaa (addr : BitVec 7)
  | i3cPrivateWrite (data : List Byte)
  | i3cPrivateRead (len : Nat)
  | registerWrite (a : Agent) (off : BitVec 25) (data : List Byte)
  | engineCommandComplete (c : CoreId) (e : Engine) (n : Fin 64)
  | descriptorPartArrival (k : DamId)
  | meshPathLostTimeout (c : CoreId) (n : Fin 64)
  | bypassSwitchSettled (d : DimId)
  | holdUpRunOut
  | d3hotExit
  | dimmCaseTemperature (ch : ChanId) (temp : BitVec 8)
  | ctxInvDone
  | bbxFetchDone
  | svnFuseBlowDone
  deriving DecidableEq, Repr

end Sys2Proof
end

