-- ==== Sys2Proof/Decode.lean ====
section
/-! DEFINITION. The command that a word of the table spells. -/

namespace Sys2Proof

/-- No row of the table of operations and events has bits, so no word spells a command; the
256-bit words of list commands are operands (log 8). -/
def decodeTableWord (_nbits _w : Nat) : Option Instr := none

end Sys2Proof
end

