-- ==== Sys2Proof/Config.lean ====
section
/-! DEFINITION. The values the spec leaves open: constants without a body, so that no proof
can see what they are. -/

namespace Sys2Proof.Config

/-- A value the spec leaves undefined: the n-th one that a run takes (log 6). -/
opaque freeBits : (w : Nat) → Nat → BitVec w

/-- What the device computes for a vector operation whose result the spec gives only within an
error bound, or not at all: by operation code and operand encoding (log 15). -/
opaque approx : (op x : Nat) → BitVec 64

/-- SHA3-512 of a Husk record, and of bytes (log 14). -/
opaque sha3 : BitVec 2048 → BitVec 512

/-- The ML-DSA-87 signature that Pip's signing engine gives a digest (log 14). -/
opaque sign : BitVec 512 → BitVec 37016

/-- Version number of the boot ROM (Table 15-22). -/
opaque romVersion : BitVec 64

/-- The context under which a firmware host-class core runs: HIF_HC_CTX exists for user cores
only (log 38). -/
opaque firmwareCtx : Nat → BitVec 16

end Sys2Proof.Config
end

