-- ==== Sys2Proof/Machine/Bits.lean ====
section
/-! DEFINITION. Bit fields, little-endian bytes and lists of bytes. -/

namespace Sys2Proof.Machine

/-- Bits hi to lo of a word, as a number. -/
def fld {n : Nat} (w : BitVec n) (hi lo : Nat) : Nat := w.toNat / 2 ^ lo % 2 ^ (hi - lo + 1)

/-- Bit i of a word. -/
def bit {n : Nat} (w : BitVec n) (i : Nat) : Bool := w.getLsbD i

/-- The word with bits hi to lo replaced by the low bits of `v`. -/
def setFld {n : Nat} (w : BitVec n) (hi lo v : Nat) : BitVec n :=
  BitVec.ofNat n (w.toNat - fld w hi lo * 2 ^ lo + v % 2 ^ (hi - lo + 1) * 2 ^ lo)

/-- How far an address lies past a base; 0 below it. Written over the integers, so that it stays
closed for an address that is not a numeral. -/
def past (a base : Nat) : Nat := ((a : Int) - (base : Int)).toNat

def b2n (b : Bool) : Nat := if b then 1 else 0

/-- The n-bit two's-complement reading of a number. -/
def signed (n v : Nat) : Int := if v % 2 ^ n < 2 ^ (n - 1) then (v % 2 ^ n : Nat) else (v % 2 ^ n : Nat) - (2 ^ n : Nat)

/-- The number of little-endian bytes. -/
def leNat : List Byte → Nat
  | [] => 0
  | b :: bs => b.toNat + 256 * leNat bs

/-- The low n bytes of a number, little-endian. -/
def natLe : Nat → Nat → List Byte
  | 0, _ => []
  | n + 1, v => BitVec.ofNat 8 v :: natLe n (v / 256)

/-- Bytes of a word, byte 0 first. -/
def bytesOf {n : Nat} (w : BitVec n) (k : Nat) : List Byte := natLe k w.toNat

/-- Saturating increment of an n-bit counter by `k`. -/
def satAdd {n : Nat} (w : BitVec n) (k : Nat) : BitVec n :=
  BitVec.ofNat n (min (w.toNat + k) (2 ^ n - 1))

/-- Fields packed from the lowest bit up: (width, value). -/
def pack : List (Nat × Nat) → Nat
  | [] => 0
  | (n, v) :: r => v % 2 ^ n + 2 ^ n * pack r

def ceilDiv (a b : Nat) : Nat := (a + b - 1) / b

def setAt {α : Type} (l : List α) (i : Nat) (v : α) : List α := l.set i v

/-- Folds a state transformer over a list. -/
def forEach {α σ : Type} (l : List α) (f : α → σ → σ) (s : σ) : σ := l.foldl (fun s a => f a s) s

/-- Splits a list into consecutive pieces of n elements. -/
def chunks {α : Type} (n : Nat) (l : List α) : List (List α) :=
  (List.range (ceilDiv l.length n)).map (fun i => (l.drop (n * i)).take n)

def listSet {α : Type} (l : List α) (lo : Nat) (new : List α) : List α :=
  l.take lo ++ new ++ l.drop (lo + new.length)

end Sys2Proof.Machine
end

