-- ==== Sys2Proof/Machine/Kv.lean ====
section
/-! DEFINITION. Sparse maps from numbers: reading, writing and the canonical form. -/

namespace Sys2Proof.Machine

/-- The value at key `k`: `d` where the map lists none. -/
def KV.get {α : Type} (d : α) : KV α → Nat → α
  | [], _ => d
  | (k', v) :: m, k => if k = k' then v else KV.get d m k

/-- The map without an entry at `k`. -/
def KV.del {α : Type} : KV α → Nat → KV α
  | [], _ => []
  | (k', v) :: m, k => if k = k' then KV.del m k else (k', v) :: KV.del m k

/-- The map with an entry for `k` in its place. -/
def KV.ins {α : Type} : KV α → Nat → α → KV α
  | [], k, v => [(k, v)]
  | (k', v') :: m, k, v =>
    if k = k' then (k, v) :: m
    else if k < k' then (k, v) :: (k', v') :: m
    else (k', v') :: KV.ins m k v

/-- Writes `v` at `k`; a value equal to the default leaves no entry. -/
def KV.put {α : Type} [DecidableEq α] (d : α) (m : KV α) (k : Nat) (v : α) : KV α :=
  if v = d then KV.del m k else KV.ins m k v

/-- Applies `f` to the value at `k`. -/
def KV.upd {α : Type} [DecidableEq α] (d : α) (m : KV α) (k : Nat) (f : α → α) : KV α :=
  KV.put d m k (f (KV.get d m k))

/-- Applies `f` to every listed value; one that becomes the default is no longer listed. -/
def KV.vmap {α : Type} [DecidableEq α] (d : α) (f : α → α) : KV α → KV α
  | [] => []
  | (k, v) :: m => if f v = d then KV.vmap d f m else (k, f v) :: KV.vmap d f m

/-- Keys strictly rising from `lo`, and no entry holding the default. -/
def KV.wfFrom {α : Type} [DecidableEq α] (d : α) : Nat → KV α → Bool
  | _, [] => true
  | lo, (k, v) :: m => decide (lo ≤ k) && decide (v ≠ d) && KV.wfFrom d (k + 1) m

/-- The canonical form: equal maps are equal lists. -/
def KV.wf {α : Type} [DecidableEq α] (d : α) (m : KV α) : Bool := KV.wfFrom d 0 m

end Sys2Proof.Machine
end

