-- ==== Sys2Proof/Machine/State.lean ====
section
/-! DEFINITION. The state of the module as plain data. A field's default is its value after
reset; where the spec gives none the docstring names the log entry. Maps are sparse (KV): a
key that is not listed holds the default named beside the field. -/

namespace Sys2Proof.Machine

/-- Reasons the model stops. -/
inductive Fault where
  /-- Raised by every meaning whose operands break WellFormed: no such command exists on the
  module. Safe: nothing is claimed about it. -/
  | illFormed
  deriving DecidableEq, Repr

/-- Reasons the model has no meaning for a command. -/
inductive Refusal where
  /-- Raised by an arm of Dispatch whose command has no meaning yet. Safe. -/
  | notModelled (mnemonic : String)
  deriving DecidableEq, Repr

/-! ### Lists, slots and engines (chapters 03 to 06, 08) -/

/-- The sticky flags of R116. -/
structure Flags where
  ovf : Bool := false
  inv : Bool := false
  loss : Bool := false
  deriving DecidableEq, Repr

/-- How a list came to a core: launched (R95), or the descriptor of a ring (R383). -/
inductive Origin where
  | launch
  | ring (f : FuncId) (r : RingId) (idx : BitVec 32) (cookie : BitVec 64) (evq : BitVec 6)
  deriving DecidableEq, Repr

/-- An entry of the ready set (R94, R95, R383). -/
structure ReadyEnt where
  addr : BitVec 64 := 0
  ctx : BitVec 16 := 0
  origin : Origin := .launch
  /-- The entry names a save image (R128). -/
  restore : Bool := false
  /-- Consecutive credit periods passed over at step 1 (R362). -/
  passed : Nat := 0
  deriving DecidableEq, Repr

/-- A level of the loop stack (R118, Table 04-12). -/
structure LoopLevel where
  off : BitVec 32 := 0
  body : BitVec 32 := 0
  remaining : BitVec 32 := 0
  index : BitVec 32 := 0
  /-- ISEL of the LOOP. -/
  isel : BitVec 5 := 0
  deriving DecidableEq, Repr

/-- The response of a sync operation: status and the 64-bit VALUE word (R293). -/
structure SyncReply where
  status : BitVec 8 := 0
  value : BitVec 64 := 0
  /-- A CLAIM that returned LIMIT (R247). -/
  spent : Bool := false
  deriving DecidableEq, Repr

/-- What holds a slot at its command. -/
inductive Hold where
  | none
  /-- WEN of a sequencer command: the token is not available (R101). -/
  | token
  /-- A sync operation in progress; `reply` once its response is on its way (R295, R299). -/
  | sync (w : Cmd) (reply : Option SyncReply)
  /-- A FENCE whose scope is not yet met (R305). -/
  | fence (w : Cmd)
  /-- END waits for the slot's commands (R104). -/
  | ending (w : Cmd)
  /-- A command fetch suspended for translation (R208). -/
  | xlt
  deriving DecidableEq, Repr

/-- What a FAULT record about a command carries beside the slot. -/
structure FaultAt where
  engine : Nat := 4
  off : Nat := 0xFFFFFFFF
  detail : Nat := 0
  pidx : Nat := 0xFFFFFFFF
  piter : Nat := 0xFFFFFFFF
  deriving DecidableEq, Repr

/-- State of a list slot (Table 04-1), and what the sequencer records for it. -/
structure Slot where
  active : Bool := false
  /-- A preemption or a stop drains the slot (R125, R130). -/
  draining : Bool := false
  /-- The status of the stop that drains it, and what its FAULT record names (R130). -/
  stopping : Option (BitVec 8 × FaultAt) := none
  /-- The access engine has suspended the slot's commands (R125 step 3). -/
  accessOut : Bool := false
  /-- An FLR drains it: its list ends with no image and no record (R386). -/
  quiet : Bool := false
  /-- The drain counts as one of a PREEMPT descriptor (R384). -/
  preemptBy : Option (FuncId × RingId) := none
  listAddr : BitVec 64 := 0
  /-- The 64-byte header, byte 0 in bits 7:0 (R105). -/
  hdr : BitVec 512 := 0
  ctx : BitVec 16 := 0
  origin : Origin := .launch
  pc : BitVec 32 := 0
  /-- S0 to S15; unlisted 0. -/
  sregs : KV (BitVec 64) := []
  /-- T0 to T15; unlisted 0. -/
  toks : KV (BitVec 16) := []
  /-- Innermost level first, at most four. -/
  loops : List LoopLevel := []
  /-- SD0 to SD15: bits 107:0 hold bits 139:32 of the MSD, bit 108 is valid (Table 04-12). -/
  sds : KV (BitVec 109) := []
  sticky : Flags := {}
  cont : BitVec 32 := 0
  hold : Hold := .none
  /-- The command buffer: offset and word of at most 128 commands, newest first (R98). -/
  buf : List (BitVec 32 × Cmd) := []
  /-- Offsets whose fetch failed, with the status (R98). -/
  bad : List (BitVec 32 × BitVec 8) := []
  /-- Offsets of LOOP and SKIP commands already checked since the list started (R119). -/
  checked : List (BitVec 32) := []
  /-- Corrected estimate charged at the start, in 1/256 µJ (R361). -/
  charged : Nat := 0
  /-- Restored from an image: its list did not start at command 0 (R128). -/
  restored : Bool := false
  /-- A fetch of the slot is suspended after a translation fault (R208). -/
  xltFault : Bool := false
  /-- A reset under way is to end the slot (R410). -/
  doomed : Bool := false
  deriving DecidableEq, Repr

/-- Source rows of a skewed copy as read: their bytes; pieces that failed, each by address,
length and 1 poisoned or 2 refused; the parts that failed (R212, R213). -/
structure SkSrc where
  rows : List (List Byte) := []
  bad : List (Nat × Nat × Nat) := []
  bits : Nat := 0
  deriving DecidableEq, Repr

/-- Progress of an access command (Table 08-22). -/
structure Progress where
  rows : BitVec 32 := 0
  bytes : BitVec 32 := 0
  bitmap : BitVec 32 := 0
  newer : Bool := false
  /-- Destinations of a multicast that have failed, or whose path has (R233). -/
  gone : List Nat := []
  /-- Source of a skewed copy, read once (R212). -/
  skew : Option SkSrc := none
  deriving DecidableEq, Repr

/-- A command in an engine queue, or started and not complete. -/
structure QEnt where
  slot : SlotId := 0
  off : BitVec 32 := 0
  /-- The command as resolved by R113. -/
  w : Cmd := 0
  /-- Incarnation of the completion counter recorded at dispatch (R223). -/
  inc : BitVec 8 := 0
  /-- The head found its token below 1 and waits (R101). -/
  tokenWait : Bool := false
  /-- The token of WEN has been consumed. -/
  tokenTaken : Bool := false
  /-- Claim-record entries this command belongs to (R247). -/
  claims : List Nat := []
  prog : Progress := {}
  status : BitVec 8 := 0
  flags : Flags := {}
  bitmap : BitVec 32 := 0
  /-- Units not yet answered: Damsons, packets or multicast destinations. -/
  await : List Nat := []
  /-- Answers received: unit, status, bit of the part bitmap. -/
  got : List (Nat × BitVec 8) := []
  /-- Part bitmaps not yet reported: units whose answer has not reached the engine. -/
  notify : Bool := false
  /-- Queue entries that a GET has filled since it started. -/
  pushed : Nat := 0
  /-- Parameter record of a row command fed from a queue, as read at its start (R164). -/
  rcd : BitVec 512 := 0
  /-- A fabric command: its number, and the packets built since it started (R326). -/
  id : Nat := 0
  sent : Nat := 0
  deriving DecidableEq, Repr

/-- An access program in progress (R227). -/
structure Program where
  ent : QEnt := {}
  /-- The command that the program has reached, as read and resolved, and the incarnation of its
  completion counter then (R223, R227). -/
  cmd : Option (Cmd × BitVec 8) := none
  index : BitVec 32 := 0
  iter : BitVec 32 := 0
  bitmap : BitVec 32 := 0
  changed : Bool := false
  deriving DecidableEq, Repr

/-- An accumulator tile: 1,024 cells of 96 bits, cell 32i + j at bits 96(32i + j); three
flag bits NAN, PINF, NINF a cell (R84, Table 04-12); a saturation bit a cell (R82). -/
structure Tile where
  cells : BitVec 98304 := 0
  cflags : BitVec 3072 := 0
  sat : BitVec 1024 := 0
  deriving DecidableEq, Repr

/-- A reuse latch (R90): register, shape code, format. -/
structure Latch where
  reg : BitVec 3 := 0
  shape : BitVec 3 := 0
  fmt : BitVec 4 := 0
  deriving DecidableEq, Repr

/-- An operand queue (Table 08-21). -/
structure OpQueue where
  base : BitVec 21 := 0
  entry : BitVec 7 := 0
  count : BitVec 11 := 0
  consumer : BitVec 2 := 0
  head : BitVec 32 := 0
  tail : BitVec 32 := 0
  deriving DecidableEq, Repr

/-- An entry of the claim record (R247). -/
structure Claim where
  id : Nat := 0
  slot : SlotId := 0
  ctx : BitVec 16 := 0
  handle : BitVec 64 := 0
  word : BitVec 64 := 0
  /-- The slot has reached its next CLAIM on the handle, or END. -/
  closed : Bool := false
  /-- Commands dispatched since the CLAIM and not complete. -/
  live : Nat := 0
  deriving DecidableEq, Repr

/-- A TLB entry (R207): context, page size, device page number, and physical page address:
a slow-tier physical or a PCIe address. -/
structure TlbEnt where
  ctx : BitVec 16 := 0
  /-- A 2 MiB page; else 64 KiB. -/
  big : Bool := false
  vpn : Nat := 0
  phys : Nat := 0
  writable : Bool := false
  /-- The untranslated PCIe address whose translation through ATS this is (R206). -/
  ats : Option Nat := none
  deriving DecidableEq, Repr

/-- A translation walk in progress (R206, R208). -/
structure Walk where
  ctx : BitVec 16 := 0
  /-- Device address that missed. -/
  va : BitVec 56 := 0
  write : Bool := false
  level : Nat := 0
  /-- Slow-tier physical address of the table to read. -/
  table : BitVec 56 := 0
  /-- The command that missed: its slot, its offset, and whether a program issued it. -/
  slot : SlotId := 0
  off : BitVec 32 := 0
  prog : Bool := false
  deriving DecidableEq, Repr

/-- Core states of Table 13-4. -/
inductive CState where
  | c0 | c1 | c2 | c3
  deriving DecidableEq, Repr

/-- Progress monitoring of one engine (R403). -/
structure Monitor where
  count : BitVec 64 := 0
  /-- Count at the last sample at which it moved, and the counter then. -/
  seen : BitVec 64 := 0
  since : BitVec 64 := 0
  /-- Samples in a row that found progress owed and no movement, and the one before them. -/
  stale : Nat := 0
  deriving DecidableEq, Repr

/-- One core position. -/
structure Core where
  ready : List ReadyEnt := []
  /-- Four list slots; unlisted inactive. -/
  slots : KV Slot := []
  /-- Slot last served by the sequencer, for the rotation of R97; log 121. -/
  served : Nat := 3
  /-- ACCEPTED of the launch window (R95). -/
  accepted : BitVec 32 := 0
  /-- Queues of the matrix, vector, row and access engines by number; unlisted empty (R99). -/
  queues : KV (List QEnt) := []
  /-- Commands started and not complete, by engine; unlisted none. -/
  running : KV (List QEnt) := []
  program : Option Program := none
  /-- Commands withdrawn by a preemption under way, by 4 slot + engine (R125). -/
  withdrawn : KV (List QEnt) := []
  /-- X0 to X7: 2,048 bytes, byte 0 in bits 7:0; unlisted 0 (R134). -/
  xregs : KV (BitVec 16384) := []
  accs : KV Tile := []
  /-- V0 to V15: 4,096 bytes (R135). -/
  vregs : KV (BitVec 32768) := []
  /-- Tags in the order X0-X7, A0-A3, V0-V15; unlisted 0 (R136). -/
  tags : KV (BitVec 128) := []
  latchA : Option Latch := none
  latchB : Option Latch := none
  /-- Statistics entries, stored XOR the empty entry 0xFFFF_0000_0000_0000, so unlisted is
  empty (R168). -/
  stats : KV (BitVec 64) := []
  /-- Stored check bytes XOR the right ones, unlisted 0: of 32-byte word n of the register with tag
  t at 512 t + n, and of 32-byte word n of the statistics memory (R194, R199). -/
  regChk : KV (BitVec 32) := []
  statChk : KV (BitVec 32) := []
  /-- Context of each statistics block, plus 1; unlisted 0 records none (R171). -/
  statCtx : KV Nat := []
  opqs : KV OpQueue := []
  /-- Counters of Table 04-13 by offset; unlisted 0. -/
  counters : KV (BitVec 64) := []
  claims : List Claim := []
  nextClaim : Nat := 0
  /-- TLB of the sequencer, 32 entries, newest first. -/
  tlbSeq : List TlbEnt := []
  /-- TLB of the access engine, 256 entries, newest first. -/
  tlbAcc : List TlbEnt := []
  /-- Walks in progress: 0 the access engine, 1 + slot a fetch. -/
  walks : KV Walk := []
  /-- The access engine is suspended for translation (R208). -/
  xltAcc : Bool := false
  /-- Slot of the command that faulted. -/
  xltBy : Option SlotId := none
  /-- Engines in reset, by number (R403, R412). -/
  inReset : List Engine := []
  /-- C-state; every core is in C3 at start-up (R356). -/
  cst : CState := .c3
  waking : Bool := false
  parked : Bool := false
  /-- Credit lent in this period, in 1/256 µJ; none while the core does not lend (R364). -/
  lent : Option Nat := none
  mons : KV Monitor := []
  /-- Slab words with their unread bit set (R235), by word number of the core. -/
  unread : KV Bool := []
  /-- Ejection buffer of the router: flits for the core, at most 32 (R182). -/
  eject : List Flit := []
  deriving DecidableEq, Repr

/-! ### Clusters, memories, mesh (chapters 07, 08, 13) -/

/-- Scheduling and thermal state of a cluster (R359 to R362, R371). -/
structure Cluster where
  /-- B_c in 1/256 µJ. -/
  balance : Int := 0
  /-- G_c of the current period in 1/256 µJ. -/
  grant : Nat := 0
  /-- Learned factors by ECLASS, stored minus 256; unlisted is 256 (R360). -/
  factors : KV Int := []
  /-- The reservation: core and list address (R362). -/
  reserved : Option (CoreId × BitVec 64) := none
  /-- Lists that qualified and wait for the reservation. -/
  qualified : List (CoreId × BitVec 64) := []
  /-- Requests held in the slots of the eight port controllers; unlisted none (R188). -/
  reqs : KV Nat := []
  /-- Sampled T_c in °C. -/
  temp : BitVec 8 := 0
  /-- f_c in units of 1/256, saturating (Table 13-6). -/
  taper : BitVec 8 := 0
  /-- Always-on counter at the last POWER record of a taper entry or exit (Table 13-11). -/
  taperAt : Option (BitVec 64) := none
  /-- 0 below 95, 1 in the taper, 2 at or above 105 (Table 13-11). -/
  thermal : Nat := 0
  deriving DecidableEq, Repr

/-- Power state of a memory (Table 07-4). -/
inductive PState where
  | on | ret | off
  deriving DecidableEq, Repr

/-- One slab or segment (R190 to R201). -/
structure Mem where
  st : PState := .on
  /-- Transition under way. -/
  target : Option PState := none
  /-- A transition out of OFF ends in RET (R191). -/
  toRet : Bool := false
  /-- Next word the scrubber reads. -/
  scrub : Nat := 0
  /-- Corrected halves queued for write-back, oldest first, at most 4: half address, and the
  data of the correction. -/
  wb : List (Nat × BitVec 256) := []
  /-- When the last MEMORY event for corrected words was raised (R200). -/
  corrAt : Option (BitVec 64) := none
  /-- When the running scrub pass began (R201). -/
  passAt : BitVec 64 := 0
  deriving DecidableEq, Repr

/-- Tag of a slow-tier line (Table 10-5). -/
structure LineTag where
  epoch : BitVec 24 := 0
  poison : Bool := false
  /-- Bytes 76 to 79 disagree with the complement (R261). -/
  torn : Bool := false
  deriving DecidableEq, Repr

/-! ### Slow tier and Damsons (chapter 10) -/

/-- A part of a Damson command (R273). -/
structure Part where
  core : CoreId := 0
  slot : SlotId := 0
  off : BitVec 32 := 0
  ctx : BitVec 16 := 0
  /-- Number of the command. -/
  id : Nat := 0
  /-- The resolved command. -/
  w : Cmd := 0
  /-- SEED of the issuing list (R275). -/
  seed : BitVec 64 := 0
  /-- The DSET image, bytes 0 to 127 (R269). -/
  image : BitVec 1024 := 0
  /-- The GANG check has been made; it found a NONFINITE part (R279). -/
  gangDone : Bool := false
  gangBlocked : Bool := false
  /-- Its answer is lost with the die (R284). -/
  lost : Bool := false
  deriving DecidableEq, Repr

/-- An update part that runs: its result status and entry (Table 10-10), and whether it
applies. -/
structure RunPart where
  part : Part := {}
  status : BitVec 8 := 0
  entry : BitVec 1024 := 0
  applied : Bool := false
  deriving DecidableEq, Repr

/-- An answer of a Damson on its way to the issuing engine (R280, R487). -/
structure Answer where
  core : CoreId := 0
  id : Nat := 0
  status : BitVec 8 := 0
  /-- The descriptor that DREAD returns. -/
  data : Option (BitVec 1024) := none
  deriving DecidableEq, Repr

/-- One Damson. -/
structure Damson where
  /-- Group descriptors 0 to 4,095: 128 bytes, byte 0 in bits 7:0; unlisted 0 (R268, R269). -/
  groups : KV (BitVec 1024) := []
  /-- Update parts in the order they reached it (R282). -/
  updates : List Part := []
  running : Option RunPart := none
  /-- DSET and DREAD parts on their way or waiting behind an update. -/
  descr : List Part := []
  answers : List Answer := []
  inReset : Bool := false
  deriving DecidableEq, Repr

/-- What a request of the host or a host-class core was answered (Table 14-3). -/
inductive Reply where
  | none
  | data (bytes : List Byte)
  /-- Data with the poisoned attribute. -/
  | poisoned (bytes : List Byte)
  | done
  | dropped
  | unsupported
  | aborted
  /-- An access-fault exception of a host-class core (R204). -/
  | fault
  /-- No answer: the link is down. -/
  | noLink
  /-- A status of the D-code or of a refusal, for other requesters. -/
  | status (s : BitVec 8)
  deriving DecidableEq, Repr

/-- A request in the pool of a channel, with the epoch that it captured (R262), the bytes that stood
where it writes, and the answer it gets. Requests to one line take effect in the order in which they
enter the pool (R264), so its effect is that of its entry, and its answer waits (log 20). -/
structure Pooled where
  req : TierReq
  epoch : BitVec 24
  old : List Byte := []
  reply : Reply := .none
  deriving DecidableEq, Repr

/-- One DDR channel (R264 to R267). -/
structure Channel where
  /-- Requests waiting in the pool, oldest first. -/
  pool : List Pooled := []
  refresh : Bool := false
  retrain : Bool := false
  /-- Next line the patrol scrubber reads. -/
  scrub : Nat := 0
  /-- Requests refused with RETRY and how often in a row. -/
  refused : List (TierReq × Nat) := []
  deriving DecidableEq, Repr

/-! ### Synchronisation (chapter 11) -/

inductive EntState where
  | free | inUse | quarantined
  deriving DecidableEq, Repr

/-- A sync object table entry (R288, Table 11-1). -/
structure SyncEnt where
  st : EntState := .free
  inc : BitVec 8 := 0
  owner : BitVec 16 := 0
  /-- 0 COUNTER, 1 BARRIER, 2 SEMAPHORE, 3 WORKCTR. -/
  ty : BitVec 2 := 0
  /-- VALUE, or CTR. -/
  value : BitVec 48 := 0
  limit : BitVec 48 := 0
  epoch : BitVec 16 := 0
  n : BitVec 21 := 0
  gen : BitVec 16 := 0
  arrived : Nat := 0
  held : Nat := 0
  map : Bool := false
  curMap : BitVec 64 := 0
  nextMap : BitVec 64 := 0
  deriving DecidableEq, Repr

/-- Who awaits the response of an operation at a home engine. -/
inductive Asker where
  | unit (x : Waiter)
  | remote (src : BitVec 14) (tag : BitVec 16) (tagInc : BitVec 8) (fibre : BitVec 3)
  deriving DecidableEq, Repr

/-- A wait record (R299, R307). -/
structure WaitRec where
  who : Asker
  ctx : BitVec 16
  handle : BitVec 64
  target : BitVec 48
  cond : BitVec 2
  take : Bool
  ven : Bool
  /-- The WAIT has a timeout (R308). -/
  timed : Bool
  /-- The object's home is another module. -/
  remote : Bool
  deriving DecidableEq, Repr

/-- A subscription held at this home by another module (R307). -/
structure HomeSub where
  module : BitVec 14 := 0
  /-- Half of the module that holds it. -/
  half : HalfId := 0
  index : BitVec 16 := 0
  seq : BitVec 16 := 0
  deriving DecidableEq, Repr

/-- A subscription of a half of this module to a remote object (R307): the last update's
sequence, if any, and state. -/
structure MySub where
  half : HalfId := 0
  handle : BitVec 64 := 0
  seq : Option (BitVec 16) := none
  state : BitVec 240 := 0
  /-- Type and MAP of the object, as the answer to the subscription gave them (log 24). -/
  ty : BitVec 2 := 0
  map : Bool := false
  /-- The home refused it; the half polls every 10 µs. -/
  refused : Bool := false
  deriving DecidableEq, Repr

/-- A completion-counter addition on its way to its home engine (R223). -/
structure CounterAdd where
  index : BitVec 16 := 0
  inc : BitVec 8 := 0
  ctx : BitVec 16 := 0
  /-- The module that sent it, where it came as a NOTIFY packet. -/
  src : Option (BitVec 14) := none
  deriving DecidableEq, Repr

/-- A sync-port slot of a host-class core (Table 18-14). -/
structure SyncPort where
  busy : Bool := false
  result : BitVec 64 := 0
  value : BitVec 64 := 0
  /-- Bytes of the command being assembled (R478). -/
  cmd : Cmd := 0
  /-- The operation waits for a sync tag. -/
  queued : Bool := false
  reply : Option SyncReply := none
  deriving DecidableEq, Repr

/-- A remote sync request outstanding (R306). -/
structure SyncReq where
  who : Waiter
  ctx : BitVec 16
  /-- The resolved command. -/
  w : Cmd
  posted : Bool
  /-- A WAIT with TAKE that waits at the home, as its answer has said (R307). -/
  standing : Bool := false
  deriving DecidableEq, Repr

structure Sync where
  /-- Entries of both halves by index; an unlisted entry is `base`. -/
  ents : KV SyncEnt := []
  base : SyncEnt := {}
  waits : List WaitRec := []
  homeSubs : List HomeSub := []
  mySubs : List MySub := []
  adds : List CounterAdd := []
  ports : KV SyncPort := []
  /-- Outstanding remote requests by tag. -/
  reqs : List (Nat × SyncReq) := []
  /-- Incarnations of the 4,096 sync tags; unlisted 0. -/
  tagInc : KV (BitVec 8) := []
  tagQuar : KV Bool := []
  /-- Handle of the operation that last held a sync tag; unlisted 0. -/
  tagHandle : KV (BitVec 64) := []
  /-- A late-response event has been posted since the last telemetry sample, by half (R311). -/
  lateSent : List HalfId := []
  deriving DecidableEq, Repr

/-! ### Fabric (chapter 12) -/

/-- An outstanding data request of the fabric (R328). -/
structure FabReq where
  port : PortId := 0
  tag : Nat := 0
  inc : BitVec 8 := 0
  dest : BitVec 14 := 0
  core : CoreId := 0
  slot : SlotId := 0
  ctx : BitVec 16 := 0
  /-- Number of the command, and of the packet within it. -/
  id : Nat := 0
  ix : Nat := 0
  /-- Row of the packet. -/
  row : Nat := 0
  /-- Type of the request packet. -/
  ptype : BitVec 8 := 0
  /-- Where an answer's data goes: a device address, or none; and its length. -/
  addr : Option Nat := none
  len : Nat := 0
  deriving DecidableEq, Repr

/-- One fibre of a port: link sequence numbers and unacknowledged frames (R319, R321). -/
structure Fibre where
  txSeq : BitVec 12 := 0
  rxSeq : BitVec 12 := 0
  /-- Frames held for replay, oldest first: the number of a frame, and the packet whose last slot it
  carries. -/
  replay : List (BitVec 12 × Option Packet) := []
  /-- The frame that a NAK last named, and the times it has been replayed. -/
  nakSeq : BitVec 12 := 0
  replays : Nat := 0
  /-- NAKs sent, by expected sequence number, newest first. -/
  naks : List (BitVec 12) := []
  /-- Slots sent against credits that the receiver has not returned, by channel; unlisted none (R322). -/
  owed : KV Nat := []
  failed : Bool := false
  deriving DecidableEq, Repr

structure Fabric where
  /-- Fibres by port × 8 + fibre. -/
  fibres : KV Fibre := []
  reqs : List FabReq := []
  /-- Number of the next fabric command. -/
  nextId : Nat := 0
  /-- Tag incarnations by port × 65,536 + tag; unlisted 0. -/
  tagInc : KV (BitVec 8) := []
  tagQuar : KV Bool := []
  /-- Packets built here and on their way to a port, oldest first (R335). -/
  inject : List Packet := []
  /-- Packets received at a port and not yet routed, oldest first. -/
  arrived : List (PortId × Packet) := []
  /-- Packets that have left this module, newest first: the port, and the packet. -/
  sent : List (PortId × Packet) := []
  /-- Packets accepted for delivery at this module, oldest first. -/
  delivered : List (Option PortId × Packet) := []
  /-- The switch of each dimension is at THROUGH; unlisted BYPASS (R342). -/
  through : KV Bool := []
  /-- Pip drives the switch of the dimension. -/
  driven : KV Bool := []
  /-- Both ports of the dimension have begun to train and have not been UP together since (R343). -/
  joining : KV Bool := []
  /-- Identities for which a DEST_ABSENT event was posted since the last 100 ms mark. -/
  absentSent : List (BitVec 14) := []
  lateSent : List PortId := []
  deriving DecidableEq, Repr

/-! ### Host interface (chapter 14) -/

/-- A submission ring (R379 to R387); its registers are in `regs`. -/
structure Ring where
  cons : BitVec 32 := 0
  /-- A descriptor taken and waiting for a free ready-set entry (R383). -/
  waiting : Option (BitVec 512 × BitVec 32) := none
  /-- The waiting descriptor was taken before the ring was last enabled. -/
  stale : Bool := false
  /-- DOORBELL as last read (R387). -/
  doorbell : BitVec 32 := 0
  deriving DecidableEq, Repr

/-- An event queue (R390, R395 to R397). -/
structure Evq where
  prod : BitVec 32 := 0
  cons : BitVec 32 := 0
  seq : BitVec 32 := 0
  /-- Records written since the last MSI-X message. -/
  unsent : Nat := 0
  deriving DecidableEq, Repr

/-- A PREEMPT descriptor in progress (R384): its ring, its descriptor and index, the lists
preempted or withdrawn, the slots of its core still draining, and whether a list ran on. -/
structure Preempting where
  func : FuncId
  ring : RingId
  desc : BitVec 512
  index : BitVec 32
  core : CoreId
  ended : Nat := 0
  slots : List SlotId := []
  failed : Bool := false
  /-- The ring still stands at this descriptor. -/
  live : Bool := true
  deriving DecidableEq, Repr

/-- The fields of an event record before its queue numbers it (Table 14-12). -/
structure Ev where
  typ : Nat
  husk : Bool := false
  status : BitVec 8 := 0
  kind : Nat := 0
  engine : Nat := 7
  src : Nat := 0
  ctx : Nat := 0xFFFF
  offset : Nat := 0xFFFFFFFF
  /-- The 40 payload bytes, byte 24 lowest. -/
  payload : Nat := 0
  /-- Always-on counter at the event, of a record that waits to be written (R391). -/
  stamp : Option (BitVec 64) := none
  deriving DecidableEq, Repr

/-- A line in the cache of a host-class core (R25, R132). -/
structure CacheLine where
  valid : Bool := false
  /-- It holds a store that memory does not. -/
  dirty : Bool := false
  data : BitVec 512 := 0
  deriving DecidableEq, Repr

/-- Requester of a host-memory request: the function of its context, and the PASID that the
context gives it (R376). -/
structure HostId where
  func : BitVec 4 := 0
  pasid : Option (BitVec 20) := none
  deriving DecidableEq, Repr

structure Hif where
  /-- Rings by function × 256 + ring. -/
  rings : KV Ring := []
  evqs : KV Evq := []
  /-- Cached context-table entries (R376): context and its 64 bytes. -/
  ctxCache : List (Nat × BitVec 512) := []
  /-- Readiness items whose records wait for queue 0, each with the time it was met (R391, R398). -/
  held : List (Nat × BitVec 64) := []
  /-- Records that wait until queue 0 is enabled (R414, R438). -/
  heldRecs : List Ev := []
  /-- Records that wait while the PF is in D3hot, with their queues (R457). -/
  waitRecs : List (Nat × Ev) := []
  /-- MSI-X messages sent, newest first: function and vector. -/
  msix : List (Nat × Nat) := []
  /-- MSI-X vectors masked, by function × 1,024 + vector. -/
  masked : KV Bool := []
  pendingMsix : KV Bool := []
  reply : Reply := .none
  hcReply : KV Reply := []
  slabReply : Reply := .none
  tierReply : Reply := .none
  /-- PREEMPT descriptors in progress (R384). -/
  preempts : List Preempting := []
  /-- Host memory by 64-byte line: 1 reads complete with an error, 2 reads are poisoned; unlisted
  neither (R213, log 122). -/
  hostLines : KV Nat := []
  linkUp : Bool := false
  d3hot : Bool := false
  /-- Host-class cores' context in force since their last release from reset (R378). -/
  hcCtx : KV (BitVec 16) := []
  /-- Lines cached by the host-class cores, by core × 2^60 + line; unlisted none (R132). -/
  hcCache : KV CacheLine := []
  /-- Requester of the last host-memory request of a context. -/
  hostId : HostId := {}
  /-- Functions that have logged an Unsupported Request for a write under AER (R375). -/
  aerUr : KV Bool := []
  /-- ATS invalidations completed. -/
  atsDone : Nat := 0
  /-- HIF_CTX_INV under way: the value written (R376). -/
  ctxInv : Option (BitVec 32) := none
  /-- Write halves and read latches of R478, by agent × 2^26 + offset; the top bit says that the
  agent holds one. -/
  half : KV (BitVec 33) := []
  latch : KV (BitVec 65) := []
  deriving DecidableEq, Repr

/-! ### Power and pins (chapters 13, 17) -/

/-- Stages of a profile change of a half (R352). -/
inductive PStage where
  | relockDown (p : BitVec 2)
  | rampDown (p : BitVec 2)
  | rampUp (p : BitVec 2)
  | relockUp (p : BitVec 2)
  deriving DecidableEq, Repr

structure Power where
  /-- The half's profile change under way; unlisted none. -/
  stages : KV PStage := []
  /-- A write to PWR_PROFILE held while BUSY (R479). -/
  heldProfile : Option (BitVec 32) := none
  /-- Profile whose limit applies in this credit period (R352 step 3). -/
  limitProfile : BitVec 2 := 0
  /-- Energy limit against which the running period is measured. -/
  measureProfile : BitVec 2 := 0
  /-- Halves held at P4 by temperature (R371). -/
  thermalP4 : List HalfId := []
  /-- Slow-tier admission cap in percent (R370). -/
  cap : Nat := 100
  /-- Pool of each half in 1/256 µJ (R364). -/
  pools : KV Nat := []
  /-- Draws in force, most recent first: cluster and amount. -/
  draws : List (Nat × Nat) := []
  /-- Halves whose mesh clock is stopped (R365). -/
  meshStopped : List HalfId := []
  /-- Energy drawn below the 1 µJ that PWR_ENERGY counts, in 1/256 µJ. -/
  energyFrac : Nat := 0
  /-- Always-on counter at the last POWER record of cause 0x06 (R370). -/
  capAt : Option (BitVec 64) := none
  /-- Host-class cores gated (Table 01-4). -/
  hcGated : List HcId := []
  deriving DecidableEq, Repr

/-- Input and output pins, rails and the power-side controller. -/
structure Board where
  /-- 48 V present. -/
  v48 : Bool := false
  /-- The always-on domain is powered (R28). -/
  auxOn : Bool := false
  /-- Rails of Table 17-3 in regulation, in order, 0 to 7. -/
  rails : Nat := 0
  /-- The rails are sequencing up. -/
  sequencing : Bool := false
  pwrgd : Bool := false
  wakeN : Bool := false
  /-- Steps of Table 17-7 taken after the rails: 0 none, 1 step 10, 2 step 11. -/
  upSteps : Nat := 0
  /-- Width and speed with which the PCIe link trains. -/
  link : BitVec 5 × BitVec 4 := (0, 0)
  /-- FAULT_N asserted by Pip for R440, by Pip for a second failed module reset (Table 15-5), by
  the power-side controller. -/
  faultPip : Bool := false
  faultModule : Bool := false
  faultPsc : Bool := false
  thermtrip : Bool := false
  /-- Rails held off until a PWR_EN cycle (R33, R460, R470). -/
  hold : Bool := false
  holdCycle : Bool := false
  /-- Watchdog power cycles in the controller's own memory, and the always-on counter at the
  cycles counted towards R33. -/
  cycles : Nat := 0
  recent : List Nat := []
  pipReset : Bool := false
  /-- Always-on counter at the last watchdog refresh (R31). -/
  refreshAt : BitVec 64 := 0
  /-- An orderly power-down has run since the ROM last started (R467). -/
  shut : Bool := false
  straps : BitVec 6 := 0x3F
  i3cAddr : Option (BitVec 7) := none
  i3cSel : Byte := 0
  i3cReply : List Byte := []
  /-- Filtered THROTTLE_N asserted, its hold in force, unstable (R471, R472). -/
  thrLow : Bool := false
  thrHold : Bool := false
  thrUnstable : Bool := false
  /-- Always-on counter when THROTTLE_N became effective, and when it ceased to be. -/
  thrSince : BitVec 64 := 0
  thrEnded : Option (BitVec 64) := none
  thrChange : BitVec 64 := 0
  perstLow : Bool := true
  deriving DecidableEq, Repr

/-! ### Recovery, Husk, security (chapters 15, 16) -/

/-- A reset under way (R408 to R413). -/
structure RunReset where
  dom : Domain
  /-- Level requested first, 0 to 9 as Table 15-8. -/
  fromLevel : Nat := 0
  cause : Nat := 0
  engine : Nat := 0
  target : Nat := 0
  requested : BitVec 64 := 0
  lists : Nat := 0
  claims : List Claim := []
  listAddr : BitVec 64 := 0
  ctx : BitVec 16 := 0xFFFF
  /-- Slots with a command in the engine when its reset began (R410). -/
  slots : List SlotId := []
  retried : Bool := false
  deriving DecidableEq, Repr

/-- A fence whose drain has not ended (R417). -/
structure FenceDrain where
  core : CoreId
  cause : Nat := 0
  isolated : BitVec 64 := 0
  deriving DecidableEq, Repr

structure Ras where
  resets : List RunReset := []
  drains : List FenceDrain := []
  /-- Cores whose fence is being cleared. -/
  clearing : List Nat := []
  clearingCl : List Nat := []
  /-- Firmware and user host-class cores: beats seen in the current interval, misses in a row. -/
  beats : KV Bool := []
  misses : KV Nat := []
  /-- When each firmware core was reset for its heartbeat (R405). -/
  hbResets : KV (List (BitVec 64)) := []
  lastBeat : KV (BitVec 64) := []
  deriving DecidableEq, Repr

/-- A record in Pip's queue (R430): RKIND, BODY, AUX and the time of its acceptance. -/
structure HuskEnt where
  kind : BitVec 8 := 0
  body : BitVec 512 := 0
  aux : BitVec 320 := 0
  time : BitVec 64 := 0
  deriving DecidableEq, Repr

/-- The Husk store (R424 to R431). -/
structure Husk where
  /-- Records accepted and not yet written, oldest first. -/
  queue : List HuskEnt := []
  next : Nat := 0
  /-- Copies A and B by slot; unlisted 0. -/
  mramA : KV (BitVec 2048) := []
  mramB : KV (BitVec 2048) := []
  /-- Records copied to NOR, by RSEQ. -/
  nor : KV (BitVec 2048) := []
  norNext : Nat := 0
  oldest : Nat := 0
  /-- Checkpoint signatures by RSEQ. -/
  sigs : KV (BitVec 37016) := []
  lastCkpt : Nat := 0
  sinceCkpt : Nat := 0
  boots : BitVec 32 := 0
  /-- Erase counts by block; blocks mapped out, the n-th replaced by spare 4,032 + n. -/
  erases : KV Nat := []
  badBlocks : List Nat := []
  /-- Log blocks retired without a spare, and the position of the rotation (R428). -/
  retired : List Nat := []
  norPos : Nat := 0
  ringMode : Bool := false
  /-- Persistent metadata (R429). -/
  fences : BitVec 960 := 0
  fencedClusters : BitVec 60 := 0
  tierFailed : BitVec 60 := 0
  syncRestarts : Nat := 0
  cyclesSeen : Nat := 0
  /-- Prefix of the ageing history: thresholds reported, by register (R436). -/
  eolSeen : KV Nat := []
  /-- The selected record's fetch is under way. -/
  fetching : Bool := false
  stopped : Bool := false
  deriving DecidableEq, Repr

/-- Stages of the SPDM responder (R446). -/
inductive Spdm where
  | idle | version | capabilities | algorithms
  deriving DecidableEq, Repr

structure Sec where
  /-- Fuse bits of the 64 slots, three a slot (R441). -/
  fuses : BitVec 192 := 0
  /-- Fused map of enabled cores (R7): 1 = enabled. Log 7. -/
  fusedMap : BitVec 960 := 0
  /-- Slabs that failed test, by core; unlisted 0 (Table 07-5). -/
  failedSlabs : KV (BitVec 8) := []
  /-- The banks as the ROM last found them. -/
  banks : List Bank := []
  running : Nat := 0
  /-- Bank tried first (the bank-order word). -/
  first : Nat := 0
  booted : Bool := false
  udsLocked : Bool := false
  /-- SHA3-512 of the accepted manifest (R443). -/
  manifest : BitVec 512 := 0
  measurements : List (BitVec 512) := []
  /-- A commit being blown: target count. -/
  blowing : Option Nat := none
  spdm : Spdm := .idle
  /-- A key exchange is under way; a session is open. -/
  keyExchange : Bool := false
  session : Bool := false
  ideKeys : KV (BitVec 256) := []
  ideOn : List (Fin 2) := []
  /-- The digests and blocks of the last SPDM response, and whether it was an error. -/
  response : List (BitVec 512) := []
  spdmError : Bool := false
  /-- Source of the update under way (Table 16-6). -/
  updSrc : BitVec 64 := 0
  /-- Always-on counter at the last SECURITY record of cause LOCK (R449). -/
  lockAt : Option (BitVec 64) := none
  deriving DecidableEq, Repr

/-! ### The whole module -/

structure State where
  /-- Commands waiting, first in first out. -/
  pending : List Instr
  /-- The always-on counter (R349), 50 MHz ticks. -/
  aon : BitVec 64
  /-- MODEL's own: how many free values have been taken (log 6). -/
  fresh : Nat
  /-- Every byte of the four address spaces; keys in Machine/Ops.lean. -/
  mem : List Host.Cell
  /-- Stored check bytes of a 32-byte half XOR the right ones; unlisted 0 (R194, R195). -/
  chk : KV (BitVec 32)
  /-- Halves whose uncorrectable error has been reported (R200); unlisted not. -/
  reported : KV Bool
  /-- Tags of slow-tier lines, by line. -/
  lines : KV LineTag
  /-- Set-up registers by BAR0 offset, stored XOR their reset values (Table 18-3). -/
  regs : KV (BitVec 64)
  cores : KV Core
  clusters : KV Cluster
  mems : KV Mem
  /-- MEM_TLB_INV under way: the value written, and LO and HI as it was. -/
  tlbInv : Option (BitVec 32 × BitVec 64 × BitVec 64)
  /-- Flits on their way: router to reach, flit. -/
  flits : List (Nat × Flit)
  /-- Flits lost at routers out of service, newest first. -/
  lostFlits : List Flit
  /-- Bytes per DIMM in GiB (C of R257) and banks a channel, once read. -/
  dimmGib : Nat
  dimmBanks : Nat
  damsons : KV Damson
  channels : KV Channel
  sync : Sync
  fab : Fabric
  hif : Hif
  power : Power
  board : Board
  ras : Ras
  husk : Husk
  sec : Sec
  deriving DecidableEq, Repr

/-- Grade A with local index 15 of clusters 28 to 59 disabled (log 7). -/
def resetFusedMap : BitVec 960 :=
  (List.range 32).foldl
    (fun m i => m &&& ~~~(1#960 <<< (((i + 28) / 12 * 4 + 3) * 48 + (i + 28) % 12 * 4 + 3)))
    (BitVec.allOnes 960)

/-- The module before 48 V is applied: every register at its Reset column (log 5). -/
def State.reset : State :=
  { pending := [], aon := 0, fresh := 0, mem := [], chk := [], reported := [], lines := [], regs := [],
    cores := [], clusters := [], mems := [], tlbInv := none, flits := [], lostFlits := [],
    dimmGib := 0, dimmBanks := 0, damsons := [], channels := [], sync := {}, fab := {},
    hif := {}, power := {}, board := {}, ras := {}, husk := {},
    sec := { fusedMap := resetFusedMap } }

end Sys2Proof.Machine
end

