-- ==== Sys2Proof/Machine/Ops.lean ====
section
/-! DEFINITION. The named operations over bytes, free values, cores, slots, queues and the
other parts of the state. -/

namespace Sys2Proof.Machine

/-! ### Bytes -/

/-- Key of a slow-tier byte: channel and offset within the channel (R258, log 9). -/
def tierKey (ch off : Nat) : Nat := 2 ^ 64 + ch * 2 ^ 40 + off

/-- Key of a byte of host memory by PCIe address (log 9). -/
def hostKey (addr : Nat) : Nat := 2 ^ 65 + addr

/-- A byte; one that nothing has written reads zero (log 4). -/
def State.byte (s : State) (key : Nat) : Byte := KV.get 0 s.mem key

def State.bytes (s : State) (key : Nat) : Nat → List Byte
  | 0 => []
  | n + 1 => s.byte key :: s.bytes (key + 1) n

def State.putByte (s : State) (key : Nat) (b : Byte) : State :=
  { s with mem := KV.put 0 s.mem key b }

def State.putBytes (s : State) (key : Nat) : List Byte → State
  | [] => s
  | b :: bs => (s.putByte key b).putBytes (key + 1) bs

def State.num (s : State) (key n : Nat) : Nat := leNat (s.bytes key n)

def State.putNum (s : State) (key n v : Nat) : State := s.putBytes key (natLe n v)

/-! ### Free values -/

/-- The next free value (log 6). -/
def State.freeVal (s : State) (n : Nat) : BitVec n := Config.freeBits n s.fresh

def State.took (s : State) : State := { s with fresh := s.fresh + 1 }

/-! ### Cores and slots -/

def State.core (s : State) (c : Nat) : Core := KV.get {} s.cores c

def State.setCore (s : State) (c : Nat) (k : Core) : State :=
  { s with cores := KV.put {} s.cores c k }

def State.modCore (s : State) (c : Nat) (f : Core → Core) : State := s.setCore c (f (s.core c))

def Core.slot (k : Core) (i : Nat) : Slot := KV.get {} k.slots i

def Core.setSlot (k : Core) (i : Nat) (x : Slot) : Core := { k with slots := KV.put {} k.slots i x }

def State.slot (s : State) (c i : Nat) : Slot := (s.core c).slot i

def State.setSlot (s : State) (c i : Nat) (x : Slot) : State :=
  s.modCore c (fun k => k.setSlot i x)

def State.modSlot (s : State) (c i : Nat) (f : Slot → Slot) : State :=
  s.setSlot c i (f (s.slot c i))

/-- Adds to a counter of Table 04-13; a count that wraps never does in service (R131). -/
def State.count (s : State) (c off n : Nat) : State :=
  s.modCore c (fun k => { k with counters := KV.upd 0 k.counters off (· + BitVec.ofNat 64 n) })

def Slot.sreg (x : Slot) (n : Nat) : BitVec 64 := KV.get 0 x.sregs n

def Slot.setSreg (x : Slot) (n : Nat) (v : BitVec 64) : Slot :=
  { x with sregs := KV.put 0 x.sregs n v }

def Slot.tok (x : Slot) (n : Nat) : BitVec 16 := KV.get 0 x.toks n

def Slot.setTok (x : Slot) (n : Nat) (v : BitVec 16) : Slot :=
  { x with toks := KV.put 0 x.toks n v }

/-- Counters of Table 04-13 that count cycles or ticks. -/
def timedCounters : List Nat :=
  [0x000, 0x018, 0x020, 0x030, 0x038, 0x040, 0x058, 0x060, 0x070, 0x080, 0x090, 0x098, 0x0A0, 0x0F0, 0x0F8]

/-- The counter at an offset as a sample reads it: one that counts time is free. -/
def State.counter (s : State) (c off : Nat) : BitVec 64 :=
  if timedCounters.contains off then (s.freeVal 4096).extractLsb' (8 * off) 64 else KV.get 0 (s.core c).counters off

/-- The 512-byte snapshot of the counters (Table 04-13). -/
def State.snapshot (s : State) (c : Nat) : List Byte :=
  ((List.range 64).map (fun i => natLe 8 (s.counter c (8 * i)).toNat)).flatten

/-- Engines by the numbers of RAS_RESET.ENGINE. -/
def engNum : Engine → Nat
  | .matrix => 0
  | .vector => 1
  | .row => 2
  | .access => 3
  | .sequencer => 4

def Core.queue (k : Core) (e : Nat) : List QEnt := KV.get [] k.queues e

def Core.setQueue (k : Core) (e : Nat) (q : List QEnt) : Core :=
  { k with queues := KV.put [] k.queues e q }

def Core.run (k : Core) (e : Nat) : List QEnt := KV.get [] k.running e

def Core.setRun (k : Core) (e : Nat) (q : List QEnt) : Core :=
  { k with running := KV.put [] k.running e q }

/-! ### Geometry of the die (R13) -/

def coreX (c : Nat) : Nat := c % 48
def coreY (c : Nat) : Nat := c / 48
def coreAt (x y : Nat) : Nat := y * 48 + x
def halfOf (c : Nat) : Nat := coreX c / 24
def clusterOf (c : Nat) : Nat := coreY c / 4 * 12 + coreX c / 4
/-- Local index of a core in its cluster. -/
def localIx (c : Nat) : Nat := coreY c % 4 * 4 + coreX c % 4
/-- The core at local index i of cluster k. -/
def clusterCore (k i : Nat) : Nat := coreAt (k % 12 * 4 + i % 4) (k / 12 * 4 + i / 4)
def clusterHalf (k : Nat) : Nat := k % 12 / 6

/-- Enabled by fuse (R7). -/
def State.fused (s : State) (c : Nat) : Bool := bit s.sec.fusedMap c
/-- Fenced, kept in Husk (R416). -/
def State.fenced (s : State) (c : Nat) : Bool := bit s.husk.fences c
/-- The available map (R7, R8). -/
def State.available (s : State) (c : Nat) : Bool :=
  decide (c < 960) && s.fused c && !s.fenced c

/-! ### Small sets -/

def setBit {n : Nat} (w : BitVec n) (i : Nat) (b : Bool) : BitVec n :=
  if b then w ||| BitVec.ofNat n (2 ^ i) else w &&& ~~~(BitVec.ofNat n (2 ^ i))

def insertOnce {α : Type} [DecidableEq α] (l : List α) (a : α) : List α :=
  if a ∈ l then l else l ++ [a]

end Sys2Proof.Machine
end

