-- ==== Sys2Proof/Machine/Registers.lean ====
section
/-! DEFINITION. The set-up registers (chapter 18): where each lies, which bits are written
how, and the raw access to their stored values. -/

namespace Sys2Proof.Machine

/-- The registers of Table 18-3. -/
inductive Reg where
  | hifReady | hifLink | ctxBase | ctxInv | apt | part | hcCtx
  | evqAddr | evqCb | evqCtl | evqDrop | ringAddr | ringCb | ringCtl
  | pwrProfile | pwrIdle | pwrLend | pwrMode | pwrEnergy | pwrCstate | pwrCluStat | pwrClassF
  | synCfg | synDiscard | syncPort
  | fabTopo | portCtrl | portStat | fabLate | bypassCyc | fabAbsent | fabRt
  | tlbInv | tlbInvLo | tlbInvHi | xltResume | rtDown | vportMap | segState | segCorr | segScrub
  | slabState | slabCorr | slabScrub | rtExc
  | dmsPop | dmsSplit | dmsEpochAll | dmsEpoch | dmsDrop | dmsScrub
  | rasReset | rasFence | rasEol | rasEolFru | telemEvt | hangMode | rasHb
  | bbxHead | bbxOldest | bbxSel | bbxStat | bbxData | bbxSig
  | secCtrl | secBootStat | secSvn | fwUpdate
  | sbStat | pipAlert | pipAon | pipTelem | cmapFused | cmapAvail | pipSens
  deriving DecidableEq, Repr

/-- A row of Table 18-3: the register, its first offset, the stride and number of its first
and second index, its bytes, the bits a write stores, clears where it writes 1, sets where it
writes 1, those of `rw` that SEC_LOCK locks (R480), and its reset value. -/
structure RegRow where
  reg : Reg
  base : Nat
  stride : Nat := 8
  count : Nat := 1
  stride2 : Nat := 8
  count2 : Nat := 1
  bytes : Nat := 4
  rw : BitVec 64 := 0
  w1c : BitVec 64 := 0
  w1s : BitVec 64 := 0
  rwl : BitVec 64 := 0
  reset : BitVec 64 := 0
  deriving DecidableEq, Repr

/-- Where the ring registers of the virtual functions are kept: offset of BAR0 of VF n + 1
is `vfBase` + 0x10000 n (Table 18-4). -/
def vfBase : Nat := 0x2000000

def ringRows (base stride count count2 : Nat) : List RegRow :=
  [ { reg := .ringAddr, base := base, stride := stride, count := count, stride2 := 0x20,
      count2 := count2, bytes := 8, rw := 0xFFFFFFFFFFFFF00F },
    { reg := .ringCb, base := base + 8, stride := stride, count := count, stride2 := 0x20,
      count2 := count2, bytes := 8, rw := 0xFFFFFFFFFFFFFFC0 },
    { reg := .ringCtl, base := base + 16, stride := stride, count := count, stride2 := 0x20,
      count2 := count2, rw := 0xFF01, w1c := 4, reset := 0xA00 } ]

def regRowsHif : List RegRow :=
  [ { reg := .hifReady, base := 0 },
    { reg := .hifLink, base := 8 },
    { reg := .ctxBase, base := 0x10, bytes := 8, rw := 0x00FFFFFFFFFF0000, rwl := 0x00FFFFFFFFFF0000 },
    { reg := .ctxInv, base := 0x18 },
    { reg := .apt, base := 0x100, count := 64, bytes := 8, rw := 0xC000000000FFFFFF },
    { reg := .part, base := 0x400, stride := 4, count := 64, rw := 0xF83FFFFF },
    { reg := .hcCtx, base := 0x508, stride := 4, count := 6, rw := 0xFFFF },
    { reg := .hcCtx, base := 0x528, stride := 4, count := 6, rw := 0xFFFF },
    { reg := .evqAddr, base := 0x1000, stride := 0x40, count := 64, bytes := 8, rw := 0xFFFFFFFFFFFFF00F },
    { reg := .evqCb, base := 0x1008, stride := 0x40, count := 64, bytes := 8, rw := 0xFFFFFFFFFFFFFFC0 },
    { reg := .evqCtl, base := 0x1010, stride := 0x40, count := 64, bytes := 8, rw := 0x000FFFFFFFC00001,
      w1c := 2, reset := 0x40000000 },
    { reg := .evqDrop, base := 0x1020, stride := 0x40, count := 64, count2 := 4, bytes := 8,
      rw := 0xFFFFFFFFFFFFFFFF } ]
  ++ ringRows 0x2000 0x2000 1 256 ++ ringRows (vfBase + 0x2000) 0x10000 8 32

def regRowsPwrSyn : List RegRow :=
  [ { reg := .pwrProfile, base := 0x10000, rw := 0x3F, rwl := 3 },
    { reg := .pwrIdle, base := 0x10008, rw := 0x1FFFFFFF, reset := 0xC864028 },
    { reg := .pwrLend, base := 0x10010, rw := 0x1FFFF, reset := 0x64 },
    { reg := .pwrMode, base := 0x10018, rw := 3 },
    { reg := .pwrEnergy, base := 0x10020, bytes := 8 },
    { reg := .pwrCstate, base := 0x10100, stride := 4, count := 60 },
    { reg := .pwrCluStat, base := 0x10400, count := 60, bytes := 8 },
    { reg := .pwrClassF, base := 0x10800, stride := 16, count := 60, stride2 := 16, bytes := 16 },
    { reg := .synCfg, base := 0x20000, rw := 1, rwl := 1 },
    { reg := .synDiscard, base := 0x20008, stride := 4, count := 2, rw := 0xFFFFFFFF },
    { reg := .syncPort, base := 0x21000, stride := 0x400, count := 16, stride2 := 0x40, count2 := 16,
      bytes := 48 } ]

def regRowsFab : List RegRow :=
  [ { reg := .fabTopo, base := 0x30000, rw := 0x0FFFFFFF, rwl := 0x0FFFFFFF, reset := 0x80000000 },
    { reg := .portCtrl, base := 0x30100, stride := 16, count := 6, rw := 0x17, reset := 4 },
    { reg := .portStat, base := 0x30104, stride := 16, count := 6, reset := 0x10 },
    { reg := .fabLate, base := 0x30108, stride := 16, count := 6, rw := 0xFFFFFFFF },
    { reg := .bypassCyc, base := 0x30200, stride := 4, count := 3 },
    { reg := .fabAbsent, base := 0x31000, stride := 4, count := 512, w1c := 0xFFFFFFFF },
    { reg := .fabRt, base := 0x40000, stride := 4, count := 16384, rw := 0xFF } ]

def regRowsMem : List RegRow :=
  [ { reg := .tlbInv, base := 0x50000 },
    { reg := .tlbInvLo, base := 0x50008, bytes := 8, rw := 0x000FFFFFFFFF0000 },
    { reg := .tlbInvHi, base := 0x50010, bytes := 8, rw := 0x000FFFFFFFFF0000 },
    { reg := .xltResume, base := 0x50020 },
    { reg := .rtDown, base := 0x50100, stride := 4, count := 30, rw := 0xFFFFFFFF },
    { reg := .vportMap, base := 0x50200, stride := 4, count := 60, rw := 0xFFFFFF, reset := 0xFAC688 },
    { reg := .segState, base := 0x50400, stride := 4, count := 60 },
    { reg := .segCorr, base := 0x51000, stride := 48, count := 60, stride2 := 4, count2 := 12 },
    { reg := .segScrub, base := 0x52000, stride := 96, count := 60, count2 := 12, bytes := 8 },
    { reg := .slabState, base := 0x1000000, stride := 0x1000, count := 960 },
    { reg := .slabCorr, base := 0x1000040, stride := 0x1000, count := 960, stride2 := 4, count2 := 8 },
    { reg := .slabScrub, base := 0x1000080, stride := 0x1000, count := 960, count2 := 8, bytes := 8 },
    { reg := .rtExc, base := 0x1000100, stride := 0x1000, count := 960, stride2 := 4, count2 := 16,
      rw := 0xFFFFFFC0 } ]

def regRowsDmsRas : List RegRow :=
  [ { reg := .dmsPop, base := 0x60000 },
    { reg := .dmsSplit, base := 0x60008, rw := 0x1FF, rwl := 0x1FF },
    { reg := .dmsEpochAll, base := 0x60010 },
    { reg := .dmsEpoch, base := 0x60040, stride := 4, count := 10, rw := 0xFFFFFF },
    { reg := .dmsDrop, base := 0x60080, stride := 4, count := 10, rw := 0xFFFFFFFF },
    { reg := .dmsScrub, base := 0x60100, count := 20, bytes := 8 },
    { reg := .rasReset, base := 0x70000 },
    { reg := .rasFence, base := 0x70008 },
    { reg := .rasEol, base := 0x70010, reset := 0xFFFF },
    { reg := .rasEolFru, base := 0x70014, reset := 0xFFFF },
    { reg := .telemEvt, base := 0x70018, rw := 0xFFFF },
    { reg := .hangMode, base := 0x70040, stride := 4, count := 9, rw := 7, reset := 3 },
    { reg := .rasHb, base := 0x70080, stride := 4, count := 16 },
    { reg := .bbxHead, base := 0x71000, bytes := 8 },
    { reg := .bbxOldest, base := 0x71008, bytes := 8 },
    { reg := .bbxSel, base := 0x71010, bytes := 8, rw := 0xFFFFFFFFFFFFFFFF },
    { reg := .bbxStat, base := 0x71018, w1c := 0xFFFF0000, reset := 0x4000 },
    { reg := .bbxData, base := 0x71100, stride := 256, stride2 := 256, bytes := 256 },
    { reg := .bbxSig, base := 0x72000, stride := 4864, stride2 := 4864, bytes := 4864 } ]

def regRowsSecPip : List RegRow :=
  [ { reg := .secCtrl, base := 0x80000, w1c := 0xFFFF0000, w1s := 1, reset := 2 },
    { reg := .secBootStat, base := 0x80004 },
    { reg := .secSvn, base := 0x80008, reset := 0x7F0000 },
    { reg := .fwUpdate, base := 0x80010, bytes := 8 },
    { reg := .sbStat, base := 0x90000, reset := 0x200 },
    { reg := .pipAlert, base := 0x90004 },
    { reg := .pipAon, base := 0x90008, bytes := 8 },
    { reg := .pipTelem, base := 0x90010, stride := 16, stride2 := 16, bytes := 16 },
    { reg := .cmapFused, base := 0x90100, stride := 4, count := 30 },
    { reg := .cmapAvail, base := 0x90180, stride := 4, count := 30 },
    { reg := .pipSens, base := 0x90200, stride := 136, stride2 := 136, bytes := 136 } ]

def regRows : List RegRow :=
  regRowsHif ++ regRowsPwrSyn ++ regRowsFab ++ regRowsMem ++ regRowsDmsRas ++ regRowsSecPip

/-- Index of the register, second index, and byte within it, of an offset a row covers. -/
def RegRow.hit (r : RegRow) (off : Nat) : Option (Nat × Nat × Nat) :=
  if off < r.base then none
  else
    let d := off - r.base
    let i := if r.count = 1 then 0 else d / r.stride
    let d1 := d - i * r.stride
    let j := if r.count2 = 1 then 0 else d1 / r.stride2
    let k := d1 - j * r.stride2
    if i < r.count && j < r.count2 && k < r.bytes then some (i, j, k) else none

/-- The register an offset belongs to, with its indices and the byte within it (R481). -/
def findReg (off : Nat) : Option (RegRow × Nat × Nat × Nat) :=
  regRows.findSome? (fun r => (r.hit off).map (fun x => (r, x)))

/-- Reset value of the stored unit at an offset. -/
def resetOf (off : Nat) : BitVec 64 :=
  match findReg off with
  | some (r, _) => r.reset
  | none => 0

/-- Stored value of the unit (4 or 8 bytes) at an offset. -/
def State.rg (s : State) (off : Nat) : BitVec 64 := KV.get 0 s.regs off ^^^ resetOf off

def State.setRg (s : State) (off : Nat) (v : BitVec 64) : State :=
  { s with regs := KV.put 0 s.regs off (v ^^^ resetOf off) }

/-- A field of a stored register. -/
def State.rf (s : State) (off hi lo : Nat) : Nat := fld (s.rg off) hi lo

def State.setRf (s : State) (off hi lo v : Nat) : State := s.setRg off (setFld (s.rg off) hi lo v)

/-- Saturating 32-bit count register. -/
def State.bump32 (s : State) (off n : Nat) : State :=
  s.setRg off (BitVec.ofNat 64 (min ((s.rg off).toNat + n) 0xFFFFFFFF))

/-- Saturating 32-bit count in one half of a 64-bit register. -/
def State.bumpHalf (s : State) (off lo n : Nat) : State :=
  s.setRf off (lo + 31) lo (min (s.rf off (lo + 31) lo + n) 0xFFFFFFFF)

/-! ### Offsets by name -/

def oReady : Nat := 0
def oLink : Nat := 8
def oCtxBase : Nat := 0x10
def oCtxInv : Nat := 0x18
def oApt (n : Nat) : Nat := 0x100 + 8 * n
def oPart (n : Nat) : Nat := 0x400 + 4 * n
def oHcCtx (n : Nat) : Nat := 0x500 + 4 * n
def oEvq (q : Nat) : Nat := 0x1000 + 0x40 * q
def oEvqCb (q : Nat) : Nat := oEvq q + 8
def oEvqCtl (q : Nat) : Nat := oEvq q + 0x10
def oEvqDrop (q j : Nat) : Nat := oEvq q + 0x20 + 8 * j
/-- Registers of ring r of function f. -/
def oRing (f r : Nat) : Nat :=
  if f = 0 then 0x2000 + 0x20 * r else vfBase + 0x10000 * (f - 1) + 0x2000 + 0x20 * r
def oRingCb (f r : Nat) : Nat := oRing f r + 8
def oRingCtl (f r : Nat) : Nat := oRing f r + 16
def oProfile : Nat := 0x10000
def oIdle : Nat := 0x10008
def oLend : Nat := 0x10010
def oMode : Nat := 0x10018
def oEnergy : Nat := 0x10020
def oSynCfg : Nat := 0x20000
def oDiscard (h : Nat) : Nat := 0x20008 + 4 * h
def oTopo : Nat := 0x30000
def oPortCtrl (p : Nat) : Nat := 0x30100 + 16 * p
def oPortStat (p : Nat) : Nat := 0x30104 + 16 * p
def oLate (p : Nat) : Nat := 0x30108 + 16 * p
def oBypass (d : Nat) : Nat := 0x30200 + 4 * d
def oAbsent (w : Nat) : Nat := 0x31000 + 4 * w
def oRt (i : Nat) : Nat := 0x40000 + 4 * i
def oTlbInv : Nat := 0x50000
def oTlbLo : Nat := 0x50008
def oTlbHi : Nat := 0x50010
def oRtDown (w : Nat) : Nat := 0x50100 + 4 * w
def oVport (c : Nat) : Nat := 0x50200 + 4 * c
def oSegState (c : Nat) : Nat := 0x50400 + 4 * c
def oSegCorr (c g : Nat) : Nat := 0x51000 + 48 * c + 4 * g
def oSegScrub (c g : Nat) : Nat := 0x52000 + 96 * c + 8 * g
def oSlabState (c : Nat) : Nat := 0x1000000 + 0x1000 * c
def oSlabCorr (c g : Nat) : Nat := 0x1000040 + 0x1000 * c + 4 * g
def oSlabScrub (c g : Nat) : Nat := 0x1000080 + 0x1000 * c + 8 * g
def oRtExc (c n : Nat) : Nat := 0x1000100 + 0x1000 * c + 4 * n
def oPop : Nat := 0x60000
def oSplit : Nat := 0x60008
def oEpochAll : Nat := 0x60010
def oEpoch (k : Nat) : Nat := 0x60040 + 4 * k
def oDrop (k : Nat) : Nat := 0x60080 + 4 * k
def oDmsScrub (c : Nat) : Nat := 0x60100 + 8 * c
def oEol : Nat := 0x70010
def oEolFru : Nat := 0x70014
def oTelemEvt : Nat := 0x70018
def oHangMode (f : Nat) : Nat := 0x70040 + 4 * f
def oBbxHead : Nat := 0x71000
def oBbxOldest : Nat := 0x71008
def oBbxSel : Nat := 0x71010
def oBbxStat : Nat := 0x71018
def oBbxData : Nat := 0x71100
def oBbxSig : Nat := 0x72000
def oSecCtrl : Nat := 0x80000
def oBootStat : Nat := 0x80004
def oSvn : Nat := 0x80008
def oFwUpdate : Nat := 0x80010
def oSbStat : Nat := 0x90000
def oAlert : Nat := 0x90004
def oTelem : Nat := 0x90010
def oSens : Nat := 0x90200

/-- Whether a die warm reset restores the register at an offset (Table 18-1, R480). -/
def warmClears (off : Nat) : Bool :=
  decide (off < 0x60000 ∨ 0x80000 ≤ off) && decide (off ≠ oEnergy) && decide (off ≠ oSvn) &&
    decide (off ≠ oBootStat) && decide (off ≠ oSbStat) && !(decide (0x30200 ≤ off ∧ off < 0x3020C))

/-- The value a permitted write leaves in a unit. -/
def RegRow.written (r : RegRow) (old v : BitVec 64) : BitVec 64 :=
  let ones := ((old &&& ~~~r.rw) ||| (v &&& r.rw)) ||| (v &&& r.w1s)
  ones &&& ~~~(v &&& r.w1c)

end Sys2Proof.Machine
end

