-- ==== Sys2Proof/Machine/Events.lean ====
section
/-! DEFINITION. Event records, event queues, MSI-X and the queue of the Husk writer
(R390 to R397, R430). -/

namespace Sys2Proof.Machine

/-! ### Status codes (Table 14-16) -/

def stOk : BitVec 8 := 0x00
def stPartial : BitVec 8 := 0x01
def stShape : BitVec 8 := 0x02
def stTileEmpty : BitVec 8 := 0x03
def stCapacity : BitVec 8 := 0x04
def stXlt : BitVec 8 := 0x05
def stSrcChanged : BitVec 8 := 0x06
def stTimeout : BitVec 8 := 0x07
def stAhead : BitVec 8 := 0x08
def stStale : BitVec 8 := 0x09
def stHandle : BitVec 8 := 0x0A
def stQuarantine : BitVec 8 := 0x0B
def stStep : BitVec 8 := 0x0C
def stDup : BitVec 8 := 0x0D
def stNonfinite : BitVec 8 := 0x0E
def stAbsent : BitVec 8 := 0x0F
def stPathLost : BitVec 8 := 0x10
def stEcc : BitVec 8 := 0x11
def stPoison : BitVec 8 := 0x12
def stAnchor : BitVec 8 := 0x13
def stRetry : BitVec 8 := 0x14
def stStats : BitVec 8 := 0x15
def stFenced : BitVec 8 := 0x16
def stEscalated : BitVec 8 := 0x17
def stIllegal : BitVec 8 := 0x18
def stWaitRange : BitVec 8 := 0x19
def stReset : BitVec 8 := 0x1A

/-- Statuses of the stopping class (Table 04-6). -/
def stopping (st : BitVec 8) : Bool :=
  [stShape, stTileEmpty, stCapacity, stHandle, stEcc, stPoison, stRetry, stStats, stIllegal,
   stWaitRange, stReset].contains st

/-- Statuses of the continuing class (Table 04-6). -/
def continuing (st : BitVec 8) : Bool :=
  [stPartial, stSrcChanged, stTimeout, stAhead, stStale, stQuarantine, stStep, stDup,
   stNonfinite, stAbsent, stPathLost, stAnchor].contains st

/-! ### Event types (Table 14-15) -/

def evCompletion : Nat := 1
def evFault : Nat := 2
def evHang : Nat := 3
def evFence : Nat := 4
def evPower : Nat := 5
def evFabric : Nat := 6
def evMemory : Nat := 7
def evTelemetry : Nat := 8
def evAgeing : Nat := 9
def evSecurity : Nat := 10
def evSync : Nat := 11

/-- Types marked urgent. -/
def urgent (t : Nat) : Bool := [evFault, evHang, evFence, evSecurity, evSync].contains t

/-- The 64 bytes of a record as a number (Table 14-12); a record that waited carries the time of its
event. -/
def Ev.word (e : Ev) (seq : BitVec 32) (time : BitVec 64) : BitVec 512 :=
  BitVec.ofNat 512 (pack [(4, e.typ), (1, b2n e.husk), (3, 0), (8, e.status.toNat), (4, e.kind),
    (3, e.engine), (1, 0), (8, 0), (16, e.src), (16, e.ctx), (32, seq.toNat), (32, e.offset),
    (64, (e.stamp.getD time).toNat), (320, e.payload)])

/-! ### Husk queue (R430) -/

/-- Kinds for which half of the queue is reserved: an EVENT record of type FAULT, HANG, FENCE
or MEMORY (a reset record is a FAULT) and POWERLOSS. -/
def huskReserved (kind : BitVec 8) (body : BitVec 512) : Bool :=
  kind == 5 || (kind == 1 && [evFault, evHang, evFence, evMemory].contains (fld body 3 0))

/-- Offers a record to the Husk queue; a record of another kind that finds the 32 unreserved
entries full is dropped and counted. After input loss nothing but POWERLOSS is accepted. -/
def State.husk' (s : State) (kind : BitVec 8) (body : BitVec 512) (aux : BitVec 320) : State :=
  if s.husk.stopped then s
  else if !huskReserved kind body &&
      decide (32 ≤ (s.husk.queue.filter (fun q => !huskReserved q.kind q.body)).length) then
    s.setRf oBbxStat 31 16 (min (s.rf oBbxStat 31 16 + 1) 0xFFFF)
  else
    { s with husk := { s.husk with queue := s.husk.queue ++ [⟨kind, body, aux, s.aon⟩] } }

/-! ### Event queues -/

def State.evq (s : State) (q : Nat) : Evq := KV.get {} s.hif.evqs q

def State.setEvq (s : State) (q : Nat) (x : Evq) : State :=
  { s with hif := { s.hif with evqs := KV.put {} s.hif.evqs q x } }

def State.evqOn (s : State) (q : Nat) : Bool := bit (s.rg (oEvqCtl q)) 0

/-- Entries of the ring or queue whose ADDR register is `a` (Table 14-6). -/
def ringCount (a : BitVec 64) : Nat := 2 ^ (fld a 3 0 + 6)

/-- Counts a record in HIF_EVQ_DROP (R395). -/
def State.dropEv (s : State) (q t : Nat) : State :=
  let lo := 16 * (t % 4)
  let o := oEvqDrop q (t / 4)
  s.setRf o (lo + 15) lo (min (s.rf o (lo + 15) lo + 1) 0xFFFF)

/-- Sends the queue's MSI-X message, or sets the pending bit of a masked vector (R397). -/
def State.sendMsix (s : State) (q : Nat) : State :=
  let f := s.rf (oEvqCtl q) 51 48
  let v := s.rf (oEvqCtl q) 47 38
  let s := s.setEvq q { s.evq q with unsent := 0 }
  if KV.get false s.hif.masked (f * 1024 + v) then
    { s with hif := { s.hif with pendingMsix := KV.put false s.hif.pendingMsix (f * 1024 + v) true } }
  else { s with hif := { s.hif with msix := (f, v) :: s.hif.msix } }

/-- Writes a record to an enabled queue, or drops it where the queue is full (R395, R397). -/
def State.writeEv (s : State) (q : Nat) (e : Ev) : State :=
  let x := s.evq q
  let a := s.rg (oEvq q)
  let cb := (s.rg (oEvqCb q)).toNat
  if ringCount a ≤ (x.prod - x.cons).toNat then
    let s := s.setEvq q { x with seq := x.seq + 1 }
    let s := s.dropEv q e.typ
    (s.setRf (oEvqCtl q) 1 1 1).putBytes (hostKey (cb + 16)) [1]
  else
    let base := a.toNat - fld a 11 0
    let s := s.putNum (hostKey (base + 64 * (x.prod.toNat % ringCount a))) 64 (e.word x.seq s.aon).toNat
    let s := s.setEvq q { x with prod := x.prod + 1, seq := x.seq + 1, unsent := x.unsent + 1 }
    let s := s.putNum (hostKey cb) 4 (x.prod + 1).toNat
    if urgent e.typ || decide (max 1 (s.rf (oEvqCtl q) 37 30) ≤ x.unsent + 1) then s.sendMsix q
    else s

/-- A record that finds its queue disabled (R396). -/
def State.lostEv (s : State) (q : Nat) (e : Ev) : State :=
  (s.setEvq q { s.evq q with seq := (s.evq q).seq + 1 }).dropEv q e.typ

/-- A record for an enabled queue: written, or kept while the PF, whose queue it is, is in D3hot;
an urgent one asserts WAKE_N (R457). -/
def State.deliverEv (s : State) (q : Nat) (e : Ev) : State :=
  if s.hif.d3hot && s.rf (oEvqCtl q) 51 48 = 0 then
    { s with hif := { s.hif with waitRecs := s.hif.waitRecs ++ [(q, { e with stamp := some (e.stamp.getD s.aon) })] }
             board := { s.board with wakeN := s.board.wakeN || urgent e.typ } }
  else s.writeEv q e

/-- A record bound for queue q, with its Husk copy where the type has one (R394, R396). -/
def State.post (s : State) (q : Nat) (e : Ev) : State :=
  let s := if e.husk then s.husk' 1 (e.word (s.evq q).seq s.aon) 0 else s
  if s.evqOn q then s.deliverEv q e
  else
    let s := s.lostEv q e
    if urgent e.typ && decide (q ≠ 0) then
      if s.evqOn 0 then s.deliverEv 0 e else s.lostEv 0 e
    else s

/-- Posts a POWER record: cause and a 39-byte rest of the payload (chapter 13). -/
def State.postPower (s : State) (e : Ev) : State := s.post 0 { e with typ := evPower }

end Sys2Proof.Machine
end

