-- ==== Sys2Proof/Machine/Rings.lean ====
section
/-! DEFINITION. Submission rings: their control blocks, polling, and how an entry is done with
(R379, R380, R383, R385 to R387). -/

namespace Sys2Proof.Machine

def ringIx (f r : Nat) : Nat := f * 256 + r

def State.ring (s : State) (f r : Nat) : Ring := KV.get {} s.hif.rings (ringIx f r)

def State.setRing (s : State) (f r : Nat) (x : Ring) : State :=
  { s with hif := { s.hif with rings := KV.put {} s.hif.rings (ringIx f r) x } }

/-- Rings that a function owns (R379). -/
def ownsRing (f r : Nat) : Bool := decide (f = 0) || decide (r < 32)

def State.ringOn (s : State) (f r : Nat) : Bool := bit (s.rg (oRingCtl f r)) 0

def State.ringPolling (s : State) (f r : Nat) : Bool := bit (s.rg (oRingCtl f r)) 1

/-- Key of a byte of a ring's control block (Table 14-8). -/
def State.ringBlock (s : State) (f r off : Nat) : Nat := hostKey ((s.rg (oRingCb f r)).toNat + off)

/-- The ring enters polling, writing WAKE half a range ahead of C (R387). -/
def State.enterPolling (s : State) (f r : Nat) : State :=
  (s.putNum (s.ringBlock f r 8) 4 ((s.ring f r).cons + 0x80000000).toNat).setRf (oRingCtl f r) 1 1 1

/-- PREEMPT descriptors of a ring no longer hold it. -/
def State.detachPreempts (s : State) (f r : Nat) : State :=
  { s with hif := { s.hif with preempts := s.hif.preempts.map (fun (p : Preempting) =>
      if p.func.val = f ∧ p.ring.val = r then { p with live := false } else p) } }

/-- A ring error: reason 1 doorbell overrun, 2 bad event queue (R385). The entry at C counts as
not taken. -/
def State.ringError (s : State) (f r reason : Nat) : State :=
  let s := s.putNum (s.ringBlock f r 24) 2 (0x18 + 256 * reason)
  let s := s.putNum (s.ringBlock f r 28) 4 (s.ring f r).cons.toNat
  let s := s.setRf (oRingCtl f r) 2 0 4
  (s.setRing f r { s.ring f r with waiting := none, stale := false }).detachPreempts f r

/-- The entry at C has been placed or completed: CONSUMED moves past it, and a ring whose ENABLE
the host has cleared stops polling (R383, R386). -/
def State.advance (s : State) (f r : Nat) : State :=
  let x := s.ring f r
  let c := if x.stale then x.cons else x.cons + 1
  let s := s.setRing f r { x with waiting := none, stale := false, cons := c }
  let s := s.putNum (s.ringBlock f r 16) 4 c.toNat
  if s.ringOn f r then s else s.setRf (oRingCtl f r) 1 1 0

/-- A descriptor of the ring is being carried out, or waits to be placed. -/
def State.ringBusy (s : State) (f r : Nat) : Bool :=
  (s.ring f r).waiting.isSome ||
    s.hif.preempts.any (fun (p : Preempting) => p.live && decide (p.func.val = f) && decide (p.ring.val = r))

end Sys2Proof.Machine
end

