-- ==== Sys2Proof/Machine/Fields.lean ====
section
/-! DEFINITION. Fields of the list header and of the common word (Tables 04-2 and 04-3), and
the addition of base registers and selectors (R113). -/

namespace Sys2Proof.Machine

/-! ### List header (Table 04-2) -/

def hCtx (h : BitVec 512) : Nat := fld h 15 0
def hPrio (h : BitVec 512) : Nat := fld h 18 16
def hEclass (h : BitVec 512) : Nat := fld h 21 19
/-- 0 SEQ, 1 FIX. -/
def hAccDefault (h : BitVec 512) : Nat := fld h 22 22
def hVersion (h : BitVec 512) : Nat := fld h 31 24
def hLength (h : BitVec 512) : Nat := fld h 63 32
def hEstimate (h : BitVec 512) : Nat := fld h 95 64
def hRegMask (h : BitVec 512) : Nat := fld h 127 96
def hStatsMask (h : BitVec 512) : Nat := fld h 135 128
def hQueueMask (h : BitVec 512) : Nat := fld h 143 136
def hSeed (h : BitVec 512) : BitVec 64 := BitVec.ofNat 64 (fld h 255 192)
def hSave (h : BitVec 512) : Nat := fld h 319 256
def hParam (h : BitVec 512) : Nat := fld h 383 320
def hTag (h : BitVec 512) : Nat := fld h 447 384

/-- The header conditions of R107 other than the context. -/
def headerOk (h : BitVec 512) : Bool :=
  hVersion h = 1 && decide (1 ≤ hLength h) && decide (hLength h ≤ 16384) && fld h 23 23 = 0 &&
  fld h 127 124 = 0 && fld h 191 144 = 0 && fld h 511 448 = 0 && hSave h % 4096 = 0 && hParam h % 64 = 0

/-- Masks of two lists share no bit (R96). -/
def masksApart (a b : BitVec 512) : Bool :=
  hRegMask a &&& hRegMask b = 0 && hStatsMask a &&& hStatsMask b = 0 && hQueueMask a &&& hQueueMask b = 0

/-! ### The common word (Table 04-3) -/

def cOpc (w : BitVec 256) : Nat := fld w 7 0
def cWen (w : BitVec 256) : Bool := bit w 8
def cWtok (w : BitVec 256) : Nat := fld w 12 9
def cPen (w : BitVec 256) : Bool := bit w 13
def cPtok (w : BitVec 256) : Nat := fld w 17 14
def cBren (w : BitVec 256) : Bool := bit w 18
def cBreg (w : BitVec 256) : Nat := fld w 22 19
def cStsel (w : BitVec 256) : Nat := fld w 27 23
def cBdst (w : BitVec 256) : Bool := bit w 28

/-- A selector or STSEL is 0 or 0b1nnnn; the codes between are out of range (R111). -/
def selOk (v : Nat) : Bool := v = 0 || decide (16 ≤ v)

/-- The common word keeps its reserved bits zero and its STSEL in range. -/
def commonOk (w : BitVec 256) : Bool := fld w 31 29 = 0 && selOk (cStsel w)

/-- A run-time field: its place, the place of its selector, and the bits of Sn it takes. -/
structure Sel where
  hi : Nat
  lo : Nat
  shi : Nat
  slo : Nat
  take : Nat := 64
  deriving DecidableEq, Repr

/-- Applies a selector: a value larger than the field is written as all ones, and the
selector is cleared, so that the resolved word names no register (R113, R127). -/
def applySel (sreg : Nat → BitVec 64) (w : BitVec 256) (x : Sel) : BitVec 256 :=
  let sel := fld w x.shi x.slo
  if sel < 16 then w
  else
    let v := (sreg (sel - 16)).toNat % 2 ^ x.take
    let m := 2 ^ (x.hi - x.lo + 1) - 1
    setFld (setFld w x.hi x.lo (min v m)) x.shi x.slo 0

end Sys2Proof.Machine
end

