-- ==== Sys2Proof/Machine/Routes.lean ====
section
/-! DEFINITION. Where blocks attach to the routers, the neighbours of a router, and the way of a
flit (R15, R18, R20 to R23, R205, R229, R316, R420). -/

namespace Sys2Proof.Machine

/-! ### Attachments (R15, R20, Tables 01-3, 08-3 and 12-2) -/

/-- Blocks that attach to edge ports: a host-class core, a Damson, the PCIe controller, Pip, an
optical engine by its port code. -/
inductive Block where
  | hostClass (h : Nat)
  | damson (k : Nat)
  | pcie
  | pip
  | optical (p : Nat)
  deriving DecidableEq, Repr

/-- Router of vertical port i of a cluster (R15, R205). -/
def portRouter (k i : Nat) : Nat := clusterCore k ((1 + i / 4) * 4 + i % 4)

def hcRouter (h : Nat) : Nat :=
  coreAt (if h < 8 then 4 * (h % 4) else 47 - 4 * (h % 4)) (if h % 8 < 4 then 0 else 19)

/-- Router j, in ascending x, of the three of a Damson. -/
def damsonRouter (k j : Nat) : Nat :=
  if k < 3 then coreAt (4 * k + 1 + j) 0
  else if k < 5 then coreAt (4 * (k - 3) + 1 + j) 19
  else if k < 7 then coreAt (44 - 4 * (k - 5) + j) 0
  else coreAt (44 - 4 * (k - 7) + j) 19

/-- Router j, in ascending x, of the three of the PCIe controller. -/
def pcieRouter (j : Nat) : Nat := coreAt (9 + j) 19

/-- Router of Pip's mesh port. -/
def pipRouter : Nat := coreAt 13 19

/-- Router of fibre f of an optical port (Table 12-2). -/
def fibreRouter (p f : Nat) : Nat :=
  match p with
  | 0 => coreAt 0 (1 + f)
  | 1 => coreAt 0 (11 + f)
  | 2 => coreAt (24 + f) 0
  | 3 => coreAt (16 + f) 19
  | 4 => coreAt 47 (1 + f)
  | _ => coreAt 47 (11 + f)

/-- Laser unit of fibre f of an optical port (Table 12-2). -/
def laserUnit (p f : Nat) : Nat := (if p = 2 ∨ 4 ≤ p then 2 else 0) + f / 4

/-- Every edge port that carries traffic, with its block. -/
def edgePorts : List (Nat × Block) :=
  (List.range 16).map (fun h => (hcRouter h, .hostClass h)) ++
  (List.range 30).map (fun i => (damsonRouter (i / 3) (i % 3), .damson (i / 3))) ++
  (List.range 3).map (fun j => (pcieRouter j, .pcie)) ++ [(pipRouter, .pip)] ++
  (List.range 48).map (fun i => (fibreRouter (i / 8) (i % 8), .optical (i / 8)))

/-- Block on the edge port of a router, where it has one. -/
def edgeBlock (r : Nat) : Option Block := (edgePorts.find? (fun e => e.1 = r)).map (·.2)

/-- Vertical port that a router carries, where it carries one. -/
def verticalPort (r : Nat) : Option Nat :=
  if 1 ≤ coreY r % 4 ∧ coreY r % 4 ≤ 2 then some ((coreY r % 4 - 1) * 4 + coreX r % 4) else none

/-- Vertical port that serves the requests for an offset of a cluster's memory: the one that
R205 selects, as MEM_VPORT_MAP maps it (R420). -/
def State.vportFor (s : State) (k off : Nat) : Nat :=
  let i := off / 64 % 8
  s.rf (oVport k) (3 * i + 2) (3 * i)

/-! ### The way of a flit (R229) -/

/-- Neighbour of a router: 0 north, 1 south, 2 east, 3 west. -/
def routerAt (r dir : Nat) : Option Nat :=
  let x := coreX r
  let y := coreY r
  match dir with
  | 0 => if y = 0 then none else some (coreAt x (y - 1))
  | 1 => if 19 ≤ y then none else some (coreAt x (y + 1))
  | 2 => if 47 ≤ x then none else some (coreAt (x + 1) y)
  | _ => if x = 0 then none else some (coreAt (x - 1) y)

/-- Direction of the default route: east or west first (R229). -/
def xyDir (r d : Nat) : Nat :=
  if coreX r < coreX d then 2 else if coreX d < coreX r then 3 else if coreY r < coreY d then 1 else 0

/-- An exception entry applies to a destination (Table 08-16). -/
def excHit (e : BitVec 64) (d : Nat) : Bool :=
  bit e 31 && decide (fld e 30 28 ≤ 3) && decide (fld e 21 16 ≤ coreX d) && decide (coreX d ≤ fld e 27 22) &&
    decide (fld e 10 6 ≤ coreY d) && decide (coreY d ≤ fld e 15 11)

/-- Direction in which router r sends a flit for router d. -/
def State.routeDir (s : State) (r d : Nat) : Nat :=
  match ((List.range 16).map (fun n => s.rg (oRtExc r n))).find? (fun e => excHit e d) with
  | some e => fld e 30 28
  | none => xyDir r d

/-- Routers that a flit from r to d passes, both ends included, with fuel. -/
def State.way (s : State) (r d : Nat) : Nat → List Nat
  | 0 => [r]
  | f + 1 =>
    if r = d then [r]
    else
      match routerAt r (s.routeDir r d) with
      | some t => r :: s.way t d f
      | none => [r]

/-- The router of a core is out of service (R420). -/
def State.routerDown (s : State) (c : Nat) : Bool := bit (s.rg (oRtDown (c / 32))) (c % 32)

/-- Some router of the way from r to d is out of service: a flit on it is lost (R420). The flit that no
router is marked down for meets none, so the way is followed only where one is. -/
def State.cut (s : State) (r d : Nat) : Bool :=
  s.regs.any (fun e => decide (oRtDown 0 ≤ e.1) && decide (e.1 < oRtDown 30)) && (s.way r d 960).any s.routerDown

/-! ### Stopped halves (R352, R366) -/

/-- The clocks of a half stand while its PLLs relock (R352). -/
def State.relocking (s : State) (h : Nat) : Bool :=
  s.power.stages.any (fun e => e.1 = h && (match e.2 with
    | .relockDown _ => true
    | .relockUp _ => true
    | _ => false))

/-- The mesh of a half does not run: its clock is stopped, or pauses. -/
def State.halfStands (s : State) (h : Nat) : Bool :=
  s.power.meshStopped.any (fun x => x.val = h) || s.relocking h

/-- Traffic that arrives at a port of a half wakes its mesh. Its wait takes no step of its own
(log 20). -/
def State.wakeHalf (s : State) (h : Nat) : State :=
  { s with power := { s.power with meshStopped := s.power.meshStopped.filter (fun x => x.val ≠ h) } }

end Sys2Proof.Machine
end

