-- ==== Sys2Proof/Machine/FabricNet.lean ====
section
/-! DEFINITION. The fabric as the other parts of the module use it: identity, routes, tags,
packets built here, answers, late answers, and the packets of a fabric command
(R314, R322, R324, R326 to R328, R335 to R338). -/

namespace Sys2Proof.Machine

/-! ### Identity and routes -/

/-- The module's fabric identity: the coordinates of FAB_TOPO (R314). -/
def State.selfId (s : State) : Nat := s.rf oTopo 13 0

/-- The identity is in the absent set (R347). -/
def State.absent (s : State) (id : Nat) : Bool := bit (s.rg (oAbsent (id / 32))) (id % 32)

def portDisabled : Nat := 0
def portTrain : Nat := 1
def portUpSt : Nat := 2
def portDown : Nat := 3
def portFailed : Nat := 4

/-- FAB_PORT_STAT.STATE of a port. -/
def State.portSt (s : State) (p : Nat) : Nat := s.rf (oPortStat p) 2 0

/-- What the rules of R335 do with a packet. -/
inductive RouteRes where
  | deliver
  | drop (st : BitVec 8)
  | leave (p : Nat)
  deriving DecidableEq, Repr

/-- Steps 4 to 6 of R335: the port by which a packet leaves. -/
def State.exitPort (s : State) (arr : Option Nat) (dest : Nat) : RouteRes :=
  let e := s.rg (oRt dest)
  let prim := fld e 2 0
  let alt := fld e 5 3
  let usable (p : Nat) : Bool := decide (p < 6) && s.portSt p = portUpSt && decide (arr ≠ some p)
  if usable prim then .leave prim
  else if bit e 6 && usable alt then .leave alt
  else .drop stPathLost

/-- Steps 2 to 6 of R335 for a destination and the port of arrival. -/
def State.routeOut (s : State) (arr : Option Nat) (dest : Nat) : RouteRes :=
  let e := s.rg (oRt dest)
  if s.absent dest then .drop stAbsent
  else if !bit e 7 || decide (6 ≤ fld e 2 0) then .drop stPathLost
  else s.exitPort arr dest

/-! ### Packets -/

def pkPut : BitVec 8 := 1
def pkGet : BitVec 8 := 2
def pkGetData : BitVec 8 := 3
def pkAtomic : BitVec 8 := 4
def pkAtomicRsp : BitVec 8 := 5
def pkRput : BitVec 8 := 6
def pkNotify : BitVec 8 := 7
def pkSync : BitVec 8 := 8
def pkSyncRsp : BitVec 8 := 9
def pkSyncUpd : BitVec 8 := 0xA
def pkAck : BitVec 8 := 0xB
def pkNack : BitVec 8 := 0xC

/-- Types that their destination answers (R328). -/
def isRequest (t : BitVec 8) : Bool := [pkPut, pkGet, pkAtomic, pkRput, pkNotify, pkSync].contains t

def knownType (t : BitVec 8) : Bool := decide (1 ≤ t.toNat) && decide (t.toNat ≤ 12)

/-- What R335 does with a packet at a port. A request built here has met steps 2 and 3 when it was
built; the port applies the others again. -/
def State.route (s : State) (arr : Option Nat) (pk : Packet) : RouteRes :=
  if pk.dest.toNat = s.selfId then .deliver
  else if arr.isNone && isRequest pk.ptype then s.exitPort arr pk.dest.toNat
  else s.routeOut arr pk.dest.toNat

/-- A request packet of this module, on channel REQ0 (R322). -/
def State.mkReq (s : State) (t : BitVec 8) (f dest : Nat) (ctx : BitVec 16) (tag : Nat) (inc : BitVec 8) : Packet :=
  { ptype := t, vc := 0, fibre := BitVec.ofNat 3 f, dest := BitVec.ofNat 14 dest, src := BitVec.ofNat 14 s.selfId
    hops := 0, status := 0, ctx := ctx, tag := BitVec.ofNat 16 tag, tagInc := inc, len := 0, addr := 0, body := 0
    data := [], bad := 0 }

/-- An answer to a request packet, on channel RSP0, with the request's fibre, tag and context
(R327, R328). -/
def answerTo (pk : Packet) (t : BitVec 8) (st : BitVec 8) : Packet :=
  { pk with ptype := t, vc := 2, dest := pk.src, src := pk.dest, hops := 0, status := st, body := 0, data := []
            bad := 0, len := 0 }

/-- A packet built here sets out for its port. -/
def State.inject (s : State) (pk : Packet) : State :=
  { s with fab := { s.fab with inject := s.fab.inject ++ [pk] } }

/-- A drop: a request is answered by a NACK from this module, anything else is discarded (R338).
Byte 24 of the NACK names the request's type (log 19). -/
def State.dropPacket (s : State) (pk : Packet) (st : BitVec 8) : State :=
  if isRequest pk.ptype then
    s.inject { answerTo pk pkNack st with src := BitVec.ofNat 14 s.selfId, body := pk.ptype.setWidth 320 }
  else s

/-- A FABRIC record of a port; the payload's layout is log 25. -/
def State.postFabric (s : State) (kind src : Nat) (st : BitVec 8) (payload : Nat) : State :=
  s.post 0 { typ := evFabric, status := st, kind := kind, src := src, payload := payload }

/-- A late answer at port p (R328, Table 12-5). -/
def State.lateAnswer (s : State) (p : PortId) (pk : Packet) : State :=
  let s := s.bump32 (oLate p.val) 1
  if bit (s.rg (oPortCtrl p.val)) 4 && !s.fab.lateSent.contains p then
    ({ s with fab := { s.fab with lateSent := p :: s.fab.lateSent } }).postFabric 5 p.val stOk
      (pack [(8, 2), (8, pk.ptype.toNat), (16, pk.src.toNat), (16, pk.tag.toNat), (8, pk.tagInc.toNat)])
  else s

/-- Coordinate and size of a dimension: 0 X, 1 Y, 2 Z. -/
def State.coord (s : State) (d : Nat) : Nat × Nat :=
  let t := s.rg oTopo
  match d with
  | 0 => (fld t 4 0, fld t 18 14 + 1)
  | 1 => (fld t 9 5, fld t 23 19 + 1)
  | _ => (fld t 13 10, fld t 27 24 + 1)

/-- The packet leaves over the wrap link of port p's dimension (R322). -/
def State.wraps (s : State) (p : Nat) : Bool :=
  let c := s.coord (p / 2)
  if p % 2 = 0 then decide (c.1 + 1 = c.2) else decide (c.1 = 0)

/-- Virtual channel with which a packet leaves by port p (R322). -/
def State.leaveVc (s : State) (arr : Option Nat) (p : Nat) (vc : BitVec 2) : BitVec 2 :=
  let cls := vc.toNat / 2 * 2
  let same := match arr with
    | some a => decide (a / 2 = p / 2)
    | none => false
  BitVec.ofNat 2 (cls + if s.wraps p || (same && vc.toNat % 2 = 1) then 1 else 0)

def portOf (p : Nat) : PortId := if h : p < 6 then ⟨p, h⟩ else 0

/-! ### Fibres: frames, replay and credits (R316, R317, R319, R321, R322) -/

def State.fibre (s : State) (i : Nat) : Fibre := KV.get {} s.fab.fibres i

def State.setFibre (s : State) (i : Nat) (x : Fibre) : State := { s with fab := { s.fab with fibres := KV.put {} s.fab.fibres i x } }

/-- Fibre of a port on which the traffic of fibre f travels: another at width 4 (R317). -/
def State.carrier (s : State) (p f : Nat) : Nat :=
  if bit (s.rg (oPortStat p)) 6 then f % 4 + 4 * s.rf (oPortStat p) 5 5 else f

/-- The form in use at a port is STRONG. -/
def State.strong (s : State) (p : Nat) : Bool := s.rf (oPortStat p) 7 7 = 1

/-- Slots of a packet: its header, and its data in 64s (R326). -/
def packetSlots (pk : Packet) : Nat := 1 + ceilDiv pk.data.length 64

/-- Frames that carry a packet, alone in them: 4 slots each, or 16 (Table 12-4, log 31). -/
def State.framesOf (s : State) (p : Nat) (pk : Packet) : Nat := ceilDiv (packetSlots pk) (if s.strong p then 16 else 4)

/-- The receiver has room for n slots on a channel: 128 reserved for each, and 256 shared (R322). -/
def Fibre.credit (x : Fibre) (vc n : Nat) : Bool :=
  let o (v : Nat) : Nat := KV.get 0 x.owed v + (if v = vc then n else 0)
  decide ((o 0 - 128) + (o 1 - 128) + (o 2 - 128) + (o 3 - 128) ≤ 256)

/-- A fibre can send a packet now: its credits, and the frames that its replay buffer holds (R321). -/
def State.canSend (s : State) (p : Nat) (pk : Packet) : Bool :=
  let x := s.fibre (p * 8 + s.carrier p pk.fibre.toNat)
  x.credit pk.vc.toNat (packetSlots pk) && decide (x.replay.length + s.framesOf p pk ≤ if s.strong p then 128 else 512)

/-- A fibre after it has sent a packet in n frames. -/
def Fibre.send (x : Fibre) (pk : Packet) (n : Nat) : Fibre :=
  { x with
    txSeq := x.txSeq + BitVec.ofNat 12 n
    replay := x.replay ++ (List.range n).map (fun i => (x.txSeq + BitVec.ofNat 12 i, if i + 1 = n then some pk else none))
    owed := KV.upd 0 x.owed pk.vc.toNat (· + packetSlots pk) }

def State.sendOn (s : State) (p : Nat) (pk : Packet) : State :=
  let i := p * 8 + s.carrier p pk.fibre.toNat
  let s := s.setFibre i ((s.fibre i).send pk (s.framesOf p pk))
  { s with fab := { s.fab with sent := (portOf p, pk) :: s.fab.sent } }

/-- Router at which a packet's fibre joins the mesh at a port (Table 12-2). -/
def packetRouter (p : Nat) (pk : Packet) : Nat := fibreRouter p pk.fibre.toNat

/-- The way through the mesh of a packet that passes from a port to another meets a router out of
service: it is lost (R22, R420). -/
def State.lostBetween (s : State) (arr : Option PortId) (p : Nat) (pk : Packet) : Bool :=
  match arr with
  | some a => s.cut (packetRouter a.val pk) (packetRouter p pk)
  | none => false

/-- Traffic that passes between two ports wakes the halves that it crosses (R22, R366). -/
def State.wakeBetween (s : State) (arr : Option PortId) (p : Nat) (pk : Packet) : State :=
  match arr with
  | some a => (s.wakeHalf (halfOf (packetRouter a.val pk))).wakeHalf (halfOf (packetRouter p pk))
  | none => s

/-- Takes a packet off the list it waits in. -/
def State.takePacket (s : State) (arr : Option PortId) (pk : Packet) : State :=
  match arr with
  | some p => { s with fab := { s.fab with arrived := s.fab.arrived.erase (p, pk) } }
  | none => { s with fab := { s.fab with inject := s.fab.inject.erase pk } }

/-- Routes a packet that arrived by a port or was built here (R335, R337). One whose port cannot send
it yet stays where it is. -/
def State.routePacket (s : State) (arr : Option PortId) (pk : Packet) : State :=
  let u := s.takePacket arr pk
  match s.route (arr.map (·.val)) pk with
  | .deliver => { u with fab := { u.fab with delivered := u.fab.delivered ++ [(arr, pk)] } }
  | .drop st => u.dropPacket pk st
  | .leave p =>
    let q := { pk with hops := pk.hops + 1, vc := s.leaveVc (arr.map (·.val)) p pk.vc }
    if 64 ≤ pk.hops.toNat then u.dropPacket pk stPathLost
    else if s.lostBetween arr p pk then u
    else if s.canSend p q then (u.wakeBetween arr p pk).sendOn p q
    else s

/-! ### Data tags (R328) -/

def tagKey (p tag : Nat) : Nat := p * 65536 + tag

def State.tagIncOf (s : State) (p tag : Nat) : BitVec 8 := KV.get 0 s.fab.tagInc (tagKey p tag)

/-- The lowest free tag of a port's 18,432 (log 19). -/
def State.freeTag (s : State) (p : Nat) : Option Nat :=
  let used := (s.fab.reqs.filter (fun (r : FabReq) => r.port.val = p)).map (·.tag)
  (List.range 18432).find? (fun t => !used.contains t && !KV.get false s.fab.tagQuar (tagKey p t))

/-- A request ends: its tag's incarnation rises, and a tag freed without an answer is
quarantined. -/
def State.freeReq (s : State) (r : FabReq) (quarantine : Bool) : State :=
  let k := tagKey r.port.val r.tag
  { s with fab := { s.fab with
      reqs := s.fab.reqs.erase r
      tagInc := KV.put 0 s.fab.tagInc k (r.inc + 1)
      tagQuar := KV.put false s.fab.tagQuar k quarantine } }

/-- The outstanding request that an answer names: TAG and TAG_INC, and of several the one whose
destination is the answer's source (log 19). -/
def State.findReq (s : State) (pk : Packet) : Option FabReq :=
  let m := s.fab.reqs.filter (fun (r : FabReq) => r.tag = pk.tag.toNat && r.inc = pk.tagInc)
  match m.find? (fun r => r.dest = pk.src) with
  | some r => some r
  | none => m.head?

/-! ### Fields of the fabric commands (Tables 12-7, 12-9 to 12-11) -/

def rModule (a : Nat) : Nat := a / 2 ^ 38 % 16384
def rTier (a : Nat) : Bool := a / 2 ^ 37 % 2 = 1
def rOffset (a : Nat) : Nat := a % 2 ^ 37

/-- Remote and local address of PUT, GET, RPUT and ATOMIC. -/
def fbRemote (w : Cmd) : Nat :=
  match cOpc w with
  | 0x60 => fld w 139 88
  | 0x63 => fld w 139 88
  | _ => fld w 83 32

def fbLocal (w : Cmd) : Nat := if cOpc w = 0x61 then fld w 139 84 else fld w 87 32

/-- Rows, bytes a row, and the pitches on the remote and the local side. -/
def fbRows (w : Cmd) : Nat := if cOpc w = 0x63 then 1 else fld w 167 156
def fbLen (w : Cmd) : Nat := if cOpc w = 0x63 then 32 * fld w 159 140 else fld w 155 140
def fbRPitch (w : Cmd) : Nat := if cOpc w = 0x61 then 64 * fld w 191 180 else if cOpc w = 0x60 then 64 * fld w 203 192 else 0
def fbLPitch (w : Cmd) : Nat := if cOpc w = 0x61 then 64 * fld w 203 192 else if cOpc w = 0x60 then 64 * fld w 191 180 else 0

/-- A packet of a command: its row, its offset in the row, its bytes. -/
structure FabPart where
  row : Nat
  off : Nat
  len : Nat
  deriving DecidableEq, Repr

/-- Packets of a row whose remote address is `a`, from byte `o` on: split at every 4 KiB of the
remote address (R326). -/
def splitRow (row a len o : Nat) : Nat → List FabPart
  | 0 => []
  | f + 1 =>
    if len ≤ o then []
    else
      let n := min (len - o) (4096 - (a + o) % 4096)
      ⟨row, o, n⟩ :: splitRow row a len (o + n) f

/-- Packets of a command from its recorded progress on. -/
def fbParts (w : Cmd) (p : Progress) : List FabPart :=
  let r0 := p.rows.toNat
  ((List.range (fbRows w - r0)).map (fun i =>
    let r := r0 + i
    splitRow r (fbRemote w + r * fbRPitch w) (fbLen w) (if i = 0 then p.bytes.toNat else 0) (fbLen w / 4096 + 2))).flatten

/-- Fibre of a request (R327). -/
def fbFibre (remote : Nat) : Nat := (rOffset remote / 4096 + rModule remote) % 8

/-! ### Abandoning outstanding packets (R334) -/

/-- The command is a PUT or a GET. -/
def isPutGet (w : Cmd) : Bool := cOpc w = 0x60 || cOpc w = 0x61

/-- Outstanding requests of a command. -/
def State.reqsOf (s : State) (id : Nat) : List FabReq :=
  if id = 0 then [] else s.fab.reqs.filter (fun (r : FabReq) => r.id = id)

/-- Progress of a PUT or GET: the rows and the 64-byte multiples before its first packet that
has no answer. -/
def State.fabProgress (s : State) (q : QEnt) : Progress :=
  let parts := fbParts q.w q.prog
  let ix := ((s.reqsOf q.id).map (·.ix)).foldl min q.sent
  match parts[ix]? with
  | some x => { q.prog with rows := BitVec.ofNat 32 x.row, bytes := BitVec.ofNat 32 (x.off / 64 * 64), bitmap := q.bitmap }
  | none => { q.prog with rows := BitVec.ofNat 32 (fbRows q.w), bytes := 0, bitmap := q.bitmap }

/-- Requests of a slot that await their answers. -/
def State.owesAnswers (s : State) (c sl : Nat) : Bool :=
  s.fab.reqs.any (fun (r : FabReq) => r.core.val = c && r.slot.val = sl)

/-- The requests of a core that is fenced: their tags go into quarantine, and their answers are late
(R328, R334). -/
def State.dropCoreReqs (s : State) (c : Nat) : State :=
  (s.fab.reqs.filter (fun (r : FabReq) => r.core.val = c)).foldl (fun s r => s.freeReq r true) s

/-- Drops every outstanding packet of a command; the tags go into quarantine. -/
def State.dropReqs (s : State) (id : Nat) : State :=
  (s.reqsOf id).foldl (fun s r => s.freeReq r true) s

/-- An RPUT that has sent some of its packets records them: those are waited for, and the others alone
are sent on resumption (R334, log 126). -/
def QEnt.rputRest (q : QEnt) : QEnt :=
  match (fbParts q.w q.prog)[q.sent]? with
  | some x => if q.sent = 0 then q else
      { q with prog := { q.prog with rows := BitVec.ofNat 32 x.row, bytes := BitVec.ofNat 32 x.off, bitmap := q.bitmap } }
  | none => q

/-- A slot drains: its PUTs and GETs abandon their outstanding packets (R334). -/
def State.abandonFab (s : State) (c sl : Nat) : State :=
  let s := s.modCore c (fun k => k.setQueue 3 ((k.queue 3).map (fun q =>
    if q.slot.val = sl && cOpc q.w = 0x63 && decide (q.id ≠ 0) then q.rputRest else q)))
  let k := s.core c
  let mine := (k.queue 3 ++ k.run 3).filter (fun q => q.slot.val = sl && isPutGet q.w && decide (q.id ≠ 0) &&
    !(q.await.isEmpty && (k.run 3).contains q))
  let fix (q : QEnt) : QEnt :=
    if mine.contains q then
      { q with prog := s.fabProgress q, await := [], got := [], id := 0, sent := 0, pushed := 0 }
    else q
  if mine.isEmpty then s
  else
    mine.foldl (fun s q => s.dropReqs q.id)
      (s.setCore c ((k.setQueue 3 ((k.queue 3).map fix)).setRun 3 ((k.run 3).map fix)))

end Sys2Proof.Machine
end

