-- ==== Sys2Proof/Machine/Float.lean ====
section
/-! DEFINITION. Floating-point and integer element formats, exact values, rounding and
correctly rounded arithmetic (R35 to R50). -/

namespace Sys2Proof.Machine

/-- A value: NaN, an infinity, or (−1)^neg × m × 2^e, a zero keeping its sign. -/
inductive Num where
  | nan
  | inf (neg : Bool)
  | fin (neg : Bool) (m : Nat) (e : Int)
  deriving DecidableEq, Repr

/-- How a format encodes what is not finite (Table 02-1). -/
inductive Special where
  /-- Infinity and NaN. -/
  | ieee
  /-- NaN at S.1111.111 only. -/
  | nanOnly
  /-- Neither. -/
  | none
  deriving DecidableEq, Repr

/-- A floating-point format of Table 02-1. -/
structure FF where
  ebits : Nat
  mbits : Nat
  bias : Nat
  special : Special
  deriving DecidableEq, Repr

def fp64 : FF := ⟨11, 52, 1023, .ieee⟩
def fp32 : FF := ⟨8, 23, 127, .ieee⟩
def bf16 : FF := ⟨8, 7, 127, .ieee⟩
def fp16 : FF := ⟨5, 10, 15, .ieee⟩
def e4m3 : FF := ⟨4, 3, 7, .nanOnly⟩
def e5m2 : FF := ⟨5, 2, 15, .ieee⟩
def e3m2 : FF := ⟨3, 2, 3, .none⟩
def e2m3 : FF := ⟨2, 3, 1, .none⟩
def e2m1 : FF := ⟨2, 1, 1, .none⟩

def FF.width (f : FF) : Nat := 1 + f.ebits + f.mbits

/-- The value of an encoding (R35); every NaN is one NaN (R38). -/
def FF.decode (f : FF) (w : Nat) : Num :=
  let neg := w / 2 ^ (f.ebits + f.mbits) % 2 = 1
  let ex := w / 2 ^ f.mbits % 2 ^ f.ebits
  let mt := w % 2 ^ f.mbits
  let top := 2 ^ f.ebits - 1
  if f.special = .ieee ∧ ex = top then (if mt = 0 then .inf neg else .nan)
  else if f.special = .nanOnly ∧ ex = top ∧ mt = 2 ^ f.mbits - 1 then .nan
  else if ex = 0 then .fin neg mt (1 - (f.bias : Int) - f.mbits)
  else .fin neg (2 ^ f.mbits + mt) ((ex : Int) - f.bias - f.mbits)

/-- Largest finite encoding without its sign. -/
def FF.maxEnc (f : FF) : Nat :=
  match f.special with
  | .ieee => (2 ^ f.ebits - 1) * 2 ^ f.mbits - 1
  | .nanOnly => 2 ^ (f.ebits + f.mbits) - 2
  | .none => 2 ^ (f.ebits + f.mbits) - 1

def FF.signBit (f : FF) (neg : Bool) : Nat := if neg then 2 ^ (f.ebits + f.mbits) else 0

/-- The canonical NaN (Table 02-3); a format without one is never asked. -/
def FF.nanEnc (f : FF) : Nat :=
  match f.special with
  | .ieee => (2 ^ f.ebits - 1) * 2 ^ f.mbits + 2 ^ (f.mbits - 1)
  | _ => 2 ^ (f.ebits + f.mbits) - 1

def FF.infEnc (f : FF) : Nat := (2 ^ f.ebits - 1) * 2 ^ f.mbits

/-- Rounding modes of Table 02-5; SR carries its 24-bit dither. -/
inductive Rm where
  | rne
  | rtz
  | sr (dither : Nat)
  deriving DecidableEq, Repr

/-- n + fraction rem / 2^r rounded to an integer (R43, R47). -/
def roundUp (rm : Rm) (n rem r : Nat) : Nat :=
  if rem = 0 then n
  else
    match rm with
    | .rtz => n
    | .rne => if 2 ^ r < 2 * rem ∨ (2 * rem = 2 ^ r ∧ n % 2 = 1) then n + 1 else n
    | .sr d => if 2 ^ 24 ≤ rem * 2 ^ 24 / 2 ^ r + d then n + 1 else n

/-- m × 2^e as a multiple of 2^q. -/
def roundQ (rm : Rm) (m : Nat) (e q : Int) : Nat :=
  if q ≤ e then m * 2 ^ (e - q).toNat
  else
    let r := (q - e).toNat
    roundUp rm (m / 2 ^ r) (m % 2 ^ r) r

/-- The OVF, INVALID and LOSS a conversion records (R44, R58). -/
structure Cf where
  ovf : Bool := false
  inv : Bool := false
  loss : Bool := false
  deriving DecidableEq, Repr

def Cf.or (a b : Cf) : Cf := ⟨a.ovf || b.ovf, a.inv || b.inv, a.loss || b.loss⟩

/-- A positive magnitude rounded as if the exponent range had no upper limit: its encoding
without sign; a magnitude above the largest finite gives a larger number (R45). -/
def FF.roundMag (f : FF) (rm : Rm) (m : Nat) (e : Int) : Nat :=
  if m = 0 then 0
  else
    let low := 1 - (f.bias : Int) - f.mbits
    let q := max ((Nat.log2 m : Int) + e - f.mbits) low
    let n := roundQ rm m e q
    -- exponent field − 1 steps above the subnormal grid; carries run into the next binade
    n + (q - low).toNat * 2 ^ f.mbits

/-- Narrowing of a value (R43 to R45, Table 02-6). -/
def FF.encode (f : FF) (rm : Rm) (sat : Bool) : Num → Nat × Cf
  | .nan => (f.nanEnc, {})
  | .inf neg =>
    match f.special with
    | .ieee => (f.signBit neg + f.infEnc, {})
    | _ => (f.nanEnc, { inv := true })
  | .fin neg m e =>
    let n := f.roundMag rm m e
    if n ≤ f.maxEnc then (f.signBit neg + n, {})
    else if sat || rm = .rtz || f.special = .none then (f.signBit neg + f.maxEnc, { ovf := true })
    else if f.special = .ieee then (f.signBit neg + f.infEnc, { ovf := true })
    else (f.nanEnc, { ovf := true })

/-- The value rounded to nearest even in a format. -/
def FF.rnd (f : FF) (x : Num) : Num := f.decode (f.encode .rne false x).1

/-- Narrowing to an n-bit integer (Table 02-6). -/
def intEncode (n : Nat) (rm : Rm) : Num → Nat × Cf
  | .nan => (0, { inv := true })
  | .inf neg => (if neg then 2 ^ (n - 1) else 2 ^ (n - 1) - 1, { inv := true })
  | .fin neg m e =>
    let v := roundQ rm m e 0
    if neg then
      if v ≤ 2 ^ (n - 1) then ((2 ^ n - v) % 2 ^ n, {}) else (2 ^ (n - 1), { ovf := true })
    else if v < 2 ^ (n - 1) then (v, {}) else (2 ^ (n - 1) - 1, { ovf := true })

/-- The value of a two's-complement integer times 2^e. -/
def intDecode (n w : Nat) (e : Int) : Num :=
  let v := signed n w
  .fin (decide (v < 0)) v.natAbs e

/-! ### Exact and correctly rounded arithmetic -/

def Num.neg : Num → Num
  | .nan => .nan
  | .inf s => .inf (!s)
  | .fin s m e => .fin (!s) m e

def Num.abs : Num → Num
  | .nan => .nan
  | .inf _ => .inf false
  | .fin _ m e => .fin false m e

/-- Signed integer multiple of 2^q, for q at or below the exponent. -/
def scaleInt (neg : Bool) (m : Nat) (e q : Int) : Int :=
  let v : Int := (m * 2 ^ (e - q).toNat : Nat)
  if neg then -v else v

/-- Exact sum; a zero sum of unlike signs is +0 (rounding to nearest). -/
def Num.add : Num → Num → Num
  | .nan, _ => .nan
  | _, .nan => .nan
  | .inf a, .inf b => if a = b then .inf a else .nan
  | .inf a, _ => .inf a
  | _, .inf b => .inf b
  | .fin s m e, .fin t n f =>
    let q := min e f
    let v := scaleInt s m e q + scaleInt t n f q
    if v = 0 then .fin (s && t) 0 0 else .fin (decide (v < 0)) v.natAbs q

def Num.sub (x y : Num) : Num := x.add y.neg

/-- Exact product. -/
def Num.mul : Num → Num → Num
  | .nan, _ => .nan
  | _, .nan => .nan
  | .inf a, .inf b => .inf (a != b)
  | .inf a, .fin t n _ => if n = 0 then .nan else .inf (a != t)
  | .fin s m _, .inf b => if m = 0 then .nan else .inf (s != b)
  | .fin s m e, .fin t n f => .fin (s != t) (m * n) (e + f)

/-- Quotient with a sticky bit 128 places below its leading bit, which rounds correctly to
every format here. -/
def Num.div : Num → Num → Num
  | .nan, _ => .nan
  | _, .nan => .nan
  | .inf _, .inf _ => .nan
  | .inf a, .fin t _ _ => .inf (a != t)
  | .fin s _ _, .inf b => .fin (s != b) 0 0
  | .fin s m e, .fin t n f =>
    if n = 0 then (if m = 0 then .nan else .inf (s != t))
    else if m = 0 then .fin (s != t) 0 0
    else
      let k := Nat.log2 n + 128
      let q := m * 2 ^ k / n
      .fin (s != t) (2 * q + (if m * 2 ^ k % n = 0 then 0 else 1)) (e - f - k - 1)

/-- Integer square root by bits, from bit n − 1 down: r² ≤ v. -/
def isqrtFrom (v r : Nat) : Nat → Nat
  | 0 => r
  | n + 1 => if (r + 2 ^ n) * (r + 2 ^ n) ≤ v then isqrtFrom v (r + 2 ^ n) n else isqrtFrom v r n

def isqrt (v : Nat) : Nat := isqrtFrom v 0 (Nat.log2 v / 2 + 1)

/-- Square root with a sticky bit, at least 64 bits long. −0 gives −0. -/
def Num.sqrt : Num → Num
  | .nan => .nan
  | .inf neg => if neg then .nan else .inf false
  | .fin s m e =>
    if m = 0 then .fin s 0 0
    else if s then .nan
    else
      let k : Nat := 128 + (e % 2).toNat
      let r := isqrt (m * 2 ^ k)
      .fin false (2 * r + (if r * r = m * 2 ^ k then 0 else 1)) ((e - k) / 2 - 1)

/-- Order of values; false where either is NaN. -/
def Num.lt : Num → Num → Bool
  | .nan, _ => false
  | _, .nan => false
  | .inf a, .inf b => a && !b
  | .inf a, .fin _ _ _ => a
  | .fin _ _ _, .inf b => !b
  | .fin s m e, .fin t n f =>
    let q := min e f
    decide (scaleInt s m e q < scaleInt t n f q)

def Num.isNan (x : Num) : Bool := x = .nan

def Num.eqv (x y : Num) : Bool := !x.isNan && !y.isNan && !x.lt y && !y.lt x

def Num.isZero : Num → Bool
  | .fin _ m _ => m = 0
  | _ => false

def Num.isFin : Num → Bool
  | .fin _ _ _ => true
  | _ => false

def Num.isNeg : Num → Bool
  | .nan => false
  | .inf s => s
  | .fin s _ _ => s

def nzero : Num := .fin false 0 0
def none1 : Num := .fin false 1 0

/-- Natural number as a value. -/
def natNum (n : Nat) : Num := .fin false n 0

/-! ### Arithmetic of a width: one rounding to nearest even an operation -/

def FF.add (f : FF) (x y : Num) : Num := f.rnd (x.add y)
def FF.sub (f : FF) (x y : Num) : Num := f.rnd (x.sub y)
def FF.mul (f : FF) (x y : Num) : Num := f.rnd (x.mul y)
def FF.div (f : FF) (x y : Num) : Num := f.rnd (x.div y)
def FF.sqrt (f : FF) (x : Num) : Num := f.rnd x.sqrt

/-- Encoding of a value that the format holds. -/
def FF.enc (f : FF) (x : Num) : Nat := (f.encode .rne false x).1

/-! ### The SR hash (R48, R49) -/

def srMul : List (BitVec 64) := [0xC3A59E274B1D6F85, 0x8F2D61B7E94C3A0B, 0xA6D32C5A93E40F67, 0xE54F7A19C03B8D21]
def srAdd : List (BitVec 64) := [0x5A3C96E10F7B2D48, 0x1D84E2B67C93A50F, 0x73F10A5ED62C9B84, 0x2E6BC94785D13A0F]
def srShf : List Nat := [29, 31, 27, 33]

/-- One round of the hash. -/
def srRound (y x : BitVec 64) (k : Nat) : BitVec 64 :=
  let x := (x ^^^ y) * srMul.getD k 0 + srAdd.getD k 0
  x ^^^ (x >>> srShf.getD k 0)

/-- The 24-bit dither. -/
def srDither (seed : BitVec 64) (step tensor : BitVec 32) (index : BitVec 64) : Nat :=
  let x := seed ^^^ ((step.setWidth 64 <<< 32) ||| tensor.setWidth 64)
  (([0, 1, 2, 3].foldl (srRound index) x) >>> 40).toNat

/-- What a narrowing needs beside the value: mode 0 RNE, 1 RTZ, 2 SR; SAT; the SR inputs. -/
structure Narrow where
  mode : Nat := 0
  sat : Bool := false
  seed : BitVec 64 := 0
  step : BitVec 32 := 0
  tensor : BitVec 32 := 0
  deriving DecidableEq, Repr

/-- The rounding of the element with a given SR index. -/
def Narrow.rm (n : Narrow) (index : BitVec 64) : Rm :=
  if n.mode = 0 then .rne else if n.mode = 1 then .rtz else .sr (srDither n.seed n.step n.tensor index)

end Sys2Proof.Machine
end

