-- ==== Sys2Proof/Machine/Formats.lean ====
section
/-! DEFINITION. The format codes of commands, MX blocks and ALA-192 (R36, R39 to R42, R51 to
R58, R112). -/

namespace Sys2Proof.Machine

/-! ### Format codes (Table 04-5) -/

def fmFp32 : Nat := 0
def fmBf16 : Nat := 1
def fmFp16 : Nat := 2
def fmE4m3 : Nat := 3
def fmE5m2 : Nat := 4
def fmMxE4m3 : Nat := 5
def fmMxE5m2 : Nat := 6
def fmMxE3m2 : Nat := 7
def fmMxE2m3 : Nat := 8
def fmMxfp4 : Nat := 9
def fmMxint8 : Nat := 10
def fmInt8 : Nat := 11
def fmInt4 : Nat := 12
def fmFp64 : Nat := 13
def fmAla : Nat := 14

/-- Bits of an element. -/
def fmtBits (c : Nat) : Nat :=
  [32, 16, 16, 8, 8, 8, 8, 6, 6, 4, 8, 8, 4, 64, 256].getD c 0

def isMx (c : Nat) : Bool := decide (5 ≤ c) && decide (c ≤ 10)

/-- Bytes that n elements occupy (Table 02-2). -/
def fmtBytes (c n : Nat) : Nat := ceilDiv (n * fmtBits c) 8

/-- The floating-point format of a code, where it is one. -/
def fmtFF (c : Nat) : Option FF :=
  match c with
  | 0 => some fp32
  | 1 => some bf16
  | 2 => some fp16
  | 3 => some e4m3
  | 4 => some e5m2
  | 5 => some e4m3
  | 6 => some e5m2
  | 7 => some e3m2
  | 8 => some e2m3
  | 9 => some e2m1
  | 13 => some fp64
  | _ => none

/-- Value of an element's bits, before any block scale (R35). -/
def elemDecode (c w : Nat) : Num :=
  match fmtFF c with
  | some f => f.decode w
  | none => if c = 10 then intDecode 8 w (-6) else if c = 11 then intDecode 8 w 0 else intDecode 4 w 0

/-- Element j of a packed array (Table 02-2). -/
def elemAt (c : Nat) (data : Nat) (j : Nat) : Nat := data / 2 ^ (fmtBits c * j) % 2 ^ fmtBits c

/-- Value of an E8M0 scale; 0xFF is the NaN scale (R39). -/
def scaleNum (b : Nat) : Num := if b = 255 then .nan else .fin false 1 ((b : Int) - 127)

/-- Widening of an MX element to FP32 (R42). -/
def mxWiden (c scale w : Nat) : Nat × Cf :=
  fp32.encode .rne false ((elemDecode c w).mul (scaleNum scale))

/-! ### Conversion to an MX block (R40, R41) -/

/-- Exponent of the largest normal element (Table 02-4). -/
def emax (c : Nat) : Int :=
  match c with
  | 5 => 8
  | 6 => 15
  | 7 => 4
  | 8 => 2
  | 9 => 2
  | _ => 0

/-- floor(log2) of a positive value. -/
def Num.log2 : Num → Int
  | .fin _ m e => (Nat.log2 m : Int) + e
  | _ => 0

def Num.max (x y : Num) : Num := if x.lt y then y else x

/-- One element of a block divided by 2^ex, rounded and clamped; whether it was clamped. -/
def mxElem (c : Nat) (rm : Rm) (ex : Int) (x : Num) : Nat × Bool :=
  let v := x.mul (.fin false 1 (-ex))
  if c = 10 then
    match v with
    | .fin neg m e =>
      let n := roundQ rm m (e + 6) 0
      let k := min n 127
      ((if neg then (256 - k) % 256 else k), decide (127 < n))
    | _ => (0, false)
  else
    match fmtFF c with
    | some f => let r := f.encode rm true v; (r.1, r.2.ovf)
    | none => (0, false)

/-- A block of values to an MX format: scale byte, elements, flags. -/
def mxBlock (c : Nat) (rm : Nat → Rm) (xs : List Num) : Nat × List Nat × Cf :=
  if xs.any (fun x => !x.isFin) then (0xFF, xs.map (fun _ => 0), { inv := true })
  else
    let amax := xs.foldl (fun a x => a.max x.abs) nzero
    if amax.isZero then (0x7F, xs.map (fun _ => 0), {})
    else
      let ex := max (-127) (min 127 (amax.log2 - emax c))
      let es := xs.zipIdx.map (fun p => mxElem c (rm p.2) ex p.1)
      ((ex + 127).toNat, es.map (·.1), { ovf := ex = 127 && es.any (·.2) })

/-! ### ALA-192 (R51 to R58) -/

/-- An ALA-192 element: N, anchor and flags (Table 02-9). -/
structure Ala where
  n : Int := 0
  a : Int := 0
  ovf : Bool := false
  loss : Bool := false
  nan : Bool := false
  inf : Bool := false
  deriving DecidableEq, Repr

/-- An element as read (R52). -/
def Ala.ofWord (w : Nat) : Ala :=
  { n := signed 192 w, a := signed 16 (w / 2 ^ 192), ovf := w / 2 ^ 208 % 2 = 1
    loss := w / 2 ^ 209 % 2 = 1, nan := w / 2 ^ 210 % 2 = 1, inf := w / 2 ^ 211 % 2 = 1 }

/-- The canonical form (Table 02-10). -/
def Ala.canon (x : Ala) : Ala :=
  if x.nan then { x with n := 0, inf := false }
  else if x.inf then { x with n := if x.n < 0 then -1 else 1 }
  else if x.ovf then { x with n := 0 }
  else x

/-- The 256-bit word written for an element. -/
def Ala.word (x : Ala) : Nat :=
  let y := x.canon
  pack [(192, (y.n % 2 ^ 192).toNat), (16, (y.a % 65536).toNat), (1, b2n y.ovf), (1, b2n y.loss),
    (1, b2n y.nan), (1, b2n y.inf)]

/-- N shifted right by k, rounded to nearest even, and whether a non-zero bit went out. -/
def shiftRne (n : Int) (k : Nat) : Int × Bool :=
  let q := n / 2 ^ k
  let rem := (n % 2 ^ k).toNat
  if rem = 0 then (q, false)
  else if 2 ^ k < 2 * rem ∨ (2 * rem = 2 ^ k ∧ q % 2 = 1) then (q + 1, true)
  else (q, true)

def alaLimit : Int := 2 ^ 191

/-- The addition of R53. -/
def Ala.add (p q : Ala) : Ala :=
  let a := max p.a q.a
  let fl : Ala := { a := a, ovf := p.ovf || q.ovf, loss := p.loss || q.loss }
  let pi := p.inf && !p.nan
  let qi := q.inf && !q.nan
  if p.nan || q.nan || (pi && qi && (decide (p.n < 0) != decide (q.n < 0))) then { fl with nan := true }
  else if pi then { fl with inf := true, n := if p.n < 0 then -1 else 1 }
  else if qi then { fl with inf := true, n := if q.n < 0 then -1 else 1 }
  else
    let sp := shiftRne p.n (a - p.a).toNat
    let sq := shiftRne q.n (a - q.a).toNat
    let n := sp.1 + sq.1
    let past := decide (n < -alaLimit) || decide (alaLimit ≤ n)
    { n := if past then 0 else n, a := a, ovf := fl.ovf || past, loss := fl.loss || sp.2 || sq.2 : Ala }.canon

/-- FP32 or FP64 to ALA-192 at an anchor (R56). -/
def Ala.ofNum (a : Int) : Num → Ala
  | .nan => { a := a, nan := true }
  | .inf neg => { a := a, inf := true, n := if neg then -1 else 1 }
  | .fin neg m e =>
    let g := a - 128
    let r := if g ≤ e then ((m * 2 ^ (e - g).toNat : Nat) : Int) else (m : Int)
    let v := if neg then -r else r
    let s := if g ≤ e then (v, false) else shiftRne v (g - e).toNat
    if alaLimit ≤ s.1 ∨ s.1 ≤ -alaLimit then { a := a, ovf := true }
    else { n := s.1, a := a, loss := s.2 }

/-- The value of an element with neither NaN, infinity nor overflow. -/
def Ala.num (x : Ala) : Num := .fin (decide (x.n < 0)) x.n.natAbs (x.a - 128)

/-- Conversion out (R58): the encoding and the flags. -/
def Ala.toFF (f : FF) (rm : Rm) (sat : Bool) (x : Ala) : Nat × Cf :=
  let l : Cf := { loss := x.loss }
  if x.nan then (f.nanEnc, l)
  else if x.inf then let r := f.encode rm sat (.inf (decide (x.n < 0))); (r.1, r.2.or l)
  else if x.ovf then (f.nanEnc, { l with inv := true })
  else let r := f.encode rm sat x.num; (r.1, r.2.or l)

end Sys2Proof.Machine
end

