-- ==== Sys2Proof/Machine/DCode.lean ====
section
/-! DEFINITION. The D-code (R194 to R197): GF(2^8), check bytes, syndromes and the decision
on a read. A stored half keeps the XOR of its stored check bytes with the right ones of its
stored data, which fixes its syndromes (log 10). -/

namespace Sys2Proof.Machine

/-- Multiplication by α in the field of polynomial 0x11D. -/
def gfX (a : Byte) : Byte := (a <<< 1) ^^^ (if a.getLsbD 7 then 0x1D else 0)

/-- α^n times a. -/
def gfShift (a : Byte) : Nat → Byte
  | 0 => a
  | n + 1 => gfX (gfShift a n)

/-- Product in GF(2^8), over the bits of b from bit n − 1 down. -/
def gfMulN (a b : Byte) : Nat → Byte
  | 0 => 0
  | n + 1 => gfX (gfMulN a (b >>> 1) n) ^^^ (if b.getLsbD 0 then a else 0)

def gfMul (a b : Byte) : Byte := gfMulN a b 8

/-- α^n. -/
def gfAlpha (n : Nat) : Byte := gfShift 1 n

/-- One step of the division by g(x): the remainder with the next lower coefficient `d`
brought in (R194). -/
def rsStep (r : BitVec 32) (d : Byte) : BitVec 32 :=
  let top := BitVec.ofNat 8 (fld r 31 24) ^^^ d
  (r <<< 8) ^^^ BitVec.ofNat 32 (pack [(8, (gfMul top 0x40).toNat), (8, (gfMul top 0x78).toNat),
    (8, (gfMul top 0x36).toNat), (8, (gfMul top 0x0F).toNat)])

/-- Check bytes of 32 data bytes, byte j in bits 8j + 7 to 8j (R194). -/
def rsCheck (data : List Byte) : BitVec 32 := data.reverse.foldl rsStep 0

/-- Syndrome S_j of a half whose check bytes differ from the right ones by `x` (R196). -/
def syndrome (x : BitVec 32) (j : Nat) : Byte :=
  (List.range 4).foldl (fun a i => a ^^^ gfMul (BitVec.ofNat 8 (fld x (8 * i + 7) (8 * i))) (gfAlpha (i * j))) 0

/-- What a read finds (R196). -/
inductive DCheck where
  | good
  | poisoned
  /-- One erroneous byte: position p holds the error e. -/
  | fixed (p : Nat) (e : Byte)
  | bad
  deriving DecidableEq, Repr

/-- The cases of R196 in their order. -/
def dcheck (x : BitVec 32) : DCheck :=
  if x = 0 then .good
  else
    let s0 := syndrome x 0
    let s1 := syndrome x 1
    let s2 := syndrome x 2
    let s3 := syndrome x 3
    if s0 = 0 ∧ s1 = 0x0F ∧ s2 = 0x55 ∧ s3 = 0x73 then .poisoned
    else if s0 = 0 then .bad
    else
      match (List.range 36).find? (fun p => s1 = gfMul s0 (gfAlpha p) && s2 = gfMul s1 (gfAlpha p)
          && s3 = gfMul s2 (gfAlpha p)) with
      | some p => .fixed p s0
      | none => .bad

/-- Difference of a poisoned half (R197). -/
def poisonX : BitVec 32 := 0x01010101

/-- The 32 data bytes after the correction of position p by e. -/
def fixBytes (d : List Byte) (p : Nat) (e : Byte) : List Byte :=
  if p < 4 then d else d.set (p - 4) ((d.getD (p - 4) 0) ^^^ e)

end Sys2Proof.Machine
end

