-- ==== Sys2Proof/Machine/Memory.lean ====
section
/-! DEFINITION. Slabs and cluster memory: places, power states, D-code reads and writes,
write-backs and MEMORY records (R178 to R201, R486). -/

namespace Sys2Proof.Machine

/-! ### Places -/

def slabBase : Nat := 0x200000000
def clusterBase : Nat := 0x20000000

/-- Key of a core-local slab address (R178, R180). -/
def slabKey (c a : Nat) : Nat := slabBase + c * 0x800000 + a
/-- Key of an offset of a cluster's memory (R186). -/
def clusKey (k o : Nat) : Nat := clusterBase + k * 0x4000000 + o

/-- Memories are numbered 8c + s for slabs and 7,680 + 12k + g for segments. -/
def slabMem (c sl : Nat) : Nat := c * 8 + sl
def segMem (k g : Nat) : Nat := 7680 + k * 12 + g

def memIx : MemUnit → Nat
  | .slab c sl => slabMem c sl
  | .seg k g => segMem k g

/-- The memory that holds a key, where it is one of the die. -/
def memOf (key : Nat) : Option Nat :=
  if slabBase ≤ key ∧ key < slabBase + 960 * 0x800000 then
    let o := past key slabBase % 0x800000
    if o < 0x180000 then some (slabMem (past key slabBase / 0x800000) (o / 0x30000)) else none
  else if clusterBase ≤ key ∧ key < clusterBase + 60 * 0x4000000 then
    let o := past key clusterBase % 0x4000000
    if o < 0x3000000 then some (segMem (past key clusterBase / 0x4000000) (o / 0x400000)) else none
  else none

/-- Core whose slab holds a key, where it is one. -/
def slabCore (key : Nat) : Option Nat :=
  if slabBase ≤ key ∧ key < slabBase + 960 * 0x800000 then some (past key slabBase / 0x800000) else none

/-- A memory's KIND and SRC_ID, its index there, its first key and its size. -/
structure MemPlace where
  kind : Nat
  src : Nat
  ix : Nat
  base : Nat
  size : Nat
  deriving DecidableEq, Repr

def memPlace (m : Nat) : MemPlace :=
  if m < 7680 then ⟨1, m / 8, m % 8, slabKey (m / 8) (m % 8 * 0x30000), 0x30000⟩
  else
    let n := m - 7680
    ⟨6, n / 12, n % 12, clusKey (n / 12) (n % 12 * 0x400000), 0x400000⟩

/-- Offset of a key as a MEMORY record names it: core-local or cluster-memory. -/
def MemPlace.offset (p : MemPlace) (key : Nat) : Nat := key - p.base + p.ix * p.size

def State.memU (s : State) (m : Nat) : Mem := KV.get {} s.mems m

def State.setMem (s : State) (m : Nat) (u : Mem) : State := { s with mems := KV.put {} s.mems m u }

/-- A slab that failed test, or a segment of a failed tier: held OFF. -/
def State.memFailed (s : State) (m : Nat) : Bool :=
  if m < 7680 then bit (KV.get 0 s.sec.failedSlabs (m / 8)) (m % 8)
  else bit s.husk.tierFailed ((m - 7680) / 12)

/-- The state that applies (R191). -/
def State.memSt (s : State) (m : Nat) : PState :=
  if s.memFailed m then .off else (s.memU m).st

/-- Offset of the corrected-word count of a memory. -/
def corrReg (m : Nat) : Nat :=
  if m < 7680 then oSlabCorr (m / 8) (m % 8) else oSegCorr ((m - 7680) / 12) ((m - 7680) % 12)

def scrubReg (m : Nat) : Nat :=
  if m < 7680 then oSlabScrub (m / 8) (m % 8) else oSegScrub ((m - 7680) / 12) ((m - 7680) % 12)

/-! ### Unread bits (R235) -/

/-- Counts the unread words of a core among word numbers satisfying `p` as dropped. -/
def State.dropUnread (s : State) (c : Nat) (p : Nat → Bool) : State :=
  let gone := (s.core c).unread.filter (fun e => p e.1)
  if gone.isEmpty then s
  else
    (s.modCore c (fun k => { k with unread := k.unread.filter (fun e => !p e.1) })).count c 0xE8
      (64 * gone.length)

/-- Words of slab sl of a core, as numbers. -/
def inSlab (sl w : Nat) : Bool := decide (sl * 3072 ≤ w) && decide (w < (sl + 1) * 3072)

/-! ### Power states (R190 to R193) -/

/-- Every byte of a memory zero with valid check bytes. -/
def State.zeroMem (s : State) (m : Nat) : State :=
  let p := memPlace m
  let out (k : Nat) : Bool := decide (k < p.base ∨ p.base + p.size ≤ k)
  { s with
    mem := s.mem.filter (fun e => out e.1)
    chk := s.chk.filter (fun e => out (32 * e.1))
    reported := s.reported.filter (fun e => out (32 * e.1)) }

/-- The memory in ON: scrubbing restarts at word 0 (R201). -/
def Mem.on (u : Mem) : Mem := { u with st := .on, target := none, toRet := false, scrub := 0 }

/-- An access reaches a memory (R192): the memory with the access admitted, or none where the
access is refused. The waits of R192 take no step of their own (log 20). -/
def State.letIn (s : State) (m : Nat) : Option State :=
  let u := s.memU m
  match s.memSt m with
  | .on => if u.target = some .ret then some (s.setMem m { u with target := none, toRet := false }) else some s
  | .ret => some (s.setMem m u.on)
  | .off => if u.target.isSome && !s.memFailed m then some ((s.zeroMem m).setMem m u.on) else none

/-! ### MEMORY records (R200, R486) -/

/-- The record of an uncorrectable half, with its Husk copy. -/
def memEv (kind src ix off ctx : Nat) (x : BitVec 32) : Ev :=
  { typ := evMemory, husk := true, status := stEcc, kind := kind, src := src, ctx := ctx
    payload := pack [(8, 1), (8, ix), (48, 0), (64, off), (8, (syndrome x 0).toNat),
      (8, (syndrome x 1).toNat), (8, (syndrome x 2).toNat), (8, (syndrome x 3).toNat)] }

/-- A corrected word of memory m: counted, queued for write-back, and reported at most once a
second (R199 to R201). -/
def State.noteFixed (s : State) (m h : Nat) (good : List Byte) : State :=
  let s := s.bump32 (corrReg m) 1
  let u := s.memU m
  let u := if u.wb.length < 4 && !(u.wb.any (fun e => e.1 = h)) then
      { u with wb := u.wb ++ [(h, BitVec.ofNat 256 (leNat good))] } else u
  let due := match u.corrAt with
    | none => true
    | some t => decide (50000000 ≤ (s.aon - t).toNat)
  if due then
    let p := memPlace m
    (s.setMem m { u with corrAt := some s.aon }).post 0
      { typ := evMemory, kind := p.kind, src := p.src
        payload := pack [(8, 0), (8, p.ix), (144, 0), (32, (s.rg (corrReg m)).toNat)] }
  else s.setMem m u

/-- The first detection of an uncorrectable half raises a MEMORY record (R200). -/
def State.noteBad (s : State) (m h ctx : Nat) : State :=
  if KV.get false s.reported h then s
  else
    let p := memPlace m
    ({ s with reported := KV.put false s.reported h true }).post 0
      (memEv p.kind p.src p.ix (p.offset (32 * h)) ctx (KV.get 0 s.chk h))

/-! ### Reads and writes of the die's memories -/

/-- Data, status and state after a read. -/
structure Rd where
  data : List Byte
  st : BitVec 8
  s : State
  deriving DecidableEq, Repr

/-- A read of one 32-byte half (R196, R199): half h holds keys 32h to 32h + 31. -/
def State.readHalf (s : State) (ctx h : Nat) : Rd :=
  match memOf (32 * h) with
  | none => ⟨List.replicate 32 0, stIllegal, s⟩
  | some m =>
    match s.letIn m with
    | none => ⟨List.replicate 32 0, stIllegal, s⟩
    | some s =>
      let raw := s.bytes (32 * h) 32
      match dcheck (KV.get 0 s.chk h) with
      | .good => ⟨raw, stOk, s⟩
      | .fixed p e => ⟨fixBytes raw p e, stOk, s.noteFixed m h (fixBytes raw p e)⟩
      | .poisoned => ⟨raw, stPoison, s⟩
      | .bad => ⟨raw, stEcc, s.noteBad m h ctx⟩

/-- Halves h to h + n − 1; the first status that is not OK stands. -/
def State.readHalves (s : State) (ctx h : Nat) : Nat → Rd
  | 0 => ⟨[], stOk, s⟩
  | n + 1 =>
    let a := s.readHalf ctx h
    let b := a.s.readHalves ctx (h + 1) n
    ⟨a.data ++ b.data, if a.st = stOk then b.st else a.st, b.s⟩

/-- A read of n bytes at a key of a slab or of cluster memory. -/
def State.readDie (s : State) (ctx key n : Nat) : Rd :=
  if n = 0 then ⟨[], stOk, s⟩
  else
    let h := key / 32
    let r := s.readHalves ctx h ((key + n - 1) / 32 - h + 1)
    ⟨(r.data.drop (key % 32)).take n, r.st, r.s⟩

/-- A write to the word of half h abandons its correction write-backs (R201). -/
def State.dropWb (s : State) (h : Nat) : State :=
  match memOf (32 * h) with
  | some m =>
    let u := s.memU m
    if u.wb.any (fun e => e.1 / 2 = h / 2) then s.setMem m { u with wb := u.wb.filter (fun e => e.1 / 2 ≠ h / 2) } else s
  | none => s

/-- Stores the whole of half h: right check bytes, or poisoned ones (R197). -/
def State.storeHalf (s : State) (h : Nat) (d : List Byte) (poison : Bool) : State :=
  let s := (s.dropWb h).putBytes (32 * h) d
  { s with
    chk := KV.put 0 s.chk h (if poison then poisonX else 0)
    reported := KV.put false s.reported h false }

/-- What half h is to hold once bytes are written at offset o of it. A part of a half is a
read-modify-write, which fails on an uncorrectable or poisoned half (R185, R197). -/
def State.mergeHalf (s : State) (ctx h o : Nat) (d : List Byte) : Rd :=
  if d.length = 32 then ⟨d, stOk, s⟩
  else
    let r := s.readHalf ctx h
    { r with data := listSet r.data o d }

/-- A write of bytes within one 64-byte word; one that fails leaves the word as it was (R197). -/
def State.writeWord (s : State) (ctx key : Nat) (d : List Byte) (poison : Bool) : BitVec 8 × State :=
  let h := key / 32
  match memOf (32 * h) with
  | none => (stIllegal, s)
  | some m =>
    match s.letIn m with
    | none => (stIllegal, s)
    | some s =>
      let k := 32 - key % 32
      let a := s.mergeHalf ctx h (key % 32) (d.take k)
      if d.length ≤ k then (a.st, if a.st = stOk then a.s.storeHalf h a.data poison else a.s)
      else
        let b := a.s.mergeHalf ctx (h + 1) 0 (d.drop k)
        let st := if a.st = stOk then b.st else a.st
        (st, if st = stOk then (b.s.storeHalf h a.data poison).storeHalf (h + 1) b.data poison else b.s)

/-- Writes bytes from a key on, word by word, with fuel for the words. -/
def State.writeFrom (s : State) (ctx key : Nat) (d : List Byte) (poison : Bool) : Nat → BitVec 8 × State
  | 0 => (stOk, s)
  | n + 1 =>
    if d.isEmpty then (stOk, s)
    else
      let o := key % 64
      let a := s.writeWord ctx key (d.take (64 - o)) poison
      let b := a.2.writeFrom ctx (key + (64 - o)) (d.drop (64 - o)) poison n
      (if a.1 = stOk then b.1 else a.1, b.2)

/-- A write of bytes to a slab or to cluster memory. -/
def State.writeDie (s : State) (ctx key : Nat) (d : List Byte) (poison : Bool := false) : BitVec 8 × State :=
  s.writeFrom ctx key d poison (d.length / 64 + 2)

/-! ### Engines and their slabs -/

/-- Context of the list in a slot. -/
def State.ctxOf (s : State) (c sl : Nat) : Nat := (s.slot c sl).ctx.toNat

/-- 64-byte words that n bytes at core-local address a touch. -/
def wordsOf (a n : Nat) : List Nat :=
  if n = 0 then [] else (List.range ((a + n - 1) / 64 - a / 64 + 1)).map (· + a / 64)

/-- Counts the unread words an engine of the core reads (R235). -/
def State.consumeUnread (s : State) (c a n : Nat) : State :=
  if (s.core c).unread.isEmpty then s
  else
    let ws := wordsOf a n
    let hit := (s.core c).unread.filter (fun e => ws.contains e.1)
    if hit.isEmpty then s
    else
      (s.modCore c (fun k => { k with unread := k.unread.filter (fun e => !ws.contains e.1) })).count c
        0xE0 (64 * hit.length)

/-- A read of n bytes at core-local address a by an engine of the core. -/
def State.engRead (s : State) (c ctx a n : Nat) : Rd :=
  let r := s.readDie ctx (slabKey c a) n
  { r with s := r.s.consumeUnread c a n }

/-- A write by an engine of the core; a word still unread is counted as overwritten. -/
def State.engWrite (s : State) (c ctx a : Nat) (d : List Byte) : BitVec 8 × State :=
  let s := if (s.core c).unread.isEmpty then s
    else s.dropUnread c (fun w => (wordsOf a d.length).contains w)
  s.writeDie ctx (slabKey c a) d

/-- Counts the unread words of a slab range that are written again (R235). -/
def State.rewritten (s : State) (c a n : Nat) : State :=
  if (s.core c).unread.isEmpty then s else s.dropUnread c (fun w => (wordsOf a n).contains w)

/-- The words of a slab range become unread. -/
def State.copied (s : State) (c a n : Nat) : State :=
  s.modCore c (fun k => { k with unread := (wordsOf a n).foldl (fun m w => KV.put false m w true) k.unread })

/-- A write to a slab by a copy: its words become unread. -/
def State.copyToSlab (s : State) (c ctx a : Nat) (d : List Byte) (poison : Bool) : BitVec 8 × State :=
  let r := (s.rewritten c a d.length).writeDie ctx (slabKey c a) d poison
  if r.1 = stOk then (r.1, r.2.copied c a d.length) else r

/-- Whether n bytes at core-local address a lie in the slab space (R179). -/
def inSlabSpace (a n : Nat) : Bool := decide (n = 0) || decide (a + n ≤ 0x180000)

end Sys2Proof.Machine
end

