-- ==== Sys2Proof/Machine/SlowTier.lean ====
section
/-! DEFINITION. The slow tier: physical addresses, line format, the gradient monitor, and the
context table that lies in it (R254 to R263, R272, R376). -/

namespace Sys2Proof.Machine

/-! ### Addresses (R257 to R259) -/

def gib : Nat := 2 ^ 30

/-- DMS_POP.READY. -/
def State.tierReady (s : State) : Bool := bit (s.rg oPop) 24

def State.mode10 (s : State) : Bool := bit (s.rg oPop) 23

/-- L of R257 in bytes. -/
def State.localBytes (s : State) : Nat := gib * s.rf oSplit 8 0

def localBase (k : Nat) : Nat := 0x80000000000 + k * 0x8000000000

/-- Size of the local window of each Damson. -/
def State.localSize (s : State) : Nat := if s.mode10 then s.localBytes else 2 * s.localBytes

/-- Channel and offset of a physical address (Table 10-4); none where it is unmapped. -/
def State.tierMap (s : State) (pa : Nat) : Option (Nat × Nat) :=
  let cap := s.dimmGib * gib
  let l := s.localBytes
  if !s.tierReady then none
  else if pa < 0x80000000000 then
    let n := if s.mode10 then 10 else 20
    if pa < n * (cap - l) then
      let c := pa / 256
      some (if s.mode10 then 2 * (c % 10) else c % 20, c / n * 256 + pa % 256)
    else none
  else
    let k := past pa 0x80000000000 / 0x8000000000
    let o := past pa 0x80000000000 % 0x8000000000
    if k < 10 ∧ o < s.localSize then
      if s.mode10 then some (2 * k, (cap - l) + o)
      else some (2 * k + o / 256 % 2, (cap - l) + o / 512 * 256 + o % 256)
    else none

/-- Bank of a channel offset (R259). -/
def State.tierBank (s : State) (off : Nat) : Nat :=
  ((off / 256) ^^^ (off / 2 ^ 20)) % max 1 s.dimmBanks

/-! ### Lines (R260 to R262) -/

/-- Number of the line that holds a key. -/
def lineOf (key : Nat) : Nat := key / 64

def State.line (s : State) (key : Nat) : LineTag := KV.get {} s.lines (lineOf key)

def State.setLine (s : State) (key : Nat) (t : LineTag) : State :=
  { s with lines := KV.put {} s.lines (lineOf key) t }

/-- The MEMORY record of a line whose tag disagrees with its complement. -/
def tornEv (ch off ctx : Nat) : Ev :=
  { typ := evMemory, husk := true, status := stEcc, kind := 4, src := ch, ctx := ctx
    payload := pack [(8, 2), (8, 0), (48, 0), (64, off)] }

/-- First detection of a slow-tier error, by half. -/
def State.noteTier (s : State) (h : Nat) (e : Ev) : State :=
  if KV.get false s.reported h then s
  else ({ s with reported := KV.put false s.reported h true }).post 0 e

def State.dam (s : State) (k : Nat) : Damson := KV.get {} s.damsons k

def State.setDam (s : State) (k : Nat) (d : Damson) : State :=
  { s with damsons := KV.put {} s.damsons k d }

/-- The Damson of a channel is in reset: its DIMMs refresh themselves, and a request to it is lost
(R285). -/
def State.selfRefresh (s : State) (ch : Nat) : Bool := (s.dam (ch / 2)).inReset

/-- A read of the 32-byte half of the slow tier that holds a physical address (R261). -/
def State.tierHalf (s : State) (ctx pa : Nat) : Rd :=
  match s.tierMap (pa / 32 * 32) with
  | none => ⟨List.replicate 32 0, stIllegal, s⟩
  | some (ch, off) =>
    let key := tierKey ch off
    let t := s.line key
    let raw := s.bytes key 32
    if s.selfRefresh ch then ⟨List.replicate 32 0, stPathLost, s⟩
    else if t.torn then ⟨raw, stEcc, s.noteTier (lineOf key * 2) (tornEv ch (off / 64 * 64) ctx)⟩
    else if t.poison then ⟨raw, stPoison, s⟩
    else
      match dcheck (KV.get 0 s.chk (key / 32)) with
      | .good => ⟨raw, stOk, s⟩
      | .fixed p e => ⟨fixBytes raw p e, stOk, s⟩
      | .poisoned => ⟨raw, stPoison, s⟩
      | .bad => ⟨raw, stEcc, s.noteTier (key / 32) (memEv 4 ch 0 off ctx (KV.get 0 s.chk (key / 32)))⟩

/-- Halves from a physical address on; the first status that is not OK stands. -/
def State.tierHalves (s : State) (ctx pa : Nat) : Nat → Rd
  | 0 => ⟨[], stOk, s⟩
  | n + 1 =>
    let a := s.tierHalf ctx pa
    let b := a.s.tierHalves ctx (pa + 32) n
    ⟨a.data ++ b.data, if a.st = stOk then b.st else a.st, b.s⟩

/-- A read of n bytes of the slow tier at a physical address. -/
def State.readTier (s : State) (ctx pa n : Nat) : Rd :=
  if n = 0 then ⟨[], stOk, s⟩
  else
    let r := s.tierHalves ctx (pa / 32 * 32) ((pa + n - 1) / 32 - pa / 32 + 1)
    ⟨(r.data.drop (pa % 32)).take n, r.st, r.s⟩

/-! ### The gradient monitor (R269, R272) -/

/-- Byte field of a group descriptor: n bytes at byte b. -/
def gByte (g : BitVec 1024) (b n : Nat) : Nat := fld g (8 * (b + n) - 1) (8 * b)

/-- Element size of GFMT. -/
def gElem (g : BitVec 1024) : Nat := [2, 4, 32].getD (fld g 7 6) 32

def gCount (g : BitVec 1024) : Nat := gByte g 16 8

/-- Value in FP64 of an element of the G region. -/
def gNum (fmt w : Nat) : Num :=
  if fmt = 0 then bf16.decode w else if fmt = 1 then fp32.decode w
  else fp64.decode ((Ala.ofWord w).toFF fp64 .rne false).1

/-- The monitor after one element: NF where it is not finite, GMAX the larger magnitude (R272). -/
def monitor (g : BitVec 1024) (w : Nat) : BitVec 1024 :=
  let x := gNum (fld g 7 6) w
  let g := if x.isFin then g else setFld g (8 * 112) (8 * 112) 1
  if (fp64.decode (gByte g 104 8)).lt x.abs then setFld g (8 * 112 - 1) (8 * 104) (fp64.enc x.abs) else g

/-- A group's monitor after a write of n bytes at offset o of the local window, whose line
holds `data` from offset `lo` on (R272). -/
def monitorGroup (lo : Nat) (data : List Byte) (o n : Nat) (poison : Bool) (g : BitVec 1024) : BitVec 1024 :=
  let es := gElem g
  let base := gByte g 56 8
  let fin := base + es * gCount g
  if !bit g 0 || decide (o + n ≤ base ∨ fin ≤ o) then g
  else if poison then setFld g (8 * 112) (8 * 112) 1
  else
    let a := (max o base - base) / es
    let b := (min (o + n) fin - 1 - base) / es
    (List.range (b + 1 - a)).foldl
      (fun g i => monitor g (leNat ((data.drop (base + (a + i) * es - lo)).take es))) g

/-- The monitors of every group of Damson k after a write at offset o of its window. -/
def State.monitorWrite (s : State) (k lo : Nat) (data : List Byte) (o n : Nat) (poison : Bool) : State :=
  let d := s.dam k
  if d.groups.isEmpty then s
  else s.setDam k { d with groups := KV.vmap 0 (monitorGroup lo data o n poison) d.groups }

/-! ### Regions of a group, and values that an update leaves undefined (R270, R281, R283) -/

def gRule (g : BitVec 1024) : Nat := fld g 2 1
/-- Bytes of a moment. -/
def gMom (g : BitVec 1024) : Nat := if bit g 4 then 2 else 4
def gWcFmt (g : BitVec 1024) : Nat := fld g 10 8
/-- Bytes of a working-copy element. -/
def gWcSize (g : BitVec 1024) : Nat := if gWcFmt g = 1 then 2 else 1
def gIsMx (g : BitVec 1024) : Bool := gWcFmt g = 4 || gWcFmt g = 5
/-- V is used. -/
def gUsesV (g : BitVec 1024) : Bool := gRule g = 1 || gRule g = 3
def gW (g : BitVec 1024) : Nat := gByte g 32 8
def gM (g : BitVec 1024) : Nat := gByte g 40 8
def gV (g : BitVec 1024) : Nat := gByte g 48 8
def gG (g : BitVec 1024) : Nat := gByte g 56 8
def gMask (g : BitVec 1024) : Nat := gByte g 80 8
/-- Working copy of a step (R277), and its scale array. -/
def gWc (g : BitVec 1024) (step : Nat) : Nat := if step % 2 = 0 then gByte g 64 8 else gByte g 72 8
def gScale (g : BitVec 1024) (wc : Nat) : Nat := wc + ceilDiv (gCount g) 256 * 256

/-- n bytes at an offset of Damson k's window take a free value; check bytes stay right. -/
def State.freeLocal (s : State) (k o n : Nat) : State :=
  (List.range n).foldl (fun s i =>
    match s.tierMap (localBase k + o + i) with
    | some (ch, off) => (s.putByte (tierKey ch off) (s.freeVal 8)).took
    | none => s) s

/-- MASK freezes parameter i of a group of Damson k (R271). -/
def State.frozenAt (s : State) (k : Nat) (g : BitVec 1024) (i : Nat) : Bool :=
  bit g 13 && (match s.tierMap (localBase k + gMask g + i / 8) with
    | some (ch, off) => decide (leNat (s.bytes (tierKey ch off) 1) / 2 ^ (i % 8) % 2 = 1)
    | none => false)

/-- The values that an update of a step writes for parameters a to b − 1: of a frozen one, its working
copy alone. -/
def State.freeParams (s : State) (k : Nat) (g : BitVec 1024) (step a b : Nat) : State :=
  let m := gMom g
  let z := gWcSize g
  let live := ((List.range (b - a)).map (· + a)).filter (fun i => !s.frozenAt k g i)
  let s := live.foldl (fun s i =>
    let s := (s.freeLocal k (gW g + 4 * i) 4).freeLocal k (gM g + m * i) m
    if gUsesV g then s.freeLocal k (gV g + m * i) m else s) s
  if gWcFmt g = 0 then s
  else if gIsMx g then
    let p := a / 32
    let q := ceilDiv b 32
    (s.freeLocal k (gWc g step + 32 * p) (32 * (q - p))).freeLocal k (gScale g (gWc g step) + p) (q - p)
  else s.freeLocal k (gWc g step + z * a) (z * (b - a))

/-- Parameters of a region of element size es at base that n bytes at o touch. -/
def touched (base es count o n : Nat) : Option (Nat × Nat) :=
  let lo := max o base
  let hi := min (o + n) (base + es * count)
  if lo < hi then some ((lo - base) / es, min count (ceilDiv (hi - base) es)) else none

/-- A write into a line of G, W, M or V of the group that an update of Damson k runs on (R283).
Values of the norm sums are in the entry. -/
def State.disturb (s : State) (k o : Nat) : State :=
  let d := s.dam k
  match d.running with
  | none => s
  | some r =>
    let g := KV.get 0 d.groups (fld r.part.w 53 42)
    let lo := o / 64 * 64
    let hit := ([(gG g, gElem g), (gW g, 4), (gM g, gMom g)] ++ (if gUsesV g then [(gV g, gMom g)] else [])).filterMap
      (fun x => touched x.1 x.2 (gCount g) lo 64)
    if hit.isEmpty || r.status ≠ stOk && r.status ≠ stEcc && r.status ≠ stPoison then s
    else if r.applied then hit.foldl (fun s x => s.freeParams k g (fld r.part.w 123 60) x.1 x.2) s
    else
      let e := setFld (setFld r.entry 1023 512 (s.freeVal 512).toNat) 10 10 (s.freeVal 512).toNat
      s.took.setDam k { d with running := some { r with entry := e } }

/-! ### Writes -/

/-- Stores a line: data, check bytes, tag and epoch (R260 to R262). -/
def State.storeLine (s : State) (ch off : Nat) (d : List Byte) (poison : Bool) : State :=
  let key := tierKey ch off
  let s := (s.storeHalf (key / 32) (d.take 32) poison).storeHalf (key / 32 + 1) (d.drop 32) poison
  s.setLine key { epoch := BitVec.ofNat 24 (s.rf (oEpoch (ch / 2)) 23 0), poison := poison }

/-- A write of bytes within the line that holds a physical address (R261). -/
def State.writeLine (s : State) (ctx pa : Nat) (d : List Byte) (poison : Bool) : BitVec 8 × State :=
  let base := pa / 64 * 64
  match s.tierMap base with
  | none => (stIllegal, s)
  | some (ch, off) =>
    let r : Rd := if d.length = 64 then ⟨d, if s.selfRefresh ch then stPathLost else stOk, s⟩
      else
        let r := s.readTier ctx base 64
        { r with data := listSet r.data (pa % 64) d }
    if r.st = stOk then
      let s := r.s.storeLine ch off r.data poison
      let k := past pa 0x80000000000 / 0x8000000000
      let o := past pa 0x80000000000 % 0x8000000000
      (stOk, if 0x80000000000 ≤ pa then (s.monitorWrite k (o / 64 * 64) r.data o d.length poison).disturb k o else s)
    else (r.st, r.s)

def State.writeLines (s : State) (ctx pa : Nat) (d : List Byte) (poison : Bool) : Nat → BitVec 8 × State
  | 0 => (stOk, s)
  | n + 1 =>
    if d.isEmpty then (stOk, s)
    else
      let k := 64 - pa % 64
      let a := s.writeLine ctx pa (d.take k) poison
      let b := a.2.writeLines ctx (pa + k) (d.drop k) poison n
      (if a.1 = stOk then b.1 else a.1, b.2)

/-- A write of bytes to the slow tier at a physical address. -/
def State.writeTier (s : State) (ctx pa : Nat) (d : List Byte) (poison : Bool := false) : BitVec 8 × State :=
  s.writeLines ctx pa d poison (d.length / 64 + 2)

/-! ### The context table (R376) -/

/-- The entry of a context: its 64 bytes, zero where it cannot be read. Entries read with
VALID set are cached until the host invalidates them (log 21). -/
def State.ctxEntry (s : State) (ctx : Nat) : BitVec 512 × State :=
  match s.hif.ctxCache.find? (fun e => e.1 = ctx) with
  | some e => (e.2, s)
  | none =>
    let r := s.readTier 0xFFFF ((s.rg oCtxBase).toNat + 64 * (ctx % 65536)) 64
    if r.st = stOk then
      let w := BitVec.ofNat 512 (leNat r.data)
      (w, if bit w 0 then { r.s with hif := { r.s.hif with ctxCache := (ctx, w) :: r.s.hif.ctxCache } } else r.s)
    else (0, r.s)

def ceValid (e : BitVec 512) : Bool := bit e 0
def cePasid (e : BitVec 512) : Option (BitVec 20) := if bit e 2 then some (e.extractLsb' 32 20) else none
def ceLcomp (e : BitVec 512) : Bool := bit e 1
def ceFunc (e : BitVec 512) : Nat := fld e 11 8
def ceEvq (e : BitVec 512) : Nat := fld e 21 16
def ceRoot (e : BitVec 512) : Nat := fld e 127 64
def ceWait (e : BitVec 512) : Nat := fld e 159 128
def ceModules (e : BitVec 512) : Nat := fld e 175 160
def ceHang (e : BitVec 512) : Nat := fld e 223 192

/-- A host-memory request of a context carries the requester ID of its function, and its PASID. -/
def State.noteHost (s : State) (ctx : Nat) : State :=
  let x := s.ctxEntry ctx
  { x.2 with hif := { x.2.hif with hostId := { func := x.1.extractLsb' 8 4, pasid := cePasid x.1 } } }

/-- Posts a record to its context's queue, or to queue 0 (R394). -/
def State.postCtx (s : State) (e : Ev) : State :=
  if e.ctx = 0xFFFF then s.post 0 e
  else
    let x := s.ctxEntry e.ctx
    x.2.post (if ceValid x.1 then ceEvq x.1 else 0) e

end Sys2Proof.Machine
end

