-- ==== Sys2Proof/Machine/Translate.lean ====
section
/-! DEFINITION. The device address map, translation tables and TLBs, and reads and writes at
device addresses (R202 to R208, R180, R184, R185). -/

namespace Sys2Proof.Machine

/-! ### The device address map (Table 08-1) -/

inductive Region where
  | cluster
  | window
  | setup
  /-- A slab: the key of the plain byte, and the view: 0 plain, 1 bit-set, 2 bit-clear. -/
  | slab (key view : Nat)
  | tier
  | host
  | remote
  | queue (q : Nat)
  | unmapped
  deriving DecidableEq, Repr

/-- Region of a slab-region offset (Table 07-2). -/
def slabRegion (c o : Nat) : Region :=
  if o < 0x180000 then .slab (slabKey c o) 0
  else if 0x200000 ≤ o ∧ o < 0x380000 then .slab (slabKey c (past o 0x200000)) 1
  else if 0x400000 ≤ o ∧ o < 0x580000 then .slab (slabKey c (past o 0x400000)) 2
  else .unmapped

def regionOf (a : Nat) : Region :=
  if 0x20000000 ≤ a ∧ a < 0x110000000 then
    if past a 0x20000000 % 0x4000000 < 0x3000000 then .cluster else .unmapped
  else if 0x110000000 ≤ a ∧ a < 0x1103C0000 then .window
  else if 0x120000000 ≤ a ∧ a < 0x122000000 then .setup
  else if 0x200000000 ≤ a ∧ a < 0x3E0000000 then
    slabRegion (past a 0x200000000 / 0x800000) (past a 0x200000000 % 0x800000)
  else if 0x10000000000000 ≤ a ∧ a < 0x20000000000000 then .tier
  else if 0x20000000000000 ≤ a ∧ a < 0x30000000000000 then .host
  else if 0x30000000000000 ≤ a ∧ a < 0x40000000000000 then .remote
  else if 0xF0000000000000 ≤ a ∧ a < 0xF0000000000008 then .queue (past a 0xF0000000000000)
  else .unmapped

/-! ### TLBs and walks (R206 to R208) -/

def TlbEnt.matches (e : TlbEnt) (ctx va : Nat) : Bool :=
  e.ctx.toNat = ctx && e.vpn = va / (if e.big then 0x200000 else 0x10000)

def TlbEnt.addr (e : TlbEnt) (va : Nat) : Nat := e.phys + va % (if e.big then 0x200000 else 0x10000)

def tlbFind (l : List TlbEnt) (ctx va : Nat) : Option TlbEnt := l.find? (fun e => e.matches ctx va)

/-- Result of one step of a walk. -/
inductive WalkRes where
  | more (w : Walk)
  /-- A leaf, and whether its address goes through PCIe ATS. -/
  | leaf (e : TlbEnt) (ats : Bool)
  /-- A fault: cause and level of Table 15-4. -/
  | fault (cause level : Nat)
  /-- The walk fails with a status. -/
  | fail (st : BitVec 8)
  deriving DecidableEq, Repr

def vaIndex (level va : Nat) : Nat :=
  match level with
  | 0 => va / 2 ^ 39 % 8192
  | 1 => va / 2 ^ 30 % 512
  | 2 => va / 2 ^ 21 % 512
  | _ => va / 2 ^ 16 % 32

/-- The walk of an address under a context before its first read, or its fault. -/
def State.walkStart (s : State) (ctx va : Nat) (write : Bool) : (Walk ⊕ Nat × Nat) × State :=
  let x := s.ctxEntry ctx
  if !ceValid x.1 then (.inr (5, 0), x.2)
  else if ceRoot x.1 % 65536 ≠ 0 then (.inr (2, 0), x.2)
  else if (x.2.tierMap (ceRoot x.1)).isNone then (.inr (6, 0), x.2)
  else
    (.inl { ctx := BitVec.ofNat 16 ctx, va := BitVec.ofNat 56 va, write := write, level := 0
            table := BitVec.ofNat 56 (ceRoot x.1) }, x.2)

/-- What a table entry read by a walk gives (R208). WRITE of an entry that is no leaf is not looked at
(log 123). -/
def walkEntry (mapped : Nat → Bool) (w : Walk) (e : BitVec 64) : WalkRes :=
  let va := w.va.toNat
  let addr := fld e 55 12 * 4096
  let leaf := bit e 1
  let hostMem := decide (regionOf va = .host)
  let size := if w.level = 2 then 0x200000 else 0x10000
  let rsv := decide (fld e 63 56 ≠ 0) || decide (fld e 11 4 ≠ 0) || (bit e 3 && !(leaf && hostMem)) ||
    (leaf && decide (addr % size ≠ 0))
  if !bit e 0 then .fault 0 w.level
  else if (leaf && decide (w.level < 2)) || (!leaf && decide (3 ≤ w.level)) then .fault 1 w.level
  else if rsv then .fault 2 w.level
  else if leaf then
    if w.write && !bit e 2 then .fault 3 w.level
    else .leaf { ctx := w.ctx, big := w.level = 2, vpn := va / size, phys := addr, writable := bit e 2 } (bit e 3)
  else if mapped addr then .more { w with level := w.level + 1, table := BitVec.ofNat 56 addr }
  else .fault 6 (w.level + 1)

/-- One read of a walk. -/
def State.walkStep (s : State) (w : Walk) : WalkRes × State :=
  let r := s.readTier w.ctx.toNat (w.table.toNat + 8 * vaIndex w.level w.va.toNat) 8
  if r.st = stIllegal then (.fault 6 w.level, r.s)
  else if r.st = stOk then
    (walkEntry (fun a => (r.s.tierMap a).isSome) w (BitVec.ofNat 64 (leNat r.data)), r.s)
  else (.fail r.st, r.s)

/-- A whole walk at once, where nothing outside answers for it (log 22). -/
def State.walkAll (s : State) (w : Walk) : Nat → WalkRes × State
  | 0 => (.fault 1 3, s)
  | n + 1 =>
    match s.walkStep w with
    | (.more w', s') => s'.walkAll w' n
    | r => r

/-- A leaf whose address goes through PCIe ATS, where no command answers for the host: whether the
request succeeds, and with what page, is a free value (R206, log 22). -/
def State.atsNow (s : State) (e : TlbEnt) : WalkRes × State :=
  let v := s.freeVal 65
  let size := if e.big then 0x200000 else 0x10000
  (if bit v 64 then .leaf { e with phys := fld v 63 0 / size * size, ats := some e.phys } false
    else .fault 4 (if e.big then 2 else 3), s.took)

def State.walkNow (s : State) (ctx va : Nat) (write : Bool) : WalkRes × State :=
  match s.walkStart ctx va write with
  | (.inl w, s) =>
    match s.walkAll w 4 with
    | (.leaf e true, s) => s.atsNow e
    | r => r
  | (.inr f, s) => (.fault f.1 f.2, s)

/-! ### Places -/

/-- Where a device address lies once translated. -/
inductive Place where
  | die (key : Nat)
  /-- An address in the alias views, that of a plain byte; true sets bits. -/
  | aliasView (key : Nat) (set : Bool)
  | tier (pa : Nat)
  | host (addr : Nat)
  | queue (q : Nat)
  deriving DecidableEq, Repr

/-- Result of placing an address. -/
inductive PlaceRes where
  | at (p : Place)
  | miss
  | denied (level : Nat)
  | bad
  deriving DecidableEq, Repr

/-- Place of a device address for an agent with a TLB. -/
def placeOf (tlb : List TlbEnt) (ctx a : Nat) (write : Bool) : PlaceRes :=
  match regionOf a with
  | .cluster => .at (.die a)
  | .slab key view => .at (if view = 0 then .die key else .aliasView key (view = 1))
  | .queue q => .at (.queue q)
  | .tier =>
    match tlbFind tlb ctx a with
    | none => .miss
    | some e => if write && !e.writable then .denied (if e.big then 2 else 3) else .at (.tier (e.addr a))
  | .host =>
    match tlbFind tlb ctx a with
    | none => .miss
    | some e => if write && !e.writable then .denied (if e.big then 2 else 3) else .at (.host (e.addr a))
  | _ => .bad

/-! ### Alias writes (R184, R185) -/

/-- The plain word after the operation. -/
def aliasBytes (set : Bool) (old new : List Byte) : List Byte :=
  List.zipWith (fun a b => if set then a ||| b else a &&& ~~~b) old new

/-- A write to the alias views within one 64-byte word; an uncorrectable or poisoned word is left as it
was. Bad data leave the word poisoned (R197). -/
def State.aliasWord (s : State) (ctx key : Nat) (set : Bool) (d : List Byte) (poison : Bool := false) : BitVec 8 × State :=
  let base := key / 64 * 64
  let r := s.readDie ctx base 64
  if r.st = stOk then
    let o := key % 64
    let w := listSet r.data o (aliasBytes set ((r.data.drop o).take d.length) d)
    r.s.writeDie ctx base w poison
  else (r.st, r.s)

/-- A write to the alias views of at most 64 bytes: one or two words. -/
def State.aliasWrite (s : State) (ctx key : Nat) (set : Bool) (d : List Byte) (poison : Bool := false) : BitVec 8 × State :=
  let k := 64 - key % 64
  let a := s.aliasWord ctx key set (d.take k) poison
  if d.length ≤ k then a
  else
    let b := a.2.aliasWord ctx (key + k) set (d.drop k) poison
    (if a.1 = stOk then b.1 else a.1, b.2)

/-! ### Reads and writes at a place -/

/-- Status of a read of n bytes of host memory: an error of its request fails it, a poisoned completion
is poisoned data (R98, R213). -/
def State.hostSt (s : State) (a n : Nat) : BitVec 8 :=
  let ls := (List.range ((a + n - 1) / 64 - a / 64 + 1)).map (fun i => KV.get 0 s.hif.hostLines (a / 64 + i))
  if s.hif.hostLines.isEmpty || decide (n = 0) then stOk
  else if ls.contains 1 then stIllegal else if ls.contains 2 then stPoison else stOk

/-- A write to host memory within one 64-byte line: poisoned data poison the line, the whole line
written clears that. -/
def State.putHost (s : State) (a : Nat) (d : List Byte) (poison : Bool) : State :=
  let s := s.putBytes (hostKey a) d
  if poison then { s with hif := { s.hif with hostLines := KV.put 0 s.hif.hostLines (a / 64) 2 } }
  else if d.length = 64 ∧ KV.get 0 s.hif.hostLines (a / 64) = 2 then
    { s with hif := { s.hif with hostLines := KV.put 0 s.hif.hostLines (a / 64) 0 } }
  else s

/-- A read within one page. -/
def State.readAt (s : State) (ctx : Nat) (p : Place) (n : Nat) : Rd :=
  match p with
  | .die k => s.readDie ctx k n
  | .aliasView k _ => s.readDie ctx k n
  | .tier pa => s.readTier ctx pa n
  | .host a => ⟨s.bytes (hostKey a) n, s.hostSt a n, s.noteHost ctx⟩
  | .queue _ => ⟨[], stIllegal, s⟩

/-- A write within one page and one 64-byte word. -/
def State.writeAt (s : State) (ctx : Nat) (p : Place) (d : List Byte) (poison : Bool) : BitVec 8 × State :=
  match p with
  | .die k => s.writeDie ctx k d poison
  | .aliasView k set => s.aliasWrite ctx k set d poison
  | .tier pa => s.writeTier ctx pa d poison
  | .host a => (stOk, (s.noteHost ctx).putHost a d poison)
  | .queue _ => (stIllegal, s)

/-! ### Requests through the mesh (R29, R205, R420) -/

/-- Router through which a place is reached (Table 08-3). -/
def State.attachment (s : State) : Place → Option Nat
  | .die k => match slabCore k with
    | some c => some c
    | none =>
      let o := past k clusterBase
      some (portRouter (o / 0x4000000) (s.vportFor (o / 0x4000000) (o % 0x4000000)))
  | .aliasView k _ => slabCore k
  | .tier pa => (s.tierMap pa).map (fun x => damsonRouter (x.1 / 2) (pa / 64 % 3))
  | .host a => some (pcieRouter (a / 64 % 3))
  | .queue _ => none

/-- A request from router r does not come to a place. -/
def State.lostTo (s : State) (r : Nat) (p : Place) : Bool :=
  match s.attachment p with
  | some t => s.cut r t
  | none => false

/-- The answer from a place does not come to router r. -/
def State.lostFrom (s : State) (r : Nat) (p : Place) : Bool :=
  match s.attachment p with
  | some t => s.cut t r
  | none => false

/-- A read for a requester at router r. -/
def State.readVia (s : State) (r ctx : Nat) (p : Place) (n : Nat) : Rd :=
  if s.lostTo r p then ⟨List.replicate n 0, stPathLost, s⟩
  else
    let x := s.readAt ctx p n
    if s.lostFrom r p then ⟨List.replicate n 0, stPathLost, x.s⟩ else x

/-- A write for a requester at router r. -/
def State.writeVia (s : State) (r ctx : Nat) (p : Place) (d : List Byte) (poison : Bool) : BitVec 8 × State :=
  if s.lostTo r p then (stPathLost, s)
  else
    let x := s.writeAt ctx p d poison
    if s.lostFrom r p then (stPathLost, x.2) else x

/-- A read by an engine of core c; the words of its own slabs that it reads are no longer unread
(R235). -/
def State.getPlace (s : State) (c ctx : Nat) (p : Place) (n : Nat) : Rd :=
  let x := s.readVia c ctx p n
  let own (k : Nat) : Rd := if slabCore k = some c then { x with s := x.s.consumeUnread c (past k slabBase % 0x800000) n } else x
  match p with
  | .die k => own k
  | .aliasView k _ => own k
  | _ => x

/-- A write by a copy for a requester at router r: words of a slab become unread (R235). -/
def State.putPlace (s : State) (r ctx : Nat) (p : Place) (d : List Byte) (poison : Bool) : BitVec 8 × State :=
  let slab : Option (Nat × Nat) := match p with
    | .die k => (slabCore k).map (fun x => (x, past k slabBase % 0x800000))
    | .aliasView k _ => (slabCore k).map (fun x => (x, past k slabBase % 0x800000))
    | _ => none
  match slab with
  | none => s.writeVia r ctx p d poison
  | some (x, a) =>
    if s.lostTo r p then (stPathLost, s)
    else
      let y := (s.rewritten x a d.length).writeAt ctx p d poison
      let z := if y.1 = stOk then y.2.copied x a d.length else y.2
      (if s.lostFrom r p then stPathLost else y.1, z)

/-- Bit of the part bitmap for a place (Table 08-6). -/
def State.partBit (s : State) : Place → Nat
  | .tier pa => match s.tierMap pa with
    | some (ch, _) => ch
    | none => 0
  | .host _ => 21
  | _ => 20

/-- Place for an agent without a TLB of its own in the model: a walk at once (log 22). -/
def State.placeNow (s : State) (ctx a : Nat) (write : Bool) : Option Place × State :=
  match regionOf a with
  | .cluster => (some (.die a), s)
  | .slab key view => (some (if view = 0 then .die key else .aliasView key (view = 1)), s)
  | .tier =>
    match s.walkNow ctx a write with
    | (.leaf e _, s) => (some (.tier (e.addr a)), s)
    | (_, s) => (none, s)
  | .host =>
    match s.walkNow ctx a write with
    | (.leaf e _, s) => (some (.host (e.addr a)), s)
    | (_, s) => (none, s)
  | _ => (none, s)

/-- Syndrome bytes S0 to S3 of a half, from its stored difference. -/
def synWord (x : BitVec 32) : Nat :=
  pack [(8, (syndrome x 0).toNat), (8, (syndrome x 1).toNat), (8, (syndrome x 2).toNat), (8, (syndrome x 3).toNat)]

/-- FAULT detail of an uncorrectable or poisoned half at a device address (Table 15-4). -/
def State.eccAt (s : State) (ctx va : Nat) : Nat :=
  let a := va / 32 * 32
  let x : BitVec 32 := match (s.placeNow ctx a false).1 with
    | some (.die k) => KV.get 0 s.chk (k / 32)
    | some (.aliasView k _) => KV.get 0 s.chk (k / 32)
    | some (.tier pa) => match s.tierMap pa with
      | some (ch, off) => KV.get 0 s.chk (tierKey ch off / 32)
      | none => 0
    | _ => 0
  pack [(64, a), (32, synWord x)]

/-- Pieces of n bytes at a within 64-byte words: address and length, with fuel. -/
def pieces (a n : Nat) : Nat → List (Nat × Nat)
  | 0 => []
  | f + 1 =>
    if n = 0 then []
    else
      let k := min n (64 - a % 64)
      (a, k) :: pieces (a + k) (n - k) f

def piecesOf (a n : Nat) : List (Nat × Nat) := pieces a n (n / 64 + 2)

/-- Pieces of n bytes at a within 32-byte halves. -/
def halvesOf (a n : Nat) : List (Nat × Nat) :=
  ((piecesOf a n).map (fun p =>
    let k := min p.2 (32 - p.1 % 32)
    if k < p.2 then [(p.1, k), (p.1 + k, p.2 - k)] else [p])).flatten

/-- Bits of the 32-byte pieces of a packet's data that n bytes at offset o of it touch. -/
def halfMask (o n : Nat) : Nat :=
  if n = 0 then 0 else (List.range ((o + n - 1) / 32 - o / 32 + 1)).foldl (fun m i => m ||| 2 ^ (o / 32 + i)) 0

/-- A write of bytes at a device address from router r₀, as of a save image; false
where a part of it failed. -/
def State.writeDev (s : State) (r₀ ctx a : Nat) (d : List Byte) : Bool × State :=
  (piecesOf a d.length).foldl (fun r p =>
    match r.2.placeNow ctx p.1 true with
    | (some pl, s) =>
      let x := s.writeVia r₀ ctx pl ((d.drop (p.1 - a)).take p.2) false
      (r.1 && decide (x.1 = stOk), x.2)
    | (none, s) => (false, s)) (true, s)

/-- A read of n bytes at a device address from router r₀. -/
def State.readDev (s : State) (r₀ ctx a n : Nat) : Rd :=
  (piecesOf a n).foldl (fun r p =>
    match r.s.placeNow ctx p.1 false with
    | (some pl, s) =>
      let x := s.readVia r₀ ctx pl p.2
      ⟨r.data ++ x.data, if r.st = stOk then x.st else r.st, x.s⟩
    | (none, s) => ⟨r.data ++ List.replicate p.2 0, if r.st = stOk then stIllegal else r.st, s⟩) ⟨[], stOk, s⟩

end Sys2Proof.Machine
end

