-- ==== Sys2Proof/Machine/SyncEngine.lean ====
section
/-! DEFINITION. The home sync engines: the object table, waits, barriers, and the messages of
remote operations (R288 to R300, R302 to R307, R311). -/

namespace Sys2Proof.Machine

/-! ### Handles (Table 11-2) -/

def handleIx (h : Nat) : Nat := h % 65536
def handleInc (h : Nat) : Nat := h / 2 ^ 16 % 256
def handleMod (h : Nat) : Nat := h / 2 ^ 24 % 16384
/-- The reserved bits are zero (R290). -/
def handleOk (h : Nat) : Bool := h / 2 ^ 38 = 0
def mkHandle (m inc ix : Nat) : Nat := m * 2 ^ 24 + inc * 2 ^ 16 + ix

def syncHandle (w : Cmd) : Nat := fld w 95 32

/-- Home half of an index (R288). -/
def homeHalf (ix : Nat) : Nat := ix / 32768

def tyCounter : BitVec 2 := 0
def tyBarrier : BitVec 2 := 1
def tySem : BitVec 2 := 2
def tyWork : BitVec 2 := 3

/-! ### The table -/

def State.ent (s : State) (i : Nat) : SyncEnt := KV.get s.sync.base s.sync.ents i

def State.setEnt (s : State) (i : Nat) (e : SyncEnt) : State :=
  { s with sync := { s.sync with ents := KV.put s.sync.base s.sync.ents i e } }

/-- A discarded operation (R311). -/
def State.discard (s : State) (h : Nat) : State := s.bump32 (oDiscard h) 1

def halfId (h : Nat) : HalfId := if h = 0 then 0 else 1

/-- A discarded remote message: counted, and reported where LATE_EVT asks (R311). -/
def State.discardMsg (s : State) (h handle src : Nat) : State :=
  let s := s.discard h
  if bit (s.rg oSynCfg) 0 && !s.sync.lateSent.contains (halfId h) then
    ({ s with sync := { s.sync with lateSent := halfId h :: s.sync.lateSent } }).postFabric 7 h stHandle
      (pack [(64, handle), (16, src)])
  else s

/-- The operation is stale (R291). -/
def SyncEnt.stale (e : SyncEnt) (handle ctx : Nat) : Bool :=
  !(decide (e.st = .inUse) && e.inc.toNat = handleInc handle && e.owner.toNat = ctx)

/-! ### Comparing (R294, R295, R304) -/

inductive WaitEval where
  | met | waits | range | illegal
  deriving DecidableEq, Repr

/-- Condition of a WAIT on an object. -/
def waitEval (e : SyncEnt) (target cond : Nat) (take : Bool) : WaitEval :=
  let isMet (b : Bool) : WaitEval := if b then .met else .waits
  if take && !(e.ty = tySem && cond = 0) then .illegal
  else if e.ty = tyBarrier then
    if cond ≠ 0 ∨ 65536 ≤ target then .illegal
    else
      let d := (target + 65536 - e.gen.toNat) % 65536
      if d = 0 ∨ 32768 ≤ d then .met else if d ≤ 2 then .waits else .range
  else if e.ty = tyCounter then
    let d := (target + 2 ^ 48 - e.value.toNat) % 2 ^ 48
    match cond with
    | 0 => if d = 0 then .met else if d ≤ 2 ^ 47 then .waits else if 2 ^ 48 - 2 ^ 46 ≤ d then .met else .range
    | 1 => isMet (d = 0)
    | _ => isMet (d ≠ 0)
  else
    let v := e.value.toNat
    match cond with
    | 0 => isMet (decide (target ≤ v))
    | 1 => isMet (v = target)
    | _ => isMet (v ≠ target)

/-- The object's value: VALUE, CTR or GEN. -/
def SyncEnt.val (e : SyncEnt) : BitVec 64 := if e.ty = tyBarrier then e.gen.setWidth 64 else e.value.setWidth 64

/-! ### Responses -/

def State.port (s : State) (h n : Nat) : SyncPort := KV.get {} s.sync.ports (16 * h + n)

def State.setPort (s : State) (h n : Nat) (x : SyncPort) : State :=
  { s with sync := { s.sync with ports := KV.put {} s.sync.ports (16 * h + n) x } }

/-- SYNCRSP: RESULT word at byte 24, VALUE word at byte 32 (Table 12-8). ADDR says whether the value that a
CLAIM returns is LIMIT (log 24). -/
def State.sendRsp (s : State) (src : BitVec 14) (tag : BitVec 16) (inc : BitVec 8) (f : BitVec 3) (r : SyncReply) : State :=
  s.inject { s.mkReq pkSyncRsp f.toNat src.toNat 0 tag.toNat inc with
    vc := 2, status := r.status, addr := BitVec.ofNat 64 (b2n r.spent), body := BitVec.ofNat 320 (pack [(64, r.status.toNat), (64, r.value.toNat)]) }

/-- A response sets out for its requester. -/
def State.reply (s : State) (who : Asker) (r : SyncReply) : State :=
  match who with
  | .unit (.slot c sl) => s.modSlot c.val sl.val (fun x =>
      match x.hold with
      | .sync w none => { x with hold := .sync w (some r) }
      | _ => x)
  | .unit (.port h n) =>
    let p := s.port h.val n.val
    if p.busy then s.setPort h.val n.val { p with reply := some r } else s
  | .remote src tag inc f => s.sendRsp src tag inc f r

/-! ### Subscriptions at home (R307) -/

/-- State fields of an object in the order of Table 11-1, in whole bytes. -/
def SyncEnt.fields (e : SyncEnt) : Nat :=
  if e.ty = tyBarrier then
    pack [(24, e.n.toNat), (16, e.gen.toNat), (24, e.arrived), (24, e.held), (64, e.curMap.toNat), (64, e.nextMap.toNat)]
  else if e.ty = tyWork then pack [(48, e.value.toNat), (16, e.epoch.toNat), (48, e.limit.toNat)]
  else e.value.toNat

/-- An object as an update carries it. -/
def entOfFields (ty : BitVec 2) (map : Bool) (w : BitVec 240) : SyncEnt :=
  if ty = tyBarrier then
    { st := .inUse, ty := ty, map := map, n := BitVec.ofNat 21 (fld w 23 0), gen := BitVec.ofNat 16 (fld w 39 24)
      arrived := fld w 63 40, held := fld w 87 64, curMap := BitVec.ofNat 64 (fld w 151 88)
      nextMap := BitVec.ofNat 64 (fld w 215 152) }
  else if ty = tyWork then
    { st := .inUse, ty := ty, value := BitVec.ofNat 48 (fld w 47 0), epoch := BitVec.ofNat 16 (fld w 63 48)
      limit := BitVec.ofNat 48 (fld w 111 64) }
  else { st := .inUse, ty := ty, value := BitVec.ofNat 48 (fld w 47 0) }

/-- A SYNCUPD for a subscriber. ADDR names its half; STATUS is STALE_HANDLE where the object has been
freed (log 24). -/
def State.updPacket (s : State) (m : HomeSub) (e : SyncEnt) (st : BitVec 8) : Packet :=
  let ix := m.index.toNat
  { s.mkReq pkSyncUpd (ix % 8) m.module.toNat e.owner 0 0 with
    status := st, addr := BitVec.ofNat 64 m.half.val
    body := BitVec.ofNat 320 (pack [(64, mkHandle s.selfId e.inc.toNat ix), (16, m.seq.toNat), (240, e.fields)]) }

/-- Sends an update of an object to every subscriber. -/
def State.sendUpdates (s : State) (ix : Nat) (e : SyncEnt) (st : BitVec 8) : State :=
  let f (m : HomeSub) : HomeSub := if m.index.toNat = ix then { m with seq := m.seq + 1 } else m
  let subs := s.sync.homeSubs.map f
  (subs.filter (fun (m : HomeSub) => m.index.toNat = ix)).foldl (fun s m => s.inject (s.updPacket m e st))
    { s with sync := { s.sync with homeSubs := subs } }

def State.notifySubs (s : State) (ix : Nat) : State := s.sendUpdates ix (s.ent ix) stOk

/-! ### Pending waits (R299) -/

/-- Wait records on the object at an index of this module. -/
def WaitRec.on (r : WaitRec) (ix : Nat) : Bool := !r.remote && handleIx r.handle.toNat = ix

/-- The first record that a change settles: takers are served in order, so only the first
pending TAKE can be met. -/
def settles (e : SyncEnt) (ix : Nat) : List WaitRec → Bool → Option (WaitRec × WaitEval)
  | [], _ => none
  | r :: l, taker =>
    if !r.on ix then settles e ix l taker
    else if r.take && taker then settles e ix l taker
    else
      match waitEval e r.target.toNat r.cond.toNat r.take with
      | .waits => settles e ix l (taker || r.take)
      | v => some (r, v)

/-- Answer of a settled record. -/
def settledReply (e : SyncEnt) (ven : Bool) (v : WaitEval) : SyncReply :=
  match v with
  | .met => { status := stOk, value := if ven then e.val else 0 }
  | .range => { status := stWaitRange }
  | _ => { status := stIllegal }

/-- Re-evaluates the waits of an object until none settles. -/
def State.settleWaits (s : State) (ix : Nat) : Nat → State
  | 0 => s
  | f + 1 =>
    let e := s.ent ix
    match settles e ix s.sync.waits false with
    | none => s
    | some (r, v) =>
      let s := { s with sync := { s.sync with waits := s.sync.waits.erase r } }
      let s := s.reply r.who (settledReply e r.ven v)
      let s := if r.take && v = .met then s.setEnt ix { e with value := e.value - r.target } else s
      s.settleWaits ix f

/-- An object has changed. -/
def State.changed (s : State) (ix : Nat) : State := (s.settleWaits ix (s.sync.waits.length + 1)).notifySubs ix

/-! ### Operations (R296 to R304) -/

/-- Rounds that complete at once (R303). -/
def SyncEnt.rounds (e : SyncEnt) : Nat → SyncEnt
  | 0 => e
  | f + 1 =>
    if e.arrived = e.n.toNat then
      ({ e with gen := e.gen + 1, arrived := e.held, held := 0, curMap := e.nextMap, nextMap := 0 } : SyncEnt).rounds f
    else e

/-- ARRIVE on an object (R302): its status and the object afterwards, where it changed. -/
def arriveAt (e : SyncEnt) (gen part : Nat) : BitVec 8 × Option SyncEnt :=
  let d := (gen + 65536 - e.gen.toNat) % 65536
  if e.ty ≠ tyBarrier then (stIllegal, none)
  else if e.map && decide (e.n.toNat ≤ part) then (stIllegal, none)
  else if !e.map && decide (part ≠ 0) then (stIllegal, none)
  else if d = 0 then
    if e.map && bit e.curMap part then (stStale, none)
    else (stOk, some (({ e with arrived := e.arrived + 1, curMap := if e.map then setBit e.curMap part true else e.curMap } : SyncEnt).rounds 2))
  else if d = 1 then
    if e.map && bit e.nextMap part then (stAhead, none)
    else (stOk, some { e with held := e.held + 1, nextMap := if e.map then setBit e.nextMap part true else e.nextMap })
  else (if d < 32768 then stAhead else stStale, none)

/-- SIGNAL on an object (R295, R298): status, object, and whether an excess was discarded. -/
def signalAt (e : SyncEnt) (v : BitVec 48) (set : Bool) : BitVec 8 × Option SyncEnt × Bool :=
  if e.ty = tyBarrier then (stIllegal, none, false)
  else if e.ty = tyWork then
    if !set then (stIllegal, none, false)
    else if e.limit.toNat < v.toNat then (stIllegal, none, false)
    else (stOk, some { e with value := v, epoch := e.epoch + 1 }, false)
  else if set then (stOk, some { e with value := v }, false)
  else if e.ty = tyCounter then (stOk, some { e with value := e.value + v }, false)
  else if 2 ^ 48 ≤ e.value.toNat + v.toNat then (stOk, some { e with value := BitVec.allOnes 48 }, true)
  else (stOk, some { e with value := e.value + v }, false)

/-- Conditions of R296 on the fields of a SINIT. -/
def sinitOk (w : Cmd) : Bool :=
  let ty := fld w 69 67
  let param := fld w 171 124
  match ty with
  | 0 => param = 0 && !bit w 70
  | 1 => decide (1 ≤ param) && decide (param ≤ if bit w 70 then 64 else 1048576)
  | 2 => param = 0 && !bit w 70
  | 3 => decide (fld w 118 71 ≤ param) && !bit w 70
  | _ => false

/-- The object that a SINIT makes (Table 11-1). -/
def sinitEnt (w : Cmd) (inc : BitVec 8) (ctx : Nat) : SyncEnt :=
  let init := fld w 118 71
  let param := fld w 171 124
  let b : SyncEnt := { st := .inUse, inc := inc, owner := BitVec.ofNat 16 ctx, ty := BitVec.ofNat 2 (fld w 69 67) }
  match fld w 69 67 with
  | 1 => { b with gen := BitVec.ofNat 16 init, n := BitVec.ofNat 21 param, map := bit w 70 }
  | 3 => { b with value := BitVec.ofNat 48 init, limit := BitVec.ofNat 48 param }
  | _ => { b with value := BitVec.ofNat 48 init }

def isPosted (w : Cmd) : Bool := (cOpc w = 0x10 && bit w 128) || (cOpc w = 0x12 && bit w 155)

/-- SINIT at its home (R296). -/
def State.sinitAt (s : State) (ctx : Nat) (w : Cmd) : SyncReply × State :=
  let ix := fld w 47 32
  let e := s.ent ix
  if !sinitOk w then ({ status := stIllegal }, s)
  else
    match e.st with
    | .free => ({ status := stOk, value := BitVec.ofNat 64 (mkHandle s.selfId e.inc.toNat ix) }, s.setEnt ix (sinitEnt w e.inc ctx))
    | .quarantined => ({ status := stQuarantine }, s)
    | .inUse => ({ status := stIllegal }, s)

/-- SFREE: the entry is quarantined, its incarnation rises, and its pending waits complete with
STALE_HANDLE, those in other modules by an update that says so (R297, log 54). -/
def State.sfreeAt (s : State) (ix : Nat) : State :=
  let e := s.ent ix
  let gone := s.sync.waits.filter (fun (r : WaitRec) => r.on ix)
  let s := s.sendUpdates ix e stHandle
  let s := s.setEnt ix { e with st := .quarantined, inc := e.inc + 1 }
  let s := { s with sync := { s.sync with
      waits := s.sync.waits.filter (fun (r : WaitRec) => !r.on ix)
      homeSubs := s.sync.homeSubs.filter (fun (m : HomeSub) => m.index.toNat ≠ ix) } }
  gone.foldl (fun s r => s.reply r.who { status := stHandle }) s

/-- Default timeout of a WAIT (R308): whether it has one. -/
def State.waitTimed (s : State) (ctx tmo : Nat) : Bool × State :=
  if tmo ≠ 0 then (tmo ≠ 0xFFFFFFFF, s)
  else
    let x := s.ctxEntry ctx
    let t := ceWait x.1
    (if t ≠ 0 then t ≠ 0xFFFFFFFF else decide (64 < ceModules x.1), x.2)

/-- An operation at the home engine of its object: the response, or none where a WAIT takes a
record. -/
def State.syncAt (s : State) (who : Asker) (ctx : Nat) (w : Cmd) : Option SyncReply × State :=
  let h := syncHandle w
  let ix := handleIx h
  let e := s.ent ix
  let o := cOpc w
  if o = 0x15 then let r := s.sinitAt ctx w; (some r.1, r.2)
  else if e.stale h ctx then
    (some { status := stHandle },
      if isPosted w then
        match who with
        | .remote src _ _ _ => s.discardMsg (homeHalf ix) h src.toNat
        | .unit _ => s.discard (homeHalf ix)
      else s)
  else
    match o with
    | 0x10 =>
      let r := arriveAt e (fld w 116 101) (fld w 127 122)
      (some { status := r.1 }, match r.2 with
        | some e' => (s.setEnt ix e').changed ix
        | none => s)
    | 0x11 =>
      let take := bit w 156
      let target := fld w 148 101
      let v := waitEval e target (fld w 155 154) take
      let behind := take && s.sync.waits.any (fun (r : WaitRec) => r.on ix && r.take)
      if v = .waits || (v = .met && behind) then
        let t := s.waitTimed ctx (fld w 188 157)
        (none, { t.2 with sync := { t.2.sync with waits := t.2.sync.waits ++
          [{ who := who, ctx := BitVec.ofNat 16 ctx, handle := BitVec.ofNat 64 h, target := BitVec.ofNat 48 target
             cond := BitVec.ofNat 2 (fld w 155 154), take := take, ven := bit w 189, timed := t.1, remote := false }] } })
      else
        let r := settledReply e (bit w 189) v
        (some r, if take && v = .met then (s.setEnt ix { e with value := e.value - BitVec.ofNat 48 target }).changed ix else s)
    | 0x12 =>
      let r := signalAt e (BitVec.ofNat 48 (fld w 148 101)) (bit w 154)
      let s := if r.2.2 then s.discard (homeHalf ix) else s
      (some { status := r.1 }, match r.2.1 with
        | some e' => (s.setEnt ix e').changed ix
        | none => s)
    | 0x13 =>
      if e.ty ≠ tyWork then (some { status := stIllegal }, s)
      else
        let r : SyncReply := { status := stOk, value := BitVec.ofNat 64 (pack [(48, e.value.toNat), (16, e.epoch.toNat)])
                               spent := decide (e.limit.toNat ≤ e.value.toNat) }
        (some r, if r.spent then s else (s.setEnt ix { e with value := e.value + 1 }).changed ix)
    | 0x16 => (some { status := stOk }, s.sfreeAt ix)
    | _ => (some { status := stIllegal }, s)

/-- A completion-counter addition at its home (R223, R291). -/
def State.counterAdd (s : State) (a : CounterAdd) : State :=
  let ix := a.index.toNat
  let e := s.ent ix
  if !(decide (e.st = .inUse) && e.inc = a.inc && e.owner = a.ctx && e.ty = tyCounter) then
    match a.src with
    | some m => s.discardMsg (homeHalf ix) (mkHandle s.selfId a.inc.toNat ix) m.toNat
    | none => s.discard (homeHalf ix)
  else (s.setEnt ix { e with value := e.value + 1 }).changed ix

/-! ### Remote operations (R306) -/

/-- Half of a core position or of a host-class core (R24). -/
def waiterHalf : Waiter → Nat
  | .slot c _ => halfOf c.val
  | .port h _ => h.val / 8

/-- The lowest free tag of the module's 4,096 (log 19). -/
def State.freeSyncTag (s : State) : Option Nat :=
  (List.range 4096).find? (fun t => !s.sync.reqs.any (fun e => e.1 = t) && !KV.get false s.sync.tagQuar t)

/-- Ends an outstanding remote operation. -/
def State.freeSyncReq (s : State) (tag : Nat) (quarantine : Bool) : State :=
  { s with sync := { s.sync with
      reqs := s.sync.reqs.filter (fun e => e.1 ≠ tag)
      tagInc := KV.upd 0 s.sync.tagInc tag (· + 1)
      tagQuar := KV.put false s.sync.tagQuar tag quarantine } }

/-- Home module of an operation. -/
def syncModule (w : Cmd) : Nat := if cOpc w = 0x15 then fld w 66 53 else handleMod (syncHandle w)

def syncIndex (w : Cmd) : Nat := if cOpc w = 0x15 then fld w 47 32 else handleIx (syncHandle w)

/-- A remote operation is sent, or completes with the fabric's status where its packet is
dropped here; none where every tag is in use. -/
def State.syncRemote (s : State) (x : Waiter) (ctx : Nat) (w : Cmd) : Option State :=
  match s.routeOut none (syncModule w) with
  | .drop st => some (if isPosted w then s else s.reply (.unit x) { status := st })
  | _ =>
    match s.freeSyncTag with
    | none => none
    | some t =>
      let s := { s with sync := { s.sync with
        reqs := KV.ins s.sync.reqs t { who := x, ctx := BitVec.ofNat 16 ctx, w := w, posted := isPosted w }
        tagHandle := KV.put 0 s.sync.tagHandle t (if cOpc w = 0x15 then 0 else BitVec.ofNat 64 (syncHandle w)) } }
      some (s.inject { s.mkReq pkSync (syncIndex w % 8) (syncModule w) (BitVec.ofNat 16 ctx) t (KV.get 0 s.sync.tagInc t) with
        status := BitVec.ofNat 8 (cOpc w), addr := BitVec.ofNat 64 (waiterHalf x), body := BitVec.ofNat 320 (fld w 255 32) })

/-- The unit issues an operation: at its home here, or as a message. -/
def State.syncIssue (s : State) (x : Waiter) (ctx : Nat) (w : Cmd) : Option State :=
  if syncModule w = s.selfId then
    let r := s.syncAt (.unit x) ctx w
    some (match r.1, isPosted w with
      | some a, false => r.2.reply (.unit x) a
      | _, _ => r.2)
  else s.syncRemote x ctx w

/-! ### Waits that end (R299, R307, R312) -/

/-- A record of a half waits on the remote object of a subscription. -/
def MySub.needed (m : MySub) (waits : List WaitRec) : Bool :=
  waits.any (fun (r : WaitRec) => r.remote && !r.take && r.handle = m.handle && (match r.who with
    | .unit x => waiterHalf x = m.half.val
    | .remote _ _ _ _ => false))

/-- The message that ends a subscription of a half, or (with `take`) a WAIT with TAKE that its home
holds under a tag. It is a SYNCUPD to the home; ADDR names the half and which of the two it is (log 24). -/
def State.endPacket (s : State) (handle : BitVec 64) (half : Nat) (take : Bool) (tag : Nat) (inc : BitVec 8) : Packet :=
  { s.mkReq pkSyncUpd (handleIx handle.toNat % 8) (handleMod handle.toNat) 0 tag inc with
    addr := BitVec.ofNat 64 (half + 2 * b2n take), body := BitVec.ofNat 320 handle.toNat }

/-- Ends the subscriptions on which no record of their half waits, and tells their homes (R307). -/
def State.prune (s : State) : State :=
  let y := s.sync
  let gone := y.mySubs.filter (fun m => !m.needed y.waits)
  (gone.filter (fun m => !m.refused)).foldl (fun s m => s.inject (s.endPacket m.handle m.half.val false 0 0))
    { s with sync := { y with mySubs := y.mySubs.filter (fun m => m.needed y.waits) } }

/-- Removes the wait records of a unit, and gives up the responses it awaits, whose tags go
into quarantine; a home is told of the TAKE it holds for it (R125, R306, R312). -/
def State.dropWaits (s : State) (x : Waiter) : State :=
  let y := s.sync
  let gone : KV SyncReq := y.reqs.filter (fun (e : Nat × SyncReq) => e.2.who = x && !e.2.posted)
  let left : State := { s with sync := { y with
      waits := y.waits.filter (fun (r : WaitRec) => r.who ≠ .unit x)
      reqs := y.reqs.filter (fun (e : Nat × SyncReq) => !(e.2.who = x && !e.2.posted))
      tagInc := gone.foldl (fun m e => KV.upd 0 m e.1 (· + 1)) y.tagInc
      tagQuar := gone.foldl (fun m e => KV.put false m e.1 true) y.tagQuar } }
  (gone.filter (fun e => e.2.standing)).foldl (fun (s : State) (e : Nat × SyncReq) => s.inject (s.endPacket (BitVec.ofNat 64 (syncHandle e.2.w)) (waiterHalf x) true e.1 (KV.get 0 y.tagInc e.1))) left |>.prune

/-- The waits of an object that an earlier TAKE held back, once that TAKE is gone (R299). -/
def State.resettle (s : State) (ix : Nat) : State :=
  if (settles (s.ent ix) ix s.sync.waits false).isSome then s.changed ix else s

/-- A unit gives up its waits; what stood behind a TAKE of it is served. -/
def State.leaveWaits (s : State) (x : Waiter) : State :=
  let takes := s.sync.waits.filter (fun (r : WaitRec) => r.who = .unit x && r.take && !r.remote)
  takes.foldl (fun s r => s.resettle (handleIx r.handle.toNat)) (s.dropWaits x)

end Sys2Proof.Machine
end

