-- ==== Sys2Proof/Machine/Slots.lean ====
section
/-! DEFINITION. Slots: tokens, statuses, completion records, save images, credit settlement,
stopping and freeing a slot (R101 to R104, R114 to R116, R125 to R130, R139, R247, R360,
R392, R393, R407). -/

namespace Sys2Proof.Machine

/-! ### Small operations on slots -/

def Slot.inc32 (v : BitVec 32) : BitVec 32 := satAdd v 1

def Flags.byte (f : Flags) : Nat := pack [(1, b2n f.ovf), (1, b2n f.inv), (1, b2n f.loss)]

def Flags.or (a b : Flags) : Flags := ⟨a.ovf || b.ovf, a.inv || b.inv, a.loss || b.loss⟩

def Cf.flags (c : Cf) : Flags := ⟨c.ovf, c.inv, c.loss⟩

/-- Number of commands of a slot in queues or in execution. -/
def Core.live (k : Core) (sl : Nat) : Nat :=
  ([0, 1, 2, 3].map (fun e => ((k.queue e ++ k.run e).filter (fun q => q.slot.val = sl)).length)).foldl (· + ·) 0
    + (match k.program with
       | some p => if p.ent.slot.val = sl then 1 else 0
       | none => 0)

def activeSlots (k : Core) : List Nat := [0, 1, 2, 3].filter (fun i => (k.slot i).active)

/-! ### Tile registers: tags and release (R136, R139, R90) -/

/-- Index of a register's tag in the order X0-X7, A0-A3, V0-V15. -/
def tagX (n : Nat) : Nat := n
def tagA (n : Nat) : Nat := 8 + n
def tagV (n : Nat) : Nat := 12 + n

def Core.tag (k : Core) (n : Nat) : BitVec 128 := KV.get 0 k.tags n

def Core.setTag (k : Core) (n : Nat) (t : BitVec 128) : Core := { k with tags := KV.put 0 k.tags n t }

/-- A stored word that no read can correct (R196). -/
def badWord (x : BitVec 32) : Bool :=
  match dcheck x with
  | .bad => true
  | .poisoned => true
  | _ => false

/-- The contents of the register with tag t, one erroneous byte of a word corrected (Table 07-8). -/
def fixReg {w : Nat} (chk : KV (BitVec 32)) (t : Nat) (d : BitVec w) : BitVec w :=
  chk.foldl (fun d e =>
    if e.1 / 512 = t then
      match dcheck e.2 with
      | .fixed p x => if p < 4 then d else d ^^^ BitVec.ofNat w (x.toNat * 2 ^ (256 * (e.1 % 512) + 8 * (p - 4)))
      | _ => d
    else d) d

/-- A word of those read of the register with tag t fails its check. -/
def Core.regBad (k : Core) (t : Nat) (reads : Nat → Bool) : Bool :=
  k.regChk.any (fun e => decide (e.1 / 512 = t) && reads (e.1 % 512) && badWord e.2)

/-- A write of the register with tag t gives its words right check bytes; a word that it leaves as it was
stays bad. -/
def Core.renew (k : Core) (t : Nat) (keep : Nat → Bool := fun _ => false) : Core :=
  { k with regChk := k.regChk.filter (fun e => decide (e.1 / 512 ≠ t) || (keep (e.1 % 512) && badWord e.2)) }

/-- Writing or releasing X register n invalidates the reuse latches that hold it (R90). -/
def Core.dropLatch (k : Core) (n : Nat) : Core :=
  let f (l : Option Latch) : Option Latch := match l with
    | some x => if x.reg.toNat = n then none else some x
    | none => none
  { k with latchA := f k.latchA, latchB := f k.latchB }

def Core.release (k : Core) (n : Nat) : Core :=
  let k := k.setTag n 0
  if n < 8 then k.dropLatch n else k

/-- The bytes of a register are lost with it, so that none passes to another list (R139, log 118). -/
def Core.wipe (k : Core) (n : Nat) : Core :=
  let k := { k with regChk := k.regChk.filter (fun e => e.1 / 512 ≠ n) }
  if n < 8 then { k with xregs := KV.del k.xregs n }
  else if n < 12 then { k with accs := KV.del k.accs (n - 8) }
  else { k with vregs := KV.del k.vregs (n - 12) }

/-- Releases the registers of a 28-bit mask: X0-X7, A0-A3, V0-V15. -/
def Core.releaseMask (k : Core) (mask : Nat) : Core :=
  (List.range 28).foldl (fun k n => if mask / 2 ^ n % 2 = 1 then (k.release n).wipe n else k) k

/-! ### Tokens (R101, R102) -/

/-- Adds to a token; none where it would pass 65,535. -/
def Slot.post (x : Slot) (n count : Nat) : Option Slot :=
  if (x.tok n).toNat + count ≤ 65535 then some (x.setTok n (x.tok n + BitVec.ofNat 16 count)) else none

/-! ### Claims (R247) -/

/-- Removes the closed entries with no live command. -/
def Core.retire (k : Core) : Core :=
  { k with claims := k.claims.filter (fun c => !(c.closed && c.live = 0)) }

/-- A command dispatched: it belongs to every open claim of its slot. -/
def Core.openClaims (k : Core) (sl : Nat) : List Nat :=
  (k.claims.filter (fun (c : Claim) => c.slot.val = sl && !c.closed)).map (·.id)

def Core.bumpClaims (k : Core) (ids : List Nat) : Core :=
  { k with claims := k.claims.map (fun (c : Claim) => if ids.contains c.id then { c with live := c.live + 1 } else c) }

def Core.dropClaims (k : Core) (ids : List Nat) : Core :=
  ({ k with claims := k.claims.map (fun (c : Claim) => if ids.contains c.id then { c with live := c.live - 1 } else c) }).retire

/-- Closes the slot's entries that satisfy `p`. -/
def Core.closeClaims (k : Core) (sl : Nat) (p : Claim → Bool) : Core :=
  ({ k with claims := k.claims.map (fun (c : Claim) => if c.slot.val = sl && p c then { c with closed := true } else c) }).retire

/-! ### Records (R392, R393, R407) -/

/-- FAULT payload of Table 15-4; `detail` is bytes 44 to 55. -/
def faultPayload (x : Slot) (sl detail pidx piter : Nat) : Nat :=
  pack [(64, x.listAddr.toNat), (64, hTag x.hdr), (8, sl), (8, x.sticky.byte), (16, 0), (96, detail),
    (32, pidx), (32, piter)]

def State.postFault (s : State) (c sl : Nat) (st : BitVec 8) (f : FaultAt) : State :=
  let x := s.slot c sl
  s.postCtx { typ := evFault, husk := true, status := st, kind := 1, engine := f.engine, src := c
              ctx := x.ctx.toNat, offset := f.off, payload := faultPayload x sl f.detail f.pidx f.piter }

def endEnd : Nat := 0
def endStopped : Nat := 1
def endPreempted : Nat := 2
def endRefused : Nat := 3
def endWithdrawn : Nat := 4
def endPreemptDone : Nat := 5

/-- A COMPLETION record (Table 14-14). -/
structure Comp where
  kind : Nat := 0
  status : BitVec 8 := stOk
  core : Nat := 0
  ctx : Nat := 0
  off : Nat := 0xFFFFFFFF
  tag : Nat := 0
  addr : Nat := 0
  cont : Nat := 0
  sticky : Nat := 0
  count : Nat := 0
  origin : Origin := .launch
  deriving DecidableEq, Repr

/-- Posts a COMPLETION to the descriptor's queue, or to the context's for a launched list or
where `toCtx` says so (Table 14-15). -/
def State.postComp (s : State) (x : Comp) (toCtx : Bool := false) : State :=
  let e (cookie ring idx : Nat) : Ev :=
    { typ := evCompletion, status := x.status, kind := 1, engine := 4, src := x.core, ctx := x.ctx
      offset := x.off
      payload := pack [(64, x.tag), (64, cookie), (64, x.addr), (32, x.cont), (8, x.sticky),
        (8, x.kind), (16, ring), (32, idx), (32, x.count)] }
  match x.origin with
  | .launch => s.postCtx (e 0 0xFFFF 0xFFFFFFFF)
  | .ring f r idx cookie q =>
    let v := e cookie.toNat (f.val * 256 + r.val) idx.toNat
    if toCtx then s.postCtx v else s.post q.toNat v

/-- The COMPLETION of the list in a slot. -/
def State.slotComp (s : State) (c sl : Nat) (kind : Nat) (st : BitVec 8) (off : Nat) : Comp :=
  let x := s.slot c sl
  { kind := kind, status := st, core := c, ctx := x.ctx.toNat, off := off, tag := hTag x.hdr
    addr := x.listAddr.toNat, cont := x.cont.toNat, sticky := x.sticky.byte, origin := x.origin }

/-! ### Credit (R359, R360) -/

def State.cluster (s : State) (k : Nat) : Cluster := KV.get {} s.clusters k

def State.setCluster (s : State) (k : Nat) (x : Cluster) : State :=
  { s with clusters := KV.put {} s.clusters k x }

/-- Learned factor of a class (R360). -/
def Cluster.factor (x : Cluster) (e : Nat) : Int := KV.get 0 x.factors e + 256

/-- Balance moved by d, not below −4 G (R359). -/
def Cluster.move (x : Cluster) (d : Int) : Cluster :=
  { x with balance := max (-(4 * (x.grant : Int))) (x.balance + d) }

/-- The learned factor after a list (R360 step 2). -/
def newFactor (f : Int) (actual raw : Nat) : Int :=
  let r : Int := (min (max ((actual * 512 + raw) / (2 * raw)) 1) 65535 : Nat)
  f + (r - f + 8) / 16

/-- CREDIT_SETTLEMENT of the list in a slot. Its measured energy is a free value (log 12). -/
def State.settle (s : State) (c sl : Nat) : State :=
  let x := s.slot c sl
  let actual := (s.freeVal 32).toNat
  let k := clusterOf c
  let u := (s.cluster k).move ((x.charged : Int) - actual)
  let raw := hEstimate x.hdr
  let e := hEclass x.hdr
  let u := if raw < 256 then u else
    { u with factors := KV.put 0 u.factors e (newFactor (u.factor e) actual raw - 256) }
  ((s.took).setCluster k u).count c 0x120 (actual / 256)

/-! ### Save images (R127, R237, R238) -/

def natBytes (n v : Nat) : List Byte := natLe n v

/-- Operand-queue record (Table 08-21). -/
def OpQueue.record (q : OpQueue) : Nat :=
  pack [(21, q.base.toNat), (7, q.entry.toNat), (11, q.count.toNat), (2, q.consumer.toNat), (23, 0),
    (32, q.head.toNat), (32, q.tail.toNat)]

def Progress.record (p : Progress) : Nat :=
  pack [(32, p.rows.toNat), (32, p.bytes.toNat), (32, p.bitmap.toNat), (32, b2n p.newer)]

/-- Tag fields used here (Table 05-2). -/
def tInUse (t : BitVec 128) : Bool := bit t 0
def tLoading (t : BitVec 128) : Bool := bit t 1
def tRowsValid (t : BitVec 128) : Nat := fld t 31 26
def tRows (t : BitVec 128) : Nat := fld t 25 20

/-- Bytes of a register in the image; rows a load has not completed are zero (R148). -/
def imageReg (t : BitVec 128) (size data : Nat) : List Byte :=
  let n := if tLoading t then size / max 1 (tRows t) * tRowsValid t else size
  natBytes size (data % 2 ^ (8 * n))

/-- Withdrawn commands of a slot on an engine. -/
def Core.taken (k : Core) (sl e : Nat) : List QEnt := KV.get [] k.withdrawn (4 * sl + e)

def cmdBytes (q : List QEnt) : List Byte := (q.map (fun e => natBytes 32 e.w.toNat)).flatten

/-! ### Statistics entries (R168, R199) -/

def emptyStat : BitVec 64 := 0xFFFF000000000000

/-- An entry as read: one erroneous byte of its 32-byte word is corrected. -/
def Core.stat (k : Core) (i : Nat) : BitVec 64 :=
  let v := KV.get 0 k.stats i ^^^ emptyStat
  match dcheck (KV.get 0 k.statChk (i / 4)) with
  | .fixed p x =>
    if 4 ≤ p ∧ (p - 4) / 8 = i % 4 then v ^^^ BitVec.ofNat 64 (x.toNat * 2 ^ (8 * ((p - 4) % 8))) else v
  | _ => v

/-- The word of an entry fails its check. -/
def Core.statBad (k : Core) (i : Nat) : Bool := badWord (KV.get 0 k.statChk (i / 4))

/-- A write of an entry; the rest of its word is rewritten as read. -/
def Core.setStat (k : Core) (i : Nat) (v : BitVec 64) : Core :=
  let b := i / 4 * 4
  let fixed : KV (BitVec 64) :=
    if KV.get 0 k.statChk (i / 4) = 0 then k.stats
    else [b, b + 1, b + 2, b + 3].foldl (fun m j => KV.put 0 m j (k.stat j ^^^ emptyStat)) k.stats
  { k with stats := KV.put 0 fixed i (v ^^^ emptyStat), statChk := KV.put 0 k.statChk (i / 4) 0 }

/-- The header area: offsets 0 to 0x3FF. -/
def imageHead (k : Core) (x : Slot) (sl flags : Nat) (off : Nat) (st : BitVec 8) : List Byte :=
  let lv := x.loops.reverse
  natBytes 4 1 ++ natBytes 2 x.ctx.toNat ++ natBytes 2 flags ++ natBytes 8 x.listAddr.toNat ++
  natBytes 4 x.pc.toNat ++ natBytes 4 off ++ natBytes 1 x.sticky.byte ++ natBytes 1 st.toNat ++
  natBytes 2 0 ++ ([0, 1, 2, 3].map (fun e => BitVec.ofNat 8 (k.taken sl e).length)) ++
  natBytes 4 x.cont.toNat ++ natBytes 12 0 ++
  ((List.range 4).map (fun i => let l := lv.getD i {}; natBytes 16
    (pack [(32, l.off.toNat), (32, l.body.toNat), (32, l.remaining.toNat), (32, l.index.toNat)]))).flatten ++
  ((List.range 16).map (fun i => natBytes 2 (x.tok i).toNat)).flatten ++
  ((List.range 16).map (fun i => natBytes 8 (x.sreg i).toNat)).flatten ++
  ((List.range 8).map (fun q => natBytes 16
    (if hQueueMask x.hdr / 2 ^ q % 2 = 1 then (KV.get {} k.opqs q : OpQueue).record else 0))).flatten ++
  natBytes 64 x.hdr.toNat ++ natBytes 48 0 ++
  ((List.range 16).map (fun i => natBytes 16 (KV.get 0 x.sds i).toNat)).flatten ++ natBytes 256 0

/-- The access-engine state (Table 08-22). -/
def imageAccess (k : Core) (sl : Nat) : List Byte :=
  let acc := k.taken sl 3
  let prog := match k.program with
    | some p => if p.ent.slot.val = sl then some p else none
    | none => none
  let first := (acc.getD 0 {}).prog
  let mid := match prog with
    | none => natBytes 16 0 ++ natBytes 4 0xFFFFFFFF ++ natBytes 28 0 ++ natBytes 32 0
    | some p => natBytes 16 p.ent.prog.record ++ natBytes 4 p.index.toNat ++ natBytes 4 p.iter.toNat ++
        natBytes 4 p.bitmap.toNat ++ natBytes 4 (b2n p.changed) ++ natBytes 16 0 ++ natBytes 32 p.ent.w.toNat
  natBytes 16 first.record ++ mid ++
  ((List.range 64).map (fun i => natBytes 1 (acc.getD i {}).inc.toNat)).flatten ++
  natBytes 1 (match prog with | some p => p.ent.inc.toNat | none => 0) ++ natBytes 863 0

/-- The pieces of the image that the device writes: offset and bytes (Table 04-12). -/
def imageParts (k : Core) (x : Slot) (sl flags off : Nat) (st : BitVec 8) : List (Nat × List Byte) :=
  let mask := hRegMask x.hdr
  let inMask (n : Nat) : Bool := mask / 2 ^ n % 2 = 1
  let used (n : Nat) : Bool := inMask n && tInUse (k.tag n)
  [(0, imageHead k x sl flags off st), (0x400, cmdBytes (k.taken sl 0)), (0xC00, cmdBytes (k.taken sl 1)),
   (0x1400, cmdBytes (k.taken sl 2)), (0x1C00, cmdBytes (k.taken sl 3)),
   (0x2400, ((List.range 28).map (fun n => natBytes 16 (if inMask n then (k.tag n).toNat else 0))).flatten ++ natBytes 64 0),
   (0x2C00, imageAccess k sl)] ++
  (((List.range 4).filter (fun n => used (tagA n))).map (fun n => let t : Tile := KV.get {} k.accs n
    [(0x2600 + 384 * n, natBytes 384 t.cflags.toNat), (0x7000 + 12288 * n, natBytes 12288 (fixReg k.regChk (tagA n) t.cells).toNat)])).flatten ++
  ((List.range 8).filter used).map (fun n =>
    (0x3000 + 2048 * n, imageReg (k.tag n) 2048 (fixReg k.regChk n (KV.get (0 : BitVec 16384) k.xregs n)).toNat)) ++
  ((List.range 16).filter (fun n => used (tagV n))).map (fun n =>
    (0x13000 + 4096 * n, imageReg (k.tag (tagV n)) 4096 (fixReg k.regChk (tagV n) (KV.get (0 : BitVec 32768) k.vregs n)).toNat)) ++
  ((List.range 8).filter (fun b => hStatsMask x.hdr / 2 ^ b % 2 = 1)).map (fun b =>
    (0x23000 + 8192 * b, ((List.range 1024).map (fun i =>
      natBytes 8 (k.stat (1024 * b + i)).toNat)).flatten))

/-- Writes the save image of a slot; bytes whose address does not translate are lost (log 22). -/
def State.writeImage (s : State) (c sl flags off : Nat) (st : BitVec 8) : State :=
  let k := s.core c
  let x := k.slot sl
  (imageParts k x sl flags off st).foldl
    (fun s p => (s.writeDev c x.ctx.toNat (hSave x.hdr + p.1) p.2).2) s

/-! ### Freeing a slot -/

/-- The slot is free: its registers are released, its claims retired, its walks ended. -/
def State.freeSlot (s : State) (c sl : Nat) : State :=
  let x := s.slot c sl
  let s := if h : c < 960 ∧ sl < 4 then s.dropWaits (.slot ⟨c, h.1⟩ ⟨sl, h.2⟩) else s
  s.modCore c (fun k =>
    let k := (k.releaseMask (hRegMask x.hdr)).closeClaims sl (fun _ => true)
    let k := { k with
      claims := k.claims.filter (fun (y : Claim) => y.slot.val ≠ sl)
      withdrawn := k.withdrawn.filter (fun e => e.1 / 4 ≠ sl)
      program := match k.program with
        | some p => if p.ent.slot.val = sl then none else some p
        | none => none
      walks := k.walks.filter (fun e => e.1 ≠ sl + 1) }
    let k := { k with
      queues := KV.vmap [] (fun q => q.filter (fun y => y.slot.val ≠ sl)) k.queues
      running := KV.vmap [] (fun q => q.filter (fun y => y.slot.val ≠ sl)) k.running }
    k.setSlot sl {})

/-- A PREEMPT descriptor completes (R384), and its ring goes on. -/
def State.finishPreempt (s : State) (p : Preempting) : State :=
  let d := p.desc
  let s := s.postComp
    { kind := endPreemptDone, status := if p.failed then stIllegal else stOk, core := p.core.val, ctx := fld d 31 16
      addr := fld d 127 64, count := p.ended
      origin := .ring p.func p.ring p.index (d.extractLsb' 128 64) (d.extractLsb' 8 6) }
  if p.live then s.advance p.func.val p.ring.val else s

/-- A PREEMPT descriptor stands, or is done once no slot of it drains. -/
def State.holdPreempt (s : State) (p : Preempting) : State :=
  if p.slots.isEmpty then s.finishPreempt p
  else { s with hif := { s.hif with preempts := s.hif.preempts ++ [p] } }

/-- The PREEMPT descriptors that wait for a slot are told of its end: whether its list counts as
preempted. -/
def State.tellPreempt (s : State) (c sl : Nat) (counted : Bool) : State :=
  s.hif.preempts.foldl (fun s (p : Preempting) =>
    if p.core.val = c && p.slots.any (fun x => x.val = sl) then
      s.holdPreempt { p with slots := p.slots.filter (fun x => x.val ≠ sl), ended := p.ended + b2n counted }
    else s.holdPreempt p) { s with hif := { s.hif with preempts := [] } }

/-! ### Withdrawing and stopping (R125, R130) -/

/-- Commands in execution that a stop or a preemption withdraws as if they had not started:
those that await a Damson, PUTs and GETs with answers outstanding or abandoned, tile loads, which
keep their row count, and commands that wait on an empty operand queue having taken no row
(R125, R148, R284, R334). They keep their places of the 64 of their engine's queue (log 124). -/
def withdrawsRunning (q : QEnt) : Bool :=
  let o := cOpc q.w
  (decide (0x68 ≤ o) && decide (o ≤ 0x6B)) || o = 0x58 || (isPutGet q.w && (q.id = 0 || !q.await.isEmpty)) ||
    ((decide (0x30 ≤ o) && decide (o ≤ 0x4F)) && !q.await.isEmpty && q.prog.rows = 0)

/-- A withdrawn command that had taken its token and made no progress gives it back, since a
restored command waits for its token afresh (log 23). -/
def Slot.giveBack (x : Slot) (q : QEnt) : Slot :=
  if q.tokenTaken && q.prog = {} && cOpc q.w ≠ 0x58 then x.setTok (cWtok q.w) (x.tok (cWtok q.w) + 1) else x

/-- A slot whose access command is withdrawn: the walk it waited for and the suspension it
caused end with it (R209). -/
def Core.dropXlt (k : Core) (sl : Nat) : Core :=
  let k := { k with walks := k.walks.filter (fun e => !(e.1 = 0 && e.2.slot.val = sl)) }
  match k.xltBy with
  | some x => if x.val = sl then { k with xltAcc := false, xltBy := none } else k
  | none => k

/-- Commands join those withdrawn from engine e. -/
def Core.putOut (k : Core) (sl e : Nat) (l : List QEnt) : Core :=
  let clear (q : QEnt) : QEnt := { q with tokenWait := false, tokenTaken := false, await := [], got := [] }
  let k := k.setSlot sl (l.foldl Slot.giveBack (k.slot sl))
  { k with withdrawn := KV.upd [] k.withdrawn (4 * sl + e) (fun x => x ++ l.map clear) }

/-- Takes the slot's waiting commands out of the queues of some engines into the withdrawn lists. -/
def Core.withdrawOn (k : Core) (sl : Nat) (es : List Nat) : Core :=
  es.foldl (fun k e =>
    let mine := (k.queue e).filter (fun q => q.slot.val = sl)
    let run := (k.run e).filter (fun q => q.slot.val = sl && withdrawsRunning q)
    let k := k.setQueue e ((k.queue e).filter (fun q => q.slot.val ≠ sl))
    let k := k.setRun e ((k.run e).filter (fun q => !(q.slot.val = sl && withdrawsRunning q)))
    k.putOut sl e (run ++ mine)) k

/-- Takes the slot's waiting commands out of every queue. -/
def Core.withdraw (k : Core) (sl : Nat) : Core := (k.dropXlt sl).withdrawOn sl [0, 1, 2, 3]

/-- Whether a command of the slot is in execution on one of some engines. -/
def Core.busyOn (k : Core) (sl : Nat) (es : List Nat) : Bool :=
  es.any (fun e => (k.run e).any (fun q => q.slot.val = sl))

/-- Writes the status register of a command and gathers its flags (R115, R116). -/
def Slot.report (x : Slot) (q : QEnt) : Slot :=
  let n := cStsel q.w
  let v := pack [(8, q.status.toNat), (3, q.flags.byte), (21, 0),
    (32, if q.status = stPartial then q.bitmap.toNat else 0)]
  let x := if 16 ≤ n then x.setSreg (n - 16) (BitVec.ofNat 64 v) else x
  { x with sticky := x.sticky.or q.flags
           cont := if continuing q.status then Slot.inc32 x.cont else x.cont }

/-- Counter of Table 04-13 that counts a command of an engine. -/
def doneCounter (e : Nat) (w : Cmd) : Option Nat :=
  if cOpc w = 0x20 then some 0x50 else if cOpc w = 0x21 then some 0x78 else if e = 1 then some 0x88 else none

/-- A command of a slot that a reset ends completes: its status, token, claims and counts. The slot
is ending, so a token above its limit is left at it. -/
def Core.finishIn (k : Core) (sl e : Nat) (q : QEnt) : Core :=
  let x := (k.slot sl).report q
  let x := if cPen q.w then (x.post (cPtok q.w) 1).getD x else x
  let n (m : KV (BitVec 64)) (o : Nat) : KV (BitVec 64) := KV.upd 0 m o (· + 1)
  let cs := if continuing q.status then n k.counters 0x110 else k.counters
  let cs := match doneCounter e q.w with
    | some o => n cs o
    | none => cs
  (({ k with counters := cs } : Core).setSlot sl x).dropClaims q.claims

/-! ### Draining (R125, R130) -/

/-- The slot stands at a WAIT that has been issued. -/
def Slot.atWait (x : Slot) : Bool :=
  match x.hold with
  | .sync w _ => cOpc w = 0x11
  | _ => false

/-- The hold of a slot that begins to drain: a WAIT, a token and an END are given up, to be
executed afresh; any other operation completes. -/
def Slot.drainHold (x : Slot) : Hold :=
  match x.hold with
  | .token => .none
  | .ending _ => .none
  | .xlt => .none
  | .sync w r => if cOpc w = 0x11 then .none else .sync w r
  | h => h

/-- Nothing of the slot is in execution any more. -/
def Core.drained (k : Core) (sl : Nat) : Bool :=
  (k.slot sl).accessOut && !k.busyOn sl [0, 1, 2, 3] && (k.slot sl).hold = .none &&
    (match k.program with
     | some p => p.ent.slot.val ≠ sl || !(p.ent.await.any (fun n => decide (2 ≤ n)))
     | none => true)

/-- The access engine suspends the slot's commands: it abandons the packets of PUTs and GETs, and
the rest is withdrawn (R125 step 3, R334). -/
def State.suspendAccess (s : State) (c sl : Nat) : State :=
  ((s.abandonFab c sl).modCore c (fun k => (k.dropXlt sl).withdrawOn sl [3])).modSlot c sl
    (fun x => { x with accessOut := true })

/-- The image, the records and the credit of a slot that a stopping status stopped, once it has
drained: the slot is free (R130). -/
def State.finishStop (s : State) (c sl : Nat) (st : BitVec 8) (f : FaultAt) : State :=
  let s := if hSave (s.slot c sl).hdr ≠ 0 then s.writeImage c sl 3 f.off st else s
  let s := s.postFault c sl st f
  let s := (s.settle c sl).postComp (s.slotComp c sl endStopped st f.off)
  (s.tellPreempt c sl false).freeSlot c sl

/-- A list that an FLR stopped ends, once its slot has drained, with no image and no record (R386). -/
def State.finishQuiet (s : State) (c sl : Nat) : State := ((s.settle c sl).tellPreempt c sl false).freeSlot c sl

/-- How far a draining slot has come: the access engine suspends its commands once the matrix,
vector and row engines have completed theirs, and a slot that stops ends once nothing of it is
in execution. -/
def State.drainSlot (s : State) (c sl : Nat) : State :=
  let k := s.core c
  let s := if (k.slot sl).accessOut || k.busyOn sl [0, 1, 2] then s else s.suspendAccess c sl
  if !(s.core c).drained sl || s.owesAnswers c sl then s
  else if (s.slot c sl).quiet then s.finishQuiet c sl
  else
    match (s.slot c sl).stopping with
    | some (st, f) => s.finishStop c sl st f
    | none => s

/-- A slot begins to drain (R125): its wait is given up, and the matrix, vector and row engines
withdraw what they have not started. -/
def State.startDrain (s : State) (c sl : Nat) : State :=
  let x := s.slot c sl
  let s := if h : c < 960 ∧ sl < 4 ∧ x.atWait then s.leaveWaits (.slot ⟨c, h.1⟩ ⟨sl, h.2.1⟩) else s
  s.modCore c (fun k =>
    let k := (k.withdrawOn sl [0, 1, 2]).setSlot sl
      { (k.withdrawOn sl [0, 1, 2]).slot sl with draining := true, hold := x.drainHold, xltFault := false }
    { k with walks := KV.del k.walks (sl + 1) })

/-- A stopping status stops the slot (R130): the failing command is withdrawn first on its
engine, which runs no later command of the slot, or held at the program counter where the sequencer found it; the slot drains, its
image is written where it has a save area, FAULT and COMPLETION records are posted, the
credit is settled and the slot is free. The first of several stops is the one told. -/
def State.stopSlot (s : State) (c sl : Nat) (st : BitVec 8) (f : FaultAt) (failing : List (Nat × QEnt) := []) : State :=
  let x := s.slot c sl
  if !x.active then s
  else
    let s := s.modCore c (fun k => failing.foldl (fun k y => k.putOut sl y.1 [y.2]) k)
    let s := if x.stopping.isSome then s
      else
        let s := (s.count c 0x118 1).count c 0x28 1
        let s := s.modSlot c sl (fun x => { x with stopping := some (st, f) })
        if x.draining then s else s.startDrain c sl
    let s := if f.engine = 3 && !(s.slot c sl).accessOut then s.suspendAccess c sl else s
    s.drainSlot c sl

/-- The sequencer stops its slot at the command at the program counter. -/
def State.stopAtPc (s : State) (c sl : Nat) (st : BitVec 8) (detail : Nat := 0) : State :=
  s.stopSlot c sl st { off := (s.slot c sl).pc.toNat, detail := detail }

/-! ### Completion of a command (R101, R102, R115) -/

/-- The slot with the token of PEN posted, where it fits. -/
def Slot.posted (x : Slot) (w : Cmd) : Option Slot := if cPen w then x.post (cPtok w) 1 else some x

/-- A command of engine e completes with the status in its entry: status register, token, claims
and counters. A token post that does not fit stops the slot, naming the posting command, which
writes nothing (R102, R115). -/
def State.finish (s : State) (c e : Nat) (q : QEnt) : State :=
  let sl := q.slot.val
  match ((s.slot c sl).report q).posted q.w with
  | none => s.stopSlot c sl stIllegal { engine := e, off := q.off.toNat } [(e, q)]
  | some y =>
    (if continuing q.status then s.count c 0x110 1 else s).modCore c (fun k => (k.setSlot sl y).dropClaims q.claims)

end Sys2Proof.Machine
end

