-- ==== Sys2Proof/Machine/Issue.lean ====
section
/-! DEFINITION. What the sequencer does with the command at a program counter: checks,
resolution of run-time fields, execution or dispatch (R97, R101, R103, R108 to R113). -/

namespace Sys2Proof.Machine

/-- What the tables say of an opcode: its engine (4 is the sequencer), reserved bit ranges,
base-relative fields, the destination field that BDST selects, selectors, the tile registers,
statistics blocks and operand queues it names, and the conditions on its resolved fields whose
breach stops the slot at dispatch (R109 to R113). -/
structure OpInfo where
  engine : Nat
  rsv : List (Nat × Nat) := []
  base : List (Nat × Nat) := []
  dst : Option (Nat × Nat) := none
  sels : List Sel := []
  regs : BitVec 256 → Nat := fun _ => 0
  stats : BitVec 256 → Nat := fun _ => 0
  queues : BitVec 256 → Nat := fun _ => 0
  legal : BitVec 256 → Bool := fun _ => true

/-- Reserved bits, BREN, BDST and selectors as R109, R111 and R113 ask. -/
def OpInfo.form (o : OpInfo) (w : BitVec 256) : Bool :=
  commonOk w && o.rsv.all (fun r => fld w r.1 r.2 = 0) && o.sels.all (fun x => selOk (fld w x.shi x.slo)) &&
  (!cBren w || (if cBdst w then o.dst.isSome else !o.base.isEmpty)) && (!cBdst w || o.engine = 3)

/-- The resolved command (R113). -/
def OpInfo.resolve (o : OpInfo) (x : Slot) (w : BitVec 256) : BitVec 256 :=
  let w := o.sels.foldl (fun w y => applySel x.sreg w y) w
  if cBren w then
    let fs := if cBdst w then (match o.dst with | some f => [f] | none => []) else o.base
    (fs.foldl (fun v f => setFld v f.1 f.2 ((x.sreg (cBreg w)).toNat % 2 ^ 64 + fld w f.1 f.2)) w)
      |> fun v => setFld v 18 18 0
  else w

/-- Masks of R108 and the field conditions. -/
def OpInfo.within (o : OpInfo) (h : BitVec 512) (w : BitVec 256) : Bool :=
  o.regs w &&& hRegMask h = o.regs w && o.stats w &&& hStatsMask h = o.stats w &&
  o.queues w &&& hQueueMask h = o.queues w && o.legal w

/-! ### Reads of a fetch (R98, R206, R208) -/

inductive FetchRes where
  | ok (data : List Byte)
  | xlt (va cause level : Nat)
  /-- A walk has to answer first. -/
  | miss
  | fail (st : BitVec 8)

/-- The status that R98 gives for a failed read; PATH_LOST is R420's. -/
def fetchSt (st : BitVec 8) : BitVec 8 :=
  if st = stEcc || st = stPoison || st = stRetry || st = stPathLost then st else stIllegal

/-- A translation enters the TLB of the access engine or of the sequencer (R207). -/
def Core.install (k : Core) (acc : Bool) (e : TlbEnt) : Core :=
  if acc then { k with tlbAcc := (e :: k.tlbAcc).take 256 } else { k with tlbSeq := (e :: k.tlbSeq).take 32 }

/-- A read of a header, a parameter block or a command that a check needs, whose walk is made at
once (log 22). -/
def State.fetchNow (s : State) (c ctx a n : Nat) : FetchRes × State :=
  let rd (s : State) (p : Place) : FetchRes × State :=
    let r := s.getPlace c ctx p n
    if r.st = stOk then (.ok r.data, r.s) else (.fail (fetchSt r.st), r.s)
  match placeOf (s.core c).tlbSeq ctx a false with
  | .at p => match p with
    | .queue _ => (.fail stIllegal, s)
    | p => rd s p
  | .miss =>
    match (s.count c 0x100 1).walkNow ctx a false with
    | (.leaf e _, s) =>
      rd (s.modCore c (fun k => k.install false e)) (if regionOf a = .tier then .tier (e.addr a) else .host (e.addr a))
    | (.fault cause level, s) => (.xlt a cause level, s)
    | (.fail st, s) => (.fail (fetchSt st), s)
    | (.more _, s) => (.fail stIllegal, s)
  | _ => (.fail stIllegal, s)

/-- A translation fault of a fetch suspends its slot alone. -/
def State.xltFaultSeq (s : State) (c sl va cause level : Nat) : State :=
  let s := s.modCore c (fun k => { k with walks := KV.del k.walks (sl + 1) })
  (s.modSlot c sl (fun x => { x with xltFault := true })).postFault c sl stXlt
    { off := (s.slot c sl).pc.toNat, detail := pack [(64, va), (1, 0), (3, level), (4, cause)] }

/-! ### The program counter (R98, R104, R110) -/

/-- Opcodes of Table 04-4. -/
def listed (opc : Nat) : Bool :=
  decide (opc ≤ 0x09) || (decide (0x10 ≤ opc) && decide (opc ≤ 0x16)) ||
  (decide (0x20 ≤ opc) && decide (opc ≤ 0x25)) || (decide (0x30 ≤ opc) && decide (opc ≤ 0x36)) ||
  (decide (0x40 ≤ opc) && decide (opc ≤ 0x46)) || (decide (0x50 ≤ opc) && decide (opc ≤ 0x5A)) ||
  (decide (0x60 ≤ opc) && decide (opc ≤ 0x63)) || (decide (0x68 ≤ opc) && decide (opc ≤ 0x6B))

def Slot.buffered (x : Slot) (off : Nat) : Option Cmd :=
  (x.buf.find? (fun e => e.1.toNat = off)).map (·.2)

/-- The program counter stands at an offset: the end of the list, a command whose fetch failed
and an unlisted opcode stop the slot. -/
def State.settlePc (s : State) (c sl : Nat) : State :=
  let x := s.slot c sl
  if !x.active || x.draining then s
  else if hLength x.hdr ≤ x.pc.toNat then s.stopAtPc c sl stIllegal
  else
    match x.bad.find? (fun e => e.1 = x.pc) with
    | some e => s.stopAtPc c sl e.2 (if e.2 = stEcc || e.2 = stPoison
        then s.eccAt x.ctx.toNat (x.listAddr.toNat + 64 + 32 * x.pc.toNat) else 0)
    | none =>
      match x.buffered x.pc.toNat with
      | some w => if listed (cOpc w) then s else s.stopAtPc c sl stIllegal
      | none => s

def State.setPc (s : State) (c sl pc : Nat) : State :=
  (s.modSlot c sl (fun x => { x with pc := BitVec.ofNat 32 pc })).settlePc c sl

/-! ### Readiness (R97, R101) -/

/-- The engine is in reset (R403). -/
def Core.down (k : Core) (e : Nat) : Bool := k.inReset.any (fun x => engNum x = e)

def Slot.held (x : Slot) : Bool :=
  match x.hold with
  | .none => false
  | .token => false
  | _ => true

/-- Commands in an engine's queue of 64: those that have not started, and those in execution that keep
their places (log 124). -/
def Core.depth (k : Core) (e : Nat) : Nat := (k.queue e).length + ((k.run e).filter withdrawsRunning).length

/-- Engine of an opcode; 4 is the sequencer. -/
def opcEngine (opc : Nat) : Nat :=
  if opc < 0x20 then 4 else if opc < 0x30 then 0 else if opc < 0x40 then 1 else if opc < 0x50 then 2 else 3

/-- The next command of a slot is fetched and can proceed (R97): its engine's queue has room, or the
sequencer has its token. -/
def Core.canProceed (k : Core) (i : Nat) : Bool :=
  let x := k.slot i
  x.active && !x.draining && !x.doomed && !x.held && !x.xltFault && decide (x.pc.toNat < hLength x.hdr) &&
    (match x.buffered x.pc.toNat with
     | none => false
     | some w =>
       if opcEngine (cOpc w) = 4 then !cWen w || decide (x.tok (cWtok w) ≠ 0)
       else decide (k.depth (opcEngine (cOpc w)) < 64))

/-- Slots after the one served last, in turn: how far off slot i is. -/
def Core.turn (k : Core) (i : Nat) : Nat := (i + 7 - k.served) % 4

/-- The sequencer serves slot i now: no other slot that can proceed has a higher PRIO, or the same and
an earlier turn (R97; the turn is log 121). -/
def Core.serves (k : Core) (i : Nat) : Bool :=
  [0, 1, 2, 3].all (fun j => decide (j = i) || !k.canProceed j || decide (hPrio (k.slot j).hdr < hPrio (k.slot i).hdr) ||
    (hPrio (k.slot j).hdr = hPrio (k.slot i).hdr && decide (k.turn i < k.turn j)))

/-- The core runs (R352, R353), and the slot, which the sequencer serves now, is active at a command that
can be `w` (log 8), with nothing holding it. -/
def State.seqReady (s : State) (c sl : Nat) (w : Cmd) : Bool :=
  let k := s.core c
  let x := k.slot sl
  decide (k.cst = .c0) && x.active && !x.draining && !x.doomed && !x.held && !x.xltFault && !k.down 4 && decide (x.pc.toNat < hLength x.hdr) &&
  (match x.buffered x.pc.toNat with | some v => decide (v = w) | none => true) &&
  !(x.bad.any (fun e => e.1 = x.pc)) && k.serves sl && !s.relocking (halfOf c)

/-- Advances a progress counter (R403). -/
def State.progress (s : State) (c e n : Nat) : State :=
  s.modCore c (fun k => { k with mons := KV.upd {} k.mons e (fun (m : Monitor) => { m with count := m.count + BitVec.ofNat 64 n }) })

/-- Counts a command of a slot executed or dispatched. -/
def State.issued (s : State) (c sl : Nat) : State :=
  ((s.count c 0x10 1).progress c 4 1).modCore c (fun k => { k with served := sl })

/-! ### Sequencer commands (R103) -/

/-- What a sequencer command comes to. -/
inductive SeqRes where
  /-- It completes with a status; the program counter goes to an offset, or to the next. -/
  | done (s : State) (st : BitVec 8) (pc : Option Nat)
  | stop (st : BitVec 8)
  /-- It has been issued and holds its slot, in the state given. -/
  | issued (s : State)
  /-- It does not execute yet, with the state given: a fetch that it needs is suspended (R119, R208). -/
  | held (s : State)
  /-- It cannot proceed. -/
  | wait

/-- Completes a sequencer command of a slot: status register, flags, token, next command. Where its
token does not fit, it stops the slot and writes no status (R102, R115). -/
def State.seqDone (s : State) (c sl : Nat) (w : Cmd) (st : BitVec 8) (pc : Option Nat) : State :=
  let x := s.slot c sl
  let q : QEnt := { w := w, status := st, off := x.pc }
  match ({ x.report q with hold := .none } : Slot).posted w with
  | none => (s.setSlot c sl { x with hold := .none }).stopAtPc c sl stIllegal
  | some y => ((if continuing st then s.count c 0x110 1 else s).setSlot c sl y).setPc c sl (pc.getD (x.pc.toNat + 1))

/-- Executes a sequencer command: form and fields, its token, then `body` on the resolved
command. -/
def State.seqRun (s : State) (c sl : Nat) (w : Cmd) (o : OpInfo) (body : State → Cmd → SeqRes) : State :=
  if !s.seqReady c sl w then s
  else
    let x := s.slot c sl
    let r := o.resolve x w
    if !(o.form w && o.within x.hdr r) then s.stopAtPc c sl stIllegal
    else if cWen r && x.tok (cWtok r) = 0 then s.setSlot c sl { x with hold := .token }
    else
      let t := if cWen r then x.setTok (cWtok r) (x.tok (cWtok r) - 1) else x
      match body (s.setSlot c sl { t with hold := .none }) r with
      | .wait => s
      | .stop st => s.stopAtPc c sl st
      | .issued s => s.issued c sl
      | .held s => s.modSlot c sl (fun y => { y with toks := x.toks, hold := x.hold })
      | .done s st pc => (s.issued c sl).seqDone c sl r st pc

/-! ### Dispatch to an engine (R97, R113) -/

/-- Index of the completion counter that an access command names, where CEN is set. -/
def cenIndex (w : Cmd) : Option Nat :=
  let f (en hi lo : Nat) : Option Nat := if bit w en then some (fld w hi lo) else none
  match cOpc w with
  | 0x50 => f 249 248 233
  | 0x51 => f 249 248 233
  | 0x52 => f 249 248 233
  | 0x53 => f 236 252 237
  | 0x54 => f 236 252 237
  | 0x55 => f 220 236 221
  | 0x56 => f 165 181 166
  | 0x57 => f 221 237 222
  | 0x58 => f 181 197 182
  | 0x60 => f 209 225 210
  | 0x61 => f 209 225 210
  | 0x63 => f 185 201 186
  | _ => none

def State.syncEnt (s : State) (i : Nat) : SyncEnt := (s.sync.ents.find? (fun e => e.1 = i)).map (·.2) |>.getD s.sync.base

/-- Dispatches a command to its engine's queue. A full queue leaves it where it is. -/
def State.dispatchTo (s : State) (c sl : Nat) (w : Cmd) (o : OpInfo) : State :=
  let k := s.core c
  if !s.seqReady c sl w || decide (64 ≤ k.depth o.engine) then s
  else
    let x := k.slot sl
    let r := o.resolve x w
    if !(o.form w && o.within x.hdr r) then s.stopAtPc c sl stIllegal
    else
      let ids := k.openClaims sl
      let inc : BitVec 8 := match cenIndex r with
        | some i => (s.syncEnt i).inc
        | none => 0
      let q : QEnt := { slot := BitVec.toFin (BitVec.ofNat 2 sl), off := x.pc, w := r, inc := inc, claims := ids }
      let s := s.setCore c ((k.setQueue o.engine (k.queue o.engine ++ [q])).bumpClaims ids)
      (s.issued c sl).setPc c sl (x.pc.toNat + 1)

end Sys2Proof.Machine
end

