-- ==== Sys2Proof/Machine/EngineIo.lean ====
section
/-! DEFINITION. What starting a command of an engine comes to, the slab reads and writes of a
command, tags, and the narrowing block that several commands carry (R136, R137, R179, R192). -/

namespace Sys2Proof.Machine

/-- What the head of an engine's queue comes to when the engine tries to start it. -/
inductive Start where
  /-- It starts; its effect is in the state, and it stays in execution. -/
  | go (s : State) (q : QEnt)
  /-- It completes at once. -/
  | fin (s : State) (q : QEnt)
  /-- It cannot start now. -/
  | wait (s : State)
  /-- It cannot go on now, and stands at the head with the progress in the entry. -/
  | hold (s : State) (q : QEnt)
  /-- Its slot stops; `detail` is bytes 44 to 55 of the FAULT payload. -/
  | stop (s : State) (st : BitVec 8) (detail : Nat := 0)

/-! ### Slab reads and writes of one command -/

/-- Data by address. -/
abbrev Pieces := List (Nat × List Byte)

/-- n bytes at an address, from a piece that holds them all. -/
def pieceAt (d : Pieces) (a n : Nat) : List Byte :=
  match d.find? (fun p => decide (p.1 ≤ a ∧ a + n ≤ p.1 + p.2.length)) with
  | some p => (p.2.drop (a - p.1)).take n
  | none => List.replicate n 0

/-- Reads (address, length) ranges of the core's slabs; the first status that is not OK stands. -/
def State.engReads (s : State) (c ctx : Nat) : List (Nat × Nat) → Pieces × BitVec 8 × State
  | [] => ([], stOk, s)
  | (a, n) :: l =>
    let r := s.engRead c ctx a n
    let t := r.s.engReads c ctx l
    ((a, r.data) :: t.1, if r.st = stOk then t.2.1 else r.st, t.2.2)

/-- Whether a range of the core's slabs touches a slab that refuses access (R192). -/
def State.slabOff (s : State) (c a n : Nat) : Bool :=
  decide (n ≠ 0) &&
  (List.range ((a + n - 1) / 0x30000 - a / 0x30000 + 1)).any
    (fun i => (s.letIn (slabMem c (a / 0x30000 + i))).isNone)

/-- Halves of a piece that a write of it covers in part. -/
def partHalves (a n : Nat) : List Nat :=
  if n = 0 then []
  else
    let lo := a / 32
    let hi := (a + n - 1) / 32
    (if a % 32 ≠ 0 || decide (a + n < 32 * (lo + 1)) then [lo] else []) ++ (if (a + n) % 32 ≠ 0 && decide (hi ≠ lo) then [hi] else [])

/-- The first half, as stored, that some piece would write in part and that cannot be read (R197). -/
def State.badPart (s : State) (c : Nat) (l : Pieces) : Option Nat :=
  ((l.map (fun p => partHalves p.1 p.2.length)).flatten.map (slabKey c 0 / 32 + ·)).find? (fun h => badWord (KV.get 0 s.chk h))

/-- Writes pieces to the core's slabs: outside the slab space, at a slab in OFF, or where a part of a half
cannot be written, nothing is written. -/
def State.engWrites (s : State) (c ctx : Nat) (l : Pieces) : BitVec 8 × State :=
  let all (s : State) : BitVec 8 × State := l.foldl (fun r p =>
    let x := r.2.engWrite c ctx p.1 p.2
    (if r.1 = stOk then x.1 else r.1, x.2)) (stOk, s)
  if l.any (fun p => !inSlabSpace p.1 p.2.length) then (stCapacity, s)
  else if l.any (fun p => s.slabOff c p.1 p.2.length) then (stIllegal, s)
  else
    match s.badPart c l with
    | none => all s
    | some h =>
      let r := s.readHalf ctx h
      if r.st = stOk then all r.s else (r.st, r.s)

/-- FAULT detail of the first half of some ranges that cannot be read (Table 15-4). -/
def State.eccDetail (s : State) (c : Nat) (l : List (Nat × Nat)) : Nat :=
  let hs := (l.map (fun r => if r.2 = 0 then [] else
    (List.range ((r.1 + r.2 - 1) / 32 - r.1 / 32 + 1)).map (fun i => slabKey c 0 / 32 + r.1 / 32 + i))).flatten
  match hs.find? (fun h => match dcheck (KV.get 0 s.chk h) with
      | .good => false
      | .fixed _ _ => false
      | _ => true) with
  | some h => pack [(64, 32 * h), (32, synWord (KV.get 0 s.chk h))]
  | none => 0

/-- A stop for a failed read or write of some ranges. -/
def stopEcc (s : State) (st : BitVec 8) (c : Nat) (l : List (Nat × Nat)) : Start :=
  .stop s st (if st = stEcc || st = stPoison then s.eccDetail c l else 0)

/-- Ranges of some pieces. -/
def rangesOf (l : Pieces) : List (Nat × Nat) := l.map (fun p => (p.1, p.2.length))

/-! ### Tags (Table 05-2) -/

def tKind (t : BitVec 128) : Nat := fld t 3 2
def tFmt (t : BitVec 128) : Nat := fld t 7 4
def tFmtB (t : BitVec 128) : Nat := fld t 11 8
def tShape (t : BitVec 128) : Nat := fld t 14 12
def tFix (t : BitVec 128) : Bool := bit t 15
def tAnchOvf (t : BitVec 128) : Bool := bit t 16
def tPoison (t : BitVec 128) : Bool := bit t 18
def tScv (t : BitVec 128) : Bool := bit t 19
def tPos (t : BitVec 128) : Nat := fld t 42 32
def tSbase (t : BitVec 128) : Nat := fld t 63 43
def tAnchor (t : BitVec 128) : Int := signed 16 (fld t 79 64)
def tUloss (t : BitVec 128) : Nat := fld t 127 96

/-- Tag of an X or V register. -/
def mkTag (kind fmt rows pos valid : Nat) (loading : Bool := false) (scv : Bool := false) (sbase : Nat := 0)
    (poison : Bool := false) : BitVec 128 :=
  BitVec.ofNat 128 (pack [(1, 1), (1, b2n loading), (2, kind), (4, fmt), (10, 0), (1, b2n poison), (1, b2n scv),
    (6, rows), (6, valid), (11, pos), (21, sbase)])

/-- The checks of R137 before any data is read: in use, loaded, and what the command accepts. -/
def tagCheck (t : BitVec 128) (rows : Nat) (accepts : Bool) : BitVec 8 :=
  if !tInUse t || tLoading t || decide (tRowsValid t < rows) then stTileEmpty
  else if !accepts then stShape
  else if tPoison t then stPoison
  else stOk

/-- Shape of a V register by format: rows and columns (R135). -/
def vRows (fmt : Nat) : Nat := if fmt = fmAla then 4 else 32
def vCols (fmt : Nat) : Nat := if fmt = fmFp64 then 16 else 32

def vTag (fmt : Nat) : BitVec 128 := mkTag 2 fmt (vRows fmt) (vCols fmt) (vRows fmt)

/-- Contents of a V register as delivered to a command. -/
def Core.vreg (k : Core) (n : Nat) : BitVec 32768 := fixReg k.regChk (tagV n) (KV.get 0 k.vregs n)

/-- Writes a V register: data and tag. A merging write keeps words as they were (R150). -/
def Core.setV (k : Core) (n : Nat) (d : BitVec 32768) (t : BitVec 128) (keep : Nat → Bool := fun _ => false) : Core :=
  (({ k with vregs := KV.put 0 k.vregs n d }).renew (tagV n) keep).setTag (tagV n) t

/-- Contents of an X register as delivered to a command. -/
def Core.xreg (k : Core) (n : Nat) : BitVec 16384 := fixReg k.regChk (tagX n) (KV.get 0 k.xregs n)

/-- Writes an X register: data, tag, and the reuse latches that held it (R90). A merging write keeps words
as they were (R143). -/
def Core.setX (k : Core) (n : Nat) (d : BitVec 16384) (t : BitVec 128) (keep : Nat → Bool := fun _ => false) : Core :=
  ((({ k with xregs := KV.put 0 k.xregs n d }).renew (tagX n) keep).setTag (tagX n) t).dropLatch n

/-- Rows R by RCODE. -/
def rowsOfCode (rc : Nat) : Nat := [32, 16, 8, 1].getD rc 32

/-! ### Operand queues (R224) -/

def Core.opq (k : Core) (n : Nat) : OpQueue := KV.get {} k.opqs n

/-- Address of entry n of the ring. -/
def OpQueue.entryAddr (o : OpQueue) (n : Nat) : Nat := o.base.toNat + n % max 1 o.count.toNat * (o.entry.toNat * 64)

/-- Entries written and not read. -/
def OpQueue.occ (o : OpQueue) : Nat := (o.tail - o.head).toNat

/-! ### The narrowing block (Tables 04-10, 05-3, 05-5, 05-9) -/

/-- Selector of STEP in a command with an SR block. -/
def stepSel : Sel := { hi := 146, lo := 115, shi := 114, slo := 110, take := 32 }

def narrowOf (x : Slot) (w : Cmd) (mode : Nat) (sat : Bool) : Narrow :=
  { mode := mode, sat := sat, seed := hSeed x.hdr, step := BitVec.ofNat 32 (fld w 146 115)
    tensor := BitVec.ofNat 32 (fld w 178 147) }

/-- SR index of element (i, j). -/
def srIndex (w : Cmd) (i j : Nat) : BitVec 64 := BitVec.ofNat 64 (fld w 218 179 + i * fld w 250 219 + j)

/-- Narrowing of a value to a scalar format code other than MX and ALA-192. -/
def narrow (fmt : Nat) (n : Narrow) (index : BitVec 64) (x : Num) : Nat × Cf :=
  match fmtFF fmt with
  | some f => f.encode (n.rm index) n.sat x
  | none => intEncode (fmtBits fmt) (n.rm index) x

/-- Packs elements of n bits, element 0 lowest. -/
def packElems (n : Nat) (l : List Nat) : Nat := pack (l.map (fun v => (n, v)))

end Sys2Proof.Machine
end

