-- ==== Sys2Proof/Machine/Access.lean ====
section
/-! DEFINITION. The access engine: rules for every command, copies, skewed copies, gathers and
scatters, multicast, neighbour and guarded copies, tile loads, operand queues and access
programs (R202 to R228, R232, R233). -/

namespace Sys2Proof.Machine

/-! ### Field tables (Tables 08-7 to 08-15) -/

def aSrc (w : Cmd) : Nat := fld w 87 32
def aDst (w : Cmd) : Nat := fld w 143 88

def queueOf (a : Nat) : Option Nat :=
  match regionOf a with
  | .queue q => some q
  | _ => none

/-- Mask of the operand queue that an address names, for R108. -/
def queueMask (a : Nat) : Nat :=
  match queueOf a with
  | some q => 2 ^ q
  | none => 0

def copyInfo : OpInfo :=
  { engine := 3, base := [(87, 32)], dst := some (143, 88), queues := fun w => queueMask (aDst w)
    sels := [{ hi := 175, lo := 162, shi := 232, slo := 228 }], rsv := [(255, 250)] }

def skewInfo : OpInfo :=
  { copyInfo with rsv := [], legal := fun w => !(bit w 254) || fld w 253 252 = 1 }

def gatherInfo : OpInfo :=
  { engine := 3, base := [(87, 32)], dst := some (143, 88), rsv := [(255, 253)]
    queues := fun w => if cOpc w = 0x53 then queueMask (aDst w) else 0
    sels := [{ hi := 182, lo := 165, shi := 235, slo := 231 }] }

def mcastInfo : OpInfo :=
  { engine := 3, base := [(87, 32)], dst := some (108, 88), rsv := [(255, 237)]
    sels := [{ hi := 162, lo := 149, shi := 219, slo := 215 }] }

def neighbourInfo : OpInfo :=
  { engine := 3, base := [(52, 32)], rsv := [(255, 182)], sels := [{ hi := 107, lo := 94, shi := 164, slo := 160 }] }

def gcopyInfo : OpInfo :=
  { engine := 3, base := [(87, 32)], dst := some (143, 88), rsv := [(255, 238)], queues := fun w => queueMask (aDst w)
    sels := [{ hi := 167, lo := 144, shi := 196, slo := 192 }] }

def tloadInfo : OpInfo :=
  { engine := 3, base := [(87, 32)], rsv := [(255, 198)]
    regs := fun w => if bit w 112 then 2 ^ (12 + fld w 116 113) else 2 ^ fld w 116 113
    legal := fun w =>
      let f := fld w 120 117
      if bit w 112 then [0, 13, 14].contains f && fld w 122 121 = 0 && fld w 133 123 = 0 && !bit w 134 && fld w 155 135 = 0
      else decide (fld w 116 113 < 8) && decide (f ≤ 12) && bit w 134 = isMx f && decide (1 ≤ fld w 133 123) &&
        decide (fld w 133 123 ≤ 1024) }

def qcfgInfo : OpInfo :=
  { engine := 3, rsv := [(255, 77)], queues := fun w => 2 ^ fld w 75 73
    legal := fun w => (fld w 72 71 = 1 || fld w 72 71 = 2) && (fld w 70 60 = 0 || decide (2 ≤ fld w 70 60)) &&
      decide (fld w 70 60 ≤ 1024) && decide (1 ≤ fld w 59 53) && fld w 52 32 % 64 = 0 }

def aprogInfo : OpInfo :=
  { engine := 3, rsv := [(255, 210)], base := [(145, 82)] }

/-! ### Ranges (R204, R211) -/

/-- End of the accepted region that holds an address: the slow tier runs on into host memory. -/
def regionEnd (a : Nat) : Option Nat :=
  match regionOf a with
  | .cluster => some (0x20000000 + past a 0x20000000 / 0x4000000 * 0x4000000 + 0x3000000)
  | .slab _ v => some (0x200000000 + past a 0x200000000 / 0x800000 * 0x800000 + v * 0x200000 + 0x180000)
  | .tier => some 0x30000000000000
  | .host => some 0x30000000000000
  | _ => none

/-- A fixed range that a copy accepts. -/
def spanOk (a n : Nat) : Bool :=
  match regionEnd a with
  | some e => decide (a + n ≤ e)
  | none => false

/-! ### Units of a movement -/

/-- A running movement: the core, the command's entry, whether a program issued it. -/
structure Mover where
  c : Nat
  ctx : Nat
  q : QEnt
  prog : Bool := false

/-- What one unit comes to: done, blocked at a translation or a queue, or stopped. -/
inductive Move where
  | ok (s : State) (p : Progress)
  | block (s : State) (p : Progress) (await : List Nat)
  | stop (s : State) (st : BitVec 8) (detail : Nat)

/-- Suspends the access engine for a translation fault (R208): the FAULT record. -/
def State.xltFaultAcc (s : State) (c : Nat) (sl : Nat) (off : Nat) (va : Nat) (write : Bool) (cause level : Nat)
    (pidx piter : Nat) : State :=
  let s := s.modCore c (fun k => { k with xltAcc := true, xltBy := some (BitVec.toFin (BitVec.ofNat 2 sl)), walks := KV.del k.walks 0 })
  s.postFault c sl stXlt { engine := 3, off := off, pidx := pidx, piter := piter
                           detail := pack [(64, va), (1, b2n write), (3, level), (4, cause)] }

/-- Program index and iteration of a mover, as a FAULT record carries them. -/
def Mover.pIx (m : Mover) (s : State) : Nat × Nat :=
  match (s.core m.c).program, m.prog with
  | some p, true => (p.index.toNat, p.iter.toNat)
  | _, _ => (0xFFFFFFFF, 0xFFFFFFFF)

/-- A miss of the access engine's TLB: counts it and starts a walk where none is under way. -/
def State.missAcc (s : State) (m : Mover) (va : Nat) (write : Bool) : State :=
  if (s.core m.c).walks.any (fun e => e.1 = 0) then s
  else
    let s := s.count m.c 0x100 1
    match s.walkStart m.ctx va write with
    | (.inl w, s) => s.modCore m.c (fun k => { k with
        walks := KV.ins k.walks 0 { w with slot := m.q.slot, off := m.q.off, prog := m.prog } })
    | (.inr f, s) =>
      let p := m.pIx s
      s.xltFaultAcc m.c m.q.slot.val m.q.off.toNat va write f.1 f.2 p.1 p.2

/-- Places of pieces: all of them, or the first address that misses or is denied, or a bad one. -/
inductive Places where
  | all (l : List (Nat × Nat × Place))
  | miss (va : Nat)
  | denied (va level : Nat)
  | bad

def placesOf (tlb : List TlbEnt) (ctx : Nat) (write : Bool) : List (Nat × Nat) → Places
  | [] => .all []
  | (a, n) :: l =>
    match placeOf tlb ctx a write with
    | .miss => .miss a
    | .denied lv => .denied a lv
    | .bad => .bad
    | .at p =>
      match placesOf tlb ctx write l with
      | .all r => .all ((a, n, p) :: r)
      | z => z

/-- What stands in the way of a range: a miss, whose walk begins, or a page that denies the access, which
suspends the engine; none where every piece of it has its place. -/
def blocked (s : State) (m : Mover) (write : Bool) (a n : Nat) : Option State :=
  let ix := m.pIx s
  match placesOf (s.core m.c).tlbAcc m.ctx write (piecesOf a n) with
  | .miss va => some (s.missAcc m va write)
  | .denied va lv => some (s.xltFaultAcc m.c m.q.slot.val m.q.off.toNat va write 3 lv ix.1 ix.2)
  | _ => none

/-- Whether a source line's epoch is newer than MAXEPOCH (R214). -/
def State.newer (s : State) (p : Place) (maxEpoch : Nat) : Bool :=
  match p with
  | .tier pa =>
    match s.tierMap pa with
    | some (ch, off) =>
      let d := ((s.line (tierKey ch off)).epoch.toNat + 2 ^ 24 - maxEpoch % 2 ^ 24) % 2 ^ 24
      decide (1 ≤ d) && decide (d ≤ 2 ^ 23 - 1)
    | none => false
  | _ => false

/-- Data gathered from source pieces: bytes, whether any is poisoned or uncorrectable, whether
any was refused, part bits, a newer line seen. -/
structure Got where
  data : List Byte := []
  poison : Bool := false
  refused : Bool := false
  bits : Nat := 0
  newer : Bool := false

def readPlaces (c ctx : Nat) (guard : Option Nat) (s : State) : List (Nat × Nat × Place) → Got → Got × State
  | [], g => (g, s)
  | (_, n, p) :: l, g =>
    let r := s.getPlace c ctx p n
    let bad := r.st ≠ stOk
    let g := { data := g.data ++ r.data, poison := g.poison || r.st = stEcc || r.st = stPoison
               refused := g.refused || r.st = stIllegal || r.st = stPathLost
               bits := if bad then g.bits ||| 2 ^ s.partBit p else g.bits
               newer := g.newer || (match guard with | some m => s.newer p m | none => false) }
    readPlaces c ctx guard r.s l g

/-- Writes pieces; the part bits that failed and the bytes that were written. -/
def writePlaces (c ctx : Nat) (d : List Byte) (a0 : Nat) (poison : Bool) (s : State) :
    List (Nat × Nat × Place) → Nat × Nat → (Nat × Nat) × State
  | [], r => (r, s)
  | (a, n, p) :: l, r =>
    let x := s.putPlace c ctx p ((d.drop (a - a0)).take n) poison
    writePlaces c ctx d a0 poison x.2 l (if x.1 = stOk then (r.1, r.2 + n) else (r.1 ||| 2 ^ s.partBit p, r.2))

/-- Counter of Table 08-19 for a transfer between two addresses. -/
def moveCounter (src dst : Nat) : Nat :=
  let r (a : Nat) : Nat := match regionOf a with
    | .remote => 3
    | .host => 2
    | .tier => 1
    | _ => 0
  0xC0 + 8 * max (r src) (r dst)

/-- Moves n bytes, at most 64, from one device address to another. `bit` names the part where
it is not the place's own. -/
def moveChunk (s : State) (m : Mover) (p : Progress) (src dst n : Nat) (guard part : Option Nat) : Move :=
  let tlb := (s.core m.c).tlbAcc
  let ix := m.pIx s
  match placesOf tlb m.ctx false (piecesOf src n) with
  | .miss va => .block (s.missAcc m va false) p []
  | .denied va lv => .block (s.xltFaultAcc m.c m.q.slot.val m.q.off.toNat va false 3 lv ix.1 ix.2) p []
  | .bad => .ok s { p with bitmap := p.bitmap ||| BitVec.ofNat 32 (2 ^ part.getD 20) }
  | .all ss =>
    match placesOf tlb m.ctx true (piecesOf dst n) with
    | .miss va => .block (s.missAcc m va true) p []
    | .denied va lv => .block (s.xltFaultAcc m.c m.q.slot.val m.q.off.toNat va true 3 lv ix.1 ix.2) p []
    | .bad => .ok s { p with bitmap := p.bitmap ||| BitVec.ofNat 32 (2 ^ part.getD 20) }
    | .all ds =>
      let g := readPlaces m.c m.ctx guard s ss {}
      let w := if g.1.refused then ((0, 0), g.2) else writePlaces m.c m.ctx g.1.data dst g.1.poison g.2 ds (0, 0)
      let bits := g.1.bits ||| w.1.1
      let bits := match part with
        | some b => if bits = 0 then 0 else 2 ^ b
        | none => bits
      let done := if g.1.bits = 0 then w.1.2 else 0
      .ok ((w.2.count m.c (moveCounter src dst) done).progress m.c 3 1)
        { p with bitmap := p.bitmap ||| BitVec.ofNat 32 bits, newer := p.newer || g.1.newer }

/-! ### Strided movements -/

/-- A movement in rows: how many, the length of a row, its source and destination, none where a
row is skipped; the destination queue; the epoch guard; the part bit of a row. -/
structure Plan where
  rows : Nat
  len : Nat → Nat
  src : Nat → Nat
  dst : Nat → Option Nat
  queue : Option Nat := none
  guard : Option Nat := none
  part : Nat → Option Nat := fun _ => none

/-- An entry has been written at the tail of an operand queue. -/
def State.pushTail (s : State) (c : Nat) : Option Nat → State
  | some q => s.modCore c (fun k => { k with opqs := KV.put {} k.opqs q { (k.opq q) with tail := (k.opq q).tail + 1 } })
  | none => s

/-- Chunks of row r from byte offset o. -/
def moveRow (m : Mover) (x : Plan) (r dst : Nat) (s : State) (p : Progress) : Nat → Move
  | 0 => .ok s p
  | f + 1 =>
    let o := p.bytes.toNat
    if x.len r ≤ o then .ok s { p with bytes := 0 }
    else
      let n := min 64 (x.len r - o)
      match moveChunk s m p (x.src r + o) (dst + o) n x.guard (x.part r) with
      | .ok s p => moveRow m x r dst s { p with bytes := BitVec.ofNat 32 (o + n) } f
      | z => z

/-- Row r from the recorded byte on. Its pages are translated before any of it moves, so that no
granule of a source is read twice (R212). -/
def moveWhole (m : Mover) (x : Plan) (r dst : Nat) (s : State) (p : Progress) : Move :=
  let o := p.bytes.toNat
  match blocked s m false (x.src r + o) (x.len r - o) with
  | some s => .block s p []
  | none =>
    match blocked s m true (dst + o) (x.len r - o) with
    | some s => .block s p []
    | none => moveRow m x r dst s p (x.len r / 64 + 2)

/-- Rows from the recorded progress on (R238). -/
def moveRows (m : Mover) (x : Plan) (s : State) (p : Progress) : Nat → Move
  | 0 => .ok s p
  | f + 1 =>
    let r := p.rows.toNat
    if x.rows ≤ r then .ok s p
    else
      let next (p : Progress) : Progress := { p with rows := p.rows + 1, bytes := 0 }
      match x.queue with
      | none =>
        match x.dst r with
        | none => moveRows m x s (next p) f
        | some d =>
          match moveWhole m x r d s p with
          | .ok s p => moveRows m x s (next p) f
          | z => z
      | some qi =>
        let o := (s.core m.c).opq qi
        if o.count = 0 || decide (o.entry.toNat * 64 < x.len r) then .stop s stIllegal 0
        else if o.count.toNat ≤ o.occ then .block s p [1]
        else
          match moveWhole m x r (slabKey m.c (o.entryAddr o.tail.toNat)) s p with
          | .ok s p =>
            moveRows m x (s.pushTail m.c (some qi)) (next p) f
          | z => z

def runPlan (s : State) (m : Mover) (x : Plan) : Move := moveRows m x s m.q.prog (x.rows + 1)

/-! ### Checks and plans -/

/-- What the checks of R211 find. -/
inductive Checked where
  | go
  | noop
  | stop (st : BitVec 8)

/-- Capacity, zero counts, ranges and alignment, the slab space, in the order of R211. -/
def checks (cap zero legal space : Bool) : Checked :=
  if cap then .stop stCapacity else if zero then .noop else if !legal then .stop stIllegal
  else if !space then .stop stCapacity else .go

/-- Rows of a fixed range are accepted. -/
def rowsOk (a pitch len n : Nat) : Bool := (List.range n).all (fun r => spanOk (a + r * pitch) len)

def copyCheck (w : Cmd) : Checked :=
  let rows := fld w 175 162
  let len := fld w 161 144
  checks (fld w 189 176 < rows) (rows = 0 || len = 0)
    (rowsOk (aSrc w) (fld w 208 190) len rows && ((queueOf (aDst w)).isSome || rowsOk (aDst w) (fld w 227 209) len rows)) true

def copyPlan (w : Cmd) : Plan :=
  { rows := fld w 175 162, len := fun _ => fld w 161 144, src := fun r => aSrc w + r * fld w 208 190
    dst := fun r => some (aDst w + r * fld w 227 209), queue := queueOf (aDst w) }

def gcopyCheck (w : Cmd) : Checked :=
  let len := fld w 167 144
  checks (fld w 191 168 < len) (len = 0)
    (regionOf (aSrc w) = .tier && decide (aSrc w + len ≤ 0x20000000000000) && aSrc w % 64 = 0 && len % 64 = 0 &&
      ((queueOf (aDst w)).isSome || (aDst w % 64 = 0 && spanOk (aDst w) len))) true

/-- GCOPY moves one row, or fills queue entries one after another (R225). -/
def gcopyPlan (k : Core) (w : Cmd) : Plan :=
  let len := fld w 167 144
  match queueOf (aDst w) with
  | none => { rows := 1, len := fun _ => len, src := fun _ => aSrc w, dst := fun _ => some (aDst w), guard := some (fld w 220 197) }
  | some qi =>
    let e := max 64 ((k.opq qi).entry.toNat * 64)
    { rows := ceilDiv len e, len := fun r => min e (len - r * e), src := fun r => aSrc w + r * e
      dst := fun _ => some 0, queue := some qi, guard := some (fld w 220 197) }

/-- Adjacent core of NEIGHBOUR, where it lies in the grid. -/
def neighbourOf (c dir : Nat) : Option Nat :=
  let x := coreX c
  let y := coreY c
  match dir with
  | 0 => if y = 0 then none else some (coreAt x (y - 1))
  | 1 => if 19 ≤ y then none else some (coreAt x (y + 1))
  | 2 => if 47 ≤ x then none else some (coreAt (x + 1) y)
  | _ => if x = 0 then none else some (coreAt (x - 1) y)

/-- SRC + DOFF, where it is not below zero. -/
def neighbourDst (w : Cmd) : Option Nat :=
  let v : Int := (fld w 52 32 : Int) + signed 21 (fld w 73 53)
  if v < 0 then none else some v.toNat

def neighbourCheck (c : Nat) (w : Cmd) : Checked :=
  let rows := fld w 107 94
  let len := fld w 93 76
  let d := (neighbourDst w).getD 0
  checks (fld w 121 108 < rows) (rows = 0 || len = 0)
    ((neighbourOf c (fld w 75 74)).isSome && (neighbourDst w).isSome && !cBdst w)
    ((List.range rows).all (fun r => inSlabSpace (fld w 52 32 + r * fld w 140 122) len && inSlabSpace (d + r * fld w 159 141) len))

def neighbourPlan (c : Nat) (w : Cmd) : Plan :=
  { rows := fld w 107 94, len := fun _ => fld w 93 76, src := fun r => slabKey c (fld w 52 32 + r * fld w 140 122)
    dst := fun r => some (slabKey ((neighbourOf c (fld w 75 74)).getD 0) ((neighbourDst w).getD 0 + r * fld w 159 141)) }

/-! ### GATHER and SCATTER (R218) -/

def itemBytes (w : Cmd) : Nat := (fld w 230 225 + 1) * 64

def gatherCheck (w : Cmd) : Checked :=
  let n := fld w 182 165
  let ib := itemBytes w
  let gather := cOpc w = 0x53
  let fixed := if gather then aDst w else aSrc w
  checks (fld w 200 183 < n) (n = 0)
    (aSrc w % 64 = 0 && ((gather && (queueOf (aDst w)).isSome) || aDst w % 64 = 0) && fld w 164 144 % 64 = 0 &&
      ((gather && (queueOf (aDst w)).isSome) || spanOk fixed (n * ib)) &&
      (gather || (queueOf (aDst w)).isNone))
    (inSlabSpace (fld w 164 144) (4 * n))

/-- Item i: its index as read from the core's slabs, and whether it can be read. -/
def itemIndex (s : State) (c ctx : Nat) (w : Cmd) (i : Nat) : Option Nat × State :=
  let r := s.engRead c ctx (fld w 164 144 + 4 * i) 4
  (if r.st = stOk then some (leNat r.data) else none, r.s)

/-- A failed item: that of a GATHER has the whole of its destination written poisoned (R213). -/
def failItem (m : Mover) (gather : Bool) (qi : Option Nat) (dst n : Nat) (s : State) (p next : Progress) : Move :=
  if !gather then .ok s next
  else
    match blocked s m true dst n with
    | some s => .block s p []
    | none =>
      match placesOf (s.core m.c).tlbAcc m.ctx true (piecesOf dst n) with
      | .all ds => .ok ((writePlaces m.c m.ctx (List.replicate n 0) dst true s ds (0, 0)).2.pushTail m.c qi) next
      | _ => .ok s next

/-- The next item of a GATHER or SCATTER (R218). -/
def moveItem (m : Mover) (s : State) (p : Progress) : Move :=
  let w := m.q.w
  let i := p.rows.toNat
  let ib := itemBytes w
  let gather := cOpc w = 0x53
  let next (p : Progress) : Progress := { p with rows := p.rows + 1, bytes := 0 }
  let fail (p : Progress) : Progress := { p with bitmap := p.bitmap ||| BitVec.ofNat 32 (2 ^ (i % 32)) }
  let qi := if gather then queueOf (aDst w) else none
  let o : OpQueue := match qi with
    | some q => (s.core m.c).opq q
    | none => {}
  if qi.isSome && (o.count = 0 || decide (o.entry.toNat * 64 < ib)) then .stop s stIllegal 0
  else if qi.isSome && decide (o.count.toNat ≤ o.occ) then .block s p [1]
  else
    let dg := match qi with
      | some _ => slabKey m.c (o.entryAddr o.tail.toNat)
      | none => aDst w + i * ib
    match itemIndex s m.c m.ctx w i with
    | (none, s) => failItem m gather qi dg ib s p (next (fail p))
    | (some ix, s) =>
      if ix = 0xFFFFFFFF then .ok s (next p)
      else
        let far := (if gather then aSrc w else aDst w) + ix * fld w 224 201 * 64
        if !spanOk far ib then failItem m gather qi dg ib s p (next (fail p))
        else
          let x : Plan := { rows := 1, len := fun _ => ib, src := fun _ => if gather then far else aSrc w + i * ib
                            dst := fun _ => none, part := fun _ => some (i % 32) }
          match moveWhole m x 0 (if gather then dg else far) s p with
          | .ok s p => .ok (s.pushTail m.c qi) (next p)
          | z => z

/-- The items of a GATHER or SCATTER from the next one on. -/
def moveItems (m : Mover) (s : State) (p : Progress) : Nat → Move
  | 0 => .ok s p
  | f + 1 =>
    if fld m.q.w 182 165 ≤ p.rows.toNat then .ok s p
    else
      match moveItem m s p with
      | .ok s p => moveItems m s p f
      | z => z

/-! ### SKEWC and TSKEWC (R215 to R217) -/

/-- Element size in bits, elements per K-step, lane bytes and granule by ESIZE (Table 08-8). -/
def skE (w : Cmd) : Nat := if bit w 255 then 8 else if bit w 254 then 6 else [4, 8, 16, 32].getD (fld w 253 252) 8
def skU (w : Cmd) : Nat := [4, 2, 1, 1].getD (fld w 253 252) 1
def skG (w : Cmd) : Nat := if fld w 253 252 = 3 then 4 else 2
def skGranule (w : Cmd) : Nat := if fld w 253 252 = 3 then 16 else 32
def skR (w : Cmd) : Nat := rowsOfCode (fld w 251 250)

/-- Elements of a source row along K. -/
def skN (w : Cmd) : Nat := if bit w 255 then fld w 161 144 else skU w * fld w 161 144

def skStreams (w : Cmd) : Nat := ceilDiv (fld w 175 162) (skR w)

/-- Bytes of one stream. -/
def skBytes (w : Cmd) : Nat := if bit w 255 then skR w * fld w 161 144 else fld w 161 144 * skR w * skG w

/-- Source rows: address and length. -/
def skSources (w : Cmd) : List (Nat × Nat) :=
  let rows := fld w 175 162
  if cOpc w = 0x51 then (List.range rows).map (fun m => (aSrc w + m * fld w 208 190, ceilDiv (skN w * skE w) 8))
  else (List.range (skN w)).map (fun k => (aSrc w + k * fld w 208 190, ceilDiv (rows * skE w) 8))

def skewCheck (w : Cmd) : Checked :=
  let rows := fld w 175 162
  let kt := fld w 161 144
  checks (fld w 189 176 < rows) (rows = 0 || kt = 0)
    ((bit w 255 || kt % skGranule w = 0) && (skSources w).all (fun r => spanOk r.1 r.2) &&
      ((queueOf (aDst w)).isSome || rowsOk (aDst w) (fld w 227 209) (skBytes w) (skStreams w))) true

/-- What a skewed element comes from: 0 sound bytes, 1 poisoned ones, 2 bytes that were refused. -/
def SkSrc.worst (x : SkSrc) (a b : Nat) : Nat :=
  ((x.bad.filter (fun p => decide (p.1 ≤ b ∧ a < p.1 + p.2.1))).map (fun p => p.2.2)).foldl max 0

/-- Bits of element k of source row m, and what it comes from. -/
def skElem (w : Cmd) (x : SkSrc) (m k : Nat) : Nat × Nat :=
  let t := cOpc w = 0x52
  let row := if t then k else m
  let bitAt := (if t then m else k) * skE w
  let v := leNat (((x.rows.getD row []).drop (bitAt / 8)).take 5) / 2 ^ (bitAt % 8) % 2 ^ skE w
  let a := aSrc w + row * fld w 208 190
  (v, x.worst (a + bitAt / 8) (a + (bitAt + skE w - 1) / 8))

/-- Lane of K-step s of row m of the source: its value and what it comes from. -/
def skLane (w : Cmd) (x : SkSrc) (m s : Nat) : Nat × Nat :=
  if fld w 175 162 ≤ m then (0, 0)
  else
    let es := (List.range (skU w)).map (fun e => skElem w x m (skU w * s + e))
    let eb := if skE w = 6 then 8 else skE w
    (packElems eb (es.map (·.1)), (es.map (·.2)).foldl max 0)

/-- The bytes of stream j, each with what it comes from (R64, R68). -/
def skStream (w : Cmd) (x : SkSrc) (j : Nat) : List (Byte × Nat) :=
  let r := skR w
  let lanes : List (Nat × Nat × Nat) := if bit w 255 then
      (List.range (r * fld w 161 144)).map (fun i =>
        let m := j * r + i % r
        if fld w 175 162 ≤ m then (1, 0, 0) else let e := skElem w x m (i / r); (1, e.1, e.2))
    else
      let kt := fld w 161 144
      let f := 32 / r
      (List.range (kt * r)).map (fun i =>
        let q := i / 32 * f + i % 32 / r
        let l := i % r
        let v := skLane w x (j * r + l) ((q + kt - l % kt) % kt)
        (skG w, v.1, v.2))
  (lanes.map (fun v => (natLe v.1 v.2.1).map (fun b => (b, v.2.2)))).flatten

/-- Reads one source row. -/
def skRow (m : Mover) (s : State) (a n : Nat) (x : SkSrc) : SkSrc × State :=
  match placesOf (s.core m.c).tlbAcc m.ctx false (piecesOf a n) with
  | .all ps =>
    let r := ps.foldl (fun (r : SkSrc × List Byte × State) p =>
      let d := r.2.2.getPlace m.c m.ctx p.2.2 p.2.1
      let code := if d.st = stIllegal || d.st = stPathLost then 2 else 1
      let x := if d.st = stOk then r.1 else
        { r.1 with bad := (p.1, p.2.1, code) :: r.1.bad, bits := r.1.bits ||| 2 ^ r.2.2.partBit p.2.2 }
      (x, r.2.1 ++ d.data, d.s)) (x, [], s)
    ({ r.1 with rows := r.1.rows ++ [r.2.1] }, r.2.2)
  | _ => ({ x with rows := x.rows ++ [List.replicate n 0] }, s)

/-- Reads every source row, once all of them are translated, or finds what blocks one (R212). -/
def skRead (m : Mover) (s : State) (l : List (Nat × Nat)) : State ⊕ (SkSrc × State) :=
  match l.findSome? (fun p => blocked s m false p.1 p.2) with
  | some s => .inl s
  | none => .inr (l.foldl (fun r p => skRow m r.2 p.1 p.2 r.1) ({}, s))

/-- Writes a stream from an address on in 64-byte granules; one that takes a byte whose source was
refused is not written. -/
def skWrite (m : Mover) (d : List (Byte × Nat)) (a : Nat) (s : State) (p : Progress) : Move :=
  match blocked s m true a d.length with
  | some s => .block s p []
  | none =>
    match placesOf (s.core m.c).tlbAcc m.ctx true (piecesOf a d.length) with
    | .all ps =>
      let r := ps.foldl (fun (r : Nat × Nat × State) q =>
        let bs := (d.drop (q.1 - a)).take q.2.1
        let code := (bs.map (·.2)).foldl max 0
        if code = 2 then r
        else
          let w := writePlaces m.c m.ctx (bs.map (·.1)) q.1 (code = 1) r.2.2 [q] (0, 0)
          (r.1 ||| w.1.1, (if code = 1 then r.2.1 else r.2.1 + w.1.2), w.2)) (0, 0, s)
      .ok ((r.2.2.count m.c (moveCounter (aSrc m.q.w) a) r.2.1).progress m.c 3 (ceilDiv r.2.1 64)) { p with bitmap := p.bitmap ||| BitVec.ofNat 32 r.1 }
    | _ => .stop s stIllegal 0

/-- Streams from the recorded progress on; with the last the source is let go. -/
def skStreamsFrom (m : Mover) (x : SkSrc) (s : State) (p : Progress) : Nat → Move
  | 0 => .ok s p
  | f + 1 =>
    let w := m.q.w
    let j := p.rows.toNat
    let next (p : Progress) : Progress := { p with rows := p.rows + 1 }
    if skStreams w ≤ j then .ok s { p with skew := none }
    else
      match queueOf (aDst w) with
      | none =>
        match skWrite m (skStream w x j) (aDst w + j * fld w 227 209) s p with
        | .ok s p => skStreamsFrom m x s (next p) f
        | z => z
      | some qi =>
        let o := (s.core m.c).opq qi
        if o.count = 0 || decide (o.entry.toNat * 64 < skBytes w) then .stop s stIllegal 0
        else if o.count.toNat ≤ o.occ then .block s p [1]
        else
          match skWrite m (skStream w x j) (slabKey m.c (o.entryAddr o.tail.toNat)) s p with
          | .ok s p => skStreamsFrom m x (s.pushTail m.c (some qi)) (next p) f
          | z => z

def runSkew (s : State) (m : Mover) : Move :=
  let p := m.q.prog
  match p.skew with
  | some x => skStreamsFrom m x s p (skStreams m.q.w + 1)
  | none =>
    match skRead m s (skSources m.q.w) with
    | .inl s => .block s p []
    | .inr (x, s) =>
      skStreamsFrom m x s { p with bitmap := p.bitmap ||| BitVec.ofNat 32 x.bits, skew := some x } (skStreams m.q.w + 1)

/-! ### MCAST (R219, R232, R233) -/

def mX0 (w : Cmd) : Nat := fld w 114 109
def mY0 (w : Cmd) : Nat := fld w 119 115
def mX1 (w : Cmd) : Nat := fld w 125 120
def mY1 (w : Cmd) : Nat := fld w 130 126

def mcastCheck (w : Cmd) : Checked :=
  let rows := fld w 162 149
  let len := fld w 148 131
  checks (fld w 176 163 < rows) (rows = 0 || len = 0)
    (decide (mX0 w ≤ mX1 w) && decide (mY0 w ≤ mY1 w) && decide (mX1 w ≤ 47) && decide (mY1 w ≤ 19) &&
      rowsOk (aSrc w) (fld w 195 177) len rows)
    ((List.range rows).all (fun r => inSlabSpace (fld w 108 88 + r * fld w 214 196) len))

/-- Cores of the rectangle, row by row. -/
def mcastCores (w : Cmd) : List Nat :=
  ((List.range (mY1 w + 1 - mY0 w)).map (fun dy => (List.range (mX1 w + 1 - mX0 w)).map (fun dx =>
    coreAt (mX0 w + dx) (mY0 w + dy)))).flatten

/-- Numbers from a to b in either direction, both ends included. -/
def between (a b : Nat) : List Nat := (List.range (max a b - min a b + 1)).map (· + min a b)

/-- Routers on the tree path from (xs, ys) to (x, y) (R232). -/
def mcastPath (w : Cmd) (xs ys x y : Nat) : List Nat :=
  let xc := min (max xs (mX0 w)) (mX1 w)
  let yc := min (max ys (mY0 w)) (mY1 w)
  (between xs xc).map (fun a => coreAt a ys) ++ (between ys yc).map (fun b => coreAt xc b) ++
  (between xc x).map (fun a => coreAt a yc) ++ (between yc y).map (fun b => coreAt x b)

/-- The path to a destination crosses a router out of service. -/
def State.mcastCut (s : State) (c : Nat) (w : Cmd) (d : Nat) : Bool :=
  (mcastPath w (coreX c) (coreY c) (coreX d) (coreY d)).any s.routerDown

/-- Writes one source chunk at every live destination of the rectangle. -/
def mcastChunk (m : Mover) (a : Nat) (d : List Byte) (poison : Bool) (s : State) (p : Progress) : State × Progress :=
  let w := m.q.w
  (mcastCores w).foldl (fun (r : State × Progress) k =>
    if !s.available k then r
    else
      let fail : Progress := { r.2 with bitmap := r.2.bitmap ||| BitVec.ofNat 32 (2 ^ (coreY k - mY0 w)) }
      let gone : Progress := { fail with gone := insertOnce r.2.gone k }
      if s.mcastCut m.c w k then (r.1, gone)
      else
        let x := r.1.copyToSlab k m.ctx a d poison
        if x.1 = stOk then
          ((x.2.count m.c (moveCounter (aSrc w) (slabKey k a)) (if poison then 0 else d.length)).progress m.c 3 1, if poison then fail else r.2)
        else (x.2, gone)) (s, p)

/-- Chunks of row r from the recorded byte on: each is read once. -/
def mcastRow (m : Mover) (r : Nat) (s : State) (p : Progress) : Nat → Move
  | 0 => .ok s p
  | f + 1 =>
    let w := m.q.w
    let len := fld w 148 131
    let o := p.bytes.toNat
    if len ≤ o then .ok s { p with bytes := 0 }
    else
      let n := min 64 (len - o)
      let ix := m.pIx s
      match placesOf (s.core m.c).tlbAcc m.ctx false (piecesOf (aSrc w + r * fld w 195 177 + o) n) with
      | .miss va => .block (s.missAcc m va false) p []
      | .denied va lv => .block (s.xltFaultAcc m.c m.q.slot.val m.q.off.toNat va false 3 lv ix.1 ix.2) p []
      | .bad => .stop s stIllegal 0
      | .all ss =>
        let g := readPlaces m.c m.ctx none s ss {}
        let all : Nat := 2 ^ (mY1 w + 1 - mY0 w) - 1
        let x := if g.1.refused then (g.2, { p with bitmap := p.bitmap ||| BitVec.ofNat 32 all, gone := mcastCores w })
          else mcastChunk m (fld w 108 88 + r * fld w 214 196 + o) g.1.data g.1.poison g.2 p
        mcastRow m r x.1 { x.2 with bytes := BitVec.ofNat 32 (o + n) } f

def mcastRows (m : Mover) (s : State) (p : Progress) : Nat → Move
  | 0 => .ok s p
  | f + 1 =>
    let r := p.rows.toNat
    if fld m.q.w 162 149 ≤ r then .ok s p
    else
      match mcastRow m r s p (fld m.q.w 148 131 / 64 + 2) with
      | .ok s p => mcastRows m s { p with rows := p.rows + 1, bytes := 0 } f
      | z => z

/-- Destinations whose acknowledgements are awaited: live, and none of those that have failed. -/
def State.mcastLive (s : State) (w : Cmd) (p : Progress) : List Nat :=
  (mcastCores w).filter (fun k => s.available k && !p.gone.contains k)

/-! ### Running one command of the copy kind -/

/-- The checks of R211 for an opcode. -/
def moveChecks (c : Nat) (w : Cmd) : Checked :=
  match cOpc w with
  | 0x50 => copyCheck w
  | 0x51 => skewCheck w
  | 0x52 => skewCheck w
  | 0x53 => gatherCheck w
  | 0x54 => gatherCheck w
  | 0x55 => mcastCheck w
  | 0x56 => neighbourCheck c w
  | _ => gcopyCheck w

/-- Moves the data of a command from its recorded progress on. -/
def runMove (s : State) (m : Mover) : Move :=
  let w := m.q.w
  match cOpc w with
  | 0x50 => runPlan s m (copyPlan w)
  | 0x51 => runSkew s m
  | 0x52 => runSkew s m
  | 0x53 => moveItems m s m.q.prog (fld w 182 165 + 1)
  | 0x54 => moveItems m s m.q.prog (fld w 182 165 + 1)
  | 0x55 => mcastRows m s m.q.prog (fld w 162 149 + 1)
  | 0x56 => runPlan s m (neighbourPlan m.c w)
  | _ => runPlan s m (gcopyPlan (s.core m.c) w)

/-- Final status of a movement (R213, R214). -/
def moveStatus (opc : Nat) (p : Progress) : BitVec 8 × BitVec 32 :=
  if p.bitmap ≠ 0 then (stPartial, if p.newer && (opc = 0x57 || opc = 0x58) then p.bitmap ||| 0x80000000 else p.bitmap)
  else if p.newer then (stSrcChanged, 0)
  else (stOk, 0)

def QEnt.moved' (q : QEnt) (p : Progress) (await : List Nat) : QEnt :=
  let r := moveStatus (cOpc q.w) p
  { q with prog := p, status := r.1, bitmap := r.2, await := await }

/-- Start or continuation of a command of the copy kind at the head of the queue. -/
def startMove (s : State) (c : Nat) (q : QEnt) : Start :=
  match moveChecks c q.w with
  | .stop st => .stop s st
  | .noop => .fin s q
  | .go =>
    match runMove s { c := c, ctx := s.ctxOf c q.slot.val, q := q } with
    | .ok s p => .go s (q.moved' p (if cOpc q.w = 0x55 then (s.mcastLive q.w p).map (· + 2) else []))
    | .block s p aw => .hold s { q with prog := p, await := aw }
    | .stop s st d => .stop s st d

/-! ### Outstanding writes and reads (R99, R210, R224) -/

/-- Slab ranges, by device address, that an access command in execution still writes: the rows of a
GET, the entries of a DREAD, the old value of an ATOMIC. -/
def writesLeft (c : Nat) (q : QEnt) : List (Nat × Nat) :=
  let w := q.w
  if q.await.isEmpty then []
  else if cOpc w = 0x61 && (queueOf (fbLocal w)).isNone then
    (List.range (fbRows w)).map (fun r => (fbLocal w + r * fbLPitch w, fbLen w))
  else if cOpc w = 0x62 && bit w 247 then [(slabKey c (fld w 246 226), 8)]
  else if cOpc w = 0x6B then [(slabKey c (fld w 74 54), 1280)]
  else []

/-- Ranges by device address that an access command reads: those of a gather run over every item that it
can name. -/
def readsOf (c : Nat) (w : Cmd) : List (Nat × Nat) :=
  let rows (a p n len : Nat) : List (Nat × Nat) := (List.range n).map (fun r => (a + r * p, len))
  match cOpc w with
  | 0x50 => rows (aSrc w) (fld w 208 190) (fld w 175 162) (fld w 161 144)
  | 0x51 => skSources w
  | 0x52 => skSources w
  | 0x53 => [(aSrc w, 2 ^ 32 * fld w 224 201 * 64 + itemBytes w), (slabKey c (fld w 164 144), 4 * fld w 182 165)]
  | 0x54 => [(aSrc w, fld w 182 165 * itemBytes w), (slabKey c (fld w 164 144), 4 * fld w 182 165)]
  | 0x55 => rows (aSrc w) (fld w 195 177) (fld w 162 149) (fld w 148 131)
  | 0x56 => rows (slabKey c (fld w 52 32)) (fld w 140 122) (fld w 107 94) (fld w 93 76)
  | 0x57 => [(aSrc w, fld w 167 144)]
  | 0x60 => rows (fbLocal w) (fbLPitch w) (fbRows w) (fbLen w)
  | 0x63 => [(fbLocal w, fbLen w)]
  | 0x68 => [(slabKey c (fld w 74 54), 1280)]
  | _ => []

/-- Two ranges meet in a 64-byte granule. -/
def granulesMeet (x y : Nat × Nat) : Bool :=
  decide (x.1 / 64 * 64 < y.1 + y.2) && decide (y.1 / 64 * 64 < x.1 + x.2)

/-- A command at the head of the access queue waits: a tile load before it has not read all of its
rows, or it reads a granule that an earlier command still writes. -/
def Core.hazard (k : Core) (c : Nat) (w : Cmd) : Bool :=
  (k.run 3).any (fun q => (cOpc q.w = 0x58 && !q.await.isEmpty && decide (cOpc w ≠ 0x58)) ||
    (writesLeft c q).any (fun x => (readsOf c w).any (granulesMeet x)))

/-- A GET with answers outstanding fills an operand queue. -/
def Core.feeds (k : Core) (qi : Nat) : Bool :=
  (k.run 3).any (fun q => cOpc q.w = 0x61 && !q.await.isEmpty && queueOf (fbLocal q.w) = some qi)

/-! ### QCFG (R224) -/

def startQcfg (s : State) (c : Nat) (q : QEnt) : Start :=
  let w := q.w
  let qi := fld w 75 73
  let o := (s.core c).opq qi
  let n := fld w 70 60
  if !inSlabSpace (fld w 52 32) (n * fld w 59 53 * 64) then .stop s stCapacity
  else if if bit w 76 then (s.core c).feeds qi else decide (o.occ ≠ 0) then .wait s
  else
    let s := if bit w 76 && decide (o.occ ≠ 0) then
        let ws := ((List.range o.occ).map (fun i => wordsOf (o.entryAddr (o.head.toNat + i)) (o.entry.toNat * 64))).flatten
        s.dropUnread c (fun x => ws.contains x)
      else s
    let n' : OpQueue :=
      { base := BitVec.ofNat 21 (fld w 52 32), entry := BitVec.ofNat 7 (fld w 59 53), count := BitVec.ofNat 11 n
        consumer := BitVec.ofNat 2 (fld w 72 71) }
    .go (s.modCore c (fun k => { k with opqs := KV.put {} k.opqs qi n' })) q

/-! ### TLOAD (R146 to R149, R222) -/

def tlV (w : Cmd) : Bool := bit w 112
def tlFmt (w : Cmd) : Nat := fld w 120 117
def tlRows (w : Cmd) : Nat := if tlV w then vRows (tlFmt w) else [32, 16, 8, 1].getD (fld w 122 121) 32
/-- Lane bytes of an X register. -/
def tlLane (w : Cmd) : Nat := if tlFmt w = 0 then 4 else 2
/-- Bytes of a row in the register and in the source. -/
def tlRowBytes (w : Cmd) : Nat := if tlV w then 4096 / tlRows w else fld w 133 123 * tlLane w
def tlSrcBytes (w : Cmd) : Nat :=
  if !tlV w && (tlFmt w = 7 || tlFmt w = 8) then ceilDiv (fld w 133 123 * 12) 8 else tlRowBytes w
def tlTagIx (w : Cmd) : Nat := if tlV w then tagV (fld w 116 113) else tagX (fld w 116 113)

def tlTag (w : Cmd) (valid : Nat) (loading : Bool) : BitVec 128 :=
  if tlV w then mkTag 2 (tlFmt w) (tlRows w) (vCols (tlFmt w)) valid loading
  else mkTag 0 (tlFmt w) (tlRows w) (fld w 133 123) valid loading (scv := bit w 134) (sbase := fld w 155 135)

def tlCheck (w : Cmd) : Checked :=
  let src := aSrc w
  let p := fld w 111 88
  checks (!tlV w && decide (2048 < tlRows w * fld w 133 123 * tlLane w)) false
    (src % 64 = 0 && (tlRows w = 1 || p % 64 = 0) && rowsOk src p (tlSrcBytes w) (tlRows w) &&
      (!bit w 156 || (List.range (tlRows w)).all (fun r =>
        regionOf (src + r * p) = .tier && decide (src + r * p + tlSrcBytes w ≤ 0x20000000000000)))) true

/-- TLOAD starts: its destination is in use and loading (R146). A load that resumes keeps its
rows (R148). -/
def startTload (s : State) (c : Nat) (q : QEnt) : Start :=
  let w := q.w
  let k := s.core c
  let t := k.tag (tlTagIx w)
  match tlCheck w with
  | .stop st => .stop s st
  | .noop => .fin s q
  | .go =>
    if q.notify then .go s { q with await := [1] }
    else if tLoading t then .stop s stIllegal
    else
      .go (s.modCore c (fun k =>
        let k := k.setTag (tlTagIx w) (tlTag w 0 true)
        if tlV w then k else k.dropLatch (fld w 116 113))) { q with await := [1], notify := true }

/-- Expands packed MXFP6 elements to bytes (R59). -/
def expand6 (d : List Byte) (n : Nat) : List Byte :=
  (List.range n).map (fun i => BitVec.ofNat 8 (leNat d / 2 ^ (6 * i) % 64))

/-- Writes row r of the destination register. -/
def Core.tlWrite (k : Core) (w : Cmd) (r : Nat) (d : List Byte) : Core :=
  let n := fld w 116 113
  if tlV w then
    let b := tlRowBytes w
    { k.renew (tagV n) (fun i => decide (32 * i + 32 ≤ b * r) || decide (b * r + b ≤ 32 * i)) with
      vregs := KV.put 0 k.vregs n (setFld (k.vreg n) (8 * (b * r + b) - 1) (8 * b * r) (leNat d)) }
  else
    let o := r * (2048 / tlRows w)
    { k.renew (tagX n) (fun i => decide (32 * i + 32 ≤ o) || decide (o + tlRowBytes w ≤ 32 * i)) with
      xregs := KV.put 0 k.xregs n (setFld (k.xreg n) (8 * (o + tlRowBytes w) - 1) (8 * o) (leNat d)) }

/-- The next row of a tile load arrives; what it comes to for the entry. -/
def tloadRow (s : State) (m : Mover) : Move ⊕ (State × QEnt) :=
  let q := m.q
  let w := q.w
  let t := (s.core m.c).tag (tlTagIx w)
  let r := tRowsValid t
  let src := aSrc w + r * fld w 111 88
  let ix := m.pIx s
  match placesOf (s.core m.c).tlbAcc m.ctx false (piecesOf src (tlSrcBytes w)) with
  | .miss va => .inl (.block (s.missAcc m va false) q.prog [1])
  | .denied va lv => .inl (.block (s.xltFaultAcc m.c q.slot.val q.off.toNat va false 3 lv ix.1 ix.2) q.prog [1])
  | .bad => .inl (.stop s stIllegal 0)
  | .all ps =>
    let g := readPlaces m.c m.ctx (if bit w 156 then some (fld w 180 157) else none) s ps {}
    let d := if !tlV w && (tlFmt w = 7 || tlFmt w = 8) then expand6 g.1.data (tlRowBytes w) else g.1.data
    let last := decide (tlRows w ≤ r + 1)
    let tag := setBit (setFld (setBit t 1 (!last)) 31 26 (r + 1)) 18 (tPoison t || decide (g.1.bits ≠ 0))
    let s := g.2.modCore m.c (fun k => ((if g.1.refused then k else k.tlWrite w r d)).setTag (tlTagIx w) tag)
    let p := { q.prog with bitmap := q.prog.bitmap ||| BitVec.ofNat 32 g.1.bits, newer := q.prog.newer || g.1.newer }
    let s := (s.count m.c (moveCounter src 0) (if g.1.bits = 0 then tlRowBytes w else 0)).progress m.c 3 (ceilDiv (tlRowBytes w) 64)
    .inr (s, q.moved' p (if last then [] else [1]))

/-! ### Access programs (R227, R228) -/

/-- The command of a program, resolved for an iteration with the slot's registers; none where R227 or
the slot's masks refuse it (R108, R113). -/
def programCmd (x : Slot) (w : Cmd) (ap : Cmd) (iter : Nat) : Option Cmd :=
  let o := cOpc w
  let info : OpInfo := match o with
    | 0x50 => copyInfo
    | 0x51 => skewInfo
    | 0x52 => skewInfo
    | 0x53 => gatherInfo
    | 0x54 => gatherInfo
    | 0x55 => mcastInfo
    | 0x56 => neighbourInfo
    | _ => gcopyInfo
  let b : BitVec 64 := BitVec.ofNat 64 (fld ap 145 82 + iter * fld ap 209 146)
  let fs := if cBdst w then (match info.dst with | some f => [f] | none => []) else info.base
  let v := info.sels.foldl (fun w y => applySel x.sreg w y) w
  let r := if cBren w then setFld (fs.foldl (fun u f => setFld u f.1 f.2 (b.toNat + fld v f.1 f.2)) v) 18 18 0 else v
  if decide (o < 0x50) || decide (0x57 < o) || cWen w || decide (cStsel w ≠ 0) || decide (cBreg w ≠ 0) ||
      !(info.form w && info.within x.hdr r) then none
  else some r

/-- Where a program stands after a command. -/
def Program.next (p : Program) (opc : Nat) : Program :=
  let st := moveStatus opc p.ent.prog
  let len := fld p.ent.w 65 53
  let wrap := decide (len ≤ p.index.toNat + 1)
  { p with
    ent := { p.ent with prog := {}, await := [] }
    cmd := none
    index := if wrap then 0 else p.index + 1
    iter := if wrap then p.iter + 1 else p.iter
    bitmap := p.bitmap ||| st.2
    changed := p.changed || st.1 = stSrcChanged }

/-- A token post by a program command and its addition to a counter, whose incarnation is the one
recorded when the program reached the command; none where the post does not fit. -/
def State.programPost (s : State) (c : Nat) (ap : QEnt) (w : Cmd) (inc : BitVec 8) : Option State :=
  ((s.slot c ap.slot.val).posted w).map (fun x =>
    let s := if cPen w then s.setSlot c ap.slot.val x else s
    match cenIndex w with
    | some i => { s with sync := { s.sync with adds := s.sync.adds ++
        [{ index := BitVec.ofNat 16 i, inc := inc, ctx := (s.slot c ap.slot.val).ctx }] } }
    | none => s)

/-- The slot of an access program stops at its current command. -/
def State.stopProgram (s : State) (c : Nat) (p : Program) (st : BitVec 8) (d : Nat) : State :=
  s.stopSlot c p.ent.slot.val st { engine := 3, off := p.ent.off.toNat, detail := d, pidx := p.index.toNat, piter := p.iter.toNat }

def State.saveProgram (s : State) (c : Nat) (p : Program) : State :=
  s.modCore c (fun k => { k with program := some p })

/-- A command of an access program has completed: its posts, and the next command. -/
def State.programAdvance (s : State) (c : Nat) (p : Program) (w : Cmd) (inc : BitVec 8) : State :=
  match s.programPost c p.ent w inc with
  | none => s.stopProgram c p stIllegal 0
  | some s => (s.saveProgram c (p.next (cOpc w))).progress c 3 1

/-- What a command of an access program comes to: the program runs on, or rests. -/
inductive Stepped where
  | on (s : State)
  | rest (s : State)

/-- The command that a program has reached: as it was read, or read now, resolved, with the
incarnation of its completion counter; a command that cannot be read or is refused stops the slot. -/
def State.programReach (s : State) (c : Nat) (p : Program) : State ⊕ (Cmd × BitVec 8 × State) :=
  match p.cmd with
  | some y => .inr (y.1, y.2, s)
  | none =>
    let x := s.slot c p.ent.slot.val
    let a := fld p.ent.w 52 32 + 32 * p.index.toNat
    if !inSlabSpace a 32 then .inl (s.stopProgram c p stCapacity 0)
    else
      let r := s.engRead c x.ctx.toNat a 32
      if r.st ≠ stOk then .inl (r.s.stopProgram c p r.st (if r.st = stIllegal then 0 else r.s.eccDetail c [(a, 32)]))
      else
        match programCmd x (BitVec.ofNat 256 (leNat r.data)) p.ent.w p.iter.toNat with
        | none => .inl (r.s.stopProgram c p stIllegal 0)
        | some w => .inr (w, (match cenIndex w with | some i => (s.syncEnt i).inc | none => 0), r.s)

/-- One command of the access program of a core, or its end, and whether the program runs on (R227). -/
def State.programStep (s : State) (c : Nat) : Stepped :=
  let k := s.core c
  match k.program with
  | none => .rest s
  | some p =>
    let sl := p.ent.slot.val
    let x := k.slot sl
    if k.xltAcc || k.down 3 || !p.ent.await.isEmpty || x.accessOut then .rest s
    else if fld p.ent.w 81 66 ≤ p.iter.toNat then
      let q := { p.ent with status := if p.bitmap ≠ 0 then stPartial else if p.changed then stSrcChanged else stOk
                            bitmap := p.bitmap }
      .rest (s.modCore c (fun k => ({ k with program := none } : Core).setRun 3 (k.run 3 ++ [q])))
    else
      match s.programReach c p with
      | .inl s => .rest s
      | .inr (w, inc, s) =>
        let m : Mover := { c := c, ctx := x.ctx.toNat, q := { p.ent with w := w }, prog := true }
        let stay (s : State) (g : Progress) (aw : List Nat) : Stepped :=
          .rest (s.saveProgram c { p with cmd := some (w, inc), ent := { p.ent with prog := g, await := aw } })
        match moveChecks c w with
        | .stop st => .rest (s.stopProgram c p st 0)
        | .noop => .on (s.programAdvance c p w inc)
        | .go =>
          match runMove s m with
          | .stop s st d => .rest (s.stopProgram c p st d)
          | .block s g aw => stay s g aw
          | .ok s g =>
            let live := if cOpc w = 0x55 then s.mcastLive w g else []
            if live.isEmpty then .on (s.programAdvance c { p with ent := { p.ent with prog := g } } w inc)
            else stay s g (live.map (· + 2))

/-- Runs the access program of a core until it ends, stops or waits. -/
def State.runProgram (s : State) (c : Nat) : Nat → State
  | 0 => s
  | f + 1 =>
    match s.programStep c with
    | .on s => s.runProgram c f
    | .rest s => s

/-- Fuel that lets a program run to its end. -/
def programFuel (k : Core) : Nat :=
  match k.program with
  | some p => fld p.ent.w 65 53 * fld p.ent.w 81 66 + 2
  | none => 0

/-- Every destination of the program's MCAST has answered: the program goes on. -/
def State.programAcked (s : State) (c : Nat) : State :=
  match (s.core c).program with
  | none => s
  | some p =>
    let y := p.cmd.getD (0, 0)
    let s := s.programAdvance c p y.1 y.2
    s.runProgram c (programFuel (s.core c))

/-- Start of an access program, with the checks of R211 in their order. -/
def startAprog (s : State) (c : Nat) (q : QEnt) : Start :=
  let w := q.w
  if fld w 81 66 = 0 then .fin s q
  else if fld w 65 53 = 0 || decide (4096 < fld w 65 53) || decide (fld w 52 32 % 32 ≠ 0) then .stop s stIllegal
  else if !inSlabSpace (fld w 52 32) (32 * fld w 65 53) then .stop s stCapacity
  else if (s.core c).program.isSome then .wait s
  else .go (s.modCore c (fun k => { k with program := some { ent := q } })) q

end Sys2Proof.Machine
end

