-- ==== Sys2Proof/Machine/Damson.lean ====
section
/-! DEFINITION. Damson commands: descriptors, update parts and their arithmetic, answers
(R268 to R285, R487). -/

namespace Sys2Proof.Machine

/-! ### Fields (Table 10-8) -/

def dsetInfo : OpInfo := { engine := 3, rsv := [(255, 77)], base := [(74, 54)], legal := fun w => !cBdst w }

def dreadInfo : OpInfo :=
  { engine := 3, rsv := [(255, 75)], dst := some (74, 54), legal := fun w => cBdst w }

def dupdInfo : OpInfo :=
  { engine := 3, rsv := [(255, 241)], dst := some (240, 220), legal := fun w => cBdst w
    sels := [{ hi := 123, lo := 60, shi := 59, slo := 55 }] }

def dnormInfo : OpInfo :=
  { dupdInfo with rsv := [(255, 241), (155, 124), (219, 204), (54, 54)] }

def isDamson (w : Cmd) : Bool := decide (0x68 ≤ cOpc w) && decide (cOpc w ≤ 0x6B)
/-- Damsons named in DMASK. -/
def dmNamed (w : Cmd) : List Nat := (List.range 10).filter (fun k => fld w 41 32 / 2 ^ k % 2 = 1)
def dmGroup (w : Cmd) : Nat := fld w 53 42
def dmBase (w : Cmd) : Nat := if cOpc w = 0x68 || cOpc w = 0x6B then fld w 74 54 else fld w 240 220
def dmEntry (w : Cmd) : Nat := if cOpc w = 0x69 then 32 else 128
def dmStep (w : Cmd) : Nat := fld w 123 60

/-! ### DSET and DREAD (R269, R270, R272) -/

/-- Byte ranges of the used regions (R270). -/
def gRegions (g : BitVec 1024) : List (Nat × Nat) :=
  let n := gCount g
  let wc (b : Nat) : List (Nat × Nat) :=
    (b, gWcSize g * n) :: (if gIsMx g then [(gScale g b, n / 32)] else [])
  [(gW g, 4 * n), (gM g, gMom g * n), (gG g, gElem g * n)] ++ (if gUsesV g then [(gV g, gMom g * n)] else []) ++
    (if gWcFmt g = 0 then [] else wc (gByte g 64 8) ++ wc (gByte g 72 8)) ++
    (if bit g 13 then [(gMask g, ceilDiv n 8)] else [])

/-- No two ranges of a list share a byte. -/
def disjoint : List (Nat × Nat) → Bool
  | [] => true
  | x :: l => l.all (fun y => decide (x.1 + x.2 ≤ y.1 ∨ y.1 + y.2 ≤ x.1)) && disjoint l

/-- The checks of R270 on an image with VALID set, in a window of `limit` bytes. -/
def imageOk (limit : Nat) (g : BitVec 1024) : Bool :=
  let n := gCount g
  fld g 15 14 = 0 && gByte g 2 2 = 0 && decide (fld g 7 6 ≠ 3) && decide (gWcFmt g ≤ 5) &&
  decide (1 ≤ n) && decide (n < 2 ^ 40) && (!gIsMx g || n % 32 = 0) &&
  [32, 40, 48, 56, 64, 72].all (fun b => gByte g b 8 % 256 = 0) && gMask g % 32 = 0 &&
  (!bit g 3 || gRule g = 0) && (gUsesV g || gV g = 0) &&
  (gRegions g).all (fun r => decide (r.1 + r.2 ≤ limit)) && disjoint (gRegions g)

/-- NF clear and GMAX +0. -/
def clearMonitor (g : BitVec 1024) : BitVec 1024 := setFld (setFld g (8 * 112) (8 * 112) 0) (8 * 112 - 1) (8 * 104) 0

/-- The group after a DSET, none where the image is refused. -/
def dsetGroup (limit : Nat) (old image : BitVec 1024) (w : Cmd) : Option (BitVec 1024) :=
  if bit w 75 then some (clearMonitor old)
  else if !bit image 0 then some (setFld old 0 0 0)
  else if !imageOk limit image then none
  else
    let g := setFld image 1023 (8 * 104) 0
    some (if bit w 76 then setFld g 127 64 (gByte old 8 8) else g)

/-- Size of the window of a Damson, zero before the slow tier is ready. -/
def State.windowSize (s : State) : Nat := if s.tierReady then s.localSize else 0

def Damson.group (d : Damson) (n : Nat) : BitVec 1024 := KV.get 0 d.groups n

def Damson.setGroup (d : Damson) (n : Nat) (g : BitVec 1024) : Damson := { d with groups := KV.put 0 d.groups n g }

def Damson.answer (d : Damson) (p : Part) (st : BitVec 8) (data : Option (BitVec 1024)) : Damson :=
  if p.lost then d else { d with answers := d.answers ++ [{ core := p.core, id := p.id, status := st, data := data }] }

/-- A DSET or DREAD part runs. -/
def State.runDescr (s : State) (k : Nat) (d : Damson) (p : Part) : State :=
  let n := dmGroup p.w
  if cOpc p.w = 0x6B then s.setDam k (d.answer p stOk (some (d.group n)))
  else
    match dsetGroup s.windowSize (d.group n) p.image p.w with
    | none => s.setDam k (d.answer p stIllegal none)
    | some g => s.setDam k ((d.setGroup n g).answer p stOk none)

/-- DESCRIPTOR_PART_ARRIVAL: the first part whose group no update runs on (R282). -/
def State.descrArrival (s : State) (k : Nat) : State :=
  let d := s.dam k
  let free (p : Part) : Bool := match d.running with
    | none => true
    | some r => dmGroup r.part.w ≠ dmGroup p.w
  match d.inReset, d.descr.find? free with
  | false, some p => s.runDescr k { d with descr := d.descr.erase p } p
  | _, _ => s

def execDescriptorPartArrival (k : DamId) (s : State) : Host.Outcome State Fault Refusal :=
  .next (s.descrArrival k.val)

/-! ### Checks of an update part (Table 10-9) -/

def partCheck (g : BitVec 1024) (w : Cmd) : BitVec 8 :=
  let norm := cOpc w = 0x6A
  let ps := fp32.decode (fld w 187 156)
  let lamb := gRule g = 3
  let gmax := fp64.decode (gByte g 104 8)
  let p := if gElem g = 32 then fp64.mul gmax ps else gmax.mul ps
  if !bit g 0 || !(ps.isFin && nzero.lt ps) || (norm && !lamb) || (!norm && fld w 219 188 ≠ 0 && !lamb) then stIllegal
  else if bit g (8 * 112 + 1) then stPoison
  else if dmStep w = gByte g 8 8 then stDup
  else if dmStep w ≠ gByte g 8 8 + 1 then stStep
  else if bit g (8 * 112) || !(fp32.rnd p).isFin then stNonfinite
  else stOk

/-- Result entry (Table 10-10) with its two sums. -/
def entryOf (st : BitVec 8) (flags last step gmax w2 u2 : Nat) : BitVec 1024 :=
  BitVec.ofNat 1024 (pack [(8, st.toNat), (8, flags), (48, 0), (64, last), (64, step), (64, gmax), (256, 0),
    (256, w2), (256, u2)])

/-! ### Arithmetic (R275, R276) -/

/-- b^t, widened exactly to FP64, over the bits of t below bit n, highest first. -/
def pow64From (b : Num) (t : Nat) (r : Num) : Nat → Num
  | 0 => r
  | n + 1 =>
    let r := fp64.mul r r
    pow64From b t (if t / 2 ^ n % 2 = 1 then fp64.mul r b else r) n

def pow64 (b : Num) (t : Nat) : Num := pow64From b t (natNum 1) 64

/-- The constants of R275 with the descriptor's and the command's own. -/
structure Coef where
  rule : Nat
  nesterov : Bool
  b1 : Num
  b2 : Num
  eps : Num
  wd : Num
  lr : Num
  pre : Num
  cb1 : Num
  cb2 : Num
  lrwd : Num
  k1 : Num
  kb1 : Num
  k2 : Num
  lrt : Num

def coefOf (g : BitVec 1024) (w : Cmd) : Coef :=
  let b1 := fp32.decode (gByte g 88 4)
  let b2 := fp32.decode (gByte g 92 4)
  let wd := fp32.decode (gByte g 100 4)
  let lr := fp32.decode (fld w 155 124)
  let one := natNum 1
  let d1 := fp64.sub one (pow64 b1 (dmStep w))
  let d2 := fp64.sub one (pow64 b2 (dmStep w))
  { rule := gRule g, nesterov := bit g 3, b1 := b1, b2 := b2, eps := fp32.decode (gByte g 96 4), wd := wd, lr := lr
    pre := fp32.decode (fld w 187 156), cb1 := fp32.sub one b1, cb2 := fp32.sub one b2, lrwd := fp32.mul lr wd
    k1 := fp32.rnd (fp64.div lr d1), kb1 := fp32.rnd (fp64.div one d1), k2 := fp32.rnd (fp64.sqrt d2)
    lrt := fp32.mul lr (fp32.decode (fld w 219 188)) }

/-- New w, m and v of a parameter, the LAMB u, and whether a result was NaN or infinite. -/
structure Upd where
  w : Num
  m : Num
  v : Num := nzero
  u : Num := nzero
  odd : Bool
  deriving DecidableEq, Repr

def oddOf (l : List Num) : Bool := l.any (fun x => !x.isFin)

def updMsgd (x : Coef) (w b g : Num) : Upd :=
  let f := fp32
  let p := f.mul x.wd w
  let g' := if x.wd.isZero then g else f.add g p
  let p1 := f.mul x.b1 b
  let b' := f.add p1 g'
  let p2 := f.mul x.b1 b'
  let d := if x.nesterov then f.add g' p2 else b'
  let p3 := f.mul x.lr d
  let w' := f.sub w p3
  { w := w', m := b', odd := oddOf ([g', p1, b', d, p3, w'] ++ (if x.wd.isZero then [] else [p]) ++
      (if x.nesterov then [p2] else [])) }

/-- m and v after a gradient, with the intermediate results. -/
def moments (x : Coef) (m v g : Num) : Num × Num × List Num :=
  let f := fp32
  let a := f.mul x.b1 m
  let b := f.mul x.cb1 g
  let m' := f.add a b
  let c := f.mul x.b2 v
  let gg := f.mul g g
  let d := f.mul x.cb2 gg
  let v' := f.add c d
  (m', v', [a, b, m', c, gg, d, v'])

def updAdamw (x : Coef) (w m v g : Num) : Upd :=
  let f := fp32
  let r := moments x m v g
  let p := f.mul x.lrwd w
  let w1 := f.sub w p
  let q0 := f.sqrt r.2.1
  let q1 := f.div q0 x.k2
  let q := f.add q1 x.eps
  let t := f.div r.1 q
  let t1 := f.mul x.k1 t
  let w' := f.sub w1 t1
  { w := w', m := r.1, v := r.2.1, odd := oddOf (r.2.2 ++ [p, w1, q0, q1, q, t, t1, w']) }

def updLion (x : Coef) (w m g : Num) : Upd :=
  let f := fp32
  let a := f.mul x.b1 m
  let b := f.mul x.cb1 g
  let c := f.add a b
  let p := f.mul x.lrwd w
  let w1 := f.sub w p
  let w' := if c.isNan then .nan else if nzero.lt c then f.sub w1 x.lr else if c.lt nzero then f.add w1 x.lr else w1
  let d := f.mul x.b2 m
  let e := f.mul x.cb2 g
  let m' := f.add d e
  { w := w', m := m', odd := oddOf [a, b, c, p, w1, w', d, e, m'] }

def updLamb (x : Coef) (w m v g : Num) (norm : Bool) : Upd :=
  let f := fp32
  let r := moments x m v g
  let a := f.mul r.1 x.kb1
  let q0 := f.sqrt r.2.1
  let q1 := f.div q0 x.k2
  let q := f.add q1 x.eps
  let b := f.div a q
  let c := f.mul x.wd w
  let u := f.add b c
  let p := f.mul x.lrt u
  let w' := f.sub w p
  { w := if norm then w else w', m := r.1, v := r.2.1, u := u
    odd := oddOf (r.2.2 ++ [a, q0, q1, q, b, c, u] ++ (if norm then [] else [p, w'])) }

def updRule (x : Coef) (w m v g : Num) (norm : Bool) : Upd :=
  let r := match x.rule with
    | 0 => updMsgd x w m g
    | 1 => updAdamw x w m v g
    | 2 => updLion x w m g
    | _ => updLamb x w m v g norm
  { r with odd := r.odd || !g.isFin }

/-- The pre-scaled gradient. -/
def preScaled (x : Coef) (fmt raw : Nat) : Num :=
  if fmt = 2 then fp32.rnd (fp64.mul (gNum fmt raw) x.pre) else fp32.mul (gNum fmt raw) x.pre

/-! ### Reading a shard -/

/-- Lines of a region: their bytes and how they read. -/
abbrev Lines := List (List Byte × BitVec 8)

def State.readLines (s : State) (ctx pa : Nat) : Nat → Lines × State
  | 0 => ([], s)
  | n + 1 =>
    let r := s.readTier ctx pa 64
    let t := r.s.readLines ctx (pa + 64) n
    ((r.data, r.st) :: t.1, t.2)

/-- A region of `bits` bits at an offset of Damson k's window. -/
def State.readRegion (s : State) (ctx k o bytes : Nat) : Lines × State :=
  s.readLines ctx (localBase k + o) (ceilDiv bytes 64)

def Lines.elem (r : Lines) (es i : Nat) : Nat :=
  leNat (((r.getD (i * es / 64) ([], stOk)).1.drop (i * es % 64)).take es)

def Lines.bad (r : Lines) (es i : Nat) : Bool := (r.getD (i * es / 64) ([], stOk)).2 ≠ stOk

/-- ECC where a line is uncorrectable, POISONED where one is poisoned. -/
def worst (l : List Lines) : BitVec 8 :=
  let sts := (l.map (fun r => r.map (·.2))).flatten
  if sts.contains stEcc then stEcc else if sts.contains stPoison then stPoison else stOk

/-- What a run comes to for one parameter. -/
structure Pout where
  /-- FP32 word of the master, before and after. -/
  old : Nat
  w : Nat
  m : Num
  v : Num
  u : Num
  /-- Words of frozen moments as they are. -/
  mw : Nat
  vw : Nat
  frozen : Bool
  bad : Bool
  odd : Bool
  deriving DecidableEq, Repr

/-- One parameter of a shard, from the regions W, M, V, G and MASK. -/
def paramOut (g : BitVec 1024) (x : Coef) (norm : Bool) (rw rm rv rg rk : Lines) (i : Nat) : Pout :=
  let mo := gMom g
  let ge := gElem g
  let bad := rw.bad 4 i || rm.bad mo i || (gUsesV g && rv.bad mo i) || rg.bad ge i || (bit g 13 && rk.bad 1 (i / 8))
  let frozen := bit g 13 && decide (rk.elem 1 (i / 8) / 2 ^ (i % 8) % 2 = 1)
  let ww := rw.elem 4 i
  let mw := rm.elem mo i
  let vw := if gUsesV g then rv.elem mo i else 0
  let dec (v : Nat) : Num := if mo = 2 then bf16.decode v else fp32.decode v
  let w := fp32.decode ww
  if frozen || bad then
    { old := ww, w := ww, m := dec mw, v := dec vw, u := nzero, mw := mw, vw := vw, frozen := frozen, bad := bad, odd := false }
  else
    let r := updRule x w (dec mw) (dec vw) (preScaled x (fld g 7 6) (rg.elem ge i)) norm
    { old := ww, w := fp32.enc r.w, m := r.m, v := r.v, u := r.u, mw := mw, vw := vw, frozen := false, bad := false, odd := r.odd }

/-! ### Writing a shard (R271, R276, R277, R281) -/

/-- Writes elements of a region line by line: a line with a bad parameter is written poisoned whole,
however it stood, and `skip` leaves out a line whose parameters are all frozen. `per` is the parameters an
element covers. -/
def State.writeRegion (s : State) (ctx k o es per : Nat) (ps : List Pout) (enc : Nat → Nat) (skip : Bool) : State :=
  let n := ceilDiv ps.length per
  (List.range (ceilDiv (es * n) 64)).foldl (fun s j =>
    let a := 64 * j / es
    let b := min n (64 * (j + 1) / es)
    let mine := (ps.drop (a * per)).take ((b - a) * per)
    if skip && mine.all (·.frozen) then s
    else
      let pa := localBase k + o + 64 * j
      let d := ((List.range (b - a)).map (fun i => natLe es (enc (a + i)))).flatten
      if mine.any (·.bad) then (s.writeTier ctx pa (listSet (s.readTier ctx pa 64).data 0 d) true).2
      else (s.writeTier ctx pa d).2) s

def poutAt (ps : List Pout) (i : Nat) : Pout := ps.getD i ⟨0, 0, nzero, nzero, nzero, 0, 0, false, false, false⟩

/-- Narrowing of a group with a tensor id. -/
def gNarrow (g : BitVec 1024) (p : Part) (sr sat : Bool) (t : Nat) : Narrow :=
  { mode := if sr then 2 else 0, sat := sat, seed := p.seed, step := BitVec.ofNat 32 (dmStep p.w)
    tensor := BitVec.ofNat 32 (gByte g 4 4 + t) }

def gIndex (g : BitVec 1024) (i : Nat) : BitVec 64 := BitVec.ofNat 64 (gByte g 24 8 + i)

/-- Encoding of a moment. -/
def momWord (g : BitVec 1024) (p : Part) (t i : Nat) (x : Num) : Nat :=
  if bit g 4 then (narrow fmBf16 (gNarrow g p (bit g 5) false t) (gIndex g i) x).1 else fp32.enc x

/-- Format code of a working copy. -/
def gWcCode (g : BitVec 1024) : Nat := [0, fmBf16, fmE4m3, fmE5m2, fmMxE4m3, fmMxE5m2].getD (gWcFmt g) 0

/-- Scale and elements of block b of an MX working copy. -/
def wcBlock (g : BitVec 1024) (p : Part) (ps : List Pout) (b : Nat) : Nat × List Nat :=
  let n := gNarrow g p (bit g 11) (bit g 12) 0
  let r := mxBlock (gWcCode g) (fun j => n.rm (gIndex g (32 * b + j)))
    (((ps.drop (32 * b)).take 32).map (fun x => fp32.decode x.w))
  (r.1, r.2.1)

def State.writeCopy (s : State) (k : Nat) (g : BitVec 1024) (p : Part) (ps : List Pout) : State :=
  let o := gWc g (dmStep p.w)
  let c := p.ctx.toNat
  if gWcFmt g = 0 then s
  else if gIsMx g then
    let bs := (List.range (ps.length / 32)).map (wcBlock g p ps)
    (s.writeRegion c k o 1 1 ps (fun i => ((bs.getD (i / 32) (0, [])).2).getD (i % 32) 0) false).writeRegion c k
      (gScale g o) 1 32 ps (fun b => (bs.getD b (0, [])).1) false
  else
    let n := gNarrow g p (bit g 11) (bit g 12) 0
    s.writeRegion c k o (gWcSize g) 1 ps (fun i => (narrow (gWcCode g) n (gIndex g i) (fp32.decode (poutAt ps i).w)).1) false

def State.writeShard (s : State) (k : Nat) (g : BitVec 1024) (p : Part) (ps : List Pout) : State :=
  let c := p.ctx.toNat
  let keep (i : Nat) (old : Nat) (new : Nat) : Nat := if (poutAt ps i).frozen then old else new
  let s := s.writeRegion c k (gW g) 4 1 ps (fun i => (poutAt ps i).w) true
  let s := s.writeRegion c k (gM g) (gMom g) 1 ps
    (fun i => keep i (poutAt ps i).mw (momWord g p 1 i (poutAt ps i).m)) true
  let s := if gUsesV g then s.writeRegion c k (gV g) (gMom g) 1 ps
      (fun i => keep i (poutAt ps i).vw (momWord g p 2 i (poutAt ps i).v)) true else s
  s.writeCopy k g p ps

/-! ### Norm sums (R278) -/

def normSums (anchor : Int) (ps : List Pout) : Ala × Ala :=
  let sq (x : Num) : Ala := Ala.ofNum anchor (x.mul x)
  ps.foldl (fun r x =>
    (r.1.add (sq (fp32.decode x.old)), if x.frozen then r.2 else r.2.add (sq x.u))) ({ a := anchor }, { a := anchor })

/-! ### A part runs (R274, R281, R282) -/

/-- The part takes its run: its status, its entry, its writes. -/
def State.runPart (s : State) (k : Nat) (d : Damson) (p : Part) : State :=
  let g := d.group (dmGroup p.w)
  let c := p.ctx.toNat
  let st := partCheck g p.w
  let blocked := p.gangBlocked && (st = stOk || st = stNonfinite)
  let st := if blocked then stNonfinite else st
  let norm := decide (cOpc p.w = 0x6A)
  let last := gByte g 8 8
  let gmax := gByte g 104 8
  let flag := (if blocked then 0 else 2 * fld g (8 * 112) (8 * 112)) + 8 * fld g (8 * 112 + 1) (8 * 112 + 1)
  let settle (s : State) (r : RunPart) : State :=
    s.setDam k { s.dam k with updates := d.updates.erase p, running := some r }
  if st ≠ stOk then
    settle s { part := p, status := st, entry := entryOf st flag last (dmStep p.w) gmax 0 0 }
  else
    let n := gCount g
    let rw := s.readRegion c k (gW g) (4 * n)
    let rm := rw.2.readRegion c k (gM g) (gMom g * n)
    let rv := if gUsesV g then rm.2.readRegion c k (gV g) (gMom g * n) else ([], rm.2)
    let rg := rv.2.readRegion c k (gG g) (gElem g * n)
    let rk := if bit g 13 then rg.2.readRegion c k (gMask g) (ceilDiv n 8) else ([], rg.2)
    let st := worst [rw.1, rm.1, rv.1, rg.1, rk.1]
    let x := coefOf g p.w
    let ps := (List.range n).map (paramOut g x norm rw.1 rm.1 rv.1 rg.1 rk.1)
    let flag := flag + 4 * b2n (ps.any (·.odd)) + b2n (!norm)
    let s := rk.2
    if norm then
      let z := normSums (signed 16 (fld p.w 203 188)) ps
      let ok := decide (st = stOk)
      let f := (s.freeVal 512).toNat
      let e := entryOf st flag last (dmStep p.w) gmax (if ok then z.1.word else f % 2 ^ 256) (if ok then z.2.word else f / 2 ^ 256)
      settle (if ok then s else s.took) { part := p, status := st, entry := e }
    else
      let e := entryOf st flag (dmStep p.w) (dmStep p.w) gmax 0 0
      settle (s.writeShard k g p ps) { part := p, status := st, entry := e, applied := true }

/-- Damsons that hold a part of command id among their updates. -/
def State.holding (s : State) (id : Nat) : List Nat :=
  (List.range 10).filter (fun k => (s.dam k).updates.any (fun (p : Part) => p.id = id))

/-- GANG_CHECK (R279): made once every part of the command is at the head of its Damson. -/
def State.gangCheck (s : State) (id : Nat) : Option State :=
  let ks := s.holding id
  let ready (k : Nat) : Bool := (s.dam k).running.isNone && (match (s.dam k).updates with
    | p :: _ => decide (p.id = id)
    | [] => false)
  if !ks.all ready then none
  else
    let st (k : Nat) : BitVec 8 := match (s.dam k).updates with
      | p :: _ => partCheck ((s.dam k).group (dmGroup p.w)) p.w
      | [] => stOk
    let no := ks.any (fun k => st k = stNonfinite)
    some (ks.foldl (fun s k => s.setDam k { s.dam k with
      updates := (s.dam k).updates.map (fun (p : Part) => if p.id = id then { p with gangDone := true, gangBlocked := no } else p) }) s)

/-- UPDATE_PART_START: the part at the head of the order starts. -/
def State.partStart (s : State) (k : Nat) : State :=
  let d := s.dam k
  if d.inReset || d.running.isSome then s
  else
    match d.updates with
    | [] => s
    | p :: _ =>
      if cOpc p.w = 0x69 && bit p.w 54 && !p.gangDone then
        match s.gangCheck p.id with
        | none => s
        | some s =>
          match (s.dam k).updates with
          | p :: _ => s.runPart k (s.dam k) p
          | [] => s
      else s.runPart k d p

def execUpdatePartStart (k : DamId) (s : State) : Host.Outcome State Fault Refusal := .next (s.partStart k.val)

/-- LAST, monitor and state change in one step, and the entry is written (R280, R282). An entry
that cannot be written makes its command ILLEGAL_COMMAND (R273). -/
def State.partComplete (s : State) (k : Nat) : State :=
  let d := s.dam k
  match d.running with
  | none => s
  | some r =>
    let p := r.part
    let n := dmGroup p.w
    let g := d.group n
    let d := { d with running := none }
    let d := if r.applied then d.setGroup n (clearMonitor (setFld g 127 64 (dmStep p.w))) else d
    if p.lost then s.setDam k d
    else
      let w := s.engWrite p.core.val p.ctx.toNat (dmBase p.w + k * dmEntry p.w) (bytesOf r.entry (dmEntry p.w))
      (w.2.setDam k (d.answer p (if w.1 = stOk then r.status else stIllegal) none)).progress p.core.val 3
        (if r.status = stOk || r.status = stEcc || r.status = stPoison then gCount g else 0)

def execUpdatePartComplete (k : DamId) (s : State) : Host.Outcome State Fault Refusal := .next (s.partComplete k.val)

/-! ### At the access engine (R273, R280) -/

def dmCheck (w : Cmd) : Checked :=
  let e := dmEntry w
  checks false (dmNamed w).isEmpty (dmBase w % e = 0) ((dmNamed w).all (fun k => inSlabSpace (dmBase w + k * e) e))

/-- A command waits for the one before it: none of its parts is sent. -/
def dmUnsent : Nat := 100

/-- What issuing a Damson command comes to. -/
inductive Issue where
  | sent (s : State) (q : QEnt)
  | stop (s : State) (st : BitVec 8) (detail : Nat)

/-- Images of a DSET by Damson; none are read for CLRMON. -/
def State.images (s : State) (c ctx : Nat) (w : Cmd) : Pieces × BitVec 8 × State :=
  if cOpc w = 0x68 && !bit w 75 then s.engReads c ctx ((dmNamed w).map (fun k => (dmBase w + 128 * k, 128))) else ([], stOk, s)

/-- The parts of a command are sent. -/
def State.issueDamson (s : State) (c : Nat) (q : QEnt) : Issue :=
  let w := q.w
  let x := s.slot c q.slot.val
  let ks := dmNamed w
  let e := dmEntry w
  if ks.any (fun k => s.slabOff c (dmBase w + k * e) e) then .stop s stIllegal 0
  else
    let r := s.images c x.ctx.toNat w
    if r.2.1 ≠ stOk then
      .stop r.2.2 r.2.1 (if r.2.1 = stIllegal then 0 else r.2.2.eccDetail c (ks.map (fun k => (dmBase w + 128 * k, 128))))
    else
      let id := r.2.2.fab.nextId + 1
      let s := { r.2.2 with fab := { r.2.2.fab with nextId := id } }
      let s := ks.foldl (fun s k =>
        let p : Part := { core := (if h : c < 960 then ⟨c, h⟩ else 0), slot := q.slot, off := q.off, ctx := x.ctx, id := id
                          w := w, seed := hSeed x.hdr, image := BitVec.ofNat 1024 (leNat (pieceAt r.1 (dmBase w + 128 * k) 128)) }
        let d := s.dam k
        if s.cut c (damsonRouter k 0) then s.setDam k (d.answer p stPathLost none)
        else if cOpc w = 0x68 || cOpc w = 0x6B then s.setDam k { d with descr := d.descr ++ [p] }
        else s.setDam k { d with updates := d.updates ++ [p] }) s
      .sent s { q with id := id, sent := 1, await := ks }

/-- Start of a Damson command: issued unless an earlier one has not completed. -/
def startDamson (s : State) (c : Nat) (q : QEnt) : Start :=
  match dmCheck q.w with
  | .stop st => .stop s st
  | .noop => .fin s q
  | .go =>
    if ((s.core c).run 3).any (fun r => isDamson r.w) then .go s { q with await := [dmUnsent] }
    else
      match s.issueDamson c q with
      | .sent s q => .go s q
      | .stop s st d => .stop s st d

/-- Status of a command from its parts (Table 10-11): status, bitmap, and the Damson whose
status stops the slot. -/
def dmStatus (got : List (Nat × BitVec 8)) : BitVec 8 × BitVec 32 × Option Nat :=
  let failed := got.filter (fun x => [stStep, stNonfinite, stPathLost].contains x.2)
  let bits := BitVec.ofNat 32 ((failed.map (fun x => 2 ^ x.1)).foldl (· + ·) 0)
  match ((List.range 10).filterMap (fun k => got.find? (fun x => x.1 = k && stopping x.2))).head? with
  | some x => (x.2, 0, some x.1)
  | none =>
    if failed.isEmpty then (if got.any (fun x => x.2 = stDup) then stDup else stOk, 0, none)
    else if got.length = 1 then ((failed.getD 0 (0, stOk)).2, 0, none)
    else (stPartial, bits, none)

/-- Issues the oldest Damson command that waits, once no other is under way. -/
def State.nextDamson (s : State) (c : Nat) : Nat → State
  | 0 => s
  | f + 1 =>
    let ds := ((s.core c).run 3).filter (fun r => isDamson r.w)
    match ds with
    | [] => s
    | q :: _ =>
      if q.await ≠ [dmUnsent] then s
      else
        match s.issueDamson c q with
        | .sent s q' =>
          s.modCore c (fun k => k.setRun 3 ((k.run 3).map (fun r => if r = q then q' else r)))
        | .stop s st d =>
          let s := s.modCore c (fun k => k.setRun 3 ((k.run 3).erase q))
          (s.stopSlot c q.slot.val st { engine := 3, off := q.off.toNat, detail := d } [(3, q)]).nextDamson c f

/-- An answer reaches its engine; with the last one the command completes. -/
def State.takeAnswer (s : State) (c k : Nat) (a : Answer) : State :=
  match ((s.core c).run 3).find? (fun q => q.id = a.id && isDamson q.w && q.await.contains k) with
  | none => s
  | some q =>
    let w : BitVec 8 × State := match a.data with
      | none => (a.status, s)
      | some g =>
        let x := s.engWrite c (s.ctxOf c q.slot.val) (dmBase q.w + 128 * k) (bytesOf g 128)
        (if x.1 = stOk then stOk else stIllegal, x.2)
    let s := w.2
    let q' := { q with await := q.await.erase k, got := q.got ++ [(k, w.1)] }
    if !q'.await.isEmpty then
      s.modCore c (fun r => r.setRun 3 ((r.run 3).map (fun x => if x = q then q' else x)))
    else
      let s := s.modCore c (fun r => r.setRun 3 ((r.run 3).erase q))
      let st := dmStatus q'.got
      match st.2.2 with
      | some n => s.stopSlot c q.slot.val st.1 { engine := 3, off := q.off.toNat, detail := n } [(3, q)]
      | none => (s.progress c 3 1).finish c 3 { q' with status := st.1, bitmap := st.2.1 }

/-- The oldest answer of Damson k to a core. -/
def State.damsonResult (s : State) (c k : Nat) : State :=
  let d := s.dam k
  match d.answers.find? (fun (a : Answer) => a.core.val = c) with
  | none => s
  | some a => (s.setDam k { d with answers := d.answers.erase a }).takeAnswer c k a

end Sys2Proof.Machine
end

