-- ==== Sys2Proof/Machine/Agents.lean ====
section
/-! DEFINITION. Which agent may read and write which set-up register (R477, Table 18-2), and
the lock of R449. -/

namespace Sys2Proof.Machine

/-- HC0, HC1, HC8 and HC9 run firmware (R24). -/
def firmwareHc (h : Nat) : Bool := h % 8 = 0 || h % 8 = 1

/-- The register is a host-class core's own: a sync port or RAS_HB. -/
def ownReg (r : Reg) : Bool := r = .syncPort || r = .rasHb

/-- Whether an agent may write register `r` of first index `i`. -/
def mayWrite (a : Agent) (r : Reg) (i : Nat) : Bool :=
  match a with
  | .pf => !(ownReg r || r = .rtExc || r = .rtDown || r = .vportMap)
  | .vf _ => false
  | .pip => !(ownReg r || r = .hangMode)
  | .hc h =>
    if ownReg r then i = h.val
    else firmwareHc h.val || r = .dmsEpoch || r = .dmsEpochAll

/-- Whether an agent may read register `r` of first index `i`. -/
def mayRead (a : Agent) (r : Reg) (i : Nat) : Bool :=
  match a with
  | .pf => r ≠ .syncPort
  | .vf _ => false
  | .pip => r ≠ .syncPort
  | .hc h =>
    if r = .syncPort then i = h.val
    else firmwareHc h.val ||
      !(r = .secCtrl || r = .secBootStat || r = .secSvn || r = .fwUpdate || r = .bbxData || r = .bbxSig)

/-- SEC_CTRL.LOCK. -/
def State.locked (s : State) : Bool := bit (s.rg oSecCtrl) 0

/-- A die warm reset or a module reset is under way. -/
def State.dieResetting (s : State) : Bool := s.ras.resets.any (fun r => r.dom = .dieWarm || r.dom = .module)

/-- A die warm reset is at step 4 of Table 15-9, or past it: half 0's mesh runs. -/
def State.meshBack (s : State) : Bool := s.rf oReady 0 0 = 1

/-- Half 0's mesh is not running: a die reset is before step 4 of Table 15-9 (R414). -/
def State.dieAway (s : State) : Bool := s.dieResetting && !s.meshBack

/-- Requests of a function reach the device: its link is up, half 0's mesh runs, and the PF
is not in D3hot (R372, R414, R466). -/
def State.barOpen (s : State) (f : Nat) : Bool :=
  s.hif.linkUp && !s.dieAway && !(s.hif.d3hot && decide (f = 0))

/-- Pip reaches the set-up registers through its mesh port: it is not held in reset, half 0's mesh
runs, and the port's router forwards (R26, R33). -/
def State.pipLive (s : State) : Bool :=
  !s.board.pipReset && decide (s.board.rails = 7) && !s.dieAway && !s.halfStands 0 && !s.routerDown pipRouter

/-- The host-class core runs: neither gated nor in reset, and its router forwards. -/
def State.hcRuns (s : State) (h : HcId) : Bool :=
  !s.power.hcGated.contains h && !s.dieResetting && s.sec.booted &&
    !s.ras.resets.any (fun r => r.dom = .hostClass h)

/-- An agent is able to reach the set-up registers. -/
def State.agentLive (s : State) : Agent → Bool
  | .pf => s.barOpen 0
  | .vf n => s.barOpen (n.val + 1)
  | .pip => s.pipLive
  | .hc h => s.hcRuns h

/-- Registers of the SEC block. -/
def secReg (r : Reg) : Bool := r = .secCtrl || r = .secBootStat || r = .secSvn || r = .fwUpdate

/-- Registers that answer the host: in recovery HIF_READY and the SEC registers alone (R440). -/
def State.answers (s : State) (r : Reg) : Bool := s.sec.booted || secReg r || r = .hifReady

/-- A write of an agent to register `r` of first index `i` takes effect. -/
def State.permits (s : State) (a : Agent) (r : Reg) (i : Nat) : Bool :=
  mayWrite a r i && s.agentLive a && (match a with
    | .pf => s.answers r
    | _ => true)

end Sys2Proof.Machine
end

