-- ==== Sys2Proof/Machine/Credit.lean ====
section
/-! DEFINITION. Lending and reclaiming energy credit, and waking a core (R310, R355, R356,
R364). -/

namespace Sys2Proof.Machine

/-- Enabled cores of a cluster that are not fenced (R358). -/
def State.liveCores (s : State) (k : Nat) : Nat :=
  ((List.range 16).filter (fun i => s.available (clusterCore k i))).length

/-- The core is to return to C0 (R356); a core that is not available stays in C3 (R353). -/
def State.wakeCore (s : State) (c : Nat) : State :=
  if s.available c && decide ((s.core c).cst ≠ .c0) then s.modCore c (fun k => { k with waking := true }) else s

/-- Every engine queue of the core is empty and nothing is in execution. -/
def Core.quiet (k : Core) : Bool :=
  k.queues.isEmpty && k.running.isEmpty && k.program.isNone

/-- Every active slot is held at a WAIT, there is one, and every engine queue is empty. -/
def Core.onlyWaits (k : Core) : Bool :=
  !(activeSlots k).isEmpty && (activeSlots k).all (fun i => (k.slot i).atWait) && k.quiet

/-- The core lends (R364): L moves from its cluster's balance to its half's pool. -/
def State.lend (s : State) (c : Nat) : State :=
  let cl := clusterOf c
  let u := s.cluster cl
  let l := min (u.grant / max 1 (s.liveCores cl)) u.balance.toNat
  let h := halfOf c
  let s := (s.setCluster cl (u.move (-(l : Int)))).modCore c (fun k => { k with lent := some l })
  { s with power := { s.power with pools := KV.upd 0 s.power.pools h (· + l) } }

/-- Debits a remainder from the clusters that drew, the most recent draw first, down to the
floor of R359. -/
def debitDraws (l : Nat) : List (Nat × Nat) → KV Cluster → List (Nat × Nat) × KV Cluster
  | [], m => ([], m)
  | (k, a) :: r, m =>
    let d := min l a
    let u : Cluster := KV.get {} m k
    let m := if d = 0 then m else KV.put {} m k (u.move (-(d : Int)))
    let t := debitDraws (l - d) r m
    ((if d = a then t.1 else (k, a - d) :: t.1), t.2)

/-- CREDIT_RECLAIM of a lending core (R364): its cluster receives L in full. -/
def State.reclaim (s : State) (c : Nat) : State :=
  match (s.core c).lent with
  | none => s
  | some l =>
    let h := halfOf c
    let pool := KV.get 0 s.power.pools h
    let fromPool := min l pool
    let mine := s.power.draws.filter (fun d => clusterHalf d.1 = h)
    let other := s.power.draws.filter (fun d => clusterHalf d.1 ≠ h)
    let r := debitDraws (l - fromPool) mine s.clusters
    let s := { s with clusters := r.2, power := { s.power with
        pools := KV.put 0 s.power.pools h (pool - fromPool), draws := r.1 ++ other } }
    let cl := clusterOf c
    (s.setCluster cl ((s.cluster cl).move l)).modCore c (fun k => { k with lent := none })

/-- The tick in which a WAIT of the core completes (R310, R356). -/
def State.waitDone (s : State) (c : Nat) : State := (s.reclaim c).wakeCore c

end Sys2Proof.Machine
end

