-- ==== Sys2Proof/WellFormed.lean ====
section
/-! DEFINITION. Which terms of Instr are commands that exist: the opcode of a list command is
its row's, and bytes and lists have the lengths that their rule gives. -/

namespace Sys2Proof

/-- The word of a list command carries its row's opcode (R110). -/
def opcIs (w : Cmd) (n : Nat) : Bool := decide (w.toNat % 256 = n)

/-- An access of at least one byte that stays within a 64-byte word. -/
def Access.inWord (off : Nat) : Access → Bool
  | .read n => decide (1 ≤ n) && decide (off % 64 + n ≤ 64)
  | .write d => !d.isEmpty && decide (off % 64 + d.length ≤ 64)

/-- An access of a host or host-class core: 1 to 4,096 bytes. -/
def Access.sized : Access → Bool
  | .read n => decide (1 ≤ n) && decide (n ≤ 4096)
  | .write d => !d.isEmpty && decide (d.length ≤ 4096)

def HcAccess.sized : HcAccess → Bool
  | .load _ n => decide (1 ≤ n) && decide (n ≤ 64)
  | .store _ d => !d.isEmpty && decide (d.length ≤ 64)
  | .fetch _ n => decide (1 ≤ n) && decide (n ≤ 64)
  | _ => true

def wellFormed : Instr → Bool
  | .nop _ _ w => opcIs w 0x00
  | .endList _ _ w => opcIs w 0x01
  | .loop _ _ w => opcIs w 0x02
  | .endloop _ _ w => opcIs w 0x03
  | .skip _ _ w => opcIs w 0x04
  | .brk _ _ w => opcIs w 0x05
  | .setx _ _ w => opcIs w 0x06
  | .alux _ _ w => opcIs w 0x07
  | .tpost _ _ w => opcIs w 0x08
  | .csnap _ _ w => opcIs w 0x09
  | .arrive _ _ w => opcIs w 0x10
  | .wait _ _ w => opcIs w 0x11
  | .signal _ _ w => opcIs w 0x12
  | .claim _ _ w => opcIs w 0x13
  | .fence _ _ w => opcIs w 0x14
  | .sinit _ _ w => opcIs w 0x15
  | .sfree _ _ w => opcIs w 0x16
  | .mma _ _ w => opcIs w 0x20
  | .mrd _ _ w => opcIs w 0x21
  | .msd _ _ w => opcIs w 0x22
  | .mld _ _ w => opcIs w 0x23
  | .mmove _ _ w => opcIs w 0x24
  | .mrel _ _ w => opcIs w 0x25
  | .vld _ _ w => opcIs w 0x30
  | .vst _ _ w => opcIs w 0x31
  | .vop _ _ w => opcIs w 0x32
  | .vcvt _ _ w => opcIs w 0x33
  | .vala _ _ w => opcIs w 0x34
  | .vmove _ _ w => opcIs w 0x35
  | .vrel _ _ w => opcIs w 0x36
  | .rred _ _ w => opcIs w 0x40
  | .rnorm _ _ w => opcIs w 0x41
  | .rnormb _ _ w => opcIs w 0x42
  | .rsmax _ _ w => opcIs w 0x43
  | .rsmaxb _ _ w => opcIs w 0x44
  | .rspill _ _ w => opcIs w 0x45
  | .rfill _ _ w => opcIs w 0x46
  | .copy _ _ w => opcIs w 0x50
  | .skewc _ _ w => opcIs w 0x51
  | .tskewc _ _ w => opcIs w 0x52
  | .gather _ _ w => opcIs w 0x53
  | .scatter _ _ w => opcIs w 0x54
  | .mcast _ _ w => opcIs w 0x55
  | .neighbour _ _ w => opcIs w 0x56
  | .gcopy _ _ w => opcIs w 0x57
  | .tload _ _ w => opcIs w 0x58
  | .qcfg _ _ w => opcIs w 0x59
  | .aprog _ _ w => opcIs w 0x5A
  | .put _ _ w => opcIs w 0x60
  | .get _ _ w => opcIs w 0x61
  | .atomic _ _ w => opcIs w 0x62
  | .rput _ _ w => opcIs w 0x63
  | .dset _ _ w => opcIs w 0x68
  | .dupd _ _ w => opcIs w 0x69
  | .dnorm _ _ w => opcIs w 0x6A
  | .dread _ _ w => opcIs w 0x6B
  | .hostClassCoreAccess _ a => a.sized
  | .slabAccess _ _ off a => a.inWord off.toNat
  | .aliasWrite _ _ _ d => !d.isEmpty && decide (d.length ≤ 64)
  | .clusterMemoryAccess _ _ off a => a.inWord off.toNat
  | .slowTierRequest r => r.op.inWord r.pa.toNat
  | .bankRetry r => r.op.inWord r.pa.toNat
  | .ddrTraining ds _ => decide (ds.length = 20)
  | .hostRequest _ _ _ a _ => a.sized
  | .creditPeriodStart _ _ ts => decide (ts.length = 60)
  | .telemetrySample t => decide (t.sensors.length = 136)
  | .inputPowerOn bs _ => decide (bs.length = 2)
  | .registerWrite _ _ d => !d.isEmpty && decide (d.length ≤ 64)
  | _ => true

end Sys2Proof
end

