-- ==== Sys2Proof/Machine/Sequencer.lean ====
section
/-! DEFINITION. Control commands of the sequencer (R104, R117 to R120, R131). -/

namespace Sys2Proof.Machine

/-- The answer of a meaning whose operands are well formed or not. -/
def answer (ok : Bool) (s : State) : Host.Outcome State Fault Refusal :=
  if ok then .next s else .fault .illFormed

/-! ### Field tables (Tables 04-4 and 04-7) -/

def nopInfo : OpInfo := { engine := 4, rsv := [(255, 32)] }

def loopInfo : OpInfo :=
  { engine := 4, rsv := [(255, 88)], sels := [{ hi := 63, lo := 32, shi := 68, slo := 64, take := 32 }]
    legal := fun w => selOk (fld w 73 69) && decide (1 ≤ fld w 87 74) }

/-- SKIP and BRK: COND below 6; NSKIP is zero in a BRK and not in a SKIP. -/
def condInfo (skip : Bool) : OpInfo :=
  { engine := 4, rsv := [(255, 128), (63, 58)]
    legal := fun w => decide (fld w 43 41 ≤ 5) && decide ((fld w 57 44 = 0) ↔ ¬ skip) }

def setxInfo : OpInfo := { engine := 4, rsv := [(255, 128), (63, 36)] }

def aluxInfo : OpInfo :=
  { engine := 4, rsv := [(255, 128), (63, 49)], legal := fun w => decide (fld w 48 45 ≤ 9) }

def tpostInfo : OpInfo := { engine := 4, rsv := [(255, 52)], legal := fun w => decide (1 ≤ fld w 51 36) }

def csnapInfo : OpInfo :=
  { engine := 4, rsv := [(255, 53)], base := [(52, 32)], legal := fun w => fld w 52 32 % 512 = 0 }

/-! ### Commands of the list itself -/

/-- What the commands that a check of R119 needs come to. -/
inductive CmdsRes where
  | ok (l : List Cmd)
  | xlt (va cause level : Nat)
  | fail (st : BitVec 8)

/-- The command at an offset of the slot's list: from the buffer, or fetched for the checks of R119. -/
def State.cmdAt (s : State) (c sl off : Nat) : CmdsRes × State :=
  let x := s.slot c sl
  match x.buffered off with
  | some w => (.ok [w], s)
  | none =>
    match s.fetchNow c x.ctx.toNat (x.listAddr.toNat + 64 + 32 * off) 32 with
    | (.ok d, s) => (.ok [BitVec.ofNat 256 (leNat d)], s)
    | (.xlt va cause level, s) => (.xlt va cause level, s)
    | (.fail st, s) => (.fail st, s)
    | (.miss, s) => (.fail stIllegal, s)

/-- n commands from an offset on, up to the first fetch that does not give one. -/
def State.cmdsAt (s : State) (c sl off : Nat) : Nat → CmdsRes × State
  | 0 => (.ok [], s)
  | n + 1 =>
    match s.cmdAt c sl off with
    | (.ok l, s) => match s.cmdsAt c sl (off + 1) n with
      | (.ok r, s) => (.ok (l ++ r), s)
      | r => r
    | r => r

/-- The commands that a SKIP or LOOP needs for its check: `k` goes on with them; a fetch that fails
stops the slot with the status of R98, though the list might never reach that offset (DEDUCED,
log 125), and a translation fault suspends it (R208), the command not executed. -/
def State.checkWith (s : State) (c sl off n : Nat) (k : List Cmd → State → SeqRes) : SeqRes :=
  match s.cmdsAt c sl off n with
  | (.ok l, s) => k l s
  | (.fail st, _) => .stop st
  | (.xlt va cause level, s) => .held (s.xltFaultSeq c sl va cause level)

/-- BODY of a LOOP (R118). -/
def loopBody (w : Cmd) : Nat := fld w 87 74

/-- Whether every LOOP of a range has its ENDLOOP, BODY + 1 positions on, inside the range, and
every ENDLOOP its LOOP (R119). -/
def matched (l : List Cmd) : Bool :=
  l.zipIdx.all (fun e =>
    if cOpc e.1 = 2 then (l[e.2 + loopBody e.1 + 1]?).any (fun v => cOpc v = 3)
    else if cOpc e.1 = 3 then l.zipIdx.any (fun o => cOpc o.1 = 2 && decide (o.2 + loopBody o.1 + 1 = e.2))
    else true)

/-! ### Meanings of the control commands -/

def bodyNop (s : State) (_ : Cmd) : SeqRes := .done s stOk none

/-- ALUX (R117). -/
def aluOp (op : Nat) (a b sb imm : BitVec 64) : BitVec 64 :=
  match op with
  | 0 => a + b
  | 1 => a - b
  | 2 => a * imm + sb
  | 3 => a &&& b
  | 4 => a ||| b
  | 5 => a ^^^ b
  | 6 => a <<< (b.toNat % 64)
  | 7 => a >>> (b.toNat % 64)
  | 8 => if a.toNat ≤ b.toNat then a else b
  | _ => if a.toNat ≤ b.toNat then b else a

def imm64 (w : Cmd) : BitVec 64 := BitVec.ofNat 64 (fld w 127 64)

def bodyAlux (c sl : Nat) (s : State) (w : Cmd) : SeqRes :=
  let x := s.slot c sl
  let sb := x.sreg (fld w 44 41)
  let b := if bit w 40 then imm64 w else sb
  .done (s.setSlot c sl (x.setSreg (fld w 35 32) (aluOp (fld w 48 45) (x.sreg (fld w 39 36)) b sb (imm64 w)))) stOk none

def bodySetx (c sl : Nat) (s : State) (w : Cmd) : SeqRes :=
  .done (s.modSlot c sl (fun x => x.setSreg (fld w 35 32) (imm64 w))) stOk none

/-- TPOST adds its count; one that does not fit stops the slot (R102). -/
def bodyTpost (c sl : Nat) (s : State) (w : Cmd) : SeqRes :=
  match (s.slot c sl).post (fld w 35 32) (fld w 51 36) with
  | some y => .done (s.setSlot c sl y) stOk none
  | none => .stop stIllegal

/-- Conditions of SKIP and BRK (Table 04-7). -/
def condHolds (cond : Nat) (a b : BitVec 64) : Bool :=
  match cond with
  | 0 => a = b
  | 1 => a ≠ b
  | 2 => decide (a.toNat < b.toNat)
  | 3 => decide (b.toNat ≤ a.toNat)
  | 4 => decide (a.toInt < b.toInt)
  | _ => decide (b.toInt ≤ a.toInt)

def condOf (x : Slot) (w : Cmd) : Bool :=
  condHolds (fld w 43 41) (x.sreg (fld w 35 32)) (if bit w 36 then imm64 w else x.sreg (fld w 40 37))

/-- Marks the command at the program counter as checked (R119). -/
def Slot.check (x : Slot) : Slot := { x with checked := insertOnce x.checked x.pc }

def bodySkip (c sl : Nat) (s : State) (w : Cmd) : SeqRes :=
  let x := s.slot c sl
  let pc := x.pc.toNat
  let n := fld w 57 44
  if hLength x.hdr < pc + n + 1 then .stop stIllegal
  else
    s.checkWith c sl (pc + 1) (if x.checked.contains x.pc then 0 else n) (fun l s =>
      if !matched l then .stop stIllegal
      else .done (s.modSlot c sl Slot.check) stOk (if condOf x w then some (pc + n + 1) else none))

/-- BRK (R119). -/
def bodyBrk (c sl : Nat) (s : State) (w : Cmd) : SeqRes :=
  let x := s.slot c sl
  match x.loops with
  | [] => .stop stIllegal
  | l :: r =>
    if condOf x w then .done (s.setSlot c sl { x with loops := r }) stOk (some (l.off.toNat + l.body.toNat + 2))
    else .done s stOk none

/-- The scalar register of ISEL takes the index of an iteration. -/
def Slot.loopIndex (x : Slot) (l : LoopLevel) : Slot :=
  if 16 ≤ l.isel.toNat then x.setSreg (l.isel.toNat - 16) (l.index.setWidth 64) else x

/-- LOOP (R118): the position after the body must hold ENDLOOP. -/
def bodyLoop (c sl : Nat) (s : State) (w : Cmd) : SeqRes :=
  let x := s.slot c sl
  let pc := x.pc.toNat
  let body := loopBody w
  let count := fld w 63 32
  let enter (s : State) : SeqRes :=
    if count = 0 then .done (s.modSlot c sl Slot.check) stOk (some (pc + body + 2))
    else if 4 ≤ x.loops.length then .stop stIllegal
    else
      let l : LoopLevel := { off := x.pc, body := BitVec.ofNat 32 body, remaining := BitVec.ofNat 32 count
                             isel := BitVec.ofNat 5 (fld w 73 69) }
      .done (s.modSlot c sl (fun y => ({ y.check with loops := l :: y.loops }).loopIndex l)) stOk none
  if x.checked.contains x.pc then enter s
  else if hLength x.hdr ≤ pc + body + 1 then .stop stIllegal
  else s.checkWith c sl (pc + body + 1) 1 (fun l s => if l.map cOpc = [3] then enter s else .stop stIllegal)

/-- ENDLOOP (R118). -/
def bodyEndloop (c sl : Nat) (s : State) (_ : Cmd) : SeqRes :=
  let x := s.slot c sl
  match x.loops with
  | [] => .stop stIllegal
  | l :: r =>
    if l.remaining.toNat ≤ 1 then .done (s.setSlot c sl { x with loops := r }) stOk none
    else
      let l := { l with remaining := l.remaining - 1, index := l.index + 1 }
      .done (s.setSlot c sl (({ x with loops := l :: r }).loopIndex l)) stOk (some (l.off.toNat + 1))


def bodyCsnap (c sl : Nat) (s : State) (w : Cmd) : SeqRes :=
  let a := fld w 52 32
  if !inSlabSpace a 512 then .stop stCapacity
  else
    let r := s.took.engWrite c (s.ctxOf c sl) a (s.snapshot c)
    if r.1 = stOk then .done r.2 stOk none else .stop r.1

/-! ### END (R104) -/

/-- The list of a slot ends: its completion record where one is due (R392, R393), its credit
settled, its slot free. -/
def State.endSlot (s : State) (c sl : Nat) : State :=
  let x := s.slot c sl
  let e := s.ctxEntry x.ctx.toNat
  let s := e.2.settle c sl
  let due := match x.origin with
    | .launch => decide (x.cont ≠ 0) || (ceValid e.1 && ceLcomp e.1)
    | .ring _ _ _ _ _ => true
  let s := if due then s.postComp (s.slotComp c sl endEnd stOk 0xFFFFFFFF) else s
  (s.tellPreempt c sl false).freeSlot c sl

def bodyEnd (c sl : Nat) (s : State) (w : Cmd) : SeqRes :=
  .issued ((s.modCore c (fun k => k.closeClaims sl (fun _ => true))).modSlot c sl (fun x => { x with hold := .ending w }))

end Sys2Proof.Machine
end

