-- ==== Sys2Proof/Machine/Sync.lean ====
section
/-! DEFINITION. Synchronisation: the seven commands at the sequencer and at the sync ports,
responses, completion-counter additions, timeouts, quarantine, and the packets of remote
operations (R247, R290 to R312). -/

namespace Sys2Proof.Machine

/-! ### Field tables (Table 11-4) -/

def handleSel : Sel := { hi := 95, lo := 32, shi := 100, slo := 96 }

def arriveInfo : OpInfo :=
  { engine := 4, rsv := [(255, 129)], sels := [handleSel, { hi := 116, lo := 101, shi := 121, slo := 117, take := 16 }] }

def waitInfo : OpInfo :=
  { engine := 4, rsv := [(255, 194)], legal := fun w => decide (fld w 155 154 ≠ 3)
    sels := [handleSel, { hi := 148, lo := 101, shi := 153, slo := 149, take := 48 }] }

def signalInfo : OpInfo :=
  { engine := 4, rsv := [(255, 156)], sels := [handleSel, { hi := 148, lo := 101, shi := 153, slo := 149, take := 48 }] }

def claimInfo : OpInfo := { engine := 4, rsv := [(255, 105)], sels := [handleSel] }

def fenceInfo : OpInfo :=
  { engine := 4, rsv := [(255, 37)], legal := fun w => if fld w 33 32 = 0 then decide (fld w 36 34 < 4) else fld w 36 34 = 0 }

def sinitInfo : OpInfo :=
  { engine := 4, rsv := [(255, 181)], legal := sinitOk
    sels := [{ hi := 47, lo := 32, shi := 52, slo := 48, take := 16 },
      { hi := 118, lo := 71, shi := 123, slo := 119, take := 48 },
      { hi := 171, lo := 124, shi := 176, slo := 172, take := 48 }] }

def sfreeInfo : OpInfo := { engine := 4, rsv := [(255, 101)], sels := [handleSel] }

/-! ### At the sequencer -/

/-- ARRIVE, WAIT, SIGNAL, CLAIM, SINIT and SFREE: the operation is issued; all but a POSTED one
hold the slot until the response (R295). -/
def bodySync (c : CoreId) (sl : SlotId) (s : State) (w : Cmd) : SeqRes :=
  let ctx := s.ctxOf c.val sl.val
  if cOpc w ≠ 0x15 && !handleOk (syncHandle w) then .stop stIllegal
  else if isPosted w then
    match s.syncIssue (.slot c sl) ctx w with
    | none => .wait
    | some s => .done s stOk none
  else
    match (s.modSlot c.val sl.val (fun x => { x with hold := .sync w none })).syncIssue (.slot c sl) ctx w with
    | none => .wait
    | some s => .issued s

/-- CLAIMs of the core whose response is not in. -/
def Core.claiming (k : Core) : Nat :=
  ((activeSlots k).filter (fun i => match (k.slot i).hold with
    | .sync w _ => cOpc w = 0x13
    | _ => false)).length

/-- CLAIM holds its slot while the claim record is full (R247). -/
def bodyClaim (c : CoreId) (sl : SlotId) (s : State) (w : Cmd) : SeqRes :=
  if 8 ≤ (s.core c.val).claims.length + (s.core c.val).claiming then .wait else bodySync c sl s w

/-- The slot reaches its next CLAIM on a handle: the entry before it is closed (R247). -/
def State.closeFor (s : State) (c sl : Nat) (w : Cmd) : State :=
  if s.seqReady c sl w then
    let h := syncHandle (claimInfo.resolve (s.slot c sl) w)
    s.modCore c (fun k => k.closeClaims sl (fun e => e.handle.toNat = h))
  else s

/-- Commands of a slot that are not complete on one engine. -/
def Core.liveOn (k : Core) (sl e : Nat) : Nat :=
  ((k.queue e ++ k.run e).filter (fun q => q.slot.val = sl)).length +
    (match k.program with
     | some p => if e = 3 ∧ p.ent.slot.val = sl then 1 else 0
     | none => 0)

/-- The condition of a FENCE (Table 11-5). Every write of a complete command is visible to
every agent of the module, and a PUT, ATOMIC or RPUT completes once acknowledged. -/
def fenceMet (k : Core) (sl : Nat) (w : Cmd) : Bool :=
  if fld w 33 32 = 0 then k.liveOn sl (fld w 36 34) = 0 else k.live sl = 0

def bodyFence (c sl : Nat) (s : State) (w : Cmd) : SeqRes :=
  if fenceMet (s.core c) sl w then .done s stOk none
  else .issued (s.modSlot c sl (fun x => { x with hold := .fence w }))

/-! ### Responses (R293, R299, R300) -/

/-- Register that a sync command writes on OK. -/
def syncDest (w : Cmd) : Option Nat :=
  match cOpc w with
  | 0x11 => if bit w 189 then some (fld w 193 190) else none
  | 0x13 => some (fld w 104 101)
  | 0x15 => some (fld w 180 177)
  | _ => none

/-- A response reaches the slot it holds. -/
def State.slotResponse (s : State) (c : CoreId) (sl : SlotId) (w : Cmd) (r : SyncReply) : State :=
  let s := if cOpc w = 0x11 then s.waitDone c.val else s
  if stopping r.status then s.stopAtPc c.val sl.val r.status
  else
    let s := if r.status = stOk then
        match syncDest w with
        | some n => s.modSlot c.val sl.val (fun x => x.setSreg n r.value)
        | none => s
      else s
    let s := if cOpc w = 0x13 && decide (r.status = stOk) && !r.spent then
        s.modCore c.val (fun k => { k with
          nextClaim := k.nextClaim + 1
          claims := k.claims ++ [{ id := k.nextClaim, slot := sl, ctx := (k.slot sl.val).ctx
                                   handle := BitVec.ofNat 64 (syncHandle w), word := r.value }] })
      else s
    s.seqDone c.val sl.val w r.status none

/-- SYNC_RESPONSE for a slot or a port. -/
def State.syncResponse (s : State) (x : Waiter) : State :=
  match x with
  | .slot c sl =>
    match (s.slot c.val sl.val).hold with
    | .sync w (some r) => s.slotResponse c sl w r
    | _ => s
  | .port h n =>
    let p := s.port h.val n.val
    match p.reply with
    | some r => s.setPort h.val n.val { p with busy := false, reply := none, result := r.status.setWidth 64, value := r.value }
    | none => s

def execSyncResponse (x : Waiter) (s : State) : Host.Outcome State Fault Refusal := .next (s.syncResponse x)

/-! ### Sync ports (R111, R293) -/

def syncInfo (opc : Nat) : Option OpInfo :=
  match opc with
  | 0x10 => some arriveInfo
  | 0x11 => some waitInfo
  | 0x12 => some signalInfo
  | 0x13 => some claimInfo
  | 0x15 => some sinitInfo
  | 0x16 => some sfreeInfo
  | _ => none

/-- A command that a sync port carries out. -/
def portLegal (w : Cmd) : Bool :=
  match syncInfo (cOpc w) with
  | none => false
  | some o => fld w 31 8 = 0 && o.form w && o.legal w && o.sels.all (fun x => fld w x.shi x.slo = 0) &&
      (cOpc w = 0x15 || handleOk (syncHandle w))

/-- Context of a host-class core's accesses (R206, R378). -/
def State.hcCtxOf (s : State) (h : Nat) : Nat :=
  if firmwareHc h then (Config.firmwareCtx h).toNat else (KV.get 0 s.hif.hcCtx h).toNat

/-- The operation of a busy port slot is issued, or waits for a sync tag. -/
def State.portIssue (s : State) (h : HcId) (n : Fin 16) (w : Cmd) : State :=
  match s.syncIssue (.port h n) (s.hcCtxOf h.val) w with
  | none => s.setPort h.val n.val { s.port h.val n.val with cmd := w, queued := true }
  | some s =>
    if isPosted w then
      s.setPort h.val n.val { s.port h.val n.val with busy := false, reply := none, result := 0, value := 0 }
    else s

/-- A complete command in port slot n of HCh starts. -/
def State.portStart (s : State) (h : HcId) (n : Fin 16) (w : Cmd) : State :=
  let p := s.port h.val n.val
  if p.busy then s.discard (h.val / 8)
  else if !portLegal w then
    s.setPort h.val n.val { p with result := stIllegal.setWidth 64, value := 0, reply := none }
  else (s.setPort h.val n.val { p with busy := true, value := 0, reply := none }).portIssue h n w

/-- A sync tag may be free: the operations of ports that wait for one are issued, in the order of the slots. -/
def State.retryPorts (s : State) : State :=
  (s.sync.ports.filter (fun e => e.2.queued)).foldl (fun s e =>
    let h : HcId := BitVec.toFin (BitVec.ofNat 4 (e.1 / 16))
    let n : Fin 16 := BitVec.toFin (BitVec.ofNat 4 e.1)
    (s.setPort h.val n.val { s.port h.val n.val with queued := false }).portIssue h n e.2.cmd) s

/-! ### Completion counters, timeouts, quarantine -/

/-- The first addition bound for a half reaches its home engine (R223). -/
def execCompletionCounterAdd (h : HalfId) (s : State) : Host.Outcome State Fault Refusal :=
  .next (match s.sync.adds.find? (fun a => homeHalf a.index.toNat = h.val) with
    | none => s
    | some a => ({ s with sync := { s.sync with adds := s.sync.adds.erase a } }).counterAdd a)

/-- State of an object in a SYNC_TIMEOUT payload (Table 11-6): bytes 40 to 55. -/
def timeoutState (e : SyncEnt) : Nat :=
  if e.ty = tyBarrier then
    pack [(16, e.gen.toNat), (24, e.arrived), (8, e.n.toNat), (13, e.n.toNat / 256), (3, 0),
      (64, if e.map then 2 ^ e.n.toNat - 1 - (e.curMap.toNat % 2 ^ e.n.toNat) else 0)]
  else e.value.toNat

def asEnt (m : MySub) : SyncEnt := entOfFields m.ty m.map m.state

/-- The object of a record as its half knows it. -/
def State.recObject (s : State) (r : WaitRec) : SyncEnt :=
  if r.remote then
    match s.sync.mySubs.find? (fun (m : MySub) => m.handle = r.handle) with
    | some m => asEnt m
    | none => {}
  else s.ent (handleIx r.handle.toNat)

/-- SYNC_TIMEOUT record (R309). -/
def State.timeoutEv (s : State) (x : Waiter) (r : WaitRec) : Ev :=
  let pay := pack [(64, r.handle.toNat), (48, r.target.toNat), (14, s.selfId), (2, r.cond.toNat),
    (128, timeoutState (s.recObject r))]
  match x with
  | .slot c sl => { typ := evSync, status := stTimeout, kind := 1, engine := 4, src := c.val, ctx := r.ctx.toNat
                    offset := (s.slot c.val sl.val).pc.toNat, payload := pay }
  | .port h _ => { typ := evSync, status := stTimeout, kind := 2, src := h.val, ctx := r.ctx.toNat, payload := pay }

/-- The home no longer holds a TAKE for a unit: its tag goes into quarantine, and the home is told. -/
def State.endTake (s : State) (x : Waiter) : State :=
  match s.sync.reqs.find? (fun e => e.2.who = x && e.2.standing) with
  | none => s
  | some (t, q) =>
    let inc := KV.get 0 s.sync.tagInc t
    let s := s.freeSyncReq t true
    s.inject (s.endPacket (BitVec.ofNat 64 (syncHandle q.w)) (waiterHalf x) true t inc)

/-- The timeout of a WAIT expires (R308). -/
def State.waitTimeout (s : State) (x : Waiter) : State :=
  match s.sync.waits.find? (fun (r : WaitRec) => r.who = .unit x && r.timed) with
  | none => s
  | some r =>
    let s := s.postCtx (s.timeoutEv x r)
    let s := { s with sync := { s.sync with waits := s.sync.waits.erase r } }
    let s := (if r.remote && r.take then s.endTake x else s.prune).reply (.unit x) { status := stTimeout }
    if r.take && !r.remote then s.resettle (handleIx r.handle.toNat) else s

def execWaitTimeout (x : Waiter) (s : State) : Host.Outcome State Fault Refusal := .next (s.waitTimeout x)

def execSyncQuarantineEnd (i : BitVec 16) (s : State) : Host.Outcome State Fault Refusal :=
  .next (let e := s.ent i.toNat
    if e.st = .quarantined then s.setEnt i.toNat { e with st := .free } else s)

/-- A remote operation had no response in 2.5 ms (R306). A TAKE that its home holds has had one. -/
def execRemoteSyncTimeout (tag : Fin 4096) (s : State) : Host.Outcome State Fault Refusal :=
  .next (match s.sync.reqs.find? (fun e => e.1 = tag.val && !e.2.standing) with
    | none => s
    | some (t, q) =>
      let s := s.freeSyncReq t true
      if q.posted then s else s.reply (.unit q.who) { status := stTimeout })

/-! ### Remote waits (R307) -/

def recHalf (r : WaitRec) : Option Nat :=
  match r.who with
  | .unit x => some (waiterHalf x)
  | .remote _ _ _ _ => none

/-- Records of a half on a remote object are evaluated against its state. -/
def State.evalRemote (s : State) (half : Nat) (handle : BitVec 64) (e : SyncEnt) : State :=
  let mine (r : WaitRec) : Bool := r.remote && !r.take && r.handle = handle && recHalf r = some half
  let done := s.sync.waits.filter (fun r => mine r && decide (waitEval e r.target.toNat r.cond.toNat r.take ≠ .waits))
  let s := State.prune { s with sync := { s.sync with waits := s.sync.waits.filter (fun r => !done.contains r) } }
  done.foldl (fun s r => s.reply r.who (settledReply e r.ven (waitEval e r.target.toNat r.cond.toNat r.take))) s

/-- A half takes an object's state into its subscription and evaluates. -/
def State.takeUpdate (s : State) (m : MySub) (seq : Option (BitVec 16)) (state : BitVec 240) : State :=
  let m' := { m with seq := seq, state := state }
  let s := { s with sync := { s.sync with mySubs := s.sync.mySubs.map (fun y => if y = m then m' else y) } }
  s.evalRemote m.half.val m.handle (asEnt m')

/-- The object of a subscription has been freed: its records complete with STALE_HANDLE (R297). -/
def State.takeFreed (s : State) (m : MySub) : State :=
  let done := s.sync.waits.filter (fun (r : WaitRec) => r.remote && !r.take && r.handle = m.handle && recHalf r = some m.half.val)
  let s := { s with sync := { s.sync with
      waits := s.sync.waits.filter (fun r => !done.contains r), mySubs := s.sync.mySubs.erase m } }
  done.foldl (fun s r => s.reply r.who { status := stHandle }) s

/-- Without a subscription the half reads the object's state itself; none says that its handle is stale. -/
def execRemoteStatePoll (h : HalfId) (handle : BitVec 64) (state : Option (BitVec 240)) (s : State) : Host.Outcome State Fault Refusal :=
  .next (match s.sync.mySubs.find? (fun (m : MySub) => m.half = h && m.handle = handle && m.refused), state with
    | none, _ => s
    | some m, some x => s.takeUpdate m m.seq x
    | some m, none => s.takeFreed m)

/-- The update's sequence is serially newer than the last one held. -/
def newerSeq (old : Option (BitVec 16)) (seq : BitVec 16) : Bool :=
  match old with
  | none => true
  | some o => decide (1 ≤ (seq - o).toNat) && decide ((seq - o).toNat < 32768)

/-- Takes a packet from those delivered here. -/
def State.undeliver (s : State) (p : PortId) (pk : Packet) : State :=
  let d := s.fab.delivered
  { s with fab := { s.fab with delivered := if d.contains (some p, pk) then d.erase (some p, pk) else d.erase (none, pk) } }

/-- A half of another module ends its subscription here, or a WAIT with TAKE that this home holds for it. -/
def State.endRemote (s : State) (pk : Packet) : State :=
  let ix := handleIx (fld pk.body 63 0)
  if fld pk.addr 1 1 = 0 then
    { s with sync := { s.sync with homeSubs := s.sync.homeSubs.filter (fun (m : HomeSub) =>
        !(m.module = pk.src && m.index.toNat = ix && m.half.val = fld pk.addr 0 0)) } }
  else
    let gone (r : WaitRec) : Bool := match r.who with
      | .remote src tag inc _ => src = pk.src && tag = pk.tag && inc = pk.tagInc
      | .unit _ => false
    ({ s with sync := { s.sync with waits := s.sync.waits.filter (fun r => !gone r) } }).resettle ix

/-- SYNCUPD: an update of a remote object; to the home of its handle, the end of a subscription. -/
def execSyncupd (p : PortId) (pk : Packet) (s : State) : Host.Outcome State Fault Refusal :=
  .next (let s := s.undeliver p pk
    let h := BitVec.ofNat 64 (fld pk.body 63 0)
    let seq := BitVec.ofNat 16 (fld pk.body 79 64)
    if handleMod h.toNat = s.selfId then s.endRemote pk
    else
      (s.sync.mySubs.filter (fun (m : MySub) => m.handle = h && m.half.val = fld pk.addr 0 0 && newerSeq m.seq seq)).foldl
        (fun s m => if pk.status = stHandle then s.takeFreed m else s.takeUpdate m (some seq) (BitVec.ofNat 240 (fld pk.body 319 80))) s)

/-! ### Packets of remote operations (R306, R307; the in-progress answer is log 24) -/

/-- The command that a SYNC packet carries: BODY holds bits 255 to 32, STATUS the opcode
(log 24). -/
def packetCmd (pk : Packet) : Cmd := BitVec.ofNat 256 (pk.status.toNat + 2 ^ 32 * fld pk.body 223 0)

/-- VALUE word of an in-progress answer to a WAIT: TYPE, MAP, and whether the subscription was
refused. -/
def subWord (e : SyncEnt) (refused : Bool) : BitVec 64 :=
  BitVec.ofNat 64 (pack [(2, e.ty.toNat), (1, b2n e.map), (5, 0), (1, b2n refused)])

/-- Home subscriptions of a half. -/
def State.subsAt (s : State) (h : Nat) : Nat :=
  (s.sync.homeSubs.filter (fun (m : HomeSub) => homeHalf m.index.toNat = h)).length

/-- A remote WAIT whose condition is unmet: a subscription, and the state as a first update. -/
def State.subscribe (s : State) (pk : Packet) (ix : Nat) : State :=
  let e := s.ent ix
  let i := BitVec.ofNat 16 ix
  let half := halfId (fld pk.addr 0 0)
  let same (m : HomeSub) : Bool := m.module = pk.src && m.index = i && m.half = half
  let have' := s.sync.homeSubs.any same
  let refused := !have' && decide (4096 ≤ s.subsAt (homeHalf ix))
  let s := s.sendRsp pk.src pk.tag pk.tagInc pk.fibre { status := 0xFF, value := subWord e refused }
  if refused then s
  else
    let subs := if have' then s.sync.homeSubs else s.sync.homeSubs ++ [{ module := pk.src, half := half, index := i }]
    let subs := subs.map (fun m => if same m then { m with seq := m.seq + 1 } else m)
    match subs.find? same with
    | none => s
    | some m => ({ s with sync := { s.sync with homeSubs := subs } }).inject (s.updPacket m e stOk)

/-- A remote operation is applied at its home and answered with SYNCRSP. -/
def State.syncPacket (s : State) (pk : Packet) : State :=
  let w := packetCmd pk
  let ctx := pk.ctx.toNat
  let who : Asker := .remote pk.src pk.tag pk.tagInc pk.fibre
  let ix := handleIx (syncHandle w)
  let e := s.ent ix
  if cOpc w = 0x11 && !bit w 156 && !e.stale (syncHandle w) ctx &&
      decide (waitEval e (fld w 148 101) (fld w 155 154) false = .waits) then
    s.subscribe pk ix
  else
    match s.syncAt who ctx w with
    | (some r, s) => s.reply who r
    | (none, s) => s.reply who { status := 0xFF, value := subWord e false }

def execSyncPacket (p : PortId) (pk : Packet) (s : State) : Host.Outcome State Fault Refusal :=
  .next ((s.undeliver p pk).syncPacket pk)

/-- The outstanding remote operation that an answer names. -/
def State.findSync (s : State) (pk : Packet) : Option (Nat × SyncReq) :=
  s.sync.reqs.find? (fun e => e.1 = pk.tag.toNat && KV.get 0 s.sync.tagInc e.1 = pk.tagInc)

/-- The record of a remote WAIT, in its half. -/
def waitRecOf (q : SyncReq) (timed : Bool) : WaitRec :=
  let w := q.w
  { who := .unit q.who, ctx := q.ctx, handle := BitVec.ofNat 64 (syncHandle w), target := BitVec.ofNat 48 (fld w 148 101)
    cond := BitVec.ofNat 2 (fld w 155 154), take := bit w 156, ven := bit w 189, timed := timed, remote := true }

/-- A WAIT with TAKE waits at its home: its record, and its request under its tag (R307, R308). -/
def State.standTake (s : State) (tag : Nat) (q : SyncReq) : State :=
  let t := s.waitTimed q.ctx.toNat (fld q.w 188 157)
  { t.2 with sync := { t.2.sync with
      waits := t.2.sync.waits ++ [waitRecOf q t.1], reqs := KV.ins t.2.sync.reqs tag { q with standing := true } } }

/-- A remote WAIT stands: its record, and its half's subscription (R307). -/
def State.standWait (s : State) (q : SyncReq) (v : BitVec 64) : State :=
  let w := q.w
  let h := BitVec.ofNat 64 (syncHandle w)
  let half := waiterHalf q.who
  let t := s.waitTimed q.ctx.toNat (fld w 188 157)
  let y := t.2.sync
  let r := waitRecOf q t.1
  let subs := if y.mySubs.any (fun (m : MySub) => m.half.val = half && m.handle = h) then y.mySubs
    else y.mySubs ++ [{ half := halfId half, handle := h, ty := BitVec.ofNat 2 (fld v 1 0), map := bit v 2, refused := bit v 8 }]
  { t.2 with sync := { y with waits := y.waits ++ [r], mySubs := subs } }

/-- An outstanding operation ends, with its record where it has one, and its unit is told. -/
def State.syncEnd (s : State) (t : Nat) (q : SyncReq) (r : SyncReply) : State :=
  let s := s.freeSyncReq t false
  let s := if q.standing then
      { s with sync := { s.sync with waits := s.sync.waits.filter (fun (r : WaitRec) => !(r.who = .unit q.who && r.remote && r.take)) } }
    else s
  (if q.posted then s else s.reply (.unit q.who) r).retryPorts

/-- SYNCRSP: the operation completes; with RESULT 0xFF its WAIT stands. A late one is discarded (R306). -/
def State.syncRsp (s : State) (p : PortId) (pk : Packet) : State :=
  match s.findSync pk with
  | none => s.discardMsg (if p.val = 2 ∨ 4 ≤ p.val then 1 else 0) (KV.get 0 s.sync.tagHandle pk.tag.toNat).toNat pk.src.toNat
  | some (t, q) =>
    let st := BitVec.ofNat 8 (fld pk.body 7 0)
    let v := BitVec.ofNat 64 (fld pk.body 127 64)
    if st = 0xFF ∧ bit q.w 156 = true then s.standTake t q
    else if st = 0xFF then ((s.freeSyncReq t false).standWait q v).retryPorts
    else s.syncEnd t q { status := st, value := v, spent := bit pk.addr 0 }

def execSyncrsp (p : PortId) (pk : Packet) (s : State) : Host.Outcome State Fault Refusal :=
  .next ((s.undeliver p pk).syncRsp p pk)

/-- A NACK ends a remote operation with the fabric's status (R306). -/
def State.syncNack (s : State) (t : Nat) (q : SyncReq) (st : BitVec 8) : State := s.syncEnd t q { status := st }

/-! ### Lending (R310, R364) -/

/-- A core held only at WAITs beyond LEND_DELAY lends its unused credit. -/
def execCreditLend (c : CoreId) (s : State) : Host.Outcome State Fault Refusal :=
  .next (if (s.core c.val).onlyWaits && s.available c.val && !bit (s.rg oLend) 16 && (s.core c.val).lent.isNone then
      s.lend c.val
    else s)

end Sys2Proof.Machine
end

