-- ==== Sys2Proof/Machine/Fabric.lean ====
section
/-! DEFINITION. The fabric commands PUT, GET, ATOMIC and RPUT at the access engine, and the
service of request packets at their destination (R325 to R334). -/

namespace Sys2Proof.Machine

/-! ### Field tables (Tables 12-9 to 12-11) -/

def putInfo : OpInfo :=
  { engine := 3, base := [(87, 32)], dst := some (139, 88), rsv := [(255, 251)]
    sels := [{ hi := 167, lo := 156, shi := 208, slo := 204 }] }

def getInfo : OpInfo :=
  { engine := 3, base := [(83, 32)], dst := some (139, 84), rsv := [(255, 226)], queues := fun w => queueMask (fbLocal w)
    sels := [{ hi := 167, lo := 156, shi := 208, slo := 204 }] }

def atomicInfo : OpInfo :=
  { engine := 3, base := [(83, 32)], rsv := [(255, 249)]
    sels := [{ hi := 220, lo := 157, shi := 225, slo := 221 }, { hi := 151, lo := 88, shi := 156, slo := 152 }]
    legal := fun w => !cBdst w && decide (fld w 87 84 ≤ 7) && (fld w 87 84 = 2 || fld w 220 157 = 0) }

def rputInfo : OpInfo :=
  { engine := 3, base := [(87, 32)], dst := some (139, 88), rsv := [(255, 228)]
    sels := [{ hi := 159, lo := 140, shi := 184, slo := 180 }] }

/-! ### The remote counter of PUT and RPUT -/

def fbNotify (w : Cmd) : Bool := (cOpc w = 0x60 && bit w 226) || (cOpc w = 0x63 && bit w 202)
def fbRidx (w : Cmd) : Nat := if cOpc w = 0x60 then fld w 242 227 else fld w 218 203
def fbRinc (w : Cmd) : Nat := if cOpc w = 0x60 then fld w 250 243 else fld w 226 219

/-! ### Checks (R211, R325, R329, R331, R332) -/

/-- A SPACE 0 offset in a plain view of a slab, or in cluster memory. -/
def plainOffset (o : Nat) : Bool :=
  match regionOf o with
  | .cluster => true
  | .slab _ v => v = 0
  | _ => false

/-- The rows of a command on the remote side stay within their module and space. -/
def remoteOk (w : Cmd) : Bool :=
  (List.range (fbRows w)).all (fun r => decide (rOffset (fbRemote w) + r * fbRPitch w + fbLen w ≤ 2 ^ 37))

def fabCheck (s : State) (w : Cmd) : Checked :=
  let o := cOpc w
  let cap := if o = 0x63 then decide (fld w 179 160 < fld w 159 140)
    else if o = 0x62 then false else decide (fld w 179 168 < fbRows w)
  let zero := o ≠ 0x62 && (fbRows w = 0 || fbLen w = 0)
  let loc := fbLocal w
  let own := rModule (fbRemote w) = s.selfId
  match o with
  | 0x62 =>
    let n := if bit w 248 then 8 else 4
    checks false false
      (!own && !rTier (fbRemote w) && plainOffset (rOffset (fbRemote w)) && rOffset (fbRemote w) % n = 0 &&
        (!bit w 247 || fld w 246 226 % n = 0))
      (!bit w 247 || inSlabSpace (fld w 246 226) n)
  | 0x63 =>
    checks cap zero
      (!own && !rTier (fbRemote w) && plainOffset (rOffset (fbRemote w)) && fbRemote w % 32 = 0 && loc % 32 = 0 &&
        spanOk loc (fbLen w) && remoteOk w) true
  | _ =>
    checks cap zero
      (!own && remoteOk w && ((o = 0x61 && (queueOf loc).isSome) || rowsOk loc (fbLPitch w) (fbLen w) (fbRows w))) true

/-! ### Outcomes of packets (Table 12-12) -/

/-- Bit of a failed packet. -/
def failBit (st : BitVec 8) : Nat :=
  if st = stAbsent then 0 else if st = stPathLost then 1 else if st = stEcc || st = stPoison then 3 else 2

/-- An entry after the outcome of one packet. -/
def QEnt.outcome (q : QEnt) (st : BitVec 8) : QEnt :=
  { q with got := insertOnce q.got (0, st)
           bitmap := if st = stOk then q.bitmap else q.bitmap ||| BitVec.ofNat 32 (2 ^ failBit st) }

def QEnt.addBit (q : QEnt) (b : Nat) : QEnt := { q with bitmap := q.bitmap ||| BitVec.ofNat 32 (2 ^ b) }

/-- Status of a fabric command from the outcomes of its packets. Progress recorded with an empty bitmap
is of packets that succeeded; with another, an image does not tell (log 126). -/
def QEnt.fabStatus (q : QEnt) : QEnt :=
  let any := q.got.any (fun g => g.2 = stOk) || (decide (q.prog.rows.toNat + q.prog.bytes.toNat ≠ 0) && q.prog.bitmap = 0)
  let b := q.bitmap.toNat
  let st := if b = 0 then stOk
    else if !any && b % 16 = 1 then stAbsent
    else if !any && b % 16 = 2 then stPathLost
    else stPartial
  { q with status := st }

/-! ### Sending -/

/-- A request of a command that leaves by a port: its tag, and its packet. -/
def State.sendReq (s : State) (c : Nat) (q : QEnt) (p tag : Nat) (ctx : Nat) (pk : Packet) (r : FabReq) : State :=
  let inc := s.tagIncOf p tag
  let cc := BitVec.ofNat 16 ctx
  let r := { r with
    port := portOf p, tag := tag, inc := inc, dest := pk.dest, core := (if h : c < 960 then ⟨c, h⟩ else 0), slot := q.slot
    ctx := cc, id := q.id, ptype := pk.ptype }
  ({ s with fab := { s.fab with reqs := s.fab.reqs ++ [r] } }).inject
    { pk with tag := BitVec.ofNat 16 tag, tagInc := inc, ctx := cc }

/-- What building one packet comes to. -/
inductive Built where
  | sent (s : State) (q : QEnt)
  /-- No tag is free. -/
  | noTag
  | failed (q : QEnt)

/-- Routes a request at its source (R335) and gives it a tag. -/
def State.build (s : State) (c : Nat) (q : QEnt) (ctx remote : Nat) (pk : Packet) (r : FabReq) : Built :=
  match s.routeOut none (rModule remote) with
  | .drop st => .failed (q.outcome st)
  | .deliver => .failed q
  | .leave p =>
    if s.cut c (packetRouter p pk) then .failed (q.outcome stPathLost)
    else
      match s.freeTag p with
      | none => .noTag
      | some t => .sent (s.sendReq c q p t ctx pk r) q

/-- Header of a data request to a remote address. -/
def State.dataReq (s : State) (t : BitVec 8) (remote len : Nat) : Packet :=
  { s.mkReq t (fbFibre remote) (rModule remote) 0 0 0 with
    len := BitVec.ofNat 16 len, addr := BitVec.ofNat 64 (remote % 2 ^ 38) }

/-- The NOTIFY of a PUT or RPUT (R330): fibre RIDX mod 8. -/
def State.notifyReq (s : State) (w : Cmd) : Packet :=
  { s.mkReq pkNotify (fbRidx w % 8) (rModule (fbRemote w)) 0 0 0 with
    body := BitVec.ofNat 320 (pack [(16, fbRidx w), (8, fbRinc w)]) }

/-- Every packet so far was acknowledged: also those that the recorded progress covers (R330). -/
def QEnt.allAcked (q : QEnt) : Bool := !q.got.any (fun g => g.2 ≠ stOk) && q.prog.bitmap.toNat % 8 = 0

/-- Once every packet has its answer: the NOTIFY, where one is due, else the command is ready to
complete. A NOTIFY follows only data that was all acknowledged; one that fails is not delivered, whatever
the reason (Table 12-12). -/
def State.fabAdvance (s : State) (c ctx : Nat) (q : QEnt) : State × QEnt :=
  if !(s.reqsOf q.id).isEmpty then (s, { q with await := [1] })
  else if fbNotify q.w && !q.notify then
    let q := { q with notify := true }
    if !q.allAcked then (s, { (q.addBit 4).fabStatus with await := [] })
    else
      match s.build c q ctx (fbRemote q.w) (s.notifyReq q.w) {} with
      | .sent s q => (s, { q with await := [1] })
      | .failed _ => (s, { (q.addBit 4).fabStatus with await := [] })
      | .noTag => (s, { q with notify := false, await := [1] })
  else (s, { q.fabStatus with await := [] })

/-! ### Starting (R326, R329 to R332) -/

/-- The local side of one packet is translated: its places, or what blocks it. -/
inductive LocalRes where
  | ok (l : List (Nat × Nat × Place))
  | block (s : State)
  | bad

def localPlaces (s : State) (m : Mover) (write : Bool) (a n : Nat) : LocalRes :=
  match placesOf (s.core m.c).tlbAcc m.ctx write (halvesOf a n) with
  | .all l => .ok l
  | .miss va => .block (s.missAcc m va write)
  | .denied va lv => .block (s.xltFaultAcc m.c m.q.slot.val m.q.off.toNat va write 3 lv 0xFFFFFFFF 0xFFFFFFFF)
  | .bad => .bad

/-- Data of a packet with the poison of its 32-byte pieces, as they are read half by half: the first
status other than OK, ECC_UNCORRECTABLE and POISONED, and the first of those. -/
structure PackData where
  data : List Byte := []
  bad : Nat := 0
  refused : BitVec 8 := stOk
  st : BitVec 8 := stOk

/-- The data with n bytes more, read with a status. -/
def PackData.add (x : PackData) (d : List Byte) (st : BitVec 8) : PackData :=
  let soft := st = stEcc || st = stPoison
  { data := x.data ++ d
    bad := if soft then x.bad ||| halfMask x.data.length d.length else x.bad
    refused := if x.refused = stOk && !soft then st else x.refused
    st := if x.st = stOk && soft then st else x.st }

/-- Reads the places of a packet's data for core c. -/
def readPack (c ctx : Nat) : State → List (Nat × Nat × Place) → PackData → PackData × State
  | s, [], x => (x, s)
  | s, (_, n, p) :: l, x =>
    let r := s.getPlace c ctx p n
    readPack c ctx r.s l (x.add r.data r.st)

/-- One packet of a PUT or RPUT: its data is read here. Poisoned data travels as poisoned and
fails its part. -/
def putPart (s : State) (m : Mover) (q : QEnt) (x : FabPart) : Start ⊕ (State × QEnt) :=
  let w := q.w
  let remote := fbRemote w + x.row * fbRPitch w + x.off
  match localPlaces s m false (fbLocal w + x.row * fbLPitch w + x.off) x.len with
  | .block s => .inl (.hold s q)
  | .bad => .inl (.stop s stIllegal)
  | .ok ps =>
    let g := readPack m.c m.ctx s ps {}
    if g.1.refused ≠ stOk then .inr (g.2, { (q.outcome g.1.refused) with sent := q.sent + 1 })
    else
      let q' := if g.1.bad ≠ 0 then q.addBit 3 else q
      let pk := { g.2.dataReq (if cOpc w = 0x63 then pkRput else pkPut) remote x.len with
        data := g.1.data, bad := g.1.bad, body := BitVec.ofNat 320 (if cOpc w = 0x63 then b2n (bit w 227) else 0) }
      match g.2.build m.c q' m.ctx remote pk { ix := q.sent, row := x.row, len := x.len } with
      | .sent s q => .inr (s, { q with sent := q.sent + 1 })
      | .failed q => .inr (g.2, { q with sent := q.sent + 1 })
      | .noTag => .inl (.hold s q)

/-- One packet of a GET: its destination is a local range, or the entry of its row in a queue. -/
def getPart (s : State) (m : Mover) (q : QEnt) (x : FabPart) : Start ⊕ (State × QEnt) :=
  let w := q.w
  let remote := fbRemote w + x.row * fbRPitch w + x.off
  let go (s : State) (a : Nat) : Start ⊕ (State × QEnt) :=
    match s.build m.c q m.ctx remote (s.dataReq pkGet remote x.len) { ix := q.sent, row := x.row, len := x.len, addr := some a } with
    | .sent s q => .inr (s, { q with sent := q.sent + 1 })
    | .failed q => .inr (s, { q with sent := q.sent + 1 })
    | .noTag => .inl (.hold s q)
  match queueOf (fbLocal w) with
  | some qi =>
    let o := (s.core m.c).opq qi
    let ahead := x.row - (q.prog.rows.toNat + q.pushed)
    if o.count = 0 || decide (o.entry.toNat * 64 < fbLen w) then .inl (.stop s stIllegal)
    else if o.count.toNat ≤ o.occ + ahead then .inl (.hold s q)
    else go s (slabKey m.c (o.entryAddr (o.tail.toNat + ahead)) + x.off)
  | none =>
    let a := fbLocal w + x.row * fbLPitch w + x.off
    match localPlaces s m true a x.len with
    | .block s => .inl (.hold s q)
    | .bad => .inl (.stop s stIllegal)
    | .ok _ => go s a

/-- Packets from the next one on. -/
def sendParts (m : Mover) (s : State) (q : QEnt) : List FabPart → Start
  | [] =>
    let r := s.fabAdvance m.c m.ctx q
    .go r.1 r.2
  | x :: l =>
    match (if cOpc q.w = 0x61 then getPart s m q x else putPart s m q x) with
    | .inl z => z
    | .inr (s, q) => sendParts m s q l

/-- The request of an ATOMIC: operand at byte 24, compare value at 32, SIZE at 40, OP at 41. -/
def State.atomicReq (s : State) (w : Cmd) : Packet :=
  { s.dataReq pkAtomic (fbRemote w) 0 with
    body := BitVec.ofNat 320 (pack [(64, fld w 151 88), (64, fld w 220 157), (8, b2n (bit w 248)), (8, fld w 87 84)]) }

/-- Start, or continuation at the head, of a fabric command. -/
def startFabric (s : State) (c : Nat) (q : QEnt) : Start :=
  let w := q.w
  let ctx := s.ctxOf c q.slot.val
  let fresh := q.id = 0
  let q : QEnt := if fresh then { q with id := s.fab.nextId + 1, sent := 0, bitmap := q.prog.bitmap, pushed := 0 } else q
  let s := if fresh then { s with fab := { s.fab with nextId := s.fab.nextId + 1 } } else s
  match fabCheck s w with
  | .stop st => .stop s st
  | .noop =>
    if fbNotify w then let r := s.fabAdvance c ctx q; .go r.1 r.2 else .fin s q
  | .go =>
    if cOpc w = 0x62 then
      match s.build c q ctx (fbRemote w) (s.atomicReq w)
          { len := if bit w 248 then 8 else 4, addr := if bit w 247 then some (fld w 246 226) else none } with
      | .sent s q => .go s { q with await := [1], sent := 1 }
      | .failed q => .go s { q.fabStatus with sent := 1 }
      | .noTag => .hold s q
    else sendParts { c := c, ctx := ctx, q := q } s q ((fbParts w q.prog).drop q.sent)

/-! ### Service at the destination (R325, R328, R330 to R332) -/

/-- Writes data from address a on, place by place, and poisons what bit i of `bad` says of bytes 32i to
32i + 31; the first failure stands. -/
def landData (place : State → Nat → Bool → (BitVec 8 ⊕ Place) × State) (s : State) (r₀ ctx a : Nat) (d : List Byte)
    (bad : Nat) : BitVec 8 × State :=
  let put (poison : Bool) (r : BitVec 8 × State) (p : Nat × Nat) : BitVec 8 × State :=
    match place r.2 p.1 true with
    | (.inl st, s) => (if r.1 = stOk then st else r.1, s)
    | (.inr pl, s) =>
      let x := s.putPlace r₀ ctx pl ((d.drop (p.1 - a)).take p.2) poison
      (if r.1 = stOk then x.1 else r.1, x.2)
  let r := (piecesOf a d.length).foldl (put false) (stOk, s)
  ((halvesOf a d.length).filter (fun p => bad &&& halfMask (p.1 - a) p.2 ≠ 0)).foldl (put true) r

/-- Place of a remote address on this module, or the status of the refusal. -/
def State.remotePlace (s : State) (ctx a : Nat) (write : Bool) : (BitVec 8 ⊕ Place) × State :=
  let o := rOffset a
  if rTier a then
    match s.walkNow ctx (0x10000000000000 + o) write with
    | (.leaf e _, s) => (.inr (.tier (e.addr (0x10000000000000 + o))), s)
    | (.fail st, s) => (.inl st, s)
    | (_, s) => (.inl stXlt, s)
  else
    match regionOf o with
    | .cluster => (.inr (.die o), s)
    | .slab k v => (.inr (if v = 0 then .die k else .aliasView k (v = 1)), s)
    | _ => (.inl stIllegal, s)

/-- Writes the data of a packet that arrived by the fibre at router r. -/
def State.serveWrite (s : State) (r ctx a : Nat) (d : List Byte) (bad : Nat) : BitVec 8 × State :=
  landData (fun s x write => s.remotePlace ctx x write) s r ctx a d bad

def State.serveRead (s : State) (r ctx a n : Nat) : PackData × State :=
  (halvesOf a n).foldl (fun x p =>
    match x.2.remotePlace ctx p.1 false with
    | (.inl st, s) => (x.1.add (List.replicate p.2 0) st, s)
    | (.inr pl, s) =>
      let y := s.readVia r ctx pl p.2
      (x.1.add y.data y.st, y.s)) ({}, s)

/-- ACK or NACK of a request; byte 24 names the request's type (log 19). -/
def ackOf (pk : Packet) (st : BitVec 8) : Packet :=
  { answerTo pk (if st = stOk then pkAck else pkNack) st with body := pk.ptype.setWidth 320 }

def State.putPacket (s : State) (p : PortId) (pk : Packet) : State :=
  let r := s.serveWrite (packetRouter p.val pk) pk.ctx.toNat pk.addr.toNat pk.data pk.bad
  r.2.inject (ackOf pk r.1)

/-- Data that cannot be read sound returns with its status, and poisoned. -/
def State.getPacket (s : State) (p : PortId) (pk : Packet) : State :=
  let r := s.serveRead (packetRouter p.val pk) pk.ctx.toNat pk.addr.toNat pk.len.toNat
  if r.1.refused = stOk then
    r.2.inject { answerTo pk pkGetData r.1.st with data := r.1.data, len := pk.len, bad := r.1.bad }
  else r.2.inject (ackOf pk r.1.refused)

/-- New value of an ATOMIC, none where CAS does not store (R331). -/
def atomicOp (op n old x cmp : Nat) : Option Nat :=
  let m := 2 ^ (8 * n)
  match op with
  | 0 => some ((old + x) % m)
  | 1 => some (x % m)
  | 2 => if old = cmp % m then some (x % m) else none
  | 3 => some (old &&& (x % m))
  | 4 => some (old ||| (x % m))
  | 5 => some (old ^^^ (x % m))
  | 6 => some (min old (x % m))
  | _ => some (max old (x % m))

/-- The read-modify-write of an ATOMIC on its 64-byte word; the old value travels at byte 24
(log 19). -/
def State.atomicPacket (s : State) (pt : PortId) (pk : Packet) : State :=
  let r₀ := packetRouter pt.val pk
  let n := if fld pk.body 128 128 = 1 then 8 else 4
  let op := fld pk.body 139 136
  let o := rOffset pk.addr.toNat
  if rTier pk.addr.toNat || !plainOffset o || decide (o % n ≠ 0) || decide (8 ≤ op) then s.inject (ackOf pk stIllegal)
  else
    match s.remotePlace pk.ctx.toNat pk.addr.toNat true with
    | (.inl st, s) => s.inject (ackOf pk st)
    | (.inr p, s) =>
      let r := s.readVia r₀ pk.ctx.toNat p n
      if r.st ≠ stOk then r.s.inject (ackOf pk r.st)
      else
        let old := leNat r.data
        let w : BitVec 8 × State := match atomicOp op n old (fld pk.body 63 0) (fld pk.body 127 64) with
          | none => (stOk, r.s)
          | some v => r.s.writeVia r₀ pk.ctx.toNat p (natLe n v) false
        if w.1 = stOk then w.2.inject { answerTo pk pkAtomicRsp stOk with body := BitVec.ofNat 320 old }
        else w.2.inject (ackOf pk w.1)

/-- One element at the reduction unit of the port at router r₀ (R332): its status. An element that is
poisoned, arriving or stored, leaves the destination element poisoned. -/
def State.rputElem (s : State) (r₀ ctx a : Nat) (d : List Byte) (store poison : Bool) : BitVec 8 × State :=
  match s.remotePlace ctx a true with
  | (.inl st, s) => (st, s)
  | (.inr p, s) =>
    if store then s.putPlace r₀ ctx p d poison
    else
      let r := s.readVia r₀ ctx p 32
      if r.st = stOk then
        r.s.putPlace r₀ ctx p (natLe 32 ((Ala.ofWord (leNat r.data)).add (Ala.ofWord (leNat d))).word) poison
      else if r.st = stEcc || r.st = stPoison then
        let x := r.s.putPlace r₀ ctx p r.data true
        (if x.1 = stOk then r.st else x.1, x.2)
      else (r.st, r.s)

def State.rputPacket (s : State) (p : PortId) (pk : Packet) : State :=
  let a := pk.addr.toNat
  if rTier a || !plainOffset (rOffset a) || decide (a % 32 ≠ 0) then s.inject (ackOf pk stIllegal)
  else
    let r := (List.range (pk.data.length / 32)).foldl (fun (r : BitVec 8 × State) i =>
      let x := r.2.rputElem (packetRouter p.val pk) pk.ctx.toNat (a + 32 * i) ((pk.data.drop (32 * i)).take 32)
        (bit pk.body 0) (pk.bad.testBit i)
      (if r.1 = stOk then x.1 else r.1, x.2)) (stOk, s)
    r.2.inject (ackOf pk r.1)

def State.notifyPacket (s : State) (pk : Packet) : State :=
  (s.counterAdd { index := BitVec.ofNat 16 (fld pk.body 15 0), inc := BitVec.ofNat 8 (fld pk.body 23 16), ctx := pk.ctx, src := some pk.src }).inject
    (ackOf pk stOk)

def execPutPacket (p : PortId) (pk : Packet) (s : State) : Host.Outcome State Fault Refusal :=
  .next ((s.undeliver p pk).putPacket p pk)

def execGetPacket (p : PortId) (pk : Packet) (s : State) : Host.Outcome State Fault Refusal :=
  .next ((s.undeliver p pk).getPacket p pk)

def execAtomicPacket (p : PortId) (pk : Packet) (s : State) : Host.Outcome State Fault Refusal :=
  .next ((s.undeliver p pk).atomicPacket p pk)

def execRputPacket (p : PortId) (pk : Packet) (s : State) : Host.Outcome State Fault Refusal :=
  .next ((s.undeliver p pk).rputPacket p pk)

def execNotifyPacket (p : PortId) (pk : Packet) (s : State) : Host.Outcome State Fault Refusal :=
  .next ((s.undeliver p pk).notifyPacket pk)

end Sys2Proof.Machine
end

