-- ==== Sys2Proof/Machine/Notices.lean ====
section
/-! DEFINITION. Records that Pip posts of its own accord: readiness, SECURITY and POWER
records, and the count of writes to locked fields (R398, R449, R488). -/

namespace Sys2Proof.Machine

/-! ### Readiness (R398) -/

/-- The available map as a number, core 0 lowest. -/
def State.availMap (s : State) : Nat := (s.sec.fusedMap &&& ~~~s.husk.fences).toNat

/-- Readiness items by code. -/
def rdCores : Nat := 1
def rdTier : Nat := 2
def rdOptics : Nat := 3

def readyEv (item part payload : Nat) (time : BitVec 64) : Ev :=
  { typ := evPower, kind := 8, offset := item + part * 65536, payload := payload, stamp := some time }

/-- The records of a readiness item that was met at a time. -/
def State.postReady (s : State) (item : Nat) (time : BitVec 64) : State :=
  if item = rdCores then
    (List.range 3).foldl (fun s p => s.post 0 (readyEv item p (s.availMap / 2 ^ (320 * p) % 2 ^ 320) time)) s
  else s.post 0 (readyEv item 0 0 time)

/-- A readiness item is met: its bit in HIF_READY, and its record, held while queue 0 is
disabled. -/
def State.raiseReady (s : State) (item : Nat) : State :=
  let s := s.setRf oReady item item 1
  if s.evqOn 0 then s.postReady item s.aon
  else { s with hif := { s.hif with held := s.hif.held.filter (fun e => e.1 ≠ item) ++ [(item, s.aon)] } }

/-- A record that waits until queue 0 is enabled; Husk takes its copy at once. -/
def State.postHeld (s : State) (e : Ev) : State :=
  if s.evqOn 0 then s.post 0 e
  else
    let s := if e.husk then s.husk' 1 (e.word (s.evq 0).seq s.aon) 0 else s
    { s with hif := { s.hif with heldRecs := s.hif.heldRecs ++ [{ e with stamp := some s.aon }] } }

/-- Queue 0 is enabled: the held records are posted. -/
def State.releaseReady (s : State) : State :=
  let rs := s.hif.heldRecs
  let s := s.hif.held.foldl (fun s i => s.postReady i.1 i.2) { s with hif := { s.hif with held := [], heldRecs := [] } }
  rs.foldl (fun s e => s.writeEv 0 e) s

/-! ### SECURITY records (R449) -/

def secFallback : Nat := 1
def secCommit : Nat := 2
def secLockCause : Nat := 3
def secUpdate : Nat := 4

/-- A SECURITY record: its cause, and the 39 bytes from byte 25 on. -/
def securityEv (cause rest : Nat) : Ev :=
  { typ := evSecurity, husk := true, kind := 8, payload := cause + 256 * rest }

def State.postSecurity (s : State) (cause rest : Nat) : State := s.post 0 (securityEv cause rest)

/-- One second has passed since a record. -/
def State.secondSince (s : State) (t : Option (BitVec 64)) : Bool :=
  match t with
  | none => true
  | some t => decide (50000000 ≤ (s.aon - t).toNat)

/-- A write to a locked field at a BAR0 offset is ignored, counted, and reported. -/
def State.lockViolation (s : State) (off : Nat) : State :=
  let s := s.setRf oSecCtrl 31 16 (min (s.rf oSecCtrl 31 16 + 1) 0xFFFF)
  if s.secondSince s.sec.lockAt then
    ({ s with sec := { s.sec with lockAt := some s.aon } }).postSecurity secLockCause (off * 2 ^ 16)
  else s

/-! ### POWER records (Table 13-12) -/

/-- A POWER record of Table 13-12: its source, its cause, and bytes 25 on. -/
def State.powerEv (s : State) (kind src cause rest : Nat) : State :=
  s.post 0 { typ := evPower, kind := kind, src := src, payload := cause + 256 * rest }

end Sys2Proof.Machine
end

