-- ==== Sys2Proof/Machine/Matrix.lean ====
section
/-! DEFINITION. The matrix engine: shapes and folds, SKEW streams, SEQ and FIX accumulation,
readout, and the loads, moves and releases of its registers (R59 to R93, R121 to R123, R141,
R144, R145). -/

namespace Sys2Proof.Machine

/-! ### Formats, shapes and cells (Tables 03-1 to 03-3) -/

/-- Rate class: 0 16-bit, 1 8-bit, 2 4-bit, 3 32-bit. -/
def rateClass (f : Nat) : Nat :=
  if f = 0 then 3 else if f = 1 ∨ f = 2 then 0 else if f = 9 ∨ f = 12 then 2 else 1

/-- Elements of a K-step, bytes of a lane, and the K granule in elements. -/
def perStep (f : Nat) : Nat := [1, 2, 4, 1].getD (rateClass f) 1
def laneBytes (f : Nat) : Nat := if f = 0 then 4 else 2
def granule (f : Nat) : Nat := [32, 64, 128, 16].getD (rateClass f) 32

/-- Table 03-2. -/
def pairOk (a b : Nat) : Bool :=
  (a = b && [0, 1, 2, 9, 11, 12].contains a) || ([3, 4].contains a && [3, 4].contains b) ||
  ([5, 6, 7, 8, 10].contains a && [5, 6, 7, 8, 10].contains b)

def isInt (f : Nat) : Bool := f = 11 || f = 12

def shapeFold (sh : Nat) : Nat := [1, 2, 2, 4, 4, 8].getD sh 1
def shapeM (sh : Nat) : Nat := [32, 16, 64, 8, 128, 1].getD sh 0
def shapeN (sh : Nat) : Nat := [32, 64, 16, 128, 8, 256].getD sh 0
/-- R of the narrow operand, or of both where none is wide. -/
def shapeRows (sh : Nat) : Nat := [32, 16, 16, 8, 8, 1].getD sh 32
/-- Which operand is wide: 0 none, 1 A, 2 B. -/
def shapeWide (sh : Nat) : Nat := [0, 2, 1, 2, 1, 2].getD sh 0

/-- Physical cell 32i + j of output (m, n); the partial q under shape code 5. -/
def cellOf (sh m n q : Nat) : Nat :=
  match sh with
  | 0 => 32 * m + n
  | 1 => 32 * (16 * (n / 32) + m) + n % 32
  | 2 => 32 * (m % 32) + 16 * (m / 32) + n
  | 3 => 32 * (8 * (n / 32) + m) + n % 32
  | 4 => 32 * (m % 32) + 8 * (m / 32) + n
  | _ => 32 * (4 * (n / 32) + q) + n % 32

/-! ### Operands (R62 to R68, R134) -/

/-- An operand: a register, or a stream descriptor with its start K-step. -/
structure Operand where
  reg : Option Nat
  fmt : Nat
  rows : Nat
  segs : Nat
  k0 : Nat := 0
  base : Nat := 0
  seg : Nat := 0
  kt : Nat := 0
  sbase : Nat := 0
  sstride : Nat := 0
  scv : Bool := false
  deriving DecidableEq, Repr

/-- Fields of a stream descriptor, bits 139:32 of its MSD in bits 107:0 (Table 04-8). -/
def sdOperand (d : BitVec 109) (fmt rows segs k0 : Nat) : Option Operand :=
  if bit d 108 && rowsOfCode (fld d 5 4) = rows then
    some { reg := none, fmt := fmt, rows := rows, segs := segs, k0 := k0, base := fld d 26 6, kt := fld d 43 27
           seg := fld d 64 44, scv := bit d 65, sbase := fld d 86 66, sstride := fld d 107 87 }
  else none

/-- The stream conditions of R63 and R121: each segment in one slab of the core. -/
def Operand.ok (o : Operand) (ks : Nat) : Bool :=
  match o.reg with
  | some _ => true
  | none =>
    o.kt % (granule o.fmt / perStep o.fmt) = 0 && decide (o.k0 + ks ≤ o.kt) && (!isMx o.fmt || o.scv) &&
    (List.range o.segs).all (fun g =>
      let b := o.base + g * o.seg
      decide (b < 0x180000) && decide (b / 0x30000 = (b + o.kt * o.rows * laneBytes o.fmt - 1) / 0x30000))

/-- Address of K-step s of row l in a stream segment (R64). -/
def skewAddr (base rows kt g s l : Nat) : Nat :=
  let f := 32 / rows
  let q := (s + l) % kt
  base + 32 * g * (q / f) + g * (q % f * rows + l)

/-- K-steps of one MX block (R68). -/
def blockSteps (fmt : Nat) : Nat := if rateClass fmt = 2 then 8 else 16

/-- Ranges read of a segment for n K-steps: each word once (R65). -/
def Operand.words (o : Operand) (g n : Nat) : List (Nat × Nat) :=
  let w := 32 * laneBytes o.fmt
  let f := 32 / o.rows
  let ix := ((List.range (n + o.rows - 1)).map (fun p => (o.k0 + p) % o.kt / f)).eraseDups
  ix.map (fun i => (o.base + g * o.seg + w * i, w))

/-- Scale arrays read for n K-steps: (address, R) of each block. -/
def Operand.scales (o : Operand) (sbase n : Nat) : List (Nat × Nat) :=
  if isMx o.fmt then
    ((List.range n).map (fun t => (o.k0 + t) / blockSteps o.fmt)).eraseDups.map (fun b => (sbase + o.rows * b, o.rows))
  else []

/-- Value of element e of a lane. -/
def laneElem (fmt lane e : Nat) : Num :=
  let b := [16, 8, 4, 32].getD (rateClass fmt) 16
  let v := lane / 2 ^ (b * e) % 2 ^ b
  elemDecode fmt (if fmt = 7 ∨ fmt = 8 then v % 64 else v)

/-- Element k of logical row `l` of the operand, with its block scale (R61). `d` holds the
stream words and scales; `x` the register. -/
def Operand.elem (o : Operand) (d : Pieces) (x : BitVec 16384) (xs : Nat) (l k : Nat) : Num :=
  let u := perStep o.fmt
  let t := k / u
  let g := laneBytes o.fmt
  let seg := l / o.rows
  let r := l % o.rows
  let lane := match o.reg with
    | some _ => fld x (8 * (r * (2048 / o.rows) + t * g + g) - 1) (8 * (r * (2048 / o.rows) + t * g))
    | none => leNat (pieceAt d (skewAddr (o.base + seg * o.seg) o.rows o.kt g (o.k0 + t) r) g)
  let v := laneElem o.fmt lane (k % u)
  if isMx o.fmt then
    let sb := if o.reg.isSome then xs else o.sbase + seg * o.sstride
    v.mul (scaleNum (leNat (pieceAt d (sb + o.rows * ((o.k0 + t) / blockSteps o.fmt) + r) 1)))
  else v

/-! ### Accumulation (R78 to R84) -/

/-- A cell during an instruction. -/
structure Cell where
  /-- FP32 encoding in SEQ; V in FIX. -/
  f : Nat := 0
  v : Int := 0
  nan : Bool := false
  pinf : Bool := false
  ninf : Bool := false
  sat : Bool := false
  /-- Products below one step met. -/
  lost : Nat := 0
  deriving DecidableEq, Repr

/-- SEQ: one rounding per addition. -/
def Cell.seq (x : Cell) (p : Num) : Cell := { x with f := fp32.enc (fp32.add (fp32.decode x.f) p) }

def fixMax : Int := 2 ^ 95 - 1

/-- FIX at anchor a (R81 to R84). -/
def Cell.fix (a : Int) (x : Cell) : Num → Cell
  | .nan => { x with nan := true }
  | .inf neg => if neg then { x with ninf := true } else { x with pinf := true }
  | .fin neg m e =>
    let q := a - 64
    let p : Int := roundQ .rne m e q
    let below := decide (m ≠ 0) && decide (e < q) && decide (m < 2 ^ (q - e).toNat)
    let x := if below then { x with lost := x.lost + 1 } else x
    if x.sat then x
    else
      let v := x.v + (if neg then -p else p)
      if fixMax < v then { x with v := fixMax, sat := true }
      else if v < -fixMax - 1 then { x with v := -fixMax - 1, sat := true }
      else { x with v := v }

def Tile.cell (t : Tile) (i : Nat) : Cell :=
  let raw := fld t.cells (96 * i + 95) (96 * i)
  { f := raw % 2 ^ 32, v := signed 96 raw, nan := bit t.cflags (3 * i), pinf := bit t.cflags (3 * i + 1)
    ninf := bit t.cflags (3 * i + 2), sat := bit t.sat i }

def Tile.setCell (t : Tile) (int : Bool) (i : Nat) (x : Cell) : Tile :=
  { cells := setFld t.cells (96 * i + 95) (96 * i) (if int then (x.v % 2 ^ 96).toNat else x.f)
    cflags := setFld t.cflags (3 * i + 2) (3 * i) (pack [(1, b2n x.nan), (1, b2n x.pinf), (1, b2n x.ninf)])
    sat := setBit t.sat i x.sat }

/-- An accumulator tile as delivered to a command. -/
def Core.acc (k : Core) (n : Nat) : Tile :=
  let t : Tile := KV.get {} k.accs n
  { t with cells := fixReg k.regChk (tagA n) t.cells }

def Core.setAcc (k : Core) (n : Nat) (t : Tile) (tg : BitVec 128) (keep : Nat → Bool := fun _ => false) : Core :=
  (({ k with accs := KV.put {} k.accs n t }).renew (tagA n) keep).setTag (tagA n) tg

/-- Words of an accumulator tile that hold some cells. -/
def cellWords (cells : List Nat) (n : Nat) : Bool :=
  cells.any (fun i => decide (96 * i / 256 = n) || decide ((96 * i + 95) / 256 = n))

/-- Words of an X register of `rows` rows that hold bytes lo to hi − 1 of a row. -/
def xWords (rows lo hi n : Nat) : Bool :=
  let o := 32 * n % (2048 / rows)
  decide (o < hi) && decide (lo < o + 32) && decide (32 * n / (2048 / rows) < rows)

/-- Cells of outputs (0, 0) to (m − 1, n − 1). -/
def cellsOf (sh m n : Nat) : List Nat :=
  ((List.range m).map (fun i => ((List.range n).map (fun j =>
    (List.range (if sh = 5 then 4 else 1)).map (cellOf sh i j))).flatten)).flatten

/-- Tag of a tile that a ZERO instruction starts. -/
def accTag (sh fa fb : Nat) (fix : Bool) (anchor : Nat) : BitVec 128 :=
  BitVec.ofNat 128 (pack [(1, 1), (1, 0), (2, 1), (4, fa), (4, fb), (3, sh), (1, b2n fix), (4, 0), (6, 32), (6, 0),
    (11, 32), (21, 0), (16, if fix then anchor else 0)])

/-! ### MMA (R60 to R93, R122) -/

def mmaShape (w : Cmd) : Nat := fld w 34 32
def mmaFa (w : Cmd) : Nat := fld w 38 35
def mmaFb (w : Cmd) : Nat := fld w 42 39
def mmaZero (w : Cmd) : Bool := bit w 45
def mmaT (w : Cmd) : Nat := fld w 47 46
def mmaK (w : Cmd) : Nat := fld w 74 64

def mmaInfo : OpInfo :=
  { engine := 0, rsv := [(255, 162)]
    sels := [{ hi := 146, lo := 136, shi := 161, slo := 157 }, { hi := 135, lo := 127, shi := 156, slo := 152 },
      { hi := 126, lo := 119, shi := 151, slo := 147 }]
    regs := fun w => 2 ^ (8 + mmaT w) ||| (if bit w 75 then 0 else 2 ^ fld w 79 76) |||
      (if bit w 97 then 0 else 2 ^ fld w 101 98)
    legal := fun w => decide (mmaShape w ≤ 5) && decide (fld w 44 43 ≠ 3) && decide (mmaFa w ≠ 15) &&
      decide (mmaFb w ≠ 15) && (bit w 75 || decide (fld w 79 76 < 8)) && (bit w 97 || decide (fld w 101 98 < 8)) }

/-- Mode of an MMA: the list's default or its own. -/
def mmaFix (x : Slot) (w : Cmd) : Bool :=
  let a := fld w 44 43
  if a = 0 then hAccDefault x.hdr = 1 else a = 2

/-- An operand of an MMA; none where its descriptor is invalid or of other rows. -/
def mmaOperand (x : Slot) (w : Cmd) (isA : Bool) : Option Operand :=
  let sh := mmaShape w
  let wide := shapeWide sh = (if isA then 1 else 2)
  let rows := if wide then 32 else shapeRows sh
  let segs := if wide then shapeFold sh else 1
  let fmt := if isA then mmaFa w else mmaFb w
  let src := if isA then bit w 75 else bit w 97
  let ix := if isA then fld w 79 76 else fld w 101 98
  let k0 := if isA then fld w 96 80 else fld w 118 102
  if rows = 1 && src then none
  else if src then sdOperand (KV.get 0 x.sds ix) fmt rows segs k0
  else if wide && shapeFold sh ≠ 1 then none
  else some { reg := some ix, fmt := fmt, rows := rows, segs := 1 }

/-- The check of R91 on a register operand. -/
def mmaRegCheck (k : Core) (o : Operand) (ks : Nat) : BitVec 8 :=
  match o.reg with
  | none => stOk
  | some n =>
    let t := k.tag (tagX n)
    tagCheck t o.rows (tFmt t = o.fmt && tRows t = o.rows && decide (ks ≤ tPos t))

/-- The check of R91 on the accumulator. -/
def mmaAccCheck (k : Core) (x : Slot) (w : Cmd) : BitVec 8 :=
  if mmaZero w then stOk
  else
    let t := k.tag (tagA (mmaT w))
    let fix := mmaFix x w
    if !tInUse t then stTileEmpty
    else if tShape t ≠ mmaShape w || tFmt t ≠ mmaFa w || tFmtB t ≠ mmaFb w || tFix t ≠ fix ||
        (fix && decide (tAnchor t ≠ signed 16 (fld w 63 48))) then stShape
    else if tPoison t then stPoison
    else stOk

/-- A matrix command in execution that uses accumulator t. -/
def usesAcc (t : Nat) (q : QEnt) : Bool :=
  match cOpc q.w with
  | 0x20 => mmaT q.w = t
  | 0x21 => fld q.w 33 32 = t
  | 0x24 => bit q.w 32 && fld q.w 34 33 = t
  | _ => false

/-- A readout in execution. -/
def isReadout (q : QEnt) : Bool := cOpc q.w = 0x21 || (cOpc q.w = 0x24 && bit q.w 32)

/-- R73 rule 4 and R89: what holds an MMA back. -/
def mmaBlocked (k : Core) (x : Slot) (w : Cmd) : Bool :=
  (k.run 0).any (fun q => (isReadout q && usesAcc (mmaT w) q) ||
    (cOpc q.w = 0x20 && (mmaShape q.w ≠ mmaShape w || rateClass (mmaFa q.w) ≠ rateClass (mmaFa w) ||
      mmaFix (k.slot q.slot.val) q.w ≠ mmaFix x w)))

/-- The products of output (m, n) in the order of R78, each with the partial that takes it. -/
def mmaProducts (sh u kr kb : Nat) (a b : List Num) : List (Nat × Num) :=
  (List.zipWith Num.mul a b).zipIdx.map (fun p => (if sh = 5 then (kb + p.2 / u) % 4 else 0, p.1)) |>.take kr

/-- Adds the products of one output to its cells. -/
def mmaCell (int : Bool) (a : Int) (sh m n : Nat) (ps : List (Nat × Num)) (r : Tile × Nat) : Tile × Nat :=
  (List.range (if sh = 5 then 4 else 1)).foldl (fun r q =>
    let i := cellOf sh m n q
    let mine := (ps.filter (fun p => p.1 = q)).map (·.2)
    let x := mine.foldl (fun x p => if int then x.fix a p else x.seq p) (r.1.cell i)
    (r.1.setCell int i x, r.2 + x.lost)) r

/-- The reuse latch after an operand is read, and whether it was reused (R90). -/
def latchStep (old : Option Latch) (o : Operand) (sh : Nat) : Option Latch × Bool :=
  match o.reg with
  | none => (old, false)
  | some n =>
    let l : Latch := { reg := BitVec.ofNat 3 n, shape := BitVec.ofNat 3 sh, fmt := BitVec.ofNat 4 o.fmt }
    (some l, decide (old = some l))

/-- Everything an MMA computes once its checks have passed. -/
def mmaRun (s : State) (c : Nat) (q : QEnt) (x : Slot) (oa ob : Operand) : Start :=
  let w := q.w
  let k := s.core c
  let ctx := x.ctx.toNat
  let sh := mmaShape w
  let fix := mmaFix x w
  let int := fix || isInt (mmaFa w)
  let mr := fld w 126 119
  let nr := fld w 135 127
  let kr := fld w 146 136
  let u := perStep oa.fmt
  let kst := ceilDiv kr (granule oa.fmt) * granule oa.fmt / u
  let tA := oa.reg.map (fun n => k.tag (tagX n)) |>.getD 0
  let tB := ob.reg.map (fun n => k.tag (tagX n)) |>.getD 0
  let rd (o : Operand) (t : BitVec 128) : List (Nat × Nat) :=
    match o.reg with
    | some _ => o.scales (tSbase t) kst
    | none => ((List.range o.segs).map (fun g => o.words g kst ++ o.scales (o.sbase + g * o.sstride) kst)).flatten
  let ranges := rd oa tA ++ rd ob tB
  let s0 := s
  let (d, st, s) := s.engReads c ctx ranges
  let tn := mmaT w
  -- a register word that fails its check (R93, Table 07-8)
  let badX (o : Operand) : Bool := match o.reg with
    | some n => k.regBad (tagX n) (xWords o.rows 0 (kst * laneBytes o.fmt))
    | none => false
  let badReg := badX oa || badX ob || (!mmaZero w && k.regBad (tagA tn) (cellWords (cellsOf sh mr nr)))
  let st := if st = stOk && badReg then stEcc else st
  let old := k.tag (tagA tn)
  let fresh := accTag sh oa.fmt ob.fmt fix (fld w 63 48)
  let tag := if mmaZero w then fresh else old
  if ranges.any (fun r => !inSlabSpace r.1 r.2) then .stop s0 stCapacity
  else if st = stIllegal then .stop s st
  else if st ≠ stOk then
    let lost : Tile := { cells := s.freeVal 98304, cflags := s.took.freeVal 3072, sat := s.took.took.freeVal 1024 }
    stopEcc (s.took.took.took.modCore c (fun k => k.setAcc tn lost (setBit tag 18 true))) st c ranges
  else
    let xa := oa.reg.map k.xreg |>.getD 0
    let xb := ob.reg.map k.xreg |>.getD 0
    let ra := (List.range mr).map (fun l => (List.range kr).map (fun e => oa.elem d xa (tSbase tA) l e))
    let rb := (List.range nr).map (fun l => (List.range kr).map (fun e => ob.elem d xb (tSbase tB) l e))
    let t0 : Tile := if mmaZero w then {} else k.acc tn
    let anchor : Int := if fix then signed 16 (fld w 63 48) else 64
    let r := ra.zipIdx.foldl (fun r a => rb.zipIdx.foldl (fun r b =>
      mmaCell int anchor sh a.2 b.2 (mmaProducts sh u kr ob.k0 a.1 b.1) r) r) (t0, 0)
    let tag := if int then
        setBit (setBit (setFld tag 127 96 (min (tUloss tag + r.2) 0xFFFFFFFF)) 16 (decide (r.1.sat ≠ 0))) 17
          (fix && decide (r.1.cflags ≠ 0))
      else tag
    let la := latchStep k.latchA oa sh
    let lb := latchStep k.latchB ob sh
    let keep (i : Nat) : Bool := !mmaZero w && !cellWords (cellsOf sh mr nr) i
    let s := s.modCore c (fun k => { k.setAcc tn r.1 tag keep with latchA := la.1, latchB := lb.1 })
    let s := (s.count c 0x48 (mr * nr * ceilDiv kr u)).count c 0x68 (b2n (la.2 || lb.2))
    .go s q

/-- Start of an MMA: the conditions of R60 to R63, R69, R75 and R122, the tags of R91, the
extents of R76, the no-op of R77. -/
def startMma (s : State) (c : Nat) (q : QEnt) : Start :=
  let w := q.w
  let k := s.core c
  let x := k.slot q.slot.val
  let sh := mmaShape w
  let f := mmaFa w
  let kk := mmaK w
  let ks := kk / perStep f
  if !pairOk f (mmaFb w) || (f = 0 && sh ≠ 0) || decide (kk % granule f ≠ 0) || decide (kk < granule f) ||
      decide (1024 < kk) then .stop s stIllegal
  else
    match mmaOperand x w true, mmaOperand x w false with
    | some oa, some ob =>
      if !oa.ok ks || !ob.ok ks then .stop s stIllegal
      else
        let sa := mmaRegCheck k oa ks
        let sb := mmaRegCheck k ob ks
        let sc := mmaAccCheck k x w
        let mr := fld w 126 119
        let nr := fld w 135 127
        let kr := fld w 146 136
        if sa ≠ stOk then .stop s sa
        else if sb ≠ stOk then .stop s sb
        else if sc ≠ stOk then .stop s sc
        else if decide (shapeM sh < mr) || decide (shapeN sh < nr) || decide (kk < kr) then .stop s stCapacity
        else if mmaBlocked k x w then .wait s
        else if mr = 0 || nr = 0 || kr = 0 then
          let s := if mmaZero w then
              s.modCore c (fun k => k.setAcc (mmaT w) {} (accTag sh f (mmaFb w) (mmaFix x w) (fld w 63 48)))
            else s
          .fin s q
        else mmaRun s c q x oa ob
    | _, _ => .stop s stIllegal

/-! ### Readout (R87, R88) -/

/-- The value of output (i, j) of an integer tile: its V summed over the partials, its flags. -/
structure IntOut where
  v : Int := 0
  nan : Bool := false
  pinf : Bool := false
  ninf : Bool := false
  sat : Bool := false

def intOut (t : Tile) (sh i j : Nat) : IntOut :=
  (List.range (if sh = 5 then 4 else 1)).foldl (fun (r : IntOut) q =>
    let x := t.cell (cellOf sh i j q)
    { v := r.v + x.v, nan := r.nan || x.nan, pinf := r.pinf || x.pinf, ninf := r.ninf || x.ninf, sat := r.sat || x.sat }) {}

/-- Value of a floating SEQ output: ((p0 + p1) + p2) + p3 under shape code 5. -/
def seqOut (t : Tile) (sh i j : Nat) : Num :=
  let p (q : Nat) : Num := fp32.decode (t.cell (cellOf sh i j q)).f
  if sh = 5 then fp32.add (fp32.add (fp32.add (p 0) (p 1)) (p 2)) (p 3) else p 0

/-- An element of an integer tile in a floating format, with the flags of R88. -/
def intElem (fmt : Nat) (n : Narrow) (ix : BitVec 64) (a : Int) (o : IntOut) : Nat × Cf :=
  if o.nan || (o.pinf && o.ninf) then narrow fmt n ix .nan
  else if o.pinf || o.ninf then narrow fmt n ix (.inf o.ninf)
  else if o.sat then let r := narrow fmt n ix .nan; (r.1, { r.2 with inv := true })
  else narrow fmt n ix (.fin (decide (o.v < 0)) o.v.natAbs (a - 64))

/-- An element as ALA-192 (R57). Its OVF or LOSS sets no sticky flag by itself: R56 says so of the conversions
of values, R57 and R88 do not say it of a readout (DESIGN CHOICE, log 134). -/
def alaOut (a : Int) (o : IntOut) (loss : Bool) : Nat :=
  let bad := o.nan || (o.pinf && o.ninf)
  Ala.word { n := if o.ninf && !bad then -1 else if o.pinf && !bad then 1 else o.v * 2 ^ 64, a := a, ovf := o.sat, loss := loss
             nan := bad, inf := !bad && (o.pinf || o.ninf) }

/-- One element of a readout. -/
def readElem (k : Core) (tn sh fmt : Nat) (n : Narrow) (ix : BitVec 64) (i j : Nat) : Nat × Cf :=
  let tg := k.tag (tagA tn)
  let t := k.acc tn
  let fix := tFix tg
  let a : Int := if fix then tAnchor tg else 64
  if fix || isInt (tFmt tg) then
    if fmt = fmAla then (alaOut a (intOut t sh i j) (decide (tUloss tg ≠ 0)), {})
    else intElem fmt n ix a (intOut t sh i j)
  else narrow fmt n ix (seqOut t sh i j)

/-- Status and flags of a readout of a tile (R88). -/
def readStatus (tg : BitVec 128) (fl : Cf) (q : QEnt) : QEnt :=
  { q with status := if tAnchOvf tg then stAnchor else stOk
           flags := ({ fl with loss := fl.loss || decide (tUloss tg ≠ 0) } : Cf).flags }

/-- A tile that is not complete, or a readout path in use (R89). -/
def readBlocked (k : Core) (t : Nat) : Bool :=
  (k.run 0).any (fun q => (cOpc q.w = 0x20 && mmaT q.w = t) || cOpc q.w = 0x21)

def mrdInfo : OpInfo :=
  { engine := 0, rsv := [(255, 251)], base := [(64, 44)]
    sels := [stepSel, { hi := 99, lo := 91, shi := 109, slo := 105 }, { hi := 90, lo := 83, shi := 104, slo := 100 }]
    regs := fun w => 2 ^ (8 + fld w 33 32)
    legal := fun w => decide (fld w 36 34 ≤ 5) && decide (fld w 42 41 ≠ 3) && [0, 1, 3, 4, 14].contains (fld w 40 37) }

def startMrd (s : State) (c : Nat) (q : QEnt) : Start :=
  let w := q.w
  let k := s.core c
  let x := k.slot q.slot.val
  let tn := fld w 33 32
  let sh := fld w 36 34
  let fmt := fld w 40 37
  let tg := k.tag (tagA tn)
  let me := fld w 90 83
  let ne := fld w 99 91
  if !tInUse tg then .stop s stTileEmpty
  else if tShape tg ≠ sh then .stop s stShape
  else if fmt = fmAla && !tFix tg then .stop s stIllegal
  else if tPoison tg then .stop s stPoison
  else if shapeM sh < me ∨ shapeN sh < ne then .stop s stCapacity
  else if readBlocked k tn then .wait s
  else if me = 0 ∨ ne = 0 then .fin s q
  else if k.regBad (tagA tn) (cellWords (cellsOf sh me ne)) then
    .stop (s.modCore c (fun k => k.setTag (tagA tn) (setBit tg 18 true))) stEcc
  else
    let n := narrowOf x w (fld w 42 41) (bit w 43)
    let rows := (List.range me).map (fun i => (List.range ne).map (fun j => readElem k tn sh fmt n (srIndex w i j) i j))
    let fl := rows.foldl (fun f r => r.foldl (fun (f : Cf) e => f.or e.2) f) ({} : Cf)
    let nb := fmtBits fmt / 8
    let items := rows.zipIdx.map (fun r => (fld w 64 44 + r.2 * fld w 82 65,
      natLe (ne * nb) (packElems (8 * nb) (r.1.map (·.1)))))
    let r := s.engWrites c x.ctx.toNat items
    if r.1 ≠ stOk then stopEcc r.2 r.1 c (rangesOf items) else .go r.2 (readStatus tg fl q)

/-! ### MSD, MLD, MMOVE, MREL -/

def msdInfo : OpInfo :=
  { engine := 0, rsv := [(255, 140)], base := [(58, 38), (118, 98)]
    legal := fun w => fld w 58 38 % 128 = 0 && fld w 96 76 % 128 = 0 && decide (1 ≤ fld w 75 59) }

def startMsd (s : State) (c : Nat) (q : QEnt) : Start :=
  .go (s.modSlot c q.slot.val (fun x =>
    { x with sds := KV.put 0 x.sds (fld q.w 35 32) (BitVec.ofNat 109 (fld q.w 139 32 + 2 ^ 108)) })) q

def mldInfo : OpInfo :=
  { engine := 0, rsv := [(255, 113)], base := [(72, 52)], regs := fun w => 2 ^ fld w 34 32
    legal := fun w =>
      let p := fld w 51 41
      let f := fld w 38 35
      decide (f ≤ 12) && decide (1 ≤ p) && decide (p ≤ 1024) && fld w 72 52 % 64 = 0 &&
      (fld w 90 73 = p * laneBytes f || fld w 90 73 % 64 = 0) && bit w 112 = isMx f }

/-- MLD (R144). Bytes of a row past POS × g keep what the register held, which no command reads and a save
image shows (DESIGN CHOICE, log 118). -/
def startMld (s : State) (c : Nat) (q : QEnt) : Start :=
  let w := q.w
  let k := s.core c
  let x := k.slot q.slot.val
  let xd := fld w 34 32
  let f := fld w 38 35
  let rows := rowsOfCode (fld w 40 39)
  let pos := fld w 51 41
  let g := laneBytes f
  let src := fld w 72 52
  if tLoading (k.tag (tagX xd)) then .stop s stIllegal
  else if 2048 < rows * pos * g ∨ !(List.range rows).all (fun l => inSlabSpace (src + l * fld w 90 73) (pos * g)) then
    .stop s stCapacity
  else
    let addr (l : Nat) : Nat := src + l * fld w 90 73
    let ranges := (List.range rows).map (fun l => (addr l, pos * g))
    let (d, st, s) := s.engReads c x.ctx.toNat ranges
    let tag (p : Bool) : BitVec 128 := mkTag 0 f rows pos rows (scv := bit w 112) (sbase := fld w 111 91) (poison := p)
    let old := k.xreg xd
    let v := (List.range rows).foldl (fun (v : BitVec 16384) l =>
      let o := l * (2048 / rows)
      setFld v (8 * (o + pos * g) - 1) (8 * o) (leNat (pieceAt d (addr l) (pos * g)))) old
    if st ≠ stOk then stopEcc (if st = stIllegal then s else s.modCore c (fun k => k.setX xd old (tag true))) st c ranges
    else .go (s.modCore c (fun k => k.setX xd v (tag false))) q

def mmoveInfo : OpInfo :=
  { engine := 0, rsv := [(255, 251), (109, 45)], sels := [stepSel]
    regs := fun w => (if bit w 32 then 2 ^ (8 + fld w 34 33) else 2 ^ fld w 35 33) ||| 2 ^ (12 + fld w 39 36)
    legal := fun w => decide (fld w 44 43 ≠ 3) && !(bit w 32 && bit w 35) }

/-- MMOVE from an X register: each element widened (R42, R141). -/
def moveX (s : State) (c : Nat) (q : QEnt) (x : Slot) (n vd : Nat) : Start :=
  let w := q.w
  let k := s.core c
  let t := k.tag (tagX n)
  let f := tFmt t
  let cq := fld w 41 40
  let st := tagCheck t 32 (tRows t = 32 && f ≠ 0)
  if st ≠ stOk then .stop s st
  else if tPos t * perStep f < 32 * (cq + 1) then .stop s stCapacity
  else
    let o : Operand := { reg := some n, fmt := f, rows := 32, segs := 1 }
    -- the scales of block COLQ, whose elements it widens
    let ranges := if isMx f then [(tSbase t + 32 * cq, 32)] else []
    let g := laneBytes f
    let u := perStep f
    let s0 := s
    let (d, st, s) := s.engReads c x.ctx.toNat ranges
    if ranges.any (fun r => !inSlabSpace r.1 r.2) then .stop s0 stCapacity
    else if k.regBad (tagX n) (xWords 32 (32 * cq / u * g) (32 * (cq + 1) / u * g)) then .stop s0 stEcc
    else if st = stIllegal then .stop s st
    else if st ≠ stOk then
      stopEcc (s.modCore c (fun k => k.setV vd (k.vreg vd) (mkTag 2 0 32 32 32 (poison := true)))) st c ranges
    else
      let es := (List.range 1024).map (fun i =>
        fp32.encode .rne false (o.elem d (k.xreg n) (tSbase t) (i / 32) (32 * cq + i % 32)))
      let fl := es.foldl (fun (a : Cf) e => a.or e.2) {}
      .go (s.modCore c (fun k => k.setV vd (BitVec.ofNat 32768 (packElems 32 (es.map (·.1)))) (vTag 0)))
        { q with flags := fl.flags }

/-- MMOVE from an accumulator of shape code 0. -/
def moveA (s : State) (c : Nat) (q : QEnt) (x : Slot) (n vd : Nat) : Start :=
  let w := q.w
  let k := s.core c
  let t := k.tag (tagA n)
  if !tInUse t then .stop s stTileEmpty
  else if tShape t ≠ 0 then .stop s stShape
  else if tPoison t then .stop s stPoison
  else if readBlocked k n then .wait s
  else if k.regBad (tagA n) (fun _ => true) then .stop (s.modCore c (fun k => k.setTag (tagA n) (setBit t 18 true))) stEcc
  else
    let nr := narrowOf x w (fld w 44 43) (bit w 42)
    let int := tFix t || isInt (tFmt t)
    let es := (List.range 1024).map (fun i =>
      if int then readElem k n 0 0 nr (srIndex w (i / 32) (i % 32)) (i / 32) (i % 32)
      else (((k.acc n).cell i).f, ({} : Cf)))
    let fl := es.foldl (fun (a : Cf) e => a.or e.2) {}
    .go (s.modCore c (fun k => k.setV vd (BitVec.ofNat 32768 (packElems 32 (es.map (·.1)))) (vTag 0))) (readStatus t fl q)

def startMmove (s : State) (c : Nat) (q : QEnt) : Start :=
  let w := q.w
  let k := s.core c
  let x := k.slot q.slot.val
  let vd := fld w 39 36
  if tLoading (k.tag (tagV vd)) then .stop s stIllegal
  else if bit w 32 then moveA s c q x (fld w 34 33) vd
  else moveX s c q x (fld w 35 33) vd

def mrelInfo : OpInfo :=
  { engine := 0, rsv := [(255, 44)], regs := fun w => fld w 43 32 }

/-- Registers a matrix command names, as a mask. -/
def matrixRegs (w : Cmd) : Nat :=
  match cOpc w with
  | 0x20 => mmaInfo.regs w
  | 0x21 => mrdInfo.regs w
  | 0x23 => mldInfo.regs w
  | 0x24 => mmoveInfo.regs w
  | _ => 0

/-- MREL (R138, R145): waits for the earlier commands that use its registers. -/
def startMrel (s : State) (c : Nat) (q : QEnt) : Start :=
  let k := s.core c
  let mask := fld q.w 43 32
  if (List.range 12).any (fun n => mask / 2 ^ n % 2 = 1 && tLoading (k.tag n)) then .stop s stIllegal
  else if (k.run 0).any (fun r => matrixRegs r.w &&& mask ≠ 0) then .wait s
  else .go (s.modCore c (fun k => k.releaseMask mask)) q

def startMatrix (s : State) (c : Nat) (q : QEnt) : Start :=
  match cOpc q.w with
  | 0x20 => startMma s c q
  | 0x21 => startMrd s c q
  | 0x22 => startMsd s c q
  | 0x23 => startMld s c q
  | 0x24 => startMmove s c q
  | _ => startMrel s c q

end Sys2Proof.Machine
end

