-- ==== Sys2Proof/Machine/Approx.lean ====
section
/-! DEFINITION. The operations whose results the spec gives within an error bound: RSQRT, EXP,
EXP2, LOG, LOG2, TANH and SIGMOID (Table 05-11). The true value is computed in fixed point
with 192 fraction bits; the device's own result is a free value wherever it keeps the bound,
and the correctly rounded one where it would not (log 15). -/

namespace Sys2Proof.Machine

/-- Fraction bits of the fixed point. -/
def fxP : Nat := 192

/-- ln 2 in fixed point. -/
def fxLn2 : Int := 4350955369971217654477563090224794165364344896676135745069

def fxOne : Int := 2 ^ fxP

def fxMul (a b : Int) : Int := a * b / fxOne

/-- A value in fixed point, rounded down; |value| below 2^200. -/
def Num.fx : Num → Int
  | .fin neg m e =>
    let v : Int := if 0 ≤ e + fxP then (m * 2 ^ (e + fxP).toNat : Nat) else (m / 2 ^ (-(e + fxP)).toNat : Nat)
    if neg then -v else v
  | _ => 0

/-- The value v × 2^(k − 192). -/
def fxNum (v k : Int) : Num := .fin (decide (v < 0)) v.natAbs (k - fxP)

/-- Σ r^i / i! for i below n, from the term given. -/
def expSeries (r : Int) : Nat → Nat → Int → Int
  | 0, _, _ => 0
  | n + 1, i, t => t + expSeries r n (i + 1) (fxMul t r / (i + 1))

/-- e^x for |x| below 2^10, in fixed point x. -/
def fxExp (x : Int) : Num :=
  let k := (x + fxLn2 / 2) / fxLn2
  fxNum (expSeries (x - k * fxLn2) 45 0 fxOne) k

/-- Σ t^(2i+1) / (2i + 1) for i below n, with t2 = t². -/
def atanhSeries (t2 : Int) : Nat → Nat → Int → Int
  | 0, _, _ => 0
  | n + 1, i, t => t / (2 * i + 1) + atanhSeries t2 n (i + 1) (fxMul t t2)

/-- ln of a positive value, in fixed point. -/
def fxLn : Num → Int
  | .fin _ m e =>
    let l := Nat.log2 m
    -- y in [1, 2), taken down to (0.7, 1.4]
    let y : Int := m * 2 ^ fxP / 2 ^ l
    let big := decide (fxOne * 1414 / 1000 < y)
    let y := if big then y / 2 else y
    let k : Int := e + l + (if big then 1 else 0)
    let t := (y - fxOne) * fxOne / (y + fxOne)
    2 * atanhSeries (fxMul t t) 45 0 t + k * fxLn2
  | _ => 0

def numOne : Num := .fin false 1 0

/-- e^x, where x is finite; beyond ±1,000 a value as far out of range. -/
def expNum (x : Num) : Num :=
  if (natNum 1000).lt x then .fin false 1 2000
  else if x.lt (natNum 1000).neg then .fin false 1 (-2000)
  else fxExp x.fx

/-- The true value of an operation at a finite operand inside its domain; none elsewhere. -/
def trueValue (op : Nat) (x : Num) : Option Num :=
  if !x.isFin then none
  else
    match op with
    | 0x20 => some (expNum x)
    | 0x21 =>
      if (natNum 1000).lt x then some (.fin false 1 2000)
      else if x.lt (natNum 1000).neg then some (.fin false 1 (-2000))
      else
        let v := x.fx
        let k := v / fxOne
        match fxExp (fxMul (v - k * fxOne) fxLn2) with
        | .fin s m e => some (.fin s m (e + k))
        | y => some y
    | 0x22 => if x.isZero || x.isNeg then none else some (fxNum (fxLn x) 0)
    | 0x23 => if x.isZero || x.isNeg then none else some (fxNum (fxLn x * fxOne / fxLn2) 0)
    | 0x24 =>
      if (natNum 100).lt x.abs then some (if x.isNeg then numOne.neg else numOne)
      else
        let e := expNum (x.mul (natNum 2))
        some ((e.sub numOne).div (e.add numOne))
    | 0x25 =>
      let e := expNum x.abs.neg
      some ((if x.isNeg then e else numOne).div (numOne.add e))
    | 0x13 => if x.isZero || x.isNeg then none else some (numOne.div x.sqrt)
    | _ => none

/-- k units in the last place of a value in a format. -/
def FF.ulps (f : FF) (k : Nat) (v : Num) : Num :=
  let low := 1 - (f.bias : Int) - f.mbits
  match v with
  | .fin _ m e => .fin false k (if m = 0 then low else max ((Nat.log2 m : Int) + e - f.mbits) low)
  | _ => nzero

/-- The result of an operation at an operand encoding: the device's own value where it keeps
the bound; where the spec states no value, the device's own value with every NaN canonical. -/
def FF.approx (f : FF) (op x : Nat) : Nat :=
  let v := f.decode x
  let w := (Config.approx op x).toNat % 2 ^ f.width
  let own := f.decode w
  if v.isNan then f.nanEnc
  else if op = 0x13 && v.isZero then f.enc (numOne.div v)
  else if op = 0x13 && v.isNeg then f.nanEnc
  else if op = 0x13 && !v.isFin then 0
  else
    match trueValue op v with
    | none => if own.isNan then f.nanEnc else w
    | some y =>
      let err := (own.sub y).abs
      let tol := f.ulps (if op = 0x13 then 1 else 2) y
      let tol := if op ≠ 0x13 && tol.lt (.fin false 1 (-126)) then .fin false 1 (-126) else tol
      if own.isFin && !tol.lt err then w else f.enc y

end Sys2Proof.Machine
end

