-- ==== Sys2Proof/Machine/Vector.lean ====
section
/-! DEFINITION. The vector engine: loads, stores, elementwise arithmetic, conversions,
ALA-192 addition, the move to the matrix file and release (R138, R142, R143, R150 to R158). -/

namespace Sys2Proof.Machine

/-! ### Elements and bands of a V register (R135, R150) -/

/-- Element i of a register, of n bits. -/
def vElem (d : BitVec 32768) (n i : Nat) : Nat := fld d (n * i + n - 1) (n * i)

/-- Rows of the bands in a mask, of a tile of n rows. -/
def bandRows (mask n : Nat) : List Nat :=
  (List.range n).filter (fun r => mask / 2 ^ (r / (n / 4)) % 2 = 1)

/-- Number of rows a command on these bands reads: one past its last row. -/
def rowsRead (mask n : Nat) : Nat := (bandRows mask n).foldl (fun _ r => r + 1) 0

/-- Data that a partial write to VD keeps: the register where it is in use as such a tile,
else zeros (R150). -/
def Core.vBase (k : Core) (vd fmt : Nat) : BitVec 32768 :=
  let t := k.tag (tagV vd)
  if tInUse t && tFmt t = fmt && tRows t = vRows fmt && tPos t = vCols fmt then k.vreg vd else 0

/-- Bits of a row of a tile. -/
def vRowBits (fmt : Nat) : Nat := 32768 / vRows fmt

/-- Writes rows: (row, its bits). -/
def setRows (d : BitVec 32768) (fmt : Nat) (l : List (Nat × Nat)) : BitVec 32768 :=
  l.foldl (fun d r => setFld d (vRowBits fmt * r.1 + vRowBits fmt - 1) (vRowBits fmt * r.1) r.2) d

/-- Row r of a register. -/
def vRow (d : BitVec 32768) (fmt r : Nat) : Nat := fld d (vRowBits fmt * r + vRowBits fmt - 1) (vRowBits fmt * r)

/-- Word n of a V register of format `fmt` lies in one of some rows. -/
def vWords (fmt : Nat) (rows : List Nat) (n : Nat) : Bool := rows.contains (256 * n / vRowBits fmt)

/-- Words of rows that hold columns lo to hi − 1 of elements of `bits` bits. -/
def vColWords (fmt bits lo hi : Nat) (rows : List Nat) (n : Nat) : Bool :=
  let o := 256 * n % vRowBits fmt
  vWords fmt rows n && decide (o < hi * bits) && decide (lo * bits < o + 256)

/-- A write of rows of VD by the band rule: data, tag, and the words of the rows it leaves (R150). -/
def Core.putRows (k : Core) (vd fmt : Nat) (l : List (Nat × Nat)) : Core :=
  let rows := l.map (·.1)
  k.setV vd (setRows (k.vBase vd fmt) fmt l) (vTag fmt) (fun n => !vWords fmt rows n)

/-- Tile format that a source format loads as (R154). -/
def tileFmt (f : Nat) : Nat := if f = fmFp64 ∨ f = fmAla then f else 0

/-- Bytes of a packed row of a tile in a memory format. -/
def rowBytes (fmt cols : Nat) : Nat := fmtBytes fmt cols

def vecRun (k : Core) : List QEnt := k.run 1

/-! ### Registers read and written (R151): V0-V15 in bits 15:0, X0-X7 in bits 23:16 -/

def vopUnary (op : Nat) : Bool :=
  [0x06, 0x07, 0x11, 0x12, 0x13, 0x20, 0x21, 0x22, 0x23, 0x24, 0x25, 0x30, 0x31].contains op

def vopUsesC (op : Nat) : Bool := op = 0x03 || op = 0x0A

def vecReads (w : Cmd) : Nat :=
  match cOpc w with
  | 0x31 => 2 ^ fld w 35 32
  | 0x32 =>
    let op := fld w 37 32
    2 ^ fld w 45 42 ||| (if vopUnary op || fld w 55 54 = 3 then 0 else 2 ^ fld w 49 46) |||
      (if vopUsesC op then 2 ^ fld w 53 50 else 0)
  | 0x33 => 2 ^ fld w 39 36
  | 0x34 =>
    match fld w 33 32 with
    | 0 => 2 ^ fld w 41 38 ||| 2 ^ fld w 45 42
    | 1 => 2 ^ fld w 37 34
    | _ => 2 ^ fld w 41 38
  | 0x35 => 2 ^ fld w 35 32
  | _ => 0

def vecWrites (w : Cmd) : Nat :=
  match cOpc w with
  | 0x30 => 2 ^ fld w 35 32
  | 0x32 => 2 ^ fld w 41 38
  | 0x33 => 2 ^ fld w 35 32
  | 0x34 => 2 ^ fld w 37 34
  | 0x35 => 2 ^ (16 + fld w 38 36)
  | 0x36 => fld w 47 32
  | _ => 0

/-- A command of the load-store path. -/
def loadStore (w : Cmd) : Bool :=
  cOpc w = 0x30 || cOpc w = 0x31 || (cOpc w = 0x34 && fld w 33 32 = 1)

/-- Named registers of a vector command for the mask check (R108), as the header's REG_MASK. -/
def vecMask (w : Cmd) : Nat :=
  let m := vecReads w ||| vecWrites w
  m % 2 ^ 16 * 2 ^ 12 ||| m / 2 ^ 16

/-- What holds a vector command back (R151): both thread groups busy, a register in use by an
earlier command, the load-store path. A load waiting on a queue does not hold the path (R152). -/
def vecBlocked (k : Core) (w : Cmd) : Bool :=
  let run := vecRun k
  decide (2 ≤ run.length) ||
  run.any (fun q => vecReads w &&& vecWrites q.w ≠ 0 || vecWrites w &&& (vecReads q.w ||| vecWrites q.w) ≠ 0 ||
    (loadStore w && loadStore q.w && q.await.isEmpty))

/-! ### VLD (R154) -/

def vldInfo : OpInfo :=
  { engine := 1, rsv := [(255, 110), (41, 40)], base := [(70, 50)], regs := vecMask
    queues := fun w => if bit w 46 then 2 ^ fld w 49 47 else 0
    legal := fun w => decide (fld w 39 36 ≠ 15) }

/-- Bits of a tile row from the bytes of a row in a source format and the scale byte of its
block, with the flags of R42. -/
def loadRow (fmt scale : Nat) (bytes : List Byte) : Nat × Cf :=
  let v := leNat bytes
  if fmt = fmFp64 ∨ fmt = fmAla then (v, {})
  else
    let es := (List.range 32).map (fun j =>
      let x := elemDecode fmt (elemAt fmt v j)
      fp32.encode .rne false (if isMx fmt then x.mul (scaleNum scale) else x))
    (packElems 32 (es.map (·.1)), es.foldl (fun (a : Cf) e => a.or e.2) {})

/-- Poisons VD: the bands it keeps, its own tag and the mark. -/
def Core.poisonV (k : Core) (vd fmt : Nat) : Core :=
  k.setV vd (k.vBase vd fmt) (setBit (vTag fmt) 18 true)

/-- Takes one row from the queue's head (R226): its bytes. -/
def State.takeEntry (s : State) (c ctx qi n : Nat) : Rd :=
  let o := (s.core c).opq qi
  let r := s.engRead c ctx (o.entryAddr o.head.toNat) n
  { r with s := r.s.modCore c (fun k => { k with opqs := KV.put {} k.opqs qi { o with head := o.head + 1 } }) }

/-- Rows a queue-fed VLD still takes: reads those present, and stays in execution with the
rest (R152). -/
def vldTake (s : State) (c : Nat) (q : QEnt) : List Nat → Start
  | [] => .go s { q with await := [] }
  | r :: l =>
    let w := q.w
    let x := s.slot c q.slot.val
    let f := fld w 39 36
    let vd := fld w 35 32
    let qi := fld w 49 47
    let nb := rowBytes f (if f = fmFp64 then 16 else 32)
    let o := (s.core c).opq qi
    if o.count = 0 || o.consumer ≠ 1 then .stop s stIllegal
    else if tLoading ((s.core c).tag (tagV vd)) then .stop s stIllegal
    else if o.entry.toNat * 64 < nb then .stop s stShape
    else if o.occ = 0 then .go s { q with await := r :: l }
    else
      let t := s.takeEntry c x.ctx.toNat qi nb
      if t.st = stIllegal then .stop s t.st
      else if t.st ≠ stOk then
        stopEcc (t.s.modCore c (fun k => k.poisonV vd (tileFmt f))) t.st c [(o.entryAddr o.head.toNat, nb)]
      else
        -- the spec names no scale for an MX row from a queue (log 15)
        let b := loadRow f (t.s.freeVal 8).toNat t.data
        let s := if isMx f then t.s.took else t.s
        let s := s.modCore c (fun k => k.putRows vd (tileFmt f) [(r, b.1)])
        vldTake s c { q with flags := q.flags.or b.2.flags, prog := { q.prog with rows := q.prog.rows + 1 } } l

def startVld (s : State) (c : Nat) (q : QEnt) : Start :=
  let w := q.w
  let k := s.core c
  let x := k.slot q.slot.val
  let f := fld w 39 36
  let tf := tileFmt f
  let vd := fld w 35 32
  let mask := fld w 45 42
  let cols := if f = fmFp64 then 16 else 32
  let nb := rowBytes f cols
  let rows := bandRows mask (vRows tf)
  if mask = 0 then .fin s q
  else if tLoading (k.tag (tagV vd)) then .stop s stIllegal
  else if bit w 46 then vldTake s c q rows
  else
    let src := fld w 70 50
    let p := fld w 88 71
    let sb := fld w 109 89
    if src % 64 ≠ 0 ∨ (p ≠ nb ∧ p % 64 ≠ 0) ∨ (isMx f ∧ sb % 32 ≠ 0) then .stop s stIllegal
    else
      let ranges := rows.map (fun r => (src + r * p, nb)) ++ (if isMx f then rows.map (fun r => (sb + r, 1)) else [])
      if ranges.any (fun r => !inSlabSpace r.1 r.2) then .stop s stCapacity
      else
        let (d, st, s) := s.engReads c x.ctx.toNat ranges
        if st = stIllegal then .stop s st
        else if st ≠ stOk then stopEcc (s.modCore c (fun k => k.poisonV vd tf)) st c ranges
        else
          let got := rows.map (fun r => (r, loadRow f (leNat (pieceAt d (sb + r) 1)) (pieceAt d (src + r * p) nb)))
          let fl := got.foldl (fun (a : Cf) e => a.or e.2.2) {}
          .go (s.modCore c (fun k => k.putRows vd tf (got.map (fun g => (g.1, g.2.1)))))
            { q with flags := fl.flags }

/-! ### VST (R155) -/

def vstInfo : OpInfo :=
  { engine := 1, rsv := [(255, 251), (109, 107)], base := [(67, 47)], sels := [stepSel], regs := vecMask
    legal := fun w => decide (fld w 39 36 ≠ 15) && decide (fld w 46 45 ≠ 3) }

/-- Destination formats of a tile. -/
def vstPair (tf f : Nat) : Bool :=
  if tf = 0 then decide (f ≤ 13) else if tf = fmFp64 then f = fmFp64 || f = 0
  else [14, 13, 0, 1, 3, 4].contains f

/-- A row in a destination format: its bytes, scale byte and flags. -/
def storeRow (tf f : Nat) (n : Narrow) (ix : Nat → BitVec 64) (row : Nat) : Nat × Nat × Cf :=
  let cols := vCols tf
  if tf = fmAla then
    if f = fmAla then (row, 0, {})
    else
      let es := (List.range 32).map (fun j => match fmtFF f with
        | some ff => (Ala.ofWord (row / 2 ^ (256 * j) % 2 ^ 256)).toFF ff (n.rm (ix j)) n.sat
        | none => (0, ({} : Cf)))
      (packElems (fmtBits f) (es.map (·.1)), 0, es.foldl (fun (a : Cf) e => a.or e.2) {})
  else
    let b := fmtBits tf
    let xs := (List.range cols).map (fun j => elemDecode tf (row / 2 ^ (b * j) % 2 ^ b))
    if isMx f then
      let r := mxBlock f (fun j => n.rm (ix j)) xs
      (packElems (fmtBits f) r.2.1, r.1, r.2.2)
    else
      let es := xs.zipIdx.map (fun p => narrow f n (ix p.2) p.1)
      (packElems (fmtBits f) (es.map (·.1)), 0, es.foldl (fun (a : Cf) e => a.or e.2) {})

def startVst (s : State) (c : Nat) (q : QEnt) : Start :=
  let w := q.w
  let k := s.core c
  let x := k.slot q.slot.val
  let f := fld w 39 36
  let vs := fld w 35 32
  let mask := fld w 43 40
  let t := k.tag (tagV vs)
  let tf := tFmt t
  let nb := rowBytes f (vCols tf)
  let dst := fld w 67 47
  let p := fld w 85 68
  let sb := fld w 106 86
  if mask = 0 then .fin s q
  else
    let st := tagCheck t (rowsRead mask (vRows tf)) (vstPair tf f)
    if st ≠ stOk then .stop s st
    else if dst % 64 ≠ 0 ∨ (p ≠ nb ∧ p % 64 ≠ 0) ∨ (isMx f ∧ sb % 32 ≠ 0) then .stop s stIllegal
    else if k.regBad (tagV vs) (vWords tf (bandRows mask (vRows tf))) then .stop s stEcc
    else
      let n := narrowOf x w (fld w 46 45) (bit w 44)
      let rows := (bandRows mask (vRows tf)).map (fun r =>
        (r, storeRow tf f n (fun j => srIndex w r j) (vRow (k.vreg vs) tf r)))
      let items := rows.map (fun r => (dst + r.1 * p, natLe nb r.2.1)) ++
        (if isMx f then rows.map (fun r => (sb + r.1, natLe 1 r.2.2.1)) else [])
      let fl := rows.foldl (fun (a : Cf) r => a.or r.2.2.2) {}
      let r := s.engWrites c x.ctx.toNat items
      if r.1 ≠ stOk then stopEcc r.2 r.1 c (rangesOf items) else .go r.2 { q with flags := fl.flags }

/-! ### VOP (R156, Table 05-11) -/

def vopInfo : OpInfo :=
  { engine := 1, rsv := [(255, 133), (63, 60)], sels := [{ hi := 127, lo := 64, shi := 132, slo := 128 }]
    regs := vecMask
    legal := fun w =>
      let op := fld w 37 32
      (decide (op ≤ 0x0A) || (decide (0x10 ≤ op) && decide (op ≤ 0x13)) || (decide (0x20 ≤ op) && decide (op ≤ 0x25)) ||
        op = 0x30 || op = 0x31) && (op ≠ 0x30 || fld w 59 56 = 15) }

/-- Smaller or larger value, −0 below +0. -/
def Num.minmax (big : Bool) (a b : Num) : Num :=
  if a.isNan || b.isNan then .nan
  else
    let aLow := a.lt b || (a.eqv b && a.isNeg)
    if aLow != big then a else b

/-- The result of an operation on encodings of a format. -/
def vopElem (f : FF) (op a b c : Nat) : Nat :=
  let x := f.decode a
  let y := f.decode b
  let z := f.decode c
  let one : Nat := f.enc numOne
  match op with
  | 0x00 => f.enc (f.add x y)
  | 0x01 => f.enc (f.sub x y)
  | 0x02 => f.enc (f.mul x y)
  | 0x03 => f.enc (f.rnd ((x.mul y).add z))
  | 0x04 => f.enc (Num.minmax false x y)
  | 0x05 => f.enc (Num.minmax true x y)
  | 0x06 => f.enc x.abs
  | 0x07 => f.enc x.neg
  | 0x08 => if x.lt y then one else 0
  | 0x09 => if x.eqv y then one else 0
  | 0x0A => f.enc (if z.isZero then y else x)
  | 0x10 => f.enc (f.div x y)
  | 0x11 => f.enc (f.sqrt x)
  | 0x12 => f.enc (f.div numOne x)
  | 0x30 => f.enc x
  | 0x31 => f.enc x
  | _ => f.approx op a

/-- Inputs an operation reads. -/
def vopInputs (op a b c : Nat) : List Nat :=
  if vopUnary op then [a] else if vopUsesC op then [a, b, c] else [a, b]

/-- OVF and INVALID of one element (R156). -/
def vopFlags (f : FF) (op a b c r : Nat) : Cf :=
  let ins := (vopInputs op a b c).map f.decode
  let out := f.decode r
  let byZero := (op = 0x10 && (f.decode b).isZero && (f.decode a).isFin && !(f.decode a).isZero) ||
    ((op = 0x12 || op = 0x13) && (f.decode a).isZero)
  { ovf := ins.all (·.isFin) && !out.isFin && !out.isNan
    inv := (ins.all (fun x => !x.isNan) && out.isNan) || byZero }

/-- A word that an operation reads of its operands fails its check (Table 07-8). -/
def vopBad (k : Core) (w : Cmd) (fmt : Nat) : Bool :=
  let op := fld w 37 32
  let bm := fld w 55 54
  let rows := bandRows (fld w 59 56) 32
  let bits := fmtBits fmt
  k.regBad (tagV (fld w 45 42)) (if op = 0x30 then fun _ => true else vWords fmt rows) ||
  (!vopUnary op && decide (bm ≠ 3) && k.regBad (tagV (fld w 49 46))
    (if bm = 1 then vWords fmt [0] else if bm = 2 then vColWords fmt bits 0 1 rows else vWords fmt rows)) ||
  (vopUsesC op && k.regBad (tagV (fld w 53 50)) (vWords fmt rows))

/-- Formats an operation accepts. -/
def vopFmtOk (op fmt : Nat) : Bool := fmt = 0 || (fmt = 13 && !(decide (0x20 ≤ op) && decide (op ≤ 0x30)))

/-- VOP (R156). RMASK 0 comes before any tag check (log 42); of several operands that fail theirs the first of
VA, VB, VC is told, and a source before a destination that is loading (DESIGN CHOICE, log 40). -/
def startVop (s : State) (c : Nat) (q : QEnt) : Start :=
  let w := q.w
  let k := s.core c
  let op := fld w 37 32
  let mask := fld w 59 56
  let bm := fld w 55 54
  let ta := k.tag (tagV (fld w 45 42))
  let fmt := tFmt ta
  let useB := !vopUnary op && bm ≠ 3
  let hb := rowsRead mask 32
  if mask = 0 then .fin s q
  else
    let sa := tagCheck ta (if op = 0x30 then 32 else hb) ((fmt = 0 || fmt = 13) && vopFmtOk op fmt)
    let tb := k.tag (tagV (fld w 49 46))
    let sb := if useB then tagCheck tb (if bm = 1 then 1 else hb) (tFmt tb = fmt) else stOk
    let tc := k.tag (tagV (fld w 53 50))
    let sc := if vopUsesC op then tagCheck tc hb (tFmt tc = fmt) else stOk
    if sa ≠ stOk then .stop s sa
    else if sb ≠ stOk then .stop s sb
    else if sc ≠ stOk then .stop s sc
    else if tLoading (k.tag (tagV (fld w 41 38))) then .stop s stIllegal
    else if vopBad k w fmt then .stop s stEcc
    else
      let f := if fmt = 0 then fp32 else fp64
      let bits := fmtBits fmt
      let cols := vCols fmt
      let da := k.vreg (fld w 45 42)
      let db := k.vreg (fld w 49 46)
      let dc := k.vreg (fld w 53 50)
      let imm := fld w 127 64 % 2 ^ bits
      let el (r j : Nat) : Nat × Cf :=
        let a := if op = 0x30 then vElem da bits (cols * j + r) else vElem da bits (cols * r + j)
        let b := match bm with
          | 0 => vElem db bits (cols * r + j)
          | 1 => vElem db bits j
          | 2 => vElem db bits (cols * r)
          | _ => imm
        let cc := vElem dc bits (cols * r + j)
        let v := vopElem f op a b cc
        (v, vopFlags f op a b cc v)
      let rows := (bandRows mask 32).map (fun r => (r, (List.range cols).map (el r)))
      let fl := rows.foldl (fun (a : Cf) r => r.2.foldl (fun (a : Cf) e => a.or e.2) a) {}
      let vd := fld w 41 38
      .go (s.modCore c (fun k => k.putRows vd fmt (rows.map (fun r => (r.1, packElems bits (r.2.map (·.1)))))))
        { q with flags := fl.flags }

/-! ### VCVT (R157) -/

def vcvtInfo : OpInfo :=
  { engine := 1, rsv := [(255, 251), (109, 71)]
    sels := [stepSel, { hi := 62, lo := 47, shi := 67, slo := 63, take := 16 }], regs := vecMask
    legal := fun w => decide (fld w 70 69 ≠ 3) && decide (fld w 43 40 ≠ 15) }

/-- The pairings and windows of Table 05-12. -/
def vcvtOk (src dst win : Nat) : Bool :=
  (src = 0 && dst = 13 && decide (win ≤ 1)) || (src = 13 && dst = 0 && decide (win ≤ 1)) ||
  (src = 0 && dst = 14) || (src = 13 && dst = 14 && decide (win ≤ 3)) ||
  (src = 14 && dst = 0) || (src = 14 && dst = 13 && decide (win ≤ 3))

/-- Rows of the source that a window reads. -/
def vcvtRows (src dst win : Nat) : Nat :=
  if src = 0 && dst = 14 then 4 * win + 4 else if src = 13 && dst = 14 then 8 * win + 8 else vRows src

/-- Words of the source that a conversion reads. -/
def vcvtWords (src dst win : Nat) : Nat → Bool :=
  if src = 0 && dst = 13 then vColWords 0 32 (16 * win) (16 * win + 16) (List.range 32)
  else if src = 0 && dst = 14 then vWords 0 ((List.range 4).map (4 * win + ·))
  else if src = 13 && dst = 14 then vWords 13 ((List.range 8).map (8 * win + ·))
  else fun _ => true

/-- Words of VD that a conversion leaves as they were. -/
def vcvtKeeps (src dst win : Nat) (rows : List (Nat × Nat)) (n : Nat) : Bool :=
  if src = 13 && dst = 0 then !vColWords 0 32 (16 * win) (16 * win + 16) (List.range 32) n
  else !vWords dst (rows.map (·.1)) n

/-- ALA-192 element from a value at an anchor, with its flags. -/
def toAla (a : Int) (x : Num) : Nat × Cf :=
  let e := Ala.ofNum a x
  (e.word, { ovf := e.ovf, loss := e.loss })

/-- The rows a conversion writes: (row, its bits after the write), and its flags. -/
def vcvtRowsOut (n : Narrow) (w : Cmd) (src dst win : Nat) (anchor : Int) (d old : BitVec 32768) : List (Nat × Nat) × Cf :=
  let out (rows cols : Nat) (r0 : Nat) (el : Nat → Nat → Nat × Cf) : List (Nat × Nat) × Cf :=
    let l := (List.range rows).map (fun r => (r0 + r, (List.range cols).map (el r)))
    (l.map (fun r => (r.1, packElems (fmtBits dst) (r.2.map (·.1)))),
      l.foldl (fun (a : Cf) r => r.2.foldl (fun (a : Cf) e => a.or e.2) a) {})
  if src = 0 ∧ dst = 13 then
    out 32 16 0 (fun r j => fp64.encode .rne false (fp32.decode (vElem d 32 (32 * r + 16 * win + j))))
  else if src = 13 ∧ dst = 0 then
    out 32 32 0 (fun r j =>
      if j / 16 = win then fp32.encode (n.rm (srIndex w r (j % 16))) n.sat (fp64.decode (vElem d 64 (16 * r + j % 16)))
      else (vElem old 32 (32 * r + j), {}))
  else if src = 0 ∧ dst = 14 then
    out 4 32 0 (fun r j => toAla anchor (fp32.decode (vElem d 32 (32 * (4 * win + r) + j))))
  else if src = 13 ∧ dst = 14 then
    out 4 32 0 (fun r j => toAla anchor (fp64.decode (vElem d 64 (128 * win + 32 * r + j))))
  else if dst = 0 then
    out 4 32 (4 * win) (fun r j => (Ala.ofWord (vElem d 256 (32 * r + j))).toFF fp32 (n.rm (srIndex w r j)) n.sat)
  else
    out 8 16 (8 * win) (fun r j =>
      let e := 16 * r + j
      (Ala.ofWord (vElem d 256 e)).toFF fp64 (n.rm (srIndex w (e / 32) (e % 32))) n.sat)

/-- VCVT (R157). The pairing is known from the tag, so an empty source comes before a bad pairing or WIN,
and a poisoned one after it (DESIGN CHOICE, log 40). -/
def startVcvt (s : State) (c : Nat) (q : QEnt) : Start :=
  let w := q.w
  let k := s.core c
  let x := k.slot q.slot.val
  let vd := fld w 35 32
  let t := k.tag (tagV (fld w 39 36))
  let src := tFmt t
  let dst := fld w 43 40
  let win := fld w 46 44
  let st := tagCheck t (vcvtRows src dst win) true
  if st = stTileEmpty then .stop s st
  else if !vcvtOk src dst win then .stop s stIllegal
  else if st ≠ stOk then .stop s st
  else if tLoading (k.tag (tagV vd)) then .stop s stIllegal
  else if k.regBad (tagV (fld w 39 36)) (vcvtWords src dst win) then .stop s stEcc
  else
    let n := narrowOf x w (fld w 70 69) (bit w 68)
    let old := k.vBase vd dst
    let r := vcvtRowsOut n w src dst win (signed 16 (fld w 62 47)) (k.vreg (fld w 39 36)) old
    .go (s.modCore c (fun k => k.setV vd (setRows old dst r.1) (vTag dst) (vcvtKeeps src dst win r.1))) { q with flags := r.2.flags }

/-! ### VALA (R158) -/

def valaInfo : OpInfo :=
  { engine := 1, rsv := [(255, 67)], base := [(66, 46)], regs := vecMask
    legal := fun w => decide (fld w 33 32 ≠ 3) && (fld w 33 32 ≠ 1 || fld w 66 46 % 32 = 0) }

/-- A sum and the flags that this addition itself set. -/
def alaAdd (p q : Ala) : Ala × Cf :=
  let own := ({ p with ovf := false, loss := false } : Ala).add { q with ovf := false, loss := false }
  (p.add q, { ovf := own.ovf, loss := own.loss })

/-- VALA (R158). After an uncorrectable source VD keeps its data and is POISONED (DESIGN CHOICE, log 136). -/
def startVala (s : State) (c : Nat) (q : QEnt) : Start :=
  let w := q.w
  let k := s.core c
  let x := k.slot q.slot.val
  let aop := fld w 33 32
  let vd := fld w 37 34
  let va := fld w 41 38
  let vb := fld w 45 42
  let chk (n : Nat) : BitVec 8 := let t := k.tag (tagV n); tagCheck t 4 (tFmt t = fmAla)
  let sts := match aop with
    | 0 => [chk va, chk vb]
    | 1 => [chk vd]
    | _ => [chk va]
  match sts.find? (fun st => st ≠ stOk) with
  | some st => .stop s st
  | none =>
    if tLoading (k.tag (tagV vd)) then .stop s stIllegal
    else if (match aop with | 0 => [va, vb] | 1 => [vd] | _ => [va]).any (fun n => k.regBad (tagV n) (fun _ => true)) then .stop s stEcc
    else
      let el (n i : Nat) : Ala := Ala.ofWord (vElem (k.vreg n) 256 i)
      let src := fld w 66 46
      if aop = 1 && !inSlabSpace src 4096 then .stop s stCapacity
      else
        let rd := if aop = 1 then s.engRead c x.ctx.toNat src 4096 else ⟨[], stOk, s⟩
        if rd.st = stIllegal then .stop rd.s rd.st
        else if rd.st ≠ stOk then
          stopEcc (rd.s.modCore c (fun k => k.setV vd (k.vreg vd) (setBit (k.tag (tagV vd)) 18 true))) rd.st c [(src, 4096)]
        else
          let es : List (Nat × Cf) := match aop with
            | 0 => (List.range 128).map (fun i => let r := alaAdd (el va i) (el vb i); (r.1.word, r.2))
            | 1 => (List.range 128).map (fun i =>
                let r := alaAdd (el vd i) (Ala.ofWord (leNat ((rd.data.drop (32 * i)).take 32))); (r.1.word, r.2))
            | _ => (List.range 128).map (fun i =>
                if i % 32 ≠ 0 then (0, {})
                else
                  let r := (List.range 31).foldl (fun (a : Ala × Cf) j =>
                    let b := alaAdd a.1 (el va (i + 1 + j)); (b.1, a.2.or b.2)) (el va i, {})
                  (r.1.word, r.2))
          let fl := es.foldl (fun (a : Cf) e => a.or e.2) {}
          .go (rd.s.modCore c (fun k => k.setV vd (BitVec.ofNat 32768 (packElems 256 (es.map (·.1)))) (vTag fmAla)))
            { q with flags := fl.flags }

/-! ### VMOVE and VREL (R142, R143, R138) -/

def vmoveInfo : OpInfo :=
  { engine := 1, rsv := [(255, 251), (109, 47)], sels := [stepSel], regs := vecMask
    legal := fun w => [0, 1, 2, 3, 4, 11].contains (fld w 42 39) && decide (fld w 46 45 ≠ 3) &&
      !(bit w 43 && (fld w 42 39 = 1 || fld w 42 39 = 2)) }

/-- VMOVE (R142, R143). HALF = 1 of an 8-bit format merges: the tag keeps all but POS. -/
def startVmove (s : State) (c : Nat) (q : QEnt) : Start :=
  let w := q.w
  let k := s.core c
  let x := k.slot q.slot.val
  let xd := fld w 38 36
  let f := fld w 42 39
  let h := b2n (bit w 43)
  let t := k.tag (tagV (fld w 35 32))
  let st := tagCheck t 32 (tFmt t = 0)
  let old := k.tag (tagX xd)
  let narrow8 := [3, 4, 11].contains f
  let merge := narrow8 && h = 1
  if st ≠ stOk then .stop s st
  else if tLoading old then .stop s stIllegal
  else if merge && !(tInUse old && tFmt old = f && tRows old = 32 && tPos old = 16) then .stop s stShape
  else if k.regBad (tagV (fld w 35 32)) (if f = 0 then vColWords 0 32 (16 * h) (16 * h + 16) (List.range 32) else fun _ => true) then
    .stop s stEcc
  else
    let n := narrowOf x w (fld w 46 45) (bit w 44)
    let cols := if f = 0 then 16 else 32
    let col0 := if f = 0 then 16 * h else 0
    let d := k.vreg (fld w 35 32)
    let rows := (List.range 32).map (fun r => (List.range cols).map (fun j =>
      narrow f n (srIndex w r (col0 + j)) (fp32.decode (vElem d 32 (32 * r + col0 + j)))))
    let fl := rows.foldl (fun (a : Cf) r => r.foldl (fun (a : Cf) e => a.or e.2) a) {}
    let nb := cols * fmtBits f / 8
    let off := if narrow8 then 32 * h else 0
    let data := rows.zipIdx.foldl (fun (v : BitVec 16384) r =>
      let o := 64 * r.2 + off
      setFld v (8 * (o + nb) - 1) (8 * o) (packElems (fmtBits f) (r.1.map (·.1)))) (k.xreg xd)
    let tag := if merge then setFld old 42 32 32 else mkTag 0 f 32 (if narrow8 then 16 else cols) 32
    .go (s.modCore c (fun k => k.setX xd data tag (fun i => merge && decide (i % 2 = 0)))) { q with flags := fl.flags }

def vrelInfo : OpInfo := { engine := 1, rsv := [(255, 48)], regs := vecMask }

def startVrel (s : State) (c : Nat) (q : QEnt) : Start :=
  let mask := fld q.w 47 32
  if (List.range 16).any (fun n => mask / 2 ^ n % 2 = 1 && tLoading ((s.core c).tag (tagV n))) then .stop s stIllegal
  else .go (s.modCore c (fun k => k.releaseMask (mask * 2 ^ 12))) q

/-- Start of the head of the vector queue (R151). -/
def startVector (s : State) (c : Nat) (q : QEnt) : Start :=
  if vecBlocked (s.core c) q.w then .wait s
  else
    match cOpc q.w with
    | 0x30 => startVld s c q
    | 0x31 => startVst s c q
    | 0x32 => startVop s c q
    | 0x33 => startVcvt s c q
    | 0x34 => startVala s c q
    | 0x35 => startVmove s c q
    | _ => startVrel s c q

end Sys2Proof.Machine
end

