-- ==== Sys2Proof/Machine/Row.lean ====
section
/-! DEFINITION. The row engine: reductions, normalisation, soft maximum, their backward
commands, and the statistics memory (R160 to R175). -/

namespace Sys2Proof.Machine

/-! ### Arithmetic with flags (R160) -/

/-- An FP32 encoding and the flags gathered so far. -/
abbrev Fx := Nat × Cf

/-- One vector operation on encodings, its flags added (R156). -/
def fx (op a b c : Nat) (fl : Cf) : Fx :=
  let r := vopElem fp32 op a b c
  (r, fl.or (vopFlags fp32 op a b c r))

def fAdd (a b : Nat) (fl : Cf) : Fx := fx 0x00 a b 0 fl
def fSub (a b : Nat) (fl : Cf) : Fx := fx 0x01 a b 0 fl
def fMul (a b : Nat) (fl : Cf) : Fx := fx 0x02 a b 0 fl
def fFma (a b c : Nat) (fl : Cf) : Fx := fx 0x03 a b c fl
def fMax (a b : Nat) (fl : Cf) : Fx := fx 0x05 a b 0 fl
def fDiv (a b : Nat) (fl : Cf) : Fx := fx 0x10 a b 0 fl
def fSqrt (a : Nat) (fl : Cf) : Fx := fx 0x11 a 0 0 fl
def fExp (a : Nat) (fl : Cf) : Fx := fx 0x20 a 0 0 fl
def fLog (a : Nat) (fl : Cf) : Fx := fx 0x22 a 0 0 fl

/-- Applies an operation to each element, gathering flags. -/
def fMap (f : Nat → Cf → Fx) : List Nat → Cf → List Nat × Cf
  | [], fl => ([], fl)
  | a :: l, fl =>
    let r := f a fl
    let t := fMap f l r.2
    (r.1 :: t.1, t.2)

def fZip (f : Nat → Nat → Cf → Fx) : List Nat → List Nat → Cf → List Nat × Cf
  | a :: l, b :: m, fl =>
    let r := f a b fl
    let t := fZip f l m r.2
    (r.1 :: t.1, t.2)
  | _, _, fl => ([], fl)

/-- One level of the pairwise tree. -/
def fPairs (f : Nat → Nat → Cf → Fx) : List Nat → Cf → List Nat × Cf
  | a :: b :: l, fl =>
    let r := f a b fl
    let t := fPairs f l r.2
    (r.1 :: t.1, t.2)
  | l, fl => (l, fl)

/-- The reduction of R161. -/
def fReduce (f : Nat → Nat → Cf → Fx) (ident : Nat) (v : List Nat) (fl : Cf) : Fx :=
  let acc := v.zipIdx.foldl (fun (r : List Nat × Cf) e =>
    let i := e.2 % 32
    let x := f (r.1.getD i ident) e.1 r.2
    (r.1.set i x.1, x.2)) (List.replicate 32 ident, fl)
  let t := [0, 1, 2, 3, 4].foldl (fun (r : List Nat × Cf) _ => fPairs f r.1 r.2) acc
  (t.1.getD 0 ident, t.2)

def fNegInf : Nat := 0xFF800000
def fOne : Nat := 0x3F800000
def fSum (v : List Nat) (fl : Cf) : Fx := fReduce fAdd 0 v fl
def fMaxOf (v : List Nat) (fl : Cf) : Fx := fReduce fMax fNegInf v fl

/-- Sign inverted, as an operand of FMA. -/
def fNeg (a : Nat) : Nat := if (fp32.decode a).isNan then fp32.nanEnc else a ^^^ 0x80000000

/-! ### Commands and the parameter record (Tables 06-1, 06-2) -/

def rNrows (w : Cmd) : Nat := fld w 113 103
def rSidx (w : Cmd) : Nat := fld w 131 119
def rTag (w : Cmd) : Nat := fld w 147 132
def rVar (w : Cmd) : Nat := fld w 102 100
def rSwr (w : Cmd) : Bool := bit w 99
def rSrc (w : Cmd) : Nat := fld w 52 32
def rDst (w : Cmd) : Nat := fld w 73 53
def rAux (w : Cmd) : Nat := fld w 94 74
def rBase (w : Cmd) : Nat := fld w 237 206

/-- Backward commands. -/
def rBack (opc : Nat) : Bool := opc = 0x42 || opc = 0x44

/-- Whether the command uses statistics entries. -/
def rUses (w : Cmd) : Bool := rBack (cOpc w) || ((cOpc w = 0x41 || cOpc w = 0x43) && rSwr w)

/-- Blocks of entries lo to lo + n − 1, as STATS_MASK. -/
def blockMask (lo n : Nat) : Nat :=
  (List.range 8).foldl (fun m b => if n ≠ 0 ∧ lo < 1024 * (b + 1) ∧ 1024 * b < lo + n then m + 2 ^ b else m) 0

/-- Number of variants of an opcode (Table 06-3). -/
def rVariants (opc : Nat) : Nat := if opc = 0x40 then 4 else if opc = 0x41 ∨ opc = 0x42 then 2 else 1

def rowInfo : OpInfo :=
  { engine := 2, rsv := [(255, 238)], base := [(52, 32)]
    sels := [{ hi := 200, lo := 169, shi := 205, slo := 201, take := 32 }, { hi := 113, lo := 103, shi := 118, slo := 114 }]
    stats := fun w => if rUses w then blockMask (rSidx w) (rNrows w) else 0
    legal := fun w =>
      rDst w % 64 = 0 && rAux w % 64 = 0 && fld w 168 148 % 64 = 0 && decide (rTag w ≠ 0xFFFF) &&
      decide (rNrows w ≤ 1024) && decide (fld w 96 95 ≠ 3) && decide (rVar w < rVariants (cOpc w)) &&
      (rBack (cOpc w) || rAux w = 0) && (!rUses w || decide (rSidx w + rNrows w ≤ 8192)) }

def pLen (r : BitVec 512) : Nat := fld r 15 0
def pFi (r : BitVec 512) : Nat := fld r 19 16
def pFo (r : BitVec 512) : Nat := fld r 23 20
def pFd (r : BitVec 512) : Nat := fld r 27 24
def pFg (r : BitVec 512) : Nat := fld r 35 32
def pAffine (r : BitVec 512) : Bool := bit r 36
def pBeta (r : BitVec 512) : Bool := bit r 37
def pCsum (r : BitVec 512) : Bool := bit r 38
def pQix (r : BitVec 512) : Nat := fld r 42 40
def pQsrc (r : BitVec 512) : Bool := bit r 43
def pRcap (r : BitVec 512) : Nat := fld r 63 48
def pSp (r : BitVec 512) : Nat := fld r 81 64
def pDp (r : BitVec 512) : Nat := fld r 113 96
def pAp (r : BitVec 512) : Nat := fld r 145 128
def pGamma (r : BitVec 512) : Nat := fld r 180 160
def pBetaA (r : BitVec 512) : Nat := fld r 212 192
def pCs (r : BitVec 512) : Nat := fld r 244 224
def pEps (r : BitVec 512) : Nat := fld r 287 256
def pLim0 (r : BitVec 512) : Nat := fld r 303 288
def pLstep (r : BitVec 512) : Int := signed 16 (fld r 319 304)
def pTensor (r : BitVec 512) : Nat := fld r 351 320
def pIpitch (r : BitVec 512) : Nat := fld r 383 352
def pBaseIx (r : BitVec 512) : Nat := fld r 447 384

def rowFmt (f : Nat) : Bool := decide (f ≤ 4)

/-- The ranges of R164, with the alignment of R163 and the limits of R166; with QSRC set, SRC and SPITCH are
ignored. -/
def recordOk (w : Cmd) (r : BitVec 512) : Bool :=
  fld r 31 28 = 0 && bit r 39 = false && fld r 47 44 = 0 && fld r 95 82 = 0 && fld r 127 114 = 0 && fld r 159 146 = 0 &&
  fld r 191 181 = 0 && fld r 223 213 = 0 && fld r 255 245 = 0 && fld r 511 448 = 0 &&
  decide (1 ≤ pLen r) && decide (pLen r ≤ 16384) && rowFmt (pFi r) && rowFmt (pFo r) && rowFmt (pFd r) &&
  decide (pFg r ≤ 1) && decide (1 ≤ pRcap r) && decide (pRcap r ≤ 1024) &&
  (pQsrc r || (rSrc w % 64 = 0 && pSp r % 64 = 0)) && pDp r % 64 = 0 && pAp r % 64 = 0 &&
  (cOpc w ≠ 0x40 || pFo r = 0) && (!pQsrc r || (cOpc w = 0x40 && decide (rVar w ≤ 2)))

def rNorm (w : Cmd) : Bool := cOpc w = 0x41 || cOpc w = 0x42

/-- Streams: address, pitch (0 for a vector), rows, format. -/
structure RStream where
  addr : Nat
  pitch : Nat
  fmt : Nat
  len : Nat

def sX (w : Cmd) (r : BitVec 512) : List RStream :=
  if pQsrc r then [] else [⟨rSrc w, pSp r, pFi r, pLen r⟩]
def sDy (w : Cmd) (r : BitVec 512) : List RStream :=
  if rBack (cOpc w) then [⟨rAux w, pAp r, pFd r, pLen r⟩] else []
def sGamma (w : Cmd) (r : BitVec 512) : List RStream :=
  if rNorm w && pAffine r then [⟨pGamma r, 0, pFg r, pLen r⟩] else []
def sBeta (w : Cmd) (r : BitVec 512) : List RStream :=
  if cOpc w = 0x41 && pAffine r && pBeta r then [⟨pBetaA r, 0, pFg r, pLen r⟩] else []
def sOut (w : Cmd) (r : BitVec 512) : List RStream :=
  if cOpc w = 0x40 then [] else [⟨rDst w, pDp r, pFo r, pLen r⟩]
def rCsum (w : Cmd) (r : BitVec 512) : Bool := cOpc w = 0x42 && pCsum r
def sSums (w : Cmd) (r : BitVec 512) : List RStream :=
  if rCsum w r then
    [⟨pCs r, 0, 0, pLen r⟩] ++ (if pBeta r then [⟨pCs r + 4 * pLen r, 0, 0, pLen r⟩] else [])
  else []

/-- Ranges of a stream over n rows. -/
def RStream.ranges (x : RStream) (n : Nat) : List (Nat × Nat) :=
  if x.pitch = 0 then [(x.addr, fmtBytes x.fmt x.len)]
  else (List.range n).map (fun r => (x.addr + r * x.pitch, fmtBytes x.fmt x.len))

/-- Per-row result bytes of RRED. -/
def rResult (w : Cmd) : Nat := if rVar w = 3 then 8 else 4

/-- Every range that the command may touch beside its record (R165 step 2). -/
def rowRanges (w : Cmd) (r : BitVec 512) : List (Nat × Nat) :=
  let n := rNrows w
  ((sX w r ++ sDy w r ++ sGamma w r ++ sBeta w r ++ sOut w r ++ sSums w r).map (fun x => x.ranges n)).flatten ++
  (if cOpc w = 0x40 then [(rDst w, n * rResult w)] else [])

/-! ### Cost (R175) -/

def perWord (f : Nat) : Nat := [16, 32, 32, 64, 64].getD f 32

/-- Slabs that a stream touches over n rows. -/
def RStream.slabs (x : RStream) (n : Nat) : List Nat :=
  (((x.ranges n).map (fun r => [r.1 / 0x30000, (r.1 + r.2 - 1) / 0x30000])).flatten).eraseDups

def passCost (n len : Nat) (l : List RStream) : Nat :=
  let e := l.foldl (fun m x => min m (perWord x.fmt)) 32
  let k := (List.range 8).foldl (fun m s => max m ((l.filter (fun x => (x.slabs n).contains s)).length)) 1
  ceilDiv len e * k

def rPasses (w : Cmd) : Nat :=
  match cOpc w with
  | 0x40 => if rVar w = 3 then 2 else 1
  | 0x41 => if rVar w = 0 then 3 else 2
  | 0x43 => 3
  | _ => 2

/-- Cost of a command. The x that comes from a queue is a stream of its pass, of the format it has there. -/
def rowCost (w : Cmd) (r : BitVec 512) : Nat :=
  let n := rNrows w
  let p := rPasses w
  let sX (w : Cmd) (r : BitVec 512) : List RStream := [⟨rSrc w, pSp r, pFi r, pLen r⟩]
  let first := sX w r ++ sDy w r ++ (if rBack (cOpc w) then sGamma w r else [])
  let last := sX w r ++ sDy w r ++ sGamma w r ++ sBeta w r ++ sOut w r ++ sSums w r
  let row := (if p = 1 then passCost n (pLen r) (sX w r)
    else passCost n (pLen r) first + (p - 2) * passCost n (pLen r) (sX w r) + passCost n (pLen r) last) + 8 * (p - 1)
  40 + (if rBack (cOpc w) then ceilDiv n 8 else 0) + n * row

/-! ### Statistics entries (R168 to R171) -/

def statTag (v : BitVec 64) : Nat := fld v 63 48

/-- FAULT detail of a failed statistics condition (Table 15-4). -/
def statDetail (i found expected : Nat) : Nat := pack [(16, i), (16, found), (16, expected)]

/-- The first entry of n from i that fails a condition. One whose word cannot be read is not judged; it stops
the command at its row (R165). -/
def Core.badStat (k : Core) (i n : Nat) (ok : BitVec 64 → Bool) : Option Nat :=
  ((List.range n).map (· + i)).find? (fun j => !k.statBad j && !ok (k.stat j))

/-- store() of R167: the stored 24 bits. Neither its rounding to infinity nor that of m to BF16 sets a flag
(DESIGN CHOICE, log 135). -/
def store24 (v : Nat) : Nat :=
  let m := v % 2 ^ 31
  let q := m / 256
  let r := m % 256
  let q := if 128 < r ∨ (r = 128 ∧ q % 2 = 1) then q + 1 else q
  v / 2 ^ 31 * 2 ^ 23 + q

def load24 (v : Nat) : Nat := v * 256

/-! ### One row (R166, R167, R173, R174) -/

/-- Limit of a soft-maximum row. -/
def rowLimit (w : Cmd) (p : BitVec 512) (r : Nat) : Nat :=
  let v : Int := pLim0 p + ((rBase w + r : Nat) : Int) * pLstep p
  (min (max v 0) (pLen p)).toNat

/-- FP32 encodings of a row of elements. -/
def widen (fmt : Nat) (n : Nat) (bytes : List Byte) : List Nat :=
  let v := leNat bytes
  (List.range n).map (fun j => fp32.enc (elemDecode fmt (elemAt fmt v j)))

/-- Results of a row: RRED's bytes or the output row, an entry, and new column sums. -/
structure RowOut where
  red : List Nat := []
  out : List Nat := []
  entry : Option (BitVec 64) := none
  sums : List Nat := []
  fl : Cf := {}

def lenF (p : BitVec 512) : Nat := fp32.enc (natNum (pLen p))

def statWord (tag hi lo : Nat) : BitVec 64 := BitVec.ofNat 64 (tag * 2 ^ 48 + hi * 2 ^ 24 + lo)

def rredRow (w : Cmd) (x : List Nat) : RowOut :=
  match rVar w with
  | 0 => let r := fSum x {}; { red := [r.1], fl := r.2 }
  | 1 => let s := fMap (fun a => fMul a a) x {}; let r := fSum s.1 s.2; { red := [r.1], fl := r.2 }
  | 2 => let r := fMaxOf x {}; { red := [r.1], fl := r.2 }
  | _ =>
    let m := fMaxOf x {}
    let d := fMap (fun a => fSub a m.1) x m.2
    let e := fMap fExp d.1 d.2
    let r := fSum e.1 e.2
    { red := [m.1, r.1], fl := r.2 }

/-- 1 / SQRT(a + EPS). -/
def rsqrtEps (p : BitVec 512) (a : Nat) (fl : Cf) : Fx :=
  let b := fAdd a (pEps p) fl
  let c := fSqrt b.1 b.2
  fDiv fOne c.1 c.2

def affine (p : BitVec 512) (y g b : List Nat) (fl : Cf) : List Nat × Cf :=
  if pAffine p then
    let t := y.zip (g.zip b)
    t.foldl (fun (r : List Nat × Cf) e => let v := fFma e.1 e.2.1 e.2.2 r.2; (r.1 ++ [v.1], v.2)) ([], fl)
  else (y, fl)

def rnormRow (w : Cmd) (p : BitVec 512) (x g b : List Nat) : RowOut :=
  let l := lenF p
  if rVar w = 0 then
    let s := fSum x {}
    let mu := fDiv s.1 l s.2
    let m24 := store24 mu.1
    let d := fMap (fun a => fSub a (load24 m24)) x mu.2
    let sq := fMap (fun a => fMul a a) d.1 d.2
    let ss := fSum sq.1 sq.2
    let var := fDiv ss.1 l ss.2
    let rs := rsqrtEps p var.1 var.2
    let r24 := store24 rs.1
    let y := fMap (fun a => fMul a (load24 r24)) d.1 rs.2
    let o := affine p y.1 g b y.2
    { out := o.1, entry := some (statWord (rTag w) m24 r24), fl := o.2 }
  else
    let sq := fMap (fun a => fMul a a) x {}
    let ss := fSum sq.1 sq.2
    let ms := fDiv ss.1 l ss.2
    let rs := rsqrtEps p ms.1 ms.2
    let y := fMap (fun a => fMul a rs.1) x rs.2
    let o := affine p y.1 g b y.2
    { out := o.1, entry := some (statWord (rTag w) 0 rs.1), fl := o.2 }

def rsmaxRow (w : Cmd) (p : BitVec 512) (r : Nat) (x : List Nat) : RowOut :=
  let lim := rowLimit w p r
  let entry (m lse : Nat) : BitVec 64 :=
    BitVec.ofNat 64 (rTag w * 2 ^ 48 + (bf16.encode .rne false (fp32.decode m)).1 * 2 ^ 32 + lse)
  if lim = 0 then { out := x.map (fun _ => 0), entry := some (entry fNegInf fNegInf) }
  else
    let z := fMap (fun a => fMul a (pEps p)) (x.take lim) {}
    let m := fMaxOf z.1 z.2
    let d := fMap (fun a => fSub a m.1) z.1 m.2
    let e := fMap fExp d.1 d.2
    let s := fSum e.1 e.2
    let lg := fLog s.1 s.2
    let lse := fAdd m.1 lg.1 lg.2
    let d := fMap (fun a => fSub a lse.1) z.1 lse.2
    let y := fMap fExp d.1 d.2
    { out := y.1 ++ List.replicate (pLen p - lim) 0, entry := some (entry m.1 lse.1), fl := y.2 }

def rnormbRow (w : Cmd) (p : BitVec 512) (e : BitVec 64) (x dy g cs : List Nat) : RowOut :=
  let l := lenF p
  let ln := rVar w = 0
  let mu := load24 (fld e 47 24)
  let rs := if ln then load24 (fld e 23 0) else fld e 31 0
  let d := if ln then fMap (fun a => fSub a mu) x {} else (x, {})
  let xh := fMap (fun a => fMul a rs) d.1 d.2
  let gg := if pAffine p then fZip fMul dy g xh.2 else (dy, xh.2)
  let s1 := if ln then fSum gg.1 gg.2 else (0, gg.2)
  let c1 := if ln then fDiv s1.1 l s1.2 else (0, s1.2)
  let t := fZip fMul gg.1 xh.1 c1.2
  let s2 := fSum t.1 t.2
  let c2 := fDiv s2.1 l s2.2
  let w1 := if ln then fMap (fun a => fSub a c1.1) gg.1 c2.2 else (gg.1, c2.2)
  let f := fZip (fun a b fl => fFma (fNeg a) c2.1 b fl) xh.1 w1.1 w1.2
  let dx := fMap (fun a => fMul a rs) f.1 f.2
  if rCsum w p then
    let pr := fZip fMul dy xh.1 dx.2
    let s := fZip fAdd cs pr.1 pr.2
    let bs := if pBeta p then fZip fAdd (cs.drop (pLen p)) dy s.2 else ([], s.2)
    { out := dx.1, sums := s.1 ++ bs.1, fl := bs.2 }
  else { out := dx.1, fl := dx.2 }

def rsmaxbRow (w : Cmd) (p : BitVec 512) (r : Nat) (e : BitVec 64) (x dy : List Nat) : RowOut :=
  let lim := rowLimit w p r
  let lse := fld e 31 0
  let z := fMap (fun a => fMul a (pEps p)) (x.take lim) {}
  let d := fMap (fun a => fSub a lse) z.1 z.2
  let ex := fMap fExp d.1 d.2
  let pv := ex.1 ++ List.replicate (pLen p - lim) 0
  let t := fZip fMul (dy.take lim) (pv.take lim) ex.2
  let c := fSum t.1 t.2
  let u := fMap (fun a => fSub a c.1) dy c.2
  let v := fZip fMul pv u.1 u.2
  let o := fMap (fun a => fMul a (pEps p)) v.1 v.2
  { out := o.1, fl := o.2 }

def rowNarrow (x : Slot) (w : Cmd) (p : BitVec 512) : Narrow :=
  { mode := fld w 96 95, sat := bit w 97, seed := hSeed x.hdr, step := BitVec.ofNat 32 (fld w 200 169)
    tensor := BitVec.ofNat 32 (pTensor p) }

/-- Ranges that row r reads, x first unless it comes from a queue. -/
def rowReads (w : Cmd) (p : BitVec 512) (r : Nat) : List (Nat × Nat) :=
  let one (x : RStream) : Nat × Nat := (x.addr + r * x.pitch, fmtBytes x.fmt x.len)
  (sX w p ++ sDy w p ++ sGamma w p ++ sBeta w p ++ sSums w p).map one

/-- Row r, its x bytes given where they come from a queue: status, state, flags. -/
def rowStep (s : State) (c : Nat) (q : QEnt) (p : BitVec 512) (r : Nat) (qx : Option (List Byte)) : Start :=
  let w := q.w
  let k := s.core c
  let x := k.slot q.slot.val
  let ctx := x.ctx.toNat
  let n := pLen p
  let reads := rowReads w p r
  let (d, st, s) := s.engReads c ctx reads
  if st ≠ stOk then stopEcc s st c reads
  else if rUses w && k.statBad (rSidx w + r) then .stop s stEcc
  else
    let row (a fmt : Nat) (len : Nat := n) : List Nat := widen fmt len (pieceAt d a (fmtBytes fmt len))
    let xs := match qx with
      | some b => widen (pFi p) n b
      | none => row (rSrc w + r * pSp p) (pFi p)
    let dy := row (rAux w + r * pAp p) (pFd p)
    let g := row (pGamma p) (pFg p)
    let b := if pBeta p then row (pBetaA p) (pFg p) else List.replicate n 0
    let cs := if rCsum w p then row (pCs p) 0 ++ (if pBeta p then row (pCs p + 4 * n) 0 else []) else []
    let e := k.stat (rSidx w + r)
    let o := match cOpc w with
      | 0x40 => rredRow w xs
      | 0x41 => rnormRow w p xs g b
      | 0x42 => rnormbRow w p e xs dy g cs
      | 0x43 => rsmaxRow w p r xs
      | _ => rsmaxbRow w p r e xs dy
    let nr := rowNarrow x w p
    let ix (j : Nat) : BitVec 64 := BitVec.ofNat 64 (pBaseIx p + (rBase w + r) * pIpitch p + j)
    let outs := o.out.zipIdx.map (fun v => narrow (pFo p) nr (ix v.2) (fp32.decode v.1))
    let fl := outs.foldl (fun (a : Cf) v => a.or v.2) o.fl
    let items : Pieces :=
      (if cOpc w = 0x40 then [(rDst w + r * rResult w, natLe (rResult w) (packElems 32 o.red))]
       else [(rDst w + r * pDp p, natLe (fmtBytes (pFo p) n) (packElems (fmtBits (pFo p)) (outs.map (·.1))))]) ++
      (if rCsum w p then [(pCs p, natLe (4 * o.sums.length) (packElems 32 o.sums))] else [])
    let y := s.engWrites c ctx items
    if y.1 ≠ stOk then stopEcc y.2 y.1 c (rangesOf items)
    else
      let s := match o.entry with
        | some v => if rSwr w then (y.2.modCore c (fun k => k.setStat (rSidx w + r) v)).count c 0xB0 1 else y.2
        | none => y.2
      let s := if rBack (cOpc w) then
          (if rSwr w then s.modCore c (fun k => k.setStat (rSidx w + r) emptyStat) else s).count c 0xB8 1
        else s
      .go (s.count c 0xA8 1) { q with flags := q.flags.or fl.flags, prog := { q.prog with rows := q.prog.rows + 1 } }

/-- Rows from r on, n of them. -/
def rowsFrom (s : State) (c : Nat) (q : QEnt) (p : BitVec 512) (r : Nat) : Nat → Start
  | 0 => .go s { q with await := [] }
  | n + 1 =>
    match rowStep s c q p r none with
    | .go s q => rowsFrom s c q p (r + 1) n
    | z => z

/-- Rows from an operand queue: those present now; the rest are awaited (R164, R226). -/
def rowsQueue (s : State) (c : Nat) (q : QEnt) (p : BitVec 512) (r : Nat) : Nat → Start
  | 0 => .go s { q with await := [] }
  | n + 1 =>
    let o := (s.core c).opq (pQix p)
    let nb := fmtBytes (pFi p) (pLen p)
    if o.count = 0 || o.consumer ≠ 2 then .stop s stIllegal
    else if o.entry.toNat * 64 < nb then .stop s stShape
    else if o.occ = 0 then .go s { q with await := [r] }
    else
      let t := s.takeEntry c (s.ctxOf c q.slot.val) (pQix p) nb
      if t.st ≠ stOk then stopEcc t.s t.st c [(o.entryAddr o.head.toNat, nb)]
      else
        match rowStep t.s c q p r (some t.data) with
        | .go s q => rowsQueue s c q p (r + 1) n
        | z => z

/-- Start of a row command: the checks of R165 in order. -/
def startRowOp (s : State) (c : Nat) (q : QEnt) : Start :=
  let w := q.w
  let k := s.core c
  let x := k.slot q.slot.val
  let n := rNrows w
  let prec := fld w 168 148
  if n = 0 then .fin s q
  else if !inSlabSpace prec 64 then .stop s stCapacity
  else
    let rd := s.engRead c x.ctx.toNat prec 64
    let p := BitVec.ofNat 512 (leNat rd.data)
    if rd.st ≠ stOk then stopEcc rd.s rd.st c [(prec, 64)]
    else if !recordOk w p || (pQsrc p && hQueueMask x.hdr / 2 ^ pQix p % 2 = 0) then .stop rd.s stIllegal
    else if decide (pRcap p < n) || (rowRanges w p).any (fun r => !inSlabSpace r.1 r.2) then .stop rd.s stCapacity
    else if 16384 < rowCost w p then .stop rd.s stIllegal
    else
      let fresh := (cOpc w = 0x41 || cOpc w = 0x43) && rSwr w && bit w 98
      let bad := if rBack (cOpc w) then k.badStat (rSidx w) n (fun e => statTag e = rTag w)
        else if fresh then k.badStat (rSidx w) n (fun e => e = emptyStat) else none
      match bad with
      | some i => .stop rd.s stStats (statDetail i (statTag (k.stat i)) (if rBack (cOpc w) then rTag w else 0xFFFF))
      | none =>
        if (rowRanges w p).any (fun r => rd.s.slabOff c r.1 r.2) then .stop rd.s stIllegal
        else if pQsrc p then rowsQueue rd.s c { q with rcd := p } p 0 n
        else rowsFrom rd.s c q p 0 n

/-! ### RSPILL and RFILL (R172) -/

def spillInfo : OpInfo :=
  { engine := 2, rsv := [(255, 81)], base := [(79, 59)], stats := fun w => blockMask (fld w 44 32) (fld w 58 45)
    legal := fun w => fld w 79 59 % 64 = 0 && decide (fld w 58 45 ≤ 8192) && decide (fld w 44 32 + fld w 58 45 ≤ 8192) }

def startRspill (s : State) (c : Nat) (q : QEnt) : Start :=
  let w := q.w
  let k := s.core c
  let a := fld w 79 59
  let n := fld w 58 45
  let i := fld w 44 32
  if n = 0 then .fin s q
  else if (List.range n).any (fun j => k.statBad (i + j)) then .stop s stEcc
  else
    let items : Pieces := [(a, ((List.range n).map (fun j => natLe 8 (k.stat (i + j)).toNat)).flatten)]
    let y := s.engWrites c (s.ctxOf c q.slot.val) items
    if y.1 ≠ stOk then stopEcc y.2 y.1 c (rangesOf items)
    else
      let s := if bit w 80 then
          y.2.modCore c (fun k => (List.range n).foldl (fun k j => k.setStat (i + j) emptyStat) k)
        else y.2
      .go (s.count c 0xB8 n) q

def startRfill (s : State) (c : Nat) (q : QEnt) : Start :=
  let w := q.w
  let k := s.core c
  let a := fld w 79 59
  let n := fld w 58 45
  let i := fld w 44 32
  if n = 0 then .fin s q
  else if !inSlabSpace a (8 * n) then .stop s stCapacity
  else if (i % 4 ≠ 0 && k.statBad i) || ((i + n) % 4 ≠ 0 && k.statBad (i + n - 1)) then .stop s stEcc
  else
    match if bit w 80 then k.badStat i n (fun e => e = emptyStat) else none with
    | some j => .stop s stStats (statDetail j (statTag (k.stat j)) 0xFFFF)
    | none =>
      let r := s.engRead c (s.ctxOf c q.slot.val) a (8 * n)
      if r.st ≠ stOk then stopEcc r.s r.st c [(a, 8 * n)]
      else
        let v (j : Nat) : BitVec 64 :=
          let e := BitVec.ofNat 64 (leNat ((r.data.drop (8 * j)).take 8))
          if statTag e = 0xFFFF then emptyStat else e
        .go ((r.s.modCore c (fun k => (List.range n).foldl (fun k j => k.setStat (i + j) (v j)) k)).count c 0xB0 n) q

/-- Start of the head of the row queue: one command at a time (R99). -/
def startRow (s : State) (c : Nat) (q : QEnt) : Start :=
  if !((s.core c).run 2).isEmpty then .wait s
  else
    match cOpc q.w with
    | 0x45 => startRspill s c q
    | 0x46 => startRfill s c q
    | _ => startRowOp s c q

end Sys2Proof.Machine
end

