-- ==== Sys2Proof/Machine/Pump.lean ====
section
/-! DEFINITION. The engines at work: heads of queues that start, tokens awaited, completions,
operand queues, acknowledgements, and what the end of a command lets go on (R99 to R104, R210,
R223, R226 to R228, R233, R305). -/

namespace Sys2Proof.Machine

/-! ### Completion (R101, R115, R223) -/

/-- A command whose completion adds to its counter. -/
def countsIn (st : BitVec 8) : Bool := st = stOk || st = stPartial || st = stSrcChanged

/-- The addition of a completed command to its counter is on its way (R223). -/
def State.addsTo (s : State) (c : Nat) (q : QEnt) : State :=
  match cenIndex q.w, countsIn q.status with
  | some i, true =>
    let a : CounterAdd := { index := BitVec.ofNat 16 i, inc := q.inc, ctx := (s.slot c q.slot.val).ctx }
    { s with sync := { s.sync with adds := s.sync.adds ++ [a] } }
  | _, _ => s

/-- The commands of a slot in execution end with it: one that awaits nothing completes, and one that has not
all it needs is dropped (R410). -/
def State.finishSlot (s : State) (c sl : Nat) : State :=
  [0, 1, 2, 3].foldl (fun s e =>
    let mine := ((s.core c).run e).filter (fun q => q.slot.val = sl)
    let s := mine.foldl (fun s q =>
      if q.await.isEmpty then (s.addsTo c q).modCore c (fun k => k.finishIn sl e q)
      else s.modCore c (fun k => k.dropClaims q.claims)) s
    s.modCore c (fun k => k.setRun e ((k.run e).filter (fun q => q.slot.val ≠ sl)))) s

/-- A command of an engine completes. One whose token does not fit stops its slot instead: it counts
nowhere and adds nothing (R102, R115). -/
def State.complete (s : State) (c e : Nat) (q : QEnt) : State :=
  let s := s.progress c e 1
  if ((s.slot c q.slot.val).posted q.w).isNone then s.finish c e q
  else
    let s := match doneCounter e q.w with
      | some o => s.count c o 1
      | none => s
    (s.addsTo c q).finish c e q

/-! ### Starting heads -/

def startAccess (s : State) (c : Nat) (q : QEnt) : Start :=
  if (s.core c).hazard c q.w then .wait s
  else match cOpc q.w with
  | 0x58 => startTload s c q
  | 0x59 => startQcfg s c q
  | 0x5A => startAprog s c q
  | _ => if isDamson q.w then startDamson s c q else if 0x60 ≤ cOpc q.w then startFabric s c q else startMove s c q

def startOn (s : State) (c e : Nat) (q : QEnt) : Start :=
  match e with
  | 0 => startMatrix s c q
  | 1 => startVector s c q
  | 2 => startRow s c q
  | _ => startAccess s c q

/-- Takes the head off an engine's queue. -/
def Core.pop (k : Core) (e : Nat) : Core := k.setQueue e ((k.queue e).drop 1)

/-- Replaces the head. -/
def Core.putHead (k : Core) (e : Nat) (q : QEnt) : Core := k.setQueue e (q :: (k.queue e).drop 1)

def State.stopEntry (s : State) (c e : Nat) (q : QEnt) (st : BitVec 8) (d : Nat) : State :=
  s.stopSlot c q.slot.val st { engine := e, off := q.off.toNat, detail := d } [(e, q)]

/-- The token of a head (R101): none where it is missing. -/
def State.headToken (s : State) (c e : Nat) (q : QEnt) : Option (State × QEnt) :=
  if !cWen q.w || q.tokenTaken then some (s, q)
  else
    let x := s.slot c q.slot.val
    let n := cWtok q.w
    if q.tokenWait || x.tok n = 0 then none
    else
      let q := { q with tokenTaken := true }
      some ((s.setSlot c q.slot.val (x.setTok n (x.tok n - 1))).modCore c (fun k => k.putHead e q), q)

/-- The engine starts nothing: in reset, suspended, or held by a row command on an empty queue. -/
def Core.stalled (k : Core) (e : Nat) : Bool :=
  k.down e || (decide (e = 3) && k.xltAcc) || (decide (e = 2) && (k.run 2).any (fun q => !q.await.isEmpty))

/-- A command enters the array of the matrix engine, or the vector or row engine: progress (Table 15-2). -/
def State.enters (s : State) (c e : Nat) : State := if e < 3 then s.progress c e 1 else s

/-- Heads of an engine's queue that can start, with fuel. -/
def State.pumpEngine (s : State) (c e : Nat) : Nat → State
  | 0 => s
  | f + 1 =>
    match (s.core c).queue e, (s.core c).stalled e with
    | q :: _, false =>
      match s.headToken c e q with
      | none => s.modCore c (fun k => k.putHead e { q with tokenWait := true })
      | some (s, q) =>
        if !q.await.isEmpty then s
        else
          match startOn s c e q with
          | .go s q =>
            if cOpc q.w = 0x5A then
              let s := s.modCore c (fun k => k.pop e)
              (s.runProgram c (programFuel (s.core c))).pumpEngine c e f
            else ((s.enters c e).modCore c (fun k => (k.pop e).setRun e (k.run e ++ [q]))).pumpEngine c e f
          | .fin s q => ((s.modCore c (fun k => k.pop e)).complete c e q).pumpEngine c e f
          | .wait s => s
          | .hold s q => s.modCore c (fun k => k.putHead e q)
          | .stop s st d => ((s.modCore c (fun k => k.pop e)).stopEntry c e q st d).pumpEngine c e f
    | _, _ => s

def State.pump (s : State) (c : Nat) : State :=
  [0, 1, 2, 3].foldl (fun s e => s.pumpEngine c e ((s.core c).queue e).length.succ) (s.nextDamson c 64)

/-! ### Slots that wait for their commands -/

/-- END whose commands are complete, and FENCE whose condition is met, also while its slot drains
(R125). -/
def State.releaseHold (s : State) (c sl : Nat) : State :=
  let k := s.core c
  let x := k.slot sl
  match x.hold, x.draining with
  | .ending w, false =>
    if k.live sl ≠ 0 then s
    else if cPen w && (x.post (cPtok w) 1).isNone then s.stopAtPc c sl stIllegal
    else s.endSlot c sl
  | .fence w, _ => if fenceMet k sl w then s.seqDone c sl w stOk none else s
  | _, _ => s

/-- What a change lets go on in a slot: its hold, and its drain. -/
def State.releaseSlot (s : State) (c sl : Nat) : State :=
  let x := s.slot c sl
  if !x.active || x.doomed || (s.core c).down 4 then s
  else
    let s := s.releaseHold c sl
    if (s.slot c sl).draining then s.drainSlot c sl else s

/-- What a change on a core lets go on. -/
def State.afterCore (s : State) (c : Nat) : State :=
  [0, 1, 2, 3].foldl (fun s sl => s.releaseSlot c sl) (s.pump c)

/-! ### Events of the engines -/

/-- TOKEN_WAIT_RELEASE: the waiting head of an engine takes its token and starts; the hold of a
sequencer command at its token ends. -/
def execTokenWaitRelease (c : CoreId) (e : Engine) (sl : SlotId) (s : State) : Host.Outcome State Fault Refusal :=
  .next (match e with
    | .sequencer => s.modSlot c.val sl.val (fun x => if x.hold = .token then { x with hold := .none } else x)
    | e =>
      match (s.core c.val).queue (engNum e) with
      | q :: _ =>
        if q.slot = sl && q.tokenWait && decide ((s.slot c.val sl.val).tok (cWtok q.w) ≠ 0) && !(s.core c.val).stalled (engNum e) then
          (s.modCore c.val (fun k => k.putHead (engNum e) { q with tokenWait := false })).afterCore c.val
        else s
      | [] => s)

/-- Completes an entry in execution and lets others go on. -/
def State.completeRun (s : State) (c e : Nat) (q : QEnt) : State :=
  ((s.modCore c (fun k => k.setRun e ((k.run e).erase q))).complete c e q).afterCore c

/-- The oldest MMA in execution on a tile completes. -/
def execTileComplete (c : CoreId) (t : Fin 4) (s : State) : Host.Outcome State Fault Refusal :=
  .next (match ((s.core c.val).run 0).find? (fun q => cOpc q.w = 0x20 && mmaT q.w = t.val) with
    | some q => s.completeRun c.val 0 q
    | none => s)

/-- Command n of those in execution on the matrix, vector or row engine, MMAs left out. -/
def execEngineCommandComplete (c : CoreId) (e : Engine) (n : Fin 64) (s : State) : Host.Outcome State Fault Refusal :=
  .next (if 3 ≤ engNum e then s
    else
      match (((s.core c.val).run (engNum e)).filter (fun q => cOpc q.w ≠ 0x20 && q.await.isEmpty))[n.val]? with
      | some q => s.completeRun c.val (engNum e) q
      | none => s)

/-- Replaces an entry in execution. -/
def State.setRunEnt (s : State) (c e : Nat) (q q' : QEnt) : State :=
  s.modCore c (fun k => k.setRun e ((k.run e).map (fun x => if x = q then q' else x)))

/-- A stop of an entry in execution. -/
def State.stopRun (s : State) (c e : Nat) (q : QEnt) (st : BitVec 8) (d : Nat) : State :=
  ((s.modCore c (fun k => k.setRun e ((k.run e).erase q))).stopEntry c e q st d).afterCore c

/-- TLOAD_ROW_ARRIVAL: the next row of tile load n of those that load. -/
def execTloadRowArrival (c : CoreId) (n : Fin 64) (s : State) : Host.Outcome State Fault Refusal :=
  .next (if (s.core c.val).xltAcc || (s.core c.val).down 3 then s
    else
      match (((s.core c.val).run 3).filter (fun q => cOpc q.w = 0x58 && !q.await.isEmpty))[n.val]? with
      | none => s
      | some q =>
        match tloadRow s { c := c.val, ctx := s.ctxOf c.val q.slot.val, q := q } with
        | .inr (s, q') => s.setRunEnt c.val 3 q q'
        | .inl (.ok s _) => s
        | .inl (.block s _ _) => s
        | .inl (.stop s st d) => s.stopRun c.val 3 q st d)

/-! ### Operand queues (R224 to R226) -/

/-- Operand queue that a vector or row command in execution waits on. -/
def waitsOn (e : Nat) (q : QEnt) : Option Nat :=
  if q.await.isEmpty then none else if e = 1 then some (fld q.w 49 47) else some (pQix q.rcd)

/-- A consumer goes on with the rows now present. -/
def State.resumeConsumer (s : State) (c e : Nat) (q : QEnt) : State :=
  let r := if e = 1 then vldTake s c q q.await else rowsQueue s c q q.rcd (q.await.getD 0 0) (rNrows q.w - q.await.getD 0 0)
  match r with
  | .go s q' => s.setRunEnt c e q q'
  | .stop s st d => s.stopRun c e q st d
  | _ => s

def State.resumeConsumers (s : State) (c e qi : Nat) : State :=
  (((s.core c).run e).filter (fun q => waitsOn e q = some qi)).foldl (fun s q => s.resumeConsumer c e q) s

/-- Command n of those in execution on the access engine that await nothing. With a QCFG of
COUNT 0 the consumers that wait on its queue stop (R224). -/
def execAccessCommandComplete (c : CoreId) (n : Fin 64) (s : State) : Host.Outcome State Fault Refusal :=
  .next (match (((s.core c.val).run 3).filter (fun q => q.await.isEmpty))[n.val]? with
    | some q =>
      let s := s.completeRun c.val 3 q
      if cOpc q.w = 0x59 && fld q.w 70 60 = 0 then
        (s.resumeConsumers c.val 1 (fld q.w 75 73)).resumeConsumers c.val 2 (fld q.w 75 73)
      else s
    | none => s)

/-- A producer at the head of the access queue, or a command of the program, that waited for
room goes on. -/
def State.resumeProducer (s : State) (c : Nat) : State :=
  let s := match (s.core c).program with
    | some p =>
      if p.ent.await = [1] then
        let s := s.modCore c (fun k => { k with program := some { p with ent := { p.ent with await := [] } } })
        s.runProgram c (programFuel (s.core c))
      else s
    | none => s
  match (s.core c).queue 3 with
  | q :: _ => if q.await = [1] then s.modCore c (fun k => k.putHead 3 { q with await := [] }) else s
  | [] => s

def execOperandQueueRelease (c : CoreId) (q : Fin 8) (s : State) : Host.Outcome State Fault Refusal :=
  .next ((((s.resumeConsumers c.val 1 q.val).resumeConsumers c.val 2 q.val).resumeProducer c.val).afterCore c.val)

/-! ### Multicast acknowledgements (R233) -/

/-- The acknowledgement of destination dst reaches the engine that sent the multicast. -/
def State.mcastAck (s : State) (c dst : Nat) : State :=
  let u := dst + 2
  let isM (q : QEnt) : Bool := cOpc q.w = 0x55 && q.await.contains u
  match ((s.core c).run 3).find? isM with
  | some q =>
    let q' := { q with await := q.await.erase u }
    if q'.await.isEmpty then s.modCore c (fun k => k.setRun 3 ((k.run 3).erase q)) |>.complete c 3 q' |>.afterCore c
    else s.setRunEnt c 3 q q'
  | none =>
    match (s.core c).program with
    | none => s
    | some p =>
      if !p.ent.await.contains u then s
      else
        let p := { p with ent := { p.ent with await := p.ent.await.erase u } }
        let s := s.modCore c (fun k => { k with program := some p })
        if p.ent.await.isEmpty then (s.programAcked c).afterCore c else s

/-- A destination that is fenced acknowledges what it has outstanding (R233). -/
def State.ackAll (s : State) (dst : Nat) : State :=
  s.cores.foldl (fun s e => s.mcastAck e.1 dst) s

def execMcastAck (c dst : CoreId) (s : State) : Host.Outcome State Fault Refusal := .next (s.mcastAck c.val dst.val)

/-! ### Damson answers -/

def execDamsonResult (c : CoreId) (k : DamId) (s : State) : Host.Outcome State Fault Refusal :=
  .next ((s.damsonResult c.val k.val).afterCore c.val)

/-! ### Flits lost at a router out of service (R420) -/

/-- An entry whose request was lost with a flit: its part fails. The item of a GATHER or
SCATTER is a free value, since a flit does not name it. -/
def lostPart (free : BitVec 5) (q : QEnt) (dst : Nat) : QEnt :=
  let b := match cOpc q.w with
    | 0x53 => free.toNat
    | 0x54 => free.toNat
    | 0x55 => coreY dst - mY0 q.w
    | _ => 20
  let p : Progress := { q.prog with bitmap := q.prog.bitmap ||| BitVec.ofNat 32 (2 ^ b) }
  { q.moved' p (q.await.erase (dst + 2)) with pushed := q.pushed }

/-- A movement whose parts may fail. -/
def movesData (w : Cmd) : Bool := decide (0x50 ≤ cOpc w) && decide (cOpc w ≤ 0x58)

def execMeshPathLostTimeout (c : CoreId) (n : Fin 64) (s : State) : Host.Outcome State Fault Refusal :=
  .next (match s.lostFlits.find? (fun f => f.src = c), (((s.core c.val).run 3).filter (fun q => movesData q.w))[n.val]? with
    | some f, some q =>
      let s' := { s with lostFlits := s.lostFlits.erase f }
      s'.took.setRunEnt c.val 3 q (lostPart (s.freeVal 5) q f.dst.val)
    | _, _ => s)

end Sys2Proof.Machine
end

