-- ==== Sys2Proof/Machine/FabricRows.lean ====
section
/-! DEFINITION. Answers to fabric requests, timeouts and quarantines, packets on their way, the
link layer (R319 to R322, R328 to R338). -/

namespace Sys2Proof.Machine

/-! ### The command that an answer belongs to -/

/-- A packet that was waited for fails after its command was withdrawn: the command's bitmap, which its
image carries, says so (R334). -/
def Core.withdrawnFails (k : Core) (id : Nat) (st : BitVec 8) : Core :=
  { k with withdrawn := KV.vmap [] (List.map (fun (q : QEnt) =>
      if q.id = id ∧ st ≠ stOk then
        { q with prog := { q.prog with bitmap := q.prog.bitmap ||| BitVec.ofNat 32 (2 ^ failBit st) } }
      else q)) k.withdrawn }

/-- A fabric command of a core by its number: whether it is in execution, and its entry. -/
def State.fabEnt (s : State) (c id : Nat) : Option (Bool × QEnt) :=
  match ((s.core c).run 3).find? (fun q => q.id = id) with
  | some q => some (true, q)
  | none => (((s.core c).queue 3).find? (fun q => q.id = id)).map (fun q => (false, q))

def State.putFabEnt (s : State) (c : Nat) (inRun : Bool) (q q' : QEnt) : State :=
  let f (x : QEnt) : QEnt := if x = q then q' else x
  s.modCore c (fun k => if inRun then k.setRun 3 ((k.run 3).map f) else k.setQueue 3 ((k.queue 3).map f))

/-- NOTIFYs that wait for a tag try again. -/
def State.retryNotify (s : State) : State :=
  s.cores.foldl (fun s e => ((s.core e.1).run 3).foldl (fun s q =>
    if q.id ≠ 0 && fbNotify q.w && !q.notify && q.await = [1] && (s.reqsOf q.id).isEmpty then
      let r := s.fabAdvance e.1 (s.ctxOf e.1 q.slot.val) q
      r.1.putFabEnt e.1 true q r.2
    else s) s) s

/-- Commands that wait for a tag try again: heads of access queues, and NOTIFYs. -/
def State.wakeHeld (s : State) : State :=
  let s := s.retryNotify
  (s.cores.filter (fun e => match e.2.queue 3 with
    | q :: _ => decide (q.id ≠ 0) && q.await.isEmpty
    | [] => false)).foldl (fun s e => s.pump e.1) s

/-- Whole rows of a GET at the front of its command, as pushed into an operand queue (R225). -/
def State.rowsDone (s : State) (q : QEnt) : Nat :=
  let parts := fbParts q.w q.prog
  match parts[((s.reqsOf q.id).map (·.ix)).foldl min q.sent]? with
  | some x => x.row - q.prog.rows.toNat
  | none => fbRows q.w - q.prog.rows.toNat

/-- Entries that a GET into an operand queue has filled are pushed. -/
def State.pushRows (s : State) (c : Nat) (q : QEnt) : State × QEnt :=
  match queueOf (fbLocal q.w), decide (cOpc q.w = 0x61) with
  | some qi, true =>
    let n := s.rowsDone q - q.pushed
    let s := s.modCore c (fun k => { k with
      opqs := KV.put {} k.opqs qi { (k.opq qi) with tail := (k.opq qi).tail + BitVec.ofNat 32 n } })
    (s, { q with pushed := q.pushed + n })
  | _, _ => (s, q)

/-- The outcome of one packet reaches its command (R333). -/
def State.answered (s : State) (r : FabReq) (quarantine : Bool) (st : BitVec 8) : State :=
  let c := r.core.val
  let before := s
  let s := s.freeReq r quarantine
  match s.fabEnt c r.id with
  | none => ((s.modCore c (fun k => k.withdrawnFails r.id st)).wakeHeld).afterCore c
  | some (inRun, q) =>
    if st = stRetry && r.ptype ≠ pkNotify then
      let q' := if isPutGet q.w then { q with prog := before.fabProgress q } else q
      let s := (s.dropReqs q.id).modCore c (fun k => if inRun then k.setRun 3 ((k.run 3).erase q) else k.setQueue 3 ((k.queue 3).erase q))
      (s.stopEntry c 3 q' st 0).afterCore c
    else
      let q1 := if r.ptype = pkNotify then (if st = stOk then q else q.addBit 4) else q.outcome st
      let p := s.pushRows c q1
      let a := if inRun then p.1.fabAdvance c (s.ctxOf c q.slot.val) p.2 else p
      ((a.1.putFabEnt c inRun q a.2).wakeHeld).afterCore c

/-- A packet answered OK: its bytes are counted (R235), and its granules are progress (R403). -/
def State.answerOk (s : State) (r : FabReq) (n : Nat) : State :=
  ((s.count r.core.val 0xD8 n).progress r.core.val 3 (ceilDiv n 64)).answered r false stOk

/-! ### Answers (R328, R330, R331) -/

/-- GETDATA is written at the place its request named; poisoned data is written poisoned. -/
def State.landGet (s : State) (r₀ ctx a : Nat) (d : List Byte) (bad : Nat) : BitVec 8 × State :=
  landData (fun s x write => match s.placeNow ctx x write with
    | (some pl, s) => (.inr pl, s)
    | (none, s) => (.inl stIllegal, s)) s r₀ ctx a d bad

/-- An answer whose way through the mesh meets a router out of service is lost (R420): its request times
out (R328). -/
def State.answerCut (s : State) (p : PortId) (pk : Packet) : Bool :=
  match s.findReq pk with
  | some r => s.cut (packetRouter p.val pk) r.core.val
  | none => false

def State.getData (s : State) (p : PortId) (pk : Packet) : State :=
  match s.findReq pk with
  | none => s.lateAnswer p pk
  | some r =>
    let carries := pk.status = stOk || pk.status = stEcc || pk.status = stPoison
    match r.addr, carries with
    | some a, true =>
      let w := s.landGet r.core.val r.ctx.toNat a pk.data pk.bad
      let st := if pk.status ≠ stOk then pk.status else if pk.bad ≠ 0 then stPoison else w.1
      if st = stOk then w.2.answerOk r pk.data.length else w.2.answered r false st
    | _, _ => s.answered r false pk.status

def execGetdata (p : PortId) (pk : Packet) (s : State) : Host.Outcome State Fault Refusal :=
  .next (let s := s.undeliver p pk
    if s.answerCut p pk then s else s.getData p pk)

/-- ATOMICRSP: the old value, at byte 24, is written to RES (R331, log 19). -/
def State.atomicRsp (s : State) (p : PortId) (pk : Packet) : State :=
  match s.findReq pk with
  | none => s.lateAnswer p pk
  | some r =>
    match r.addr, decide (pk.status = stOk) with
    | some a, true =>
      let w := s.engWrite r.core.val r.ctx.toNat a (natLe r.len (fld pk.body 63 0))
      w.2.answered r false w.1
    | _, _ => s.answered r false pk.status

def execAtomicrsp (p : PortId) (pk : Packet) (s : State) : Host.Outcome State Fault Refusal :=
  .next (let s := s.undeliver p pk
    if s.answerCut p pk then s else s.atomicRsp p pk)

def execAck (p : PortId) (pk : Packet) (s : State) : Host.Outcome State Fault Refusal :=
  .next (let s := s.undeliver p pk
    if s.answerCut p pk then s
    else
      match s.findReq pk with
      | none => s.lateAnswer p pk
      | some r => s.answerOk r (if r.ptype = pkNotify then 0 else r.len))

/-- A NACK with DEST_ABSENT posts a FABRIC record, at most one per identity per 100 ms (R338). -/
def State.noteAbsent (s : State) (p : PortId) (id : BitVec 14) (st : BitVec 8) : State :=
  if st = stAbsent && !s.fab.absentSent.contains id then
    ({ s with fab := { s.fab with absentSent := id :: s.fab.absentSent } }).postFabric 5 p.val stAbsent
      (pack [(8, 4), (8, 0), (16, id.toNat)])
  else s

/-- Module that a sync operation was sent to. -/
def syncTarget (q : SyncReq) : BitVec 14 := BitVec.ofNat 14 (syncModule q.w)

def State.nackPacket (s : State) (p : PortId) (pk : Packet) : State :=
  let data (s : State) : Option State := (s.findReq pk).map (fun r => (s.noteAbsent p r.dest pk.status).answered r false pk.status)
  let sync (s : State) : Option State :=
    (s.findSync pk).map (fun e => (s.noteAbsent p (syncTarget e.2) pk.status).syncNack e.1 e.2 pk.status)
  let r := if fld pk.body 7 0 = 8 then (sync s).orElse (fun _ => data s) else (data s).orElse (fun _ => sync s)
  r.getD (s.lateAnswer p pk)

def execNack (p : PortId) (pk : Packet) (s : State) : Host.Outcome State Fault Refusal :=
  .next (let s := s.undeliver p pk
    if s.answerCut p pk && fld pk.body 7 0 ≠ 8 then s else s.nackPacket p pk)

/-! ### Timeouts and quarantine (R328) -/

def execDataRequestTimeout (p : PortId) (tag : BitVec 16) (s : State) : Host.Outcome State Fault Refusal :=
  .next (match s.fab.reqs.find? (fun (r : FabReq) => r.port = p && r.tag = tag.toNat) with
    | some r => s.answered r true stPathLost
    | none => s)

/-- A tag of a port's pool, or of the sync pool, is free again. -/
def execTagQuarantineEnd (p : Option PortId) (tag : BitVec 16) (s : State) : Host.Outcome State Fault Refusal :=
  .next (match p with
    | some p => ({ s with fab := { s.fab with tagQuar := KV.put false s.fab.tagQuar (tagKey p.val tag.toNat) false } }).wakeHeld
    | none => State.retryPorts { s with sync := { s.sync with tagQuar := KV.put false s.sync.tagQuar tag.toNat false } })

/-! ### Packets on their way (R335 to R338) -/

/-- A packet is routed; one of a reserved type is dropped and counted (R326). -/
def execPacketRoute (arr : Option PortId) (pk : Packet) (s : State) : Host.Outcome State Fault Refusal :=
  .next (match arr, knownType pk.ptype with
    | some p, false => (s.takePacket arr pk).bump32 (oLate p.val) 1
    | none, false => s.takePacket arr pk
    | _, true => s.routePacket arr pk)

/-- A packet resident for more than 16 µs is dropped. -/
def execPacketResidenceExpiry (p : PortId) (pk : Packet) (s : State) : Host.Outcome State Fault Refusal :=
  .next (let f := s.fab
    if f.arrived.contains (p, pk) then ({ s with fab := { f with arrived := f.arrived.erase (p, pk) } }).dropPacket pk stPathLost
    else if f.inject.contains pk then ({ s with fab := { f with inject := f.inject.erase pk } }).dropPacket pk stPathLost
    else if f.delivered.contains (some p, pk) then
      ({ s with fab := { f with delivered := f.delivered.erase (some p, pk) } }).dropPacket pk stPathLost
    else s)

/-! ### State of a port (R323) -/

/-- STATE and CODE of a port; a change posts a FABRIC record (log 25). -/
def State.setPortSt (s : State) (p st code : Nat) : State :=
  if s.portSt p = st ∧ s.rf (oPortStat p) 11 8 = code then s
  else
    let s := (s.setRf (oPortStat p) 2 0 st).setRf (oPortStat p) 11 8 code
    s.postFabric 5 p stOk (pack [(8, 1), (24, 0), (32, (s.rg (oPortStat p)).toNat)])

def State.portCode (s : State) (p : Nat) : Nat := s.rf (oPortStat p) 11 8

def codeOk : Nat := 0
def codeMiscabled : Nat := 3
def codeSelf : Nat := 4
def codeWidth : Nat := 5
def codeTopo : Nat := 6
def codeTimeout : Nat := 7

/-- The link of a port starts afresh: its fibres' sequence numbers and buffers are empty. -/
def State.clearFibres (s : State) (p : Nat) : State :=
  { s with fab := { s.fab with fibres := s.fab.fibres.filter (fun e => e.1 / 8 ≠ p) } }

/-- An UP port goes DOWN; its replay buffers are dropped. -/
def State.portGoesDown (s : State) (p : Nat) : State :=
  if s.portSt p = portUpSt then (s.clearFibres p).setPortSt p portDown (s.portCode p) else s

/-- A fibre that failed: its port goes DOWN and retrains (R321). -/
def State.fibreFails (s : State) (p f : Nat) : State :=
  let s := s.portGoesDown p
  s.setFibre (p * 8 + f) { failed := true }

def execLightLoss (p : PortId) (s : State) : Host.Outcome State Fault Refusal := .next (s.portGoesDown p.val)

/-! ### Frames (R319, R321, R322) -/

/-- Bytes a codeword corrects, and codewords a frame, under the form in use (Table 12-4). -/
def State.fecLimit (s : State) (p : Nat) : Nat × Nat := if s.strong p then (7, 8) else (2, 2)

/-- Bytes of a frame (Table 12-4). -/
def State.frameSize (s : State) (p : Nat) : Nat := if s.strong p then 1152 else 272

/-- Erroneous bytes of codeword j of n: frame byte i belongs to codeword i mod n (R319). -/
def wrongIn (fr : Frame) (n j : Nat) : Nat := (fr.errs.eraseDups.filter (fun i => i % n = j)).length

/-- The frame is good after correction: no codeword holds more errors than it corrects, and the CRC
matches (R321). -/
def State.frameGood (s : State) (p : Nat) (fr : Frame) : Bool :=
  let l := s.fecLimit p
  fr.crcOk && fr.errs.all (fun i => decide (i < s.frameSize p)) &&
    (List.range l.2).all (fun j => decide (wrongIn fr l.2 j ≤ l.1))

/-- Frame number a has been acknowledged by `ack`. -/
def ackCovers (ack a : BitVec 12) : Bool := decide ((ack - a).toNat < 2048)

/-- Frames up to the acknowledged one are released. -/
def Fibre.acked (x : Fibre) (ack : BitVec 12) : Fibre :=
  { x with
    replay := x.replay.filter (fun e => !ackCovers ack e.1)
    replays := if ackCovers ack x.nakSeq then 0 else x.replays }

/-- Credits returned, by channel. -/
def Fibre.credited (x : Fibre) (l : List Nat) : Fibre :=
  { x with owed := (List.range 4).foldl (fun m v => KV.upd 0 m v (· - l.getD v 0)) x.owed }

/-- A frame arrives: delivered in order, or discarded with a NAK of the expected number. -/
def State.frameReceive (s : State) (p : PortId) (f : Nat) (fr : Frame) : State :=
  let i := p.val * 8 + f
  let x := s.fibre i
  if s.portSt p.val ≠ portUpSt || x.failed then s
  else if s.frameGood p.val fr && fr.seq = x.rxSeq then
    let y := { (x.acked fr.ack).credited fr.credits with rxSeq := x.rxSeq + 1, naks := [] }
    let s := s.setFibre i y
    { s with fab := { s.fab with arrived := s.fab.arrived ++ fr.packets.map (fun k => (p, k)) } }
  else if x.naks.isEmpty then s.setFibre i { x with naks := [x.rxSeq] }
  else if fr.seq = x.rxSeq then
    if 16 ≤ x.naks.length then s.fibreFails p.val f else s.setFibre i { x with naks := x.rxSeq :: x.naks }
  else s

def execFrameReceive (p : PortId) (f : FibreId) (fr : Frame) (s : State) : Host.Outcome State Fault Refusal :=
  .next (s.frameReceive p f.val fr)

/-- Frames held from number seq on. -/
def Fibre.from (x : Fibre) (seq : BitVec 12) : List (BitVec 12 × Option Packet) := x.replay.dropWhile (fun e => e.1 ≠ seq)

/-- A NAK arrives: the sender replays from the frame it names, and what the later frames carry leaves
again; a frame replayed 16 times fails its fibre. -/
def State.nakReceive (s : State) (p f : Nat) (seq : BitVec 12) : State :=
  let i := p * 8 + f
  let x := s.fibre i
  if s.portSt p ≠ portUpSt || x.failed || (x.from seq).isEmpty then s
  else if x.nakSeq = seq ∧ 16 ≤ x.replays then s.fibreFails p f
  else
    let again := ((x.from seq).filterMap (·.2)).map (fun k => (portOf p, k))
    let s := s.setFibre i { x with
      replay := x.from seq, nakSeq := seq, replays := if x.nakSeq = seq then x.replays + 1 else 1 }
    { s with fab := { s.fab with sent := again.reverse ++ s.fab.sent } }

def execNakReceive (p : PortId) (f : FibreId) (seq : BitVec 12) (s : State) : Host.Outcome State Fault Refusal :=
  .next (s.nakReceive p.val f.val seq)

end Sys2Proof.Machine
end

