-- ==== Sys2Proof/Machine/Ports.lean ====
section
/-! DEFINITION. Ports that train, join and leave their rings, the bypass switches, neighbour
identities and FAB_TOPO (R313, R314, R317, R320, R323, R342 to R348). -/

namespace Sys2Proof.Machine

/-! ### Switches (R342 to R344) -/

/-- The switch of a dimension moves: its transition is counted and FAB_PORT_STAT.BYPASS of both
ports follows. -/
def State.moveSwitch (s : State) (d : Nat) (thru : Bool) : State :=
  if KV.get false s.fab.through d = thru then s
  else
    let s := { s with fab := { s.fab with through := KV.put false s.fab.through d thru } }
    ((s.bump32 (oBypass d) 1).setRf (oPortStat (2 * d)) 4 4 (b2n !thru)).setRf (oPortStat (2 * d + 1)) 4 4 (b2n !thru)

def State.setDrive (s : State) (d : Nat) (on : Bool) : State :=
  { s with fab := { s.fab with driven := KV.put false s.fab.driven d on } }

/-- FAULT_N is asserted. -/
def State.faultN (s : State) : Bool := s.board.faultPip || s.board.faultModule || s.board.faultPsc

/-- Pip drives the switch of a dimension to THROUGH, unless FAULT_N keeps it released. -/
def State.driveSwitch (s : State) (d : Nat) : State :=
  if s.faultN then s else (s.setDrive d true).moveSwitch d true

/-- Pip releases the drive of a dimension; the switch returns by itself (BYPASS_SWITCH_SETTLED). -/
def State.releaseSwitch (s : State) (d : Nat) : State := s.setDrive d false

/-- A dimension begins to join its ring, or its joining has ended (R343). -/
def State.setJoining (s : State) (d : Nat) (on : Bool) : State :=
  { s with fab := { s.fab with joining := KV.put false s.fab.joining d on } }

def State.releaseSwitches (s : State) : State := ((s.releaseSwitch 0).releaseSwitch 1).releaseSwitch 2

def execBypassSwitchSettled (d : DimId) (s : State) : Host.Outcome State Fault Refusal :=
  .next (if KV.get false s.fab.driven d.val then s else s.moveSwitch d.val false)

/-! ### Joining a ring (R343) -/

def State.portOn (s : State) (p : Nat) : Bool := bit (s.rg (oPortCtrl p)) 0

def State.dimOn (s : State) (d : Nat) : Bool := s.portOn (2 * d) && s.portOn (2 * d + 1)

/-- A dimension that ports may join: FAB_TOPO is valid, and its size is above 1 (R313, R314). -/
def State.dimUsable (s : State) (d : Nat) : Bool := bit (s.rg oTopo) 31 && decide ((s.coord d).2 ≠ 1)

/-- Both ports of a dimension begin to train. -/
def State.trainDim (s : State) (d : Nat) : State :=
  let go (s : State) (p : Nat) : State := (s.clearFibres p).setPortSt p portTrain (s.portCode p)
  (go (go s (2 * d)) (2 * d + 1)).setJoining d true

/-- ENABLE of both ports of a dimension is set. -/
def State.joinDim (s : State) (d : Nat) : State := (s.driveSwitch d).trainDim d

def State.setEnable (s : State) (p : Nat) (on : Bool) : State := s.setRf (oPortCtrl p) 0 0 (b2n on)

/-- A write to ENABLE of one port: in a dimension that is not used it fails with code TOPO (R313);
once both ports of a dimension are enabled they join; a port that is disabled leaves, and its
dimension's drive is released. -/
def State.writeEnable (s : State) (p : Nat) (on : Bool) : State :=
  if s.portOn p = on then s
  else
    let s := s.setEnable p on
    if on then
      if !s.dimUsable (p / 2) then s.setPortSt p portFailed codeTopo
      else if s.dimOn (p / 2) then s.joinDim (p / 2) else s
    else (((s.clearFibres p).setPortSt p portDisabled (s.portCode p)).releaseSwitch (p / 2)).setJoining (p / 2) false

def execPortEnable (a : Agent) (d : DimId) (s : State) : Host.Outcome State Fault Refusal :=
  .next (if s.permits a .portCtrl (2 * d.val) then (s.writeEnable (2 * d.val) true).writeEnable (2 * d.val + 1) true else s)

def execPortDisable (a : Agent) (p : PortId) (s : State) : Host.Outcome State Fault Refusal :=
  .next (if s.permits a .portCtrl p.val then s.writeEnable p.val false else s)

/-- A port reset of a dimension (R343): its switch goes to BYPASS and back, and both ports
retrain. A dimension whose ports are not both enabled has nothing to retrain. -/
def State.resetDim (s : State) (d : Nat) : State :=
  if s.dimOn d && s.dimUsable d then (((s.releaseSwitch d).moveSwitch d false).driveSwitch d).trainDim d else s

def execRetrain (a : Agent) (p : PortId) (s : State) : Host.Outcome State Fault Refusal :=
  .next (if s.permits a .portCtrl p.val then s.resetDim (p.val / 2) else s)

/-- Both ports of a dimension are FAILED, one that was still training with code TIMEOUT, and its
drive is released. -/
def State.failDim (s : State) (d : Nat) : State :=
  let f (s : State) (p : Nat) : State :=
    (s.clearFibres p).setPortSt p portFailed (if s.portSt p = portTrain then codeTimeout else s.portCode p)
  ((f (f s (2 * d)) (2 * d + 1)).releaseSwitch d).setJoining d false

/-- Both ports of the dimension are UP. -/
def State.dimUp (s : State) (d : Nat) : Bool := decide (s.portSt (2 * d) = portUpSt) && decide (s.portSt (2 * d + 1) = portUpSt)

/-- 30 ms after a dimension began to join, its ports not both UP; whether Pip drives the switch or
FAULT_N keeps it released (R342, R343). -/
def execDimensionJoinTimeout (d : DimId) (s : State) : Host.Outcome State Fault Refusal :=
  .next (if KV.get false s.fab.joining d.val && !s.dimUp d.val then s.failDim d.val else s)

/-! ### Training (R317, R320, R323, R346) -/

/-- Identity of the module k positions along from port p (R313, R314). -/
def State.along (s : State) (p k : Nat) : Nat :=
  let d := p / 2
  let move (c n : Nat) : Nat := if p % 2 = 0 then (c + k) % n else (c + n * k - k) % n
  let x := s.coord 0
  let y := s.coord 1
  let z := s.coord 2
  (if d = 2 then move z.1 z.2 else z.1) * 1024 + (if d = 1 then move y.1 y.2 else y.1) * 32 + (if d = 0 then move x.1 x.2 else x.1)

/-- A change of the absent set posts a FABRIC record (R346, log 25). -/
def State.setAbsent (s : State) (p id : Nat) (absent : Bool) (nbr : Nat) : State :=
  if s.absent id = absent then s
  else
    (s.setRf (oAbsent (id / 32)) (id % 32) (id % 32) (b2n absent)).postFabric 5 p stOk
      (pack [(8, 3), (8, b2n absent), (16, id), (16, nbr)])

/-- Width of a link: none where training fails with WIDTH (R317). -/
def linkWidth (mine theirs : Bool) (here there : BitVec 2) : Option (Nat × Nat) :=
  match (here &&& there).toNat with
  | 3 => some (0, 0)
  | 1 => if mine && theirs then some (1, 0) else none
  | 2 => if mine && theirs then some (1, 1) else none
  | _ => none

/-- The identity found by port p is judged (R346): how many positions along it lies. -/
def State.judge (s : State) (p id : Nat) (dims : BitVec 14) : Option Nat :=
  if dims.toNat ≠ s.rf oTopo 27 14 then none else [1, 2, 3].find? (fun k => s.along p k = id)

/-- Training of a port ends. -/
def State.trained (s : State) (p : Nat) (o : TrainOutcome) : State :=
  match o with
  | .failed code => s.setPortSt p portDown (if code.toNat = codeOk ∨ 7 < code.toNat then codeTimeout else code.toNat)
  | .found id dims strong halfOk here there =>
    match linkWidth (bit (s.rg (oPortCtrl p)) 2) halfOk here there with
    | none => s.setPortSt p portDown codeWidth
    | some (w4, upper) =>
      let s := ((s.setRf (oPortStat p) 27 14 id.toNat).setRf (oPortStat p) 6 5 (w4 * 2 + upper)).setRf (oPortStat p) 7 7
        (b2n (strong || bit (s.rg (oPortCtrl p)) 1))
      let s := s.setRf (oPortStat p) 13 12 0
      if id.toNat = s.selfId then s.setPortSt p portDown codeSelf
      else
        match s.judge p id.toNat dims with
        | none => s.setPortSt p portDown codeMiscabled
        | some k =>
          let s := ((s.setRf (oPortStat p) 13 12 (k - 1)).clearFibres p).setPortSt p portUpSt codeOk
          if k = 1 then s.setAbsent p id.toNat false id.toNat
          else (List.range (k - 1)).foldl (fun s i => s.setAbsent p (s.along p (i + 1)) true id.toNat) s

/-- Training of a port ends; a dimension whose ports are then both UP has joined. -/
def State.portTrained (s : State) (p : Nat) (o : TrainOutcome) : State :=
  let s := s.trained p o
  if s.dimUp (p / 2) then s.setJoining (p / 2) false else s

def execPortTraining (p : PortId) (o : TrainOutcome) (s : State) : Host.Outcome State Fault Refusal :=
  .next (if s.portSt p.val = portTrain ∨ s.portSt p.val = portDown then s.portTrained p.val o else s)

def execTrainingRetry (p : PortId) (s : State) : Host.Outcome State Fault Refusal :=
  .next (if s.portSt p.val = portDown then s.setPortSt p.val portTrain (s.portCode p.val) else s)

/-! ### FAB_TOPO (R314) -/

/-- Every coordinate lies below its dimension. -/
def topoValid (v : BitVec 32) : Bool :=
  decide (fld v 4 0 ≤ fld v 18 14) && decide (fld v 9 5 ≤ fld v 23 19) && decide (fld v 13 10 ≤ fld v 27 24)

def State.writeTopo (s : State) (v : BitVec 32) : State :=
  if (List.range 6).all (fun p => s.portSt p = portDisabled) then
    s.setRg oTopo (BitVec.ofNat 64 (fld v 27 0 + b2n (topoValid v) * 2 ^ 31))
  else s

def execFabTopo (a : Agent) (v : BitVec 32) (s : State) : Host.Outcome State Fault Refusal :=
  .next (if !s.permits a .fabTopo 0 then s else if s.locked then s.lockViolation oTopo else s.writeTopo v)

end Sys2Proof.Machine
end

