-- ==== Sys2Proof/Machine/Lists.lean ====
section
/-! DEFINITION. Lists come, start, are restored, fetch their commands and are preempted
(R94 to R98, R105 to R107, R124 to R129, R171, R361 to R364, R383). -/

namespace Sys2Proof.Machine

def coreId (c : Nat) : CoreId := if h : c < 960 then ⟨c, h⟩ else 0

/-! ### The ready set (R94, R95, R356) -/

/-- Whether the ready set of a core has a free entry. -/
def Core.readyRoom (k : Core) : Bool := decide (k.ready.length < 16)

/-- A list enters the ready set of a core, which wakes (R356). -/
def State.enterReady (s : State) (c : Nat) (e : ReadyEnt) : State :=
  (s.modCore c (fun k => { k with ready := k.ready ++ [e] })).wakeCore c

/-- A user host-class core (R24). -/
def userHc (h : Nat) : Bool := decide (h % 8 ≠ 0) && decide (h % 8 ≠ 1)

/-- A launch store at a core's window: accepted with room in the ready set, else discarded
(R95). -/
def State.launch (s : State) (h c : Nat) (addr : BitVec 64) : State :=
  if userHc h && s.available c && (s.core c).readyRoom then
    (s.modCore c (fun k => { k with accepted := k.accepted + 1 })).enterReady c
      { addr := addr, ctx := BitVec.ofNat 16 (s.hcCtxOf h) }
  else s

def execListLaunch (h : HcId) (c : CoreId) (addr : BitVec 64) (s : State) : Host.Outcome State Fault Refusal :=
  .next (s.launch h.val c.val addr)

/-! ### Headers (R107, R128) -/

/-- An entry of the ready set with the header that its list, or its image, holds. -/
structure Cand where
  ent : ReadyEnt
  hdr : BitVec 512

/-- Conditions of R128 on the first 32 bytes of an image. -/
def imageHeadOk (ctx : BitVec 16) (w : BitVec 256) : Bool :=
  fld w 31 0 = 1 && bit w 48 && !bit w 50 && fld w 47 32 = ctx.toNat

/-- What reading the header of an entry finds. -/
inductive HeadRes where
  | ok (h : BitVec 512)
  | refuse (st : BitVec 8) (h : BitVec 512)
  | xlt (va cause level : Nat)

def State.readHead (s : State) (c : Nat) (e : ReadyEnt) : HeadRes × State :=
  let ctx := e.ctx.toNat
  let a := e.addr.toNat
  if e.restore then
    match s.fetchNow c ctx a 32 with
    | (.ok d, s) =>
      if !imageHeadOk e.ctx (BitVec.ofNat 256 (leNat d)) then (.refuse stIllegal 0, s)
      else
        let r := s.readDev c ctx (a + 0x190) 64
        if r.st = stOk then (.ok (BitVec.ofNat 512 (leNat r.data)), r.s) else (.refuse stIllegal 0, r.s)
    | (.xlt va cause level, s) => (.xlt va cause level, s)
    | (.fail _, s) => (.refuse stIllegal 0, s)
    | (.miss, s) => (.refuse stIllegal 0, s)
  else if a % 64 ≠ 0 then (.refuse stIllegal 0, s)
  else
    match s.fetchNow c ctx a 64 with
    | (.ok d, s) =>
      let h := BitVec.ofNat 512 (leNat d)
      (if headerOk h && hCtx h = ctx then .ok h else .refuse stIllegal h, s)
    | (.xlt va cause level, s) => (.xlt va cause level, s)
    | (.fail st, s) => (.refuse st 0, s)
    | (.miss, s) => (.refuse stIllegal 0, s)

/-- What reading the headers of a ready set finds: the first entry that cannot start, or all. -/
inductive Scan where
  | all (l : List Cand)
  | refuse (e : ReadyEnt) (st : BitVec 8) (h : BitVec 512)
  | xlt (e : ReadyEnt) (va cause level : Nat)

def State.scanReady (s : State) (c : Nat) : List ReadyEnt → Scan × State
  | [] => (.all [], s)
  | e :: l =>
    match s.readHead c e with
    | (.refuse st h, s) => (.refuse e st h, s)
    | (.xlt va cause level, s) => (.xlt e va cause level, s)
    | (.ok h, s) =>
      match s.scanReady c l with
      | (.all r, s) => (.all ({ ent := e, hdr := h } :: r), s)
      | z => z

/-- A reservation or a claim on one leaves with its list (R362). -/
def Cluster.unreserve (u : Cluster) (c : CoreId) (addr : BitVec 64) : Cluster :=
  let q := u.qualified.filter (fun x => x ≠ (c, addr))
  if u.reserved = some (c, addr) then { u with reserved := q.head?, qualified := q.drop 1 }
  else { u with qualified := q }

/-- Takes an entry out of the ready set. -/
def State.leaveReady (s : State) (c : Nat) (e : ReadyEnt) : State :=
  let k := clusterOf c
  (s.modCore c (fun k => { k with ready := k.ready.erase e })).setCluster k ((s.cluster k).unreserve (coreId c) e.addr)

/-- A list, or an image, that is refused at its start: the FAULT of R107, and the COMPLETION of
a descriptor (R383) or of a launched list (R393). -/
def State.refuseStart (s : State) (c sl : Nat) (e : ReadyEnt) (st : BitVec 8) (h : BitVec 512) : State :=
  let s := s.leaveReady c e
  let x : Slot := { listAddr := e.addr, hdr := h, ctx := e.ctx }
  let s := if e.restore then s else s.postCtx
    { typ := evFault, husk := true, status := st, kind := 1, engine := 4, src := c, ctx := e.ctx.toNat
      payload := faultPayload x sl 0 0xFFFFFFFF 0xFFFFFFFF }
  s.postComp { kind := endRefused, status := st, core := c, ctx := e.ctx.toNat, tag := hTag h
               addr := e.addr.toNat, origin := e.origin }

/-! ### The choice (R96, R361, R362) -/

def State.corrected (s : State) (c : Nat) (h : BitVec 512) : Nat :=
  hEstimate h * ((s.cluster (clusterOf c)).factor (hEclass h)).toNat / 256

/-- The estimate fits the balance; one that no balance can cover fits at the cap (R361). A
cluster whose grant is zero stands at no cap (log 26). -/
def Cluster.fits (u : Cluster) (est : Nat) : Bool :=
  decide ((est : Int) ≤ u.balance) ||
    (decide (u.grant ≠ 0) && decide (5 * u.grant < est) && decide ((5 * u.grant : Int) ≤ u.balance))

/-- Of two candidates, the one that step 1 prefers: higher PRIO, then longer in the set. -/
def topOf : List Cand → Option Cand
  | [] => none
  | x :: l => match topOf l with
    | none => some x
    | some y => if hPrio x.hdr < hPrio y.hdr then some y else some x

/-- Step 3: the smallest estimate, ties as step 1. -/
def leastOf (est : Cand → Nat) : List Cand → Option Cand
  | [] => none
  | x :: l => match leastOf est l with
    | none => some x
    | some y =>
      if est y < est x || (est x = est y && decide (hPrio x.hdr < hPrio y.hdr)) then some y else some x

/-- The candidate that R361 chooses, with the state after a draw from the half pool. -/
def State.choose (s : State) (c : Nat) (l : List Cand) : Option (Cand × State) :=
  let k := clusterOf c
  let u := s.cluster k
  let est (x : Cand) : Nat := s.corrected c x.hdr
  match topOf l with
  | none => none
  | some t =>
    if u.fits (est t) then some (t, s)
    else
      let mine := u.reserved = some (coreId c, t.ent.addr)
      let third := if u.reserved.isNone then leastOf est (l.filter (fun x => u.fits (est x))) else none
      match third with
      | some x => some (x, s)
      | none =>
        if u.reserved.isSome && !mine then none
        else
          let short : Int := est t - u.balance
          let h := clusterHalf k
          let pool := KV.get 0 s.power.pools h
          if short.toNat ≤ pool then
            some (t, { s.setCluster k { u with balance := u.balance + short } with
              power := { s.power with pools := KV.put 0 s.power.pools h (pool - short.toNat)
                                      draws := (k, short.toNat) :: s.power.draws } })
          else none

/-! ### Starting (R96, R171) -/

/-- STATS_BLOCK_CONTEXT_SWITCH: blocks of the mask that record another context are emptied and
record this one (R171). -/
def Core.takeBlocks (k : Core) (mask ctx : Nat) : Core :=
  (List.range 8).foldl (fun (k : Core) b =>
    if mask / 2 ^ b % 2 = 0 || KV.get 0 k.statCtx b = ctx + 1 then k
    else { k with stats := k.stats.filter (fun e => e.1 / 1024 ≠ b), statChk := k.statChk.filter (fun e => e.1 / 256 ≠ b)
                  statCtx := KV.put 0 k.statCtx b (ctx + 1) }) k

/-- A slot that can take a list: neither active nor suspended at a start. -/
def Core.freeSlots (k : Core) : List Nat :=
  [0, 1, 2, 3].filter (fun i => !(k.slot i).active && !(k.slot i).xltFault)

/-- The debit of a list that starts: that of a list no balance can cover takes the balance to its
floor (R359, R361). -/
def Cluster.debit (u : Cluster) (est : Nat) : Cluster :=
  if 5 * u.grant < est then { u with balance := -(4 * (u.grant : Int)) } else u.move (-(est : Int))

/-- A list starts: it leaves the ready set and is charged (R361). -/
def State.charge (s : State) (c : Nat) (e : ReadyEnt) (est : Nat) : State :=
  let s := s.leaveReady c e
  (s.setCluster (clusterOf c) ((s.cluster (clusterOf c)).debit est)).count c 8 1

/-- A translation fault on a header or parameter read: a free slot is suspended (R107). -/
def State.suspendStart (s : State) (c sl : Nat) (e : ReadyEnt) (va cause level : Nat) : State :=
  let x : Slot := { listAddr := e.addr, ctx := e.ctx, xltFault := true }
  (s.setSlot c sl x).postFault c sl stXlt { detail := pack [(64, va), (1, 0), (3, level), (4, cause)] }

/-- The chosen list starts in a slot. -/
def State.beginList (s : State) (c sl : Nat) (x : Cand) : State :=
  let e := x.ent
  let est := s.corrected c x.hdr
  let go (s : State) (par : Nat) : State :=
    let y : Slot := { active := true, listAddr := e.addr, hdr := x.hdr, ctx := e.ctx, origin := e.origin, charged := est }
    let y := (List.range 8).foldl (fun (y : Slot) i => y.setSreg i (BitVec.ofNat 64 (par / 2 ^ (64 * i)))) y
    ((s.charge c e est).setSlot c sl y).modCore c (fun k => { k.takeBlocks (hStatsMask x.hdr) e.ctx.toNat with parked := false, cst := .c0 })
  if hParam x.hdr = 0 then go s 0
  else
    match s.fetchNow c e.ctx.toNat (hParam x.hdr) 64 with
    | (.ok d, s) => go s (leNat d)
    | (.xlt va cause level, s) => s.suspendStart c sl e va cause level
    | (.fail st, s) => s.refuseStart c sl e st x.hdr
    | (.miss, s) => s

/-! ### Restoring (R127 to R129, R237, R238) -/

/-- Bytes of an image area. -/
abbrev Img := Nat → Nat → Nat

/-- Loop levels, innermost first; ISEL comes from the LOOP command in the list. -/
def restoreLoops (img : Img) (isel : Nat → Nat) : List LoopLevel :=
  ((List.range 4).filterMap (fun i =>
    let b := 0x30 + 16 * i
    if img (b + 4) 4 = 0 then none
    else some ({ off := BitVec.ofNat 32 (img b 4), body := BitVec.ofNat 32 (img (b + 4) 4)
                 remaining := BitVec.ofNat 32 (img (b + 8) 4), index := BitVec.ofNat 32 (img (b + 12) 4)
                 isel := BitVec.ofNat 5 (isel (img b 4)) } : LoopLevel))).reverse

/-- The slot of an image. -/
def restoreSlot (img : Img) (isel : Nat → Nat) (e : ReadyEnt) (h : BitVec 512) (est : Nat) : Slot :=
  let f := img 0x18 1
  let y : Slot :=
    { active := true, listAddr := BitVec.ofNat 64 (img 8 8), hdr := h, ctx := e.ctx, origin := e.origin
      pc := BitVec.ofNat 32 (img 0x10 4), loops := restoreLoops img isel
      sticky := ⟨f % 2 = 1, f / 2 % 2 = 1, f / 4 % 2 = 1⟩, cont := BitVec.ofNat 32 (img 0x20 4), charged := est
      restored := true }
  let y := (List.range 16).foldl (fun (y : Slot) i => y.setSreg i (BitVec.ofNat 64 (img (0x90 + 8 * i) 8))) y
  let y := (List.range 16).foldl (fun (y : Slot) i => y.setTok i (BitVec.ofNat 16 (img (0x70 + 2 * i) 2))) y
  { y with sds := (List.range 16).foldl (fun m i => KV.put 0 m i (BitVec.ofNat 109 (img (0x200 + 16 * i) 16))) [] }

def restoreProgress (img : Img) (o : Nat) : Progress :=
  { rows := BitVec.ofNat 32 (img o 4), bytes := BitVec.ofNat 32 (img (o + 4) 4), bitmap := BitVec.ofNat 32 (img (o + 8) 4)
    newer := img (o + 12) 4 % 2 = 1 }

/-- Withdrawn commands of engine e. Their list offsets are not in an image: `off` is a free
value (log 27). The first access command continues, as does a load that had begun. -/
def restoreQueue (img : Img) (k : Core) (sl e : Nat) (off : BitVec 32) : List QEnt :=
  let area := [0x400, 0xC00, 0x1400, 0x1C00].getD e 0
  (List.range (img (0x1C + e) 1)).map (fun i =>
    let w : Cmd := BitVec.ofNat 256 (img (area + 32 * i) 32)
    let p : Progress := if e = 3 ∧ i = 0 then restoreProgress img 0x2C00 else {}
    let loading := cOpc w = 0x58 && tLoading (k.tag (tlTagIx w))
    { slot := BitVec.toFin (BitVec.ofNat 2 sl), off := off, w := w, prog := p, bitmap := p.bitmap
      inc := BitVec.ofNat 8 (if e = 3 then img (0x2C60 + i) 1 else 0)
      tokenTaken := decide (p ≠ {}) || loading, notify := loading })

/-- Saturation bits of a FIX tile: cells at the extremes of V of a tile whose tag shows an
anchor overflow (R82, log 28). -/
def restoreSat (t : BitVec 128) (cells : Nat) : BitVec 1024 :=
  if tAnchOvf t then
    (List.range 1024).foldl (fun m i =>
      let v := cells / 2 ^ (96 * i) % 2 ^ 96
      setBit m i (v = 2 ^ 95 - 1 || v = 2 ^ 95)) 0
  else 0

/-- Registers, tags, statistics and operand queues of an image. -/
def Core.reload (k : Core) (img : Img) (h : BitVec 512) (ctx : Nat) : Core :=
  let inMask (n : Nat) : Bool := hRegMask h / 2 ^ n % 2 = 1
  let tag (n : Nat) : BitVec 128 := BitVec.ofNat 128 (img (0x2400 + 16 * n) 16)
  let used (n : Nat) : Bool := inMask n && tInUse (tag n)
  let k := (List.range 28).foldl (fun (k : Core) n => if inMask n then (k.setTag n (tag n)).renew n else k) k
  let k := (List.range 8).foldl (fun (k : Core) n =>
    if used n then { k.dropLatch n with xregs := KV.put 0 k.xregs n (BitVec.ofNat 16384 (img (0x3000 + 2048 * n) 2048)) } else k) k
  let k := (List.range 4).foldl (fun (k : Core) n =>
    if used (tagA n) then
      let c := img (0x7000 + 12288 * n) 12288
      let t : Tile := { cells := BitVec.ofNat 98304 c, cflags := BitVec.ofNat 3072 (img (0x2600 + 384 * n) 384)
                        sat := restoreSat (tag (tagA n)) c }
      { k with accs := KV.put {} k.accs n t }
    else k) k
  let k := (List.range 16).foldl (fun (k : Core) n =>
    if used (tagV n) then { k with vregs := KV.put 0 k.vregs n (BitVec.ofNat 32768 (img (0x13000 + 4096 * n) 4096)) } else k) k
  let k := (List.range 8).foldl (fun (k : Core) b =>
    if hStatsMask h / 2 ^ b % 2 = 1 then
      { k with
        stats := (List.range 1024).foldl (fun m i =>
          KV.put 0 m (1024 * b + i) (BitVec.ofNat 64 (img (0x23000 + 8192 * b + 8 * i) 8) ^^^ 0xFFFF000000000000#64)) k.stats
        statChk := k.statChk.filter (fun e => e.1 / 256 ≠ b)
        statCtx := KV.put 0 k.statCtx b (ctx + 1) }
    else k) k
  (List.range 8).foldl (fun (k : Core) q =>
    if hQueueMask h / 2 ^ q % 2 = 1 then
      let w : BitVec 128 := BitVec.ofNat 128 (img (0x110 + 16 * q) 16)
      let o : OpQueue := { base := BitVec.ofNat 21 (fld w 20 0), entry := BitVec.ofNat 7 (fld w 27 21)
                           count := BitVec.ofNat 11 (fld w 38 28), consumer := BitVec.ofNat 2 (fld w 40 39)
                           head := BitVec.ofNat 32 (fld w 95 64), tail := BitVec.ofNat 32 (fld w 127 96) }
      { k with opqs := KV.put {} k.opqs q o }
    else k) k

/-- The program of an image, where it has one. -/
def restoreProgram (img : Img) (sl : Nat) (off : BitVec 32) : Option Program :=
  if img 0x2C20 4 = 0xFFFFFFFF then none
  else
    let ent : QEnt := { slot := BitVec.toFin (BitVec.ofNat 2 sl), off := off, w := BitVec.ofNat 256 (img 0x2C40 32)
                        prog := restoreProgress img 0x2C10, inc := BitVec.ofNat 8 (img 0x2CA0 1), tokenTaken := true }
    some { ent := ent, index := BitVec.ofNat 32 (img 0x2C20 4), iter := BitVec.ofNat 32 (img 0x2C24 4)
           bitmap := BitVec.ofNat 32 (img 0x2C28 4), changed := img 0x2C2C 4 % 2 = 1 }

/-- The image fits the core's queues and its place for a program. -/
def Core.roomFor (k : Core) (img : Img) : Bool :=
  [0, 1, 2, 3].all (fun e => decide ((k.queue e).length + img (0x1C + e) 1 ≤ 64)) &&
    (img 0x2C20 4 = 0xFFFFFFFF || k.program.isNone)

/-- A restored image starts: VALID is cleared first (R128). -/
def State.beginRestore (s : State) (c sl : Nat) (x : Cand) : State :=
  let e := x.ent
  let ctx := e.ctx.toNat
  let r := s.readDev c ctx e.addr.toNat 208896
  if r.st ≠ stOk then r.s.refuseStart c sl e stIllegal x.hdr
  else
    let img : Img := fun o n => leNat ((r.data.drop o).take n)
    if !(s.core c).roomFor img then s
    else
      let est := s.corrected c x.hdr
      let list := img 8 8
      let isel (o : Nat) : Nat := fld (BitVec.ofNat 256 (leNat (s.readDev c ctx (list + 64 + 32 * o) 32).data)) 73 69
      let off : BitVec 32 := r.s.freeVal 32
      let s := (r.s.took.writeDev c ctx (e.addr.toNat + 6) (natLe 2 (img 6 2 / 2 * 2))).2
      let s := (s.charge c e est).setSlot c sl (restoreSlot img isel e x.hdr est)
      let s := s.modCore c (fun k => { k.reload img x.hdr ctx with parked := false, cst := .c0 })
      let s := s.modCore c (fun k => [0, 1, 2, 3].foldl (fun k n => k.setQueue n (k.queue n ++ restoreQueue img k sl n off)) k)
      match restoreProgram img sl off with
      | none => s
      | some p =>
        let s := s.modCore c (fun k => { k with program := some p })
        s.runProgram c (programFuel (s.core c))

/-- LIST_START: the sequencer of a core considers its ready set (R361). -/
def State.listStart (s : State) (c : Nat) : State :=
  let k := s.core c
  let held := ([0, 1, 2, 3].filter (fun i => !(k.slot i).active && (k.slot i).xltFault)).map (fun i => (k.slot i).listAddr)
  let ready := k.ready.filter (fun e => !held.contains e.addr)
  let awake := decide (k.cst = .c0) || (decide (k.cst = .c1) && k.parked)
  match k.freeSlots, awake && !k.down 4 && s.available c && !ready.isEmpty with
  | sl :: _, true =>
    match s.scanReady c ready with
    | (.refuse e st h, s) => s.refuseStart c sl e st h
    | (.xlt e va cause level, s) => s.suspendStart c sl e va cause level
    | (.all l, s) =>
      let l := l.filter (fun x => (activeSlots k).all (fun i => masksApart (k.slot i).hdr x.hdr))
      match s.choose c l with
      | some (x, s) => (if x.ent.restore then s.beginRestore c sl x else s.beginList c sl x).afterCore c
      | none =>
        if (activeSlots k).isEmpty && !l.isEmpty then s.modCore c (fun k => { k with parked := true, cst := .c1 }) else s
  | _, _ => s

def execListStart (c : CoreId) (s : State) : Host.Outcome State Fault Refusal := .next (s.listStart c.val)

/-! ### Command fetch (R98, R208) -/

/-- Offsets of the commands of a slot's list in the 512-byte block that holds one of them. -/
def blockOffsets (x : Slot) (off : Nat) : List Nat :=
  let a := x.listAddr.toNat + 64 + 32 * off
  let base := a / 512 * 512
  ((List.range 16).filterMap (fun i =>
    let p := base + 32 * i + 32 * ((x.listAddr.toNat + 64) % 32)
    if p < x.listAddr.toNat + 64 then none
    else
      let n := (p - (x.listAddr.toNat + 64)) / 32
      if n < hLength x.hdr then some n else none))

/-- One command of a block. -/
def Slot.fetched (x : Slot) (off : Nat) (r : FetchRes) : Slot :=
  let o := BitVec.ofNat 32 off
  let buf := x.buf.filter (fun e => e.1 ≠ o)
  let bad := x.bad.filter (fun e => e.1 ≠ o)
  match r with
  | .ok d => { x with buf := ((o, BitVec.ofNat 256 (leNat d)) :: buf).take 128, bad := bad }
  | .fail st => { x with buf := buf, bad := (o, st) :: bad }
  | _ => x

/-- A block of commands is read, or its walk begins. -/
def State.fetchBlock (s : State) (c sl off : Nat) (hostErr : Bool) : State :=
  let x := s.slot c sl
  let ctx := x.ctx.toNat
  let base := x.listAddr.toNat + 64
  let each (f : Nat → FetchRes × State → FetchRes × State) : State :=
    (blockOffsets x off).foldl (fun s o =>
      let r := f o (.miss, s)
      r.2.modSlot c sl (fun x => x.fetched o r.1)) s
  let fill (at' : Nat → Option Place) : State :=
    each (fun o r =>
      match at' (base + 32 * o) with
      | none => (.fail stIllegal, r.2)
      | some p =>
        if hostErr && (match p with | .host _ => true | _ => false) then (.fail stIllegal, r.2)
        else
          let d := r.2.getPlace c ctx p 32
          if d.st = stOk then (.ok d.data, d.s) else (.fail (fetchSt d.st), d.s))
  let tlb := (s.core c).tlbSeq
  match placeOf tlb ctx (base + 32 * off) false with
  | .miss =>
    if (s.core c).walks.any (fun e => e.1 = sl + 1) then s
    else
      let s := s.count c 0x100 1
      match s.walkStart ctx (base + 32 * off) false with
      | (.inl w, s) => s.modCore c (fun k => { k with
          walks := KV.ins k.walks (sl + 1) { w with slot := BitVec.toFin (BitVec.ofNat 2 sl), off := BitVec.ofNat 32 off } })
      | (.inr f, s) => s.xltFaultSeq c sl (base + 32 * off) f.1 f.2
  | _ =>
    fill (fun a => match placeOf tlb ctx a false with
      | .at (.queue _) => none
      | .at p => some p
      | _ => none)

/-- The command that a slot fetches next: the first from the program counter on that its buffer of 128 does
not hold and whose fetch has not failed (R98). -/
def Slot.nextFetch (x : Slot) : Option Nat :=
  let pc := x.pc.toNat
  ((List.range (min 128 (hLength x.hdr - pc))).map (· + pc)).find? (fun o =>
    (x.buffered o).isNone && !(x.bad.any (fun e => e.1.toNat = o)))

/-- Fetches go in ascending order: the block of an offset is fetched when the next command lies in it. -/
def execCommandFetch (c : CoreId) (sl : SlotId) (off : BitVec 32) (hostErr : Bool) (s : State) : Host.Outcome State Fault Refusal :=
  .next (
    let x := s.slot c.val sl.val
    let due := match x.nextFetch with
      | some o => (blockOffsets x off.toNat).contains o
      | none => false
    if x.active && !x.draining && !x.xltFault && decide (off.toNat < hLength x.hdr) && due && !(s.core c.val).down 4 then
      ((s.fetchBlock c.val sl.val off.toNat hostErr).settlePc c.val sl.val).afterCore c.val
    else s)

/-! ### Preemption (R124, R125) -/

/-- A slot is preempted: it begins to drain. -/
def State.beginDrain (s : State) (c sl : Nat) (by' : Option (FuncId × RingId)) : State :=
  ((s.modSlot c sl (fun x => { x with preemptBy := by' })).startDrain c sl).drainSlot c sl

/-- Slots of a context on a core that are not draining already. -/
def Core.slotsOf (k : Core) (ctx : Nat) : List Nat :=
  (activeSlots k).filter (fun i => (k.slot i).ctx.toNat = ctx && !(k.slot i).draining && !(k.slot i).doomed)

/-- Preempts the slots of a context whose lists have a save area; the others run on. -/
def State.preemptCtx (s : State) (c ctx : Nat) (by' : Option (FuncId × RingId)) : State :=
  let sls := ((s.core c).slotsOf ctx).filter (fun i => hSave ((s.core c).slot i).hdr ≠ 0)
  (sls.foldl (fun s sl => s.beginDrain c sl by') (s.wakeCore c)).afterCore c

def execPreemptRequest (r : Requester) (c : CoreId) (ctx : BitVec 16) (s : State) : Host.Outcome State Fault Refusal :=
  .next (if r = .host || r = .firmware then s.preemptCtx c.val ctx.toNat none else s)

/-- The slot of a preempted list is saved and freed (R125 step 4). -/
def State.savePreempted (s : State) (c sl flags : Nat) : State :=
  let x := s.slot c sl
  let s := s.writeImage c sl flags 0xFFFFFFFF stOk
  let s := ((s.settle c sl).count c 0x28 1).postComp (s.slotComp c sl endPreempted stOk 0xFFFFFFFF) x.preemptBy.isNone
  ((s.tellPreempt c sl true).freeSlot c sl).afterCore c

def execPreemptDrainComplete (c : CoreId) (sl : SlotId) (s : State) : Host.Outcome State Fault Refusal :=
  .next (let k := s.core c.val
    let x := k.slot sl.val
    if x.active && x.draining && x.stopping.isNone && !x.quiet && !x.doomed && !k.down 4 && k.drained sl.val && !s.owesAnswers c.val sl.val then s.savePreempted c.val sl.val 1 else s)

end Sys2Proof.Machine
end

