-- ==== Sys2Proof/Machine/Power.lean ====
section
/-! DEFINITION. Profiles, core states, the credit period and temperature (R351 to R371). -/

namespace Sys2Proof.Machine

/-! ### Profiles (R351, R352) -/

/-- THROTTLE_N is effective (R473): asserted as filtered, or treated so while unstable. -/
def State.throttled (s : State) : Bool := s.board.thrLow || s.board.thrUnstable

/-- Something holds every half at P4: THROTTLE_N, or its hold (R471). -/
def State.throttleHeld (s : State) : Bool := s.throttled || s.board.thrHold

/-- The slowest of the profiles that govern a half (R351, R371). -/
def State.wantProfile (s : State) (h : Nat) : Nat :=
  if s.throttleHeld || s.power.thermalP4.contains (halfId h) then 3
  else max (s.rf oProfile 1 0) (s.rf oProfile (2 * h + 3) (2 * h + 2))

def State.effProfile (s : State) (h : Nat) : Nat := s.rf oProfile (2 * h + 7) (2 * h + 6)

def State.setEff (s : State) (h p : Nat) : State := s.setRf oProfile (2 * h + 7) (2 * h + 6) p

def State.profileBusy (s : State) : Bool := !s.power.stages.isEmpty

def State.setStage (s : State) (h : Nat) (st : Option PStage) : State :=
  let m := match st with
    | some v => KV.ins s.power.stages h v
    | none => KV.del s.power.stages h
  let s := { s with power := { s.power with stages := m } }
  s.setRf oProfile 10 10 (b2n s.profileBusy)

/-- A half whose effective profile is not the one that governs begins to change: a fall
relocks first, a rise ramps first (R352). -/
def State.retarget (s : State) (h : Nat) : State :=
  if s.power.stages.any (fun e => e.1 = h) then s
  else
    let w := s.wantProfile h
    let p := BitVec.ofNat 2 w
    if w = s.effProfile h then s
    else s.setStage h (some (if s.effProfile h < w then .relockDown p else .rampUp p))

def State.retargets (s : State) : State := (s.retarget 0).retarget 1

/-- A value of PWR_PROFILE takes effect. MOD is locked by SEC_CTRL.LOCK (R480). -/
def State.applyProfile (s : State) (v : BitVec 32) : State :=
  let old := s.rf oProfile 1 0
  let new := if s.locked then old else fld v 1 0
  let s := (s.setRf oProfile 5 2 (fld v 5 2)).setRf oProfile 1 0 new
  let s := if old < new then { s with power := { s.power with measureProfile := BitVec.ofNat 2 (max s.power.measureProfile.toNat new) } } else s
  s.retargets

/-- A write to PWR_PROFILE: held while a change is in progress (R479). -/
def State.writeProfile (s : State) (v : BitVec 32) : State :=
  let s := if s.locked then s.lockViolation oProfile else s
  if s.profileBusy then { s with power := { s.power with heldProfile := some v } } else s.applyProfile v

def execPwrProfile (a : Agent) (v : BitVec 32) (s : State) : Host.Outcome State Fault Refusal :=
  .next (if s.permits a .pwrProfile 0 then s.writeProfile v else s)

/-- The change of a half ends: a held write takes effect once no half changes. -/
def State.profileDone (s : State) (h : Nat) : State :=
  let s := s.setStage h none
  match s.profileBusy, s.power.heldProfile with
  | false, some v => ({ s with power := { s.power with heldProfile := none } }).applyProfile v
  | _, _ => s.retarget h

def State.profileStep (s : State) (h : Nat) : State :=
  match s.power.stages.find? (fun e => e.1 = h) with
  | some (_, .relockDown p) => (s.setEff h p.toNat).setStage h (some (.rampDown p))
  | some (_, .rampUp p) => s.setStage h (some (.relockUp p))
  | some (_, .rampDown _) => s.profileDone h
  | some (_, .relockUp p) => (s.setEff h p.toNat).profileDone h
  | none => s

def execProfileChangeProgress (h : HalfId) (s : State) : Host.Outcome State Fault Refusal := .next (s.profileStep h.val)

/-! ### Core states (R353 to R356) -/

/-- No list is active and the ready set is empty. -/
def Core.unloaded (k : Core) : Bool := (activeSlots k).isEmpty && k.ready.isEmpty

/-- Idle under R355. -/
def Core.idle (k : Core) : Bool := !k.parked && (k.unloaded || k.onlyWaits)

/-- What C3 loses (Table 13-4): every register is released, the TLBs and command buffers are
empty; the registers' contents are free values from the n-th on. -/
def Core.gateOff (k : Core) (n : Nat) : Core :=
  let k := k.releaseMask (2 ^ 28 - 1)
  let fill {w : Nat} (cnt lo : Nat) : KV (BitVec w) :=
    (List.range cnt).foldl (fun m i => KV.put 0 m i (Config.freeBits w (n + lo + i))) []
  let tile (i : Nat) : Tile :=
    { cells := Config.freeBits 98304 (n + 24 + i), cflags := Config.freeBits 3072 (n + 28 + i)
      sat := Config.freeBits 1024 (n + 32 + i) }
  { k with tlbSeq := [], tlbAcc := [], xregs := fill 8 0, vregs := fill 16 8
           accs := (List.range 4).foldl (fun m i => KV.put {} m i (tile i)) [] }

/-- The core enters C3. -/
def State.enterC3 (s : State) (c : Nat) : State :=
  let k := (s.core c).gateOff s.fresh
  { s.setCore c { k with cst := .c3 } with fresh := s.fresh + 36 }

/-- The move that R355 gives an idle core whose count has expired. -/
def State.idleMove (s : State) (c : Nat) : State :=
  let k := s.core c
  if !s.available c || k.waking then s
  else match k.cst with
    | .c0 => if k.idle then s.setCore c { k with cst := .c1 } else s
    | .c1 =>
      if k.idle && decide (s.rf oIdle 10 1 ≠ 0) && ((activeSlots k).isEmpty || bit (s.rg oIdle) 0) then
        s.setCore c { k with cst := .c2 }
      else s
    | .c2 => if k.unloaded && decide (s.rf oIdle 20 11 ≠ 0) then s.enterC3 c else s
    | .c3 => s

def execCoreIdleTransition (c : CoreId) (s : State) : Host.Outcome State Fault Refusal := .next (s.idleMove c.val)

def execCoreWake (c : CoreId) (s : State) : Host.Outcome State Fault Refusal :=
  .next (
    if (s.core c.val).waking then
      (s.modCore c.val (fun k => { k with cst := .c0, waking := false, parked := false })).afterCore c.val
    else s)

/-! ### The credit period (R358, R359, R362, R364) -/

/-- Module input power limit of a profile in W (Table 13-2). -/
def profileLimit (p : Nat) : Nat := [3000, 2400, 1800, 1200].getD p 0

/-- Slow-tier admission cap of a profile in percent (Table 13-2). -/
def profileCap (p : Nat) : Nat := [100, 100, 75, 40].getD p 0

/-- Energy of a power over 10 µs in 1/256 µJ. -/
def periodEnergy (watts : Nat) : Nat := watts * 10 * 256

/-- E_over: a period in which the limit fell is measured against the lower limit (R352). -/
def State.overEnergy (s : State) (input : Nat) : Nat :=
  let p := if s.power.limitProfile.toNat < s.power.measureProfile.toNat then s.power.measureProfile.toNat
    else s.rf oProfile 1 0
  input - periodEnergy (profileLimit p)

/-- E_pool of R358. -/
def State.energyPool (s : State) (fixed input : Nat) : Nat :=
  let m := periodEnergy (profileLimit (s.rf oProfile 1 0))
  m - m * 3 / 100 - fixed - s.overEnergy input

/-- f_c of R358 in tenths. -/
def taper (t : Nat) : Nat := if t < 95 then 10 else if t < 105 then 105 - t else 0

/-- G_c in 1/256 µJ, rounded down. -/
def grantOf (pool n sum t : Nat) : Nat := pool * n * taper t / (sum * 10)

/-- The balance at a period start, which no fall of the grant leaves under the floor of −4 G
(R359; DEDUCED, log 26). -/
def startBalance (b : Int) (g : Nat) : Int := max (-(4 * (g : Int))) (min b (4 * g) + g)

/-- Class of a temperature in Table 13-11. -/
def thermalClass (t : Nat) : Nat := if t < 95 then 0 else if t < 105 then 1 else 2

/-- A taper record of a cluster, at most one a second (Table 13-11, Table 13-12). -/
def State.taperEv (s : State) (k cause t : Nat) : State :=
  if s.secondSince (s.cluster k).taperAt then
    (s.setCluster k { s.cluster k with taperAt := some s.aon }).powerEv 6 k cause (t * 2 ^ 24)
  else s

/-- A cluster's new temperature: records of Table 13-12. -/
def State.setTemp (s : State) (k t : Nat) : State :=
  let u := s.cluster k
  let new := thermalClass t
  let s := s.setCluster k { u with temp := BitVec.ofNat 8 t, thermal := new }
  let s := if u.thermal = 0 ∧ new ≠ 0 then s.taperEv k 1 t else s
  let s := if u.thermal ≠ 0 ∧ new = 0 then s.taperEv k 2 t else s
  if u.thermal ≠ 2 ∧ new = 2 then s.powerEv 6 k 3 (t * 2 ^ 24) else s

/-- Grant and balance of a cluster. -/
def State.grantCluster (s : State) (pool sum k : Nat) : State :=
  let u := s.cluster k
  let g := grantOf pool (s.liveCores k) sum u.temp.toNat
  s.setCluster k { u with grant := g, balance := startBalance u.balance g, taper := BitVec.ofNat 8 (min 255 (taper u.temp.toNat * 256 / 10)) }

/-- A change of the admission cap: posted at most once a second (R370). -/
def State.setCap (s : State) (cap : Nat) : State :=
  if cap = s.power.cap then s
  else
    let s := { s with power := { s.power with cap := cap } }
    if s.secondSince s.power.capAt then
      ({ s with power := { s.power with capAt := some s.aon } }).powerEv 8 0 6 (cap * 2 ^ 32)
    else s

/-- ADMISSION_CAP_CHANGE (R370); a new module profile brings its own cap (R351). -/
def State.nextCap (s : State) (pool input : Nat) : Nat :=
  let p := s.rf oProfile 1 0
  let top := profileCap p
  let m := periodEnergy (profileLimit p)
  let cap := if s.power.limitProfile.toNat = p then s.power.cap else top
  if pool = 0 ∧ m < input then min cap (max 20 (cap - 10))
  else if input < m - m * 3 / 100 then min top (cap + 10)
  else cap

/-- No candidate of the core is passed over at this period start. -/
def Core.noPass (k : Core) : Core := { k with ready := k.ready.map (fun e => { e with passed := 0 }) }

/-- The top candidate of a core is passed over at a period start, or is not (R362). -/
def State.passOver (s : State) (c : Nat) (l : List Cand) : State :=
  let u := s.cluster (clusterOf c)
  match topOf l with
  | none => s.modCore c Core.noPass
  | some t =>
    if u.fits (s.corrected c t.hdr) then s.modCore c Core.noPass
    else
      let n := t.ent.passed + 1
      let mark (e : ReadyEnt) : ReadyEnt := if e = t.ent then { e with passed := n } else { e with passed := 0 }
      let s := s.modCore c (fun k => { k with ready := k.ready.map mark })
      let x := (coreId c, t.ent.addr)
      if n < 8 || u.reserved = some x || u.qualified.contains x then s
      else if u.reserved.isNone then s.setCluster (clusterOf c) { u with reserved := some x }
      else s.setCluster (clusterOf c) { u with qualified := u.qualified ++ [x] }

/-- The choice that a core makes at a period start, as far as R362 counts it: a start at which the
core makes no choice ends the count of consecutive ones. -/
def State.periodChoice (s : State) (c : Nat) : State :=
  let k := s.core c
  if k.freeSlots.isEmpty || k.down 4 || !s.available c then s.modCore c Core.noPass
  else match s.scanReady c k.ready with
    | (.all l, s) => s.passOver c (l.filter (fun x => (activeSlots k).all (fun i => masksApart (k.slot i).hdr x.hdr)))
    | (_, s) => s.modCore c Core.noPass

/-- The energy count of R371. -/
def State.countEnergy (s : State) (input : Nat) : State :=
  let e := s.power.energyFrac + input
  ({ s with power := { s.power with energyFrac := e % 256 } }).setRg oEnergy (s.rg oEnergy + BitVec.ofNat 64 (e / 256))

/-- Lending and draw records and the pools are cleared; a core that lent and still qualifies
lends again from the new grant (R364). -/
def State.lendAgain (s : State) (cs : List Nat) : State :=
  cs.foldl (fun s c => if (s.core c).onlyWaits && s.available c && !bit (s.rg oLend) 16 then s.lend c else s) s

def State.creditPeriod (s : State) (fixed input : Nat) (temps : List Byte) : State :=
  let lenders := (s.cores.filter (fun e => e.2.lent.isSome)).map (·.1)
  let loaded := (s.cores.filter (fun e => !e.2.ready.isEmpty)).map (·.1)
  let s := s.countEnergy input
  let s := (List.range 60).foldl (fun s k => s.setTemp k (temps.getD k 0).toNat) s
  let s := lenders.foldl (fun s c => s.modCore c (fun k => { k with lent := none })) s
  let s := { s with power := { s.power with pools := [], draws := [] } }
  let pool := s.energyPool fixed input
  let sum := (List.range 60).foldl (fun n k => n + s.liveCores k) 0
  let s := (List.range 60).foldl (fun s k => s.grantCluster pool sum k) s
  let s := s.setCap (s.nextCap pool input)
  let p := BitVec.ofNat 2 (s.rf oProfile 1 0)
  let s := { s with power := { s.power with limitProfile := p, measureProfile := p } }
  loaded.foldl (fun s c => s.periodChoice c) (s.lendAgain lenders)

def execCreditPeriodStart (fixed input : Nat) (temps : List Byte) (s : State) : Host.Outcome State Fault Refusal :=
  if temps.length ≠ 60 then .fault .illFormed else .next (s.creditPeriod fixed input temps)

/-! ### Temperature (R369, R371) -/

/-- The hottest cluster of a half, the lowest id among equals. -/
def State.hottest (s : State) (h : Nat) : Nat :=
  let ks := (List.range 60).filter (fun k => clusterHalf k = h)
  ks.foldl (fun best k => if (s.cluster best).temp.toNat < (s.cluster k).temp.toNat then k else best) (ks.headD 0)

def State.thermalThrottle (s : State) (h : Nat) : State :=
  let k := s.hottest h
  let t := (s.cluster k).temp.toNat
  if t < 105 ∨ s.power.thermalP4.contains (halfId h) then s
  else
    let s := ({ s with power := { s.power with thermalP4 := insertOnce s.power.thermalP4 (halfId h) } }).retarget h
    s.post 0 { typ := evPower, husk := true, kind := 8, payload := pack [(8, 4), (8, h), (16, k), (8, t)] }

def execHalfThermalThrottle (h : HalfId) (s : State) : Host.Outcome State Fault Refusal := .next (s.thermalThrottle h.val)

def State.thermalRestore (s : State) (h : Nat) : State :=
  if !s.power.thermalP4.contains (halfId h) || decide (95 ≤ (s.cluster (s.hottest h)).temp.toNat) then s
  else
    let s := ({ s with power := { s.power with thermalP4 := s.power.thermalP4.filter (· ≠ halfId h) } }).retarget h
    s.post 0 { typ := evPower, husk := true, kind := 8, payload := pack [(8, 5), (8, h), (24, 0), (8, s.wantProfile h)] }

def execHalfThermalRestore (h : HalfId) (s : State) : Host.Outcome State Fault Refusal := .next (s.thermalRestore h.val)

/-- Bit 2 + c of PWR_MODE follows the case temperature of channel c's DIMM (R369). -/
def execDimmCaseTemperature (ch : ChanId) (temp : BitVec 8) (s : State) : Host.Outcome State Fault Refusal :=
  .next (
    if 85 ≤ temp.toNat then s.setRf oMode (2 + ch.val) (2 + ch.val) 1
    else if temp.toNat < 80 then s.setRf oMode (2 + ch.val) (2 + ch.val) 0
    else s)

/-! ### THROTTLE_N (R471 to R473) -/

/-- Samples of a new level before it is accepted, 2 µs. -/
def filterTicks : BitVec 64 := 100

/-- PIP_SB_STAT reports the throttle input; a change of effect is timed; P4 follows. -/
def State.throttleMoved (s : State) (was : Bool) : State :=
  let now := s.throttled
  let b := s.board
  let b := if now && !was then { b with thrSince := s.aon } else b
  let b := if was && !now then { b with thrEnded := some s.aon } else b
  let s := { s with board := b }
  ((s.setRf oSbStat 8 7 (pack [(1, b2n now), (1, b2n b.thrUnstable)])).retargets)

def State.throttleEv (s : State) (cause : Nat) : State :=
  s.powerEv 8 0 cause (s.board.thrChange.toNat * 2 ^ 56)

/-- Ineffective for at least 1 s. -/
def State.throttleQuiet (s : State) : Bool :=
  match s.board.thrEnded with
  | none => true
  | some t => decide (50000000 ≤ (s.aon - t).toNat)

/-- The record of a THROTTLE_N that has become effective. -/
def State.throttleBegan (s : State) (was quiet : Bool) : State :=
  if !was && quiet && s.throttled then s.throttleEv 0x10 else s

def execThrottleNAssert (s : State) : Host.Outcome State Fault Refusal :=
  .next (
    let was := s.throttled
    let quiet := s.throttleQuiet
    let b := { s.board with thrLow := true, thrHold := true, thrChange := s.aon - filterTicks }
    ((({ s with board := b }).setRf oSbStat 6 6 1).throttleMoved was).throttleBegan was quiet)

def execThrottleNDeassert (s : State) : Host.Outcome State Fault Refusal :=
  .next (
    if !s.board.thrLow then s
    else
      let b := { s.board with thrLow := false, thrChange := s.aon - filterTicks }
      (({ s with board := b }).setRf oSbStat 6 6 0).throttleMoved s.throttled)

/-- 1 ms has passed since the most recent filtered assertion. -/
def execThrottleHoldEnd (s : State) : Host.Outcome State Fault Refusal :=
  .next ({ s with board := { s.board with thrHold := false } }).retargets

/-- The thousand-and-first change: the level just sampled is not known (log 6). -/
def execThrottleUnstable (s : State) : Host.Outcome State Fault Refusal :=
  .next (
    let was := s.throttled
    let quiet := s.throttleQuiet
    let raw := (s.freeVal 1).toNat
    let b := { s.board with thrUnstable := true, thrChange := s.aon }
    (((({ s with board := b }).took.setRf oSbStat 6 6 raw).throttleMoved was).throttleBegan was quiet).throttleEv 0x11)

/-- 100 ms have passed without a change of the sampled level. -/
def execThrottleStable (s : State) : Host.Outcome State Fault Refusal :=
  .next (
    if !s.board.thrUnstable then s
    else
      let b := { s.board with thrUnstable := false, thrChange := s.aon - 5000000 }
      (({ s with board := b }).throttleMoved s.throttled).throttleEv 0x12)

/-- A NOTE in Husk at 60 s of continuous effect. -/
def execThrottleNote (s : State) : Host.Outcome State Fault Refusal :=
  .next (if s.throttled then s.husk' 7 0 (BitVec.setWidth 320 (s.aon - s.board.thrSince)) else s)

end Sys2Proof.Machine
end

