-- ==== Sys2Proof/Machine/MemRows.lean ====
section
/-! DEFINITION. Requests at slabs and cluster memory, their power states, scrubbing and
correction write-backs (R180 to R193, R199 to R201). -/

namespace Sys2Proof.Machine

/-! ### Requests -/

/-- The answer to a read: its data, or the status of its part. -/
def Rd.reply (r : Rd) : Reply := if r.st = stOk then .data r.data else .status r.st

def statusReply (st : BitVec 8) : Reply := if st = stOk then .done else .status st

def State.setSlabReply (s : State) (r : Reply) : State := { s with hif := { s.hif with slabReply := r } }

/-- A requester inside the core's power domain (R181). -/
def engineSide (cl : SlabClient) : Bool := cl = .sequencer || cl = .row || cl = .vector || cl = .matrix

/-- Engine of a requester inside the core. -/
def clientEngine : SlabClient → Nat
  | .matrix => 0
  | .vector => 1
  | .row => 2
  | .sequencer => 4
  | _ => 3

/-- Context of the list for which an engine of a core makes a request: that of its command in execution, or
of the slot the sequencer served last; none is 0xFFFF (R486). -/
def State.engineCtx (s : State) (c : Nat) (cl : SlabClient) : Nat :=
  let k := s.core c
  match clientEngine cl, k.run (clientEngine cl), k.queue (clientEngine cl) with
  | 4, _, _ => if (k.slot k.served).active then s.ctxOf c k.served else 0xFFFF
  | _, q :: _, _ => s.ctxOf c q.slot.val
  | _, [], q :: _ => s.ctxOf c q.slot.val
  | _, [], [] => 0xFFFF

/-- Context of a request whose sender the command does not name: a free value (log 127). -/
def State.anyCtx (s : State) : Nat := (s.freeVal 16).toNat

/-- A request of a core's own engine at a core-local address (R178, R179). -/
def State.engineAccess (s : State) (c ctx off : Nat) (op : Access) : State :=
  match op with
  | .read n =>
    if !inSlabSpace off n then s.setSlabReply (.status stCapacity)
    else
      let r := s.engRead c ctx off n
      r.s.setSlabReply r.reply
  | .write d =>
    if !inSlabSpace off d.length then s.setSlabReply (.status stCapacity)
    else
      let r := s.engWrite c ctx off d
      r.2.setSlabReply (statusReply r.1)

/-- A request through the router at an offset of the slab region (R180, R184). -/
def State.routerAccess (s : State) (cl : SlabClient) (c ctx off : Nat) (op : Access) : State :=
  if s.routerDown c then s.setSlabReply (.status stPathLost)
  else
    match slabRegion c off, op with
    | .slab key _, .read n =>
      let r := s.readDie ctx key n
      r.s.setSlabReply r.reply
    | .slab key view, .write d =>
      let a := past key slabBase % 0x800000
      let r := if view ≠ 0 then (s.rewritten c a d.length).aliasWrite ctx key (view = 1) d
        else if cl = .access then s.copyToSlab c ctx a d false
        else (s.rewritten c a d.length).writeDie ctx key d
      r.2.setSlabReply (statusReply r.1)
    | _, _ => s.setSlabReply (.status stIllegal)

/-- The oldest inbound request leaves the ejection buffer of its core. -/
def State.ejected (s : State) (c : Nat) : State := s.modCore c (fun k => { k with eject := k.eject.drop 1 })

/-- An inbound request takes its place out of the ejection buffer (R182). -/
def execSlabAccess (cl : SlabClient) (c : CoreId) (off : BitVec 23) (op : Access) (s : State) : Host.Outcome State Fault Refusal :=
  if !op.inWord off.toNat then .fault .illFormed
  else
    .next (if engineSide cl then s.engineAccess c.val (s.engineCtx c.val cl) off.toNat op
      else if cl = .inbound then (s.took.ejected c.val).routerAccess cl c.val s.anyCtx off.toNat op
      else s.routerAccess cl c.val (if cl = .access then s.engineCtx c.val cl else 0xFFFF) off.toNat op)

/-- A write to the alias views of up to 64 bytes at an offset of an alias-view (R184, R185). -/
def execAliasWrite (c : CoreId) (set : Bool) (off : BitVec 21) (d : List Byte) (s : State) : Host.Outcome State Fault Refusal :=
  if d.isEmpty || decide (64 < d.length) then .fault .illFormed
  else
    .next (if s.routerDown c.val then s.setSlabReply (.status stPathLost)
      else if !inSlabSpace off.toNat d.length then s.setSlabReply (.status stIllegal)
      else
        let r := ((s.took.ejected c.val).rewritten c.val off.toNat d.length).aliasWrite s.anyCtx (slabKey c.val off.toNat) set d
        r.2.setSlabReply (statusReply r.1))

/-- A request leaves the slots of its port controller (R188). -/
def State.portServed (s : State) (k i : Nat) : State :=
  let u := s.cluster k
  if KV.get 0 u.reqs i = 0 then s else s.setCluster k { u with reqs := KV.put 0 u.reqs i (KV.get 0 u.reqs i - 1) }

/-- A request at an offset of a cluster's memory is served at port controller i. -/
def State.portAccess (s : State) (ctx k i off : Nat) (op : Access) : State :=
  let s := s.portServed k i
  if 0x3000000 ≤ off then s.setSlabReply (.status stIllegal)
  else
    match op with
    | .read n =>
      let r := s.readDie ctx (clusKey k off) n
      r.s.setSlabReply r.reply
    | .write d =>
      let r := s.writeDie ctx (clusKey k off) d
      r.2.setSlabReply (statusReply r.1)

/-- A request at a port controller of a cluster's tier (R186 to R189). Its requester sends it by the vertical port that
serves its offset (R205, R420); it wakes the half it arrives in (R366). -/
def execClusterMemoryAccess (k : ClusterId) (port : Fin 8) (off : BitVec 26) (op : Access) (s : State) : Host.Outcome State Fault Refusal :=
  if !op.inWord off.toNat then .fault .illFormed
  else
    .next (if s.routerDown (portRouter k.val port.val) then s.setSlabReply (.status stPathLost)
      else (s.took.wakeHalf (clusterHalf k.val)).portAccess s.anyCtx k.val port.val off.toNat op)

/-! ### Power states (R190 to R193) -/

/-- A field of MEM_SLAB_STATE or MEM_SEG_STATE written to a memory. A write that names the state from
which a transition is under way ends that transition at once (DESIGN CHOICE: R191 does not say what it
does; log 128). -/
def Mem.write (u : Mem) (v : Nat) : Mem :=
  match v, u.st with
  | 0, .on => { u with target := none, toRet := false }
  | 0, _ => { u with target := some .on, toRet := false }
  | 1, .off => { u with target := some .on, toRet := true }
  | 1, .ret => { u with target := none, toRet := false }
  | 1, .on => { u with target := some .ret, toRet := false }
  | 2, .off => { u with target := none, toRet := false }
  | 2, _ => { u with target := some .off, toRet := false }
  | _, _ => u

/-- Writes two-bit STATE fields of n memories from memory number m on; those of a failed memory
ignore the write. -/
def State.writeStates (s : State) (m n : Nat) (v : BitVec 32) : State :=
  (List.range n).foldl (fun s i =>
    if s.memFailed (m + i) then s else s.setMem (m + i) ((s.memU (m + i)).write (fld v (2 * i + 1) (2 * i)))) s

def execMemSlabState (a : Agent) (c : CoreId) (v : BitVec 32) (s : State) : Host.Outcome State Fault Refusal :=
  .next (if s.permits a .slabState c.val then s.writeStates (slabMem c.val 0) 8 v else s)

def execMemSegState (a : Agent) (k : ClusterId) (v : BitVec 32) (s : State) : Host.Outcome State Fault Refusal :=
  .next (if s.permits a .segState k.val then s.writeStates (segMem k.val 0) 12 v else s)

/-- Unread words of a slab are lost with it (R235). -/
def State.loseUnread (s : State) (m : Nat) : State :=
  if m < 7680 then s.dropUnread (m / 8) (inSlab (m % 8)) else s

/-- A memory enters OFF: its contents are lost. -/
def State.enterOff (s : State) (m : Nat) : State :=
  ((s.loseUnread m).zeroMem m).setMem m { s.memU m with st := .off, target := none, toRet := false, wb := [] }

/-- The transition under way of a memory is over. -/
def State.transitionDone (s : State) (m : Nat) : State :=
  let u := s.memU m
  if s.memFailed m then s
  else
    match u.target, u.st with
    | some .on, .off =>
      (s.zeroMem m).setMem m { u.on with target := if u.toRet then some .ret else none }
    | some .on, _ => s.setMem m u.on
    | some .ret, _ => s.setMem m { u with st := .ret, target := none }
    | some .off, _ => s.enterOff m
    | none, _ => s

def execMemoryStateTransitionDone (m : MemUnit) (s : State) : Host.Outcome State Fault Refusal :=
  .next (s.transitionDone (memIx m))

/-- A memory in RET that is accessed returns to ON (R192). -/
def execMemoryWakeFromRet (m : MemUnit) (s : State) : Host.Outcome State Fault Refusal :=
  .next (if s.memSt (memIx m) = .ret then s.setMem (memIx m) (s.memU (memIx m)).on else s)

/-! ### Scrubbing (R201, R365) -/

/-- Half of the die in which a memory lies. -/
def memHalf (m : Nat) : Nat := if m < 7680 then halfOf (m / 8) else clusterHalf ((m - 7680) / 12)

/-- One half of a word as the scrubber reads it. -/
def State.scrubHalf (s : State) (m h : Nat) : State :=
  match dcheck (KV.get 0 s.chk h) with
  | .fixed p e => s.noteFixed m h (fixBytes (s.bytes (32 * h) 32) p e)
  | .bad => s.noteBad m h 0xFFFF
  | _ => s

/-- Twice the target time of a pass. -/
def State.scrubLimit (s : State) : Nat := if bit (s.rg oMode) 0 then 200000000 else 1000000000

/-- The pass is over: it is counted, and counted late. -/
def State.scrubPass (s : State) (m : Nat) : State :=
  let u := s.memU m
  let s := s.bumpHalf (scrubReg m) 0 1
  let s := if s.scrubLimit < (s.aon - u.passAt).toNat then s.bumpHalf (scrubReg m) 32 1 else s
  s.setMem m { s.memU m with scrub := 0 }

/-- The scrubber of a memory in ON reads its next word. -/
def State.scrubRead (s : State) (m : Nat) : State :=
  let stopped := decide (7680 ≤ m) && s.power.meshStopped.any (fun h => h.val = memHalf m)
  if s.memSt m ≠ .on || stopped then s
  else
    let w := (s.memU m).scrub
    let s := if w = 0 then s.setMem m { s.memU m with passAt := s.aon } else s
    let h := (memPlace m).base / 32 + 2 * w
    let s := (s.scrubHalf m h).scrubHalf m (h + 1)
    if (memPlace m).size / 64 ≤ w + 1 then s.scrubPass m else s.setMem m { s.memU m with scrub := w + 1 }

def execScrubRead (m : MemUnit) (s : State) : Host.Outcome State Fault Refusal := .next (s.scrubRead (memIx m))

/-- The oldest correction waiting is written back. -/
def execCorrectionWriteback (m : MemUnit) (s : State) : Host.Outcome State Fault Refusal :=
  .next (let u := s.memU (memIx m)
    match u.wb, s.memSt (memIx m) with
    | (h, d) :: l, .on =>
      let s := (s.setMem (memIx m) { u with wb := l }).putBytes (32 * h) (bytesOf d 32)
      { s with chk := KV.put 0 s.chk h 0, reported := KV.put false s.reported h false }
    | _, _ => s)

end Sys2Proof.Machine
end

