-- ==== Sys2Proof/Machine/Xlate.lean ====
section
/-! DEFINITION. Table walks that return, resumed engines and invalidations of the TLBs
(R206 to R209, R484). -/

namespace Sys2Proof.Machine

/-! ### WALK_RESPONSE -/

def walkKey (f : Option SlotId) : Nat :=
  match f with
  | none => 0
  | some sl => sl.val + 1

def Core.walk (k : Core) (key : Nat) : Option Walk := (k.walks.find? (fun e => e.1 = key)).map (·.2)

def Core.endWalk (k : Core) (key : Nat) : Core := { k with walks := KV.del k.walks key }

/-- A walk fault: the FAULT record and the suspension (R208). -/
def State.walkFault (s : State) (c key : Nat) (w : Walk) (cause level : Nat) : State :=
  if key = 0 then
    let p := match (s.core c).program, w.prog with
      | some p, true => (p.index.toNat, p.iter.toNat)
      | _, _ => (0xFFFFFFFF, 0xFFFFFFFF)
    s.xltFaultAcc c w.slot.val w.off.toNat w.va.toNat w.write cause level p.1 p.2
  else s.xltFaultSeq c (key - 1) w.va.toNat cause level

/-- FAULT detail of the half that a walk could not read. -/
def State.walkDetail (s : State) (w : Walk) : Nat :=
  let pa := (w.table.toNat + 8 * vaIndex w.level w.va.toNat) / 32 * 32
  let x : BitVec 32 := match s.tierMap pa with
    | some (ch, off) => KV.get 0 s.chk (tierKey ch off / 32)
    | none => 0
  pack [(64, pa), (32, synWord x)]

/-- A walk that fails with a status stops the slot of an engine command; a fetch marks its
command, at which the slot stops (R208, R265). -/
def State.walkFail (s : State) (c key : Nat) (w : Walk) (st : BitVec 8) (detail : Nat) : State :=
  let s := s.modCore c (fun k => k.endWalk key)
  if key = 0 then
    match (s.core c).program, w.prog with
    | some p, true => s.stopSlot c w.slot.val st
        { engine := 3, off := w.off.toNat, detail := detail, pidx := p.index.toNat, piter := p.iter.toNat }
    | _, _ =>
      match (s.core c).queue 3 with
      | q :: _ =>
        if q.slot = w.slot && q.off = w.off then (s.modCore c (fun k => k.pop 3)).stopEntry c 3 q st detail
        else s.stopSlot c w.slot.val st { engine := 3, off := w.off.toNat, detail := detail }
      | [] => s.stopSlot c w.slot.val st { engine := 3, off := w.off.toNat, detail := detail }
  else
    let s := s.modSlot c (key - 1) (fun x => { x with bad := (w.off, fetchSt st) :: x.bad.filter (fun e => e.1 ≠ w.off) })
    s.settlePc c (key - 1)

/-- The engine retries what missed once its walk is over. -/
def State.walkOver (s : State) (c : Nat) : State := (s.runProgram c (programFuel (s.core c))).afterCore c

/-- A leaf: its translation is complete, or goes through PCIe ATS (R206). -/
def State.walkLeaf (s : State) (c key : Nat) (w : Walk) (e : TlbEnt) (viaAts : Bool) (ats : AtsReply) : State :=
  let size := if e.big then 0x200000 else 0x10000
  let put (e : TlbEnt) : State := (s.modCore c (fun k => (k.endWalk key).install (key = 0) e)).walkOver c
  match viaAts, ats with
  | false, _ => put e
  | true, .success a => put { e with phys := a.toNat / size * size, ats := some e.phys }
  | true, .failure => s.walkFault c key w 4 (if e.big then 2 else 3)

/-- The read of a walk's table entry returns. -/
def State.walkResponse (s : State) (c : Nat) (f : Option SlotId) (ats : AtsReply) : State :=
  let key := walkKey f
  match (s.core c).walk key with
  | none => s
  | some w =>
    match s.walkStep w with
    | (.more w, s) => s.modCore c (fun k => { k with walks := KV.ins k.walks key w })
    | (.leaf e viaAts, s) => s.walkLeaf c key w e viaAts ats
    | (.fault cause level, s) => s.walkFault c key w cause level
    | (.fail st, s) => (s.walkFail c key w st (s.walkDetail w)).afterCore c

def execWalkResponse (c : CoreId) (f : Option SlotId) (ats : AtsReply) (s : State) : Host.Outcome State Fault Refusal :=
  .next (s.walkResponse c.val f ats)

/-! ### MEM_XLT_RESUME (R209, R484) -/

def State.xltResume (s : State) (v : BitVec 32) : State :=
  let c := fld v 9 0
  let sl := fld v 14 13
  if 960 ≤ c then s
  else if fld v 12 10 = 3 then
    if (s.core c).xltAcc then (s.modCore c (fun k => { k with xltAcc := false, xltBy := none })).walkOver c else s
  else if fld v 12 10 = 4 then
    if (s.slot c sl).xltFault then
      (s.modSlot c sl (fun x => if x.active then { x with xltFault := false } else {})).afterCore c
    else s
  else s

def execMemXltResume (a : Agent) (v : BitVec 32) (s : State) : Host.Outcome State Fault Refusal :=
  .next (if s.permits a .xltResume 0 then s.xltResume v else s)

/-! ### MEM_TLB_INV (R207, R484) -/

/-- An invalidation covers a TLB entry. -/
def invCovers (v : BitVec 32) (lo hi : BitVec 64) (e : TlbEnt) : Bool :=
  let base := if bit v 17 then 0x20000000000000 else 0x10000000000000
  let size := if e.big then 0x200000 else 0x10000
  let a := base + fld lo 51 16 * 0x10000
  let b := base + fld hi 51 16 * 0x10000 + 0x10000
  (bit v 16 || e.ctx.toNat = fld v 15 0) && decide (e.vpn * size < b) && decide (a < (e.vpn + 1) * size)

def Core.invalidate (p : TlbEnt → Bool) (k : Core) : Core :=
  { k with tlbSeq := k.tlbSeq.filter (fun e => !p e), tlbAcc := k.tlbAcc.filter (fun e => !p e) }

/-- Drops every matching translation from every TLB. -/
def State.invalidate (s : State) (v : BitVec 32) (lo hi : BitVec 64) : State :=
  { s with cores := KV.vmap {} (Core.invalidate (invCovers v lo hi)) s.cores }

def State.startTlbInv (s : State) (v : BitVec 32) : State :=
  let lo := s.rg oTlbLo
  let hi := s.rg oTlbHi
  if s.tlbInv.isSome || decide (fld hi 51 16 < fld lo 51 16) then s
  else { s.invalidate v lo hi with tlbInv := some (v, lo, hi) }

def execMemTlbInv (a : Agent) (v : BitVec 32) (s : State) : Host.Outcome State Fault Refusal :=
  .next (if s.permits a .tlbInv 0 then s.startTlbInv v else s)

/-- The requests translated through dropped entries have completed: BUSY reads 0. -/
def execTlbInvDone (s : State) : Host.Outcome State Fault Refusal :=
  .next (match s.tlbInv with
    | some (v, lo, hi) => { s.invalidate v lo hi with tlbInv := none }
    | none => s)

end Sys2Proof.Machine
end

