-- ==== Sys2Proof/Machine/TierRows.lean ====
section
/-! DEFINITION. Requests at the channels of the slow tier, pauses, the patrol scrubber,
training, the split and the epochs (R254 to R267). -/

namespace Sys2Proof.Machine

/-! ### Pools (R264 to R266) -/

def State.chan (s : State) (ch : Nat) : Channel := KV.get {} s.channels ch

def State.setChan (s : State) (ch : Nat) (x : Channel) : State := { s with channels := KV.put {} s.channels ch x }

def Channel.paused (x : Channel) : Bool := x.refresh || x.retrain

def State.setTierReply (s : State) (r : Reply) : State := { s with hif := { s.hif with tierReply := r } }

/-- Slot of the command for which the access engine of a core makes requests. -/
def Core.accessSlot (k : Core) : Option SlotId :=
  match k.program, k.run 3, k.queue 3 with
  | some p, _, _ => some p.ent.slot
  | none, q :: _, _ => some q.slot
  | none, [], q :: _ => some q.slot
  | none, [], [] => none

/-- The walk of a core that reads its next table entry in the line of a physical address. -/
def Core.walkAt (k : Core) (pa : Nat) : Option (Nat × Walk) :=
  k.walks.find? (fun e => (e.2.table.toNat + 8 * vaIndex e.2.level e.2.va.toNat) / 64 = pa / 64)

/-- The oldest request packet delivered by a port that reaches the slow tier. -/
def State.fabricAsk (s : State) (p : PortId) : Option Packet :=
  (s.fab.delivered.find? (fun e => e.1 = some p && isRequest e.2.ptype && rTier e.2.addr.toNat)).map (·.2)

/-- Context under which a request is made, as a MEMORY record names it. -/
def State.clientCtx (s : State) (r : TierReq) : Nat :=
  match r.client with
  | .access c => match (s.core c.val).accessSlot with
    | some sl => s.ctxOf c.val sl.val
    | none => 0xFFFF
  | .fetch c sl => s.ctxOf c.val sl.val
  | .walk c => match (s.core c.val).walkAt r.pa.toNat with
    | some e => e.2.ctx.toNat
    | none => 0xFFFF
  | .hostClass h => s.hcCtxOf h.val
  | .fabric p => match s.fabricAsk p with
    | some pk => pk.ctx.toNat
    | none => 0xFFFF
  | .update k => match (s.dam k.val).running with
    | some x => x.part.ctx.toNat
    | none => 0xFFFF
  | .host => 0xFFFF
  | .scrub _ => 0xFFFF

/-- Counts a host write that was dropped (R261, R265). -/
def State.dropWrite (s : State) (ch : Nat) : State := s.bump32 (oDrop (ch / 2)) 1

def isUpdate (t : TierClient) : Bool := match t with | .update _ => true | _ => false
def isScrub (t : TierClient) : Bool := match t with | .scrub _ => true | _ => false

/-- The pool of a channel takes a request for a bank; requesters other than the update pipeline
and the scrubber have the share that the admission cap offers (R264, R265, R351). -/
def State.poolTakes (s : State) (x : Channel) (t : TierClient) (off : Nat) : Bool :=
  let bankOf (r : TierReq) : Nat := s.tierBank (match s.tierMap r.pa.toNat with | some (_, o) => o | none => 0)
  let n (p : TierClient → Bool) : Nat := (x.pool.filter (fun e => p e.req.client)).length
  decide (x.pool.length < 1600) && decide ((x.pool.filter (fun e => bankOf e.req = s.tierBank off)).length < 64) &&
    (!isUpdate t || decide (n isUpdate < 800)) && (!isScrub t || decide (n isScrub < 4)) &&
    (isUpdate t || isScrub t || decide (n (fun c => !isUpdate c && !isScrub c) < 1600 * s.power.cap / 100))

/-- A request takes effect: its answer. A host write that its line refuses is dropped and counted
(R261). -/
def State.serveTier (s : State) (ch : Nat) (r : TierReq) : Reply × State :=
  let ctx := s.clientCtx r
  match r.op with
  | .read n =>
    let x := s.readTier ctx r.pa.toNat n
    (x.reply, x.s)
  | .write d =>
    let x := s.writeTier ctx r.pa.toNat d
    if r.client = .host ∧ x.1 ≠ stOk then (.dropped, x.2.dropWrite ch) else (statusReply x.1, x.2)

/-- A request enters the pool of its channel, in the order of which requests to a line take effect
(R264): it is answered, or keeps its place while the channel pauses. -/
def State.enterPool (s : State) (ch : Nat) (r : TierReq) : State :=
  let old := match r.op with
    | .read _ => []
    | .write d => (s.readTier 0xFFFF r.pa.toNat d.length).data
  let x := s.serveTier ch r
  let e := BitVec.ofNat 24 (s.rf (oEpoch (ch / 2)) 23 0)
  if (s.chan ch).paused then
    x.2.setChan ch { x.2.chan ch with pool := (s.chan ch).pool ++ [{ req := r, epoch := e, old := old, reply := x.1 }] }
  else x.2.setTierReply x.1

/-- RETRY responses are counted at the issuing core (R235). -/
def State.countRetry (s : State) (t : TierClient) : State :=
  match t with
  | .access c => s.count c.val 0x108 1
  | .fetch c _ => s.count c.val 0x108 1
  | .walk c => s.count c.val 0x108 1
  | _ => s

def Channel.refusals (x : Channel) (r : TierReq) : Nat :=
  match x.refused.find? (fun e => e.1 = r) with
  | some e => e.2
  | none => 0

def Channel.setRefusals (x : Channel) (r : TierReq) (n : Nat) : Channel :=
  let l := x.refused.filter (fun e => e.1 ≠ r)
  { x with refused := if n = 0 then l else (r, n) :: l }

/-- A part of the access command for which a request was made is lost (R285, R213): its bit of the part
bitmap. -/
def State.accessPartLost (s : State) (c pa : Nat) : State :=
  let bits := BitVec.ofNat 32 (2 ^ s.partBit (.tier pa))
  let lose (q : QEnt) : QEnt := { q with prog := { q.prog with bitmap := q.prog.bitmap ||| bits }, bitmap := q.bitmap ||| bits }
  s.modCore c (fun k => match k.program, k.run 3, k.queue 3 with
    | some p, _, _ => { k with program := some { p with ent := lose p.ent } }
    | none, q :: l, _ => k.setRun 3 (lose q :: l)
    | none, [], q :: l => k.setQueue 3 (lose q :: l)
    | none, [], [] => k)

/-- Offset of the command that a slot fetches in the line of a physical address; the program counter where
its translation is not at hand. -/
def State.fetchOffset (s : State) (c sl pa : Nat) : Nat :=
  let x := s.slot c sl
  let pc := x.pc.toNat
  ((List.range (min 144 (hLength x.hdr - pc))).find? (fun i =>
    match placeOf (s.core c).tlbSeq x.ctx.toNat (x.listAddr.toNat + 64 + 32 * (pc + i)) false with
    | .at (.tier p) => (x.buffered (pc + i)).isNone && decide (p / 64 = pa / 64)
    | _ => false)).getD 0 + pc

/-- A command fetch fails: the slot stops when it reaches the offset fetched (R98, R265). -/
def State.fetchFails (s : State) (c sl pa : Nat) (st : BitVec 8) : State :=
  let o := BitVec.ofNat 32 (s.fetchOffset c sl pa)
  let s := s.modSlot c sl (fun x => { x with bad := (o, st) :: x.bad.filter (fun e => e.1 ≠ o) })
  (s.settlePc c sl).afterCore c

/-- A walk whose read fails. -/
def State.walkLost (s : State) (c pa : Nat) (st : BitVec 8) : State :=
  match (s.core c).walkAt pa with
  | some e => (s.walkFail c e.1 e.2 st 0).afterCore c
  | none => s

/-- A request packet that the slow tier does not serve is answered by a NACK (R265, R285). -/
def State.fabricFails (s : State) (p : PortId) (st : BitVec 8) : State :=
  match s.fabricAsk p with
  | some pk => (s.undeliver p pk).inject (ackOf pk st)
  | none => s

/-- The access engine's request fails: the command it belongs to stops its slot. -/
def State.accessRetryFails (s : State) (c : Nat) : State :=
  match (s.core c).program, (s.core c).queue 3, (s.core c).run 3 with
  | some p, _, _ => (s.stopSlot c p.ent.slot.val stRetry
      { engine := 3, off := p.ent.off.toNat, pidx := p.index.toNat, piter := p.iter.toNat }).afterCore c
  | none, _, q :: _ => s.stopRun c 3 q stRetry 0
  | none, q :: _, [] => ((s.modCore c (fun k => k.pop 3)).stopEntry c 3 q stRetry 0).afterCore c
  | none, [], [] => s

/-- A request lost with the pools of its Damson, or made while that is in reset (R285): a command of the
access engine and a packet meet the loss as PATH_LOST of their part. -/
def State.lostReply (s : State) (r : TierReq) : State :=
  let read := match r.op with | .read _ => true | .write _ => false
  match r.client with
  | .host => s.setTierReply (if read then .aborted else .dropped)
  | .hostClass h => { s with hif := { s.hif with hcReply := KV.put .none s.hif.hcReply h.val .fault } }
  | .access c => (s.accessPartLost c.val r.pa.toNat).setTierReply (.status stPathLost)
  | .fetch c sl => (s.fetchFails c.val sl.val r.pa.toNat stPathLost).setTierReply (.status stPathLost)
  | .walk c => (s.walkLost c.val r.pa.toNat stPathLost).setTierReply (.status stPathLost)
  | .fabric p => (s.fabricFails p stPathLost).setTierReply (.status stPathLost)
  | _ => s.setTierReply (.status stPathLost)

/-- A request at its channel: refused with RETRY where its bank or the pool is full. -/
def State.tierRequest (s : State) (r : TierReq) : State :=
  match s.tierMap r.pa.toNat with
  | none => s.setTierReply (.status stIllegal)
  | some (ch, off) =>
    if s.selfRefresh ch then s.lostReply r
    else if s.poolTakes (s.chan ch) r.client off then
      (s.setChan ch ((s.chan ch).setRefusals r 0)).enterPool ch r
    else
      let x := s.chan ch
      ((s.setChan ch (x.setRefusals r (x.refusals r + 1))).countRetry r.client).setTierReply (.status stRetry)

def execSlowTierRequest (r : TierReq) (s : State) : Host.Outcome State Fault Refusal :=
  if !r.op.inWord r.pa.toNat then .fault .illFormed else .next (s.tierRequest r)

/-! ### BANK_RETRY (R265) -/

/-- A request refused 256 times in a row fails, as its requester's rule gives. -/
def State.retryFails (s : State) (ch off : Nat) (r : TierReq) : State :=
  match r.client with
  | .access c => s.accessRetryFails c.val
  | .fetch c sl => s.fetchFails c.val sl.val r.pa.toNat stRetry
  | .walk c => s.walkLost c.val r.pa.toNat stRetry
  | .fabric p => (s.fabricFails p stRetry).setTierReply (.status stRetry)
  | .hostClass h => { s with hif := { s.hif with hcReply := KV.put .none s.hif.hcReply h.val .fault } }
  | .host =>
    match r.op with
    | .read _ => s.setTierReply .aborted
    | .write _ => ((s.dropWrite ch).post 0
        { typ := evMemory, status := stRetry, kind := 4, src := ch
          payload := pack [(8, 3), (8, s.tierBank off), (48, 0), (64, off / 64 * 64)] }).setTierReply .dropped
  | _ => s.setTierReply (.status stRetry)

/-- Requests of the update pipeline and of the scrubber are never failed by refusals. -/
def neverFails (t : TierClient) : Bool := isUpdate t || isScrub t

/-- A refused request is sent again. -/
def State.retryAgain (s : State) (r : TierReq) : State :=
  match s.tierMap r.pa.toNat with
  | none => s
  | some (ch, off) =>
    let n := (s.chan ch).refusals r
    if n = 0 then s
    else if s.selfRefresh ch then (s.setChan ch ((s.chan ch).setRefusals r 0)).lostReply r
    else if s.poolTakes (s.chan ch) r.client off then
      (s.setChan ch ((s.chan ch).setRefusals r 0)).enterPool ch r
    else if 255 ≤ n ∧ !neverFails r.client then
      ((s.setChan ch ((s.chan ch).setRefusals r 0)).countRetry r.client).retryFails ch off r
    else (s.setChan ch ((s.chan ch).setRefusals r (n + 1))).countRetry r.client

def execBankRetry (r : TierReq) (s : State) : Host.Outcome State Fault Refusal :=
  if !r.op.inWord r.pa.toNat then .fault .illFormed else .next (s.retryAgain r)

/-! ### Pauses (R266) -/

/-- Waiting requests go on once nothing pauses the channel. -/
def State.drainPool (s : State) (ch : Nat) : State :=
  let x := s.chan ch
  if x.paused then s
  else x.pool.foldl (fun s e => s.setTierReply e.reply) (s.setChan ch { x with pool := [] })

def execChannelRefresh (ch : ChanId) (b : Bool) (s : State) : Host.Outcome State Fault Refusal :=
  .next ((s.setChan ch.val { s.chan ch.val with refresh := b }).drainPool ch.val)

/-- The two channels of a Damson never pause together for retraining. -/
def execOnlineRetraining (ch : ChanId) (b : Bool) (s : State) : Host.Outcome State Fault Refusal :=
  .next (let other := if ch.val % 2 = 0 then ch.val + 1 else ch.val - 1
    if b && (s.chan other).retrain then s
    else (s.setChan ch.val { s.chan ch.val with retrain := b }).drainPool ch.val)

/-! ### Patrol scrub (R267) -/

def State.countCorrected (s : State) (ch : Nat) : State := s.bumpHalf (oDmsScrub ch) 32 1

/-- A half with one erroneous byte is written back corrected; the epoch stays. -/
def State.fixTierHalf (s : State) (key : Nat) : State :=
  match dcheck (KV.get 0 s.chk (key / 32)) with
  | .fixed p e =>
    let s := s.putBytes key (fixBytes (s.bytes key 32) p e)
    { s with chk := KV.put 0 s.chk (key / 32) 0 }
  | _ => s

/-- Offset in its Damson's local window of an offset of a channel, where it lies there (Table 10-4). -/
def State.localAt (s : State) (ch off : Nat) : Option Nat :=
  let base := gib * s.dimmGib - s.localBytes
  if off < base then none
  else if s.mode10 then some (past off base)
  else some (past off base / 256 * 512 + ch % 2 * 256 + past off base % 256)

/-- The monitor of a line's group sees a write of the whole line, poisoned (R272). -/
def State.monitorPoison (s : State) (ch off : Nat) (d : List Byte) : State :=
  match s.localAt ch off with
  | some o => s.monitorWrite (ch / 2) o d o 64 true
  | none => s

/-- The scrubber writes a line poisoned, which the monitor of its group sees (R261, R272). -/
def State.poisonLine (s : State) (ch off : Nat) : State :=
  let d := s.bytes (tierKey ch off) 64
  (s.storeLine ch off d true).monitorPoison ch off d

/-- The scrubber's read of a line at a channel offset. -/
def State.scrubLine (s : State) (ch off : Nat) : State :=
  let key := tierKey ch off
  let t := s.line key
  let chk (i : Nat) : BitVec 32 := KV.get 0 s.chk (key / 32 + i)
  let bad (i : Nat) : Bool := dcheck (chk i) = .bad
  let fixable (i : Nat) : Bool := match dcheck (chk i) with | .fixed _ _ => true | _ => false
  if t.torn then
    let s := s.noteTier (lineOf key * 2) (tornEv ch off 0xFFFF)
    s.poisonLine ch off
  else if t.poison then s
  else if bad 0 || bad 1 then
    let h := if bad 0 then 0 else 1
    let s := s.noteTier (key / 32 + h) (memEv 4 ch 0 (off + 32 * h) 0xFFFF (chk h))
    s.poisonLine ch off
  else if fixable 0 || fixable 1 then ((s.fixTierHalf key).fixTierHalf (key + 32)).countCorrected ch
  else s

/-- A channel with a DIMM. -/
def State.populated (s : State) (ch : Nat) : Bool := s.tierReady && (!s.mode10 || ch % 2 = 0)

def execPatrolScrub (ch : ChanId) (s : State) : Host.Outcome State Fault Refusal :=
  .next (if (s.chan ch.val).paused || !s.populated ch.val || s.selfRefresh ch.val then s
    else
      let n := (s.chan ch.val).scrub
      let s := s.scrubLine ch.val (64 * n)
      if s.dimmGib * gib / 64 ≤ n + 1 then
        (s.setChan ch.val { s.chan ch.val with scrub := 0 }).bumpHalf (oDmsScrub ch.val) 0 1
      else s.setChan ch.val { s.chan ch.val with scrub := n + 1 })

/-! ### Training (R254 to R256) -/

/-- A set of DIMMs that R255 accepts. -/
def populationOk (ds : List Dimm) : Bool :=
  let here := (ds.zipIdx.filter (fun e => e.1.present)).map (·.2)
  let on := ds.filter (fun d => d.present)
  (here = List.range 20 || here = (List.range 10).map (2 * ·)) &&
    on.all (fun d => d.supported && [64, 96, 128, 256].contains d.gib && d.part = (on.head?.map (·.part)).getD 0) &&
    on.all (fun d => d.gib = (on.head?.map (·.gib)).getD 0 && decide (64 ≤ d.banks))

/-- Channels of the population that fail at rate i. -/
def failedAt (ten : Bool) (failed : List (BitVec 20)) (i : Nat) : BitVec 20 :=
  failed.getD i 0 &&& (if ten then 0x55555 else 0xFFFFF)

/-- Training ends: DMS_POP, and readiness. -/
def State.trainTier (s : State) (ds : List Dimm) (failed : List (BitVec 20)) : State :=
  if !populationOk ds then s.setRg oPop (BitVec.ofNat 64 (2 ^ 25))
  else
    let ten := (ds.filter (fun d => d.present)).length = 10
    let d := ds.getD 0 ⟨false, false, 0, 0, 1⟩
    let s := { s with dimmGib := d.gib, dimmBanks := d.banks }
    let base := if ten then 2 ^ 23 else 0
    match (List.range 3).find? (fun i => failedAt ten failed i = 0) with
    | some i => (s.setRg oPop (BitVec.ofNat 64 (base + 2 ^ 24 + i * 2 ^ 26))).raiseReady rdTier
    | none => s.setRg oPop (BitVec.ofNat 64 (base + 2 * 2 ^ 26 + (failedAt ten failed 2).toNat))

def execDdrTraining (ds : List Dimm) (failed : List (BitVec 20)) (s : State) : Host.Outcome State Fault Refusal :=
  if ds.length ≠ 20 then .fault .illFormed else .next (s.trainTier ds failed)

/-! ### Split and epochs (R257, R262, R281) -/

/-- Regions of the update that a Damson runs take undefined values under the mapping in force. -/
def State.freeRunning (s : State) (k : Nat) : State :=
  match (s.dam k).running with
  | some r =>
    let g := KV.get 0 (s.dam k).groups (fld r.part.w 53 42)
    if r.applied then s.freeParams k g (fld r.part.w 123 60) 0 (gCount g)
    else
      let v := (s.freeVal 512).toNat
      s.took.setDam k { s.dam k with running := some { r with entry := setFld (setFld r.entry 1023 512 v) 10 10 v } }
  | none => s

def State.freeAllRunning (s : State) : State := (List.range 10).foldl (fun s k => s.freeRunning k) s

/-- A write of DMS_SPLIT. -/
def State.writeSplit (s : State) (v : BitVec 32) : State :=
  let l := min (fld v 8 0) s.dimmGib
  if l = s.rf oSplit 8 0 then s else (s.freeAllRunning.setRf oSplit 8 0 l).freeAllRunning

def execDmsSplit (a : Agent) (v : BitVec 32) (s : State) : Host.Outcome State Fault Refusal :=
  .next (if !s.permits a .dmsSplit 0 then s else if s.locked then s.lockViolation oSplit else s.writeSplit v)

def execDmsEpoch (a : Agent) (k : DamId) (v : BitVec 32) (s : State) : Host.Outcome State Fault Refusal :=
  .next (if s.permits a .dmsEpoch k.val then s.setRf (oEpoch k.val) 23 0 (fld v 23 0) else s)

def execDmsEpochAll (a : Agent) (v : BitVec 32) (s : State) : Host.Outcome State Fault Refusal :=
  .next (if s.permits a .dmsEpochAll 0 then
      (List.range 10).foldl (fun s k => s.setRf (oEpoch k) 23 0 (fld v 23 0)) s
    else s)

end Sys2Proof.Machine
end

