-- ==== Sys2Proof/Machine/Boot.lean ====
section
/-! DEFINITION. Secure boot, the start of the module, and what resets of the die and the loss of
the rails do (R7, R31 to R33, R193, R297, R342, R414, R415, R438 to R445, R459, R463 to R468). -/

namespace Sys2Proof.Machine

/-! ### Secure boot (R438 to R445) -/

/-- The fused count: slots of three fuse bits with two or more blown (R441). -/
def State.fusedCount (s : State) : Nat :=
  ((List.range 64).filter (fun i =>
    decide (2 ≤ b2n (bit s.sec.fuses (3 * i)) + b2n (bit s.sec.fuses (3 * i + 1)) + b2n (bit s.sec.fuses (3 * i + 2))))).length

/-- Why a bank is not accepted, as SEC_BOOT_STAT codes it (Table 16-4). -/
def bankCause (fused : Nat) (b : Bank) : Nat :=
  if !b.readable then 4 else if !b.sigOk then 1 else if b.svn.toNat < fused then 2 else if !b.hashOk then 3 else 0

def noBank : Bank := { readable := false, sigOk := false, svn := 0, hashOk := false, digests := [] }

def State.bank (s : State) (i : Nat) : Bank := s.sec.banks.getD i noBank

/-- SVN of a bank as SEC_SVN.OTHER and the BOOT record give it. -/
def bankSvn (b : Bank) : Nat := if b.readable && b.sigOk then b.svn.toNat else 0x7F

/-- What the ROM finds: the bank to run, and the causes of both banks. -/
structure Found where
  run : Option Nat := none
  causeA : Nat := 0
  causeB : Nat := 0
  deriving DecidableEq, Repr

/-- The bank tried first, then the other (R438). -/
def State.romFinds (s : State) : Found :=
  let f := s.sec.first
  let n := s.fusedCount
  let c (i : Nat) : Nat := bankCause n (s.bank i)
  let o := 1 - f
  let co := if c f = 0 then 0 else c o
  { run := if c f = 0 then some f else if c o = 0 then some o else none
    causeA := if f = 0 then c f else co
    causeB := if f = 0 then co else c f }

/-- A Husk EVENT record of an event that is not posted. -/
def State.huskEvent (s : State) (e : Ev) : State := s.husk' 1 (e.word (s.evq 0).seq s.aon) 0

/-- Measurement blocks 1 to 8 of a running bank (Table 16-2); the digests of blocks 1, 7 and 8
are free values (log 14). -/
def State.measure (s : State) (b : Bank) : List (BitVec 512) :=
  let f (i : Nat) : BitVec 512 := Config.freeBits 512 (s.fresh + i)
  [f 0] ++ (List.range 5).map (fun i => b.digests.getD i 0) ++ [f 1, f 2]

/-- The running bank takes over: SEC registers, measurements, HIF_READY.FW, and the record of a
fallback. -/
def State.runBank (s : State) (i : Nat) (x : Found) : State :=
  let b := s.bank i
  let fb := decide (i ≠ s.sec.first)
  let s := { s with fresh := s.fresh + 3, sec := { s.sec with
      running := i, booted := true, udsLocked := true, manifest := b.digests.getD 0 0, measurements := s.measure b } }
  let s := { s with board := { s.board with faultPip := false } }
  let s := s.setRg oBootStat (BitVec.ofNat 64 (pack [(1, i), (1, s.sec.first), (1, b2n fb), (5, 0), (8, x.causeA), (8, x.causeB)]))
  let s := s.setRg oSvn (BitVec.ofNat 64 (pack [(8, s.fusedCount), (8, b.svn.toNat), (8, bankSvn (s.bank (1 - i)))]))
  let s := s.setRf oReady 0 0 1
  if fb then s.postHeld (securityEv secFallback 0) else s

/-- Both banks fail: recovery (R440). The record names the causes in bytes 25 and 26 (log 30). -/
def State.recover (s : State) (x : Found) : State :=
  let s := { s with sec := { s.sec with booted := false, udsLocked := true }, board := { s.board with faultPip := true } }
  let s := s.setRg oBootStat (BitVec.ofNat 64 (pack [(1, 0), (1, s.sec.first), (1, 0), (1, 1), (4, 0), (8, x.causeA), (8, x.causeB)]))
  let s := s.setRg oSvn (BitVec.ofNat 64 (pack [(8, s.fusedCount), (8, 0), (8, bankSvn (s.bank 1))]))
  let s := (s.setRf oReady 4 4 1).setRf oAlert 2 2 1
  s.huskEvent { typ := evSecurity, husk := true, kind := 8, payload := pack [(8, 0), (8, x.causeA), (8, x.causeB)] }

/-- SECURE_BOOT (R439). -/
def State.secureBoot (s : State) : State :=
  let s := { s with sec := { s.sec with spdm := .idle, keyExchange := false, session := false, ideKeys := [], ideOn := [] } }
  let x := s.romFinds
  match x.run with
  | some i => s.runBank i x
  | none => s.recover x

/-! ### The die goes down and comes up (R193, R297, R342, R414) -/

/-- Lists on the die: active slots and ready entries. -/
def State.allLists (s : State) : Nat := (s.cores.map (fun e => (activeSlots e.2).length + e.2.ready.length)).foldl (· + ·) 0

/-- Damsons run on without the die: their answers are lost with it (R284, R414). -/
def Damson.orphan (d : Damson) : Damson :=
  let f (p : Part) : Part := { p with lost := true }
  { d with
    updates := d.updates.map f, descr := d.descr.map f, answers := []
    running := match d.running with
      | some r => some { r with part := f r.part }
      | none => none }

/-- The answers that wait in the pools are lost with the die. -/
def State.drainPools (s : State) : State :=
  (List.range 20).foldl (fun s ch =>
    let x := s.chan ch
    s.setChan ch { x with pool := [], refused := [] }) s

/-- The state of everything on the die, apart from its memories, is lost; the Damsons, Husk, Pip
and the package's pins stay. -/
def State.clearDie (s : State) : State :=
  let up := s.rf oFwUpdate 0 0
  let link := if s.hif.linkUp then s.rg oLink else 0
  let s := { s with
    regs := s.regs.filter (fun e => !warmClears e.1)
    cores := [], clusters := [], mems := [], tlbInv := none, flits := [], lostFlits := []
    sync := {}
    fab := { nextId := s.fab.nextId, sent := s.fab.sent, through := s.fab.through }
    damsons := KV.vmap {} Damson.orphan s.damsons
    hif := { msix := s.hif.msix, masked := s.hif.masked, pendingMsix := s.hif.pendingMsix, reply := s.hif.reply
             linkUp := s.hif.linkUp, d3hot := s.hif.d3hot, atsDone := s.hif.atsDone, aerUr := s.hif.aerUr
             heldRecs := s.hif.heldRecs }
    power := { thermalP4 := s.power.thermalP4, energyFrac := s.power.energyFrac, capAt := s.power.capAt }
    ras := { s.ras with resets := [], drains := [], beats := [], misses := [] } }
  let s := s.setRf oFwUpdate 0 0 up
  let s := s.setRg oLink link
  (List.range 3).foldl (fun s d =>
    if KV.get false s.fab.through d then (s.setRf (oPortStat (2 * d)) 4 4 0).setRf (oPortStat (2 * d + 1)) 4 4 0 else s) s

/-- Steps 1 and 2 of a die reset (Table 15-9): how many lists ended, and the state. -/
def State.dieDown (s : State) : Nat × State := (s.allLists, s.drainPools.clearDie)

/-- Slabs and cluster memory are zeroed as from OFF (R193). -/
def State.zeroDie (s : State) : State :=
  { s with
    mem := s.mem.filter (fun e => decide (2 ^ 64 ≤ e.1))
    chk := s.chk.filter (fun e => decide (2 ^ 59 ≤ e.1))
    reported := s.reported.filter (fun e => decide (2 ^ 59 ≤ e.1)) }

/-- The sync engines restart: every entry is QUARANTINED with the restart count (R297). -/
def State.syncRestart (s : State) : State :=
  { s with sync := { s.sync with ents := [], base := { st := .quarantined, inc := BitVec.ofNat 8 s.husk.syncRestarts } } }

def State.raiseRestarts (s : State) : State := { s with husk := { s.husk with syncRestarts := s.husk.syncRestarts + 1 } }

/-- On-die memories zeroed, core maps published, every core in C3: CORES. -/
def State.dieUp (s : State) : State := (s.zeroDie.syncRestart.raiseReady rdCores).retargets

/-! ### Rails (R342, R459, R467) -/

/-- The module rails go: the die, the Damsons, the DIMMs and the optics lose everything, and the
registers of Table 18-1 return to their reset values (R480). -/
def State.railsOff (s : State) : State :=
  let s := s.clearDie
  let keep (o : Nat) : Bool := o = oFwUpdate || !warmClears o && !(decide (0x60000 ≤ o) && decide (o < 0x80000))
  let s := { s with
    regs := s.regs.filter (fun e => keep e.1)
    mem := s.mem.filter (fun e => decide (2 ^ 65 ≤ e.1)), chk := [], reported := [], lines := []
    dimmGib := 0, dimmBanks := 0, damsons := [], channels := []
    hif := { msix := s.hif.msix, reply := s.hif.reply, atsDone := s.hif.atsDone, heldRecs := s.hif.heldRecs }
    board := { s.board with rails := 0, sequencing := false, upSteps := 0, pwrgd := false, wakeN := false } }
  let s := s.setRg oLink 0
  { s with sec := { s.sec with ideKeys := [], ideOn := [], session := false, keyExchange := false, spdm := .idle } }

/-- PWR_EN as accepted (R469). -/
def State.pwrEn (s : State) : Bool := bit (s.rg oSbStat) 10

/-- Rails held off until a PWR_EN cycle, or by THERMTRIP_N. -/
def State.heldOff (s : State) : Bool := s.board.hold || s.board.thermtrip

/-- PFW requests the module rails once PWR_EN is asserted (R463 step 6). -/
def State.requestRails (s : State) : State :=
  if s.pwrEn && !s.heldOff && s.board.auxOn && !s.board.pipReset then { s with board := { s.board with sequencing := true } } else s

/-! ### Start-up (Table 17-7, Table 15-22) -/

/-- EVENT records for the watchdog power cycles that are new (R32). -/
def State.cycleRecords (s : State) : State :=
  let n := s.board.cycles - s.husk.cyclesSeen
  let s := (List.range n).foldl (fun s i =>
    s.huskEvent { typ := evPower, husk := true, kind := 10, payload := pack [(8, 0x14), (56, 0), (32, s.husk.cyclesSeen + i + 1)] }) s
  { s with husk := { s.husk with cyclesSeen := s.board.cycles } }

/-- The BOOT record (Table 15-22). The ROM's version number is a constant of the part. -/
def State.bootRecord (s : State) (cause new : Nat) : State :=
  let st := s.rg oBootStat
  let v := s.rg oSvn
  s.husk' 3 (BitVec.ofNat 512 (pack [(8, cause), (8, fld st 0 0), (8, fld v 14 8), (8, fld v 22 16), (8, fld v 6 0),
    (8, fld st 2 2 + 2 * fld st 3 3), (16, 0), (32, s.board.cycles), (32, new), (64, Config.romVersion.toNat)])) 0

/-- The bank that an update writes (R448): the one not running, or in recovery one that failed
with cause 1 or 3, else bank A. -/
def State.updateBank (s : State) : Nat :=
  let st := s.rg oBootStat
  let bad (c : Nat) : Bool := c = 1 || c = 3
  if s.sec.booted then 1 - s.sec.running
  else if bad (fld st 15 8) then 0 else if bad (fld st 23 16) then 1 else 0

/-- Slots below `n` are blown whole. -/
def State.blowTo (s : State) (n : Nat) : State :=
  { s with sec := { s.sec with fuses := s.sec.fuses ||| BitVec.ofNat 192 (2 ^ (3 * n) - 1) } }

/-- An update that was being written leaves its bank failing (R448), and a commit that was being
blown ends at a count that is free between the old and the new (R441). -/
def State.cutShort (s : State) : State :=
  let s := if bit (s.rg oFwUpdate) 0 then
      { s with sec := { s.sec with banks := s.sec.banks.set s.updateBank noBank } } else s
  let s := s.setRg oFwUpdate 0
  match s.sec.blowing with
  | none => s
  | some n =>
    let old := s.fusedCount
    let m := old + (s.freeVal 7).toNat % (n - old + 1)
    { (s.took.blowTo m) with sec := { (s.took.blowTo m).sec with blowing := none } }

/-- A start of the ROM: steps 3 to 5 of Table 17-7, and PFW's request of the rails. -/
def State.startRom (s : State) (cause : Nat) : State :=
  let s := s.cutShort
  let s := { s with
    husk := { s.husk with boots := s.husk.boots + 1, stopped := false }
    board := { s.board with refreshAt := s.aon, shut := false, pipReset := false } }
  let new := s.board.cycles - s.husk.cyclesSeen
  let s := (s.raiseRestarts.secureBoot.cycleRecords).bootRecord cause new
  s.requestRails

/-- The PCIe link comes up: PERST_N is deasserted and PWRGD released (R465). -/
def State.linkTrain (s : State) : State :=
  if s.board.perstLow || !s.board.pwrgd then s
  else
    let l := s.board.link
    let slow := decide (l.2.toNat < 5)
    ({ s with hif := { s.hif with linkUp := true } }).setRg oLink
      (BitVec.ofNat 64 (pack [(4, l.2.toNat), (4, 0), (5, l.1.toNat), (18, 0), (1, b2n slow)]))

/-- The next step of Table 17-7 from step 7 on: a rail in regulation, then PWRGD, then the core
maps, then the optics (log 31). -/
def State.sequenceStep (s : State) : State :=
  let b := s.board
  if !b.sequencing then s
  else if b.rails < 7 then { s with board := { b with rails := b.rails + 1 } }
  else if !b.pwrgd then
    let s := ({ s with board := { b with pwrgd := true } }).linkTrain
    if s.sec.booted then s else { s with board := { s.board with sequencing := false } }
  else if b.upSteps = 0 then ({ s with board := { b with upSteps := 1 } }).dieUp
  else ({ s with board := { b with upSteps := 2, sequencing := false } }).raiseReady rdOptics

/-- The module restarts from its rails (R415, R468): they go, the ROM runs, they return. -/
def State.restartModule (s : State) (cause : Nat) : State :=
  (s.releaseSwitches.railsOff).startRom cause

end Sys2Proof.Machine
end

