-- ==== Sys2Proof/Machine/HuskLog.lean ====
section
/-! DEFINITION. Records of the Husk store: their words, and how the oldest queued one is written (R424 to
R427). -/

namespace Sys2Proof.Machine

/-! ### Records (R424 to R427) -/

/-- One step of the IEEE 802.3 CRC-32, bits reflected. -/
def crcBit (c : Nat) : Nat := if c % 2 = 1 then c / 2 ^^^ 0xEDB88320 else c / 2

def crcByte (c : Nat) (b : Byte) : Nat :=
  let c := c ^^^ b.toNat
  crcBit (crcBit (crcBit (crcBit (crcBit (crcBit (crcBit (crcBit c)))))))

def crc32 (d : List Byte) : Nat := (d.foldl crcByte 0xFFFFFFFF) ^^^ 0xFFFFFFFF

/-- Slots of a copy area. -/
def mramSlots : Nat := 14336

/-- The 256 bytes of a record (Table 15-14). -/
def recordWord (rseq boots : Nat) (e : HuskEnt) (prev : BitVec 512) : BitVec 2048 :=
  let w := pack [(64, rseq), (64, e.time.toNat), (32, boots), (8, e.kind.toNat), (24, 0), (512, e.body.toNat),
    (192, e.aux.toNat), (128, e.aux.toNat / 2 ^ 192), (512, prev.toNat), (448, 0)]
  BitVec.ofNat 2048 (w + crc32 (natLe 248 w) * 2 ^ 1984)

/-- Record r in copy A. -/
def Husk.copyA (h : Husk) (r : Nat) : BitVec 2048 := KV.get 0 h.mramA (r % mramSlots)

/-- PREV of the record that follows: SHA3-512 of the newest. -/
def Husk.prev (h : Husk) : BitVec 512 := if h.next = 0 then 0 else Config.sha3 (h.copyA (h.next - 1))

/-- A slot is free for the next record (R426). -/
def Husk.slotFree (h : Husk) : Bool := h.ringMode || decide (h.next - h.norNext < mramSlots)

/-- Writes a record to both copies. -/
def Husk.append (h : Husk) (e : HuskEnt) : Husk :=
  let w := recordWord h.next h.boots.toNat e h.prev
  { h with
    mramA := KV.put 0 h.mramA (h.next % mramSlots) w, mramB := KV.put 0 h.mramB (h.next % mramSlots) w
    next := h.next + 1, sinceCkpt := h.sinceCkpt + 1 }

/-- Signatures that the signature area holds. -/
def sigSlots : Nat := 3276

/-- A CHECKPOINT record and its signature (R427). -/
def Husk.checkpoint (h : Husk) (now : BitVec 64) : Husk :=
  let r := h.next
  let n := h.sinceCkpt
  let h' := h.append { kind := 2, body := BitVec.ofNat 512 (pack [(64, h.lastCkpt), (64, n)]), time := now }
  { h' with
    lastCkpt := r, sinceCkpt := 0
    sigs := (KV.ins h'.sigs r (Config.sign (Config.sha3 (h'.copyA r)))).drop (h'.sigs.length + 1 - sigSlots) }

/-- The oldest queued record is written; the 1,023rd since a checkpoint is followed by one. -/
def State.writeRecord (s : State) : State :=
  match s.husk.queue, s.husk.slotFree with
  | e :: q, true =>
    let h := { s.husk with queue := q }.append e
    { s with husk := if 1023 ≤ h.sinceCkpt ∧ h.slotFree then h.checkpoint s.aon else h }
  | _, _ => s

/-- Every queued record is written, while the copy areas have room. -/
def State.writeQueue (s : State) : State := s.husk.queue.foldl (fun s _ => s.writeRecord) s

end Sys2Proof.Machine
end

