-- ==== Sys2Proof/Machine/Recovery.lean ====
section
/-! DEFINITION. Resets and their records: what each domain's reset does when it starts, when it
completes and when its bound passes, and fencing (R403 to R423). -/

namespace Sys2Proof.Machine

/-! ### Domains (Table 15-5, Table 15-7) -/

def causeOf : Requester → Nat
  | .host => 0
  | .firmware => 1
  | .hangMonitor => 2
  | .preemptBound => 3
  | .escalation => 4
  | .heartbeat => 5

def levelOf : Domain → Nat
  | .engine _ _ => 0
  | .hostClass _ => 1
  | .core _ => 2
  | .cluster _ => 3
  | .fabricPort _ => 4
  | .damson _ => 5
  | .dieWarm => 6
  | .module => 7

def targetOf : Domain → Nat
  | .engine c _ => c.val
  | .hostClass h => h.val
  | .core c => c.val
  | .cluster k => k.val
  | .fabricPort d => d.val
  | .damson k => k.val
  | .dieWarm => 0
  | .module => 0

/-- KIND and SRC_ID of a domain's record (Table 14-13, log 32). -/
def sourceOf (d : Domain) : Nat × Nat :=
  match d with
  | .engine c _ => (1, c.val)
  | .hostClass h => (2, h.val)
  | .core c => (1, c.val)
  | .cluster k => (6, k.val)
  | .fabricPort x => (5, 2 * x.val)
  | .damson k => (3, k.val)
  | .dieWarm => (8, 0)
  | .module => (8, 0)

/-- ENGINE of an engine reset. -/
def engineOf : Domain → Nat
  | .engine _ e => engNum e
  | _ => 0

/-- The core positions of a domain of the die's cores. -/
def coresOf : Domain → List Nat
  | .engine c _ => [c.val]
  | .core c => [c.val]
  | .cluster k => (List.range 16).map (clusterCore k.val)
  | _ => []

/-- Domain a contains domain b (R412). -/
def holds (a b : Domain) : Bool :=
  a = b || (match a, b with
    | .module, _ => true
    | .dieWarm, .damson _ => false
    | .dieWarm, .module => false
    | .dieWarm, _ => true
    | .cluster k, .core c => clusterOf c.val = k.val
    | .cluster k, .engine c _ => clusterOf c.val = k.val
    | .core c, .engine c' _ => c = c'
    | _, _ => false)

def State.clusterFenced (s : State) (k : Nat) : Bool := bit s.husk.fencedClusters k

/-- A domain that is fenced, or lies inside a fenced cluster. -/
def State.domFenced (s : State) (d : Domain) : Bool :=
  match d with
  | .engine c _ => s.fenced c.val || s.clusterFenced (clusterOf c.val)
  | .core c => s.fenced c.val || s.clusterFenced (clusterOf c.val)
  | .cluster k => s.clusterFenced k.val
  | _ => false

/-! ### Records (R411, R413, R422) -/

/-- Claim parts: the entries of each slot, two at a time, at most six parts. -/
def claimParts (cs : List Claim) : List (List Claim) :=
  (([0, 1, 2, 3].map (fun sl => chunks 2 (cs.filter (fun (c : Claim) => c.slot.val = sl)))).flatten).take 6

/-- Payload of a claim part (Table 15-12). -/
def claimPayload (p : List Claim) : Nat :=
  let a : Claim := p.getD 0 {}
  let b : Claim := p.getD 1 {}
  pack [(64, a.handle.toNat), (64, a.word.toNat), (64, b.handle.toNat), (64, b.word.toNat), (8, p.length), (8, a.slot.val)]

/-- A record with its claim parts: part 0 is `e`, whose OFFSET is `alone` where none follow. -/
def withParts (e : Ev) (alone : Nat) (cs : List Claim) : List Ev :=
  let ps := claimParts cs
  let n := ps.length
  { e with offset := if n = 0 then alone else n + 1 } ::
    ps.zipIdx.map (fun p => { e with
      ctx := (p.1.headD {}).ctx.toNat, offset := (p.2 + 1) * 65536 + n + 1, payload := claimPayload p.1 })

/-- Payload of a reset record (Table 15-8), with the level reached and its time. -/
def RunReset.payload (r : RunReset) (level : Nat) (now : BitVec 64) : Nat :=
  pack [(8, r.fromLevel), (8, level), (8, r.cause), (8, r.engine), (16, r.target), (8, (claimParts r.claims).length), (8, 0),
    (64, r.requested.toNat), (64, now.toNat), (64, r.listAddr.toNat), (32, r.lists)]

def RunReset.ev (r : RunReset) (st : BitVec 8) (level : Nat) (now : BitVec 64) : Ev :=
  { typ := evFault, husk := true, status := st, kind := (sourceOf r.dom).1, src := (sourceOf r.dom).2
    engine := (match r.dom with | .engine _ e => engNum e | _ => 7), ctx := r.ctx.toNat, payload := r.payload level now }

/-- The queue of a context, and 0 for none (R394). -/
def State.ctxQueue (s : State) (ctx : Nat) : Nat × State :=
  if ctx = 0xFFFF then (0, s)
  else
    let x := s.ctxEntry ctx
    (if ceValid x.1 then ceEvq x.1 else 0, x.2)

/-- The reset record of r: to the queue of the context it names, or to queue 0; that of a die
reset waits for queue 0. -/
def State.postReset (s : State) (r : RunReset) (st : BitVec 8) (level : Nat) : State :=
  let es := withParts (r.ev st level s.aon) 0xFFFFFFFF r.claims
  if 6 ≤ levelOf r.dom then es.foldl (fun s e => s.postHeld e) s
  else
    let x := s.ctxQueue r.ctx.toNat
    es.foldl (fun s e => s.post x.1 e) x.2

/-! ### Ending lists (R409, R410) -/

/-- A slot stopped by a reset or a fence: its image is INCOMPLETE. -/
def State.resetSlot (s : State) (c sl : Nat) : State :=
  let x := s.slot c sl
  if !x.active then s
  else
    let s := if h : c < 960 ∧ sl < 4 then s.leaveWaits (.slot ⟨c, h.1⟩ ⟨sl, h.2⟩) else s
    let s := ((s.abandonFab c sl).modCore c (fun k => k.withdraw sl)).finishSlot c sl
    let s := (s.count c 0x118 1).count c 0x28 1
    let s := if hSave x.hdr ≠ 0 then s.writeImage c sl 7 0xFFFFFFFF stReset else s
    let s := (s.settle c sl).postComp (s.slotComp c sl endStopped stReset 0xFFFFFFFF)
    (s.tellPreempt c sl false).freeSlot c sl

/-- USER_TAG of a ready entry's header, zero where it cannot be read. -/
def State.entryTag (s : State) (c : Nat) (e : ReadyEnt) : Nat × State :=
  match s.readHead c e with
  | (.ok h, s) => (hTag h, s)
  | (.refuse _ h, s) => (hTag h, s)
  | (.xlt _ _ _, s) => (0, s)

/-- An entry of the ready set is withdrawn with a status. -/
def State.withdrawEntry (s : State) (c : Nat) (e : ReadyEnt) (st : BitVec 8) : State :=
  let t := s.entryTag c e
  (t.2.leaveReady c e).postComp
    { kind := endWithdrawn, status := st, core := c, ctx := e.ctx.toNat, tag := t.1, addr := e.addr.toNat, origin := e.origin }

/-- Claims of a slot that have not retired. -/
def Core.claimsOf (k : Core) (sls : List Nat) : List Claim := k.claims.filter (fun (x : Claim) => sls.contains x.slot.val)

/-- Stops slots of a core, with their claims and number. -/
def State.resetSlots (s : State) (c : Nat) (sls : List Nat) : List Claim × Nat × State :=
  let sls := sls.filter (fun sl => (s.slot c sl).active)
  ((s.core c).claimsOf sls, sls.length, sls.foldl (fun s sl => s.resetSlot c sl) s)

/-- Stops every list of a core and withdraws its ready set. -/
def State.resetLists (s : State) (c : Nat) : List Claim × Nat × State :=
  let r := s.resetSlots c [0, 1, 2, 3]
  let es := (r.2.2.core c).ready
  (r.1, r.2.1 + es.length, es.foldl (fun s e => s.withdrawEntry c e stReset) r.2.2)

/-- A core after its reset: what Table 15-5 keeps, and the rest as at start-up. -/
def Core.afterReset (k : Core) (cst : CState) : Core :=
  { unread := k.unread, eject := k.eject, nextClaim := k.nextClaim, lent := k.lent, cst := cst }

/-! ### What an engine was writing (R410) -/

/-- Tile registers that a command writes, as a 28-bit mask. -/
def writesMask (w : Cmd) : Nat :=
  let o := cOpc w
  if o = 0x20 then 2 ^ (8 + mmaT w)
  else if o = 0x23 then 2 ^ fld w 34 32
  else if o = 0x24 then 2 ^ (12 + fld w 39 36)
  else if 0x30 ≤ o ∧ o ≤ 0x36 then vecWrites w % 2 ^ 16 * 2 ^ 12 ||| vecWrites w / 2 ^ 16
  else if o = 0x58 then tloadInfo.regs w
  else 0

/-- Registers of a mask hold undefined contents: free values. -/
def State.undefineRegs (s : State) (c mask : Nat) : State :=
  (List.range 28).foldl (fun s n =>
    if mask / 2 ^ n % 2 = 0 then s
    else
      let s' := s.took
      if n < 8 then s'.modCore c (fun k => { k.dropLatch n with xregs := KV.put 0 k.xregs n (s.freeVal 16384) })
      else if n < 12 then
        let v := s.freeVal 102400
        let t : Tile := { cells := v.extractLsb' 0 98304, cflags := v.extractLsb' 98304 3072, sat := v.extractLsb' 101376 1024 }
        s'.modCore c (fun k => { k with accs := KV.put {} k.accs (n - 8) t })
      else s'.modCore c (fun k => { k with vregs := KV.put 0 k.vregs (n - 12) (s.freeVal 32768) })) s

/-- Slots with a command in an engine's queue or in execution. The sequencer works for every
active slot (log 33). -/
def Core.slotsIn (k : Core) (e : Nat) : List SlotId :=
  let f (sl : SlotId) : Bool :=
    if e = 4 then (k.slot sl.val).active
    else (k.queue e ++ k.run e).any (fun q => q.slot = sl) ||
      (e = 3 && (match k.program with | some p => p.ent.slot = sl | none => false))
  [0, 1, 2, 3].filter f

/-- The tile loads of the access engine are abandoned: LOADING clears, and ROWS_VALID stays (R149). -/
def Core.endLoads (k : Core) : Core :=
  (k.run 3 ++ k.queue 3).foldl (fun k q =>
    if cOpc q.w = 0x58 && tLoading (k.tag (tlTagIx q.w)) && (k.slot q.slot.val).active then
      k.setTag (tlTagIx q.w) (setBit (k.tag (tlTagIx q.w)) 1 false)
    else k) k

/-- The commands that an engine executes are abandoned. -/
def State.abandonRun (s : State) (c e : Nat) : State :=
  let s := if e = 3 then s.modCore c Core.endLoads else s
  let k := s.core c
  let s := if e = 3 then ([0, 1, 2, 3].foldl (fun s sl => s.abandonFab c sl) s) else s
  let s := s.undefineRegs c ((k.run e).foldl (fun m q => m ||| writesMask q.w) 0)
  s.modCore c (fun k =>
    let k := k.setRun e []
    if e = 3 then { k with program := none, xltAcc := false, xltBy := none, walks := k.walks.filter (fun w => w.1 ≠ 0) }
    else if e = 4 then { k with walks := k.walks.filter (fun w => w.1 = 0) }
    else k)

def State.holdEngine (s : State) (c : Nat) (e : Engine) : State :=
  (s.abandonRun c (engNum e)).modCore c (fun k => { k with inReset := insertOnce k.inReset e })

def allEngines : List Engine := [.matrix, .vector, .row, .access, .sequencer]

/-- Slots that a reset is to end. -/
def Core.doom (k : Core) (sls : List Nat) : Core :=
  sls.foldl (fun k sl => k.setSlot sl { k.slot sl with doomed := true }) k

def State.holdCore (s : State) (c : Nat) : State :=
  (allEngines.foldl (fun s e => s.holdEngine c e) s).modCore c (fun k => k.doom (activeSlots k))

/-! ### Reset of a Damson (R285) -/

/-- The entry of a lost update part: status, flags and STEP. -/
def lostEntry (p : Part) (st : BitVec 8) (flags : Nat) : BitVec 1024 := entryOf st flags 0 (dmStep p.w) 0 0 0

/-- An update part is answered without its engine's part having been applied. -/
def State.answerLost (s : State) (k : Nat) (p : Part) (st : BitVec 8) (flags : Nat) : State :=
  if p.lost then s
  else
    let w := s.engWrite p.core.val p.ctx.toNat (dmBase p.w + k * dmEntry p.w) (bytesOf (lostEntry p st flags) (dmEntry p.w))
    w.2.setDam k ((w.2.dam k).answer p (if w.1 = stOk then st else stIllegal) none)

/-- The update that runs is abandoned part-way: its group is TORN, and its parameters hold free
values. -/
def State.tearRunning (s : State) (k : Nat) : State :=
  match (s.dam k).running with
  | none => s
  | some r =>
    let n := dmGroup r.part.w
    let g := (s.dam k).group n
    let s := if r.applied then
        let s := s.freeParams k g (dmStep r.part.w) 0 (gCount g)
        s.setDam k ((s.dam k).setGroup n (setBit g (8 * 112 + 1) true))
      else s
    (s.setDam k { s.dam k with running := none }).answerLost k r.part stPoison 8

/-- A DSET or DREAD that had not completed; a DSET may or may not have written. -/
def State.loseDescr (s : State) (k : Nat) (p : Part) : State :=
  let wrote := cOpc p.w = 0x68 && bit (s.freeVal 1) 0
  let d := s.dam k
  let d := match wrote, dsetGroup s.windowSize (d.group (dmGroup p.w)) p.image p.w with
    | true, some g => d.setGroup (dmGroup p.w) g
    | _, _ => d
  s.took.setDam k (d.answer p stPathLost none)

/-- A request lost from a pool. A write may or may not have reached its DIMM: a free value says whether
the bytes before it stand again, where nothing has written them since. -/
def State.undoRequest (s : State) (e : Pooled) : State :=
  match e.req.op with
  | .read _ => s
  | .write d =>
    let pa := e.req.pa.toNat
    let undone := bit (s.freeVal 1) 0 && decide (e.reply = Reply.done) && decide ((s.readTier 0xFFFF pa d.length).data = d)
    (if undone then (s.writeTier 0xFFFF pa e.old).2 else s).took

/-- The pools of a Damson empty, it is in reset, and the requesters meet the loss. -/
def State.losePools (s : State) (k : Nat) : State :=
  let es := (s.chan (2 * k)).pool.reverse ++ (s.chan (2 * k + 1)).pool.reverse
  let s := [2 * k, 2 * k + 1].foldl (fun s ch => s.setChan ch { s.chan ch with pool := [], refused := [] }) s
  let s := es.foldl State.undoRequest s
  let s := s.setDam k { s.dam k with inReset := true }
  es.foldl (fun s e => s.lostReply e.req) s

def State.resetDamson (s : State) (k : Nat) : State :=
  let s := s.tearRunning k
  let d := s.dam k
  let s := s.setDam k { d with updates := [], descr := [] }
  let s := d.updates.foldl (fun s p => s.answerLost k p stPathLost 0) s
  let s := d.descr.foldl (fun s p => s.loseDescr k p) s
  s.losePools k

/-! ### Starting a reset (R410, R412, R414, R415) -/

/-- The Husk record that Pip writes before it removes the rails (R415, log 34). -/
def State.noteReset (s : State) (e : Ev) : State := (s.husk' 7 (e.word (s.evq 0).seq s.aon) 0).writeQueue

/-- What a reset does when it starts, with the reset as it then stands. -/
def State.startReset (s : State) (r : RunReset) : State :=
  let put (s : State) (r : RunReset) : State := { s with ras := { s.ras with resets := s.ras.resets ++ [r] } }
  match r.dom with
  | .engine c e =>
    let sls := (s.core c.val).slotsIn (engNum e)
    put ((s.holdEngine c.val e).modCore c.val (fun k => k.doom (sls.map (·.val)))) { r with slots := sls }
  | .hostClass _ => put s r
  | .core c => put (s.holdCore c.val) r
  | .cluster k => put ((coresOf (.cluster k)).foldl (fun s c => s.holdCore c) s) r
  | .fabricPort d => put (s.resetDim d.val) r
  | .damson k => put (s.resetDamson k.val) r
  | .dieWarm =>
    let x := s.releaseSwitches.dieDown
    put x.2 { r with lists := x.1 }
  | .module =>
    let n := s.allLists
    put ((s.noteReset (r.ev stOk 7 s.aon)).restartModule 1) { r with lists := n }

/-- A reset is requested: ignored in a fenced domain, absorbed by one under way that contains it;
it absorbs those it contains. -/
def State.requestReset (s : State) (d : Domain) (cause : Nat) (ctx : BitVec 16 := 0xFFFF) (addr : BitVec 64 := 0)
    (force : Bool := false) (again : Bool := false) : State :=
  if (!force && s.domFenced d) || s.ras.resets.any (fun r => holds r.dom d) then s
  else
    let s := { s with ras := { s.ras with resets := s.ras.resets.filter (fun r => !holds d r.dom) } }
    s.startReset { dom := d, fromLevel := levelOf d, cause := cause, engine := engineOf d, target := targetOf d
                   requested := s.aon, ctx := ctx, listAddr := addr, retried := again }

/-- Requests of a command: the host and the firmware name any domain (R410). -/
def State.commandReset (s : State) (r : Requester) (d : Domain) : State := s.requestReset d (causeOf r)

def execEngineReset (r : Requester) (c : CoreId) (e : Engine) (s : State) : Host.Outcome State Fault Refusal :=
  .next (s.commandReset r (.engine c e))

def execHostClassCoreReset (r : Requester) (h : HcId) (s : State) : Host.Outcome State Fault Refusal :=
  .next (s.commandReset r (.hostClass h))

def execCoreReset (r : Requester) (c : CoreId) (s : State) : Host.Outcome State Fault Refusal :=
  .next (s.commandReset r (.core c))

def execClusterReset (r : Requester) (k : ClusterId) (s : State) : Host.Outcome State Fault Refusal :=
  .next (s.commandReset r (.cluster k))

def execFabricPortReset (r : Requester) (d : DimId) (s : State) : Host.Outcome State Fault Refusal :=
  .next (s.commandReset r (.fabricPort d))

def execDamsonReset (r : Requester) (k : DamId) (s : State) : Host.Outcome State Fault Refusal :=
  .next (s.commandReset r (.damson k))

def execDieWarmReset (r : Requester) (s : State) : Host.Outcome State Fault Refusal := .next (s.commandReset r .dieWarm)

def execModuleReset (r : Requester) (s : State) : Host.Outcome State Fault Refusal := .next (s.commandReset r .module)

/-! ### Fencing (R416 to R419, R421) -/

/-- FENCE payload, part 0 (Table 15-11). -/
def State.fencePayload (s : State) (level cause id : Nat) (cs : List Claim) (lists : Nat) (at' : BitVec 64) : Nat :=
  let c := if level = 0 then id else clusterCore id 0
  pack [(8, level), (8, cause), (16, id), (8, (claimParts cs).length), (8, min 8 cs.length), (8, b2n (level = 0 && s.routerDown id)), (8, 0),
    (32, lists), (32, s.availMap / 2 ^ (32 * (c / 32)) % 2 ^ 32), (64, at'.toNat)]

def causeCleared : Nat := 4

/-- A FENCE record with its claim parts. -/
def State.postFence (s : State) (level cause id : Nat) (cs : List Claim) (lists : Nat) (at' : BitVec 64) : State :=
  let e : Ev := { typ := evFence, husk := true, status := if cause = causeCleared then stOk else stFenced
                  kind := if level = 0 then 1 else 6, src := id, payload := s.fencePayload level cause id cs lists at' }
  (withParts e 1 cs).foldl (fun s e => s.post 0 e) s

/-- Steps 1 to 3 of R417: persisted, isolated, in C3; the drain begins. -/
def State.startFence (s : State) (c : CoreId) (cause : Nat) : State :=
  if s.fenced c.val then s
  else
    let s := { s with husk := { s.husk with fences := setBit s.husk.fences c.val true } }
    let s := s.modCore c.val (fun k => { k with cst := .c3, waking := false, parked := false, inReset := allEngines })
    let s := s.ackAll c.val
    { s with ras := { s.ras with
        drains := s.ras.drains ++ [{ core := c, cause := cause, isolated := s.aon }]
        resets := s.ras.resets.filter (fun r => !holds (.core c) r.dom) } }

/-- Steps 4 to 6 of R417: the lists stop and the FENCE record is posted. -/
def State.endDrain (s : State) (c : CoreId) : State :=
  match s.ras.drains.find? (fun d => d.core = c) with
  | none => s
  | some d =>
    let s := { s with ras := { s.ras with drains := s.ras.drains.filter (fun x => x.core ≠ c) } }
    let r := (s.dropCoreReqs c.val).resetLists c.val
    let s := r.2.2.modCore c.val (fun k => { k.afterReset .c3 with counters := k.counters })
    s.postFence 0 d.cause c.val r.1 r.2.1 d.isolated

/-- TIER_FAILED (R421): every segment is OFF, and the mark is persistent. -/
def State.failTier (s : State) (k : Nat) : State :=
  let s := (List.range 12).foldl (fun s g => s.enterOff (segMem k g)) s
  { s with husk := { s.husk with tierFailed := setBit s.husk.tierFailed k true } }

/-- Lists on the cores of a cluster. -/
def State.clusterLists (s : State) (k : Nat) : Nat :=
  ((List.range 16).map (fun i => let c := s.core (clusterCore k i); (activeSlots c).length + c.ready.length)).foldl (· + ·) 0

def State.fenceCluster (s : State) (k : ClusterId) (cause : Nat) (portsAnswer : Bool) : State :=
  let s :=
    if s.clusterFenced k.val then s
    else
      let n := s.clusterLists k.val
      let s := { s with
        husk := { s.husk with fencedClusters := setBit s.husk.fencedClusters k.val true }
        ras := { s.ras with resets := s.ras.resets.filter (fun r => !holds (.cluster k) r.dom) } }
      let s := (List.range 16).foldl (fun s i => s.startFence (coreId (clusterCore k.val i)) cause) s
      s.postFence 1 cause k.val [] n s.aon
  if portsAnswer then s else s.failTier k.val

/-- CAUSE of a FENCE record by who asks for the fence (Table 15-11). -/
def fenceCause : Requester → Nat
  | .host => 1
  | .firmware => 2
  | _ => 0

def execFenceCore (r : Requester) (c : CoreId) (s : State) : Host.Outcome State Fault Refusal :=
  .next (s.startFence c (fenceCause r))

def execFenceCluster (r : Requester) (k : ClusterId) (portsAnswer : Bool) (s : State) : Host.Outcome State Fault Refusal :=
  .next (s.fenceCluster k (fenceCause r) portsAnswer)

def execFenceDrainEnd (c : CoreId) (s : State) : Host.Outcome State Fault Refusal := .next (s.endDrain c)

/-- CLEAR of a core: its reset begins; inside a fenced cluster it is ignored. -/
def State.clearCore (s : State) (c : CoreId) (cause : Nat) : State :=
  if s.fenced c.val && !s.clusterFenced (clusterOf c.val) then
    ({ s with ras := { s.ras with clearing := insertOnce s.ras.clearing c.val } }).requestReset (.core c) cause (force := true)
  else s

def State.clearCluster (s : State) (k : ClusterId) (cause : Nat) : State :=
  if s.clusterFenced k.val then
    ({ s with ras := { s.ras with clearingCl := insertOnce s.ras.clearingCl k.val } }).requestReset (.cluster k) cause (force := true)
  else s

/-- CAUSE of a register write. -/
def agentCause : Agent → Nat
  | .pf => 0
  | .vf _ => 0
  | .pip => 1
  | .hc _ => 1

/-- A write to RAS_FENCE_CMD (Table 15-10). -/
def State.writeFence (s : State) (a : Agent) (v : BitVec 32) : State :=
  let id := fld v 9 0
  let r : Requester := if agentCause a = 0 then .host else .firmware
  match bit v 30, bit v 31 with
  | true, clear =>
    if h : id < 60 then (if clear then s.clearCluster ⟨id, h⟩ (agentCause a) else s.fenceCluster ⟨id, h⟩ (fenceCause r) true) else s
  | false, clear =>
    if h : id < 960 then (if clear then s.clearCore ⟨id, h⟩ (agentCause a) else s.startFence ⟨id, h⟩ (fenceCause r)) else s

def execFenceClear (a : Agent) (v : BitVec 32) (s : State) : Host.Outcome State Fault Refusal :=
  .next (if s.permits a .rasFence 0 && bit v 31 then s.writeFence a v else s)

/-- A router stops forwarding (R420): it is marked, its core fenced, and its vertical port
replaced. The exception routes are firmware's writes (REGISTER_WRITE). -/
def State.routerOut (s : State) (c : CoreId) : State :=
  let k := clusterOf c.val
  let s := s.setRf (oRtDown (c.val / 32)) (c.val % 32) (c.val % 32) 1
  let s := match (List.range 8).find? (fun i => portRouter k i = c.val) with
    | some i => s.setRf (oVport k) (3 * i + 2) (3 * i) (i ^^^ 4)
    | none => s
  s.startFence c 3

def execRouterOutOfService (c : CoreId) (s : State) : Host.Outcome State Fault Refusal := .next (s.routerOut c)

/-! ### Completion of a reset (R404, R411, R414, R419) -/

/-- Windows of every engine of a core restart (R404). -/
def Core.restartWindows (k : Core) : Core :=
  { k with mons := KV.vmap {} (fun (m : Monitor) => { m with stale := 0 }) k.mons }

/-- The cores of a domain return to service; their lists have ended. -/
def State.coresBack (s : State) (cs : List Nat) (r : RunReset) : RunReset × State :=
  cs.foldl (fun x c =>
    let y := x.2.resetLists c
    let k := y.2.2.core c
    let cst : CState := if y.2.2.available c then .c0 else .c3
    ({ x.1 with claims := x.1.claims ++ y.1, lists := x.1.lists + y.2.1 }, y.2.2.setCore c (k.afterReset cst))) (r, s)

/-- State of a core that returns to service: C0, but C3 after a reset of the die (Table 15-9). -/
def State.backIn (s : State) (d : Domain) (c : Nat) : CState := if s.available c && levelOf d < 6 then .c0 else .c3

/-- The fence of core c goes with the reset of its clear (R419). -/
def State.unfenceCore (s : State) (d : Domain) (c : Nat) : State :=
  let s := { s with husk := { s.husk with fences := setBit s.husk.fences c false }
                    ras := { s.ras with clearing := s.ras.clearing.filter (· ≠ c) } }
  (s.modCore c (fun k => { k with cst := s.backIn d c })).postFence 0 causeCleared c [] 0 s.aon

/-- The fence of cluster k goes with the reset of its clear (R419). FAILED of its tier goes too where the
port controllers answer, which a free value says (R421, log 130). -/
def State.unfenceCluster (s : State) (d : Domain) (k : Nat) : State :=
  let cs := (List.range 16).map (clusterCore k)
  let failed := bit s.husk.tierFailed k && bit (s.freeVal 1) 0
  let s := s.took
  let s := { s with
    husk := { s.husk with
      fences := cs.foldl (fun m c => setBit m c false) s.husk.fences
      fencedClusters := setBit s.husk.fencedClusters k false, tierFailed := setBit s.husk.tierFailed k failed }
    ras := { s.ras with clearingCl := s.ras.clearingCl.filter (· ≠ k) } }
  (cs.foldl (fun s c => s.modCore c (fun k => { k with cst := s.backIn d c })) s).postFence 1 causeCleared k [] 0 s.aon

/-- Fences whose clear was to reset a domain that the completed reset is or contains (R412, R419). -/
def State.unfence (s : State) (r : RunReset) : State :=
  let cs := (List.finRange 960).filter (fun c => s.ras.clearing.contains c.val && holds r.dom (.core c))
  let ks := (List.finRange 60).filter (fun k => s.ras.clearingCl.contains k.val && holds r.dom (.cluster k))
  if s.ras.clearing.isEmpty && s.ras.clearingCl.isEmpty then s
  else ks.foldl (fun s k => s.unfenceCluster r.dom k.val) (cs.foldl (fun s c => s.unfenceCore r.dom c.val) s)

/-- The cache of a host-class core is lost (R132). -/
def State.dropCache (s : State) (h : Nat) : State :=
  { s with hif := { s.hif with hcCache := s.hif.hcCache.filter (fun e => e.1 / 2 ^ 60 ≠ h) } }

/-- A host-class core is released from reset: its context takes effect (R378), and its caches are empty. -/
def State.releaseHc (s : State) (h : Nat) : State :=
  let s := s.dropCache h
  { s with
    hif := { s.hif with hcCtx := KV.put 0 s.hif.hcCtx h (BitVec.ofNat 16 (s.rf (oHcCtx h) 15 0)) }
    power := { s.power with hcGated := s.power.hcGated.filter (fun x => x.val ≠ h) }
    ras := { s.ras with misses := KV.del s.ras.misses h } }

/-- Step 4 of Table 15-9: half 0's mesh runs, and HIF_READY can be read. -/
def State.dieMesh (s : State) : State :=
  let s := s.setRf oReady 0 0 1
  if s.tierReady then s.raiseReady rdTier else s

/-- Steps 5 and 6 of Table 15-9. -/
def State.dieBack (s : State) : State := s.raiseRestarts.dieUp.raiseReady rdOptics

/-- Whether a reset can complete: the images of a die warm reset still match (R439), and a module
reset has run the start-up sequence. -/
def State.canComplete (s : State) (d : Domain) : Bool :=
  match d with
  | .dieWarm => (s.bank s.sec.running).hashOk
  | .module => s.board.upSteps = 2
  | _ => true

def State.completeReset (s : State) (d : Domain) : State :=
  match s.ras.resets.find? (fun r => r.dom = d), s.canComplete d with
  | some r, true =>
    if d = .dieWarm ∧ !s.meshBack then s.dieMesh
    else
    let s := { s with ras := { s.ras with resets := s.ras.resets.filter (fun x => x.dom ≠ d) } }
    match d with
    | .engine c e =>
      let x := s.resetSlots c.val ((r.slots.map (·.val)).filter (fun sl => (s.slot c.val sl).doomed))
      let r := { r with claims := x.1, lists := x.2.1 }
      let s := x.2.2.modCore c.val (fun k => { k.restartWindows with inReset := k.inReset.filter (· ≠ e) })
      (s.postReset r stOk r.fromLevel).afterCore c.val
    | .hostClass h => (s.releaseHc h.val).postReset r stOk r.fromLevel
    | .core c =>
      let x := s.coresBack [c.val] r
      (x.2.postReset x.1 stOk r.fromLevel).unfence r
    | .cluster k =>
      let x := s.coresBack (coresOf (.cluster k)) r
      (x.2.postReset x.1 stOk r.fromLevel).unfence r
    | .fabricPort _ => s.postReset r stOk r.fromLevel
    | .damson k => (s.setDam k.val { s.dam k.val with inReset := false }).postReset r stOk r.fromLevel
    | .dieWarm => (s.dieBack.postReset r stOk r.fromLevel).unfence r
    | .module => (s.postReset r stOk r.fromLevel).unfence r
  | _, _ => s

def execResetComplete (d : Domain) (s : State) : Host.Outcome State Fault Refusal := .next (s.completeReset d)

/-! ### Hang records (R404 to R406) -/

/-- What a HANG record tells (Table 15-3). -/
structure Hang where
  detect : Nat := 0
  action : Nat := 0
  kind : Nat := 1
  src : Nat := 0
  engine : Nat := 7
  ctx : Nat := 0xFFFF
  off : Nat := 0xFFFFFFFF
  slot : Nat := 0xFF
  queued : Nat := 0
  window : Nat := 15000000
  count : Nat := 0
  last : Nat := 0
  addr : Nat := 0
  tag : Nat := 0
  deriving DecidableEq, Repr

def State.postHang (s : State) (h : Hang) : State :=
  s.postCtx { typ := evHang, husk := true, kind := h.kind, src := h.src, engine := h.engine, ctx := h.ctx, offset := h.off
              payload := pack [(8, h.detect), (8, h.action), (8, h.slot), (8, min 255 h.queued), (32, h.window), (64, h.count),
                (64, h.last), (64, h.addr), (64, h.tag)] }

/-- The head of an engine's work: slot and offset of the oldest command in execution or queued;
for the sequencer, of the lowest active slot. -/
def Core.headOf (k : Core) (e : Nat) : Option (Nat × Nat) :=
  if e = 4 then
    match (activeSlots k).find? (fun i => !(k.slot i).atWait) with
    | some i => some (i, (k.slot i).pc.toNat)
    | none => (activeSlots k).head?.map (fun i => (i, (k.slot i).pc.toNat))
  else
    let prog := match e, k.program with
      | 3, some p => [(p.ent.slot.val, p.ent.off.toNat)]
      | _, _ => []
    (prog ++ (k.run e ++ k.queue e).map (fun q => (q.slot.val, q.off.toNat))).head?

/-- A progress HANG of an engine of a core (Table 15-3). -/
def State.engineHang (s : State) (c e action window : Nat) : State :=
  let k := s.core c
  let m : Monitor := KV.get {} k.mons e
  let h : Hang := match k.headOf e with
    | none => {}
    | some (sl, off) => { ctx := (k.slot sl).ctx.toNat, off := off, slot := sl, addr := (k.slot sl).listAddr.toNat, tag := hTag (k.slot sl).hdr }
  s.postHang { h with action := action, src := c, engine := e, queued := (k.queue e).length, window := window, count := m.count.toNat, last := m.since.toNat }

/-! ### A bound that passes (R408, R411) -/

def State.moduleAgain (s : State) (r : RunReset) : State :=
  if r.retried then
    let s := (s.setRf oReady 4 4 1).setRf oAlert 2 2 1
    { s.releaseSwitches with board := { s.releaseSwitches.board with faultModule := true } }
  else (s.postReset r stEscalated 7).requestReset .module 4 (again := true)

def State.boundPasses (s : State) (d : Domain) : State :=
  match s.ras.resets.find? (fun r => r.dom = d) with
  | none => s
  | some r =>
    let s := { s with ras := { s.ras with
        resets := s.ras.resets.filter (fun x => x.dom ≠ d)
        clearing := (match d with | .core c => s.ras.clearing.filter (· ≠ c.val) | _ => s.ras.clearing)
        clearingCl := (match d with | .cluster k => s.ras.clearingCl.filter (· ≠ k.val) | _ => s.ras.clearingCl) } }
    match d with
    | .engine c _ => (s.postReset r stEscalated 2).requestReset (.core c) 4 r.ctx r.listAddr (force := true)
    | .hostClass h =>
      if userHc h.val then
        let s := { s with power := { s.power with hcGated := insertOnce s.power.hcGated h } }
        s.postHang { detect := 1, kind := 2, src := h.val, ctx := s.hcCtxOf h.val, last := (KV.get 0 s.ras.lastBeat h.val).toNat }
      else (s.postReset r stEscalated 6).requestReset .dieWarm 4
    | .core c => (s.postReset r stEscalated 8).startFence c 0
    | .cluster k => (s.postReset r stEscalated 9).fenceCluster k 0 true
    | .fabricPort x => s.failDim x.val
    | .damson _ => (s.postReset r stEscalated 7).requestReset .module 4
    | .dieWarm => (s.postReset r stEscalated 7).requestReset .module 4
    | .module => s.moduleAgain r

def execResetBoundExpiry (d : Domain) (s : State) : Host.Outcome State Fault Refusal := .next (s.boundPasses d)

/-! ### The hang monitor (R403, R404) -/

/-- Commands of a core that an engine holds, by slot. -/
def Core.owners (k : Core) (e : Nat) : List Nat := (k.slotsIn e).map (·.val)

/-- The engine owes progress. -/
def Core.owes (k : Core) (e : Nat) : Bool := !(k.owners e).isEmpty

/-- The slot is held at a WAIT with a timeout. -/
def State.timedWait (s : State) (c sl : Nat) : Bool :=
  s.sync.waits.any (fun (r : WaitRec) => r.timed && r.who = .unit (.slot (coreId c) (BitVec.toFin (BitVec.ofNat 2 sl))))

/-- Every slot of the sequencer is suspended for a translation (R209). -/
def Core.seqSuspended (k : Core) : Bool := !(activeSlots k).isEmpty && (activeSlots k).all (fun sl => (k.slot sl).xltFault)

/-- The window of an engine does not run. -/
def State.windowPaused (s : State) (c e : Nat) : Bool :=
  let k := s.core c
  (decide (e = 3) && k.xltAcc) || (decide (e = 4) && k.seqSuspended) || k.down e || k.parked ||
    (k.owners e).any (fun sl => (k.slot sl).draining) ||
    (!(activeSlots k).isEmpty && (activeSlots k).all (fun sl => s.timedWait c sl))

/-- Hang mode of the function that owns a context. -/
def State.ctxMode (s : State) (ctx : Nat) : Nat := s.rf (oHangMode (min 8 (ceFunc (s.ctxEntry ctx).1))) 2 0

/-- The engine's window: the least HANG_TICKS of the contexts with commands in it, 500 ms where
it is 0; none where none of them is under PROGRESS. -/
def State.hangWindow (s : State) (c e : Nat) : Option Nat :=
  let cs := ((s.core c).owners e).map (fun sl => s.ctxOf c sl)
  let cs := cs.filter (fun x => s.ctxMode x % 2 = 1)
  let w (x : Nat) : Nat := let t := ceHang (s.ctxEntry x).1; if t = 0 then 25000000 else t
  match cs with
  | [] => none
  | x :: l => some (l.foldl (fun m y => min m (w y)) (w x))

/-- An update part of the core's runs at a Damson: it processes parameters (R284). -/
def State.damsonWorks (s : State) (c : Nat) : Bool :=
  s.damsons.any (fun e => match e.2.running with
    | some r => r.part.core.val = c && !r.part.lost
    | none => false)

/-- One sample of one engine: its monitor, and whether it hangs. -/
def State.sampleEngine (s : State) (c e : Nat) : Monitor × Bool :=
  let k := s.core c
  let m : Monitor := KV.get {} k.mons e
  let moved := decide (m.count ≠ m.seen) || (decide (e = 3) && s.damsonWorks c)
  match k.owes e, s.hangWindow c e with
  | true, some w =>
    if moved then ({ m with seen := m.count, since := s.aon, stale := 1 }, false)
    else if s.windowPaused c e then (m, false)
    else
      let m := { m with stale := m.stale + 1 }
      (m, decide (w ≤ (m.stale - 1) * 50000))
  | _, _ => ({ m with seen := m.count, since := if moved then s.aon else m.since, stale := 0 }, false)

def State.setMon (s : State) (c e : Nat) (m : Monitor) : State :=
  s.modCore c (fun k => { k with mons := KV.put {} k.mons e m })

/-- Hung engines of a core, the one that stopped first in front. -/
def firstStopped (l : List (Nat × Monitor)) : Option Nat :=
  (l.foldl (fun (b : Option (Nat × Monitor)) x => match b with
    | none => some x
    | some y => if y.2.stale < x.2.stale then some x else some y) none).map (·.1)

def State.engineAt (c : CoreId) (e : Nat) : Domain := .engine c (allEngines.getD e .sequencer)

/-- A sample of one core (R404). -/
def State.sampleCore (s : State) (c : Nat) : State :=
  let r := (List.range 5).map (fun e => (e, s.sampleEngine c e))
  let s := r.foldl (fun s x => s.setMon c x.1 x.2.1) s
  let hung := (r.filter (fun x => x.2.2)).map (fun x => (x.1, x.2.1))
  let k := s.core c
  let noact (e : Nat) : Bool := match k.headOf e with
    | some (sl, _) => decide (4 ≤ s.ctxMode (k.slot sl).ctx.toNat)
    | none => false
  let act := firstStopped (hung.filter (fun x => !noact x.1))
  let s := hung.foldl (fun s x =>
    let a := if noact x.1 then 0 else if act = some x.1 then 1 else 3
    (s.engineHang c x.1 a ((s.hangWindow c x.1).getD 0)).setMon c x.1 { x.2 with stale := 1 }) s
  match act with
  | none => s
  | some e =>
    let h := k.headOf e
    let sl := (h.map (·.1)).getD 0
    s.requestReset (State.engineAt (coreId c) e) 2 (k.slot sl).ctx (k.slot sl).listAddr

/-- HANG_SAMPLE: nothing on a die in reset is sampled (R412). -/
def execHangSample (s : State) : Host.Outcome State Fault Refusal :=
  .next (if s.dieResetting then s else (s.cores.map (·.1)).foldl (fun s c => if s.fenced c then s else s.sampleCore c) s)

/-! ### Heartbeats (R405) -/

/-- A beat of a host-class core. -/
def State.beat (s : State) (h : Nat) : State :=
  { s with ras := { s.ras with beats := KV.put false s.ras.beats h true, lastBeat := KV.put 0 s.ras.lastBeat h s.aon } }

def execRasHb (a : Agent) (n : HcId) (s : State) : Host.Outcome State Fault Refusal :=
  .next (
    if s.permits a .rasHb n.val then s.beat n.val else s)

/-- The host-class core must beat. -/
def State.mustBeat (s : State) (h : Nat) : Bool :=
  let inReset := s.ras.resets.any (fun r => match r.dom with | .hostClass x => x.val = h | _ => false)
  let gated := s.power.hcGated.any (fun x => x.val = h)
  !inReset && !gated &&
    (!userHc h || (ceValid (s.ctxEntry (s.hcCtxOf h)).1 && decide (2 ≤ s.ctxMode (s.hcCtxOf h) % 4)))

/-- Three misses in a row: the record and the reset. A firmware core reset three times within an
hour takes the die with it. -/
def State.missedBeats (s : State) (h : HcId) : State :=
  let user := userHc h.val
  let ctx := if user then s.hcCtxOf h.val else 0xFFFF
  let noact := user && decide (4 ≤ s.ctxMode ctx)
  let s := { s with ras := { s.ras with misses := KV.del s.ras.misses h.val } }
  let s := s.postHang { detect := 1, action := if noact then 0 else 2, kind := 2, src := h.val, ctx := ctx
                        last := (KV.get 0 s.ras.lastBeat h.val).toNat }
  if noact then s
  else if user then s.requestReset (.hostClass h) 5 (BitVec.ofNat 16 ctx)
  else
    let old := (KV.get [] s.ras.hbResets h.val).filter (fun t => decide ((s.aon - t).toNat < 180000000000))
    let s := { s with ras := { s.ras with hbResets := KV.put [] s.ras.hbResets h.val (old ++ [s.aon]) } }
    if 2 ≤ old.length then
      let r : RunReset := { dom := .hostClass h, fromLevel := 1, cause := 5, target := h.val, requested := s.aon }
      (s.postReset r stEscalated 6).requestReset .dieWarm 4
    else s.requestReset (.hostClass h) 5

/-- An interval of 100 ms ends; it is also the mark of R347's records. -/
def execHeartbeatInterval (s : State) : Host.Outcome State Fault Refusal :=
  .next (
    let beats := s.ras.beats
    let s := { s with ras := { s.ras with beats := [] }, fab := { s.fab with absentSent := [] } }
    if s.dieResetting then s
    else
      (List.range 16).foldl (fun s h =>
        if KV.get false beats h || !s.mustBeat h then { s with ras := { s.ras with misses := KV.del s.ras.misses h } }
        else
          let n := KV.get 0 s.ras.misses h + 1
          if 3 ≤ n then s.missedBeats (BitVec.toFin (BitVec.ofNat 4 h))
          else { s with ras := { s.ras with misses := KV.put 0 s.ras.misses h n } }) s)

/-! ### The preemption bound (R126) -/

/-- The engine that holds a drain: the first with a command of the slot in execution, else the
sequencer. -/
def Core.drainEngine (k : Core) (sl : Nat) : Nat :=
  match [0, 1, 2].find? (fun e => (k.run e).any (fun q => q.slot.val = sl)) with
  | some e => e
  | none =>
    let prog := match k.program with | some p => p.ent.slot.val = sl | none => false
    if (k.run 3).any (fun q => q.slot.val = sl) || prog then 3 else 4

def execPreemptBoundExpiry (c : CoreId) (sl : SlotId) (s : State) : Host.Outcome State Fault Refusal :=
  .next (
    let k := s.core c.val
    let x := k.slot sl.val
    if !(x.active && x.draining) || x.doomed || x.stopping.isSome || k.drained sl.val then s
    else
      let e := k.drainEngine sl.val
      let w := ([1500000, 1750000, 2100000, 3000000] : List Nat).getD (s.effProfile (halfOf c.val)) 0
      let m : Monitor := KV.get {} k.mons e
      let s := s.postHang { action := 1, src := c.val, engine := e, ctx := x.ctx.toNat, slot := sl.val
                            off := ((k.run e).find? (fun q => q.slot = sl)).elim 0xFFFFFFFF (fun q => q.off.toNat)
                            queued := (k.queue e).length, window := w, count := m.count.toNat, last := m.since.toNat
                            addr := x.listAddr.toNat, tag := hTag x.hdr }
      let s := s.requestReset (State.engineAt c e) 3 x.ctx x.listAddr
      s.savePreempted c.val sl.val 5)

end Sys2Proof.Machine
end

