-- ==== Sys2Proof/Machine/Husk.lean ====
section
/-! DEFINITION. The Husk store, its readout, ageing and telemetry (R424 to R436, R456). -/

namespace Sys2Proof.Machine

/-! ### Records (R424 to R427) -/

/-- Pip writes the oldest queued record, unless it is held in reset (R33). -/
def execHuskRecordWrite (s : State) : Host.Outcome State Fault Refusal :=
  .next (if s.board.pipReset then s else s.writeRecord)

/-! ### NOR (R428) -/

def logBlocks : Nat := 3776

/-- Log blocks in the rotation. -/
def Husk.logSize (h : Husk) : Nat := logBlocks - h.retired.length

/-- The block that stands for block b once spares have replaced it. -/
def physBlock (bad : List Nat) : Nat → Nat → Nat
  | 0, b => b
  | f + 1, b => match bad.findIdx? (· = b) with
    | some j => physBlock bad f (4032 + j)
    | none => b

def Husk.phys (h : Husk) (b : Nat) : Nat := physBlock h.badBlocks 64 b

def Husk.spares (h : Husk) : Nat := 64 - h.badBlocks.length

/-- The next log block of the rotation, from position p. -/
def Husk.nextBlock (h : Husk) (p : Nat) : Nat :=
  match (List.range (h.retired.length + 1)).find? (fun i => !h.retired.contains ((p + i) % logBlocks)) with
  | some i => (p + i) % logBlocks
  | none => p

def Husk.erase (h : Husk) (b : Nat) : Husk := { h with erases := KV.upd 0 h.erases (h.phys b) (· + 1) }

/-- RSEQ of the oldest record still held. -/
def Husk.oldestNow (h : Husk) : Nat :=
  let nor := (h.norNext / 256 - h.logSize) * 256
  if h.norNext = 0 then h.next - mramSlots else nor

/-- The next group of 256 goes into log block b. -/
def Husk.program (h : Husk) (b : Nat) : Husk :=
  let h' := h.erase b
  let n := h.norNext
  let nor := (List.range 256).foldl (fun m i => KV.put 0 m (n + i) (h.copyA (n + i))) h'.nor
  let h' := { h' with nor := nor, norNext := n + 256, norPos := (b + 1) % logBlocks }
  { h' with nor := h'.nor.filter (fun e => decide (h'.oldestNow ≤ e.1)), oldest := h'.oldestNow }

/-- DAYS of a register of Table 15-21. -/
def State.eolDays (s : State) (reg : Nat) : Nat := s.rf (oEol + 4 * reg) 15 0

/-- PIP_ALERT.EOL is set below 30 days (R456). -/
def State.eolAlert (s : State) : State :=
  if s.eolDays 0 < 30 ∨ s.eolDays 1 < 30 then s.setRf oAlert 4 4 1 else s

/-- An AGEING record (R436). -/
def State.postAgeing (s : State) (reg : Nat) (x : AgeingSample) : State :=
  s.post 0 { typ := evAgeing, kind := 8, payload := pack [(8, reg), (8, x.item.toNat), (8, x.inst.toNat), (8, 0), (16, x.days.toNat), (16, 0),
    (64, x.value.toNat), (64, x.limit.toNat), (64, x.slope.toNat)] }

/-- RAS_EOL or RAS_EOL_FRU takes a prediction. -/
def State.setEol (s : State) (reg : Nat) (x : AgeingSample) : State :=
  s.setRg (oEol + 4 * reg) (BitVec.ofNat 64 (pack [(16, x.days.toNat), (4, x.item.toNat), (8, x.inst.toNat)]))

/-- Thresholds of R436 that a prediction has passed. -/
def eolLevel (days : Nat) : Nat := if days = 0 then 4 else if days < 30 then 3 else if days < 90 then 2 else if days < 365 then 1 else 0

/-- The first block retired without a replacement (R428); the measured values are free. -/
def State.firstRetired (s : State) : State :=
  let v := s.freeVal 192
  let x : AgeingSample := { item := 6, inst := 0, value := v.extractLsb' 0 64, limit := v.extractLsb' 64 64, slope := v.extractLsb' 128 64, days := 0 }
  (((s.took.setEol 0 x).postAgeing 0 x).eolAlert)

/-- NOR_COPY: a group is copied. A block that fails is replaced by a spare; without one it is
retired, and the group goes to the next block later. -/
def State.norCopy (s : State) (blockFails : Bool) : State :=
  let h := s.husk
  if h.ringMode || decide (h.next < h.norNext + 256) then s
  else
    let b := h.nextBlock h.norPos
    if !blockFails then { s with husk := h.program b }
    else if 0 < h.spares then
      { s with husk := { h.erase b with badBlocks := h.badBlocks ++ [h.phys b] }.program b }
    else
      let h' := { h with retired := h.retired ++ [b], norPos := (b + 1) % logBlocks }
      let h' := { h' with ringMode := decide (h'.logSize < 16), oldest := h'.oldestNow
                          nor := h'.nor.filter (fun e => decide (h'.oldestNow ≤ e.1)) }
      let s := { s with husk := h' }
      if h.retired.isEmpty then s.firstRetired else s

/-- Pip, which copies and measures, does neither while it is held in reset (R33). -/
def execNorCopy (blockFails : Bool) (s : State) : Host.Outcome State Fault Refusal :=
  .next (if s.board.pipReset then s else s.norCopy blockFails)

/-! ### Readout (R431) -/

/-- A record that is still held. -/
def Husk.record (h : Husk) (r : Nat) : Option (BitVec 2048) :=
  if h.next ≤ r then none
  else if h.next ≤ r + mramSlots then some (h.copyA r)
  else (h.nor.find? (fun e => e.1 = r)).map (·.2)

/-- A write to BBX_SEL: the fetch begins. -/
def State.selectRecord (s : State) (v : BitVec 64) : State :=
  (s.setRg oBbxSel v).setRf oBbxStat 1 0 1

def execBbxSel (a : Agent) (v : BitVec 64) (s : State) : Host.Outcome State Fault Refusal :=
  .next (if s.permits a .bbxSel 0 then s.selectRecord v else s)

def execBbxFetchDone (s : State) : Host.Outcome State Fault Refusal :=
  .next (if s.rf oBbxStat 0 0 = 1 ∧ s.board.pipReset = false then
      s.setRf oBbxStat 1 0 (2 * b2n (s.husk.record (s.rg oBbxSel).toNat).isSome)
    else s)

/-- BBX_DATA: the selected record where SEL_VALID is set, else zero. -/
def State.bbxData (s : State) : BitVec 2048 :=
  if s.rf oBbxStat 1 1 = 1 then (s.husk.record (s.rg oBbxSel).toNat).getD 0 else 0

/-- BBX_SIG: the signature of a selected checkpoint. -/
def State.bbxSig (s : State) : BitVec 37016 :=
  if s.rf oBbxStat 1 1 = 1 then KV.get 0 s.husk.sigs (s.rg oBbxSel).toNat else 0

/-! ### Ageing (R434 to R436) -/

/-- Items whose parts are field-replaceable. -/
def replaceable (x : AgeingSample) : Bool := x.item = 3 || x.item = 5

/-- The earliest prediction, the first among equals. -/
def earliest : List AgeingSample → Option AgeingSample
  | [] => none
  | x :: l => match earliest l with
    | none => some x
    | some y => if y.days.toNat < x.days.toNat then some y else some x

/-- One register of Table 15-21 at a calibration: AGEING_RECORD. -/
def State.ageReg (s : State) (reg : Nat) (l : List AgeingSample) : State :=
  match earliest l with
  | none => s
  | some x =>
    let item := s.rf (oEol + 4 * reg) 19 16
    let seen := KV.get 0 s.husk.eolSeen reg
    let lv := eolLevel x.days.toNat
    let s := (s.setEol reg x)
    let s := { s with husk := { s.husk with eolSeen := KV.put 0 s.husk.eolSeen reg (max seen lv) } }
    if seen < lv ∨ item ≠ x.item.toNat then s.postAgeing reg x else s

/-- A calibration. How the AGEING record packs its seven values is a free value (log 36). -/
def execAgeingCalibration (samples : List AgeingSample) (s : State) : Host.Outcome State Fault Refusal :=
  .next (if s.board.pipReset then s
    else
    let s := s.took.husk' 6 0 (s.freeVal 320)
    ((s.ageReg 0 (samples.filter (fun x => !replaceable x))).ageReg 1 (samples.filter replaceable)).eolAlert)

/-! ### Telemetry (R433, R456) -/

/-- The hottest junction of a sample: its sensor among the clusters', the lowest among equals. -/
def hotSensor (l : List (BitVec 8)) : Nat × Nat :=
  ((l.take 120).zipIdx).foldl (fun b x => if b.1 < x.1.toNat then (x.1.toNat, x.2) else b) (0, 0)

/-- Alert conditions that hold at a sample (R456). -/
def State.sampleAlerts (s : State) (hot : Nat) : State :=
  let v := b2n (95 ≤ hot) + 2 * b2n s.board.thrUnstable + 4 * s.rf oReady 4 4 + 8 * b2n (s.board.hold && !s.board.pipReset)
  (s.setRg oAlert (s.rg oAlert ||| BitVec.ofNat 64 v)).eolAlert

/-- TELEMETRY_SAMPLE, which Pip makes unless it is held in reset (R33); a late answer or response may be reported again. -/
def State.sampleTelemetry (s : State) (t : Telemetry) : State :=
  let h := hotSensor t.sensors
  let s := s.setRg oTelem (BitVec.ofNat 64 (pack [(32, t.power.toNat), (32, t.volt.toNat)]))
  let s := s.setRg (oTelem + 8) (BitVec.ofNat 64 (pack [(8, h.1), (8, h.2 / 2)]))
  let s := (List.range 17).foldl (fun s i => s.setRg (oSens + 8 * i) (BitVec.ofNat 64 (leNat ((t.sensors.drop (8 * i)).take 8)))) s
  let s := { s with fab := { s.fab with lateSent := [] }, sync := { s.sync with lateSent := [] } }
  s.sampleAlerts h.1

def execTelemetrySample (t : Telemetry) (s : State) : Host.Outcome State Fault Refusal :=
  if t.sensors.length ≠ 136 then .fault .illFormed else .next (if s.board.pipReset then s else s.sampleTelemetry t)

def execTelemetryEvent (s : State) : Host.Outcome State Fault Refusal :=
  .next (
    if s.rf oTelemEvt 15 0 = 0 || s.board.pipReset then s
    else s.post 0 { typ := evTelemetry, kind := 8, payload := pack [(64, (s.rg oTelem).toNat), (8, s.rf (oTelem + 8) 7 0),
        (8, s.rf (oTelem + 8) 15 8), (48, 0), (64, (s.rg oEnergy).toNat)] })

end Sys2Proof.Machine
end

