-- ==== Sys2Proof/Machine/HostIf.lean ====
section
/-! DEFINITION. The host interface: rings and their descriptors, event queues, contexts,
partitions, aperture windows, ATS invalidations and FLR (R372 to R398). -/

namespace Sys2Proof.Machine

/-! ### Descriptors (Table 14-9) -/

def dOp (d : BitVec 512) : Nat := fld d 3 0
def dTmode (d : BitVec 512) : Nat := fld d 5 4
def dEvq (d : BitVec 512) : Nat := fld d 13 8
def dCtx (d : BitVec 512) : Nat := fld d 31 16
def dTarget (d : BitVec 512) : Nat := fld d 47 32
def dAddr (d : BitVec 512) : Nat := fld d 127 64

/-- Alignment of ADDR: a header, a save image, and zero for a PREEMPT (R105, R127). -/
def dAligned (d : BitVec 512) : Bool :=
  match dOp d with
  | 0 => dAddr d % 64 = 0
  | 1 => dAddr d % 4096 = 0
  | _ => dAddr d = 0

/-- Step 2 of R382. -/
def descLegal (d : BitVec 512) : Bool :=
  decide (dOp d ≤ 2) && decide (dTmode d ≤ 1) && decide (fld d 7 6 = 0) && decide (fld d 15 14 = 0) &&
    decide (fld d 63 48 = 0) && decide (fld d 511 192 = 0) && dAligned d &&
    (if dTmode d = 0 then decide (dTarget d < 960) else decide (dTarget d < 64) && decide (dOp d ≠ 2))

/-! ### Partitions (Table 14-5) -/

def State.part (s : State) (n : Nat) : BitVec 64 := s.rg (oPart n)

def partHolds (p : BitVec 64) (c : Nat) : Bool :=
  decide (fld p 5 0 ≤ coreX c) && decide (coreX c ≤ fld p 11 6) && decide (fld p 16 12 ≤ coreY c) && decide (coreY c ≤ fld p 21 17)

/-- A valid partition of a function. -/
def partOf (p : BitVec 64) (f : Nat) : Bool := bit p 31 && decide (fld p 30 27 = f)

/-- Cores that a descriptor may target. -/
def State.targets (s : State) (d : BitVec 512) : List Nat :=
  if dTmode d = 0 then [dTarget d] else (List.range 960).filter (partHolds (s.part (dTarget d)))

/-- Step 4 of R382. -/
def State.targetOwned (s : State) (f : Nat) (d : BitVec 512) : Bool :=
  if dTmode d = 0 then
    decide (f = 0) || (List.range 64).any (fun n => partOf (s.part n) f && partHolds (s.part n) (dTarget d))
  else if f = 0 then bit (s.part (dTarget d)) 31
  else partOf (s.part (dTarget d)) f

def State.evqOwner (s : State) (q : Nat) : Nat := s.rf (oEvqCtl q) 51 48

/-- Step 3 of R382. -/
def State.ctxUsable (s : State) (f ctx : Nat) : Bool × State :=
  let x := s.ctxEntry ctx
  (ceValid x.1 && decide (ceFunc x.1 = f) && decide (x.2.evqOwner (ceEvq x.1) = f), x.2)

/-- Steps 2 to 5 of R382: the status of a descriptor that fails. -/
def State.descCheck (s : State) (f : Nat) (d : BitVec 512) : Option (BitVec 8) × State :=
  if !descLegal d then (some stIllegal, s)
  else
    let x := s.ctxUsable f (dCtx d)
    if !x.1 then (some stIllegal, x.2)
    else if !x.2.targetOwned f d then (some stIllegal, x.2)
    else if !(x.2.targets d).any x.2.available then (some stFenced, x.2)
    else (none, x.2)

/-! ### Taking a descriptor (R382 to R384) -/

/-- A descriptor refused at its ring: its COMPLETION, and the entry is done with. -/
def State.refuseDesc (s : State) (f : FuncId) (r : RingId) (d : BitVec 512) (idx : BitVec 32) (st : BitVec 8) : State :=
  let s := s.post (dEvq d)
    { typ := evCompletion, status := st, kind := 9, src := f.val, ctx := dCtx d
      payload := pack [(64, 0), (64, fld d 191 128), (64, dAddr d), (32, 0), (8, 0), (8, endRefused),
        (16, f.val * 256 + r.val), (32, idx.toNat), (32, 0)] }
  s.advance f.val r.val

/-- The core with the fewest lists, the first among equals. -/
def State.leastLoaded (s : State) : List Nat → Option Nat
  | [] => none
  | c :: l =>
    let load (c : Nat) : Nat := (s.core c).ready.length + (activeSlots (s.core c)).length
    match s.leastLoaded l with
    | none => some c
    | some b => if load b < load c then some b else some c

def State.placeOn (s : State) (d : BitVec 512) : Option Nat :=
  s.leastLoaded ((s.targets d).filter (fun c => s.available c && (s.core c).readyRoom))

def descOrigin (f : FuncId) (r : RingId) (d : BitVec 512) (idx : BitVec 32) : Origin :=
  .ring f r idx (d.extractLsb' 128 64) (d.extractLsb' 8 6)

/-- A SUBMIT or RESTORE enters the ready set of one core, or waits (R383). -/
def State.placeDesc (s : State) (f : FuncId) (r : RingId) (d : BitVec 512) (idx : BitVec 32) : State :=
  match s.placeOn d with
  | some c =>
    (s.enterReady c { addr := d.extractLsb' 64 64, ctx := d.extractLsb' 16 16, origin := descOrigin f r d idx
                      restore := dOp d = 1 }).advance f.val r.val
  | none => s.setRing f.val r.val { s.ring f.val r.val with waiting := some (d, idx) }

/-- A slot that a list holds which cannot start for a translation fault is freed with it. -/
def Core.freeStarting (k : Core) (addr : BitVec 64) : Core :=
  [0, 1, 2, 3].foldl (fun k i =>
    let x := k.slot i
    if !x.active && x.xltFault && x.listAddr = addr then k.setSlot i {} else k) k

/-- A PREEMPT: lists of its context that have not started are withdrawn, those in slots are
preempted, and those without a save area run on (R384). -/
def State.preemptDesc (s : State) (f : FuncId) (r : RingId) (d : BitVec 512) (idx : BitVec 32) : State :=
  let c := dTarget d
  let k := s.core c
  let es := k.ready.filter (fun e => e.ctx.toNat = dCtx d)
  let mine := (activeSlots k).filter (fun i => (k.slot i).ctx.toNat = dCtx d)
  let sls := mine.filter (fun i => hSave (k.slot i).hdr ≠ 0)
  let s := es.foldl (fun s e => (s.withdrawEntry c e stOk).modCore c (fun k => k.freeStarting e.addr)) s
  let s := if sls.isEmpty then s.wakeCore c else s.preemptCtx c (dCtx d) (some (f, r))
  s.holdPreempt { func := f, ring := r, desc := d, index := idx, core := coreId c, ended := es.length
                  slots := sls.map (fun i => BitVec.toFin (BitVec.ofNat 2 i)), failed := decide (sls.length ≠ mine.length) }

/-- PCIe address of entry i of a ring (R381). -/
def State.entryAddr (s : State) (f r : Nat) (i : BitVec 32) : Nat :=
  let a := s.rg (oRing f r)
  a.toNat - fld a 11 0 + 64 * (i.toNat % ringCount a)

/-- The ring takes the entry at C. What the read of host memory at its address returns is `d` (log 97). -/
def State.takeDesc (s : State) (f : FuncId) (r : RingId) (d : BitVec 512) : State :=
  let idx := (s.ring f.val r.val).cons
  let s := s.putNum (hostKey (s.entryAddr f.val r.val idx)) 64 d.toNat
  if s.evqOwner (dEvq d) ≠ f.val ∨ s.evqOn (dEvq d) = false then s.ringError f.val r.val 2
  else
    match s.descCheck f.val d with
    | (some st, s) => s.refuseDesc f r d idx st
    | (none, s) => if dOp d = 2 then s.preemptDesc f r d idx else s.placeDesc f r d idx

/-- The ring is polling, and the doorbell it read lies past C (R387). -/
def State.canTake (s : State) (f r : Nat) : Bool :=
  ownsRing f r && s.ringOn f r && s.ringPolling f r && decide ((s.ring f r).cons ≠ (s.ring f r).doorbell) &&
    !s.ringBusy f r && s.hif.linkUp && !s.dieResetting

def execSubmit (f : FuncId) (r : RingId) (d : BitVec 512) (s : State) : Host.Outcome State Fault Refusal :=
  .next (if dOp d ≠ 1 ∧ dOp d ≠ 2 ∧ s.canTake f.val r.val then s.takeDesc f r d else s)

def execRestore (f : FuncId) (r : RingId) (d : BitVec 512) (s : State) : Host.Outcome State Fault Refusal :=
  .next (if dOp d = 1 ∧ s.canTake f.val r.val then s.takeDesc f r d else s)

def execPreempt (f : FuncId) (r : RingId) (d : BitVec 512) (s : State) : Host.Outcome State Fault Refusal :=
  .next (if dOp d = 2 ∧ s.canTake f.val r.val then s.takeDesc f r d else s)

/-- A waiting descriptor is tried again; one whose cores are no longer available is refused. -/
def State.placeWaiting (s : State) (f : FuncId) (r : RingId) : State :=
  match (s.ring f.val r.val).waiting with
  | none => s
  | some (d, idx) =>
    if s.dieResetting then s
    else if (s.targets d).any s.available then s.placeDesc f r d idx
    else s.refuseDesc f r d idx stFenced

def execDescriptorPlacement (f : FuncId) (r : RingId) (s : State) : Host.Outcome State Fault Refusal :=
  .next (s.placeWaiting f r)

/-! ### Doorbells (R385, R387) -/

/-- A read of DOORBELL returns: an overrun stops the ring. -/
def State.readDoorbell (s : State) (f r : Nat) (v : BitVec 32) : State :=
  if ringCount (s.rg (oRing f r)) < (v - (s.ring f r).cons).toNat then s.ringError f r 1
  else s.setRing f r { s.ring f r with doorbell := v }

/-- The ring can read its control block. -/
def State.ringLive (s : State) (f r : Nat) : Bool := ownsRing f r && s.ringOn f r && s.hif.linkUp && !s.dieResetting

def execDoorbellPoll (f : FuncId) (r : RingId) (doorbell : BitVec 32) (s : State) : Host.Outcome State Fault Refusal :=
  .next (if s.ringLive f.val r.val && s.ringPolling f.val r.val then s.readDoorbell f.val r.val doorbell else s)

/-- The ring goes idle unless the re-read of DOORBELL differs from C. -/
def State.goIdle (s : State) (f r : Nat) (v : BitVec 32) : State :=
  let c := (s.ring f r).cons
  let s := s.putNum (s.ringBlock f r 8) 4 c.toNat
  if v = c then s.setRf (oRingCtl f r) 1 1 0 else (s.enterPolling f r).readDoorbell f r v

def execRingGoIdle (f : FuncId) (r : RingId) (doorbell : BitVec 32) (s : State) : Host.Outcome State Fault Refusal :=
  .next (
    if s.ringLive f.val r.val && s.ringPolling f.val r.val && !s.ringBusy f.val r.val &&
        decide ((s.ring f.val r.val).cons = (s.ring f.val r.val).doorbell) then s.goIdle f.val r.val doorbell
    else s)

def execRingIdlePoll (f : FuncId) (r : RingId) (doorbell : BitVec 32) (s : State) : Host.Outcome State Fault Refusal :=
  .next (
    if s.ringLive f.val r.val && !s.ringPolling f.val r.val && decide (doorbell ≠ (s.ring f.val r.val).cons) then
      s.enterPolling f.val r.val
    else s)

/-- A write to WAKE[r] of a function's page (R387, R483). -/
def State.wakeRing (s : State) (f r : Nat) : State :=
  if s.barOpen f && s.ringLive f r && !s.ringPolling f r then s.enterPolling f r else s

def execWake (f : FuncId) (r : RingId) (s : State) : Host.Outcome State Fault Refusal := .next (s.wakeRing f.val r.val)

/-! ### Ring and event-queue registers (R379, R380, R386, R390, R396) -/

/-- ENABLE of a ring is set. -/
def State.enableRing (s : State) (f r : Nat) : State :=
  let x := s.ring f r
  let s := (s.setRing f r { waiting := x.waiting, stale := x.waiting.isSome }).detachPreempts f r
  let s := (s.setRf (oRingCtl f r) 0 0 1).putNum (s.ringBlock f r 16) 4 0
  s.enterPolling f r

/-- ENABLE of a ring is cleared: a descriptor being carried out is finished first. -/
def State.disableRing (s : State) (f r : Nat) : State :=
  let s := s.setRf (oRingCtl f r) 0 0 0
  if s.ringBusy f r then s
  else (s.putNum (s.ringBlock f r 16) 4 (s.ring f r).cons.toNat).setRf (oRingCtl f r) 1 1 0

/-- A write to HIF_RING_CTL (Table 14-7). -/
def State.writeRingCtl (s : State) (f r : Nat) (v : BitVec 32) : State :=
  let o := oRingCtl f r
  let s := s.setRf o 15 8 (fld v 15 8)
  let s := if bit v 2 then s.setRf o 2 2 0 else s
  if bit v 0 then (if s.ringOn f r || decide (10 < s.rf (oRing f r) 3 0) then s else s.enableRing f r)
  else if s.ringOn f r then s.disableRing f r
  else s

def execRingEnable (f : FuncId) (r : RingId) (v : BitVec 32) (s : State) : Host.Outcome State Fault Refusal :=
  .next (if bit v 0 && ownsRing f.val r.val && s.barOpen f.val && s.answers .ringCtl then s.writeRingCtl f.val r.val v else s)

def execRingDisable (f : FuncId) (r : RingId) (v : BitVec 32) (s : State) : Host.Outcome State Fault Refusal :=
  .next (if !bit v 0 && ownsRing f.val r.val && s.barOpen f.val && s.answers .ringCtl then s.writeRingCtl f.val r.val v else s)

/-- ENABLE of an event queue is set: PRODUCER and SEQ restart at 0. -/
def State.enableEvq (s : State) (q : Nat) : State :=
  let s := (s.setRf (oEvqCtl q) 0 0 1).setEvq q {}
  let s := s.putNum (hostKey (s.rg (oEvqCb q)).toNat) 4 0
  if q = 0 then s.releaseReady else s

/-- A write of function f to HIF_EVQ_CTL (Table 14-11). -/
def State.writeEvqCtl (s : State) (f q : Nat) (v : BitVec 64) : State :=
  let o := oEvqCtl q
  let s := if f = 0 ∧ q ≠ 0 then s.setRf o 51 48 (fld v 51 48) else s
  let s := s.setRf o 47 22 (fld v 47 22)
  let s := if bit v 1 && bit (s.rg o) 1 then (s.setRf o 1 1 0).putBytes (hostKey ((s.rg (oEvqCb q)).toNat + 16)) [0] else s
  if bit v 0 then (if s.evqOn q || decide (10 < s.rf (oEvq q) 3 0) then s else s.enableEvq q)
  else s.setRf o 0 0 0

/-- Queues whose registers a function reaches (R390, R482). -/
def State.reachesEvq (s : State) (f q : Nat) : Bool := decide (f = 0) || decide (s.evqOwner q = f)

def execEvqEnable (f : FuncId) (q : EvqId) (v : BitVec 64) (s : State) : Host.Outcome State Fault Refusal :=
  .next (if bit v 0 && s.reachesEvq f.val q.val && s.barOpen f.val && s.answers .evqCtl then s.writeEvqCtl f.val q.val v else s)

/-- A queue that its CONSUMER shows full (R395). -/
def State.evqFull (s : State) (q : Nat) : Bool :=
  decide (ringCount (s.rg (oEvq q)) ≤ ((s.evq q).prod - (s.evq q).cons).toNat)

def execEvqConsumerReread (q : EvqId) (consumer : BitVec 32) (s : State) : Host.Outcome State Fault Refusal :=
  .next (if s.evqOn q.val && s.evqFull q.val then s.setEvq q.val { s.evq q.val with cons := consumer } else s)

def execMsixModerationTimeout (q : EvqId) (s : State) : Host.Outcome State Fault Refusal :=
  .next (
    if s.evqOn q.val && decide (0 < (s.evq q.val).unsent) && decide (s.rf (oEvqCtl q.val) 29 22 ≠ 0) then s.sendMsix q.val
    else s)

/-! ### Contexts, partitions, aperture (R374, R376 to R378) -/

/-- Cached entries that a write to HIF_CTX_INV names are dropped. -/
def State.dropCtx (s : State) (v : BitVec 32) : State :=
  { s with hif := { s.hif with ctxCache := s.hif.ctxCache.filter (fun e => !(bit v 16 || decide (e.1 = fld v 15 0))) } }

def State.startCtxInv (s : State) (v : BitVec 32) : State :=
  if s.hif.ctxInv.isSome then s
  else { s.dropCtx v with hif := { (s.dropCtx v).hif with ctxInv := some v } }

def execHifCtxInv (a : Agent) (v : BitVec 32) (s : State) : Host.Outcome State Fault Refusal :=
  .next (if s.permits a .ctxInv 0 then s.startCtxInv v else s)

def execCtxInvDone (s : State) : Host.Outcome State Fault Refusal :=
  .next (match s.hif.ctxInv with
    | none => s
    | some v => { s.dropCtx v with hif := { (s.dropCtx v).hif with ctxInv := none } })

/-- The value that a write leaves in HIF_PART: VALID stays 0 for a rectangle outside the grid. -/
def partWritten (v : BitVec 32) : Nat :=
  let good := decide (fld v 5 0 ≤ fld v 11 6) && decide (fld v 16 12 ≤ fld v 21 17) && decide (fld v 11 6 < 48) && decide (fld v 21 17 < 20)
  fld v 21 0 + fld v 30 27 * 2 ^ 27 + b2n (bit v 31 && good) * 2 ^ 31

def State.writePart (s : State) (n : Nat) (v : BitVec 32) : State := s.setRg (oPart n) (BitVec.ofNat 64 (partWritten v))

def execHifPart (a : Agent) (n : Fin 64) (v : BitVec 32) (s : State) : Host.Outcome State Fault Refusal :=
  .next (if s.permits a .part n.val then s.writePart n.val v else s)

def execHifApt (a : Agent) (n : Fin 64) (v : BitVec 64) (s : State) : Host.Outcome State Fault Refusal :=
  .next (if s.permits a .apt n.val then s.setRg (oApt n.val) (v &&& 0xC000000000FFFFFF#64) else s)

/-- HIF_HC_CTX exists for user host-class cores; the context is taken at their next release. -/
def execHifHcCtx (a : Agent) (n : HcId) (v : BitVec 32) (s : State) : Host.Outcome State Fault Refusal :=
  .next (if userHc n.val && s.permits a .hcCtx n.val then s.setRg (oHcCtx n.val) (BitVec.ofNat 64 (fld v 15 0)) else s)

/-! ### ATS (R372) -/

/-- A walk in progress for host memory, whose leaf may have been translated already. -/
def Core.hostWalk (k : Core) : Bool := k.walks.any (fun e => regionOf e.2.va.toNat = .host)

/-- A translation obtained through ATS for a page that the range lo to hi, both within it,
touches. -/
def atsCovers (lo hi : BitVec 64) (e : TlbEnt) : Bool :=
  match e.ats with
  | some a => decide (a ≤ hi.toNat) && decide (lo.toNat < a + (if e.big then 0x200000 else 0x10000))
  | none => false

/-- The translations of a range are dropped. The invalidation completes where no walk is in progress whose
translation it could concern; otherwise it is to be tried again (R207). -/
def execAtsInvalidation (lo : BitVec 64) (hi : BitVec 64) (s : State) : Host.Outcome State Fault Refusal :=
  .next (
    let t := { s with cores := KV.vmap {} (Core.invalidate (atsCovers lo hi)) s.cores }
    if s.cores.any (fun e => e.2.hostWalk) then t else { t with hif := { t.hif with atsDone := t.hif.atsDone + 1 } })

/-! ### FLR (R386, R480) -/

/-- A context of a function. -/
def State.ctxOwned (s : State) (f ctx : Nat) : Bool :=
  let e := (s.ctxEntry ctx).1
  ceValid e && decide (ceFunc e = f)

/-- A list is to end with no image and no record, once its slot has drained (R125, R386). -/
def State.quietStop (s : State) (c sl : Nat) : State :=
  let s := (s.count c 0x118 1).count c 0x28 1
  let s := s.modSlot c sl (fun x => { x with quiet := true })
  (if (s.slot c sl).draining then s else s.startDrain c sl).drainSlot c sl

/-- Lists of a function's contexts on a core end. -/
def State.flrCore (s : State) (f c : Nat) : State :=
  let k := s.core c
  let es := k.ready.filter (fun e => s.ctxOwned f e.ctx.toNat)
  let sls := (activeSlots k).filter (fun i => s.ctxOwned f (k.slot i).ctx.toNat)
  let s := es.foldl (fun s e => (s.leaveReady c e).modCore c (fun k => k.freeStarting e.addr)) s
  (sls.foldl (fun s sl => s.quietStop c sl) s).afterCore c

/-- The offset holds a ring register of a function, or a register of an event queue of it. -/
def State.flrReg (s : State) (f o : Nat) : Bool :=
  (if f = 0 then decide (0x2000 ≤ o) && decide (o < 0x4000)
   else decide (vfBase + 0x10000 * (f - 1) ≤ o) && decide (o < vfBase + 0x10000 * f)) ||
  (decide (0x1000 ≤ o) && decide (o < 0x2000) && decide (s.evqOwner ((o - 0x1000) / 0x40) = f))

/-- Rings and queues of a function are as at reset; the owners of the queues stay. -/
def State.flrRegs (s : State) (f : Nat) : State :=
  let qs := (List.range 64).filter (fun q => s.evqOwner q = f)
  let s' := { s with
    regs := s.regs.filter (fun e => !s.flrReg f e.1)
    hif := { s.hif with
      rings := s.hif.rings.filter (fun e => e.1 / 256 ≠ f)
      evqs := s.hif.evqs.filter (fun e => !qs.contains e.1)
      preempts := s.hif.preempts.filter (fun (p : Preempting) => p.func.val ≠ f) } }
  qs.foldl (fun s q => if q = 0 then s else s.setRf (oEvqCtl q) 51 48 f) s'

def State.flr (s : State) (f : Nat) : State :=
  let s := (s.cores.map (·.1)).foldl (fun s c => s.flrCore f c) (s.flrRegs f)
  if f = 0 then { s with sec := { s.sec with ideKeys := [], ideOn := [] } } else s

def execFlr (f : FuncId) (s : State) : Host.Outcome State Fault Refusal :=
  .next (if s.hif.linkUp then s.flr f.val else s)

end Sys2Proof.Machine
end

