-- ==== Sys2Proof/Machine/Security.lean ====
section
/-! DEFINITION. Attestation, IDE keys, anti-rollback, firmware update and the register lock
(R438, R441, R445 to R450). -/

namespace Sys2Proof.Machine

/-! ### SPDM (R446)

The responder runs in PFW over DOE. A request out of its order is answered with an error and
changes nothing. Certificates, keys and signatures are free values (log 14). -/

def State.spdmUp (s : State) : Bool := s.hif.linkUp && s.sec.booted

def State.spdmReply (s : State) (r : List (BitVec 512)) : State :=
  { s with sec := { s.sec with response := r, spdmError := false } }

def State.spdmFail (s : State) : State := { s with sec := { s.sec with response := [], spdmError := true } }

/-- A response that holds the given digests and a free one. -/
def State.spdmFree (s : State) (r : List (BitVec 512)) : State := s.took.spdmReply (r ++ [s.freeVal 512])

def State.setSpdm (s : State) (x : Spdm) : State := { s with sec := { s.sec with spdm := x } }

def execGetVersion (s : State) : Host.Outcome State Fault Refusal :=
  .next (if s.spdmUp then (s.setSpdm .version).spdmReply [] else s)

def execGetCapabilities (s : State) : Host.Outcome State Fault Refusal :=
  .next (if !s.spdmUp then s else if s.sec.spdm = .version then (s.setSpdm .capabilities).spdmReply [] else s.spdmFail)

/-- Algorithms settle where the requester supports those of R446. -/
def execNegotiateAlgorithms (supported : Bool) (s : State) : Host.Outcome State Fault Refusal :=
  .next (
    if !s.spdmUp then s
    else if s.sec.spdm = .capabilities ∧ supported = true then (s.setSpdm .algorithms).spdmReply []
    else s.spdmFail)

/-- The chain of slot 0, whose Alias certificate carries the measurements (R443). -/
def execGetCertificate (slot : Fin 8) (s : State) : Host.Outcome State Fault Refusal :=
  .next (
    if !s.spdmUp then s
    else if s.sec.spdm = .algorithms ∧ slot.val = 0 then s.spdmFree s.sec.measurements
    else s.spdmFail)

def execChallenge (slot : Fin 8) (_nonce : BitVec 256) (s : State) : Host.Outcome State Fault Refusal :=
  .next (
    if !s.spdmUp then s
    else if s.sec.spdm = .algorithms ∧ slot.val = 0 then s.spdmFree []
    else s.spdmFail)

/-- The measurement blocks, with the Alias key's signature where it is asked for (R445). -/
def execGetMeasurements (sign : Bool) (_nonce : BitVec 256) (s : State) : Host.Outcome State Fault Refusal :=
  .next (
    if !s.spdmUp then s
    else if s.sec.spdm = .algorithms then (if sign then s.spdmFree s.sec.measurements else s.spdmReply s.sec.measurements)
    else s.spdmFail)

/-- A key exchange ends the session that is open. -/
def execKeyExchange (_ephemeral : BitVec 256) (s : State) : Host.Outcome State Fault Refusal :=
  .next (
    if !s.spdmUp then s
    else if s.sec.spdm = .algorithms then ({ s with sec := { s.sec with session := false, keyExchange := true } }).spdmFree []
    else s.spdmFail)

def execFinish (macOk : Bool) (s : State) : Host.Outcome State Fault Refusal :=
  .next (
    if !s.spdmUp then s
    else if !s.sec.keyExchange then s.spdmFail
    else if macOk then ({ s with sec := { s.sec with session := true, keyExchange := false } }).spdmReply []
    else ({ s with sec := { s.sec with keyExchange := false } }).spdmFail)

/-! ### IDE (R447) -/

/-- A message inside the session: a stream takes a key, starts once it has one, or stops. -/
def Sec.ideKm (x : Sec) : IdeOp → Sec
  | .program n k => { x with ideKeys := KV.ins x.ideKeys n.val k }
  | .start n => if x.ideKeys.any (fun e => e.1 = n.val) then { x with ideOn := insertOnce x.ideOn n } else x
  | .stop n => { x with ideOn := x.ideOn.filter (fun m => m ≠ n) }

def execIdeKm (op : IdeOp) (s : State) : Host.Outcome State Fault Refusal :=
  .next (
    if !s.spdmUp then s
    else if s.sec.session then ({ s with sec := s.sec.ideKm op }).spdmReply []
    else s.spdmFail)

/-! ### Anti-rollback (R441) -/

/-- A write of the PF to SEC_SVN: COMMIT of the running SVN, above the fused count, begins to
blow fuses. -/
def State.writeSvn (s : State) (a : Agent) (v : BitVec 32) : State :=
  let n := fld v 30 24
  if a = .pf ∧ s.sec.booted = true ∧ s.sec.blowing = none ∧ n = s.rf oSvn 14 8 ∧ s.fusedCount < n then
    { s with sec := { s.sec with blowing := some n } }
  else s

def execCommit (a : Agent) (v : BitVec 32) (s : State) : Host.Outcome State Fault Refusal :=
  .next (if s.permits a .secSvn 0 then s.writeSvn a v else s)

/-- The fuses are blown: FUSED, and the SECURITY record. -/
def execSvnFuseBlowDone (s : State) : Host.Outcome State Fault Refusal :=
  .next (match s.sec.blowing with
    | none => s
    | some n =>
      let t := s.blowTo n
      let t := { t with sec := { t.sec with blowing := none } }
      (t.setRf oSvn 6 0 t.fusedCount).postSecurity secCommit t.fusedCount)

/-! ### Firmware update (R448) -/

/-- A write of the PF to SEC_FW_UPDATE while BUSY reads 0 starts an update. -/
def State.writeUpdate (s : State) (a : Agent) (v : BitVec 64) : State :=
  if a ≠ .pf ∨ bit (s.rg oFwUpdate) 0 = true then s
  else { s.setRg oFwUpdate 1 with sec := { (s.setRg oFwUpdate 1).sec with updSrc := BitVec.ofNat 64 (fld v 63 8 * 256) } }

def execFwUpdate (a : Agent) (v : BitVec 64) (s : State) : Host.Outcome State Fault Refusal :=
  .next (if s.permits a .fwUpdate 0 then s.writeUpdate a v else s)

/-- The source of the update can be read: the staging window in recovery, or a slow-tier address
that is mapped. -/
def State.updateReadable (s : State) : Bool :=
  if s.sec.updSrc = 0 then !s.sec.booted else (s.tierMap s.sec.updSrc.toNat).isSome

/-- RESULT of an update with an image, whose flash is written well or not (Table 16-6). -/
def State.updateResult (s : State) (b : Bank) (flashOk : Bool) : Nat :=
  if !s.updateReadable || !b.readable then 5
  else if !b.sigOk then 2
  else if b.svn.toNat < s.fusedCount then 3
  else if !b.hashOk then 4
  else if flashOk then 1 else 6

/-- The bank is written, and tried first from now on. -/
def State.bankWritten (s : State) (b : Bank) : State :=
  let i := s.updateBank
  let s := { s with sec := { s.sec with banks := s.sec.banks.set i b, first := i } }
  let s := s.setRf oBootStat 1 1 i
  s.setRf oSvn 22 16 (bankSvn (s.bank (1 - s.rf oBootStat 0 0)))

/-- A flash write that failed leaves the bank failing R438. -/
def State.bankSpoiled (s : State) : State :=
  let s := { s with sec := { s.sec with banks := s.sec.banks.set s.updateBank noBank } }
  s.setRf oSvn 22 16 (bankSvn (s.bank (1 - s.rf oBootStat 0 0)))

def State.updateDone (s : State) (b : Bank) (flashOk : Bool) : State :=
  let r := s.updateResult b flashOk
  let s := if r = 1 then s.bankWritten b else if r = 6 then s.bankSpoiled else s
  (s.setRg oFwUpdate (BitVec.ofNat 64 (r * 16))).postSecurity secUpdate r

def execFwUpdateDone (image : Bank) (flashOk : Bool) (s : State) : Host.Outcome State Fault Refusal :=
  .next (if bit (s.rg oFwUpdate) 0 then s.updateDone image flashOk else s)

/-! ### The lock (R449) -/

def execSecLock (a : Agent) (s : State) : Host.Outcome State Fault Refusal :=
  .next (if s.permits a .secCtrl 0 then s.setRf oSecCtrl 0 0 1 else s)

end Sys2Proof.Machine
end

