-- ==== Sys2Proof/Machine/RegAccess.lean ====
section
/-! DEFINITION. Reads and writes of the set-up registers by their agents, host requests through
the BARs, and the loads and stores of host-class cores (R25, R203, R204, R374, R375, R440,
R476 to R484). -/

namespace Sys2Proof.Machine

/-! ### The value of a register -/

def psCode : PState → Nat
  | .on => 0
  | .ret => 1
  | .off => 2

def cCode : CState → Nat
  | .c0 => 0
  | .c1 => 1
  | .c2 => 2
  | .c3 => 3

/-- STATE fields of n memories from memory number m on. -/
def State.stateFields (s : State) (m n : Nat) : Nat := pack ((List.range n).map (fun i => (2, psCode (s.memSt (m + i)))))

/-- A sync-port slot: COMMAND reads zero (Table 18-14). -/
def SyncPort.val (p : SyncPort) : Nat :=
  pack [(256, 0), (64, if p.busy then 0xFF else p.result.toNat), (64, p.value.toNat)]

/-- Little-endian words of eight bytes from an offset. -/
def State.words (s : State) (base n : Nat) : Nat := pack ((List.range n).map (fun i => (64, (s.rg (base + 8 * i)).toNat)))

/-- What a read of the register at `base` finds, of indices i and j. -/
def State.regVal (s : State) (r : Reg) (i j base : Nat) : Nat :=
  match r with
  | .ctxInv => b2n s.hif.ctxInv.isSome * 2 ^ 31
  | .pwrCstate => pack ((List.range 16).map (fun n => (2, cCode (s.core (16 * i + n)).cst)))
  | .pwrCluStat =>
    let u := s.cluster i
    pack [(32, (u.balance % 2 ^ 32).toNat), (8, u.taper.toNat), (8, u.temp.toNat)]
  | .pwrClassF => pack ((List.range 8).map (fun e => (16, ((s.cluster i).factor e).toNat)))
  | .syncPort => (s.port i j).val
  | .tlbInv => b2n s.tlbInv.isSome * 2 ^ 31
  | .slabState => s.stateFields (slabMem i 0) 8 + (KV.get 0 s.sec.failedSlabs i).toNat * 2 ^ 16
  | .segState => s.stateFields (segMem i 0) 12 + b2n (bit s.husk.tierFailed i) * 2 ^ 24
  | .bbxHead => s.husk.next - 1
  | .bbxOldest => s.husk.oldestNow
  | .bbxStat => setFld (s.rg base) 15 8 s.husk.spares |>.toNat
  | .bbxData => s.bbxData.toNat
  | .bbxSig => s.bbxSig.toNat
  | .pipAon => s.aon.toNat
  | .pipTelem => s.words base 2
  | .pipSens => s.words base 17
  | .cmapFused => s.sec.fusedMap.toNat / 2 ^ (32 * i) % 2 ^ 32
  | .cmapAvail => s.availMap / 2 ^ (32 * i) % 2 ^ 32
  | _ => (s.rg base).toNat

/-! ### Access rules (R477, R478, R482) -/

/-- Number of an agent in the records of R478. -/
def agentIx : Agent → Nat
  | .pf => 0
  | .vf n => 1 + n.val
  | .pip => 9
  | .hc n => 10 + n.val

/-- The function whose BAR0 an agent writes through; host-class cores and Pip act as the PF. -/
def agentFunc : Agent → Nat
  | .vf n => n.val + 1
  | _ => 0

/-- Offset of a register access in the model's register map; none outside the agent's map. -/
def regOff (a : Agent) (off : Nat) : Option Nat :=
  match a with
  | .vf n =>
    if off < 4 || (decide (0x1000 ≤ off) && decide (off < 0x2000)) then some off
    else if 0x2000 ≤ off ∧ off < 0x2400 then some (vfBase + 0x10000 * n.val + off) else none
  | _ => if off < 0x2000000 then some off else none

/-- Registers of an event queue. -/
def evqReg (r : Reg) : Bool := r = .evqAddr || r = .evqCb || r = .evqCtl || r = .evqDrop

/-- Ring registers. -/
def ringReg (r : Reg) : Bool := r = .ringAddr || r = .ringCb || r = .ringCtl

def State.canRead (s : State) (a : Agent) (r : Reg) (i : Nat) : Bool :=
  match a with
  | .vf n => !evqReg r || decide (s.evqOwner i = n.val + 1)
  | a => mayRead a r i

def State.canWrite (s : State) (a : Agent) (r : Reg) (i : Nat) : Bool :=
  match a with
  | .vf n => ringReg r || (evqReg r && decide (s.evqOwner i = n.val + 1))
  | a => mayWrite a r i

/-- Sizes that an access at byte k of a register may have (R478). -/
def sizeOk (r : RegRow) (off k len : Nat) : Bool :=
  ((decide (len = 4) || decide (len = 8)) && decide (off % len = 0) && decide (k + len ≤ r.bytes)) ||
  (decide (len % 8 = 0) && decide (off % 8 = 0) &&
    ((decide (r.reg = .bbxData ∨ r.reg = .bbxSig ∨ r.reg = .pipSens) && decide (k + len ≤ r.bytes)) ||
     (decide (r.reg = .syncPort) && decide (k + len ≤ 32))))

/-- The register that an access of an agent reaches: its row, indices, byte and offset. -/
def State.locate (s : State) (a : Agent) (off len : Nat) : Option (RegRow × Nat × Nat × Nat × Nat) :=
  match regOff a off with
  | none => none
  | some o =>
    match findReg o with
    | none => none
    | some (r, i, j, k) =>
      let open' := match a with
        | .pf => s.answers r.reg
        | .vf _ => s.answers r.reg
        | _ => true
      if open' && sizeOk r off k len then some (r, i, j, k, o - k) else none

def latchKey (a : Agent) (base : Nat) : Nat := agentIx a * 2 ^ 26 + base

def State.setLatch (s : State) (key : Nat) (v : Option Nat) : State :=
  let x : BitVec 65 := match v with
    | some x => BitVec.ofNat 65 (2 ^ 64 + x % 2 ^ 64)
    | none => 0
  { s with hif := { s.hif with latch := KV.put 0 s.hif.latch key x } }

def State.latched (s : State) (key : Nat) : Option Nat :=
  let x := KV.get 0 s.hif.latch key
  if bit x 64 then some (fld x 63 0) else none

/-- A read: none at an unassigned offset; zero where the agent may not read. -/
def State.regRead (s : State) (a : Agent) (off len : Nat) : Option (List Byte × State) :=
  match s.locate a off len with
  | none => none
  | some (r, i, j, k, base) =>
    if !s.canRead a r.reg i then some (List.replicate len 0, s)
    else
      let v := s.regVal r.reg i j base
      let here := natLe len (v / 2 ^ (8 * k))
      let key := latchKey a base
      let half := decide (r.bytes = 8) && decide (len = 4)
      let telem := decide (r.reg = .pipTelem) && decide (len = 8)
      if (half || telem) && decide (k = 0) then some (here, s.setLatch key (some (v / 2 ^ (8 * len))))
      else if half || telem then
        match s.latched key with
        | some x => some (natLe len x, s.setLatch key none)
        | none => some (here, s)
      else some (here, s)

/-! ### What a write does -/

/-- The domain that a write to RAS_RESET names (Table 15-7). -/
def resetDomain (v : BitVec 32) : Option Domain :=
  let t := fld v 9 0
  match fld v 16 13 with
  | 0 => if h : t < 960 then (allEngines[fld v 12 10]?).map (fun e => .engine ⟨t, h⟩ e) else none
  | 1 => if h : t < 16 then some (.hostClass ⟨t, h⟩) else none
  | 2 => if h : t < 960 then some (.core ⟨t, h⟩) else none
  | 3 => if h : t < 60 then some (.cluster ⟨t, h⟩) else none
  | 4 => if h : t < 3 then some (.fabricPort ⟨t, h⟩) else none
  | 5 => if h : t < 10 then some (.damson ⟨t, h⟩) else none
  | 6 => some .dieWarm
  | 7 => some .module
  | _ => none

def agentRequester (a : Agent) : Requester := if agentCause a = 0 then .host else .firmware

def State.writeRasReset (s : State) (a : Agent) (v : BitVec 32) : State :=
  match resetDomain v with
  | some d => s.commandReset (agentRequester a) d
  | none => s

/-- A write to FAB_PORT_CTRL of port p (Table 12-5). -/
def State.writePortCtrl (s : State) (p : Nat) (v : BitVec 32) : State :=
  let s := ((s.setRf (oPortCtrl p) 4 4 (fld v 4 4)).setRf (oPortCtrl p) 2 1 (fld v 2 1)).writeEnable p (bit v 0)
  if bit v 3 then s.resetDim (p / 2) else s

/-- A write to RAS_HANG_MODE: MODE 0 is stored as 3. -/
def hangWritten (v : BitVec 32) : Nat := if fld v 1 0 = 0 then fld v 2 0 + 3 else fld v 2 0

/-- A permitted write takes effect: `v` is the whole value of a register of 4 or 8 bytes at
`base`, of indices i and j. -/
def State.regCommit (s : State) (a : Agent) (r : RegRow) (i j base : Nat) (v : BitVec 64) : State :=
  let w : BitVec 32 := v.setWidth 32
  let plain := s.setRg base (r.written (s.rg base) v)
  let locking (t : State) : State := if s.locked then s.lockViolation base else t
  let f := agentFunc a
  match r.reg with
  | .ctxBase => locking plain
  | .synCfg => locking plain
  | .fabTopo => locking (s.writeTopo w)
  | .dmsSplit => locking (s.writeSplit w)
  | .ctxInv => s.startCtxInv w
  | .part => s.writePart i w
  | .evqAddr => if s.evqOn i then s else plain
  | .evqCb => if s.evqOn i then s else plain
  | .evqCtl => s.writeEvqCtl f i v
  | .ringAddr => if s.ringOn f j then s else plain
  | .ringCb => if s.ringOn f j then s else plain
  | .ringCtl => s.writeRingCtl f j w
  | .pwrProfile => s.writeProfile w
  | .portCtrl => s.writePortCtrl i w
  | .tlbInv => s.startTlbInv w
  | .xltResume => s.xltResume w
  | .slabState => s.writeStates (slabMem i 0) 8 w
  | .segState => s.writeStates (segMem i 0) 12 w
  | .dmsEpochAll => (List.range 10).foldl (fun s k => s.setRf (oEpoch k) 23 0 (fld w 23 0)) s
  | .rasReset => s.writeRasReset a w
  | .rasFence => s.writeFence a w
  | .rasHb => s.beat i
  | .hangMode => s.setRg base (BitVec.ofNat 64 (hangWritten w))
  | .bbxSel => s.selectRecord v
  | .secSvn => s.writeSvn a w
  | .fwUpdate => s.writeUpdate a v
  | _ => plain

/-- Bytes of a sync-port slot: a COMMAND is assembled, and starts on the write of byte 31; a
slot in progress ignores the write and counts it (R293, R478). -/
def State.portWrite (s : State) (i j k : Nat) (d : List Byte) : State :=
  if 32 ≤ k then s
  else if (s.port i j).busy then s.discard (i / 8)
  else
    let p := s.port i j
    let w := setFld p.cmd (8 * (k + d.length) - 1) (8 * k) (leNat d)
    let s := s.setPort i j { p with cmd := w }
    if k + d.length = 32 then s.portStart (BitVec.toFin (BitVec.ofNat 4 i)) (BitVec.toFin (BitVec.ofNat 4 j)) w else s

/-- A permitted write of one access. -/
def State.regStore (s : State) (a : Agent) (r : RegRow) (i j k base : Nat) (d : List Byte) : State :=
  if r.reg = .syncPort then (chunks 8 d).zipIdx.foldl (fun s p => s.portWrite i j (k + 8 * p.2) p.1) s
  else if 8 < r.bytes then s
  else if r.bytes = 8 ∧ d.length = 4 then
    let key := latchKey a base
    if k = 0 then { s with hif := { s.hif with half := KV.put 0 s.hif.half key (BitVec.ofNat 33 (2 ^ 32 + leNat d)) } }
    else
      let x := KV.get 0 s.hif.half key
      let lo := if bit x 32 then fld x 31 0 else s.regVal r.reg i j base % 2 ^ 32
      s.regCommit a r i j base (BitVec.ofNat 64 (lo + leNat d * 2 ^ 32))
  else s.regCommit a r i j base (BitVec.ofNat 64 (leNat d))

/-- A write: none at an unassigned offset; false where the agent may not write, which leaves the
register as it was. -/
def State.regWrite (s : State) (a : Agent) (off : Nat) (d : List Byte) : Option (Bool × State) :=
  match s.locate a off d.length with
  | none => none
  | some (r, i, j, k, base) =>
    if s.canWrite a r.reg i then some (true, s.regStore a r i j k base d) else some (false, s)

/-! ### Core windows (Table 08-2) -/

/-- A read of a core window: LAUNCH reads zero; none where a byte is reserved. -/
def State.windowRead (s : State) (c o n : Nat) : Option (List Byte × State) :=
  if o + n ≤ 8 then some (List.replicate n 0, s)
  else if 8 ≤ o ∧ o + n ≤ 12 then some (natLe n ((s.core c).accepted.toNat / 2 ^ (8 * (o - 8))), s)
  else if 0x200 ≤ o ∧ o + n ≤ 0x400 then some (((s.snapshot c).drop (o - 0x200)).take n, s.took)
  else none

def windowBase : Nat := 0x110000000

/-- A read at a device address of a core window. -/
def State.windowAt (s : State) (a n : Nat) : Option (List Byte × State) :=
  s.windowRead (past a windowBase / 0x1000) (past a windowBase % 0x1000) n

/-! ### Requests of the host (Table 14-3) -/

def State.setReply (s : State) (r : Reply) : State := { s with hif := { s.hif with reply := r } }

/-- How a 64-byte granule of a host request fared; in order of what the answer says first. -/
inductive Granule where
  | ok | poisoned | aborted | unsupported
  deriving DecidableEq, Repr

def Granule.rank : Granule → Nat
  | .ok => 0
  | .poisoned => 1
  | .aborted => 2
  | .unsupported => 3

def Granule.max (a b : Granule) : Granule := if a.rank < b.rank then b else a

def granuleOf (st : BitVec 8) : Granule :=
  if st = stOk then .ok else if st = stEcc ∨ st = stPoison then .poisoned else .aborted

/-- Router of the PCIe controller by which a request for an address enters the die (R23, log 133). -/
def hostDoor (a : Nat) : Nat := pcieRouter (a / 64 % 3)

/-- Place of an aperture address: a slow-tier physical address, or an on-die device address. -/
def State.apPlace (s : State) (onDie : Bool) (a : Nat) : Option Place :=
  if !onDie then (if (s.tierMap a).isNone then none else some (.tier a))
  else
    match regionOf a with
    | .cluster => some (.die a)
    | .slab key view => some (if view = 0 then .die key else .aliasView key (view = 1))
    | _ => none

/-- A read of one granule. -/
def State.apRead (s : State) (onDie : Bool) (a n : Nat) : Granule × List Byte × State :=
  let zero := List.replicate n 0
  if s.routerDown (hostDoor a) then (.aborted, zero, s)
  else
  match s.apPlace onDie a with
  | some p =>
    let r := s.readVia (hostDoor a) 0xFFFF p n
    (granuleOf r.st, r.data, r.s)
  | none =>
    match onDie && decide (regionOf a = .window), s.windowAt a n with
    | true, some (d, s) => (.ok, d, s)
    | _, _ => (.unsupported, zero, s)

/-- A store at a place for a requester at router r: words of a slab that are still unread are counted as
overwritten. -/
def State.storePlace (s : State) (r ctx : Nat) (p : Place) (d : List Byte) (poison : Bool := false) : BitVec 8 × State :=
  let rewrite (k : Nat) : State := match slabCore k with
    | some c => s.rewritten c (past k slabBase % 0x800000) d.length
    | none => s
  if s.lostTo r p then (stPathLost, s)
  else
    (match p with
      | .die k => rewrite k
      | .aliasView k _ => rewrite k
      | _ => s).writeVia r ctx p d poison

/-- A write of one granule. A part of a slow-tier line whose rest is bad is dropped and counted
in DMS_DROP (R261). Poisoned data poison the whole granule (R375). -/
def State.apWrite (s : State) (onDie : Bool) (a : Nat) (d : List Byte) (poison : Bool) : Granule × State :=
  if s.routerDown (hostDoor a) then (.aborted, s)
  else
  match s.apPlace onDie a with
  | none => (.unsupported, s)
  | some p =>
    let r := match p, poison with
      | .die k, true => s.storePlace (hostDoor a) 0xFFFF (.die (k / 64 * 64)) (listSet (s.bytes (k / 64 * 64) 64) (k % 64) d) true
      | p, poison => s.storePlace (hostDoor a) 0xFFFF p d poison
    let drop (s : State) : State := match p with
      | .tier pa => match s.tierMap pa with
        | some (ch, _) => if r.1 = stPathLost then s else s.bump32 (oDrop (ch / 2)) 1
        | none => s
      | _ => s
    if r.1 = stOk then (.ok, r.2) else (.aborted, drop r.2)

/-- A write of a function dropped as an Unsupported Request, which AER logs (R375). -/
def State.refuseWrite (s : State) (f : Nat) : State :=
  let t := s.setReply .unsupported
  { t with hif := { t.hif with aerUr := KV.put false t.hif.aerUr f true } }

def readReply (g : Granule) (d : List Byte) : Reply :=
  match g with
  | .ok => .data d
  | .poisoned => .poisoned d
  | .aborted => .aborted
  | .unsupported => .unsupported

/-- The outcome of a write of a function. -/
def State.writeReply (s : State) (f : Nat) : Granule → State
  | .unsupported => s.refuseWrite f
  | .aborted => s.setReply .dropped
  | _ => s.setReply .done

/-- A request at an address of one of the two spaces, granule by granule. -/
def State.apRequest (s : State) (onDie : Bool) (a : Nat) (op : Access) (poisoned : Bool) : State :=
  match op with
  | .read n =>
    let r := (piecesOf a n).foldl (fun (r : Granule × List Byte × State) p =>
      let x := r.2.2.apRead onDie p.1 p.2
      (r.1.max x.1, r.2.1 ++ x.2.1, x.2.2)) (.ok, [], s)
    r.2.2.setReply (readReply r.1 r.2.1)
  | .write d =>
    let r := (piecesOf a d.length).foldl (fun (r : Granule × State) p =>
      let x := r.2.apWrite onDie p.1 ((d.drop (p.1 - a)).take p.2) poisoned
      (r.1.max x.1, x.2)) (.ok, s)
    r.2.writeReply 0 r.1

/-- The aperture of the PF (R374). -/
def State.barAperture (s : State) (off : Nat) (op : Access) (poisoned : Bool) : State :=
  let w := s.rg (oApt (off / 2 ^ 32))
  if !s.sec.booted || !bit w 63 then (match op with
    | .read _ => s.setReply .unsupported
    | .write _ => s.refuseWrite 0)
  else s.apRequest (bit w 62) (fld w 23 0 * 2 ^ 32 + off % 2 ^ 32) op poisoned

/-- The agent of a function. -/
def funcAgent (f : FuncId) : Agent := if f.val = 0 then .pf else .vf (BitVec.toFin (BitVec.ofNat 3 (f.val - 1)))

/-- BAR0: set-up registers, and in recovery the PF's staging window (R440). -/
def State.barRegs (s : State) (f : FuncId) (off : Nat) (op : Access) (poisoned : Bool) : State :=
  if f.val = 0 ∧ s.sec.booted = false ∧ 0x1000000 ≤ off ∧ off < 0x2000000 then
    s.apRequest true (clusterBase + (off - 0x1000000)) op poisoned
  else
    match op with
    | .read n => match s.regRead (funcAgent f) off n with
      | some (d, s) => s.setReply (.data d)
      | none => s.setReply .unsupported
    | .write d => match s.regWrite (funcAgent f) off d with
      | some (true, s) => s.setReply .done
      | some (false, s) => s.setReply .dropped
      | none => s.refuseWrite f.val

/-- BAR2: the wake page (R483). -/
def State.barWake (s : State) (f : FuncId) (off : Nat) (op : Access) : State :=
  match op with
  | .read n => s.setReply (.data (List.replicate n 0))
  | .write d =>
    let r := off / 8
    if (d.length = 4 ∨ d.length = 8) ∧ off % d.length = 0 ∧ r < 256 ∧ ownsRing f.val r = true then (s.wakeRing f.val r).setReply .done
    else s.setReply .dropped

/-- Bytes of a function's BAR (Table 14-2). -/
def barSize (f : FuncId) : Bar → Nat
  | .bar0 => if f.val = 0 then 0x2000000 else 0x10000
  | .bar2 => 0x1000
  | .bar4 => if f.val = 0 then 2 ^ 38 else 0
  | .msix => if f.val = 0 then 0x4000 else 0x800

/-- The message of a vector that was masked is sent, where one is pending (R397). -/
def State.unmask (s : State) (f v : Nat) : State :=
  let k := f * 1024 + v
  let s := { s with hif := { s.hif with masked := KV.put false s.hif.masked k false } }
  if KV.get false s.hif.pendingMsix k then
    { s with hif := { s.hif with pendingMsix := KV.put false s.hif.pendingMsix k false, msix := (f, v) :: s.hif.msix } }
  else s

/-- The MSI-X table of a function: bit 0 of the fourth word of an entry of 16 bytes is the mask of its vector
(log 104). -/
def State.barMsix (s : State) (f : FuncId) (off : Nat) (op : Access) : State :=
  let v := off / 16
  match op with
  | .read n =>
    let m := b2n (off % 16 = 12 && KV.get false s.hif.masked (f.val * 1024 + v))
    s.setReply (.data (natBytes n m))
  | .write d =>
    if off % 16 = 12 ∧ d.length = 4 then
      if bit (BitVec.ofNat 32 (leNat d)) 0 then
        ({ s with hif := { s.hif with masked := KV.put false s.hif.masked (f.val * 1024 + v) true } }).setReply .done
      else (s.unmask f.val v).setReply .done
    else s.setReply .done

/-- A request of the host through a BAR (R375); until half 0's mesh runs, reads are aborted and
writes dropped in a die reset (R414). It wakes half 0, where it enters the die (R23, R366). -/
def State.hostRequest (s : State) (f : FuncId) (b : Bar) (off : Nat) (op : Access) (poisoned : Bool) : State :=
  let away := s.setReply (match op with | .read _ => .aborted | .write _ => .dropped)
  if !s.hif.linkUp then s.setReply .noLink
  else if s.dieAway then away
  else if !s.barOpen f.val || decide (barSize f b ≤ off) then (match op with
    | .read _ => s.setReply .unsupported
    | .write _ => s.refuseWrite f.val)
  else if b = .msix then s.barMsix f off op
  else if b ≠ .bar4 ∧ s.routerDown (hostDoor off) = true then away
  else
    let s := s.wakeHalf 0
    match b with
    | .msix => s
    | .bar0 => s.barRegs f off op poisoned
    | .bar2 => s.barWake f off op
    | .bar4 => s.barAperture off op poisoned

def execHostRequest (f : FuncId) (b : Bar) (off : BitVec 38) (op : Access) (poisoned : Bool) (s : State) : Host.Outcome State Fault Refusal :=
  if !op.sized then .fault .illFormed else .next (s.hostRequest f b off.toNat op poisoned)

end Sys2Proof.Machine
end

