-- ==== Sys2Proof/Machine/HostCore.lean ====
section
/-! DEFINITION. Host-class cores: their caches, their loads, stores and fetches, and the writes of set-up
registers (R25, R28, R132, R203, R204, R356, R479). -/

namespace Sys2Proof.Machine

def State.setHcReply (s : State) (h : Nat) (r : Reply) : State :=
  { s with hif := { s.hif with hcReply := KV.put .none s.hif.hcReply h r } }

/-! ### Caches (R132)

Lines of 64 bytes of the slow tier and of host memory. Whether a line stays after an access of its core is a
free value; one that does not is written back where it holds a store (log 132). -/

/-- Line of the cache of host-class core h that a place lies in; none where the place is not cached. -/
def hcKey (h : Nat) : Place → Option Nat
  | .tier pa => some (h * 2 ^ 60 + pa / 64)
  | .host a => some (h * 2 ^ 60 + 2 ^ 59 + a / 64)
  | _ => none

/-- Place of a line. -/
def hcPlace (k : Nat) : Place :=
  let x := k % 2 ^ 60
  if x < 2 ^ 59 then .tier (64 * x) else .host (64 * (x - 2 ^ 59))

def State.cached (s : State) (k : Nat) : CacheLine := KV.get {} s.hif.hcCache k

def State.setCached (s : State) (k : Nat) (l : CacheLine) : State :=
  { s with hif := { s.hif with hcCache := KV.put {} s.hif.hcCache k l } }

/-- A line that holds a store is written to memory. -/
def State.cleanCached (s : State) (k : Nat) : State :=
  let h := k / 2 ^ 60
  let l := s.cached k
  if l.valid && l.dirty then
    ((s.writeVia (hcRouter h) (s.hcCtxOf h) (hcPlace k) (natBytes 64 l.data.toNat) false).2).setCached k { l with dirty := false }
  else s

def State.flushCached (s : State) (k : Nat) : State := (s.cleanCached k).setCached k {}

/-- What a cache-block operation does to a line. -/
def State.lineOp (s : State) (k : Nat) : CacheOp → State
  | .inval => s.setCached k {}
  | .clean => s.cleanCached k
  | .flush => s.flushCached k

/-- Lines that do not stay after an access. -/
def State.evict (s : State) (h : Nat) : State :=
  let ks := (s.hif.hcCache.map (·.1)).filter (fun k => k / 2 ^ 60 = h)
  if ks.isEmpty then s
  else
    let v := s.freeVal ks.length
    ks.zipIdx.foldl (fun s e => if bit v e.2 then s.flushCached e.1 else s) s.took

/-- The data of a line: as cached, or read from memory, which fills it. -/
def State.fillCached (s : State) (k : Nat) : Rd :=
  let h := k / 2 ^ 60
  let l := s.cached k
  if l.valid then ⟨natBytes 64 l.data.toNat, stOk, s⟩
  else
    let r := s.readVia (hcRouter h) (s.hcCtxOf h) (hcPlace k) 64
    if r.st = stOk then { r with s := r.s.setCached k { valid := true, data := BitVec.ofNat 512 (leNat r.data) } } else r

/-- A read of n bytes within one 64-byte word. -/
def State.hcRead (s : State) (h : Nat) (p : Place) (o n : Nat) : Rd :=
  match hcKey h p with
  | none => s.readVia (hcRouter h) (s.hcCtxOf h) p n
  | some k =>
    let r := s.fillCached k
    { r with data := (r.data.drop o).take n }

/-- A store within one 64-byte word, at offset o of it. -/
def State.hcPut (s : State) (h : Nat) (p : Place) (o : Nat) (d : List Byte) : BitVec 8 × State :=
  match hcKey h p with
  | none => s.storePlace (hcRouter h) (s.hcCtxOf h) p d
  | some k =>
    let r : Rd := if d.length = 64 then ⟨d, stOk, s⟩ else s.fillCached k
    if r.st = stOk then
      (stOk, r.s.setCached k { valid := true, dirty := true, data := BitVec.ofNat 512 (leNat (listSet r.data o d)) })
    else (r.st, r.s)

/-! ### Loads, stores and fetches (R25, R203, R204) -/

/-- Answer of an access outside the set-up registers: one that cannot be served takes
the access-fault exception; bad data is answered with its status. -/
def hcAnswer (st : BitVec 8) (ok : Reply) : Reply :=
  if st = stOk then ok else if st = stEcc ∨ st = stPoison then .status st else .fault

/-- Set-up offset of a device address. -/
def setupOff (a : Nat) : Nat := past a 0x120000000

/-- A read of memory, in pieces within 64-byte words; the first failure answers it. -/
def State.hcMemRead (s : State) (h a n : Nat) : Rd :=
  (piecesOf a n).foldl (fun r p =>
    match r.s.placeNow (r.s.hcCtxOf h) p.1 false with
    | (some pl, s) =>
      let x := s.hcRead h pl (p.1 % 64) p.2
      ⟨r.data ++ x.data, if r.st = stOk then x.st else r.st, x.s⟩
    | (none, s) => ⟨r.data ++ List.replicate p.2 0, if r.st = stOk then stIllegal else r.st, s⟩) ⟨[], stOk, s⟩

/-- A store to memory, likewise. -/
def State.hcMemWrite (s : State) (h a : Nat) (d : List Byte) : BitVec 8 × State :=
  (piecesOf a d.length).foldl (fun r p =>
    match r.2.placeNow (r.2.hcCtxOf h) p.1 true with
    | (some pl, s) =>
      let x := s.hcPut h pl (p.1 % 64) ((d.drop (p.1 - a)).take p.2)
      (if r.1 = stOk then x.1 else r.1, x.2)
    | (none, s) => (if r.1 = stOk then stIllegal else r.1, s)) (stOk, s)

/-- A load or an instruction fetch. -/
def State.hcLoad (s : State) (h : HcId) (a n : Nat) : State :=
  match regionOf a with
  | .setup => match s.regRead (.hc h) (setupOff a) n with
    | some (d, s) => s.setHcReply h.val (.data d)
    | none => s.setHcReply h.val .fault
  | .window => match s.windowAt a n with
    | some (d, s) => s.setHcReply h.val (.data d)
    | none => s.setHcReply h.val .fault
  | _ =>
    let r := s.hcMemRead h.val a n
    (r.s.setHcReply h.val (hcAnswer r.st (.data r.data))).evict h.val

/-- A store to a core window: LAUNCH takes eight bytes; what is read-only ignores it. -/
def State.windowStore (s : State) (h : HcId) (a : Nat) (d : List Byte) : State :=
  let c := past a windowBase / 0x1000
  let o := past a windowBase % 0x1000
  if o = 0 ∧ d.length = 8 then (s.launch h.val c (BitVec.ofNat 64 (leNat d))).setHcReply h.val .done
  else if (s.windowRead c o d.length).isSome then s.setHcReply h.val .dropped
  else s.setHcReply h.val .fault

def State.hcStore (s : State) (h : HcId) (a : Nat) (d : List Byte) : State :=
  match regionOf a with
  | .setup => match s.regWrite (.hc h) (setupOff a) d with
    | some (true, s) => s.setHcReply h.val .done
    | some (false, s) => s.setHcReply h.val (if userHc h.val then .fault else .dropped)
    | none => s.setHcReply h.val .fault
  | .window => s.windowStore h a d
  | _ =>
    let r := s.hcMemWrite h.val a d
    (r.2.setHcReply h.val (hcAnswer r.1 .done)).evict h.val

/-- A cache-block operation: on a line of the slow tier or of host memory; elsewhere a no-op, and at an
unmapped address a fault (Table 04-14, R204). -/
def State.hcCacheOp (s : State) (h : HcId) (op : CacheOp) (a : Nat) : State :=
  let onLine : State :=
    match s.placeNow (s.hcCtxOf h.val) a false with
    | (some p, s) => ((match hcKey h.val p with
        | some k => s.lineOp k op
        | none => s).setHcReply h.val .done).evict h.val
    | (none, s) => s.setHcReply h.val .fault
  match regionOf a with
  | .tier => onLine
  | .host => onLine
  | .unmapped => s.setHcReply h.val .fault
  | .queue _ => s.setHcReply h.val .fault
  | _ => s.setHcReply h.val .done

/-- Firmware gates a host-class core, whose cache is lost, or puts it on again (R28, log 131). -/
def State.gateHc (s : State) (h : HcId) (off : Bool) : State :=
  if off then
    { s.dropCache h.val with power := { (s.dropCache h.val).power with hcGated := insertOnce s.power.hcGated h } }
  else { s with power := { s.power with hcGated := s.power.hcGated.filter (· ≠ h) } }

/-- What a host-class core that runs does. -/
def State.hcAccess (s : State) (h : HcId) : HcAccess → State
  | .load a n => s.hcLoad h a.toNat n
  | .fetch a n => s.hcLoad h a.toNat n
  | .store a d => s.hcStore h a.toNat d
  | .cache op a => s.hcCacheOp h op a.toNat
  | .gate g off => if firmwareHc h.val then s.gateHc g off else s
  | .wakeCore c => if firmwareHc h.val then s.wakeCore c.val else s

def execHostClassCoreAccess (h : HcId) (acc : HcAccess) (s : State) : Host.Outcome State Fault Refusal :=
  if !acc.sized then .fault .illFormed
  else .next (if s.hcRuns h then s.hcAccess h acc else s)

/-! ### REGISTER_WRITE (R479) -/

/-- A write of an agent at an offset of its BAR0, or of the set-up region. A user host-class core
that may not make it takes a store access fault. -/
def State.registerWrite (s : State) (a : Agent) (off : Nat) (d : List Byte) : State :=
  match a with
  | .hc h => if s.hcRuns h then s.hcStore h (0x120000000 + off) d else s
  | a =>
    if !s.agentLive a then s
    else match s.regWrite a off d with
      | some (_, s) => s
      | none => s

def execRegisterWrite (a : Agent) (off : BitVec 25) (data : List Byte) (s : State) : Host.Outcome State Fault Refusal :=
  if data.isEmpty || decide (64 < data.length) then .fault .illFormed else .next (s.registerWrite a off.toNat data)

end Sys2Proof.Machine
end

