-- ==== Sys2Proof/Machine/ListRows.lean ====
section
/-! DEFINITION. The commands of a list: what the sequencer does with each at the program
counter of its slot (R97, R103, Table 04-4). -/

namespace Sys2Proof.Machine

/-- A command that the sequencer executes, and what its end lets go on. -/
def State.seqCmd (s : State) (c : CoreId) (sl : SlotId) (w : Cmd) (o : OpInfo) (body : State → Cmd → SeqRes) : State :=
  (s.seqRun c.val sl.val w o body).afterCore c.val

/-- A command that goes to its engine's queue, whose head may start. -/
def State.engCmd (s : State) (c : CoreId) (sl : SlotId) (w : Cmd) (o : OpInfo) : State :=
  (s.dispatchTo c.val sl.val w o).afterCore c.val

/-- NOP (R111). -/
def execNop (c : CoreId) (sl : SlotId) (w : Cmd) (s : State) : Host.Outcome State Fault Refusal :=
  answer (opcIs w 0x00) (s.seqCmd c sl w nopInfo (fun s w => bodyNop s w))

/-- END (R104). -/
def execEndList (c : CoreId) (sl : SlotId) (w : Cmd) (s : State) : Host.Outcome State Fault Refusal :=
  answer (opcIs w 0x01) (s.seqCmd c sl w nopInfo (bodyEnd c.val sl.val))

/-- LOOP (R118). -/
def execLoop (c : CoreId) (sl : SlotId) (w : Cmd) (s : State) : Host.Outcome State Fault Refusal :=
  answer (opcIs w 0x02) (s.seqCmd c sl w loopInfo (bodyLoop c.val sl.val))

/-- ENDLOOP (R118). -/
def execEndloop (c : CoreId) (sl : SlotId) (w : Cmd) (s : State) : Host.Outcome State Fault Refusal :=
  answer (opcIs w 0x03) (s.seqCmd c sl w nopInfo (bodyEndloop c.val sl.val))

/-- SKIP (R119). -/
def execSkip (c : CoreId) (sl : SlotId) (w : Cmd) (s : State) : Host.Outcome State Fault Refusal :=
  answer (opcIs w 0x04) (s.seqCmd c sl w (condInfo true) (bodySkip c.val sl.val))

/-- BRK (R119). -/
def execBrk (c : CoreId) (sl : SlotId) (w : Cmd) (s : State) : Host.Outcome State Fault Refusal :=
  answer (opcIs w 0x05) (s.seqCmd c sl w (condInfo false) (bodyBrk c.val sl.val))

/-- SETX (R117). -/
def execSetx (c : CoreId) (sl : SlotId) (w : Cmd) (s : State) : Host.Outcome State Fault Refusal :=
  answer (opcIs w 0x06) (s.seqCmd c sl w setxInfo (bodySetx c.val sl.val))

/-- ALUX (R117). -/
def execAlux (c : CoreId) (sl : SlotId) (w : Cmd) (s : State) : Host.Outcome State Fault Refusal :=
  answer (opcIs w 0x07) (s.seqCmd c sl w aluxInfo (bodyAlux c.val sl.val))

/-- TPOST (R102). -/
def execTpost (c : CoreId) (sl : SlotId) (w : Cmd) (s : State) : Host.Outcome State Fault Refusal :=
  answer (opcIs w 0x08) (s.seqCmd c sl w tpostInfo (bodyTpost c.val sl.val))

/-- CSNAP (R131). -/
def execCsnap (c : CoreId) (sl : SlotId) (w : Cmd) (s : State) : Host.Outcome State Fault Refusal :=
  answer (opcIs w 0x09) (s.seqCmd c sl w csnapInfo (bodyCsnap c.val sl.val))

/-- ARRIVE (R302). -/
def execArrive (c : CoreId) (sl : SlotId) (w : Cmd) (s : State) : Host.Outcome State Fault Refusal :=
  answer (opcIs w 0x10) (s.seqCmd c sl w arriveInfo (bodySync c sl))

/-- WAIT (R299). -/
def execWait (c : CoreId) (sl : SlotId) (w : Cmd) (s : State) : Host.Outcome State Fault Refusal :=
  answer (opcIs w 0x11) (s.seqCmd c sl w waitInfo (bodySync c sl))

/-- SIGNAL (R298). -/
def execSignal (c : CoreId) (sl : SlotId) (w : Cmd) (s : State) : Host.Outcome State Fault Refusal :=
  answer (opcIs w 0x12) (s.seqCmd c sl w signalInfo (bodySync c sl))

/-- CLAIM (R300). -/
def execClaim (c : CoreId) (sl : SlotId) (w : Cmd) (s : State) : Host.Outcome State Fault Refusal :=
  answer (opcIs w 0x13) ((s.closeFor c.val sl.val w).seqCmd c sl w claimInfo (bodyClaim c sl))

/-- FENCE (R305). -/
def execFence (c : CoreId) (sl : SlotId) (w : Cmd) (s : State) : Host.Outcome State Fault Refusal :=
  answer (opcIs w 0x14) (s.seqCmd c sl w fenceInfo (bodyFence c.val sl.val))

/-- SINIT (R296). -/
def execSinit (c : CoreId) (sl : SlotId) (w : Cmd) (s : State) : Host.Outcome State Fault Refusal :=
  answer (opcIs w 0x15) (s.seqCmd c sl w sinitInfo (bodySync c sl))

/-- SFREE (R297). -/
def execSfree (c : CoreId) (sl : SlotId) (w : Cmd) (s : State) : Host.Outcome State Fault Refusal :=
  answer (opcIs w 0x16) (s.seqCmd c sl w sfreeInfo (bodySync c sl))

/-- MMA (R122). -/
def execMma (c : CoreId) (sl : SlotId) (w : Cmd) (s : State) : Host.Outcome State Fault Refusal :=
  answer (opcIs w 0x20) (s.engCmd c sl w mmaInfo)

/-- MRD (R123). -/
def execMrd (c : CoreId) (sl : SlotId) (w : Cmd) (s : State) : Host.Outcome State Fault Refusal :=
  answer (opcIs w 0x21) (s.engCmd c sl w mrdInfo)

/-- MSD (R121). -/
def execMsd (c : CoreId) (sl : SlotId) (w : Cmd) (s : State) : Host.Outcome State Fault Refusal :=
  answer (opcIs w 0x22) (s.engCmd c sl w msdInfo)

/-- MLD (R144). -/
def execMld (c : CoreId) (sl : SlotId) (w : Cmd) (s : State) : Host.Outcome State Fault Refusal :=
  answer (opcIs w 0x23) (s.engCmd c sl w mldInfo)

/-- MMOVE (R141). -/
def execMmove (c : CoreId) (sl : SlotId) (w : Cmd) (s : State) : Host.Outcome State Fault Refusal :=
  answer (opcIs w 0x24) (s.engCmd c sl w mmoveInfo)

/-- MREL (R145). -/
def execMrel (c : CoreId) (sl : SlotId) (w : Cmd) (s : State) : Host.Outcome State Fault Refusal :=
  answer (opcIs w 0x25) (s.engCmd c sl w mrelInfo)

/-- VLD (R154). -/
def execVld (c : CoreId) (sl : SlotId) (w : Cmd) (s : State) : Host.Outcome State Fault Refusal :=
  answer (opcIs w 0x30) (s.engCmd c sl w vldInfo)

/-- VST (R155). -/
def execVst (c : CoreId) (sl : SlotId) (w : Cmd) (s : State) : Host.Outcome State Fault Refusal :=
  answer (opcIs w 0x31) (s.engCmd c sl w vstInfo)

/-- VOP (R156). -/
def execVop (c : CoreId) (sl : SlotId) (w : Cmd) (s : State) : Host.Outcome State Fault Refusal :=
  answer (opcIs w 0x32) (s.engCmd c sl w vopInfo)

/-- VCVT (R157). -/
def execVcvt (c : CoreId) (sl : SlotId) (w : Cmd) (s : State) : Host.Outcome State Fault Refusal :=
  answer (opcIs w 0x33) (s.engCmd c sl w vcvtInfo)

/-- VALA (R158). -/
def execVala (c : CoreId) (sl : SlotId) (w : Cmd) (s : State) : Host.Outcome State Fault Refusal :=
  answer (opcIs w 0x34) (s.engCmd c sl w valaInfo)

/-- VMOVE (R142). -/
def execVmove (c : CoreId) (sl : SlotId) (w : Cmd) (s : State) : Host.Outcome State Fault Refusal :=
  answer (opcIs w 0x35) (s.engCmd c sl w vmoveInfo)

/-- VREL (R145). -/
def execVrel (c : CoreId) (sl : SlotId) (w : Cmd) (s : State) : Host.Outcome State Fault Refusal :=
  answer (opcIs w 0x36) (s.engCmd c sl w vrelInfo)

/-- RRED (R163). -/
def execRred (c : CoreId) (sl : SlotId) (w : Cmd) (s : State) : Host.Outcome State Fault Refusal :=
  answer (opcIs w 0x40) (s.engCmd c sl w rowInfo)

/-- RNORM (R167). -/
def execRnorm (c : CoreId) (sl : SlotId) (w : Cmd) (s : State) : Host.Outcome State Fault Refusal :=
  answer (opcIs w 0x41) (s.engCmd c sl w rowInfo)

/-- RNORMB (R174). -/
def execRnormb (c : CoreId) (sl : SlotId) (w : Cmd) (s : State) : Host.Outcome State Fault Refusal :=
  answer (opcIs w 0x42) (s.engCmd c sl w rowInfo)

/-- RSMAX (R167). -/
def execRsmax (c : CoreId) (sl : SlotId) (w : Cmd) (s : State) : Host.Outcome State Fault Refusal :=
  answer (opcIs w 0x43) (s.engCmd c sl w rowInfo)

/-- RSMAXB (R173). -/
def execRsmaxb (c : CoreId) (sl : SlotId) (w : Cmd) (s : State) : Host.Outcome State Fault Refusal :=
  answer (opcIs w 0x44) (s.engCmd c sl w rowInfo)

/-- RSPILL (R172). -/
def execRspill (c : CoreId) (sl : SlotId) (w : Cmd) (s : State) : Host.Outcome State Fault Refusal :=
  answer (opcIs w 0x45) (s.engCmd c sl w spillInfo)

/-- RFILL (R172). -/
def execRfill (c : CoreId) (sl : SlotId) (w : Cmd) (s : State) : Host.Outcome State Fault Refusal :=
  answer (opcIs w 0x46) (s.engCmd c sl w spillInfo)

/-- COPY (R215). -/
def execCopy (c : CoreId) (sl : SlotId) (w : Cmd) (s : State) : Host.Outcome State Fault Refusal :=
  answer (opcIs w 0x50) (s.engCmd c sl w copyInfo)

/-- SKEWC (R216). -/
def execSkewc (c : CoreId) (sl : SlotId) (w : Cmd) (s : State) : Host.Outcome State Fault Refusal :=
  answer (opcIs w 0x51) (s.engCmd c sl w skewInfo)

/-- TSKEWC (R216). -/
def execTskewc (c : CoreId) (sl : SlotId) (w : Cmd) (s : State) : Host.Outcome State Fault Refusal :=
  answer (opcIs w 0x52) (s.engCmd c sl w skewInfo)

/-- GATHER (R218). -/
def execGather (c : CoreId) (sl : SlotId) (w : Cmd) (s : State) : Host.Outcome State Fault Refusal :=
  answer (opcIs w 0x53) (s.engCmd c sl w gatherInfo)

/-- SCATTER (R218). -/
def execScatter (c : CoreId) (sl : SlotId) (w : Cmd) (s : State) : Host.Outcome State Fault Refusal :=
  answer (opcIs w 0x54) (s.engCmd c sl w gatherInfo)

/-- MCAST (R219). -/
def execMcast (c : CoreId) (sl : SlotId) (w : Cmd) (s : State) : Host.Outcome State Fault Refusal :=
  answer (opcIs w 0x55) (s.engCmd c sl w mcastInfo)

/-- NEIGHBOUR (R220). -/
def execNeighbour (c : CoreId) (sl : SlotId) (w : Cmd) (s : State) : Host.Outcome State Fault Refusal :=
  answer (opcIs w 0x56) (s.engCmd c sl w neighbourInfo)

/-- GCOPY (R221). -/
def execGcopy (c : CoreId) (sl : SlotId) (w : Cmd) (s : State) : Host.Outcome State Fault Refusal :=
  answer (opcIs w 0x57) (s.engCmd c sl w gcopyInfo)

/-- TLOAD (R222). -/
def execTload (c : CoreId) (sl : SlotId) (w : Cmd) (s : State) : Host.Outcome State Fault Refusal :=
  answer (opcIs w 0x58) (s.engCmd c sl w tloadInfo)

/-- QCFG (R224). -/
def execQcfg (c : CoreId) (sl : SlotId) (w : Cmd) (s : State) : Host.Outcome State Fault Refusal :=
  answer (opcIs w 0x59) (s.engCmd c sl w qcfgInfo)

/-- APROG (R227). -/
def execAprog (c : CoreId) (sl : SlotId) (w : Cmd) (s : State) : Host.Outcome State Fault Refusal :=
  answer (opcIs w 0x5A) (s.engCmd c sl w aprogInfo)

/-- PUT (R329). -/
def execPut (c : CoreId) (sl : SlotId) (w : Cmd) (s : State) : Host.Outcome State Fault Refusal :=
  answer (opcIs w 0x60) (s.engCmd c sl w putInfo)

/-- GET (R329). -/
def execGet (c : CoreId) (sl : SlotId) (w : Cmd) (s : State) : Host.Outcome State Fault Refusal :=
  answer (opcIs w 0x61) (s.engCmd c sl w getInfo)

/-- ATOMIC (R331). -/
def execAtomic (c : CoreId) (sl : SlotId) (w : Cmd) (s : State) : Host.Outcome State Fault Refusal :=
  answer (opcIs w 0x62) (s.engCmd c sl w atomicInfo)

/-- RPUT (R332). -/
def execRput (c : CoreId) (sl : SlotId) (w : Cmd) (s : State) : Host.Outcome State Fault Refusal :=
  answer (opcIs w 0x63) (s.engCmd c sl w rputInfo)

/-- DSET (R269). -/
def execDset (c : CoreId) (sl : SlotId) (w : Cmd) (s : State) : Host.Outcome State Fault Refusal :=
  answer (opcIs w 0x68) (s.engCmd c sl w dsetInfo)

/-- DUPD (R274). -/
def execDupd (c : CoreId) (sl : SlotId) (w : Cmd) (s : State) : Host.Outcome State Fault Refusal :=
  answer (opcIs w 0x69) (s.engCmd c sl w dupdInfo)

/-- DNORM (R278). -/
def execDnorm (c : CoreId) (sl : SlotId) (w : Cmd) (s : State) : Host.Outcome State Fault Refusal :=
  answer (opcIs w 0x6A) (s.engCmd c sl w dnormInfo)

/-- DREAD (R269). -/
def execDread (c : CoreId) (sl : SlotId) (w : Cmd) (s : State) : Host.Outcome State Fault Refusal :=
  answer (opcIs w 0x6B) (s.engCmd c sl w dreadInfo)

end Sys2Proof.Machine
end

