-- ==== Sys2Proof/Machine/MeshRows.lean ====
section
/-! DEFINITION. Flits at routers, the seam, multicast trees, and mesh clocks that stop and wake
(R16 to R19, R199, R229 to R233, R365, R366, R420). Flits carry no addresses here: what a
command moves is in its own step, and a flit that is ejected waits for its slab (log 18). -/

namespace Sys2Proof.Machine

/-! ### Checks at a router (R195, R199) -/

/-- A half of a flit after the check: its data and check bytes. -/
def flitHalf (d : BitVec 256) (c : BitVec 32) : BitVec 256 × BitVec 32 :=
  let bytes := bytesOf d 32
  match dcheck (c ^^^ rsCheck bytes) with
  | .fixed p e =>
    let b := fixBytes bytes p e
    (BitVec.ofNat 256 (leNat b), rsCheck b)
  | .bad => (d, rsCheck bytes ^^^ poisonX)
  | _ => (d, c)

/-- A flit as the receiving router forwards it. -/
def checkedFlit (f : Flit) : Flit :=
  let lo := flitHalf (f.data.setWidth 256) (f.chk.setWidth 32)
  let hi := flitHalf ((f.data >>> 256).setWidth 256) ((f.chk >>> 32).setWidth 32)
  { f with
    data := (hi.1.setWidth 512 <<< 256) ||| lo.1.setWidth 512
    chk := (hi.2.setWidth 64 <<< 32) ||| lo.2.setWidth 64 }

/-! ### Where a flit goes next -/

/-- Column and row at which a multicast enters its rectangle (R232). -/
def flitXc (f : Flit) : Nat := min (max (coreX f.src.val) f.x0.val) f.x1.val
def flitYc (f : Flit) : Nat := min (max (coreY f.src.val) f.y0.val) f.y1.val

def flitCovers (f : Flit) (r : Nat) : Bool :=
  decide (f.x0.val ≤ coreX r) && decide (coreX r ≤ f.x1.val) && decide (f.y0.val ≤ coreY r) && decide (coreY r ≤ f.y1.val)

/-- Directions in which router r passes a multicast flit on (R232). -/
def flitDirs (f : Flit) (r : Nat) : List Nat :=
  let x := coreX r
  let y := coreY r
  if flitCovers f r then
    if y = flitYc f then
      (if flitXc f ≤ x ∧ x < f.x1.val then [2] else []) ++ (if x ≤ flitXc f ∧ f.x0.val < x then [3] else []) ++
      (if f.y0.val < y then [0] else []) ++ (if y < f.y1.val then [1] else [])
    else if y < flitYc f then (if f.y0.val < y then [0] else [])
    else if y < f.y1.val then [1] else []
  else if x < flitXc f then [2]
  else if flitXc f < x then [3]
  else if y < flitYc f then [1] else [0]

/-! ### Links and the seam (R17, R231) -/

/-- Key of a flit on its way to router t from router r: the router, or the seam FIFO of its row
and direction. -/
def linkKey (r t : Nat) : Nat :=
  if coreX r = 23 ∧ coreX t = 24 then 960 + 2 * coreY r
  else if coreX r = 24 ∧ coreX t = 23 then 960 + 2 * coreY r + 1
  else t

/-- Keys under which a flit that arrives at a router may stand. -/
def arrivalKeys (r : Nat) : List Nat :=
  if coreX r = 24 then [r, 960 + 2 * coreY r] else if coreX r = 23 then [r, 960 + 2 * coreY r + 1] else [r]

/-- The sender holds a credit for a virtual channel of a seam FIFO: 16 slots reserved for each
channel and 16 shared. -/
def State.seamCredit (s : State) (key vc : Nat) : Bool :=
  let n (v : Nat) : Nat := (s.flits.filter (fun e => e.1 = key && e.2.vc.val = v)).length
  decide (n vc < 16) || decide ((n 0 - 16) + (n 1 - 16) + (n 2 - 16) < 16)

/-- The link can take a flit now. -/
def State.linkFree (s : State) (r t : Nat) (f : Flit) : Bool :=
  let k := linkKey r t
  decide (k < 960) || s.seamCredit k f.vc.val

/-- Routers on the tree path of a multicast to a destination. -/
def flitPath (f : Flit) (d : Nat) : List Nat :=
  let xs := coreX f.src.val
  let ys := coreY f.src.val
  let between (a b : Nat) : List Nat := (List.range (max a b - min a b + 1)).map (· + min a b)
  (between xs (flitXc f)).map (fun a => coreAt a ys) ++ (between ys (flitYc f)).map (fun b => coreAt (flitXc f) b) ++
  (between (flitXc f) (coreX d)).map (fun a => coreAt a (flitYc f)) ++ (between (flitYc f) (coreY d)).map (fun b => coreAt (coreX d) b)

/-- Flits lost when a copy of `f` would pass router t, which is out of service: one for each
destination that it would have reached (R420). -/
def lostCopies (f : Flit) (t : Nat) : List Flit :=
  if f.vc = 2 then
    ((List.finRange 960).filter (fun d => flitCovers f d.val && (flitPath f d.val).contains t)).map (fun d => { f with dst := d })
  else [f]

/-- A flit leaves router r in a direction. -/
def State.forward (s : State) (r : Nat) (f : Flit) (dir : Nat) : State :=
  match routerAt r dir with
  | none => s
  | some t =>
    if s.routerDown t then { s with lostFlits := lostCopies f t ++ s.lostFlits }
    else { s with flits := s.flits ++ [(linkKey r t, f)] }

/-- Every link that the flit needs can take it. -/
def State.canForward (s : State) (r : Nat) (f : Flit) (dirs : List Nat) : Bool :=
  dirs.all (fun d => match routerAt r d with
    | none => true
    | some t => s.linkFree r t f)

/-! ### Arrival -/

/-- The same flit but for errors of the link. -/
def flitSame (a b : Flit) : Bool := { a with data := b.data, chk := b.chk } = b

/-- Takes the arriving flit off its link. -/
def State.takeFlit (s : State) (r : Nat) (f : Flit) : State :=
  match s.flits.find? (fun e => (arrivalKeys r).contains e.1 && flitSame e.2 f) with
  | some e => { s with flits := s.flits.erase e }
  | none => s

/-- A flit that its router cannot take waits on its link. -/
def State.holdFlit (s : State) (r : Nat) (f : Flit) : State :=
  match s.flits.find? (fun e => (arrivalKeys r).contains e.1 && flitSame e.2 f) with
  | some _ => s
  | none => { s with flits := s.flits ++ [(r, f)] }

def fin48 (n : Nat) : Fin 48 := if h : n < 48 then ⟨n, h⟩ else 0
def fin20 (n : Nat) : Fin 20 := if h : n < 20 then ⟨n, h⟩ else 0

/-- The copy of a flit that its own router is to eject: of a multicast, the copy for that router alone. -/
def hereOnly (f : Flit) (r : Nat) : Flit :=
  if f.vc = 2 then { f with x0 := fin48 (coreX r), x1 := fin48 (coreX r), y0 := fin20 (coreY r), y1 := fin20 (coreY r) } else f

/-- The ejection buffer of the core takes the flit, or the flit waits at the router while the buffer is
full; what goes elsewhere passes it (R182). -/
def State.ejectFlit (s : State) (r : Nat) (f : Flit) : State :=
  if (s.core r).eject.length < 32 then s.modCore r (fun k => { k with eject := k.eject ++ [f] })
  else { s with flits := s.flits ++ [(r, hereOnly f r)] }

/-- Requests that wait in the slots of a cluster's port controller i (R188). -/
def Cluster.waiting (u : Cluster) (i : Nat) : Nat := KV.get 0 u.reqs i

/-- The cluster's port controller i takes a request while one of its 112 slots is free, else the request
waits in the mesh; a response needs no slot (R188). -/
def State.toPort (s : State) (r i : Nat) (f : Flit) : State :=
  let k := clusterOf r
  let u := s.cluster k
  if f.vc ≠ 0 then s.takeFlit r f
  else if u.waiting i < 112 then (s.takeFlit r f).setCluster k { u with reqs := KV.put 0 u.reqs i (u.waiting i + 1) }
  else s.holdFlit r f

/-- A flit at its destination leaves by the port that it names, where the router has that port (R15,
R20). -/
def State.arrived (s : State) (r : Nat) (f : Flit) : State :=
  match f.out, verticalPort r with
  | .local, _ => (s.takeFlit r f).ejectFlit r (checkedFlit f)
  | .vertical, some i => s.toPort r i f
  | .vertical, none => s
  | .edge, _ => if (edgeBlock r).isSome then s.takeFlit r f else s

/-- A flit arrives at router r: it is checked, ejected or passed on, or waits. -/
def State.flitArrival (s : State) (r : Nat) (f : Flit) : State :=
  if s.routerDown r then { s.takeFlit r f with lostFlits := lostCopies f r ++ s.lostFlits }
  else if s.halfStands (halfOf r) then s.holdFlit r f
  else if f.vc = 2 then
    let dirs := flitDirs f r
    let deliver := flitCovers f r && s.available r
    if !s.canForward r f dirs then s.holdFlit r f
    else
      let g := checkedFlit f
      let s := dirs.foldl (fun s d => s.forward r g d) (s.takeFlit r f)
      if deliver then s.ejectFlit r g else s
  else if f.dst.val = r then s.arrived r f
  else
    let d := s.routeDir r f.dst.val
    if s.canForward r f [d] then (s.takeFlit r f).forward r (checkedFlit f) d else s.holdFlit r f

def execFlitArrival (r : CoreId) (f : Flit) (s : State) : Host.Outcome State Fault Refusal := .next (s.flitArrival r.val f)

/-! ### Mesh clocks (R365, R366) -/

/-- Half whose wait table holds a record: the waiting half's for a remote object, else the half
of the object's home. -/
def waitHalf (r : WaitRec) : Nat :=
  match r.remote, r.who with
  | true, .unit x => waiterHalf x
  | _, _ => fld r.handle 15 15

/-- Half from which a request at a channel of the slow tier came; none for the Damson's own. -/
def clientHalf : TierClient → Option Nat
  | .access c => some (halfOf c.val)
  | .fetch c _ => some (halfOf c.val)
  | .walk c => some (halfOf c.val)
  | .hostClass h => some (h.val / 8)
  | .host => some (halfOf (pcieRouter 0))
  | .fabric p => some (halfOf (fibreRouter p.val 0))
  | .update _ => none
  | .scrub _ => none

/-- Requests of a half at the slow tier and at its Damsons. -/
def State.tierOwes (s : State) (h : Nat) : Bool :=
  s.channels.any (fun e => e.2.pool.any (fun r => clientHalf r.req.client = some h)) ||
    s.damsons.any (fun e => (e.2.updates ++ e.2.descr ++ (e.2.running.map (·.part)).toList).any
      (fun p => !p.lost && halfOf p.core.val = h))

/-- The core's cluster PLL may stand: the core is in C2 or C3 and is not to leave it (R354). -/
def Core.deep (k : Core) : Bool := (k.cst = .c2 || k.cst = .c3) && !k.waking

/-- The PLL of a cluster runs (R354): it stops when every position is in C2 or C3, and starts when one
is to leave them. -/
def State.clusterPll (s : State) (k : Nat) : Bool := s.cores.any (fun e => clusterOf e.1 = k && !e.2.deep)

/-- Every host-class core of a half is gated (R28). -/
def State.hcsGated (s : State) (h : Nat) : Bool :=
  (List.finRange 16).all (fun x => decide (x.val / 8 ≠ h) || s.power.hcGated.contains x)

/-- The host-core PLL runs: some host-class core is not gated (R354). -/
def State.hostPll (s : State) : Bool := !(s.hcsGated 0 && s.hcsGated 1)

/-- The mesh PLL of a half runs while its mesh clock is not stopped (R354, R365). -/
def State.meshPll (s : State) (h : Nat) : Bool := !s.power.meshStopped.any (fun x => x.val = h)

/-- A half is quiescent (R365). Its positions are all in C2 or C3 when the PLLs of its clusters stand. -/
def State.quiescent (s : State) (h : Nat) : Bool :=
  (List.range 60).all (fun k => decide (clusterHalf k ≠ h) || !s.clusterPll k) && s.hcsGated h &&
  s.cores.all (fun e => halfOf e.1 ≠ h || e.2.eject.isEmpty) &&
  !(s.sync.waits.any (fun r => waitHalf r = h)) && !s.tierOwes h &&
  !(s.fab.reqs.any (fun (r : FabReq) => halfOf r.core.val = h)) &&
  !(s.sync.reqs.any (fun e => waiterHalf e.2.who = h)) &&
  !(s.flits.any (fun e => if e.1 < 960 then halfOf e.1 = h else (e.1 - 960) % 2 ≠ h))

def execMeshClockStop (h : HalfId) (s : State) : Host.Outcome State Fault Refusal :=
  .next (if s.quiescent h.val && decide (s.rf oIdle 28 21 ≠ 0) then { s with power := { s.power with meshStopped := insertOnce s.power.meshStopped h } } else s)

def execMeshWake (h : HalfId) (s : State) : Host.Outcome State Fault Refusal :=
  .next { s with power := { s.power with meshStopped := s.power.meshStopped.filter (· ≠ h) } }

end Sys2Proof.Machine
end

