-- ==== Sys2Proof/Machine/Pins.lean ====
section
/-! DEFINITION. Input power, rails, the watchdog, THERMTRIP_N, PERST_N, D3hot and the I3C target
(R26 to R33, R426, R455 to R470, R474, R485). -/

namespace Sys2Proof.Machine

/-! ### Input power (R426, R458, R463, R469) -/

/-- MOD_ID and the banks as start-up finds them. -/
def State.powered (s : State) (banks : List Bank) : State :=
  { s with board := { s.board with v48 := true, auxOn := true }, sec := { s.sec with banks := banks } }

def State.inputOn (s : State) (banks : List Bank) (straps : BitVec 6) : State :=
  if s.board.v48 then s
  else if s.board.auxOn then (s.powered banks).restartModule 4
  else
    let s := { s.powered banks with board := { (s.powered banks).board with straps := straps } }
    (s.setRf oSbStat 21 16 straps.toNat).startRom 0

def execInputPowerOn (banks : List Bank) (straps : BitVec 6) (s : State) : Host.Outcome State Fault Refusal :=
  if banks.length ≠ 2 then .fault .illFormed else .next (s.inputOn banks straps)

/-- The one record that Pip still writes, unless it is held in reset: AUX holds mV, mW and °C (log 37). -/
def State.powerlossRecord (s : State) (volt power : BitVec 32) (hot : BitVec 8) : State :=
  if s.board.pipReset then { s with husk := { s.husk with queue := [], stopped := true } }
  else
  let h := { s.husk with queue := [], stopped := true }
  let e : HuskEnt := { kind := 5, aux := BitVec.ofNat 320 (pack [(32, volt.toNat), (32, power.toNat), (8, hot.toNat)]), time := s.aon }
  { s with husk := if h.slotFree then h.append e else h }

/-- Input is lost: the power side stops, the drives and the rails go. DESIGN CHOICE (log 91): the hold of R33
and the window of its counted cycles end with 48 V, of which R33 does not speak. -/
def State.inputLoss (s : State) (volt power : BitVec 32) (hot : BitVec 8) : State :=
  if !s.board.v48 then s
  else
    let s := ((s.powerlossRecord volt power hot).releaseSwitches).railsOff
    { s with board := { s.board with
        v48 := false, hold := false, holdCycle := false, thermtrip := false, faultPsc := false, recent := [] } }

def execInputPowerLoss (volt power : BitVec 32) (hot : BitVec 8) (s : State) : Host.Outcome State Fault Refusal :=
  .next (s.inputLoss volt power hot)

/-- What survives without the always-on domain: fuses, flash, Husk, the controller's own count, and
the switches as they rest. -/
def State.auxOff (s : State) : State :=
  { State.reset with
    pending := s.pending, fresh := s.fresh
    mem := s.mem
    regs := s.regs.filter (fun e => decide (oBypass 0 ≤ e.1) && decide (e.1 < oBypass 3))
    fab := { sent := s.fab.sent, through := s.fab.through, nextId := s.fab.nextId }
    hif := { msix := s.hif.msix }
    board := { cycles := s.board.cycles }
    husk := { s.husk with queue := [], stopped := false }
    sec := { fuses := s.sec.fuses, fusedMap := s.sec.fusedMap, failedSlabs := s.sec.failedSlabs, banks := s.sec.banks
             first := s.sec.first } }

def execHoldUpRunOut (s : State) : Host.Outcome State Fault Refusal :=
  .next (if s.board.v48 || !s.board.auxOn then s else s.cutShort.auxOff)

/-! ### PWR_EN and the rails (R459, R460, R467, R468) -/

def State.setPwrEn (s : State) (on : Bool) : State := s.setRf oSbStat 10 10 (b2n on)

/-- Every sensor reads below 95 °C, as last sampled. -/
def State.allCool (s : State) : Bool :=
  (List.range 136).all (fun i => decide ((s.rg (oSens + 8 * (i / 8))).toNat / 2 ^ (8 * (i % 8)) % 256 < 95))

/-- PWR_EN is asserted: it ends a hold or a thermal trip whose cycle it completes, restarts a
module that was shut down, or lets the rails of a start-up begin. -/
def State.pwrEnOn (s : State) : State :=
  if s.pwrEn then s
  else
    let s := s.setPwrEn true
    let s := { s with board := { s.board with faultModule := false } }
    if !s.board.auxOn then s
    else if s.board.hold && s.board.holdCycle then
      ({ s with board := { s.board with hold := false, holdCycle := false, faultPsc := false, recent := [] } }).startRom 3
    else if s.board.thermtrip && s.board.holdCycle && s.allCool then
      ({ s with board := { s.board with thermtrip := false, holdCycle := false } }).startRom 5
    else if s.heldOff then s
    else if s.board.shut then s.startRom 1
    else s.requestRails

def execPwrEnAssert (s : State) : Host.Outcome State Fault Refusal := .next s.pwrEnOn

/-- Every queued record is written, then SHUTDOWN and a signed CHECKPOINT (R427, R467). -/
def State.shutHusk (s : State) : State :=
  let s := (List.range s.husk.queue.length).foldl (fun s _ => s.writeRecord) s
  let h := if s.husk.slotFree then s.husk.append { kind := 4, time := s.aon } else s.husk
  { s with husk := if h.slotFree then h.checkpoint s.aon else h }

/-- PWR_EN is deasserted: the orderly power-down of a module whose rails are on or on their way. -/
def State.pwrEnOff (s : State) : State :=
  if !s.pwrEn then s
  else
    let s := s.setPwrEn false
    let s := { s with board := { s.board with holdCycle := s.board.hold || s.board.thermtrip } }
    if s.board.rails = 0 ∧ !s.board.sequencing then s
    else
      let s := s.releaseSwitches.shutHusk.railsOff
      { s with board := { s.board with shut := true } }

def execPwrEnDeassert (s : State) : Host.Outcome State Fault Refusal := .next s.pwrEnOff

def execRailSequenceStep (s : State) : Host.Outcome State Fault Refusal := .next s.sequenceStep

/-- WATCHDOG_HOLD (R33): a power cycle is counted; the third within 60 minutes holds the rails off
and Pip in reset. -/
def State.countCycle (s : State) : State :=
  let recent := (s.board.recent.filter (fun t => decide (s.aon.toNat - t < 180000000000))) ++ [s.aon.toNat]
  let s := { s with board := { s.board with recent := recent } }
  if recent.length < 3 then s
  else { s with board := { s.board with hold := true, holdCycle := false, faultPsc := true, pipReset := true, sequencing := false } }

def execWatchdogRefresh (s : State) : Host.Outcome State Fault Refusal :=
  .next (if s.board.auxOn && !s.board.pipReset then { s with board := { s.board with refreshAt := s.aon } } else s)

/-- No refresh for 1 s (R32). -/
def State.watchdogTrips (s : State) : State :=
  if !s.board.v48 || s.board.pipReset || decide ((s.aon - s.board.refreshAt).toNat < 50000000) then s
  else
    let s := s.releaseSwitches.railsOff
    let s := ({ s with board := { s.board with cycles := s.board.cycles + 1, refreshAt := s.aon } }).countCycle
    if s.board.pipReset then s else s.startRom 2

def execWatchdogPowerCycle (s : State) : Host.Outcome State Fault Refusal := .next s.watchdogTrips

/-- A rail that is on leaves regulation (R460). -/
def State.railFails (s : State) (rail : Nat) : State :=
  if s.board.rails ≤ rail then s
  else
    let s := s.post 0 { typ := evPower, husk := true, kind := 10, payload := pack [(8, 0x13), (8, rail + 1)] }
    let s := s.releaseSwitches.railsOff
    let s := { s with board := { s.board with hold := true, holdCycle := false, faultPsc := true } }
    s.countCycle.setRf oAlert 3 3 1

def execRailFault (rail : Fin 7) (s : State) : Host.Outcome State Fault Refusal := .next (s.railFails rail.val)

/-- THERMTRIP_N (R371, R470). The record is a NOTE that names the sensor (log 34). -/
def State.thermalTrip (s : State) (sensor : Nat) (temp : BitVec 8) : State :=
  if temp.toNat < 125 ∨ s.board.thermtrip then s
  else
    let s := s.husk' 7 0 (BitVec.ofNat 320 (pack [(8, sensor), (8, temp.toNat)]))
    let s := s.releaseSwitches.railsOff
    { s with board := { s.board with thermtrip := true, holdCycle := false } }

def execThermtrip (sensor : Fin 136) (temp : BitVec 8) (s : State) : Host.Outcome State Fault Refusal :=
  .next (s.thermalTrip sensor.val temp)

/-! ### PERST_N and D3hot (R457, R465, R466) -/

/-- The module rails are on. -/
def State.railsOn (s : State) : Bool := s.board.rails = 7

/-- PCIe state after a reset of the controller. -/
def State.resetPcie (s : State) : State :=
  { s with
    hif := { s.hif with linkUp := false, d3hot := false, masked := [], pendingMsix := [], waitRecs := [] }
    board := { s.board with wakeN := false }
    sec := { s.sec with ideKeys := [], ideOn := [], spdm := .idle, keyExchange := false, session := false } }

def execPerstNAssert (s : State) : Host.Outcome State Fault Refusal :=
  .next (
    if s.board.perstLow then s
    else
      let s := ({ s with board := { s.board with perstLow := true } }).setRf oSbStat 9 9 1
      if s.railsOn then (s.resetPcie.setRg oLink 0).requestReset .dieWarm 0 else s)

def execPerstNDeassert (width : BitVec 5) (speed : BitVec 4) (s : State) : Host.Outcome State Fault Refusal :=
  .next (
    if !s.board.perstLow then s
    else (({ s with board := { s.board with perstLow := false, link := (width, speed) } }).setRf oSbStat 9 9 0).linkTrain)

def execD3hotEntry (s : State) : Host.Outcome State Fault Refusal :=
  .next { s with hif := { s.hif with d3hot := true } }

/-- The PF returns to D0: WAKE_N is released, and the records that waited are written. -/
def execD3hotExit (s : State) : Host.Outcome State Fault Refusal :=
  .next (
    let rs := s.hif.waitRecs
    let s := { s with hif := { s.hif with d3hot := false, waitRecs := [] }, board := { s.board with wakeN := false } }
    rs.foldl (fun s r => s.writeEv r.1 r.2) s)

/-! ### The I3C target (R455, R456, R485) -/

def execEntdaa (addr : BitVec 7) (s : State) : Host.Outcome State Fault Refusal :=
  .next (if s.board.auxOn then { s with board := { s.board with i3cAddr := some addr, i3cSel := 0 } } else s)

/-- The first byte selects a register; PIP_ALERT takes the bytes that follow as W1C. -/
def State.i3cWrite (s : State) (data : List Byte) : State :=
  match data, s.board.i3cAddr with
  | i :: d, some _ =>
    let s := { s with board := { s.board with i3cSel := i } }
    if i = 2 then s.setRg oAlert (s.rg oAlert &&& ~~~(BitVec.ofNat 64 (leNat (d.take 4)))) else s
  | _, _ => s

def execI3cPrivateWrite (data : List Byte) (s : State) : Host.Outcome State Fault Refusal := .next (s.i3cWrite data)

/-- Bytes of the register at an index (Table 18-27). -/
def State.i3cBytes (s : State) (i : Nat) : List Byte :=
  match i with
  | 0 => bytesOf (s.rg oReady) 4
  | 1 => bytesOf (s.rg oSbStat) 4
  | 2 => bytesOf (s.rg oAlert) 4
  | 3 => bytesOf (s.rg oEol) 4
  | 4 => bytesOf (s.rg oEolFru) 4
  | 8 => bytesOf s.aon 8
  | 9 => bytesOf (s.rg oTelem) 8 ++ bytesOf (s.rg (oTelem + 8)) 8
  | 16 => ((List.range 17).map (fun k => bytesOf (s.rg (oSens + 8 * k)) 8)).flatten
  | _ => []

def execI3cPrivateRead (len : Nat) (s : State) : Host.Outcome State Fault Refusal :=
  .next (
    let b := s.i3cBytes s.board.i3cSel.toNat
    if s.board.i3cAddr.isSome then
      { s with board := { s.board with i3cReply := b.take len ++ List.replicate (len - b.length) 0xFF } }
    else s)

end Sys2Proof.Machine
end

