-- ==== Sys2Proof/Machine/Dispatch.lean ====
section
/-! DEFINITION. exec: one arm for each constructor of Instr. -/

namespace Sys2Proof.Machine

def exec (i : Instr) (s : State) : Host.Outcome State Fault Refusal :=
  match i with
  | .nop c sl w => Sys2Proof.Machine.execNop c sl w s
  | .endList c sl w => Sys2Proof.Machine.execEndList c sl w s
  | .loop c sl w => Sys2Proof.Machine.execLoop c sl w s
  | .endloop c sl w => Sys2Proof.Machine.execEndloop c sl w s
  | .skip c sl w => Sys2Proof.Machine.execSkip c sl w s
  | .brk c sl w => Sys2Proof.Machine.execBrk c sl w s
  | .setx c sl w => Sys2Proof.Machine.execSetx c sl w s
  | .alux c sl w => Sys2Proof.Machine.execAlux c sl w s
  | .tpost c sl w => Sys2Proof.Machine.execTpost c sl w s
  | .csnap c sl w => Sys2Proof.Machine.execCsnap c sl w s
  | .arrive c sl w => Sys2Proof.Machine.execArrive c sl w s
  | .wait c sl w => Sys2Proof.Machine.execWait c sl w s
  | .signal c sl w => Sys2Proof.Machine.execSignal c sl w s
  | .claim c sl w => Sys2Proof.Machine.execClaim c sl w s
  | .fence c sl w => Sys2Proof.Machine.execFence c sl w s
  | .sinit c sl w => Sys2Proof.Machine.execSinit c sl w s
  | .sfree c sl w => Sys2Proof.Machine.execSfree c sl w s
  | .mma c sl w => Sys2Proof.Machine.execMma c sl w s
  | .mrd c sl w => Sys2Proof.Machine.execMrd c sl w s
  | .msd c sl w => Sys2Proof.Machine.execMsd c sl w s
  | .mld c sl w => Sys2Proof.Machine.execMld c sl w s
  | .mmove c sl w => Sys2Proof.Machine.execMmove c sl w s
  | .mrel c sl w => Sys2Proof.Machine.execMrel c sl w s
  | .vld c sl w => Sys2Proof.Machine.execVld c sl w s
  | .vst c sl w => Sys2Proof.Machine.execVst c sl w s
  | .vop c sl w => Sys2Proof.Machine.execVop c sl w s
  | .vcvt c sl w => Sys2Proof.Machine.execVcvt c sl w s
  | .vala c sl w => Sys2Proof.Machine.execVala c sl w s
  | .vmove c sl w => Sys2Proof.Machine.execVmove c sl w s
  | .vrel c sl w => Sys2Proof.Machine.execVrel c sl w s
  | .rred c sl w => Sys2Proof.Machine.execRred c sl w s
  | .rnorm c sl w => Sys2Proof.Machine.execRnorm c sl w s
  | .rnormb c sl w => Sys2Proof.Machine.execRnormb c sl w s
  | .rsmax c sl w => Sys2Proof.Machine.execRsmax c sl w s
  | .rsmaxb c sl w => Sys2Proof.Machine.execRsmaxb c sl w s
  | .rspill c sl w => Sys2Proof.Machine.execRspill c sl w s
  | .rfill c sl w => Sys2Proof.Machine.execRfill c sl w s
  | .copy c sl w => Sys2Proof.Machine.execCopy c sl w s
  | .skewc c sl w => Sys2Proof.Machine.execSkewc c sl w s
  | .tskewc c sl w => Sys2Proof.Machine.execTskewc c sl w s
  | .gather c sl w => Sys2Proof.Machine.execGather c sl w s
  | .scatter c sl w => Sys2Proof.Machine.execScatter c sl w s
  | .mcast c sl w => Sys2Proof.Machine.execMcast c sl w s
  | .neighbour c sl w => Sys2Proof.Machine.execNeighbour c sl w s
  | .gcopy c sl w => Sys2Proof.Machine.execGcopy c sl w s
  | .tload c sl w => Sys2Proof.Machine.execTload c sl w s
  | .qcfg c sl w => Sys2Proof.Machine.execQcfg c sl w s
  | .aprog c sl w => Sys2Proof.Machine.execAprog c sl w s
  | .put c sl w => Sys2Proof.Machine.execPut c sl w s
  | .get c sl w => Sys2Proof.Machine.execGet c sl w s
  | .atomic c sl w => Sys2Proof.Machine.execAtomic c sl w s
  | .rput c sl w => Sys2Proof.Machine.execRput c sl w s
  | .dset c sl w => Sys2Proof.Machine.execDset c sl w s
  | .dupd c sl w => Sys2Proof.Machine.execDupd c sl w s
  | .dnorm c sl w => Sys2Proof.Machine.execDnorm c sl w s
  | .dread c sl w => Sys2Proof.Machine.execDread c sl w s
  | .listLaunch h c addr => Sys2Proof.Machine.execListLaunch h c addr s
  | .listStart c => Sys2Proof.Machine.execListStart c s
  | .commandFetch c sl off hostErr => Sys2Proof.Machine.execCommandFetch c sl off hostErr s
  | .tokenWaitRelease c e sl => Sys2Proof.Machine.execTokenWaitRelease c e sl s
  | .tileComplete c t => Sys2Proof.Machine.execTileComplete c t s
  | .accessCommandComplete c n => Sys2Proof.Machine.execAccessCommandComplete c n s
  | .tloadRowArrival c n => Sys2Proof.Machine.execTloadRowArrival c n s
  | .operandQueueRelease c q => Sys2Proof.Machine.execOperandQueueRelease c q s
  | .mcastAck c dst => Sys2Proof.Machine.execMcastAck c dst s
  | .preemptRequest r c ctx => Sys2Proof.Machine.execPreemptRequest r c ctx s
  | .preemptDrainComplete c sl => Sys2Proof.Machine.execPreemptDrainComplete c sl s
  | .preemptBoundExpiry c sl => Sys2Proof.Machine.execPreemptBoundExpiry c sl s
  | .walkResponse c fetchSlot ats => Sys2Proof.Machine.execWalkResponse c fetchSlot ats s
  | .memXltResume a v => Sys2Proof.Machine.execMemXltResume a v s
  | .memTlbInv a v => Sys2Proof.Machine.execMemTlbInv a v s
  | .tlbInvDone => Sys2Proof.Machine.execTlbInvDone s
  | .hostClassCoreAccess h acc => Sys2Proof.Machine.execHostClassCoreAccess h acc s
  | .slabAccess cl c off op => Sys2Proof.Machine.execSlabAccess cl c off op s
  | .aliasWrite c set off data => Sys2Proof.Machine.execAliasWrite c set off data s
  | .clusterMemoryAccess k port off op => Sys2Proof.Machine.execClusterMemoryAccess k port off op s
  | .memSlabState a c v => Sys2Proof.Machine.execMemSlabState a c v s
  | .memSegState a k v => Sys2Proof.Machine.execMemSegState a k v s
  | .memoryStateTransitionDone m => Sys2Proof.Machine.execMemoryStateTransitionDone m s
  | .memoryWakeFromRet m => Sys2Proof.Machine.execMemoryWakeFromRet m s
  | .scrubRead m => Sys2Proof.Machine.execScrubRead m s
  | .correctionWriteback m => Sys2Proof.Machine.execCorrectionWriteback m s
  | .flitArrival r f => Sys2Proof.Machine.execFlitArrival r f s
  | .meshClockStop h => Sys2Proof.Machine.execMeshClockStop h s
  | .meshWake h => Sys2Proof.Machine.execMeshWake h s
  | .slowTierRequest r => Sys2Proof.Machine.execSlowTierRequest r s
  | .bankRetry r => Sys2Proof.Machine.execBankRetry r s
  | .channelRefresh ch begins => Sys2Proof.Machine.execChannelRefresh ch begins s
  | .onlineRetraining ch begins => Sys2Proof.Machine.execOnlineRetraining ch begins s
  | .patrolScrub ch => Sys2Proof.Machine.execPatrolScrub ch s
  | .ddrTraining dimms failed => Sys2Proof.Machine.execDdrTraining dimms failed s
  | .dmsSplit a v => Sys2Proof.Machine.execDmsSplit a v s
  | .dmsEpoch a k v => Sys2Proof.Machine.execDmsEpoch a k v s
  | .dmsEpochAll a v => Sys2Proof.Machine.execDmsEpochAll a v s
  | .updatePartStart k => Sys2Proof.Machine.execUpdatePartStart k s
  | .updatePartComplete k => Sys2Proof.Machine.execUpdatePartComplete k s
  | .damsonResult c k => Sys2Proof.Machine.execDamsonResult c k s
  | .syncResponse x => Sys2Proof.Machine.execSyncResponse x s
  | .completionCounterAdd h => Sys2Proof.Machine.execCompletionCounterAdd h s
  | .waitTimeout x => Sys2Proof.Machine.execWaitTimeout x s
  | .syncQuarantineEnd ix => Sys2Proof.Machine.execSyncQuarantineEnd ix s
  | .remoteSyncTimeout tag => Sys2Proof.Machine.execRemoteSyncTimeout tag s
  | .remoteStatePoll h handle state => Sys2Proof.Machine.execRemoteStatePoll h handle state s
  | .creditLend c => Sys2Proof.Machine.execCreditLend c s
  | .frameReceive p f fr => Sys2Proof.Machine.execFrameReceive p f fr s
  | .nakReceive p f seq => Sys2Proof.Machine.execNakReceive p f seq s
  | .packetRoute arrival pk => Sys2Proof.Machine.execPacketRoute arrival pk s
  | .putPacket p pk => Sys2Proof.Machine.execPutPacket p pk s
  | .getPacket p pk => Sys2Proof.Machine.execGetPacket p pk s
  | .atomicPacket p pk => Sys2Proof.Machine.execAtomicPacket p pk s
  | .rputPacket p pk => Sys2Proof.Machine.execRputPacket p pk s
  | .notifyPacket p pk => Sys2Proof.Machine.execNotifyPacket p pk s
  | .syncPacket p pk => Sys2Proof.Machine.execSyncPacket p pk s
  | .syncupd p pk => Sys2Proof.Machine.execSyncupd p pk s
  | .getdata p pk => Sys2Proof.Machine.execGetdata p pk s
  | .atomicrsp p pk => Sys2Proof.Machine.execAtomicrsp p pk s
  | .syncrsp p pk => Sys2Proof.Machine.execSyncrsp p pk s
  | .ack p pk => Sys2Proof.Machine.execAck p pk s
  | .nack p pk => Sys2Proof.Machine.execNack p pk s
  | .dataRequestTimeout p tag => Sys2Proof.Machine.execDataRequestTimeout p tag s
  | .tagQuarantineEnd p tag => Sys2Proof.Machine.execTagQuarantineEnd p tag s
  | .packetResidenceExpiry p pk => Sys2Proof.Machine.execPacketResidenceExpiry p pk s
  | .lightLoss p => Sys2Proof.Machine.execLightLoss p s
  | .portTraining p o => Sys2Proof.Machine.execPortTraining p o s
  | .trainingRetry p => Sys2Proof.Machine.execTrainingRetry p s
  | .portEnable a d => Sys2Proof.Machine.execPortEnable a d s
  | .portDisable a p => Sys2Proof.Machine.execPortDisable a p s
  | .retrain a p => Sys2Proof.Machine.execRetrain a p s
  | .dimensionJoinTimeout d => Sys2Proof.Machine.execDimensionJoinTimeout d s
  | .fabTopo a v => Sys2Proof.Machine.execFabTopo a v s
  | .creditPeriodStart fixed input temps => Sys2Proof.Machine.execCreditPeriodStart fixed input temps s
  | .pwrProfile a v => Sys2Proof.Machine.execPwrProfile a v s
  | .profileChangeProgress h => Sys2Proof.Machine.execProfileChangeProgress h s
  | .coreIdleTransition c => Sys2Proof.Machine.execCoreIdleTransition c s
  | .coreWake c => Sys2Proof.Machine.execCoreWake c s
  | .halfThermalThrottle h => Sys2Proof.Machine.execHalfThermalThrottle h s
  | .halfThermalRestore h => Sys2Proof.Machine.execHalfThermalRestore h s
  | .thermtrip sensor temp => Sys2Proof.Machine.execThermtrip sensor temp s
  | .doorbellPoll f r doorbell => Sys2Proof.Machine.execDoorbellPoll f r doorbell s
  | .ringGoIdle f r doorbell => Sys2Proof.Machine.execRingGoIdle f r doorbell s
  | .ringIdlePoll f r doorbell => Sys2Proof.Machine.execRingIdlePoll f r doorbell s
  | .wake f r => Sys2Proof.Machine.execWake f r s
  | .submit f r d => Sys2Proof.Machine.execSubmit f r d s
  | .restore f r d => Sys2Proof.Machine.execRestore f r d s
  | .preempt f r d => Sys2Proof.Machine.execPreempt f r d s
  | .descriptorPlacement f r => Sys2Proof.Machine.execDescriptorPlacement f r s
  | .ringEnable f r v => Sys2Proof.Machine.execRingEnable f r v s
  | .ringDisable f r v => Sys2Proof.Machine.execRingDisable f r v s
  | .evqEnable f q v => Sys2Proof.Machine.execEvqEnable f q v s
  | .evqConsumerReread q consumer => Sys2Proof.Machine.execEvqConsumerReread q consumer s
  | .msixModerationTimeout q => Sys2Proof.Machine.execMsixModerationTimeout q s
  | .hifCtxInv a v => Sys2Proof.Machine.execHifCtxInv a v s
  | .hifPart a n v => Sys2Proof.Machine.execHifPart a n v s
  | .hifApt a n v => Sys2Proof.Machine.execHifApt a n v s
  | .hifHcCtx a n v => Sys2Proof.Machine.execHifHcCtx a n v s
  | .hostRequest f b off op poisoned => Sys2Proof.Machine.execHostRequest f b off op poisoned s
  | .atsInvalidation lo hi => Sys2Proof.Machine.execAtsInvalidation lo hi s
  | .flr f => Sys2Proof.Machine.execFlr f s
  | .d3hotEntry => Sys2Proof.Machine.execD3hotEntry s
  | .perstNAssert => Sys2Proof.Machine.execPerstNAssert s
  | .perstNDeassert width speed => Sys2Proof.Machine.execPerstNDeassert width speed s
  | .getVersion => Sys2Proof.Machine.execGetVersion s
  | .getCapabilities => Sys2Proof.Machine.execGetCapabilities s
  | .negotiateAlgorithms supported => Sys2Proof.Machine.execNegotiateAlgorithms supported s
  | .getCertificate slot => Sys2Proof.Machine.execGetCertificate slot s
  | .challenge slot nonce => Sys2Proof.Machine.execChallenge slot nonce s
  | .getMeasurements sign nonce => Sys2Proof.Machine.execGetMeasurements sign nonce s
  | .keyExchange ephemeral => Sys2Proof.Machine.execKeyExchange ephemeral s
  | .finish macOk => Sys2Proof.Machine.execFinish macOk s
  | .ideKm op => Sys2Proof.Machine.execIdeKm op s
  | .commit a v => Sys2Proof.Machine.execCommit a v s
  | .fwUpdate a v => Sys2Proof.Machine.execFwUpdate a v s
  | .fwUpdateDone image flashOk => Sys2Proof.Machine.execFwUpdateDone image flashOk s
  | .secLock a => Sys2Proof.Machine.execSecLock a s
  | .hangSample => Sys2Proof.Machine.execHangSample s
  | .rasHb a n => Sys2Proof.Machine.execRasHb a n s
  | .heartbeatInterval => Sys2Proof.Machine.execHeartbeatInterval s
  | .engineReset r c e => Sys2Proof.Machine.execEngineReset r c e s
  | .hostClassCoreReset r h => Sys2Proof.Machine.execHostClassCoreReset r h s
  | .coreReset r c => Sys2Proof.Machine.execCoreReset r c s
  | .clusterReset r k => Sys2Proof.Machine.execClusterReset r k s
  | .fabricPortReset r d => Sys2Proof.Machine.execFabricPortReset r d s
  | .damsonReset r k => Sys2Proof.Machine.execDamsonReset r k s
  | .dieWarmReset r => Sys2Proof.Machine.execDieWarmReset r s
  | .moduleReset r => Sys2Proof.Machine.execModuleReset r s
  | .resetComplete d => Sys2Proof.Machine.execResetComplete d s
  | .resetBoundExpiry d => Sys2Proof.Machine.execResetBoundExpiry d s
  | .fenceCore r c => Sys2Proof.Machine.execFenceCore r c s
  | .fenceCluster r k portsAnswer => Sys2Proof.Machine.execFenceCluster r k portsAnswer s
  | .fenceDrainEnd c => Sys2Proof.Machine.execFenceDrainEnd c s
  | .fenceClear a v => Sys2Proof.Machine.execFenceClear a v s
  | .routerOutOfService c => Sys2Proof.Machine.execRouterOutOfService c s
  | .huskRecordWrite => Sys2Proof.Machine.execHuskRecordWrite s
  | .norCopy blockFails => Sys2Proof.Machine.execNorCopy blockFails s
  | .bbxSel a v => Sys2Proof.Machine.execBbxSel a v s
  | .ageingCalibration samples => Sys2Proof.Machine.execAgeingCalibration samples s
  | .telemetrySample t => Sys2Proof.Machine.execTelemetrySample t s
  | .telemetryEvent => Sys2Proof.Machine.execTelemetryEvent s
  | .inputPowerOn banks straps => Sys2Proof.Machine.execInputPowerOn banks straps s
  | .inputPowerLoss volt power hottest => Sys2Proof.Machine.execInputPowerLoss volt power hottest s
  | .pwrEnAssert => Sys2Proof.Machine.execPwrEnAssert s
  | .pwrEnDeassert => Sys2Proof.Machine.execPwrEnDeassert s
  | .railSequenceStep => Sys2Proof.Machine.execRailSequenceStep s
  | .watchdogRefresh => Sys2Proof.Machine.execWatchdogRefresh s
  | .watchdogPowerCycle => Sys2Proof.Machine.execWatchdogPowerCycle s
  | .railFault rail => Sys2Proof.Machine.execRailFault rail s
  | .throttleNAssert => Sys2Proof.Machine.execThrottleNAssert s
  | .throttleNDeassert => Sys2Proof.Machine.execThrottleNDeassert s
  | .throttleHoldEnd => Sys2Proof.Machine.execThrottleHoldEnd s
  | .throttleUnstable => Sys2Proof.Machine.execThrottleUnstable s
  | .throttleStable => Sys2Proof.Machine.execThrottleStable s
  | .throttleNote => Sys2Proof.Machine.execThrottleNote s
  | .entdaa addr => Sys2Proof.Machine.execEntdaa addr s
  | .i3cPrivateWrite data => Sys2Proof.Machine.execI3cPrivateWrite data s
  | .i3cPrivateRead len => Sys2Proof.Machine.execI3cPrivateRead len s
  | .registerWrite a off data => Sys2Proof.Machine.execRegisterWrite a off data s
  | .engineCommandComplete c e n => Sys2Proof.Machine.execEngineCommandComplete c e n s
  | .descriptorPartArrival k => Sys2Proof.Machine.execDescriptorPartArrival k s
  | .meshPathLostTimeout c n => Sys2Proof.Machine.execMeshPathLostTimeout c n s
  | .bypassSwitchSettled d => Sys2Proof.Machine.execBypassSwitchSettled d s
  | .holdUpRunOut => Sys2Proof.Machine.execHoldUpRunOut s
  | .d3hotExit => Sys2Proof.Machine.execD3hotExit s
  | .dimmCaseTemperature ch temp => Sys2Proof.Machine.execDimmCaseTemperature ch temp s
  | .ctxInvDone => Sys2Proof.Machine.execCtxInvDone s
  | .bbxFetchDone => Sys2Proof.Machine.execBbxFetchDone s
  | .svnFuseBlowDone => Sys2Proof.Machine.execSvnFuseBlowDone s

end Sys2Proof.Machine
end

