-- ==== Sys2Proof/Safety.lean ====
section
/-! DEFINITION. The terms in which claims about the machine are stated: the canonical form of
memory, what an outcome holds, what a command leaves alone, and when a list command acts. -/

namespace Sys2Proof.Machine

/-- The canonical form of memory: keys strictly rising, no entry that equals what an unlisted
byte reads as. -/
def Memory.wf (m : List Host.Cell) : Bool := KV.wf 0 m

/-- The command answers a next state, and that state holds `P`. -/
def Completes (i : Instr) (s : State) (P : State → Prop) : Prop := ∃ t, exec i s = .next t ∧ P t

/-! ### Frames -/

/-- The parts of the state: the bytes of the device (slabs, cluster memory, slow tier), the bytes
of host memory, and one part for each other field. -/
inductive Area where
  | pending | aon | fresh | mem | host | chk | reported | lines | regs | cores | clusters | mems | tlbInv | flits | lostFlits
  | dimmGib | dimmBanks | damsons | channels | sync | fab | hif | power | board | ras | husk | sec
  deriving DecidableEq, Repr

/-- A part is the same in two states. -/
def Area.same (s t : State) : Area → Prop
  | .pending => t.pending = s.pending
  | .aon => t.aon = s.aon
  | .fresh => t.fresh = s.fresh
  | .mem => ∀ a, a < 2 ^ 65 → t.byte a = s.byte a
  | .host => ∀ a, 2 ^ 65 ≤ a → t.byte a = s.byte a
  | .chk => t.chk = s.chk
  | .reported => t.reported = s.reported
  | .lines => t.lines = s.lines
  | .regs => t.regs = s.regs
  | .cores => t.cores = s.cores
  | .clusters => t.clusters = s.clusters
  | .mems => t.mems = s.mems
  | .tlbInv => t.tlbInv = s.tlbInv
  | .flits => t.flits = s.flits
  | .lostFlits => t.lostFlits = s.lostFlits
  | .dimmGib => t.dimmGib = s.dimmGib
  | .dimmBanks => t.dimmBanks = s.dimmBanks
  | .damsons => t.damsons = s.damsons
  | .channels => t.channels = s.channels
  | .sync => t.sync = s.sync
  | .fab => t.fab = s.fab
  | .hif => t.hif = s.hif
  | .power => t.power = s.power
  | .board => t.board = s.board
  | .ras => t.ras = s.ras
  | .husk => t.husk = s.husk
  | .sec => t.sec = s.sec

/-- Every part outside `l` is the same in two states. -/
def KeptBut (l : List Area) (s t : State) : Prop := ∀ p, p ∉ l → p.same s t

/-- The parts that posting a record may change: registers that count drops, queues and
messages of the host interface, host memory, the Husk queue, WAKE_N. -/
def eventParts : List Area := [.host, .regs, .hif, .husk, .board]

/-- One list of parts lies within another. -/
def Area.sub (a b : List Area) : Bool := a.all (fun x => b.contains x)

/-- Every part but the queue of waiting commands and the always-on clock. -/
def blockParts : List Area :=
  [.fresh, .mem, .host, .chk, .reported, .lines, .regs, .cores, .clusters, .mems, .tlbInv,
    .flits, .lostFlits, .dimmGib, .dimmBanks, .damsons, .channels, .sync, .fab, .hif, .power,
    .board, .ras, .husk, .sec]

/-- The parts that lists at work may change: a command that ends may let others start, on its core and,
through the sync store and the slow tier, elsewhere. -/
def coreParts : List Area :=
  [.fresh, .mem, .host, .chk, .reported, .lines, .regs, .cores, .clusters, .mems, .damsons,
    .sync, .fab, .hif, .board, .husk]

/-- The parts of the state that a command may change; it leaves every other part as it was. -/
def touchedBy : Instr → List Area
  | .nop .. | .endList .. | .loop .. | .endloop .. | .skip .. | .brk .. | .setx .. | .alux ..
  | .tpost .. | .csnap .. | .arrive .. | .wait .. | .signal .. | .claim .. | .fence ..
  | .sinit .. | .sfree .. | .mma .. | .mrd .. | .msd .. | .mld .. | .mmove .. | .mrel ..
  | .vld .. | .vst .. | .vop .. | .vcvt .. | .vala .. | .vmove .. | .vrel .. | .rred ..
  | .rnorm .. | .rnormb .. | .rsmax .. | .rsmaxb .. | .rspill .. | .rfill .. | .copy ..
  | .skewc .. | .tskewc .. | .gather .. | .scatter .. | .mcast .. | .neighbour .. | .gcopy ..
  | .tload .. | .qcfg .. | .aprog .. | .put .. | .get .. | .atomic .. | .rput .. | .dset ..
  | .dupd .. | .dnorm .. | .dread .. | .commandFetch .. | .tokenWaitRelease ..
  | .tileComplete .. | .accessCommandComplete .. | .tloadRowArrival ..
  | .operandQueueRelease .. | .mcastAck .. | .preemptRequest .. | .preemptDrainComplete ..
  | .walkResponse .. | .memXltResume .. | .damsonResult .. | .getdata .. | .atomicrsp ..
  | .ack .. | .nack .. | .dataRequestTimeout .. | .tagQuarantineEnd .. | .coreWake ..
  | .submit .. | .restore .. | .preempt .. | .engineCommandComplete .. => coreParts
  | .listLaunch .. => [.cores]
  | .listStart .. | .syncResponse .. => [.power] ++ coreParts
  | .preemptBoundExpiry .. | .hostClassCoreAccess .. | .hostRequest .. | .perstNAssert
  | .hangSample | .heartbeatInterval | .engineReset .. | .hostClassCoreReset ..
  | .coreReset .. | .clusterReset .. | .fabricPortReset .. | .damsonReset ..
  | .dieWarmReset .. | .moduleReset .. | .resetBoundExpiry .. | .fenceClear ..
  | .inputPowerOn .. | .watchdogPowerCycle | .registerWrite .. => blockParts
  | .memTlbInv .. | .tlbInvDone => [.cores, .tlbInv]
  | .slabAccess .. | .aliasWrite .. => [.fresh, .mem, .chk, .reported, .cores, .mems] ++ eventParts
  | .clusterMemoryAccess .. =>
    [.fresh, .mem, .chk, .reported, .clusters, .mems, .power] ++ eventParts
  | .memSlabState .. | .memSegState .. | .memoryWakeFromRet .. => [.mems]
  | .memoryStateTransitionDone .. => [.mem, .host, .chk, .reported, .cores, .mems]
  | .scrubRead .. => [.reported, .mems] ++ eventParts
  | .correctionWriteback .. => [.mem, .host, .chk, .reported, .mems]
  | .flitArrival .. => [.cores, .clusters, .flits, .lostFlits]
  | .meshClockStop .. | .meshWake .. => [.power]
  | .slowTierRequest .. | .bankRetry .. => [.channels] ++ coreParts
  | .channelRefresh .. | .onlineRetraining .. => [.channels, .hif]
  | .patrolScrub .. => [.mem, .chk, .reported, .lines, .mems, .damsons, .channels] ++ eventParts
  | .ddrTraining .. => [.dimmGib, .dimmBanks] ++ eventParts
  | .dmsSplit .. => [.fresh, .mem, .damsons, .sec] ++ eventParts
  | .dmsEpoch .. | .dmsEpochAll .. | .hifPart .. | .hifApt .. | .hifHcCtx .. | .secLock ..
  | .bbxSel .. | .dimmCaseTemperature .. | .bbxFetchDone => [.regs]
  | .updatePartStart .. => [.fresh, .mem, .chk, .reported, .lines, .mems, .damsons] ++ eventParts
  | .updatePartComplete .. => [.mem, .chk, .reported, .cores, .mems, .damsons] ++ eventParts
  | .completionCounterAdd .. | .notifyPacket .. => [.cores, .sync, .fab] ++ eventParts
  | .waitTimeout .. | .syncPacket .. | .syncrsp .. => [.reported, .cores, .sync, .fab] ++ eventParts
  | .syncQuarantineEnd .. => [.sync]
  | .remoteSyncTimeout .. | .remoteStatePoll .. | .syncupd .. => [.cores, .sync, .fab]
  | .creditLend .. => [.cores, .clusters, .power]
  | .frameReceive .. | .nakReceive .. | .lightLoss .. | .portTraining .. | .portEnable ..
  | .portDisable .. | .retrain .. | .dimensionJoinTimeout .. => [.fab] ++ eventParts
  | .packetRoute .. => [.regs, .fab, .power]
  | .putPacket .. | .rputPacket .. =>
    [.fresh, .mem, .chk, .reported, .lines, .cores, .mems, .damsons, .fab] ++ eventParts
  | .getPacket .. => [.fresh, .mem, .chk, .reported, .mems, .fab] ++ eventParts
  | .atomicPacket .. => [.fresh, .mem, .chk, .reported, .lines, .mems, .damsons, .fab] ++ eventParts
  | .packetResidenceExpiry .. => [.fab]
  | .trainingRetry .. | .evqEnable .. | .telemetryEvent => eventParts
  | .fabTopo .. | .fwUpdateDone .. | .svnFuseBlowDone => [.sec] ++ eventParts
  | .creditPeriodStart .. =>
    [.fresh, .mem, .chk, .reported, .cores, .clusters, .mems, .power] ++ eventParts
  | .pwrProfile .. => [.power, .sec] ++ eventParts
  | .profileChangeProgress .. => [.regs, .power]
  | .coreIdleTransition .. => [.fresh, .cores]
  | .halfThermalThrottle .. | .halfThermalRestore .. | .throttleNAssert | .throttleStable =>
    [.power] ++ eventParts
  | .thermtrip .. | .inputPowerLoss .. | .pwrEnDeassert =>
    [.mem, .chk, .reported, .lines, .regs, .cores, .clusters, .mems, .tlbInv, .flits,
      .lostFlits, .dimmGib, .dimmBanks, .damsons, .channels, .sync, .fab, .hif, .power,
      .board, .ras, .husk, .sec]
  | .doorbellPoll .. | .ringGoIdle .. | .ringEnable .. | .ringDisable .. => [.host, .regs, .hif]
  | .ringIdlePoll .. | .wake .. => [.host, .regs]
  | .descriptorPlacement .. => [.cores] ++ eventParts
  | .evqConsumerReread .. | .msixModerationTimeout .. | .hifCtxInv .. | .d3hotEntry
  | .ctxInvDone => [.hif]
  | .atsInvalidation .. => [.cores, .hif]
  | .flr .. => [.sec] ++ coreParts
  | .perstNDeassert .. => [.regs, .hif, .board]
  | .getVersion | .getCapabilities | .negotiateAlgorithms .. | .finish .. | .ideKm ..
  | .commit .. => [.sec]
  | .getCertificate .. | .challenge .. | .getMeasurements .. | .keyExchange .. => [.fresh, .sec]
  | .fwUpdate .. => [.regs, .sec]
  | .rasHb .. => [.ras]
  | .resetComplete .. => [.power, .ras] ++ coreParts
  | .fenceCore .. | .fenceCluster .. | .fenceDrainEnd .. | .routerOutOfService .. =>
    [.ras] ++ coreParts
  | .huskRecordWrite => [.husk]
  | .norCopy .. | .ageingCalibration .. => [.fresh] ++ eventParts
  | .telemetrySample .. => [.regs, .sync, .fab]
  | .pwrEnAssert => [.fresh, .sec] ++ eventParts
  | .railSequenceStep => [.mem, .chk, .reported, .sync, .power] ++ eventParts
  | .watchdogRefresh | .entdaa .. | .i3cPrivateRead .. => [.board]
  | .railFault .. =>
    [.mem, .chk, .reported, .lines, .cores, .clusters, .mems, .tlbInv, .flits, .lostFlits,
      .dimmGib, .dimmBanks, .damsons, .channels, .sync, .fab, .power, .ras, .sec] ++
      eventParts
  | .throttleNDeassert | .throttleHoldEnd => [.regs, .power, .board]
  | .throttleUnstable => [.fresh, .power] ++ eventParts
  | .throttleNote => [.regs, .husk]
  | .i3cPrivateWrite .. => [.regs, .board]
  | .descriptorPartArrival .. => [.damsons]
  | .meshPathLostTimeout .. => [.fresh, .cores, .lostFlits]
  | .bypassSwitchSettled .. => [.regs, .fab]
  | .holdUpRunOut =>
    [.aon, .fresh, .chk, .reported, .lines, .regs, .cores, .clusters, .mems, .tlbInv,
      .flits, .lostFlits, .dimmGib, .dimmBanks, .damsons, .channels, .sync, .fab, .hif,
      .power, .board, .ras, .husk, .sec]
  | .d3hotExit => [.host, .regs, .hif, .board]

/-! ### Sound bytes -/

/-- A 32-byte half of a slab or of cluster memory can be read and written as it stands: its
memory is in ON with no transition under way, and its check bytes are right (R192, R196). -/
def State.soundHalf (s : State) (h : Nat) : Bool :=
  match memOf (32 * h) with
  | some m => decide (s.memSt m = .on) && decide ((s.memU m).target = none) && decide (KV.get 0 s.chk h = 0)
  | none => false

/-- Every half that n bytes from a key on touch is sound. -/
def State.sound (s : State) (key n : Nat) : Bool := (List.range n).all (fun i => s.soundHalf ((key + i) / 32))

/-! ### When a list command acts -/

/-- The command after resolution (R113). -/
def resolved (o : OpInfo) (s : State) (c : CoreId) (sl : SlotId) (w : Cmd) : Cmd :=
  o.resolve (s.slot c.val sl.val) w

/-- A command stands where the sequencer can execute it: at the program counter of a slot that
nothing holds, formed, within its masks (R97, R108 to R113). -/
def Ready (o : OpInfo) (s : State) (c : CoreId) (sl : SlotId) (w : Cmd) : Prop :=
  s.seqReady c.val sl.val w = true ∧ o.form w = true ∧
    o.within (s.slot c.val sl.val).hdr (resolved o s c sl w) = true

/-- The token of WEN is there, if the command names one (R101). -/
def TokenThere (x : Slot) (r : Cmd) : Prop := cWen r = true → x.tok (cWtok r) ≠ 0

/-- The slot does not wait to go on: it stands at no END and no FENCE, and one that drains has its
access commands out and waits for its image. -/
def Slot.calm (x : Slot) : Prop :=
  (match x.hold with
    | .ending _ => False
    | .fence _ => False
    | _ => True) ∧
  (x.draining = true → x.accessOut = true ∧ x.quiet = false ∧ x.stopping = none)

/-- Nothing of a core waits to go on: no engine queue holds a command, the access engine holds
no Damson command back, and no slot waits. -/
def Core.calm (k : Core) : Prop :=
  (∀ e, e < 4 → k.queue e = []) ∧ (∀ q ∈ k.run 3, q.await ≠ [dmUnsent]) ∧ ∀ j, j < 4 → (k.slot j).calm

/-- The slot when the token of WEN is taken. -/
def Slot.takeToken (x : Slot) (r : Cmd) : Slot :=
  { (if cWen r then x.setTok (cWtok r) (x.tok (cWtok r) - 1) else x) with hold := .none }

/-- The slot when a command that ends with OK reports: the register of STSEL, the token of PEN
where it fits, the next command. -/
def Slot.ended (x : Slot) (r : Cmd) (pc : Nat) : Option Slot :=
  let y := x.report { w := r, status := stOk, off := x.pc }
  (if cPen r then y.post (cPtok r) 1 else some y).map (fun z => { z with pc := BitVec.ofNat 32 pc })

/-- A command stands at an offset of the list whose fetch did not fail, and where its word is
known it is a listed one. -/
def Slot.stands (x : Slot) (pc : Nat) : Prop :=
  pc < hLength x.hdr ∧ x.bad.find? (fun e => e.1 = BitVec.ofNat 32 pc) = none ∧
    match x.buffered pc with
    | some w => listed (cOpc w) = true
    | none => True

/-- A command of the sequencer touches one slot, the counter of issued commands, the sequencer's
progress count and its record of the slot it served last, and nothing else of the state. -/
def OnlySlot (c : CoreId) (sl : SlotId) (s t : State) : Prop :=
  KeptBut [.cores] s t ∧ (∀ d, d ≠ c.val → t.core d = s.core d) ∧
  (∀ j, j ≠ sl.val → t.slot c.val j = s.slot c.val j) ∧
  ∃ ss cs ms, t.core c.val = { s.core c.val with slots := ss, counters := cs, mons := ms, served := sl.val }

/-- A command of the sequencer ends with OK, its own effect on its slot being `x`: the slot is
`x` with the status register, the token of PEN and the next program counter (R101, R115), one
command more is counted (Table 04-13), and the rest of the state is as in `d`. -/
def SeqEffect (i : Instr) (s d : State) (c : CoreId) (sl : SlotId) (r : Cmd) (x : Slot) (pc : Nat) : Prop :=
  ∀ y, x.ended r pc = some y → y.stands pc → Completes i s (fun t =>
    t.slot c.val sl.val = y ∧ OnlySlot c sl d t ∧
      KV.get 0 (t.core c.val).counters 0x10 = KV.get 0 (d.core c.val).counters 0x10 + 1)

/-! ### When a command for an engine starts -/

/-- The entry of a command in its engine's queue (R97, R113, R223, R247), its token taken or not. -/
def State.queued (s : State) (o : OpInfo) (c : CoreId) (sl : SlotId) (w : Cmd) (taken : Bool) : QEnt :=
  let r := resolved o s c sl w
  { slot := sl, off := (s.slot c.val sl.val).pc, w := r, claims := (s.core c.val).openClaims sl.val, tokenTaken := taken
    inc := match cenIndex r with
      | some i => (s.syncEnt i).inc
      | none => 0 }

/-- The entry at which its engine starts the command. -/
def State.headEntry (s : State) (o : OpInfo) (c : CoreId) (sl : SlotId) (w : Cmd) : QEnt :=
  s.queued o c sl w (cWen (resolved o s c sl w))

/-- The state once the command has been dispatched to an empty queue: the program counter is at
the next command. -/
def State.dispatched (s : State) (o : OpInfo) (c : CoreId) (sl : SlotId) (w : Cmd) : State :=
  let q := s.queued o c sl w false
  let k := ((s.core c.val).setQueue o.engine [q]).bumpClaims q.claims
  ((s.setCore c.val k).issued c.val sl.val).modSlot c.val sl.val (fun x => { x with pc := BitVec.ofNat 32 (q.off.toNat + 1) })

/-- The state at which its engine starts the command, having taken the token of WEN. -/
def State.headState (s : State) (o : OpInfo) (c : CoreId) (sl : SlotId) (w : Cmd) : State :=
  let d := s.dispatched o c sl w
  let r := resolved o s c sl w
  if cWen r then
    let x := d.slot c.val sl.val
    (d.setSlot c.val sl.val (x.setTok (cWtok r) (x.tok (cWtok r) - 1))).modCore c.val
      (fun k => k.putHead o.engine (s.headEntry o c sl w))
  else d

/-- A command for an engine that its engine can take at once (R97, R99, R101). -/
structure HeadReady (o : OpInfo) (s : State) (c : CoreId) (sl : SlotId) (w : Cmd) : Prop where
  ready : Ready o s c sl w
  engine : o.engine < 4
  calm : (s.core c.val).calm
  up : (s.core c.val).stalled o.engine = false
  room : (s.core c.val).depth o.engine < 64
  token : TokenThere (s.slot c.val sl.val) (resolved o s c sl w)
  next : (s.slot c.val sl.val).stands ((s.slot c.val sl.val).pc.toNat + 1)

/-- A command that the access engine can take at once and that waits for no earlier one (R210). -/
structure AccessReady (o : OpInfo) (s : State) (c : CoreId) (sl : SlotId) (w : Cmd) : Prop extends HeadReady o s c sl w where
  clear : (s.core c.val).hazard c.val (resolved o s c sl w) = false

/-- The command has left the head of its queue and is in execution, which is progress (Table 15-2). -/
def State.launched (t : State) (c e : Nat) (q : QEnt) : State :=
  (t.enters c e).modCore c (fun k => (k.pop e).setRun e (k.run e ++ [q]))

/-- The commands for an engine: core, slot, word, description and opcode (Table 04-7). -/
def engineRow : Instr → Option (CoreId × SlotId × Cmd × OpInfo × Nat)
  | .mma c sl w => some (c, sl, w, mmaInfo, 0x20)
  | .mrd c sl w => some (c, sl, w, mrdInfo, 0x21)
  | .msd c sl w => some (c, sl, w, msdInfo, 0x22)
  | .mld c sl w => some (c, sl, w, mldInfo, 0x23)
  | .mmove c sl w => some (c, sl, w, mmoveInfo, 0x24)
  | .mrel c sl w => some (c, sl, w, mrelInfo, 0x25)
  | .vld c sl w => some (c, sl, w, vldInfo, 0x30)
  | .vst c sl w => some (c, sl, w, vstInfo, 0x31)
  | .vop c sl w => some (c, sl, w, vopInfo, 0x32)
  | .vcvt c sl w => some (c, sl, w, vcvtInfo, 0x33)
  | .vala c sl w => some (c, sl, w, valaInfo, 0x34)
  | .vmove c sl w => some (c, sl, w, vmoveInfo, 0x35)
  | .vrel c sl w => some (c, sl, w, vrelInfo, 0x36)
  | .rred c sl w => some (c, sl, w, rowInfo, 0x40)
  | .rnorm c sl w => some (c, sl, w, rowInfo, 0x41)
  | .rnormb c sl w => some (c, sl, w, rowInfo, 0x42)
  | .rsmax c sl w => some (c, sl, w, rowInfo, 0x43)
  | .rsmaxb c sl w => some (c, sl, w, rowInfo, 0x44)
  | .rspill c sl w => some (c, sl, w, spillInfo, 0x45)
  | .rfill c sl w => some (c, sl, w, spillInfo, 0x46)
  | .copy c sl w => some (c, sl, w, copyInfo, 0x50)
  | .skewc c sl w => some (c, sl, w, skewInfo, 0x51)
  | .tskewc c sl w => some (c, sl, w, skewInfo, 0x52)
  | .gather c sl w => some (c, sl, w, gatherInfo, 0x53)
  | .scatter c sl w => some (c, sl, w, gatherInfo, 0x54)
  | .mcast c sl w => some (c, sl, w, mcastInfo, 0x55)
  | .neighbour c sl w => some (c, sl, w, neighbourInfo, 0x56)
  | .gcopy c sl w => some (c, sl, w, gcopyInfo, 0x57)
  | .tload c sl w => some (c, sl, w, tloadInfo, 0x58)
  | .qcfg c sl w => some (c, sl, w, qcfgInfo, 0x59)
  | .aprog c sl w => some (c, sl, w, aprogInfo, 0x5A)
  | .put c sl w => some (c, sl, w, putInfo, 0x60)
  | .get c sl w => some (c, sl, w, getInfo, 0x61)
  | .atomic c sl w => some (c, sl, w, atomicInfo, 0x62)
  | .rput c sl w => some (c, sl, w, rputInfo, 0x63)
  | .dset c sl w => some (c, sl, w, dsetInfo, 0x68)
  | .dupd c sl w => some (c, sl, w, dupdInfo, 0x69)
  | .dnorm c sl w => some (c, sl, w, dnormInfo, 0x6A)
  | .dread c sl w => some (c, sl, w, dreadInfo, 0x6B)
  | _ => none

/-- What the engine finds when it takes the command at once. -/
def State.starting (s : State) (o : OpInfo) (c : CoreId) (sl : SlotId) (w : Cmd) : Start :=
  startOn (s.headState o c sl w) c.val o.engine (s.headEntry o c sl w)

/-- A command of slot sl at a list offset stops its slot, as its engine e says at the state `u`: the slot is free
where nothing of it is left in execution and it has no answers outstanding, else it drains with that status (R130). -/
def Stops (i : Instr) (s : State) (c : CoreId) (sl : SlotId) (e : Nat) (off : BitVec 32) (u : State) (st : BitVec 8)
    (detail : Nat) : Prop :=
  Completes i s (fun t =>
    (t.slot c.val sl.val = {} ∨ ((t.slot c.val sl.val).draining = true ∧ ((u.slot c.val sl.val).stopping = none →
      (t.slot c.val sl.val).stopping = some (st, { engine := e, off := off.toNat, detail := detail })))) ∧
    ((∀ f, f < 4 → ∀ p ∈ (u.core c.val).run f, p.slot ≠ sl) → (u.core c.val).program = none →
      u.owesAnswers c.val sl.val = false → t.slot c.val sl.val = {}))

/-- What becomes of the command at the head of the queue of engine e, as the engine finds when it takes it: it
starts, completes at once, stays at the head, or stops its slot, as does a token post that does not fit. -/
def Comes (i : Instr) (s : State) (c : CoreId) (sl : SlotId) (e : Nat) (off : BitVec 32) : Start → Prop
  | .go t q => exec i s = .next (t.launched c.val e q)
  | .fin t q => if ((t.slot c.val q.slot.val).posted q.w).isSome then
      exec i s = .next ((t.modCore c.val (fun k => k.pop e)).complete c.val e q)
    else Stops i s c sl e off t stIllegal 0
  | .wait t => exec i s = .next t
  | .hold t q => exec i s = .next (t.modCore c.val (fun k => k.putHead e q))
  | .stop t st detail => Stops i s c sl e off t st detail

/-- The command leaves the head of its queue and is in execution; its effect is in the state. -/
def Starts (i : Instr) (o : OpInfo) (s : State) (c : CoreId) (P : State → QEnt → Prop) : Prop :=
  ∃ t q, exec i s = .next (t.launched c.val o.engine q) ∧ P t q

/-- Of the state only the commands in execution on core c changed. -/
def OnlyRuns (c : CoreId) (s t : State) : Prop :=
  KeptBut [.cores] s t ∧ (∀ d, d ≠ c.val → t.core d = s.core d) ∧ ∃ r, t.core c.val = { s.core c.val with running := r }

/-- The command completes at once with nothing done (R155, R211). -/
def State.emptied (s : State) (o : OpInfo) (c : CoreId) (sl : SlotId) (w : Cmd) : State :=
  ((s.headState o c sl w).modCore c.val (fun k => k.pop o.engine)).complete c.val o.engine (s.headEntry o c sl w)

/-! ### Ranges of a core's slabs -/

/-- Every range of a core's slabs is inside the slab space and sound. -/
def State.soundAll (s : State) (c : CoreId) (l : List (Nat × Nat)) : Bool :=
  l.all (fun r => inSlabSpace r.1 r.2 && s.sound (slabKey c.val r.1) r.2)

/-- The bytes of ranges of a core's slabs. -/
def State.pieces (s : State) (c : CoreId) (l : List (Nat × Nat)) : Pieces :=
  l.map (fun r => (r.1, s.bytes (slabKey c.val r.1) r.2))

/-- Stores pieces one after another in a core's slabs. -/
def State.putAll (s : State) (c : CoreId) (l : Pieces) : State :=
  l.foldl (fun s p => s.putBytes (slabKey c.val p.1) p.2) s

/-- Of the cores, core c alone changed: it is `k`, but for its unread marks and its counters. -/
def CoreIs (c : CoreId) (k : Core) (d t : State) : Prop :=
  (∃ u n, t.core c.val = { k with unread := u, counters := n }) ∧ ∀ x, x ≠ c.val → t.core x = d.core x

/-- A command that reads slabs and writes registers: core c is `k`, every byte is as it was. -/
def RegsOnly (c : CoreId) (k : Core) (d t : State) : Prop :=
  CoreIs c k d t ∧ KeptBut [.cores] d t

/-- A command that writes pieces to the slabs of its core: they are stored in their order, every other byte
is as it was, and core c is `k`. -/
def Stores (c : CoreId) (k : Core) (l : Pieces) (d t : State) : Prop :=
  CoreIs c k d t ∧ KeptBut [.mem, .chk, .reported, .mems, .cores] d t ∧ ∀ a, t.byte a = (d.putAll c l).byte a

/-- Of the cores only unread marks, counters and progress counts changed. -/
def CountsOnly (d t : State) : Prop := ∀ x, ∃ u n m, t.core x = { d.core x with unread := u, counters := n, mons := m }

/-- n bytes at a device address lie in cluster memory or in the plain view of a slab, are sound, and no router
out of service stands on the way between them and router r (R420). -/
def State.plain (s : State) (r a n : Nat) : Prop :=
  (regionOf a = .cluster ∨ ∃ k, regionOf a = .slab k 0) ∧ spanOk a n = true ∧ s.sound a n = true ∧
    ∀ b, b < n → s.lostTo r (.die (a + b)) = false ∧ s.lostFrom r (.die (a + b)) = false

/-- Two ranges of n bytes share no byte. -/
def Apart (a b n : Nat) : Prop := a + n ≤ b ∨ b + n ≤ a

/-- A movement on the die: bytes of slabs and cluster memories are stored, words become unread, counts move. -/
def Moves (d t : State) : Prop := CountsOnly d t ∧ KeptBut [.mem, .chk, .reported, .mems, .cores] d t

/-- Bytes of a request. -/
def accessBytes : Access → Nat
  | .read n => n
  | .write d => d.length

end Sys2Proof.Machine
end

