-- ==== Sys2Proof/Certificates/Slice0/Obligations.lean ====
section
/-! DEFINITION. The statements about the block that are to be proved, each a Prop. -/

open Sys2Proof Sys2Proof.Machine

/-! ### The machine -/

/-- A step runs the command at the front of the queue on the state with the queue's rest. -/
def Obligations.StepRunsFront : Prop :=
  ∀ (c : Instr) (s : State), step { s with pending := c :: s.pending } = exec c s

/-- With no command waiting the always-on counter (R349) advances by one tick and nothing else moves. That the
idle step is a tick is the model's choice (log 2). -/
def Obligations.IdleTick : Prop :=
  ∀ s : State, s.pending = [] → ∃ t, step s = .next t ∧ t.aon.toNat = (s.aon.toNat + 1) % 2 ^ 64 ∧ KeptBut [.aon] s t

/-- A well-formed command always answers a next state: errors of a list (R111, R130), refused requests and resets are
effects on the state. An ill-formed one is the fault illFormed (the model's choice, log 120). -/
def Obligations.WellFormedRuns : Prop :=
  ∀ (i : Instr) (s : State), if wellFormed i then ∃ t, exec i s = .next t else exec i s = .fault .illFormed

/-- What each command leaves alone: every part of the state outside `touchedBy i`, memory byte by byte. No command
touches the queue, and only the loss of the always-on domain touches the always-on counter. -/
def Obligations.CommandFrames : Prop :=
  ∀ (i : Instr) (s t : State), exec i s = .next t →
    KeptBut (touchedBy i) s t ∧ t.pending = s.pending ∧ (i ≠ .holdUpRunOut → t.aon = s.aon)

/-- Every step keeps memory in its canonical form (the model's, log 4): keys strictly rising, no entry that an
unlisted byte reads as. -/
def Obligations.MemoryStaysCanonical : Prop :=
  ∀ s t : State, Memory.wf s.mem = true → step s = .next t → Memory.wf t.mem = true

/-- Memory is in its canonical form at reset. -/
def Obligations.ResetMemoryCanonical : Prop := Memory.wf State.reset.mem = true

/-- No step clears a fuse bit of the anti-rollback count or changes the fused map (R7, R8, R441). -/
def Obligations.FusesNeverFall : Prop :=
  ∀ s t : State, step s = .next t →
    (∀ i, s.sec.fuses.getLsbD i = true → t.sec.fuses.getLsbD i = true) ∧ t.sec.fusedMap = s.sec.fusedMap ∧
      s.fusedCount ≤ t.fusedCount

/-! ### Lists and the sequencer -/

/-- Table 04-7, ALUX: the ten operations on 64-bit words, modulo 2^64 (R117); shifts by the low six bits of
the second operand, MIN and MAX unsigned. -/
def Obligations.AluTable : Prop :=
  ∀ a b sb imm : BitVec 64,
    (aluOp 0 a b sb imm).toNat = (a.toNat + b.toNat) % 2 ^ 64 ∧
    ((aluOp 1 a b sb imm).toNat + b.toNat) % 2 ^ 64 = a.toNat ∧
    (aluOp 2 a b sb imm).toNat = (a.toNat * imm.toNat + sb.toNat) % 2 ^ 64 ∧
    (∀ i, (aluOp 3 a b sb imm).getLsbD i = (a.getLsbD i && b.getLsbD i)) ∧
    (∀ i, (aluOp 4 a b sb imm).getLsbD i = (a.getLsbD i || b.getLsbD i)) ∧
    (∀ i, (aluOp 5 a b sb imm).getLsbD i = (a.getLsbD i ^^ b.getLsbD i)) ∧
    (aluOp 6 a b sb imm).toNat = a.toNat * 2 ^ (b.toNat % 64) % 2 ^ 64 ∧
    (aluOp 7 a b sb imm).toNat = a.toNat / 2 ^ (b.toNat % 64) ∧
    (aluOp 8 a b sb imm).toNat = min a.toNat b.toNat ∧
    (aluOp 9 a b sb imm).toNat = max a.toNat b.toNat

/-- NOP, SETX, ALUX and TPOST (R102, R117) on a calm core: the register or token named takes its value, the
status register and the token of PEN are written, the program counter moves on by one, and nothing else of
the state changes but the two counts of commands. -/
def Obligations.ScalarCommands : Prop :=
  ∀ (s : State) (c : CoreId) (sl : SlotId) (w : Cmd), (s.core c.val).calm →
    let x := s.slot c.val sl.val
    (opcIs w 0x00 = true → Ready nopInfo s c sl w → TokenThere x (resolved nopInfo s c sl w) →
      let r := resolved nopInfo s c sl w
      SeqEffect (.nop c sl w) s s c sl r (x.takeToken r) (x.pc.toNat + 1)) ∧
    (opcIs w 0x06 = true → Ready setxInfo s c sl w → TokenThere x (resolved setxInfo s c sl w) →
      let r := resolved setxInfo s c sl w
      SeqEffect (.setx c sl w) s s c sl r ((x.takeToken r).setSreg (fld r 35 32) (BitVec.ofNat 64 (fld r 127 64)))
        (x.pc.toNat + 1)) ∧
    (opcIs w 0x07 = true → Ready aluxInfo s c sl w → TokenThere x (resolved aluxInfo s c sl w) →
      let r := resolved aluxInfo s c sl w
      let imm := BitVec.ofNat 64 (fld r 127 64)
      let b := x.sreg (fld r 44 41)
      SeqEffect (.alux c sl w) s s c sl r ((x.takeToken r).setSreg (fld r 35 32)
        (aluOp (fld r 48 45) (x.sreg (fld r 39 36)) (if bit r 40 then imm else b) b imm)) (x.pc.toNat + 1)) ∧
    (opcIs w 0x08 = true → Ready tpostInfo s c sl w → TokenThere x (resolved tpostInfo s c sl w) →
      let r := resolved tpostInfo s c sl w
      let v := ((x.takeToken r).tok (fld r 35 32)).toNat + fld r 51 36
      v ≤ 65535 →
        SeqEffect (.tpost c sl w) s s c sl r ((x.takeToken r).setTok (fld r 35 32) (BitVec.ofNat 16 v))
          (x.pc.toNat + 1))

/-- CSNAP (R131) to sound bytes of the core's slabs: the 512-byte snapshot stands at its address, each counter that
counts no time with its value before the command; every byte outside it is as it was. The counters that count
cycles or ticks are free (log 50). -/
def Obligations.CounterSnapshot : Prop :=
  ∀ (s : State) (c : CoreId) (sl : SlotId) (w : Cmd), (s.core c.val).calm → opcIs w 0x09 = true →
    Ready csnapInfo s c sl w →
    let x := s.slot c.val sl.val
    let r := resolved csnapInfo s c sl w
    let a := fld r 52 32
    TokenThere x r → a + 512 ≤ 0x180000 → s.sound (slabKey c.val a) 512 = true →
    ∃ u, KeptBut [.fresh, .mem, .host, .chk, .reported, .mems, .cores] s u ∧
      (∀ n, n < 64 → n * 8 ∉ timedCounters →
        u.num (slabKey c.val (a + 8 * n)) 8 = (KV.get 0 (s.core c.val).counters (8 * n)).toNat) ∧
      (∀ k, k < slabKey c.val a ∨ slabKey c.val a + 512 ≤ k → u.byte k = s.byte k) ∧
      (∀ d, d ≠ c.val → u.core d = s.core d) ∧
      SeqEffect (.csnap c sl w) s u c sl r (x.takeToken r) (x.pc.toNat + 1)

/-- LOOP, ENDLOOP, BRK, SKIP (R118, R119): the loop stack and the next command. -/
def Obligations.LoopCommands : Prop :=
  (∀ (s : State) (c : CoreId) (sl : SlotId) (w : Cmd) (l : LoopLevel) (rest : List LoopLevel), (s.core c.val).calm →
    let x := s.slot c.val sl.val
    x.loops = l :: rest →
    (opcIs w 0x03 = true → Ready nopInfo s c sl w → TokenThere x (resolved nopInfo s c sl w) →
      let r := resolved nopInfo s c sl w
      let l' := { l with remaining := l.remaining - 1, index := l.index + 1 }
      (1 < l.remaining.toNat → SeqEffect (.endloop c sl w) s s c sl r
        (({ x.takeToken r with loops := l' :: rest }).loopIndex l') (l.off.toNat + 1)) ∧
      (l.remaining.toNat ≤ 1 → SeqEffect (.endloop c sl w) s s c sl r { x.takeToken r with loops := rest }
        (x.pc.toNat + 1))) ∧
    (opcIs w 0x05 = true → Ready (condInfo false) s c sl w → TokenThere x (resolved (condInfo false) s c sl w) →
      let r := resolved (condInfo false) s c sl w
      (condOf x r = true → SeqEffect (.brk c sl w) s s c sl r { x.takeToken r with loops := rest }
        (l.off.toNat + l.body.toNat + 2)) ∧
      (condOf x r = false → SeqEffect (.brk c sl w) s s c sl r (x.takeToken r) (x.pc.toNat + 1)))) ∧
  (∀ (s u : State) (c : CoreId) (sl : SlotId) (w : Cmd), (s.core c.val).calm →
    let x := s.slot c.val sl.val
    (opcIs w 0x02 = true → Ready loopInfo s c sl w → TokenThere x (resolved loopInfo s c sl w) →
      let r := resolved loopInfo s c sl w
      let d := s.setSlot c.val sl.val (x.takeToken r)
      let body := fld r 87 74
      ((x.pc ∈ x.checked ∧ u = d) ∨ (x.pc ∉ x.checked ∧ x.pc.toNat + body + 1 < hLength x.hdr ∧
        ∃ v, d.cmdsAt c.val sl.val (x.pc.toNat + body + 1) 1 = (.ok [v], u) ∧ cOpc v = 0x03)) →
      (fld r 63 32 = 0 → SeqEffect (.loop c sl w) s u c sl r (x.takeToken r).check (x.pc.toNat + body + 2)) ∧
      (fld r 63 32 ≠ 0 → x.loops.length < 4 →
        let l : LoopLevel := { off := x.pc, body := BitVec.ofNat 32 body, remaining := BitVec.ofNat 32 (fld r 63 32)
                               index := 0, isel := BitVec.ofNat 5 (fld r 73 69) }
        SeqEffect (.loop c sl w) s u c sl r (({ (x.takeToken r).check with loops := l :: x.loops }).loopIndex l)
          (x.pc.toNat + 1))) ∧
    (opcIs w 0x04 = true → Ready (condInfo true) s c sl w → TokenThere x (resolved (condInfo true) s c sl w) →
      let r := resolved (condInfo true) s c sl w
      let d := s.setSlot c.val sl.val (x.takeToken r)
      let n := fld r 57 44
      x.pc.toNat + n + 1 ≤ hLength x.hdr →
      ((x.pc ∈ x.checked ∧ u = d) ∨ (x.pc ∉ x.checked ∧
        ∃ l, d.cmdsAt c.val sl.val (x.pc.toNat + 1) n = (.ok l, u) ∧ matched l = true)) →
      SeqEffect (.skip c sl w) s u c sl r (x.takeToken r).check (x.pc.toNat + (if condOf x r then n else 0) + 1)))

/-- FENCE (R305) and END (R104, R139). -/
def Obligations.FenceAndEnd : Prop :=
  (∀ (s : State) (c : CoreId) (sl : SlotId) (w : Cmd), (s.core c.val).calm → opcIs w 0x14 = true →
    Ready fenceInfo s c sl w →
    let x := s.slot c.val sl.val
    let r := resolved fenceInfo s c sl w
    TokenThere x r →
    (fenceMet (s.core c.val) sl.val r = true →
      SeqEffect (.fence c sl w) s s c sl r (x.takeToken r) (x.pc.toNat + 1)) ∧
    (fenceMet (s.core c.val) sl.val r = false → Completes (.fence c sl w) s (fun t =>
      t.slot c.val sl.val = { x.takeToken r with hold := .fence r } ∧ OnlySlot c sl s t))) ∧
  (∀ (s : State) (c : CoreId) (sl : SlotId) (w : Cmd), (s.core c.val).calm → opcIs w 0x01 = true →
    Ready nopInfo s c sl w →
    let x := s.slot c.val sl.val
    let r := resolved nopInfo s c sl w
    TokenThere x r →
    let d := ((s.setSlot c.val sl.val (x.takeToken r)).modCore c.val (fun k => k.closeClaims sl.val (fun _ => true))).modSlot
      c.val sl.val (fun y => { y with hold := .ending r })
    ((s.core c.val).live sl.val ≠ 0 → Completes (.endList c sl w) s (fun t =>
      t = d.issued c.val sl.val ∧ t.slot c.val sl.val = { x.takeToken r with hold := .ending r } ∧
        ∀ j, j ≠ sl.val → t.slot c.val j = s.slot c.val j)) ∧
    ((s.core c.val).live sl.val = 0 → (cPen r = true → ((x.takeToken r).post (cPtok r) 1).isSome) →
      Completes (.endList c sl w) s (fun t =>
      t = (d.issued c.val sl.val).endSlot c.val sl.val ∧ t.slot c.val sl.val = {} ∧
        (∀ n, n < 28 → hRegMask x.hdr / 2 ^ n % 2 = 1 → (t.core c.val).tag n = 0) ∧
        ∀ j, j ≠ sl.val → t.slot c.val j = s.slot c.val j)))

/-! ### Synchronisation -/

/-- The synchronisation commands at the sequencer (R247, R293, R305). -/
def Obligations.SyncCommandsIssue : Prop :=
  (∀ (s : State) (c : CoreId) (sl : SlotId) (w : Cmd) (i : Instr) (o : OpInfo), (s.core c.val).calm →
    (i, o) ∈ [(Instr.arrive c sl w, arriveInfo), (Instr.wait c sl w, waitInfo), (Instr.signal c sl w, signalInfo),
      (Instr.sinit c sl w, sinitInfo), (Instr.sfree c sl w, sfreeInfo)] →
    wellFormed i = true → Ready o s c sl w →
    let x := s.slot c.val sl.val
    let r := resolved o s c sl w
    TokenThere x r → (cOpc r = 0x15 ∨ handleOk (syncHandle r) = true) →
    (syncModule r = s.selfId ∨ s.freeSyncTag.isSome = true) →
    let d := s.setSlot c.val sl.val (x.takeToken r)
    (isPosted r = true → ∃ u, d.syncIssue (.slot c sl) x.ctx.toNat r = some u ∧
      SeqEffect i s u c sl r (x.takeToken r) (x.pc.toNat + 1)) ∧
    (isPosted r = false → ∃ u, (d.setSlot c.val sl.val { x.takeToken r with hold := .sync r none }).syncIssue
        (.slot c sl) x.ctx.toNat r = some u ∧
      Completes i s (fun t => t = u.issued c.val sl.val ∧
        ∃ a, t.slot c.val sl.val = { x.takeToken r with hold := .sync r a }))) ∧
  (∀ (s : State) (c : CoreId) (sl : SlotId) (w : Cmd), (s.core c.val).calm → opcIs w 0x13 = true →
    Ready claimInfo s c sl w →
    let x := s.slot c.val sl.val
    let r := resolved claimInfo s c sl w
    let k := (s.core c.val).closeClaims sl.val (fun e => e.handle.toNat = syncHandle r)
    TokenThere x r → handleOk (syncHandle r) = true → (syncModule r = s.selfId ∨ s.freeSyncTag.isSome = true) →
    k.claims.length + k.claiming < 8 →
    let d := (s.setCore c.val k).setSlot c.val sl.val (x.takeToken r)
    ∃ u, (d.setSlot c.val sl.val { x.takeToken r with hold := .sync r none }).syncIssue
        (.slot c sl) x.ctx.toNat r = some u ∧
      Completes (.claim c sl w) s (fun t => t = u.issued c.val sl.val ∧
        ∃ a, t.slot c.val sl.val = { x.takeToken r with hold := .sync r a }))

/-- R298, with R295 for a SEMAPHORE: what a SIGNAL that is not stale does to its object, and the status it answers.
After a change the object's waits are evaluated again (`State.changed`). -/
def Obligations.SignalOnObjects : Prop :=
  ∀ (s : State) (who : Asker) (ctx : Nat) (w : Cmd), cOpc w = 0x12 →
    let ix := handleIx (syncHandle w)
    let e := s.ent ix
    let v := fld w 148 101
    let set := bit w 154
    e.stale (syncHandle w) ctx = false →
    ((e.ty = tyCounter ∧ set = false → s.syncAt who ctx w = (some { status := stOk },
        (s.setEnt ix { e with value := BitVec.ofNat 48 (e.value.toNat + v) }).changed ix)) ∧
     (e.ty = tySem ∧ set = false ∧ e.value.toNat + v < 2 ^ 48 → s.syncAt who ctx w = (some { status := stOk },
        (s.setEnt ix { e with value := BitVec.ofNat 48 (e.value.toNat + v) }).changed ix)) ∧
     (e.ty = tySem ∧ set = false ∧ 2 ^ 48 ≤ e.value.toNat + v → s.syncAt who ctx w = (some { status := stOk },
        ((s.discard (homeHalf ix)).setEnt ix { e with value := BitVec.ofNat 48 (2 ^ 48 - 1) }).changed ix)) ∧
     ((e.ty = tyCounter ∨ e.ty = tySem) ∧ set = true → s.syncAt who ctx w = (some { status := stOk },
        (s.setEnt ix { e with value := BitVec.ofNat 48 v }).changed ix)) ∧
     (e.ty = tyWork ∧ set = true ∧ v ≤ e.limit.toNat → s.syncAt who ctx w = (some { status := stOk },
        (s.setEnt ix { e with value := BitVec.ofNat 48 v, epoch := BitVec.ofNat 16 (e.epoch.toNat + 1) }).changed ix)) ∧
     ((e.ty = tyBarrier ∨ (e.ty = tyWork ∧ (set = false ∨ e.limit.toNat < v))) →
        s.syncAt who ctx w = (some { status := stIllegal }, s)))

/-- R302 and R303: what an ARRIVE that is not stale does to a BARRIER of N participants, none of whose counts
passes N. `round` completes a round whose arrivals have reached N, and the next with it where it has too. -/
def Obligations.BarrierArrivals : Prop :=
  ∀ (s : State) (who : Asker) (ctx : Nat) (w : Cmd), cOpc w = 0x10 →
    let ix := handleIx (syncHandle w)
    let e := s.ent ix
    let d := (fld w 116 101 + 65536 - e.gen.toNat) % 65536
    let part := fld w 127 122
    let round (f : SyncEnt) : SyncEnt := if f.arrived = f.n.toNat then
      { f with gen := f.gen + 1, arrived := f.held, held := 0, curMap := f.nextMap, nextMap := 0 } else f
    e.stale (syncHandle w) ctx = false → e.ty = tyBarrier →
    (e.map = true ∧ e.n.toNat ≤ part → s.syncAt who ctx w = (some { status := stIllegal }, s)) ∧
    ((if e.map then part < e.n.toNat else part = 0) →
    (d = 0 ∧ (e.map && bit e.curMap part) = false → s.syncAt who ctx w = (some { status := stOk },
      (s.setEnt ix (round (round { e with
        arrived := e.arrived + 1, curMap := if e.map then setBit e.curMap part true else e.curMap }))).changed ix)) ∧
    (d = 0 ∧ (e.map && bit e.curMap part) = true → s.syncAt who ctx w = (some { status := stStale }, s)) ∧
    (d = 1 ∧ (e.map && bit e.nextMap part) = false → s.syncAt who ctx w = (some { status := stOk },
      (s.setEnt ix { e with
        held := e.held + 1, nextMap := if e.map then setBit e.nextMap part true else e.nextMap }).changed ix)) ∧
    (d = 1 ∧ (e.map && bit e.nextMap part) = true → s.syncAt who ctx w = (some { status := stAhead }, s)) ∧
    (2 ≤ d ∧ d < 32768 → s.syncAt who ctx w = (some { status := stAhead }, s)) ∧
    (32768 ≤ d → s.syncAt who ctx w = (some { status := stStale }, s)))

/-- R294, R295, R304: how a WAIT's condition compares on each type of object. -/
def Obligations.WaitConditions : Prop :=
  ∀ (e : SyncEnt) (t : Nat),
    (e.ty = tyCounter → t < 2 ^ 48 →
      let d := (t + 2 ^ 48 - e.value.toNat) % 2 ^ 48
      (d = 0 → waitEval e t 0 false = .met) ∧ (1 ≤ d ∧ d ≤ 2 ^ 47 → waitEval e t 0 false = .waits) ∧
      (2 ^ 48 - 2 ^ 46 ≤ d → waitEval e t 0 false = .met) ∧
      (2 ^ 47 < d ∧ d < 2 ^ 48 - 2 ^ 46 → waitEval e t 0 false = .range) ∧
      waitEval e t 1 false = (if d = 0 then .met else .waits) ∧ waitEval e t 2 false = (if d = 0 then .waits else .met)) ∧
    (e.ty = tySem → (∀ take, waitEval e t 0 take = if t ≤ e.value.toNat then .met else .waits) ∧
      waitEval e t 1 false = (if e.value.toNat = t then .met else .waits) ∧
      waitEval e t 2 false = (if e.value.toNat = t then .waits else .met)) ∧
    (e.ty = tyBarrier → t < 65536 →
      let d := (t + 65536 - e.gen.toNat) % 65536
      (d = 0 ∨ 32768 ≤ d → waitEval e t 0 false = .met) ∧ (d = 1 ∨ d = 2 → waitEval e t 0 false = .waits) ∧
      (3 ≤ d ∧ d < 32768 → waitEval e t 0 false = .range) ∧ ∀ cond, cond ≠ 0 → waitEval e t cond false = .illegal) ∧
    (e.ty ≠ tySem → ∀ cond, waitEval e t cond true = .illegal)

/-- SINIT, SFREE, CLAIM, WAIT and stale operations at the home engine (R291, R296, R297, R299, R300). -/
def Obligations.SyncObjectLife : Prop :=
  ∀ (s : State) (who : Asker) (ctx : Nat) (w : Cmd),
    let h := syncHandle w
    let ix := handleIx h
    let e := s.ent ix
    let i := fld w 47 32
    (cOpc w = 0x15 → sinitOk w = true → (s.ent i).st = .free → s.syncAt who ctx w =
      (some { status := stOk, value := BitVec.ofNat 64 (mkHandle s.selfId (s.ent i).inc.toNat i) },
        s.setEnt i (sinitEnt w (s.ent i).inc ctx))) ∧
    (cOpc w = 0x15 → sinitOk w = true → (s.ent i).st = .quarantined → s.syncAt who ctx w = (some { status := stQuarantine }, s)) ∧
    (cOpc w = 0x15 → (sinitOk w = false ∨ (s.ent i).st = .inUse) → s.syncAt who ctx w = (some { status := stIllegal }, s)) ∧
    (cOpc w ≠ 0x15 → e.stale h ctx = true → isPosted w = false → s.syncAt who ctx w = (some { status := stHandle }, s)) ∧
    (cOpc w ≠ 0x15 → e.stale h ctx = true → isPosted w = true →
      (∀ x, who = .unit x → s.syncAt who ctx w = (some { status := stHandle }, s.discard (homeHalf ix))) ∧
      (∀ src tag inc f, who = .remote src tag inc f →
        s.syncAt who ctx w = (some { status := stHandle }, s.discardMsg (homeHalf ix) h src.toNat))) ∧
    (e.stale h ctx = false →
      (cOpc w = 0x16 → ∃ t, s.syncAt who ctx w = (some { status := stOk }, t) ∧
        t.ent ix = { e with st := .quarantined, inc := e.inc + 1 } ∧ (∀ j, j ≠ ix → t.ent j = s.ent j) ∧
        t.sync.waits = s.sync.waits.filter (fun r => !r.on ix)) ∧
      (cOpc w = 0x13 → e.ty = tyWork → e.value.toNat < e.limit.toNat → s.syncAt who ctx w =
        (some { status := stOk, value := BitVec.ofNat 64 (e.value.toNat + 2 ^ 48 * e.epoch.toNat), spent := false },
          (s.setEnt ix { e with value := e.value + 1 }).changed ix)) ∧
      (cOpc w = 0x13 → e.ty = tyWork → e.limit.toNat ≤ e.value.toNat → s.syncAt who ctx w =
        (some { status := stOk, value := BitVec.ofNat 64 (e.value.toNat + 2 ^ 48 * e.epoch.toNat), spent := true }, s)) ∧
      (cOpc w = 0x11 → bit w 156 = false → waitEval e (fld w 148 101) (fld w 155 154) false = .met →
        s.syncAt who ctx w = (some { status := stOk, value := if bit w 189 then e.val else 0 }, s)) ∧
      (cOpc w = 0x11 → waitEval e (fld w 148 101) (fld w 155 154) (bit w 156) = .waits →
        ∃ r t, s.syncAt who ctx w = (none, t) ∧ t.sync.waits = s.sync.waits ++ [r] ∧ r.who = who ∧
          r.handle.toNat = h ∧ r.target.toNat = fld w 148 101 ∧ r.cond.toNat = fld w 155 154 ∧ r.take = bit w 156 ∧
          r.remote = false ∧ t.ent ix = e))

/-! ### Lists, engines and preemption -/

/-- LIST_LAUNCH (R94, R95): with room in the ready set of an available core the list enters it, under the context of
the user host-class core; in any other case the store is discarded. -/
def Obligations.ListsArrive : Prop :=
  ∀ (s : State) (h : HcId) (c : CoreId) (addr : BitVec 64),
    let ok := userHc h.val && s.available c.val && decide ((s.core c.val).ready.length < 16)
    (ok = true → Completes (.listLaunch h c addr) s (fun t =>
      t.core c.val = { s.core c.val with
        ready := (s.core c.val).ready ++ [{ addr := addr, ctx := BitVec.ofNat 16 (s.hcCtxOf h.val) }]
        accepted := (s.core c.val).accepted + 1
        waking := (s.core c.val).waking || decide ((s.core c.val).cst ≠ .c0) } ∧
      (∀ d, d ≠ c.val → t.core d = s.core d) ∧ KeptBut [.cores] s t)) ∧
    (ok = false → exec (.listLaunch h c addr) s = .next s)

/-- LIST_START (R96, R361): the list chosen starts in the first free slot with the state of Table 04-1; `u` is the state
after the headers of the ready set were read, `v` the one after a draw from the half's pool. -/
def Obligations.ListsStart : Prop :=
  ∀ (s u v : State) (c : CoreId) (sl : Nat) (rest : List Nat) (l : List Cand) (x : Cand),
    let k := s.core c.val
    k.calm → k.cst = .c0 → k.down 4 = false → s.available c.val = true → k.ready ≠ [] →
    k.freeSlots = sl :: rest → (∀ i, i < 4 → (k.slot i).xltFault = false) →
    s.scanReady c.val k.ready = (.all l, u) →
    u.choose c.val (l.filter (fun y => (activeSlots k).all (fun i => masksApart (k.slot i).hdr y.hdr))) = some (x, v) →
    x.ent.restore = false → hParam x.hdr = 0 →
    Completes (.listStart c) s (fun t =>
      t.slot c.val sl = { active := true, listAddr := x.ent.addr, hdr := x.hdr, ctx := x.ent.ctx, origin := x.ent.origin
                          charged := v.corrected c.val x.hdr } ∧
      (∀ j, j ≠ sl → t.slot c.val j = v.slot c.val j) ∧
      (t.core c.val).ready = (v.core c.val).ready.erase x.ent ∧ (t.core c.val).parked = false ∧
      (∀ d, d ≠ c.val → t.core d = v.core d) ∧
      (t.cluster (clusterOf c.val)).balance =
        (if 5 * (v.cluster (clusterOf c.val)).grant < v.corrected c.val x.hdr then -(4 * (v.cluster (clusterOf c.val)).grant : Int)
          else max ((v.cluster (clusterOf c.val)).balance - v.corrected c.val x.hdr) (-(4 * (v.cluster (clusterOf c.val)).grant : Int))))

/-- COMMAND_FETCH (R98): a fetch that is not due, one of plain commands, one that the host answers with an error, one whose
translation is missing. -/
def Obligations.CommandsFetched : Prop :=
  ∀ (s : State) (c : CoreId) (sl : SlotId) (off : BitVec 32) (hostErr : Bool),
    let x := s.slot c.val sl.val
    let k := s.core c.val
    let i := Instr.commandFetch c sl off hostErr
    let block := blockOffsets x off.toNat
    let at' (o : Nat) : Nat := x.listAddr.toNat + 64 + 32 * o
    let word (o : Nat) : Cmd := BitVec.ofNat 256 (s.num (at' o) 32)
    let due : Prop := x.active = true ∧ x.draining = false ∧ x.xltFault = false ∧ k.down 4 = false ∧ off.toNat < hLength x.hdr ∧
      ∃ o ∈ block, x.nextFetch = some o
    let Kept (t : State) : Prop := (∀ j, j ≠ sl.val → t.slot c.val j = s.slot c.val j) ∧ (∀ d, d ≠ c.val → t.core d = s.core d) ∧
      KeptBut [.cores] s t ∧ (∃ b l, t.slot c.val sl.val = { x with buf := b, bad := l }) ∧
      (t.slot c.val sl.val).buf.length ≤ max 128 x.buf.length ∧
      (∀ o, o ∉ block → (t.slot c.val sl.val).buffered o = x.buffered o ∨ (t.slot c.val sl.val).buffered o = none) ∧
      ∀ e, e.1.toNat ∉ block → (e ∈ (t.slot c.val sl.val).bad ↔ e ∈ x.bad)
    (¬ due → exec i s = .next s) ∧
    (due → k.calm → (x.pc.toNat ∉ block → x.stands x.pc.toNat) →
      ((∀ o ∈ block, s.plain c.val (at' o) 32) →
        ((x.pc.toNat ∈ block → listed (cOpc (word x.pc.toNat)) = true) → Completes i s (fun t => Kept t ∧
          ∀ o ∈ block, (t.slot c.val sl.val).buffered o = some (word o) ∧ ∀ e ∈ (t.slot c.val sl.val).bad, e.1.toNat ≠ o)) ∧
        (x.pc.toNat ∈ block → listed (cOpc (word x.pc.toNat)) = false → (k.live sl.val = 0) → s.owesAnswers c.val sl.val = false →
          x.held = false → Completes i s (fun t => t.slot c.val sl.val = {}))) ∧
      (hostErr = true → x.pc.toNat ∉ block → (∀ o ∈ block, ∃ a, placeOf k.tlbSeq x.ctx.toNat (at' o) false = .at (.host a)) →
        Completes i s (fun t => Kept t ∧ ∀ o ∈ block, (t.slot c.val sl.val).buffered o = none ∧
          (BitVec.ofNat 32 o, stIllegal) ∈ (t.slot c.val sl.val).bad)) ∧
      (placeOf k.tlbSeq x.ctx.toNat (at' off.toNat) false = .miss → x.stands x.pc.toNat →
        ((∃ e ∈ k.walks, e.1 = sl.val + 1) → exec i s = .next s) ∧
        ((∀ e ∈ k.walks, e.1 ≠ sl.val + 1) → ∀ v u, (s.count c.val 0x100 1).walkStart x.ctx.toNat (at' off.toNat) false = (.inl v, u) →
          Completes i s (fun t => (t.core c.val).walk (sl.val + 1) = some { v with slot := sl, off := off } ∧
            t.slot c.val sl.val = u.slot c.val sl.val ∧ ∀ a, t.byte a = u.byte a))))

/-- A command in execution completes (R101, R115, R223): it leaves the engine, its slot takes its report and the token of
PEN, an addition to its completion counter sets out where it names one and its status counts; `u` is the state then, from
which the core goes on (`State.afterCore`). -/
def Obligations.EnginesComplete : Prop :=
  ∀ (s : State) (c : CoreId),
    let k := s.core c.val
    let Done (e : Nat) (p q : QEnt) (i : Instr) (go : State → State) : Prop :=
      (∀ y, ((s.slot c.val q.slot.val).report q).posted q.w = some y → ∃ u, exec i s = .next (go (u.afterCore c.val)) ∧
        ((u.core c.val).calm → u.afterCore c.val = u) ∧
        (u.core c.val).run e = (k.run e).erase p ∧ (∀ f, f ≠ e → (u.core c.val).run f = k.run f) ∧
        (∀ f, (u.core c.val).queue f = k.queue f) ∧
        u.slot c.val q.slot.val = y ∧ (∀ j, j ≠ q.slot.val → u.slot c.val j = s.slot c.val j) ∧
        (∀ d, d ≠ c.val → u.core d = s.core d) ∧ KeptBut [.cores, .sync] s u ∧
        u.sync.adds = s.sync.adds ++ (match cenIndex q.w with
          | some i => if countsIn q.status then
              [{ index := BitVec.ofNat 16 i, inc := q.inc, ctx := (s.slot c.val q.slot.val).ctx }] else []
          | none => [])) ∧
      (k.calm → (∀ r ∈ (k.run 3).erase p, r.await ≠ [dmUnsent]) → (s.slot c.val q.slot.val).active = true →
        ((s.slot c.val q.slot.val).posted q.w) = none → (∀ v, go v = v) → Completes i s (fun t =>
          t.slot c.val q.slot.val = {} ∨ (t.slot c.val q.slot.val).draining = true))
    (∀ n : Fin 4, let l := (k.run 0).filter (fun p => cOpc p.w = 0x20 && mmaT p.w = n.val)
      (l = [] → exec (.tileComplete c n) s = .next s) ∧ ∀ q, l.head? = some q → Done 0 q q (.tileComplete c n) id) ∧
    (∀ (e : Engine) (n : Fin 64), let l := (k.run (engNum e)).filter (fun p => cOpc p.w ≠ 0x20 && p.await.isEmpty)
      (3 ≤ engNum e ∨ l.length ≤ n.val → exec (.engineCommandComplete c e n) s = .next s) ∧
      (engNum e < 3 → ∀ q, l[n.val]? = some q → Done (engNum e) q q (.engineCommandComplete c e n) id)) ∧
    (∀ n : Fin 64, let l := (k.run 3).filter (fun p => p.await.isEmpty)
      (l.length ≤ n.val → exec (.accessCommandComplete c n) s = .next s) ∧
      ∀ q, l[n.val]? = some q → Done 3 q q (.accessCommandComplete c n) (fun v =>
        if cOpc q.w = 0x59 ∧ fld q.w 70 60 = 0 then (v.resumeConsumers c.val 1 (fld q.w 75 73)).resumeConsumers c.val 2 (fld q.w 75 73)
        else v)) ∧
    (∀ dst : CoreId, let l := (k.run 3).filter (fun r => cOpc r.w = 0x55 && r.await.contains (dst.val + 2))
      (∀ p, l.head? = some p → (p.await.erase (dst.val + 2) = [] → Done 3 p { p with await := [] } (.mcastAck c dst) id) ∧
        (p.await.erase (dst.val + 2) ≠ [] → Completes (.mcastAck c dst) s (fun t => OnlyRuns c s t ∧
          (t.core c.val).run 3 = (k.run 3).map (fun r => if r = p then { p with await := p.await.erase (dst.val + 2) } else r)))) ∧
      (l = [] → (∀ g, k.program = some g → g.ent.await.contains (dst.val + 2) = false) → exec (.mcastAck c dst) s = .next s) ∧
      (l = [] → ∀ g, k.program = some g → g.ent.await.contains (dst.val + 2) = true →
        let g' := { g with ent := { g.ent with await := g.ent.await.erase (dst.val + 2) } }
        let v := s.modCore c.val (fun y => { y with program := some g' })
        exec (.mcastAck c dst) s = .next (if g'.ent.await = [] then (v.programAcked c.val).afterCore c.val else v)))

/-- What waits goes on: a command of the sequencer at its token, the head of an engine's queue at its token, and the
commands that wait on an operand queue (R101, R224, R226). -/
def Obligations.EnginesWait : Prop :=
  ∀ (s : State) (c : CoreId),
    let k := s.core c.val
    let Alone (e : Nat) : Prop := (∀ f, f < 4 → f ≠ e → k.queue f = []) ∧ (∀ p ∈ k.run 3, p.await ≠ [dmUnsent]) ∧
      ∀ j, j < 4 → (k.slot j).calm
    let Idle (n : Nat) : Prop := (∀ e q, q ∈ k.run e → waitsOn e q ≠ some n) ∧ ∀ g, k.program = some g → g.ent.await ≠ [1]
    (∀ sl : SlotId, Completes (.tokenWaitRelease c .sequencer sl) s (fun t =>
      t.slot c.val sl.val = (if (s.slot c.val sl.val).hold = .token then { s.slot c.val sl.val with hold := .none } else s.slot c.val sl.val) ∧
      (∀ j, j ≠ sl.val → t.slot c.val j = s.slot c.val j) ∧ (∀ d, d ≠ c.val → t.core d = s.core d) ∧ KeptBut [.cores] s t)) ∧
    (∀ (e : Engine) (sl : SlotId), engNum e < 4 →
      ((∀ q, (k.queue (engNum e)).head? = some q → q.slot = sl → q.tokenWait = true → (s.slot c.val sl.val).tok (cWtok q.w) ≠ 0 →
        k.stalled (engNum e) = true) → exec (.tokenWaitRelease c e sl) s = .next s) ∧
      ∀ q, k.queue (engNum e) = [q] → Alone (engNum e) → k.stalled (engNum e) = false → q.slot = sl → q.tokenWait = true →
        cWen q.w = true → q.tokenTaken = false → q.await = [] → cOpc q.w ≠ 0x5A → (s.slot c.val sl.val).tok (cWtok q.w) ≠ 0 →
        let p := { q with tokenWait := false, tokenTaken := true }
        let x := s.slot c.val sl.val
        let d := s.modCore c.val (fun y => y.putHead (engNum e) { q with tokenWait := false })
        let v := (d.setSlot c.val sl.val (x.setTok (cWtok q.w) (x.tok (cWtok q.w) - 1))).modCore c.val (fun y => y.putHead (engNum e) p)
        Comes (.tokenWaitRelease c e sl) s c sl (engNum e) q.off (startOn v c.val (engNum e) p)) ∧
    (∀ n : Fin 8,
      (Idle n.val → k.calm → exec (.operandQueueRelease c n) s = .next s) ∧
      (Idle n.val → ∀ (q : QEnt), k.queue 3 = [q] → Alone 3 → k.stalled 3 = false → q.await = [1] → q.tokenWait = false →
        (cWen q.w = true → q.tokenTaken = true) → cOpc q.w ≠ 0x5A →
        let p := { q with await := [] }
        Comes (.operandQueueRelease c n) s c q.slot 3 q.off (startOn (s.modCore c.val (fun y => y.putHead 3 p)) c.val 3 p)) ∧
      (∀ (e : Nat) (q : QEnt) (u : State) (p : QEnt), (e = 1 ∨ e = 2) → (k.run e).filter (fun r => waitsOn e r = some n.val) = [q] →
        (∀ f r, f ≠ e → r ∈ k.run f → waitsOn f r ≠ some n.val) → (∀ g, k.program = some g → g.ent.await ≠ [1]) → k.calm →
        (if e = 1 then vldTake s c.val q q.await
          else rowsQueue s c.val q q.rcd (q.await.getD 0 0) (rNrows q.w - q.await.getD 0 0)) = .go u p →
        exec (.operandQueueRelease c n) s = .next ((u.setRunEnt c.val e q p).afterCore c.val)))

/-- Preemption (R124 to R126): the slots of the context that have a save area begin to drain, the others and those of
other contexts do not; a drain with nothing left frees its slot; one that passes its bound has an engine reset. -/
def Obligations.ListsPreempted : Prop :=
  ∀ (s : State) (c : CoreId) (sl : SlotId),
    let k := s.core c.val
    let x := s.slot c.val sl.val
    (∀ (r : Requester) (ctx : BitVec 16), r = .host ∨ r = .firmware → k.calm → x.active = true → x.draining = false →
      x.doomed = false → x.stopping = none → x.quiet = false → x.ctx = ctx → hSave x.hdr ≠ 0 →
      Completes (.preemptRequest r c ctx) s (fun t => (t.slot c.val sl.val).draining = true ∧
        (t.slot c.val sl.val).active = true ∧ (t.slot c.val sl.val).pc = x.pc ∧ (t.slot c.val sl.val).sregs = x.sregs)) ∧
    (∀ (r : Requester) (ctx : BitVec 16), r ≠ .host → r ≠ .firmware → exec (.preemptRequest r c ctx) s = .next s) ∧
    (∀ (r : Requester) (ctx : BitVec 16), k.calm → x.ctx ≠ ctx → Completes (.preemptRequest r c ctx) s (fun t =>
      (t.slot c.val sl.val).draining = x.draining ∧ (t.slot c.val sl.val).active = x.active)) ∧
    (k.calm → x.active = true → x.draining = true → x.doomed = false → k.down 4 = false → k.drained sl.val = true →
      s.owesAnswers c.val sl.val = false → Completes (.preemptDrainComplete c sl) s (fun t => t.slot c.val sl.val = {} ∧
        ∀ n, n < 28 → hRegMask x.hdr / 2 ^ n % 2 = 1 → (t.core c.val).tag n = 0)) ∧
    (x.active = true → x.draining = true → x.doomed = false → x.stopping = none → k.drained sl.val = false → s.ras.resets = [] →
      s.fenced c.val = false → s.clusterFenced (clusterOf c.val) = false → Completes (.preemptBoundExpiry c sl) s (fun t =>
        t.slot c.val sl.val = {} ∧ ∃ r ∈ t.ras.resets, ∃ e : Engine, r.dom = .engine c e ∧ engNum e = k.drainEngine sl.val))

/-! ### Commands for the engines -/

/-- Commands for the engines (R97, R99, R101): dispatched to an idle engine, the command starts, completes at once, stays
at the head, or stops its slot, as its engine finds. -/
def Obligations.EngineCommandsStart : Prop :=
  ∀ (i : Instr) (s : State) (c : CoreId) (sl : SlotId) (w : Cmd) (o : OpInfo) (n : Nat),
    engineRow i = some (c, sl, w, o, n) → opcIs w n = true →
    (n ≠ 0x5A → HeadReady o s c sl w → Comes i s c sl o.engine (s.slot c.val sl.val).pc (s.starting o c sl w)) ∧
    ((s.core c.val).calm → 64 ≤ (s.core c.val).depth o.engine → exec i s = .next s)

/-- Dispatch (R97, R101, R247): what differs where an engine takes a command, and what a start then moves. -/
def Obligations.DispatchFrame : Prop :=
  ∀ (s : State) (o : OpInfo) (c : CoreId) (sl : SlotId) (w : Cmd), HeadReady o s c sl w →
    let d := s.headState o c sl w
    let r := resolved o s c sl w
    let x := s.slot c.val sl.val
    (d.core c.val).queue o.engine = [s.headEntry o c sl w] ∧
    (∀ f, f ≠ o.engine → (d.core c.val).queue f = (s.core c.val).queue f) ∧
    d.slot c.val sl.val = { (if cWen r then x.setTok (cWtok r) (x.tok (cWtok r) - 1) else x) with
      pc := BitVec.ofNat 32 (x.pc.toNat + 1) } ∧
    (∀ j, j ≠ sl.val → d.slot c.val j = s.slot c.val j) ∧ (∀ y, y ≠ c.val → d.core y = s.core y) ∧ KeptBut [.cores] s d ∧
    (∃ qs ss cs ms cl, d.core c.val =
      { s.core c.val with queues := qs, slots := ss, counters := cs, mons := ms, claims := cl, served := sl.val }) ∧
    ∀ (t : State) (q : QEnt), (t.core c.val).queue o.engine = [s.headEntry o c sl w] →
      ((t.launched c.val o.engine q).core c.val).queue o.engine = [] ∧
      ((t.launched c.val o.engine q).core c.val).run o.engine = (t.core c.val).run o.engine ++ [q] ∧
      (∃ qs rs ms, (t.launched c.val o.engine q).core c.val = { t.core c.val with queues := qs, running := rs, mons := ms }) ∧
      (∀ y, y ≠ c.val → (t.launched c.val o.engine q).core y = t.core y) ∧ KeptBut [.cores] t (t.launched c.val o.engine q)

/-- Commands with nothing to do complete at once, with no effect but their report (R155, R165, R172, R211). -/
def Obligations.EmptyCommands : Prop :=
  ∀ (s : State) (c : CoreId) (sl : SlotId) (w : Cmd),
    let Empty (i : Instr) (o : OpInfo) (n : Nat) (idle : State → Prop) (none : Cmd → Prop) : Prop :=
      opcIs w n = true → HeadReady o s c sl w → (o.engine = 3 → (s.core c.val).hazard c.val (resolved o s c sl w) = false) →
      idle (s.headState o c sl w) → none (resolved o s c sl w) →
      (((s.headState o c sl w).slot c.val sl.val).posted (resolved o s c sl w)).isSome = true → exec i s = .next (s.emptied o c sl w)
    let vec (d : State) : Prop := vecBlocked (d.core c.val) (resolved vldInfo s c sl w) = false
    let row (d : State) : Prop := (d.core c.val).run 2 = []
    let any (_ : State) : Prop := True
    Empty (.vld c sl w) vldInfo 0x30 vec (fun r => fld r 45 42 = 0) ∧
    Empty (.vst c sl w) vstInfo 0x31 (fun d => vecBlocked (d.core c.val) (resolved vstInfo s c sl w) = false) (fun r => fld r 43 40 = 0) ∧
    Empty (.vop c sl w) vopInfo 0x32 (fun d => vecBlocked (d.core c.val) (resolved vopInfo s c sl w) = false) (fun r => fld r 59 56 = 0) ∧
    Empty (.rred c sl w) rowInfo 0x40 row (fun r => rNrows r = 0) ∧ Empty (.rnorm c sl w) rowInfo 0x41 row (fun r => rNrows r = 0) ∧
    Empty (.rnormb c sl w) rowInfo 0x42 row (fun r => rNrows r = 0) ∧ Empty (.rsmax c sl w) rowInfo 0x43 row (fun r => rNrows r = 0) ∧
    Empty (.rsmaxb c sl w) rowInfo 0x44 row (fun r => rNrows r = 0) ∧
    Empty (.rspill c sl w) spillInfo 0x45 row (fun r => fld r 58 45 = 0) ∧
    Empty (.rfill c sl w) spillInfo 0x46 row (fun r => fld r 58 45 = 0) ∧
    Empty (.copy c sl w) copyInfo 0x50 any (fun r => fld r 175 162 ≤ fld r 189 176 ∧ (fld r 175 162 = 0 ∨ fld r 161 144 = 0)) ∧
    Empty (.skewc c sl w) skewInfo 0x51 any (fun r => fld r 175 162 ≤ fld r 189 176 ∧ (fld r 175 162 = 0 ∨ fld r 161 144 = 0)) ∧
    Empty (.tskewc c sl w) skewInfo 0x52 any (fun r => fld r 175 162 ≤ fld r 189 176 ∧ (fld r 175 162 = 0 ∨ fld r 161 144 = 0)) ∧
    Empty (.gather c sl w) gatherInfo 0x53 any (fun r => fld r 182 165 = 0) ∧
    Empty (.scatter c sl w) gatherInfo 0x54 any (fun r => fld r 182 165 = 0) ∧
    Empty (.mcast c sl w) mcastInfo 0x55 any (fun r => fld r 162 149 ≤ fld r 176 163 ∧ (fld r 162 149 = 0 ∨ fld r 148 131 = 0)) ∧
    Empty (.neighbour c sl w) neighbourInfo 0x56 any (fun r => fld r 107 94 ≤ fld r 121 108 ∧ (fld r 107 94 = 0 ∨ fld r 93 76 = 0)) ∧
    Empty (.gcopy c sl w) gcopyInfo 0x57 any (fun r => fld r 167 144 = 0) ∧
    Empty (.aprog c sl w) aprogInfo 0x5A any (fun r => fld r 81 66 = 0)

/-! ### The matrix engine -/

/-- MSD, MLD, MREL, MMOVE (R121, R141, R144, R145): the stream descriptor, the register with its tag, the released tags. -/
def Obligations.MatrixRegisters : Prop :=
  ∀ (s : State) (c : CoreId) (sl : SlotId) (w : Cmd),
    (let d := s.headState msdInfo c sl w
     let r := resolved msdInfo s c sl w
     opcIs w 0x22 = true → HeadReady msdInfo s c sl w → Starts (.msd c sl w) msdInfo s c (fun t q =>
       q = s.headEntry msdInfo c sl w ∧ OnlySlot c sl d t ∧
       t.slot c.val sl.val = { d.slot c.val sl.val with
         sds := KV.put 0 (d.slot c.val sl.val).sds (fld r 35 32) (BitVec.ofNat 109 (fld r 139 32 + 2 ^ 108)) })) ∧
    (let d := s.headState mldInfo c sl w
     let r := resolved mldInfo s c sl w
     let rows := rowsOfCode (fld r 40 39)
     let n := fld r 51 41 * laneBytes (fld r 38 35)
     let src (l : Nat) : Nat := fld r 72 52 + l * fld r 90 73
     opcIs w 0x23 = true → HeadReady mldInfo s c sl w → tLoading ((d.core c.val).tag (tagX (fld r 34 32))) = false →
     rows * n ≤ 2048 → d.soundAll c ((List.range rows).map (fun l => (src l, n))) = true →
     Starts (.mld c sl w) mldInfo s c (fun t q => q = s.headEntry mldInfo c sl w ∧
       ∃ v : BitVec 16384, RegsOnly c ((d.core c.val).setX (fld r 34 32) v (mkTag 0 (fld r 38 35) rows (fld r 51 41) rows
           (scv := bit r 112) (sbase := fld r 111 91))) d t ∧
         ∀ l, l < rows → ∀ j, j < 2048 / rows → fld v (8 * (l * (2048 / rows) + j) + 7) (8 * (l * (2048 / rows) + j)) =
           if j < n then (d.byte (slabKey c.val (src l + j))).toNat
           else fld ((d.core c.val).xreg (fld r 34 32)) (8 * (l * (2048 / rows) + j) + 7) (8 * (l * (2048 / rows) + j)))) ∧
    (let d := s.headState mrelInfo c sl w
     let r := resolved mrelInfo s c sl w
     opcIs w 0x25 = true → HeadReady mrelInfo s c sl w →
     (∀ n, n < 12 → fld r 43 32 / 2 ^ n % 2 = 1 → tLoading ((d.core c.val).tag n) = false) →
     (∀ p ∈ (d.core c.val).run 0, matrixRegs p.w &&& fld r 43 32 = 0) →
     Starts (.mrel c sl w) mrelInfo s c (fun t q => q = s.headEntry mrelInfo c sl w ∧
       (∀ n, n < 28 → (t.core c.val).tag n = if fld r 43 32 / 2 ^ n % 2 = 1 then 0 else (d.core c.val).tag n) ∧
       (∀ n, n < 8 → KV.get 0 (t.core c.val).xregs n = if fld r 43 32 / 2 ^ n % 2 = 1 then 0 else KV.get 0 (d.core c.val).xregs n) ∧
       (∀ n, n < 4 → KV.get {} (t.core c.val).accs n =
         if fld r 43 32 / 2 ^ (8 + n) % 2 = 1 then {} else KV.get {} (d.core c.val).accs n) ∧
       (t.core c.val).vregs = (d.core c.val).vregs ∧ (∀ y, y ≠ c.val → t.core y = d.core y) ∧ KeptBut [.cores] d t)) ∧
    (let d := s.headState mmoveInfo c sl w
     let r := resolved mmoveInfo s c sl w
     let k := d.core c.val
     let xn := fld r 35 33
     let tx := k.tag (tagX xn)
     let cq := fld r 41 40
     let an := fld r 34 33
     let ta := k.tag (tagA an)
     let int := tFix ta || isInt (tFmt ta)
     let scales : List (Nat × Nat) := if isMx (tFmt tx) then [(tSbase tx + 32 * cq, 32)] else []
     opcIs w 0x24 = true → HeadReady mmoveInfo s c sl w → tLoading (k.tag (tagV (fld r 39 36))) = false →
     (bit r 32 = false → tagCheck tx 32 (tRows tx = 32 && tFmt tx ≠ 0) = stOk → 32 * (cq + 1) ≤ tPos tx * perStep (tFmt tx) →
      k.regBad (tagX xn) (xWords 32 (32 * cq / perStep (tFmt tx) * laneBytes (tFmt tx))
        (32 * (cq + 1) / perStep (tFmt tx) * laneBytes (tFmt tx))) = false → d.soundAll c scales = true →
      Starts (.mmove c sl w) mmoveInfo s c (fun t _ => ∃ v : BitVec 32768,
        RegsOnly c (k.setV (fld r 39 36) v (vTag 0)) d t ∧ ∀ i, i < 1024 → vElem v 32 i = (fp32.encode .rne false
          (({ reg := some xn, fmt := tFmt tx, rows := 32, segs := 1 } : Operand).elem (d.pieces c scales)
            (k.xreg xn) (tSbase tx) (i / 32) (32 * cq + i % 32))).1 % 2 ^ 32)) ∧
     (bit r 32 = true → tInUse ta = true → tShape ta = 0 → tPoison ta = false → readBlocked k an = false →
      k.regBad (tagA an) (fun _ => true) = false →
      Starts (.mmove c sl w) mmoveInfo s c (fun t _ => ∃ v : BitVec 32768,
        RegsOnly c (k.setV (fld r 39 36) v (vTag 0)) d t ∧
        (int = false → ∀ i, i < 1024 → vElem v 32 i = ((k.acc an).cell i).f) ∧
        (int = true → ∀ i, i < 1024 → vElem v 32 i = (readElem k an 0 0 (narrowOf (d.slot c.val sl.val) r (fld r 44 43) (bit r 42))
          (srIndex r (i / 32) (i % 32)) (i / 32) (i % 32)).1 % 2 ^ 32))))

/-- MMA (R76 to R84): every output is the ordered sum of its products on its own cells; no other cell changes. -/
def Obligations.MatrixProducts : Prop :=
  ∀ (s : State) (c : CoreId) (sl : SlotId) (w : Cmd) (oa ob : Operand),
    let d := s.headState mmaInfo c sl w
    let r := resolved mmaInfo s c sl w
    let k := d.core c.val
    let x := d.slot c.val sl.val
    let sh := mmaShape r
    let fix := mmaFix x r
    let int := fix || isInt (mmaFa r)
    let u := perStep (mmaFa r)
    let ks := mmaK r / u
    let mr := fld r 126 119
    let nr := fld r 135 127
    let kr := fld r 146 136
    let steps := ceilDiv kr (granule (mmaFa r)) * granule (mmaFa r) / u
    let anchor : Int := if fix then signed 16 (fld r 63 48) else 64
    let t0 : Tile := if mmaZero r then {} else k.acc (mmaT r)
    let reg (o : Operand) : BitVec 16384 := (o.reg.map k.xreg).getD 0
    let base (o : Operand) : Nat := tSbase ((o.reg.map (fun n => k.tag (tagX n))).getD 0)
    let reads (o : Operand) : List (Nat × Nat) := match o.reg with
      | some _ => o.scales (base o) steps
      | none => ((List.range o.segs).map (fun g => o.words g steps ++ o.scales (o.sbase + g * o.sstride) steps)).flatten
    let data := d.pieces c (reads oa ++ reads ob)
    let product (m n j : Nat) : Machine.Num := (oa.elem data (reg oa) (base oa) m j).mul (ob.elem data (reg ob) (base ob) n j)
    let parts := if sh = 5 then 4 else 1
    opcIs w 0x20 = true → HeadReady mmaInfo s c sl w → mmaOperand x r true = some oa → mmaOperand x r false = some ob →
    oa.ok ks = true → ob.ok ks = true →
    pairOk (mmaFa r) (mmaFb r) = true → (mmaFa r = 0 → sh = 0) →
    mmaK r % granule (mmaFa r) = 0 → granule (mmaFa r) ≤ mmaK r → mmaK r ≤ 1024 →
    mmaRegCheck k oa ks = stOk → mmaRegCheck k ob ks = stOk → mmaAccCheck k x r = stOk → mmaBlocked k x r = false →
    mr ≤ shapeM sh → nr ≤ shapeN sh → kr ≤ mmaK r → 0 < mr → 0 < nr → 0 < kr →
    d.soundAll c (reads oa ++ reads ob) = true →
    (∀ o n, (o = oa ∨ o = ob) → o.reg = some n → k.regBad (tagX n) (xWords o.rows 0 (steps * laneBytes o.fmt)) = false) →
    (mmaZero r = false → k.regBad (tagA (mmaT r)) (cellWords (cellsOf sh mr nr)) = false) →
    Starts (.mma c sl w) mmaInfo s c (fun t q => q = s.headEntry mmaInfo c sl w ∧
      (∀ m n p, m < mr → n < nr → p < parts →
        let mine := (List.range kr).filter (fun j => decide (sh = 5 → (ob.k0 + j / u) % 4 = p))
        let y := mine.foldl (fun y j => if int then y.fix anchor (product m n j) else y.seq (product m n j)) (t0.cell (cellOf sh m n p))
        let z := ((t.core c.val).acc (mmaT r)).cell (cellOf sh m n p)
        (int = false → z.f = y.f % 2 ^ 32) ∧
          (int = true → z.v = y.v ∧ z.nan = y.nan ∧ z.pinf = y.pinf ∧ z.ninf = y.ninf ∧ z.sat = y.sat)) ∧
      (∀ i, i < 1024 → (∀ m n p, m < mr → n < nr → p < parts → cellOf sh m n p ≠ i) →
        ((t.core c.val).acc (mmaT r)).cell i = t0.cell i) ∧
      (∀ n, n ≠ mmaT r → (t.core c.val).acc n = k.acc n) ∧ (t.core c.val).xregs = k.xregs ∧ (t.core c.val).vregs = k.vregs ∧
      (∀ y, y ≠ c.val → t.core y = d.core y) ∧ KeptBut [.cores] d t)

/-- MRD (R87 to R89): row i of the outputs stands narrowed at its place; the tile and the other registers stay. -/
def Obligations.Readouts : Prop :=
  ∀ (s : State) (c : CoreId) (sl : SlotId) (w : Cmd),
    let d := s.headState mrdInfo c sl w
    let r := resolved mrdInfo s c sl w
    let k := d.core c.val
    let tn := fld r 33 32
    let tg := k.tag (tagA tn)
    let fmt := fld r 40 37
    let me := fld r 90 83
    let ne := fld r 99 91
    let el (i j : Nat) : Nat × Cf :=
      readElem k tn (fld r 36 34) fmt (narrowOf (d.slot c.val sl.val) r (fld r 42 41) (bit r 43)) (srIndex r i j) i j
    let items : Pieces := (List.range me).map (fun i => (fld r 64 44 + i * fld r 82 65,
      natLe (ne * (fmtBits fmt / 8)) (packElems (8 * (fmtBits fmt / 8)) ((List.range ne).map (fun j => (el i j).1)))))
    opcIs w 0x21 = true → HeadReady mrdInfo s c sl w → tInUse tg = true → tShape tg = fld r 36 34 →
    (fmt = fmAla → tFix tg = true) → tPoison tg = false → 0 < me → me ≤ shapeM (fld r 36 34) → 0 < ne →
    ne ≤ shapeN (fld r 36 34) → readBlocked k tn = false → k.regBad (tagA tn) (cellWords (cellsOf (fld r 36 34) me ne)) = false → d.soundAll c (rangesOf items) = true →
    Starts (.mrd c sl w) mrdInfo s c (fun t q => Stores c k items d t ∧
      q.status = (if tAnchOvf tg then stAnchor else stOk) ∧ (tUloss tg ≠ 0 → q.flags.loss = true) ∧
      q.w = r ∧ q.slot = sl)

/-! ### The vector engine -/

/-- VLD and VST (R154, R155): the rows of the bands enter the register, or are stored, at their places. -/
def Obligations.VectorMemory : Prop :=
  ∀ (s : State) (c : CoreId) (sl : SlotId) (w : Cmd),
    (let d := s.headState vldInfo c sl w
     let r := resolved vldInfo s c sl w
     let k := d.core c.val
     let f := fld r 39 36
     let nb := rowBytes f (if f = fmFp64 then 16 else 32)
     let rows := bandRows (fld r 45 42) (vRows (tileFmt f))
     let at' (i : Nat) : Nat := fld r 70 50 + i * fld r 88 71
     opcIs w 0x30 = true → HeadReady vldInfo s c sl w → vecBlocked k r = false → fld r 45 42 ≠ 0 → bit r 46 = false →
     tLoading (k.tag (tagV (fld r 35 32))) = false → fld r 70 50 % 64 = 0 → (fld r 88 71 = nb ∨ fld r 88 71 % 64 = 0) →
     (isMx f = true → fld r 109 89 % 32 = 0) → d.soundAll c (rows.map (fun i => (at' i, nb))) = true →
     (isMx f = true → d.soundAll c (rows.map (fun i => (fld r 109 89 + i, 1))) = true) →
     Starts (.vld c sl w) vldInfo s c (fun t _ => ∃ v : BitVec 32768,
       RegsOnly c (k.setV (fld r 35 32) v (vTag (tileFmt f)) (fun n => !vWords (tileFmt f) rows n)) d t ∧
       ∀ i, i < vRows (tileFmt f) → vRow v (tileFmt f) i =
         if i ∈ rows then (loadRow f (d.byte (slabKey c.val (fld r 109 89 + i))).toNat (d.bytes (slabKey c.val (at' i)) nb)).1 %
             2 ^ vRowBits (tileFmt f)
         else vRow (k.vBase (fld r 35 32) (tileFmt f)) (tileFmt f) i)) ∧
    (let d := s.headState vstInfo c sl w
     let r := resolved vstInfo s c sl w
     let k := d.core c.val
     let f := fld r 39 36
     let tg := k.tag (tagV (fld r 35 32))
     let tf := tFmt tg
     let nb := rowBytes f (vCols tf)
     let row (i : Nat) : Nat × Nat × Cf := storeRow tf f (narrowOf (d.slot c.val sl.val) r (fld r 46 45) (bit r 44))
       (fun j => srIndex r i j) (vRow (k.vreg (fld r 35 32)) tf i)
     let rows := bandRows (fld r 43 40) (vRows tf)
     let items : Pieces := rows.map (fun i => (fld r 67 47 + i * fld r 85 68, natLe nb (row i).1)) ++
       (if isMx f then rows.map (fun i => (fld r 106 86 + i, natLe 1 (row i).2.1)) else [])
     opcIs w 0x31 = true → HeadReady vstInfo s c sl w → vecBlocked k r = false → fld r 43 40 ≠ 0 →
     tagCheck tg (rowsRead (fld r 43 40) (vRows tf)) (vstPair tf f) = stOk → fld r 67 47 % 64 = 0 →
     (fld r 85 68 = nb ∨ fld r 85 68 % 64 = 0) → (isMx f = true → fld r 106 86 % 32 = 0) →
     k.regBad (tagV (fld r 35 32)) (vWords tf rows) = false → d.soundAll c (rangesOf items) = true →
     Starts (.vst c sl w) vstInfo s c (fun t q => Stores c k items d t ∧ q.status = stOk ∧ q.w = r))

/-- VOP (R150, R156): every element of the bands, the rows that stay, the tag, the frame. -/
def Obligations.VectorArithmetic : Prop :=
  ∀ (s : State) (c : CoreId) (sl : SlotId) (w : Cmd),
    let d := s.headState vopInfo c sl w
    let r := resolved vopInfo s c sl w
    let k := d.core c.val
    let op := fld r 37 32
    let bm := fld r 55 54
    let ta := k.tag (tagV (fld r 45 42))
    let tb := k.tag (tagV (fld r 49 46))
    let tc := k.tag (tagV (fld r 53 50))
    let fmt := tFmt ta
    let hb := rowsRead (fld r 59 56) 32
    let bits := fmtBits fmt
    let cols := vCols fmt
    let da := k.vreg (fld r 45 42)
    let db := k.vreg (fld r 49 46)
    opcIs w 0x32 = true → HeadReady vopInfo s c sl w → vecBlocked k r = false → fld r 59 56 ≠ 0 →
    tagCheck ta (if op = 0x30 then 32 else hb) ((fmt = 0 || fmt = 13) && vopFmtOk op fmt) = stOk →
    (vopUnary op = false → bm ≠ 3 → tagCheck tb (if bm = 1 then 1 else hb) (tFmt tb = fmt) = stOk) →
    (vopUsesC op = true → tagCheck tc hb (tFmt tc = fmt) = stOk) → tLoading (k.tag (tagV (fld r 41 38))) = false →
    vopBad k r fmt = false →
    Starts (.vop c sl w) vopInfo s c (fun t q => ∃ v : BitVec 32768,
      RegsOnly c (k.setV (fld r 41 38) v (vTag fmt) (fun n => !vWords fmt (bandRows (fld r 59 56) 32) n)) d t ∧ q.status = stOk ∧
      (∀ i ∈ bandRows (fld r 59 56) 32, ∀ j, j < cols → vElem v bits (cols * i + j) =
        vopElem (if fmt = 0 then fp32 else fp64) op
          (if op = 0x30 then vElem da bits (cols * j + i) else vElem da bits (cols * i + j))
          (if bm = 0 then vElem db bits (cols * i + j) else if bm = 1 then vElem db bits j
            else if bm = 2 then vElem db bits (cols * i) else fld r 127 64 % 2 ^ bits)
          (vElem (k.vreg (fld r 53 50)) bits (cols * i + j)) % 2 ^ bits) ∧
      (∀ i, i < 32 → i ∉ bandRows (fld r 59 56) 32 → vRow v fmt i = vRow (k.vBase (fld r 41 38) fmt) fmt i))

/-- VCVT, VALA, VMOVE, VREL (R138, R142, R143, R157, R158): the register written, its tag, the frame. -/
def Obligations.VectorConversions : Prop :=
  ∀ (s : State) (c : CoreId) (sl : SlotId) (w : Cmd),
    (let d := s.headState vcvtInfo c sl w
     let r := resolved vcvtInfo s c sl w
     let k := d.core c.val
     let src := tFmt (k.tag (tagV (fld r 39 36)))
     let dst := fld r 43 40
     let win := fld r 46 44
     let old := k.vBase (fld r 35 32) dst
     let out := (vcvtRowsOut (narrowOf (d.slot c.val sl.val) r (fld r 70 69) (bit r 68)) r src dst win
       (signed 16 (fld r 62 47)) (k.vreg (fld r 39 36)) old).1
     opcIs w 0x33 = true → HeadReady vcvtInfo s c sl w → vecBlocked k r = false →
     tagCheck (k.tag (tagV (fld r 39 36))) (vcvtRows src dst win) true = stOk → vcvtOk src dst win = true →
     tLoading (k.tag (tagV (fld r 35 32))) = false → k.regBad (tagV (fld r 39 36)) (vcvtWords src dst win) = false →
     Starts (.vcvt c sl w) vcvtInfo s c (fun t _ => ∃ v : BitVec 32768,
       RegsOnly c (k.setV (fld r 35 32) v (vTag dst) (vcvtKeeps src dst win out)) d t ∧ v = setRows old dst out ∧
       (src = 0 → dst = 13 → ∀ i j, i < 32 → j < 16 → vElem v 64 (16 * i + j) =
         (fp64.encode .rne false (fp32.decode (vElem (k.vreg (fld r 39 36)) 32 (32 * i + 16 * win + j)))).1 % 2 ^ 64) ∧
       (src = 13 → dst = 0 → ∀ i j, i < 32 → j < 32 → j / 16 ≠ win → vElem v 32 (32 * i + j) = vElem old 32 (32 * i + j)))) ∧
    (let d := s.headState valaInfo c sl w
     let r := resolved valaInfo s c sl w
     let k := d.core c.val
     let ok (n : Nat) : Prop := tagCheck (k.tag (tagV n)) 4 (tFmt (k.tag (tagV n)) = fmAla) = stOk ∧
       k.regBad (tagV n) (fun _ => true) = false
     let el (n i : Nat) : Ala := Ala.ofWord (vElem (k.vreg n) 256 i)
     opcIs w 0x34 = true → HeadReady valaInfo s c sl w → vecBlocked k r = false → tLoading (k.tag (tagV (fld r 37 34))) = false →
     (fld r 33 32 = 0 → ok (fld r 41 38) → ok (fld r 45 42) → Starts (.vala c sl w) valaInfo s c (fun t _ =>
       ∃ v : BitVec 32768, RegsOnly c (k.setV (fld r 37 34) v (vTag fmAla)) d t ∧
       ∀ i, i < 128 → vElem v 256 i = ((el (fld r 41 38) i).add (el (fld r 45 42) i)).word % 2 ^ 256)) ∧
     (fld r 33 32 = 1 → ok (fld r 37 34) → d.soundAll c [(fld r 66 46, 4096)] = true → Starts (.vala c sl w) valaInfo s c (fun t _ =>
       ∃ v : BitVec 32768, RegsOnly c (k.setV (fld r 37 34) v (vTag fmAla)) d t ∧
       ∀ i, i < 128 → vElem v 256 i = ((el (fld r 37 34) i).add
         (Ala.ofWord (d.num (slabKey c.val (fld r 66 46 + 32 * i)) 32))).word % 2 ^ 256)) ∧
     (fld r 33 32 = 2 → ok (fld r 41 38) → Starts (.vala c sl w) valaInfo s c (fun t _ =>
       ∃ v : BitVec 32768, RegsOnly c (k.setV (fld r 37 34) v (vTag fmAla)) d t ∧
       ∀ i, i < 4 → vElem v 256 (32 * i) = ((List.range 31).foldl (fun a j => a.add (el (fld r 41 38) (32 * i + 1 + j)))
         (el (fld r 41 38) (32 * i))).word % 2 ^ 256))) ∧
    (let d := s.headState vmoveInfo c sl w
     let r := resolved vmoveInfo s c sl w
     let k := d.core c.val
     let f := fld r 42 39
     let h := b2n (bit r 43)
     let old := k.tag (tagX (fld r 38 36))
     let small := [3, 4, 11].contains f
     let cols := if f = 0 then 16 else 32
     let nb := cols * fmtBits f / 8
     let off := if small then 32 * h else 0
     opcIs w 0x35 = true → HeadReady vmoveInfo s c sl w → vecBlocked k r = false →
     tagCheck (k.tag (tagV (fld r 35 32))) 32 (tFmt (k.tag (tagV (fld r 35 32))) = 0) = stOk → tLoading old = false →
     (small = true → h = 1 → tInUse old = true ∧ tFmt old = f ∧ tRows old = 32 ∧ tPos old = 16) →
     k.regBad (tagV (fld r 35 32)) (if f = 0 then vColWords 0 32 (16 * h) (16 * h + 16) (List.range 32) else fun _ => true) = false →
     Starts (.vmove c sl w) vmoveInfo s c (fun t _ => ∃ v : BitVec 16384,
       RegsOnly c (k.setX (fld r 38 36) v (if small && h = 1 then setFld old 42 32 32 else mkTag 0 f 32 (if small then 16 else cols) 32)
         (fun i => small && h = 1 && decide (i % 2 = 0))) d t ∧
       (∀ i, i < 32 → fld v (8 * (64 * i + off + nb) - 1) (8 * (64 * i + off)) = packElems (fmtBits f) ((List.range cols).map (fun j =>
         (narrow f (narrowOf (d.slot c.val sl.val) r (fld r 46 45) (bit r 44)) (srIndex r i ((if f = 0 then 16 * h else 0) + j))
           (fp32.decode (vElem (k.vreg (fld r 35 32)) 32 (32 * i + (if f = 0 then 16 * h else 0) + j)))).1)) % 2 ^ (8 * nb)) ∧
       ∀ i j, i < 32 → j < 64 → (j < off ∨ off + nb ≤ j) → fld v (8 * (64 * i + j) + 7) (8 * (64 * i + j)) =
         fld (k.xreg (fld r 38 36)) (8 * (64 * i + j) + 7) (8 * (64 * i + j)))) ∧
    (let d := s.headState vrelInfo c sl w
     let r := resolved vrelInfo s c sl w
     opcIs w 0x36 = true → HeadReady vrelInfo s c sl w → vecBlocked (d.core c.val) r = false →
     (∀ n, n < 16 → fld r 47 32 / 2 ^ n % 2 = 1 → tLoading ((d.core c.val).tag (tagV n)) = false) →
     Starts (.vrel c sl w) vrelInfo s c (fun t q => q = s.headEntry vrelInfo c sl w ∧
       (∀ n, n < 28 → (t.core c.val).tag n =
         if 12 ≤ n ∧ fld r 47 32 / 2 ^ (n - 12) % 2 = 1 then 0 else (d.core c.val).tag n) ∧
       (t.core c.val).xregs = (d.core c.val).xregs ∧ (t.core c.val).accs = (d.core c.val).accs ∧
       (∀ n, n < 16 → KV.get 0 (t.core c.val).vregs n = if fld r 47 32 / 2 ^ n % 2 = 1 then 0 else KV.get 0 (d.core c.val).vregs n) ∧
       (∀ y, y ≠ c.val → t.core y = d.core y) ∧ KeptBut [.cores] d t))

/-! ### The row engine -/

/-- Row commands (R165, R166): where the checks pass every row runs; what may change, and what does not. -/
def Obligations.RowCommands : Prop :=
  ∀ (i : Instr) (s : State) (c : CoreId) (sl : SlotId) (w : Cmd) (n : Nat),
    engineRow i = some (c, sl, w, rowInfo, n) → opcIs w n = true → HeadReady rowInfo s c sl w →
    let d := s.headState rowInfo c sl w
    let r := resolved rowInfo s c sl w
    let k := d.core c.val
    let p := BitVec.ofNat 512 (d.num (slabKey c.val (fld r 168 148)) 64)
    let outs := ((sOut r p ++ sSums r p).map (fun x => x.ranges (rNrows r))).flatten ++
      (if cOpc r = 0x40 then [(rDst r, rNrows r * rResult r)] else [])
    k.run 2 = [] → rNrows r ≠ 0 → (rUses r = true → ∀ j, j < rNrows r → k.statBad (rSidx r + j) = false) →
    d.soundAll c [(fld r 168 148, 64)] = true → recordOk r p = true → pQsrc p = false →
    rNrows r ≤ pRcap p → d.soundAll c (rowRanges r p) = true → rowCost r p ≤ 16384 →
    (rBack (cOpc r) = true → ∀ j, j < rNrows r → statTag (k.stat (rSidx r + j)) = rTag r) →
    ((cOpc r = 0x41 ∨ cOpc r = 0x43) → rSwr r = true → bit r 98 = true → ∀ j, j < rNrows r → k.stat (rSidx r + j) = emptyStat) →
    Starts i rowInfo s c (fun t q => q.prog.rows.toNat = rNrows r ∧ q.await = [] ∧ q.status = stOk ∧
      (∃ st ch, CoreIs c { k with stats := st, statChk := ch } d t) ∧ KeptBut [.mem, .chk, .reported, .mems, .cores] d t ∧
      ∀ a, (∀ x ∈ outs, a < slabKey c.val x.1 ∨ slabKey c.val x.1 + x.2 ≤ a) → t.byte a = d.byte a)

/-- One row of a row command (R161, R166 to R174): bytes stored, statistics entry. -/
def Obligations.RowResults : Prop :=
  ∀ (i : Instr) (s : State) (c : CoreId) (sl : SlotId) (w : Cmd) (n : Nat),
    engineRow i = some (c, sl, w, rowInfo, n) → opcIs w n = true → HeadReady rowInfo s c sl w →
    let d := s.headState rowInfo c sl w
    let r := resolved rowInfo s c sl w
    let k := d.core c.val
    let p := BitVec.ofNat 512 (d.num (slabKey c.val (fld r 168 148)) 64)
    let row (a fmt : Nat) : List Nat := widen fmt (pLen p) (d.bytes (slabKey c.val a) (fmtBytes fmt (pLen p)))
    let xs := row (rSrc r) (pFi p)
    let dy := row (rAux r) (pFd p)
    let g := row (pGamma p) (pFg p)
    let b := if pBeta p then row (pBetaA p) (pFg p) else List.replicate (pLen p) 0
    let cs := row (pCs p) 0 ++ (if pBeta p then row (pCs p + 4 * pLen p) 0 else [])
    let e := k.stat (rSidx r)
    let o : RowOut := if n = 0x40 then rredRow r xs
      else if n = 0x41 then rnormRow r p xs (if pAffine p then g else []) (if pAffine p then b else [])
      else if n = 0x42 then rnormbRow r p e xs dy (if pAffine p then g else []) (if pCsum p then cs else [])
      else if n = 0x43 then rsmaxRow r p 0 xs else rsmaxbRow r p 0 e xs dy
    let out := o.out.zipIdx.map (fun v => (narrow (pFo p) (rowNarrow (d.slot c.val sl.val) r p)
      (BitVec.ofNat 64 (pBaseIx p + rBase r * pIpitch p + v.2)) (fp32.decode v.1)).1)
    let items : Pieces :=
      (if n = 0x40 then [(rDst r, natLe (rResult r) (packElems 32 o.red))]
        else [(rDst r, natLe (fmtBytes (pFo p) (pLen p)) (packElems (fmtBits (pFo p)) out))]) ++
      (if n = 0x42 ∧ pCsum p = true then [(pCs p, natLe (4 * o.sums.length) (packElems 32 o.sums))] else [])
    k.run 2 = [] → rNrows r = 1 → (rUses r = true → k.statBad (rSidx r) = false) → d.soundAll c [(fld r 168 148, 64)] = true → recordOk r p = true → pQsrc p = false →
    d.soundAll c (rowRanges r p) = true → rowCost r p ≤ 16384 → (rBack n = true → statTag e = rTag r) →
    ((n = 0x41 ∨ n = 0x43) → rSwr r = true → bit r 98 = true → e = emptyStat) →
    Starts i rowInfo s c (fun t _ => (∀ a, t.byte a = (d.putAll c items).byte a) ∧
      (t.core c.val).stat (rSidx r) = (if rSwr r then (if rBack n then emptyStat else o.entry.getD e) else e) ∧
      ∀ j, j ≠ rSidx r → (t.core c.val).stat j = k.stat j)

/-- RSPILL and RFILL (R172): every entry moved, the entries and bytes that stay. -/
def Obligations.StatisticsMoves : Prop :=
  ∀ (s : State) (c : CoreId) (sl : SlotId) (w : Cmd),
    let d := s.headState spillInfo c sl w
    let r := resolved spillInfo s c sl w
    let k := d.core c.val
    let a := fld r 79 59
    let n := fld r 58 45
    let i := fld r 44 32
    let into (j : Nat) : BitVec 64 :=
      let e := BitVec.ofNat 64 (d.num (slabKey c.val (a + 8 * j)) 8)
      if statTag e = 0xFFFF then emptyStat else e
    HeadReady spillInfo s c sl w → k.run 2 = [] → n ≠ 0 → d.soundAll c [(a, 8 * n)] = true →
    (opcIs w 0x45 = true → (∀ j, j < n → k.statBad (i + j) = false) → Starts (.rspill c sl w) spillInfo s c (fun t _ =>
      (∃ st ch, CoreIs c { k with stats := st, statChk := ch } d t) ∧ KeptBut [.mem, .chk, .reported, .mems, .cores] d t ∧
      (∀ j, j < n → t.num (slabKey c.val (a + 8 * j)) 8 = (k.stat (i + j)).toNat) ∧
      (∀ b, (b < slabKey c.val a ∨ slabKey c.val a + 8 * n ≤ b) → t.byte b = d.byte b) ∧
      ∀ j, (t.core c.val).stat j = if bit r 80 = true ∧ i ≤ j ∧ j < i + n then emptyStat else k.stat j)) ∧
    (opcIs w 0x46 = true → (i % 4 ≠ 0 → k.statBad i = false) → ((i + n) % 4 ≠ 0 → k.statBad (i + n - 1) = false) →
      (bit r 80 = true → ∀ j, j < n → k.stat (i + j) = emptyStat) →
      Starts (.rfill c sl w) spillInfo s c (fun t _ =>
      (∃ st ch, RegsOnly c { k with stats := st, statChk := ch } d t) ∧
      ∀ j, (t.core c.val).stat j = if i ≤ j ∧ j < i + n then into (j - i) else k.stat j))

/-! ### The access engine -/

/-- COPY and NEIGHBOUR (R212, R220) between plain ranges: every byte of every row, and no other byte. -/
def Obligations.CopiesMove : Prop :=
  ∀ (s : State) (c : CoreId) (sl : SlotId) (w : Cmd),
    let Copied (i : Instr) (o : OpInfo) (rows len : Nat) (src dst : Nat → Nat) : Prop :=
      (∀ j, j < rows → (s.headState o c sl w).plain c.val (src j) len ∧ (s.headState o c sl w).plain c.val (dst j) len) →
      (∀ j l, j < rows → l < rows → Apart (src j) (dst l) len ∧ (j ≠ l → Apart (dst j) (dst l) len)) →
      Starts i o s c (fun t q => q.status = stOk ∧ q.await = [] ∧ Moves (s.headState o c sl w) t ∧
        (∀ j b, j < rows → b < len → t.byte (dst j + b) = (s.headState o c sl w).byte (src j + b)) ∧
        ∀ a, (∀ j, j < rows → a < dst j ∨ dst j + len ≤ a) → t.byte a = (s.headState o c sl w).byte a)
    (let r := resolved copyInfo s c sl w
     opcIs w 0x50 = true → AccessReady copyInfo s c sl w → fld r 175 162 ≤ fld r 189 176 → 0 < fld r 175 162 → 0 < fld r 161 144 →
     Copied (.copy c sl w) copyInfo (fld r 175 162) (fld r 161 144) (fun j => aSrc r + j * fld r 208 190)
       (fun j => aDst r + j * fld r 227 209)) ∧
    (let r := resolved neighbourInfo s c sl w
     ∀ y e, opcIs w 0x56 = true → AccessReady neighbourInfo s c sl w → fld r 107 94 ≤ fld r 121 108 → 0 < fld r 107 94 →
     0 < fld r 93 76 → cBdst r = false → neighbourOf c.val (fld r 75 74) = some y → neighbourDst r = some e →
     (∀ j, j < fld r 107 94 → inSlabSpace (fld r 52 32 + j * fld r 140 122) (fld r 93 76) = true ∧
       inSlabSpace (e + j * fld r 159 141) (fld r 93 76) = true) →
     Copied (.neighbour c sl w) neighbourInfo (fld r 107 94) (fld r 93 76)
       (fun j => slabKey c.val (fld r 52 32 + j * fld r 140 122)) (fun j => slabKey y (e + j * fld r 159 141)))

/-- GATHER, SCATTER of one item, MCAST of one row (R218, R219, R232): the bytes moved, and no other. -/
def Obligations.ItemsMove : Prop :=
  ∀ (s : State) (c : CoreId) (sl : SlotId) (w : Cmd),
    (let d := s.headState gatherInfo c sl w
     let r := resolved gatherInfo s c sl w
     let n := itemBytes r
     let ix := d.num (slabKey c.val (fld r 164 144)) 4
     let One (i : Instr) (src dst : Nat) : Prop := Starts i gatherInfo s c (fun t q => q.status = stOk ∧ Moves d t ∧
       ∀ a, t.byte a = if ix ≠ 0xFFFFFFFF ∧ dst ≤ a ∧ a < dst + n then d.byte (src + (a - dst)) else d.byte a)
     let far (base : Nat) : Nat := base + ix * fld r 224 201 * 64
     AccessReady gatherInfo s c sl w → fld r 182 165 = 1 → 1 ≤ fld r 200 183 → aSrc r % 64 = 0 → aDst r % 64 = 0 →
     fld r 164 144 % 64 = 0 → d.soundAll c [(fld r 164 144, 4)] = true →
     (opcIs w 0x53 = true → d.plain c.val (aDst r) n → (ix ≠ 0xFFFFFFFF → d.plain c.val (far (aSrc r)) n ∧ Apart (far (aSrc r)) (aDst r) n) →
       One (.gather c sl w) (far (aSrc r)) (aDst r)) ∧
     (opcIs w 0x54 = true → d.plain c.val (aSrc r) n → queueOf (aDst r) = none →
       (ix ≠ 0xFFFFFFFF → d.plain c.val (far (aDst r)) n ∧ Apart (aSrc r) (far (aDst r)) n) →
       One (.scatter c sl w) (aSrc r) (far (aDst r)))) ∧
    (let d := s.headState mcastInfo c sl w
     let r := resolved mcastInfo s c sl w
     let n := fld r 148 131
     opcIs w 0x55 = true → AccessReady mcastInfo s c sl w → fld r 162 149 = 1 → 1 ≤ fld r 176 163 → 0 < n → n ≤ 64 →
     mX0 r ≤ mX1 r → mY0 r ≤ mY1 r → mX1 r ≤ 47 → mY1 r ≤ 19 → d.plain c.val (aSrc r) n → inSlabSpace (fld r 108 88) n = true →
     (∀ y ∈ mcastCores r, d.available y = true ∧ d.mcastCut c.val r y = false ∧ d.sound (slabKey y (fld r 108 88)) n = true) →
     Starts (.mcast c sl w) mcastInfo s c (fun t q => q.status = stOk ∧ q.await = (mcastCores r).map (· + 2) ∧ Moves d t ∧
       (∀ y ∈ mcastCores r, ∀ b, b < n → t.byte (slabKey y (fld r 108 88) + b) = d.byte (aSrc r + b)) ∧
       ∀ a, (∀ y ∈ mcastCores r, a < slabKey y (fld r 108 88) ∨ slabKey y (fld r 108 88) + n ≤ a) → t.byte a = d.byte a))

/-- SKEWC and TSKEWC (R215 to R217): every stream, made from the source rows as they were, and no other byte. -/
def Obligations.SkewedCopies : Prop :=
  ∀ (i : Instr) (s : State) (c : CoreId) (sl : SlotId) (w : Cmd) (n : Nat),
    engineRow i = some (c, sl, w, skewInfo, n) → opcIs w n = true → AccessReady skewInfo s c sl w →
    let d := s.headState skewInfo c sl w
    let r := resolved skewInfo s c sl w
    let x : SkSrc := { rows := (skSources r).map (fun p => d.bytes p.1 p.2) }
    let dst (j : Nat) : Nat := aDst r + j * fld r 227 209
    fld r 175 162 ≤ fld r 189 176 → 0 < fld r 175 162 → 0 < fld r 161 144 → (bit r 255 = true ∨ fld r 161 144 % skGranule r = 0) →
    (∀ p ∈ skSources r, d.plain c.val p.1 p.2) → (∀ j, j < skStreams r → d.plain c.val (dst j) (skBytes r)) →
    (∀ j l, j < skStreams r → l < skStreams r → j ≠ l → Apart (dst j) (dst l) (skBytes r)) →
    Starts i skewInfo s c (fun t q => q.status = stOk ∧ Moves d t ∧
      (∀ j b, j < skStreams r → b < skBytes r → t.byte (dst j + b) = ((skStream r x j).getD b (0, 0)).1) ∧
      ∀ a, (∀ j, j < skStreams r → a < dst j ∨ dst j + skBytes r ≤ a) → t.byte a = d.byte a)

/-- The status of a movement (R213, R214) in terms of the parts that failed and the lines found newer. -/
def Obligations.MovementsEnd : Prop :=
  ∀ (i : Instr) (s t : State) (c : CoreId) (sl : SlotId) (w : Cmd) (o : OpInfo) (n : Nat) (p : Progress),
    engineRow i = some (c, sl, w, o, n) → 0x50 ≤ n → n ≤ 0x57 → opcIs w n = true → AccessReady o s c sl w →
    let d := s.headState o c sl w
    let m : Mover := { c := c.val, ctx := d.ctxOf c.val sl.val, q := s.headEntry o c sl w }
    moveChecks c.val (resolved o s c sl w) = .go → runMove d m = .ok t p →
    Starts i o s c (fun u q => u = t ∧ q.prog = p ∧ q.slot = sl ∧
      (p.bitmap = 0 → p.newer = false → q.status = stOk) ∧ (p.bitmap = 0 → p.newer = true → q.status = stSrcChanged) ∧
      (p.bitmap ≠ 0 → q.status = stPartial ∧
        q.bitmap = if p.newer = true ∧ n = 0x57 then p.bitmap ||| 0x80000000 else p.bitmap) ∧
      (n ≠ 0x55 → q.await = []) ∧ (n = 0x55 → q.await = (t.mcastLive (resolved o s c sl w) p).map (· + 2)))

/-- TLOAD and TLOAD_ROW_ARRIVAL (R146, R147, R222): the tag when a load starts, the row and the tag when a row arrives. -/
def Obligations.TileLoads : Prop :=
  ∀ (s : State) (c : CoreId) (sl : SlotId) (w : Cmd) (n : Fin 64) (q : QEnt),
    (let d := s.headState tloadInfo c sl w
     let r := resolved tloadInfo s c sl w
     opcIs w 0x58 = true → HeadReady tloadInfo s c sl w → tlCheck r = .go → tLoading ((d.core c.val).tag (tlTagIx r)) = false →
     Starts (.tload c sl w) tloadInfo s c (fun t p => p.await = [1] ∧ p.w = r ∧
       (t.core c.val).tag (tlTagIx r) = tlTag r 0 true ∧ (∀ j, j ≠ tlTagIx r → (t.core c.val).tag j = (d.core c.val).tag j) ∧
       (t.core c.val).xregs = (d.core c.val).xregs ∧ (t.core c.val).vregs = (d.core c.val).vregs ∧
       (∀ y, y ≠ c.val → t.core y = d.core y) ∧ KeptBut [.cores] d t)) ∧
    (let k := s.core c.val
     let r := tRowsValid (k.tag (tlTagIx q.w))
     let src := aSrc q.w + r * fld q.w 111 88
     let b := tlRowBytes q.w
     let last := decide (tlRows q.w ≤ r + 1)
     k.xltAcc = false → k.down 3 = false →
     ((k.run 3).filter (fun p => cOpc p.w = 0x58 && !p.await.isEmpty))[n.val]? = some q →
     ((tlV q.w = true ∧ fld q.w 116 113 < 16) ∨ (tlV q.w = false ∧ fld q.w 116 113 < 8 ∧ tlRows q.w * b ≤ 2048)) →
     (tlV q.w = true ∨ (tlFmt q.w ≠ 7 ∧ tlFmt q.w ≠ 8)) → r < tlRows q.w → bit q.w 156 = false → 0 < b →
     s.plain c.val src b →
     Completes (.tloadRowArrival c n) s (fun t =>
       (t.core c.val).tag (tlTagIx q.w) = setBit (setFld (setBit (k.tag (tlTagIx q.w)) 1 (!last)) 31 26 (r + 1)) 18
         (tPoison (k.tag (tlTagIx q.w))) ∧
       (∀ j, j ≠ tlTagIx q.w → (t.core c.val).tag j = k.tag j) ∧
       (tlV q.w = true → (∀ j, j < b → fld ((t.core c.val).vreg (fld q.w 116 113)) (8 * (b * r + j) + 7) (8 * (b * r + j)) =
           (s.byte (src + j)).toNat) ∧
         ∀ j, j < 4096 → (j < b * r ∨ b * r + b ≤ j) → fld ((t.core c.val).vreg (fld q.w 116 113)) (8 * j + 7) (8 * j) =
           fld (k.vreg (fld q.w 116 113)) (8 * j + 7) (8 * j)) ∧
       (tlV q.w = false → (∀ j, j < b → fld ((t.core c.val).xreg (fld q.w 116 113)) (8 * (r * (2048 / tlRows q.w) + j) + 7)
           (8 * (r * (2048 / tlRows q.w) + j)) = (s.byte (src + j)).toNat) ∧
         ∀ j, j < 2048 → (j < r * (2048 / tlRows q.w) ∨ r * (2048 / tlRows q.w) + b ≤ j) →
           fld ((t.core c.val).xreg (fld q.w 116 113)) (8 * j + 7) (8 * j) = fld (k.xreg (fld q.w 116 113)) (8 * j + 7) (8 * j)) ∧
       (∀ y, y ≠ c.val → t.core y = s.core y) ∧ KeptBut [.cores] s t))

/-- QCFG (R224) and APROG (R227): the queue configured; the program run, and one of a single command. -/
def Obligations.QueuesAndPrograms : Prop :=
  ∀ (s : State) (c : CoreId) (sl : SlotId) (w : Cmd),
    (let d := s.headState qcfgInfo c sl w
     let r := resolved qcfgInfo s c sl w
     let k := d.core c.val
     opcIs w 0x59 = true → AccessReady qcfgInfo s c sl w → inSlabSpace (fld r 52 32) (fld r 70 60 * fld r 59 53 * 64) = true →
     (bit r 76 = true ∧ k.feeds (fld r 75 73) = false ∨ bit r 76 = false ∧ (k.opq (fld r 75 73)).occ = 0) →
     Starts (.qcfg c sl w) qcfgInfo s c (fun t q => q = s.headEntry qcfgInfo c sl w ∧
       (t.core c.val).opq (fld r 75 73) = {
         base := BitVec.ofNat 21 (fld r 52 32), entry := BitVec.ofNat 7 (fld r 59 53), count := BitVec.ofNat 11 (fld r 70 60)
         consumer := BitVec.ofNat 2 (fld r 72 71), head := 0, tail := 0 } ∧
       (∀ j, j ≠ fld r 75 73 → (t.core c.val).opq j = k.opq j) ∧ (∃ x, RegsOnly c { k with opqs := x } d t))) ∧
    (let d := s.headState aprogInfo c sl w
     let r := resolved aprogInfo s c sl w
     let q := s.headEntry aprogInfo c sl w
     let u := (d.modCore c.val (fun k => { k with program := some { ent := q } })).modCore c.val (fun k => k.pop 3)
     let v := u.runProgram c.val (fld r 65 53 * fld r 81 66 + 2)
     opcIs w 0x5A = true → AccessReady aprogInfo s c sl w → fld r 81 66 ≠ 0 → 1 ≤ fld r 65 53 → fld r 65 53 ≤ 4096 →
     fld r 52 32 % 32 = 0 → inSlabSpace (fld r 52 32) (32 * fld r 65 53) = true →
     (d.core c.val).program = none →
     ((v.core c.val).calm → exec (.aprog c sl w) s = .next v) ∧
     ∀ (x : Cmd) (t : State) (p : Progress), fld r 65 53 = 1 → fld r 81 66 = 1 →
       u.soundAll c [(fld r 52 32, 32)] = true → (u.core c.val).unread = [] →
       programCmd (u.slot c.val sl.val) (BitVec.ofNat 256 (u.num (slabKey c.val (fld r 52 32)) 32)) r 0 = some x →
       (u.slot c.val sl.val).accessOut = false → (t.slot c.val sl.val).accessOut = false →
       moveChecks c.val x = .go → cOpc x ≠ 0x55 → cPen x = false → cenIndex x = none → (u.core c.val).xltAcc = false →
       (u.core c.val).down 3 = false →
       runMove u { c := c.val, ctx := u.ctxOf c.val sl.val, q := { q with w := x }, prog := true } = .ok t p →
       (t.core c.val).program = (u.core c.val).program → (t.core c.val).run 3 = (u.core c.val).run 3 →
       (t.core c.val).xltAcc = false → (t.core c.val).down 3 = false → (v.core c.val).calm →
       Completes (.aprog c sl w) s (fun z => (z.core c.val).program = none ∧
         ∃ e, (z.core c.val).run 3 = (u.core c.val).run 3 ++ [e] ∧ e.w = r ∧ e.slot = sl ∧
           e.status = (if p.bitmap ≠ 0 then stPartial else if p.newer then stSrcChanged else stOk) ∧ ∀ a, z.byte a = t.byte a))

/-- PUT, GET, ATOMIC, RPUT (R325 to R332): the packets that set out and their records; the NOTIFY of one that moves nothing. -/
def Obligations.FabricCommands : Prop :=
  ∀ (i : Instr) (s : State) (c : CoreId) (sl : SlotId) (w : Cmd) (o : OpInfo) (n p : Nat),
    engineRow i = some (c, sl, w, o, n) → 0x60 ≤ n → n ≤ 0x63 → opcIs w n = true → AccessReady o s c sl w →
    let d := s.headState o c sl w
    let r := resolved o s c sl w
    let parts : List FabPart := if n = 0x62 then [⟨0, 0, 0⟩] else fbParts r {}
    let remote (x : FabPart) : Nat := fbRemote r + x.row * fbRPitch r + x.off
    let place (x : FabPart) : Nat := fbLocal r + x.row * fbLPitch r + x.off
    let tags := (List.range 18432).filter (fun t =>
      !(d.fab.reqs.any (fun e => e.port.val = p && e.tag = t)) && !KV.get false d.fab.tagQuar (tagKey p t))
    (fabCheck d r = .go → (∀ x ∈ parts, d.routeOut none (rModule (remote x)) = .leave p ∧
        d.cut c.val (fibreRouter p (fbFibre (remote x))) = false) → parts.length ≤ tags.length →
      (n = 0x60 ∨ n = 0x63 → ∀ x ∈ parts, d.plain c.val (place x) x.len) →
      (n = 0x61 → ∀ j, j < fbRows r → regionOf (fbLocal r + j * fbLPitch r) = .cluster ∨
        ∃ k v, regionOf (fbLocal r + j * fbLPitch r) = .slab k v) →
      Starts i o s c (fun t q => q.w = r ∧ q.id = d.fab.nextId + 1 ∧ q.await = [1] ∧ q.sent = parts.length ∧
        t.fab.nextId = d.fab.nextId + 1 ∧ CoreIs c (d.core c.val) d t ∧ KeptBut [.cores, .fab] d t ∧
        ∃ (pks : List Packet) (es : List FabReq), t.fab.inject = d.fab.inject ++ pks ∧ t.fab.reqs = d.fab.reqs ++ es ∧
          pks.length = parts.length ∧ es.length = parts.length ∧
          ∀ (j : Nat) (x : FabPart) (pk : Packet) (e : FabReq) (tag : Nat), parts[j]? = some x → pks[j]? = some pk → es[j]? = some e →
            tags[j]? = some tag →
            pk.ptype = (if n = 0x60 then pkPut else if n = 0x61 then pkGet else if n = 0x62 then pkAtomic else pkRput) ∧
            pk.dest.toNat = rModule (remote x) ∧ pk.src.toNat = d.selfId ∧ pk.tag.toNat = tag ∧ pk.tagInc = d.tagIncOf p tag ∧
            pk.ctx = (d.slot c.val sl.val).ctx ∧ pk.vc = 0 ∧ pk.bad = 0 ∧ pk.addr.toNat = remote x % 2 ^ 38 ∧ pk.len.toNat = x.len ∧
            pk.fibre.toNat = fbFibre (remote x) ∧ pk.data = (if n = 0x60 ∨ n = 0x63 then d.bytes (place x) x.len else []) ∧
            (n = 0x62 → fld pk.body 63 0 = fld r 151 88 ∧ fld pk.body 127 64 = fld r 220 157 ∧
              fld pk.body 135 128 = b2n (bit r 248) ∧ fld pk.body 143 136 = fld r 87 84) ∧
            (n = 0x63 → pk.body.toNat = b2n (bit r 227)) ∧
            e.port.val = p ∧ e.tag = tag ∧ e.inc = d.tagIncOf p tag ∧ e.dest = pk.dest ∧ e.core = c ∧ e.slot = sl ∧ e.ctx = pk.ctx ∧
            e.id = d.fab.nextId + 1 ∧ e.ptype = pk.ptype ∧ e.row = x.row ∧ (n ≠ 0x62 → e.ix = j ∧ e.len = x.len) ∧
            e.addr = (if n = 0x61 then some (place x) else if n = 0x62 ∧ bit r 247 = true then some (fld r 246 226) else none))) ∧
    (fabCheck d r = .noop → fbNotify r = true → (∀ e ∈ d.fab.reqs, e.id ≠ d.fab.nextId + 1) → d.routeOut none (rModule (fbRemote r)) = .leave p →
      d.cut c.val (fibreRouter p (fbRidx r % 8)) = false → ∀ tag, tags.head? = some tag →
      Starts i o s c (fun t q => q.w = r ∧ q.id = d.fab.nextId + 1 ∧ q.await = [1] ∧ KeptBut [.fab] d t ∧
        (∃ pk, t.fab.inject = d.fab.inject ++ [pk] ∧ pk.ptype = pkNotify ∧ pk.dest.toNat = rModule (fbRemote r) ∧
          pk.fibre.toNat = fbRidx r % 8 ∧ pk.tag.toNat = tag ∧ fld pk.body 15 0 = fbRidx r ∧ fld pk.body 23 16 = fbRinc r) ∧
        ∃ e, t.fab.reqs = d.fab.reqs ++ [e] ∧ e.port.val = p ∧ e.tag = tag ∧ e.core = c ∧ e.slot = sl ∧ e.id = d.fab.nextId + 1))

/-- DSET, DUPD, DNORM, DREAD (R273): a part for each Damson named, with what it carries. -/
def Obligations.DamsonCommands : Prop :=
  ∀ (i : Instr) (s : State) (c : CoreId) (sl : SlotId) (w : Cmd) (o : OpInfo) (n : Nat),
    engineRow i = some (c, sl, w, o, n) → 0x68 ≤ n → n ≤ 0x6B → opcIs w n = true → AccessReady o s c sl w →
    let d := s.headState o c sl w
    let r := resolved o s c sl w
    let x := d.slot c.val sl.val
    dmNamed r ≠ [] → (∀ k ∈ dmNamed r, d.cut c.val (damsonRouter k 0) = false) → dmBase r % dmEntry r = 0 → d.soundAll c ((dmNamed r).map (fun k => (dmBase r + k * dmEntry r, dmEntry r))) = true →
    (∀ q ∈ (d.core c.val).run 3, isDamson q.w = false) →
    Starts i o s c (fun t q => q.w = r ∧ q.await = dmNamed r ∧ q.id = d.fab.nextId + 1 ∧ CoreIs c (d.core c.val) d t ∧
      KeptBut [.cores, .fab, .damsons] d t ∧ t.fab = { d.fab with nextId := d.fab.nextId + 1 } ∧
      ∀ k, k < 10 → ∃ p : Part, p.core = c ∧ p.slot = sl ∧ p.ctx = x.ctx ∧ p.id = d.fab.nextId + 1 ∧ p.w = r ∧ p.seed = hSeed x.hdr ∧
        p.gangDone = false ∧ p.lost = false ∧
        (n = 0x68 → bit r 75 = false → p.image = BitVec.ofNat 1024 (d.num (slabKey c.val (dmBase r + 128 * k)) 128)) ∧
        t.dam k = if k ∈ dmNamed r then
          (if n = 0x68 ∨ n = 0x6B then { d.dam k with descr := (d.dam k).descr ++ [p] }
            else { d.dam k with updates := (d.dam k).updates ++ [p] })
          else d.dam k)

/-! ### Translation, memories and the mesh -/

/-- Walks, suspensions and invalidations (R206 to R209); `u` is the state after the table entry was read. -/
def Obligations.Translations : Prop :=
  ∀ (s : State) (c : CoreId) (f : Option SlotId) (ats : AtsReply),
    let k := s.core c.val
    (k.walk (walkKey f) = none → exec (.walkResponse c f ats) s = .next s) ∧
    (∀ (w : Walk) (u : State) (b : List Byte), k.walk (walkKey f) = some w →
      s.readTier w.ctx.toNat (w.table.toNat + 8 * vaIndex w.level w.va.toNat) 8 = ⟨b, stOk, u⟩ →
      let r := walkEntry (fun a => (u.tierMap a).isSome) w (BitVec.ofNat 64 (leNat b))
      (∀ w', r = .more w' → Completes (.walkResponse c f ats) s (fun t =>
        (t.core c.val).walk (walkKey f) = some w' ∧ (∀ d, d ≠ c.val → t.core d = u.core d) ∧ KeptBut [.cores] u t)) ∧
      (∀ e e' via, r = .leaf e via → (u.core c.val).calm → (u.core c.val).program = none →
        (via = false → e' = e) → (∀ a, via = true → ats = .success a →
          e' = { e with phys := a.toNat / (if e.big then 0x200000 else 0x10000) * (if e.big then 0x200000 else 0x10000), ats := some e.phys }) →
        (via = false ∨ ats ≠ .failure) → Completes (.walkResponse c f ats) s (fun t =>
          (f = none → (t.core c.val).tlbAcc = (e' :: (u.core c.val).tlbAcc).take 256 ∧ (t.core c.val).tlbSeq = (u.core c.val).tlbSeq) ∧
          (f ≠ none → (t.core c.val).tlbSeq = (e' :: (u.core c.val).tlbSeq).take 32 ∧ (t.core c.val).tlbAcc = (u.core c.val).tlbAcc) ∧
          (t.core c.val).walks = KV.del (u.core c.val).walks (walkKey f) ∧ (∀ d, d ≠ c.val → t.core d = u.core d) ∧
          KeptBut [.cores] u t))) ∧
    (∀ (a : Agent) (v : BitVec 32), (s.permits a .xltResume 0 = false → exec (.memXltResume a v) s = .next s) ∧
      (s.permits a .xltResume 0 = true → fld v 9 0 = c.val → k.calm → k.program = none →
        (fld v 12 10 = 3 → k.xltAcc = true → Completes (.memXltResume a v) s (fun t =>
          t.core c.val = { k with xltAcc := false, xltBy := none } ∧ (∀ d, d ≠ c.val → t.core d = s.core d) ∧ KeptBut [.cores] s t)) ∧
        (fld v 12 10 = 4 → (s.slot c.val (fld v 14 13)).xltFault = true → Completes (.memXltResume a v) s (fun t =>
          t.slot c.val (fld v 14 13) = (if (s.slot c.val (fld v 14 13)).active then
            { s.slot c.val (fld v 14 13) with xltFault := false } else {}) ∧
          (∀ j, j ≠ fld v 14 13 → t.slot c.val j = s.slot c.val j) ∧ (∀ d, d ≠ c.val → t.core d = s.core d) ∧ KeptBut [.cores] s t)))) ∧
    (∀ (a : Agent) (v : BitVec 32), s.permits a .tlbInv 0 = true → s.tlbInv = none → fld (s.rg oTlbLo) 51 16 ≤ fld (s.rg oTlbHi) 51 16 →
      Completes (.memTlbInv a v) s (fun t => t.tlbInv = some (v, s.rg oTlbLo, s.rg oTlbHi) ∧ KeptBut [.cores, .tlbInv] s t ∧
        ∀ d, t.core d = { s.core d with
          tlbSeq := (s.core d).tlbSeq.filter (fun e => !invCovers v (s.rg oTlbLo) (s.rg oTlbHi) e)
          tlbAcc := (s.core d).tlbAcc.filter (fun e => !invCovers v (s.rg oTlbLo) (s.rg oTlbHi) e) })) ∧
    (∀ (a : Agent) (v : BitVec 32), (s.permits a .tlbInv 0 = false ∨ s.tlbInv.isSome = true) → exec (.memTlbInv a v) s = .next s) ∧
    (s.tlbInv = none → exec .tlbInvDone s = .next s) ∧
    (∀ v lo hi, s.tlbInv = some (v, lo, hi) → Completes .tlbInvDone s (fun t => t.tlbInv = none ∧ KeptBut [.cores, .tlbInv] s t ∧
      ∀ d, t.core d = { s.core d with tlbSeq := (s.core d).tlbSeq.filter (fun e => !invCovers v lo hi e)
                                      tlbAcc := (s.core d).tlbAcc.filter (fun e => !invCovers v lo hi e) }))

/-- Requests at slabs and cluster memory (R178 to R189): the answer, the bytes stored, nothing else. -/
def Obligations.MemoryRequests : Prop :=
  ∀ (s : State),
    let Answered (i : Instr) (key n : Nat) (op : Access) : Prop :=
      (op = .read n → Completes i s (fun t => t.hif.slabReply = .data (s.bytes key n) ∧ (∀ a, t.byte a = s.byte a) ∧
        (∀ d, (t.core d).slots = (s.core d).slots ∧ (t.core d).tags = (s.core d).tags))) ∧
      (∀ d, op = .write d → d.length = n → Completes i s (fun t => t.hif.slabReply = .done ∧
        (∀ a, t.byte a = if key ≤ a ∧ a < key + n then d.getD (a - key) 0 else s.byte a) ∧
        (∀ x, (t.core x).slots = (s.core x).slots ∧ (t.core x).tags = (s.core x).tags)))
    let Refused (i : Instr) (st : BitVec 8) (u : State) : Prop := exec i s = .next (u.setSlabReply (.status st))
    (∀ (cl : SlabClient) (c : CoreId) (off : BitVec 23) (op : Access) (n : Nat), op.inWord off.toNat = true → accessBytes op = n →
      (engineSide cl = true ∨ s.routerDown c.val = false) → inSlabSpace off.toNat n = true → s.sound (slabKey c.val off.toNat) n = true →
      Answered (.slabAccess cl c off op) (slabKey c.val off.toNat) n op) ∧
    (∀ (cl : SlabClient) (c : CoreId) (off : BitVec 23) (op : Access), op.inWord off.toNat = true →
      let u := if cl = .inbound then s.took.ejected c.val else s
      (engineSide cl = true → inSlabSpace off.toNat (accessBytes op) = false → Refused (.slabAccess cl c off op) stCapacity s) ∧
      (engineSide cl = false → s.routerDown c.val = true → Refused (.slabAccess cl c off op) stPathLost u) ∧
      (engineSide cl = false → s.routerDown c.val = false → slabRegion c.val off.toNat = .unmapped →
        Refused (.slabAccess cl c off op) stIllegal u)) ∧
    (∀ (c : CoreId) (set : Bool) (off : BitVec 21) (d : List Byte), 1 ≤ d.length → d.length ≤ 64 →
      (s.routerDown c.val = true → Refused (.aliasWrite c set off d) stPathLost s) ∧
      (s.routerDown c.val = false → inSlabSpace off.toNat d.length = false → Refused (.aliasWrite c set off d) stIllegal s) ∧
      (s.routerDown c.val = false → inSlabSpace off.toNat d.length = true →
        s.sound (slabKey c.val (off.toNat / 64 * 64)) (if off.toNat % 64 + d.length ≤ 64 then 64 else 128) = true →
        Completes (.aliasWrite c set off d) s (fun t => t.hif.slabReply = .done ∧ (t.core c.val).eject = (s.core c.val).eject.drop 1 ∧
          ∀ a, t.byte a = if slabKey c.val off.toNat ≤ a ∧ a < slabKey c.val off.toNat + d.length then
              (if set then s.byte a ||| d.getD (a - slabKey c.val off.toNat) 0 else s.byte a &&& ~~~(d.getD (a - slabKey c.val off.toNat) 0))
            else s.byte a))) ∧
    (∀ (k : ClusterId) (port : Fin 8) (off : BitVec 26) (op : Access) (n : Nat), op.inWord off.toNat = true → accessBytes op = n →
      (s.routerDown (portRouter k.val port.val) = true → Refused (.clusterMemoryAccess k port off op) stPathLost s) ∧
      (s.routerDown (portRouter k.val port.val) = false → Completes (.clusterMemoryAccess k port off op) s (fun t =>
        (∀ h ∈ t.power.meshStopped, h.val ≠ clusterHalf k.val) ∧ (t.cluster k.val).waiting port.val = (s.cluster k.val).waiting port.val - 1 ∧
        (0x3000000 ≤ off.toNat → t.hif.slabReply = .status stIllegal ∧ KeptBut [.fresh, .power, .clusters, .hif] s t))) ∧
      (s.routerDown (portRouter k.val port.val) = false → off.toNat < 0x3000000 → s.sound (clusKey k.val off.toNat) n = true →
        Answered (.clusterMemoryAccess k port off op) (clusKey k.val off.toNat) n op))

/-- Power states, scrubbing, write-backs (R190 to R193, R201). -/
def Obligations.MemoryPower : Prop :=
  ∀ (s : State),
    let Asked (i : Instr) (m n : Nat) (v : BitVec 32) : Prop := Completes i s (fun t => KeptBut [.mems] s t ∧
      (∀ j, j < n → t.memU (m + j) = if s.memFailed (m + j) then s.memU (m + j) else (s.memU (m + j)).write (fld v (2 * j + 1) (2 * j))) ∧
      ∀ x, (x < m ∨ m + n ≤ x) → t.memU x = s.memU x)
    (∀ (a : Agent) (c : CoreId) (v : BitVec 32), (s.permits a .slabState c.val = true → Asked (.memSlabState a c v) (slabMem c.val 0) 8 v) ∧
      (s.permits a .slabState c.val = false → exec (.memSlabState a c v) s = .next s)) ∧
    (∀ (a : Agent) (k : ClusterId) (v : BitVec 32), (s.permits a .segState k.val = true → Asked (.memSegState a k v) (segMem k.val 0) 12 v) ∧
      (s.permits a .segState k.val = false → exec (.memSegState a k v) s = .next s)) ∧
    (∀ (m : MemUnit), s.memFailed (memIx m) = false →
      let u := s.memU (memIx m)
      let p := memPlace (memIx m)
      ((u.target = none → exec (.memoryStateTransitionDone m) s = .next s) ∧
       (u.target = some .on → u.st ≠ .off → Completes (.memoryStateTransitionDone m) s (fun t =>
         t.memU (memIx m) = u.on ∧ KeptBut [.mems] s t)) ∧
       (u.target = some .ret → Completes (.memoryStateTransitionDone m) s (fun t =>
         t.memU (memIx m) = { u with st := .ret, target := none } ∧ KeptBut [.mems] s t)) ∧
       (u.target = some .off → Completes (.memoryStateTransitionDone m) s (fun t =>
         (t.memU (memIx m)).st = .off ∧ (t.memU (memIx m)).target = none ∧ (t.memU (memIx m)).wb = [])) ∧
       (u.target = some .on → u.st = .off → Completes (.memoryStateTransitionDone m) s (fun t =>
         (t.memU (memIx m)).st = .on ∧ (t.memU (memIx m)).target = (if u.toRet then some .ret else none) ∧
         (∀ a, p.base ≤ a → a < p.base + p.size → t.byte a = 0 ∧ KV.get 0 t.chk (a / 32) = 0) ∧
         ∀ a, (a < p.base ∨ p.base + p.size ≤ a) → t.byte a = s.byte a)))) ∧
    (∀ (m : MemUnit), (s.memSt (memIx m) = .ret → Completes (.memoryWakeFromRet m) s (fun t =>
        t.memU (memIx m) = (s.memU (memIx m)).on ∧ KeptBut [.mems] s t)) ∧
      (s.memSt (memIx m) ≠ .ret → exec (.memoryWakeFromRet m) s = .next s)) ∧
    (∀ (m : MemUnit),
      let u := s.memU (memIx m)
      let h := (memPlace (memIx m)).base / 32 + 2 * u.scrub
      s.memSt (memIx m) = .on → (7680 ≤ memIx m → ∀ x ∈ s.power.meshStopped, x.val ≠ memHalf (memIx m)) →
      KV.get 0 s.chk h = 0 → KV.get 0 s.chk (h + 1) = 0 →
      (u.scrub + 1 < (memPlace (memIx m)).size / 64 → Completes (.scrubRead m) s (fun t =>
        t.memU (memIx m) = { u with scrub := u.scrub + 1, passAt := if u.scrub = 0 then s.aon else u.passAt } ∧ KeptBut [.mems] s t)) ∧
      ((memPlace (memIx m)).size / 64 ≤ u.scrub + 1 → Completes (.scrubRead m) s (fun t =>
        t.memU (memIx m) = { u with scrub := 0 } ∧
        t.rf (scrubReg (memIx m)) 31 0 = min (s.rf (scrubReg (memIx m)) 31 0 + 1) 0xFFFFFFFF ∧ KeptBut [.mems, .regs] s t))) ∧
    (∀ (m : MemUnit) (h : Nat) (d : BitVec 256) (l : List (Nat × BitVec 256)), (s.memU (memIx m)).wb = (h, d) :: l →
      s.memSt (memIx m) = .on → Completes (.correctionWriteback m) s (fun t => (t.memU (memIx m)).wb = l ∧
        KV.get 0 t.chk h = 0 ∧ (∀ i, i < 32 → t.byte (32 * h + i) = (bytesOf d 32).getD i 0) ∧
        ∀ a, (a < 32 * h ∨ 32 * h + 32 ≤ a) → t.byte a = s.byte a))

/-- Flits and mesh clocks (R182, R229, R365, R420). -/
def Obligations.MeshEvents : Prop :=
  ∀ (s : State) (r : CoreId) (f : Flit) (h : HalfId),
    let u := s.takeFlit r.val f
    let runs : Prop := s.routerDown r.val = false ∧ s.halfStands (halfOf r.val) = false
    let k := clusterOf r.val
    let Kept : Prop := exec (.flitArrival r f) s = .next s
    let Off : Prop := exec (.flitArrival r f) s = .next u
    let Held : Prop := exec (.flitArrival r f) s = .next (s.holdFlit r.val f)
    (runs → f.vc ≠ 2 → f.dst ≠ r → ∀ n, routerAt r.val (s.routeDir r.val f.dst.val) = some n →
      (s.linkFree r.val n f = false → Held) ∧
      (s.linkFree r.val n f = true → s.routerDown n = false → Completes (.flitArrival r f) s (fun t =>
        t.flits = u.flits ++ [(linkKey r.val n, checkedFlit f)] ∧ KeptBut [.flits] s t)) ∧
      (s.linkFree r.val n f = true → s.routerDown n = true → Completes (.flitArrival r f) s (fun t => t.flits = u.flits ∧
        t.lostFlits = checkedFlit f :: s.lostFlits ∧ KeptBut [.flits, .lostFlits] s t))) ∧
    (runs → f.vc ≠ 2 → f.dst = r → f.out = .local → (s.core r.val).eject.length < 32 → Completes (.flitArrival r f) s (fun t =>
      t.flits = u.flits ∧ t.core r.val = { s.core r.val with eject := (s.core r.val).eject ++ [checkedFlit f] } ∧
      (∀ d, d ≠ r.val → t.core d = s.core d) ∧ KeptBut [.flits, .cores] s t)) ∧
    (runs → f.vc ≠ 2 → f.dst = r → f.out = .local → 32 ≤ (s.core r.val).eject.length → Completes (.flitArrival r f) s (fun t =>
      t.flits = u.flits ++ [(r.val, checkedFlit f)] ∧ KeptBut [.flits] s t)) ∧
    (runs → f.vc ≠ 2 → f.dst = r → f.out = .edge → (edgeBlock r.val ≠ none → Off) ∧ (edgeBlock r.val = none → Kept)) ∧
    (runs → f.vc ≠ 2 → f.dst = r → f.out = .vertical → (verticalPort r.val = none → Kept) ∧
      ∀ i, verticalPort r.val = some i → (f.vc ≠ 0 → Off) ∧ (f.vc = 0 → 112 ≤ (s.cluster k).waiting i → Held) ∧
        (f.vc = 0 → (s.cluster k).waiting i < 112 → Completes (.flitArrival r f) s (fun t => t.flits = u.flits ∧
          (t.cluster k).waiting i = (s.cluster k).waiting i + 1 ∧ KeptBut [.flits, .clusters] s t))) ∧
    (s.routerDown r.val = false → s.halfStands (halfOf r.val) = true → Held) ∧
    (s.routerDown r.val = true → Completes (.flitArrival r f) s (fun t => t.flits = u.flits ∧
      t.lostFlits = lostCopies f r.val ++ s.lostFlits ∧ KeptBut [.flits, .lostFlits] s t)) ∧
    (runs → f.vc = 2 → (s.canForward r.val f (flitDirs f r.val) = false → Held) ∧
      (s.canForward r.val f (flitDirs f r.val) = true → Completes (.flitArrival r f) s (fun t => KeptBut [.flits, .lostFlits, .cores] s t ∧
        (∀ d n, d ∈ flitDirs f r.val → routerAt r.val d = some n → s.routerDown n = false → (linkKey r.val n, checkedFlit f) ∈ t.flits) ∧
        (flitCovers f r.val = true → s.available r.val = true → (s.core r.val).eject.length < 32 →
          (t.core r.val).eject = (s.core r.val).eject ++ [checkedFlit f]) ∧
        ((flitCovers f r.val = false ∨ s.available r.val = false) → t.cores = s.cores)))) ∧
    (s.quiescent h.val = true → s.rf oIdle 28 21 ≠ 0 → Completes (.meshClockStop h) s (fun t => h ∈ t.power.meshStopped ∧
      (∀ x, x ≠ h → (x ∈ t.power.meshStopped ↔ x ∈ s.power.meshStopped)) ∧ KeptBut [.power] s t)) ∧
    (s.quiescent h.val = false ∨ s.rf oIdle 28 21 = 0 → exec (.meshClockStop h) s = .next s) ∧
    Completes (.meshWake h) s (fun t => h ∉ t.power.meshStopped ∧
      (∀ x, x ≠ h → (x ∈ t.power.meshStopped ↔ x ∈ s.power.meshStopped)) ∧ KeptBut [.power] s t) ∧
    (∀ (n : Fin 64) (q : QEnt), s.lostFlits.find? (fun g => g.src = r) = some f →
      (((s.core r.val).run 3).filter (fun q => movesData q.w))[n.val]? = some q → cOpc q.w = 0x50 →
      Completes (.meshPathLostTimeout r n) s (fun t => t.lostFlits = s.lostFlits.erase f ∧
        (t.core r.val).run 3 = ((s.core r.val).run 3).map (fun x => if x = q then
          { q with prog := { q.prog with bitmap := q.prog.bitmap ||| 0x100000 }, await := q.await.erase (f.dst.val + 2)
                   status := stPartial, bitmap := q.prog.bitmap ||| 0x100000 } else x) ∧
        (∀ d, d ≠ r.val → t.core d = s.core d) ∧ KeptBut [.cores, .lostFlits, .fresh] s t))

/-- Requests, pauses, patrol scrub and training of the slow tier (R255 to R267). -/
def Obligations.TierEvents : Prop :=
  ∀ (s : State),
    (∀ (r : TierReq) (ch off : Nat), s.tierMap r.pa.toNat = some (ch, off) →
    let x := s.chan ch
    let e := s.setChan ch (x.setRefusals r 0)
    let up : Prop := r.op.inWord r.pa.toNat = true ∧ s.selfRefresh ch = false
    let Reply (t : State) (a : Reply) : Prop :=
      (x.paused = false → t.hif.tierReply = a ∧ (t.chan ch).pool = x.pool) ∧
      (x.paused = true → t.hif.tierReply = s.hif.tierReply ∧ ∃ old, (t.chan ch).pool = x.pool ++
        [{ req := r, epoch := BitVec.ofNat 24 (s.rf (oEpoch (ch / 2)) 23 0), old := old, reply := a }])
    (up → s.poolTakes x r.client off = true →
      (∀ n o, r.op = .read n → r.pa.toNat % 32 + n ≤ 32 → s.tierMap (r.pa.toNat / 32 * 32) = some (ch, o) →
        (s.line (tierKey ch o)).torn = false → (s.line (tierKey ch o)).poison = false → KV.get 0 s.chk (tierKey ch o / 32) = 0 →
        Completes (.slowTierRequest r) s (fun t => Reply t (.data (s.bytes (tierKey ch o + r.pa.toNat % 32) n)) ∧
          KeptBut [.channels, .hif] s t)) ∧
      (∀ d, r.op = .write d → d.length = 64 → r.pa.toNat % 64 = 0 → r.pa.toNat < 0x80000000000 → off % 64 = 0 →
        Completes (.slowTierRequest r) s (fun t => Reply t .done ∧
          (∀ a, t.byte a = if tierKey ch off ≤ a ∧ a < tierKey ch off + 64 then d.getD (a - tierKey ch off) 0 else s.byte a) ∧
          t.line (tierKey ch off) = { epoch := BitVec.ofNat 24 (s.rf (oEpoch (ch / 2)) 23 0), poison := false } ∧
          KV.get 0 t.chk (tierKey ch off / 32) = 0 ∧ KV.get 0 t.chk (tierKey ch off / 32 + 1) = 0))) ∧
    (r.op.inWord r.pa.toNat = true → s.selfRefresh ch = true → r.client = .host →
      exec (.slowTierRequest r) s = .next (s.setTierReply (match r.op with | .read _ => .aborted | .write _ => .dropped))) ∧
    (up → s.poolTakes x r.client off = false →
      Completes (.slowTierRequest r) s (fun t => t.hif.tierReply = .status stRetry ∧ (t.chan ch).refusals r = x.refusals r + 1 ∧
        KeptBut [.channels, .hif, .cores] s t) ∧
      (x.refusals r ≠ 0 → x.refusals r < 255 → Completes (.bankRetry r) s (fun t => (t.chan ch).refusals r = x.refusals r + 1 ∧
        KeptBut [.channels, .cores] s t)) ∧
      (∀ n, 255 ≤ x.refusals r → r.client = .host → r.op = .read n → Completes (.bankRetry r) s (fun t =>
        t.hif.tierReply = .aborted ∧ (t.chan ch).refusals r = 0 ∧ KeptBut [.channels, .hif] s t))) ∧
    (up → s.poolTakes x r.client off = true → x.refusals r ≠ 0 →
      exec (.bankRetry r) s = .next (e.enterPool ch r))) ∧
    (∀ (c : ChanId) (b : Bool),
      let y := s.chan c.val
      let Ends (i : Instr) (z : Channel) : Prop := Completes i s (fun t => t.chan c.val = { z with pool := [] } ∧
        t.hif.tierReply = (y.pool.getLast?).elim s.hif.tierReply (fun e => e.reply) ∧
        (∀ d, d ≠ c.val → t.chan d = s.chan d) ∧ KeptBut [.channels, .hif] s t)
      (b = true → exec (.channelRefresh c b) s = .next (s.setChan c.val { y with refresh := true })) ∧
      (b = false → y.retrain = true → exec (.channelRefresh c b) s = .next (s.setChan c.val { y with refresh := false })) ∧
      (b = false → y.retrain = false → Ends (.channelRefresh c b) { y with refresh := false }) ∧
      (let other := s.chan (if c.val % 2 = 0 then c.val + 1 else c.val - 1)
       (b = true → other.retrain = true → exec (.onlineRetraining c b) s = .next s) ∧
       (b = true → other.retrain = false → exec (.onlineRetraining c b) s = .next (s.setChan c.val { y with retrain := true })) ∧
       (b = false → y.refresh = true → exec (.onlineRetraining c b) s = .next (s.setChan c.val { y with retrain := false })) ∧
       (b = false → y.refresh = false → Ends (.onlineRetraining c b) { y with retrain := false })) ∧
      (y.paused = false → s.selfRefresh c.val = false → s.populated c.val = true → (s.line (tierKey c.val (64 * y.scrub))).torn = false →
        (s.line (tierKey c.val (64 * y.scrub))).poison = false → KV.get 0 s.chk (tierKey c.val (64 * y.scrub) / 32) = 0 →
        KV.get 0 s.chk (tierKey c.val (64 * y.scrub) / 32 + 1) = 0 →
        (y.scrub + 1 < s.dimmGib * gib / 64 → Completes (.patrolScrub c) s (fun t =>
          t.chan c.val = { y with scrub := y.scrub + 1 } ∧ KeptBut [.channels] s t)) ∧
        (s.dimmGib * gib / 64 ≤ y.scrub + 1 → Completes (.patrolScrub c) s (fun t =>
          t.chan c.val = { y with scrub := 0 } ∧ KeptBut [.channels, .regs] s t)))) ∧
    (∀ (ds : List Dimm) (failed : List (BitVec 20)), ds.length = 20 →
      (populationOk ds = false → Completes (.ddrTraining ds failed) s (fun t => t.rg oPop = 0x2000000 ∧ KeptBut [.regs] s t)) ∧
      (populationOk ds = true → failedAt ((ds.filter (fun d => d.present)).length = 10) failed 0 = 0 → s.evqOn 0 = false →
        Completes (.ddrTraining ds failed) s (fun t => t.tierReady = true ∧
          t.mode10 = decide ((ds.filter (fun d => d.present)).length = 10) ∧ t.rf oReady 2 2 = 1 ∧ (rdTier, s.aon) ∈ t.hif.held ∧
          t.dimmGib = (ds.getD 0 ⟨false, false, 0, 0, 1⟩).gib ∧ t.dimmBanks = (ds.getD 0 ⟨false, false, 0, 0, 1⟩).banks)))

/-! ### Damsons at work and synchronisation events -/

/-- The split, the epochs, and the parts of Damson commands (R257, R262, R273, R274, R280, R282). -/
def Obligations.DamsonEvents : Prop :=
  ∀ (s : State) (a : Agent) (k : DamId) (c : CoreId) (v : BitVec 32),
    let d := s.dam k.val
    let Others (t : State) : Prop := ∀ j, j ≠ k.val → t.dam j = s.dam j
    let Kept (i : Instr) : Prop := exec i s = .next s
    let l := min (fld v 8 0) s.dimmGib
    (s.permits a .dmsSplit 0 = false → Kept (.dmsSplit a v)) ∧
    (s.permits a .dmsSplit 0 = true → s.locked = true → exec (.dmsSplit a v) s = .next (s.lockViolation oSplit)) ∧
    (s.permits a .dmsSplit 0 = true → s.locked = false → (∀ j, j < 10 → (s.dam j).running = none) →
      Completes (.dmsSplit a v) s (fun t => t.rf oSplit 8 0 = l ∧ (∀ o, o ≠ oSplit → t.rg o = s.rg o) ∧ KeptBut [.regs] s t)) ∧
    (s.permits a .dmsEpoch k.val = false → Kept (.dmsEpoch a k v)) ∧
    (s.permits a .dmsEpoch k.val = true → Completes (.dmsEpoch a k v) s (fun t => t.rf (oEpoch k.val) 23 0 = fld v 23 0 ∧
      (∀ o, o ≠ oEpoch k.val → t.rg o = s.rg o) ∧ KeptBut [.regs] s t)) ∧
    (s.permits a .dmsEpochAll 0 = false → Kept (.dmsEpochAll a v)) ∧
    (s.permits a .dmsEpochAll 0 = true → Completes (.dmsEpochAll a v) s (fun t =>
      (∀ j, j < 10 → t.rf (oEpoch j) 23 0 = fld v 23 0) ∧ (∀ o, (∀ j, j < 10 → o ≠ oEpoch j) → t.rg o = s.rg o) ∧ KeptBut [.regs] s t)) ∧
    (let free (p : Part) : Prop := ∀ r, d.running = some r → dmGroup r.part.w ≠ dmGroup p.w
     (d.inReset = true ∨ (∀ p ∈ d.descr, ¬ free p) → Kept (.descriptorPartArrival k)) ∧
     (∀ (p : Part) (l' : List Part), d.inReset = false → d.descr = p :: l' → free p → p.lost = false →
       (cOpc p.w = 0x6B → Completes (.descriptorPartArrival k) s (fun t => t.dam k.val = { d with
         descr := l', answers := d.answers ++ [{ core := p.core, id := p.id, status := stOk, data := some (d.group (dmGroup p.w)) }] } ∧
         Others t ∧ KeptBut [.damsons] s t)) ∧
       (∀ g, cOpc p.w = 0x68 → dsetGroup s.windowSize (d.group (dmGroup p.w)) p.image p.w = some g →
         Completes (.descriptorPartArrival k) s (fun t => (t.dam k.val).group (dmGroup p.w) = g ∧
           (∀ n, n ≠ dmGroup p.w → (t.dam k.val).group n = d.group n) ∧ (t.dam k.val).descr = l' ∧
           (t.dam k.val).answers = d.answers ++ [{ core := p.core, id := p.id, status := stOk, data := none }] ∧
           Others t ∧ KeptBut [.damsons] s t)) ∧
       (cOpc p.w = 0x68 → dsetGroup s.windowSize (d.group (dmGroup p.w)) p.image p.w = none →
         Completes (.descriptorPartArrival k) s (fun t => t.dam k.val = { d with
           descr := l', answers := d.answers ++ [{ core := p.core, id := p.id, status := stIllegal, data := none }] } ∧
           Others t ∧ KeptBut [.damsons] s t)))) ∧
    (d.inReset = true ∨ d.running ≠ none ∨ d.updates = [] → Kept (.updatePartStart k)) ∧
    (∀ (p : Part) (l' : List Part), d.inReset = false → d.running = none → d.updates = p :: l' →
      let gang := decide (cOpc p.w = 0x69) && bit p.w 54 && !p.gangDone
      (gang = true → (∃ j, j < 10 ∧ (∃ x ∈ (s.dam j).updates, x.id = p.id) ∧
          ((s.dam j).running ≠ none ∨ ∀ x ∈ (s.dam j).updates.head?, x.id ≠ p.id)) → Kept (.updatePartStart k)) ∧
      (gang = false → p.gangBlocked = false → partCheck (d.group (dmGroup p.w)) p.w ≠ stOk →
        Completes (.updatePartStart k) s (fun t => ∃ r, t.dam k.val = { d with updates := l', running := some r } ∧ r.part = p ∧
          r.status = partCheck (d.group (dmGroup p.w)) p.w ∧ r.applied = false ∧ Others t ∧ KeptBut [.damsons] s t)) ∧
      (gang = false → p.gangBlocked = false → partCheck (d.group (dmGroup p.w)) p.w = stOk →
        Completes (.updatePartStart k) s (fun t => (t.dam k.val).updates = l' ∧ ∃ r, (t.dam k.val).running = some r ∧ r.part = p ∧
          (r.status = stOk ∨ r.status = stEcc ∨ r.status = stPoison) ∧ r.applied = decide (cOpc p.w ≠ 0x6A)))) ∧
    (d.running = none → Kept (.updatePartComplete k)) ∧
    (∀ r : RunPart, d.running = some r →
      let p := r.part
      let n := dmGroup p.w
      let key := slabKey p.core.val (dmBase p.w + k.val * dmEntry p.w)
      let e := bytesOf r.entry (dmEntry p.w)
      let g := clearMonitor (setFld (d.group n) 127 64 (dmStep p.w))
      let Group (t : State) : Prop := (t.dam k.val).running = none ∧ ∀ m, (t.dam k.val).group m = if m = n ∧ r.applied = true then g else d.group m
      (p.lost = true → Completes (.updatePartComplete k) s (fun t => Group t ∧ (t.dam k.val).answers = d.answers ∧ Others t ∧
        KeptBut [.damsons] s t)) ∧
      (p.lost = false → inSlabSpace (dmBase p.w + k.val * dmEntry p.w) (dmEntry p.w) = true → s.sound key (dmEntry p.w) = true →
        Completes (.updatePartComplete k) s (fun t => Group t ∧
          (t.dam k.val).answers = d.answers ++ [{ core := p.core, id := p.id, status := r.status, data := none }] ∧ Others t ∧
          ∀ x, t.byte x = if key ≤ x ∧ x < key + dmEntry p.w then e.getD (x - key) 0 else s.byte x))) ∧
    ((s.core c.val).calm → d.answers.find? (fun (y : Answer) => y.core.val = c.val) = none → Kept (.damsonResult c k)) ∧
    (∀ (y : Answer) (q : QEnt), (s.core c.val).calm → d.answers.find? (fun (z : Answer) => z.core.val = c.val) = some y →
      ((s.core c.val).run 3).find? (fun x => x.id = y.id && isDamson x.w && x.await.contains k.val) = some q → (∀ x ∈ q.await, x < 10) →
      let a := dmBase q.w + 128 * k.val
      let key := slabKey c.val a
      (y.data ≠ none → inSlabSpace a 128 = true ∧ s.sound key 128 = true) →
      let got := q.got ++ [(k.val, if y.data = none then y.status else stOk)]
      let Else (t : State) : Prop := t.dam k.val = { d with answers := d.answers.erase y } ∧ Others t ∧ (∀ x, x ≠ c.val → t.core x = s.core x) ∧
        (y.data = none → KeptBut [.cores, .damsons] s t) ∧
        (∀ g, y.data = some g → KeptBut [.mem, .chk, .reported, .mems, .cores, .damsons] s t ∧
          ∀ x, t.byte x = if key ≤ x ∧ x < key + 128 then (bytesOf g 128).getD (x - key) 0 else s.byte x)
      (q.await.erase k.val ≠ [] → Completes (.damsonResult c k) s (fun t => Else t ∧ (t.core c.val).run 3 = ((s.core c.val).run 3).map (fun x => if x = q then { q with await := q.await.erase k.val, got := got } else x) ∧
        (∀ j, t.slot c.val j = s.slot c.val j))) ∧
      (∀ z : Slot, q.await.erase k.val = [] → (dmStatus got).2.2 = none →
        (let x := (s.slot c.val q.slot.val).report { q with status := (dmStatus got).1, bitmap := (dmStatus got).2.1 }
         if cPen q.w then x.post (cPtok q.w) 1 else some x) = some z →
        Completes (.damsonResult c k) s (fun t => Else t ∧
          (t.core c.val).run 3 = ((s.core c.val).run 3).erase q ∧ t.slot c.val q.slot.val = z ∧
          (∀ j, j ≠ q.slot.val → t.slot c.val j = s.slot c.val j))))

/-- Responses, additions, timeouts, quarantine, polls and lending (R223, R291, R293, R306 to R310, R364). -/
def Obligations.SyncEvents : Prop :=
  ∀ (s : State) (c : CoreId) (sl : SlotId) (h : HcId) (n : Fin 16) (f : HalfId),
    let Kept (i : Instr) : Prop := exec i s = .next s
    let p := s.port h.val n.val
    (p.reply = none → Kept (.syncResponse (.port h n))) ∧
    (∀ r : SyncReply, p.reply = some r → Completes (.syncResponse (.port h n)) s (fun t =>
      t.port h.val n.val = { p with busy := false, reply := none, result := r.status.setWidth 64, value := r.value } ∧
      (∀ (h' : HcId) (n' : Fin 16), (h', n') ≠ (h, n) → t.port h'.val n'.val = s.port h'.val n'.val) ∧ KeptBut [.sync] s t)) ∧
    ((∀ w r, (s.slot c.val sl.val).hold ≠ .sync w (some r)) → Kept (.syncResponse (.slot c sl))) ∧
    (∀ (w : Cmd) (r : SyncReply) (y : Slot), (s.slot c.val sl.val).hold = .sync w (some r) → r.status = stOk →
      (cOpc w = 0x11 → (s.core c.val).lent = none ∧ (s.core c.val).cst = .c0) →
      let k := s.core c.val
      let new : List Claim := if cOpc w = 0x13 ∧ r.spent = false then
        [{ id := k.nextClaim, slot := sl, ctx := (k.slot sl.val).ctx, handle := BitVec.ofNat 64 (syncHandle w), word := r.value }] else []
      let x := match syncDest w with
        | some m => (s.slot c.val sl.val).setSreg m r.value
        | none => s.slot c.val sl.val
      ({ x with hold := .none } : Slot).ended w (x.pc.toNat + 1) = some y → y.stands (x.pc.toNat + 1) →
      Completes (.syncResponse (.slot c sl)) s (fun t => t.slot c.val sl.val = y ∧ (∀ j, j ≠ sl.val → t.slot c.val j = s.slot c.val j) ∧
        (∃ ss, t.core c.val = { k with slots := ss, claims := k.claims ++ new, nextClaim := k.nextClaim + new.length }) ∧
        (∀ d, d ≠ c.val → t.core d = s.core d) ∧ KeptBut [.cores] s t)) ∧
    ((∀ a ∈ s.sync.adds, homeHalf a.index.toNat ≠ f.val) → Kept (.completionCounterAdd f)) ∧
    (∀ (a : CounterAdd), s.sync.adds.find? (fun a => homeHalf a.index.toNat = f.val) = some a →
      let e := s.ent a.index.toNat
      let fits : Prop := e.st = .inUse ∧ e.inc = a.inc ∧ e.owner = a.ctx ∧ e.ty = tyCounter
      (fits → (∀ r ∈ s.sync.waits, r.on a.index.toNat = false) → (∀ m ∈ s.sync.homeSubs, m.index ≠ a.index) →
        Completes (.completionCounterAdd f) s (fun t => t.ent a.index.toNat = { e with value := e.value + 1 } ∧
          (∀ i, i ≠ a.index.toNat → t.ent i = s.ent i) ∧ t.sync.adds = s.sync.adds.erase a ∧ KeptBut [.sync] s t)) ∧
      (∀ src, ¬ fits → a.src = some src → exec (.completionCounterAdd f) s = .next (({ s with sync := { s.sync with adds := s.sync.adds.erase a } } :
        State).discardMsg f.val (mkHandle s.selfId a.inc.toNat a.index.toNat) src.toNat)) ∧
      (¬ fits → a.src = none → Completes (.completionCounterAdd f) s (fun t => t.sync = { s.sync with adds := s.sync.adds.erase a } ∧
        t.rg (oDiscard f.val) = BitVec.ofNat 64 (min ((s.rg (oDiscard f.val)).toNat + 1) 0xFFFFFFFF) ∧ KeptBut [.sync, .regs] s t))) ∧
    ((∀ r ∈ s.sync.waits, r.who = .unit (.port h n) → r.timed = false) → Kept (.waitTimeout (.port h n))) ∧
    ((∀ r ∈ s.sync.waits, r.who = .unit (.slot c sl) → r.timed = false) → Kept (.waitTimeout (.slot c sl))) ∧
    let last (r : WaitRec) : Prop := r.take = true → r.remote = false →
      settles (s.ent (handleIx r.handle.toNat)) (handleIx r.handle.toNat) (s.sync.waits.erase r) false = none
    (∀ r : WaitRec, s.sync.waits.find? (fun r => r.who = .unit (.port h n) && r.timed) = some r → p.busy = true → last r →
      Completes (.waitTimeout (.port h n)) s (fun t => t.sync.waits = s.sync.waits.erase r ∧
        t.port h.val n.val = { p with reply := some { status := stTimeout } } ∧ KeptBut ([.reported, .sync, .fab] ++ eventParts) s t)) ∧
    (∀ (r : WaitRec) (w : Cmd), s.sync.waits.find? (fun r => r.who = .unit (.slot c sl) && r.timed) = some r →
      (s.slot c.val sl.val).hold = .sync w none → last r → Completes (.waitTimeout (.slot c sl)) s (fun t =>
        t.sync.waits = s.sync.waits.erase r ∧ (t.slot c.val sl.val).hold = .sync w (some { status := stTimeout }) ∧
        (∀ j, j ≠ sl.val → t.slot c.val j = s.slot c.val j) ∧ KeptBut ([.reported, .cores, .sync, .fab] ++ eventParts) s t)) ∧
    (∀ i : BitVec 16, let e := s.ent i.toNat
      (e.st ≠ .quarantined → Kept (.syncQuarantineEnd i)) ∧
      (e.st = .quarantined → Completes (.syncQuarantineEnd i) s (fun t => t.ent i.toNat = { e with st := .free } ∧
        (∀ j, j ≠ i.toNat → t.ent j = s.ent j) ∧ KeptBut [.sync] s t))) ∧
    (∀ tag : Fin 4096, ((∀ e ∈ s.sync.reqs, e.1 = tag.val → e.2.standing = true) → Kept (.remoteSyncTimeout tag)) ∧
      (∀ q : SyncReq, s.sync.reqs.find? (fun e => e.1 = tag.val && !e.2.standing) = some (tag.val, q) →
        Completes (.remoteSyncTimeout tag) s (fun t => (∀ e ∈ t.sync.reqs, e.1 ≠ tag.val) ∧ KV.get false t.sync.tagQuar tag.val = true ∧
          KV.get 0 t.sync.tagInc tag.val = KV.get 0 s.sync.tagInc tag.val + 1 ∧
          (q.posted = true → KeptBut [.sync] s t) ∧
          (∀ w, q.posted = false → q.who = .slot c sl → (s.slot c.val sl.val).hold = .sync w none →
            (t.slot c.val sl.val).hold = .sync w (some { status := stTimeout })) ∧
          (q.posted = false → q.who = .port h n → p.busy = true → t.port h.val n.val = { p with reply := some { status := stTimeout } })))) ∧
    (∀ (handle : BitVec 64) (x : Option (BitVec 240)),
      ((∀ m ∈ s.sync.mySubs, m.half = f → m.handle = handle → m.refused = false) → Kept (.remoteStatePoll f handle x)) ∧
      (∀ m : MySub, s.sync.mySubs.find? (fun m => m.half = f && m.handle = handle && m.refused) = some m →
        let mine (r : WaitRec) : Bool := r.remote && !r.take && decide (r.handle = handle) && decide (recHalf r = some f.val)
        (x = none → Completes (.remoteStatePoll f handle x) s (fun t => t.sync.mySubs = s.sync.mySubs.erase m ∧
          t.sync.waits = s.sync.waits.filter (fun r => !mine r) ∧ KeptBut [.cores, .sync, .fab] s t)) ∧
        (∀ st, x = some st → (∀ r ∈ s.sync.waits, mine r = true →
          waitEval (entOfFields m.ty m.map st) r.target.toNat r.cond.toNat r.take = .waits) →
          exec (.remoteStatePoll f handle x) s = .next (({ s with sync := { s.sync with
            mySubs := s.sync.mySubs.map (fun y => if y = m then { m with state := st } else y) } } : State).prune)))) ∧
    (let lends := (s.core c.val).onlyWaits && s.available c.val && !bit (s.rg oLend) 16 && (s.core c.val).lent.isNone
     let u := s.cluster (clusterOf c.val)
     let m := min (u.grant / max 1 (s.liveCores (clusterOf c.val))) u.balance.toNat
     (lends = false → Kept (.creditLend c)) ∧
     (lends = true → Completes (.creditLend c) s (fun t => t.core c.val = { s.core c.val with lent := some m } ∧
       (∀ d, d ≠ c.val → t.core d = s.core d) ∧ t.cluster (clusterOf c.val) = u.move (-(m : Int)) ∧
       (∀ j, j ≠ clusterOf c.val → t.cluster j = s.cluster j) ∧
       (∀ x, KV.get 0 t.power.pools x = KV.get 0 s.power.pools x + if x = halfOf c.val then m else 0) ∧
       KeptBut [.cores, .clusters, .power] s t)))

/-! ### The fabric -/

/-- Links, ports and switches (R313 to R323, R342 to R346). -/
def Obligations.FabricLinks : Prop :=
  ∀ (s : State) (p : PortId) (f : FibreId) (d : DimId) (a : Agent) (v : BitVec 32),
    let Kept (i : Instr) : Prop := exec i s = .next s
    let i := p.val * 8 + f.val
    let x := s.fibre i
    let up := decide (s.portSt p.val = portUpSt) && !x.failed
    let Port (t : State) (st code : Nat) : Prop := t.portSt p.val = st ∧ t.portCode p.val = code
    let Swt (t : State) (b : Bool) : Prop := KV.get false t.fab.driven d.val = b
    (∀ fr : Frame,
      let good := s.frameGood p.val fr && decide (fr.seq = x.rxSeq)
      (up = false → Kept (.frameReceive p f fr)) ∧
      (up = true → good = true → Completes (.frameReceive p f fr) s (fun t =>
        t.fab.arrived = s.fab.arrived ++ fr.packets.map (fun k => (p, k)) ∧ (t.fibre i).rxSeq = x.rxSeq + 1 ∧ (t.fibre i).naks = [] ∧
        (∀ v, v < 4 → KV.get 0 (t.fibre i).owed v = KV.get 0 x.owed v - fr.credits.getD v 0) ∧
        (t.fibre i).replay = x.replay.filter (fun e => decide (2048 ≤ (fr.ack - e.1).toNat)) ∧
        (t.fibre i).txSeq = x.txSeq ∧ (∀ j, j ≠ i → t.fibre j = s.fibre j) ∧ KeptBut [.fab] s t)) ∧
      (up = true → good = false → x.naks = [] → Completes (.frameReceive p f fr) s (fun t =>
        t.fibre i = { x with naks := [x.rxSeq] } ∧ t.fab.arrived = s.fab.arrived ∧ KeptBut [.fab] s t)) ∧
      (up = true → good = false → x.naks ≠ [] → fr.seq ≠ x.rxSeq → Kept (.frameReceive p f fr)) ∧
      (up = true → good = false → x.naks ≠ [] → fr.seq = x.rxSeq → x.naks.length < 16 → Completes (.frameReceive p f fr) s (fun t =>
        t.fibre i = { x with naks := x.rxSeq :: x.naks } ∧ t.fab.arrived = s.fab.arrived ∧ KeptBut [.fab] s t)) ∧
      (up = true → good = false → fr.seq = x.rxSeq → 16 ≤ x.naks.length → Completes (.frameReceive p f fr) s (fun t =>
        (t.fibre i).failed = true ∧ t.portSt p.val = portDown ∧ ∀ g : FibreId, g ≠ f → t.fibre (p.val * 8 + g.val) = {}))) ∧
    (∀ seq : BitVec 12,
      let rest := x.replay.dropWhile (fun e => decide (e.1 ≠ seq))
      let last := decide (x.nakSeq = seq) && decide (16 ≤ x.replays)
      (up = false ∨ rest = [] → Kept (.nakReceive p f seq)) ∧
      (up = true → rest ≠ [] → last = false → Completes (.nakReceive p f seq) s (fun t =>
        t.fibre i = { x with replay := rest, nakSeq := seq, replays := if x.nakSeq = seq then x.replays + 1 else 1 } ∧
        t.fab.sent = ((rest.filterMap (fun e => e.2)).map (fun k => (p, k))).reverse ++ s.fab.sent ∧
        (∀ j, j ≠ i → t.fibre j = s.fibre j) ∧ KeptBut [.fab] s t)) ∧
      (up = true → rest ≠ [] → last = true → Completes (.nakReceive p f seq) s (fun t =>
        (t.fibre i).failed = true ∧ t.portSt p.val = portDown))) ∧
    (s.portSt p.val ≠ portUpSt → Kept (.lightLoss p)) ∧
    (s.portSt p.val = portUpSt → Completes (.lightLoss p) s (fun t => Port t portDown (s.portCode p.val) ∧
      (∀ g : FibreId, t.fibre (p.val * 8 + g.val) = {}) ∧ (∀ q : PortId, q ≠ p → t.portSt q.val = s.portSt q.val))) ∧
    (s.portSt p.val ≠ portDown → Kept (.trainingRetry p)) ∧
    (s.portSt p.val = portDown → Completes (.trainingRetry p) s (fun t => Port t portTrain (s.portCode p.val))) ∧
    (∀ o, s.portSt p.val ≠ portTrain → s.portSt p.val ≠ portDown → Kept (.portTraining p o)) ∧
    (s.portSt p.val = portTrain ∨ s.portSt p.val = portDown →
      (∀ c : BitVec 4, 1 ≤ c.toNat → c.toNat ≤ 7 → Completes (.portTraining p (.failed c)) s (fun t => Port t portDown c.toNat)) ∧
      (∀ (id dims : BitVec 14) (strong half : Bool) (here there : BitVec 2),
        let w := linkWidth (bit (s.rg (oPortCtrl p.val)) 2) half here there
        let Ends (P : State → Prop) : Prop := Completes (.portTraining p (.found id dims strong half here there)) s P
        (w = none → Ends (fun t => Port t portDown codeWidth)) ∧
        (w ≠ none → id.toNat = s.selfId → Ends (fun t => Port t portDown codeSelf)) ∧
        (w ≠ none → id.toNat ≠ s.selfId → s.judge p.val id.toNat dims = none → Ends (fun t => Port t portDown codeMiscabled)) ∧
        (∀ w4 upper, w = some (w4, upper) → id.toNat ≠ s.selfId → s.judge p.val id.toNat dims = some 1 → Ends (fun t =>
          Port t portUpSt codeOk ∧ t.rf (oPortStat p.val) 27 14 = id.toNat ∧ t.rf (oPortStat p.val) 6 5 = w4 * 2 + upper ∧
          t.rf (oPortStat p.val) 13 12 = 0 ∧ t.rf (oPortStat p.val) 7 7 = b2n (strong || bit (s.rg (oPortCtrl p.val)) 1) ∧
          t.absent id.toNat = false ∧ (t.dimUp (p.val / 2) = true → KV.get false t.fab.joining (p.val / 2) = false) ∧ ∀ g : FibreId, t.fibre (p.val * 8 + g.val) = {})))) ∧
    (s.permits a .portCtrl (2 * d.val) = false → Kept (.portEnable a d)) ∧
    (s.permits a .portCtrl (2 * d.val) = true → s.portOn (2 * d.val) = false → s.portOn (2 * d.val + 1) = false →
      Completes (.portEnable a d) s (fun t => t.dimOn d.val = true ∧
        (s.dimUsable d.val = true → t.portSt (2 * d.val) = portTrain ∧ t.portSt (2 * d.val + 1) = portTrain ∧
          KV.get false t.fab.joining d.val = true ∧ (s.faultN = false → Swt t true ∧ KV.get false t.fab.through d.val = true)) ∧
        (s.dimUsable d.val = false → t.portSt (2 * d.val) = portFailed ∧ t.portSt (2 * d.val + 1) = portFailed ∧
          t.portCode (2 * d.val) = codeTopo ∧ t.portCode (2 * d.val + 1) = codeTopo))) ∧
    (s.permits a .portCtrl p.val = false → Kept (.portDisable a p) ∧ Kept (.retrain a p)) ∧
    (s.permits a .portCtrl p.val = true → (s.portOn p.val = false → Kept (.portDisable a p)) ∧
      (s.portOn p.val = true → Completes (.portDisable a p) s (fun t => t.portOn p.val = false ∧ Port t portDisabled (s.portCode p.val) ∧
        KV.get false t.fab.driven (p.val / 2) = false ∧ KV.get false t.fab.joining (p.val / 2) = false ∧ ∀ g : FibreId, t.fibre (p.val * 8 + g.val) = {})) ∧
      (s.dimOn (p.val / 2) && s.dimUsable (p.val / 2) = false → Kept (.retrain a p)) ∧
      (s.dimOn (p.val / 2) && s.dimUsable (p.val / 2) = true → Completes (.retrain a p) s (fun t => t.portSt p.val = portTrain ∧
        KV.get false t.fab.through (p.val / 2) = !s.faultN ∧ ∀ g : FibreId, t.fibre (p.val * 8 + g.val) = {}))) ∧
    (let late := KV.get false s.fab.joining d.val && !s.dimUp d.val
     (late = false → Kept (.dimensionJoinTimeout d)) ∧
     (late = true → Completes (.dimensionJoinTimeout d) s (fun t => Swt t false ∧ KV.get false t.fab.joining d.val = false ∧
       ∀ q, q = 2 * d.val ∨ q = 2 * d.val + 1 → t.portSt q = portFailed ∧
         t.portCode q = if s.portSt q = portTrain then codeTimeout else s.portCode q))) ∧
    (s.permits a .fabTopo 0 = false → Kept (.fabTopo a v)) ∧
    (s.permits a .fabTopo 0 = true → s.locked = true → exec (.fabTopo a v) s = .next (s.lockViolation oTopo)) ∧
    (s.permits a .fabTopo 0 = true → s.locked = false → ((∃ q : PortId, s.portSt q.val ≠ portDisabled) → Kept (.fabTopo a v)) ∧
      ((∀ q : PortId, s.portSt q.val = portDisabled) → Completes (.fabTopo a v) s (fun t => t.rf oTopo 27 0 = fld v 27 0 ∧
        t.rf oTopo 30 28 = 0 ∧ bit (t.rg oTopo) 31 = topoValid v ∧ (∀ o, o ≠ oTopo → t.rg o = s.rg o) ∧ KeptBut [.regs] s t))) ∧
    (KV.get false s.fab.driven d.val = true ∨ KV.get false s.fab.through d.val = false → Kept (.bypassSwitchSettled d)) ∧
    (KV.get false s.fab.driven d.val = false → KV.get false s.fab.through d.val = true → Completes (.bypassSwitchSettled d) s (fun t =>
      KV.get false t.fab.through d.val = false ∧ t.rf (oPortStat (2 * d.val)) 4 4 = 1 ∧ t.rf (oPortStat (2 * d.val + 1)) 4 4 = 1 ∧
      t.rg (oBypass d.val) = BitVec.ofNat 64 (min ((s.rg (oBypass d.val)).toNat + 1) 0xFFFFFFFF) ∧ KeptBut [.regs, .fab] s t))

/-- Packets routed, and requests served at their destination (R306, R328 to R338). -/
def Obligations.FabricRequests : Prop :=
  ∀ (s : State) (p : PortId) (pk : Packet),
    let u := s.undeliver p pk
    let a := pk.addr.toNat
    let pr := packetRouter p.val pk
    let space0 : Prop := a < 2 ^ 37
    let Sends (i : Instr) (k : Packet) (P : State → Prop) : Prop := Completes i s (fun t => t.fab = { u.fab with inject := u.fab.inject ++ [k] } ∧ P t)
    let Bytes (d : List Byte) (t : State) : Prop :=
      KeptBut [.mem, .chk, .reported, .mems, .cores, .fab] s t ∧ CountsOnly s t ∧
        ∀ x, t.byte x = if a ≤ x ∧ x < a + d.length then d.getD (x - a) 0 else s.byte x
    (∀ arr : Option PortId,
      let r := s.takePacket arr pk
      let at' := arr.map (·.val)
      (knownType pk.ptype = false → arr = none → exec (.packetRoute arr pk) s = .next r) ∧
      (∀ q, knownType pk.ptype = false → arr = some q → Completes (.packetRoute arr pk) s (fun t => t.fab = r.fab ∧
        t.rg (oLate q.val) = BitVec.ofNat 64 (min ((s.rg (oLate q.val)).toNat + 1) 0xFFFFFFFF) ∧ KeptBut [.fab, .regs] s t)) ∧
      (knownType pk.ptype = true →
        (pk.dest.toNat = s.selfId → Completes (.packetRoute arr pk) s (fun t =>
          t.fab = { r.fab with delivered := r.fab.delivered ++ [(arr, pk)] } ∧ KeptBut [.fab] s t)) ∧
        (∀ st, s.route at' pk = .drop st →
          Completes (.packetRoute arr pk) s (fun t => KeptBut [.fab] s t ∧ t.fab = if isRequest pk.ptype then
            { r.fab with inject := r.fab.inject ++ [{ answerTo pk pkNack st with src := BitVec.ofNat 14 s.selfId, body := pk.ptype.setWidth 320 }] }
            else r.fab)) ∧
        (∀ q, s.route at' pk = .leave q →
          let k := { pk with hops := pk.hops + 1, vc := s.leaveVc at' q pk.vc }
          let i := q * 8 + s.carrier q k.fibre.toNat
          (64 ≤ pk.hops.toNat → exec (.packetRoute arr pk) s = .next (r.dropPacket pk stPathLost)) ∧
          (pk.hops.toNat < 64 → s.lostBetween arr q pk = true → exec (.packetRoute arr pk) s = .next r) ∧
          (pk.hops.toNat < 64 → s.lostBetween arr q pk = false → s.canSend q k = false → exec (.packetRoute arr pk) s = .next s) ∧
          (pk.hops.toNat < 64 → s.lostBetween arr q pk = false → s.canSend q k = true → Completes (.packetRoute arr pk) s (fun t =>
            t.fab.sent = (portOf q, k) :: s.fab.sent ∧ t.fab.arrived = r.fab.arrived ∧ t.fab.inject = r.fab.inject ∧
            (t.fibre i).txSeq = (s.fibre i).txSeq + BitVec.ofNat 12 (s.framesOf q k) ∧
            KV.get 0 (t.fibre i).owed k.vc.toNat = KV.get 0 (s.fibre i).owed k.vc.toNat + packetSlots k ∧
            (∀ j, j ≠ i → t.fibre j = s.fibre j) ∧ KeptBut [.fab, .power] s t ∧ (arr = none → t.power = s.power)))))) ∧
    (space0 → s.plain pr a pk.data.length → pk.bad = 0 → Sends (.putPacket p pk) (ackOf pk stOk) (Bytes pk.data)) ∧
    (space0 → (∀ k w, regionOf a ≠ .cluster ∧ regionOf a ≠ .slab k w) → 1 ≤ pk.data.length → pk.data.length ≤ 64 - a % 64 →
      Sends (.putPacket p pk) (ackOf pk stIllegal) (KeptBut [.fab] s)) ∧
    (space0 → s.plain pr a pk.len.toNat → Sends (.getPacket p pk)
      { answerTo pk pkGetData stOk with data := s.bytes a pk.len.toNat, len := pk.len } (fun t => ∀ x, t.byte x = s.byte x)) ∧
    (let n := if fld pk.body 128 128 = 1 then 8 else 4
     let op := fld pk.body 139 136
     let new := atomicOp op n (s.num a n) (fld pk.body 63 0) (fld pk.body 127 64)
     (space0 → s.plain pr a n → a % n = 0 → op < 8 → Sends (.atomicPacket p pk)
       { answerTo pk pkAtomicRsp stOk with body := BitVec.ofNat 320 (s.num a n) }
       (fun t => ∀ x, t.byte x = if a ≤ x ∧ x < a + n ∧ new ≠ none then (natLe n (new.getD 0)).getD (x - a) 0 else s.byte x)) ∧
     (a % n ≠ 0 ∨ 8 ≤ op ∨ rTier a = true → Sends (.atomicPacket p pk) (ackOf pk stIllegal) (KeptBut [.fab] s))) ∧
    (space0 → s.plain pr a 32 → a % 32 = 0 → pk.data.length = 32 → pk.bad = 0 →
      (bit pk.body 0 = true → Sends (.rputPacket p pk) (ackOf pk stOk) (Bytes pk.data)) ∧
      (bit pk.body 0 = false → Sends (.rputPacket p pk) (ackOf pk stOk)
        (Bytes (natLe 32 ((Ala.ofWord (s.num a 32)).add (Ala.ofWord (leNat pk.data))).word)))) ∧
    (let ix := fld pk.body 15 0
     let e := s.ent ix
     let fits : Prop := e.st = .inUse ∧ e.inc.toNat = fld pk.body 23 16 ∧ e.owner = pk.ctx ∧ e.ty = tyCounter
     (fits → (∀ r ∈ s.sync.waits, r.on ix = false) → (∀ m ∈ s.sync.homeSubs, m.index.toNat ≠ ix) →
       Sends (.notifyPacket p pk) (ackOf pk stOk) (fun t => t.ent ix = { e with value := e.value + 1 } ∧
         (∀ j, j ≠ ix → t.ent j = s.ent j) ∧ KeptBut [.fab, .sync] s t)) ∧
     (¬ fits → bit (s.rg oSynCfg) 0 = true → exec (.notifyPacket p pk) s = .next ((u.discardMsg (homeHalf ix)
       (mkHandle s.selfId (fld pk.body 23 16) ix) pk.src.toNat).inject (ackOf pk stOk))) ∧
     (¬ fits → bit (s.rg oSynCfg) 0 = false → Sends (.notifyPacket p pk) (ackOf pk stOk) (fun t => KeptBut [.fab, .regs] s t ∧
       t.rg (oDiscard (homeHalf ix)) = BitVec.ofNat 64 (min ((s.rg (oDiscard (homeHalf ix))).toNat + 1) 0xFFFFFFFF)))) ∧
    (let w := packetCmd pk
     let e := u.ent (handleIx (syncHandle w))
     let waits := decide (cOpc w = 0x11) && !bit w 156 && !e.stale (syncHandle w) pk.ctx.toNat &&
       decide (waitEval e (fld w 148 101) (fld w 155 154) false = .waits)
     (∀ r v, waits = false → u.syncAt (.remote pk.src pk.tag pk.tagInc pk.fibre) pk.ctx.toNat w = (some r, v) →
       Completes (.syncPacket p pk) s (fun t => KeptBut [.fab] v t ∧ ∃ k, t.fab = { v.fab with inject := v.fab.inject ++ [k] } ∧
         k.ptype = pkSyncRsp ∧ bit k.addr 0 = r.spent ∧ k.dest = pk.src ∧ k.tag = pk.tag ∧ k.tagInc = pk.tagInc ∧ k.fibre = pk.fibre ∧ k.status = r.status ∧
         fld k.body 7 0 = r.status.toNat ∧ fld k.body 127 64 = r.value.toNat)) ∧
     (∀ v, waits = false → u.syncAt (.remote pk.src pk.tag pk.tagInc pk.fibre) pk.ctx.toNat w = (none, v) →
       Completes (.syncPacket p pk) s (fun t => KeptBut [.fab] v t ∧ ∃ k, t.fab = { v.fab with inject := v.fab.inject ++ [k] } ∧
         k.ptype = pkSyncRsp ∧ k.dest = pk.src ∧ k.tag = pk.tag ∧ k.tagInc = pk.tagInc ∧ k.status = 0xFF)) ∧
     let same (m : HomeSub) : Prop := m.module = pk.src ∧ m.index.toNat = handleIx (syncHandle w) ∧ m.half = halfId (fld pk.addr 0 0)
     (waits = true → (∀ m ∈ s.sync.homeSubs, ¬ same m) → 4096 ≤ s.subsAt (homeHalf (handleIx (syncHandle w))) →
       Completes (.syncPacket p pk) s (fun t => KeptBut [.fab] s t ∧ ∃ k, t.fab.inject = u.fab.inject ++ [k] ∧ k.ptype = pkSyncRsp ∧
         k.status = 0xFF ∧ bit k.body 72 = true ∧ k.dest = pk.src ∧ k.tag = pk.tag)) ∧
     (waits = true → (s.subsAt (homeHalf (handleIx (syncHandle w))) < 4096 ∨ ∃ m ∈ s.sync.homeSubs, same m) → Completes (.syncPacket p pk) s (fun t =>
       KeptBut [.fab, .sync] s t ∧ (∃ m ∈ t.sync.homeSubs, same m) ∧
       t.sync.ents = s.sync.ents ∧ t.sync.waits = s.sync.waits ∧
       ∃ k y, t.fab.inject = u.fab.inject ++ [k, y] ∧ k.ptype = pkSyncRsp ∧ k.status = 0xFF ∧ k.dest = pk.src ∧ k.tag = pk.tag ∧
         y.ptype = pkSyncUpd ∧ y.dest = pk.src ∧ fld y.body 319 80 = e.fields))) ∧
    (let h := BitVec.ofNat 64 (fld pk.body 63 0)
     let st := BitVec.ofNat 240 (fld pk.body 319 80)
     let mine (m : MySub) (r : WaitRec) : Bool := r.remote && !r.take && decide (r.handle = h) && decide (recHalf r = some m.half.val)
     let ix := handleIx h.toNat
     let gone (r : WaitRec) : Bool := match r.who with
       | .remote src tag inc _ => decide (src = pk.src) && decide (tag = pk.tag) && decide (inc = pk.tagInc)
       | .unit _ => false
     (handleMod h.toNat = s.selfId → fld pk.addr 1 1 = 0 → Completes (.syncupd p pk) s (fun t => t.fab = u.fab ∧ KeptBut [.fab, .sync] s t ∧
       ∀ m, m ∈ t.sync.homeSubs ↔ m ∈ s.sync.homeSubs ∧ ¬ (m.module = pk.src ∧ m.index.toNat = ix ∧ m.half.val = fld pk.addr 0 0))) ∧
     (handleMod h.toNat = s.selfId → fld pk.addr 1 1 = 1 → settles (s.ent ix) ix (s.sync.waits.filter (fun r => !gone r)) false = none →
       Completes (.syncupd p pk) s (fun t => t.fab = u.fab ∧ t.sync.waits = s.sync.waits.filter (fun r => !gone r) ∧ KeptBut [.fab, .sync] s t)) ∧
     (handleMod h.toNat ≠ s.selfId → s.sync.mySubs.filter (fun m => m.handle = h && decide (m.half.val = fld pk.addr 0 0) &&
         newerSeq m.seq (BitVec.ofNat 16 (fld pk.body 79 64))) = [] → exec (.syncupd p pk) s = .next u) ∧
     (∀ m, handleMod h.toNat ≠ s.selfId → s.sync.mySubs = [m] → m.handle = h → m.half.val = fld pk.addr 0 0 →
       newerSeq m.seq (BitVec.ofNat 16 (fld pk.body 79 64)) = true → pk.status = stHandle → Completes (.syncupd p pk) s (fun t =>
         t.sync.mySubs = [] ∧ t.sync.waits = s.sync.waits.filter (fun r => !mine m r) ∧ KeptBut [.cores, .fab, .sync] s t)) ∧
     (∀ m, handleMod h.toNat ≠ s.selfId → s.sync.mySubs = [m] → m.handle = h → m.half.val = fld pk.addr 0 0 →
       newerSeq m.seq (BitVec.ofNat 16 (fld pk.body 79 64)) = true → pk.status ≠ stHandle →
       (∀ r ∈ s.sync.waits, mine m r = true →
         waitEval (entOfFields m.ty m.map st) r.target.toNat r.cond.toNat r.take = .waits) →
       (∃ r ∈ s.sync.waits, mine m r = true) →
       Completes (.syncupd p pk) s (fun t => KeptBut [.fab, .sync] s t ∧ t.sync.waits = s.sync.waits ∧
         t.sync.mySubs = [{ m with seq := some (BitVec.ofNat 16 (fld pk.body 79 64)), state := st }])))

/-- Answers, timeouts, quarantines and residence (R306, R328 to R338), where no core waits for a tag (`idle`, `noQ`). -/
def Obligations.FabricAnswers : Prop :=
  ∀ (s : State) (p : PortId) (pk : Packet) (tag : BitVec 16),
    let u := s.undeliver p pk
    let idle : Prop := ∀ e ∈ s.cores, (∀ q, (e.2.queue 3).head? = some q → q.id = 0 ∨ q.await ≠ []) ∧
      ∀ q ∈ e.2.run 3, q.id = 0 ∨ fbNotify q.w = false ∨ q.notify = true ∨ q.await ≠ [1]
    let noQ : Prop := ∀ e ∈ s.sync.ports, e.2.queued = false
    let cut (r : FabReq) : Bool := s.cut (packetRouter p.val pk) r.core.val
    let Lost (i : Instr) : Prop := exec i s = .next u
    let absentTold (m : BitVec 14) : Prop := pk.status = stAbsent → m ∈ s.fab.absentSent
    let Late (i : Instr) : Prop := exec i s = .next (u.lateAnswer p pk)
    let Told (i : Instr) (r : FabReq) (st : BitVec 8) (quar : Bool) (P : State → Prop) : Prop :=
      ∀ q, (s.core r.core.val).calm → idle → r ∈ s.fab.reqs → r.id ≠ 0 → (st = stRetry → r.ptype = pkNotify) →
        ((s.core r.core.val).run 3).find? (fun x => x.id = r.id) = some q → (fbNotify q.w = false ∨ q.notify = true) →
        let left := (s.fab.reqs.erase r).filter (fun x => x.id = r.id)
        let qi := if cOpc q.w = 0x61 then queueOf (fbLocal q.w) else none
        let rows := if qi.isSome then (s.freeReq r quar).rowsDone q - q.pushed else 0
        let b := if r.ptype = pkNotify then (if st = stOk then q else q.addBit 4) else q.outcome st
        let q' := if left = [] then { b.fabStatus with await := [], pushed := q.pushed + rows } else { b with await := [1], pushed := q.pushed + rows }
        Completes i s (fun t => t.fab.reqs = s.fab.reqs.erase r ∧ t.tagIncOf r.port.val r.tag = r.inc + 1 ∧
          KV.get false t.fab.tagQuar (tagKey r.port.val r.tag) = quar ∧
          (t.core r.core.val).run 3 = ((s.core r.core.val).run 3).map (fun x => if x = q then q' else x) ∧
          (∀ n, ((t.core r.core.val).opq n).tail = ((s.core r.core.val).opq n).tail + BitVec.ofNat 32 (if qi = some n then rows else 0)) ∧
          (∀ j, t.slot r.core.val j = s.slot r.core.val j) ∧ P t)
    (s.findReq pk = none → Late (.getdata p pk) ∧ Late (.atomicrsp p pk) ∧ Late (.ack p pk) ∧ (s.findSync pk = none → Late (.nack p pk))) ∧
    (∀ r, s.findReq pk = some r → cut r = true → Lost (.getdata p pk) ∧ Lost (.atomicrsp p pk) ∧ Lost (.ack p pk) ∧
      (fld pk.body 7 0 ≠ 8 → Lost (.nack p pk))) ∧
    (∀ r, s.findReq pk = some r → cut r = false →
      (∀ a, r.addr = some a → pk.status = stOk → pk.bad = 0 → s.plain r.core.val a pk.data.length →
        Told (.getdata p pk) r stOk false (fun t => ∀ x, t.byte x = if a ≤ x ∧ x < a + pk.data.length then pk.data.getD (x - a) 0 else s.byte x)) ∧
      (r.addr = none ∨ (pk.status ≠ stOk ∧ pk.status ≠ stEcc ∧ pk.status ≠ stPoison) →
        Told (.getdata p pk) r pk.status false (fun t => ∀ x, t.byte x = s.byte x)) ∧
      (∀ a, r.addr = some a → pk.status = stOk → s.sound (slabKey r.core.val a) r.len = true →
        Told (.atomicrsp p pk) r stOk false (fun t => ∀ x, t.byte x = if slabKey r.core.val a ≤ x ∧ x < slabKey r.core.val a + r.len then
          (natLe r.len (fld pk.body 63 0)).getD (x - slabKey r.core.val a) 0 else s.byte x)) ∧
      (r.addr = none ∨ pk.status ≠ stOk → Told (.atomicrsp p pk) r pk.status false (fun t => ∀ x, t.byte x = s.byte x)) ∧
      Told (.ack p pk) r stOk false (fun t => ∀ x, t.byte x = s.byte x) ∧
      (fld pk.body 7 0 ≠ 8 → absentTold r.dest → Told (.nack p pk) r pk.status false (fun t => ∀ x, t.byte x = s.byte x))) ∧
    (∀ r, s.fab.reqs.find? (fun r => r.port = p && r.tag = tag.toNat) = some r →
      Told (.dataRequestTimeout p tag) r stPathLost true (fun t => ∀ x, t.byte x = s.byte x)) ∧
    (s.fab.reqs.find? (fun r => r.port = p && r.tag = tag.toNat) = none → exec (.dataRequestTimeout p tag) s = .next s) ∧
    (s.findSync pk = none → exec (.syncrsp p pk) s = .next (u.discardMsg (if p.val = 2 ∨ 4 ≤ p.val then 1 else 0)
      (KV.get 0 s.sync.tagHandle pk.tag.toNat).toNat pk.src.toNat)) ∧
    (∀ (n : Nat) (q : SyncReq) (c : CoreId) (sl : SlotId), s.findSync pk = some (n, q) → noQ →
      let st := BitVec.ofNat 8 (fld pk.body 7 0)
      let val := BitVec.ofNat 64 (fld pk.body 127 64)
      let Freed (t : State) : Prop := t.sync.reqs = s.sync.reqs.filter (fun e => e.1 ≠ n) ∧
        KV.get 0 t.sync.tagInc n = KV.get 0 s.sync.tagInc n + 1 ∧ KV.get false t.sync.tagQuar n = false
      let Answered (i : Instr) (r : SyncReply) : Prop := Completes i s (fun t => Freed t ∧ (t.slot c.val sl.val).hold = .sync q.w (some r) ∧
        t.sync.waits = s.sync.waits.filter (fun y => !(q.standing && decide (y.who = .unit q.who) && y.remote && y.take)) ∧
        KeptBut [.cores, .fab, .sync] s t)
      (q.posted = true → q.standing = false → st ≠ 0xFF → Completes (.syncrsp p pk) s (fun t => Freed t ∧ KeptBut [.fab, .sync] s t)) ∧
      (q.posted = false → q.who = .slot c sl → (s.slot c.val sl.val).hold = .sync q.w none →
        (st ≠ 0xFF → Answered (.syncrsp p pk) { status := st, value := val, spent := bit pk.addr 0 }) ∧
        (fld pk.body 7 0 = 8 → absentTold (syncTarget q) → Answered (.nack p pk) { status := pk.status }) ∧
        (st = 0xFF → bit q.w 156 = true → 0 < fld q.w 188 157 → Completes (.syncrsp p pk) s (fun t => KeptBut [.fab, .sync] s t ∧
          KV.get q t.sync.reqs n = { q with standing := true } ∧ KV.get 0 t.sync.tagInc n = KV.get 0 s.sync.tagInc n ∧
          ∃ r, t.sync.waits = s.sync.waits ++ [r] ∧ r.who = .unit (.slot c sl) ∧ r.take = true ∧ r.remote = true ∧
            (r.timed = true ↔ fld q.w 188 157 ≠ 0xFFFFFFFF))) ∧
        (st = 0xFF → bit q.w 156 = false → 0 < fld q.w 188 157 → Completes (.syncrsp p pk) s (fun t => Freed t ∧ KeptBut [.fab, .sync] s t ∧
          ∃ r, t.sync.waits = s.sync.waits ++ [r] ∧ r.who = .unit (.slot c sl) ∧ r.handle.toNat = syncHandle q.w ∧
            r.target.toNat = fld q.w 148 101 ∧ r.cond.toNat = fld q.w 155 154 ∧ r.remote = true ∧
            (r.timed = true ↔ fld q.w 188 157 ≠ 0xFFFFFFFF) ∧
            ∃ m ∈ t.sync.mySubs, m.half.val = halfOf c.val ∧ m.handle = r.handle)))) ∧
    (noQ → Completes (.tagQuarantineEnd none tag) s (fun t => KV.get false t.sync.tagQuar tag.toNat = false ∧
      (∀ x, x ≠ tag.toNat → KV.get false t.sync.tagQuar x = KV.get false s.sync.tagQuar x) ∧ KeptBut [.sync] s t)) ∧
    (idle → Completes (.tagQuarantineEnd (some p) tag) s (fun t => KV.get false t.fab.tagQuar (tagKey p.val tag.toNat) = false ∧
      (∀ x, x ≠ tagKey p.val tag.toNat → KV.get false t.fab.tagQuar x = KV.get false s.fab.tagQuar x) ∧ KeptBut [.fab] s t)) ∧
    (let Gone (t : State) (g : Fabric) : Prop := KeptBut [.fab] s t ∧ t.fab = if isRequest pk.ptype then
       { g with inject := g.inject ++ [{ answerTo pk pkNack stPathLost with src := BitVec.ofNat 14 s.selfId, body := pk.ptype.setWidth 320 }] }
       else g
     let f := s.fab
     ((p, pk) ∈ f.arrived → Completes (.packetResidenceExpiry p pk) s (fun t => Gone t { f with arrived := f.arrived.erase (p, pk) })) ∧
     ((p, pk) ∉ f.arrived → pk ∈ f.inject → Completes (.packetResidenceExpiry p pk) s (fun t => Gone t { f with inject := f.inject.erase pk })) ∧
     ((p, pk) ∉ f.arrived → pk ∉ f.inject → (some p, pk) ∈ f.delivered → Completes (.packetResidenceExpiry p pk) s (fun t =>
       Gone t { f with delivered := f.delivered.erase (some p, pk) })) ∧
     ((p, pk) ∉ f.arrived → pk ∉ f.inject → (some p, pk) ∉ f.delivered → exec (.packetResidenceExpiry p pk) s = .next s))

/-! ### Power and board -/

/-- Energy, profiles, core states, temperature and THROTTLE_N (R351 to R371, R471 to R473). That a period start keeps the
floor of a balance whose grant falls is the model's reading of R359 (log 26). -/
def Obligations.EnergyEvents : Prop :=
  ∀ (s : State) (a : Agent) (h : HalfId) (c : CoreId),
    let Kept (i : Instr) : Prop := exec i s = .next s
    let Stage (t : State) (o : Option PStage) : Prop := (t.power.stages.find? (fun e => e.1 = h.val)).map (·.2) = o
    let free : Prop := s.power.stages.find? (fun e => e.1 = h.val) = none
    let hot := s.cluster (s.hottest h.val)
    let k := s.core c.val
    (∀ (fixed input : Nat) (temps : List Byte), temps.length = 60 → (∀ e ∈ s.cores, e.2.lent = none ∧ e.2.ready = []) →
      let sum := (List.range 60).foldl (fun n j => n + s.liveCores j) 0
      let grant (j : Nat) : Nat := grantOf (s.energyPool fixed input) (s.liveCores j) sum (temps.getD j 0).toNat
      Completes (.creditPeriodStart fixed input temps) s (fun t =>
        (∀ j, j < 60 → (t.cluster j).grant = grant j ∧ (t.cluster j).balance = startBalance (s.cluster j).balance (grant j) ∧
          (t.cluster j).temp = temps.getD j 0) ∧
        t.power.energyFrac = (s.power.energyFrac + input) % 256 ∧
        t.rg oEnergy = s.rg oEnergy + BitVec.ofNat 64 ((s.power.energyFrac + input) / 256) ∧
        t.power.cap = s.nextCap (s.energyPool fixed input) input ∧ t.power.pools = [] ∧ t.power.draws = [] ∧
        t.power.limitProfile.toNat = s.rf oProfile 1 0 ∧ t.cores = s.cores)) ∧
    (∀ v : BitVec 32, (s.permits a .pwrProfile 0 = false → Kept (.pwrProfile a v)) ∧
      (s.permits a .pwrProfile 0 = true → s.locked = false → s.power.stages ≠ [] →
        Completes (.pwrProfile a v) s (fun t => t.power = { s.power with heldProfile := some v } ∧ KeptBut [.power] s t)) ∧
      (s.permits a .pwrProfile 0 = true → s.locked = true → Completes (.pwrProfile a v) s (fun t => t.rf oProfile 1 0 = s.rf oProfile 1 0 ∧
        (s.power.stages ≠ [] → t.power = { s.power with heldProfile := some v }) ∧
        (s.power.stages = [] → t.rf oProfile 5 2 = fld v 5 2))) ∧
      (s.permits a .pwrProfile 0 = true → s.locked = false → s.power.stages = [] →
        let want := if s.throttleHeld || s.power.thermalP4.contains h then 3 else max (fld v 1 0) (fld v (2 * h.val + 3) (2 * h.val + 2))
        Completes (.pwrProfile a v) s (fun t => t.rf oProfile 5 0 = fld v 5 0 ∧ t.effProfile h.val = s.effProfile h.val ∧
          Stage t (if want = s.effProfile h.val then none
            else if s.effProfile h.val < want then some (.relockDown (BitVec.ofNat 2 want)) else some (.rampUp (BitVec.ofNat 2 want))) ∧
          KeptBut [.regs, .power] s t))) ∧
    (free → Kept (.profileChangeProgress h)) ∧
    (∀ p : BitVec 2, let Goes (P : State → Prop) : Prop := Completes (.profileChangeProgress h) s (fun t => P t ∧ KeptBut [.regs, .power] s t)
      (s.power.stages = [(h.val, .relockDown p)] → Goes (fun t => t.effProfile h.val = p.toNat ∧ Stage t (some (.rampDown p)))) ∧
      (s.power.stages = [(h.val, .rampUp p)] → Goes (fun t => t.effProfile h.val = s.effProfile h.val ∧ Stage t (some (.relockUp p)))) ∧
      (s.power.stages = [(h.val, .rampDown p)] → s.power.heldProfile = none → s.wantProfile h.val = s.effProfile h.val →
        Goes (fun t => t.effProfile h.val = s.effProfile h.val ∧ t.power.stages = [] ∧ t.rf oProfile 10 10 = 0)) ∧
      (s.power.stages = [(h.val, .relockUp p)] → s.power.heldProfile = none → s.wantProfile h.val = p.toNat →
        Goes (fun t => t.effProfile h.val = p.toNat ∧ t.power.stages = [] ∧ t.rf oProfile 10 10 = 0))) ∧
    (s.available c.val = false ∨ k.waking = true → Kept (.coreIdleTransition c)) ∧
    (s.available c.val = true → k.waking = false →
      let Now (x : Core) : Prop := Completes (.coreIdleTransition c) s (fun t => t.core c.val = x ∧ (∀ d, d ≠ c.val → t.core d = s.core d) ∧ KeptBut [.cores] s t)
      (k.cst = .c0 → (k.idle = true → Now { k with cst := .c1 }) ∧ (k.idle = false → Kept (.coreIdleTransition c))) ∧
      (k.cst = .c1 → (let ok := k.idle && decide (s.rf oIdle 10 1 ≠ 0) && ((activeSlots k).isEmpty || bit (s.rg oIdle) 0)
        (ok = true → Now { k with cst := .c2 }) ∧ (ok = false → Kept (.coreIdleTransition c)))) ∧
      (k.cst = .c2 → k.unloaded = false ∨ s.rf oIdle 20 11 = 0 → Kept (.coreIdleTransition c)) ∧
      (k.cst = .c2 → k.unloaded = true → s.rf oIdle 20 11 ≠ 0 → Completes (.coreIdleTransition c) s (fun t =>
        (t.core c.val).cst = .c3 ∧ (t.core c.val).tlbSeq = [] ∧ (t.core c.val).tlbAcc = [] ∧ (∀ n, n < 28 → (t.core c.val).tag n = 0) ∧
        (∀ d, d ≠ c.val → t.core d = s.core d) ∧ KeptBut [.cores, .fresh] s t)) ∧
      (k.cst = .c3 → Kept (.coreIdleTransition c))) ∧
    (k.waking = false → Kept (.coreWake c)) ∧
    (k.waking = true → k.calm → Completes (.coreWake c) s (fun t => t.core c.val = { k with cst := .c0, waking := false, parked := false } ∧
      (∀ d, d ≠ c.val → t.core d = s.core d) ∧ KeptBut [.cores] s t)) ∧
    (hot.temp.toNat < 105 ∨ h ∈ s.power.thermalP4 → Kept (.halfThermalThrottle h)) ∧
    (105 ≤ hot.temp.toNat → h ∉ s.power.thermalP4 → Completes (.halfThermalThrottle h) s (fun t => h ∈ t.power.thermalP4 ∧
      (free → Stage t (if s.effProfile h.val = 3 then none else some (.relockDown 3))))) ∧
    (h ∉ s.power.thermalP4 ∨ 95 ≤ hot.temp.toNat → Kept (.halfThermalRestore h)) ∧
    (h ∈ s.power.thermalP4 → hot.temp.toNat < 95 → Completes (.halfThermalRestore h) s (fun t => h ∉ t.power.thermalP4 ∧
      (free → s.throttleHeld = false → s.effProfile h.val = 3 →
        let want := max (s.rf oProfile 1 0) (s.rf oProfile (2 * h.val + 3) (2 * h.val + 2))
        Stage t (if want = 3 then none else some (.rampUp (BitVec.ofNat 2 want)))))) ∧
    (∀ (ch : ChanId) (b : BitVec 8),
      (85 ≤ b.toNat → Completes (.dimmCaseTemperature ch b) s (fun t => bit (t.rg oMode) (2 + ch.val) = true ∧ KeptBut [.regs] s t)) ∧
      (b.toNat < 80 → Completes (.dimmCaseTemperature ch b) s (fun t => bit (t.rg oMode) (2 + ch.val) = false ∧ KeptBut [.regs] s t)) ∧
      (80 ≤ b.toNat → b.toNat < 85 → Kept (.dimmCaseTemperature ch b))) ∧
    (∀ (n : Fin 136) (b : BitVec 8), (b.toNat < 125 ∨ s.board.thermtrip = true → Kept (.thermtrip n b)) ∧
      (125 ≤ b.toNat → s.board.thermtrip = false → Completes (.thermtrip n b) s (fun t => t.board.thermtrip = true ∧ t.board.rails = 0 ∧
        t.hif.linkUp = false ∧ t.cores = [] ∧ (∀ x, x < 2 ^ 65 → t.byte x = 0) ∧ ∀ d, KV.get false t.fab.driven d = false))) ∧
    Completes .throttleNAssert s (fun t => t.throttled = true ∧ t.board.thrHold = true ∧ t.rf oSbStat 7 6 = 3 ∧
      (free → Stage t (if s.effProfile h.val = 3 then none else some (.relockDown 3)))) ∧
    (s.board.thrLow = false → Kept .throttleNDeassert) ∧
    (s.board.thrLow = true → Completes .throttleNDeassert s (fun t => t.board.thrLow = false ∧ t.rf oSbStat 6 6 = 0 ∧
      t.rf oSbStat 7 7 = b2n s.board.thrUnstable ∧ t.board.thrHold = s.board.thrHold ∧ KeptBut [.regs, .power, .board] s t)) ∧
    Completes .throttleHoldEnd s (fun t => t.board = { s.board with thrHold := false } ∧ KeptBut [.regs, .power, .board] s t) ∧
    Completes .throttleUnstable s (fun t => t.throttled = true ∧ t.board.thrUnstable = true ∧ t.rf oSbStat 8 7 = 3 ∧
      (free → Stage t (if s.effProfile h.val = 3 then none else some (.relockDown 3)))) ∧
    (s.board.thrUnstable = false → Kept .throttleStable) ∧
    (s.board.thrUnstable = true → Completes .throttleStable s (fun t => t.board.thrUnstable = false ∧ t.rf oSbStat 8 8 = 0 ∧
      t.rf oSbStat 7 7 = b2n s.board.thrLow)) ∧
    (s.throttled = false → Kept .throttleNote) ∧
    (s.throttled = true → s.husk.stopped = false → (s.husk.queue.filter (fun q => !huskReserved q.kind q.body)).length < 32 →
      Completes .throttleNote s (fun t => KeptBut [.husk] s t ∧ t.husk = { s.husk with
        queue := s.husk.queue ++ [{ kind := 7, body := 0, aux := (s.aon - s.board.thrSince).setWidth 320, time := s.aon }] }))

/-- Input power, rails, watchdog and I3C (R28 to R33, R426, R455 to R469). That the loss of 48 V ends a hold and empties
the window of counted cycles is the model's choice (log 91). -/
def Obligations.BoardEvents : Prop :=
  ∀ s : State,
    let Kept (i : Instr) : Prop := exec i s = .next s
    let b := s.board
    let Dark (t : State) : Prop := t.board.rails = 0 ∧ t.cores = [] ∧ t.hif.linkUp = false ∧ (∀ d, KV.get false t.fab.driven d = false) ∧
      ∀ x, x < 2 ^ 65 → t.byte x = 0
    let whole : Prop := s.sec.blowing = none ∧ bit (s.rg oFwUpdate) 0 = false
    let Boots (t : State) (banks : List Bank) : Prop := t.husk.boots = s.husk.boots + 1 ∧ t.board.pipReset = false ∧ t.board.shut = false ∧
      (whole → (∀ i, ({ s with sec := { s.sec with banks := banks } } : State).romFinds.run = some i → t.sec.booted = true ∧ t.sec.running = i ∧
          t.rf oReady 0 0 = 1 ∧ t.rf oBootStat 0 0 = i % 2) ∧
        (({ s with sec := { s.sec with banks := banks } } : State).romFinds.run = none → t.sec.booted = false ∧ t.board.faultPip = true ∧
          t.rf oReady 4 4 = 1 ∧ t.rf oAlert 2 2 = 1))
    (∀ (banks : List Bank) (straps : BitVec 6), banks.length = 2 → (b.v48 = true → Kept (.inputPowerOn banks straps)) ∧
      (b.v48 = false → Completes (.inputPowerOn banks straps) s (fun t => t.board.v48 = true ∧ t.board.auxOn = true ∧ Boots t banks ∧
        (b.auxOn = true → Dark t ∧ t.board.straps = b.straps) ∧
        (b.auxOn = false → t.board.straps = straps ∧ t.rf oSbStat 21 16 = straps.toNat)))) ∧
    (∀ (v p : BitVec 32) (hot : BitVec 8), (b.v48 = false → Kept (.inputPowerLoss v p hot)) ∧
      (b.v48 = true → Completes (.inputPowerLoss v p hot) s (fun t => Dark t ∧ t.board.v48 = false ∧ t.board.hold = false ∧
        t.board.recent = [] ∧
        t.husk.stopped = true ∧ t.husk.queue = [] ∧ t.husk.next = s.husk.next + (if !b.pipReset && s.husk.slotFree then 1 else 0)))) ∧
    (b.v48 = true ∨ b.auxOn = false → Kept .holdUpRunOut) ∧
    (b.v48 = false → b.auxOn = true → Completes .holdUpRunOut s (fun t => t.board.auxOn = false ∧ t.board.cycles = b.cycles ∧ t.aon = 0 ∧
      t.husk = { s.husk with queue := [], stopped := false } ∧ t.sec.fusedMap = s.sec.fusedMap ∧ t.sec.first = s.sec.first ∧
      (s.sec.blowing = none → t.sec.fuses = s.sec.fuses) ∧ (∀ d, d < 3 → t.rg (oBypass d) = s.rg (oBypass d)) ∧ t.sec.booted = false)) ∧
    (s.pwrEn = true → Kept .pwrEnAssert) ∧
    (s.pwrEn = false → Completes .pwrEnAssert s (fun t => t.pwrEn = true ∧
      (b.auxOn = false → KeptBut [.regs, .board] s t) ∧
      (b.auxOn = true → b.hold = true → b.holdCycle = true → Boots t s.sec.banks ∧ t.board.hold = false ∧ t.board.faultPsc = false) ∧
      (b.auxOn = true → b.hold = true → b.holdCycle = false → b.thermtrip = false → t.board.hold = true ∧ KeptBut [.regs, .board] s t) ∧
      (b.auxOn = true → b.hold = false → b.thermtrip = false → b.shut = true → Boots t s.sec.banks) ∧
      (b.auxOn = true → b.hold = false → b.thermtrip = false → b.shut = false → b.pipReset = false → t.board.sequencing = true ∧
        KeptBut [.regs, .board] s t))) ∧
    (s.pwrEn = false → Kept .pwrEnDeassert) ∧
    (s.pwrEn = true → Completes .pwrEnDeassert s (fun t => t.pwrEn = false ∧ t.board.holdCycle = (b.hold || b.thermtrip) ∧
      (b.rails = 0 → b.sequencing = false → KeptBut [.regs, .board] s t) ∧
      (b.rails ≠ 0 ∨ b.sequencing = true → Dark t ∧ t.board.shut = true ∧ t.board.sequencing = false ∧ s.husk.next ≤ t.husk.next))) ∧
    (b.sequencing = false → Kept .railSequenceStep) ∧
    (b.sequencing = true → Completes .railSequenceStep s (fun t =>
      (b.rails < 7 → t.board = { b with rails := b.rails + 1 } ∧ KeptBut [.board] s t) ∧
      (7 ≤ b.rails → b.pwrgd = false → t.board.pwrgd = true ∧ t.board.sequencing = s.sec.booted ∧ t.hif.linkUp = (s.hif.linkUp || !b.perstLow)) ∧
      (7 ≤ b.rails → b.pwrgd = true → b.upSteps = 0 → t.board.upSteps = 1 ∧ t.rf oReady 1 1 = 1 ∧ (∀ x, x < 2 ^ 64 → t.byte x = 0) ∧
        ∀ i, (t.ent i).st = .quarantined) ∧
      (7 ≤ b.rails → b.pwrgd = true → b.upSteps ≠ 0 → t.board.upSteps = 2 ∧ t.board.sequencing = false ∧ t.rf oReady 3 3 = 1))) ∧
    (b.auxOn = false ∨ b.pipReset = true → Kept .watchdogRefresh) ∧
    (b.auxOn = true → b.pipReset = false → Completes .watchdogRefresh s (fun t => t.board = { b with refreshAt := s.aon } ∧ KeptBut [.board] s t)) ∧
    (b.v48 = false ∨ b.pipReset = true ∨ (s.aon - b.refreshAt).toNat < 50000000 → Kept .watchdogPowerCycle) ∧
    (b.v48 = true → b.pipReset = false → 50000000 ≤ (s.aon - b.refreshAt).toNat → Completes .watchdogPowerCycle s (fun t =>
      Dark t ∧ t.board.cycles = b.cycles + 1 ∧
      let recent := (b.recent.filter (fun x => decide (s.aon.toNat - x < 180000000000))) ++ [s.aon.toNat]
      t.board.recent = recent ∧ (recent.length < 3 → Boots t s.sec.banks ∧ t.board.hold = b.hold) ∧
      (3 ≤ recent.length → t.board.hold = true ∧ t.board.faultPsc = true ∧ t.board.pipReset = true ∧ t.husk.boots = s.husk.boots))) ∧
    (∀ rail : Fin 7, (b.rails ≤ rail.val → Kept (.railFault rail)) ∧
      (rail.val < b.rails → Completes (.railFault rail) s (fun t => Dark t ∧ t.board.hold = true ∧ t.board.faultPsc = true ∧ t.rf oAlert 3 3 = 1))) ∧
    (∀ x : BitVec 7, (b.auxOn = false → Kept (.entdaa x)) ∧
      (b.auxOn = true → Completes (.entdaa x) s (fun t => t.board = { b with i3cAddr := some x, i3cSel := 0 } ∧ KeptBut [.board] s t))) ∧
    (∀ (i : Byte) (d : List Byte), (b.i3cAddr = none → Kept (.i3cPrivateWrite (i :: d))) ∧
      (b.i3cAddr ≠ none → Completes (.i3cPrivateWrite (i :: d)) s (fun t => t.board = { b with i3cSel := i } ∧
        t.rg oAlert = (if i = 2 then s.rg oAlert &&& ~~~(BitVec.ofNat 64 (leNat (d.take 4))) else s.rg oAlert) ∧
        (∀ o, o ≠ oAlert → t.rg o = s.rg o) ∧ KeptBut [.board, .regs] s t))) ∧
    (∀ n : Nat, (b.i3cAddr = none → Kept (.i3cPrivateRead n)) ∧
      (b.i3cAddr ≠ none → Completes (.i3cPrivateRead n) s (fun t => (t.board.i3cReply).length = n ∧ KeptBut [.board] s t ∧
        ∀ j, j < n → (t.board.i3cReply).getD j 0 = if j < (s.i3cBytes b.i3cSel.toNat).length then (s.i3cBytes b.i3cSel.toNat).getD j 0 else 0xFF)))

/-! ### The host interface -/

/-- Rings and their descriptors (R379 to R387). -/
def Obligations.RingEvents : Prop :=
  ∀ (s : State) (f : FuncId) (r : RingId) (d : BitVec 512) (v : BitVec 32),
    let Kept (i : Instr) : Prop := exec i s = .next s
    let x := s.ring f.val r.val
    let o := oRingCtl f.val r.val
    let live := s.ringLive f.val r.val
    let polls := s.ringPolling f.val r.val
    let over' := decide (ringCount (s.rg (oRing f.val r.val)) < (v - x.cons).toNat)
    let block (t : State) (n : Nat) : Nat := t.num (s.ringBlock f.val r.val n) 4
    let Fails (t : State) (reason : Nat) : Prop := t.rf o 2 0 = 4 ∧ t.num (s.ringBlock f.val r.val 24) 2 = 0x18 + 256 * reason ∧
      block t 28 = x.cons.toNat ∧ (t.ring f.val r.val).cons = x.cons ∧ (t.ring f.val r.val).waiting = none
    let Passed (t u : State) : Prop :=
      let c := if (u.ring f.val r.val).stale then (u.ring f.val r.val).cons else (u.ring f.val r.val).cons + 1
      (t.ring f.val r.val).cons = c ∧ (t.ring f.val r.val).waiting = none ∧ block t 16 = c.toNat
    (live = false ∨ polls = false → Kept (.doorbellPoll f r v) ∧ Kept (.ringGoIdle f r v)) ∧
    (live = true → polls = true → over' = false → Completes (.doorbellPoll f r v) s (fun t =>
      t.ring f.val r.val = { x with doorbell := v } ∧ KeptBut [.hif] s t)) ∧
    (live = true → polls = true → over' = true → Completes (.doorbellPoll f r v) s (fun t => Fails t 1 ∧ KeptBut [.hif, .host, .regs] s t)) ∧
    (s.ringBusy f.val r.val = true ∨ x.cons ≠ x.doorbell → Kept (.ringGoIdle f r v)) ∧
    (live = true → polls = true → s.ringBusy f.val r.val = false → x.cons = x.doorbell →
      (v = x.cons → Completes (.ringGoIdle f r v) s (fun t => t.ringPolling f.val r.val = false ∧ block t 8 = x.cons.toNat ∧
        t.hif = s.hif ∧ KeptBut [.host, .regs] s t)) ∧
      (v ≠ x.cons → over' = false → Completes (.ringGoIdle f r v) s (fun t => t.ringPolling f.val r.val = true ∧
        block t 8 = (x.cons + 0x80000000).toNat ∧ t.ring f.val r.val = { x with doorbell := v }))) ∧
    (live = false ∨ polls = true ∨ v = x.cons → Kept (.ringIdlePoll f r v)) ∧
    (live = true → polls = false → v ≠ x.cons → Completes (.ringIdlePoll f r v) s (fun t => t.ringPolling f.val r.val = true ∧
      block t 8 = (x.cons + 0x80000000).toNat ∧ KeptBut [.host, .regs] s t)) ∧
    (s.barOpen f.val = false ∨ live = false ∨ polls = true → Kept (.wake f r)) ∧
    (s.barOpen f.val = true → live = true → polls = false → Completes (.wake f r) s (fun t => t.ringPolling f.val r.val = true ∧
      block t 8 = (x.cons + 0x80000000).toNat ∧ KeptBut [.host, .regs] s t)) ∧
    (s.canTake f.val r.val = false → Kept (.submit f r d) ∧ Kept (.restore f r d) ∧ Kept (.preempt f r d)) ∧
    (s.canTake f.val r.val = true →
      let e := s.putNum (hostKey (s.entryAddr f.val r.val x.cons)) 64 d.toNat
      let bad : Prop := s.evqOwner (dEvq d) ≠ f.val ∨ s.evqOn (dEvq d) = false
      let Takes (i : Instr) : Prop :=
        (bad → Completes i s (fun t => Fails t 2)) ∧
        (∀ (st : BitVec 8) (u : State), ¬ bad → e.descCheck f.val d = (some st, u) → Completes i s (fun t => Passed t u ∧ t.cores = u.cores)) ∧
        (∀ (u : State) (c : Nat), ¬ bad → e.descCheck f.val d = (none, u) → dOp d ≠ 2 → u.placeOn d = some c → Completes i s (fun t =>
          Passed t u ∧ (t.core c).ready = (u.core c).ready ++ [{ addr := d.extractLsb' 64 64, ctx := d.extractLsb' 16 16, origin := descOrigin f r d x.cons, restore := decide (dOp d = 1) }])) ∧
        (∀ u : State, ¬ bad → e.descCheck f.val d = (none, u) → dOp d ≠ 2 → u.placeOn d = none → Completes i s (fun t =>
          (t.ring f.val r.val).waiting = some (d, x.cons) ∧ (t.ring f.val r.val).cons = (u.ring f.val r.val).cons ∧ KeptBut [.hif] u t)) ∧
        (∀ u : State, ¬ bad → e.descCheck f.val d = (none, u) → dOp d = 2 → (∀ e ∈ (u.core (dTarget d)).ready, e.ctx.toNat ≠ dCtx d) →
          ((∀ j ∈ activeSlots (u.core (dTarget d)), (u.slot (dTarget d) j).ctx.toNat = dCtx d → hSave (u.slot (dTarget d) j).hdr = 0) →
            Completes i s (fun t => Passed t u ∧ t.cores = (u.wakeCore (dTarget d)).cores)) ∧
          (∀ sl : SlotId, (u.core (dTarget d)).calm → (u.slot (dTarget d) sl.val).active = true → (u.slot (dTarget d) sl.val).ctx.toNat = dCtx d →
            (u.slot (dTarget d) sl.val).draining = false → hSave (u.slot (dTarget d) sl.val).hdr ≠ 0 →
            (∀ e, e < 4 → (u.core (dTarget d)).run e = []) → (u.core (dTarget d)).program = none → Completes i s (fun t =>
              (t.slot (dTarget d) sl.val).draining = true ∧ t.ringBusy f.val r.val = true ∧ (t.ring f.val r.val).cons = (u.ring f.val r.val).cons)))
      (dOp d ≠ 1 → dOp d ≠ 2 → Takes (.submit f r d)) ∧ (dOp d = 1 → Takes (.restore f r d)) ∧ (dOp d = 2 → Takes (.preempt f r d)) ∧
      (dOp d = 1 ∨ dOp d = 2 → Kept (.submit f r d)) ∧ (dOp d ≠ 1 → Kept (.restore f r d)) ∧ (dOp d ≠ 2 → Kept (.preempt f r d))) ∧
    (x.waiting = none ∨ s.dieResetting = true → Kept (.descriptorPlacement f r)) ∧
    (∀ i, x.waiting = some (d, i) → s.dieResetting = false →
      (∀ c, (s.targets d).any s.available = true → s.placeOn d = some c → Completes (.descriptorPlacement f r) s (fun t => Passed t s ∧
        (t.core c).ready = (s.core c).ready ++ [{ addr := d.extractLsb' 64 64, ctx := d.extractLsb' 16 16, origin := descOrigin f r d i, restore := decide (dOp d = 1) }])) ∧
      ((s.targets d).any s.available = true → s.placeOn d = none → Completes (.descriptorPlacement f r) s (fun t =>
        t.ring f.val r.val = x ∧ KeptBut [.hif] s t)) ∧
      ((s.targets d).any s.available = false → Completes (.descriptorPlacement f r) s (fun t => Passed t s ∧ t.cores = s.cores))) ∧
    (let may := ownsRing f.val r.val && s.barOpen f.val && s.answers .ringCtl
     (bit v 0 = false ∨ may = false → Kept (.ringEnable f r v)) ∧ (bit v 0 = true ∨ may = false → Kept (.ringDisable f r v)) ∧
     (bit v 0 = true → may = true → s.ringOn f.val r.val = false → s.rf (oRing f.val r.val) 3 0 ≤ 10 → Completes (.ringEnable f r v) s (fun t =>
       t.ringOn f.val r.val = true ∧ t.ringPolling f.val r.val = true ∧ t.ring f.val r.val = { waiting := x.waiting, stale := x.waiting.isSome } ∧
       t.rf o 15 8 = fld v 15 8 ∧ (bit v 2 = true → t.rf o 2 2 = 0) ∧ KeptBut [.hif, .host, .regs] s t)) ∧
     (bit v 0 = true → may = true → s.ringOn f.val r.val = true ∨ 10 < s.rf (oRing f.val r.val) 3 0 → Completes (.ringEnable f r v) s (fun t =>
       t.ringOn f.val r.val = s.ringOn f.val r.val ∧ t.rf o 15 8 = fld v 15 8 ∧ KeptBut [.regs] s t)) ∧
     (bit v 0 = false → may = true → Completes (.ringDisable f r v) s (fun t => t.ringOn f.val r.val = false ∧ t.rf o 15 8 = fld v 15 8 ∧
       (s.ringOn f.val r.val = true → s.ringBusy f.val r.val = false → t.ringPolling f.val r.val = false ∧ block t 16 = x.cons.toNat) ∧
       (s.ringOn f.val r.val = true → s.ringBusy f.val r.val = true → t.ringPolling f.val r.val = s.ringPolling f.val r.val) ∧
       KeptBut [.host, .regs] s t)))

/-- The host interface (R25, R372 to R397, R457, R465, R477). -/
def Obligations.HostInterface : Prop :=
  ∀ (s : State) (a : Agent) (f : FuncId) (q : EvqId) (n : Fin 64) (h : HcId) (v : BitVec 32) (z : BitVec 64),
    let Kept (i : Instr) : Prop := exec i s = .next s
    let Put (i : Instr) (o : Nat) (y : BitVec 64) : Prop := Completes i s (fun t => t.rg o = y ∧ (∀ p, p ≠ o → t.rg p = s.rg p) ∧ KeptBut [.regs] s t)
    let Stored (t : State) (k : Nat) (d : List Byte) : Prop := ∀ x, t.byte x = if k ≤ x ∧ x < k + d.length then d.getD (x - k) 0 else s.byte x
    let may := bit z 0 && s.reachesEvq f.val q.val && s.barOpen f.val && s.answers .evqCtl
    (may = false → Kept (.evqEnable f q z)) ∧
    (may = true → (q.val ≠ 0 ∨ (s.hif.held = [] ∧ s.hif.heldRecs = [])) → s.evqOn q.val = false → s.rf (oEvq q.val) 3 0 ≤ 10 → Completes (.evqEnable f q z) s (fun t =>
      t.evqOn q.val = true ∧ t.evq q.val = {} ∧ t.num (hostKey (s.rg (oEvqCb q.val)).toNat) 4 = 0 ∧ t.rf (oEvqCtl q.val) 47 22 = fld z 47 22 ∧
      t.evqOwner q.val = (if f.val = 0 ∧ q.val ≠ 0 then fld z 51 48 else s.evqOwner q.val) ∧ KeptBut [.hif, .host, .regs] s t)) ∧
    (let full := s.evqOn q.val && s.evqFull q.val
     (full = false → Kept (.evqConsumerReread q v)) ∧
     (full = true → Completes (.evqConsumerReread q v) s (fun t => t.evq q.val = { s.evq q.val with cons := v } ∧ KeptBut [.hif] s t))) ∧
    (let due := s.evqOn q.val && decide (0 < (s.evq q.val).unsent) && decide (s.rf (oEvqCtl q.val) 29 22 ≠ 0)
     let fn := s.rf (oEvqCtl q.val) 51 48
     let vec := s.rf (oEvqCtl q.val) 47 38
     (due = false → Kept (.msixModerationTimeout q)) ∧
     (due = true → Completes (.msixModerationTimeout q) s (fun t => t.evq q.val = { s.evq q.val with unsent := 0 } ∧ KeptBut [.hif] s t ∧
       (KV.get false s.hif.masked (fn * 1024 + vec) = true → KV.get false t.hif.pendingMsix (fn * 1024 + vec) = true ∧ t.hif.msix = s.hif.msix) ∧
       (KV.get false s.hif.masked (fn * 1024 + vec) = false → t.hif.msix = (fn, vec) :: s.hif.msix)))) ∧
    (let left (w : BitVec 32) := s.hif.ctxCache.filter (fun e => !(bit w 16 || decide (e.1 = fld w 15 0)))
     (s.permits a .ctxInv 0 = false ∨ s.hif.ctxInv ≠ none → Kept (.hifCtxInv a v)) ∧
     (s.permits a .ctxInv 0 = true → s.hif.ctxInv = none → Completes (.hifCtxInv a v) s (fun t =>
       t.hif = { s.hif with ctxCache := left v, ctxInv := some v } ∧ KeptBut [.hif] s t)) ∧
     (s.hif.ctxInv = none → Kept .ctxInvDone) ∧
     (∀ w, s.hif.ctxInv = some w → Completes .ctxInvDone s (fun t => t.hif = { s.hif with ctxCache := left w, ctxInv := none } ∧ KeptBut [.hif] s t))) ∧
    (s.permits a .part n.val = false → Kept (.hifPart a n v)) ∧
    (s.permits a .part n.val = true → Put (.hifPart a n v) (oPart n.val) (BitVec.ofNat 64 (fld v 21 0 + fld v 30 27 * 2 ^ 27 +
      (if bit v 31 = true ∧ fld v 5 0 ≤ fld v 11 6 ∧ fld v 16 12 ≤ fld v 21 17 ∧ fld v 11 6 < 48 ∧ fld v 21 17 < 20 then 2 ^ 31 else 0)))) ∧
    (s.permits a .apt n.val = false → Kept (.hifApt a n z)) ∧
    (s.permits a .apt n.val = true → Put (.hifApt a n z) (oApt n.val) (z &&& 0xC000000000FFFFFF#64)) ∧
    ((userHc h.val && s.permits a .hcCtx h.val) = false → Kept (.hifHcCtx a h v)) ∧
    ((userHc h.val && s.permits a .hcCtx h.val) = true → Put (.hifHcCtx a h v) (oHcCtx h.val) (BitVec.ofNat 64 (fld v 15 0))) ∧
    (∀ (b : Bar) (off : BitVec 38) (op : Access) (bad : Bool), op.sized = true →
      let Says (y : Reply) : Prop := Completes (.hostRequest f b off op bad) s (fun t => t.hif = { s.hif with reply := y } ∧ KeptBut [.hif] s t)
      let Refused (l : List Area) : Prop := Completes (.hostRequest f b off op bad) s (fun t => KeptBut l s t ∧ t.hif =
        { s.hif with reply := .unsupported, aerUr := (match op with | .read _ => s.hif.aerUr | .write _ => KV.put false s.hif.aerUr f.val true) })
      (s.hif.linkUp = false → Says .noLink) ∧
      (s.hif.linkUp = true → s.dieAway = true → Says (match op with
        | .read _ => .aborted
        | .write _ => .dropped)) ∧
      (s.hif.linkUp = true → s.dieAway = false → s.barOpen f.val = false ∨ barSize f b ≤ off.toNat → Refused [.hif]) ∧
      (let w := s.rg (oApt (off.toNat / 2 ^ 32))
       let k := fld w 23 0 * 2 ^ 32 + off.toNat % 2 ^ 32
       s.barOpen f.val = true → off.toNat < barSize f b → b = .bar4 → (s.sec.booted = false ∨ bit w 63 = false → Refused [.hif, .power]) ∧
       (s.sec.booted = true → bit w 63 = true → bit w 62 = true →
          (∀ j, j < 3 → s.plain (pcieRouter j) k (accessBytes op)) → bad = false →
         Completes (.hostRequest f b off op bad) s (fun t => match op with
           | .read m => t.hif.reply = .data (s.bytes k m) ∧ ∀ x, t.byte x = s.byte x
           | .write d => t.hif.reply = .done ∧ Stored t k d))) ∧
      (let vec := off.toNat / 16
       let y := f.val * 1024 + vec
       ∀ d : List Byte, s.barOpen f.val = true → off.toNat < barSize f b → b = .msix → off.toNat % 16 = 12 → op = .write d → d.length = 4 →
         Completes (.hostRequest f b off op bad) s (fun t => t.hif.reply = .done ∧ KeptBut [.hif] s t ∧
           KV.get false t.hif.masked y = bit (BitVec.ofNat 32 (leNat d)) 0 ∧
           (bit (BitVec.ofNat 32 (leNat d)) 0 = true → t.hif.msix = s.hif.msix) ∧
           (bit (BitVec.ofNat 32 (leNat d)) 0 = false → KV.get false t.hif.pendingMsix y = false ∧
             t.hif.msix = (if KV.get false s.hif.pendingMsix y then (f.val, vec) :: s.hif.msix else s.hif.msix))))) ∧
    (let bare : Prop := ∀ e ∈ s.hif.hcCache, e.1 / 2 ^ 60 ≠ h.val
     ∀ acc : HcAccess, acc.sized = true → (s.hcRuns h = false → Kept (.hostClassCoreAccess h acc)) ∧
      (s.hcRuns h = true → Completes (.hostClassCoreAccess h acc) s (fun t => match acc with
        | .load k m => bare → s.plain (hcRouter h.val) k.toNat m →
          KV.get .none t.hif.hcReply h.val = .data (s.bytes k.toNat m) ∧ ∀ x, t.byte x = s.byte x
        | .fetch k m => bare → s.plain (hcRouter h.val) k.toNat m →
          KV.get .none t.hif.hcReply h.val = .data (s.bytes k.toNat m) ∧ ∀ x, t.byte x = s.byte x
        | .store k d => bare → s.plain (hcRouter h.val) k.toNat d.length → KV.get .none t.hif.hcReply h.val = .done ∧ Stored t k.toNat d
        | .cache op k => ∀ (p : Place) (u : State) (y : Nat), regionOf k.toNat = .tier ∨ regionOf k.toNat = .host →
          s.placeNow (s.hcCtxOf h.val) k.toNat false = (some p, u) → hcKey h.val p = some y →
          KV.get .none t.hif.hcReply h.val = .done ∧ (op ≠ .clean → t.cached y = {})
        | .gate g off => if firmwareHc h.val then (g ∈ t.power.hcGated ↔ off = true) else t = s
        | .wakeCore c => if firmwareHc h.val && s.available c.val && decide ((s.core c.val).cst ≠ .c0) then
            t.core c.val = { s.core c.val with waking := true } ∧ KeptBut [.cores] s t
          else t = s))) ∧
    (∀ (off : BitVec 25) (d : List Byte), 1 ≤ d.length → d.length ≤ 64 →
      (∀ g : Fin 8, s.barOpen (g.val + 1) = false → Kept (.registerWrite (.vf g) off d)) ∧
      (s.barOpen 0 = false → Kept (.registerWrite .pf off d)) ∧ (s.pipLive = false → Kept (.registerWrite .pip off d)) ∧ (s.hcRuns h = false → Kept (.registerWrite (.hc h) off d)) ∧
      (∀ r i j k base, s.locate .pip off.toNat d.length = some (r, i, j, k, base) →
        (s.canWrite .pip r.reg i = false → Kept (.registerWrite .pip off d)) ∧
        (s.canWrite .pip r.reg i = true → s.pipLive = true → r.bytes = 4 → r.reg ∈ [.hcCtx, .pwrIdle, .pwrLend, .fabRt, .rtDown, .vportMap, .telemEvt, .dmsEpoch, .secCtrl] →
          Put (.registerWrite .pip off d) base (((((s.rg base) &&& ~~~r.rw) ||| (BitVec.ofNat 64 (leNat d) &&& r.rw)) |||
            (BitVec.ofNat 64 (leNat d) &&& r.w1s)) &&& ~~~(BitVec.ofNat 64 (leNat d) &&& r.w1c))))) ∧
    (∀ lo hi : BitVec 64, Completes (.atsInvalidation lo hi) s (fun t =>
      t.hif = (if s.cores.any (fun e => e.2.hostWalk) then s.hif else { s.hif with atsDone := s.hif.atsDone + 1 }) ∧ KeptBut [.cores, .hif] s t ∧
      ∀ c e, e ∈ (t.core c).tlbSeq ∨ e ∈ (t.core c).tlbAcc → atsCovers lo hi e = false ∧ ∀ p, e.ats = some p → hi.toNat < p ∨ p + 0x10000 ≤ lo.toNat)) ∧
    (s.hif.linkUp = false → Kept (.flr f)) ∧
    (s.hif.linkUp = true → Completes (.flr f) s (fun t => (∀ r : RingId, ownsRing f.val r.val = true → t.ring f.val r.val = {} ∧ t.ringOn f.val r.val = false) ∧
      (s.cores = [] → ∀ p : EvqId, s.evqOwner p.val = f.val → t.evqOn p.val = false ∧ t.evqOwner p.val = f.val ∧ t.evq p.val = {}) ∧
      (f.val = 0 → t.sec.ideKeys = [] ∧ t.sec.ideOn = []))) ∧
    Completes .d3hotEntry s (fun t => t.hif = { s.hif with d3hot := true } ∧ KeptBut [.hif] s t) ∧
    Completes .d3hotExit s (fun t => t.hif.d3hot = false ∧ t.board = { s.board with wakeN := false } ∧ t.hif.waitRecs = [] ∧
      (s.hif.waitRecs = [] → KeptBut [.hif, .board] s t)) ∧
    (s.board.perstLow = true → Kept .perstNAssert) ∧
    (s.board.perstLow = false → Completes .perstNAssert s (fun t => t.board.perstLow = true ∧ t.rf oSbStat 9 9 = 1 ∧
      (s.railsOn = false → KeptBut [.regs, .board] s t) ∧
      (s.railsOn = true → t.hif.linkUp = false ∧ t.hif.d3hot = false ∧ t.sec.session = false ∧ t.sec.ideKeys = [] ∧
        (s.ras.resets = [] → t.cores = [] ∧ ∃ r ∈ t.ras.resets, r.dom = .dieWarm ∧ r.cause = 0)))) ∧
    (∀ (wd : BitVec 5) (sp : BitVec 4), (s.board.perstLow = false → Kept (.perstNDeassert wd sp)) ∧
      (s.board.perstLow = true → Completes (.perstNDeassert wd sp) s (fun t => t.board = { s.board with perstLow := false, link := (wd, sp) } ∧
        t.rf oSbStat 9 9 = 0 ∧ t.hif.linkUp = (s.hif.linkUp || s.board.pwrgd) ∧
        (s.board.pwrgd = true → t.rf oLink 3 0 = sp.toNat ∧ t.rf oLink 12 8 = wd.toNat) ∧ KeptBut [.regs, .hif, .board] s t)))

/-! ### Security, recovery, Husk -/

/-- The responder, IDE, COMMIT, updates and the lock (R438 to R449). -/
def Obligations.SecurityEvents : Prop :=
  ∀ (s : State) (a : Agent) (slot : Fin 8) (nonce : BitVec 256) (b : Bool) (op : IdeOp) (v : BitVec 32) (z : BitVec 64) (image : Bank),
    let Kept (i : Instr) : Prop := exec i s = .next s
    let up := s.hif.linkUp && s.sec.booted
    let Error (i : Instr) : Prop := Completes i s (fun t => t.sec = { s.sec with response := [], spdmError := true } ∧ KeptBut [.sec] s t)
    let Answer (i : Instr) (x : Sec) (r : List (BitVec 512)) : Prop := Completes i s (fun t =>
      t.sec = { x with response := r, spdmError := false } ∧ KeptBut [.sec] s t)
    let Signed (i : Instr) (x : Sec) (r : List (BitVec 512)) : Prop := Completes i s (fun t =>
      (∃ y, t.sec = { x with response := r ++ [y], spdmError := false }) ∧ KeptBut [.sec, .fresh] s t)
    (up = false → Kept .getVersion ∧ Kept .getCapabilities ∧ Kept (.negotiateAlgorithms b) ∧ Kept (.getCertificate slot) ∧
      Kept (.challenge slot nonce) ∧ Kept (.getMeasurements b nonce) ∧ Kept (.keyExchange nonce) ∧ Kept (.finish b) ∧ Kept (.ideKm op)) ∧
    (up = true →
      Answer .getVersion { s.sec with spdm := .version } [] ∧
      (s.sec.spdm = .version → Answer .getCapabilities { s.sec with spdm := .capabilities } []) ∧
      (s.sec.spdm ≠ .version → Error .getCapabilities) ∧
      (s.sec.spdm = .capabilities → b = true → Answer (.negotiateAlgorithms b) { s.sec with spdm := .algorithms } []) ∧
      (s.sec.spdm ≠ .capabilities ∨ b = false → Error (.negotiateAlgorithms b)) ∧
      (s.sec.spdm = .algorithms → slot = 0 → Signed (.getCertificate slot) s.sec s.sec.measurements ∧ Signed (.challenge slot nonce) s.sec []) ∧
      (s.sec.spdm ≠ .algorithms ∨ slot ≠ 0 → Error (.getCertificate slot) ∧ Error (.challenge slot nonce)) ∧
      (s.sec.spdm = .algorithms → (b = true → Signed (.getMeasurements b nonce) s.sec s.sec.measurements) ∧
        (b = false → Answer (.getMeasurements b nonce) s.sec s.sec.measurements) ∧
        Signed (.keyExchange nonce) { s.sec with session := false, keyExchange := true } []) ∧
      (s.sec.spdm ≠ .algorithms → Error (.getMeasurements b nonce) ∧ Error (.keyExchange nonce)) ∧
      (s.sec.keyExchange = false → Error (.finish b)) ∧
      (s.sec.keyExchange = true → b = true → Answer (.finish b) { s.sec with session := true, keyExchange := false } []) ∧
      (s.sec.keyExchange = true → b = false → Completes (.finish b) s (fun t => KeptBut [.sec] s t ∧
        t.sec = { s.sec with keyExchange := false, response := [], spdmError := true })) ∧
      (s.sec.session = false → Error (.ideKm op)) ∧
      (s.sec.session = true → Completes (.ideKm op) s (fun t => KeptBut [.sec] s t ∧ t.sec.session = true ∧ t.sec.spdmError = false ∧ match op with
        | .program n k => KV.get 0 t.sec.ideKeys n.val = k ∧ (∀ m, m ≠ n.val → KV.get 0 t.sec.ideKeys m = KV.get 0 s.sec.ideKeys m) ∧ t.sec.ideOn = s.sec.ideOn
        | .start n => t.sec.ideKeys = s.sec.ideKeys ∧ ∀ m, m ∈ t.sec.ideOn ↔ m ∈ s.sec.ideOn ∨ (m = n ∧ ∃ e ∈ s.sec.ideKeys, e.1 = n.val)
        | .stop n => t.sec.ideKeys = s.sec.ideKeys ∧ n ∉ t.sec.ideOn ∧ ∀ m, m ≠ n → (m ∈ t.sec.ideOn ↔ m ∈ s.sec.ideOn)))) ∧
    (let n := fld v 30 24
     let starts : Prop := s.permits a .secSvn 0 = true ∧ a = .pf ∧ s.sec.booted = true ∧ s.sec.blowing = none ∧ n = s.rf oSvn 14 8 ∧ s.fusedCount < n
     (¬ starts → Kept (.commit a v)) ∧
     (starts → Completes (.commit a v) s (fun t => t.sec = { s.sec with blowing := some n } ∧ KeptBut [.sec] s t))) ∧
    (s.sec.blowing = none → Kept .svnFuseBlowDone) ∧
    (∀ n, s.sec.blowing = some n → n ≤ 64 → Completes .svnFuseBlowDone s (fun t => t.sec.blowing = none ∧
      (∀ i, i < 192 → t.sec.fuses.getLsbD i = (s.sec.fuses.getLsbD i || decide (i < 3 * n))) ∧
      n ≤ t.fusedCount ∧ t.rf oSvn 6 0 = t.fusedCount)) ∧
    (let starts : Prop := s.permits a .fwUpdate 0 = true ∧ a = .pf ∧ bit (s.rg oFwUpdate) 0 = false
     (¬ starts → Kept (.fwUpdate a z)) ∧
     (starts → Completes (.fwUpdate a z) s (fun t => t.rg oFwUpdate = 1 ∧ t.sec = { s.sec with updSrc := BitVec.ofNat 64 (fld z 63 8 * 256) } ∧
       KeptBut [.regs, .sec] s t))) ∧
    (bit (s.rg oFwUpdate) 0 = false → Kept (.fwUpdateDone image b)) ∧
    (bit (s.rg oFwUpdate) 0 = true →
      let read := s.updateReadable && image.readable
      let Ends (n : Nat) (P : State → Prop) : Prop := Completes (.fwUpdateDone image b) s (fun t => t.rg oFwUpdate = BitVec.ofNat 64 (16 * n) ∧ P t)
      (read = false → Ends 5 (fun t => t.sec.banks = s.sec.banks)) ∧
      (read = true → image.sigOk = false → Ends 2 (fun t => t.sec.banks = s.sec.banks)) ∧
      (read = true → image.sigOk = true → image.svn.toNat < s.fusedCount → Ends 3 (fun t => t.sec.banks = s.sec.banks)) ∧
      (read = true → image.sigOk = true → s.fusedCount ≤ image.svn.toNat → image.hashOk = false → Ends 4 (fun t => t.sec.banks = s.sec.banks)) ∧
      (read = true → image.sigOk = true → s.fusedCount ≤ image.svn.toNat → image.hashOk = true → b = true → Ends 1 (fun t =>
        t.sec.banks = s.sec.banks.set s.updateBank image ∧ t.sec.first = s.updateBank ∧ t.rf oBootStat 1 1 = s.updateBank % 2)) ∧
      (read = true → image.sigOk = true → s.fusedCount ≤ image.svn.toNat → image.hashOk = true → b = false → Ends 6 (fun t =>
        t.sec.banks = s.sec.banks.set s.updateBank noBank ∧ t.sec.first = s.sec.first))) ∧
    (s.permits a .secCtrl 0 = false → Kept (.secLock a)) ∧
    (s.permits a .secCtrl 0 = true → Completes (.secLock a) s (fun t => t.locked = true ∧ t.rf oSecCtrl 31 1 = s.rf oSecCtrl 31 1 ∧ KeptBut [.regs] s t))

/-- The hang monitor, resets and fences (R403 to R421). -/
def Obligations.RecoveryEvents : Prop :=
  ∀ (s : State) (q : Requester) (c : CoreId) (e : Engine) (h : HcId) (k : ClusterId) (x : DimId) (m : DamId) (d : Domain) (a : Agent) (v : BitVec 32),
    let Kept (i : Instr) : Prop := exec i s = .next s
    let Resets (i : Instr) (d : Domain) (P : State → Prop) : Prop :=
      (s.domFenced d = true ∨ (∃ r ∈ s.ras.resets, holds r.dom d = true) → Kept i) ∧
      (s.domFenced d = false → (∀ r ∈ s.ras.resets, holds r.dom d = false) → Completes i s (fun t => P t ∧
        ∃ r ∈ t.ras.resets, r.dom = d ∧ r.cause = causeOf q ∧ r.fromLevel = levelOf d ∧ r.target = targetOf d ∧ r.requested = s.aon ∧
          ∀ y ∈ t.ras.resets, y = r ∨ (y ∈ s.ras.resets ∧ holds d y.dom = false)))
    (s.dieResetting = true ∨ s.cores = [] → Kept .hangSample) ∧
    (∀ w, s.dieResetting = false → s.cores = [(c.val, w)] → s.fenced c.val = false →
      ((∀ j, j < 5 → (s.sampleEngine c.val j).2 = false) → Completes .hangSample s (fun t => KeptBut [.cores] s t ∧
        ∀ j, j < 5 → KV.get {} (t.core c.val).mons j = (s.sampleEngine c.val j).1)) ∧
      (∀ sl off, (∀ j, j < 5 → ((s.sampleEngine c.val j).2 = true ↔ j = engNum e)) → w.headOf (engNum e) = some (sl, off) →
        s.ctxMode (w.slot sl).ctx.toNat < 4 → s.ras.resets = [] → s.clusterFenced (clusterOf c.val) = false → Completes .hangSample s (fun t =>
          e ∈ (t.core c.val).inReset ∧ ∃ r ∈ t.ras.resets, r.dom = .engine c e ∧ r.cause = 2))) ∧
    (s.permits a .rasHb h.val = false → Kept (.rasHb a h)) ∧
    (s.permits a .rasHb h.val = true → Completes (.rasHb a h) s (fun t => KeptBut [.ras] s t ∧ KV.get false t.ras.beats h.val = true ∧
      KV.get 0 t.ras.lastBeat h.val = s.aon ∧ (∀ y, y ≠ h.val → KV.get false t.ras.beats y = KV.get false s.ras.beats y))) ∧
    (let late (y : Nat) : Bool := !KV.get false s.ras.beats y && s.mustBeat y
     s.dieResetting = false → ((∀ y, y < 16 → late y = true → KV.get 0 s.ras.misses y < 2) → Completes .heartbeatInterval s (fun t =>
         t.ras.beats = [] ∧ t.fab.absentSent = [] ∧ KeptBut [.ras, .fab] s t ∧
         ∀ y, y < 16 → KV.get 0 t.ras.misses y = if late y then KV.get 0 s.ras.misses y + 1 else 0)) ∧
       ((∀ y, y < 16 → y ≠ h.val → KV.get 0 s.ras.misses y < 2) → late h.val = true → 2 ≤ KV.get 0 s.ras.misses h.val → userHc h.val = true →
         s.ctxMode (s.hcCtxOf h.val) < 4 → s.ras.resets = [] → Completes .heartbeatInterval s (fun t =>
           ∃ r ∈ t.ras.resets, r.dom = .hostClass h ∧ r.cause = 5))) ∧
    (s.dieResetting = true → Completes .heartbeatInterval s (fun t => t.ras = { s.ras with beats := [] } ∧ KeptBut [.ras, .fab] s t)) ∧
    Resets (.engineReset q c e) (.engine c e) (fun t => e ∈ (t.core c.val).inReset ∧ (t.core c.val).run (engNum e) = [] ∧
      ∀ sl ∈ (s.core c.val).slotsIn (engNum e), (t.slot c.val sl.val).doomed = true) ∧
    Resets (.hostClassCoreReset q h) (.hostClass h) (fun t => KeptBut [.ras] s t) ∧
    Resets (.coreReset q c) (.core c) (fun t => (∀ f : Engine, f ∈ (t.core c.val).inReset) ∧ (∀ j, j < 4 → (t.core c.val).run j = []) ∧
      ∀ sl : SlotId, (s.slot c.val sl.val).active = true → (t.slot c.val sl.val).doomed = true) ∧
    Resets (.clusterReset q k) (.cluster k) (fun t => ∀ i, i < 16 → (∀ f : Engine, f ∈ (t.core (clusterCore k.val i)).inReset) ∧
      ∀ sl : SlotId, (s.slot (clusterCore k.val i) sl.val).active = true → (t.slot (clusterCore k.val i) sl.val).doomed = true) ∧
    Resets (.fabricPortReset q x) (.fabricPort x) (fun t => if s.dimOn x.val && s.dimUsable x.val
      then t.portSt (2 * x.val) = portTrain ∧ t.portSt (2 * x.val + 1) = portTrain else KeptBut [.ras] s t) ∧
    Resets (.damsonReset q m) (.damson m) (fun t => (t.dam m.val).inReset = true ∧ (t.dam m.val).running = none ∧
      ((s.chan (2 * m.val)).pool = [] → (s.chan (2 * m.val + 1)).pool = [] → (t.dam m.val).updates = [] ∧ (t.dam m.val).descr = []) ∧ ∀ ch, ch = 2 * m.val ∨ ch = 2 * m.val + 1 → (t.chan ch).pool = []) ∧
    Resets (.dieWarmReset q) .dieWarm (fun t => t.cores = [] ∧ t.sync = {} ∧ t.tlbInv = none ∧ (∀ y, KV.get false t.fab.driven y = false) ∧
      t.board.rails = s.board.rails) ∧
    Resets (.moduleReset q) .module (fun t => t.cores = [] ∧ t.board.rails = 0 ∧ t.husk.boots = s.husk.boots + 1 ∧ ∀ y, y < 2 ^ 65 → t.byte y = 0) ∧
    ((∀ r ∈ s.ras.resets, r.dom ≠ d) ∨ s.canComplete d = false → Kept (.resetComplete d)) ∧
    (d = .dieWarm → s.canComplete d = true → (∃ r ∈ s.ras.resets, r.dom = d) → s.meshBack = false → Completes (.resetComplete d) s (fun t =>
      t.meshBack = true ∧ t.ras = s.ras ∧ t.cores = s.cores)) ∧
    (s.canComplete d = true → (∃ r ∈ s.ras.resets, r.dom = d) → (d = .dieWarm → s.meshBack = true) → Completes (.resetComplete d) s (fun t =>
      t.ras.resets = s.ras.resets.filter (fun y => decide (y.dom ≠ d)) ∧
      (d = .engine c e → e ∉ (t.core c.val).inReset) ∧
      (d = .hostClass h → KV.get 0 t.hif.hcCtx h.val = BitVec.ofNat 16 (s.rf (oHcCtx h.val) 15 0) ∧ h ∉ t.power.hcGated) ∧
      (d = .core c → (t.core c.val).inReset = [] ∧ (t.core c.val).slots = [] ∧ (t.core c.val).ready = [] ∧
        (c.val ∈ s.ras.clearing → t.fenced c.val = false)) ∧
      (d = .cluster k → k.val ∈ s.ras.clearingCl → t.clusterFenced k.val = false) ∧
      (d = .damson m → (t.dam m.val).inReset = false) ∧
      (d = .dieWarm → t.rf oReady 1 0 = 3 ∧ (∀ y, y < 2 ^ 64 → t.byte y = 0) ∧ ∀ i, (t.ent i).st = .quarantined))) ∧
    ((∀ r ∈ s.ras.resets, r.dom ≠ d) → Kept (.resetBoundExpiry d)) ∧
    (∀ r : RunReset, s.ras.resets = [r] → r.dom = d → Completes (.resetBoundExpiry d) s (fun t =>
      let Up (d' : Domain) : Prop := ∃ y ∈ t.ras.resets, y.dom = d' ∧ y.cause = 4
      (d = .engine c e → Up (.core c)) ∧ (d = .hostClass h → userHc h.val = true → h ∈ t.power.hcGated) ∧
      (d = .hostClass h → userHc h.val = false → Up .dieWarm) ∧ (d = .core c → t.fenced c.val = true) ∧
      (d = .cluster k → t.clusterFenced k.val = true) ∧ (d = .damson m → Up .module) ∧ (d = .dieWarm → Up .module) ∧
      (d = .fabricPort x → t.portSt (2 * x.val) = portFailed ∧ t.portSt (2 * x.val + 1) = portFailed) ∧
      (d = .module → r.retried = false → Up .module) ∧ (d = .module → r.retried = true → t.board.faultModule = true ∧ t.rf oReady 4 4 = 1))) ∧
    (let Isolated (t : State) : Prop := t.fenced c.val = true ∧ (t.core c.val).cst = .c3 ∧ (∀ f : Engine, f ∈ (t.core c.val).inReset) ∧
       ∃ y ∈ t.ras.drains, y.core = c ∧ y.isolated = s.aon
     let owesNoAck : Prop := ∀ y, (∀ w ∈ (s.core y).run 3, cOpc w.w = 0x55 → c.val + 2 ∉ w.await) ∧
       ∀ p, (s.core y).program = some p → c.val + 2 ∉ p.ent.await
     (s.fenced c.val = true → Kept (.fenceCore q c)) ∧
     (s.fenced c.val = false → Completes (.fenceCore q c) s (fun t => Isolated t ∧
       t.ras.resets = s.ras.resets.filter (fun r => !holds (.core c) r.dom) ∧
       (owesNoAck → KeptBut [.cores, .ras, .husk] s t ∧ (∀ y, y ≠ c.val → t.core y = s.core y) ∧ t.core c.val = { s.core c.val with
         cst := .c3, waking := false, parked := false, inReset := [.matrix, .vector, .row, .access, .sequencer] }))) ∧
     Completes (.routerOutOfService c) s (fun t => t.routerDown c.val = true ∧ t.fenced c.val = true ∧ (s.fenced c.val = false → Isolated t))) ∧
    (s.clusterFenced k.val = true → Kept (.fenceCluster q k true)) ∧
    (s.clusterFenced k.val = false → Completes (.fenceCluster q k true) s (fun t => t.clusterFenced k.val = true ∧
      ∀ i, i < 16 → t.fenced (clusterCore k.val i) = true ∧ (s.fenced (clusterCore k.val i) = false → (t.core (clusterCore k.val i)).cst = .c3))) ∧
    Completes (.fenceCluster q k false) s (fun t => t.clusterFenced k.val = true ∧ bit t.husk.tierFailed k.val = true) ∧
    ((∀ y ∈ s.ras.drains, y.core ≠ c) → Kept (.fenceDrainEnd c)) ∧
    ((∃ y ∈ s.ras.drains, y.core = c) → Completes (.fenceDrainEnd c) s (fun t => t.ras = { s.ras with drains := s.ras.drains.filter (fun y => decide (y.core ≠ c)) } ∧
      (t.core c.val).slots = [] ∧ (t.core c.val).ready = [] ∧ (t.core c.val).queues = [] ∧ (t.core c.val).cst = .c3)) ∧
    (s.permits a .rasFence 0 = false ∨ bit v 31 = false → Kept (.fenceClear a v)) ∧
    (s.permits a .rasFence 0 = true → bit v 31 = true → bit v 30 = false → fld v 9 0 = c.val →
      (s.fenced c.val = false ∨ s.clusterFenced (clusterOf c.val) = true → Kept (.fenceClear a v)) ∧
      (s.fenced c.val = true → s.clusterFenced (clusterOf c.val) = false → s.ras.resets = [] → Completes (.fenceClear a v) s (fun t =>
        c.val ∈ t.ras.clearing ∧ t.fenced c.val = true ∧ ∃ r ∈ t.ras.resets, r.dom = .core c)))

/-- Husk, ageing and telemetry (R424 to R436, R456). -/
def Obligations.HuskAndTelemetry : Prop :=
  ∀ (s : State) (a : Agent) (z : BitVec 64) (b : Bool),
    let Kept (i : Instr) : Prop := exec i s = .next s
    let h := s.husk
    let blk := h.nextBlock h.norPos
    let copies := !s.board.pipReset && !h.ringMode && decide (h.norNext + 256 ≤ h.next)
    let held := s.board.pipReset
    (held = true ∨ h.queue = [] ∨ h.slotFree = false → Kept .huskRecordWrite) ∧
    (∀ x l, held = false → h.queue = x :: l → h.slotFree = true → Completes .huskRecordWrite s (fun t => KeptBut [.husk] s t ∧ t.husk.queue = l ∧
      t.husk.copyA h.next = recordWord h.next h.boots.toNat x h.prev ∧
      KV.get 0 t.husk.mramB (h.next % mramSlots) = recordWord h.next h.boots.toNat x h.prev ∧
      (h.sinceCkpt < 1022 → t.husk.next = h.next + 1 ∧ t.husk.sinceCkpt = h.sinceCkpt + 1 ∧ t.husk.sigs = h.sigs) ∧
      (1022 ≤ h.sinceCkpt → h.ringMode = true → t.husk.next = h.next + 2 ∧ t.husk.sinceCkpt = 0 ∧ t.husk.lastCkpt = h.next + 1))) ∧
    (copies = false → Kept (.norCopy b)) ∧
    (copies = true → b = false → Completes (.norCopy b) s (fun t => KeptBut [.husk] s t ∧ t.husk.norNext = h.norNext + 256 ∧
      t.husk.norPos = (blk + 1) % logBlocks ∧ KV.get 0 t.husk.erases (h.phys blk) = KV.get 0 h.erases (h.phys blk) + 1 ∧
      (∀ i, i < 256 → t.husk.oldest ≤ h.norNext + i → KV.get 0 t.husk.nor (h.norNext + i) = h.copyA (h.norNext + i)))) ∧
    (copies = true → b = true → 0 < h.spares → Completes (.norCopy b) s (fun t => KeptBut [.husk] s t ∧ t.husk.norNext = h.norNext + 256 ∧
      t.husk.badBlocks = h.badBlocks ++ [h.phys blk] ∧ t.husk.retired = h.retired)) ∧
    (copies = true → b = true → h.spares = 0 → Completes (.norCopy b) s (fun t => t.husk.retired = h.retired ++ [blk] ∧
      t.husk.norNext = h.norNext ∧ t.husk.norPos = (blk + 1) % logBlocks ∧ t.husk.ringMode = decide (logBlocks - (h.retired.length + 1) < 16) ∧
      (h.retired = [] → t.rf oEol 15 0 = 0 ∧ t.rf oEol 19 16 = 6 ∧ t.rf oAlert 4 4 = 1) ∧ (h.retired ≠ [] → KeptBut [.husk] s t))) ∧
    (s.permits a .bbxSel 0 = false → Kept (.bbxSel a z)) ∧
    (s.permits a .bbxSel 0 = true → Completes (.bbxSel a z) s (fun t => t.rg oBbxSel = z ∧ t.rf oBbxStat 1 0 = 1 ∧ KeptBut [.regs] s t)) ∧
    (held = true ∨ s.rf oBbxStat 0 0 = 0 → Kept .bbxFetchDone) ∧
    (held = false → s.rf oBbxStat 0 0 = 1 → Completes .bbxFetchDone s (fun t => KeptBut [.regs] s t ∧ t.rf oBbxStat 0 0 = 0 ∧
      let n := (s.rg oBbxSel).toNat
      (h.next ≤ n → t.rf oBbxStat 1 1 = 0) ∧
      (n < h.next → h.next ≤ n + mramSlots → t.rf oBbxStat 1 1 = 1 ∧ t.bbxData = h.copyA n) ∧
      (n < h.next → n + mramSlots < h.next → (t.rf oBbxStat 1 1 = 1 ↔ ∃ e ∈ h.nor, e.1 = n)))) ∧
    (held = true → ∀ l, Kept (.ageingCalibration l)) ∧
    (∀ x : AgeingSample, held = false → Completes (.ageingCalibration [x]) s (fun t =>
      let o := if x.item = 3 ∨ x.item = 5 then oEolFru else oEol
      t.rf o 15 0 = x.days.toNat ∧ t.rf o 19 16 = x.item.toNat ∧ t.rf o 27 20 = x.inst.toNat ∧ (x.days.toNat < 30 → t.rf oAlert 4 4 = 1))) ∧
    (∀ y : Telemetry, y.sensors.length = 136 → held = true → Kept (.telemetrySample y)) ∧
    (∀ y : Telemetry, y.sensors.length = 136 → held = false → Completes (.telemetrySample y) s (fun t =>
      t.rg oTelem = BitVec.ofNat 64 (y.power.toNat + 2 ^ 32 * y.volt.toNat) ∧
      (∀ i, i < 17 → t.rg (oSens + 8 * i) = BitVec.ofNat 64 (leNat ((y.sensors.drop (8 * i)).take 8))) ∧
      (∀ i, i < 120 → (y.sensors.getD i 0).toNat ≤ t.rf (oTelem + 8) 7 0) ∧
      ((∃ i, i < 120 ∧ 95 ≤ (y.sensors.getD i 0).toNat) → t.rf oAlert 0 0 = 1) ∧ (s.board.thrUnstable = true → t.rf oAlert 1 1 = 1) ∧
      t.fab = { s.fab with lateSent := [] } ∧ t.sync = { s.sync with lateSent := [] } ∧ KeptBut [.regs, .fab, .sync] s t)) ∧
    (held = true ∨ s.rf oTelemEvt 15 0 = 0 → Kept .telemetryEvent) ∧
    (held = false → s.rf oTelemEvt 15 0 ≠ 0 → s.evqOn 0 = true → s.hif.d3hot = false → s.evqFull 0 = false → Completes .telemetryEvent s (fun t =>
      (t.evq 0).prod = (s.evq 0).prod + 1 ∧ (t.evq 0).seq = (s.evq 0).seq + 1 ∧ (t.evq 0).cons = (s.evq 0).cons)) ∧
    (held = false → s.rf oTelemEvt 15 0 ≠ 0 → s.evqOn 0 = false → Completes .telemetryEvent s (fun t =>
      t.evq 0 = { s.evq 0 with seq := (s.evq 0).seq + 1 } ∧ t.rf (oEvqDrop 0 2) 15 0 = min (s.rf (oEvqDrop 0 2) 15 0 + 1) 0xFFFF ∧
      KeptBut [.regs, .hif] s t))
end

