-- ==== Sys2Proof/Laws/Kv.lean ====
section
/-! SUPPORT. The laws of sparse maps: what reading after writing gives, and that the operations
keep the canonical form. -/

namespace Sys2Proof.Machine

section
variable {α : Type} {d : α}

@[simp] theorem KV.get_nil (k : Nat) : KV.get d [] k = d := rfl

theorem KV.get_del_ne {k k' : Nat} (h : k' ≠ k) : ∀ m : KV α, KV.get d (KV.del m k) k' = KV.get d m k'
  | [] => rfl
  | (j, v) :: m => by
    unfold KV.del
    split
    · subst_vars; simp [KV.get, h, KV.get_del_ne h m]
    · simp only [KV.get]; rw [KV.get_del_ne h m]

theorem KV.get_del_self (k : Nat) : ∀ m : KV α, KV.get d (KV.del m k) k = d
  | [] => rfl
  | (j, v) :: m => by
    unfold KV.del
    split
    · exact KV.get_del_self k m
    · rename_i h
      simp only [KV.get, h, if_false]
      exact KV.get_del_self k m

theorem KV.get_ins_ne {k k' : Nat} (h : k' ≠ k) (v : α) : ∀ m : KV α, KV.get d (KV.ins m k v) k' = KV.get d m k'
  | [] => by simp [KV.ins, KV.get, h]
  | (j, w) :: m => by
    unfold KV.ins
    split
    · subst_vars; simp [KV.get, h]
    · split
      · simp [KV.get, h]
      · simp only [KV.get]; rw [KV.get_ins_ne h v m]

theorem KV.get_ins_self (k : Nat) (v : α) : ∀ m : KV α, KV.get d (KV.ins m k v) k = v
  | [] => by simp [KV.ins, KV.get]
  | (j, w) :: m => by
    unfold KV.ins
    split
    · simp [KV.get]
    · split
      · simp [KV.get]
      · rename_i h _
        simp only [KV.get, h, if_false]
        exact KV.get_ins_self k v m

theorem KV.get_put_ne [DecidableEq α] {k k' : Nat} (h : k' ≠ k) (m : KV α) (v : α) :
    KV.get d (KV.put d m k v) k' = KV.get d m k' := by
  unfold KV.put
  split
  · exact KV.get_del_ne h m
  · exact KV.get_ins_ne h v m

/-- A value reads back, the default among them. -/
@[simp] theorem KV.get_put_self [DecidableEq α] (m : KV α) (k : Nat) (v : α) :
    KV.get d (KV.put d m k v) k = v := by
  unfold KV.put
  split
  · subst_vars; exact KV.get_del_self k m
  · exact KV.get_ins_self k v m

theorem KV.get_put [DecidableEq α] (m : KV α) (k k' : Nat) (v : α) :
    KV.get d (KV.put d m k v) k' = if k' = k then v else KV.get d m k' := by
  split
  · subst_vars; exact KV.get_put_self m _ v
  · exact KV.get_put_ne ‹_› m v

end

theorem KV.wfFrom_mono {α : Type} [DecidableEq α] {d : α} {lo lo' : Nat} (hl : lo' ≤ lo) :
    ∀ {m : KV α}, KV.wfFrom d lo m = true → KV.wfFrom d lo' m = true
  | [], _ => rfl
  | (k, v) :: m, h => by
    simp only [KV.wfFrom, Bool.and_eq_true, decide_eq_true_eq] at h ⊢
    exact ⟨⟨by omega, h.1.2⟩, h.2⟩
theorem KV.wfFrom_filter {α : Type} [DecidableEq α] {d : α} (p : Nat × α → Bool) :
    ∀ {m : KV α} {lo : Nat}, KV.wfFrom d lo m = true → KV.wfFrom d lo (m.filter p) = true
  | [], _, _ => rfl
  | (k, v) :: m, lo, h => by
    simp only [KV.wfFrom, Bool.and_eq_true, decide_eq_true_eq] at h
    have h2 := KV.wfFrom_filter p h.2
    rw [List.filter_cons]
    split
    · simp only [KV.wfFrom, Bool.and_eq_true, decide_eq_true_eq]; exact ⟨h.1, h2⟩
    · exact KV.wfFrom_mono (by omega) h2
theorem KV.wfFrom_del {α : Type} [DecidableEq α] {d : α} (k : Nat) :
    ∀ {m : KV α} {lo : Nat}, KV.wfFrom d lo m = true → KV.wfFrom d lo (KV.del m k) = true
  | [], _, _ => rfl
  | (k', v) :: m, lo, h => by
    simp only [KV.wfFrom, Bool.and_eq_true, decide_eq_true_eq] at h
    unfold KV.del
    split
    · exact KV.wfFrom_mono (by omega) (KV.wfFrom_del k h.2)
    · simp only [KV.wfFrom, Bool.and_eq_true, decide_eq_true_eq]; exact ⟨h.1, KV.wfFrom_del k h.2⟩
theorem KV.wfFrom_ins {α : Type} [DecidableEq α] {d : α} (k : Nat) {v : α} (hv : v ≠ d) :
    ∀ {m : KV α} {lo : Nat}, lo ≤ k → KV.wfFrom d lo m = true → KV.wfFrom d lo (KV.ins m k v) = true
  | [], lo, hl, _ => by simp [KV.ins, KV.wfFrom, hl, hv]
  | (k', v') :: m, lo, hl, h => by
    have h0 := h
    simp only [KV.wfFrom, Bool.and_eq_true, decide_eq_true_eq] at h
    unfold KV.ins
    split
    · subst_vars; simp only [KV.wfFrom, Bool.and_eq_true, decide_eq_true_eq]; exact ⟨⟨hl, hv⟩, h.2⟩
    · split
      · simp only [KV.wfFrom, Bool.and_eq_true, decide_eq_true_eq]
        exact ⟨⟨hl, hv⟩, ⟨by omega, h.1.2⟩, h.2⟩
      · simp only [KV.wfFrom, Bool.and_eq_true, decide_eq_true_eq]
        exact ⟨h.1, KV.wfFrom_ins k hv (by omega) h.2⟩
theorem KV.wf_put {α : Type} [DecidableEq α] {d : α} {m : KV α} (k : Nat) (v : α) (h : KV.wf d m = true) :
    KV.wf d (KV.put d m k v) = true := by
  unfold KV.put KV.wf at *
  split
  · exact KV.wfFrom_del k h
  · exact KV.wfFrom_ins k ‹_› (Nat.zero_le _) h

end Sys2Proof.Machine
end

