-- ==== Sys2Proof/Laws/State.lean ====
section
/-! SUPPORT. What each named update of one part of the state leaves alone, field by field. -/

namespace Sys2Proof.Machine

@[simp] theorem State.putByte_pending (s : State) (key b) : (s.putByte key b).pending = s.pending := rfl
@[simp] theorem State.putByte_aon (s : State) (key b) : (s.putByte key b).aon = s.aon := rfl
@[simp] theorem State.putByte_fresh (s : State) (key b) : (s.putByte key b).fresh = s.fresh := rfl
@[simp] theorem State.putByte_chk (s : State) (key b) : (s.putByte key b).chk = s.chk := rfl
@[simp] theorem State.putByte_reported (s : State) (key b) : (s.putByte key b).reported = s.reported := rfl
@[simp] theorem State.putByte_lines (s : State) (key b) : (s.putByte key b).lines = s.lines := rfl
@[simp] theorem State.putByte_regs (s : State) (key b) : (s.putByte key b).regs = s.regs := rfl
@[simp] theorem State.putByte_cores (s : State) (key b) : (s.putByte key b).cores = s.cores := rfl
@[simp] theorem State.putByte_clusters (s : State) (key b) : (s.putByte key b).clusters = s.clusters := rfl
@[simp] theorem State.putByte_mems (s : State) (key b) : (s.putByte key b).mems = s.mems := rfl
@[simp] theorem State.putByte_tlbInv (s : State) (key b) : (s.putByte key b).tlbInv = s.tlbInv := rfl
@[simp] theorem State.putByte_flits (s : State) (key b) : (s.putByte key b).flits = s.flits := rfl
@[simp] theorem State.putByte_lostFlits (s : State) (key b) : (s.putByte key b).lostFlits = s.lostFlits := rfl
@[simp] theorem State.putByte_dimmGib (s : State) (key b) : (s.putByte key b).dimmGib = s.dimmGib := rfl
@[simp] theorem State.putByte_dimmBanks (s : State) (key b) : (s.putByte key b).dimmBanks = s.dimmBanks := rfl
@[simp] theorem State.putByte_damsons (s : State) (key b) : (s.putByte key b).damsons = s.damsons := rfl
@[simp] theorem State.putByte_channels (s : State) (key b) : (s.putByte key b).channels = s.channels := rfl
@[simp] theorem State.putByte_sync (s : State) (key b) : (s.putByte key b).sync = s.sync := rfl
@[simp] theorem State.putByte_fab (s : State) (key b) : (s.putByte key b).fab = s.fab := rfl
@[simp] theorem State.putByte_hif (s : State) (key b) : (s.putByte key b).hif = s.hif := rfl
@[simp] theorem State.putByte_power (s : State) (key b) : (s.putByte key b).power = s.power := rfl
@[simp] theorem State.putByte_board (s : State) (key b) : (s.putByte key b).board = s.board := rfl
@[simp] theorem State.putByte_ras (s : State) (key b) : (s.putByte key b).ras = s.ras := rfl
@[simp] theorem State.putByte_husk (s : State) (key b) : (s.putByte key b).husk = s.husk := rfl
@[simp] theorem State.putByte_sec (s : State) (key b) : (s.putByte key b).sec = s.sec := rfl

@[simp] theorem State.took_pending (s : State) : (s.took).pending = s.pending := rfl
@[simp] theorem State.took_aon (s : State) : (s.took).aon = s.aon := rfl
@[simp] theorem State.took_mem (s : State) : (s.took).mem = s.mem := rfl
@[simp] theorem State.took_chk (s : State) : (s.took).chk = s.chk := rfl
@[simp] theorem State.took_reported (s : State) : (s.took).reported = s.reported := rfl
@[simp] theorem State.took_lines (s : State) : (s.took).lines = s.lines := rfl
@[simp] theorem State.took_regs (s : State) : (s.took).regs = s.regs := rfl
@[simp] theorem State.took_cores (s : State) : (s.took).cores = s.cores := rfl
@[simp] theorem State.took_clusters (s : State) : (s.took).clusters = s.clusters := rfl
@[simp] theorem State.took_mems (s : State) : (s.took).mems = s.mems := rfl
@[simp] theorem State.took_tlbInv (s : State) : (s.took).tlbInv = s.tlbInv := rfl
@[simp] theorem State.took_flits (s : State) : (s.took).flits = s.flits := rfl
@[simp] theorem State.took_lostFlits (s : State) : (s.took).lostFlits = s.lostFlits := rfl
@[simp] theorem State.took_dimmGib (s : State) : (s.took).dimmGib = s.dimmGib := rfl
@[simp] theorem State.took_dimmBanks (s : State) : (s.took).dimmBanks = s.dimmBanks := rfl
@[simp] theorem State.took_damsons (s : State) : (s.took).damsons = s.damsons := rfl
@[simp] theorem State.took_channels (s : State) : (s.took).channels = s.channels := rfl
@[simp] theorem State.took_sync (s : State) : (s.took).sync = s.sync := rfl
@[simp] theorem State.took_fab (s : State) : (s.took).fab = s.fab := rfl
@[simp] theorem State.took_hif (s : State) : (s.took).hif = s.hif := rfl
@[simp] theorem State.took_power (s : State) : (s.took).power = s.power := rfl
@[simp] theorem State.took_board (s : State) : (s.took).board = s.board := rfl
@[simp] theorem State.took_ras (s : State) : (s.took).ras = s.ras := rfl
@[simp] theorem State.took_husk (s : State) : (s.took).husk = s.husk := rfl
@[simp] theorem State.took_sec (s : State) : (s.took).sec = s.sec := rfl

@[simp] theorem State.setCore_pending (s : State) (c k) : (s.setCore c k).pending = s.pending := rfl
@[simp] theorem State.setCore_aon (s : State) (c k) : (s.setCore c k).aon = s.aon := rfl
@[simp] theorem State.setCore_fresh (s : State) (c k) : (s.setCore c k).fresh = s.fresh := rfl
@[simp] theorem State.setCore_mem (s : State) (c k) : (s.setCore c k).mem = s.mem := rfl
@[simp] theorem State.setCore_chk (s : State) (c k) : (s.setCore c k).chk = s.chk := rfl
@[simp] theorem State.setCore_reported (s : State) (c k) : (s.setCore c k).reported = s.reported := rfl
@[simp] theorem State.setCore_lines (s : State) (c k) : (s.setCore c k).lines = s.lines := rfl
@[simp] theorem State.setCore_regs (s : State) (c k) : (s.setCore c k).regs = s.regs := rfl
@[simp] theorem State.setCore_clusters (s : State) (c k) : (s.setCore c k).clusters = s.clusters := rfl
@[simp] theorem State.setCore_mems (s : State) (c k) : (s.setCore c k).mems = s.mems := rfl
@[simp] theorem State.setCore_tlbInv (s : State) (c k) : (s.setCore c k).tlbInv = s.tlbInv := rfl
@[simp] theorem State.setCore_flits (s : State) (c k) : (s.setCore c k).flits = s.flits := rfl
@[simp] theorem State.setCore_lostFlits (s : State) (c k) : (s.setCore c k).lostFlits = s.lostFlits := rfl
@[simp] theorem State.setCore_dimmGib (s : State) (c k) : (s.setCore c k).dimmGib = s.dimmGib := rfl
@[simp] theorem State.setCore_dimmBanks (s : State) (c k) : (s.setCore c k).dimmBanks = s.dimmBanks := rfl
@[simp] theorem State.setCore_damsons (s : State) (c k) : (s.setCore c k).damsons = s.damsons := rfl
@[simp] theorem State.setCore_channels (s : State) (c k) : (s.setCore c k).channels = s.channels := rfl
@[simp] theorem State.setCore_sync (s : State) (c k) : (s.setCore c k).sync = s.sync := rfl
@[simp] theorem State.setCore_fab (s : State) (c k) : (s.setCore c k).fab = s.fab := rfl
@[simp] theorem State.setCore_hif (s : State) (c k) : (s.setCore c k).hif = s.hif := rfl
@[simp] theorem State.setCore_power (s : State) (c k) : (s.setCore c k).power = s.power := rfl
@[simp] theorem State.setCore_board (s : State) (c k) : (s.setCore c k).board = s.board := rfl
@[simp] theorem State.setCore_ras (s : State) (c k) : (s.setCore c k).ras = s.ras := rfl
@[simp] theorem State.setCore_husk (s : State) (c k) : (s.setCore c k).husk = s.husk := rfl
@[simp] theorem State.setCore_sec (s : State) (c k) : (s.setCore c k).sec = s.sec := rfl

@[simp] theorem State.modCore_pending (s : State) (c f) : (s.modCore c f).pending = s.pending := rfl
@[simp] theorem State.modCore_aon (s : State) (c f) : (s.modCore c f).aon = s.aon := rfl
@[simp] theorem State.modCore_fresh (s : State) (c f) : (s.modCore c f).fresh = s.fresh := rfl
@[simp] theorem State.modCore_mem (s : State) (c f) : (s.modCore c f).mem = s.mem := rfl
@[simp] theorem State.modCore_chk (s : State) (c f) : (s.modCore c f).chk = s.chk := rfl
@[simp] theorem State.modCore_reported (s : State) (c f) : (s.modCore c f).reported = s.reported := rfl
@[simp] theorem State.modCore_lines (s : State) (c f) : (s.modCore c f).lines = s.lines := rfl
@[simp] theorem State.modCore_regs (s : State) (c f) : (s.modCore c f).regs = s.regs := rfl
@[simp] theorem State.modCore_clusters (s : State) (c f) : (s.modCore c f).clusters = s.clusters := rfl
@[simp] theorem State.modCore_mems (s : State) (c f) : (s.modCore c f).mems = s.mems := rfl
@[simp] theorem State.modCore_tlbInv (s : State) (c f) : (s.modCore c f).tlbInv = s.tlbInv := rfl
@[simp] theorem State.modCore_flits (s : State) (c f) : (s.modCore c f).flits = s.flits := rfl
@[simp] theorem State.modCore_lostFlits (s : State) (c f) : (s.modCore c f).lostFlits = s.lostFlits := rfl
@[simp] theorem State.modCore_dimmGib (s : State) (c f) : (s.modCore c f).dimmGib = s.dimmGib := rfl
@[simp] theorem State.modCore_dimmBanks (s : State) (c f) : (s.modCore c f).dimmBanks = s.dimmBanks := rfl
@[simp] theorem State.modCore_damsons (s : State) (c f) : (s.modCore c f).damsons = s.damsons := rfl
@[simp] theorem State.modCore_channels (s : State) (c f) : (s.modCore c f).channels = s.channels := rfl
@[simp] theorem State.modCore_sync (s : State) (c f) : (s.modCore c f).sync = s.sync := rfl
@[simp] theorem State.modCore_fab (s : State) (c f) : (s.modCore c f).fab = s.fab := rfl
@[simp] theorem State.modCore_hif (s : State) (c f) : (s.modCore c f).hif = s.hif := rfl
@[simp] theorem State.modCore_power (s : State) (c f) : (s.modCore c f).power = s.power := rfl
@[simp] theorem State.modCore_board (s : State) (c f) : (s.modCore c f).board = s.board := rfl
@[simp] theorem State.modCore_ras (s : State) (c f) : (s.modCore c f).ras = s.ras := rfl
@[simp] theorem State.modCore_husk (s : State) (c f) : (s.modCore c f).husk = s.husk := rfl
@[simp] theorem State.modCore_sec (s : State) (c f) : (s.modCore c f).sec = s.sec := rfl

@[simp] theorem State.setSlot_pending (s : State) (c i x) : (s.setSlot c i x).pending = s.pending := rfl
@[simp] theorem State.setSlot_aon (s : State) (c i x) : (s.setSlot c i x).aon = s.aon := rfl
@[simp] theorem State.setSlot_fresh (s : State) (c i x) : (s.setSlot c i x).fresh = s.fresh := rfl
@[simp] theorem State.setSlot_mem (s : State) (c i x) : (s.setSlot c i x).mem = s.mem := rfl
@[simp] theorem State.setSlot_chk (s : State) (c i x) : (s.setSlot c i x).chk = s.chk := rfl
@[simp] theorem State.setSlot_reported (s : State) (c i x) : (s.setSlot c i x).reported = s.reported := rfl
@[simp] theorem State.setSlot_lines (s : State) (c i x) : (s.setSlot c i x).lines = s.lines := rfl
@[simp] theorem State.setSlot_regs (s : State) (c i x) : (s.setSlot c i x).regs = s.regs := rfl
@[simp] theorem State.setSlot_clusters (s : State) (c i x) : (s.setSlot c i x).clusters = s.clusters := rfl
@[simp] theorem State.setSlot_mems (s : State) (c i x) : (s.setSlot c i x).mems = s.mems := rfl
@[simp] theorem State.setSlot_tlbInv (s : State) (c i x) : (s.setSlot c i x).tlbInv = s.tlbInv := rfl
@[simp] theorem State.setSlot_flits (s : State) (c i x) : (s.setSlot c i x).flits = s.flits := rfl
@[simp] theorem State.setSlot_lostFlits (s : State) (c i x) : (s.setSlot c i x).lostFlits = s.lostFlits := rfl
@[simp] theorem State.setSlot_dimmGib (s : State) (c i x) : (s.setSlot c i x).dimmGib = s.dimmGib := rfl
@[simp] theorem State.setSlot_dimmBanks (s : State) (c i x) : (s.setSlot c i x).dimmBanks = s.dimmBanks := rfl
@[simp] theorem State.setSlot_damsons (s : State) (c i x) : (s.setSlot c i x).damsons = s.damsons := rfl
@[simp] theorem State.setSlot_channels (s : State) (c i x) : (s.setSlot c i x).channels = s.channels := rfl
@[simp] theorem State.setSlot_sync (s : State) (c i x) : (s.setSlot c i x).sync = s.sync := rfl
@[simp] theorem State.setSlot_fab (s : State) (c i x) : (s.setSlot c i x).fab = s.fab := rfl
@[simp] theorem State.setSlot_hif (s : State) (c i x) : (s.setSlot c i x).hif = s.hif := rfl
@[simp] theorem State.setSlot_power (s : State) (c i x) : (s.setSlot c i x).power = s.power := rfl
@[simp] theorem State.setSlot_board (s : State) (c i x) : (s.setSlot c i x).board = s.board := rfl
@[simp] theorem State.setSlot_ras (s : State) (c i x) : (s.setSlot c i x).ras = s.ras := rfl
@[simp] theorem State.setSlot_husk (s : State) (c i x) : (s.setSlot c i x).husk = s.husk := rfl
@[simp] theorem State.setSlot_sec (s : State) (c i x) : (s.setSlot c i x).sec = s.sec := rfl

@[simp] theorem State.modSlot_pending (s : State) (c i f) : (s.modSlot c i f).pending = s.pending := rfl
@[simp] theorem State.modSlot_aon (s : State) (c i f) : (s.modSlot c i f).aon = s.aon := rfl
@[simp] theorem State.modSlot_fresh (s : State) (c i f) : (s.modSlot c i f).fresh = s.fresh := rfl
@[simp] theorem State.modSlot_mem (s : State) (c i f) : (s.modSlot c i f).mem = s.mem := rfl
@[simp] theorem State.modSlot_chk (s : State) (c i f) : (s.modSlot c i f).chk = s.chk := rfl
@[simp] theorem State.modSlot_reported (s : State) (c i f) : (s.modSlot c i f).reported = s.reported := rfl
@[simp] theorem State.modSlot_lines (s : State) (c i f) : (s.modSlot c i f).lines = s.lines := rfl
@[simp] theorem State.modSlot_regs (s : State) (c i f) : (s.modSlot c i f).regs = s.regs := rfl
@[simp] theorem State.modSlot_clusters (s : State) (c i f) : (s.modSlot c i f).clusters = s.clusters := rfl
@[simp] theorem State.modSlot_mems (s : State) (c i f) : (s.modSlot c i f).mems = s.mems := rfl
@[simp] theorem State.modSlot_tlbInv (s : State) (c i f) : (s.modSlot c i f).tlbInv = s.tlbInv := rfl
@[simp] theorem State.modSlot_flits (s : State) (c i f) : (s.modSlot c i f).flits = s.flits := rfl
@[simp] theorem State.modSlot_lostFlits (s : State) (c i f) : (s.modSlot c i f).lostFlits = s.lostFlits := rfl
@[simp] theorem State.modSlot_dimmGib (s : State) (c i f) : (s.modSlot c i f).dimmGib = s.dimmGib := rfl
@[simp] theorem State.modSlot_dimmBanks (s : State) (c i f) : (s.modSlot c i f).dimmBanks = s.dimmBanks := rfl
@[simp] theorem State.modSlot_damsons (s : State) (c i f) : (s.modSlot c i f).damsons = s.damsons := rfl
@[simp] theorem State.modSlot_channels (s : State) (c i f) : (s.modSlot c i f).channels = s.channels := rfl
@[simp] theorem State.modSlot_sync (s : State) (c i f) : (s.modSlot c i f).sync = s.sync := rfl
@[simp] theorem State.modSlot_fab (s : State) (c i f) : (s.modSlot c i f).fab = s.fab := rfl
@[simp] theorem State.modSlot_hif (s : State) (c i f) : (s.modSlot c i f).hif = s.hif := rfl
@[simp] theorem State.modSlot_power (s : State) (c i f) : (s.modSlot c i f).power = s.power := rfl
@[simp] theorem State.modSlot_board (s : State) (c i f) : (s.modSlot c i f).board = s.board := rfl
@[simp] theorem State.modSlot_ras (s : State) (c i f) : (s.modSlot c i f).ras = s.ras := rfl
@[simp] theorem State.modSlot_husk (s : State) (c i f) : (s.modSlot c i f).husk = s.husk := rfl
@[simp] theorem State.modSlot_sec (s : State) (c i f) : (s.modSlot c i f).sec = s.sec := rfl

@[simp] theorem State.count_pending (s : State) (c off n) : (s.count c off n).pending = s.pending := rfl
@[simp] theorem State.count_aon (s : State) (c off n) : (s.count c off n).aon = s.aon := rfl
@[simp] theorem State.count_fresh (s : State) (c off n) : (s.count c off n).fresh = s.fresh := rfl
@[simp] theorem State.count_mem (s : State) (c off n) : (s.count c off n).mem = s.mem := rfl
@[simp] theorem State.count_chk (s : State) (c off n) : (s.count c off n).chk = s.chk := rfl
@[simp] theorem State.count_reported (s : State) (c off n) : (s.count c off n).reported = s.reported := rfl
@[simp] theorem State.count_lines (s : State) (c off n) : (s.count c off n).lines = s.lines := rfl
@[simp] theorem State.count_regs (s : State) (c off n) : (s.count c off n).regs = s.regs := rfl
@[simp] theorem State.count_clusters (s : State) (c off n) : (s.count c off n).clusters = s.clusters := rfl
@[simp] theorem State.count_mems (s : State) (c off n) : (s.count c off n).mems = s.mems := rfl
@[simp] theorem State.count_tlbInv (s : State) (c off n) : (s.count c off n).tlbInv = s.tlbInv := rfl
@[simp] theorem State.count_flits (s : State) (c off n) : (s.count c off n).flits = s.flits := rfl
@[simp] theorem State.count_lostFlits (s : State) (c off n) : (s.count c off n).lostFlits = s.lostFlits := rfl
@[simp] theorem State.count_dimmGib (s : State) (c off n) : (s.count c off n).dimmGib = s.dimmGib := rfl
@[simp] theorem State.count_dimmBanks (s : State) (c off n) : (s.count c off n).dimmBanks = s.dimmBanks := rfl
@[simp] theorem State.count_damsons (s : State) (c off n) : (s.count c off n).damsons = s.damsons := rfl
@[simp] theorem State.count_channels (s : State) (c off n) : (s.count c off n).channels = s.channels := rfl
@[simp] theorem State.count_sync (s : State) (c off n) : (s.count c off n).sync = s.sync := rfl
@[simp] theorem State.count_fab (s : State) (c off n) : (s.count c off n).fab = s.fab := rfl
@[simp] theorem State.count_hif (s : State) (c off n) : (s.count c off n).hif = s.hif := rfl
@[simp] theorem State.count_power (s : State) (c off n) : (s.count c off n).power = s.power := rfl
@[simp] theorem State.count_board (s : State) (c off n) : (s.count c off n).board = s.board := rfl
@[simp] theorem State.count_ras (s : State) (c off n) : (s.count c off n).ras = s.ras := rfl
@[simp] theorem State.count_husk (s : State) (c off n) : (s.count c off n).husk = s.husk := rfl
@[simp] theorem State.count_sec (s : State) (c off n) : (s.count c off n).sec = s.sec := rfl

@[simp] theorem State.progress_pending (s : State) (c e n) : (s.progress c e n).pending = s.pending := rfl
@[simp] theorem State.progress_aon (s : State) (c e n) : (s.progress c e n).aon = s.aon := rfl
@[simp] theorem State.progress_fresh (s : State) (c e n) : (s.progress c e n).fresh = s.fresh := rfl
@[simp] theorem State.progress_mem (s : State) (c e n) : (s.progress c e n).mem = s.mem := rfl
@[simp] theorem State.progress_chk (s : State) (c e n) : (s.progress c e n).chk = s.chk := rfl
@[simp] theorem State.progress_reported (s : State) (c e n) : (s.progress c e n).reported = s.reported := rfl
@[simp] theorem State.progress_lines (s : State) (c e n) : (s.progress c e n).lines = s.lines := rfl
@[simp] theorem State.progress_regs (s : State) (c e n) : (s.progress c e n).regs = s.regs := rfl
@[simp] theorem State.progress_clusters (s : State) (c e n) : (s.progress c e n).clusters = s.clusters := rfl
@[simp] theorem State.progress_mems (s : State) (c e n) : (s.progress c e n).mems = s.mems := rfl
@[simp] theorem State.progress_tlbInv (s : State) (c e n) : (s.progress c e n).tlbInv = s.tlbInv := rfl
@[simp] theorem State.progress_flits (s : State) (c e n) : (s.progress c e n).flits = s.flits := rfl
@[simp] theorem State.progress_lostFlits (s : State) (c e n) : (s.progress c e n).lostFlits = s.lostFlits := rfl
@[simp] theorem State.progress_dimmGib (s : State) (c e n) : (s.progress c e n).dimmGib = s.dimmGib := rfl
@[simp] theorem State.progress_dimmBanks (s : State) (c e n) : (s.progress c e n).dimmBanks = s.dimmBanks := rfl
@[simp] theorem State.progress_damsons (s : State) (c e n) : (s.progress c e n).damsons = s.damsons := rfl
@[simp] theorem State.progress_channels (s : State) (c e n) : (s.progress c e n).channels = s.channels := rfl
@[simp] theorem State.progress_sync (s : State) (c e n) : (s.progress c e n).sync = s.sync := rfl
@[simp] theorem State.progress_fab (s : State) (c e n) : (s.progress c e n).fab = s.fab := rfl
@[simp] theorem State.progress_hif (s : State) (c e n) : (s.progress c e n).hif = s.hif := rfl
@[simp] theorem State.progress_power (s : State) (c e n) : (s.progress c e n).power = s.power := rfl
@[simp] theorem State.progress_board (s : State) (c e n) : (s.progress c e n).board = s.board := rfl
@[simp] theorem State.progress_ras (s : State) (c e n) : (s.progress c e n).ras = s.ras := rfl
@[simp] theorem State.progress_husk (s : State) (c e n) : (s.progress c e n).husk = s.husk := rfl
@[simp] theorem State.progress_sec (s : State) (c e n) : (s.progress c e n).sec = s.sec := rfl

@[simp] theorem State.issued_pending (s : State) (c sl) : (s.issued c sl).pending = s.pending := rfl
@[simp] theorem State.issued_aon (s : State) (c sl) : (s.issued c sl).aon = s.aon := rfl
@[simp] theorem State.issued_fresh (s : State) (c sl) : (s.issued c sl).fresh = s.fresh := rfl
@[simp] theorem State.issued_mem (s : State) (c sl) : (s.issued c sl).mem = s.mem := rfl
@[simp] theorem State.issued_chk (s : State) (c sl) : (s.issued c sl).chk = s.chk := rfl
@[simp] theorem State.issued_reported (s : State) (c sl) : (s.issued c sl).reported = s.reported := rfl
@[simp] theorem State.issued_lines (s : State) (c sl) : (s.issued c sl).lines = s.lines := rfl
@[simp] theorem State.issued_regs (s : State) (c sl) : (s.issued c sl).regs = s.regs := rfl
@[simp] theorem State.issued_clusters (s : State) (c sl) : (s.issued c sl).clusters = s.clusters := rfl
@[simp] theorem State.issued_mems (s : State) (c sl) : (s.issued c sl).mems = s.mems := rfl
@[simp] theorem State.issued_tlbInv (s : State) (c sl) : (s.issued c sl).tlbInv = s.tlbInv := rfl
@[simp] theorem State.issued_flits (s : State) (c sl) : (s.issued c sl).flits = s.flits := rfl
@[simp] theorem State.issued_lostFlits (s : State) (c sl) : (s.issued c sl).lostFlits = s.lostFlits := rfl
@[simp] theorem State.issued_dimmGib (s : State) (c sl) : (s.issued c sl).dimmGib = s.dimmGib := rfl
@[simp] theorem State.issued_dimmBanks (s : State) (c sl) : (s.issued c sl).dimmBanks = s.dimmBanks := rfl
@[simp] theorem State.issued_damsons (s : State) (c sl) : (s.issued c sl).damsons = s.damsons := rfl
@[simp] theorem State.issued_channels (s : State) (c sl) : (s.issued c sl).channels = s.channels := rfl
@[simp] theorem State.issued_sync (s : State) (c sl) : (s.issued c sl).sync = s.sync := rfl
@[simp] theorem State.issued_fab (s : State) (c sl) : (s.issued c sl).fab = s.fab := rfl
@[simp] theorem State.issued_hif (s : State) (c sl) : (s.issued c sl).hif = s.hif := rfl
@[simp] theorem State.issued_power (s : State) (c sl) : (s.issued c sl).power = s.power := rfl
@[simp] theorem State.issued_board (s : State) (c sl) : (s.issued c sl).board = s.board := rfl
@[simp] theorem State.issued_ras (s : State) (c sl) : (s.issued c sl).ras = s.ras := rfl
@[simp] theorem State.issued_husk (s : State) (c sl) : (s.issued c sl).husk = s.husk := rfl
@[simp] theorem State.issued_sec (s : State) (c sl) : (s.issued c sl).sec = s.sec := rfl

@[simp] theorem State.setRg_pending (s : State) (off v) : (s.setRg off v).pending = s.pending := rfl
@[simp] theorem State.setRg_aon (s : State) (off v) : (s.setRg off v).aon = s.aon := rfl
@[simp] theorem State.setRg_fresh (s : State) (off v) : (s.setRg off v).fresh = s.fresh := rfl
@[simp] theorem State.setRg_mem (s : State) (off v) : (s.setRg off v).mem = s.mem := rfl
@[simp] theorem State.setRg_chk (s : State) (off v) : (s.setRg off v).chk = s.chk := rfl
@[simp] theorem State.setRg_reported (s : State) (off v) : (s.setRg off v).reported = s.reported := rfl
@[simp] theorem State.setRg_lines (s : State) (off v) : (s.setRg off v).lines = s.lines := rfl
@[simp] theorem State.setRg_cores (s : State) (off v) : (s.setRg off v).cores = s.cores := rfl
@[simp] theorem State.setRg_clusters (s : State) (off v) : (s.setRg off v).clusters = s.clusters := rfl
@[simp] theorem State.setRg_mems (s : State) (off v) : (s.setRg off v).mems = s.mems := rfl
@[simp] theorem State.setRg_tlbInv (s : State) (off v) : (s.setRg off v).tlbInv = s.tlbInv := rfl
@[simp] theorem State.setRg_flits (s : State) (off v) : (s.setRg off v).flits = s.flits := rfl
@[simp] theorem State.setRg_lostFlits (s : State) (off v) : (s.setRg off v).lostFlits = s.lostFlits := rfl
@[simp] theorem State.setRg_dimmGib (s : State) (off v) : (s.setRg off v).dimmGib = s.dimmGib := rfl
@[simp] theorem State.setRg_dimmBanks (s : State) (off v) : (s.setRg off v).dimmBanks = s.dimmBanks := rfl
@[simp] theorem State.setRg_damsons (s : State) (off v) : (s.setRg off v).damsons = s.damsons := rfl
@[simp] theorem State.setRg_channels (s : State) (off v) : (s.setRg off v).channels = s.channels := rfl
@[simp] theorem State.setRg_sync (s : State) (off v) : (s.setRg off v).sync = s.sync := rfl
@[simp] theorem State.setRg_fab (s : State) (off v) : (s.setRg off v).fab = s.fab := rfl
@[simp] theorem State.setRg_hif (s : State) (off v) : (s.setRg off v).hif = s.hif := rfl
@[simp] theorem State.setRg_power (s : State) (off v) : (s.setRg off v).power = s.power := rfl
@[simp] theorem State.setRg_board (s : State) (off v) : (s.setRg off v).board = s.board := rfl
@[simp] theorem State.setRg_ras (s : State) (off v) : (s.setRg off v).ras = s.ras := rfl
@[simp] theorem State.setRg_husk (s : State) (off v) : (s.setRg off v).husk = s.husk := rfl
@[simp] theorem State.setRg_sec (s : State) (off v) : (s.setRg off v).sec = s.sec := rfl

@[simp] theorem State.setRf_pending (s : State) (off hi lo v) : (s.setRf off hi lo v).pending = s.pending := rfl
@[simp] theorem State.setRf_aon (s : State) (off hi lo v) : (s.setRf off hi lo v).aon = s.aon := rfl
@[simp] theorem State.setRf_fresh (s : State) (off hi lo v) : (s.setRf off hi lo v).fresh = s.fresh := rfl
@[simp] theorem State.setRf_mem (s : State) (off hi lo v) : (s.setRf off hi lo v).mem = s.mem := rfl
@[simp] theorem State.setRf_chk (s : State) (off hi lo v) : (s.setRf off hi lo v).chk = s.chk := rfl
@[simp] theorem State.setRf_reported (s : State) (off hi lo v) : (s.setRf off hi lo v).reported = s.reported := rfl
@[simp] theorem State.setRf_lines (s : State) (off hi lo v) : (s.setRf off hi lo v).lines = s.lines := rfl
@[simp] theorem State.setRf_cores (s : State) (off hi lo v) : (s.setRf off hi lo v).cores = s.cores := rfl
@[simp] theorem State.setRf_clusters (s : State) (off hi lo v) : (s.setRf off hi lo v).clusters = s.clusters := rfl
@[simp] theorem State.setRf_mems (s : State) (off hi lo v) : (s.setRf off hi lo v).mems = s.mems := rfl
@[simp] theorem State.setRf_tlbInv (s : State) (off hi lo v) : (s.setRf off hi lo v).tlbInv = s.tlbInv := rfl
@[simp] theorem State.setRf_flits (s : State) (off hi lo v) : (s.setRf off hi lo v).flits = s.flits := rfl
@[simp] theorem State.setRf_lostFlits (s : State) (off hi lo v) : (s.setRf off hi lo v).lostFlits = s.lostFlits := rfl
@[simp] theorem State.setRf_dimmGib (s : State) (off hi lo v) : (s.setRf off hi lo v).dimmGib = s.dimmGib := rfl
@[simp] theorem State.setRf_dimmBanks (s : State) (off hi lo v) : (s.setRf off hi lo v).dimmBanks = s.dimmBanks := rfl
@[simp] theorem State.setRf_damsons (s : State) (off hi lo v) : (s.setRf off hi lo v).damsons = s.damsons := rfl
@[simp] theorem State.setRf_channels (s : State) (off hi lo v) : (s.setRf off hi lo v).channels = s.channels := rfl
@[simp] theorem State.setRf_sync (s : State) (off hi lo v) : (s.setRf off hi lo v).sync = s.sync := rfl
@[simp] theorem State.setRf_fab (s : State) (off hi lo v) : (s.setRf off hi lo v).fab = s.fab := rfl
@[simp] theorem State.setRf_hif (s : State) (off hi lo v) : (s.setRf off hi lo v).hif = s.hif := rfl
@[simp] theorem State.setRf_power (s : State) (off hi lo v) : (s.setRf off hi lo v).power = s.power := rfl
@[simp] theorem State.setRf_board (s : State) (off hi lo v) : (s.setRf off hi lo v).board = s.board := rfl
@[simp] theorem State.setRf_ras (s : State) (off hi lo v) : (s.setRf off hi lo v).ras = s.ras := rfl
@[simp] theorem State.setRf_husk (s : State) (off hi lo v) : (s.setRf off hi lo v).husk = s.husk := rfl
@[simp] theorem State.setRf_sec (s : State) (off hi lo v) : (s.setRf off hi lo v).sec = s.sec := rfl

@[simp] theorem State.bump32_pending (s : State) (off n) : (s.bump32 off n).pending = s.pending := rfl
@[simp] theorem State.bump32_aon (s : State) (off n) : (s.bump32 off n).aon = s.aon := rfl
@[simp] theorem State.bump32_fresh (s : State) (off n) : (s.bump32 off n).fresh = s.fresh := rfl
@[simp] theorem State.bump32_mem (s : State) (off n) : (s.bump32 off n).mem = s.mem := rfl
@[simp] theorem State.bump32_chk (s : State) (off n) : (s.bump32 off n).chk = s.chk := rfl
@[simp] theorem State.bump32_reported (s : State) (off n) : (s.bump32 off n).reported = s.reported := rfl
@[simp] theorem State.bump32_lines (s : State) (off n) : (s.bump32 off n).lines = s.lines := rfl
@[simp] theorem State.bump32_cores (s : State) (off n) : (s.bump32 off n).cores = s.cores := rfl
@[simp] theorem State.bump32_clusters (s : State) (off n) : (s.bump32 off n).clusters = s.clusters := rfl
@[simp] theorem State.bump32_mems (s : State) (off n) : (s.bump32 off n).mems = s.mems := rfl
@[simp] theorem State.bump32_tlbInv (s : State) (off n) : (s.bump32 off n).tlbInv = s.tlbInv := rfl
@[simp] theorem State.bump32_flits (s : State) (off n) : (s.bump32 off n).flits = s.flits := rfl
@[simp] theorem State.bump32_lostFlits (s : State) (off n) : (s.bump32 off n).lostFlits = s.lostFlits := rfl
@[simp] theorem State.bump32_dimmGib (s : State) (off n) : (s.bump32 off n).dimmGib = s.dimmGib := rfl
@[simp] theorem State.bump32_dimmBanks (s : State) (off n) : (s.bump32 off n).dimmBanks = s.dimmBanks := rfl
@[simp] theorem State.bump32_damsons (s : State) (off n) : (s.bump32 off n).damsons = s.damsons := rfl
@[simp] theorem State.bump32_channels (s : State) (off n) : (s.bump32 off n).channels = s.channels := rfl
@[simp] theorem State.bump32_sync (s : State) (off n) : (s.bump32 off n).sync = s.sync := rfl
@[simp] theorem State.bump32_fab (s : State) (off n) : (s.bump32 off n).fab = s.fab := rfl
@[simp] theorem State.bump32_hif (s : State) (off n) : (s.bump32 off n).hif = s.hif := rfl
@[simp] theorem State.bump32_power (s : State) (off n) : (s.bump32 off n).power = s.power := rfl
@[simp] theorem State.bump32_board (s : State) (off n) : (s.bump32 off n).board = s.board := rfl
@[simp] theorem State.bump32_ras (s : State) (off n) : (s.bump32 off n).ras = s.ras := rfl
@[simp] theorem State.bump32_husk (s : State) (off n) : (s.bump32 off n).husk = s.husk := rfl
@[simp] theorem State.bump32_sec (s : State) (off n) : (s.bump32 off n).sec = s.sec := rfl

@[simp] theorem State.bumpHalf_pending (s : State) (off lo n) : (s.bumpHalf off lo n).pending = s.pending := rfl
@[simp] theorem State.bumpHalf_aon (s : State) (off lo n) : (s.bumpHalf off lo n).aon = s.aon := rfl
@[simp] theorem State.bumpHalf_fresh (s : State) (off lo n) : (s.bumpHalf off lo n).fresh = s.fresh := rfl
@[simp] theorem State.bumpHalf_mem (s : State) (off lo n) : (s.bumpHalf off lo n).mem = s.mem := rfl
@[simp] theorem State.bumpHalf_chk (s : State) (off lo n) : (s.bumpHalf off lo n).chk = s.chk := rfl
@[simp] theorem State.bumpHalf_reported (s : State) (off lo n) : (s.bumpHalf off lo n).reported = s.reported := rfl
@[simp] theorem State.bumpHalf_lines (s : State) (off lo n) : (s.bumpHalf off lo n).lines = s.lines := rfl
@[simp] theorem State.bumpHalf_cores (s : State) (off lo n) : (s.bumpHalf off lo n).cores = s.cores := rfl
@[simp] theorem State.bumpHalf_clusters (s : State) (off lo n) : (s.bumpHalf off lo n).clusters = s.clusters := rfl
@[simp] theorem State.bumpHalf_mems (s : State) (off lo n) : (s.bumpHalf off lo n).mems = s.mems := rfl
@[simp] theorem State.bumpHalf_tlbInv (s : State) (off lo n) : (s.bumpHalf off lo n).tlbInv = s.tlbInv := rfl
@[simp] theorem State.bumpHalf_flits (s : State) (off lo n) : (s.bumpHalf off lo n).flits = s.flits := rfl
@[simp] theorem State.bumpHalf_lostFlits (s : State) (off lo n) : (s.bumpHalf off lo n).lostFlits = s.lostFlits := rfl
@[simp] theorem State.bumpHalf_dimmGib (s : State) (off lo n) : (s.bumpHalf off lo n).dimmGib = s.dimmGib := rfl
@[simp] theorem State.bumpHalf_dimmBanks (s : State) (off lo n) : (s.bumpHalf off lo n).dimmBanks = s.dimmBanks := rfl
@[simp] theorem State.bumpHalf_damsons (s : State) (off lo n) : (s.bumpHalf off lo n).damsons = s.damsons := rfl
@[simp] theorem State.bumpHalf_channels (s : State) (off lo n) : (s.bumpHalf off lo n).channels = s.channels := rfl
@[simp] theorem State.bumpHalf_sync (s : State) (off lo n) : (s.bumpHalf off lo n).sync = s.sync := rfl
@[simp] theorem State.bumpHalf_fab (s : State) (off lo n) : (s.bumpHalf off lo n).fab = s.fab := rfl
@[simp] theorem State.bumpHalf_hif (s : State) (off lo n) : (s.bumpHalf off lo n).hif = s.hif := rfl
@[simp] theorem State.bumpHalf_power (s : State) (off lo n) : (s.bumpHalf off lo n).power = s.power := rfl
@[simp] theorem State.bumpHalf_board (s : State) (off lo n) : (s.bumpHalf off lo n).board = s.board := rfl
@[simp] theorem State.bumpHalf_ras (s : State) (off lo n) : (s.bumpHalf off lo n).ras = s.ras := rfl
@[simp] theorem State.bumpHalf_husk (s : State) (off lo n) : (s.bumpHalf off lo n).husk = s.husk := rfl
@[simp] theorem State.bumpHalf_sec (s : State) (off lo n) : (s.bumpHalf off lo n).sec = s.sec := rfl

@[simp] theorem State.setEvq_pending (s : State) (q x) : (s.setEvq q x).pending = s.pending := rfl
@[simp] theorem State.setEvq_aon (s : State) (q x) : (s.setEvq q x).aon = s.aon := rfl
@[simp] theorem State.setEvq_fresh (s : State) (q x) : (s.setEvq q x).fresh = s.fresh := rfl
@[simp] theorem State.setEvq_mem (s : State) (q x) : (s.setEvq q x).mem = s.mem := rfl
@[simp] theorem State.setEvq_chk (s : State) (q x) : (s.setEvq q x).chk = s.chk := rfl
@[simp] theorem State.setEvq_reported (s : State) (q x) : (s.setEvq q x).reported = s.reported := rfl
@[simp] theorem State.setEvq_lines (s : State) (q x) : (s.setEvq q x).lines = s.lines := rfl
@[simp] theorem State.setEvq_regs (s : State) (q x) : (s.setEvq q x).regs = s.regs := rfl
@[simp] theorem State.setEvq_cores (s : State) (q x) : (s.setEvq q x).cores = s.cores := rfl
@[simp] theorem State.setEvq_clusters (s : State) (q x) : (s.setEvq q x).clusters = s.clusters := rfl
@[simp] theorem State.setEvq_mems (s : State) (q x) : (s.setEvq q x).mems = s.mems := rfl
@[simp] theorem State.setEvq_tlbInv (s : State) (q x) : (s.setEvq q x).tlbInv = s.tlbInv := rfl
@[simp] theorem State.setEvq_flits (s : State) (q x) : (s.setEvq q x).flits = s.flits := rfl
@[simp] theorem State.setEvq_lostFlits (s : State) (q x) : (s.setEvq q x).lostFlits = s.lostFlits := rfl
@[simp] theorem State.setEvq_dimmGib (s : State) (q x) : (s.setEvq q x).dimmGib = s.dimmGib := rfl
@[simp] theorem State.setEvq_dimmBanks (s : State) (q x) : (s.setEvq q x).dimmBanks = s.dimmBanks := rfl
@[simp] theorem State.setEvq_damsons (s : State) (q x) : (s.setEvq q x).damsons = s.damsons := rfl
@[simp] theorem State.setEvq_channels (s : State) (q x) : (s.setEvq q x).channels = s.channels := rfl
@[simp] theorem State.setEvq_sync (s : State) (q x) : (s.setEvq q x).sync = s.sync := rfl
@[simp] theorem State.setEvq_fab (s : State) (q x) : (s.setEvq q x).fab = s.fab := rfl
@[simp] theorem State.setEvq_power (s : State) (q x) : (s.setEvq q x).power = s.power := rfl
@[simp] theorem State.setEvq_board (s : State) (q x) : (s.setEvq q x).board = s.board := rfl
@[simp] theorem State.setEvq_ras (s : State) (q x) : (s.setEvq q x).ras = s.ras := rfl
@[simp] theorem State.setEvq_husk (s : State) (q x) : (s.setEvq q x).husk = s.husk := rfl
@[simp] theorem State.setEvq_sec (s : State) (q x) : (s.setEvq q x).sec = s.sec := rfl

@[simp] theorem State.dropEv_pending (s : State) (q n) : (s.dropEv q n).pending = s.pending := rfl
@[simp] theorem State.dropEv_aon (s : State) (q n) : (s.dropEv q n).aon = s.aon := rfl
@[simp] theorem State.dropEv_fresh (s : State) (q n) : (s.dropEv q n).fresh = s.fresh := rfl
@[simp] theorem State.dropEv_mem (s : State) (q n) : (s.dropEv q n).mem = s.mem := rfl
@[simp] theorem State.dropEv_chk (s : State) (q n) : (s.dropEv q n).chk = s.chk := rfl
@[simp] theorem State.dropEv_reported (s : State) (q n) : (s.dropEv q n).reported = s.reported := rfl
@[simp] theorem State.dropEv_lines (s : State) (q n) : (s.dropEv q n).lines = s.lines := rfl
@[simp] theorem State.dropEv_cores (s : State) (q n) : (s.dropEv q n).cores = s.cores := rfl
@[simp] theorem State.dropEv_clusters (s : State) (q n) : (s.dropEv q n).clusters = s.clusters := rfl
@[simp] theorem State.dropEv_mems (s : State) (q n) : (s.dropEv q n).mems = s.mems := rfl
@[simp] theorem State.dropEv_tlbInv (s : State) (q n) : (s.dropEv q n).tlbInv = s.tlbInv := rfl
@[simp] theorem State.dropEv_flits (s : State) (q n) : (s.dropEv q n).flits = s.flits := rfl
@[simp] theorem State.dropEv_lostFlits (s : State) (q n) : (s.dropEv q n).lostFlits = s.lostFlits := rfl
@[simp] theorem State.dropEv_dimmGib (s : State) (q n) : (s.dropEv q n).dimmGib = s.dimmGib := rfl
@[simp] theorem State.dropEv_dimmBanks (s : State) (q n) : (s.dropEv q n).dimmBanks = s.dimmBanks := rfl
@[simp] theorem State.dropEv_damsons (s : State) (q n) : (s.dropEv q n).damsons = s.damsons := rfl
@[simp] theorem State.dropEv_channels (s : State) (q n) : (s.dropEv q n).channels = s.channels := rfl
@[simp] theorem State.dropEv_sync (s : State) (q n) : (s.dropEv q n).sync = s.sync := rfl
@[simp] theorem State.dropEv_fab (s : State) (q n) : (s.dropEv q n).fab = s.fab := rfl
@[simp] theorem State.dropEv_hif (s : State) (q n) : (s.dropEv q n).hif = s.hif := rfl
@[simp] theorem State.dropEv_power (s : State) (q n) : (s.dropEv q n).power = s.power := rfl
@[simp] theorem State.dropEv_board (s : State) (q n) : (s.dropEv q n).board = s.board := rfl
@[simp] theorem State.dropEv_ras (s : State) (q n) : (s.dropEv q n).ras = s.ras := rfl
@[simp] theorem State.dropEv_husk (s : State) (q n) : (s.dropEv q n).husk = s.husk := rfl
@[simp] theorem State.dropEv_sec (s : State) (q n) : (s.dropEv q n).sec = s.sec := rfl

@[simp] theorem State.lostEv_pending (s : State) (q e) : (s.lostEv q e).pending = s.pending := rfl
@[simp] theorem State.lostEv_aon (s : State) (q e) : (s.lostEv q e).aon = s.aon := rfl
@[simp] theorem State.lostEv_fresh (s : State) (q e) : (s.lostEv q e).fresh = s.fresh := rfl
@[simp] theorem State.lostEv_mem (s : State) (q e) : (s.lostEv q e).mem = s.mem := rfl
@[simp] theorem State.lostEv_chk (s : State) (q e) : (s.lostEv q e).chk = s.chk := rfl
@[simp] theorem State.lostEv_reported (s : State) (q e) : (s.lostEv q e).reported = s.reported := rfl
@[simp] theorem State.lostEv_lines (s : State) (q e) : (s.lostEv q e).lines = s.lines := rfl
@[simp] theorem State.lostEv_cores (s : State) (q e) : (s.lostEv q e).cores = s.cores := rfl
@[simp] theorem State.lostEv_clusters (s : State) (q e) : (s.lostEv q e).clusters = s.clusters := rfl
@[simp] theorem State.lostEv_mems (s : State) (q e) : (s.lostEv q e).mems = s.mems := rfl
@[simp] theorem State.lostEv_tlbInv (s : State) (q e) : (s.lostEv q e).tlbInv = s.tlbInv := rfl
@[simp] theorem State.lostEv_flits (s : State) (q e) : (s.lostEv q e).flits = s.flits := rfl
@[simp] theorem State.lostEv_lostFlits (s : State) (q e) : (s.lostEv q e).lostFlits = s.lostFlits := rfl
@[simp] theorem State.lostEv_dimmGib (s : State) (q e) : (s.lostEv q e).dimmGib = s.dimmGib := rfl
@[simp] theorem State.lostEv_dimmBanks (s : State) (q e) : (s.lostEv q e).dimmBanks = s.dimmBanks := rfl
@[simp] theorem State.lostEv_damsons (s : State) (q e) : (s.lostEv q e).damsons = s.damsons := rfl
@[simp] theorem State.lostEv_channels (s : State) (q e) : (s.lostEv q e).channels = s.channels := rfl
@[simp] theorem State.lostEv_sync (s : State) (q e) : (s.lostEv q e).sync = s.sync := rfl
@[simp] theorem State.lostEv_fab (s : State) (q e) : (s.lostEv q e).fab = s.fab := rfl
@[simp] theorem State.lostEv_power (s : State) (q e) : (s.lostEv q e).power = s.power := rfl
@[simp] theorem State.lostEv_board (s : State) (q e) : (s.lostEv q e).board = s.board := rfl
@[simp] theorem State.lostEv_ras (s : State) (q e) : (s.lostEv q e).ras = s.ras := rfl
@[simp] theorem State.lostEv_husk (s : State) (q e) : (s.lostEv q e).husk = s.husk := rfl
@[simp] theorem State.lostEv_sec (s : State) (q e) : (s.lostEv q e).sec = s.sec := rfl

@[simp] theorem State.setRing_pending (s : State) (f r x) : (s.setRing f r x).pending = s.pending := rfl
@[simp] theorem State.setRing_aon (s : State) (f r x) : (s.setRing f r x).aon = s.aon := rfl
@[simp] theorem State.setRing_fresh (s : State) (f r x) : (s.setRing f r x).fresh = s.fresh := rfl
@[simp] theorem State.setRing_mem (s : State) (f r x) : (s.setRing f r x).mem = s.mem := rfl
@[simp] theorem State.setRing_chk (s : State) (f r x) : (s.setRing f r x).chk = s.chk := rfl
@[simp] theorem State.setRing_reported (s : State) (f r x) : (s.setRing f r x).reported = s.reported := rfl
@[simp] theorem State.setRing_lines (s : State) (f r x) : (s.setRing f r x).lines = s.lines := rfl
@[simp] theorem State.setRing_regs (s : State) (f r x) : (s.setRing f r x).regs = s.regs := rfl
@[simp] theorem State.setRing_cores (s : State) (f r x) : (s.setRing f r x).cores = s.cores := rfl
@[simp] theorem State.setRing_clusters (s : State) (f r x) : (s.setRing f r x).clusters = s.clusters := rfl
@[simp] theorem State.setRing_mems (s : State) (f r x) : (s.setRing f r x).mems = s.mems := rfl
@[simp] theorem State.setRing_tlbInv (s : State) (f r x) : (s.setRing f r x).tlbInv = s.tlbInv := rfl
@[simp] theorem State.setRing_flits (s : State) (f r x) : (s.setRing f r x).flits = s.flits := rfl
@[simp] theorem State.setRing_lostFlits (s : State) (f r x) : (s.setRing f r x).lostFlits = s.lostFlits := rfl
@[simp] theorem State.setRing_dimmGib (s : State) (f r x) : (s.setRing f r x).dimmGib = s.dimmGib := rfl
@[simp] theorem State.setRing_dimmBanks (s : State) (f r x) : (s.setRing f r x).dimmBanks = s.dimmBanks := rfl
@[simp] theorem State.setRing_damsons (s : State) (f r x) : (s.setRing f r x).damsons = s.damsons := rfl
@[simp] theorem State.setRing_channels (s : State) (f r x) : (s.setRing f r x).channels = s.channels := rfl
@[simp] theorem State.setRing_sync (s : State) (f r x) : (s.setRing f r x).sync = s.sync := rfl
@[simp] theorem State.setRing_fab (s : State) (f r x) : (s.setRing f r x).fab = s.fab := rfl
@[simp] theorem State.setRing_power (s : State) (f r x) : (s.setRing f r x).power = s.power := rfl
@[simp] theorem State.setRing_board (s : State) (f r x) : (s.setRing f r x).board = s.board := rfl
@[simp] theorem State.setRing_ras (s : State) (f r x) : (s.setRing f r x).ras = s.ras := rfl
@[simp] theorem State.setRing_husk (s : State) (f r x) : (s.setRing f r x).husk = s.husk := rfl
@[simp] theorem State.setRing_sec (s : State) (f r x) : (s.setRing f r x).sec = s.sec := rfl

@[simp] theorem State.detachPreempts_pending (s : State) (f r) : (s.detachPreempts f r).pending = s.pending := rfl
@[simp] theorem State.detachPreempts_aon (s : State) (f r) : (s.detachPreempts f r).aon = s.aon := rfl
@[simp] theorem State.detachPreempts_fresh (s : State) (f r) : (s.detachPreempts f r).fresh = s.fresh := rfl
@[simp] theorem State.detachPreempts_mem (s : State) (f r) : (s.detachPreempts f r).mem = s.mem := rfl
@[simp] theorem State.detachPreempts_chk (s : State) (f r) : (s.detachPreempts f r).chk = s.chk := rfl
@[simp] theorem State.detachPreempts_reported (s : State) (f r) : (s.detachPreempts f r).reported = s.reported := rfl
@[simp] theorem State.detachPreempts_lines (s : State) (f r) : (s.detachPreempts f r).lines = s.lines := rfl
@[simp] theorem State.detachPreempts_regs (s : State) (f r) : (s.detachPreempts f r).regs = s.regs := rfl
@[simp] theorem State.detachPreempts_cores (s : State) (f r) : (s.detachPreempts f r).cores = s.cores := rfl
@[simp] theorem State.detachPreempts_clusters (s : State) (f r) : (s.detachPreempts f r).clusters = s.clusters := rfl
@[simp] theorem State.detachPreempts_mems (s : State) (f r) : (s.detachPreempts f r).mems = s.mems := rfl
@[simp] theorem State.detachPreempts_tlbInv (s : State) (f r) : (s.detachPreempts f r).tlbInv = s.tlbInv := rfl
@[simp] theorem State.detachPreempts_flits (s : State) (f r) : (s.detachPreempts f r).flits = s.flits := rfl
@[simp] theorem State.detachPreempts_lostFlits (s : State) (f r) : (s.detachPreempts f r).lostFlits = s.lostFlits := rfl
@[simp] theorem State.detachPreempts_dimmGib (s : State) (f r) : (s.detachPreempts f r).dimmGib = s.dimmGib := rfl
@[simp] theorem State.detachPreempts_dimmBanks (s : State) (f r) : (s.detachPreempts f r).dimmBanks = s.dimmBanks := rfl
@[simp] theorem State.detachPreempts_damsons (s : State) (f r) : (s.detachPreempts f r).damsons = s.damsons := rfl
@[simp] theorem State.detachPreempts_channels (s : State) (f r) : (s.detachPreempts f r).channels = s.channels := rfl
@[simp] theorem State.detachPreempts_sync (s : State) (f r) : (s.detachPreempts f r).sync = s.sync := rfl
@[simp] theorem State.detachPreempts_fab (s : State) (f r) : (s.detachPreempts f r).fab = s.fab := rfl
@[simp] theorem State.detachPreempts_power (s : State) (f r) : (s.detachPreempts f r).power = s.power := rfl
@[simp] theorem State.detachPreempts_board (s : State) (f r) : (s.detachPreempts f r).board = s.board := rfl
@[simp] theorem State.detachPreempts_ras (s : State) (f r) : (s.detachPreempts f r).ras = s.ras := rfl
@[simp] theorem State.detachPreempts_husk (s : State) (f r) : (s.detachPreempts f r).husk = s.husk := rfl
@[simp] theorem State.detachPreempts_sec (s : State) (f r) : (s.detachPreempts f r).sec = s.sec := rfl

@[simp] theorem State.setCluster_pending (s : State) (k x) : (s.setCluster k x).pending = s.pending := rfl
@[simp] theorem State.setCluster_aon (s : State) (k x) : (s.setCluster k x).aon = s.aon := rfl
@[simp] theorem State.setCluster_fresh (s : State) (k x) : (s.setCluster k x).fresh = s.fresh := rfl
@[simp] theorem State.setCluster_mem (s : State) (k x) : (s.setCluster k x).mem = s.mem := rfl
@[simp] theorem State.setCluster_chk (s : State) (k x) : (s.setCluster k x).chk = s.chk := rfl
@[simp] theorem State.setCluster_reported (s : State) (k x) : (s.setCluster k x).reported = s.reported := rfl
@[simp] theorem State.setCluster_lines (s : State) (k x) : (s.setCluster k x).lines = s.lines := rfl
@[simp] theorem State.setCluster_regs (s : State) (k x) : (s.setCluster k x).regs = s.regs := rfl
@[simp] theorem State.setCluster_cores (s : State) (k x) : (s.setCluster k x).cores = s.cores := rfl
@[simp] theorem State.setCluster_mems (s : State) (k x) : (s.setCluster k x).mems = s.mems := rfl
@[simp] theorem State.setCluster_tlbInv (s : State) (k x) : (s.setCluster k x).tlbInv = s.tlbInv := rfl
@[simp] theorem State.setCluster_flits (s : State) (k x) : (s.setCluster k x).flits = s.flits := rfl
@[simp] theorem State.setCluster_lostFlits (s : State) (k x) : (s.setCluster k x).lostFlits = s.lostFlits := rfl
@[simp] theorem State.setCluster_dimmGib (s : State) (k x) : (s.setCluster k x).dimmGib = s.dimmGib := rfl
@[simp] theorem State.setCluster_dimmBanks (s : State) (k x) : (s.setCluster k x).dimmBanks = s.dimmBanks := rfl
@[simp] theorem State.setCluster_damsons (s : State) (k x) : (s.setCluster k x).damsons = s.damsons := rfl
@[simp] theorem State.setCluster_channels (s : State) (k x) : (s.setCluster k x).channels = s.channels := rfl
@[simp] theorem State.setCluster_sync (s : State) (k x) : (s.setCluster k x).sync = s.sync := rfl
@[simp] theorem State.setCluster_fab (s : State) (k x) : (s.setCluster k x).fab = s.fab := rfl
@[simp] theorem State.setCluster_hif (s : State) (k x) : (s.setCluster k x).hif = s.hif := rfl
@[simp] theorem State.setCluster_power (s : State) (k x) : (s.setCluster k x).power = s.power := rfl
@[simp] theorem State.setCluster_board (s : State) (k x) : (s.setCluster k x).board = s.board := rfl
@[simp] theorem State.setCluster_ras (s : State) (k x) : (s.setCluster k x).ras = s.ras := rfl
@[simp] theorem State.setCluster_husk (s : State) (k x) : (s.setCluster k x).husk = s.husk := rfl
@[simp] theorem State.setCluster_sec (s : State) (k x) : (s.setCluster k x).sec = s.sec := rfl

@[simp] theorem State.setMem_pending (s : State) (m x) : (s.setMem m x).pending = s.pending := rfl
@[simp] theorem State.setMem_aon (s : State) (m x) : (s.setMem m x).aon = s.aon := rfl
@[simp] theorem State.setMem_fresh (s : State) (m x) : (s.setMem m x).fresh = s.fresh := rfl
@[simp] theorem State.setMem_mem (s : State) (m x) : (s.setMem m x).mem = s.mem := rfl
@[simp] theorem State.setMem_chk (s : State) (m x) : (s.setMem m x).chk = s.chk := rfl
@[simp] theorem State.setMem_reported (s : State) (m x) : (s.setMem m x).reported = s.reported := rfl
@[simp] theorem State.setMem_lines (s : State) (m x) : (s.setMem m x).lines = s.lines := rfl
@[simp] theorem State.setMem_regs (s : State) (m x) : (s.setMem m x).regs = s.regs := rfl
@[simp] theorem State.setMem_cores (s : State) (m x) : (s.setMem m x).cores = s.cores := rfl
@[simp] theorem State.setMem_clusters (s : State) (m x) : (s.setMem m x).clusters = s.clusters := rfl
@[simp] theorem State.setMem_tlbInv (s : State) (m x) : (s.setMem m x).tlbInv = s.tlbInv := rfl
@[simp] theorem State.setMem_flits (s : State) (m x) : (s.setMem m x).flits = s.flits := rfl
@[simp] theorem State.setMem_lostFlits (s : State) (m x) : (s.setMem m x).lostFlits = s.lostFlits := rfl
@[simp] theorem State.setMem_dimmGib (s : State) (m x) : (s.setMem m x).dimmGib = s.dimmGib := rfl
@[simp] theorem State.setMem_dimmBanks (s : State) (m x) : (s.setMem m x).dimmBanks = s.dimmBanks := rfl
@[simp] theorem State.setMem_damsons (s : State) (m x) : (s.setMem m x).damsons = s.damsons := rfl
@[simp] theorem State.setMem_channels (s : State) (m x) : (s.setMem m x).channels = s.channels := rfl
@[simp] theorem State.setMem_sync (s : State) (m x) : (s.setMem m x).sync = s.sync := rfl
@[simp] theorem State.setMem_fab (s : State) (m x) : (s.setMem m x).fab = s.fab := rfl
@[simp] theorem State.setMem_hif (s : State) (m x) : (s.setMem m x).hif = s.hif := rfl
@[simp] theorem State.setMem_power (s : State) (m x) : (s.setMem m x).power = s.power := rfl
@[simp] theorem State.setMem_board (s : State) (m x) : (s.setMem m x).board = s.board := rfl
@[simp] theorem State.setMem_ras (s : State) (m x) : (s.setMem m x).ras = s.ras := rfl
@[simp] theorem State.setMem_husk (s : State) (m x) : (s.setMem m x).husk = s.husk := rfl
@[simp] theorem State.setMem_sec (s : State) (m x) : (s.setMem m x).sec = s.sec := rfl

@[simp] theorem State.setLine_pending (s : State) (l x) : (s.setLine l x).pending = s.pending := rfl
@[simp] theorem State.setLine_aon (s : State) (l x) : (s.setLine l x).aon = s.aon := rfl
@[simp] theorem State.setLine_fresh (s : State) (l x) : (s.setLine l x).fresh = s.fresh := rfl
@[simp] theorem State.setLine_mem (s : State) (l x) : (s.setLine l x).mem = s.mem := rfl
@[simp] theorem State.setLine_chk (s : State) (l x) : (s.setLine l x).chk = s.chk := rfl
@[simp] theorem State.setLine_reported (s : State) (l x) : (s.setLine l x).reported = s.reported := rfl
@[simp] theorem State.setLine_regs (s : State) (l x) : (s.setLine l x).regs = s.regs := rfl
@[simp] theorem State.setLine_cores (s : State) (l x) : (s.setLine l x).cores = s.cores := rfl
@[simp] theorem State.setLine_clusters (s : State) (l x) : (s.setLine l x).clusters = s.clusters := rfl
@[simp] theorem State.setLine_mems (s : State) (l x) : (s.setLine l x).mems = s.mems := rfl
@[simp] theorem State.setLine_tlbInv (s : State) (l x) : (s.setLine l x).tlbInv = s.tlbInv := rfl
@[simp] theorem State.setLine_flits (s : State) (l x) : (s.setLine l x).flits = s.flits := rfl
@[simp] theorem State.setLine_lostFlits (s : State) (l x) : (s.setLine l x).lostFlits = s.lostFlits := rfl
@[simp] theorem State.setLine_dimmGib (s : State) (l x) : (s.setLine l x).dimmGib = s.dimmGib := rfl
@[simp] theorem State.setLine_dimmBanks (s : State) (l x) : (s.setLine l x).dimmBanks = s.dimmBanks := rfl
@[simp] theorem State.setLine_damsons (s : State) (l x) : (s.setLine l x).damsons = s.damsons := rfl
@[simp] theorem State.setLine_channels (s : State) (l x) : (s.setLine l x).channels = s.channels := rfl
@[simp] theorem State.setLine_sync (s : State) (l x) : (s.setLine l x).sync = s.sync := rfl
@[simp] theorem State.setLine_fab (s : State) (l x) : (s.setLine l x).fab = s.fab := rfl
@[simp] theorem State.setLine_hif (s : State) (l x) : (s.setLine l x).hif = s.hif := rfl
@[simp] theorem State.setLine_power (s : State) (l x) : (s.setLine l x).power = s.power := rfl
@[simp] theorem State.setLine_board (s : State) (l x) : (s.setLine l x).board = s.board := rfl
@[simp] theorem State.setLine_ras (s : State) (l x) : (s.setLine l x).ras = s.ras := rfl
@[simp] theorem State.setLine_husk (s : State) (l x) : (s.setLine l x).husk = s.husk := rfl
@[simp] theorem State.setLine_sec (s : State) (l x) : (s.setLine l x).sec = s.sec := rfl

@[simp] theorem State.setDam_pending (s : State) (k x) : (s.setDam k x).pending = s.pending := rfl
@[simp] theorem State.setDam_aon (s : State) (k x) : (s.setDam k x).aon = s.aon := rfl
@[simp] theorem State.setDam_fresh (s : State) (k x) : (s.setDam k x).fresh = s.fresh := rfl
@[simp] theorem State.setDam_mem (s : State) (k x) : (s.setDam k x).mem = s.mem := rfl
@[simp] theorem State.setDam_chk (s : State) (k x) : (s.setDam k x).chk = s.chk := rfl
@[simp] theorem State.setDam_reported (s : State) (k x) : (s.setDam k x).reported = s.reported := rfl
@[simp] theorem State.setDam_lines (s : State) (k x) : (s.setDam k x).lines = s.lines := rfl
@[simp] theorem State.setDam_regs (s : State) (k x) : (s.setDam k x).regs = s.regs := rfl
@[simp] theorem State.setDam_cores (s : State) (k x) : (s.setDam k x).cores = s.cores := rfl
@[simp] theorem State.setDam_clusters (s : State) (k x) : (s.setDam k x).clusters = s.clusters := rfl
@[simp] theorem State.setDam_mems (s : State) (k x) : (s.setDam k x).mems = s.mems := rfl
@[simp] theorem State.setDam_tlbInv (s : State) (k x) : (s.setDam k x).tlbInv = s.tlbInv := rfl
@[simp] theorem State.setDam_flits (s : State) (k x) : (s.setDam k x).flits = s.flits := rfl
@[simp] theorem State.setDam_lostFlits (s : State) (k x) : (s.setDam k x).lostFlits = s.lostFlits := rfl
@[simp] theorem State.setDam_dimmGib (s : State) (k x) : (s.setDam k x).dimmGib = s.dimmGib := rfl
@[simp] theorem State.setDam_dimmBanks (s : State) (k x) : (s.setDam k x).dimmBanks = s.dimmBanks := rfl
@[simp] theorem State.setDam_channels (s : State) (k x) : (s.setDam k x).channels = s.channels := rfl
@[simp] theorem State.setDam_sync (s : State) (k x) : (s.setDam k x).sync = s.sync := rfl
@[simp] theorem State.setDam_fab (s : State) (k x) : (s.setDam k x).fab = s.fab := rfl
@[simp] theorem State.setDam_hif (s : State) (k x) : (s.setDam k x).hif = s.hif := rfl
@[simp] theorem State.setDam_power (s : State) (k x) : (s.setDam k x).power = s.power := rfl
@[simp] theorem State.setDam_board (s : State) (k x) : (s.setDam k x).board = s.board := rfl
@[simp] theorem State.setDam_ras (s : State) (k x) : (s.setDam k x).ras = s.ras := rfl
@[simp] theorem State.setDam_husk (s : State) (k x) : (s.setDam k x).husk = s.husk := rfl
@[simp] theorem State.setDam_sec (s : State) (k x) : (s.setDam k x).sec = s.sec := rfl

@[simp] theorem State.setChan_pending (s : State) (ch x) : (s.setChan ch x).pending = s.pending := rfl
@[simp] theorem State.setChan_aon (s : State) (ch x) : (s.setChan ch x).aon = s.aon := rfl
@[simp] theorem State.setChan_fresh (s : State) (ch x) : (s.setChan ch x).fresh = s.fresh := rfl
@[simp] theorem State.setChan_mem (s : State) (ch x) : (s.setChan ch x).mem = s.mem := rfl
@[simp] theorem State.setChan_chk (s : State) (ch x) : (s.setChan ch x).chk = s.chk := rfl
@[simp] theorem State.setChan_reported (s : State) (ch x) : (s.setChan ch x).reported = s.reported := rfl
@[simp] theorem State.setChan_lines (s : State) (ch x) : (s.setChan ch x).lines = s.lines := rfl
@[simp] theorem State.setChan_regs (s : State) (ch x) : (s.setChan ch x).regs = s.regs := rfl
@[simp] theorem State.setChan_cores (s : State) (ch x) : (s.setChan ch x).cores = s.cores := rfl
@[simp] theorem State.setChan_clusters (s : State) (ch x) : (s.setChan ch x).clusters = s.clusters := rfl
@[simp] theorem State.setChan_mems (s : State) (ch x) : (s.setChan ch x).mems = s.mems := rfl
@[simp] theorem State.setChan_tlbInv (s : State) (ch x) : (s.setChan ch x).tlbInv = s.tlbInv := rfl
@[simp] theorem State.setChan_flits (s : State) (ch x) : (s.setChan ch x).flits = s.flits := rfl
@[simp] theorem State.setChan_lostFlits (s : State) (ch x) : (s.setChan ch x).lostFlits = s.lostFlits := rfl
@[simp] theorem State.setChan_dimmGib (s : State) (ch x) : (s.setChan ch x).dimmGib = s.dimmGib := rfl
@[simp] theorem State.setChan_dimmBanks (s : State) (ch x) : (s.setChan ch x).dimmBanks = s.dimmBanks := rfl
@[simp] theorem State.setChan_damsons (s : State) (ch x) : (s.setChan ch x).damsons = s.damsons := rfl
@[simp] theorem State.setChan_sync (s : State) (ch x) : (s.setChan ch x).sync = s.sync := rfl
@[simp] theorem State.setChan_fab (s : State) (ch x) : (s.setChan ch x).fab = s.fab := rfl
@[simp] theorem State.setChan_hif (s : State) (ch x) : (s.setChan ch x).hif = s.hif := rfl
@[simp] theorem State.setChan_power (s : State) (ch x) : (s.setChan ch x).power = s.power := rfl
@[simp] theorem State.setChan_board (s : State) (ch x) : (s.setChan ch x).board = s.board := rfl
@[simp] theorem State.setChan_ras (s : State) (ch x) : (s.setChan ch x).ras = s.ras := rfl
@[simp] theorem State.setChan_husk (s : State) (ch x) : (s.setChan ch x).husk = s.husk := rfl
@[simp] theorem State.setChan_sec (s : State) (ch x) : (s.setChan ch x).sec = s.sec := rfl

@[simp] theorem State.setEnt_pending (s : State) (i e) : (s.setEnt i e).pending = s.pending := rfl
@[simp] theorem State.setEnt_aon (s : State) (i e) : (s.setEnt i e).aon = s.aon := rfl
@[simp] theorem State.setEnt_fresh (s : State) (i e) : (s.setEnt i e).fresh = s.fresh := rfl
@[simp] theorem State.setEnt_mem (s : State) (i e) : (s.setEnt i e).mem = s.mem := rfl
@[simp] theorem State.setEnt_chk (s : State) (i e) : (s.setEnt i e).chk = s.chk := rfl
@[simp] theorem State.setEnt_reported (s : State) (i e) : (s.setEnt i e).reported = s.reported := rfl
@[simp] theorem State.setEnt_lines (s : State) (i e) : (s.setEnt i e).lines = s.lines := rfl
@[simp] theorem State.setEnt_regs (s : State) (i e) : (s.setEnt i e).regs = s.regs := rfl
@[simp] theorem State.setEnt_cores (s : State) (i e) : (s.setEnt i e).cores = s.cores := rfl
@[simp] theorem State.setEnt_clusters (s : State) (i e) : (s.setEnt i e).clusters = s.clusters := rfl
@[simp] theorem State.setEnt_mems (s : State) (i e) : (s.setEnt i e).mems = s.mems := rfl
@[simp] theorem State.setEnt_tlbInv (s : State) (i e) : (s.setEnt i e).tlbInv = s.tlbInv := rfl
@[simp] theorem State.setEnt_flits (s : State) (i e) : (s.setEnt i e).flits = s.flits := rfl
@[simp] theorem State.setEnt_lostFlits (s : State) (i e) : (s.setEnt i e).lostFlits = s.lostFlits := rfl
@[simp] theorem State.setEnt_dimmGib (s : State) (i e) : (s.setEnt i e).dimmGib = s.dimmGib := rfl
@[simp] theorem State.setEnt_dimmBanks (s : State) (i e) : (s.setEnt i e).dimmBanks = s.dimmBanks := rfl
@[simp] theorem State.setEnt_damsons (s : State) (i e) : (s.setEnt i e).damsons = s.damsons := rfl
@[simp] theorem State.setEnt_channels (s : State) (i e) : (s.setEnt i e).channels = s.channels := rfl
@[simp] theorem State.setEnt_fab (s : State) (i e) : (s.setEnt i e).fab = s.fab := rfl
@[simp] theorem State.setEnt_hif (s : State) (i e) : (s.setEnt i e).hif = s.hif := rfl
@[simp] theorem State.setEnt_power (s : State) (i e) : (s.setEnt i e).power = s.power := rfl
@[simp] theorem State.setEnt_board (s : State) (i e) : (s.setEnt i e).board = s.board := rfl
@[simp] theorem State.setEnt_ras (s : State) (i e) : (s.setEnt i e).ras = s.ras := rfl
@[simp] theorem State.setEnt_husk (s : State) (i e) : (s.setEnt i e).husk = s.husk := rfl
@[simp] theorem State.setEnt_sec (s : State) (i e) : (s.setEnt i e).sec = s.sec := rfl

@[simp] theorem State.setPort_pending (s : State) (h n p) : (s.setPort h n p).pending = s.pending := rfl
@[simp] theorem State.setPort_aon (s : State) (h n p) : (s.setPort h n p).aon = s.aon := rfl
@[simp] theorem State.setPort_fresh (s : State) (h n p) : (s.setPort h n p).fresh = s.fresh := rfl
@[simp] theorem State.setPort_mem (s : State) (h n p) : (s.setPort h n p).mem = s.mem := rfl
@[simp] theorem State.setPort_chk (s : State) (h n p) : (s.setPort h n p).chk = s.chk := rfl
@[simp] theorem State.setPort_reported (s : State) (h n p) : (s.setPort h n p).reported = s.reported := rfl
@[simp] theorem State.setPort_lines (s : State) (h n p) : (s.setPort h n p).lines = s.lines := rfl
@[simp] theorem State.setPort_regs (s : State) (h n p) : (s.setPort h n p).regs = s.regs := rfl
@[simp] theorem State.setPort_cores (s : State) (h n p) : (s.setPort h n p).cores = s.cores := rfl
@[simp] theorem State.setPort_clusters (s : State) (h n p) : (s.setPort h n p).clusters = s.clusters := rfl
@[simp] theorem State.setPort_mems (s : State) (h n p) : (s.setPort h n p).mems = s.mems := rfl
@[simp] theorem State.setPort_tlbInv (s : State) (h n p) : (s.setPort h n p).tlbInv = s.tlbInv := rfl
@[simp] theorem State.setPort_flits (s : State) (h n p) : (s.setPort h n p).flits = s.flits := rfl
@[simp] theorem State.setPort_lostFlits (s : State) (h n p) : (s.setPort h n p).lostFlits = s.lostFlits := rfl
@[simp] theorem State.setPort_dimmGib (s : State) (h n p) : (s.setPort h n p).dimmGib = s.dimmGib := rfl
@[simp] theorem State.setPort_dimmBanks (s : State) (h n p) : (s.setPort h n p).dimmBanks = s.dimmBanks := rfl
@[simp] theorem State.setPort_damsons (s : State) (h n p) : (s.setPort h n p).damsons = s.damsons := rfl
@[simp] theorem State.setPort_channels (s : State) (h n p) : (s.setPort h n p).channels = s.channels := rfl
@[simp] theorem State.setPort_fab (s : State) (h n p) : (s.setPort h n p).fab = s.fab := rfl
@[simp] theorem State.setPort_hif (s : State) (h n p) : (s.setPort h n p).hif = s.hif := rfl
@[simp] theorem State.setPort_power (s : State) (h n p) : (s.setPort h n p).power = s.power := rfl
@[simp] theorem State.setPort_board (s : State) (h n p) : (s.setPort h n p).board = s.board := rfl
@[simp] theorem State.setPort_ras (s : State) (h n p) : (s.setPort h n p).ras = s.ras := rfl
@[simp] theorem State.setPort_husk (s : State) (h n p) : (s.setPort h n p).husk = s.husk := rfl
@[simp] theorem State.setPort_sec (s : State) (h n p) : (s.setPort h n p).sec = s.sec := rfl

@[simp] theorem State.setFibre_pending (s : State) (f x) : (s.setFibre f x).pending = s.pending := rfl
@[simp] theorem State.setFibre_aon (s : State) (f x) : (s.setFibre f x).aon = s.aon := rfl
@[simp] theorem State.setFibre_fresh (s : State) (f x) : (s.setFibre f x).fresh = s.fresh := rfl
@[simp] theorem State.setFibre_mem (s : State) (f x) : (s.setFibre f x).mem = s.mem := rfl
@[simp] theorem State.setFibre_chk (s : State) (f x) : (s.setFibre f x).chk = s.chk := rfl
@[simp] theorem State.setFibre_reported (s : State) (f x) : (s.setFibre f x).reported = s.reported := rfl
@[simp] theorem State.setFibre_lines (s : State) (f x) : (s.setFibre f x).lines = s.lines := rfl
@[simp] theorem State.setFibre_regs (s : State) (f x) : (s.setFibre f x).regs = s.regs := rfl
@[simp] theorem State.setFibre_cores (s : State) (f x) : (s.setFibre f x).cores = s.cores := rfl
@[simp] theorem State.setFibre_clusters (s : State) (f x) : (s.setFibre f x).clusters = s.clusters := rfl
@[simp] theorem State.setFibre_mems (s : State) (f x) : (s.setFibre f x).mems = s.mems := rfl
@[simp] theorem State.setFibre_tlbInv (s : State) (f x) : (s.setFibre f x).tlbInv = s.tlbInv := rfl
@[simp] theorem State.setFibre_flits (s : State) (f x) : (s.setFibre f x).flits = s.flits := rfl
@[simp] theorem State.setFibre_lostFlits (s : State) (f x) : (s.setFibre f x).lostFlits = s.lostFlits := rfl
@[simp] theorem State.setFibre_dimmGib (s : State) (f x) : (s.setFibre f x).dimmGib = s.dimmGib := rfl
@[simp] theorem State.setFibre_dimmBanks (s : State) (f x) : (s.setFibre f x).dimmBanks = s.dimmBanks := rfl
@[simp] theorem State.setFibre_damsons (s : State) (f x) : (s.setFibre f x).damsons = s.damsons := rfl
@[simp] theorem State.setFibre_channels (s : State) (f x) : (s.setFibre f x).channels = s.channels := rfl
@[simp] theorem State.setFibre_sync (s : State) (f x) : (s.setFibre f x).sync = s.sync := rfl
@[simp] theorem State.setFibre_hif (s : State) (f x) : (s.setFibre f x).hif = s.hif := rfl
@[simp] theorem State.setFibre_power (s : State) (f x) : (s.setFibre f x).power = s.power := rfl
@[simp] theorem State.setFibre_board (s : State) (f x) : (s.setFibre f x).board = s.board := rfl
@[simp] theorem State.setFibre_ras (s : State) (f x) : (s.setFibre f x).ras = s.ras := rfl
@[simp] theorem State.setFibre_husk (s : State) (f x) : (s.setFibre f x).husk = s.husk := rfl
@[simp] theorem State.setFibre_sec (s : State) (f x) : (s.setFibre f x).sec = s.sec := rfl

@[simp] theorem State.inject_pending (s : State) (pk) : (s.inject pk).pending = s.pending := rfl
@[simp] theorem State.inject_aon (s : State) (pk) : (s.inject pk).aon = s.aon := rfl
@[simp] theorem State.inject_fresh (s : State) (pk) : (s.inject pk).fresh = s.fresh := rfl
@[simp] theorem State.inject_mem (s : State) (pk) : (s.inject pk).mem = s.mem := rfl
@[simp] theorem State.inject_chk (s : State) (pk) : (s.inject pk).chk = s.chk := rfl
@[simp] theorem State.inject_reported (s : State) (pk) : (s.inject pk).reported = s.reported := rfl
@[simp] theorem State.inject_lines (s : State) (pk) : (s.inject pk).lines = s.lines := rfl
@[simp] theorem State.inject_regs (s : State) (pk) : (s.inject pk).regs = s.regs := rfl
@[simp] theorem State.inject_cores (s : State) (pk) : (s.inject pk).cores = s.cores := rfl
@[simp] theorem State.inject_clusters (s : State) (pk) : (s.inject pk).clusters = s.clusters := rfl
@[simp] theorem State.inject_mems (s : State) (pk) : (s.inject pk).mems = s.mems := rfl
@[simp] theorem State.inject_tlbInv (s : State) (pk) : (s.inject pk).tlbInv = s.tlbInv := rfl
@[simp] theorem State.inject_flits (s : State) (pk) : (s.inject pk).flits = s.flits := rfl
@[simp] theorem State.inject_lostFlits (s : State) (pk) : (s.inject pk).lostFlits = s.lostFlits := rfl
@[simp] theorem State.inject_dimmGib (s : State) (pk) : (s.inject pk).dimmGib = s.dimmGib := rfl
@[simp] theorem State.inject_dimmBanks (s : State) (pk) : (s.inject pk).dimmBanks = s.dimmBanks := rfl
@[simp] theorem State.inject_damsons (s : State) (pk) : (s.inject pk).damsons = s.damsons := rfl
@[simp] theorem State.inject_channels (s : State) (pk) : (s.inject pk).channels = s.channels := rfl
@[simp] theorem State.inject_sync (s : State) (pk) : (s.inject pk).sync = s.sync := rfl
@[simp] theorem State.inject_hif (s : State) (pk) : (s.inject pk).hif = s.hif := rfl
@[simp] theorem State.inject_power (s : State) (pk) : (s.inject pk).power = s.power := rfl
@[simp] theorem State.inject_board (s : State) (pk) : (s.inject pk).board = s.board := rfl
@[simp] theorem State.inject_ras (s : State) (pk) : (s.inject pk).ras = s.ras := rfl
@[simp] theorem State.inject_husk (s : State) (pk) : (s.inject pk).husk = s.husk := rfl
@[simp] theorem State.inject_sec (s : State) (pk) : (s.inject pk).sec = s.sec := rfl

@[simp] theorem State.setMon_pending (s : State) (c e m) : (s.setMon c e m).pending = s.pending := rfl
@[simp] theorem State.setMon_aon (s : State) (c e m) : (s.setMon c e m).aon = s.aon := rfl
@[simp] theorem State.setMon_fresh (s : State) (c e m) : (s.setMon c e m).fresh = s.fresh := rfl
@[simp] theorem State.setMon_mem (s : State) (c e m) : (s.setMon c e m).mem = s.mem := rfl
@[simp] theorem State.setMon_chk (s : State) (c e m) : (s.setMon c e m).chk = s.chk := rfl
@[simp] theorem State.setMon_reported (s : State) (c e m) : (s.setMon c e m).reported = s.reported := rfl
@[simp] theorem State.setMon_lines (s : State) (c e m) : (s.setMon c e m).lines = s.lines := rfl
@[simp] theorem State.setMon_regs (s : State) (c e m) : (s.setMon c e m).regs = s.regs := rfl
@[simp] theorem State.setMon_clusters (s : State) (c e m) : (s.setMon c e m).clusters = s.clusters := rfl
@[simp] theorem State.setMon_mems (s : State) (c e m) : (s.setMon c e m).mems = s.mems := rfl
@[simp] theorem State.setMon_tlbInv (s : State) (c e m) : (s.setMon c e m).tlbInv = s.tlbInv := rfl
@[simp] theorem State.setMon_flits (s : State) (c e m) : (s.setMon c e m).flits = s.flits := rfl
@[simp] theorem State.setMon_lostFlits (s : State) (c e m) : (s.setMon c e m).lostFlits = s.lostFlits := rfl
@[simp] theorem State.setMon_dimmGib (s : State) (c e m) : (s.setMon c e m).dimmGib = s.dimmGib := rfl
@[simp] theorem State.setMon_dimmBanks (s : State) (c e m) : (s.setMon c e m).dimmBanks = s.dimmBanks := rfl
@[simp] theorem State.setMon_damsons (s : State) (c e m) : (s.setMon c e m).damsons = s.damsons := rfl
@[simp] theorem State.setMon_channels (s : State) (c e m) : (s.setMon c e m).channels = s.channels := rfl
@[simp] theorem State.setMon_sync (s : State) (c e m) : (s.setMon c e m).sync = s.sync := rfl
@[simp] theorem State.setMon_fab (s : State) (c e m) : (s.setMon c e m).fab = s.fab := rfl
@[simp] theorem State.setMon_hif (s : State) (c e m) : (s.setMon c e m).hif = s.hif := rfl
@[simp] theorem State.setMon_power (s : State) (c e m) : (s.setMon c e m).power = s.power := rfl
@[simp] theorem State.setMon_board (s : State) (c e m) : (s.setMon c e m).board = s.board := rfl
@[simp] theorem State.setMon_ras (s : State) (c e m) : (s.setMon c e m).ras = s.ras := rfl
@[simp] theorem State.setMon_husk (s : State) (c e m) : (s.setMon c e m).husk = s.husk := rfl
@[simp] theorem State.setMon_sec (s : State) (c e m) : (s.setMon c e m).sec = s.sec := rfl

@[simp] theorem State.setSpdm_pending (s : State) (x) : (s.setSpdm x).pending = s.pending := rfl
@[simp] theorem State.setSpdm_aon (s : State) (x) : (s.setSpdm x).aon = s.aon := rfl
@[simp] theorem State.setSpdm_fresh (s : State) (x) : (s.setSpdm x).fresh = s.fresh := rfl
@[simp] theorem State.setSpdm_mem (s : State) (x) : (s.setSpdm x).mem = s.mem := rfl
@[simp] theorem State.setSpdm_chk (s : State) (x) : (s.setSpdm x).chk = s.chk := rfl
@[simp] theorem State.setSpdm_reported (s : State) (x) : (s.setSpdm x).reported = s.reported := rfl
@[simp] theorem State.setSpdm_lines (s : State) (x) : (s.setSpdm x).lines = s.lines := rfl
@[simp] theorem State.setSpdm_regs (s : State) (x) : (s.setSpdm x).regs = s.regs := rfl
@[simp] theorem State.setSpdm_cores (s : State) (x) : (s.setSpdm x).cores = s.cores := rfl
@[simp] theorem State.setSpdm_clusters (s : State) (x) : (s.setSpdm x).clusters = s.clusters := rfl
@[simp] theorem State.setSpdm_mems (s : State) (x) : (s.setSpdm x).mems = s.mems := rfl
@[simp] theorem State.setSpdm_tlbInv (s : State) (x) : (s.setSpdm x).tlbInv = s.tlbInv := rfl
@[simp] theorem State.setSpdm_flits (s : State) (x) : (s.setSpdm x).flits = s.flits := rfl
@[simp] theorem State.setSpdm_lostFlits (s : State) (x) : (s.setSpdm x).lostFlits = s.lostFlits := rfl
@[simp] theorem State.setSpdm_dimmGib (s : State) (x) : (s.setSpdm x).dimmGib = s.dimmGib := rfl
@[simp] theorem State.setSpdm_dimmBanks (s : State) (x) : (s.setSpdm x).dimmBanks = s.dimmBanks := rfl
@[simp] theorem State.setSpdm_damsons (s : State) (x) : (s.setSpdm x).damsons = s.damsons := rfl
@[simp] theorem State.setSpdm_channels (s : State) (x) : (s.setSpdm x).channels = s.channels := rfl
@[simp] theorem State.setSpdm_sync (s : State) (x) : (s.setSpdm x).sync = s.sync := rfl
@[simp] theorem State.setSpdm_fab (s : State) (x) : (s.setSpdm x).fab = s.fab := rfl
@[simp] theorem State.setSpdm_hif (s : State) (x) : (s.setSpdm x).hif = s.hif := rfl
@[simp] theorem State.setSpdm_power (s : State) (x) : (s.setSpdm x).power = s.power := rfl
@[simp] theorem State.setSpdm_board (s : State) (x) : (s.setSpdm x).board = s.board := rfl
@[simp] theorem State.setSpdm_ras (s : State) (x) : (s.setSpdm x).ras = s.ras := rfl
@[simp] theorem State.setSpdm_husk (s : State) (x) : (s.setSpdm x).husk = s.husk := rfl

@[simp] theorem State.spdmReply_pending (s : State) (r) : (s.spdmReply r).pending = s.pending := rfl
@[simp] theorem State.spdmReply_aon (s : State) (r) : (s.spdmReply r).aon = s.aon := rfl
@[simp] theorem State.spdmReply_fresh (s : State) (r) : (s.spdmReply r).fresh = s.fresh := rfl
@[simp] theorem State.spdmReply_mem (s : State) (r) : (s.spdmReply r).mem = s.mem := rfl
@[simp] theorem State.spdmReply_chk (s : State) (r) : (s.spdmReply r).chk = s.chk := rfl
@[simp] theorem State.spdmReply_reported (s : State) (r) : (s.spdmReply r).reported = s.reported := rfl
@[simp] theorem State.spdmReply_lines (s : State) (r) : (s.spdmReply r).lines = s.lines := rfl
@[simp] theorem State.spdmReply_regs (s : State) (r) : (s.spdmReply r).regs = s.regs := rfl
@[simp] theorem State.spdmReply_cores (s : State) (r) : (s.spdmReply r).cores = s.cores := rfl
@[simp] theorem State.spdmReply_clusters (s : State) (r) : (s.spdmReply r).clusters = s.clusters := rfl
@[simp] theorem State.spdmReply_mems (s : State) (r) : (s.spdmReply r).mems = s.mems := rfl
@[simp] theorem State.spdmReply_tlbInv (s : State) (r) : (s.spdmReply r).tlbInv = s.tlbInv := rfl
@[simp] theorem State.spdmReply_flits (s : State) (r) : (s.spdmReply r).flits = s.flits := rfl
@[simp] theorem State.spdmReply_lostFlits (s : State) (r) : (s.spdmReply r).lostFlits = s.lostFlits := rfl
@[simp] theorem State.spdmReply_dimmGib (s : State) (r) : (s.spdmReply r).dimmGib = s.dimmGib := rfl
@[simp] theorem State.spdmReply_dimmBanks (s : State) (r) : (s.spdmReply r).dimmBanks = s.dimmBanks := rfl
@[simp] theorem State.spdmReply_damsons (s : State) (r) : (s.spdmReply r).damsons = s.damsons := rfl
@[simp] theorem State.spdmReply_channels (s : State) (r) : (s.spdmReply r).channels = s.channels := rfl
@[simp] theorem State.spdmReply_sync (s : State) (r) : (s.spdmReply r).sync = s.sync := rfl
@[simp] theorem State.spdmReply_fab (s : State) (r) : (s.spdmReply r).fab = s.fab := rfl
@[simp] theorem State.spdmReply_hif (s : State) (r) : (s.spdmReply r).hif = s.hif := rfl
@[simp] theorem State.spdmReply_power (s : State) (r) : (s.spdmReply r).power = s.power := rfl
@[simp] theorem State.spdmReply_board (s : State) (r) : (s.spdmReply r).board = s.board := rfl
@[simp] theorem State.spdmReply_ras (s : State) (r) : (s.spdmReply r).ras = s.ras := rfl
@[simp] theorem State.spdmReply_husk (s : State) (r) : (s.spdmReply r).husk = s.husk := rfl

@[simp] theorem State.spdmFail_pending (s : State) : (s.spdmFail).pending = s.pending := rfl
@[simp] theorem State.spdmFail_aon (s : State) : (s.spdmFail).aon = s.aon := rfl
@[simp] theorem State.spdmFail_fresh (s : State) : (s.spdmFail).fresh = s.fresh := rfl
@[simp] theorem State.spdmFail_mem (s : State) : (s.spdmFail).mem = s.mem := rfl
@[simp] theorem State.spdmFail_chk (s : State) : (s.spdmFail).chk = s.chk := rfl
@[simp] theorem State.spdmFail_reported (s : State) : (s.spdmFail).reported = s.reported := rfl
@[simp] theorem State.spdmFail_lines (s : State) : (s.spdmFail).lines = s.lines := rfl
@[simp] theorem State.spdmFail_regs (s : State) : (s.spdmFail).regs = s.regs := rfl
@[simp] theorem State.spdmFail_cores (s : State) : (s.spdmFail).cores = s.cores := rfl
@[simp] theorem State.spdmFail_clusters (s : State) : (s.spdmFail).clusters = s.clusters := rfl
@[simp] theorem State.spdmFail_mems (s : State) : (s.spdmFail).mems = s.mems := rfl
@[simp] theorem State.spdmFail_tlbInv (s : State) : (s.spdmFail).tlbInv = s.tlbInv := rfl
@[simp] theorem State.spdmFail_flits (s : State) : (s.spdmFail).flits = s.flits := rfl
@[simp] theorem State.spdmFail_lostFlits (s : State) : (s.spdmFail).lostFlits = s.lostFlits := rfl
@[simp] theorem State.spdmFail_dimmGib (s : State) : (s.spdmFail).dimmGib = s.dimmGib := rfl
@[simp] theorem State.spdmFail_dimmBanks (s : State) : (s.spdmFail).dimmBanks = s.dimmBanks := rfl
@[simp] theorem State.spdmFail_damsons (s : State) : (s.spdmFail).damsons = s.damsons := rfl
@[simp] theorem State.spdmFail_channels (s : State) : (s.spdmFail).channels = s.channels := rfl
@[simp] theorem State.spdmFail_sync (s : State) : (s.spdmFail).sync = s.sync := rfl
@[simp] theorem State.spdmFail_fab (s : State) : (s.spdmFail).fab = s.fab := rfl
@[simp] theorem State.spdmFail_hif (s : State) : (s.spdmFail).hif = s.hif := rfl
@[simp] theorem State.spdmFail_power (s : State) : (s.spdmFail).power = s.power := rfl
@[simp] theorem State.spdmFail_board (s : State) : (s.spdmFail).board = s.board := rfl
@[simp] theorem State.spdmFail_ras (s : State) : (s.spdmFail).ras = s.ras := rfl
@[simp] theorem State.spdmFail_husk (s : State) : (s.spdmFail).husk = s.husk := rfl

@[simp] theorem State.setDrive_pending (s : State) (d b) : (s.setDrive d b).pending = s.pending := rfl
@[simp] theorem State.setDrive_aon (s : State) (d b) : (s.setDrive d b).aon = s.aon := rfl
@[simp] theorem State.setDrive_fresh (s : State) (d b) : (s.setDrive d b).fresh = s.fresh := rfl
@[simp] theorem State.setDrive_mem (s : State) (d b) : (s.setDrive d b).mem = s.mem := rfl
@[simp] theorem State.setDrive_chk (s : State) (d b) : (s.setDrive d b).chk = s.chk := rfl
@[simp] theorem State.setDrive_reported (s : State) (d b) : (s.setDrive d b).reported = s.reported := rfl
@[simp] theorem State.setDrive_lines (s : State) (d b) : (s.setDrive d b).lines = s.lines := rfl
@[simp] theorem State.setDrive_regs (s : State) (d b) : (s.setDrive d b).regs = s.regs := rfl
@[simp] theorem State.setDrive_cores (s : State) (d b) : (s.setDrive d b).cores = s.cores := rfl
@[simp] theorem State.setDrive_clusters (s : State) (d b) : (s.setDrive d b).clusters = s.clusters := rfl
@[simp] theorem State.setDrive_mems (s : State) (d b) : (s.setDrive d b).mems = s.mems := rfl
@[simp] theorem State.setDrive_tlbInv (s : State) (d b) : (s.setDrive d b).tlbInv = s.tlbInv := rfl
@[simp] theorem State.setDrive_flits (s : State) (d b) : (s.setDrive d b).flits = s.flits := rfl
@[simp] theorem State.setDrive_lostFlits (s : State) (d b) : (s.setDrive d b).lostFlits = s.lostFlits := rfl
@[simp] theorem State.setDrive_dimmGib (s : State) (d b) : (s.setDrive d b).dimmGib = s.dimmGib := rfl
@[simp] theorem State.setDrive_dimmBanks (s : State) (d b) : (s.setDrive d b).dimmBanks = s.dimmBanks := rfl
@[simp] theorem State.setDrive_damsons (s : State) (d b) : (s.setDrive d b).damsons = s.damsons := rfl
@[simp] theorem State.setDrive_channels (s : State) (d b) : (s.setDrive d b).channels = s.channels := rfl
@[simp] theorem State.setDrive_sync (s : State) (d b) : (s.setDrive d b).sync = s.sync := rfl
@[simp] theorem State.setDrive_hif (s : State) (d b) : (s.setDrive d b).hif = s.hif := rfl
@[simp] theorem State.setDrive_power (s : State) (d b) : (s.setDrive d b).power = s.power := rfl
@[simp] theorem State.setDrive_board (s : State) (d b) : (s.setDrive d b).board = s.board := rfl
@[simp] theorem State.setDrive_ras (s : State) (d b) : (s.setDrive d b).ras = s.ras := rfl
@[simp] theorem State.setDrive_husk (s : State) (d b) : (s.setDrive d b).husk = s.husk := rfl
@[simp] theorem State.setDrive_sec (s : State) (d b) : (s.setDrive d b).sec = s.sec := rfl

@[simp] theorem State.setEff_pending (s : State) (h p) : (s.setEff h p).pending = s.pending := rfl
@[simp] theorem State.setEff_aon (s : State) (h p) : (s.setEff h p).aon = s.aon := rfl
@[simp] theorem State.setEff_fresh (s : State) (h p) : (s.setEff h p).fresh = s.fresh := rfl
@[simp] theorem State.setEff_mem (s : State) (h p) : (s.setEff h p).mem = s.mem := rfl
@[simp] theorem State.setEff_chk (s : State) (h p) : (s.setEff h p).chk = s.chk := rfl
@[simp] theorem State.setEff_reported (s : State) (h p) : (s.setEff h p).reported = s.reported := rfl
@[simp] theorem State.setEff_lines (s : State) (h p) : (s.setEff h p).lines = s.lines := rfl
@[simp] theorem State.setEff_cores (s : State) (h p) : (s.setEff h p).cores = s.cores := rfl
@[simp] theorem State.setEff_clusters (s : State) (h p) : (s.setEff h p).clusters = s.clusters := rfl
@[simp] theorem State.setEff_mems (s : State) (h p) : (s.setEff h p).mems = s.mems := rfl
@[simp] theorem State.setEff_tlbInv (s : State) (h p) : (s.setEff h p).tlbInv = s.tlbInv := rfl
@[simp] theorem State.setEff_flits (s : State) (h p) : (s.setEff h p).flits = s.flits := rfl
@[simp] theorem State.setEff_lostFlits (s : State) (h p) : (s.setEff h p).lostFlits = s.lostFlits := rfl
@[simp] theorem State.setEff_dimmGib (s : State) (h p) : (s.setEff h p).dimmGib = s.dimmGib := rfl
@[simp] theorem State.setEff_dimmBanks (s : State) (h p) : (s.setEff h p).dimmBanks = s.dimmBanks := rfl
@[simp] theorem State.setEff_damsons (s : State) (h p) : (s.setEff h p).damsons = s.damsons := rfl
@[simp] theorem State.setEff_channels (s : State) (h p) : (s.setEff h p).channels = s.channels := rfl
@[simp] theorem State.setEff_sync (s : State) (h p) : (s.setEff h p).sync = s.sync := rfl
@[simp] theorem State.setEff_fab (s : State) (h p) : (s.setEff h p).fab = s.fab := rfl
@[simp] theorem State.setEff_hif (s : State) (h p) : (s.setEff h p).hif = s.hif := rfl
@[simp] theorem State.setEff_power (s : State) (h p) : (s.setEff h p).power = s.power := rfl
@[simp] theorem State.setEff_board (s : State) (h p) : (s.setEff h p).board = s.board := rfl
@[simp] theorem State.setEff_ras (s : State) (h p) : (s.setEff h p).ras = s.ras := rfl
@[simp] theorem State.setEff_husk (s : State) (h p) : (s.setEff h p).husk = s.husk := rfl
@[simp] theorem State.setEff_sec (s : State) (h p) : (s.setEff h p).sec = s.sec := rfl

@[simp] theorem State.setHcReply_pending (s : State) (h r) : (s.setHcReply h r).pending = s.pending := rfl
@[simp] theorem State.setHcReply_aon (s : State) (h r) : (s.setHcReply h r).aon = s.aon := rfl
@[simp] theorem State.setHcReply_fresh (s : State) (h r) : (s.setHcReply h r).fresh = s.fresh := rfl
@[simp] theorem State.setHcReply_mem (s : State) (h r) : (s.setHcReply h r).mem = s.mem := rfl
@[simp] theorem State.setHcReply_chk (s : State) (h r) : (s.setHcReply h r).chk = s.chk := rfl
@[simp] theorem State.setHcReply_reported (s : State) (h r) : (s.setHcReply h r).reported = s.reported := rfl
@[simp] theorem State.setHcReply_lines (s : State) (h r) : (s.setHcReply h r).lines = s.lines := rfl
@[simp] theorem State.setHcReply_regs (s : State) (h r) : (s.setHcReply h r).regs = s.regs := rfl
@[simp] theorem State.setHcReply_cores (s : State) (h r) : (s.setHcReply h r).cores = s.cores := rfl
@[simp] theorem State.setHcReply_clusters (s : State) (h r) : (s.setHcReply h r).clusters = s.clusters := rfl
@[simp] theorem State.setHcReply_mems (s : State) (h r) : (s.setHcReply h r).mems = s.mems := rfl
@[simp] theorem State.setHcReply_tlbInv (s : State) (h r) : (s.setHcReply h r).tlbInv = s.tlbInv := rfl
@[simp] theorem State.setHcReply_flits (s : State) (h r) : (s.setHcReply h r).flits = s.flits := rfl
@[simp] theorem State.setHcReply_lostFlits (s : State) (h r) : (s.setHcReply h r).lostFlits = s.lostFlits := rfl
@[simp] theorem State.setHcReply_dimmGib (s : State) (h r) : (s.setHcReply h r).dimmGib = s.dimmGib := rfl
@[simp] theorem State.setHcReply_dimmBanks (s : State) (h r) : (s.setHcReply h r).dimmBanks = s.dimmBanks := rfl
@[simp] theorem State.setHcReply_damsons (s : State) (h r) : (s.setHcReply h r).damsons = s.damsons := rfl
@[simp] theorem State.setHcReply_channels (s : State) (h r) : (s.setHcReply h r).channels = s.channels := rfl
@[simp] theorem State.setHcReply_sync (s : State) (h r) : (s.setHcReply h r).sync = s.sync := rfl
@[simp] theorem State.setHcReply_fab (s : State) (h r) : (s.setHcReply h r).fab = s.fab := rfl
@[simp] theorem State.setHcReply_power (s : State) (h r) : (s.setHcReply h r).power = s.power := rfl
@[simp] theorem State.setHcReply_board (s : State) (h r) : (s.setHcReply h r).board = s.board := rfl
@[simp] theorem State.setHcReply_ras (s : State) (h r) : (s.setHcReply h r).ras = s.ras := rfl
@[simp] theorem State.setHcReply_husk (s : State) (h r) : (s.setHcReply h r).husk = s.husk := rfl
@[simp] theorem State.setHcReply_sec (s : State) (h r) : (s.setHcReply h r).sec = s.sec := rfl

@[simp] theorem State.setReply_pending (s : State) (r) : (s.setReply r).pending = s.pending := rfl
@[simp] theorem State.setReply_aon (s : State) (r) : (s.setReply r).aon = s.aon := rfl
@[simp] theorem State.setReply_fresh (s : State) (r) : (s.setReply r).fresh = s.fresh := rfl
@[simp] theorem State.setReply_mem (s : State) (r) : (s.setReply r).mem = s.mem := rfl
@[simp] theorem State.setReply_chk (s : State) (r) : (s.setReply r).chk = s.chk := rfl
@[simp] theorem State.setReply_reported (s : State) (r) : (s.setReply r).reported = s.reported := rfl
@[simp] theorem State.setReply_lines (s : State) (r) : (s.setReply r).lines = s.lines := rfl
@[simp] theorem State.setReply_regs (s : State) (r) : (s.setReply r).regs = s.regs := rfl
@[simp] theorem State.setReply_cores (s : State) (r) : (s.setReply r).cores = s.cores := rfl
@[simp] theorem State.setReply_clusters (s : State) (r) : (s.setReply r).clusters = s.clusters := rfl
@[simp] theorem State.setReply_mems (s : State) (r) : (s.setReply r).mems = s.mems := rfl
@[simp] theorem State.setReply_tlbInv (s : State) (r) : (s.setReply r).tlbInv = s.tlbInv := rfl
@[simp] theorem State.setReply_flits (s : State) (r) : (s.setReply r).flits = s.flits := rfl
@[simp] theorem State.setReply_lostFlits (s : State) (r) : (s.setReply r).lostFlits = s.lostFlits := rfl
@[simp] theorem State.setReply_dimmGib (s : State) (r) : (s.setReply r).dimmGib = s.dimmGib := rfl
@[simp] theorem State.setReply_dimmBanks (s : State) (r) : (s.setReply r).dimmBanks = s.dimmBanks := rfl
@[simp] theorem State.setReply_damsons (s : State) (r) : (s.setReply r).damsons = s.damsons := rfl
@[simp] theorem State.setReply_channels (s : State) (r) : (s.setReply r).channels = s.channels := rfl
@[simp] theorem State.setReply_sync (s : State) (r) : (s.setReply r).sync = s.sync := rfl
@[simp] theorem State.setReply_fab (s : State) (r) : (s.setReply r).fab = s.fab := rfl
@[simp] theorem State.setReply_power (s : State) (r) : (s.setReply r).power = s.power := rfl
@[simp] theorem State.setReply_board (s : State) (r) : (s.setReply r).board = s.board := rfl
@[simp] theorem State.setReply_ras (s : State) (r) : (s.setReply r).ras = s.ras := rfl
@[simp] theorem State.setReply_husk (s : State) (r) : (s.setReply r).husk = s.husk := rfl
@[simp] theorem State.setReply_sec (s : State) (r) : (s.setReply r).sec = s.sec := rfl

@[simp] theorem State.setTierReply_pending (s : State) (r) : (s.setTierReply r).pending = s.pending := rfl
@[simp] theorem State.setTierReply_aon (s : State) (r) : (s.setTierReply r).aon = s.aon := rfl
@[simp] theorem State.setTierReply_fresh (s : State) (r) : (s.setTierReply r).fresh = s.fresh := rfl
@[simp] theorem State.setTierReply_mem (s : State) (r) : (s.setTierReply r).mem = s.mem := rfl
@[simp] theorem State.setTierReply_chk (s : State) (r) : (s.setTierReply r).chk = s.chk := rfl
@[simp] theorem State.setTierReply_reported (s : State) (r) : (s.setTierReply r).reported = s.reported := rfl
@[simp] theorem State.setTierReply_lines (s : State) (r) : (s.setTierReply r).lines = s.lines := rfl
@[simp] theorem State.setTierReply_regs (s : State) (r) : (s.setTierReply r).regs = s.regs := rfl
@[simp] theorem State.setTierReply_cores (s : State) (r) : (s.setTierReply r).cores = s.cores := rfl
@[simp] theorem State.setTierReply_clusters (s : State) (r) : (s.setTierReply r).clusters = s.clusters := rfl
@[simp] theorem State.setTierReply_mems (s : State) (r) : (s.setTierReply r).mems = s.mems := rfl
@[simp] theorem State.setTierReply_tlbInv (s : State) (r) : (s.setTierReply r).tlbInv = s.tlbInv := rfl
@[simp] theorem State.setTierReply_flits (s : State) (r) : (s.setTierReply r).flits = s.flits := rfl
@[simp] theorem State.setTierReply_lostFlits (s : State) (r) : (s.setTierReply r).lostFlits = s.lostFlits := rfl
@[simp] theorem State.setTierReply_dimmGib (s : State) (r) : (s.setTierReply r).dimmGib = s.dimmGib := rfl
@[simp] theorem State.setTierReply_dimmBanks (s : State) (r) : (s.setTierReply r).dimmBanks = s.dimmBanks := rfl
@[simp] theorem State.setTierReply_damsons (s : State) (r) : (s.setTierReply r).damsons = s.damsons := rfl
@[simp] theorem State.setTierReply_channels (s : State) (r) : (s.setTierReply r).channels = s.channels := rfl
@[simp] theorem State.setTierReply_sync (s : State) (r) : (s.setTierReply r).sync = s.sync := rfl
@[simp] theorem State.setTierReply_fab (s : State) (r) : (s.setTierReply r).fab = s.fab := rfl
@[simp] theorem State.setTierReply_power (s : State) (r) : (s.setTierReply r).power = s.power := rfl
@[simp] theorem State.setTierReply_board (s : State) (r) : (s.setTierReply r).board = s.board := rfl
@[simp] theorem State.setTierReply_ras (s : State) (r) : (s.setTierReply r).ras = s.ras := rfl
@[simp] theorem State.setTierReply_husk (s : State) (r) : (s.setTierReply r).husk = s.husk := rfl
@[simp] theorem State.setTierReply_sec (s : State) (r) : (s.setTierReply r).sec = s.sec := rfl

@[simp] theorem State.setStage_pending (s : State) (h x) : (s.setStage h x).pending = s.pending := rfl
@[simp] theorem State.setStage_aon (s : State) (h x) : (s.setStage h x).aon = s.aon := rfl
@[simp] theorem State.setStage_fresh (s : State) (h x) : (s.setStage h x).fresh = s.fresh := rfl
@[simp] theorem State.setStage_mem (s : State) (h x) : (s.setStage h x).mem = s.mem := rfl
@[simp] theorem State.setStage_chk (s : State) (h x) : (s.setStage h x).chk = s.chk := rfl
@[simp] theorem State.setStage_reported (s : State) (h x) : (s.setStage h x).reported = s.reported := rfl
@[simp] theorem State.setStage_lines (s : State) (h x) : (s.setStage h x).lines = s.lines := rfl
@[simp] theorem State.setStage_cores (s : State) (h x) : (s.setStage h x).cores = s.cores := rfl
@[simp] theorem State.setStage_clusters (s : State) (h x) : (s.setStage h x).clusters = s.clusters := rfl
@[simp] theorem State.setStage_mems (s : State) (h x) : (s.setStage h x).mems = s.mems := rfl
@[simp] theorem State.setStage_tlbInv (s : State) (h x) : (s.setStage h x).tlbInv = s.tlbInv := rfl
@[simp] theorem State.setStage_flits (s : State) (h x) : (s.setStage h x).flits = s.flits := rfl
@[simp] theorem State.setStage_lostFlits (s : State) (h x) : (s.setStage h x).lostFlits = s.lostFlits := rfl
@[simp] theorem State.setStage_dimmGib (s : State) (h x) : (s.setStage h x).dimmGib = s.dimmGib := rfl
@[simp] theorem State.setStage_dimmBanks (s : State) (h x) : (s.setStage h x).dimmBanks = s.dimmBanks := rfl
@[simp] theorem State.setStage_damsons (s : State) (h x) : (s.setStage h x).damsons = s.damsons := rfl
@[simp] theorem State.setStage_channels (s : State) (h x) : (s.setStage h x).channels = s.channels := rfl
@[simp] theorem State.setStage_sync (s : State) (h x) : (s.setStage h x).sync = s.sync := rfl
@[simp] theorem State.setStage_fab (s : State) (h x) : (s.setStage h x).fab = s.fab := rfl
@[simp] theorem State.setStage_hif (s : State) (h x) : (s.setStage h x).hif = s.hif := rfl
@[simp] theorem State.setStage_board (s : State) (h x) : (s.setStage h x).board = s.board := rfl
@[simp] theorem State.setStage_ras (s : State) (h x) : (s.setStage h x).ras = s.ras := rfl
@[simp] theorem State.setStage_husk (s : State) (h x) : (s.setStage h x).husk = s.husk := rfl
@[simp] theorem State.setStage_sec (s : State) (h x) : (s.setStage h x).sec = s.sec := rfl

@[simp] theorem State.setJoining_pending (s : State) (d b) : (s.setJoining d b).pending = s.pending := rfl
@[simp] theorem State.setJoining_aon (s : State) (d b) : (s.setJoining d b).aon = s.aon := rfl
@[simp] theorem State.setJoining_fresh (s : State) (d b) : (s.setJoining d b).fresh = s.fresh := rfl
@[simp] theorem State.setJoining_mem (s : State) (d b) : (s.setJoining d b).mem = s.mem := rfl
@[simp] theorem State.setJoining_chk (s : State) (d b) : (s.setJoining d b).chk = s.chk := rfl
@[simp] theorem State.setJoining_reported (s : State) (d b) : (s.setJoining d b).reported = s.reported := rfl
@[simp] theorem State.setJoining_lines (s : State) (d b) : (s.setJoining d b).lines = s.lines := rfl
@[simp] theorem State.setJoining_regs (s : State) (d b) : (s.setJoining d b).regs = s.regs := rfl
@[simp] theorem State.setJoining_cores (s : State) (d b) : (s.setJoining d b).cores = s.cores := rfl
@[simp] theorem State.setJoining_clusters (s : State) (d b) : (s.setJoining d b).clusters = s.clusters := rfl
@[simp] theorem State.setJoining_mems (s : State) (d b) : (s.setJoining d b).mems = s.mems := rfl
@[simp] theorem State.setJoining_tlbInv (s : State) (d b) : (s.setJoining d b).tlbInv = s.tlbInv := rfl
@[simp] theorem State.setJoining_flits (s : State) (d b) : (s.setJoining d b).flits = s.flits := rfl
@[simp] theorem State.setJoining_lostFlits (s : State) (d b) : (s.setJoining d b).lostFlits = s.lostFlits := rfl
@[simp] theorem State.setJoining_dimmGib (s : State) (d b) : (s.setJoining d b).dimmGib = s.dimmGib := rfl
@[simp] theorem State.setJoining_dimmBanks (s : State) (d b) : (s.setJoining d b).dimmBanks = s.dimmBanks := rfl
@[simp] theorem State.setJoining_damsons (s : State) (d b) : (s.setJoining d b).damsons = s.damsons := rfl
@[simp] theorem State.setJoining_channels (s : State) (d b) : (s.setJoining d b).channels = s.channels := rfl
@[simp] theorem State.setJoining_sync (s : State) (d b) : (s.setJoining d b).sync = s.sync := rfl
@[simp] theorem State.setJoining_hif (s : State) (d b) : (s.setJoining d b).hif = s.hif := rfl
@[simp] theorem State.setJoining_power (s : State) (d b) : (s.setJoining d b).power = s.power := rfl
@[simp] theorem State.setJoining_board (s : State) (d b) : (s.setJoining d b).board = s.board := rfl
@[simp] theorem State.setJoining_ras (s : State) (d b) : (s.setJoining d b).ras = s.ras := rfl
@[simp] theorem State.setJoining_husk (s : State) (d b) : (s.setJoining d b).husk = s.husk := rfl
@[simp] theorem State.setJoining_sec (s : State) (d b) : (s.setJoining d b).sec = s.sec := rfl

@[simp] theorem State.setCached_pending (s : State) (k l) : (s.setCached k l).pending = s.pending := rfl
@[simp] theorem State.setCached_aon (s : State) (k l) : (s.setCached k l).aon = s.aon := rfl
@[simp] theorem State.setCached_fresh (s : State) (k l) : (s.setCached k l).fresh = s.fresh := rfl
@[simp] theorem State.setCached_mem (s : State) (k l) : (s.setCached k l).mem = s.mem := rfl
@[simp] theorem State.setCached_chk (s : State) (k l) : (s.setCached k l).chk = s.chk := rfl
@[simp] theorem State.setCached_reported (s : State) (k l) : (s.setCached k l).reported = s.reported := rfl
@[simp] theorem State.setCached_lines (s : State) (k l) : (s.setCached k l).lines = s.lines := rfl
@[simp] theorem State.setCached_regs (s : State) (k l) : (s.setCached k l).regs = s.regs := rfl
@[simp] theorem State.setCached_cores (s : State) (k l) : (s.setCached k l).cores = s.cores := rfl
@[simp] theorem State.setCached_clusters (s : State) (k l) : (s.setCached k l).clusters = s.clusters := rfl
@[simp] theorem State.setCached_mems (s : State) (k l) : (s.setCached k l).mems = s.mems := rfl
@[simp] theorem State.setCached_tlbInv (s : State) (k l) : (s.setCached k l).tlbInv = s.tlbInv := rfl
@[simp] theorem State.setCached_flits (s : State) (k l) : (s.setCached k l).flits = s.flits := rfl
@[simp] theorem State.setCached_lostFlits (s : State) (k l) : (s.setCached k l).lostFlits = s.lostFlits := rfl
@[simp] theorem State.setCached_dimmGib (s : State) (k l) : (s.setCached k l).dimmGib = s.dimmGib := rfl
@[simp] theorem State.setCached_dimmBanks (s : State) (k l) : (s.setCached k l).dimmBanks = s.dimmBanks := rfl
@[simp] theorem State.setCached_damsons (s : State) (k l) : (s.setCached k l).damsons = s.damsons := rfl
@[simp] theorem State.setCached_channels (s : State) (k l) : (s.setCached k l).channels = s.channels := rfl
@[simp] theorem State.setCached_sync (s : State) (k l) : (s.setCached k l).sync = s.sync := rfl
@[simp] theorem State.setCached_fab (s : State) (k l) : (s.setCached k l).fab = s.fab := rfl
@[simp] theorem State.setCached_power (s : State) (k l) : (s.setCached k l).power = s.power := rfl
@[simp] theorem State.setCached_board (s : State) (k l) : (s.setCached k l).board = s.board := rfl
@[simp] theorem State.setCached_ras (s : State) (k l) : (s.setCached k l).ras = s.ras := rfl
@[simp] theorem State.setCached_husk (s : State) (k l) : (s.setCached k l).husk = s.husk := rfl
@[simp] theorem State.setCached_sec (s : State) (k l) : (s.setCached k l).sec = s.sec := rfl

@[simp] theorem State.wakeHalf_pending (s : State) (h) : (s.wakeHalf h).pending = s.pending := rfl
@[simp] theorem State.wakeHalf_aon (s : State) (h) : (s.wakeHalf h).aon = s.aon := rfl
@[simp] theorem State.wakeHalf_fresh (s : State) (h) : (s.wakeHalf h).fresh = s.fresh := rfl
@[simp] theorem State.wakeHalf_mem (s : State) (h) : (s.wakeHalf h).mem = s.mem := rfl
@[simp] theorem State.wakeHalf_chk (s : State) (h) : (s.wakeHalf h).chk = s.chk := rfl
@[simp] theorem State.wakeHalf_reported (s : State) (h) : (s.wakeHalf h).reported = s.reported := rfl
@[simp] theorem State.wakeHalf_lines (s : State) (h) : (s.wakeHalf h).lines = s.lines := rfl
@[simp] theorem State.wakeHalf_regs (s : State) (h) : (s.wakeHalf h).regs = s.regs := rfl
@[simp] theorem State.wakeHalf_cores (s : State) (h) : (s.wakeHalf h).cores = s.cores := rfl
@[simp] theorem State.wakeHalf_clusters (s : State) (h) : (s.wakeHalf h).clusters = s.clusters := rfl
@[simp] theorem State.wakeHalf_mems (s : State) (h) : (s.wakeHalf h).mems = s.mems := rfl
@[simp] theorem State.wakeHalf_tlbInv (s : State) (h) : (s.wakeHalf h).tlbInv = s.tlbInv := rfl
@[simp] theorem State.wakeHalf_flits (s : State) (h) : (s.wakeHalf h).flits = s.flits := rfl
@[simp] theorem State.wakeHalf_lostFlits (s : State) (h) : (s.wakeHalf h).lostFlits = s.lostFlits := rfl
@[simp] theorem State.wakeHalf_dimmGib (s : State) (h) : (s.wakeHalf h).dimmGib = s.dimmGib := rfl
@[simp] theorem State.wakeHalf_dimmBanks (s : State) (h) : (s.wakeHalf h).dimmBanks = s.dimmBanks := rfl
@[simp] theorem State.wakeHalf_damsons (s : State) (h) : (s.wakeHalf h).damsons = s.damsons := rfl
@[simp] theorem State.wakeHalf_channels (s : State) (h) : (s.wakeHalf h).channels = s.channels := rfl
@[simp] theorem State.wakeHalf_sync (s : State) (h) : (s.wakeHalf h).sync = s.sync := rfl
@[simp] theorem State.wakeHalf_fab (s : State) (h) : (s.wakeHalf h).fab = s.fab := rfl
@[simp] theorem State.wakeHalf_hif (s : State) (h) : (s.wakeHalf h).hif = s.hif := rfl
@[simp] theorem State.wakeHalf_board (s : State) (h) : (s.wakeHalf h).board = s.board := rfl
@[simp] theorem State.wakeHalf_ras (s : State) (h) : (s.wakeHalf h).ras = s.ras := rfl
@[simp] theorem State.wakeHalf_husk (s : State) (h) : (s.wakeHalf h).husk = s.husk := rfl
@[simp] theorem State.wakeHalf_sec (s : State) (h) : (s.wakeHalf h).sec = s.sec := rfl

end Sys2Proof.Machine
end

