-- ==== Sys2Proof/Laws/Memory.lean ====
section
/-! SUPPORT. The laws of memory: every operation on it keeps the canonical form, a byte written
reads back, and every other byte reads as before. -/

namespace Sys2Proof.Machine

theorem Memory.wf_put {m : List Host.Cell} (k : Nat) (v : Byte) (h : Memory.wf m = true) :
    Memory.wf (KV.put 0 m k v) = true := KV.wf_put k v h

theorem Memory.wf_filter {m : List Host.Cell} (p : Host.Cell → Bool) (h : Memory.wf m = true) :
    Memory.wf (m.filter p) = true := KV.wfFrom_filter p h

theorem State.putByte_wf {s : State} (h : Memory.wf s.mem = true) (k : Nat) (b : Byte) :
    Memory.wf (s.putByte k b).mem = true := Memory.wf_put k b h

theorem State.putBytes_wf {s : State} (h : Memory.wf s.mem = true) (k : Nat) (l : List Byte) :
    Memory.wf (s.putBytes k l).mem = true := by
  induction l generalizing s k with
  | nil => exact h
  | cons b l ih => exact ih (State.putByte_wf h k b) (k + 1)

theorem State.putNum_wf {s : State} (h : Memory.wf s.mem = true) (k n v : Nat) :
    Memory.wf (s.putNum k n v).mem = true := State.putBytes_wf h k _

/-- A byte reads the same wherever memory is the same. -/
theorem State.byte_congr {s t : State} (h : t.mem = s.mem) (k : Nat) : t.byte k = s.byte k := by
  simp only [State.byte, h]

theorem State.putByte_byte_ne {k k' : Nat} (h : k' ≠ k) (s : State) (b : Byte) :
    (s.putByte k b).byte k' = s.byte k' := KV.get_put_ne h s.mem b

@[simp] theorem State.putByte_byte (s : State) (k : Nat) (b : Byte) : (s.putByte k b).byte k = b :=
  KV.get_put_self s.mem k b

theorem State.putBytes_byte_ne {k k' : Nat} {l : List Byte} (h : k' < k ∨ k + l.length ≤ k') (s : State) :
    (s.putBytes k l).byte k' = s.byte k' := by
  induction l generalizing s k with
  | nil => rfl
  | cons b l ih =>
    simp only [List.length_cons] at h
    rw [State.putBytes, ih (by omega), State.putByte_byte_ne (by omega)]

/-- Bytes written to memory read back. -/
theorem State.putBytes_byte {s : State} (k : Nat) (l : List Byte) (i : Nat)
    (hi : i < l.length) : (s.putBytes k l).byte (k + i) = l[i] := by
  induction l generalizing s k i with
  | nil => simp at hi
  | cons b l ih =>
    rw [State.putBytes]
    cases i with
    | zero =>
      rw [State.putBytes_byte_ne (by omega)]
      exact State.putByte_byte s k b
    | succ i =>
      have := ih (s := s.putByte k b) (k + 1) i (by simpa using hi)
      simpa [Nat.add_assoc, Nat.add_comm 1 i] using this

end Sys2Proof.Machine
end

