-- ==== Sys2Proof/Laws/Keeps.lean ====
section
/-! SUPPORT. What the operations keep: a relation between the state before and after, its rules for
the shapes of the definitions, and one lemma for each way a state is updated -/

namespace Sys2Proof.Machine

theorem Area.mem_of_sub {a b : List Area} {p : Area} (h : Area.sub a b = true) (hp : p ∈ a) : p ∈ b := by
  simp only [Area.sub, List.all_eq_true, List.contains_iff_mem] at h
  exact h p hp

theorem Area.sub_trans {a b c : List Area} (h : Area.sub a b = true) (g : Area.sub b c = true) :
    Area.sub a c = true := by
  simp only [Area.sub, List.all_eq_true, List.contains_iff_mem] at *
  exact fun p hp => g p (h p hp)

/-- What carrying out commands keeps of a state: every part outside `l`, the canonical form of
memory, the fused map, and every blown fuse. -/
structure Keeps (l : List Area) (u t : State) : Prop where
  kept : KeptBut l u t
  mem : Memory.wf u.mem = true → Memory.wf t.mem = true
  map : t.sec.fusedMap = u.sec.fusedMap
  fuses : u.sec.fuses &&& t.sec.fuses = u.sec.fuses

theorem Keeps.refl {l : List Area} (u : State) : Keeps l u u :=
  ⟨fun p _ => by cases p <;> (first | rfl | exact fun _ _ => rfl), id, rfl, by simp⟩

variable {l : List Area} {u s : State}

theorem Keeps.upd_cores {x : State} {v_cores} (h : Keeps l u x) (hl : Area.sub [.cores] l = true) :
    Keeps l u { pending := x.pending, aon := x.aon, fresh := x.fresh, mem := x.mem, chk := x.chk, reported := x.reported, lines := x.lines, regs := x.regs, cores := v_cores, clusters := x.clusters, mems := x.mems, tlbInv := x.tlbInv, flits := x.flits, lostFlits := x.lostFlits, dimmGib := x.dimmGib, dimmBanks := x.dimmBanks, damsons := x.damsons, channels := x.channels, sync := x.sync, fab := x.fab, hif := x.hif, power := x.power, board := x.board, ras := x.ras, husk := x.husk, sec := x.sec } := by
  refine ⟨fun p hp => ?_, h.mem, h.map, h.fuses⟩
  cases p <;> first
    | exact h.kept _ hp
    | exact absurd (Area.mem_of_sub hl (by decide)) hp

theorem Keeps.upd_mems {x : State} {v_mems} (h : Keeps l u x) (hl : Area.sub [.mems] l = true) :
    Keeps l u { pending := x.pending, aon := x.aon, fresh := x.fresh, mem := x.mem, chk := x.chk, reported := x.reported, lines := x.lines, regs := x.regs, cores := x.cores, clusters := x.clusters, mems := v_mems, tlbInv := x.tlbInv, flits := x.flits, lostFlits := x.lostFlits, dimmGib := x.dimmGib, dimmBanks := x.dimmBanks, damsons := x.damsons, channels := x.channels, sync := x.sync, fab := x.fab, hif := x.hif, power := x.power, board := x.board, ras := x.ras, husk := x.husk, sec := x.sec } := by
  refine ⟨fun p hp => ?_, h.mem, h.map, h.fuses⟩
  cases p <;> first
    | exact h.kept _ hp
    | exact absurd (Area.mem_of_sub hl (by decide)) hp

theorem Keeps.upd_regs {x : State} {v_regs} (h : Keeps l u x) (hl : Area.sub [.regs] l = true) :
    Keeps l u { pending := x.pending, aon := x.aon, fresh := x.fresh, mem := x.mem, chk := x.chk, reported := x.reported, lines := x.lines, regs := v_regs, cores := x.cores, clusters := x.clusters, mems := x.mems, tlbInv := x.tlbInv, flits := x.flits, lostFlits := x.lostFlits, dimmGib := x.dimmGib, dimmBanks := x.dimmBanks, damsons := x.damsons, channels := x.channels, sync := x.sync, fab := x.fab, hif := x.hif, power := x.power, board := x.board, ras := x.ras, husk := x.husk, sec := x.sec } := by
  refine ⟨fun p hp => ?_, h.mem, h.map, h.fuses⟩
  cases p <;> first
    | exact h.kept _ hp
    | exact absurd (Area.mem_of_sub hl (by decide)) hp

theorem Keeps.upd_husk {x : State} {v_husk} (h : Keeps l u x) (hl : Area.sub [.husk] l = true) :
    Keeps l u { pending := x.pending, aon := x.aon, fresh := x.fresh, mem := x.mem, chk := x.chk, reported := x.reported, lines := x.lines, regs := x.regs, cores := x.cores, clusters := x.clusters, mems := x.mems, tlbInv := x.tlbInv, flits := x.flits, lostFlits := x.lostFlits, dimmGib := x.dimmGib, dimmBanks := x.dimmBanks, damsons := x.damsons, channels := x.channels, sync := x.sync, fab := x.fab, hif := x.hif, power := x.power, board := x.board, ras := x.ras, husk := v_husk, sec := x.sec } := by
  refine ⟨fun p hp => ?_, h.mem, h.map, h.fuses⟩
  cases p <;> first
    | exact h.kept _ hp
    | exact absurd (Area.mem_of_sub hl (by decide)) hp

theorem Keeps.upd_hif {x : State} {v_hif} (h : Keeps l u x) (hl : Area.sub [.hif] l = true) :
    Keeps l u { pending := x.pending, aon := x.aon, fresh := x.fresh, mem := x.mem, chk := x.chk, reported := x.reported, lines := x.lines, regs := x.regs, cores := x.cores, clusters := x.clusters, mems := x.mems, tlbInv := x.tlbInv, flits := x.flits, lostFlits := x.lostFlits, dimmGib := x.dimmGib, dimmBanks := x.dimmBanks, damsons := x.damsons, channels := x.channels, sync := x.sync, fab := x.fab, hif := v_hif, power := x.power, board := x.board, ras := x.ras, husk := x.husk, sec := x.sec } := by
  refine ⟨fun p hp => ?_, h.mem, h.map, h.fuses⟩
  cases p <;> first
    | exact h.kept _ hp
    | exact absurd (Area.mem_of_sub hl (by decide)) hp

theorem Keeps.upd_hif_board {x : State} {v_hif v_board} (h : Keeps l u x) (hl : Area.sub [.hif, .board] l = true) :
    Keeps l u { pending := x.pending, aon := x.aon, fresh := x.fresh, mem := x.mem, chk := x.chk, reported := x.reported, lines := x.lines, regs := x.regs, cores := x.cores, clusters := x.clusters, mems := x.mems, tlbInv := x.tlbInv, flits := x.flits, lostFlits := x.lostFlits, dimmGib := x.dimmGib, dimmBanks := x.dimmBanks, damsons := x.damsons, channels := x.channels, sync := x.sync, fab := x.fab, hif := v_hif, power := x.power, board := v_board, ras := x.ras, husk := x.husk, sec := x.sec } := by
  refine ⟨fun p hp => ?_, h.mem, h.map, h.fuses⟩
  cases p <;> first
    | exact h.kept _ hp
    | exact absurd (Area.mem_of_sub hl (by decide)) hp

theorem Keeps.upd_reported {x : State} {v_reported} (h : Keeps l u x) (hl : Area.sub [.reported] l = true) :
    Keeps l u { pending := x.pending, aon := x.aon, fresh := x.fresh, mem := x.mem, chk := x.chk, reported := v_reported, lines := x.lines, regs := x.regs, cores := x.cores, clusters := x.clusters, mems := x.mems, tlbInv := x.tlbInv, flits := x.flits, lostFlits := x.lostFlits, dimmGib := x.dimmGib, dimmBanks := x.dimmBanks, damsons := x.damsons, channels := x.channels, sync := x.sync, fab := x.fab, hif := x.hif, power := x.power, board := x.board, ras := x.ras, husk := x.husk, sec := x.sec } := by
  refine ⟨fun p hp => ?_, h.mem, h.map, h.fuses⟩
  cases p <;> first
    | exact h.kept _ hp
    | exact absurd (Area.mem_of_sub hl (by decide)) hp

theorem Keeps.upd_fresh {x : State} {v_fresh} (h : Keeps l u x) (hl : Area.sub [.fresh] l = true) :
    Keeps l u { pending := x.pending, aon := x.aon, fresh := v_fresh, mem := x.mem, chk := x.chk, reported := x.reported, lines := x.lines, regs := x.regs, cores := x.cores, clusters := x.clusters, mems := x.mems, tlbInv := x.tlbInv, flits := x.flits, lostFlits := x.lostFlits, dimmGib := x.dimmGib, dimmBanks := x.dimmBanks, damsons := x.damsons, channels := x.channels, sync := x.sync, fab := x.fab, hif := x.hif, power := x.power, board := x.board, ras := x.ras, husk := x.husk, sec := x.sec } := by
  refine ⟨fun p hp => ?_, h.mem, h.map, h.fuses⟩
  cases p <;> first
    | exact h.kept _ hp
    | exact absurd (Area.mem_of_sub hl (by decide)) hp

theorem Keeps.upd_fab {x : State} {v_fab} (h : Keeps l u x) (hl : Area.sub [.fab] l = true) :
    Keeps l u { pending := x.pending, aon := x.aon, fresh := x.fresh, mem := x.mem, chk := x.chk, reported := x.reported, lines := x.lines, regs := x.regs, cores := x.cores, clusters := x.clusters, mems := x.mems, tlbInv := x.tlbInv, flits := x.flits, lostFlits := x.lostFlits, dimmGib := x.dimmGib, dimmBanks := x.dimmBanks, damsons := x.damsons, channels := x.channels, sync := x.sync, fab := v_fab, hif := x.hif, power := x.power, board := x.board, ras := x.ras, husk := x.husk, sec := x.sec } := by
  refine ⟨fun p hp => ?_, h.mem, h.map, h.fuses⟩
  cases p <;> first
    | exact h.kept _ hp
    | exact absurd (Area.mem_of_sub hl (by decide)) hp

theorem Keeps.upd_sync {x : State} {v_sync} (h : Keeps l u x) (hl : Area.sub [.sync] l = true) :
    Keeps l u { pending := x.pending, aon := x.aon, fresh := x.fresh, mem := x.mem, chk := x.chk, reported := x.reported, lines := x.lines, regs := x.regs, cores := x.cores, clusters := x.clusters, mems := x.mems, tlbInv := x.tlbInv, flits := x.flits, lostFlits := x.lostFlits, dimmGib := x.dimmGib, dimmBanks := x.dimmBanks, damsons := x.damsons, channels := x.channels, sync := v_sync, fab := x.fab, hif := x.hif, power := x.power, board := x.board, ras := x.ras, husk := x.husk, sec := x.sec } := by
  refine ⟨fun p hp => ?_, h.mem, h.map, h.fuses⟩
  cases p <;> first
    | exact h.kept _ hp
    | exact absurd (Area.mem_of_sub hl (by decide)) hp

theorem Keeps.upd_power {x : State} {v_power} (h : Keeps l u x) (hl : Area.sub [.power] l = true) :
    Keeps l u { pending := x.pending, aon := x.aon, fresh := x.fresh, mem := x.mem, chk := x.chk, reported := x.reported, lines := x.lines, regs := x.regs, cores := x.cores, clusters := x.clusters, mems := x.mems, tlbInv := x.tlbInv, flits := x.flits, lostFlits := x.lostFlits, dimmGib := x.dimmGib, dimmBanks := x.dimmBanks, damsons := x.damsons, channels := x.channels, sync := x.sync, fab := x.fab, hif := x.hif, power := v_power, board := x.board, ras := x.ras, husk := x.husk, sec := x.sec } := by
  refine ⟨fun p hp => ?_, h.mem, h.map, h.fuses⟩
  cases p <;> first
    | exact h.kept _ hp
    | exact absurd (Area.mem_of_sub hl (by decide)) hp

theorem Keeps.upd_board {x : State} {v_board} (h : Keeps l u x) (hl : Area.sub [.board] l = true) :
    Keeps l u { pending := x.pending, aon := x.aon, fresh := x.fresh, mem := x.mem, chk := x.chk, reported := x.reported, lines := x.lines, regs := x.regs, cores := x.cores, clusters := x.clusters, mems := x.mems, tlbInv := x.tlbInv, flits := x.flits, lostFlits := x.lostFlits, dimmGib := x.dimmGib, dimmBanks := x.dimmBanks, damsons := x.damsons, channels := x.channels, sync := x.sync, fab := x.fab, hif := x.hif, power := x.power, board := v_board, ras := x.ras, husk := x.husk, sec := x.sec } := by
  refine ⟨fun p hp => ?_, h.mem, h.map, h.fuses⟩
  cases p <;> first
    | exact h.kept _ hp
    | exact absurd (Area.mem_of_sub hl (by decide)) hp

theorem Keeps.upd_clusters {x : State} {v_clusters} (h : Keeps l u x) (hl : Area.sub [.clusters] l = true) :
    Keeps l u { pending := x.pending, aon := x.aon, fresh := x.fresh, mem := x.mem, chk := x.chk, reported := x.reported, lines := x.lines, regs := x.regs, cores := x.cores, clusters := v_clusters, mems := x.mems, tlbInv := x.tlbInv, flits := x.flits, lostFlits := x.lostFlits, dimmGib := x.dimmGib, dimmBanks := x.dimmBanks, damsons := x.damsons, channels := x.channels, sync := x.sync, fab := x.fab, hif := x.hif, power := x.power, board := x.board, ras := x.ras, husk := x.husk, sec := x.sec } := by
  refine ⟨fun p hp => ?_, h.mem, h.map, h.fuses⟩
  cases p <;> first
    | exact h.kept _ hp
    | exact absurd (Area.mem_of_sub hl (by decide)) hp

theorem Keeps.upd_chk_reported {x : State} {v_chk v_reported} (h : Keeps l u x) (hl : Area.sub [.chk,
    .reported] l = true) :
    Keeps l u { pending := x.pending, aon := x.aon, fresh := x.fresh, mem := x.mem, chk := v_chk, reported := v_reported, lines := x.lines, regs := x.regs, cores := x.cores, clusters := x.clusters, mems := x.mems, tlbInv := x.tlbInv, flits := x.flits, lostFlits := x.lostFlits, dimmGib := x.dimmGib, dimmBanks := x.dimmBanks, damsons := x.damsons, channels := x.channels, sync := x.sync, fab := x.fab, hif := x.hif, power := x.power, board := x.board, ras := x.ras, husk := x.husk, sec := x.sec } := by
  refine ⟨fun p hp => ?_, h.mem, h.map, h.fuses⟩
  cases p <;> first
    | exact h.kept _ hp
    | exact absurd (Area.mem_of_sub hl (by decide)) hp

theorem Keeps.upd_lines {x : State} {v_lines} (h : Keeps l u x) (hl : Area.sub [.lines] l = true) :
    Keeps l u { pending := x.pending, aon := x.aon, fresh := x.fresh, mem := x.mem, chk := x.chk, reported := x.reported, lines := v_lines, regs := x.regs, cores := x.cores, clusters := x.clusters, mems := x.mems, tlbInv := x.tlbInv, flits := x.flits, lostFlits := x.lostFlits, dimmGib := x.dimmGib, dimmBanks := x.dimmBanks, damsons := x.damsons, channels := x.channels, sync := x.sync, fab := x.fab, hif := x.hif, power := x.power, board := x.board, ras := x.ras, husk := x.husk, sec := x.sec } := by
  refine ⟨fun p hp => ?_, h.mem, h.map, h.fuses⟩
  cases p <;> first
    | exact h.kept _ hp
    | exact absurd (Area.mem_of_sub hl (by decide)) hp

theorem Keeps.upd_damsons {x : State} {v_damsons} (h : Keeps l u x) (hl : Area.sub [.damsons] l = true) :
    Keeps l u { pending := x.pending, aon := x.aon, fresh := x.fresh, mem := x.mem, chk := x.chk, reported := x.reported, lines := x.lines, regs := x.regs, cores := x.cores, clusters := x.clusters, mems := x.mems, tlbInv := x.tlbInv, flits := x.flits, lostFlits := x.lostFlits, dimmGib := x.dimmGib, dimmBanks := x.dimmBanks, damsons := v_damsons, channels := x.channels, sync := x.sync, fab := x.fab, hif := x.hif, power := x.power, board := x.board, ras := x.ras, husk := x.husk, sec := x.sec } := by
  refine ⟨fun p hp => ?_, h.mem, h.map, h.fuses⟩
  cases p <;> first
    | exact h.kept _ hp
    | exact absurd (Area.mem_of_sub hl (by decide)) hp

theorem Keeps.upd_aon_chk_reported_lines_regs_cores_clusters_mems_tlbInv_flits_lostFlits_dimmGib_dimmBanks_damsons_channels_sync_fab_hif_power_board_ras_husk_sec {x : State} {v_aon v_chk v_reported v_lines v_regs v_cores v_clusters v_mems v_tlbInv v_flits v_lostFlits v_dimmGib v_dimmBanks v_damsons v_channels v_sync v_fab v_hif v_power v_board v_ras v_husk c0 c1 c2 c3 c4 c5 c6 c7 c8 c9 c10 c11 c12 c13 c14 c15 c16 c17} (h : Keeps l u x) (hl : Area.sub [.aon, .chk, .reported, .lines, .regs, .cores, .clusters, .mems, .tlbInv, .flits, .lostFlits, .dimmGib, .dimmBanks, .damsons, .channels, .sync, .fab, .hif, .power, .board, .ras, .husk, .sec] l = true) :
    Keeps l u { pending := x.pending, aon := v_aon, fresh := x.fresh, mem := x.mem, chk := v_chk, reported := v_reported, lines := v_lines, regs := v_regs, cores := v_cores, clusters := v_clusters, mems := v_mems, tlbInv := v_tlbInv, flits := v_flits, lostFlits := v_lostFlits, dimmGib := v_dimmGib, dimmBanks := v_dimmBanks, damsons := v_damsons, channels := v_channels, sync := v_sync, fab := v_fab, hif := v_hif, power := v_power, board := v_board, ras := v_ras, husk := v_husk, sec := ⟨x.sec.fuses, x.sec.fusedMap, c0, c1, c2, c3, c4, c5, c6, c7, c8, c9, c10, c11, c12, c13, c14, c15, c16, c17⟩ } := by
  refine ⟨fun p hp => ?_, h.mem, h.map, h.fuses⟩
  cases p <;> first
    | exact h.kept _ hp
    | exact absurd (Area.mem_of_sub hl (by decide)) hp

theorem Keeps.upd_sec {x : State} {c0 c1 c2 c3 c4 c5 c6 c7 c8 c9 c10 c11 c12 c13 c14 c15 c16 c17} (h : Keeps l u x) (hl : Area.sub [.sec] l = true) :
    Keeps l u { pending := x.pending, aon := x.aon, fresh := x.fresh, mem := x.mem, chk := x.chk, reported := x.reported, lines := x.lines, regs := x.regs, cores := x.cores, clusters := x.clusters, mems := x.mems, tlbInv := x.tlbInv, flits := x.flits, lostFlits := x.lostFlits, dimmGib := x.dimmGib, dimmBanks := x.dimmBanks, damsons := x.damsons, channels := x.channels, sync := x.sync, fab := x.fab, hif := x.hif, power := x.power, board := x.board, ras := x.ras, husk := x.husk, sec := ⟨x.sec.fuses, x.sec.fusedMap, c0, c1, c2, c3, c4, c5, c6, c7, c8, c9, c10, c11, c12, c13, c14, c15, c16, c17⟩ } := by
  refine ⟨fun p hp => ?_, h.mem, h.map, h.fuses⟩
  cases p <;> first
    | exact h.kept _ hp
    | exact absurd (Area.mem_of_sub hl (by decide)) hp

theorem Keeps.upd_sync_fab {x : State} {v_sync v_fab} (h : Keeps l u x) (hl : Area.sub [.sync, .fab] l = true) :
    Keeps l u { pending := x.pending, aon := x.aon, fresh := x.fresh, mem := x.mem, chk := x.chk, reported := x.reported, lines := x.lines, regs := x.regs, cores := x.cores, clusters := x.clusters, mems := x.mems, tlbInv := x.tlbInv, flits := x.flits, lostFlits := x.lostFlits, dimmGib := x.dimmGib, dimmBanks := x.dimmBanks, damsons := x.damsons, channels := x.channels, sync := v_sync, fab := v_fab, hif := x.hif, power := x.power, board := x.board, ras := x.ras, husk := x.husk, sec := x.sec } := by
  refine ⟨fun p hp => ?_, h.mem, h.map, h.fuses⟩
  cases p <;> first
    | exact h.kept _ hp
    | exact absurd (Area.mem_of_sub hl (by decide)) hp

theorem Keeps.upd_tlbInv {x : State} {v_tlbInv} (h : Keeps l u x) (hl : Area.sub [.tlbInv] l = true) :
    Keeps l u { pending := x.pending, aon := x.aon, fresh := x.fresh, mem := x.mem, chk := x.chk, reported := x.reported, lines := x.lines, regs := x.regs, cores := x.cores, clusters := x.clusters, mems := x.mems, tlbInv := v_tlbInv, flits := x.flits, lostFlits := x.lostFlits, dimmGib := x.dimmGib, dimmBanks := x.dimmBanks, damsons := x.damsons, channels := x.channels, sync := x.sync, fab := x.fab, hif := x.hif, power := x.power, board := x.board, ras := x.ras, husk := x.husk, sec := x.sec } := by
  refine ⟨fun p hp => ?_, h.mem, h.map, h.fuses⟩
  cases p <;> first
    | exact h.kept _ hp
    | exact absurd (Area.mem_of_sub hl (by decide)) hp

theorem Keeps.upd_channels {x : State} {v_channels} (h : Keeps l u x) (hl : Area.sub [.channels] l = true) :
    Keeps l u { pending := x.pending, aon := x.aon, fresh := x.fresh, mem := x.mem, chk := x.chk, reported := x.reported, lines := x.lines, regs := x.regs, cores := x.cores, clusters := x.clusters, mems := x.mems, tlbInv := x.tlbInv, flits := x.flits, lostFlits := x.lostFlits, dimmGib := x.dimmGib, dimmBanks := x.dimmBanks, damsons := x.damsons, channels := v_channels, sync := x.sync, fab := x.fab, hif := x.hif, power := x.power, board := x.board, ras := x.ras, husk := x.husk, sec := x.sec } := by
  refine ⟨fun p hp => ?_, h.mem, h.map, h.fuses⟩
  cases p <;> first
    | exact h.kept _ hp
    | exact absurd (Area.mem_of_sub hl (by decide)) hp

theorem Keeps.upd_regs_cores_clusters_mems_tlbInv_flits_lostFlits_damsons_sync_fab_hif_power_ras {x : State} {v_regs v_cores v_clusters v_mems v_tlbInv v_flits v_lostFlits v_damsons v_sync v_fab v_hif v_power v_ras} (h : Keeps l u x) (hl : Area.sub [.regs, .cores, .clusters, .mems, .tlbInv, .flits, .lostFlits, .damsons, .sync, .fab, .hif, .power, .ras] l = true) :
    Keeps l u { pending := x.pending, aon := x.aon, fresh := x.fresh, mem := x.mem, chk := x.chk, reported := x.reported, lines := x.lines, regs := v_regs, cores := v_cores, clusters := v_clusters, mems := v_mems, tlbInv := v_tlbInv, flits := v_flits, lostFlits := v_lostFlits, dimmGib := x.dimmGib, dimmBanks := x.dimmBanks, damsons := v_damsons, channels := x.channels, sync := v_sync, fab := v_fab, hif := v_hif, power := v_power, board := x.board, ras := v_ras, husk := x.husk, sec := x.sec } := by
  refine ⟨fun p hp => ?_, h.mem, h.map, h.fuses⟩
  cases p <;> first
    | exact h.kept _ hp
    | exact absurd (Area.mem_of_sub hl (by decide)) hp

theorem Keeps.upd_fresh_board_sec {x : State} {v_fresh v_board c0 c1 c2 c3 c4 c5 c6 c7 c8 c9 c10 c11 c12 c13 c14 c15 c16 c17} (h : Keeps l u x) (hl : Area.sub [.fresh, .board, .sec] l = true) :
    Keeps l u { pending := x.pending, aon := x.aon, fresh := v_fresh, mem := x.mem, chk := x.chk, reported := x.reported, lines := x.lines, regs := x.regs, cores := x.cores, clusters := x.clusters, mems := x.mems, tlbInv := x.tlbInv, flits := x.flits, lostFlits := x.lostFlits, dimmGib := x.dimmGib, dimmBanks := x.dimmBanks, damsons := x.damsons, channels := x.channels, sync := x.sync, fab := x.fab, hif := x.hif, power := x.power, board := v_board, ras := x.ras, husk := x.husk, sec := ⟨x.sec.fuses, x.sec.fusedMap, c0, c1, c2, c3, c4, c5, c6, c7, c8, c9, c10, c11, c12, c13, c14, c15, c16, c17⟩ } := by
  refine ⟨fun p hp => ?_, h.mem, h.map, h.fuses⟩
  cases p <;> first
    | exact h.kept _ hp
    | exact absurd (Area.mem_of_sub hl (by decide)) hp

theorem Keeps.upd_board_sec {x : State} {v_board c0 c1 c2 c3 c4 c5 c6 c7 c8 c9 c10 c11 c12 c13 c14 c15 c16 c17} (h : Keeps l u x) (hl : Area.sub [.board, .sec] l = true) :
    Keeps l u { pending := x.pending, aon := x.aon, fresh := x.fresh, mem := x.mem, chk := x.chk, reported := x.reported, lines := x.lines, regs := x.regs, cores := x.cores, clusters := x.clusters, mems := x.mems, tlbInv := x.tlbInv, flits := x.flits, lostFlits := x.lostFlits, dimmGib := x.dimmGib, dimmBanks := x.dimmBanks, damsons := x.damsons, channels := x.channels, sync := x.sync, fab := x.fab, hif := x.hif, power := x.power, board := v_board, ras := x.ras, husk := x.husk, sec := ⟨x.sec.fuses, x.sec.fusedMap, c0, c1, c2, c3, c4, c5, c6, c7, c8, c9, c10, c11, c12, c13, c14, c15, c16, c17⟩ } := by
  refine ⟨fun p hp => ?_, h.mem, h.map, h.fuses⟩
  cases p <;> first
    | exact h.kept _ hp
    | exact absurd (Area.mem_of_sub hl (by decide)) hp

theorem Keeps.upd_board_husk {x : State} {v_board v_husk} (h : Keeps l u x) (hl : Area.sub [.board, .husk] l = true) :
    Keeps l u { pending := x.pending, aon := x.aon, fresh := x.fresh, mem := x.mem, chk := x.chk, reported := x.reported, lines := x.lines, regs := x.regs, cores := x.cores, clusters := x.clusters, mems := x.mems, tlbInv := x.tlbInv, flits := x.flits, lostFlits := x.lostFlits, dimmGib := x.dimmGib, dimmBanks := x.dimmBanks, damsons := x.damsons, channels := x.channels, sync := x.sync, fab := x.fab, hif := x.hif, power := x.power, board := v_board, ras := x.ras, husk := v_husk, sec := x.sec } := by
  refine ⟨fun p hp => ?_, h.mem, h.map, h.fuses⟩
  cases p <;> first
    | exact h.kept _ hp
    | exact absurd (Area.mem_of_sub hl (by decide)) hp

theorem Keeps.upd_ras {x : State} {v_ras} (h : Keeps l u x) (hl : Area.sub [.ras] l = true) :
    Keeps l u { pending := x.pending, aon := x.aon, fresh := x.fresh, mem := x.mem, chk := x.chk, reported := x.reported, lines := x.lines, regs := x.regs, cores := x.cores, clusters := x.clusters, mems := x.mems, tlbInv := x.tlbInv, flits := x.flits, lostFlits := x.lostFlits, dimmGib := x.dimmGib, dimmBanks := x.dimmBanks, damsons := x.damsons, channels := x.channels, sync := x.sync, fab := x.fab, hif := x.hif, power := x.power, board := x.board, ras := v_ras, husk := x.husk, sec := x.sec } := by
  refine ⟨fun p hp => ?_, h.mem, h.map, h.fuses⟩
  cases p <;> first
    | exact h.kept _ hp
    | exact absurd (Area.mem_of_sub hl (by decide)) hp

theorem Keeps.upd_ras_husk {x : State} {v_ras v_husk} (h : Keeps l u x) (hl : Area.sub [.ras, .husk] l = true) :
    Keeps l u { pending := x.pending, aon := x.aon, fresh := x.fresh, mem := x.mem, chk := x.chk, reported := x.reported, lines := x.lines, regs := x.regs, cores := x.cores, clusters := x.clusters, mems := x.mems, tlbInv := x.tlbInv, flits := x.flits, lostFlits := x.lostFlits, dimmGib := x.dimmGib, dimmBanks := x.dimmBanks, damsons := x.damsons, channels := x.channels, sync := x.sync, fab := x.fab, hif := x.hif, power := x.power, board := x.board, ras := v_ras, husk := v_husk, sec := x.sec } := by
  refine ⟨fun p hp => ?_, h.mem, h.map, h.fuses⟩
  cases p <;> first
    | exact h.kept _ hp
    | exact absurd (Area.mem_of_sub hl (by decide)) hp

theorem Keeps.upd_clusters_power {x : State} {v_clusters v_power} (h : Keeps l u x) (hl : Area.sub [.clusters,
    .power] l = true) :
    Keeps l u { pending := x.pending, aon := x.aon, fresh := x.fresh, mem := x.mem, chk := x.chk, reported := x.reported, lines := x.lines, regs := x.regs, cores := x.cores, clusters := v_clusters, mems := x.mems, tlbInv := x.tlbInv, flits := x.flits, lostFlits := x.lostFlits, dimmGib := x.dimmGib, dimmBanks := x.dimmBanks, damsons := x.damsons, channels := x.channels, sync := x.sync, fab := x.fab, hif := x.hif, power := v_power, board := x.board, ras := x.ras, husk := x.husk, sec := x.sec } := by
  refine ⟨fun p hp => ?_, h.mem, h.map, h.fuses⟩
  cases p <;> first
    | exact h.kept _ hp
    | exact absurd (Area.mem_of_sub hl (by decide)) hp

theorem Keeps.upd_lostFlits {x : State} {v_lostFlits} (h : Keeps l u x) (hl : Area.sub [.lostFlits] l = true) :
    Keeps l u { pending := x.pending, aon := x.aon, fresh := x.fresh, mem := x.mem, chk := x.chk, reported := x.reported, lines := x.lines, regs := x.regs, cores := x.cores, clusters := x.clusters, mems := x.mems, tlbInv := x.tlbInv, flits := x.flits, lostFlits := v_lostFlits, dimmGib := x.dimmGib, dimmBanks := x.dimmBanks, damsons := x.damsons, channels := x.channels, sync := x.sync, fab := x.fab, hif := x.hif, power := x.power, board := x.board, ras := x.ras, husk := x.husk, sec := x.sec } := by
  refine ⟨fun p hp => ?_, h.mem, h.map, h.fuses⟩
  cases p <;> first
    | exact h.kept _ hp
    | exact absurd (Area.mem_of_sub hl (by decide)) hp

theorem Keeps.upd_flits {x : State} {v_flits} (h : Keeps l u x) (hl : Area.sub [.flits] l = true) :
    Keeps l u { pending := x.pending, aon := x.aon, fresh := x.fresh, mem := x.mem, chk := x.chk, reported := x.reported, lines := x.lines, regs := x.regs, cores := x.cores, clusters := x.clusters, mems := x.mems, tlbInv := x.tlbInv, flits := v_flits, lostFlits := x.lostFlits, dimmGib := x.dimmGib, dimmBanks := x.dimmBanks, damsons := x.damsons, channels := x.channels, sync := x.sync, fab := x.fab, hif := x.hif, power := x.power, board := x.board, ras := x.ras, husk := x.husk, sec := x.sec } := by
  refine ⟨fun p hp => ?_, h.mem, h.map, h.fuses⟩
  cases p <;> first
    | exact h.kept _ hp
    | exact absurd (Area.mem_of_sub hl (by decide)) hp

theorem Keeps.upd_flits_lostFlits {x : State} {v_flits v_lostFlits} (h : Keeps l u x) (hl : Area.sub [.flits,
    .lostFlits] l = true) :
    Keeps l u { pending := x.pending, aon := x.aon, fresh := x.fresh, mem := x.mem, chk := x.chk, reported := x.reported, lines := x.lines, regs := x.regs, cores := x.cores, clusters := x.clusters, mems := x.mems, tlbInv := x.tlbInv, flits := v_flits, lostFlits := v_lostFlits, dimmGib := x.dimmGib, dimmBanks := x.dimmBanks, damsons := x.damsons, channels := x.channels, sync := x.sync, fab := x.fab, hif := x.hif, power := x.power, board := x.board, ras := x.ras, husk := x.husk, sec := x.sec } := by
  refine ⟨fun p hp => ?_, h.mem, h.map, h.fuses⟩
  cases p <;> first
    | exact h.kept _ hp
    | exact absurd (Area.mem_of_sub hl (by decide)) hp

theorem Keeps.upd_power_ras {x : State} {v_power v_ras} (h : Keeps l u x) (hl : Area.sub [.power, .ras] l = true) :
    Keeps l u { pending := x.pending, aon := x.aon, fresh := x.fresh, mem := x.mem, chk := x.chk, reported := x.reported, lines := x.lines, regs := x.regs, cores := x.cores, clusters := x.clusters, mems := x.mems, tlbInv := x.tlbInv, flits := x.flits, lostFlits := x.lostFlits, dimmGib := x.dimmGib, dimmBanks := x.dimmBanks, damsons := x.damsons, channels := x.channels, sync := x.sync, fab := x.fab, hif := x.hif, power := v_power, board := x.board, ras := v_ras, husk := x.husk, sec := x.sec } := by
  refine ⟨fun p hp => ?_, h.mem, h.map, h.fuses⟩
  cases p <;> first
    | exact h.kept _ hp
    | exact absurd (Area.mem_of_sub hl (by decide)) hp

theorem Keeps.upd_hif_board_sec {x : State} {v_hif v_board c0 c1 c2 c3 c4 c5 c6 c7 c8 c9 c10 c11 c12 c13 c14 c15 c16 c17} (h : Keeps l u x) (hl : Area.sub [.hif, .board, .sec] l = true) :
    Keeps l u { pending := x.pending, aon := x.aon, fresh := x.fresh, mem := x.mem, chk := x.chk, reported := x.reported, lines := x.lines, regs := x.regs, cores := x.cores, clusters := x.clusters, mems := x.mems, tlbInv := x.tlbInv, flits := x.flits, lostFlits := x.lostFlits, dimmGib := x.dimmGib, dimmBanks := x.dimmBanks, damsons := x.damsons, channels := x.channels, sync := x.sync, fab := x.fab, hif := v_hif, power := x.power, board := v_board, ras := x.ras, husk := x.husk, sec := ⟨x.sec.fuses, x.sec.fusedMap, c0, c1, c2, c3, c4, c5, c6, c7, c8, c9, c10, c11, c12, c13, c14, c15, c16, c17⟩ } := by
  refine ⟨fun p hp => ?_, h.mem, h.map, h.fuses⟩
  cases p <;> first
    | exact h.kept _ hp
    | exact absurd (Area.mem_of_sub hl (by decide)) hp

theorem Keeps.upd_hif_power_ras {x : State} {v_hif v_power v_ras} (h : Keeps l u x) (hl : Area.sub [.hif, .power,
    .ras] l = true) :
    Keeps l u { pending := x.pending, aon := x.aon, fresh := x.fresh, mem := x.mem, chk := x.chk, reported := x.reported, lines := x.lines, regs := x.regs, cores := x.cores, clusters := x.clusters, mems := x.mems, tlbInv := x.tlbInv, flits := x.flits, lostFlits := x.lostFlits, dimmGib := x.dimmGib, dimmBanks := x.dimmBanks, damsons := x.damsons, channels := x.channels, sync := x.sync, fab := x.fab, hif := v_hif, power := v_power, board := x.board, ras := v_ras, husk := x.husk, sec := x.sec } := by
  refine ⟨fun p hp => ?_, h.mem, h.map, h.fuses⟩
  cases p <;> first
    | exact h.kept _ hp
    | exact absurd (Area.mem_of_sub hl (by decide)) hp

theorem Keeps.upd_dimmGib_dimmBanks {x : State} {v_dimmGib v_dimmBanks} (h : Keeps l u x) (hl : Area.sub [.dimmGib, .dimmBanks] l = true) :
    Keeps l u { pending := x.pending, aon := x.aon, fresh := x.fresh, mem := x.mem, chk := x.chk, reported := x.reported, lines := x.lines, regs := x.regs, cores := x.cores, clusters := x.clusters, mems := x.mems, tlbInv := x.tlbInv, flits := x.flits, lostFlits := x.lostFlits, dimmGib := v_dimmGib, dimmBanks := v_dimmBanks, damsons := x.damsons, channels := x.channels, sync := x.sync, fab := x.fab, hif := x.hif, power := x.power, board := x.board, ras := x.ras, husk := x.husk, sec := x.sec } := by
  refine ⟨fun p hp => ?_, h.mem, h.map, h.fuses⟩
  cases p <;> first
    | exact h.kept _ hp
    | exact absurd (Area.mem_of_sub hl (by decide)) hp

theorem Keeps.upd_fab_ras {x : State} {v_fab v_ras} (h : Keeps l u x) (hl : Area.sub [.fab, .ras] l = true) :
    Keeps l u { pending := x.pending, aon := x.aon, fresh := x.fresh, mem := x.mem, chk := x.chk, reported := x.reported, lines := x.lines, regs := x.regs, cores := x.cores, clusters := x.clusters, mems := x.mems, tlbInv := x.tlbInv, flits := x.flits, lostFlits := x.lostFlits, dimmGib := x.dimmGib, dimmBanks := x.dimmBanks, damsons := x.damsons, channels := x.channels, sync := x.sync, fab := v_fab, hif := x.hif, power := x.power, board := x.board, ras := v_ras, husk := x.husk, sec := x.sec } := by
  refine ⟨fun p hp => ?_, h.mem, h.map, h.fuses⟩
  cases p <;> first
    | exact h.kept _ hp
    | exact absurd (Area.mem_of_sub hl (by decide)) hp

theorem Keeps.upd_chk {x : State} {v_chk} (h : Keeps l u x) (hl : Area.sub [.chk] l = true) :
    Keeps l u { pending := x.pending, aon := x.aon, fresh := x.fresh, mem := x.mem, chk := v_chk, reported := x.reported, lines := x.lines, regs := x.regs, cores := x.cores, clusters := x.clusters, mems := x.mems, tlbInv := x.tlbInv, flits := x.flits, lostFlits := x.lostFlits, dimmGib := x.dimmGib, dimmBanks := x.dimmBanks, damsons := x.damsons, channels := x.channels, sync := x.sync, fab := x.fab, hif := x.hif, power := x.power, board := x.board, ras := x.ras, husk := x.husk, sec := x.sec } := by
  refine ⟨fun p hp => ?_, h.mem, h.map, h.fuses⟩
  cases p <;> first
    | exact h.kept _ hp
    | exact absurd (Area.mem_of_sub hl (by decide)) hp

theorem Keeps.upd_regs_hif {x : State} {v_regs v_hif} (h : Keeps l u x) (hl : Area.sub [.regs, .hif] l = true) :
    Keeps l u { pending := x.pending, aon := x.aon, fresh := x.fresh, mem := x.mem, chk := x.chk, reported := x.reported, lines := x.lines, regs := v_regs, cores := x.cores, clusters := x.clusters, mems := x.mems, tlbInv := x.tlbInv, flits := x.flits, lostFlits := x.lostFlits, dimmGib := x.dimmGib, dimmBanks := x.dimmBanks, damsons := x.damsons, channels := x.channels, sync := x.sync, fab := x.fab, hif := v_hif, power := x.power, board := x.board, ras := x.ras, husk := x.husk, sec := x.sec } := by
  refine ⟨fun p hp => ?_, h.mem, h.map, h.fuses⟩
  cases p <;> first
    | exact h.kept _ hp
    | exact absurd (Area.mem_of_sub hl (by decide)) hp

theorem Keeps.upd_cores_hif {x : State} {v_cores v_hif} (h : Keeps l u x) (hl : Area.sub [.cores, .hif] l = true) :
    Keeps l u { pending := x.pending, aon := x.aon, fresh := x.fresh, mem := x.mem, chk := x.chk, reported := x.reported, lines := x.lines, regs := x.regs, cores := v_cores, clusters := x.clusters, mems := x.mems, tlbInv := x.tlbInv, flits := x.flits, lostFlits := x.lostFlits, dimmGib := x.dimmGib, dimmBanks := x.dimmBanks, damsons := x.damsons, channels := x.channels, sync := x.sync, fab := x.fab, hif := v_hif, power := x.power, board := x.board, ras := x.ras, husk := x.husk, sec := x.sec } := by
  refine ⟨fun p hp => ?_, h.mem, h.map, h.fuses⟩
  cases p <;> first
    | exact h.kept _ hp
    | exact absurd (Area.mem_of_sub hl (by decide)) hp

/-! projections -/
def Start.st : Start → State
  | .go s _ => s
  | .fin s _ => s
  | .wait s => s
  | .hold s _ => s
  | .stop s _ _ => s
def Move.st : Move → State
  | .ok s _ => s
  | .block s _ _ => s
  | .stop s _ _ => s
def SeqRes.st (r : SeqRes) (d : State) : State := match r with
  | .done s _ _ => s
  | .stop _ => d
  | .issued s => s
  | .held s => s
  | .wait => d
def outcome (o : Host.Outcome State Fault Refusal) (d : State) : State := match o with
  | .next s => s
  | _ => d
def moveSum (m : Move ⊕ State × QEnt) : State := match m with
  | .inl x => x.st
  | .inr p => p.1
def sumR {α : Type} (m : State ⊕ α × State) : State := match m with
  | .inl x => x
  | .inr p => p.2
def sumR3 {α β : Type} (m : State ⊕ α × β × State) : State := match m with
  | .inl x => x
  | .inr p => p.2.2
def startSum (m : Start ⊕ State × QEnt) : State := match m with
  | .inl x => x.st
  | .inr p => p.1
def optFst {α : Type} (o : Option (State × α)) (d : State) : State := match o with
  | some p => p.1
  | none => d
def optSnd {α : Type} (o : Option (α × State)) (d : State) : State := match o with
  | some p => p.2
  | none => d

theorem Keeps.foldl {u : State} {α : Type} {f : State → α → State} {xs : List α} {s : State}
    (hf : ∀ s a, Keeps l u s → Keeps l u (f s a)) (h : Keeps l u s) : Keeps l u (xs.foldl f s) := by
  induction xs generalizing s with
  | nil => exact h
  | cons a xs ih => exact ih (hf s a h)
theorem Keeps.foldlR {u : State} {α β : Type} {f : β × State → α → β × State} {xs : List α} {b : β × State}
    (hf : ∀ b a, Keeps l u b.2 → Keeps l u (f b a).2) (h : Keeps l u b.2) : Keeps l u (xs.foldl f b).2 := by
  induction xs generalizing b with
  | nil => exact h
  | cons a xs ih => exact ih (hf b a h)
theorem Keeps.foldlL {u : State} {α β : Type} {f : State × β → α → State × β} {xs : List α} {b : State × β}
    (hf : ∀ b a, Keeps l u b.1 → Keeps l u (f b a).1) (h : Keeps l u b.1) : Keeps l u (xs.foldl f b).1 := by
  induction xs generalizing b with
  | nil => exact h
  | cons a xs ih => exact ih (hf b a h)
def Issue.st : Issue → State
  | .sent s _ => s
  | .stop s _ _ => s
def Built.st (r : Built) (d : State) : State := match r with
  | .sent s _ => s
  | _ => d
def LocalRes.st (r : LocalRes) (d : State) : State := match r with
  | .block s => s
  | _ => d
theorem Keeps.foldlRd {u : State} {α : Type} {f : Rd → α → Rd} {xs : List α} {b : Rd}
    (hf : ∀ b a, Keeps l u b.s → Keeps l u (f b a).s) (h : Keeps l u b.s) : Keeps l u (xs.foldl f b).s := by
  induction xs generalizing b with
  | nil => exact h
  | cons a xs ih => exact ih (hf b a h)
theorem Keeps.foldlR2 {u : State} {α β γ : Type} {f : β × γ × State → α → β × γ × State} {xs : List α} {b : β × γ × State}
    (hf : ∀ b a, Keeps l u b.2.2 → Keeps l u (f b a).2.2) (h : Keeps l u b.2.2) : Keeps l u (xs.foldl f b).2.2 := by
  induction xs generalizing b with
  | nil => exact h
  | cons a xs ih => exact ih (hf b a h)
theorem Keeps.ite {u a b : State} {c : Prop} [Decidable c] (h : c → Keeps l u a) (g : ¬ c → Keeps l u b) : Keeps l u (if c then a else b) := by
  split
  · exact h ‹_›
  · exact g ‹_›
theorem Keeps.iteStart {u : State} {a b : Start} {c : Prop} [Decidable c] (h : c → Keeps l u a.st) (g : ¬ c → Keeps l u b.st) : Keeps l u (if c then a else b).st := by
  split
  · exact h ‹_›
  · exact g ‹_›
theorem Keeps.start_go {u t : State} {q} (h : Keeps l u t) : Keeps l u (Start.go t q).st := h
theorem Keeps.of_start_go {u t : State} {q} {r : Start} (e : r = Start.go t q) (h : Keeps l u r.st) : Keeps l u t := by
  rw [e] at h; exact h
theorem Keeps.start_fin {u t : State} {q} (h : Keeps l u t) : Keeps l u (Start.fin t q).st := h
theorem Keeps.of_start_fin {u t : State} {q} {r : Start} (e : r = Start.fin t q) (h : Keeps l u r.st) : Keeps l u t := by
  rw [e] at h; exact h
theorem Keeps.start_wait {u t : State}  (h : Keeps l u t) : Keeps l u (Start.wait t).st := h
theorem Keeps.of_start_wait {u t : State}  {r : Start} (e : r = Start.wait t) (h : Keeps l u r.st) : Keeps l u t := by
  rw [e] at h; exact h
theorem Keeps.start_hold {u t : State} {q} (h : Keeps l u t) : Keeps l u (Start.hold t q).st := h
theorem Keeps.of_start_hold {u t : State} {q} {r : Start} (e : r = Start.hold t q) (h : Keeps l u r.st) : Keeps l u t := by
  rw [e] at h; exact h
theorem Keeps.start_stop {u t : State} {x} {y} (h : Keeps l u t) : Keeps l u (Start.stop t x y).st := h
theorem Keeps.of_start_stop {u t : State} {x} {y} {r : Start} (e : r = Start.stop t x y) (h : Keeps l u r.st) : Keeps l u t := by
  rw [e] at h; exact h
theorem Keeps.iteMove {u : State} {a b : Move} {c : Prop} [Decidable c] (h : c → Keeps l u a.st) (g : ¬ c → Keeps l u b.st) : Keeps l u (if c then a else b).st := by
  split
  · exact h ‹_›
  · exact g ‹_›
theorem Keeps.move_ok {u t : State} {p} (h : Keeps l u t) : Keeps l u (Move.ok t p).st := h
theorem Keeps.of_move_ok {u t : State} {p} {r : Move} (e : r = Move.ok t p) (h : Keeps l u r.st) : Keeps l u t := by
  rw [e] at h; exact h
theorem Keeps.move_block {u t : State} {p} {a} (h : Keeps l u t) : Keeps l u (Move.block t p a).st := h
theorem Keeps.of_move_block {u t : State} {p} {a} {r : Move} (e : r = Move.block t p a) (h : Keeps l u r.st) : Keeps l u t := by
  rw [e] at h; exact h
theorem Keeps.move_stop {u t : State} {x} {y} (h : Keeps l u t) : Keeps l u (Move.stop t x y).st := h
theorem Keeps.of_move_stop {u t : State} {x} {y} {r : Move} (e : r = Move.stop t x y) (h : Keeps l u r.st) : Keeps l u t := by
  rw [e] at h; exact h
theorem Keeps.iteIssue {u : State} {a b : Issue} {c : Prop} [Decidable c] (h : c → Keeps l u a.st) (g : ¬ c → Keeps l u b.st) : Keeps l u (if c then a else b).st := by
  split
  · exact h ‹_›
  · exact g ‹_›
theorem Keeps.issue_sent {u t : State} {q} (h : Keeps l u t) : Keeps l u (Issue.sent t q).st := h
theorem Keeps.of_issue_sent {u t : State} {q} {r : Issue} (e : r = Issue.sent t q) (h : Keeps l u r.st) : Keeps l u t := by
  rw [e] at h; exact h
theorem Keeps.issue_stop {u t : State} {x} {y} (h : Keeps l u t) : Keeps l u (Issue.stop t x y).st := h
theorem Keeps.of_issue_stop {u t : State} {x} {y} {r : Issue} (e : r = Issue.stop t x y) (h : Keeps l u r.st) : Keeps l u t := by
  rw [e] at h; exact h
theorem Keeps.iteSeqRes {u d : State} {a b : SeqRes} {c : Prop} [Decidable c] (h : c → Keeps l u (a.st d)) (g : ¬ c → Keeps l u (b.st d)) : Keeps l u ((if c then a else b).st d) := by
  split
  · exact h ‹_›
  · exact g ‹_›
theorem Keeps.seqres_done {u t d : State} {x} {y} (h : Keeps l u t) : Keeps l u ((SeqRes.done t x y).st d) := h
theorem Keeps.of_seqres_done {u t : State} {x} {y} {r : SeqRes} (e : r = SeqRes.done t x y) (h : Keeps l u (r.st u)) : Keeps l u t := by
  rw [e] at h; exact h
theorem Keeps.seqres_issued {u t d : State}  (h : Keeps l u t) : Keeps l u ((SeqRes.issued t).st d) := h
theorem Keeps.of_seqres_issued {u t : State}  {r : SeqRes} (e : r = SeqRes.issued t) (h : Keeps l u (r.st u)) : Keeps l u t := by
  rw [e] at h; exact h
theorem Keeps.seqres_held {u t d : State}  (h : Keeps l u t) : Keeps l u ((SeqRes.held t).st d) := h
theorem Keeps.of_seqres_held {u t : State}  {r : SeqRes} (e : r = SeqRes.held t) (h : Keeps l u (r.st u)) : Keeps l u t := by
  rw [e] at h; exact h
theorem Keeps.iteBuilt {u d : State} {a b : Built} {c : Prop} [Decidable c] (h : c → Keeps l u (a.st d)) (g : ¬ c → Keeps l u (b.st d)) : Keeps l u ((if c then a else b).st d) := by
  split
  · exact h ‹_›
  · exact g ‹_›
theorem Keeps.built_sent {u t d : State} {q} (h : Keeps l u t) : Keeps l u ((Built.sent t q).st d) := h
theorem Keeps.of_built_sent {u t : State} {q} {r : Built} (e : r = Built.sent t q) (h : Keeps l u (r.st u)) : Keeps l u t := by
  rw [e] at h; exact h
theorem Keeps.iteLocalRes {u d : State} {a b : LocalRes} {c : Prop} [Decidable c] (h : c → Keeps l u (a.st d)) (g : ¬ c → Keeps l u (b.st d)) : Keeps l u ((if c then a else b).st d) := by
  split
  · exact h ‹_›
  · exact g ‹_›
theorem Keeps.localres_block {u t d : State}  (h : Keeps l u t) : Keeps l u ((LocalRes.block t).st d) := h
theorem Keeps.of_localres_block {u t : State}  {r : LocalRes} (e : r = LocalRes.block t) (h : Keeps l u (r.st u)) : Keeps l u t := by
  rw [e] at h; exact h
theorem Keeps.of_pair {u t : State} {α : Type} {a : α} {p : α × State} (e : p = (a, t)) (h : Keeps l u p.2) : Keeps l u t := by
  rw [e] at h; exact h
theorem Keeps.of_pairL {u t : State} {α : Type} {a : α} {p : State × α} (e : p = (t, a)) (h : Keeps l u p.1) : Keeps l u t := by
  rw [e] at h; exact h
theorem Keeps.of_triple {u t : State} {α β : Type} {a : α} {b : β} {p : α × β × State} (e : p = (a, b, t)) (h : Keeps l u p.2.2) : Keeps l u t := by
  rw [e] at h; exact h
theorem Keeps.of_some {u t : State} {o : Option State} (e : o = some t) (h : Keeps l u (o.getD u)) : Keeps l u t := by
  rw [e] at h; exact h
theorem Keeps.of_someR {u t : State} {α : Type} {a : α} {o : Option (α × State)} (e : o = some (a, t)) (h : Keeps l u (optSnd o u)) : Keeps l u t := by
  rw [e] at h; exact h
theorem Keeps.of_someL {u t : State} {α : Type} {a : α} {o : Option (State × α)} (e : o = some (t, a)) (h : Keeps l u (optFst o u)) : Keeps l u t := by
  rw [e] at h; exact h
theorem Keeps.iteRd {u : State}  {a b : Rd} {c : Prop} [Decidable c] (h : c → Keeps l u (a.s)) (g : ¬ c → Keeps l u (b.s)) : Keeps l u ((if c then a else b).s) := by
  split
  · exact h ‹_›
  · exact g ‹_›
theorem Keeps.itePair {u : State} {α : Type} {a b : α × State} {c : Prop} [Decidable c] (h : c → Keeps l u (a.2)) (g : ¬ c → Keeps l u (b.2)) : Keeps l u ((if c then a else b).2) := by
  split
  · exact h ‹_›
  · exact g ‹_›
theorem Keeps.itePairL {u : State} {α : Type} {a b : State × α} {c : Prop} [Decidable c] (h : c → Keeps l u (a.1)) (g : ¬ c → Keeps l u (b.1)) : Keeps l u ((if c then a else b).1) := by
  split
  · exact h ‹_›
  · exact g ‹_›
theorem Keeps.iteTriple {u : State} {α β : Type} {a b : α × β × State} {c : Prop} [Decidable c] (h : c → Keeps l u (a.2.2)) (g : ¬ c → Keeps l u (b.2.2)) : Keeps l u ((if c then a else b).2.2) := by
  split
  · exact h ‹_›
  · exact g ‹_›
theorem Keeps.iteOpt {u d : State}  {a b : Option State} {c : Prop} [Decidable c] (h : c → Keeps l u (a.getD d)) (g : ¬ c → Keeps l u (b.getD d)) : Keeps l u ((if c then a else b).getD d) := by
  split
  · exact h ‹_›
  · exact g ‹_›
theorem Keeps.iteOptR {u d : State} {α : Type} {a b : Option (α × State)} {c : Prop} [Decidable c] (h : c → Keeps l u (optSnd a d)) (g : ¬ c → Keeps l u (optSnd b d)) : Keeps l u (optSnd (if c then a else b) d) := by
  split
  · exact h ‹_›
  · exact g ‹_›
theorem Keeps.iteOptL {u d : State} {α : Type} {a b : Option (State × α)} {c : Prop} [Decidable c] (h : c → Keeps l u (optFst a d)) (g : ¬ c → Keeps l u (optFst b d)) : Keeps l u (optFst (if c then a else b) d) := by
  split
  · exact h ‹_›
  · exact g ‹_›
theorem Keeps.optR_some {u d t : State} {α : Type} {a : α} (h : Keeps l u t) : Keeps l u (optSnd (some (a, t)) d) := h
theorem Keeps.optL_some {u d t : State} {α : Type} {a : α} (h : Keeps l u t) : Keeps l u (optFst (some (t, a)) d) := h
theorem Keeps.optR_none {u d : State} {α : Type} (h : Keeps l u d) : Keeps l u (optSnd (none : Option (α × State)) d) := h
theorem Keeps.optL_none {u d : State} {α : Type} (h : Keeps l u d) : Keeps l u (optFst (none : Option (State × α)) d) := h
theorem Keeps.opt_some {u d t : State} (h : Keeps l u t) : Keeps l u ((some t).getD d) := h
theorem Keeps.pair_mk {u t : State} {α : Type} {a : α} (h : Keeps l u t) : Keeps l u (a, t).2 := h
theorem Keeps.pairL_mk {u t : State} {α : Type} {a : α} (h : Keeps l u t) : Keeps l u (t, a).1 := h
theorem Keeps.triple_mk {u t : State} {α β : Type} {a : α} {b : β} (h : Keeps l u t) : Keeps l u (a, b, t).2.2 := h
theorem Keeps.seqres_stop {u : State} {c : BitVec 8} : Keeps l u ((SeqRes.stop c).st u) := Keeps.refl u
theorem Keeps.seqres_wait {u : State} : Keeps l u (SeqRes.wait.st u) := Keeps.refl u
theorem Keeps.built_failed {u : State} {q : QEnt} : Keeps l u ((Built.failed q).st u) := Keeps.refl u
theorem Keeps.built_noTag {u : State} : Keeps l u (Built.noTag.st u) := Keeps.refl u
theorem Keeps.localres_ok {u : State} {x} : Keeps l u ((LocalRes.ok x).st u) := Keeps.refl u
theorem Keeps.localres_bad {u : State} : Keeps l u (LocalRes.bad.st u) := Keeps.refl u
theorem Keeps.outcome_next {u t : State} (h : Keeps l u t) : Keeps l u (outcome (.next t) u) := h
theorem Keeps.outcome_fault {u : State} {f} : Keeps l u (outcome (.fault f) u) := Keeps.refl u
theorem Keeps.iteOutcome {u : State} {a b : Host.Outcome State Fault Refusal} {c : Prop} [Decidable c] (h : c → Keeps l u (outcome a u)) (g : ¬ c → Keeps l u (outcome b u)) : Keeps l u (outcome (if c then a else b) u) := by
  split
  · exact h ‹_›
  · exact g ‹_›
theorem Keeps.opt_none {u d : State} (h : Keeps l u d) : Keeps l u ((none : Option State).getD d) := h
theorem Keeps.startSum_inl {u : State} {x : Start} (h : Keeps l u x.st) : Keeps l u (startSum (.inl x)) := h
theorem Keeps.startSum_inr {u t : State} {q : QEnt} (h : Keeps l u t) : Keeps l u (startSum (.inr (t, q))) := h
theorem Keeps.of_startSum_inl {u : State} {x : Start} {r : Start ⊕ State × QEnt} (e : r = .inl x) (h : Keeps l u (startSum r)) : Keeps l u x.st := by
  rw [e] at h; exact h
theorem Keeps.of_startSum_inr {u t : State} {q : QEnt} {r : Start ⊕ State × QEnt} (e : r = .inr (t, q)) (h : Keeps l u (startSum r)) : Keeps l u t := by
  rw [e] at h; exact h
theorem Keeps.itestartSum {u : State} {a b : Start ⊕ State × QEnt} {c : Prop} [Decidable c] (h : c → Keeps l u (startSum a)) (g : ¬ c → Keeps l u (startSum b)) : Keeps l u (startSum (if c then a else b)) := by
  split
  · exact h ‹_›
  · exact g ‹_›
theorem Keeps.moveSum_inl {u : State} {x : Move} (h : Keeps l u x.st) : Keeps l u (moveSum (.inl x)) := h
theorem Keeps.moveSum_inr {u t : State} {q : QEnt} (h : Keeps l u t) : Keeps l u (moveSum (.inr (t, q))) := h
theorem Keeps.of_moveSum_inl {u : State} {x : Move} {r : Move ⊕ State × QEnt} (e : r = .inl x) (h : Keeps l u (moveSum r)) : Keeps l u x.st := by
  rw [e] at h; exact h
theorem Keeps.of_moveSum_inr {u t : State} {q : QEnt} {r : Move ⊕ State × QEnt} (e : r = .inr (t, q)) (h : Keeps l u (moveSum r)) : Keeps l u t := by
  rw [e] at h; exact h
theorem Keeps.itemoveSum {u : State} {a b : Move ⊕ State × QEnt} {c : Prop} [Decidable c] (h : c → Keeps l u (moveSum a)) (g : ¬ c → Keeps l u (moveSum b)) : Keeps l u (moveSum (if c then a else b)) := by
  split
  · exact h ‹_›
  · exact g ‹_›
theorem Keeps.of_startSum_inl_go {u t : State} {q} {r} (e : r = .inl (.go t q)) (h : Keeps l u (startSum r)) : Keeps l u t := by
  rw [e] at h; exact h
theorem Keeps.of_startSum_inl_stop {u t : State} {a} {b} {r} (e : r = .inl (.stop t a b)) (h : Keeps l u (startSum r)) : Keeps l u t := by
  rw [e] at h; exact h
theorem Keeps.of_startSum_inl_hold {u t : State} {q} {r} (e : r = .inl (.hold t q)) (h : Keeps l u (startSum r)) : Keeps l u t := by
  rw [e] at h; exact h
theorem Keeps.of_startSum_inl_fin {u t : State} {q} {r} (e : r = .inl (.fin t q)) (h : Keeps l u (startSum r)) : Keeps l u t := by
  rw [e] at h; exact h
theorem Keeps.of_moveSum_inl_ok {u t : State} {p} {r} (e : r = .inl (.ok t p)) (h : Keeps l u (moveSum r)) : Keeps l u t := by
  rw [e] at h; exact h
theorem Keeps.of_moveSum_inl_block {u t : State} {p} {a} {r} (e : r = .inl (.block t p a)) (h : Keeps l u (moveSum r)) : Keeps l u t := by
  rw [e] at h; exact h
theorem Keeps.of_moveSum_inl_stop {u t : State} {a} {b} {r} (e : r = .inl (.stop t a b)) (h : Keeps l u (moveSum r)) : Keeps l u t := by
  rw [e] at h; exact h
theorem Keeps.of_eq_Start {u : State} {r z : Start} (e : r = z) (h : Keeps l u r.st) : Keeps l u z.st := by
  rw [e] at h; exact h
theorem Keeps.of_eq_Move {u : State} {r z : Move} (e : r = z) (h : Keeps l u r.st) : Keeps l u z.st := by
  rw [e] at h; exact h
theorem Keeps.of_eq_Issue {u : State} {r z : Issue} (e : r = z) (h : Keeps l u r.st) : Keeps l u z.st := by
  rw [e] at h; exact h
theorem Keeps.of_eq_SeqRes {u : State} {r z : SeqRes} (e : r = z) (h : Keeps l u (r.st u)) : Keeps l u (z.st u) := by
  rw [e] at h; exact h
theorem Keeps.of_eq_Built {u : State} {r z : Built} (e : r = z) (h : Keeps l u (r.st u)) : Keeps l u (z.st u) := by
  rw [e] at h; exact h
theorem Keeps.of_eq_LocalRes {u : State} {r z : LocalRes} (e : r = z) (h : Keeps l u (r.st u)) : Keeps l u (z.st u) := by
  rw [e] at h; exact h
def Stepped.st : Stepped → State
  | .on s => s
  | .rest s => s
theorem Keeps.iteStepped {u : State} {a b : Stepped} {c : Prop} [Decidable c] (h : c → Keeps l u a.st) (g : ¬ c → Keeps l u b.st) : Keeps l u (if c then a else b).st := by
  split
  · exact h ‹_›
  · exact g ‹_›
theorem Keeps.stepped_on {u t : State} (h : Keeps l u t) : Keeps l u (Stepped.on t).st := h
theorem Keeps.of_stepped_on {u t : State} {r : Stepped} (e : r = .on t) (h : Keeps l u r.st) : Keeps l u t := by
  rw [e] at h; exact h
theorem Keeps.stepped_rest {u t : State} (h : Keeps l u t) : Keeps l u (Stepped.rest t).st := h
theorem Keeps.of_stepped_rest {u t : State} {r : Stepped} (e : r = .rest t) (h : Keeps l u r.st) : Keeps l u t := by
  rw [e] at h; exact h
theorem Keeps.of_eq_Stepped {u : State} {r z : Stepped} (e : r = z) (h : Keeps l u r.st) : Keeps l u z.st := by
  rw [e] at h; exact h
theorem KV.get_filter {α : Type} {d : α} {m : KV α} {p : Nat × α → Bool} {a : Nat} (hp : ∀ v, p (a, v) = true) :
    KV.get d (m.filter p) a = KV.get d m a := by
  induction m with
  | nil => rfl
  | cons e m ih =>
    obtain ⟨k, v⟩ := e
    rw [List.filter_cons]
    by_cases hk : a = k
    · subst hk; simp [hp, KV.get]
    · split <;> simp [KV.get, hk, ih]
theorem State.byte_filter {s t : State} {p : Host.Cell → Bool} {a : Nat} (e : t.mem = s.mem.filter p) (hp : ∀ v, p (a, v) = true) :
    t.byte a = s.byte a := by
  unfold State.byte; rw [e]; exact KV.get_filter hp

theorem Keeps.putBytesHost (h : Keeps l u s) (a : Nat) (d : List Byte) (hl : Area.sub [.host] l = true) :
    Keeps l u (s.putBytes (hostKey a) d) := by
  have hk : ∀ (d : List Byte) (k : Nat) (s : State), 2 ^ 65 ≤ k → Keeps l u s → Keeps l u (s.putBytes k d) := by
    intro d
    induction d with
    | nil => exact fun _ _ _ h => h
    | cons b d ih =>
      intro k s hk h
      refine ih (k + 1) _ (by omega) ⟨?_, fun hw => Memory.wf_put _ _ (h.mem hw), h.map, h.fuses⟩
      intro p hp
      cases p <;> first
        | exact h.kept _ hp
        | exact absurd (Area.mem_of_sub hl (by decide)) hp
        | exact fun a ha => (State.putByte_byte_ne (by omega) _ _).trans (h.kept _ hp a ha)
  exact hk d _ s (by unfold hostKey; omega) h
theorem Keeps.putNumHost (h : Keeps l u s) (a n v : Nat) (hl : Area.sub [.host] l = true) :
    Keeps l u (s.putNum (hostKey a) n v) := Keeps.putBytesHost h a _ hl
theorem Keeps.putNumRing {t : State} (h : Keeps l u s) (f r o n v : Nat) (hl : Area.sub [.host] l = true) :
    Keeps l u (s.putNum (t.ringBlock f r o) n v) := Keeps.putBytesHost h _ _ hl
theorem Keeps.sumR_inl {u t : State} {α : Type} (h : Keeps l u t) : Keeps l u (sumR (α := α) (.inl t)) := h
theorem Keeps.sumR_inr {u t : State} {α : Type} {a : α} (h : Keeps l u t) : Keeps l u (sumR (.inr (a, t))) := h
theorem Keeps.of_sumR_inl {u t : State} {α : Type} {r : State ⊕ α × State} (e : r = .inl t) (h : Keeps l u (sumR r)) : Keeps l u t := by
  rw [e] at h; exact h
theorem Keeps.of_sumR_inr {u t : State} {α : Type} {a : α} {r : State ⊕ α × State} (e : r = .inr (a, t)) (h : Keeps l u (sumR r)) : Keeps l u t := by
  rw [e] at h; exact h
theorem Keeps.itesumR {u : State} {α : Type} {a b : State ⊕ α × State} {c : Prop} [Decidable c] (h : c → Keeps l u (sumR a)) (g : ¬ c → Keeps l u (sumR b)) : Keeps l u (sumR (if c then a else b)) := by
  split
  · exact h ‹_›
  · exact g ‹_›
theorem Keeps.sumR3_inl {u t : State} {α β : Type} (h : Keeps l u t) : Keeps l u (sumR3 (α := α) (β := β) (.inl t)) := h
theorem Keeps.sumR3_inr {u t : State} {α β : Type} {a : α} {b : β} (h : Keeps l u t) : Keeps l u (sumR3 (.inr (a, b, t))) := h
theorem Keeps.of_sumR3_inl {u t : State} {α β : Type} {r : State ⊕ α × β × State} (e : r = .inl t) (h : Keeps l u (sumR3 r)) : Keeps l u t := by
  rw [e] at h; exact h
theorem Keeps.of_sumR3_inr {u t : State} {α β : Type} {a : α} {b : β} {r : State ⊕ α × β × State} (e : r = .inr (a, b, t)) (h : Keeps l u (sumR3 r)) : Keeps l u t := by
  rw [e] at h; exact h
theorem Keeps.itesumR3 {u : State} {α β : Type} {a b : State ⊕ α × β × State} {c : Prop} [Decidable c] (h : c → Keeps l u (sumR3 a)) (g : ¬ c → Keeps l u (sumR3 b)) : Keeps l u (sumR3 (if c then a else b)) := by
  split
  · exact h ‹_›
  · exact g ‹_›

end Sys2Proof.Machine
end

