-- ==== Sys2Proof/Laws/Ctl.lean ====
section
/-! SUPPORT. What starting a command leaves alone: the slots, queues and commands in execution
of every core; one lemma for each operation that an engine carries out -/

namespace Sys2Proof.Machine

/-- Slots, queues and commands in execution of a core are as they were. -/
structure Core.Steady (j k : Core) : Prop where
  slots : k.slots = j.slots
  queues : k.queues = j.queues
  running : k.running = j.running

theorem Core.Steady.refl (k : Core) : Core.Steady k k := ⟨rfl, rfl, rfl⟩
variable {j k : Core}
theorem Core.Steady.setTag (h : Core.Steady j k) (n t) : Core.Steady j (k.setTag n t) := ⟨h.1, h.2, h.3⟩
theorem Core.Steady.setV (h : Core.Steady j k) (n d t p) : Core.Steady j (k.setV n d t p) := ⟨h.1, h.2, h.3⟩
theorem Core.Steady.putRows (h : Core.Steady j k) (n f l) : Core.Steady j (k.putRows n f l) := ⟨h.1, h.2, h.3⟩
theorem Core.Steady.setX (h : Core.Steady j k) (n d t p) : Core.Steady j (k.setX n d t p) := ⟨h.1, h.2, h.3⟩
theorem Core.Steady.setAcc (h : Core.Steady j k) (n d t p) : Core.Steady j (k.setAcc n d t p) := ⟨h.1, h.2, h.3⟩
theorem Core.Steady.poisonV (h : Core.Steady j k) (n f) : Core.Steady j (k.poisonV n f) := ⟨h.1, h.2, h.3⟩
theorem Core.Steady.dropLatch (h : Core.Steady j k) (n) : Core.Steady j (k.dropLatch n) := ⟨h.1, h.2, h.3⟩
theorem Core.Steady.setStat (h : Core.Steady j k) (n v) : Core.Steady j (k.setStat n v) := ⟨h.1, h.2, h.3⟩
theorem Core.Steady.latches (h : Core.Steady j k) (a b) : Core.Steady j { k with latchA := a, latchB := b } := ⟨h.1, h.2, h.3⟩
theorem Core.Steady.ite {c : Prop} [Decidable c] {m : Core} (h : Core.Steady j k) (g : Core.Steady j m) :
    Core.Steady j (if c then k else m) := by
  split
  · exact h
  · exact g
theorem Core.Steady.tlWrite (h : Core.Steady j k) (w r d) : Core.Steady j (k.tlWrite w r d) := by
  unfold Core.tlWrite
  exact Core.Steady.ite ⟨h.1, h.2, h.3⟩ ⟨h.1, h.2, h.3⟩
theorem Core.Steady.release (h : Core.Steady j k) (n) : Core.Steady j (k.release n) := by
  unfold Core.release
  exact Core.Steady.ite ((h.setTag n 0).dropLatch n) (h.setTag n 0)
theorem Core.Steady.foldl {α : Type} {f : Core → α → Core} {xs : List α} {k : Core}
    (hf : ∀ k a, Core.Steady j k → Core.Steady j (f k a)) (h : Core.Steady j k) : Core.Steady j (xs.foldl f k) := by
  induction xs generalizing k with
  | nil => exact h
  | cons a xs ih => exact ih (hf k a h)
theorem Core.Steady.wipe (h : Core.Steady j k) (n) : Core.Steady j (k.wipe n) := by
  unfold Core.wipe; dsimp only
  split
  · exact ⟨h.1, h.2, h.3⟩
  · split
    · exact ⟨h.1, h.2, h.3⟩
    · exact ⟨h.1, h.2, h.3⟩
theorem Core.Steady.releaseMask (h : Core.Steady j k) (m) : Core.Steady j (k.releaseMask m) :=
  Core.Steady.foldl (fun _ _ h => Core.Steady.ite ((h.release _).wipe _) h) h

/-- The slots, queues and commands in execution of every core are as they were. -/
structure Ctl (u t : State) : Prop where
  same : ∀ c, (t.core c).slots = (u.core c).slots ∧ (t.core c).queues = (u.core c).queues ∧
    (t.core c).running = (u.core c).running

theorem Ctl.refl (u : State) : Ctl u u := ⟨fun _ => ⟨rfl, rfl, rfl⟩⟩

theorem Ctl.upd {u : State} {pending aon fresh mem chk reported lines regs clusters mems tlbInv flits lostFlits dimmGib dimmBanks damsons channels sync fab hif power board ras husk sec} {x : State} (h : Ctl u x) :
    Ctl u ⟨pending, aon, fresh, mem, chk, reported, lines, regs, x.cores, clusters, mems, tlbInv, flits, lostFlits, dimmGib, dimmBanks, damsons, channels, sync, fab, hif, power, board, ras, husk, sec⟩ := ⟨h.same⟩

theorem Ctl.modCore {u s : State} (h : Ctl u s) (c : Nat) {f : Core → Core}
    (hf : ∀ k, Core.Steady k (f k)) : Ctl u (s.modCore c f) := by
  refine ⟨fun d => ?_⟩
  have hs := h.same d
  by_cases e : d = c
  · subst e
    have hk := hf (s.core d)
    have hr : (s.modCore d f).core d = f (s.core d) := KV.get_put_self _ _ _
    rw [hr]
    exact ⟨hk.slots.trans hs.1, hk.queues.trans hs.2.1, hk.running.trans hs.2.2⟩
  · have hr : (s.modCore c f).core d = s.core d := KV.get_put_ne e _ _
    rw [hr]; exact hs

theorem Ctl.foldl {u : State} {α : Type} {f : State → α → State} {xs : List α} {s : State}
    (hf : ∀ s a, Ctl u s → Ctl u (f s a)) (h : Ctl u s) : Ctl u (xs.foldl f s) := by
  induction xs generalizing s with
  | nil => exact h
  | cons a xs ih => exact ih (hf s a h)
theorem Ctl.foldlR {u : State} {α β : Type} {f : β × State → α → β × State} {xs : List α} {b : β × State}
    (hf : ∀ b a, Ctl u b.2 → Ctl u (f b a).2) (h : Ctl u b.2) : Ctl u (xs.foldl f b).2 := by
  induction xs generalizing b with
  | nil => exact h
  | cons a xs ih => exact ih (hf b a h)
theorem Ctl.foldlL {u : State} {α β : Type} {f : State × β → α → State × β} {xs : List α} {b : State × β}
    (hf : ∀ b a, Ctl u b.1 → Ctl u (f b a).1) (h : Ctl u b.1) : Ctl u (xs.foldl f b).1 := by
  induction xs generalizing b with
  | nil => exact h
  | cons a xs ih => exact ih (hf b a h)
theorem Ctl.foldlRd {u : State} {α : Type} {f : Rd → α → Rd} {xs : List α} {b : Rd}
    (hf : ∀ b a, Ctl u b.s → Ctl u (f b a).s) (h : Ctl u b.s) : Ctl u (xs.foldl f b).s := by
  induction xs generalizing b with
  | nil => exact h
  | cons a xs ih => exact ih (hf b a h)
theorem Ctl.foldlR2 {u : State} {α β γ : Type} {f : β × γ × State → α → β × γ × State} {xs : List α} {b : β × γ × State}
    (hf : ∀ b a, Ctl u b.2.2 → Ctl u (f b a).2.2) (h : Ctl u b.2.2) : Ctl u (xs.foldl f b).2.2 := by
  induction xs generalizing b with
  | nil => exact h
  | cons a xs ih => exact ih (hf b a h)
theorem Ctl.ite {u a b : State} {c : Prop} [Decidable c] (h : c → Ctl u a) (g : ¬ c → Ctl u b) : Ctl u (if c then a else b) := by
  split
  · exact h ‹_›
  · exact g ‹_›
theorem Ctl.iteStart {u : State} {a b : Start} {c : Prop} [Decidable c] (h : c → Ctl u a.st) (g : ¬ c → Ctl u b.st) : Ctl u (if c then a else b).st := by
  split
  · exact h ‹_›
  · exact g ‹_›
theorem Ctl.start_go {u t : State} {q} (h : Ctl u t) : Ctl u (Start.go t q).st := h
theorem Ctl.of_start_go {u t : State} {q} {r : Start} (e : r = Start.go t q) (h : Ctl u r.st) : Ctl u t := by
  rw [e] at h; exact h
theorem Ctl.start_fin {u t : State} {q} (h : Ctl u t) : Ctl u (Start.fin t q).st := h
theorem Ctl.of_start_fin {u t : State} {q} {r : Start} (e : r = Start.fin t q) (h : Ctl u r.st) : Ctl u t := by
  rw [e] at h; exact h
theorem Ctl.start_wait {u t : State}  (h : Ctl u t) : Ctl u (Start.wait t).st := h
theorem Ctl.of_start_wait {u t : State}  {r : Start} (e : r = Start.wait t) (h : Ctl u r.st) : Ctl u t := by
  rw [e] at h; exact h
theorem Ctl.start_hold {u t : State} {q} (h : Ctl u t) : Ctl u (Start.hold t q).st := h
theorem Ctl.of_start_hold {u t : State} {q} {r : Start} (e : r = Start.hold t q) (h : Ctl u r.st) : Ctl u t := by
  rw [e] at h; exact h
theorem Ctl.start_stop {u t : State} {x} {y} (h : Ctl u t) : Ctl u (Start.stop t x y).st := h
theorem Ctl.of_start_stop {u t : State} {x} {y} {r : Start} (e : r = Start.stop t x y) (h : Ctl u r.st) : Ctl u t := by
  rw [e] at h; exact h
theorem Ctl.iteMove {u : State} {a b : Move} {c : Prop} [Decidable c] (h : c → Ctl u a.st) (g : ¬ c → Ctl u b.st) : Ctl u (if c then a else b).st := by
  split
  · exact h ‹_›
  · exact g ‹_›
theorem Ctl.move_ok {u t : State} {p} (h : Ctl u t) : Ctl u (Move.ok t p).st := h
theorem Ctl.of_move_ok {u t : State} {p} {r : Move} (e : r = Move.ok t p) (h : Ctl u r.st) : Ctl u t := by
  rw [e] at h; exact h
theorem Ctl.move_block {u t : State} {p} {a} (h : Ctl u t) : Ctl u (Move.block t p a).st := h
theorem Ctl.of_move_block {u t : State} {p} {a} {r : Move} (e : r = Move.block t p a) (h : Ctl u r.st) : Ctl u t := by
  rw [e] at h; exact h
theorem Ctl.move_stop {u t : State} {x} {y} (h : Ctl u t) : Ctl u (Move.stop t x y).st := h
theorem Ctl.of_move_stop {u t : State} {x} {y} {r : Move} (e : r = Move.stop t x y) (h : Ctl u r.st) : Ctl u t := by
  rw [e] at h; exact h
theorem Ctl.iteIssue {u : State} {a b : Issue} {c : Prop} [Decidable c] (h : c → Ctl u a.st) (g : ¬ c → Ctl u b.st) : Ctl u (if c then a else b).st := by
  split
  · exact h ‹_›
  · exact g ‹_›
theorem Ctl.issue_sent {u t : State} {q} (h : Ctl u t) : Ctl u (Issue.sent t q).st := h
theorem Ctl.of_issue_sent {u t : State} {q} {r : Issue} (e : r = Issue.sent t q) (h : Ctl u r.st) : Ctl u t := by
  rw [e] at h; exact h
theorem Ctl.issue_stop {u t : State} {x} {y} (h : Ctl u t) : Ctl u (Issue.stop t x y).st := h
theorem Ctl.of_issue_stop {u t : State} {x} {y} {r : Issue} (e : r = Issue.stop t x y) (h : Ctl u r.st) : Ctl u t := by
  rw [e] at h; exact h
theorem Ctl.iteSeqRes {u d : State} {a b : SeqRes} {c : Prop} [Decidable c] (h : c → Ctl u (a.st d)) (g : ¬ c → Ctl u (b.st d)) : Ctl u ((if c then a else b).st d) := by
  split
  · exact h ‹_›
  · exact g ‹_›
theorem Ctl.seqres_done {u t d : State} {x} {y} (h : Ctl u t) : Ctl u ((SeqRes.done t x y).st d) := h
theorem Ctl.of_seqres_done {u t : State} {x} {y} {r : SeqRes} (e : r = SeqRes.done t x y) (h : Ctl u (r.st u)) : Ctl u t := by
  rw [e] at h; exact h
theorem Ctl.seqres_issued {u t d : State}  (h : Ctl u t) : Ctl u ((SeqRes.issued t).st d) := h
theorem Ctl.of_seqres_issued {u t : State}  {r : SeqRes} (e : r = SeqRes.issued t) (h : Ctl u (r.st u)) : Ctl u t := by
  rw [e] at h; exact h
theorem Ctl.seqres_held {u t d : State}  (h : Ctl u t) : Ctl u ((SeqRes.held t).st d) := h
theorem Ctl.of_seqres_held {u t : State}  {r : SeqRes} (e : r = SeqRes.held t) (h : Ctl u (r.st u)) : Ctl u t := by
  rw [e] at h; exact h
theorem Ctl.iteBuilt {u d : State} {a b : Built} {c : Prop} [Decidable c] (h : c → Ctl u (a.st d)) (g : ¬ c → Ctl u (b.st d)) : Ctl u ((if c then a else b).st d) := by
  split
  · exact h ‹_›
  · exact g ‹_›
theorem Ctl.built_sent {u t d : State} {q} (h : Ctl u t) : Ctl u ((Built.sent t q).st d) := h
theorem Ctl.of_built_sent {u t : State} {q} {r : Built} (e : r = Built.sent t q) (h : Ctl u (r.st u)) : Ctl u t := by
  rw [e] at h; exact h
theorem Ctl.iteLocalRes {u d : State} {a b : LocalRes} {c : Prop} [Decidable c] (h : c → Ctl u (a.st d)) (g : ¬ c → Ctl u (b.st d)) : Ctl u ((if c then a else b).st d) := by
  split
  · exact h ‹_›
  · exact g ‹_›
theorem Ctl.localres_block {u t d : State}  (h : Ctl u t) : Ctl u ((LocalRes.block t).st d) := h
theorem Ctl.of_localres_block {u t : State}  {r : LocalRes} (e : r = LocalRes.block t) (h : Ctl u (r.st u)) : Ctl u t := by
  rw [e] at h; exact h
theorem Ctl.of_pair {u t : State} {α : Type} {a : α} {p : α × State} (e : p = (a, t)) (h : Ctl u p.2) : Ctl u t := by
  rw [e] at h; exact h
theorem Ctl.of_pairL {u t : State} {α : Type} {a : α} {p : State × α} (e : p = (t, a)) (h : Ctl u p.1) : Ctl u t := by
  rw [e] at h; exact h
theorem Ctl.of_triple {u t : State} {α β : Type} {a : α} {b : β} {p : α × β × State} (e : p = (a, b, t)) (h : Ctl u p.2.2) : Ctl u t := by
  rw [e] at h; exact h
theorem Ctl.of_some {u t : State} {o : Option State} (e : o = some t) (h : Ctl u (o.getD u)) : Ctl u t := by
  rw [e] at h; exact h
theorem Ctl.of_someR {u t : State} {α : Type} {a : α} {o : Option (α × State)} (e : o = some (a, t)) (h : Ctl u (optSnd o u)) : Ctl u t := by
  rw [e] at h; exact h
theorem Ctl.of_someL {u t : State} {α : Type} {a : α} {o : Option (State × α)} (e : o = some (t, a)) (h : Ctl u (optFst o u)) : Ctl u t := by
  rw [e] at h; exact h
theorem Ctl.iteRd {u : State}  {a b : Rd} {c : Prop} [Decidable c] (h : c → Ctl u (a.s)) (g : ¬ c → Ctl u (b.s)) : Ctl u ((if c then a else b).s) := by
  split
  · exact h ‹_›
  · exact g ‹_›
theorem Ctl.itePair {u : State} {α : Type} {a b : α × State} {c : Prop} [Decidable c] (h : c → Ctl u (a.2)) (g : ¬ c → Ctl u (b.2)) : Ctl u ((if c then a else b).2) := by
  split
  · exact h ‹_›
  · exact g ‹_›
theorem Ctl.itePairL {u : State} {α : Type} {a b : State × α} {c : Prop} [Decidable c] (h : c → Ctl u (a.1)) (g : ¬ c → Ctl u (b.1)) : Ctl u ((if c then a else b).1) := by
  split
  · exact h ‹_›
  · exact g ‹_›
theorem Ctl.iteTriple {u : State} {α β : Type} {a b : α × β × State} {c : Prop} [Decidable c] (h : c → Ctl u (a.2.2)) (g : ¬ c → Ctl u (b.2.2)) : Ctl u ((if c then a else b).2.2) := by
  split
  · exact h ‹_›
  · exact g ‹_›
theorem Ctl.iteOpt {u d : State}  {a b : Option State} {c : Prop} [Decidable c] (h : c → Ctl u (a.getD d)) (g : ¬ c → Ctl u (b.getD d)) : Ctl u ((if c then a else b).getD d) := by
  split
  · exact h ‹_›
  · exact g ‹_›
theorem Ctl.iteOptR {u d : State} {α : Type} {a b : Option (α × State)} {c : Prop} [Decidable c] (h : c → Ctl u (optSnd a d)) (g : ¬ c → Ctl u (optSnd b d)) : Ctl u (optSnd (if c then a else b) d) := by
  split
  · exact h ‹_›
  · exact g ‹_›
theorem Ctl.iteOptL {u d : State} {α : Type} {a b : Option (State × α)} {c : Prop} [Decidable c] (h : c → Ctl u (optFst a d)) (g : ¬ c → Ctl u (optFst b d)) : Ctl u (optFst (if c then a else b) d) := by
  split
  · exact h ‹_›
  · exact g ‹_›
theorem Ctl.optR_some {u d t : State} {α : Type} {a : α} (h : Ctl u t) : Ctl u (optSnd (some (a, t)) d) := h
theorem Ctl.optL_some {u d t : State} {α : Type} {a : α} (h : Ctl u t) : Ctl u (optFst (some (t, a)) d) := h
theorem Ctl.optR_none {u d : State} {α : Type} (h : Ctl u d) : Ctl u (optSnd (none : Option (α × State)) d) := h
theorem Ctl.optL_none {u d : State} {α : Type} (h : Ctl u d) : Ctl u (optFst (none : Option (State × α)) d) := h
theorem Ctl.opt_some {u d t : State} (h : Ctl u t) : Ctl u ((some t).getD d) := h
theorem Ctl.pair_mk {u t : State} {α : Type} {a : α} (h : Ctl u t) : Ctl u (a, t).2 := h
theorem Ctl.pairL_mk {u t : State} {α : Type} {a : α} (h : Ctl u t) : Ctl u (t, a).1 := h
theorem Ctl.triple_mk {u t : State} {α β : Type} {a : α} {b : β} (h : Ctl u t) : Ctl u (a, b, t).2.2 := h
theorem Ctl.seqres_stop {u : State} {c : BitVec 8} : Ctl u ((SeqRes.stop c).st u) := Ctl.refl u
theorem Ctl.seqres_wait {u : State} : Ctl u (SeqRes.wait.st u) := Ctl.refl u
theorem Ctl.built_failed {u : State} {q : QEnt} : Ctl u ((Built.failed q).st u) := Ctl.refl u
theorem Ctl.built_noTag {u : State} : Ctl u (Built.noTag.st u) := Ctl.refl u
theorem Ctl.localres_ok {u : State} {x} : Ctl u ((LocalRes.ok x).st u) := Ctl.refl u
theorem Ctl.localres_bad {u : State} : Ctl u (LocalRes.bad.st u) := Ctl.refl u
theorem Ctl.outcome_next {u t : State} (h : Ctl u t) : Ctl u (outcome (.next t) u) := h
theorem Ctl.outcome_fault {u : State} {f} : Ctl u (outcome (.fault f) u) := Ctl.refl u
theorem Ctl.iteOutcome {u : State} {a b : Host.Outcome State Fault Refusal} {c : Prop} [Decidable c] (h : c → Ctl u (outcome a u)) (g : ¬ c → Ctl u (outcome b u)) : Ctl u (outcome (if c then a else b) u) := by
  split
  · exact h ‹_›
  · exact g ‹_›
theorem Ctl.opt_none {u d : State} (h : Ctl u d) : Ctl u ((none : Option State).getD d) := h
theorem Ctl.startSum_inl {u : State} {x : Start} (h : Ctl u x.st) : Ctl u (startSum (.inl x)) := h
theorem Ctl.startSum_inr {u t : State} {q : QEnt} (h : Ctl u t) : Ctl u (startSum (.inr (t, q))) := h
theorem Ctl.of_startSum_inl {u : State} {x : Start} {r : Start ⊕ State × QEnt} (e : r = .inl x) (h : Ctl u (startSum r)) : Ctl u x.st := by
  rw [e] at h; exact h
theorem Ctl.of_startSum_inr {u t : State} {q : QEnt} {r : Start ⊕ State × QEnt} (e : r = .inr (t, q)) (h : Ctl u (startSum r)) : Ctl u t := by
  rw [e] at h; exact h
theorem Ctl.itestartSum {u : State} {a b : Start ⊕ State × QEnt} {c : Prop} [Decidable c] (h : c → Ctl u (startSum a)) (g : ¬ c → Ctl u (startSum b)) : Ctl u (startSum (if c then a else b)) := by
  split
  · exact h ‹_›
  · exact g ‹_›
theorem Ctl.moveSum_inl {u : State} {x : Move} (h : Ctl u x.st) : Ctl u (moveSum (.inl x)) := h
theorem Ctl.moveSum_inr {u t : State} {q : QEnt} (h : Ctl u t) : Ctl u (moveSum (.inr (t, q))) := h
theorem Ctl.of_moveSum_inl {u : State} {x : Move} {r : Move ⊕ State × QEnt} (e : r = .inl x) (h : Ctl u (moveSum r)) : Ctl u x.st := by
  rw [e] at h; exact h
theorem Ctl.of_moveSum_inr {u t : State} {q : QEnt} {r : Move ⊕ State × QEnt} (e : r = .inr (t, q)) (h : Ctl u (moveSum r)) : Ctl u t := by
  rw [e] at h; exact h
theorem Ctl.itemoveSum {u : State} {a b : Move ⊕ State × QEnt} {c : Prop} [Decidable c] (h : c → Ctl u (moveSum a)) (g : ¬ c → Ctl u (moveSum b)) : Ctl u (moveSum (if c then a else b)) := by
  split
  · exact h ‹_›
  · exact g ‹_›
theorem Ctl.of_startSum_inl_go {u t : State} {q} {r} (e : r = .inl (.go t q)) (h : Ctl u (startSum r)) : Ctl u t := by
  rw [e] at h; exact h
theorem Ctl.of_startSum_inl_stop {u t : State} {a} {b} {r} (e : r = .inl (.stop t a b)) (h : Ctl u (startSum r)) : Ctl u t := by
  rw [e] at h; exact h
theorem Ctl.of_startSum_inl_hold {u t : State} {q} {r} (e : r = .inl (.hold t q)) (h : Ctl u (startSum r)) : Ctl u t := by
  rw [e] at h; exact h
theorem Ctl.of_startSum_inl_fin {u t : State} {q} {r} (e : r = .inl (.fin t q)) (h : Ctl u (startSum r)) : Ctl u t := by
  rw [e] at h; exact h
theorem Ctl.of_moveSum_inl_ok {u t : State} {p} {r} (e : r = .inl (.ok t p)) (h : Ctl u (moveSum r)) : Ctl u t := by
  rw [e] at h; exact h
theorem Ctl.of_moveSum_inl_block {u t : State} {p} {a} {r} (e : r = .inl (.block t p a)) (h : Ctl u (moveSum r)) : Ctl u t := by
  rw [e] at h; exact h
theorem Ctl.of_moveSum_inl_stop {u t : State} {a} {b} {r} (e : r = .inl (.stop t a b)) (h : Ctl u (moveSum r)) : Ctl u t := by
  rw [e] at h; exact h
theorem Ctl.of_eq_Start {u : State} {r z : Start} (e : r = z) (h : Ctl u r.st) : Ctl u z.st := by
  rw [e] at h; exact h
theorem Ctl.of_eq_Move {u : State} {r z : Move} (e : r = z) (h : Ctl u r.st) : Ctl u z.st := by
  rw [e] at h; exact h
theorem Ctl.of_eq_Issue {u : State} {r z : Issue} (e : r = z) (h : Ctl u r.st) : Ctl u z.st := by
  rw [e] at h; exact h
theorem Ctl.of_eq_SeqRes {u : State} {r z : SeqRes} (e : r = z) (h : Ctl u (r.st u)) : Ctl u (z.st u) := by
  rw [e] at h; exact h
theorem Ctl.of_eq_Built {u : State} {r z : Built} (e : r = z) (h : Ctl u (r.st u)) : Ctl u (z.st u) := by
  rw [e] at h; exact h
theorem Ctl.of_eq_LocalRes {u : State} {r z : LocalRes} (e : r = z) (h : Ctl u (r.st u)) : Ctl u (z.st u) := by
  rw [e] at h; exact h
theorem Ctl.iteStepped {u : State} {a b : Stepped} {c : Prop} [Decidable c] (h : c → Ctl u a.st) (g : ¬ c → Ctl u b.st) : Ctl u (if c then a else b).st := by
  split
  · exact h ‹_›
  · exact g ‹_›
theorem Ctl.stepped_on {u t : State} (h : Ctl u t) : Ctl u (Stepped.on t).st := h
theorem Ctl.of_stepped_on {u t : State} {r : Stepped} (e : r = .on t) (h : Ctl u r.st) : Ctl u t := by
  rw [e] at h; exact h
theorem Ctl.stepped_rest {u t : State} (h : Ctl u t) : Ctl u (Stepped.rest t).st := h
theorem Ctl.of_stepped_rest {u t : State} {r : Stepped} (e : r = .rest t) (h : Ctl u r.st) : Ctl u t := by
  rw [e] at h; exact h
theorem Ctl.of_eq_Stepped {u : State} {r z : Stepped} (e : r = z) (h : Ctl u r.st) : Ctl u z.st := by
  rw [e] at h; exact h
theorem Ctl.sumR_inl {u t : State} {α : Type} (h : Ctl u t) : Ctl u (sumR (α := α) (.inl t)) := h
theorem Ctl.sumR_inr {u t : State} {α : Type} {a : α} (h : Ctl u t) : Ctl u (sumR (.inr (a, t))) := h
theorem Ctl.of_sumR_inl {u t : State} {α : Type} {r : State ⊕ α × State} (e : r = .inl t) (h : Ctl u (sumR r)) : Ctl u t := by
  rw [e] at h; exact h
theorem Ctl.of_sumR_inr {u t : State} {α : Type} {a : α} {r : State ⊕ α × State} (e : r = .inr (a, t)) (h : Ctl u (sumR r)) : Ctl u t := by
  rw [e] at h; exact h
theorem Ctl.itesumR {u : State} {α : Type} {a b : State ⊕ α × State} {c : Prop} [Decidable c] (h : c → Ctl u (sumR a)) (g : ¬ c → Ctl u (sumR b)) : Ctl u (sumR (if c then a else b)) := by
  split
  · exact h ‹_›
  · exact g ‹_›
theorem Ctl.sumR3_inl {u t : State} {α β : Type} (h : Ctl u t) : Ctl u (sumR3 (α := α) (β := β) (.inl t)) := h
theorem Ctl.sumR3_inr {u t : State} {α β : Type} {a : α} {b : β} (h : Ctl u t) : Ctl u (sumR3 (.inr (a, b, t))) := h
theorem Ctl.of_sumR3_inl {u t : State} {α β : Type} {r : State ⊕ α × β × State} (e : r = .inl t) (h : Ctl u (sumR3 r)) : Ctl u t := by
  rw [e] at h; exact h
theorem Ctl.of_sumR3_inr {u t : State} {α β : Type} {a : α} {b : β} {r : State ⊕ α × β × State} (e : r = .inr (a, b, t)) (h : Ctl u (sumR3 r)) : Ctl u t := by
  rw [e] at h; exact h
theorem Ctl.itesumR3 {u : State} {α β : Type} {a b : State ⊕ α × β × State} {c : Prop} [Decidable c] (h : c → Ctl u (sumR3 a)) (g : ¬ c → Ctl u (sumR3 b)) : Ctl u (sumR3 (if c then a else b)) := by
  split
  · exact h ‹_›
  · exact g ‹_›

theorem Ctl.setMem (h : Ctl u s) (x0 x1) : Ctl u ((State.setMem s x0 x1)) := by
  unfold State.setMem
  try extract_lets
  repeat' with_reducible (first
      | assumption | exact Ctl.refl u | fail_if_no_progress apply Ctl.upd | dsimp only)

theorem Ctl.zeroMem (h : Ctl u s) (x0) : Ctl u ((State.zeroMem s x0)) := by
  unfold State.zeroMem; exact Ctl.upd h

theorem Ctl.letIn (h : Ctl u s) (x0) : Ctl u (((State.letIn s x0)).getD u) := by
  unfold State.letIn
  try extract_lets
  repeat' with_reducible (first
      | assumption | exact Ctl.refl u | apply Ctl.setMem | apply Ctl.zeroMem | (apply Ctl.ite <;> intro _)
      | (apply Ctl.iteOpt <;> intro _) | apply Ctl.opt_some | apply Ctl.opt_none
      | fail_if_no_progress apply Ctl.upd | split | refine Ctl.of_some (by assumption) ?_ | dsimp only)

theorem Ctl.setRg (h : Ctl u s) (x0 x1) : Ctl u ((State.setRg s x0 x1)) := by
  unfold State.setRg
  try extract_lets
  repeat' with_reducible (first
      | assumption | exact Ctl.refl u | fail_if_no_progress apply Ctl.upd | dsimp only)

theorem Ctl.bump32 (h : Ctl u s) (x0 x1) : Ctl u ((State.bump32 s x0 x1)) := by
  unfold State.bump32
  try extract_lets
  repeat' with_reducible (first
      | assumption | exact Ctl.refl u | apply Ctl.setRg | dsimp only)

theorem Ctl.setRf (h : Ctl u s) (x0 x1 x2 x3) : Ctl u ((State.setRf s x0 x1 x2 x3)) := by
  unfold State.setRf
  try extract_lets
  repeat' with_reducible (first
      | assumption | exact Ctl.refl u | apply Ctl.setRg | dsimp only)

theorem Ctl.husk' (h : Ctl u s) (x0 x1 x2) : Ctl u ((State.husk' s x0 x1 x2)) := by
  unfold State.husk'
  try extract_lets
  repeat' with_reducible (first
      | assumption | exact Ctl.refl u | apply Ctl.setRf | (apply Ctl.ite <;> intro _)
      | fail_if_no_progress apply Ctl.upd | dsimp only)

theorem Ctl.setEvq (h : Ctl u s) (x0 x1) : Ctl u ((State.setEvq s x0 x1)) := by
  unfold State.setEvq
  try extract_lets
  repeat' with_reducible (first
      | assumption | exact Ctl.refl u | (apply Ctl.ite <;> intro _) | fail_if_no_progress apply Ctl.upd | dsimp only)

theorem Ctl.dropEv (h : Ctl u s) (x0 x1) : Ctl u ((State.dropEv s x0 x1)) := by
  unfold State.dropEv
  try extract_lets
  repeat' with_reducible (first
      | assumption | exact Ctl.refl u | apply Ctl.setRf | dsimp only)

theorem Ctl.putByte (h : Ctl u s) (x0 x1) : Ctl u ((State.putByte s x0 x1)) := by
  unfold State.putByte; exact Ctl.upd h

theorem Ctl.putBytes (h : Ctl u s) (x0 x1) : Ctl u ((State.putBytes s x0 x1)) := by
  induction x1 generalizing s x0 with
  | nil => exact h
  | cons y l ih => unfold State.putBytes; repeat' with_reducible (first
      | apply ih | assumption | exact Ctl.refl u | apply Ctl.putByte | split | dsimp only)

theorem Ctl.putNum (h : Ctl u s) (x0 x1 x2) : Ctl u ((State.putNum s x0 x1 x2)) := by
  unfold State.putNum
  try extract_lets
  repeat' with_reducible (first
      | assumption | exact Ctl.refl u | apply Ctl.putBytes | dsimp only)

theorem Ctl.sendMsix (h : Ctl u s) (x0) : Ctl u ((State.sendMsix s x0)) := by
  unfold State.sendMsix
  try extract_lets
  repeat' with_reducible (first
      | assumption | exact Ctl.refl u | apply Ctl.setEvq | (apply Ctl.ite <;> intro _)
      | fail_if_no_progress apply Ctl.upd | dsimp only)

theorem Ctl.writeEv (h : Ctl u s) (x0 x1) : Ctl u ((State.writeEv s x0 x1)) := by
  unfold State.writeEv
  try extract_lets
  repeat' with_reducible (first
      | assumption | exact Ctl.refl u | apply Ctl.setEvq | apply Ctl.dropEv | apply Ctl.putBytes
      | apply Ctl.setRf | apply Ctl.putNum | apply Ctl.sendMsix | (apply Ctl.ite <;> intro _)
      | fail_if_no_progress apply Ctl.upd | split | dsimp only)

theorem Ctl.deliverEv (h : Ctl u s) (x0 x1) : Ctl u ((State.deliverEv s x0 x1)) := by
  unfold State.deliverEv
  try extract_lets
  repeat' with_reducible (first
      | assumption | exact Ctl.refl u | apply Ctl.writeEv | (apply Ctl.ite <;> intro _)
      | fail_if_no_progress apply Ctl.upd | split | dsimp only)

theorem Ctl.lostEv (h : Ctl u s) (x0 x1) : Ctl u ((State.lostEv s x0 x1)) := by
  unfold State.lostEv
  try extract_lets
  repeat' with_reducible (first
      | assumption | exact Ctl.refl u | apply Ctl.dropEv | apply Ctl.setEvq | fail_if_no_progress apply Ctl.upd
      | dsimp only)

theorem Ctl.post (h : Ctl u s) (x0 x1) : Ctl u ((State.post s x0 x1)) := by
  unfold State.post
  try extract_lets
  repeat' with_reducible (first
      | assumption | exact Ctl.refl u | apply Ctl.husk' | apply Ctl.deliverEv | apply Ctl.lostEv
      | (apply Ctl.ite <;> intro _) | dsimp only)

theorem Ctl.noteFixed (h : Ctl u s) (x0 x1 x2) : Ctl u ((State.noteFixed s x0 x1 x2)) := by
  unfold State.noteFixed
  try extract_lets
  repeat' with_reducible (first
      | assumption | exact Ctl.refl u | apply Ctl.bump32 | apply Ctl.post | apply Ctl.setMem
      | (apply Ctl.ite <;> intro _) | fail_if_no_progress apply Ctl.upd | split | dsimp only)

theorem Ctl.noteBad (h : Ctl u s) (x0 x1 x2) : Ctl u ((State.noteBad s x0 x1 x2)) := by
  unfold State.noteBad
  try extract_lets
  repeat' with_reducible (first
      | assumption | exact Ctl.refl u | apply Ctl.post | (apply Ctl.ite <;> intro _)
      | fail_if_no_progress apply Ctl.upd | dsimp only)

theorem Ctl.readHalf (h : Ctl u s) (x0 x1) : Ctl u (((State.readHalf s x0 x1)).s) := by
  unfold State.readHalf
  try extract_lets
  repeat' with_reducible (first
      | assumption | exact Ctl.refl u | apply Ctl.letIn | apply Ctl.noteFixed | apply Ctl.noteBad
      | (apply Ctl.iteRd <;> intro _) | split | refine Ctl.of_some (by assumption) ?_ | dsimp only)

theorem Ctl.readHalves (h : Ctl u s) (x0 x1 x2) : Ctl u (((State.readHalves s x0 x1 x2)).s) := by
  induction x2 generalizing s x1 with
  | zero => exact h
  | succ n ih => unfold State.readHalves; dsimp only; repeat' with_reducible (first
      | apply ih | assumption | exact Ctl.refl u | apply Ctl.readHalf | (apply Ctl.ite <;> intro _)
      | (apply Ctl.iteRd <;> intro _) | split | dsimp only)

theorem Ctl.readDie (h : Ctl u s) (x0 x1 x2) : Ctl u (((State.readDie s x0 x1 x2)).s) := by
  unfold State.readDie
  try extract_lets
  repeat' with_reducible (first
      | assumption | exact Ctl.refl u | apply Ctl.readHalves | (apply Ctl.ite <;> intro _)
      | (apply Ctl.iteRd <;> intro _) | dsimp only)

theorem Ctl.noteTier (h : Ctl u s) (x0 x1) : Ctl u ((State.noteTier s x0 x1)) := by
  unfold State.noteTier
  try extract_lets
  repeat' with_reducible (first
      | assumption | exact Ctl.refl u | apply Ctl.post | (apply Ctl.ite <;> intro _)
      | fail_if_no_progress apply Ctl.upd | dsimp only)

theorem Ctl.tierHalf (h : Ctl u s) (x0 x1) : Ctl u (((State.tierHalf s x0 x1)).s) := by
  unfold State.tierHalf
  try extract_lets
  repeat' with_reducible (first
      | assumption | exact Ctl.refl u | apply Ctl.noteTier | (apply Ctl.ite <;> intro _)
      | (apply Ctl.iteRd <;> intro _) | split | dsimp only)

theorem Ctl.tierHalves (h : Ctl u s) (x0 x1 x2) : Ctl u (((State.tierHalves s x0 x1 x2)).s) := by
  induction x2 generalizing s x1 with
  | zero => exact h
  | succ n ih => unfold State.tierHalves; repeat' with_reducible (first
      | apply ih | assumption | exact Ctl.refl u | apply Ctl.tierHalf | (apply Ctl.ite <;> intro _)
      | (apply Ctl.iteRd <;> intro _) | split | dsimp only)

theorem Ctl.readTier (h : Ctl u s) (x0 x1 x2) : Ctl u (((State.readTier s x0 x1 x2)).s) := by
  unfold State.readTier
  try extract_lets
  repeat' with_reducible (first
      | assumption | exact Ctl.refl u | apply Ctl.tierHalves | (apply Ctl.ite <;> intro _)
      | (apply Ctl.iteRd <;> intro _) | dsimp only)

theorem Ctl.ctxEntry (h : Ctl u s) (x0) : Ctl u (((State.ctxEntry s x0)).2) := by
  unfold State.ctxEntry
  try extract_lets
  repeat' with_reducible (first
      | assumption | exact Ctl.refl u | apply Ctl.readTier | (apply Ctl.ite <;> intro _)
      | (apply Ctl.itePair <;> intro _) | fail_if_no_progress apply Ctl.upd | (apply Ctl.itePair <;> intro _)
      | (apply Ctl.iteTriple <;> intro _) | split | refine Ctl.of_pair (by assumption) ?_ | dsimp only)

theorem Ctl.noteHost (h : Ctl u s) (x0) : Ctl u ((State.noteHost s x0)) := by
  unfold State.noteHost
  try extract_lets
  repeat' with_reducible (first
      | assumption | exact Ctl.refl u | apply Ctl.ctxEntry | (apply Ctl.ite <;> intro _)
      | fail_if_no_progress apply Ctl.upd | (apply Ctl.itePair <;> intro _) | (apply Ctl.iteTriple <;> intro _)
      | dsimp only)

theorem Ctl.readAt (h : Ctl u s) (x0 x1 x2) : Ctl u (((State.readAt s x0 x1 x2)).s) := by
  unfold State.readAt
  try extract_lets
  repeat' with_reducible (first
      | assumption | exact Ctl.refl u | apply Ctl.readDie | apply Ctl.readTier | apply Ctl.noteHost
      | (apply Ctl.iteRd <;> intro _) | split | dsimp only)

theorem Ctl.readVia (h : Ctl u s) (x0 x1 x2 x3) : Ctl u (((State.readVia s x0 x1 x2 x3)).s) := by
  unfold State.readVia
  try extract_lets
  repeat' with_reducible (first
      | assumption | exact Ctl.refl u | apply Ctl.readAt | (apply Ctl.ite <;> intro _)
      | (apply Ctl.iteRd <;> intro _) | dsimp only)

theorem Ctl.count (h : Ctl u s) (x0 x1 x2) : Ctl u ((State.count s x0 x1 x2)) := by
  unfold State.count
  try extract_lets
  repeat' with_reducible (first
      | assumption | exact Ctl.refl u | refine Ctl.modCore ?_ _ (fun k => ?_)
      | refine Core.Steady.foldl (fun _ _ _ => ?_) ?_ | exact Core.Steady.refl _ | apply Core.Steady.setTag
      | apply Core.Steady.setV | apply Core.Steady.setX | apply Core.Steady.putRows | apply Core.Steady.setAcc
      | apply Core.Steady.poisonV | apply Core.Steady.dropLatch | apply Core.Steady.setStat
      | apply Core.Steady.ite | apply Core.Steady.tlWrite | apply Core.Steady.releaseMask
      | apply Core.Steady.latches | exact Core.Steady.mk rfl rfl rfl | fail_if_no_progress apply Ctl.upd | dsimp only)

theorem Ctl.consumeUnread (h : Ctl u s) (x0 x1 x2) : Ctl u ((State.consumeUnread s x0 x1 x2)) := by
  unfold State.consumeUnread
  try extract_lets
  repeat' with_reducible (first
      | assumption | exact Ctl.refl u | apply Ctl.count | (apply Ctl.ite <;> intro _)
      | refine Ctl.modCore ?_ _ (fun k => ?_) | refine Core.Steady.foldl (fun _ _ _ => ?_) ?_
      | exact Core.Steady.refl _ | apply Core.Steady.setTag | apply Core.Steady.setV | apply Core.Steady.setX
      | apply Core.Steady.putRows | apply Core.Steady.setAcc | apply Core.Steady.poisonV
      | apply Core.Steady.dropLatch | apply Core.Steady.setStat | apply Core.Steady.ite
      | apply Core.Steady.tlWrite | apply Core.Steady.releaseMask | apply Core.Steady.latches
      | exact Core.Steady.mk rfl rfl rfl | fail_if_no_progress apply Ctl.upd | dsimp only)

theorem Ctl.getPlace (h : Ctl u s) (x0 x1 x2 x3) : Ctl u (((State.getPlace s x0 x1 x2 x3)).s) := by
  unfold State.getPlace
  try dsimp only
  repeat' with_reducible (first
      | assumption | exact Ctl.refl u | apply Ctl.readVia | apply Ctl.consumeUnread | (apply Ctl.ite <;> intro _)
      | (apply Ctl.iteRd <;> intro _) | fail_if_no_progress apply Ctl.upd | split | dsimp only)

theorem Ctl.walkStart (h : Ctl u s) (x0 x1 x2) : Ctl u (((State.walkStart s x0 x1 x2)).2) := by
  unfold State.walkStart; dsimp only; repeat' with_reducible (first
      | assumption | exact Ctl.refl u | apply Ctl.ctxEntry | (apply Ctl.ite <;> intro _)
      | (apply Ctl.itePair <;> intro _) | (apply Ctl.itePair <;> intro _) | (apply Ctl.iteTriple <;> intro _)
      | dsimp only)

theorem Ctl.took (h : Ctl u s) : Ctl u ((State.took s)) := by
  unfold State.took
  try extract_lets
  repeat' with_reducible (first
      | assumption | exact Ctl.refl u | fail_if_no_progress apply Ctl.upd | dsimp only)

theorem Ctl.postCtx (h : Ctl u s) (x0) : Ctl u ((State.postCtx s x0)) := by
  unfold State.postCtx
  try extract_lets
  repeat' with_reducible (first
      | assumption | exact Ctl.refl u | apply Ctl.post | apply Ctl.ctxEntry | (apply Ctl.ite <;> intro _)
      | (apply Ctl.itePair <;> intro _) | (apply Ctl.iteTriple <;> intro _) | dsimp only)

theorem Ctl.postFault (h : Ctl u s) (x0 x1 x2 x3) : Ctl u ((State.postFault s x0 x1 x2 x3)) := by
  unfold State.postFault
  try extract_lets
  repeat' with_reducible (first
      | assumption | exact Ctl.refl u | apply Ctl.postCtx | dsimp only)

theorem Ctl.inject (h : Ctl u s) (x0) : Ctl u ((State.inject s x0)) := by
  unfold State.inject
  try extract_lets
  repeat' with_reducible (first
      | assumption | exact Ctl.refl u | fail_if_no_progress apply Ctl.upd | dsimp only)

theorem Ctl.xltFaultAcc (h : Ctl u s) (x0 x1 x2 x3 x4 x5 x6 x7 x8) : Ctl u ((State.xltFaultAcc s x0 x1 x2 x3 x4 x5 x6 x7 x8)) := by
  unfold State.xltFaultAcc
  try extract_lets
  repeat' with_reducible (first
      | assumption | exact Ctl.refl u | apply Ctl.postFault | refine Ctl.modCore ?_ _ (fun k => ?_)
      | refine Core.Steady.foldl (fun _ _ _ => ?_) ?_ | exact Core.Steady.refl _ | apply Core.Steady.setTag
      | apply Core.Steady.setV | apply Core.Steady.setX | apply Core.Steady.putRows | apply Core.Steady.setAcc
      | apply Core.Steady.poisonV | apply Core.Steady.dropLatch | apply Core.Steady.setStat
      | apply Core.Steady.ite | apply Core.Steady.tlWrite | apply Core.Steady.releaseMask
      | apply Core.Steady.latches | exact Core.Steady.mk rfl rfl rfl | fail_if_no_progress apply Ctl.upd | dsimp only)

theorem Ctl.missAcc (h : Ctl u s) (x0 x1 x2) : Ctl u ((State.missAcc s x0 x1 x2)) := by
  unfold State.missAcc; dsimp only; repeat' with_reducible (first
      | assumption | exact Ctl.refl u | apply Ctl.count | apply Ctl.walkStart | apply Ctl.xltFaultAcc
      | (apply Ctl.ite <;> intro _) | refine Ctl.modCore ?_ _ (fun k => ?_)
      | refine Core.Steady.foldl (fun _ _ _ => ?_) ?_ | exact Core.Steady.refl _ | apply Core.Steady.setTag
      | apply Core.Steady.setV | apply Core.Steady.setX | apply Core.Steady.putRows | apply Core.Steady.setAcc
      | apply Core.Steady.poisonV | apply Core.Steady.dropLatch | apply Core.Steady.setStat
      | apply Core.Steady.ite | apply Core.Steady.tlWrite | apply Core.Steady.releaseMask
      | apply Core.Steady.latches | exact Core.Steady.mk rfl rfl rfl | fail_if_no_progress apply Ctl.upd
      | (apply Ctl.itePair <;> intro _) | (apply Ctl.iteTriple <;> intro _) | split
      | refine Ctl.of_pair (by assumption) ?_ | dsimp only)

theorem Ctl.readPlaces (h : Ctl u s) (x0 x1 x2 x3 x4) : Ctl u (((readPlaces x0 x1 x2 s x3 x4)).2) := by
  induction x3 generalizing s x4 with
  | nil => exact h
  | cons y l ih => unfold Machine.readPlaces; dsimp only; repeat' with_reducible (first
      | apply ih | assumption | exact Ctl.refl u | apply Ctl.getPlace | (apply Ctl.ite <;> intro _)
      | (apply Ctl.itePair <;> intro _) | split | refine Ctl.of_pair (by assumption) ?_ | dsimp only)

theorem Ctl.progress (h : Ctl u s) (x0 x1 x2) : Ctl u ((State.progress s x0 x1 x2)) := by
  unfold State.progress
  try extract_lets
  repeat' with_reducible (first
      | assumption | exact Ctl.refl u | refine Ctl.modCore ?_ _ (fun k => ?_)
      | refine Core.Steady.foldl (fun _ _ _ => ?_) ?_ | exact Core.Steady.refl _ | apply Core.Steady.setTag
      | apply Core.Steady.setV | apply Core.Steady.setX | apply Core.Steady.putRows | apply Core.Steady.setAcc
      | apply Core.Steady.poisonV | apply Core.Steady.dropLatch | apply Core.Steady.setStat
      | apply Core.Steady.ite | apply Core.Steady.tlWrite | apply Core.Steady.releaseMask
      | apply Core.Steady.latches | exact Core.Steady.mk rfl rfl rfl | fail_if_no_progress apply Ctl.upd | dsimp only)

theorem Ctl.mergeHalf (h : Ctl u s) (x0 x1 x2 x3) : Ctl u (((State.mergeHalf s x0 x1 x2 x3)).s) := by
  unfold State.mergeHalf
  try extract_lets
  repeat' with_reducible (first
      | assumption | exact Ctl.refl u | apply Ctl.readHalf | (apply Ctl.ite <;> intro _)
      | (apply Ctl.iteRd <;> intro _) | fail_if_no_progress apply Ctl.upd | dsimp only)

theorem Ctl.dropWb (h : Ctl u s) (x0) : Ctl u ((State.dropWb s x0)) := by
  unfold State.dropWb
  try extract_lets
  repeat' with_reducible (first
      | assumption | exact Ctl.refl u | apply Ctl.setMem | (apply Ctl.ite <;> intro _)
      | fail_if_no_progress apply Ctl.upd | split | dsimp only)

theorem Ctl.storeHalf (h : Ctl u s) (x0 x1 x2) : Ctl u ((State.storeHalf s x0 x1 x2)) := by
  unfold State.storeHalf
  try extract_lets
  repeat' with_reducible (first
      | assumption | exact Ctl.refl u | apply Ctl.putBytes | apply Ctl.dropWb | (apply Ctl.ite <;> intro _)
      | fail_if_no_progress apply Ctl.upd | dsimp only)

theorem Ctl.writeWord (h : Ctl u s) (x0 x1 x2 x3) : Ctl u (((State.writeWord s x0 x1 x2 x3)).2) := by
  unfold State.writeWord
  try extract_lets
  repeat' with_reducible (first
      | assumption | exact Ctl.refl u | apply Ctl.letIn | apply Ctl.mergeHalf | apply Ctl.storeHalf
      | (apply Ctl.ite <;> intro _) | (apply Ctl.itePair <;> intro _) | split
      | refine Ctl.of_some (by assumption) ?_ | refine Ctl.of_pair (by assumption) ?_ | dsimp only)

theorem Ctl.writeFrom (h : Ctl u s) (x0 x1 x2 x3 x4) : Ctl u (((State.writeFrom s x0 x1 x2 x3 x4)).2) := by
  induction x4 generalizing s x1 x2 with
  | zero => exact h
  | succ n ih =>
    unfold State.writeFrom
    split
    · exact h
    · exact ih (Ctl.writeWord h ..) ..

theorem Ctl.writeDie (h : Ctl u s) (x0 x1 x2 x3) : Ctl u (((State.writeDie s x0 x1 x2 x3)).2) := by
  unfold State.writeDie
  try extract_lets
  repeat' with_reducible (first
      | assumption | exact Ctl.refl u | apply Ctl.writeFrom | (apply Ctl.itePair <;> intro _) | dsimp only)

theorem Ctl.aliasWord (h : Ctl u s) (x0 x1 x2 x3 x4) : Ctl u (((State.aliasWord s x0 x1 x2 x3 x4)).2) := by
  unfold State.aliasWord
  try extract_lets
  repeat' with_reducible (first
      | assumption | exact Ctl.refl u | apply Ctl.readDie | apply Ctl.writeDie | (apply Ctl.ite <;> intro _)
      | (apply Ctl.itePair <;> intro _) | dsimp only)

theorem Ctl.aliasWrite (h : Ctl u s) (x0 x1 x2 x3 x4) : Ctl u (((State.aliasWrite s x0 x1 x2 x3 x4)).2) := by
  unfold State.aliasWrite
  try extract_lets
  repeat' with_reducible (first
      | assumption | exact Ctl.refl u | apply Ctl.aliasWord | (apply Ctl.ite <;> intro _)
      | (apply Ctl.itePair <;> intro _) | (apply Ctl.itePair <;> intro _) | (apply Ctl.iteTriple <;> intro _)
      | dsimp only)

theorem Ctl.setLine (h : Ctl u s) (x0 x1) : Ctl u ((State.setLine s x0 x1)) := by
  unfold State.setLine
  try extract_lets
  repeat' with_reducible (first
      | assumption | exact Ctl.refl u | fail_if_no_progress apply Ctl.upd | dsimp only)

theorem Ctl.storeLine (h : Ctl u s) (x0 x1 x2 x3) : Ctl u ((State.storeLine s x0 x1 x2 x3)) := by
  unfold State.storeLine
  try extract_lets
  repeat' with_reducible (first
      | assumption | exact Ctl.refl u | apply Ctl.storeHalf | apply Ctl.setLine | dsimp only)

theorem Ctl.freeLocal (h : Ctl u s) (x0 x1 x2) : Ctl u ((State.freeLocal s x0 x1 x2)) := by
  unfold State.freeLocal
  try extract_lets
  repeat' with_reducible (first
      | assumption | exact Ctl.refl u | apply Ctl.took | apply Ctl.putByte
      | refine Ctl.foldl (fun _ _ _ => ?_) ?_ | split | dsimp only)

theorem Ctl.freeParams (h : Ctl u s) (x0 x1 x2 x3 x4) : Ctl u ((State.freeParams s x0 x1 x2 x3 x4)) := by
  unfold State.freeParams
  try extract_lets
  repeat' with_reducible (first
      | assumption | exact Ctl.refl u | apply Ctl.freeLocal | (apply Ctl.ite <;> intro _)
      | refine Ctl.foldl (fun _ _ _ => ?_) ?_ | dsimp only)

theorem Ctl.setDam (h : Ctl u s) (x0 x1) : Ctl u ((State.setDam s x0 x1)) := by
  unfold State.setDam
  try extract_lets
  repeat' with_reducible (first
      | assumption | exact Ctl.refl u | fail_if_no_progress apply Ctl.upd | dsimp only)

theorem Ctl.disturb (h : Ctl u s) (x0 x1) : Ctl u ((State.disturb s x0 x1)) := by
  unfold State.disturb
  try extract_lets
  repeat' with_reducible (first
      | assumption | exact Ctl.refl u | apply Ctl.freeParams | apply Ctl.setDam | apply Ctl.took
      | (apply Ctl.ite <;> intro _) | refine Ctl.foldl (fun _ _ _ => ?_) ?_
      | refine Ctl.foldlR (fun _ _ _ => ?_) ?_ | refine Ctl.foldlR2 (fun _ _ _ => ?_) ?_
      | refine Ctl.foldlL (fun _ _ _ => ?_) ?_ | fail_if_no_progress apply Ctl.upd
      | (apply Ctl.itePair <;> intro _) | (apply Ctl.iteTriple <;> intro _) | split | dsimp only)

theorem Ctl.monitorWrite (h : Ctl u s) (x0 x1 x2 x3 x4 x5) : Ctl u ((State.monitorWrite s x0 x1 x2 x3 x4 x5)) := by
  unfold State.monitorWrite
  try extract_lets
  repeat' with_reducible (first
      | assumption | exact Ctl.refl u | apply Ctl.setDam | (apply Ctl.ite <;> intro _)
      | fail_if_no_progress apply Ctl.upd | dsimp only)

theorem Ctl.writeLine (h : Ctl u s) (x0 x1 x2 x3) : Ctl u (((State.writeLine s x0 x1 x2 x3)).2) := by
  unfold State.writeLine; dsimp only; repeat' with_reducible (first
      | assumption | exact Ctl.refl u | apply Ctl.readTier | apply Ctl.storeLine | apply Ctl.disturb
      | apply Ctl.monitorWrite | (apply Ctl.ite <;> intro _) | (apply Ctl.itePair <;> intro _)
      | fail_if_no_progress apply Ctl.upd | split | refine Ctl.of_pair (by assumption) ?_ | dsimp only)

theorem Ctl.writeLines (h : Ctl u s) (x0 x1 x2 x3 x4) : Ctl u (((State.writeLines s x0 x1 x2 x3 x4)).2) := by
  induction x4 generalizing s x1 x2 x3 with
  | zero => exact h
  | succ n ih => unfold State.writeLines; repeat' with_reducible (first
      | apply ih | assumption | exact Ctl.refl u | apply Ctl.writeLine | (apply Ctl.ite <;> intro _)
      | (apply Ctl.itePair <;> intro _) | (apply Ctl.itePair <;> intro _) | (apply Ctl.iteTriple <;> intro _)
      | split | refine Ctl.of_pair (by assumption) ?_ | dsimp only)

theorem Ctl.writeTier (h : Ctl u s) (x0 x1 x2 x3) : Ctl u (((State.writeTier s x0 x1 x2 x3)).2) := by
  unfold State.writeTier
  try extract_lets
  repeat' with_reducible (first
      | assumption | exact Ctl.refl u | apply Ctl.writeLines | (apply Ctl.itePair <;> intro _) | dsimp only)

theorem Ctl.putHost (h : Ctl u s) (x0 x1 x2) : Ctl u ((State.putHost s x0 x1 x2)) := by
  unfold State.putHost
  try extract_lets
  repeat' with_reducible (first
      | assumption | exact Ctl.refl u | apply Ctl.putBytes | (apply Ctl.ite <;> intro _)
      | fail_if_no_progress apply Ctl.upd | dsimp only)

theorem Ctl.writeAt (h : Ctl u s) (x0 x1 x2 x3) : Ctl u (((State.writeAt s x0 x1 x2 x3)).2) := by
  unfold State.writeAt
  try extract_lets
  repeat' with_reducible (first
      | assumption | exact Ctl.refl u | apply Ctl.writeDie | apply Ctl.aliasWrite | apply Ctl.writeTier
      | apply Ctl.putHost | apply Ctl.noteHost | (apply Ctl.itePair <;> intro _) | split
      | refine Ctl.of_pair (by assumption) ?_ | dsimp only)

theorem Ctl.writeVia (h : Ctl u s) (x0 x1 x2 x3 x4) : Ctl u (((State.writeVia s x0 x1 x2 x3 x4)).2) := by
  unfold State.writeVia
  try extract_lets
  repeat' with_reducible (first
      | assumption | exact Ctl.refl u | apply Ctl.writeAt | (apply Ctl.ite <;> intro _)
      | (apply Ctl.itePair <;> intro _) | (apply Ctl.itePair <;> intro _) | (apply Ctl.iteTriple <;> intro _)
      | dsimp only)

theorem Ctl.engRead (h : Ctl u s) (x0 x1 x2 x3) : Ctl u (((State.engRead s x0 x1 x2 x3)).s) := by
  unfold State.engRead
  try extract_lets
  repeat' with_reducible (first
      | assumption | exact Ctl.refl u | apply Ctl.readDie | apply Ctl.consumeUnread
      | (apply Ctl.iteRd <;> intro _) | fail_if_no_progress apply Ctl.upd | dsimp only)

theorem Ctl.engReads (h : Ctl u s) (x0 x1 x2) : Ctl u (((State.engReads s x0 x1 x2)).2.2) := by
  induction x2 generalizing s with
  | nil => exact h
  | cons y l ih => unfold State.engReads; dsimp only; repeat' with_reducible (first
      | apply ih | assumption | exact Ctl.refl u | apply Ctl.engRead | (apply Ctl.ite <;> intro _)
      | (apply Ctl.iteTriple <;> intro _) | (apply Ctl.itePair <;> intro _) | (apply Ctl.iteTriple <;> intro _)
      | split | refine Ctl.of_triple (by assumption) ?_ | dsimp only)

theorem Ctl.stopEcc (h : Ctl u s) (x0 x1 x2) : Ctl u (((stopEcc s x0 x1 x2)).st) := by
  unfold Machine.stopEcc
  try extract_lets
  repeat' with_reducible (first
      | assumption | exact Ctl.refl u | (apply Ctl.ite <;> intro _) | (apply Ctl.iteStart <;> intro _)
      | apply Ctl.start_stop | split | refine Ctl.of_eq_Start (by assumption) ?_
      | refine Ctl.of_start_stop (by assumption) ?_ | dsimp only)

theorem Ctl.mmaRun (h : Ctl u s) (x0 x1 x2 x3 x4) : Ctl u (((mmaRun s x0 x1 x2 x3 x4)).st) := by
  unfold Machine.mmaRun
  try dsimp only
  repeat' with_reducible (first
      | assumption | exact Ctl.refl u | apply Ctl.engReads | apply Ctl.took | apply Ctl.stopEcc | apply Ctl.count
      | (apply Ctl.ite <;> intro _) | (apply Ctl.iteStart <;> intro _) | apply Ctl.start_go
      | apply Ctl.start_stop | refine Ctl.modCore ?_ _ (fun k => ?_)
      | refine Core.Steady.foldl (fun _ _ _ => ?_) ?_ | exact Core.Steady.refl _ | apply Core.Steady.setTag
      | apply Core.Steady.setV | apply Core.Steady.setX | apply Core.Steady.putRows | apply Core.Steady.setAcc
      | apply Core.Steady.poisonV | apply Core.Steady.dropLatch | apply Core.Steady.setStat
      | apply Core.Steady.ite | apply Core.Steady.tlWrite | apply Core.Steady.releaseMask
      | apply Core.Steady.latches | exact Core.Steady.mk rfl rfl rfl | refine Ctl.foldl (fun _ _ _ => ?_) ?_
      | refine Ctl.foldlR (fun _ _ _ => ?_) ?_ | refine Ctl.foldlR2 (fun _ _ _ => ?_) ?_
      | refine Ctl.foldlL (fun _ _ _ => ?_) ?_ | fail_if_no_progress apply Ctl.upd
      | (apply Ctl.itePair <;> intro _) | (apply Ctl.iteTriple <;> intro _) | split
      | refine Ctl.of_triple (by assumption) ?_ | refine Ctl.of_eq_Start (by assumption) ?_
      | refine Ctl.of_start_go (by assumption) ?_ | refine Ctl.of_start_stop (by assumption) ?_ | dsimp only)

theorem Ctl.startMma (h : Ctl u s) (x0 x1) : Ctl u (((startMma s x0 x1)).st) := by
  unfold Machine.startMma
  try extract_lets
  repeat' with_reducible (first
      | assumption | exact Ctl.refl u | apply Ctl.mmaRun | (apply Ctl.ite <;> intro _)
      | (apply Ctl.iteStart <;> intro _) | apply Ctl.start_fin | apply Ctl.start_wait | apply Ctl.start_stop
      | refine Ctl.modCore ?_ _ (fun k => ?_) | refine Core.Steady.foldl (fun _ _ _ => ?_) ?_
      | exact Core.Steady.refl _ | apply Core.Steady.setTag | apply Core.Steady.setV | apply Core.Steady.setX
      | apply Core.Steady.putRows | apply Core.Steady.setAcc | apply Core.Steady.poisonV
      | apply Core.Steady.dropLatch | apply Core.Steady.setStat | apply Core.Steady.ite
      | apply Core.Steady.tlWrite | apply Core.Steady.releaseMask | apply Core.Steady.latches
      | exact Core.Steady.mk rfl rfl rfl | split | refine Ctl.of_eq_Start (by assumption) ?_
      | refine Ctl.of_start_fin (by assumption) ?_ | refine Ctl.of_start_wait (by assumption) ?_
      | refine Ctl.of_start_stop (by assumption) ?_ | dsimp only)

theorem Ctl.dropUnread (h : Ctl u s) (x0 x1) : Ctl u ((State.dropUnread s x0 x1)) := by
  unfold State.dropUnread
  try extract_lets
  repeat' with_reducible (first
      | assumption | exact Ctl.refl u | apply Ctl.count | (apply Ctl.ite <;> intro _)
      | refine Ctl.modCore ?_ _ (fun k => ?_) | refine Core.Steady.foldl (fun _ _ _ => ?_) ?_
      | exact Core.Steady.refl _ | apply Core.Steady.setTag | apply Core.Steady.setV | apply Core.Steady.setX
      | apply Core.Steady.putRows | apply Core.Steady.setAcc | apply Core.Steady.poisonV
      | apply Core.Steady.dropLatch | apply Core.Steady.setStat | apply Core.Steady.ite
      | apply Core.Steady.tlWrite | apply Core.Steady.releaseMask | apply Core.Steady.latches
      | exact Core.Steady.mk rfl rfl rfl | fail_if_no_progress apply Ctl.upd | dsimp only)

theorem Ctl.engWrite (h : Ctl u s) (x0 x1 x2 x3) : Ctl u (((State.engWrite s x0 x1 x2 x3)).2) := by
  unfold State.engWrite
  try extract_lets
  repeat' with_reducible (first
      | assumption | exact Ctl.refl u | apply Ctl.dropUnread | apply Ctl.writeDie | (apply Ctl.ite <;> intro _)
      | (apply Ctl.itePair <;> intro _) | dsimp only)

theorem Ctl.engWrites (h : Ctl u s) (x0 x1 x2) : Ctl u (((State.engWrites s x0 x1 x2)).2) := by
  unfold State.engWrites
  try dsimp only
  repeat' with_reducible (first
      | assumption | exact Ctl.refl u | apply Ctl.engWrite | apply Ctl.readHalf | (apply Ctl.ite <;> intro _)
      | (apply Ctl.itePair <;> intro _) | refine Ctl.foldl (fun _ _ _ => ?_) ?_
      | refine Ctl.foldlR (fun _ _ _ => ?_) ?_ | refine Ctl.foldlR2 (fun _ _ _ => ?_) ?_
      | refine Ctl.foldlL (fun _ _ _ => ?_) ?_ | (apply Ctl.itePair <;> intro _)
      | (apply Ctl.iteTriple <;> intro _) | split | refine Ctl.of_pair (by assumption) ?_ | dsimp only)

theorem Ctl.startMrd (h : Ctl u s) (x0 x1) : Ctl u (((startMrd s x0 x1)).st) := by
  unfold Machine.startMrd
  try extract_lets
  repeat' with_reducible (first
      | assumption | exact Ctl.refl u | apply Ctl.engWrites | apply Ctl.stopEcc | (apply Ctl.ite <;> intro _)
      | (apply Ctl.iteStart <;> intro _) | apply Ctl.start_go | apply Ctl.start_fin | apply Ctl.start_wait
      | apply Ctl.start_stop | refine Ctl.modCore ?_ _ (fun k => ?_)
      | refine Core.Steady.foldl (fun _ _ _ => ?_) ?_ | exact Core.Steady.refl _ | apply Core.Steady.setTag
      | apply Core.Steady.setV | apply Core.Steady.setX | apply Core.Steady.putRows | apply Core.Steady.setAcc
      | apply Core.Steady.poisonV | apply Core.Steady.dropLatch | apply Core.Steady.setStat
      | apply Core.Steady.ite | apply Core.Steady.tlWrite | apply Core.Steady.releaseMask
      | apply Core.Steady.latches | exact Core.Steady.mk rfl rfl rfl | refine Ctl.foldl (fun _ _ _ => ?_) ?_
      | refine Ctl.foldlR (fun _ _ _ => ?_) ?_ | refine Ctl.foldlR2 (fun _ _ _ => ?_) ?_
      | refine Ctl.foldlL (fun _ _ _ => ?_) ?_ | (apply Ctl.itePair <;> intro _)
      | (apply Ctl.iteTriple <;> intro _) | dsimp only)

theorem Ctl.startMld (h : Ctl u s) (x0 x1) : Ctl u (((startMld s x0 x1)).st) := by
  unfold Machine.startMld
  try dsimp only
  repeat' with_reducible (first
      | assumption | exact Ctl.refl u | apply Ctl.engReads | apply Ctl.stopEcc | (apply Ctl.ite <;> intro _)
      | (apply Ctl.iteStart <;> intro _) | apply Ctl.start_go | apply Ctl.start_stop
      | refine Ctl.modCore ?_ _ (fun k => ?_) | refine Core.Steady.foldl (fun _ _ _ => ?_) ?_
      | exact Core.Steady.refl _ | apply Core.Steady.setTag | apply Core.Steady.setV | apply Core.Steady.setX
      | apply Core.Steady.putRows | apply Core.Steady.setAcc | apply Core.Steady.poisonV
      | apply Core.Steady.dropLatch | apply Core.Steady.setStat | apply Core.Steady.ite
      | apply Core.Steady.tlWrite | apply Core.Steady.releaseMask | apply Core.Steady.latches
      | exact Core.Steady.mk rfl rfl rfl | refine Ctl.foldl (fun _ _ _ => ?_) ?_ | split
      | refine Ctl.of_triple (by assumption) ?_ | refine Ctl.of_eq_Start (by assumption) ?_
      | refine Ctl.of_start_go (by assumption) ?_ | refine Ctl.of_start_stop (by assumption) ?_ | dsimp only)

theorem Ctl.moveA (h : Ctl u s) (x0 x1 x2 x3 x4) : Ctl u (((moveA s x0 x1 x2 x3 x4)).st) := by
  unfold Machine.moveA
  try extract_lets
  repeat' with_reducible (first
      | assumption | exact Ctl.refl u | (apply Ctl.ite <;> intro _) | (apply Ctl.iteStart <;> intro _)
      | apply Ctl.start_go | apply Ctl.start_wait | apply Ctl.start_stop | refine Ctl.modCore ?_ _ (fun k => ?_)
      | refine Core.Steady.foldl (fun _ _ _ => ?_) ?_ | exact Core.Steady.refl _ | apply Core.Steady.setTag
      | apply Core.Steady.setV | apply Core.Steady.setX | apply Core.Steady.putRows | apply Core.Steady.setAcc
      | apply Core.Steady.poisonV | apply Core.Steady.dropLatch | apply Core.Steady.setStat
      | apply Core.Steady.ite | apply Core.Steady.tlWrite | apply Core.Steady.releaseMask
      | apply Core.Steady.latches | exact Core.Steady.mk rfl rfl rfl | refine Ctl.foldl (fun _ _ _ => ?_) ?_
      | refine Ctl.foldlR (fun _ _ _ => ?_) ?_ | refine Ctl.foldlR2 (fun _ _ _ => ?_) ?_
      | refine Ctl.foldlL (fun _ _ _ => ?_) ?_ | (apply Ctl.itePair <;> intro _)
      | (apply Ctl.iteTriple <;> intro _) | split | refine Ctl.of_eq_Start (by assumption) ?_
      | refine Ctl.of_start_go (by assumption) ?_ | refine Ctl.of_start_wait (by assumption) ?_
      | refine Ctl.of_start_stop (by assumption) ?_ | dsimp only)

theorem Ctl.moveX (h : Ctl u s) (x0 x1 x2 x3 x4) : Ctl u (((moveX s x0 x1 x2 x3 x4)).st) := by
  unfold Machine.moveX
  try extract_lets
  repeat' with_reducible (first
      | assumption | exact Ctl.refl u | apply Ctl.engReads | apply Ctl.stopEcc | (apply Ctl.ite <;> intro _)
      | (apply Ctl.iteStart <;> intro _) | apply Ctl.start_go | apply Ctl.start_stop
      | refine Ctl.modCore ?_ _ (fun k => ?_) | refine Core.Steady.foldl (fun _ _ _ => ?_) ?_
      | exact Core.Steady.refl _ | apply Core.Steady.setTag | apply Core.Steady.setV | apply Core.Steady.setX
      | apply Core.Steady.putRows | apply Core.Steady.setAcc | apply Core.Steady.poisonV
      | apply Core.Steady.dropLatch | apply Core.Steady.setStat | apply Core.Steady.ite
      | apply Core.Steady.tlWrite | apply Core.Steady.releaseMask | apply Core.Steady.latches
      | exact Core.Steady.mk rfl rfl rfl | refine Ctl.foldl (fun _ _ _ => ?_) ?_
      | refine Ctl.foldlR (fun _ _ _ => ?_) ?_ | refine Ctl.foldlR2 (fun _ _ _ => ?_) ?_
      | refine Ctl.foldlL (fun _ _ _ => ?_) ?_ | fail_if_no_progress apply Ctl.upd
      | (apply Ctl.itePair <;> intro _) | (apply Ctl.iteTriple <;> intro _) | split
      | refine Ctl.of_triple (by assumption) ?_ | refine Ctl.of_eq_Start (by assumption) ?_
      | refine Ctl.of_start_go (by assumption) ?_ | refine Ctl.of_start_stop (by assumption) ?_ | dsimp only)

theorem Ctl.startMmove (h : Ctl u s) (x0 x1) : Ctl u (((startMmove s x0 x1)).st) := by
  unfold Machine.startMmove
  try extract_lets
  repeat' with_reducible (first
      | assumption | exact Ctl.refl u | apply Ctl.moveA | apply Ctl.moveX | (apply Ctl.ite <;> intro _)
      | (apply Ctl.iteStart <;> intro _) | apply Ctl.start_stop | dsimp only)

theorem Ctl.startMrel (h : Ctl u s) (x0 x1) : Ctl u (((startMrel s x0 x1)).st) := by
  unfold Machine.startMrel
  try extract_lets
  repeat' with_reducible (first
      | assumption | exact Ctl.refl u | (apply Ctl.ite <;> intro _) | (apply Ctl.iteStart <;> intro _)
      | apply Ctl.start_go | apply Ctl.start_wait | apply Ctl.start_stop | refine Ctl.modCore ?_ _ (fun k => ?_)
      | refine Core.Steady.foldl (fun _ _ _ => ?_) ?_ | exact Core.Steady.refl _ | apply Core.Steady.setTag
      | apply Core.Steady.setV | apply Core.Steady.setX | apply Core.Steady.putRows | apply Core.Steady.setAcc
      | apply Core.Steady.poisonV | apply Core.Steady.dropLatch | apply Core.Steady.setStat
      | apply Core.Steady.ite | apply Core.Steady.tlWrite | apply Core.Steady.releaseMask
      | apply Core.Steady.latches | exact Core.Steady.mk rfl rfl rfl | dsimp only)

theorem Ctl.takeEntry (h : Ctl u s) (x0 x1 x2 x3) : Ctl u (((State.takeEntry s x0 x1 x2 x3)).s) := by
  unfold State.takeEntry
  try extract_lets
  repeat' with_reducible (first
      | assumption | exact Ctl.refl u | apply Ctl.engRead | (apply Ctl.iteRd <;> intro _)
      | refine Ctl.modCore ?_ _ (fun k => ?_) | refine Core.Steady.foldl (fun _ _ _ => ?_) ?_
      | exact Core.Steady.refl _ | apply Core.Steady.setTag | apply Core.Steady.setV | apply Core.Steady.setX
      | apply Core.Steady.putRows | apply Core.Steady.setAcc | apply Core.Steady.poisonV
      | apply Core.Steady.dropLatch | apply Core.Steady.setStat | apply Core.Steady.ite
      | apply Core.Steady.tlWrite | apply Core.Steady.releaseMask | apply Core.Steady.latches
      | exact Core.Steady.mk rfl rfl rfl | fail_if_no_progress apply Ctl.upd | dsimp only)

theorem Ctl.vldTake (h : Ctl u s) (x0 x1 x2) : Ctl u (((vldTake s x0 x1 x2)).st) := by
  induction x2 generalizing s x1 with
  | nil => exact h
  | cons y l ih => unfold Machine.vldTake; dsimp only; repeat' with_reducible (first
      | apply ih | assumption | exact Ctl.refl u | apply Ctl.takeEntry | apply Ctl.stopEcc | apply Ctl.took
      | (apply Ctl.ite <;> intro _) | (apply Ctl.iteStart <;> intro _) | apply Ctl.start_go
      | apply Ctl.start_stop | refine Ctl.modCore ?_ _ (fun k => ?_)
      | refine Core.Steady.foldl (fun _ _ _ => ?_) ?_ | exact Core.Steady.refl _ | apply Core.Steady.setTag
      | apply Core.Steady.setV | apply Core.Steady.setX | apply Core.Steady.putRows | apply Core.Steady.setAcc
      | apply Core.Steady.poisonV | apply Core.Steady.dropLatch | apply Core.Steady.setStat
      | apply Core.Steady.ite | apply Core.Steady.tlWrite | apply Core.Steady.releaseMask
      | apply Core.Steady.latches | exact Core.Steady.mk rfl rfl rfl | fail_if_no_progress apply Ctl.upd
      | (apply Ctl.itePair <;> intro _) | (apply Ctl.iteTriple <;> intro _) | split
      | refine Ctl.of_eq_Start (by assumption) ?_ | refine Ctl.of_start_go (by assumption) ?_
      | refine Ctl.of_start_stop (by assumption) ?_ | dsimp only)

theorem Ctl.startVld (h : Ctl u s) (x0 x1) : Ctl u (((startVld s x0 x1)).st) := by
  unfold Machine.startVld
  try extract_lets
  repeat' with_reducible (first
      | assumption | exact Ctl.refl u | apply Ctl.vldTake | apply Ctl.engReads | apply Ctl.stopEcc
      | (apply Ctl.ite <;> intro _) | (apply Ctl.iteStart <;> intro _) | apply Ctl.start_go | apply Ctl.start_fin
      | apply Ctl.start_stop | refine Ctl.modCore ?_ _ (fun k => ?_)
      | refine Core.Steady.foldl (fun _ _ _ => ?_) ?_ | exact Core.Steady.refl _ | apply Core.Steady.setTag
      | apply Core.Steady.setV | apply Core.Steady.setX | apply Core.Steady.putRows | apply Core.Steady.setAcc
      | apply Core.Steady.poisonV | apply Core.Steady.dropLatch | apply Core.Steady.setStat
      | apply Core.Steady.ite | apply Core.Steady.tlWrite | apply Core.Steady.releaseMask
      | apply Core.Steady.latches | exact Core.Steady.mk rfl rfl rfl | refine Ctl.foldl (fun _ _ _ => ?_) ?_
      | refine Ctl.foldlR (fun _ _ _ => ?_) ?_ | refine Ctl.foldlR2 (fun _ _ _ => ?_) ?_
      | refine Ctl.foldlL (fun _ _ _ => ?_) ?_ | fail_if_no_progress apply Ctl.upd
      | (apply Ctl.itePair <;> intro _) | (apply Ctl.iteTriple <;> intro _) | split
      | refine Ctl.of_eq_Start (by assumption) ?_ | refine Ctl.of_start_go (by assumption) ?_
      | refine Ctl.of_start_fin (by assumption) ?_ | refine Ctl.of_start_stop (by assumption) ?_
      | refine Ctl.of_triple (by assumption) ?_ | dsimp only)

theorem Ctl.startVst (h : Ctl u s) (x0 x1) : Ctl u (((startVst s x0 x1)).st) := by
  unfold Machine.startVst
  try extract_lets
  repeat' with_reducible (first
      | assumption | exact Ctl.refl u | apply Ctl.engWrites | apply Ctl.stopEcc | (apply Ctl.ite <;> intro _)
      | (apply Ctl.iteStart <;> intro _) | apply Ctl.start_go | apply Ctl.start_fin | apply Ctl.start_stop
      | refine Ctl.foldl (fun _ _ _ => ?_) ?_ | refine Ctl.foldlR (fun _ _ _ => ?_) ?_
      | refine Ctl.foldlR2 (fun _ _ _ => ?_) ?_ | refine Ctl.foldlL (fun _ _ _ => ?_) ?_
      | fail_if_no_progress apply Ctl.upd | (apply Ctl.itePair <;> intro _) | (apply Ctl.iteTriple <;> intro _)
      | dsimp only)

theorem Ctl.startVop (h : Ctl u s) (x0 x1) : Ctl u (((startVop s x0 x1)).st) := by
  unfold Machine.startVop
  try extract_lets
  repeat' with_reducible (first
      | assumption | exact Ctl.refl u | (apply Ctl.ite <;> intro _) | (apply Ctl.iteStart <;> intro _)
      | apply Ctl.start_go | apply Ctl.start_fin | apply Ctl.start_stop | refine Ctl.modCore ?_ _ (fun k => ?_)
      | refine Core.Steady.foldl (fun _ _ _ => ?_) ?_ | exact Core.Steady.refl _ | apply Core.Steady.setTag
      | apply Core.Steady.setV | apply Core.Steady.setX | apply Core.Steady.putRows | apply Core.Steady.setAcc
      | apply Core.Steady.poisonV | apply Core.Steady.dropLatch | apply Core.Steady.setStat
      | apply Core.Steady.ite | apply Core.Steady.tlWrite | apply Core.Steady.releaseMask
      | apply Core.Steady.latches | exact Core.Steady.mk rfl rfl rfl | refine Ctl.foldl (fun _ _ _ => ?_) ?_
      | refine Ctl.foldlR (fun _ _ _ => ?_) ?_ | refine Ctl.foldlR2 (fun _ _ _ => ?_) ?_
      | refine Ctl.foldlL (fun _ _ _ => ?_) ?_ | fail_if_no_progress apply Ctl.upd
      | (apply Ctl.itePair <;> intro _) | (apply Ctl.iteTriple <;> intro _) | split
      | refine Ctl.of_eq_Start (by assumption) ?_ | refine Ctl.of_start_go (by assumption) ?_
      | refine Ctl.of_start_fin (by assumption) ?_ | refine Ctl.of_start_stop (by assumption) ?_ | dsimp only)

theorem Ctl.startVcvt (h : Ctl u s) (x0 x1) : Ctl u (((startVcvt s x0 x1)).st) := by
  unfold Machine.startVcvt
  try extract_lets
  repeat' with_reducible (first
      | assumption | exact Ctl.refl u | (apply Ctl.ite <;> intro _) | (apply Ctl.iteStart <;> intro _)
      | apply Ctl.start_go | apply Ctl.start_stop | refine Ctl.modCore ?_ _ (fun k => ?_)
      | refine Core.Steady.foldl (fun _ _ _ => ?_) ?_ | exact Core.Steady.refl _ | apply Core.Steady.setTag
      | apply Core.Steady.setV | apply Core.Steady.setX | apply Core.Steady.putRows | apply Core.Steady.setAcc
      | apply Core.Steady.poisonV | apply Core.Steady.dropLatch | apply Core.Steady.setStat
      | apply Core.Steady.ite | apply Core.Steady.tlWrite | apply Core.Steady.releaseMask
      | apply Core.Steady.latches | exact Core.Steady.mk rfl rfl rfl | fail_if_no_progress apply Ctl.upd
      | (apply Ctl.itePair <;> intro _) | (apply Ctl.iteTriple <;> intro _) | dsimp only)

theorem Ctl.startVala (h : Ctl u s) (x0 x1) : Ctl u (((startVala s x0 x1)).st) := by
  unfold Machine.startVala
  try dsimp only
  repeat' with_reducible (first
      | assumption | exact Ctl.refl u | apply Ctl.engRead | apply Ctl.stopEcc | (apply Ctl.ite <;> intro _)
      | (apply Ctl.iteStart <;> intro _) | apply Ctl.start_go | apply Ctl.start_stop
      | refine Ctl.modCore ?_ _ (fun k => ?_) | refine Core.Steady.foldl (fun _ _ _ => ?_) ?_
      | exact Core.Steady.refl _ | apply Core.Steady.setTag | apply Core.Steady.setV | apply Core.Steady.setX
      | apply Core.Steady.putRows | apply Core.Steady.setAcc | apply Core.Steady.poisonV
      | apply Core.Steady.dropLatch | apply Core.Steady.setStat | apply Core.Steady.ite
      | apply Core.Steady.tlWrite | apply Core.Steady.releaseMask | apply Core.Steady.latches
      | exact Core.Steady.mk rfl rfl rfl | refine Ctl.foldl (fun _ _ _ => ?_) ?_
      | refine Ctl.foldlR (fun _ _ _ => ?_) ?_ | refine Ctl.foldlR2 (fun _ _ _ => ?_) ?_
      | refine Ctl.foldlL (fun _ _ _ => ?_) ?_ | fail_if_no_progress apply Ctl.upd
      | (apply Ctl.itePair <;> intro _) | (apply Ctl.iteTriple <;> intro _) | split
      | refine Ctl.of_eq_Start (by assumption) ?_ | refine Ctl.of_start_go (by assumption) ?_
      | refine Ctl.of_start_stop (by assumption) ?_ | dsimp only)

theorem Ctl.startVmove (h : Ctl u s) (x0 x1) : Ctl u (((startVmove s x0 x1)).st) := by
  unfold Machine.startVmove
  try extract_lets
  repeat' with_reducible (first
      | assumption | exact Ctl.refl u | (apply Ctl.ite <;> intro _) | (apply Ctl.iteStart <;> intro _)
      | apply Ctl.start_go | apply Ctl.start_stop | refine Ctl.modCore ?_ _ (fun k => ?_)
      | refine Core.Steady.foldl (fun _ _ _ => ?_) ?_ | exact Core.Steady.refl _ | apply Core.Steady.setTag
      | apply Core.Steady.setV | apply Core.Steady.setX | apply Core.Steady.putRows | apply Core.Steady.setAcc
      | apply Core.Steady.poisonV | apply Core.Steady.dropLatch | apply Core.Steady.setStat
      | apply Core.Steady.ite | apply Core.Steady.tlWrite | apply Core.Steady.releaseMask
      | apply Core.Steady.latches | exact Core.Steady.mk rfl rfl rfl | refine Ctl.foldl (fun _ _ _ => ?_) ?_
      | refine Ctl.foldlR (fun _ _ _ => ?_) ?_ | refine Ctl.foldlR2 (fun _ _ _ => ?_) ?_
      | refine Ctl.foldlL (fun _ _ _ => ?_) ?_ | fail_if_no_progress apply Ctl.upd
      | (apply Ctl.itePair <;> intro _) | (apply Ctl.iteTriple <;> intro _) | dsimp only)

theorem Ctl.startVrel (h : Ctl u s) (x0 x1) : Ctl u (((startVrel s x0 x1)).st) := by
  unfold Machine.startVrel
  try extract_lets
  repeat' with_reducible (first
      | assumption | exact Ctl.refl u | (apply Ctl.ite <;> intro _) | (apply Ctl.iteStart <;> intro _)
      | apply Ctl.start_go | apply Ctl.start_stop | refine Ctl.modCore ?_ _ (fun k => ?_)
      | refine Core.Steady.foldl (fun _ _ _ => ?_) ?_ | exact Core.Steady.refl _ | apply Core.Steady.setTag
      | apply Core.Steady.setV | apply Core.Steady.setX | apply Core.Steady.putRows | apply Core.Steady.setAcc
      | apply Core.Steady.poisonV | apply Core.Steady.dropLatch | apply Core.Steady.setStat
      | apply Core.Steady.ite | apply Core.Steady.tlWrite | apply Core.Steady.releaseMask
      | apply Core.Steady.latches | exact Core.Steady.mk rfl rfl rfl | dsimp only)

theorem Ctl.startVector (h : Ctl u s) (x0 x1) : Ctl u (((startVector s x0 x1)).st) := by
  unfold Machine.startVector
  try extract_lets
  repeat' with_reducible (first
      | assumption | exact Ctl.refl u | apply Ctl.startVld | apply Ctl.startVst | apply Ctl.startVop
      | apply Ctl.startVcvt | apply Ctl.startVala | apply Ctl.startVmove | apply Ctl.startVrel
      | (apply Ctl.ite <;> intro _) | (apply Ctl.iteStart <;> intro _) | apply Ctl.start_wait | split
      | refine Ctl.of_eq_Start (by assumption) ?_ | refine Ctl.of_start_wait (by assumption) ?_ | dsimp only)

theorem Ctl.startRspill (h : Ctl u s) (x0 x1) : Ctl u (((startRspill s x0 x1)).st) := by
  unfold Machine.startRspill
  try extract_lets
  repeat' with_reducible (first
      | assumption | exact Ctl.refl u | apply Ctl.engWrites | apply Ctl.stopEcc | apply Ctl.count
      | (apply Ctl.ite <;> intro _) | (apply Ctl.iteStart <;> intro _) | apply Ctl.start_go | apply Ctl.start_fin
      | apply Ctl.start_stop | refine Ctl.modCore ?_ _ (fun k => ?_)
      | refine Core.Steady.foldl (fun _ _ _ => ?_) ?_ | exact Core.Steady.refl _ | apply Core.Steady.setTag
      | apply Core.Steady.setV | apply Core.Steady.setX | apply Core.Steady.putRows | apply Core.Steady.setAcc
      | apply Core.Steady.poisonV | apply Core.Steady.dropLatch | apply Core.Steady.setStat
      | apply Core.Steady.ite | apply Core.Steady.tlWrite | apply Core.Steady.releaseMask
      | apply Core.Steady.latches | exact Core.Steady.mk rfl rfl rfl | refine Ctl.foldl (fun _ _ _ => ?_) ?_
      | refine Ctl.foldlR (fun _ _ _ => ?_) ?_ | refine Ctl.foldlR2 (fun _ _ _ => ?_) ?_
      | refine Ctl.foldlL (fun _ _ _ => ?_) ?_ | (apply Ctl.itePair <;> intro _)
      | (apply Ctl.iteTriple <;> intro _) | dsimp only)

theorem Ctl.startRfill (h : Ctl u s) (x0 x1) : Ctl u (((startRfill s x0 x1)).st) := by
  unfold Machine.startRfill
  try dsimp only
  repeat' with_reducible (first
      | assumption | exact Ctl.refl u | apply Ctl.engRead | apply Ctl.stopEcc | apply Ctl.count
      | (apply Ctl.ite <;> intro _) | (apply Ctl.iteStart <;> intro _) | apply Ctl.start_go | apply Ctl.start_fin
      | apply Ctl.start_stop | refine Ctl.modCore ?_ _ (fun k => ?_)
      | refine Core.Steady.foldl (fun _ _ _ => ?_) ?_ | exact Core.Steady.refl _ | apply Core.Steady.setTag
      | apply Core.Steady.setV | apply Core.Steady.setX | apply Core.Steady.putRows | apply Core.Steady.setAcc
      | apply Core.Steady.poisonV | apply Core.Steady.dropLatch | apply Core.Steady.setStat
      | apply Core.Steady.ite | apply Core.Steady.tlWrite | apply Core.Steady.releaseMask
      | apply Core.Steady.latches | exact Core.Steady.mk rfl rfl rfl | refine Ctl.foldl (fun _ _ _ => ?_) ?_
      | split | refine Ctl.of_eq_Start (by assumption) ?_ | refine Ctl.of_start_go (by assumption) ?_
      | refine Ctl.of_start_fin (by assumption) ?_ | refine Ctl.of_start_stop (by assumption) ?_ | dsimp only)

theorem Ctl.rowStep (h : Ctl u s) (x0 x1 x2 x3 x4) : Ctl u (((rowStep s x0 x1 x2 x3 x4)).st) := by
  unfold Machine.rowStep
  try dsimp only
  repeat' with_reducible (first
      | assumption | exact Ctl.refl u | apply Ctl.engReads | apply Ctl.stopEcc | apply Ctl.engWrites
      | apply Ctl.count | (apply Ctl.ite <;> intro _) | (apply Ctl.iteStart <;> intro _) | apply Ctl.start_go
      | apply Ctl.start_stop | refine Ctl.modCore ?_ _ (fun k => ?_)
      | refine Core.Steady.foldl (fun _ _ _ => ?_) ?_ | exact Core.Steady.refl _ | apply Core.Steady.setTag
      | apply Core.Steady.setV | apply Core.Steady.setX | apply Core.Steady.putRows | apply Core.Steady.setAcc
      | apply Core.Steady.poisonV | apply Core.Steady.dropLatch | apply Core.Steady.setStat
      | apply Core.Steady.ite | apply Core.Steady.tlWrite | apply Core.Steady.releaseMask
      | apply Core.Steady.latches | exact Core.Steady.mk rfl rfl rfl | refine Ctl.foldl (fun _ _ _ => ?_) ?_
      | refine Ctl.foldlR (fun _ _ _ => ?_) ?_ | refine Ctl.foldlR2 (fun _ _ _ => ?_) ?_
      | refine Ctl.foldlL (fun _ _ _ => ?_) ?_ | fail_if_no_progress apply Ctl.upd
      | (apply Ctl.itePair <;> intro _) | (apply Ctl.iteTriple <;> intro _) | split
      | refine Ctl.of_triple (by assumption) ?_ | refine Ctl.of_eq_Start (by assumption) ?_
      | refine Ctl.of_start_go (by assumption) ?_ | refine Ctl.of_start_stop (by assumption) ?_
      | refine Ctl.of_pair (by assumption) ?_ | dsimp only)

theorem Ctl.rowsQueue (h : Ctl u s) (x0 x1 x2 x3 x4) : Ctl u (((rowsQueue s x0 x1 x2 x3 x4)).st) := by
  induction x4 generalizing s x1 x3 with
  | zero => exact h
  | succ n ih => unfold Machine.rowsQueue; dsimp only; repeat' with_reducible (first
      | apply ih | assumption | exact Ctl.refl u | apply Ctl.takeEntry | apply Ctl.stopEcc | apply Ctl.rowStep
      | (apply Ctl.ite <;> intro _) | (apply Ctl.iteStart <;> intro _) | apply Ctl.start_go
      | apply Ctl.start_stop | fail_if_no_progress apply Ctl.upd | split
      | refine Ctl.of_eq_Start (by assumption) ?_ | refine Ctl.of_start_go (by assumption) ?_
      | refine Ctl.of_start_stop (by assumption) ?_ | dsimp only)

theorem Ctl.rowsFrom (h : Ctl u s) (x0 x1 x2 x3 x4) : Ctl u (((rowsFrom s x0 x1 x2 x3 x4)).st) := by
  induction x4 generalizing s x1 x3 with
  | zero => exact h
  | succ n ih =>
    unfold Machine.rowsFrom; split
    · exact ih (Ctl.of_start_go (by assumption) (Ctl.rowStep h ..)) ..
    · exact Ctl.rowStep h ..

theorem Ctl.startRowOp (h : Ctl u s) (x0 x1) : Ctl u (((startRowOp s x0 x1)).st) := by
  unfold Machine.startRowOp; dsimp only; repeat' with_reducible (first
      | assumption | exact Ctl.refl u | apply Ctl.engRead | apply Ctl.stopEcc | apply Ctl.rowsQueue
      | apply Ctl.rowsFrom | (apply Ctl.ite <;> intro _) | (apply Ctl.iteStart <;> intro _) | apply Ctl.start_fin
      | apply Ctl.start_stop | fail_if_no_progress apply Ctl.upd | (apply Ctl.itePair <;> intro _)
      | (apply Ctl.iteTriple <;> intro _) | split | refine Ctl.of_eq_Start (by assumption) ?_
      | refine Ctl.of_start_fin (by assumption) ?_ | refine Ctl.of_start_stop (by assumption) ?_ | dsimp only)

theorem Ctl.startRow (h : Ctl u s) (x0 x1) : Ctl u (((startRow s x0 x1)).st) := by
  unfold Machine.startRow
  try extract_lets
  repeat' with_reducible (first
      | assumption | exact Ctl.refl u | apply Ctl.startRspill | apply Ctl.startRfill | apply Ctl.startRowOp
      | (apply Ctl.ite <;> intro _) | (apply Ctl.iteStart <;> intro _) | apply Ctl.start_wait | split
      | refine Ctl.of_eq_Start (by assumption) ?_ | refine Ctl.of_start_wait (by assumption) ?_ | dsimp only)

theorem Ctl.startTload (h : Ctl u s) (x0 x1) : Ctl u (((startTload s x0 x1)).st) := by
  unfold Machine.startTload
  try extract_lets
  repeat' with_reducible (first
      | assumption | exact Ctl.refl u | (apply Ctl.ite <;> intro _) | (apply Ctl.iteStart <;> intro _)
      | apply Ctl.start_go | apply Ctl.start_fin | apply Ctl.start_stop | refine Ctl.modCore ?_ _ (fun k => ?_)
      | refine Core.Steady.foldl (fun _ _ _ => ?_) ?_ | exact Core.Steady.refl _ | apply Core.Steady.setTag
      | apply Core.Steady.setV | apply Core.Steady.setX | apply Core.Steady.putRows | apply Core.Steady.setAcc
      | apply Core.Steady.poisonV | apply Core.Steady.dropLatch | apply Core.Steady.setStat
      | apply Core.Steady.ite | apply Core.Steady.tlWrite | apply Core.Steady.releaseMask
      | apply Core.Steady.latches | exact Core.Steady.mk rfl rfl rfl | fail_if_no_progress apply Ctl.upd | split
      | refine Ctl.of_eq_Start (by assumption) ?_ | refine Ctl.of_start_go (by assumption) ?_
      | refine Ctl.of_start_fin (by assumption) ?_ | refine Ctl.of_start_stop (by assumption) ?_ | dsimp only)

theorem Ctl.startQcfg (h : Ctl u s) (x0 x1) : Ctl u (((startQcfg s x0 x1)).st) := by
  unfold Machine.startQcfg
  try extract_lets
  repeat' with_reducible (first
      | assumption | exact Ctl.refl u | apply Ctl.dropUnread | (apply Ctl.ite <;> intro _)
      | (apply Ctl.iteStart <;> intro _) | apply Ctl.start_go | apply Ctl.start_wait | apply Ctl.start_stop
      | refine Ctl.modCore ?_ _ (fun k => ?_) | refine Core.Steady.foldl (fun _ _ _ => ?_) ?_
      | exact Core.Steady.refl _ | apply Core.Steady.setTag | apply Core.Steady.setV | apply Core.Steady.setX
      | apply Core.Steady.putRows | apply Core.Steady.setAcc | apply Core.Steady.poisonV
      | apply Core.Steady.dropLatch | apply Core.Steady.setStat | apply Core.Steady.ite
      | apply Core.Steady.tlWrite | apply Core.Steady.releaseMask | apply Core.Steady.latches
      | exact Core.Steady.mk rfl rfl rfl | fail_if_no_progress apply Ctl.upd | dsimp only)

theorem Ctl.startAprog (h : Ctl u s) (x0 x1) : Ctl u (((startAprog s x0 x1)).st) := by
  unfold Machine.startAprog
  try extract_lets
  repeat' with_reducible (first
      | assumption | exact Ctl.refl u | (apply Ctl.ite <;> intro _) | (apply Ctl.iteStart <;> intro _)
      | apply Ctl.start_go | apply Ctl.start_fin | apply Ctl.start_wait | apply Ctl.start_stop
      | refine Ctl.modCore ?_ _ (fun k => ?_) | refine Core.Steady.foldl (fun _ _ _ => ?_) ?_
      | exact Core.Steady.refl _ | apply Core.Steady.setTag | apply Core.Steady.setV | apply Core.Steady.setX
      | apply Core.Steady.putRows | apply Core.Steady.setAcc | apply Core.Steady.poisonV
      | apply Core.Steady.dropLatch | apply Core.Steady.setStat | apply Core.Steady.ite
      | apply Core.Steady.tlWrite | apply Core.Steady.releaseMask | apply Core.Steady.latches
      | exact Core.Steady.mk rfl rfl rfl | fail_if_no_progress apply Ctl.upd | split
      | refine Ctl.of_eq_Start (by assumption) ?_ | refine Ctl.of_start_go (by assumption) ?_
      | refine Ctl.of_start_fin (by assumption) ?_ | refine Ctl.of_start_wait (by assumption) ?_
      | refine Ctl.of_start_stop (by assumption) ?_ | dsimp only)

theorem Ctl.images (h : Ctl u s) (x0 x1 x2) : Ctl u (((State.images s x0 x1 x2)).2.2) := by
  unfold State.images
  try extract_lets
  repeat' with_reducible (first
      | assumption | exact Ctl.refl u | apply Ctl.engReads | (apply Ctl.ite <;> intro _)
      | (apply Ctl.iteTriple <;> intro _) | dsimp only)

theorem Ctl.issueDamson (h : Ctl u s) (x0 x1) : Ctl u (((State.issueDamson s x0 x1)).st) := by
  unfold State.issueDamson
  try extract_lets
  repeat' with_reducible (first
      | assumption | exact Ctl.refl u | apply Ctl.images | apply Ctl.setDam | (apply Ctl.ite <;> intro _)
      | (apply Ctl.iteIssue <;> intro _) | apply Ctl.issue_sent | apply Ctl.issue_stop
      | refine Ctl.foldl (fun _ _ _ => ?_) ?_ | refine Ctl.foldlR (fun _ _ _ => ?_) ?_
      | refine Ctl.foldlR2 (fun _ _ _ => ?_) ?_ | refine Ctl.foldlL (fun _ _ _ => ?_) ?_
      | fail_if_no_progress apply Ctl.upd | (apply Ctl.itePair <;> intro _) | (apply Ctl.iteTriple <;> intro _)
      | split | refine Ctl.of_triple (by assumption) ?_ | refine Ctl.of_eq_Issue (by assumption) ?_
      | refine Ctl.of_issue_sent (by assumption) ?_ | refine Ctl.of_issue_stop (by assumption) ?_ | dsimp only)

theorem Ctl.startDamson (h : Ctl u s) (x0 x1) : Ctl u (((startDamson s x0 x1)).st) := by
  unfold Machine.startDamson
  try extract_lets
  repeat' with_reducible (first
      | assumption | exact Ctl.refl u | apply Ctl.issueDamson | (apply Ctl.ite <;> intro _)
      | (apply Ctl.iteStart <;> intro _) | apply Ctl.start_go | apply Ctl.start_fin | apply Ctl.start_stop
      | fail_if_no_progress apply Ctl.upd | split | refine Ctl.of_eq_Issue (by assumption) ?_
      | refine Ctl.of_issue_sent (by assumption) ?_ | refine Ctl.of_issue_stop (by assumption) ?_
      | refine Ctl.of_eq_Start (by assumption) ?_ | refine Ctl.of_start_go (by assumption) ?_
      | refine Ctl.of_start_fin (by assumption) ?_ | refine Ctl.of_start_stop (by assumption) ?_ | dsimp only)

theorem Ctl.sendReq (h : Ctl u s) (x0 x1 x2 x3 x4 x5 x6) : Ctl u ((State.sendReq s x0 x1 x2 x3 x4 x5 x6)) := by
  unfold State.sendReq
  try extract_lets
  repeat' with_reducible (first
      | assumption | exact Ctl.refl u | apply Ctl.inject | (apply Ctl.ite <;> intro _)
      | fail_if_no_progress apply Ctl.upd | dsimp only)

theorem Ctl.build (h : Ctl u s) (x0 x1 x2 x3 x4 x5) : Ctl u (((State.build s x0 x1 x2 x3 x4 x5)).st u) := by
  unfold State.build
  try extract_lets
  repeat' with_reducible (first
      | assumption | exact Ctl.refl u | apply Ctl.sendReq | (apply Ctl.ite <;> intro _)
      | (apply Ctl.iteBuilt <;> intro _) | exact Ctl.built_failed | exact Ctl.built_noTag | apply Ctl.built_sent
      | split | refine Ctl.of_eq_Built (by assumption) ?_ | refine Ctl.of_built_sent (by assumption) ?_ | dsimp only)

theorem Ctl.fabAdvance (h : Ctl u s) (x0 x1 x2) : Ctl u (((State.fabAdvance s x0 x1 x2)).1) := by
  unfold State.fabAdvance
  try extract_lets
  repeat' with_reducible (first
      | assumption | exact Ctl.refl u | apply Ctl.build | (apply Ctl.ite <;> intro _)
      | (apply Ctl.itePairL <;> intro _) | fail_if_no_progress apply Ctl.upd | split
      | refine Ctl.of_eq_Built (by assumption) ?_ | refine Ctl.of_built_sent (by assumption) ?_
      | refine Ctl.of_pairL (by assumption) ?_ | dsimp only)

theorem Ctl.localPlaces (h : Ctl u s) (x0 x1 x2 x3) : Ctl u (((localPlaces s x0 x1 x2 x3)).st u) := by
  unfold Machine.localPlaces
  try extract_lets
  repeat' with_reducible (first
      | assumption | exact Ctl.refl u | apply Ctl.missAcc | apply Ctl.xltFaultAcc | exact Ctl.localres_ok
      | exact Ctl.localres_bad | apply Ctl.localres_block | split | refine Ctl.of_eq_LocalRes (by assumption) ?_
      | refine Ctl.of_localres_block (by assumption) ?_ | dsimp only)

theorem Ctl.getPart (h : Ctl u s) (x0 x1 x2) : Ctl u ((startSum (getPart s x0 x1 x2))) := by
  unfold Machine.getPart
  try dsimp only
  repeat' with_reducible (first
      | assumption | exact Ctl.refl u | apply Ctl.build | apply Ctl.localPlaces | (apply Ctl.ite <;> intro _)
      | apply Ctl.startSum_inl | apply Ctl.startSum_inr | (apply Ctl.itestartSum <;> intro _)
      | apply Ctl.start_hold | apply Ctl.start_stop | fail_if_no_progress apply Ctl.upd | split
      | refine Ctl.of_eq_Built (by assumption) ?_ | refine Ctl.of_built_sent (by assumption) ?_
      | refine Ctl.of_eq_LocalRes (by assumption) ?_ | refine Ctl.of_localres_block (by assumption) ?_
      | refine Ctl.of_startSum_inr (by assumption) ?_ | refine Ctl.of_startSum_inl (by assumption) ?_
      | refine Ctl.of_startSum_inl_go (by assumption) ?_ | refine Ctl.of_startSum_inl_stop (by assumption) ?_
      | refine Ctl.of_startSum_inl_hold (by assumption) ?_ | refine Ctl.of_startSum_inl_fin (by assumption) ?_
      | dsimp only)

theorem Ctl.readPack (h : Ctl u s) (x0 x1 x2 x3) : Ctl u (((readPack x0 x1 s x2 x3)).2) := by
  induction x2 generalizing s x3 with
  | nil => exact h
  | cons y l ih => unfold Machine.readPack; dsimp only; repeat' with_reducible (first
      | apply ih | assumption | exact Ctl.refl u | apply Ctl.getPlace | (apply Ctl.itePair <;> intro _) | split
      | refine Ctl.of_pair (by assumption) ?_ | dsimp only)

theorem Ctl.putPart (h : Ctl u s) (x0 x1 x2) : Ctl u ((startSum (putPart s x0 x1 x2))) := by
  unfold Machine.putPart; dsimp only; repeat' with_reducible (first
      | assumption | exact Ctl.refl u | apply Ctl.localPlaces | apply Ctl.readPack | apply Ctl.build
      | (apply Ctl.ite <;> intro _) | apply Ctl.startSum_inl | apply Ctl.startSum_inr
      | (apply Ctl.itestartSum <;> intro _) | apply Ctl.start_hold | apply Ctl.start_stop
      | fail_if_no_progress apply Ctl.upd | (apply Ctl.itePair <;> intro _) | (apply Ctl.iteTriple <;> intro _)
      | split | refine Ctl.of_eq_LocalRes (by assumption) ?_ | refine Ctl.of_localres_block (by assumption) ?_
      | refine Ctl.of_pair (by assumption) ?_ | refine Ctl.of_eq_Built (by assumption) ?_
      | refine Ctl.of_built_sent (by assumption) ?_ | refine Ctl.of_startSum_inr (by assumption) ?_
      | refine Ctl.of_startSum_inl (by assumption) ?_ | refine Ctl.of_startSum_inl_go (by assumption) ?_
      | refine Ctl.of_startSum_inl_stop (by assumption) ?_ | refine Ctl.of_startSum_inl_hold (by assumption) ?_
      | refine Ctl.of_startSum_inl_fin (by assumption) ?_ | dsimp only)

theorem Ctl.sendParts (h : Ctl u s) (x0 x1 x2) : Ctl u (((sendParts x0 s x1 x2)).st) := by
  induction x2 generalizing s x1 with
  | nil => exact Ctl.fabAdvance h ..
  | cons x xs ih =>
    unfold Machine.sendParts
    have hp : Ctl u (startSum (if cOpc x1.w = 0x61 then Machine.getPart s x0 x1 x else Machine.putPart s x0 x1 x)) := by
      split
      · exact Ctl.getPart h ..
      · exact Ctl.putPart h ..
    split
    · exact Ctl.of_startSum_inl (by assumption) hp
    · exact ih (Ctl.of_startSum_inr (by assumption) hp) _

theorem Ctl.startFabric (h : Ctl u s) (x0 x1) : Ctl u (((startFabric s x0 x1)).st) := by
  unfold Machine.startFabric
  try extract_lets
  repeat' with_reducible (first
      | assumption | exact Ctl.refl u | apply Ctl.fabAdvance | apply Ctl.build | apply Ctl.sendParts
      | (apply Ctl.ite <;> intro _) | (apply Ctl.iteStart <;> intro _) | apply Ctl.start_go | apply Ctl.start_fin
      | apply Ctl.start_hold | apply Ctl.start_stop | fail_if_no_progress apply Ctl.upd
      | (apply Ctl.itePair <;> intro _) | (apply Ctl.iteTriple <;> intro _) | split
      | refine Ctl.of_pairL (by assumption) ?_ | refine Ctl.of_eq_Built (by assumption) ?_
      | refine Ctl.of_built_sent (by assumption) ?_ | refine Ctl.of_eq_Start (by assumption) ?_
      | refine Ctl.of_start_go (by assumption) ?_ | refine Ctl.of_start_fin (by assumption) ?_
      | refine Ctl.of_start_hold (by assumption) ?_ | refine Ctl.of_start_stop (by assumption) ?_ | dsimp only)

theorem Ctl.blocked (h : Ctl u s) (x0 x1 x2 x3) : Ctl u (((blocked s x0 x1 x2 x3)).getD u) := by
  unfold Machine.blocked
  try extract_lets
  repeat' with_reducible (first
      | assumption | exact Ctl.refl u | apply Ctl.missAcc | apply Ctl.xltFaultAcc
      | (apply Ctl.iteOpt <;> intro _) | apply Ctl.opt_some | apply Ctl.opt_none | split
      | refine Ctl.of_some (by assumption) ?_ | dsimp only)

theorem Ctl.rewritten (h : Ctl u s) (x0 x1 x2) : Ctl u ((State.rewritten s x0 x1 x2)) := by
  unfold State.rewritten
  try extract_lets
  repeat' with_reducible (first
      | assumption | exact Ctl.refl u | apply Ctl.dropUnread | (apply Ctl.ite <;> intro _) | dsimp only)

theorem Ctl.copied (h : Ctl u s) (x0 x1 x2) : Ctl u ((State.copied s x0 x1 x2)) := by
  unfold State.copied
  try extract_lets
  repeat' with_reducible (first
      | assumption | exact Ctl.refl u | refine Ctl.modCore ?_ _ (fun k => ?_)
      | refine Core.Steady.foldl (fun _ _ _ => ?_) ?_ | exact Core.Steady.refl _ | apply Core.Steady.setTag
      | apply Core.Steady.setV | apply Core.Steady.setX | apply Core.Steady.putRows | apply Core.Steady.setAcc
      | apply Core.Steady.poisonV | apply Core.Steady.dropLatch | apply Core.Steady.setStat
      | apply Core.Steady.ite | apply Core.Steady.tlWrite | apply Core.Steady.releaseMask
      | apply Core.Steady.latches | exact Core.Steady.mk rfl rfl rfl | refine Ctl.foldl (fun _ _ _ => ?_) ?_
      | fail_if_no_progress apply Ctl.upd | dsimp only)

theorem Ctl.putPlace (h : Ctl u s) (x0 x1 x2 x3 x4) : Ctl u (((State.putPlace s x0 x1 x2 x3 x4)).2) := by
  unfold State.putPlace; extract_lets slab
  clear_value slab
  dsimp only
  repeat' with_reducible (first
      | assumption | exact Ctl.refl u | apply Ctl.writeVia | apply Ctl.writeAt | apply Ctl.rewritten
      | apply Ctl.copied | (apply Ctl.ite <;> intro _) | (apply Ctl.itePair <;> intro _)
      | (apply Ctl.itePair <;> intro _) | (apply Ctl.iteTriple <;> intro _) | split
      | refine Ctl.of_pair (by assumption) ?_ | dsimp only)

theorem Ctl.writePlaces (h : Ctl u s) (x0 x1 x2 x3 x4 x5 x6) : Ctl u (((writePlaces x0 x1 x2 x3 x4 s x5 x6)).2) := by
  induction x5 generalizing s x6 with
  | nil => exact h
  | cons y l ih => unfold Machine.writePlaces; dsimp only; repeat' with_reducible (first
      | apply ih | assumption | exact Ctl.refl u | apply Ctl.putPlace | (apply Ctl.ite <;> intro _)
      | (apply Ctl.itePair <;> intro _) | (apply Ctl.itePair <;> intro _) | (apply Ctl.iteTriple <;> intro _)
      | split | refine Ctl.of_pair (by assumption) ?_ | dsimp only)

theorem Ctl.moveChunk (h : Ctl u s) (x0 x1 x2 x3 x4 x5 x6) : Ctl u (((moveChunk s x0 x1 x2 x3 x4 x5 x6)).st) := by
  unfold Machine.moveChunk
  try extract_lets
  repeat' with_reducible (first
      | assumption | exact Ctl.refl u | apply Ctl.missAcc | apply Ctl.xltFaultAcc | apply Ctl.readPlaces
      | apply Ctl.writePlaces | apply Ctl.progress | apply Ctl.count | (apply Ctl.ite <;> intro _)
      | (apply Ctl.iteMove <;> intro _) | apply Ctl.move_ok | apply Ctl.move_block
      | fail_if_no_progress apply Ctl.upd | (apply Ctl.itePair <;> intro _) | (apply Ctl.iteTriple <;> intro _)
      | split | refine Ctl.of_pair (by assumption) ?_ | refine Ctl.of_eq_Move (by assumption) ?_
      | refine Ctl.of_move_ok (by assumption) ?_ | refine Ctl.of_move_block (by assumption) ?_ | dsimp only)

theorem Ctl.moveRow (h : Ctl u s) (x0 x1 x2 x3 x4 x5) : Ctl u (((moveRow x0 x1 x2 x3 s x4 x5)).st) := by
  induction x5 generalizing s x4 with
  | zero => exact h
  | succ n ih =>
    unfold Machine.moveRow; dsimp only; split
    · exact h
    · split
      · exact ih (Ctl.of_move_ok (by assumption) (Ctl.moveChunk h ..)) _
      · exact Ctl.moveChunk h ..

theorem Ctl.moveWhole (h : Ctl u s) (x0 x1 x2 x3 x4) : Ctl u (((moveWhole x0 x1 x2 x3 s x4)).st) := by
  unfold Machine.moveWhole
  try extract_lets
  repeat' with_reducible (first
      | assumption | exact Ctl.refl u | apply Ctl.blocked | apply Ctl.moveRow | apply Ctl.move_block | split
      | refine Ctl.of_some (by assumption) ?_ | refine Ctl.of_eq_Move (by assumption) ?_
      | refine Ctl.of_move_block (by assumption) ?_ | dsimp only)

theorem Ctl.pushTail (h : Ctl u s) (x0 x1) : Ctl u ((State.pushTail s x0 x1)) := by
  unfold State.pushTail
  try extract_lets
  repeat' with_reducible (first
      | assumption | exact Ctl.refl u | refine Ctl.modCore ?_ _ (fun k => ?_)
      | refine Core.Steady.foldl (fun _ _ _ => ?_) ?_ | exact Core.Steady.refl _ | apply Core.Steady.setTag
      | apply Core.Steady.setV | apply Core.Steady.setX | apply Core.Steady.putRows | apply Core.Steady.setAcc
      | apply Core.Steady.poisonV | apply Core.Steady.dropLatch | apply Core.Steady.setStat
      | apply Core.Steady.ite | apply Core.Steady.tlWrite | apply Core.Steady.releaseMask
      | apply Core.Steady.latches | exact Core.Steady.mk rfl rfl rfl | fail_if_no_progress apply Ctl.upd | split
      | dsimp only)

theorem Ctl.moveRows (h : Ctl u s) (x0 x1 x2 x3) : Ctl u (((moveRows x0 x1 s x2 x3)).st) := by
  induction x3 generalizing s x2 with
  | zero => exact h
  | succ n ih => unfold Machine.moveRows; dsimp only; repeat' with_reducible (first
      | apply ih | assumption | exact Ctl.refl u | apply Ctl.moveWhole | apply Ctl.pushTail
      | (apply Ctl.ite <;> intro _) | (apply Ctl.iteMove <;> intro _) | apply Ctl.move_ok | apply Ctl.move_block
      | apply Ctl.move_stop | fail_if_no_progress apply Ctl.upd | split
      | refine Ctl.of_eq_Move (by assumption) ?_ | refine Ctl.of_move_ok (by assumption) ?_
      | refine Ctl.of_move_block (by assumption) ?_ | refine Ctl.of_move_stop (by assumption) ?_ | dsimp only)

theorem Ctl.runPlan (h : Ctl u s) (x0 x1) : Ctl u (((runPlan s x0 x1)).st) := by
  unfold Machine.runPlan
  try extract_lets
  repeat' with_reducible (first
      | assumption | exact Ctl.refl u | apply Ctl.moveRows | dsimp only)

theorem Ctl.skWrite (h : Ctl u s) (x0 x1 x2 x3) : Ctl u (((skWrite x0 x1 x2 s x3)).st) := by
  unfold Machine.skWrite
  try extract_lets
  repeat' with_reducible (first
      | assumption | exact Ctl.refl u | apply Ctl.blocked | apply Ctl.writePlaces | apply Ctl.progress
      | apply Ctl.count | (apply Ctl.ite <;> intro _) | (apply Ctl.iteMove <;> intro _) | apply Ctl.move_ok
      | apply Ctl.move_block | apply Ctl.move_stop | refine Ctl.foldl (fun _ _ _ => ?_) ?_
      | refine Ctl.foldlR (fun _ _ _ => ?_) ?_ | refine Ctl.foldlR2 (fun _ _ _ => ?_) ?_
      | refine Ctl.foldlL (fun _ _ _ => ?_) ?_ | fail_if_no_progress apply Ctl.upd
      | (apply Ctl.itePair <;> intro _) | (apply Ctl.iteTriple <;> intro _) | split
      | refine Ctl.of_some (by assumption) ?_ | refine Ctl.of_pair (by assumption) ?_
      | refine Ctl.of_eq_Move (by assumption) ?_ | refine Ctl.of_move_ok (by assumption) ?_
      | refine Ctl.of_move_block (by assumption) ?_ | refine Ctl.of_move_stop (by assumption) ?_ | dsimp only)

theorem Ctl.skStreamsFrom (h : Ctl u s) (x0 x1 x2 x3) : Ctl u (((skStreamsFrom x0 x1 s x2 x3)).st) := by
  induction x3 generalizing s x2 with
  | zero => exact h
  | succ n ih => unfold Machine.skStreamsFrom; dsimp only; repeat' with_reducible (first
      | apply ih | assumption | exact Ctl.refl u | apply Ctl.skWrite | apply Ctl.pushTail
      | (apply Ctl.ite <;> intro _) | (apply Ctl.iteMove <;> intro _) | apply Ctl.move_ok | apply Ctl.move_block
      | apply Ctl.move_stop | fail_if_no_progress apply Ctl.upd | split
      | refine Ctl.of_eq_Move (by assumption) ?_ | refine Ctl.of_move_ok (by assumption) ?_
      | refine Ctl.of_move_block (by assumption) ?_ | refine Ctl.of_move_stop (by assumption) ?_ | dsimp only)

theorem Ctl.skRow (h : Ctl u s) (x0 x1 x2 x3) : Ctl u (((skRow x0 s x1 x2 x3)).2) := by
  unfold Machine.skRow
  try extract_lets
  repeat' with_reducible (first
      | assumption | exact Ctl.refl u | apply Ctl.getPlace | (apply Ctl.ite <;> intro _)
      | (apply Ctl.itePair <;> intro _) | refine Ctl.foldl (fun _ _ _ => ?_) ?_
      | refine Ctl.foldlR (fun _ _ _ => ?_) ?_ | refine Ctl.foldlR2 (fun _ _ _ => ?_) ?_
      | refine Ctl.foldlL (fun _ _ _ => ?_) ?_ | fail_if_no_progress apply Ctl.upd
      | (apply Ctl.itePair <;> intro _) | (apply Ctl.iteTriple <;> intro _) | split
      | refine Ctl.of_pair (by assumption) ?_ | dsimp only)

theorem Ctl.skRead (h : Ctl u s) (x0 x1) : Ctl u ((sumR (skRead x0 s x1))) := by
  unfold Machine.skRead
  split
  · rename_i t e
    obtain ⟨p, _, hp⟩ := List.exists_of_findSome?_eq_some e
    exact Ctl.of_some hp (Ctl.blocked h ..)
  · repeat' with_reducible (first
      | assumption | exact Ctl.refl u | apply Ctl.blocked | apply Ctl.skRow | (apply Ctl.itePair <;> intro _)
      | apply Ctl.sumR_inl | apply Ctl.sumR_inr | (apply Ctl.itesumR <;> intro _)
      | refine Ctl.foldl (fun _ _ _ => ?_) ?_ | refine Ctl.foldlR (fun _ _ _ => ?_) ?_
      | refine Ctl.foldlR2 (fun _ _ _ => ?_) ?_ | refine Ctl.foldlL (fun _ _ _ => ?_) ?_ | split
      | refine Ctl.of_some (by assumption) ?_ | refine Ctl.of_pair (by assumption) ?_
      | refine Ctl.of_sumR_inr (by assumption) ?_ | refine Ctl.of_sumR_inl (by assumption) ?_ | dsimp only)

theorem Ctl.runSkew (h : Ctl u s) (x0) : Ctl u (((runSkew s x0)).st) := by
  unfold Machine.runSkew
  try extract_lets
  repeat' with_reducible (first
      | assumption | exact Ctl.refl u | apply Ctl.skStreamsFrom | apply Ctl.skRead | apply Ctl.move_block
      | fail_if_no_progress apply Ctl.upd | split | refine Ctl.of_eq_Move (by assumption) ?_
      | refine Ctl.of_move_block (by assumption) ?_ | refine Ctl.of_sumR_inr (by assumption) ?_
      | refine Ctl.of_sumR_inl (by assumption) ?_ | dsimp only)

theorem Ctl.itemIndex (h : Ctl u s) (x0 x1 x2 x3) : Ctl u (((itemIndex s x0 x1 x2 x3)).2) := by
  unfold Machine.itemIndex
  try extract_lets
  repeat' with_reducible (first
      | assumption | exact Ctl.refl u | apply Ctl.engRead | (apply Ctl.ite <;> intro _)
      | (apply Ctl.itePair <;> intro _) | dsimp only)

theorem Ctl.failItem (h : Ctl u s) (x0 x1 x2 x3 x4 x5 x6) : Ctl u (((failItem x0 x1 x2 x3 x4 s x5 x6)).st) := by
  unfold Machine.failItem
  try extract_lets
  repeat' with_reducible (first
      | assumption | exact Ctl.refl u | apply Ctl.blocked | apply Ctl.pushTail | apply Ctl.writePlaces
      | (apply Ctl.ite <;> intro _) | (apply Ctl.iteMove <;> intro _) | apply Ctl.move_ok | apply Ctl.move_block
      | (apply Ctl.itePair <;> intro _) | (apply Ctl.iteTriple <;> intro _) | split
      | refine Ctl.of_some (by assumption) ?_ | refine Ctl.of_pair (by assumption) ?_
      | refine Ctl.of_eq_Move (by assumption) ?_ | refine Ctl.of_move_ok (by assumption) ?_
      | refine Ctl.of_move_block (by assumption) ?_ | dsimp only)

theorem Ctl.moveItem (h : Ctl u s) (x0 x1) : Ctl u (((moveItem x0 s x1)).st) := by
  unfold Machine.moveItem
  extract_lets w i ib gather next fail qi o dg
  have hx := Ctl.itemIndex h x0.c x0.ctx w i
  clear_value next fail qi o dg i ib
  split
  · exact h
  · split
    · exact h
    · split
      · exact Ctl.failItem (Ctl.of_pair (by assumption) hx) ..
      · have h2 := Ctl.of_pair (by assumption) hx
        split
        · exact h2
        · extract_lets far x
          clear_value far x
          split
          · exact Ctl.failItem h2 ..
          · have h3 := Ctl.moveWhole h2 x0 x 0 (if gather then dg else far) x1
            split
            · exact Ctl.pushTail (Ctl.of_move_ok (by assumption) h3) ..
            · exact h3

theorem Ctl.moveItems (h : Ctl u s) (x0 x1 x2) : Ctl u (((moveItems x0 s x1 x2)).st) := by
  induction x2 generalizing s x1 with
  | zero => exact h
  | succ n ih => unfold Machine.moveItems; repeat' with_reducible (first
      | apply ih | assumption | exact Ctl.refl u | apply Ctl.moveItem | (apply Ctl.ite <;> intro _)
      | (apply Ctl.iteMove <;> intro _) | apply Ctl.move_ok | split | refine Ctl.of_eq_Move (by assumption) ?_
      | refine Ctl.of_move_ok (by assumption) ?_ | dsimp only)

theorem Ctl.copyToSlab (h : Ctl u s) (x0 x1 x2 x3 x4) : Ctl u (((State.copyToSlab s x0 x1 x2 x3 x4)).2) := by
  unfold State.copyToSlab
  try extract_lets
  repeat' with_reducible (first
      | assumption | exact Ctl.refl u | apply Ctl.writeDie | apply Ctl.rewritten | apply Ctl.copied
      | (apply Ctl.ite <;> intro _) | (apply Ctl.itePair <;> intro _) | (apply Ctl.itePair <;> intro _)
      | (apply Ctl.iteTriple <;> intro _) | dsimp only)

theorem Ctl.mcastChunk (h : Ctl u s) (x0 x1 x2 x3 x4) : Ctl u (((mcastChunk x0 x1 x2 x3 s x4)).1) := by
  unfold Machine.mcastChunk
  try extract_lets
  repeat' with_reducible (first
      | assumption | exact Ctl.refl u | apply Ctl.copyToSlab | apply Ctl.progress | apply Ctl.count
      | (apply Ctl.ite <;> intro _) | (apply Ctl.itePairL <;> intro _) | refine Ctl.foldl (fun _ _ _ => ?_) ?_
      | refine Ctl.foldlR (fun _ _ _ => ?_) ?_ | refine Ctl.foldlR2 (fun _ _ _ => ?_) ?_
      | refine Ctl.foldlL (fun _ _ _ => ?_) ?_ | fail_if_no_progress apply Ctl.upd
      | (apply Ctl.itePair <;> intro _) | (apply Ctl.iteTriple <;> intro _) | split
      | refine Ctl.of_pair (by assumption) ?_ | refine Ctl.of_pairL (by assumption) ?_ | dsimp only)

theorem Ctl.mcastRow (h : Ctl u s) (x0 x1 x2 x3) : Ctl u (((mcastRow x0 x1 s x2 x3)).st) := by
  induction x3 generalizing s x2 with
  | zero => exact h
  | succ n ih => unfold Machine.mcastRow; dsimp only; repeat' with_reducible (first
      | apply ih | assumption | exact Ctl.refl u | apply Ctl.missAcc | apply Ctl.xltFaultAcc
      | apply Ctl.readPlaces | apply Ctl.mcastChunk | (apply Ctl.ite <;> intro _)
      | (apply Ctl.iteMove <;> intro _) | apply Ctl.move_ok | apply Ctl.move_block | apply Ctl.move_stop
      | fail_if_no_progress apply Ctl.upd | (apply Ctl.itePair <;> intro _) | (apply Ctl.iteTriple <;> intro _)
      | split | refine Ctl.of_pair (by assumption) ?_ | refine Ctl.of_pairL (by assumption) ?_
      | refine Ctl.of_eq_Move (by assumption) ?_ | refine Ctl.of_move_ok (by assumption) ?_
      | refine Ctl.of_move_block (by assumption) ?_ | refine Ctl.of_move_stop (by assumption) ?_ | dsimp only)

theorem Ctl.mcastRows (h : Ctl u s) (x0 x1 x2) : Ctl u (((mcastRows x0 s x1 x2)).st) := by
  induction x2 generalizing s x1 with
  | zero => exact h
  | succ n ih => unfold Machine.mcastRows; dsimp only; repeat' with_reducible (first
      | apply ih | assumption | exact Ctl.refl u | apply Ctl.mcastRow | (apply Ctl.ite <;> intro _)
      | (apply Ctl.iteMove <;> intro _) | apply Ctl.move_ok | fail_if_no_progress apply Ctl.upd | split
      | refine Ctl.of_eq_Move (by assumption) ?_ | refine Ctl.of_move_ok (by assumption) ?_ | dsimp only)

theorem Ctl.runMove (h : Ctl u s) (x0) : Ctl u (((runMove s x0)).st) := by
  unfold Machine.runMove
  try extract_lets
  repeat' with_reducible (first
      | assumption | exact Ctl.refl u | apply Ctl.runPlan | apply Ctl.runSkew | apply Ctl.moveItems
      | apply Ctl.mcastRows | split | refine Ctl.of_eq_Move (by assumption) ?_ | dsimp only)

theorem Ctl.startMove (h : Ctl u s) (x0 x1) : Ctl u (((startMove s x0 x1)).st) := by
  unfold Machine.startMove
  try extract_lets
  repeat' with_reducible (first
      | assumption | exact Ctl.refl u | apply Ctl.runMove | (apply Ctl.ite <;> intro _)
      | (apply Ctl.iteStart <;> intro _) | apply Ctl.start_go | apply Ctl.start_fin | apply Ctl.start_hold
      | apply Ctl.start_stop | fail_if_no_progress apply Ctl.upd | split
      | refine Ctl.of_eq_Move (by assumption) ?_ | refine Ctl.of_move_ok (by assumption) ?_
      | refine Ctl.of_move_block (by assumption) ?_ | refine Ctl.of_move_stop (by assumption) ?_
      | refine Ctl.of_eq_Start (by assumption) ?_ | refine Ctl.of_start_go (by assumption) ?_
      | refine Ctl.of_start_fin (by assumption) ?_ | refine Ctl.of_start_hold (by assumption) ?_
      | refine Ctl.of_start_stop (by assumption) ?_ | dsimp only)

end Sys2Proof.Machine
end

