-- ==== Sys2Proof/Laws/Reads.lean ====
section
/-! SUPPORT. What reading after writing gives: bit fields, registers, cores, slots and tables. -/

namespace Sys2Proof.Machine

theorem setFld_toNat {n : Nat} (w : BitVec n) {hi lo : Nat} (v : Nat) (hl : lo ≤ hi) (hn : hi < n) :
    (setFld w hi lo v).toNat =
      w.toNat / 2 ^ (hi + 1) * 2 ^ (hi + 1) + v % 2 ^ (hi - lo + 1) * 2 ^ lo + w.toNat % 2 ^ lo := by
  have hp : 2 ^ (hi + 1) = 2 ^ (hi - lo + 1) * 2 ^ lo := by rw [← pow_add]; congr 1; omega
  have hw := w.isLt
  have e1 : w.toNat = w.toNat / 2 ^ lo * 2 ^ lo + w.toNat % 2 ^ lo := by
    rw [mul_comm]; exact (Nat.div_add_mod _ _).symm
  have e2 : w.toNat / 2 ^ lo = w.toNat / 2 ^ (hi + 1) * 2 ^ (hi - lo + 1) + w.toNat / 2 ^ lo % 2 ^ (hi - lo + 1) := by
    have h3 : w.toNat / 2 ^ (hi + 1) = w.toNat / 2 ^ lo / 2 ^ (hi - lo + 1) := by rw [hp, mul_comm, Nat.div_div_eq_div_mul]
    rw [h3, mul_comm]; exact (Nat.div_add_mod _ _).symm
  have e3 : w.toNat = w.toNat / 2 ^ (hi + 1) * 2 ^ (hi + 1) + fld w hi lo * 2 ^ lo + w.toNat % 2 ^ lo := by
    unfold fld
    conv_lhs => rw [e1, e2]
    rw [hp]; ring
  unfold setFld
  rw [BitVec.toNat_ofNat]
  have e4 : w.toNat - fld w hi lo * 2 ^ lo = w.toNat / 2 ^ (hi + 1) * 2 ^ (hi + 1) + w.toNat % 2 ^ lo := by
    omega
  rw [e4, Nat.mod_eq_of_lt]
  · ring
  · have h1 : w.toNat / 2 ^ (hi + 1) * 2 ^ (hi + 1) + 2 ^ (hi + 1) ≤ 2 ^ n := by
      have : w.toNat / 2 ^ (hi + 1) < 2 ^ (n - (hi + 1)) := by
        apply Nat.div_lt_of_lt_mul; rw [← pow_add]; convert hw using 2; omega
      calc w.toNat / 2 ^ (hi + 1) * 2 ^ (hi + 1) + 2 ^ (hi + 1) = (w.toNat / 2 ^ (hi + 1) + 1) * 2 ^ (hi + 1) := by ring
        _ ≤ 2 ^ (n - (hi + 1)) * 2 ^ (hi + 1) := Nat.mul_le_mul_right _ this
        _ = 2 ^ n := by rw [← pow_add]; congr 1; omega
    have h2 : v % 2 ^ (hi - lo + 1) * 2 ^ lo + w.toNat % 2 ^ lo < 2 ^ (hi + 1) := by
      have a : v % 2 ^ (hi - lo + 1) < 2 ^ (hi - lo + 1) := Nat.mod_lt _ (by positivity)
      have b : w.toNat % 2 ^ lo < 2 ^ lo := Nat.mod_lt _ (by positivity)
      rw [hp]
      calc v % 2 ^ (hi - lo + 1) * 2 ^ lo + w.toNat % 2 ^ lo < v % 2 ^ (hi - lo + 1) * 2 ^ lo + 2 ^ lo := by omega
        _ = (v % 2 ^ (hi - lo + 1) + 1) * 2 ^ lo := by ring
        _ ≤ 2 ^ (hi - lo + 1) * 2 ^ lo := Nat.mul_le_mul_right _ a
    omega

/-- A field that was written reads back. -/
theorem fld_setFld {n : Nat} (w : BitVec n) {hi lo : Nat} (v : Nat) (hl : lo ≤ hi) (hn : hi < n) :
    fld (setFld w hi lo v) hi lo = v % 2 ^ (hi - lo + 1) := by
  have hp : 2 ^ (hi + 1) = 2 ^ (hi - lo + 1) * 2 ^ lo := by rw [← pow_add]; congr 1; omega
  unfold fld
  rw [setFld_toNat w v hl hn]
  have h : w.toNat / 2 ^ (hi + 1) * 2 ^ (hi + 1) + v % 2 ^ (hi - lo + 1) * 2 ^ lo + w.toNat % 2 ^ lo =
      w.toNat % 2 ^ lo + (w.toNat / 2 ^ (hi + 1) * 2 ^ (hi - lo + 1) + v % 2 ^ (hi - lo + 1)) * 2 ^ lo := by
    rw [hp]; ring
  rw [h, Nat.add_mul_div_right _ _ (by positivity), Nat.div_eq_of_lt (Nat.mod_lt _ (by positivity)), zero_add,
    Nat.add_mod, Nat.mul_mod_left, zero_add, Nat.mod_mod, Nat.mod_mod]

/-- The bits of a word with a field written. -/
theorem bit_setFld {n : Nat} (w : BitVec n) {hi lo : Nat} (v i : Nat) (hl : lo ≤ hi) (hn : hi < n) :
    bit (setFld w hi lo v) i = if lo ≤ i ∧ i ≤ hi then v.testBit (i - lo) else bit w i := by
  unfold bit
  rw [BitVec.getLsbD, BitVec.getLsbD, setFld_toNat w v hl hn]
  have hp : 2 ^ (hi + 1) = 2 ^ lo * 2 ^ (hi - lo + 1) := by rw [← pow_add]; congr 1; omega
  have h : w.toNat / 2 ^ (hi + 1) * 2 ^ (hi + 1) + v % 2 ^ (hi - lo + 1) * 2 ^ lo + w.toNat % 2 ^ lo =
      2 ^ lo * (2 ^ (hi - lo + 1) * (w.toNat / 2 ^ (hi + 1)) + v % 2 ^ (hi - lo + 1)) + w.toNat % 2 ^ lo := by
    rw [hp]; ring
  rw [h, Nat.testBit_two_pow_mul_add _ (Nat.mod_lt _ (by positivity))]
  by_cases h1 : i < lo
  · rw [if_pos h1, Nat.testBit_mod_two_pow, if_neg (by omega)]; simp [h1]
  · rw [if_neg h1, Nat.testBit_two_pow_mul_add _ (Nat.mod_lt _ (by positivity))]
    by_cases h2 : i ≤ hi
    · rw [if_pos (by omega), if_pos ⟨by omega, h2⟩, Nat.testBit_mod_two_pow]
      simp; omega
    · rw [if_neg (by omega), if_neg (by omega), Nat.testBit_div_two_pow]
      congr 1; omega

/-- A one-bit field. -/
theorem bit_setFld_self {n : Nat} (w : BitVec n) (i : Nat) (b : Bool) (hn : i < n) : bit (setFld w i i (b2n b)) i = b := by
  rw [bit_setFld w _ _ (Nat.le_refl i) hn, if_pos ⟨Nat.le_refl i, Nat.le_refl i⟩]
  cases b <;> simp [b2n]

theorem fld_testBit {n : Nat} (w : BitVec n) (h l i : Nat) :
    (fld w h l).testBit i = (decide (i < h - l + 1) && bit w (l + i)) := by
  unfold fld bit
  rw [Nat.testBit_mod_two_pow, Nat.testBit_div_two_pow, BitVec.getLsbD, Nat.add_comm l i]

/-- Fields beside the one that is written keep their value. -/
theorem fld_setFld_ne {n : Nat} (w : BitVec n) {hi lo h l : Nat} (v : Nat) (hl : lo ≤ hi) (hn : hi < n)
    (hd : h < lo ∧ l ≤ h ∨ hi < l) : fld (setFld w hi lo v) h l = fld w h l := by
  apply Nat.eq_of_testBit_eq
  intro i
  rw [fld_testBit, fld_testBit]
  by_cases hi' : i < h - l + 1
  · rw [bit_setFld w v _ hl hn, if_neg (by omega)]
  · simp [hi']

/-! ### Registers -/

@[simp] theorem State.rg_setRg (s : State) (o : Nat) (v : BitVec 64) : (s.setRg o v).rg o = v := by
  unfold State.rg State.setRg
  simp

theorem State.rg_setRg_ne {o o' : Nat} (h : o' ≠ o) (s : State) (v : BitVec 64) : (s.setRg o v).rg o' = s.rg o' := by
  unfold State.rg State.setRg
  simp [KV.get_put_ne h]

theorem State.rf_setRf (s : State) (o v : Nat) {hi lo : Nat} (hl : lo ≤ hi) (hn : hi < 64) :
    (s.setRf o hi lo v).rf o hi lo = v % 2 ^ (hi - lo + 1) := by
  unfold State.rf State.setRf
  rw [State.rg_setRg, fld_setFld _ _ hl hn]

theorem State.rg_setRf_ne {o o' : Nat} (h : o' ≠ o) (s : State) (hi lo v : Nat) :
    (s.setRf o hi lo v).rg o' = s.rg o' := State.rg_setRg_ne h s _

/-! ### Cores and slots -/

@[simp] theorem State.core_setCore (s : State) (c : Nat) (k : Core) : (s.setCore c k).core c = k :=
  KV.get_put_self _ _ _

theorem State.core_setCore_ne {c d : Nat} (h : d ≠ c) (s : State) (k : Core) : (s.setCore c k).core d = s.core d :=
  KV.get_put_ne h _ _

@[simp] theorem State.core_modCore (s : State) (c : Nat) (f : Core → Core) : (s.modCore c f).core c = f (s.core c) :=
  State.core_setCore s c _

theorem State.core_modCore_ne {c d : Nat} (h : d ≠ c) (s : State) (f : Core → Core) :
    (s.modCore c f).core d = s.core d := State.core_setCore_ne h s _

@[simp] theorem Core.slot_setSlot (k : Core) (i : Nat) (x : Slot) : (k.setSlot i x).slot i = x := KV.get_put_self _ _ _

theorem Core.slot_setSlot_ne {i j : Nat} (h : j ≠ i) (k : Core) (x : Slot) : (k.setSlot i x).slot j = k.slot j :=
  KV.get_put_ne h _ _

@[simp] theorem State.slot_setSlot (s : State) (c i : Nat) (x : Slot) : (s.setSlot c i x).slot c i = x := by
  simp [State.slot, State.setSlot]

@[simp] theorem State.slot_modSlot (s : State) (c i : Nat) (f : Slot → Slot) :
    (s.modSlot c i f).slot c i = f (s.slot c i) := State.slot_setSlot s c i _

@[simp] theorem Core.queue_setQueue (k : Core) (e : Nat) (q : List QEnt) : (k.setQueue e q).queue e = q :=
  KV.get_put_self _ _ _

theorem Core.queue_setQueue_ne {e f : Nat} (h : f ≠ e) (k : Core) (q : List QEnt) :
    (k.setQueue e q).queue f = k.queue f := KV.get_put_ne h _ _

@[simp] theorem Core.run_setRun (k : Core) (e : Nat) (q : List QEnt) : (k.setRun e q).run e = q := KV.get_put_self _ _ _

theorem Core.run_setRun_ne {e f : Nat} (h : f ≠ e) (k : Core) (q : List QEnt) : (k.setRun e q).run f = k.run f :=
  KV.get_put_ne h _ _

@[simp] theorem Core.tag_setTag (k : Core) (n : Nat) (t : BitVec 128) : (k.setTag n t).tag n = t := KV.get_put_self _ _ _

theorem Core.tag_setTag_ne {m n : Nat} (h : m ≠ n) (k : Core) (t : BitVec 128) : (k.setTag n t).tag m = k.tag m :=
  KV.get_put_ne h _ _

@[simp] theorem Slot.tok_setTok (x : Slot) (n : Nat) (v : BitVec 16) : (x.setTok n v).tok n = v := KV.get_put_self _ _ _

theorem Slot.tok_setTok_ne {m n : Nat} (h : m ≠ n) (x : Slot) (v : BitVec 16) : (x.setTok n v).tok m = x.tok m :=
  KV.get_put_ne h _ _

@[simp] theorem Slot.sreg_setSreg (x : Slot) (n : Nat) (v : BitVec 64) : (x.setSreg n v).sreg n = v :=
  KV.get_put_self _ _ _

theorem Slot.sreg_setSreg_ne {m n : Nat} (h : m ≠ n) (x : Slot) (v : BitVec 64) : (x.setSreg n v).sreg m = x.sreg m :=
  KV.get_put_ne h _ _

/-! ### Other tables -/

@[simp] theorem State.memU_setMem (s : State) (m : Nat) (u : Mem) : (s.setMem m u).memU m = u := KV.get_put_self _ _ _

@[simp] theorem State.cluster_setCluster (s : State) (k : Nat) (u : Cluster) : (s.setCluster k u).cluster k = u :=
  KV.get_put_self _ _ _

@[simp] theorem State.dam_setDam (s : State) (k : Nat) (d : Damson) : (s.setDam k d).dam k = d := KV.get_put_self _ _ _

@[simp] theorem State.chan_setChan (s : State) (ch : Nat) (x : Channel) : (s.setChan ch x).chan ch = x :=
  KV.get_put_self _ _ _

@[simp] theorem State.ring_setRing (s : State) (f r : Nat) (x : Ring) : (s.setRing f r x).ring f r = x :=
  KV.get_put_self _ _ _

@[simp] theorem State.evq_setEvq (s : State) (q : Nat) (x : Evq) : (s.setEvq q x).evq q = x := KV.get_put_self _ _ _

end Sys2Proof.Machine
end

