-- ==== Sys2Proof/Laws/Calm.lean ====
section
/-! SUPPORT. What the shared operations of a core come to on a calm core: nothing goes on by
itself, and a command dispatched to an idle engine starts. -/

namespace Sys2Proof.Machine

/-! ### A calm core -/

/-- Two slots wait alike: for the same command, and drain or not alike. -/
structure Slot.Alike (x y : Slot) : Prop where
  hold : y.hold = x.hold
  draining : y.draining = x.draining
  accessOut : y.accessOut = x.accessOut
  quiet : y.quiet = x.quiet
  stopping : y.stopping = x.stopping

theorem Slot.Alike.refl (x : Slot) : Slot.Alike x x := ⟨rfl, rfl, rfl, rfl, rfl⟩

theorem Slot.Alike.trans {x y z : Slot} (h : Slot.Alike x y) (g : Slot.Alike y z) : Slot.Alike x z :=
  ⟨g.1.trans h.1, g.2.trans h.2, g.3.trans h.3, g.4.trans h.4, g.5.trans h.5⟩

theorem Slot.Alike.calm {x y : Slot} (h : Slot.Alike x y) (hx : x.calm) : y.calm := by
  unfold Slot.calm at *
  rw [h.hold, h.draining, h.accessOut, h.quiet, h.stopping]
  exact hx

theorem State.nextDamson_none {s : State} {c : Nat} (h : ∀ q ∈ (s.core c).run 3, q.await ≠ [dmUnsent]) (n : Nat) :
    s.nextDamson c n = s := by
  cases n with
  | zero => rfl
  | succ n =>
    unfold State.nextDamson
    dsimp only
    split
    · rfl
    · rename_i q l hq
      rw [if_pos]
      have : q ∈ ((s.core c).run 3).filter (fun r => isDamson r.w) := by rw [hq]; exact List.mem_cons_self
      exact h q (List.mem_filter.mp this).1

theorem State.pumpEngine_empty {s : State} {c e : Nat} (h : (s.core c).queue e = []) (n : Nat) :
    s.pumpEngine c e n = s := by
  cases n with
  | zero => rfl
  | succ n => unfold State.pumpEngine; rw [h]

/-- No queue of the engines below `n` holds a command: they start nothing. -/
theorem State.pumpAll_empty {s : State} {c : Nat} (l : List Nat) (h : ∀ e ∈ l, (s.core c).queue e = []) :
    l.foldl (fun s e => s.pumpEngine c e ((s.core c).queue e).length.succ) s = s := by
  induction l with
  | nil => rfl
  | cons a l ih =>
    rw [List.foldl_cons, State.pumpEngine_empty (h a List.mem_cons_self)]
    exact ih (fun e he => h e (List.mem_cons_of_mem _ he))

theorem State.releaseHold_none {s : State} {c sl : Nat}
    (h : match ((s.core c).slot sl).hold with | .ending _ => False | .fence _ => False | _ => True) :
    s.releaseHold c sl = s := by
  unfold State.releaseHold
  dsimp only
  revert h
  cases ((s.core c).slot sl).hold <;> intro h <;> first | rfl | exact (False.elim h)

theorem State.drainSlot_out {s : State} {c sl : Nat} (h : ((s.core c).slot sl).accessOut = true)
    (hq : ((s.core c).slot sl).quiet = false) (hs : ((s.core c).slot sl).stopping = none) :
    s.drainSlot c sl = s := by
  unfold State.drainSlot
  dsimp only
  rw [h, Bool.true_or, if_pos rfl]
  split
  · rfl
  · rw [show s.slot c sl = (s.core c).slot sl from rfl, hq, if_neg Bool.false_ne_true, hs]

theorem State.releaseSlot_none {s : State} {c sl : Nat} (h : ((s.core c).slot sl).calm) :
    s.releaseSlot c sl = s := by
  unfold State.releaseSlot
  dsimp only
  split
  · rfl
  · rw [State.releaseHold_none h.1]
    split
    · rename_i hd
      obtain ⟨h1, h2, h3⟩ := h.2 hd
      exact State.drainSlot_out h1 h2 h3
    · rfl

theorem State.releaseAll_none {s : State} {c : Nat} (l : List Nat) (h : ∀ j ∈ l, ((s.core c).slot j).calm) :
    l.foldl (fun s sl => s.releaseSlot c sl) s = s := by
  induction l with
  | nil => rfl
  | cons a l ih =>
    rw [List.foldl_cons, State.releaseSlot_none (h a List.mem_cons_self)]
    exact ih (fun j hj => h j (List.mem_cons_of_mem _ hj))

/-- On a calm core nothing goes on. -/
theorem State.afterCore_calm {s : State} {c : Nat} (h : (s.core c).calm) : s.afterCore c = s := by
  unfold State.afterCore State.pump
  have hp : [0, 1, 2, 3].foldl (fun s e => s.pumpEngine c e ((s.core c).queue e).length.succ) (s.nextDamson c 64) = s := by
    rw [State.nextDamson_none h.2.1]
    exact State.pumpAll_empty _ (fun e he => h.1 e (by simp at he; omega))
  rw [hp]
  exact State.releaseAll_none _ (fun j hj => h.2.2 j (by simp at hj; omega))

/-! ### The next command -/

/-- Where a command stands at the program counter, settling leaves the slot as it is. -/
theorem State.settlePc_stands {s : State} {c sl : Nat} (h : (s.slot c sl).stands (s.slot c sl).pc.toNat) :
    s.settlePc c sl = s := by
  obtain ⟨h1, h2, h3⟩ := h
  unfold State.settlePc
  dsimp only
  split
  · rfl
  · rw [if_neg (by omega)]
    rw [show BitVec.ofNat 32 (s.slot c sl).pc.toNat = (s.slot c sl).pc by simp] at h2
    rw [h2]
    dsimp only
    cases hb : (s.slot c sl).buffered (s.slot c sl).pc.toNat with
    | none => rfl
    | some w => rw [hb] at h3; exact if_pos h3

theorem hLength_lt (h : BitVec 512) : hLength h < 2 ^ 32 :=
  Nat.lt_of_lt_of_le (Nat.mod_lt _ (by decide)) (by decide)

/-- The program counter moves to a command that stands. -/
theorem State.setPc_stands {s : State} {c sl pc : Nat} (h : (s.slot c sl).stands pc) :
    s.setPc c sl pc = s.modSlot c sl (fun x => { x with pc := BitVec.ofNat 32 pc }) := by
  unfold State.setPc
  apply State.settlePc_stands
  have hp : pc < 2 ^ 32 := Nat.lt_trans h.1 (hLength_lt _)
  rw [State.slot_modSlot]
  have e : (BitVec.ofNat 32 pc).toNat = pc := by rw [BitVec.toNat_ofNat]; exact Nat.mod_eq_of_lt hp
  unfold Slot.stands at *
  simp only [e]
  exact h

/-! ### An engine command that starts -/

theorem Core.setQueue_queues_ne {k : Core} {e f : Nat} {q : List QEnt} (h : f ≠ e) :
    (k.setQueue e q).queue f = k.queue f := KV.get_put_ne h _ _

/-- Entering an engine moves only its monitor. -/
theorem State.enters_core (s : State) (c e : Nat) : ∃ ms, (s.enters c e).core c = { s.core c with mons := ms } := by
  unfold State.enters
  split
  · unfold State.progress; rw [State.core_modCore]; exact ⟨_, rfl⟩
  · exact ⟨(s.core c).mons, rfl⟩

/-- What launching leaves: the queue of the engine is empty again. -/
theorem State.launched_queue {t : State} {c e : Nat} {q q0 : QEnt} (h : (t.core c).queue e = [q0])
    (ho : ∀ f, f < 4 → f ≠ e → (t.core c).queue f = []) (f : Nat) (hf : f < 4) :
    ((t.launched c e q).core c).queue f = [] := by
  obtain ⟨ms, hm⟩ := State.enters_core t c e
  unfold State.launched
  rw [State.core_modCore, hm]
  show ((t.core c).pop e).queue f = []
  unfold Core.pop
  rw [h]
  by_cases e' : f = e
  · subst e'; exact Core.queue_setQueue _ _ _
  · rw [Core.queue_setQueue_ne e']; exact ho f hf e'

/-- One engine has a command: what the core does is what that engine does, where it leaves every
queue empty. -/
theorem State.pump_one {d t : State} {c e : Nat} (he : e < 4)
    (hd : ∀ x ∈ (d.core c).run 3, x.await ≠ [dmUnsent])
    (ho : ∀ f, f < 4 → f ≠ e → (d.core c).queue f = [])
    (hl : d.pumpEngine c e ((d.core c).queue e).length.succ = t)
    (ht : ∀ f, f < 4 → (t.core c).queue f = []) : d.pump c = t := by
  unfold State.pump
  rw [State.nextDamson_none hd]
  have hbefore : ∀ f, f < e → d.pumpEngine c f ((d.core c).queue f).length.succ = d := fun f hf =>
    State.pumpEngine_empty (ho f (by omega) (by omega)) _
  have hafter : ∀ f, f < 4 → t.pumpEngine c f ((t.core c).queue f).length.succ = t := fun f hf =>
    State.pumpEngine_empty (ht f hf) _
  simp only [List.foldl_cons, List.foldl_nil]
  have h4 : e = 0 ∨ e = 1 ∨ e = 2 ∨ e = 3 := by omega
  obtain rfl | rfl | rfl | rfl := h4
  · rw [hl, hafter 1 (by omega), hafter 2 (by omega), hafter 3 (by omega)]
  · rw [hbefore 0 (by omega), hl, hafter 2 (by omega), hafter 3 (by omega)]
  · rw [hbefore 0 (by omega), hbefore 1 (by omega), hl, hafter 3 (by omega)]
  · rw [hbefore 0 (by omega), hbefore 1 (by omega), hbefore 2 (by omega), hl]

/-- The engine takes the one command in its queue: the other queues are empty and stay so. -/
theorem State.pump_launch {d d' t : State} {c e : Nat} {q q0 q' : QEnt} (he : e < 4)
    (hd : ∀ x ∈ (d.core c).run 3, x.await ≠ [dmUnsent])
    (hq : (d.core c).queue e = [q0]) (ho : ∀ f, f < 4 → f ≠ e → (d.core c).queue f = [])
    (hs : (d.core c).stalled e = false) (ht : d.headToken c e q0 = some (d', q)) (ha : q.await = [])
    (hg : startOn d' c e q = .go t q') (hw : cOpc q'.w ≠ 0x5A)
    (hr : (t.core c).queue e = [q]) (hro : ∀ f, f < 4 → f ≠ e → (t.core c).queue f = []) :
    d.pump c = t.launched c e q' := by
  refine State.pump_one he hd ho ?_ (State.launched_queue hr hro)
  rw [hq]
  show State.pumpEngine d c e 2 = _
  unfold State.pumpEngine
  rw [hq, hs]
  dsimp only
  rw [ht]
  dsimp only
  rw [ha, hg]
  dsimp only [List.isEmpty, Bool.not_true]
  simp only [if_false, hw]
  exact State.pumpEngine_empty (State.launched_queue hr hro e he) _

end Sys2Proof.Machine
end

