-- ==== Sys2Proof/Laws/Keeps1.lean ====
section
/-! SUPPORT. What the operations keep, part 1 of 6: each operation changes only the parts it lists -/

namespace Sys2Proof.Machine

variable {l : List Area} {u s : State}

theorem Keeps.setCore (h : Keeps l u s) (x0 x1) (hl : Area.sub [.cores] l = true) : Keeps l u ((State.setCore s x0 x1)) := by
  unfold State.setCore
  try extract_lets
  repeat' with_reducible (first
      | assumption | exact Keeps.refl u | exact Area.sub_trans (by decide) hl
      | fail_if_no_progress refine Keeps.upd_cores ?_ (Area.sub_trans (by decide) hl) | dsimp only)

theorem Keeps.modCore (h : Keeps l u s) (x0 x1) (hl : Area.sub [.cores] l = true) : Keeps l u ((State.modCore s x0 x1)) := by
  unfold State.modCore
  try extract_lets
  repeat' with_reducible (first
      | assumption | exact Keeps.refl u | exact Area.sub_trans (by decide) hl | apply Keeps.setCore | dsimp only)

theorem Keeps.setSlot (h : Keeps l u s) (x0 x1 x2) (hl : Area.sub [.cores] l = true) : Keeps l u ((State.setSlot s x0 x1 x2)) := by
  unfold State.setSlot
  try extract_lets
  repeat' with_reducible (first
      | assumption | exact Keeps.refl u | exact Area.sub_trans (by decide) hl | apply Keeps.modCore | dsimp only)

theorem Keeps.modSlot (h : Keeps l u s) (x0 x1 x2) (hl : Area.sub [.cores] l = true) : Keeps l u ((State.modSlot s x0 x1 x2)) := by
  unfold State.modSlot
  try extract_lets
  repeat' with_reducible (first
      | assumption | exact Keeps.refl u | exact Area.sub_trans (by decide) hl | apply Keeps.setSlot | dsimp only)

theorem Keeps.setMem (h : Keeps l u s) (x0 x1) (hl : Area.sub [.mems] l = true) : Keeps l u ((State.setMem s x0 x1)) := by
  unfold State.setMem
  try extract_lets
  repeat' with_reducible (first
      | assumption | exact Keeps.refl u | exact Area.sub_trans (by decide) hl
      | fail_if_no_progress refine Keeps.upd_mems ?_ (Area.sub_trans (by decide) hl) | dsimp only)

theorem Keeps.zeroMem (h : Keeps l u s) (x0) (hl : Area.sub [.mem, .host, .chk,
    .reported] l = true) : Keeps l u ((State.zeroMem s x0)) := by
  refine ⟨fun p hp => ?_, fun hw => Memory.wf_filter _ (h.mem hw), h.map, h.fuses⟩
  cases p <;> first
    | exact h.kept _ hp
    | exact absurd (Area.mem_of_sub hl (by decide)) hp

theorem Keeps.letIn (h : Keeps l u s) (x0) (hl : Area.sub [.mem, .host, .chk, .reported,
    .mems] l = true) : Keeps l u (((State.letIn s x0)).getD u) := by
  unfold State.letIn
  try extract_lets
  repeat' with_reducible (first
      | assumption | exact Keeps.refl u | exact Area.sub_trans (by decide) hl | apply Keeps.setMem
      | apply Keeps.zeroMem | (apply Keeps.ite <;> intro _) | (apply Keeps.iteOpt <;> intro _)
      | apply Keeps.opt_some | apply Keeps.opt_none | split | refine Keeps.of_some (by assumption) ?_ | dsimp only)

theorem Keeps.setRg (h : Keeps l u s) (x0 x1) (hl : Area.sub [.regs] l = true) : Keeps l u ((State.setRg s x0 x1)) := by
  unfold State.setRg
  try extract_lets
  repeat' with_reducible (first
      | assumption | exact Keeps.refl u | exact Area.sub_trans (by decide) hl
      | fail_if_no_progress refine Keeps.upd_regs ?_ (Area.sub_trans (by decide) hl) | dsimp only)

theorem Keeps.bump32 (h : Keeps l u s) (x0 x1) (hl : Area.sub [.regs] l = true) : Keeps l u ((State.bump32 s x0 x1)) := by
  unfold State.bump32
  try extract_lets
  repeat' with_reducible (first
      | assumption | exact Keeps.refl u | exact Area.sub_trans (by decide) hl | apply Keeps.setRg | dsimp only)

theorem Keeps.setRf (h : Keeps l u s) (x0 x1 x2 x3) (hl : Area.sub [.regs] l = true) : Keeps l u ((State.setRf s x0 x1 x2 x3)) := by
  unfold State.setRf
  try extract_lets
  repeat' with_reducible (first
      | assumption | exact Keeps.refl u | exact Area.sub_trans (by decide) hl | apply Keeps.setRg | dsimp only)

theorem Keeps.husk' (h : Keeps l u s) (x0 x1 x2) (hl : Area.sub [.regs,
    .husk] l = true) : Keeps l u ((State.husk' s x0 x1 x2)) := by
  unfold State.husk'
  try extract_lets
  repeat' with_reducible (first
      | assumption | exact Keeps.refl u | exact Area.sub_trans (by decide) hl | apply Keeps.setRf
      | (apply Keeps.ite <;> intro _)
      | fail_if_no_progress refine Keeps.upd_husk ?_ (Area.sub_trans (by decide) hl) | dsimp only)

theorem Keeps.setEvq (h : Keeps l u s) (x0 x1) (hl : Area.sub [.hif] l = true) : Keeps l u ((State.setEvq s x0 x1)) := by
  unfold State.setEvq
  try extract_lets
  repeat' with_reducible (first
      | assumption | exact Keeps.refl u | exact Area.sub_trans (by decide) hl | (apply Keeps.ite <;> intro _)
      | fail_if_no_progress refine Keeps.upd_hif ?_ (Area.sub_trans (by decide) hl) | dsimp only)

theorem Keeps.dropEv (h : Keeps l u s) (x0 x1) (hl : Area.sub [.regs] l = true) : Keeps l u ((State.dropEv s x0 x1)) := by
  unfold State.dropEv
  try extract_lets
  repeat' with_reducible (first
      | assumption | exact Keeps.refl u | exact Area.sub_trans (by decide) hl | apply Keeps.setRf | dsimp only)

theorem Keeps.putByte (h : Keeps l u s) (x0 x1) (hl : Area.sub [.mem,
    .host] l = true) : Keeps l u ((State.putByte s x0 x1)) := by
  refine ⟨fun p hp => ?_, fun hw => Memory.wf_put _ _ (h.mem hw), h.map, h.fuses⟩
  cases p <;> first
    | exact h.kept _ hp
    | exact absurd (Area.mem_of_sub hl (by decide)) hp

theorem Keeps.putBytes (h : Keeps l u s) (x0 x1) (hl : Area.sub [.mem,
    .host] l = true) : Keeps l u ((State.putBytes s x0 x1)) := by
  induction x1 generalizing s x0 with
  | nil => exact h
  | cons y l ih => unfold State.putBytes; repeat' with_reducible (first
      | apply ih | assumption | exact Keeps.refl u | exact Area.sub_trans (by decide) hl | apply Keeps.putByte
      | split | dsimp only)

theorem Keeps.putNum (h : Keeps l u s) (x0 x1 x2) (hl : Area.sub [.mem,
    .host] l = true) : Keeps l u ((State.putNum s x0 x1 x2)) := by
  unfold State.putNum
  try extract_lets
  repeat' with_reducible (first
      | assumption | exact Keeps.refl u | exact Area.sub_trans (by decide) hl | apply Keeps.putBytes | dsimp only)

theorem Keeps.sendMsix (h : Keeps l u s) (x0) (hl : Area.sub [.hif] l = true) : Keeps l u ((State.sendMsix s x0)) := by
  unfold State.sendMsix
  try extract_lets
  repeat' with_reducible (first
      | assumption | exact Keeps.refl u | exact Area.sub_trans (by decide) hl | apply Keeps.setEvq
      | (apply Keeps.ite <;> intro _)
      | fail_if_no_progress refine Keeps.upd_hif ?_ (Area.sub_trans (by decide) hl) | dsimp only)

theorem Keeps.writeEv (h : Keeps l u s) (x0 x1) (hl : Area.sub [.host, .regs,
    .hif] l = true) : Keeps l u ((State.writeEv s x0 x1)) := by
  unfold State.writeEv
  try extract_lets
  repeat' with_reducible (first
      | assumption | exact Keeps.refl u | exact Area.sub_trans (by decide) hl | apply Keeps.putNumHost
      | apply Keeps.putBytesHost | apply Keeps.putNumRing | apply Keeps.setEvq | apply Keeps.dropEv
      | apply Keeps.setRf | apply Keeps.sendMsix | (apply Keeps.ite <;> intro _) | split | dsimp only)

theorem Keeps.deliverEv (h : Keeps l u s) (x0 x1) (hl : Area.sub [.host, .regs, .hif,
    .board] l = true) : Keeps l u ((State.deliverEv s x0 x1)) := by
  unfold State.deliverEv
  try extract_lets
  repeat' with_reducible (first
      | assumption | exact Keeps.refl u | exact Area.sub_trans (by decide) hl | apply Keeps.writeEv
      | (apply Keeps.ite <;> intro _)
      | fail_if_no_progress refine Keeps.upd_hif_board ?_ (Area.sub_trans (by decide) hl) | split | dsimp only)

theorem Keeps.lostEv (h : Keeps l u s) (x0 x1) (hl : Area.sub [.regs,
    .hif] l = true) : Keeps l u ((State.lostEv s x0 x1)) := by
  unfold State.lostEv
  try extract_lets
  repeat' with_reducible (first
      | assumption | exact Keeps.refl u | exact Area.sub_trans (by decide) hl | apply Keeps.dropEv
      | apply Keeps.setEvq | dsimp only)

theorem Keeps.post (h : Keeps l u s) (x0 x1) (hl : Area.sub [.host, .regs, .hif, .board,
    .husk] l = true) : Keeps l u ((State.post s x0 x1)) := by
  unfold State.post
  try extract_lets
  repeat' with_reducible (first
      | assumption | exact Keeps.refl u | exact Area.sub_trans (by decide) hl | apply Keeps.husk'
      | apply Keeps.deliverEv | apply Keeps.lostEv | (apply Keeps.ite <;> intro _) | dsimp only)

theorem Keeps.noteFixed (h : Keeps l u s) (x0 x1 x2) (hl : Area.sub [.host, .regs, .mems, .hif, .board,
    .husk] l = true) : Keeps l u ((State.noteFixed s x0 x1 x2)) := by
  unfold State.noteFixed
  try extract_lets
  repeat' with_reducible (first
      | assumption | exact Keeps.refl u | exact Area.sub_trans (by decide) hl | apply Keeps.bump32
      | apply Keeps.post | apply Keeps.setMem | (apply Keeps.ite <;> intro _) | split | dsimp only)

theorem Keeps.noteBad (h : Keeps l u s) (x0 x1 x2) (hl : Area.sub [.host, .reported, .regs, .hif, .board,
    .husk] l = true) : Keeps l u ((State.noteBad s x0 x1 x2)) := by
  unfold State.noteBad
  try extract_lets
  repeat' with_reducible (first
      | assumption | exact Keeps.refl u | exact Area.sub_trans (by decide) hl | apply Keeps.post
      | (apply Keeps.ite <;> intro _)
      | fail_if_no_progress refine Keeps.upd_reported ?_ (Area.sub_trans (by decide) hl) | dsimp only)

theorem Keeps.readHalf (h : Keeps l u s) (x0 x1) (hl : Area.sub [.mem, .host, .chk, .reported, .regs, .mems, .hif,
    .board, .husk] l = true) : Keeps l u (((State.readHalf s x0 x1)).s) := by
  unfold State.readHalf
  try extract_lets
  repeat' with_reducible (first
      | assumption | exact Keeps.refl u | exact Area.sub_trans (by decide) hl | apply Keeps.letIn
      | apply Keeps.noteFixed | apply Keeps.noteBad | (apply Keeps.iteRd <;> intro _) | split
      | refine Keeps.of_some (by assumption) ?_ | dsimp only)

theorem Keeps.readHalves (h : Keeps l u s) (x0 x1 x2) (hl : Area.sub [.mem, .host, .chk, .reported, .regs, .mems,
    .hif, .board, .husk] l = true) : Keeps l u (((State.readHalves s x0 x1 x2)).s) := by
  induction x2 generalizing s x1 with
  | zero => exact h
  | succ n ih => unfold State.readHalves; dsimp only; repeat' with_reducible (first
      | apply ih | assumption | exact Keeps.refl u | exact Area.sub_trans (by decide) hl | apply Keeps.readHalf
      | (apply Keeps.ite <;> intro _) | (apply Keeps.iteRd <;> intro _) | split | dsimp only)

theorem Keeps.readDie (h : Keeps l u s) (x0 x1 x2) (hl : Area.sub [.mem, .host, .chk, .reported, .regs, .mems,
    .hif, .board, .husk] l = true) : Keeps l u (((State.readDie s x0 x1 x2)).s) := by
  unfold State.readDie
  try extract_lets
  repeat' with_reducible (first
      | assumption | exact Keeps.refl u | exact Area.sub_trans (by decide) hl | apply Keeps.readHalves
      | (apply Keeps.ite <;> intro _) | (apply Keeps.iteRd <;> intro _) | dsimp only)

theorem Keeps.noteTier (h : Keeps l u s) (x0 x1) (hl : Area.sub [.host, .reported, .regs, .hif, .board,
    .husk] l = true) : Keeps l u ((State.noteTier s x0 x1)) := by
  unfold State.noteTier
  try extract_lets
  repeat' with_reducible (first
      | assumption | exact Keeps.refl u | exact Area.sub_trans (by decide) hl | apply Keeps.post
      | (apply Keeps.ite <;> intro _)
      | fail_if_no_progress refine Keeps.upd_reported ?_ (Area.sub_trans (by decide) hl) | dsimp only)

theorem Keeps.tierHalf (h : Keeps l u s) (x0 x1) (hl : Area.sub [.host, .reported, .regs, .hif, .board,
    .husk] l = true) : Keeps l u (((State.tierHalf s x0 x1)).s) := by
  unfold State.tierHalf
  try extract_lets
  repeat' with_reducible (first
      | assumption | exact Keeps.refl u | exact Area.sub_trans (by decide) hl | apply Keeps.noteTier
      | (apply Keeps.ite <;> intro _) | (apply Keeps.iteRd <;> intro _) | split | dsimp only)

theorem Keeps.tierHalves (h : Keeps l u s) (x0 x1 x2) (hl : Area.sub [.host, .reported, .regs, .hif, .board,
    .husk] l = true) : Keeps l u (((State.tierHalves s x0 x1 x2)).s) := by
  induction x2 generalizing s x1 with
  | zero => exact h
  | succ n ih => unfold State.tierHalves; repeat' with_reducible (first
      | apply ih | assumption | exact Keeps.refl u | exact Area.sub_trans (by decide) hl | apply Keeps.tierHalf
      | (apply Keeps.ite <;> intro _) | (apply Keeps.iteRd <;> intro _) | split | dsimp only)

theorem Keeps.readTier (h : Keeps l u s) (x0 x1 x2) (hl : Area.sub [.host, .reported, .regs, .hif, .board,
    .husk] l = true) : Keeps l u (((State.readTier s x0 x1 x2)).s) := by
  unfold State.readTier
  try extract_lets
  repeat' with_reducible (first
      | assumption | exact Keeps.refl u | exact Area.sub_trans (by decide) hl | apply Keeps.tierHalves
      | (apply Keeps.ite <;> intro _) | (apply Keeps.iteRd <;> intro _) | dsimp only)

theorem Keeps.ctxEntry (h : Keeps l u s) (x0) (hl : Area.sub [.host, .reported, .regs, .hif, .board,
    .husk] l = true) : Keeps l u (((State.ctxEntry s x0)).2) := by
  unfold State.ctxEntry
  try extract_lets
  repeat' with_reducible (first
      | assumption | exact Keeps.refl u | exact Area.sub_trans (by decide) hl | apply Keeps.readTier
      | (apply Keeps.ite <;> intro _) | (apply Keeps.itePair <;> intro _)
      | fail_if_no_progress refine Keeps.upd_hif ?_ (Area.sub_trans (by decide) hl)
      | (apply Keeps.itePair <;> intro _) | (apply Keeps.iteTriple <;> intro _) | split
      | refine Keeps.of_pair (by assumption) ?_ | dsimp only)

theorem Keeps.noteHost (h : Keeps l u s) (x0) (hl : Area.sub [.host, .reported, .regs, .hif, .board,
    .husk] l = true) : Keeps l u ((State.noteHost s x0)) := by
  unfold State.noteHost
  try extract_lets
  repeat' with_reducible (first
      | assumption | exact Keeps.refl u | exact Area.sub_trans (by decide) hl | apply Keeps.ctxEntry
      | (apply Keeps.ite <;> intro _)
      | fail_if_no_progress refine Keeps.upd_hif ?_ (Area.sub_trans (by decide) hl)
      | (apply Keeps.itePair <;> intro _) | (apply Keeps.iteTriple <;> intro _) | dsimp only)

theorem Keeps.readAt (h : Keeps l u s) (x0 x1 x2) (hl : Area.sub [.mem, .host, .chk, .reported, .regs, .mems,
    .hif, .board, .husk] l = true) : Keeps l u (((State.readAt s x0 x1 x2)).s) := by
  unfold State.readAt
  try extract_lets
  repeat' with_reducible (first
      | assumption | exact Keeps.refl u | exact Area.sub_trans (by decide) hl | apply Keeps.readDie
      | apply Keeps.readTier | apply Keeps.noteHost | (apply Keeps.iteRd <;> intro _) | split | dsimp only)

theorem Keeps.readVia (h : Keeps l u s) (x0 x1 x2 x3) (hl : Area.sub [.mem, .host, .chk, .reported, .regs, .mems,
    .hif, .board, .husk] l = true) : Keeps l u (((State.readVia s x0 x1 x2 x3)).s) := by
  unfold State.readVia
  try extract_lets
  repeat' with_reducible (first
      | assumption | exact Keeps.refl u | exact Area.sub_trans (by decide) hl | apply Keeps.readAt
      | (apply Keeps.ite <;> intro _) | (apply Keeps.iteRd <;> intro _) | dsimp only)

theorem Keeps.count (h : Keeps l u s) (x0 x1 x2) (hl : Area.sub [.cores] l = true) : Keeps l u ((State.count s x0 x1 x2)) := by
  unfold State.count
  try extract_lets
  repeat' with_reducible (first
      | assumption | exact Keeps.refl u | exact Area.sub_trans (by decide) hl | apply Keeps.modCore | dsimp only)

theorem Keeps.consumeUnread (h : Keeps l u s) (x0 x1 x2) (hl : Area.sub [.cores] l = true) : Keeps l u ((State.consumeUnread s x0 x1 x2)) := by
  unfold State.consumeUnread
  try extract_lets
  repeat' with_reducible (first
      | assumption | exact Keeps.refl u | exact Area.sub_trans (by decide) hl | apply Keeps.count
      | apply Keeps.modCore | (apply Keeps.ite <;> intro _) | dsimp only)

theorem Keeps.getPlace (h : Keeps l u s) (x0 x1 x2 x3) (hl : Area.sub [.mem, .host, .chk, .reported, .regs,
    .cores, .mems, .hif, .board, .husk] l = true) : Keeps l u (((State.getPlace s x0 x1 x2 x3)).s) := by
  unfold State.getPlace
  try dsimp only
  repeat' with_reducible (first
      | assumption | exact Keeps.refl u | exact Area.sub_trans (by decide) hl | apply Keeps.readVia
      | apply Keeps.consumeUnread | (apply Keeps.ite <;> intro _) | (apply Keeps.iteRd <;> intro _) | split
      | dsimp only)

theorem Keeps.walkStart (h : Keeps l u s) (x0 x1 x2) (hl : Area.sub [.host, .reported, .regs, .hif, .board,
    .husk] l = true) : Keeps l u (((State.walkStart s x0 x1 x2)).2) := by
  unfold State.walkStart; dsimp only; repeat' with_reducible (first
      | assumption | exact Keeps.refl u | exact Area.sub_trans (by decide) hl | apply Keeps.ctxEntry
      | (apply Keeps.ite <;> intro _) | (apply Keeps.itePair <;> intro _) | (apply Keeps.itePair <;> intro _)
      | (apply Keeps.iteTriple <;> intro _) | dsimp only)

theorem Keeps.walkStep (h : Keeps l u s) (x0) (hl : Area.sub [.host, .reported, .regs, .hif, .board,
    .husk] l = true) : Keeps l u (((State.walkStep s x0)).2) := by
  unfold State.walkStep
  try extract_lets
  repeat' with_reducible (first
      | assumption | exact Keeps.refl u | exact Area.sub_trans (by decide) hl | apply Keeps.readTier
      | (apply Keeps.ite <;> intro _) | (apply Keeps.itePair <;> intro _) | dsimp only)

theorem Keeps.walkAll (h : Keeps l u s) (x0 x1) (hl : Area.sub [.host, .reported, .regs, .hif, .board,
    .husk] l = true) : Keeps l u (((State.walkAll s x0 x1)).2) := by
  induction x1 generalizing s x0 with
  | zero => exact h
  | succ n ih => unfold State.walkAll; repeat' with_reducible (first
      | apply ih | assumption | exact Keeps.refl u | exact Area.sub_trans (by decide) hl | apply Keeps.walkStep
      | (apply Keeps.itePair <;> intro _) | split | refine Keeps.of_pair (by assumption) ?_ | dsimp only)

theorem Keeps.took (h : Keeps l u s) (hl : Area.sub [.fresh] l = true) : Keeps l u ((State.took s)) := by
  unfold State.took
  try extract_lets
  repeat' with_reducible (first
      | assumption | exact Keeps.refl u | exact Area.sub_trans (by decide) hl
      | fail_if_no_progress refine Keeps.upd_fresh ?_ (Area.sub_trans (by decide) hl) | dsimp only)

theorem Keeps.atsNow (h : Keeps l u s) (x0) (hl : Area.sub [.fresh] l = true) : Keeps l u (((State.atsNow s x0)).2) := by
  unfold State.atsNow
  try extract_lets
  repeat' with_reducible (first
      | assumption | exact Keeps.refl u | exact Area.sub_trans (by decide) hl | apply Keeps.took
      | (apply Keeps.ite <;> intro _) | (apply Keeps.itePair <;> intro _) | dsimp only)

theorem Keeps.walkNow (h : Keeps l u s) (x0 x1 x2) (hl : Area.sub [.fresh, .host, .reported, .regs, .hif, .board,
    .husk] l = true) : Keeps l u (((State.walkNow s x0 x1 x2)).2) := by
  unfold State.walkNow
  try extract_lets
  repeat' with_reducible (first
      | assumption | exact Keeps.refl u | exact Area.sub_trans (by decide) hl | apply Keeps.walkStart
      | apply Keeps.walkAll | apply Keeps.atsNow | (apply Keeps.itePair <;> intro _) | split
      | refine Keeps.of_pair (by assumption) ?_ | dsimp only)

theorem Keeps.fetchNow (h : Keeps l u s) (x0 x1 x2 x3) (hl : Area.sub [.fresh, .mem, .host, .chk, .reported,
    .regs, .cores, .mems, .hif, .board, .husk] l = true) : Keeps l u (((State.fetchNow s x0 x1 x2 x3)).2) := by
  unfold State.fetchNow
  try dsimp only
  repeat' with_reducible (first
      | assumption | exact Keeps.refl u | exact Area.sub_trans (by decide) hl | apply Keeps.getPlace
      | apply Keeps.walkNow | apply Keeps.count | apply Keeps.modCore | (apply Keeps.ite <;> intro _)
      | (apply Keeps.itePair <;> intro _) | split | refine Keeps.of_pair (by assumption) ?_ | dsimp only)

theorem Keeps.cmdAt (h : Keeps l u s) (x0 x1 x2) (hl : Area.sub [.fresh, .mem, .host, .chk, .reported, .regs,
    .cores, .mems, .hif, .board, .husk] l = true) : Keeps l u (((State.cmdAt s x0 x1 x2)).2) := by
  unfold State.cmdAt
  try extract_lets
  repeat' with_reducible (first
      | assumption | exact Keeps.refl u | exact Area.sub_trans (by decide) hl | apply Keeps.fetchNow
      | (apply Keeps.itePair <;> intro _) | split | refine Keeps.of_pair (by assumption) ?_ | dsimp only)

theorem Keeps.cmdsAt (h : Keeps l u s) (x0 x1 x2 x3) (hl : Area.sub [.fresh, .mem, .host, .chk, .reported, .regs,
    .cores, .mems, .hif, .board, .husk] l = true) : Keeps l u (((State.cmdsAt s x0 x1 x2 x3)).2) := by
  induction x3 generalizing s x2 with
  | zero => exact h
  | succ n ih => unfold State.cmdsAt; repeat' with_reducible (first
      | apply ih | assumption | exact Keeps.refl u | exact Area.sub_trans (by decide) hl | apply Keeps.cmdAt
      | (apply Keeps.itePair <;> intro _) | split | refine Keeps.of_pair (by assumption) ?_ | dsimp only)

theorem Keeps.postCtx (h : Keeps l u s) (x0) (hl : Area.sub [.host, .reported, .regs, .hif, .board,
    .husk] l = true) : Keeps l u ((State.postCtx s x0)) := by
  unfold State.postCtx
  try extract_lets
  repeat' with_reducible (first
      | assumption | exact Keeps.refl u | exact Area.sub_trans (by decide) hl | apply Keeps.post
      | apply Keeps.ctxEntry | (apply Keeps.ite <;> intro _) | (apply Keeps.itePair <;> intro _)
      | (apply Keeps.iteTriple <;> intro _) | dsimp only)

theorem Keeps.postFault (h : Keeps l u s) (x0 x1 x2 x3) (hl : Area.sub [.host, .reported, .regs, .hif, .board,
    .husk] l = true) : Keeps l u ((State.postFault s x0 x1 x2 x3)) := by
  unfold State.postFault
  try extract_lets
  repeat' with_reducible (first
      | assumption | exact Keeps.refl u | exact Area.sub_trans (by decide) hl | apply Keeps.postCtx | dsimp only)

theorem Keeps.xltFaultSeq (h : Keeps l u s) (x0 x1 x2 x3 x4) (hl : Area.sub [.host, .reported, .regs, .cores,
    .hif, .board, .husk] l = true) : Keeps l u ((State.xltFaultSeq s x0 x1 x2 x3 x4)) := by
  unfold State.xltFaultSeq
  try extract_lets
  repeat' with_reducible (first
      | assumption | exact Keeps.refl u | exact Area.sub_trans (by decide) hl | apply Keeps.modCore
      | apply Keeps.postFault | apply Keeps.modSlot | dsimp only)

theorem Keeps.checkWith (h : Keeps l u s) (x4 : List Cmd → State → SeqRes) (hb : ∀ l' s, Keeps l u s → Keeps l u ((x4 l' s).st u)) (x0 x1 x2 x3) (hl : Area.sub [.fresh, .mem, .host, .chk, .reported, .regs, .cores, .mems, .hif, .board, .husk] l = true) : Keeps l u (((State.checkWith s x0 x1 x2 x3 x4)).st u) := by
  unfold State.checkWith
  try extract_lets
  repeat' with_reducible (first
      | assumption | exact Keeps.refl u | exact Area.sub_trans (by decide) hl | apply Keeps.cmdsAt
      | apply Keeps.xltFaultSeq | exact Keeps.seqres_stop | exact Keeps.seqres_wait | apply Keeps.seqres_held
      | apply hb | refine Keeps.of_seqres_done (by assumption) ?_
      | refine Keeps.of_seqres_issued (by assumption) ?_ | refine Keeps.of_seqres_held (by assumption) ?_ | split
      | refine Keeps.of_pair (by assumption) ?_ | refine Keeps.of_eq_SeqRes (by assumption) ?_
      | refine Keeps.of_seqres_held (by assumption) ?_ | dsimp only)

theorem Keeps.bodyLoop (h : Keeps l u s) (x0 x1 x2) (hl : Area.sub [.fresh, .mem, .host, .chk, .reported, .regs,
    .cores, .mems, .hif, .board, .husk] l = true) : Keeps l u (((bodyLoop x0 x1 s x2)).st u) := by
  unfold Machine.bodyLoop; dsimp only; repeat' with_reducible (first
      | assumption | exact Keeps.refl u | exact Area.sub_trans (by decide) hl | apply Keeps.modSlot
      | apply Keeps.checkWith | (apply Keeps.ite <;> intro _) | (apply Keeps.iteSeqRes <;> intro _)
      | exact Keeps.seqres_stop | exact Keeps.seqres_wait | apply Keeps.seqres_done | refine fun _ _ _ _ => ?_
      | refine fun _ _ _ => ?_ | dsimp only)

theorem Keeps.postFabric (h : Keeps l u s) (x0 x1 x2 x3) (hl : Area.sub [.host, .regs, .hif, .board,
    .husk] l = true) : Keeps l u ((State.postFabric s x0 x1 x2 x3)) := by
  unfold State.postFabric
  try extract_lets
  repeat' with_reducible (first
      | assumption | exact Keeps.refl u | exact Area.sub_trans (by decide) hl | apply Keeps.post | dsimp only)

theorem Keeps.setPortSt (h : Keeps l u s) (x0 x1 x2) (hl : Area.sub [.host, .regs, .hif, .board,
    .husk] l = true) : Keeps l u ((State.setPortSt s x0 x1 x2)) := by
  unfold State.setPortSt
  try extract_lets
  repeat' with_reducible (first
      | assumption | exact Keeps.refl u | exact Area.sub_trans (by decide) hl | apply Keeps.setRf
      | apply Keeps.postFabric | (apply Keeps.ite <;> intro _) | dsimp only)

theorem Keeps.clearFibres (h : Keeps l u s) (x0) (hl : Area.sub [.fab] l = true) : Keeps l u ((State.clearFibres s x0)) := by
  unfold State.clearFibres
  try extract_lets
  repeat' with_reducible (first
      | assumption | exact Keeps.refl u | exact Area.sub_trans (by decide) hl
      | fail_if_no_progress refine Keeps.upd_fab ?_ (Area.sub_trans (by decide) hl) | dsimp only)

theorem Keeps.portGoesDown (h : Keeps l u s) (x0) (hl : Area.sub [.host, .regs, .fab, .hif, .board,
    .husk] l = true) : Keeps l u ((State.portGoesDown s x0)) := by
  unfold State.portGoesDown
  try extract_lets
  repeat' with_reducible (first
      | assumption | exact Keeps.refl u | exact Area.sub_trans (by decide) hl | apply Keeps.setPortSt
      | apply Keeps.clearFibres | (apply Keeps.ite <;> intro _) | dsimp only)

theorem Keeps.setFibre (h : Keeps l u s) (x0 x1) (hl : Area.sub [.fab] l = true) : Keeps l u ((State.setFibre s x0 x1)) := by
  unfold State.setFibre
  try extract_lets
  repeat' with_reducible (first
      | assumption | exact Keeps.refl u | exact Area.sub_trans (by decide) hl
      | fail_if_no_progress refine Keeps.upd_fab ?_ (Area.sub_trans (by decide) hl) | dsimp only)

theorem Keeps.fibreFails (h : Keeps l u s) (x0 x1) (hl : Area.sub [.host, .regs, .fab, .hif, .board,
    .husk] l = true) : Keeps l u ((State.fibreFails s x0 x1)) := by
  unfold State.fibreFails
  try extract_lets
  repeat' with_reducible (first
      | assumption | exact Keeps.refl u | exact Area.sub_trans (by decide) hl | apply Keeps.portGoesDown
      | apply Keeps.setFibre | dsimp only)

theorem Keeps.nakReceive (h : Keeps l u s) (x0 x1 x2) (hl : Area.sub [.host, .regs, .fab, .hif, .board,
    .husk] l = true) : Keeps l u ((State.nakReceive s x0 x1 x2)) := by
  unfold State.nakReceive
  try extract_lets
  repeat' with_reducible (first
      | assumption | exact Keeps.refl u | exact Area.sub_trans (by decide) hl | apply Keeps.fibreFails
      | apply Keeps.setFibre | (apply Keeps.ite <;> intro _)
      | fail_if_no_progress refine Keeps.upd_fab ?_ (Area.sub_trans (by decide) hl)
      | (apply Keeps.itePair <;> intro _) | (apply Keeps.iteTriple <;> intro _) | split | dsimp only)

theorem Keeps.moveSwitch (h : Keeps l u s) (x0 x1) (hl : Area.sub [.regs,
    .fab] l = true) : Keeps l u ((State.moveSwitch s x0 x1)) := by
  unfold State.moveSwitch
  try extract_lets
  repeat' with_reducible (first
      | assumption | exact Keeps.refl u | exact Area.sub_trans (by decide) hl | apply Keeps.setRf
      | apply Keeps.bump32 | (apply Keeps.ite <;> intro _)
      | fail_if_no_progress refine Keeps.upd_fab ?_ (Area.sub_trans (by decide) hl) | dsimp only)

theorem Keeps.setEnt (h : Keeps l u s) (x0 x1) (hl : Area.sub [.sync] l = true) : Keeps l u ((State.setEnt s x0 x1)) := by
  unfold State.setEnt
  try extract_lets
  repeat' with_reducible (first
      | assumption | exact Keeps.refl u | exact Area.sub_trans (by decide) hl
      | fail_if_no_progress refine Keeps.upd_sync ?_ (Area.sub_trans (by decide) hl) | dsimp only)

theorem Keeps.sinitAt (h : Keeps l u s) (x0 x1) (hl : Area.sub [.sync] l = true) : Keeps l u (((State.sinitAt s x0 x1)).2) := by
  unfold State.sinitAt
  try extract_lets
  repeat' with_reducible (first
      | assumption | exact Keeps.refl u | exact Area.sub_trans (by decide) hl | apply Keeps.setEnt
      | (apply Keeps.ite <;> intro _) | (apply Keeps.itePair <;> intro _) | split
      | refine Keeps.of_pair (by assumption) ?_ | dsimp only)

theorem Keeps.discard (h : Keeps l u s) (x0) (hl : Area.sub [.regs] l = true) : Keeps l u ((State.discard s x0)) := by
  unfold State.discard
  try extract_lets
  repeat' with_reducible (first
      | assumption | exact Keeps.refl u | exact Area.sub_trans (by decide) hl | apply Keeps.bump32 | dsimp only)

theorem Keeps.discardMsg (h : Keeps l u s) (x0 x1 x2) (hl : Area.sub [.host, .regs, .sync, .hif, .board,
    .husk] l = true) : Keeps l u ((State.discardMsg s x0 x1 x2)) := by
  unfold State.discardMsg
  try extract_lets
  repeat' with_reducible (first
      | assumption | exact Keeps.refl u | exact Area.sub_trans (by decide) hl | apply Keeps.discard
      | apply Keeps.postFabric | (apply Keeps.ite <;> intro _)
      | fail_if_no_progress refine Keeps.upd_sync ?_ (Area.sub_trans (by decide) hl) | dsimp only)

theorem Keeps.inject (h : Keeps l u s) (x0) (hl : Area.sub [.fab] l = true) : Keeps l u ((State.inject s x0)) := by
  unfold State.inject
  try extract_lets
  repeat' with_reducible (first
      | assumption | exact Keeps.refl u | exact Area.sub_trans (by decide) hl
      | fail_if_no_progress refine Keeps.upd_fab ?_ (Area.sub_trans (by decide) hl) | dsimp only)

theorem Keeps.sendUpdates (h : Keeps l u s) (x0 x1 x2) (hl : Area.sub [.sync,
    .fab] l = true) : Keeps l u ((State.sendUpdates s x0 x1 x2)) := by
  unfold State.sendUpdates
  try dsimp only
  repeat' with_reducible (first
      | assumption | exact Keeps.refl u | exact Area.sub_trans (by decide) hl | apply Keeps.inject
      | (apply Keeps.ite <;> intro _) | refine Keeps.foldl (fun _ _ _ => ?_) ?_
      | fail_if_no_progress refine Keeps.upd_sync ?_ (Area.sub_trans (by decide) hl) | dsimp only)

theorem Keeps.notifySubs (h : Keeps l u s) (x0) (hl : Area.sub [.sync,
    .fab] l = true) : Keeps l u ((State.notifySubs s x0)) := by
  unfold State.notifySubs
  try extract_lets
  repeat' with_reducible (first
      | assumption | exact Keeps.refl u | exact Area.sub_trans (by decide) hl | apply Keeps.sendUpdates | dsimp only)

theorem Keeps.setPort (h : Keeps l u s) (x0 x1 x2) (hl : Area.sub [.sync] l = true) : Keeps l u ((State.setPort s x0 x1 x2)) := by
  unfold State.setPort
  try extract_lets
  repeat' with_reducible (first
      | assumption | exact Keeps.refl u | exact Area.sub_trans (by decide) hl
      | fail_if_no_progress refine Keeps.upd_sync ?_ (Area.sub_trans (by decide) hl) | dsimp only)

theorem Keeps.sendRsp (h : Keeps l u s) (x0 x1 x2 x3 x4) (hl : Area.sub [.fab] l = true) : Keeps l u ((State.sendRsp s x0 x1 x2 x3 x4)) := by
  unfold State.sendRsp
  try extract_lets
  repeat' with_reducible (first
      | assumption | exact Keeps.refl u | exact Area.sub_trans (by decide) hl | apply Keeps.inject | dsimp only)

theorem Keeps.reply (h : Keeps l u s) (x0 x1) (hl : Area.sub [.cores, .sync,
    .fab] l = true) : Keeps l u ((State.reply s x0 x1)) := by
  unfold State.reply
  try extract_lets
  repeat' with_reducible (first
      | assumption | exact Keeps.refl u | exact Area.sub_trans (by decide) hl | apply Keeps.modSlot
      | apply Keeps.setPort | apply Keeps.sendRsp | (apply Keeps.ite <;> intro _) | split | dsimp only)

theorem Keeps.settleWaits (h : Keeps l u s) (x0 x1) (hl : Area.sub [.cores, .sync,
    .fab] l = true) : Keeps l u ((State.settleWaits s x0 x1)) := by
  induction x1 generalizing s with
  | zero => exact h
  | succ n ih => unfold State.settleWaits; dsimp only; repeat' with_reducible (first
      | apply ih | assumption | exact Keeps.refl u | exact Area.sub_trans (by decide) hl | apply Keeps.reply
      | apply Keeps.setEnt | (apply Keeps.ite <;> intro _)
      | fail_if_no_progress refine Keeps.upd_sync ?_ (Area.sub_trans (by decide) hl) | split | dsimp only)

theorem Keeps.changed (h : Keeps l u s) (x0) (hl : Area.sub [.cores, .sync,
    .fab] l = true) : Keeps l u ((State.changed s x0)) := by
  unfold State.changed
  try extract_lets
  repeat' with_reducible (first
      | assumption | exact Keeps.refl u | exact Area.sub_trans (by decide) hl | apply Keeps.notifySubs
      | apply Keeps.settleWaits | dsimp only)

theorem Keeps.waitTimed (h : Keeps l u s) (x0 x1) (hl : Area.sub [.host, .reported, .regs, .hif, .board,
    .husk] l = true) : Keeps l u (((State.waitTimed s x0 x1)).2) := by
  unfold State.waitTimed
  try extract_lets
  repeat' with_reducible (first
      | assumption | exact Keeps.refl u | exact Area.sub_trans (by decide) hl | apply Keeps.ctxEntry
      | (apply Keeps.ite <;> intro _) | (apply Keeps.itePair <;> intro _) | (apply Keeps.itePair <;> intro _)
      | (apply Keeps.iteTriple <;> intro _) | dsimp only)

theorem Keeps.sfreeAt (h : Keeps l u s) (x0) (hl : Area.sub [.cores, .sync,
    .fab] l = true) : Keeps l u ((State.sfreeAt s x0)) := by
  unfold State.sfreeAt
  try extract_lets
  repeat' with_reducible (first
      | assumption | exact Keeps.refl u | exact Area.sub_trans (by decide) hl | apply Keeps.sendUpdates
      | apply Keeps.setEnt | apply Keeps.reply | refine Keeps.foldl (fun _ _ _ => ?_) ?_
      | fail_if_no_progress refine Keeps.upd_sync ?_ (Area.sub_trans (by decide) hl) | dsimp only)

theorem Keeps.syncAt (h : Keeps l u s) (x0 x1 x2) (hl : Area.sub [.host, .reported, .regs, .cores, .sync, .fab,
    .hif, .board, .husk] l = true) : Keeps l u (((State.syncAt s x0 x1 x2)).2) := by
  unfold State.syncAt; dsimp only; repeat' with_reducible (first
      | assumption | exact Keeps.refl u | exact Area.sub_trans (by decide) hl | apply Keeps.sinitAt
      | apply Keeps.discardMsg | apply Keeps.discard | apply Keeps.changed | apply Keeps.setEnt
      | apply Keeps.waitTimed | apply Keeps.sfreeAt | (apply Keeps.ite <;> intro _)
      | (apply Keeps.itePair <;> intro _)
      | fail_if_no_progress refine Keeps.upd_sync ?_ (Area.sub_trans (by decide) hl)
      | (apply Keeps.itePair <;> intro _) | (apply Keeps.iteTriple <;> intro _) | split
      | refine Keeps.of_pair (by assumption) ?_ | dsimp only)

theorem Keeps.syncRemote (h : Keeps l u s) (x0 x1 x2) (hl : Area.sub [.cores, .sync,
    .fab] l = true) : Keeps l u (((State.syncRemote s x0 x1 x2)).getD u) := by
  unfold State.syncRemote
  try extract_lets
  repeat' with_reducible (first
      | assumption | exact Keeps.refl u | exact Area.sub_trans (by decide) hl | apply Keeps.reply
      | apply Keeps.inject | (apply Keeps.ite <;> intro _) | (apply Keeps.iteOpt <;> intro _)
      | apply Keeps.opt_some | apply Keeps.opt_none
      | fail_if_no_progress refine Keeps.upd_sync ?_ (Area.sub_trans (by decide) hl) | split
      | refine Keeps.of_some (by assumption) ?_ | dsimp only)

theorem Keeps.syncIssue (h : Keeps l u s) (x0 x1 x2) (hl : Area.sub [.host, .reported, .regs, .cores, .sync, .fab,
    .hif, .board, .husk] l = true) : Keeps l u (((State.syncIssue s x0 x1 x2)).getD u) := by
  unfold State.syncIssue
  try extract_lets
  repeat' with_reducible (first
      | assumption | exact Keeps.refl u | exact Area.sub_trans (by decide) hl | apply Keeps.syncAt
      | apply Keeps.reply | apply Keeps.syncRemote | (apply Keeps.ite <;> intro _)
      | (apply Keeps.iteOpt <;> intro _) | apply Keeps.opt_some | apply Keeps.opt_none
      | (apply Keeps.itePair <;> intro _) | (apply Keeps.iteTriple <;> intro _) | split
      | refine Keeps.of_pair (by assumption) ?_ | refine Keeps.of_some (by assumption) ?_ | dsimp only)

theorem Keeps.portIssue (h : Keeps l u s) (x0 x1 x2) (hl : Area.sub [.host, .reported, .regs, .cores, .sync, .fab,
    .hif, .board, .husk] l = true) : Keeps l u ((State.portIssue s x0 x1 x2)) := by
  unfold State.portIssue
  try extract_lets
  repeat' with_reducible (first
      | assumption | exact Keeps.refl u | exact Area.sub_trans (by decide) hl | apply Keeps.syncIssue
      | apply Keeps.setPort | (apply Keeps.ite <;> intro _) | split | refine Keeps.of_some (by assumption) ?_
      | dsimp only)

theorem Keeps.retryPorts (h : Keeps l u s) (hl : Area.sub [.host, .reported, .regs, .cores, .sync, .fab, .hif,
    .board, .husk] l = true) : Keeps l u ((State.retryPorts s)) := by
  unfold State.retryPorts
  try extract_lets
  repeat' with_reducible (first
      | assumption | exact Keeps.refl u | exact Area.sub_trans (by decide) hl | apply Keeps.portIssue
      | apply Keeps.setPort | refine Keeps.foldl (fun _ _ _ => ?_) ?_ | refine Keeps.foldlR (fun _ _ _ => ?_) ?_
      | refine Keeps.foldlR2 (fun _ _ _ => ?_) ?_ | refine Keeps.foldlL (fun _ _ _ => ?_) ?_ | dsimp only)

theorem Keeps.powerEv (h : Keeps l u s) (x0 x1 x2 x3) (hl : Area.sub [.host, .regs, .hif, .board,
    .husk] l = true) : Keeps l u ((State.powerEv s x0 x1 x2 x3)) := by
  unfold State.powerEv
  try extract_lets
  repeat' with_reducible (first
      | assumption | exact Keeps.refl u | exact Area.sub_trans (by decide) hl | apply Keeps.post | dsimp only)

theorem Keeps.throttleEv (h : Keeps l u s) (x0) (hl : Area.sub [.host, .regs, .hif, .board,
    .husk] l = true) : Keeps l u ((State.throttleEv s x0)) := by
  unfold State.throttleEv
  try extract_lets
  repeat' with_reducible (first
      | assumption | exact Keeps.refl u | exact Area.sub_trans (by decide) hl | apply Keeps.powerEv | dsimp only)

theorem Keeps.throttleBegan (h : Keeps l u s) (x0 x1) (hl : Area.sub [.host, .regs, .hif, .board,
    .husk] l = true) : Keeps l u ((State.throttleBegan s x0 x1)) := by
  unfold State.throttleBegan
  try extract_lets
  repeat' with_reducible (first
      | assumption | exact Keeps.refl u | exact Area.sub_trans (by decide) hl | apply Keeps.throttleEv
      | (apply Keeps.ite <;> intro _) | dsimp only)

theorem Keeps.setStage (h : Keeps l u s) (x0 x1) (hl : Area.sub [.regs,
    .power] l = true) : Keeps l u ((State.setStage s x0 x1)) := by
  unfold State.setStage
  try extract_lets
  repeat' with_reducible (first
      | assumption | exact Keeps.refl u | exact Area.sub_trans (by decide) hl | apply Keeps.setRf
      | fail_if_no_progress refine Keeps.upd_power ?_ (Area.sub_trans (by decide) hl) | split | dsimp only)

theorem Keeps.retarget (h : Keeps l u s) (x0) (hl : Area.sub [.regs,
    .power] l = true) : Keeps l u ((State.retarget s x0)) := by
  unfold State.retarget
  try extract_lets
  repeat' with_reducible (first
      | assumption | exact Keeps.refl u | exact Area.sub_trans (by decide) hl | apply Keeps.setStage
      | (apply Keeps.ite <;> intro _) | dsimp only)

theorem Keeps.retargets (h : Keeps l u s) (hl : Area.sub [.regs,
    .power] l = true) : Keeps l u ((State.retargets s)) := by
  unfold State.retargets
  try extract_lets
  repeat' with_reducible (first
      | assumption | exact Keeps.refl u | exact Area.sub_trans (by decide) hl | apply Keeps.retarget | dsimp only)

theorem Keeps.throttleMoved (h : Keeps l u s) (x0) (hl : Area.sub [.regs, .power,
    .board] l = true) : Keeps l u ((State.throttleMoved s x0)) := by
  unfold State.throttleMoved
  try extract_lets
  repeat' with_reducible (first
      | assumption | exact Keeps.refl u | exact Area.sub_trans (by decide) hl | apply Keeps.retargets
      | apply Keeps.setRf | (apply Keeps.ite <;> intro _)
      | fail_if_no_progress refine Keeps.upd_board ?_ (Area.sub_trans (by decide) hl) | dsimp only)

theorem Keeps.selectRecord (h : Keeps l u s) (x0) (hl : Area.sub [.regs] l = true) : Keeps l u ((State.selectRecord s x0)) := by
  unfold State.selectRecord
  try extract_lets
  repeat' with_reducible (first
      | assumption | exact Keeps.refl u | exact Area.sub_trans (by decide) hl | apply Keeps.setRf
      | apply Keeps.setRg | dsimp only)

theorem Keeps.xltFaultAcc (h : Keeps l u s) (x0 x1 x2 x3 x4 x5 x6 x7 x8) (hl : Area.sub [.host, .reported, .regs,
    .cores, .hif, .board, .husk] l = true) : Keeps l u ((State.xltFaultAcc s x0 x1 x2 x3 x4 x5 x6 x7 x8)) := by
  unfold State.xltFaultAcc
  try extract_lets
  repeat' with_reducible (first
      | assumption | exact Keeps.refl u | exact Area.sub_trans (by decide) hl | apply Keeps.modCore
      | apply Keeps.postFault | dsimp only)

theorem Keeps.missAcc (h : Keeps l u s) (x0 x1 x2) (hl : Area.sub [.host, .reported, .regs, .cores, .hif, .board,
    .husk] l = true) : Keeps l u ((State.missAcc s x0 x1 x2)) := by
  unfold State.missAcc; dsimp only; repeat' with_reducible (first
      | assumption | exact Keeps.refl u | exact Area.sub_trans (by decide) hl | apply Keeps.count
      | apply Keeps.walkStart | apply Keeps.modCore | apply Keeps.xltFaultAcc | (apply Keeps.ite <;> intro _)
      | (apply Keeps.itePair <;> intro _) | (apply Keeps.iteTriple <;> intro _) | split
      | refine Keeps.of_pair (by assumption) ?_ | dsimp only)

theorem Keeps.readPlaces (h : Keeps l u s) (x0 x1 x2 x3 x4) (hl : Area.sub [.mem, .host, .chk, .reported, .regs,
    .cores, .mems, .hif, .board, .husk] l = true) : Keeps l u (((readPlaces x0 x1 x2 s x3 x4)).2) := by
  induction x3 generalizing s x4 with
  | nil => exact h
  | cons y l ih => unfold Machine.readPlaces; dsimp only; repeat' with_reducible (first
      | apply ih | assumption | exact Keeps.refl u | exact Area.sub_trans (by decide) hl | apply Keeps.getPlace
      | (apply Keeps.ite <;> intro _) | (apply Keeps.itePair <;> intro _) | split
      | refine Keeps.of_pair (by assumption) ?_ | dsimp only)

theorem Keeps.progress (h : Keeps l u s) (x0 x1 x2) (hl : Area.sub [.cores] l = true) : Keeps l u ((State.progress s x0 x1 x2)) := by
  unfold State.progress
  try extract_lets
  repeat' with_reducible (first
      | assumption | exact Keeps.refl u | exact Area.sub_trans (by decide) hl | apply Keeps.modCore | dsimp only)

theorem Keeps.tloadRow (h : Keeps l u s) (x0) (hl : Area.sub [.mem, .host, .chk, .reported, .regs, .cores, .mems,
    .hif, .board, .husk] l = true) : Keeps l u ((moveSum (tloadRow s x0))) := by
  unfold Machine.tloadRow
  try extract_lets
  repeat' with_reducible (first
      | assumption | exact Keeps.refl u | exact Area.sub_trans (by decide) hl | apply Keeps.missAcc
      | apply Keeps.xltFaultAcc | apply Keeps.readPlaces | apply Keeps.modCore | apply Keeps.progress
      | apply Keeps.count | (apply Keeps.ite <;> intro _) | apply Keeps.moveSum_inl | apply Keeps.moveSum_inr
      | (apply Keeps.itemoveSum <;> intro _) | apply Keeps.move_block | apply Keeps.move_stop
      | (apply Keeps.itePair <;> intro _) | (apply Keeps.iteTriple <;> intro _) | split
      | refine Keeps.of_pair (by assumption) ?_ | refine Keeps.of_moveSum_inr (by assumption) ?_
      | refine Keeps.of_moveSum_inl (by assumption) ?_ | refine Keeps.of_moveSum_inl_ok (by assumption) ?_
      | refine Keeps.of_moveSum_inl_block (by assumption) ?_
      | refine Keeps.of_moveSum_inl_stop (by assumption) ?_ | dsimp only)

theorem Keeps.setRunEnt (h : Keeps l u s) (x0 x1 x2 x3) (hl : Area.sub [.cores] l = true) : Keeps l u ((State.setRunEnt s x0 x1 x2 x3)) := by
  unfold State.setRunEnt
  try extract_lets
  repeat' with_reducible (first
      | assumption | exact Keeps.refl u | exact Area.sub_trans (by decide) hl | apply Keeps.modCore
      | (apply Keeps.ite <;> intro _) | dsimp only)

theorem Keeps.resettle (h : Keeps l u s) (x0) (hl : Area.sub [.cores, .sync,
    .fab] l = true) : Keeps l u ((State.resettle s x0)) := by
  unfold State.resettle
  try extract_lets
  repeat' with_reducible (first
      | assumption | exact Keeps.refl u | exact Area.sub_trans (by decide) hl | apply Keeps.changed
      | (apply Keeps.ite <;> intro _) | dsimp only)

theorem Keeps.prune (h : Keeps l u s) (hl : Area.sub [.sync, .fab] l = true) : Keeps l u ((State.prune s)) := by
  unfold State.prune
  try extract_lets
  repeat' with_reducible (first
      | assumption | exact Keeps.refl u | exact Area.sub_trans (by decide) hl | apply Keeps.inject
      | refine Keeps.foldl (fun _ _ _ => ?_) ?_
      | fail_if_no_progress refine Keeps.upd_sync ?_ (Area.sub_trans (by decide) hl) | dsimp only)

theorem Keeps.dropWaits (h : Keeps l u s) (x0) (hl : Area.sub [.sync,
    .fab] l = true) : Keeps l u ((State.dropWaits s x0)) := by
  unfold State.dropWaits
  try extract_lets
  repeat' with_reducible (first
      | assumption | exact Keeps.refl u | exact Area.sub_trans (by decide) hl | apply Keeps.prune
      | apply Keeps.inject | (apply Keeps.ite <;> intro _) | refine Keeps.foldl (fun _ _ _ => ?_) ?_
      | refine Keeps.foldlR (fun _ _ _ => ?_) ?_ | refine Keeps.foldlR2 (fun _ _ _ => ?_) ?_
      | refine Keeps.foldlL (fun _ _ _ => ?_) ?_
      | fail_if_no_progress refine Keeps.upd_sync ?_ (Area.sub_trans (by decide) hl) | dsimp only)

theorem Keeps.leaveWaits (h : Keeps l u s) (x0) (hl : Area.sub [.cores, .sync,
    .fab] l = true) : Keeps l u ((State.leaveWaits s x0)) := by
  unfold State.leaveWaits
  try extract_lets
  repeat' with_reducible (first
      | assumption | exact Keeps.refl u | exact Area.sub_trans (by decide) hl | apply Keeps.resettle
      | apply Keeps.dropWaits | (apply Keeps.ite <;> intro _) | refine Keeps.foldl (fun _ _ _ => ?_) ?_ | dsimp only)

theorem Keeps.startDrain (h : Keeps l u s) (x0 x1) (hl : Area.sub [.cores, .sync,
    .fab] l = true) : Keeps l u ((State.startDrain s x0 x1)) := by
  unfold State.startDrain; extract_lets x s1
  have h1 : Keeps l u s1 := by
    simp only [s1]
    split
    · exact Keeps.leaveWaits (hl := Area.sub_trans (by decide) hl) h ..
    · exact h
  exact Keeps.modCore (hl := Area.sub_trans (by decide) hl) h1 ..

theorem Keeps.freeReq (h : Keeps l u s) (x0 x1) (hl : Area.sub [.fab] l = true) : Keeps l u ((State.freeReq s x0 x1)) := by
  unfold State.freeReq
  try extract_lets
  repeat' with_reducible (first
      | assumption | exact Keeps.refl u | exact Area.sub_trans (by decide) hl
      | fail_if_no_progress refine Keeps.upd_fab ?_ (Area.sub_trans (by decide) hl) | dsimp only)

theorem Keeps.dropReqs (h : Keeps l u s) (x0) (hl : Area.sub [.fab] l = true) : Keeps l u ((State.dropReqs s x0)) := by
  unfold State.dropReqs
  try extract_lets
  repeat' with_reducible (first
      | assumption | exact Keeps.refl u | exact Area.sub_trans (by decide) hl | apply Keeps.freeReq
      | refine Keeps.foldl (fun _ _ _ => ?_) ?_ | dsimp only)

theorem Keeps.abandonFab (h : Keeps l u s) (x0 x1) (hl : Area.sub [.cores,
    .fab] l = true) : Keeps l u ((State.abandonFab s x0 x1)) := by
  unfold State.abandonFab
  try dsimp only
  repeat' with_reducible (first
      | assumption | exact Keeps.refl u | exact Area.sub_trans (by decide) hl | apply Keeps.modCore
      | apply Keeps.dropReqs | apply Keeps.setCore | (apply Keeps.ite <;> intro _)
      | refine Keeps.foldl (fun _ _ _ => ?_) ?_ | dsimp only)

theorem Keeps.suspendAccess (h : Keeps l u s) (x0 x1) (hl : Area.sub [.cores,
    .fab] l = true) : Keeps l u ((State.suspendAccess s x0 x1)) := by
  unfold State.suspendAccess
  try extract_lets
  repeat' with_reducible (first
      | assumption | exact Keeps.refl u | exact Area.sub_trans (by decide) hl | apply Keeps.modSlot
      | apply Keeps.modCore | apply Keeps.abandonFab | dsimp only)

theorem Keeps.freeSlot (h : Keeps l u s) (x0 x1) (hl : Area.sub [.cores, .sync,
    .fab] l = true) : Keeps l u ((State.freeSlot s x0 x1)) := by
  unfold State.freeSlot; dsimp only; repeat' with_reducible (first
      | assumption | exact Keeps.refl u | exact Area.sub_trans (by decide) hl | apply Keeps.dropWaits
      | apply Keeps.modCore | (apply Keeps.ite <;> intro _) | (apply Keeps.itePair <;> intro _)
      | (apply Keeps.iteTriple <;> intro _) | split | dsimp only)

theorem Keeps.postComp (h : Keeps l u s) (x0 x1) (hl : Area.sub [.host, .reported, .regs, .hif, .board,
    .husk] l = true) : Keeps l u ((State.postComp s x0 x1)) := by
  unfold State.postComp
  try extract_lets
  repeat' with_reducible (first
      | assumption | exact Keeps.refl u | exact Area.sub_trans (by decide) hl | apply Keeps.postCtx
      | apply Keeps.post | (apply Keeps.ite <;> intro _) | split | dsimp only)

theorem Keeps.setRing (h : Keeps l u s) (x0 x1 x2) (hl : Area.sub [.hif] l = true) : Keeps l u ((State.setRing s x0 x1 x2)) := by
  unfold State.setRing
  try extract_lets
  repeat' with_reducible (first
      | assumption | exact Keeps.refl u | exact Area.sub_trans (by decide) hl | (apply Keeps.ite <;> intro _)
      | fail_if_no_progress refine Keeps.upd_hif ?_ (Area.sub_trans (by decide) hl) | dsimp only)

theorem Keeps.advance (h : Keeps l u s) (x0 x1) (hl : Area.sub [.host, .regs,
    .hif] l = true) : Keeps l u ((State.advance s x0 x1)) := by
  unfold State.advance
  try extract_lets
  repeat' with_reducible (first
      | assumption | exact Keeps.refl u | exact Area.sub_trans (by decide) hl | apply Keeps.putNumHost
      | apply Keeps.putBytesHost | apply Keeps.putNumRing | apply Keeps.setRing | apply Keeps.setRf
      | (apply Keeps.ite <;> intro _) | dsimp only)

theorem Keeps.finishPreempt (h : Keeps l u s) (x0) (hl : Area.sub [.host, .reported, .regs, .hif, .board,
    .husk] l = true) : Keeps l u ((State.finishPreempt s x0)) := by
  unfold State.finishPreempt
  try extract_lets
  repeat' with_reducible (first
      | assumption | exact Keeps.refl u | exact Area.sub_trans (by decide) hl | apply Keeps.postComp
      | apply Keeps.advance | (apply Keeps.ite <;> intro _) | dsimp only)

theorem Keeps.holdPreempt (h : Keeps l u s) (x0) (hl : Area.sub [.host, .reported, .regs, .hif, .board,
    .husk] l = true) : Keeps l u ((State.holdPreempt s x0)) := by
  unfold State.holdPreempt
  try extract_lets
  repeat' with_reducible (first
      | assumption | exact Keeps.refl u | exact Area.sub_trans (by decide) hl | apply Keeps.finishPreempt
      | (apply Keeps.ite <;> intro _)
      | fail_if_no_progress refine Keeps.upd_hif ?_ (Area.sub_trans (by decide) hl) | dsimp only)

theorem Keeps.tellPreempt (h : Keeps l u s) (x0 x1 x2) (hl : Area.sub [.host, .reported, .regs, .hif, .board,
    .husk] l = true) : Keeps l u ((State.tellPreempt s x0 x1 x2)) := by
  unfold State.tellPreempt
  try extract_lets
  repeat' with_reducible (first
      | assumption | exact Keeps.refl u | exact Area.sub_trans (by decide) hl | apply Keeps.holdPreempt
      | (apply Keeps.ite <;> intro _) | refine Keeps.foldl (fun _ _ _ => ?_) ?_
      | fail_if_no_progress refine Keeps.upd_hif ?_ (Area.sub_trans (by decide) hl) | dsimp only)

theorem Keeps.setCluster (h : Keeps l u s) (x0 x1) (hl : Area.sub [.clusters] l = true) : Keeps l u ((State.setCluster s x0 x1)) := by
  unfold State.setCluster
  try extract_lets
  repeat' with_reducible (first
      | assumption | exact Keeps.refl u | exact Area.sub_trans (by decide) hl
      | fail_if_no_progress refine Keeps.upd_clusters ?_ (Area.sub_trans (by decide) hl) | dsimp only)

theorem Keeps.settle (h : Keeps l u s) (x0 x1) (hl : Area.sub [.fresh, .cores,
    .clusters] l = true) : Keeps l u ((State.settle s x0 x1)) := by
  unfold State.settle
  try extract_lets
  repeat' with_reducible (first
      | assumption | exact Keeps.refl u | exact Area.sub_trans (by decide) hl | apply Keeps.count
      | apply Keeps.setCluster | apply Keeps.took | (apply Keeps.ite <;> intro _) | dsimp only)

theorem Keeps.finishQuiet (h : Keeps l u s) (x0 x1) (hl : Area.sub [.fresh, .host, .reported, .regs, .cores,
    .clusters, .sync, .fab, .hif, .board, .husk] l = true) : Keeps l u ((State.finishQuiet s x0 x1)) := by
  unfold State.finishQuiet
  try extract_lets
  repeat' with_reducible (first
      | assumption | exact Keeps.refl u | exact Area.sub_trans (by decide) hl | apply Keeps.freeSlot
      | apply Keeps.tellPreempt | apply Keeps.settle | dsimp only)

theorem Keeps.placeNow (h : Keeps l u s) (x0 x1 x2) (hl : Area.sub [.fresh, .host, .reported, .regs, .hif, .board,
    .husk] l = true) : Keeps l u (((State.placeNow s x0 x1 x2)).2) := by
  unfold State.placeNow
  try extract_lets
  repeat' with_reducible (first
      | assumption | exact Keeps.refl u | exact Area.sub_trans (by decide) hl | apply Keeps.walkNow
      | (apply Keeps.ite <;> intro _) | (apply Keeps.itePair <;> intro _) | split
      | refine Keeps.of_pair (by assumption) ?_ | dsimp only)

theorem Keeps.mergeHalf (h : Keeps l u s) (x0 x1 x2 x3) (hl : Area.sub [.mem, .host, .chk, .reported, .regs,
    .mems, .hif, .board, .husk] l = true) : Keeps l u (((State.mergeHalf s x0 x1 x2 x3)).s) := by
  unfold State.mergeHalf
  try extract_lets
  repeat' with_reducible (first
      | assumption | exact Keeps.refl u | exact Area.sub_trans (by decide) hl | apply Keeps.readHalf
      | (apply Keeps.ite <;> intro _) | (apply Keeps.iteRd <;> intro _) | dsimp only)

theorem Keeps.dropWb (h : Keeps l u s) (x0) (hl : Area.sub [.mems] l = true) : Keeps l u ((State.dropWb s x0)) := by
  unfold State.dropWb
  try extract_lets
  repeat' with_reducible (first
      | assumption | exact Keeps.refl u | exact Area.sub_trans (by decide) hl | apply Keeps.setMem
      | (apply Keeps.ite <;> intro _) | split | dsimp only)

theorem Keeps.storeHalf (h : Keeps l u s) (x0 x1 x2) (hl : Area.sub [.mem, .host, .chk, .reported,
    .mems] l = true) : Keeps l u ((State.storeHalf s x0 x1 x2)) := by
  unfold State.storeHalf
  try extract_lets
  repeat' with_reducible (first
      | assumption | exact Keeps.refl u | exact Area.sub_trans (by decide) hl | apply Keeps.putBytes
      | apply Keeps.dropWb | (apply Keeps.ite <;> intro _)
      | fail_if_no_progress refine Keeps.upd_chk_reported ?_ (Area.sub_trans (by decide) hl) | dsimp only)

theorem Keeps.writeWord (h : Keeps l u s) (x0 x1 x2 x3) (hl : Area.sub [.mem, .host, .chk, .reported, .regs,
    .mems, .hif, .board, .husk] l = true) : Keeps l u (((State.writeWord s x0 x1 x2 x3)).2) := by
  unfold State.writeWord
  try extract_lets
  repeat' with_reducible (first
      | assumption | exact Keeps.refl u | exact Area.sub_trans (by decide) hl | apply Keeps.letIn
      | apply Keeps.mergeHalf | apply Keeps.storeHalf | (apply Keeps.ite <;> intro _)
      | (apply Keeps.itePair <;> intro _) | split | refine Keeps.of_some (by assumption) ?_
      | refine Keeps.of_pair (by assumption) ?_ | dsimp only)

theorem Keeps.writeFrom (h : Keeps l u s) (x0 x1 x2 x3 x4) (hl : Area.sub [.mem, .host, .chk, .reported, .regs,
    .mems, .hif, .board, .husk] l = true) : Keeps l u (((State.writeFrom s x0 x1 x2 x3 x4)).2) := by
  induction x4 generalizing s x1 x2 with
  | zero => exact h
  | succ n ih =>
    unfold State.writeFrom
    split
    · exact h
    · exact ih (Keeps.writeWord (hl := Area.sub_trans (by decide) hl) h ..) ..

theorem Keeps.writeDie (h : Keeps l u s) (x0 x1 x2 x3) (hl : Area.sub [.mem, .host, .chk, .reported, .regs, .mems,
    .hif, .board, .husk] l = true) : Keeps l u (((State.writeDie s x0 x1 x2 x3)).2) := by
  unfold State.writeDie
  try extract_lets
  repeat' with_reducible (first
      | assumption | exact Keeps.refl u | exact Area.sub_trans (by decide) hl | apply Keeps.writeFrom
      | (apply Keeps.itePair <;> intro _) | dsimp only)

theorem Keeps.aliasWord (h : Keeps l u s) (x0 x1 x2 x3 x4) (hl : Area.sub [.mem, .host, .chk, .reported, .regs,
    .mems, .hif, .board, .husk] l = true) : Keeps l u (((State.aliasWord s x0 x1 x2 x3 x4)).2) := by
  unfold State.aliasWord
  try extract_lets
  repeat' with_reducible (first
      | assumption | exact Keeps.refl u | exact Area.sub_trans (by decide) hl | apply Keeps.readDie
      | apply Keeps.writeDie | (apply Keeps.ite <;> intro _) | (apply Keeps.itePair <;> intro _) | dsimp only)

theorem Keeps.aliasWrite (h : Keeps l u s) (x0 x1 x2 x3 x4) (hl : Area.sub [.mem, .host, .chk, .reported, .regs,
    .mems, .hif, .board, .husk] l = true) : Keeps l u (((State.aliasWrite s x0 x1 x2 x3 x4)).2) := by
  unfold State.aliasWrite
  try extract_lets
  repeat' with_reducible (first
      | assumption | exact Keeps.refl u | exact Area.sub_trans (by decide) hl | apply Keeps.aliasWord
      | (apply Keeps.ite <;> intro _) | (apply Keeps.itePair <;> intro _) | (apply Keeps.itePair <;> intro _)
      | (apply Keeps.iteTriple <;> intro _) | dsimp only)

theorem Keeps.setLine (h : Keeps l u s) (x0 x1) (hl : Area.sub [.lines] l = true) : Keeps l u ((State.setLine s x0 x1)) := by
  unfold State.setLine
  try extract_lets
  repeat' with_reducible (first
      | assumption | exact Keeps.refl u | exact Area.sub_trans (by decide) hl
      | fail_if_no_progress refine Keeps.upd_lines ?_ (Area.sub_trans (by decide) hl) | dsimp only)

end Sys2Proof.Machine
end

