-- ==== Sys2Proof/Laws/Keeps2.lean ====
section
/-! SUPPORT. What the operations keep, part 2 of 6: each operation changes only the parts it lists -/

namespace Sys2Proof.Machine

variable {l : List Area} {u s : State}

theorem Keeps.storeLine (h : Keeps l u s) (x0 x1 x2 x3) (hl : Area.sub [.mem, .host, .chk, .reported, .lines,
    .mems] l = true) : Keeps l u ((State.storeLine s x0 x1 x2 x3)) := by
  unfold State.storeLine
  try extract_lets
  repeat' with_reducible (first
      | assumption | exact Keeps.refl u | exact Area.sub_trans (by decide) hl | apply Keeps.storeHalf
      | apply Keeps.setLine | dsimp only)

theorem Keeps.freeLocal (h : Keeps l u s) (x0 x1 x2) (hl : Area.sub [.fresh, .mem,
    .host] l = true) : Keeps l u ((State.freeLocal s x0 x1 x2)) := by
  unfold State.freeLocal
  try extract_lets
  repeat' with_reducible (first
      | assumption | exact Keeps.refl u | exact Area.sub_trans (by decide) hl | apply Keeps.took
      | apply Keeps.putByte | refine Keeps.foldl (fun _ _ _ => ?_) ?_ | split | dsimp only)

theorem Keeps.freeParams (h : Keeps l u s) (x0 x1 x2 x3 x4) (hl : Area.sub [.fresh, .mem,
    .host] l = true) : Keeps l u ((State.freeParams s x0 x1 x2 x3 x4)) := by
  unfold State.freeParams
  try extract_lets
  repeat' with_reducible (first
      | assumption | exact Keeps.refl u | exact Area.sub_trans (by decide) hl | apply Keeps.freeLocal
      | (apply Keeps.ite <;> intro _) | refine Keeps.foldl (fun _ _ _ => ?_) ?_ | dsimp only)

theorem Keeps.setDam (h : Keeps l u s) (x0 x1) (hl : Area.sub [.damsons] l = true) : Keeps l u ((State.setDam s x0 x1)) := by
  unfold State.setDam
  try extract_lets
  repeat' with_reducible (first
      | assumption | exact Keeps.refl u | exact Area.sub_trans (by decide) hl
      | fail_if_no_progress refine Keeps.upd_damsons ?_ (Area.sub_trans (by decide) hl) | dsimp only)

theorem Keeps.disturb (h : Keeps l u s) (x0 x1) (hl : Area.sub [.fresh, .mem, .host,
    .damsons] l = true) : Keeps l u ((State.disturb s x0 x1)) := by
  unfold State.disturb
  try extract_lets
  repeat' with_reducible (first
      | assumption | exact Keeps.refl u | exact Area.sub_trans (by decide) hl | apply Keeps.freeParams
      | apply Keeps.setDam | apply Keeps.took | (apply Keeps.ite <;> intro _)
      | refine Keeps.foldl (fun _ _ _ => ?_) ?_ | refine Keeps.foldlR (fun _ _ _ => ?_) ?_
      | refine Keeps.foldlR2 (fun _ _ _ => ?_) ?_ | refine Keeps.foldlL (fun _ _ _ => ?_) ?_
      | (apply Keeps.itePair <;> intro _) | (apply Keeps.iteTriple <;> intro _) | split | dsimp only)

theorem Keeps.monitorWrite (h : Keeps l u s) (x0 x1 x2 x3 x4 x5) (hl : Area.sub [.damsons] l = true) : Keeps l u ((State.monitorWrite s x0 x1 x2 x3 x4 x5)) := by
  unfold State.monitorWrite
  try extract_lets
  repeat' with_reducible (first
      | assumption | exact Keeps.refl u | exact Area.sub_trans (by decide) hl | apply Keeps.setDam
      | (apply Keeps.ite <;> intro _) | dsimp only)

theorem Keeps.writeLine (h : Keeps l u s) (x0 x1 x2 x3) (hl : Area.sub [.fresh, .mem, .host, .chk, .reported,
    .lines, .regs, .mems, .damsons, .hif, .board,
    .husk] l = true) : Keeps l u (((State.writeLine s x0 x1 x2 x3)).2) := by
  unfold State.writeLine; dsimp only; repeat' with_reducible (first
      | assumption | exact Keeps.refl u | exact Area.sub_trans (by decide) hl | apply Keeps.readTier
      | apply Keeps.storeLine | apply Keeps.disturb | apply Keeps.monitorWrite | (apply Keeps.ite <;> intro _)
      | (apply Keeps.itePair <;> intro _) | split | refine Keeps.of_pair (by assumption) ?_ | dsimp only)

theorem Keeps.writeLines (h : Keeps l u s) (x0 x1 x2 x3 x4) (hl : Area.sub [.fresh, .mem, .host, .chk, .reported,
    .lines, .regs, .mems, .damsons, .hif, .board,
    .husk] l = true) : Keeps l u (((State.writeLines s x0 x1 x2 x3 x4)).2) := by
  induction x4 generalizing s x1 x2 x3 with
  | zero => exact h
  | succ n ih => unfold State.writeLines; repeat' with_reducible (first
      | apply ih | assumption | exact Keeps.refl u | exact Area.sub_trans (by decide) hl | apply Keeps.writeLine
      | (apply Keeps.ite <;> intro _) | (apply Keeps.itePair <;> intro _) | (apply Keeps.itePair <;> intro _)
      | (apply Keeps.iteTriple <;> intro _) | split | refine Keeps.of_pair (by assumption) ?_ | dsimp only)

theorem Keeps.writeTier (h : Keeps l u s) (x0 x1 x2 x3) (hl : Area.sub [.fresh, .mem, .host, .chk, .reported,
    .lines, .regs, .mems, .damsons, .hif, .board,
    .husk] l = true) : Keeps l u (((State.writeTier s x0 x1 x2 x3)).2) := by
  unfold State.writeTier
  try extract_lets
  repeat' with_reducible (first
      | assumption | exact Keeps.refl u | exact Area.sub_trans (by decide) hl | apply Keeps.writeLines
      | (apply Keeps.itePair <;> intro _) | dsimp only)

theorem Keeps.putHost (h : Keeps l u s) (x0 x1 x2) (hl : Area.sub [.mem, .host,
    .hif] l = true) : Keeps l u ((State.putHost s x0 x1 x2)) := by
  unfold State.putHost
  try extract_lets
  repeat' with_reducible (first
      | assumption | exact Keeps.refl u | exact Area.sub_trans (by decide) hl | apply Keeps.putBytes
      | (apply Keeps.ite <;> intro _)
      | fail_if_no_progress refine Keeps.upd_hif ?_ (Area.sub_trans (by decide) hl) | dsimp only)

theorem Keeps.writeAt (h : Keeps l u s) (x0 x1 x2 x3) (hl : Area.sub [.fresh, .mem, .host, .chk, .reported,
    .lines, .regs, .mems, .damsons, .hif, .board,
    .husk] l = true) : Keeps l u (((State.writeAt s x0 x1 x2 x3)).2) := by
  unfold State.writeAt
  try extract_lets
  repeat' with_reducible (first
      | assumption | exact Keeps.refl u | exact Area.sub_trans (by decide) hl | apply Keeps.putNumHost
      | apply Keeps.putBytesHost | apply Keeps.putNumRing | apply Keeps.writeDie | apply Keeps.aliasWrite
      | apply Keeps.writeTier | apply Keeps.putHost | apply Keeps.noteHost | (apply Keeps.itePair <;> intro _)
      | split | refine Keeps.of_pair (by assumption) ?_ | dsimp only)

theorem Keeps.writeVia (h : Keeps l u s) (x0 x1 x2 x3 x4) (hl : Area.sub [.fresh, .mem, .host, .chk, .reported,
    .lines, .regs, .mems, .damsons, .hif, .board,
    .husk] l = true) : Keeps l u (((State.writeVia s x0 x1 x2 x3 x4)).2) := by
  unfold State.writeVia
  try extract_lets
  repeat' with_reducible (first
      | assumption | exact Keeps.refl u | exact Area.sub_trans (by decide) hl | apply Keeps.writeAt
      | (apply Keeps.ite <;> intro _) | (apply Keeps.itePair <;> intro _) | (apply Keeps.itePair <;> intro _)
      | (apply Keeps.iteTriple <;> intro _) | dsimp only)

theorem Keeps.writeDev (h : Keeps l u s) (x0 x1 x2 x3) (hl : Area.sub [.fresh, .mem, .host, .chk, .reported,
    .lines, .regs, .mems, .damsons, .hif, .board,
    .husk] l = true) : Keeps l u (((State.writeDev s x0 x1 x2 x3)).2) := by
  unfold State.writeDev
  try extract_lets
  repeat' with_reducible (first
      | assumption | exact Keeps.refl u | exact Area.sub_trans (by decide) hl | apply Keeps.placeNow
      | apply Keeps.writeVia | (apply Keeps.ite <;> intro _) | (apply Keeps.itePair <;> intro _)
      | refine Keeps.foldl (fun _ _ _ => ?_) ?_ | refine Keeps.foldlR (fun _ _ _ => ?_) ?_
      | refine Keeps.foldlR2 (fun _ _ _ => ?_) ?_ | refine Keeps.foldlL (fun _ _ _ => ?_) ?_ | split
      | refine Keeps.of_pair (by assumption) ?_ | dsimp only)

theorem Keeps.writeImage (h : Keeps l u s) (x0 x1 x2 x3 x4) (hl : Area.sub [.fresh, .mem, .host, .chk, .reported,
    .lines, .regs, .mems, .damsons, .hif, .board,
    .husk] l = true) : Keeps l u ((State.writeImage s x0 x1 x2 x3 x4)) := by
  unfold State.writeImage
  try extract_lets
  repeat' with_reducible (first
      | assumption | exact Keeps.refl u | exact Area.sub_trans (by decide) hl | apply Keeps.writeDev
      | refine Keeps.foldl (fun _ _ _ => ?_) ?_ | refine Keeps.foldlR (fun _ _ _ => ?_) ?_
      | refine Keeps.foldlR2 (fun _ _ _ => ?_) ?_ | refine Keeps.foldlL (fun _ _ _ => ?_) ?_ | dsimp only)

theorem Keeps.finishStop (h : Keeps l u s) (x0 x1 x2 x3) (hl : Area.sub [.fresh, .mem, .host, .chk, .reported,
    .lines, .regs, .cores, .clusters, .mems, .damsons, .sync, .fab, .hif, .board,
    .husk] l = true) : Keeps l u ((State.finishStop s x0 x1 x2 x3)) := by
  unfold State.finishStop
  try extract_lets
  repeat' with_reducible (first
      | assumption | exact Keeps.refl u | exact Area.sub_trans (by decide) hl | apply Keeps.writeImage
      | apply Keeps.postFault | apply Keeps.postComp | apply Keeps.settle | apply Keeps.freeSlot
      | apply Keeps.tellPreempt | (apply Keeps.ite <;> intro _) | dsimp only)

theorem Keeps.drainSlot (h : Keeps l u s) (x0 x1) (hl : Area.sub [.fresh, .mem, .host, .chk, .reported, .lines,
    .regs, .cores, .clusters, .mems, .damsons, .sync, .fab, .hif, .board,
    .husk] l = true) : Keeps l u ((State.drainSlot s x0 x1)) := by
  unfold State.drainSlot
  try extract_lets
  repeat' with_reducible (first
      | assumption | exact Keeps.refl u | exact Area.sub_trans (by decide) hl | apply Keeps.suspendAccess
      | apply Keeps.finishQuiet | apply Keeps.finishStop | (apply Keeps.ite <;> intro _) | split | dsimp only)

theorem Keeps.stopSlot (h : Keeps l u s) (x0 x1 x2 x3 x4) (hl : Area.sub [.fresh, .mem, .host, .chk, .reported,
    .lines, .regs, .cores, .clusters, .mems, .damsons, .sync, .fab, .hif, .board,
    .husk] l = true) : Keeps l u ((State.stopSlot s x0 x1 x2 x3 x4)) := by
  unfold State.stopSlot
  try extract_lets
  repeat' with_reducible (first
      | assumption | exact Keeps.refl u | exact Area.sub_trans (by decide) hl | apply Keeps.modCore
      | apply Keeps.count | apply Keeps.modSlot | apply Keeps.startDrain | apply Keeps.suspendAccess
      | apply Keeps.drainSlot | (apply Keeps.ite <;> intro _) | refine Keeps.foldl (fun _ _ _ => ?_) ?_
      | refine Keeps.foldlR (fun _ _ _ => ?_) ?_ | refine Keeps.foldlR2 (fun _ _ _ => ?_) ?_
      | refine Keeps.foldlL (fun _ _ _ => ?_) ?_ | (apply Keeps.itePair <;> intro _)
      | (apply Keeps.iteTriple <;> intro _) | dsimp only)

theorem Keeps.stopAtPc (h : Keeps l u s) (x0 x1 x2 x3) (hl : Area.sub [.fresh, .mem, .host, .chk, .reported,
    .lines, .regs, .cores, .clusters, .mems, .damsons, .sync, .fab, .hif, .board,
    .husk] l = true) : Keeps l u ((State.stopAtPc s x0 x1 x2 x3)) := by
  unfold State.stopAtPc
  try extract_lets
  repeat' with_reducible (first
      | assumption | exact Keeps.refl u | exact Area.sub_trans (by decide) hl | apply Keeps.stopSlot | dsimp only)

theorem Keeps.endSlot (h : Keeps l u s) (x0 x1) (hl : Area.sub [.fresh, .host, .reported, .regs, .cores,
    .clusters, .sync, .fab, .hif, .board, .husk] l = true) : Keeps l u ((State.endSlot s x0 x1)) := by
  unfold State.endSlot
  try extract_lets
  repeat' with_reducible (first
      | assumption | exact Keeps.refl u | exact Area.sub_trans (by decide) hl | apply Keeps.ctxEntry
      | apply Keeps.settle | apply Keeps.postComp | apply Keeps.freeSlot | apply Keeps.tellPreempt
      | (apply Keeps.ite <;> intro _) | (apply Keeps.itePair <;> intro _) | (apply Keeps.iteTriple <;> intro _)
      | split | refine Keeps.of_pair (by assumption) ?_ | dsimp only)

theorem Keeps.settlePc (h : Keeps l u s) (x0 x1) (hl : Area.sub [.fresh, .mem, .host, .chk, .reported, .lines,
    .regs, .cores, .clusters, .mems, .damsons, .sync, .fab, .hif, .board,
    .husk] l = true) : Keeps l u ((State.settlePc s x0 x1)) := by
  unfold State.settlePc
  try extract_lets
  repeat' with_reducible (first
      | assumption | exact Keeps.refl u | exact Area.sub_trans (by decide) hl | apply Keeps.stopAtPc
      | (apply Keeps.ite <;> intro _) | (apply Keeps.itePair <;> intro _) | (apply Keeps.iteTriple <;> intro _)
      | split | dsimp only)

theorem Keeps.setPc (h : Keeps l u s) (x0 x1 x2) (hl : Area.sub [.fresh, .mem, .host, .chk, .reported, .lines,
    .regs, .cores, .clusters, .mems, .damsons, .sync, .fab, .hif, .board,
    .husk] l = true) : Keeps l u ((State.setPc s x0 x1 x2)) := by
  unfold State.setPc
  try extract_lets
  repeat' with_reducible (first
      | assumption | exact Keeps.refl u | exact Area.sub_trans (by decide) hl | apply Keeps.settlePc
      | apply Keeps.modSlot | dsimp only)

theorem Keeps.seqDone (h : Keeps l u s) (x0 x1 x2 x3 x4) (hl : Area.sub [.fresh, .mem, .host, .chk, .reported,
    .lines, .regs, .cores, .clusters, .mems, .damsons, .sync, .fab, .hif, .board,
    .husk] l = true) : Keeps l u ((State.seqDone s x0 x1 x2 x3 x4)) := by
  unfold State.seqDone; dsimp only; repeat' with_reducible (first
      | assumption | exact Keeps.refl u | exact Area.sub_trans (by decide) hl | apply Keeps.stopAtPc
      | apply Keeps.setSlot | apply Keeps.setPc | apply Keeps.count | (apply Keeps.ite <;> intro _) | split
      | dsimp only)

theorem Keeps.releaseHold (h : Keeps l u s) (x0 x1) (hl : Area.sub [.fresh, .mem, .host, .chk, .reported, .lines,
    .regs, .cores, .clusters, .mems, .damsons, .sync, .fab, .hif, .board,
    .husk] l = true) : Keeps l u ((State.releaseHold s x0 x1)) := by
  unfold State.releaseHold
  try extract_lets
  repeat' with_reducible (first
      | assumption | exact Keeps.refl u | exact Area.sub_trans (by decide) hl | apply Keeps.stopAtPc
      | apply Keeps.endSlot | apply Keeps.seqDone | (apply Keeps.ite <;> intro _) | split | dsimp only)

theorem Keeps.releaseSlot (h : Keeps l u s) (x0 x1) (hl : Area.sub [.fresh, .mem, .host, .chk, .reported, .lines,
    .regs, .cores, .clusters, .mems, .damsons, .sync, .fab, .hif, .board,
    .husk] l = true) : Keeps l u ((State.releaseSlot s x0 x1)) := by
  unfold State.releaseSlot
  try extract_lets
  repeat' with_reducible (first
      | assumption | exact Keeps.refl u | exact Area.sub_trans (by decide) hl | apply Keeps.releaseHold
      | apply Keeps.drainSlot | (apply Keeps.ite <;> intro _) | split | dsimp only)

theorem Keeps.headToken (h : Keeps l u s) (x0 x1 x2) (hl : Area.sub [.cores] l = true) : Keeps l u ((optFst (State.headToken s x0 x1 x2) u)) := by
  unfold State.headToken
  try extract_lets
  repeat' with_reducible (first
      | assumption | exact Keeps.refl u | exact Area.sub_trans (by decide) hl | apply Keeps.modCore
      | apply Keeps.setSlot | (apply Keeps.ite <;> intro _) | (apply Keeps.iteOptL <;> intro _)
      | apply Keeps.optL_some | apply Keeps.optL_none | split | refine Keeps.of_someL (by assumption) ?_ | dsimp only)

theorem Keeps.engRead (h : Keeps l u s) (x0 x1 x2 x3) (hl : Area.sub [.mem, .host, .chk, .reported, .regs, .cores,
    .mems, .hif, .board, .husk] l = true) : Keeps l u (((State.engRead s x0 x1 x2 x3)).s) := by
  unfold State.engRead
  try extract_lets
  repeat' with_reducible (first
      | assumption | exact Keeps.refl u | exact Area.sub_trans (by decide) hl | apply Keeps.readDie
      | apply Keeps.consumeUnread | (apply Keeps.iteRd <;> intro _) | dsimp only)

theorem Keeps.engReads (h : Keeps l u s) (x0 x1 x2) (hl : Area.sub [.mem, .host, .chk, .reported, .regs, .cores,
    .mems, .hif, .board, .husk] l = true) : Keeps l u (((State.engReads s x0 x1 x2)).2.2) := by
  induction x2 generalizing s with
  | nil => exact h
  | cons y l ih => unfold State.engReads; dsimp only; repeat' with_reducible (first
      | apply ih | assumption | exact Keeps.refl u | exact Area.sub_trans (by decide) hl | apply Keeps.engRead
      | (apply Keeps.ite <;> intro _) | (apply Keeps.iteTriple <;> intro _) | (apply Keeps.itePair <;> intro _)
      | (apply Keeps.iteTriple <;> intro _) | split | refine Keeps.of_triple (by assumption) ?_ | dsimp only)

theorem Keeps.stopEcc (h : Keeps l u s) (x0 x1 x2) (hl : Area.sub [] l = true) : Keeps l u (((stopEcc s x0 x1 x2)).st) := by
  unfold Machine.stopEcc
  try extract_lets
  repeat' with_reducible (first
      | assumption | exact Keeps.refl u | exact Area.sub_trans (by decide) hl | (apply Keeps.ite <;> intro _)
      | (apply Keeps.iteStart <;> intro _) | apply Keeps.start_stop | split
      | refine Keeps.of_eq_Start (by assumption) ?_ | refine Keeps.of_start_stop (by assumption) ?_ | dsimp only)

theorem Keeps.mmaRun (h : Keeps l u s) (x0 x1 x2 x3 x4) (hl : Area.sub [.fresh, .mem, .host, .chk, .reported,
    .regs, .cores, .mems, .hif, .board, .husk] l = true) : Keeps l u (((mmaRun s x0 x1 x2 x3 x4)).st) := by
  unfold Machine.mmaRun
  try dsimp only
  repeat' with_reducible (first
      | assumption | exact Keeps.refl u | exact Area.sub_trans (by decide) hl | apply Keeps.engReads
      | apply Keeps.took | apply Keeps.stopEcc | apply Keeps.modCore | apply Keeps.count
      | (apply Keeps.ite <;> intro _) | (apply Keeps.iteStart <;> intro _) | apply Keeps.start_go
      | apply Keeps.start_stop | refine Keeps.foldl (fun _ _ _ => ?_) ?_
      | refine Keeps.foldlR (fun _ _ _ => ?_) ?_ | refine Keeps.foldlR2 (fun _ _ _ => ?_) ?_
      | refine Keeps.foldlL (fun _ _ _ => ?_) ?_ | (apply Keeps.itePair <;> intro _)
      | (apply Keeps.iteTriple <;> intro _) | split | refine Keeps.of_triple (by assumption) ?_
      | refine Keeps.of_eq_Start (by assumption) ?_ | refine Keeps.of_start_go (by assumption) ?_
      | refine Keeps.of_start_stop (by assumption) ?_ | dsimp only)

theorem Keeps.startMma (h : Keeps l u s) (x0 x1) (hl : Area.sub [.fresh, .mem, .host, .chk, .reported, .regs,
    .cores, .mems, .hif, .board, .husk] l = true) : Keeps l u (((startMma s x0 x1)).st) := by
  unfold Machine.startMma
  try extract_lets
  repeat' with_reducible (first
      | assumption | exact Keeps.refl u | exact Area.sub_trans (by decide) hl | apply Keeps.modCore
      | apply Keeps.mmaRun | (apply Keeps.ite <;> intro _) | (apply Keeps.iteStart <;> intro _)
      | apply Keeps.start_fin | apply Keeps.start_wait | apply Keeps.start_stop | split
      | refine Keeps.of_eq_Start (by assumption) ?_ | refine Keeps.of_start_fin (by assumption) ?_
      | refine Keeps.of_start_wait (by assumption) ?_ | refine Keeps.of_start_stop (by assumption) ?_ | dsimp only)

theorem Keeps.dropUnread (h : Keeps l u s) (x0 x1) (hl : Area.sub [.cores] l = true) : Keeps l u ((State.dropUnread s x0 x1)) := by
  unfold State.dropUnread
  try extract_lets
  repeat' with_reducible (first
      | assumption | exact Keeps.refl u | exact Area.sub_trans (by decide) hl | apply Keeps.count
      | apply Keeps.modCore | (apply Keeps.ite <;> intro _) | dsimp only)

theorem Keeps.engWrite (h : Keeps l u s) (x0 x1 x2 x3) (hl : Area.sub [.mem, .host, .chk, .reported, .regs,
    .cores, .mems, .hif, .board, .husk] l = true) : Keeps l u (((State.engWrite s x0 x1 x2 x3)).2) := by
  unfold State.engWrite
  try extract_lets
  repeat' with_reducible (first
      | assumption | exact Keeps.refl u | exact Area.sub_trans (by decide) hl | apply Keeps.dropUnread
      | apply Keeps.writeDie | (apply Keeps.ite <;> intro _) | (apply Keeps.itePair <;> intro _) | dsimp only)

theorem Keeps.engWrites (h : Keeps l u s) (x0 x1 x2) (hl : Area.sub [.mem, .host, .chk, .reported, .regs, .cores,
    .mems, .hif, .board, .husk] l = true) : Keeps l u (((State.engWrites s x0 x1 x2)).2) := by
  unfold State.engWrites
  try dsimp only
  repeat' with_reducible (first
      | assumption | exact Keeps.refl u | exact Area.sub_trans (by decide) hl | apply Keeps.engWrite
      | apply Keeps.readHalf | (apply Keeps.ite <;> intro _) | (apply Keeps.itePair <;> intro _)
      | refine Keeps.foldl (fun _ _ _ => ?_) ?_ | refine Keeps.foldlR (fun _ _ _ => ?_) ?_
      | refine Keeps.foldlR2 (fun _ _ _ => ?_) ?_ | refine Keeps.foldlL (fun _ _ _ => ?_) ?_
      | (apply Keeps.itePair <;> intro _) | (apply Keeps.iteTriple <;> intro _) | split
      | refine Keeps.of_pair (by assumption) ?_ | dsimp only)

theorem Keeps.startMrd (h : Keeps l u s) (x0 x1) (hl : Area.sub [.mem, .host, .chk, .reported, .regs, .cores,
    .mems, .hif, .board, .husk] l = true) : Keeps l u (((startMrd s x0 x1)).st) := by
  unfold Machine.startMrd
  try extract_lets
  repeat' with_reducible (first
      | assumption | exact Keeps.refl u | exact Area.sub_trans (by decide) hl | apply Keeps.modCore
      | apply Keeps.engWrites | apply Keeps.stopEcc | (apply Keeps.ite <;> intro _)
      | (apply Keeps.iteStart <;> intro _) | apply Keeps.start_go | apply Keeps.start_fin
      | apply Keeps.start_wait | apply Keeps.start_stop | refine Keeps.foldl (fun _ _ _ => ?_) ?_
      | refine Keeps.foldlR (fun _ _ _ => ?_) ?_ | refine Keeps.foldlR2 (fun _ _ _ => ?_) ?_
      | refine Keeps.foldlL (fun _ _ _ => ?_) ?_ | (apply Keeps.itePair <;> intro _)
      | (apply Keeps.iteTriple <;> intro _) | dsimp only)

theorem Keeps.startMsd (h : Keeps l u s) (x0 x1) (hl : Area.sub [.cores] l = true) : Keeps l u (((startMsd s x0 x1)).st) := by
  unfold Machine.startMsd
  try extract_lets
  repeat' with_reducible (first
      | assumption | exact Keeps.refl u | exact Area.sub_trans (by decide) hl | apply Keeps.modSlot
      | apply Keeps.start_go | dsimp only)

theorem Keeps.startMld (h : Keeps l u s) (x0 x1) (hl : Area.sub [.mem, .host, .chk, .reported, .regs, .cores,
    .mems, .hif, .board, .husk] l = true) : Keeps l u (((startMld s x0 x1)).st) := by
  unfold Machine.startMld
  try dsimp only
  repeat' with_reducible (first
      | assumption | exact Keeps.refl u | exact Area.sub_trans (by decide) hl | apply Keeps.engReads
      | apply Keeps.stopEcc | apply Keeps.modCore | (apply Keeps.ite <;> intro _)
      | (apply Keeps.iteStart <;> intro _) | apply Keeps.start_go | apply Keeps.start_stop
      | refine Keeps.foldl (fun _ _ _ => ?_) ?_ | split | refine Keeps.of_triple (by assumption) ?_
      | refine Keeps.of_eq_Start (by assumption) ?_ | refine Keeps.of_start_go (by assumption) ?_
      | refine Keeps.of_start_stop (by assumption) ?_ | dsimp only)

theorem Keeps.moveA (h : Keeps l u s) (x0 x1 x2 x3 x4) (hl : Area.sub [.cores] l = true) : Keeps l u (((moveA s x0 x1 x2 x3 x4)).st) := by
  unfold Machine.moveA
  try extract_lets
  repeat' with_reducible (first
      | assumption | exact Keeps.refl u | exact Area.sub_trans (by decide) hl | apply Keeps.modCore
      | (apply Keeps.ite <;> intro _) | (apply Keeps.iteStart <;> intro _) | apply Keeps.start_go
      | apply Keeps.start_wait | apply Keeps.start_stop | refine Keeps.foldl (fun _ _ _ => ?_) ?_
      | refine Keeps.foldlR (fun _ _ _ => ?_) ?_ | refine Keeps.foldlR2 (fun _ _ _ => ?_) ?_
      | refine Keeps.foldlL (fun _ _ _ => ?_) ?_ | (apply Keeps.itePair <;> intro _)
      | (apply Keeps.iteTriple <;> intro _) | split | refine Keeps.of_eq_Start (by assumption) ?_
      | refine Keeps.of_start_go (by assumption) ?_ | refine Keeps.of_start_wait (by assumption) ?_
      | refine Keeps.of_start_stop (by assumption) ?_ | dsimp only)

theorem Keeps.moveX (h : Keeps l u s) (x0 x1 x2 x3 x4) (hl : Area.sub [.mem, .host, .chk, .reported, .regs,
    .cores, .mems, .hif, .board, .husk] l = true) : Keeps l u (((moveX s x0 x1 x2 x3 x4)).st) := by
  unfold Machine.moveX
  try extract_lets
  repeat' with_reducible (first
      | assumption | exact Keeps.refl u | exact Area.sub_trans (by decide) hl | apply Keeps.engReads
      | apply Keeps.stopEcc | apply Keeps.modCore | (apply Keeps.ite <;> intro _)
      | (apply Keeps.iteStart <;> intro _) | apply Keeps.start_go | apply Keeps.start_stop
      | refine Keeps.foldl (fun _ _ _ => ?_) ?_ | refine Keeps.foldlR (fun _ _ _ => ?_) ?_
      | refine Keeps.foldlR2 (fun _ _ _ => ?_) ?_ | refine Keeps.foldlL (fun _ _ _ => ?_) ?_
      | (apply Keeps.itePair <;> intro _) | (apply Keeps.iteTriple <;> intro _) | split
      | refine Keeps.of_triple (by assumption) ?_ | refine Keeps.of_eq_Start (by assumption) ?_
      | refine Keeps.of_start_go (by assumption) ?_ | refine Keeps.of_start_stop (by assumption) ?_ | dsimp only)

theorem Keeps.startMmove (h : Keeps l u s) (x0 x1) (hl : Area.sub [.mem, .host, .chk, .reported, .regs, .cores,
    .mems, .hif, .board, .husk] l = true) : Keeps l u (((startMmove s x0 x1)).st) := by
  unfold Machine.startMmove
  try extract_lets
  repeat' with_reducible (first
      | assumption | exact Keeps.refl u | exact Area.sub_trans (by decide) hl | apply Keeps.moveA
      | apply Keeps.moveX | (apply Keeps.ite <;> intro _) | (apply Keeps.iteStart <;> intro _)
      | apply Keeps.start_stop | dsimp only)

theorem Keeps.startMrel (h : Keeps l u s) (x0 x1) (hl : Area.sub [.cores] l = true) : Keeps l u (((startMrel s x0 x1)).st) := by
  unfold Machine.startMrel
  try extract_lets
  repeat' with_reducible (first
      | assumption | exact Keeps.refl u | exact Area.sub_trans (by decide) hl | apply Keeps.modCore
      | (apply Keeps.ite <;> intro _) | (apply Keeps.iteStart <;> intro _) | apply Keeps.start_go
      | apply Keeps.start_wait | apply Keeps.start_stop | dsimp only)

theorem Keeps.startMatrix (h : Keeps l u s) (x0 x1) (hl : Area.sub [.fresh, .mem, .host, .chk, .reported, .regs,
    .cores, .mems, .hif, .board, .husk] l = true) : Keeps l u (((startMatrix s x0 x1)).st) := by
  unfold Machine.startMatrix
  try extract_lets
  repeat' with_reducible (first
      | assumption | exact Keeps.refl u | exact Area.sub_trans (by decide) hl | apply Keeps.startMma
      | apply Keeps.startMrd | apply Keeps.startMsd | apply Keeps.startMld | apply Keeps.startMmove
      | apply Keeps.startMrel | split | refine Keeps.of_eq_Start (by assumption) ?_ | dsimp only)

theorem Keeps.takeEntry (h : Keeps l u s) (x0 x1 x2 x3) (hl : Area.sub [.mem, .host, .chk, .reported, .regs,
    .cores, .mems, .hif, .board, .husk] l = true) : Keeps l u (((State.takeEntry s x0 x1 x2 x3)).s) := by
  unfold State.takeEntry
  try extract_lets
  repeat' with_reducible (first
      | assumption | exact Keeps.refl u | exact Area.sub_trans (by decide) hl | apply Keeps.engRead
      | apply Keeps.modCore | (apply Keeps.iteRd <;> intro _) | dsimp only)

theorem Keeps.vldTake (h : Keeps l u s) (x0 x1 x2) (hl : Area.sub [.fresh, .mem, .host, .chk, .reported, .regs,
    .cores, .mems, .hif, .board, .husk] l = true) : Keeps l u (((vldTake s x0 x1 x2)).st) := by
  induction x2 generalizing s x1 with
  | nil => exact h
  | cons y l ih => unfold Machine.vldTake; dsimp only; repeat' with_reducible (first
      | apply ih | assumption | exact Keeps.refl u | exact Area.sub_trans (by decide) hl | apply Keeps.takeEntry
      | apply Keeps.stopEcc | apply Keeps.modCore | apply Keeps.took | (apply Keeps.ite <;> intro _)
      | (apply Keeps.iteStart <;> intro _) | apply Keeps.start_go | apply Keeps.start_stop
      | (apply Keeps.itePair <;> intro _) | (apply Keeps.iteTriple <;> intro _) | split
      | refine Keeps.of_eq_Start (by assumption) ?_ | refine Keeps.of_start_go (by assumption) ?_
      | refine Keeps.of_start_stop (by assumption) ?_ | dsimp only)

theorem Keeps.startVld (h : Keeps l u s) (x0 x1) (hl : Area.sub [.fresh, .mem, .host, .chk, .reported, .regs,
    .cores, .mems, .hif, .board, .husk] l = true) : Keeps l u (((startVld s x0 x1)).st) := by
  unfold Machine.startVld
  try extract_lets
  repeat' with_reducible (first
      | assumption | exact Keeps.refl u | exact Area.sub_trans (by decide) hl | apply Keeps.vldTake
      | apply Keeps.engReads | apply Keeps.stopEcc | apply Keeps.modCore | (apply Keeps.ite <;> intro _)
      | (apply Keeps.iteStart <;> intro _) | apply Keeps.start_go | apply Keeps.start_fin
      | apply Keeps.start_stop | refine Keeps.foldl (fun _ _ _ => ?_) ?_
      | refine Keeps.foldlR (fun _ _ _ => ?_) ?_ | refine Keeps.foldlR2 (fun _ _ _ => ?_) ?_
      | refine Keeps.foldlL (fun _ _ _ => ?_) ?_ | (apply Keeps.itePair <;> intro _)
      | (apply Keeps.iteTriple <;> intro _) | split | refine Keeps.of_eq_Start (by assumption) ?_
      | refine Keeps.of_start_go (by assumption) ?_ | refine Keeps.of_start_fin (by assumption) ?_
      | refine Keeps.of_start_stop (by assumption) ?_ | refine Keeps.of_triple (by assumption) ?_ | dsimp only)

theorem Keeps.startVst (h : Keeps l u s) (x0 x1) (hl : Area.sub [.mem, .host, .chk, .reported, .regs, .cores,
    .mems, .hif, .board, .husk] l = true) : Keeps l u (((startVst s x0 x1)).st) := by
  unfold Machine.startVst
  try extract_lets
  repeat' with_reducible (first
      | assumption | exact Keeps.refl u | exact Area.sub_trans (by decide) hl | apply Keeps.engWrites
      | apply Keeps.stopEcc | (apply Keeps.ite <;> intro _) | (apply Keeps.iteStart <;> intro _)
      | apply Keeps.start_go | apply Keeps.start_fin | apply Keeps.start_stop
      | refine Keeps.foldl (fun _ _ _ => ?_) ?_ | refine Keeps.foldlR (fun _ _ _ => ?_) ?_
      | refine Keeps.foldlR2 (fun _ _ _ => ?_) ?_ | refine Keeps.foldlL (fun _ _ _ => ?_) ?_
      | (apply Keeps.itePair <;> intro _) | (apply Keeps.iteTriple <;> intro _) | dsimp only)

theorem Keeps.startVop (h : Keeps l u s) (x0 x1) (hl : Area.sub [.cores] l = true) : Keeps l u (((startVop s x0 x1)).st) := by
  unfold Machine.startVop
  try extract_lets
  repeat' with_reducible (first
      | assumption | exact Keeps.refl u | exact Area.sub_trans (by decide) hl | apply Keeps.modCore
      | (apply Keeps.ite <;> intro _) | (apply Keeps.iteStart <;> intro _) | apply Keeps.start_go
      | apply Keeps.start_fin | apply Keeps.start_stop | refine Keeps.foldl (fun _ _ _ => ?_) ?_
      | refine Keeps.foldlR (fun _ _ _ => ?_) ?_ | refine Keeps.foldlR2 (fun _ _ _ => ?_) ?_
      | refine Keeps.foldlL (fun _ _ _ => ?_) ?_ | (apply Keeps.itePair <;> intro _)
      | (apply Keeps.iteTriple <;> intro _) | split | refine Keeps.of_eq_Start (by assumption) ?_
      | refine Keeps.of_start_go (by assumption) ?_ | refine Keeps.of_start_fin (by assumption) ?_
      | refine Keeps.of_start_stop (by assumption) ?_ | dsimp only)

theorem Keeps.startVcvt (h : Keeps l u s) (x0 x1) (hl : Area.sub [.cores] l = true) : Keeps l u (((startVcvt s x0 x1)).st) := by
  unfold Machine.startVcvt
  try extract_lets
  repeat' with_reducible (first
      | assumption | exact Keeps.refl u | exact Area.sub_trans (by decide) hl | apply Keeps.modCore
      | (apply Keeps.ite <;> intro _) | (apply Keeps.iteStart <;> intro _) | apply Keeps.start_go
      | apply Keeps.start_stop | (apply Keeps.itePair <;> intro _) | (apply Keeps.iteTriple <;> intro _) | dsimp only)

theorem Keeps.startVala (h : Keeps l u s) (x0 x1) (hl : Area.sub [.mem, .host, .chk, .reported, .regs, .cores,
    .mems, .hif, .board, .husk] l = true) : Keeps l u (((startVala s x0 x1)).st) := by
  unfold Machine.startVala
  try dsimp only
  repeat' with_reducible (first
      | assumption | exact Keeps.refl u | exact Area.sub_trans (by decide) hl | apply Keeps.engRead
      | apply Keeps.stopEcc | apply Keeps.modCore | (apply Keeps.ite <;> intro _)
      | (apply Keeps.iteStart <;> intro _) | apply Keeps.start_go | apply Keeps.start_stop
      | refine Keeps.foldl (fun _ _ _ => ?_) ?_ | refine Keeps.foldlR (fun _ _ _ => ?_) ?_
      | refine Keeps.foldlR2 (fun _ _ _ => ?_) ?_ | refine Keeps.foldlL (fun _ _ _ => ?_) ?_
      | (apply Keeps.itePair <;> intro _) | (apply Keeps.iteTriple <;> intro _) | split
      | refine Keeps.of_eq_Start (by assumption) ?_ | refine Keeps.of_start_go (by assumption) ?_
      | refine Keeps.of_start_stop (by assumption) ?_ | dsimp only)

theorem Keeps.startVmove (h : Keeps l u s) (x0 x1) (hl : Area.sub [.cores] l = true) : Keeps l u (((startVmove s x0 x1)).st) := by
  unfold Machine.startVmove
  try extract_lets
  repeat' with_reducible (first
      | assumption | exact Keeps.refl u | exact Area.sub_trans (by decide) hl | apply Keeps.modCore
      | (apply Keeps.ite <;> intro _) | (apply Keeps.iteStart <;> intro _) | apply Keeps.start_go
      | apply Keeps.start_stop | refine Keeps.foldl (fun _ _ _ => ?_) ?_
      | refine Keeps.foldlR (fun _ _ _ => ?_) ?_ | refine Keeps.foldlR2 (fun _ _ _ => ?_) ?_
      | refine Keeps.foldlL (fun _ _ _ => ?_) ?_ | (apply Keeps.itePair <;> intro _)
      | (apply Keeps.iteTriple <;> intro _) | dsimp only)

theorem Keeps.startVrel (h : Keeps l u s) (x0 x1) (hl : Area.sub [.cores] l = true) : Keeps l u (((startVrel s x0 x1)).st) := by
  unfold Machine.startVrel
  try extract_lets
  repeat' with_reducible (first
      | assumption | exact Keeps.refl u | exact Area.sub_trans (by decide) hl | apply Keeps.modCore
      | (apply Keeps.ite <;> intro _) | (apply Keeps.iteStart <;> intro _) | apply Keeps.start_go
      | apply Keeps.start_stop | dsimp only)

theorem Keeps.startVector (h : Keeps l u s) (x0 x1) (hl : Area.sub [.fresh, .mem, .host, .chk, .reported, .regs,
    .cores, .mems, .hif, .board, .husk] l = true) : Keeps l u (((startVector s x0 x1)).st) := by
  unfold Machine.startVector
  try extract_lets
  repeat' with_reducible (first
      | assumption | exact Keeps.refl u | exact Area.sub_trans (by decide) hl | apply Keeps.startVld
      | apply Keeps.startVst | apply Keeps.startVop | apply Keeps.startVcvt | apply Keeps.startVala
      | apply Keeps.startVmove | apply Keeps.startVrel | (apply Keeps.ite <;> intro _)
      | (apply Keeps.iteStart <;> intro _) | apply Keeps.start_wait | split
      | refine Keeps.of_eq_Start (by assumption) ?_ | refine Keeps.of_start_wait (by assumption) ?_ | dsimp only)

theorem Keeps.startRspill (h : Keeps l u s) (x0 x1) (hl : Area.sub [.mem, .host, .chk, .reported, .regs, .cores,
    .mems, .hif, .board, .husk] l = true) : Keeps l u (((startRspill s x0 x1)).st) := by
  unfold Machine.startRspill
  try extract_lets
  repeat' with_reducible (first
      | assumption | exact Keeps.refl u | exact Area.sub_trans (by decide) hl | apply Keeps.engWrites
      | apply Keeps.stopEcc | apply Keeps.modCore | apply Keeps.count | (apply Keeps.ite <;> intro _)
      | (apply Keeps.iteStart <;> intro _) | apply Keeps.start_go | apply Keeps.start_fin
      | apply Keeps.start_stop | refine Keeps.foldl (fun _ _ _ => ?_) ?_
      | refine Keeps.foldlR (fun _ _ _ => ?_) ?_ | refine Keeps.foldlR2 (fun _ _ _ => ?_) ?_
      | refine Keeps.foldlL (fun _ _ _ => ?_) ?_ | (apply Keeps.itePair <;> intro _)
      | (apply Keeps.iteTriple <;> intro _) | dsimp only)

theorem Keeps.startRfill (h : Keeps l u s) (x0 x1) (hl : Area.sub [.mem, .host, .chk, .reported, .regs, .cores,
    .mems, .hif, .board, .husk] l = true) : Keeps l u (((startRfill s x0 x1)).st) := by
  unfold Machine.startRfill
  try dsimp only
  repeat' with_reducible (first
      | assumption | exact Keeps.refl u | exact Area.sub_trans (by decide) hl | apply Keeps.engRead
      | apply Keeps.stopEcc | apply Keeps.count | apply Keeps.modCore | (apply Keeps.ite <;> intro _)
      | (apply Keeps.iteStart <;> intro _) | apply Keeps.start_go | apply Keeps.start_fin
      | apply Keeps.start_stop | refine Keeps.foldl (fun _ _ _ => ?_) ?_ | split
      | refine Keeps.of_eq_Start (by assumption) ?_ | refine Keeps.of_start_go (by assumption) ?_
      | refine Keeps.of_start_fin (by assumption) ?_ | refine Keeps.of_start_stop (by assumption) ?_ | dsimp only)

theorem Keeps.rowStep (h : Keeps l u s) (x0 x1 x2 x3 x4) (hl : Area.sub [.mem, .host, .chk, .reported, .regs,
    .cores, .mems, .hif, .board, .husk] l = true) : Keeps l u (((rowStep s x0 x1 x2 x3 x4)).st) := by
  unfold Machine.rowStep
  try dsimp only
  repeat' with_reducible (first
      | assumption | exact Keeps.refl u | exact Area.sub_trans (by decide) hl | apply Keeps.engReads
      | apply Keeps.stopEcc | apply Keeps.engWrites | apply Keeps.count | apply Keeps.modCore
      | (apply Keeps.ite <;> intro _) | (apply Keeps.iteStart <;> intro _) | apply Keeps.start_go
      | apply Keeps.start_stop | refine Keeps.foldl (fun _ _ _ => ?_) ?_
      | refine Keeps.foldlR (fun _ _ _ => ?_) ?_ | refine Keeps.foldlR2 (fun _ _ _ => ?_) ?_
      | refine Keeps.foldlL (fun _ _ _ => ?_) ?_ | (apply Keeps.itePair <;> intro _)
      | (apply Keeps.iteTriple <;> intro _) | split | refine Keeps.of_triple (by assumption) ?_
      | refine Keeps.of_eq_Start (by assumption) ?_ | refine Keeps.of_start_go (by assumption) ?_
      | refine Keeps.of_start_stop (by assumption) ?_ | refine Keeps.of_pair (by assumption) ?_ | dsimp only)

theorem Keeps.rowsQueue (h : Keeps l u s) (x0 x1 x2 x3 x4) (hl : Area.sub [.mem, .host, .chk, .reported, .regs,
    .cores, .mems, .hif, .board, .husk] l = true) : Keeps l u (((rowsQueue s x0 x1 x2 x3 x4)).st) := by
  induction x4 generalizing s x1 x3 with
  | zero => exact h
  | succ n ih => unfold Machine.rowsQueue; dsimp only; repeat' with_reducible (first
      | apply ih | assumption | exact Keeps.refl u | exact Area.sub_trans (by decide) hl | apply Keeps.takeEntry
      | apply Keeps.stopEcc | apply Keeps.rowStep | (apply Keeps.ite <;> intro _)
      | (apply Keeps.iteStart <;> intro _) | apply Keeps.start_go | apply Keeps.start_stop | split
      | refine Keeps.of_eq_Start (by assumption) ?_ | refine Keeps.of_start_go (by assumption) ?_
      | refine Keeps.of_start_stop (by assumption) ?_ | dsimp only)

theorem Keeps.rowsFrom (h : Keeps l u s) (x0 x1 x2 x3 x4) (hl : Area.sub [.mem, .host, .chk, .reported, .regs,
    .cores, .mems, .hif, .board, .husk] l = true) : Keeps l u (((rowsFrom s x0 x1 x2 x3 x4)).st) := by
  induction x4 generalizing s x1 x3 with
  | zero => exact h
  | succ n ih =>
    unfold Machine.rowsFrom; split
    · exact ih (Keeps.of_start_go (by assumption) (Keeps.rowStep (hl := Area.sub_trans (by decide) hl) h ..)) ..
    · exact Keeps.rowStep (hl := Area.sub_trans (by decide) hl) h ..

theorem Keeps.startRowOp (h : Keeps l u s) (x0 x1) (hl : Area.sub [.mem, .host, .chk, .reported, .regs, .cores,
    .mems, .hif, .board, .husk] l = true) : Keeps l u (((startRowOp s x0 x1)).st) := by
  unfold Machine.startRowOp; dsimp only; repeat' with_reducible (first
      | assumption | exact Keeps.refl u | exact Area.sub_trans (by decide) hl | apply Keeps.engRead
      | apply Keeps.stopEcc | apply Keeps.rowsQueue | apply Keeps.rowsFrom | (apply Keeps.ite <;> intro _)
      | (apply Keeps.iteStart <;> intro _) | apply Keeps.start_fin | apply Keeps.start_stop
      | (apply Keeps.itePair <;> intro _) | (apply Keeps.iteTriple <;> intro _) | split
      | refine Keeps.of_eq_Start (by assumption) ?_ | refine Keeps.of_start_fin (by assumption) ?_
      | refine Keeps.of_start_stop (by assumption) ?_ | dsimp only)

theorem Keeps.startRow (h : Keeps l u s) (x0 x1) (hl : Area.sub [.mem, .host, .chk, .reported, .regs, .cores,
    .mems, .hif, .board, .husk] l = true) : Keeps l u (((startRow s x0 x1)).st) := by
  unfold Machine.startRow
  try extract_lets
  repeat' with_reducible (first
      | assumption | exact Keeps.refl u | exact Area.sub_trans (by decide) hl | apply Keeps.startRspill
      | apply Keeps.startRfill | apply Keeps.startRowOp | (apply Keeps.ite <;> intro _)
      | (apply Keeps.iteStart <;> intro _) | apply Keeps.start_wait | split
      | refine Keeps.of_eq_Start (by assumption) ?_ | refine Keeps.of_start_wait (by assumption) ?_ | dsimp only)

theorem Keeps.startTload (h : Keeps l u s) (x0 x1) (hl : Area.sub [.cores] l = true) : Keeps l u (((startTload s x0 x1)).st) := by
  unfold Machine.startTload
  try extract_lets
  repeat' with_reducible (first
      | assumption | exact Keeps.refl u | exact Area.sub_trans (by decide) hl | apply Keeps.modCore
      | (apply Keeps.ite <;> intro _) | (apply Keeps.iteStart <;> intro _) | apply Keeps.start_go
      | apply Keeps.start_fin | apply Keeps.start_stop | split | refine Keeps.of_eq_Start (by assumption) ?_
      | refine Keeps.of_start_go (by assumption) ?_ | refine Keeps.of_start_fin (by assumption) ?_
      | refine Keeps.of_start_stop (by assumption) ?_ | dsimp only)

theorem Keeps.startQcfg (h : Keeps l u s) (x0 x1) (hl : Area.sub [.cores] l = true) : Keeps l u (((startQcfg s x0 x1)).st) := by
  unfold Machine.startQcfg
  try extract_lets
  repeat' with_reducible (first
      | assumption | exact Keeps.refl u | exact Area.sub_trans (by decide) hl | apply Keeps.dropUnread
      | apply Keeps.modCore | (apply Keeps.ite <;> intro _) | (apply Keeps.iteStart <;> intro _)
      | apply Keeps.start_go | apply Keeps.start_wait | apply Keeps.start_stop | dsimp only)

theorem Keeps.startAprog (h : Keeps l u s) (x0 x1) (hl : Area.sub [.cores] l = true) : Keeps l u (((startAprog s x0 x1)).st) := by
  unfold Machine.startAprog
  try extract_lets
  repeat' with_reducible (first
      | assumption | exact Keeps.refl u | exact Area.sub_trans (by decide) hl | apply Keeps.modCore
      | (apply Keeps.ite <;> intro _) | (apply Keeps.iteStart <;> intro _) | apply Keeps.start_go
      | apply Keeps.start_fin | apply Keeps.start_wait | apply Keeps.start_stop | split
      | refine Keeps.of_eq_Start (by assumption) ?_ | refine Keeps.of_start_go (by assumption) ?_
      | refine Keeps.of_start_fin (by assumption) ?_ | refine Keeps.of_start_wait (by assumption) ?_
      | refine Keeps.of_start_stop (by assumption) ?_ | dsimp only)

theorem Keeps.images (h : Keeps l u s) (x0 x1 x2) (hl : Area.sub [.mem, .host, .chk, .reported, .regs, .cores,
    .mems, .hif, .board, .husk] l = true) : Keeps l u (((State.images s x0 x1 x2)).2.2) := by
  unfold State.images
  try extract_lets
  repeat' with_reducible (first
      | assumption | exact Keeps.refl u | exact Area.sub_trans (by decide) hl | apply Keeps.engReads
      | (apply Keeps.ite <;> intro _) | (apply Keeps.iteTriple <;> intro _) | dsimp only)

theorem Keeps.issueDamson (h : Keeps l u s) (x0 x1) (hl : Area.sub [.mem, .host, .chk, .reported, .regs, .cores,
    .mems, .damsons, .fab, .hif, .board, .husk] l = true) : Keeps l u (((State.issueDamson s x0 x1)).st) := by
  unfold State.issueDamson
  try extract_lets
  repeat' with_reducible (first
      | assumption | exact Keeps.refl u | exact Area.sub_trans (by decide) hl | apply Keeps.images
      | apply Keeps.setDam | (apply Keeps.ite <;> intro _) | (apply Keeps.iteIssue <;> intro _)
      | apply Keeps.issue_sent | apply Keeps.issue_stop | refine Keeps.foldl (fun _ _ _ => ?_) ?_
      | refine Keeps.foldlR (fun _ _ _ => ?_) ?_ | refine Keeps.foldlR2 (fun _ _ _ => ?_) ?_
      | refine Keeps.foldlL (fun _ _ _ => ?_) ?_
      | fail_if_no_progress refine Keeps.upd_fab ?_ (Area.sub_trans (by decide) hl)
      | (apply Keeps.itePair <;> intro _) | (apply Keeps.iteTriple <;> intro _) | split
      | refine Keeps.of_triple (by assumption) ?_ | refine Keeps.of_eq_Issue (by assumption) ?_
      | refine Keeps.of_issue_sent (by assumption) ?_ | refine Keeps.of_issue_stop (by assumption) ?_ | dsimp only)

theorem Keeps.startDamson (h : Keeps l u s) (x0 x1) (hl : Area.sub [.mem, .host, .chk, .reported, .regs, .cores,
    .mems, .damsons, .fab, .hif, .board, .husk] l = true) : Keeps l u (((startDamson s x0 x1)).st) := by
  unfold Machine.startDamson
  try extract_lets
  repeat' with_reducible (first
      | assumption | exact Keeps.refl u | exact Area.sub_trans (by decide) hl | apply Keeps.issueDamson
      | (apply Keeps.ite <;> intro _) | (apply Keeps.iteStart <;> intro _) | apply Keeps.start_go
      | apply Keeps.start_fin | apply Keeps.start_stop | split | refine Keeps.of_eq_Issue (by assumption) ?_
      | refine Keeps.of_issue_sent (by assumption) ?_ | refine Keeps.of_issue_stop (by assumption) ?_
      | refine Keeps.of_eq_Start (by assumption) ?_ | refine Keeps.of_start_go (by assumption) ?_
      | refine Keeps.of_start_fin (by assumption) ?_ | refine Keeps.of_start_stop (by assumption) ?_ | dsimp only)

theorem Keeps.sendReq (h : Keeps l u s) (x0 x1 x2 x3 x4 x5 x6) (hl : Area.sub [.fab] l = true) : Keeps l u ((State.sendReq s x0 x1 x2 x3 x4 x5 x6)) := by
  unfold State.sendReq
  try extract_lets
  repeat' with_reducible (first
      | assumption | exact Keeps.refl u | exact Area.sub_trans (by decide) hl | apply Keeps.inject
      | (apply Keeps.ite <;> intro _)
      | fail_if_no_progress refine Keeps.upd_fab ?_ (Area.sub_trans (by decide) hl) | dsimp only)

theorem Keeps.build (h : Keeps l u s) (x0 x1 x2 x3 x4 x5) (hl : Area.sub [.fab] l = true) : Keeps l u (((State.build s x0 x1 x2 x3 x4 x5)).st u) := by
  unfold State.build
  try extract_lets
  repeat' with_reducible (first
      | assumption | exact Keeps.refl u | exact Area.sub_trans (by decide) hl | apply Keeps.sendReq
      | (apply Keeps.ite <;> intro _) | (apply Keeps.iteBuilt <;> intro _) | exact Keeps.built_failed
      | exact Keeps.built_noTag | apply Keeps.built_sent | split | refine Keeps.of_eq_Built (by assumption) ?_
      | refine Keeps.of_built_sent (by assumption) ?_ | dsimp only)

theorem Keeps.fabAdvance (h : Keeps l u s) (x0 x1 x2) (hl : Area.sub [.fab] l = true) : Keeps l u (((State.fabAdvance s x0 x1 x2)).1) := by
  unfold State.fabAdvance
  try extract_lets
  repeat' with_reducible (first
      | assumption | exact Keeps.refl u | exact Area.sub_trans (by decide) hl | apply Keeps.build
      | (apply Keeps.ite <;> intro _) | (apply Keeps.itePairL <;> intro _) | split
      | refine Keeps.of_eq_Built (by assumption) ?_ | refine Keeps.of_built_sent (by assumption) ?_
      | refine Keeps.of_pairL (by assumption) ?_ | dsimp only)

theorem Keeps.localPlaces (h : Keeps l u s) (x0 x1 x2 x3) (hl : Area.sub [.host, .reported, .regs, .cores, .hif,
    .board, .husk] l = true) : Keeps l u (((localPlaces s x0 x1 x2 x3)).st u) := by
  unfold Machine.localPlaces
  try extract_lets
  repeat' with_reducible (first
      | assumption | exact Keeps.refl u | exact Area.sub_trans (by decide) hl | apply Keeps.missAcc
      | apply Keeps.xltFaultAcc | exact Keeps.localres_ok | exact Keeps.localres_bad | apply Keeps.localres_block
      | split | refine Keeps.of_eq_LocalRes (by assumption) ?_
      | refine Keeps.of_localres_block (by assumption) ?_ | dsimp only)

theorem Keeps.getPart (h : Keeps l u s) (x0 x1 x2) (hl : Area.sub [.host, .reported, .regs, .cores, .fab, .hif,
    .board, .husk] l = true) : Keeps l u ((startSum (getPart s x0 x1 x2))) := by
  unfold Machine.getPart
  try dsimp only
  repeat' with_reducible (first
      | assumption | exact Keeps.refl u | exact Area.sub_trans (by decide) hl | apply Keeps.build
      | apply Keeps.localPlaces | (apply Keeps.ite <;> intro _) | apply Keeps.startSum_inl
      | apply Keeps.startSum_inr | (apply Keeps.itestartSum <;> intro _) | apply Keeps.start_hold
      | apply Keeps.start_stop | split | refine Keeps.of_eq_Built (by assumption) ?_
      | refine Keeps.of_built_sent (by assumption) ?_ | refine Keeps.of_eq_LocalRes (by assumption) ?_
      | refine Keeps.of_localres_block (by assumption) ?_ | refine Keeps.of_startSum_inr (by assumption) ?_
      | refine Keeps.of_startSum_inl (by assumption) ?_ | refine Keeps.of_startSum_inl_go (by assumption) ?_
      | refine Keeps.of_startSum_inl_stop (by assumption) ?_
      | refine Keeps.of_startSum_inl_hold (by assumption) ?_
      | refine Keeps.of_startSum_inl_fin (by assumption) ?_ | dsimp only)

theorem Keeps.readPack (h : Keeps l u s) (x0 x1 x2 x3) (hl : Area.sub [.mem, .host, .chk, .reported, .regs,
    .cores, .mems, .hif, .board, .husk] l = true) : Keeps l u (((readPack x0 x1 s x2 x3)).2) := by
  induction x2 generalizing s x3 with
  | nil => exact h
  | cons y l ih => unfold Machine.readPack; dsimp only; repeat' with_reducible (first
      | apply ih | assumption | exact Keeps.refl u | exact Area.sub_trans (by decide) hl | apply Keeps.getPlace
      | (apply Keeps.itePair <;> intro _) | split | refine Keeps.of_pair (by assumption) ?_ | dsimp only)

theorem Keeps.putPart (h : Keeps l u s) (x0 x1 x2) (hl : Area.sub [.mem, .host, .chk, .reported, .regs, .cores,
    .mems, .fab, .hif, .board, .husk] l = true) : Keeps l u ((startSum (putPart s x0 x1 x2))) := by
  unfold Machine.putPart; dsimp only; repeat' with_reducible (first
      | assumption | exact Keeps.refl u | exact Area.sub_trans (by decide) hl | apply Keeps.localPlaces
      | apply Keeps.readPack | apply Keeps.build | (apply Keeps.ite <;> intro _) | apply Keeps.startSum_inl
      | apply Keeps.startSum_inr | (apply Keeps.itestartSum <;> intro _) | apply Keeps.start_hold
      | apply Keeps.start_stop | (apply Keeps.itePair <;> intro _) | (apply Keeps.iteTriple <;> intro _) | split
      | refine Keeps.of_eq_LocalRes (by assumption) ?_ | refine Keeps.of_localres_block (by assumption) ?_
      | refine Keeps.of_pair (by assumption) ?_ | refine Keeps.of_eq_Built (by assumption) ?_
      | refine Keeps.of_built_sent (by assumption) ?_ | refine Keeps.of_startSum_inr (by assumption) ?_
      | refine Keeps.of_startSum_inl (by assumption) ?_ | refine Keeps.of_startSum_inl_go (by assumption) ?_
      | refine Keeps.of_startSum_inl_stop (by assumption) ?_
      | refine Keeps.of_startSum_inl_hold (by assumption) ?_
      | refine Keeps.of_startSum_inl_fin (by assumption) ?_ | dsimp only)

theorem Keeps.sendParts (h : Keeps l u s) (x0 x1 x2) (hl : Area.sub [.mem, .host, .chk, .reported, .regs, .cores,
    .mems, .fab, .hif, .board, .husk] l = true) : Keeps l u (((sendParts x0 s x1 x2)).st) := by
  induction x2 generalizing s x1 with
  | nil => exact Keeps.fabAdvance (hl := Area.sub_trans (by decide) hl) h ..
  | cons x xs ih =>
    unfold Machine.sendParts
    have hp : Keeps l u (startSum (if cOpc x1.w = 0x61 then Machine.getPart s x0 x1 x else Machine.putPart s x0 x1 x)) := by
      split
      · exact Keeps.getPart (hl := Area.sub_trans (by decide) hl) h ..
      · exact Keeps.putPart (hl := Area.sub_trans (by decide) hl) h ..
    split
    · exact Keeps.of_startSum_inl (by assumption) hp
    · exact ih (Keeps.of_startSum_inr (by assumption) hp) _

theorem Keeps.startFabric (h : Keeps l u s) (x0 x1) (hl : Area.sub [.mem, .host, .chk, .reported, .regs, .cores,
    .mems, .fab, .hif, .board, .husk] l = true) : Keeps l u (((startFabric s x0 x1)).st) := by
  unfold Machine.startFabric
  try extract_lets
  repeat' with_reducible (first
      | assumption | exact Keeps.refl u | exact Area.sub_trans (by decide) hl | apply Keeps.fabAdvance
      | apply Keeps.build | apply Keeps.sendParts | (apply Keeps.ite <;> intro _)
      | (apply Keeps.iteStart <;> intro _) | apply Keeps.start_go | apply Keeps.start_fin
      | apply Keeps.start_hold | apply Keeps.start_stop
      | fail_if_no_progress refine Keeps.upd_fab ?_ (Area.sub_trans (by decide) hl)
      | (apply Keeps.itePair <;> intro _) | (apply Keeps.iteTriple <;> intro _) | split
      | refine Keeps.of_pairL (by assumption) ?_ | refine Keeps.of_eq_Built (by assumption) ?_
      | refine Keeps.of_built_sent (by assumption) ?_ | refine Keeps.of_eq_Start (by assumption) ?_
      | refine Keeps.of_start_go (by assumption) ?_ | refine Keeps.of_start_fin (by assumption) ?_
      | refine Keeps.of_start_hold (by assumption) ?_ | refine Keeps.of_start_stop (by assumption) ?_ | dsimp only)

theorem Keeps.blocked (h : Keeps l u s) (x0 x1 x2 x3) (hl : Area.sub [.host, .reported, .regs, .cores, .hif,
    .board, .husk] l = true) : Keeps l u (((blocked s x0 x1 x2 x3)).getD u) := by
  unfold Machine.blocked
  try extract_lets
  repeat' with_reducible (first
      | assumption | exact Keeps.refl u | exact Area.sub_trans (by decide) hl | apply Keeps.missAcc
      | apply Keeps.xltFaultAcc | (apply Keeps.iteOpt <;> intro _) | apply Keeps.opt_some | apply Keeps.opt_none
      | split | refine Keeps.of_some (by assumption) ?_ | dsimp only)

theorem Keeps.rewritten (h : Keeps l u s) (x0 x1 x2) (hl : Area.sub [.cores] l = true) : Keeps l u ((State.rewritten s x0 x1 x2)) := by
  unfold State.rewritten
  try extract_lets
  repeat' with_reducible (first
      | assumption | exact Keeps.refl u | exact Area.sub_trans (by decide) hl | apply Keeps.dropUnread
      | (apply Keeps.ite <;> intro _) | dsimp only)

theorem Keeps.copied (h : Keeps l u s) (x0 x1 x2) (hl : Area.sub [.cores] l = true) : Keeps l u ((State.copied s x0 x1 x2)) := by
  unfold State.copied
  try extract_lets
  repeat' with_reducible (first
      | assumption | exact Keeps.refl u | exact Area.sub_trans (by decide) hl | apply Keeps.modCore
      | refine Keeps.foldl (fun _ _ _ => ?_) ?_ | dsimp only)

theorem Keeps.putPlace (h : Keeps l u s) (x0 x1 x2 x3 x4) (hl : Area.sub [.fresh, .mem, .host, .chk, .reported,
    .lines, .regs, .cores, .mems, .damsons, .hif, .board,
    .husk] l = true) : Keeps l u (((State.putPlace s x0 x1 x2 x3 x4)).2) := by
  unfold State.putPlace; extract_lets slab
  clear_value slab
  dsimp only
  repeat' with_reducible (first
      | assumption | exact Keeps.refl u | exact Area.sub_trans (by decide) hl | apply Keeps.writeVia
      | apply Keeps.writeAt | apply Keeps.rewritten | apply Keeps.copied | (apply Keeps.ite <;> intro _)
      | (apply Keeps.itePair <;> intro _) | (apply Keeps.itePair <;> intro _)
      | (apply Keeps.iteTriple <;> intro _) | split | refine Keeps.of_pair (by assumption) ?_ | dsimp only)

theorem Keeps.writePlaces (h : Keeps l u s) (x0 x1 x2 x3 x4 x5 x6) (hl : Area.sub [.fresh, .mem, .host, .chk,
    .reported, .lines, .regs, .cores, .mems, .damsons, .hif, .board,
    .husk] l = true) : Keeps l u (((writePlaces x0 x1 x2 x3 x4 s x5 x6)).2) := by
  induction x5 generalizing s x6 with
  | nil => exact h
  | cons y l ih => unfold Machine.writePlaces; dsimp only; repeat' with_reducible (first
      | apply ih | assumption | exact Keeps.refl u | exact Area.sub_trans (by decide) hl | apply Keeps.putPlace
      | (apply Keeps.ite <;> intro _) | (apply Keeps.itePair <;> intro _) | (apply Keeps.itePair <;> intro _)
      | (apply Keeps.iteTriple <;> intro _) | split | refine Keeps.of_pair (by assumption) ?_ | dsimp only)

theorem Keeps.moveChunk (h : Keeps l u s) (x0 x1 x2 x3 x4 x5 x6) (hl : Area.sub [.fresh, .mem, .host, .chk,
    .reported, .lines, .regs, .cores, .mems, .damsons, .hif, .board,
    .husk] l = true) : Keeps l u (((moveChunk s x0 x1 x2 x3 x4 x5 x6)).st) := by
  unfold Machine.moveChunk
  try extract_lets
  repeat' with_reducible (first
      | assumption | exact Keeps.refl u | exact Area.sub_trans (by decide) hl | apply Keeps.missAcc
      | apply Keeps.xltFaultAcc | apply Keeps.readPlaces | apply Keeps.writePlaces | apply Keeps.progress
      | apply Keeps.count | (apply Keeps.ite <;> intro _) | (apply Keeps.iteMove <;> intro _)
      | apply Keeps.move_ok | apply Keeps.move_block | (apply Keeps.itePair <;> intro _)
      | (apply Keeps.iteTriple <;> intro _) | split | refine Keeps.of_pair (by assumption) ?_
      | refine Keeps.of_eq_Move (by assumption) ?_ | refine Keeps.of_move_ok (by assumption) ?_
      | refine Keeps.of_move_block (by assumption) ?_ | dsimp only)

theorem Keeps.moveRow (h : Keeps l u s) (x0 x1 x2 x3 x4 x5) (hl : Area.sub [.fresh, .mem, .host, .chk, .reported,
    .lines, .regs, .cores, .mems, .damsons, .hif, .board,
    .husk] l = true) : Keeps l u (((moveRow x0 x1 x2 x3 s x4 x5)).st) := by
  induction x5 generalizing s x4 with
  | zero => exact h
  | succ n ih =>
    unfold Machine.moveRow; dsimp only; split
    · exact h
    · split
      · exact ih (Keeps.of_move_ok (by assumption) (Keeps.moveChunk (hl := Area.sub_trans (by decide) hl) h ..)) _
      · exact Keeps.moveChunk (hl := Area.sub_trans (by decide) hl) h ..

theorem Keeps.moveWhole (h : Keeps l u s) (x0 x1 x2 x3 x4) (hl : Area.sub [.fresh, .mem, .host, .chk, .reported,
    .lines, .regs, .cores, .mems, .damsons, .hif, .board,
    .husk] l = true) : Keeps l u (((moveWhole x0 x1 x2 x3 s x4)).st) := by
  unfold Machine.moveWhole
  try extract_lets
  repeat' with_reducible (first
      | assumption | exact Keeps.refl u | exact Area.sub_trans (by decide) hl | apply Keeps.blocked
      | apply Keeps.moveRow | apply Keeps.move_block | split | refine Keeps.of_some (by assumption) ?_
      | refine Keeps.of_eq_Move (by assumption) ?_ | refine Keeps.of_move_block (by assumption) ?_ | dsimp only)

end Sys2Proof.Machine
end

