-- ==== Sys2Proof/Laws/Keeps3.lean ====
section
/-! SUPPORT. What the operations keep, part 3 of 6: each operation changes only the parts it lists -/

namespace Sys2Proof.Machine

variable {l : List Area} {u s : State}

theorem Keeps.pushTail (h : Keeps l u s) (x0 x1) (hl : Area.sub [.cores] l = true) : Keeps l u ((State.pushTail s x0 x1)) := by
  unfold State.pushTail
  try extract_lets
  repeat' with_reducible (first
      | assumption | exact Keeps.refl u | exact Area.sub_trans (by decide) hl | apply Keeps.modCore | split
      | dsimp only)

theorem Keeps.moveRows (h : Keeps l u s) (x0 x1 x2 x3) (hl : Area.sub [.fresh, .mem, .host, .chk, .reported,
    .lines, .regs, .cores, .mems, .damsons, .hif, .board,
    .husk] l = true) : Keeps l u (((moveRows x0 x1 s x2 x3)).st) := by
  induction x3 generalizing s x2 with
  | zero => exact h
  | succ n ih => unfold Machine.moveRows; dsimp only; repeat' with_reducible (first
      | apply ih | assumption | exact Keeps.refl u | exact Area.sub_trans (by decide) hl | apply Keeps.moveWhole
      | apply Keeps.pushTail | (apply Keeps.ite <;> intro _) | (apply Keeps.iteMove <;> intro _)
      | apply Keeps.move_ok | apply Keeps.move_block | apply Keeps.move_stop | split
      | refine Keeps.of_eq_Move (by assumption) ?_ | refine Keeps.of_move_ok (by assumption) ?_
      | refine Keeps.of_move_block (by assumption) ?_ | refine Keeps.of_move_stop (by assumption) ?_ | dsimp only)

theorem Keeps.runPlan (h : Keeps l u s) (x0 x1) (hl : Area.sub [.fresh, .mem, .host, .chk, .reported, .lines,
    .regs, .cores, .mems, .damsons, .hif, .board, .husk] l = true) : Keeps l u (((runPlan s x0 x1)).st) := by
  unfold Machine.runPlan
  try extract_lets
  repeat' with_reducible (first
      | assumption | exact Keeps.refl u | exact Area.sub_trans (by decide) hl | apply Keeps.moveRows | dsimp only)

theorem Keeps.skWrite (h : Keeps l u s) (x0 x1 x2 x3) (hl : Area.sub [.fresh, .mem, .host, .chk, .reported,
    .lines, .regs, .cores, .mems, .damsons, .hif, .board,
    .husk] l = true) : Keeps l u (((skWrite x0 x1 x2 s x3)).st) := by
  unfold Machine.skWrite
  try extract_lets
  repeat' with_reducible (first
      | assumption | exact Keeps.refl u | exact Area.sub_trans (by decide) hl | apply Keeps.blocked
      | apply Keeps.writePlaces | apply Keeps.progress | apply Keeps.count | (apply Keeps.ite <;> intro _)
      | (apply Keeps.iteMove <;> intro _) | apply Keeps.move_ok | apply Keeps.move_block | apply Keeps.move_stop
      | refine Keeps.foldl (fun _ _ _ => ?_) ?_ | refine Keeps.foldlR (fun _ _ _ => ?_) ?_
      | refine Keeps.foldlR2 (fun _ _ _ => ?_) ?_ | refine Keeps.foldlL (fun _ _ _ => ?_) ?_
      | (apply Keeps.itePair <;> intro _) | (apply Keeps.iteTriple <;> intro _) | split
      | refine Keeps.of_some (by assumption) ?_ | refine Keeps.of_pair (by assumption) ?_
      | refine Keeps.of_eq_Move (by assumption) ?_ | refine Keeps.of_move_ok (by assumption) ?_
      | refine Keeps.of_move_block (by assumption) ?_ | refine Keeps.of_move_stop (by assumption) ?_ | dsimp only)

theorem Keeps.skStreamsFrom (h : Keeps l u s) (x0 x1 x2 x3) (hl : Area.sub [.fresh, .mem, .host, .chk, .reported,
    .lines, .regs, .cores, .mems, .damsons, .hif, .board,
    .husk] l = true) : Keeps l u (((skStreamsFrom x0 x1 s x2 x3)).st) := by
  induction x3 generalizing s x2 with
  | zero => exact h
  | succ n ih => unfold Machine.skStreamsFrom; dsimp only; repeat' with_reducible (first
      | apply ih | assumption | exact Keeps.refl u | exact Area.sub_trans (by decide) hl | apply Keeps.skWrite
      | apply Keeps.pushTail | (apply Keeps.ite <;> intro _) | (apply Keeps.iteMove <;> intro _)
      | apply Keeps.move_ok | apply Keeps.move_block | apply Keeps.move_stop | split
      | refine Keeps.of_eq_Move (by assumption) ?_ | refine Keeps.of_move_ok (by assumption) ?_
      | refine Keeps.of_move_block (by assumption) ?_ | refine Keeps.of_move_stop (by assumption) ?_ | dsimp only)

theorem Keeps.skRow (h : Keeps l u s) (x0 x1 x2 x3) (hl : Area.sub [.mem, .host, .chk, .reported, .regs, .cores,
    .mems, .hif, .board, .husk] l = true) : Keeps l u (((skRow x0 s x1 x2 x3)).2) := by
  unfold Machine.skRow
  try extract_lets
  repeat' with_reducible (first
      | assumption | exact Keeps.refl u | exact Area.sub_trans (by decide) hl | apply Keeps.getPlace
      | (apply Keeps.ite <;> intro _) | (apply Keeps.itePair <;> intro _)
      | refine Keeps.foldl (fun _ _ _ => ?_) ?_ | refine Keeps.foldlR (fun _ _ _ => ?_) ?_
      | refine Keeps.foldlR2 (fun _ _ _ => ?_) ?_ | refine Keeps.foldlL (fun _ _ _ => ?_) ?_
      | (apply Keeps.itePair <;> intro _) | (apply Keeps.iteTriple <;> intro _) | split
      | refine Keeps.of_pair (by assumption) ?_ | dsimp only)

theorem Keeps.skRead (h : Keeps l u s) (x0 x1) (hl : Area.sub [.mem, .host, .chk, .reported, .regs, .cores, .mems,
    .hif, .board, .husk] l = true) : Keeps l u ((sumR (skRead x0 s x1))) := by
  unfold Machine.skRead
  split
  · rename_i t e
    obtain ⟨p, _, hp⟩ := List.exists_of_findSome?_eq_some e
    exact Keeps.of_some hp (Keeps.blocked (hl := Area.sub_trans (by decide) hl) h ..)
  · repeat' with_reducible (first
      | assumption | exact Keeps.refl u | exact Area.sub_trans (by decide) hl | apply Keeps.blocked
      | apply Keeps.skRow | (apply Keeps.itePair <;> intro _) | apply Keeps.sumR_inl | apply Keeps.sumR_inr
      | (apply Keeps.itesumR <;> intro _) | refine Keeps.foldl (fun _ _ _ => ?_) ?_
      | refine Keeps.foldlR (fun _ _ _ => ?_) ?_ | refine Keeps.foldlR2 (fun _ _ _ => ?_) ?_
      | refine Keeps.foldlL (fun _ _ _ => ?_) ?_ | split | refine Keeps.of_some (by assumption) ?_
      | refine Keeps.of_pair (by assumption) ?_ | refine Keeps.of_sumR_inr (by assumption) ?_
      | refine Keeps.of_sumR_inl (by assumption) ?_ | dsimp only)

theorem Keeps.runSkew (h : Keeps l u s) (x0) (hl : Area.sub [.fresh, .mem, .host, .chk, .reported, .lines, .regs,
    .cores, .mems, .damsons, .hif, .board, .husk] l = true) : Keeps l u (((runSkew s x0)).st) := by
  unfold Machine.runSkew
  try extract_lets
  repeat' with_reducible (first
      | assumption | exact Keeps.refl u | exact Area.sub_trans (by decide) hl | apply Keeps.skStreamsFrom
      | apply Keeps.skRead | apply Keeps.move_block | split | refine Keeps.of_eq_Move (by assumption) ?_
      | refine Keeps.of_move_block (by assumption) ?_ | refine Keeps.of_sumR_inr (by assumption) ?_
      | refine Keeps.of_sumR_inl (by assumption) ?_ | dsimp only)

theorem Keeps.itemIndex (h : Keeps l u s) (x0 x1 x2 x3) (hl : Area.sub [.mem, .host, .chk, .reported, .regs,
    .cores, .mems, .hif, .board, .husk] l = true) : Keeps l u (((itemIndex s x0 x1 x2 x3)).2) := by
  unfold Machine.itemIndex
  try extract_lets
  repeat' with_reducible (first
      | assumption | exact Keeps.refl u | exact Area.sub_trans (by decide) hl | apply Keeps.engRead
      | (apply Keeps.ite <;> intro _) | (apply Keeps.itePair <;> intro _) | dsimp only)

theorem Keeps.failItem (h : Keeps l u s) (x0 x1 x2 x3 x4 x5 x6) (hl : Area.sub [.fresh, .mem, .host, .chk,
    .reported, .lines, .regs, .cores, .mems, .damsons, .hif, .board,
    .husk] l = true) : Keeps l u (((failItem x0 x1 x2 x3 x4 s x5 x6)).st) := by
  unfold Machine.failItem
  try extract_lets
  repeat' with_reducible (first
      | assumption | exact Keeps.refl u | exact Area.sub_trans (by decide) hl | apply Keeps.blocked
      | apply Keeps.pushTail | apply Keeps.writePlaces | (apply Keeps.ite <;> intro _)
      | (apply Keeps.iteMove <;> intro _) | apply Keeps.move_ok | apply Keeps.move_block
      | (apply Keeps.itePair <;> intro _) | (apply Keeps.iteTriple <;> intro _) | split
      | refine Keeps.of_some (by assumption) ?_ | refine Keeps.of_pair (by assumption) ?_
      | refine Keeps.of_eq_Move (by assumption) ?_ | refine Keeps.of_move_ok (by assumption) ?_
      | refine Keeps.of_move_block (by assumption) ?_ | dsimp only)

theorem Keeps.moveItem (h : Keeps l u s) (x0 x1) (hl : Area.sub [.fresh, .mem, .host, .chk, .reported, .lines,
    .regs, .cores, .mems, .damsons, .hif, .board, .husk] l = true) : Keeps l u (((moveItem x0 s x1)).st) := by
  unfold Machine.moveItem
  extract_lets w i ib gather next fail qi o dg
  have hx := Keeps.itemIndex (hl := Area.sub_trans (by decide) hl) h x0.c x0.ctx w i
  clear_value next fail qi o dg i ib
  split
  · exact h
  · split
    · exact h
    · split
      · exact Keeps.failItem (hl := Area.sub_trans (by decide) hl) (Keeps.of_pair (by assumption) hx) ..
      · have h2 := Keeps.of_pair (by assumption) hx
        split
        · exact h2
        · extract_lets far x
          clear_value far x
          split
          · exact Keeps.failItem (hl := Area.sub_trans (by decide) hl) h2 ..
          · have h3 := Keeps.moveWhole (hl := Area.sub_trans (by decide) hl) h2 x0 x 0 (if gather then dg else far) x1
            split
            · exact Keeps.pushTail (hl := Area.sub_trans (by decide) hl) (Keeps.of_move_ok (by assumption) h3) ..
            · exact h3

theorem Keeps.moveItems (h : Keeps l u s) (x0 x1 x2) (hl : Area.sub [.fresh, .mem, .host, .chk, .reported, .lines,
    .regs, .cores, .mems, .damsons, .hif, .board, .husk] l = true) : Keeps l u (((moveItems x0 s x1 x2)).st) := by
  induction x2 generalizing s x1 with
  | zero => exact h
  | succ n ih => unfold Machine.moveItems; repeat' with_reducible (first
      | apply ih | assumption | exact Keeps.refl u | exact Area.sub_trans (by decide) hl | apply Keeps.moveItem
      | (apply Keeps.ite <;> intro _) | (apply Keeps.iteMove <;> intro _) | apply Keeps.move_ok | split
      | refine Keeps.of_eq_Move (by assumption) ?_ | refine Keeps.of_move_ok (by assumption) ?_ | dsimp only)

theorem Keeps.copyToSlab (h : Keeps l u s) (x0 x1 x2 x3 x4) (hl : Area.sub [.mem, .host, .chk, .reported, .regs,
    .cores, .mems, .hif, .board, .husk] l = true) : Keeps l u (((State.copyToSlab s x0 x1 x2 x3 x4)).2) := by
  unfold State.copyToSlab
  try extract_lets
  repeat' with_reducible (first
      | assumption | exact Keeps.refl u | exact Area.sub_trans (by decide) hl | apply Keeps.writeDie
      | apply Keeps.rewritten | apply Keeps.copied | (apply Keeps.ite <;> intro _)
      | (apply Keeps.itePair <;> intro _) | (apply Keeps.itePair <;> intro _)
      | (apply Keeps.iteTriple <;> intro _) | dsimp only)

theorem Keeps.mcastChunk (h : Keeps l u s) (x0 x1 x2 x3 x4) (hl : Area.sub [.mem, .host, .chk, .reported, .regs,
    .cores, .mems, .hif, .board, .husk] l = true) : Keeps l u (((mcastChunk x0 x1 x2 x3 s x4)).1) := by
  unfold Machine.mcastChunk
  try extract_lets
  repeat' with_reducible (first
      | assumption | exact Keeps.refl u | exact Area.sub_trans (by decide) hl | apply Keeps.copyToSlab
      | apply Keeps.progress | apply Keeps.count | (apply Keeps.ite <;> intro _)
      | (apply Keeps.itePairL <;> intro _) | refine Keeps.foldl (fun _ _ _ => ?_) ?_
      | refine Keeps.foldlR (fun _ _ _ => ?_) ?_ | refine Keeps.foldlR2 (fun _ _ _ => ?_) ?_
      | refine Keeps.foldlL (fun _ _ _ => ?_) ?_ | (apply Keeps.itePair <;> intro _)
      | (apply Keeps.iteTriple <;> intro _) | split | refine Keeps.of_pair (by assumption) ?_
      | refine Keeps.of_pairL (by assumption) ?_ | dsimp only)

theorem Keeps.mcastRow (h : Keeps l u s) (x0 x1 x2 x3) (hl : Area.sub [.mem, .host, .chk, .reported, .regs,
    .cores, .mems, .hif, .board, .husk] l = true) : Keeps l u (((mcastRow x0 x1 s x2 x3)).st) := by
  induction x3 generalizing s x2 with
  | zero => exact h
  | succ n ih => unfold Machine.mcastRow; dsimp only; repeat' with_reducible (first
      | apply ih | assumption | exact Keeps.refl u | exact Area.sub_trans (by decide) hl | apply Keeps.missAcc
      | apply Keeps.xltFaultAcc | apply Keeps.readPlaces | apply Keeps.mcastChunk | (apply Keeps.ite <;> intro _)
      | (apply Keeps.iteMove <;> intro _) | apply Keeps.move_ok | apply Keeps.move_block | apply Keeps.move_stop
      | (apply Keeps.itePair <;> intro _) | (apply Keeps.iteTriple <;> intro _) | split
      | refine Keeps.of_pair (by assumption) ?_ | refine Keeps.of_pairL (by assumption) ?_
      | refine Keeps.of_eq_Move (by assumption) ?_ | refine Keeps.of_move_ok (by assumption) ?_
      | refine Keeps.of_move_block (by assumption) ?_ | refine Keeps.of_move_stop (by assumption) ?_ | dsimp only)

theorem Keeps.mcastRows (h : Keeps l u s) (x0 x1 x2) (hl : Area.sub [.mem, .host, .chk, .reported, .regs, .cores,
    .mems, .hif, .board, .husk] l = true) : Keeps l u (((mcastRows x0 s x1 x2)).st) := by
  induction x2 generalizing s x1 with
  | zero => exact h
  | succ n ih => unfold Machine.mcastRows; dsimp only; repeat' with_reducible (first
      | apply ih | assumption | exact Keeps.refl u | exact Area.sub_trans (by decide) hl | apply Keeps.mcastRow
      | (apply Keeps.ite <;> intro _) | (apply Keeps.iteMove <;> intro _) | apply Keeps.move_ok | split
      | refine Keeps.of_eq_Move (by assumption) ?_ | refine Keeps.of_move_ok (by assumption) ?_ | dsimp only)

theorem Keeps.runMove (h : Keeps l u s) (x0) (hl : Area.sub [.fresh, .mem, .host, .chk, .reported, .lines, .regs,
    .cores, .mems, .damsons, .hif, .board, .husk] l = true) : Keeps l u (((runMove s x0)).st) := by
  unfold Machine.runMove
  try extract_lets
  repeat' with_reducible (first
      | assumption | exact Keeps.refl u | exact Area.sub_trans (by decide) hl | apply Keeps.runPlan
      | apply Keeps.runSkew | apply Keeps.moveItems | apply Keeps.mcastRows | split
      | refine Keeps.of_eq_Move (by assumption) ?_ | dsimp only)

theorem Keeps.startMove (h : Keeps l u s) (x0 x1) (hl : Area.sub [.fresh, .mem, .host, .chk, .reported, .lines,
    .regs, .cores, .mems, .damsons, .hif, .board, .husk] l = true) : Keeps l u (((startMove s x0 x1)).st) := by
  unfold Machine.startMove
  try extract_lets
  repeat' with_reducible (first
      | assumption | exact Keeps.refl u | exact Area.sub_trans (by decide) hl | apply Keeps.runMove
      | (apply Keeps.ite <;> intro _) | (apply Keeps.iteStart <;> intro _) | apply Keeps.start_go
      | apply Keeps.start_fin | apply Keeps.start_hold | apply Keeps.start_stop | split
      | refine Keeps.of_eq_Move (by assumption) ?_ | refine Keeps.of_move_ok (by assumption) ?_
      | refine Keeps.of_move_block (by assumption) ?_ | refine Keeps.of_move_stop (by assumption) ?_
      | refine Keeps.of_eq_Start (by assumption) ?_ | refine Keeps.of_start_go (by assumption) ?_
      | refine Keeps.of_start_fin (by assumption) ?_ | refine Keeps.of_start_hold (by assumption) ?_
      | refine Keeps.of_start_stop (by assumption) ?_ | dsimp only)

theorem Keeps.startAccess (h : Keeps l u s) (x0 x1) (hl : Area.sub [.fresh, .mem, .host, .chk, .reported, .lines,
    .regs, .cores, .mems, .damsons, .fab, .hif, .board,
    .husk] l = true) : Keeps l u (((startAccess s x0 x1)).st) := by
  unfold Machine.startAccess
  try extract_lets
  repeat' with_reducible (first
      | assumption | exact Keeps.refl u | exact Area.sub_trans (by decide) hl | apply Keeps.startTload
      | apply Keeps.startQcfg | apply Keeps.startAprog | apply Keeps.startDamson | apply Keeps.startFabric
      | apply Keeps.startMove | (apply Keeps.ite <;> intro _) | (apply Keeps.iteStart <;> intro _)
      | apply Keeps.start_wait | split | refine Keeps.of_eq_Start (by assumption) ?_
      | refine Keeps.of_start_wait (by assumption) ?_ | dsimp only)

theorem Keeps.startOn (h : Keeps l u s) (x0 x1 x2) (hl : Area.sub [.fresh, .mem, .host, .chk, .reported, .lines,
    .regs, .cores, .mems, .damsons, .fab, .hif, .board, .husk] l = true) : Keeps l u (((startOn s x0 x1 x2)).st) := by
  unfold Machine.startOn
  try extract_lets
  repeat' with_reducible (first
      | assumption | exact Keeps.refl u | exact Area.sub_trans (by decide) hl | apply Keeps.startMatrix
      | apply Keeps.startVector | apply Keeps.startRow | apply Keeps.startAccess | split
      | refine Keeps.of_eq_Start (by assumption) ?_ | dsimp only)

theorem Keeps.stopProgram (h : Keeps l u s) (x0 x1 x2 x3) (hl : Area.sub [.fresh, .mem, .host, .chk, .reported,
    .lines, .regs, .cores, .clusters, .mems, .damsons, .sync, .fab, .hif, .board,
    .husk] l = true) : Keeps l u ((State.stopProgram s x0 x1 x2 x3)) := by
  unfold State.stopProgram
  try extract_lets
  repeat' with_reducible (first
      | assumption | exact Keeps.refl u | exact Area.sub_trans (by decide) hl | apply Keeps.stopSlot | dsimp only)

theorem Keeps.programReach (h : Keeps l u s) (x0 x1) (hl : Area.sub [.fresh, .mem, .host, .chk, .reported, .lines,
    .regs, .cores, .clusters, .mems, .damsons, .sync, .fab, .hif, .board,
    .husk] l = true) : Keeps l u ((sumR3 (State.programReach s x0 x1))) := by
  unfold State.programReach
  try extract_lets
  repeat' with_reducible (first
      | assumption | exact Keeps.refl u | exact Area.sub_trans (by decide) hl | apply Keeps.stopProgram
      | apply Keeps.engRead | (apply Keeps.ite <;> intro _) | (apply Keeps.iteTriple <;> intro _)
      | apply Keeps.sumR3_inl | apply Keeps.sumR3_inr | (apply Keeps.itesumR3 <;> intro _)
      | (apply Keeps.itePair <;> intro _) | (apply Keeps.iteTriple <;> intro _) | split
      | refine Keeps.of_sumR3_inr (by assumption) ?_ | refine Keeps.of_sumR3_inl (by assumption) ?_ | dsimp only)

theorem Keeps.saveProgram (h : Keeps l u s) (x0 x1) (hl : Area.sub [.cores] l = true) : Keeps l u ((State.saveProgram s x0 x1)) := by
  unfold State.saveProgram
  try extract_lets
  repeat' with_reducible (first
      | assumption | exact Keeps.refl u | exact Area.sub_trans (by decide) hl | apply Keeps.modCore | dsimp only)

theorem Keeps.programPost (h : Keeps l u s) (x0 x1 x2 x3) (hl : Area.sub [.cores,
    .sync] l = true) : Keeps l u (((State.programPost s x0 x1 x2 x3)).getD u) := by
  unfold State.programPost
  cases ((s.slot x0 x1.slot.val).posted x2) with
  | none => exact Keeps.refl u
  | some x =>
    dsimp only [Option.map_some, Option.getD_some]
    repeat' with_reducible (first
        | assumption | exact Keeps.refl u | exact Area.sub_trans (by decide) hl | apply Keeps.setSlot
        | (apply Keeps.ite <;> intro _) | (apply Keeps.iteOpt <;> intro _) | apply Keeps.opt_some
        | apply Keeps.opt_none | fail_if_no_progress refine Keeps.upd_sync ?_ (Area.sub_trans (by decide) hl)
        | split | refine Keeps.of_some (by assumption) ?_ | dsimp only)

theorem Keeps.programAdvance (h : Keeps l u s) (x0 x1 x2 x3) (hl : Area.sub [.fresh, .mem, .host, .chk, .reported,
    .lines, .regs, .cores, .clusters, .mems, .damsons, .sync, .fab, .hif, .board,
    .husk] l = true) : Keeps l u ((State.programAdvance s x0 x1 x2 x3)) := by
  unfold State.programAdvance
  try extract_lets
  repeat' with_reducible (first
      | assumption | exact Keeps.refl u | exact Area.sub_trans (by decide) hl | apply Keeps.programPost
      | apply Keeps.stopProgram | apply Keeps.progress | apply Keeps.saveProgram | split
      | refine Keeps.of_some (by assumption) ?_ | dsimp only)

theorem Keeps.programStep (h : Keeps l u s) (x0) (hl : Area.sub [.fresh, .mem, .host, .chk, .reported, .lines,
    .regs, .cores, .clusters, .mems, .damsons, .sync, .fab, .hif, .board,
    .husk] l = true) : Keeps l u (((State.programStep s x0)).st) := by
  unfold State.programStep
  try dsimp only
  repeat' with_reducible (first
      | assumption | exact Keeps.refl u | exact Area.sub_trans (by decide) hl | apply Keeps.modCore
      | apply Keeps.programReach | apply Keeps.saveProgram | apply Keeps.stopProgram | apply Keeps.programAdvance
      | apply Keeps.runMove | (apply Keeps.ite <;> intro _) | (apply Keeps.iteStepped <;> intro _)
      | apply Keeps.stepped_on | apply Keeps.stepped_rest | split | refine Keeps.of_sumR3_inr (by assumption) ?_
      | refine Keeps.of_sumR3_inl (by assumption) ?_ | refine Keeps.of_eq_Move (by assumption) ?_
      | refine Keeps.of_move_ok (by assumption) ?_ | refine Keeps.of_move_block (by assumption) ?_
      | refine Keeps.of_move_stop (by assumption) ?_ | refine Keeps.of_eq_Stepped (by assumption) ?_
      | refine Keeps.of_stepped_on (by assumption) ?_ | refine Keeps.of_stepped_rest (by assumption) ?_ | dsimp only)

theorem Keeps.runProgram (h : Keeps l u s) (x0 x1) (hl : Area.sub [.fresh, .mem, .host, .chk, .reported, .lines,
    .regs, .cores, .clusters, .mems, .damsons, .sync, .fab, .hif, .board,
    .husk] l = true) : Keeps l u ((State.runProgram s x0 x1)) := by
  induction x1 generalizing s with
  | zero => exact h
  | succ n ih => unfold State.runProgram; repeat' with_reducible (first
      | apply ih | assumption | exact Keeps.refl u | exact Area.sub_trans (by decide) hl
      | apply Keeps.programStep | split | refine Keeps.of_eq_Stepped (by assumption) ?_
      | refine Keeps.of_stepped_on (by assumption) ?_ | refine Keeps.of_stepped_rest (by assumption) ?_ | dsimp only)

theorem Keeps.enters (h : Keeps l u s) (x0 x1) (hl : Area.sub [.cores] l = true) : Keeps l u ((State.enters s x0 x1)) := by
  unfold State.enters
  try extract_lets
  repeat' with_reducible (first
      | assumption | exact Keeps.refl u | exact Area.sub_trans (by decide) hl | apply Keeps.progress
      | (apply Keeps.ite <;> intro _) | dsimp only)

theorem Keeps.finish (h : Keeps l u s) (x0 x1 x2) (hl : Area.sub [.fresh, .mem, .host, .chk, .reported, .lines,
    .regs, .cores, .clusters, .mems, .damsons, .sync, .fab, .hif, .board,
    .husk] l = true) : Keeps l u ((State.finish s x0 x1 x2)) := by
  unfold State.finish
  try extract_lets
  repeat' with_reducible (first
      | assumption | exact Keeps.refl u | exact Area.sub_trans (by decide) hl | apply Keeps.stopSlot
      | apply Keeps.modCore | apply Keeps.count | (apply Keeps.ite <;> intro _) | split | dsimp only)

theorem Keeps.addsTo (h : Keeps l u s) (x0 x1) (hl : Area.sub [.sync] l = true) : Keeps l u ((State.addsTo s x0 x1)) := by
  unfold State.addsTo
  try extract_lets
  repeat' with_reducible (first
      | assumption | exact Keeps.refl u | exact Area.sub_trans (by decide) hl
      | fail_if_no_progress refine Keeps.upd_sync ?_ (Area.sub_trans (by decide) hl) | split | dsimp only)

theorem Keeps.complete (h : Keeps l u s) (x0 x1 x2) (hl : Area.sub [.fresh, .mem, .host, .chk, .reported, .lines,
    .regs, .cores, .clusters, .mems, .damsons, .sync, .fab, .hif, .board,
    .husk] l = true) : Keeps l u ((State.complete s x0 x1 x2)) := by
  unfold State.complete; dsimp only; repeat' with_reducible (first
      | assumption | exact Keeps.refl u | exact Area.sub_trans (by decide) hl | apply Keeps.progress
      | apply Keeps.finish | apply Keeps.count | apply Keeps.addsTo | (apply Keeps.ite <;> intro _) | split
      | dsimp only)

theorem Keeps.stopEntry (h : Keeps l u s) (x0 x1 x2 x3 x4) (hl : Area.sub [.fresh, .mem, .host, .chk, .reported,
    .lines, .regs, .cores, .clusters, .mems, .damsons, .sync, .fab, .hif, .board,
    .husk] l = true) : Keeps l u ((State.stopEntry s x0 x1 x2 x3 x4)) := by
  unfold State.stopEntry
  try extract_lets
  repeat' with_reducible (first
      | assumption | exact Keeps.refl u | exact Area.sub_trans (by decide) hl | apply Keeps.stopSlot | dsimp only)

theorem Keeps.pumpEngine (h : Keeps l u s) (x0 x1 x2) (hl : Area.sub [.fresh, .mem, .host, .chk, .reported,
    .lines, .regs, .cores, .clusters, .mems, .damsons, .sync, .fab, .hif, .board,
    .husk] l = true) : Keeps l u ((State.pumpEngine s x0 x1 x2)) := by
  induction x2 generalizing s with
  | zero => exact h
  | succ n ih => unfold State.pumpEngine; dsimp only; repeat' with_reducible (first
      | apply ih | assumption | exact Keeps.refl u | exact Area.sub_trans (by decide) hl | apply Keeps.headToken
      | apply Keeps.modCore | apply Keeps.startOn | apply Keeps.runProgram | apply Keeps.enters
      | apply Keeps.complete | apply Keeps.stopEntry | (apply Keeps.ite <;> intro _) | split
      | refine Keeps.of_someL (by assumption) ?_ | refine Keeps.of_eq_Start (by assumption) ?_
      | refine Keeps.of_start_go (by assumption) ?_ | refine Keeps.of_start_fin (by assumption) ?_
      | refine Keeps.of_start_wait (by assumption) ?_ | refine Keeps.of_start_hold (by assumption) ?_
      | refine Keeps.of_start_stop (by assumption) ?_ | dsimp only)

theorem Keeps.nextDamson (h : Keeps l u s) (x0 x1) (hl : Area.sub [.fresh, .mem, .host, .chk, .reported, .lines,
    .regs, .cores, .clusters, .mems, .damsons, .sync, .fab, .hif, .board,
    .husk] l = true) : Keeps l u ((State.nextDamson s x0 x1)) := by
  induction x1 generalizing s with
  | zero => exact h
  | succ n ih => unfold State.nextDamson; dsimp only; repeat' with_reducible (first
      | apply ih | assumption | exact Keeps.refl u | exact Area.sub_trans (by decide) hl
      | apply Keeps.issueDamson | apply Keeps.modCore | apply Keeps.stopSlot | (apply Keeps.ite <;> intro _)
      | split | refine Keeps.of_eq_Issue (by assumption) ?_ | refine Keeps.of_issue_sent (by assumption) ?_
      | refine Keeps.of_issue_stop (by assumption) ?_ | dsimp only)

theorem Keeps.pump (h : Keeps l u s) (x0) (hl : Area.sub [.fresh, .mem, .host, .chk, .reported, .lines, .regs,
    .cores, .clusters, .mems, .damsons, .sync, .fab, .hif, .board,
    .husk] l = true) : Keeps l u ((State.pump s x0)) := by
  unfold State.pump
  try extract_lets
  repeat' with_reducible (first
      | assumption | exact Keeps.refl u | exact Area.sub_trans (by decide) hl | apply Keeps.pumpEngine
      | apply Keeps.nextDamson | refine Keeps.foldl (fun _ _ _ => ?_) ?_ | dsimp only)

theorem Keeps.afterCore (h : Keeps l u s) (x0) (hl : Area.sub [.fresh, .mem, .host, .chk, .reported, .lines,
    .regs, .cores, .clusters, .mems, .damsons, .sync, .fab, .hif, .board,
    .husk] l = true) : Keeps l u ((State.afterCore s x0)) := by
  unfold State.afterCore
  try extract_lets
  repeat' with_reducible (first
      | assumption | exact Keeps.refl u | exact Area.sub_trans (by decide) hl | apply Keeps.releaseSlot
      | apply Keeps.pump | refine Keeps.foldl (fun _ _ _ => ?_) ?_ | dsimp only)

theorem Keeps.stopRun (h : Keeps l u s) (x0 x1 x2 x3 x4) (hl : Area.sub [.fresh, .mem, .host, .chk, .reported,
    .lines, .regs, .cores, .clusters, .mems, .damsons, .sync, .fab, .hif, .board,
    .husk] l = true) : Keeps l u ((State.stopRun s x0 x1 x2 x3 x4)) := by
  unfold State.stopRun
  try extract_lets
  repeat' with_reducible (first
      | assumption | exact Keeps.refl u | exact Area.sub_trans (by decide) hl | apply Keeps.afterCore
      | apply Keeps.stopEntry | apply Keeps.modCore | dsimp only)

theorem Keeps.detachPreempts (h : Keeps l u s) (x0 x1) (hl : Area.sub [.hif] l = true) : Keeps l u ((State.detachPreempts s x0 x1)) := by
  unfold State.detachPreempts
  try extract_lets
  repeat' with_reducible (first
      | assumption | exact Keeps.refl u | exact Area.sub_trans (by decide) hl | (apply Keeps.ite <;> intro _)
      | fail_if_no_progress refine Keeps.upd_hif ?_ (Area.sub_trans (by decide) hl) | dsimp only)

theorem Keeps.ringError (h : Keeps l u s) (x0 x1 x2) (hl : Area.sub [.host, .regs,
    .hif] l = true) : Keeps l u ((State.ringError s x0 x1 x2)) := by
  unfold State.ringError
  try extract_lets
  repeat' with_reducible (first
      | assumption | exact Keeps.refl u | exact Area.sub_trans (by decide) hl | apply Keeps.putNumHost
      | apply Keeps.putBytesHost | apply Keeps.putNumRing | apply Keeps.setRf | apply Keeps.detachPreempts
      | apply Keeps.setRing | dsimp only)

theorem Keeps.ctxUsable (h : Keeps l u s) (x0 x1) (hl : Area.sub [.host, .reported, .regs, .hif, .board,
    .husk] l = true) : Keeps l u (((State.ctxUsable s x0 x1)).2) := by
  unfold State.ctxUsable
  try extract_lets
  repeat' with_reducible (first
      | assumption | exact Keeps.refl u | exact Area.sub_trans (by decide) hl | apply Keeps.ctxEntry
      | (apply Keeps.ite <;> intro _) | (apply Keeps.itePair <;> intro _) | dsimp only)

theorem Keeps.descCheck (h : Keeps l u s) (x0 x1) (hl : Area.sub [.host, .reported, .regs, .hif, .board,
    .husk] l = true) : Keeps l u (((State.descCheck s x0 x1)).2) := by
  unfold State.descCheck
  try extract_lets
  repeat' with_reducible (first
      | assumption | exact Keeps.refl u | exact Area.sub_trans (by decide) hl | apply Keeps.ctxUsable
      | (apply Keeps.ite <;> intro _) | (apply Keeps.itePair <;> intro _) | (apply Keeps.itePair <;> intro _)
      | (apply Keeps.iteTriple <;> intro _) | dsimp only)

theorem Keeps.refuseDesc (h : Keeps l u s) (x0 x1 x2 x3 x4) (hl : Area.sub [.host, .regs, .hif, .board,
    .husk] l = true) : Keeps l u ((State.refuseDesc s x0 x1 x2 x3 x4)) := by
  unfold State.refuseDesc
  try extract_lets
  repeat' with_reducible (first
      | assumption | exact Keeps.refl u | exact Area.sub_trans (by decide) hl | apply Keeps.post
      | apply Keeps.advance | dsimp only)

theorem Keeps.readDev (h : Keeps l u s) (x0 x1 x2 x3) (hl : Area.sub [.fresh, .mem, .host, .chk, .reported, .regs,
    .mems, .hif, .board, .husk] l = true) : Keeps l u (((State.readDev s x0 x1 x2 x3)).s) := by
  unfold State.readDev
  try extract_lets
  repeat' with_reducible (first
      | assumption | exact Keeps.refl u | exact Area.sub_trans (by decide) hl | apply Keeps.placeNow
      | apply Keeps.readVia | (apply Keeps.ite <;> intro _) | (apply Keeps.iteRd <;> intro _)
      | refine Keeps.foldl (fun _ _ _ => ?_) ?_ | refine Keeps.foldlRd (fun _ _ _ => ?_) ?_
      | refine Keeps.foldlR (fun _ _ _ => ?_) ?_ | refine Keeps.foldlR2 (fun _ _ _ => ?_) ?_
      | refine Keeps.foldlL (fun _ _ _ => ?_) ?_ | (apply Keeps.itePair <;> intro _)
      | (apply Keeps.iteTriple <;> intro _) | split | refine Keeps.of_pair (by assumption) ?_ | dsimp only)

theorem Keeps.readHead (h : Keeps l u s) (x0 x1) (hl : Area.sub [.fresh, .mem, .host, .chk, .reported, .regs,
    .cores, .mems, .hif, .board, .husk] l = true) : Keeps l u (((State.readHead s x0 x1)).2) := by
  unfold State.readHead
  try extract_lets
  repeat' with_reducible (first
      | assumption | exact Keeps.refl u | exact Area.sub_trans (by decide) hl | apply Keeps.fetchNow
      | apply Keeps.readDev | (apply Keeps.ite <;> intro _) | (apply Keeps.itePair <;> intro _) | split
      | refine Keeps.of_pair (by assumption) ?_ | dsimp only)

theorem Keeps.entryTag (h : Keeps l u s) (x0 x1) (hl : Area.sub [.fresh, .mem, .host, .chk, .reported, .regs,
    .cores, .mems, .hif, .board, .husk] l = true) : Keeps l u (((State.entryTag s x0 x1)).2) := by
  unfold State.entryTag
  try extract_lets
  repeat' with_reducible (first
      | assumption | exact Keeps.refl u | exact Area.sub_trans (by decide) hl | apply Keeps.readHead
      | (apply Keeps.itePair <;> intro _) | split | refine Keeps.of_pair (by assumption) ?_ | dsimp only)

theorem Keeps.leaveReady (h : Keeps l u s) (x0 x1) (hl : Area.sub [.cores,
    .clusters] l = true) : Keeps l u ((State.leaveReady s x0 x1)) := by
  unfold State.leaveReady
  try extract_lets
  repeat' with_reducible (first
      | assumption | exact Keeps.refl u | exact Area.sub_trans (by decide) hl | apply Keeps.setCluster
      | apply Keeps.modCore | dsimp only)

theorem Keeps.withdrawEntry (h : Keeps l u s) (x0 x1 x2) (hl : Area.sub [.fresh, .mem, .host, .chk, .reported,
    .regs, .cores, .clusters, .mems, .hif, .board,
    .husk] l = true) : Keeps l u ((State.withdrawEntry s x0 x1 x2)) := by
  unfold State.withdrawEntry
  try extract_lets
  repeat' with_reducible (first
      | assumption | exact Keeps.refl u | exact Area.sub_trans (by decide) hl | apply Keeps.entryTag
      | apply Keeps.postComp | apply Keeps.leaveReady | dsimp only)

theorem Keeps.wakeCore (h : Keeps l u s) (x0) (hl : Area.sub [.cores] l = true) : Keeps l u ((State.wakeCore s x0)) := by
  unfold State.wakeCore
  try extract_lets
  repeat' with_reducible (first
      | assumption | exact Keeps.refl u | exact Area.sub_trans (by decide) hl | apply Keeps.modCore
      | (apply Keeps.ite <;> intro _) | dsimp only)

theorem Keeps.beginDrain (h : Keeps l u s) (x0 x1 x2) (hl : Area.sub [.fresh, .mem, .host, .chk, .reported,
    .lines, .regs, .cores, .clusters, .mems, .damsons, .sync, .fab, .hif, .board,
    .husk] l = true) : Keeps l u ((State.beginDrain s x0 x1 x2)) := by
  unfold State.beginDrain
  try extract_lets
  repeat' with_reducible (first
      | assumption | exact Keeps.refl u | exact Area.sub_trans (by decide) hl | apply Keeps.drainSlot
      | apply Keeps.startDrain | apply Keeps.modSlot | dsimp only)

theorem Keeps.preemptCtx (h : Keeps l u s) (x0 x1 x2) (hl : Area.sub [.fresh, .mem, .host, .chk, .reported,
    .lines, .regs, .cores, .clusters, .mems, .damsons, .sync, .fab, .hif, .board,
    .husk] l = true) : Keeps l u ((State.preemptCtx s x0 x1 x2)) := by
  unfold State.preemptCtx
  try extract_lets
  repeat' with_reducible (first
      | assumption | exact Keeps.refl u | exact Area.sub_trans (by decide) hl | apply Keeps.afterCore
      | apply Keeps.beginDrain | apply Keeps.wakeCore | refine Keeps.foldl (fun _ _ _ => ?_) ?_
      | refine Keeps.foldlR (fun _ _ _ => ?_) ?_ | refine Keeps.foldlR2 (fun _ _ _ => ?_) ?_
      | refine Keeps.foldlL (fun _ _ _ => ?_) ?_ | dsimp only)

theorem Keeps.preemptDesc (h : Keeps l u s) (x0 x1 x2 x3) (hl : Area.sub [.fresh, .mem, .host, .chk, .reported,
    .lines, .regs, .cores, .clusters, .mems, .damsons, .sync, .fab, .hif, .board,
    .husk] l = true) : Keeps l u ((State.preemptDesc s x0 x1 x2 x3)) := by
  unfold State.preemptDesc
  try extract_lets
  repeat' with_reducible (first
      | assumption | exact Keeps.refl u | exact Area.sub_trans (by decide) hl | apply Keeps.modCore
      | apply Keeps.withdrawEntry | apply Keeps.wakeCore | apply Keeps.preemptCtx | apply Keeps.holdPreempt
      | (apply Keeps.ite <;> intro _) | refine Keeps.foldl (fun _ _ _ => ?_) ?_ | dsimp only)

theorem Keeps.enterReady (h : Keeps l u s) (x0 x1) (hl : Area.sub [.cores] l = true) : Keeps l u ((State.enterReady s x0 x1)) := by
  unfold State.enterReady
  try extract_lets
  repeat' with_reducible (first
      | assumption | exact Keeps.refl u | exact Area.sub_trans (by decide) hl | apply Keeps.wakeCore
      | apply Keeps.modCore | dsimp only)

theorem Keeps.placeDesc (h : Keeps l u s) (x0 x1 x2 x3) (hl : Area.sub [.host, .regs, .cores,
    .hif] l = true) : Keeps l u ((State.placeDesc s x0 x1 x2 x3)) := by
  unfold State.placeDesc
  try extract_lets
  repeat' with_reducible (first
      | assumption | exact Keeps.refl u | exact Area.sub_trans (by decide) hl | apply Keeps.advance
      | apply Keeps.enterReady | apply Keeps.setRing | split | dsimp only)

theorem Keeps.takeDesc (h : Keeps l u s) (x0 x1 x2) (hl : Area.sub [.fresh, .mem, .host, .chk, .reported, .lines,
    .regs, .cores, .clusters, .mems, .damsons, .sync, .fab, .hif, .board,
    .husk] l = true) : Keeps l u ((State.takeDesc s x0 x1 x2)) := by
  unfold State.takeDesc
  try extract_lets
  repeat' with_reducible (first
      | assumption | exact Keeps.refl u | exact Area.sub_trans (by decide) hl | apply Keeps.putNum
      | apply Keeps.ringError | apply Keeps.descCheck | apply Keeps.refuseDesc | apply Keeps.preemptDesc
      | apply Keeps.placeDesc | (apply Keeps.ite <;> intro _) | split | refine Keeps.of_pair (by assumption) ?_
      | dsimp only)

theorem Keeps.windowRead (h : Keeps l u s) (x0 x1 x2) (hl : Area.sub [.fresh] l = true) : Keeps l u ((optSnd (State.windowRead s x0 x1 x2) u)) := by
  unfold State.windowRead
  try extract_lets
  repeat' with_reducible (first
      | assumption | exact Keeps.refl u | exact Area.sub_trans (by decide) hl | apply Keeps.took
      | (apply Keeps.ite <;> intro _) | (apply Keeps.iteOptR <;> intro _) | apply Keeps.optR_some
      | apply Keeps.optR_none | dsimp only)

theorem Keeps.windowAt (h : Keeps l u s) (x0 x1) (hl : Area.sub [.fresh] l = true) : Keeps l u ((optSnd (State.windowAt s x0 x1) u)) := by
  unfold State.windowAt
  try extract_lets
  repeat' with_reducible (first
      | assumption | exact Keeps.refl u | exact Area.sub_trans (by decide) hl | apply Keeps.windowRead
      | (apply Keeps.iteOptR <;> intro _) | apply Keeps.optR_some | apply Keeps.optR_none | dsimp only)

theorem Keeps.apRead (h : Keeps l u s) (x0 x1 x2) (hl : Area.sub [.fresh, .mem, .host, .chk, .reported, .regs,
    .mems, .hif, .board, .husk] l = true) : Keeps l u (((State.apRead s x0 x1 x2)).2.2) := by
  unfold State.apRead; dsimp only; repeat' with_reducible (first
      | assumption | exact Keeps.refl u | exact Area.sub_trans (by decide) hl | apply Keeps.readVia
      | apply Keeps.windowAt | (apply Keeps.ite <;> intro _) | (apply Keeps.iteTriple <;> intro _) | split
      | refine Keeps.of_someR (by assumption) ?_ | refine Keeps.of_triple (by assumption) ?_ | dsimp only)

theorem Keeps.eolAlert (h : Keeps l u s) (hl : Area.sub [.regs] l = true) : Keeps l u ((State.eolAlert s)) := by
  unfold State.eolAlert
  try extract_lets
  repeat' with_reducible (first
      | assumption | exact Keeps.refl u | exact Area.sub_trans (by decide) hl | apply Keeps.setRf
      | (apply Keeps.ite <;> intro _) | dsimp only)

theorem Keeps.postAgeing (h : Keeps l u s) (x0 x1) (hl : Area.sub [.host, .regs, .hif, .board,
    .husk] l = true) : Keeps l u ((State.postAgeing s x0 x1)) := by
  unfold State.postAgeing
  try extract_lets
  repeat' with_reducible (first
      | assumption | exact Keeps.refl u | exact Area.sub_trans (by decide) hl | apply Keeps.post | dsimp only)

theorem Keeps.setEol (h : Keeps l u s) (x0 x1) (hl : Area.sub [.regs] l = true) : Keeps l u ((State.setEol s x0 x1)) := by
  unfold State.setEol
  try extract_lets
  repeat' with_reducible (first
      | assumption | exact Keeps.refl u | exact Area.sub_trans (by decide) hl | apply Keeps.setRg | dsimp only)

theorem Keeps.firstRetired (h : Keeps l u s) (hl : Area.sub [.fresh, .host, .regs, .hif, .board,
    .husk] l = true) : Keeps l u ((State.firstRetired s)) := by
  unfold State.firstRetired
  try extract_lets
  repeat' with_reducible (first
      | assumption | exact Keeps.refl u | exact Area.sub_trans (by decide) hl | apply Keeps.eolAlert
      | apply Keeps.postAgeing | apply Keeps.setEol | apply Keeps.took | dsimp only)

theorem Keeps.norCopy (h : Keeps l u s) (x0) (hl : Area.sub [.fresh, .host, .regs, .hif, .board,
    .husk] l = true) : Keeps l u ((State.norCopy s x0)) := by
  unfold State.norCopy
  try extract_lets
  repeat' with_reducible (first
      | assumption | exact Keeps.refl u | exact Area.sub_trans (by decide) hl | apply Keeps.firstRetired
      | (apply Keeps.ite <;> intro _)
      | fail_if_no_progress refine Keeps.upd_husk ?_ (Area.sub_trans (by decide) hl) | split | dsimp only)

theorem Keeps.auxOff (h : Keeps l u s) (hl : Area.sub [.aon, .chk, .reported, .lines, .regs, .cores, .clusters,
    .mems, .tlbInv, .flits, .lostFlits, .dimmGib, .dimmBanks, .damsons, .channels, .sync, .fab, .hif, .power,
    .board, .ras, .husk, .sec] l = true) : Keeps l u ((State.auxOff s)) := by
  unfold State.auxOff
  try extract_lets
  repeat' with_reducible (first
      | assumption | exact Keeps.refl u | exact Area.sub_trans (by decide) hl | (apply Keeps.ite <;> intro _)
      | fail_if_no_progress refine Keeps.upd_aon_chk_reported_lines_regs_cores_clusters_mems_tlbInv_flits_lostFlits_dimmGib_dimmBanks_damsons_channels_sync_fab_hif_power_board_ras_husk_sec ?_ (Area.sub_trans (by decide) hl) | dsimp only)

theorem Keeps.blowTo (h : Keeps l u s) (x0) (hl : Area.sub [.sec] l = true) : Keeps l u ((State.blowTo s x0)) := by
  refine ⟨fun p hp => ?_, h.mem, h.map, by
    have := h.fuses
    simp only [State.blowTo]
    rw [BitVec.and_or_distrib_left, this]
    ext i hi; simp; intro a b; exact a⟩
  cases p <;> first
    | exact h.kept _ hp
    | exact absurd (Area.mem_of_sub hl (by decide)) hp

theorem Keeps.cutShort (h : Keeps l u s) (hl : Area.sub [.fresh, .regs,
    .sec] l = true) : Keeps l u ((State.cutShort s)) := by
  unfold State.cutShort
  try extract_lets
  repeat' with_reducible (first
      | assumption | exact Keeps.refl u | exact Area.sub_trans (by decide) hl | apply Keeps.setRg
      | apply Keeps.blowTo | apply Keeps.took | (apply Keeps.ite <;> intro _)
      | fail_if_no_progress refine Keeps.upd_sec ?_ (Area.sub_trans (by decide) hl) | split | dsimp only)

theorem Keeps.setReply (h : Keeps l u s) (x0) (hl : Area.sub [.hif] l = true) : Keeps l u ((State.setReply s x0)) := by
  unfold State.setReply
  try extract_lets
  repeat' with_reducible (first
      | assumption | exact Keeps.refl u | exact Area.sub_trans (by decide) hl | (apply Keeps.ite <;> intro _)
      | fail_if_no_progress refine Keeps.upd_hif ?_ (Area.sub_trans (by decide) hl) | dsimp only)

theorem Keeps.refuseWrite (h : Keeps l u s) (x0) (hl : Area.sub [.hif] l = true) : Keeps l u ((State.refuseWrite s x0)) := by
  unfold State.refuseWrite
  try extract_lets
  repeat' with_reducible (first
      | assumption | exact Keeps.refl u | exact Area.sub_trans (by decide) hl | apply Keeps.setReply
      | (apply Keeps.ite <;> intro _)
      | fail_if_no_progress refine Keeps.upd_hif ?_ (Area.sub_trans (by decide) hl) | dsimp only)

theorem Keeps.writeReply (h : Keeps l u s) (x0 x1) (hl : Area.sub [.hif] l = true) : Keeps l u ((State.writeReply s x0 x1)) := by
  unfold State.writeReply
  try extract_lets
  repeat' with_reducible (first
      | assumption | exact Keeps.refl u | exact Area.sub_trans (by decide) hl | apply Keeps.refuseWrite
      | apply Keeps.setReply | split | dsimp only)

theorem Keeps.landData (h : Keeps l u s) (x0 : State → Nat → Bool → (BitVec 8 ⊕ Place) × State) (hb : ∀ s a b, Keeps l u s → Keeps l u (x0 s a b).2) (x1 x2 x3 x4 x5) (hl : Area.sub [.fresh, .mem, .host, .chk, .reported, .lines, .regs, .cores, .mems, .damsons, .hif, .board, .husk] l = true) : Keeps l u (((landData x0 s x1 x2 x3 x4 x5)).2) := by
  unfold Machine.landData
  try dsimp only
  repeat' with_reducible (first
      | assumption | exact Keeps.refl u | exact Area.sub_trans (by decide) hl | apply Keeps.putPlace
      | (apply Keeps.ite <;> intro _) | (apply Keeps.itePair <;> intro _)
      | refine Keeps.foldl (fun _ _ _ => ?_) ?_ | refine Keeps.foldlR (fun _ _ _ => ?_) ?_
      | refine Keeps.foldlR2 (fun _ _ _ => ?_) ?_ | refine Keeps.foldlL (fun _ _ _ => ?_) ?_ | apply hb
      | (apply Keeps.itePair <;> intro _) | (apply Keeps.iteTriple <;> intro _) | split
      | refine Keeps.of_pair (by assumption) ?_ | dsimp only)

theorem Keeps.landGet (h : Keeps l u s) (x0 x1 x2 x3 x4) (hl : Area.sub [.fresh, .mem, .host, .chk, .reported,
    .lines, .regs, .cores, .mems, .damsons, .hif, .board,
    .husk] l = true) : Keeps l u (((State.landGet s x0 x1 x2 x3 x4)).2) := by
  unfold State.landGet
  try extract_lets
  repeat' with_reducible (first
      | assumption | exact Keeps.refl u | exact Area.sub_trans (by decide) hl | apply Keeps.landData
      | apply Keeps.placeNow | (apply Keeps.itePair <;> intro _) | refine fun _ _ _ _ => ?_
      | refine fun _ _ _ => ?_ | split | refine Keeps.of_pair (by assumption) ?_ | dsimp only)

theorem Keeps.dropWrite (h : Keeps l u s) (x0) (hl : Area.sub [.regs] l = true) : Keeps l u ((State.dropWrite s x0)) := by
  unfold State.dropWrite
  try extract_lets
  repeat' with_reducible (first
      | assumption | exact Keeps.refl u | exact Area.sub_trans (by decide) hl | apply Keeps.bump32 | dsimp only)

theorem Keeps.freeSyncReq (h : Keeps l u s) (x0 x1) (hl : Area.sub [.sync] l = true) : Keeps l u ((State.freeSyncReq s x0 x1)) := by
  unfold State.freeSyncReq
  try extract_lets
  repeat' with_reducible (first
      | assumption | exact Keeps.refl u | exact Area.sub_trans (by decide) hl
      | fail_if_no_progress refine Keeps.upd_sync ?_ (Area.sub_trans (by decide) hl) | dsimp only)

theorem Keeps.endTake (h : Keeps l u s) (x0) (hl : Area.sub [.sync,
    .fab] l = true) : Keeps l u ((State.endTake s x0)) := by
  unfold State.endTake
  try extract_lets
  repeat' with_reducible (first
      | assumption | exact Keeps.refl u | exact Area.sub_trans (by decide) hl | apply Keeps.freeSyncReq
      | apply Keeps.inject | (apply Keeps.ite <;> intro _) | split | dsimp only)

theorem Keeps.answer (h : Keeps l u s) (x0) (hl : Area.sub [] l = true) : Keeps l u ((outcome (answer x0 s) u)) := by
  unfold Machine.answer
  try extract_lets
  repeat' with_reducible (first
      | assumption | exact Keeps.refl u | exact Area.sub_trans (by decide) hl | (apply Keeps.ite <;> intro _)
      | apply Keeps.outcome_next | exact Keeps.outcome_fault | (apply Keeps.iteOutcome <;> intro _) | dsimp only)

theorem Keeps.issued (h : Keeps l u s) (x0 x1) (hl : Area.sub [.cores] l = true) : Keeps l u ((State.issued s x0 x1)) := by
  unfold State.issued
  try extract_lets
  repeat' with_reducible (first
      | assumption | exact Keeps.refl u | exact Area.sub_trans (by decide) hl | apply Keeps.modCore
      | apply Keeps.progress | apply Keeps.count | dsimp only)

theorem Keeps.dispatchTo (h : Keeps l u s) (x0 x1 x2 x3) (hl : Area.sub [.fresh, .mem, .host, .chk, .reported,
    .lines, .regs, .cores, .clusters, .mems, .damsons, .sync, .fab, .hif, .board,
    .husk] l = true) : Keeps l u ((State.dispatchTo s x0 x1 x2 x3)) := by
  unfold State.dispatchTo
  try extract_lets
  repeat' with_reducible (first
      | assumption | exact Keeps.refl u | exact Area.sub_trans (by decide) hl | apply Keeps.stopAtPc
      | apply Keeps.setCore | apply Keeps.setPc | apply Keeps.issued | (apply Keeps.ite <;> intro _) | split
      | dsimp only)

theorem Keeps.engCmd (h : Keeps l u s) (x0 x1 x2 x3) (hl : Area.sub [.fresh, .mem, .host, .chk, .reported, .lines,
    .regs, .cores, .clusters, .mems, .damsons, .sync, .fab, .hif, .board,
    .husk] l = true) : Keeps l u ((State.engCmd s x0 x1 x2 x3)) := by
  unfold State.engCmd
  try extract_lets
  repeat' with_reducible (first
      | assumption | exact Keeps.refl u | exact Area.sub_trans (by decide) hl | apply Keeps.afterCore
      | apply Keeps.dispatchTo | dsimp only)

theorem Keeps.takeAnswer (h : Keeps l u s) (x0 x1 x2) (hl : Area.sub [.fresh, .mem, .host, .chk, .reported,
    .lines, .regs, .cores, .clusters, .mems, .damsons, .sync, .fab, .hif, .board,
    .husk] l = true) : Keeps l u ((State.takeAnswer s x0 x1 x2)) := by
  unfold State.takeAnswer
  split
  · exact h
  · rename_i q hq
    extract_lets w t q' s2 st
    have h2 : Keeps l u t := by
      simp only [t, w]
      cases x2.data with
      | none => exact h
      | some g => exact Keeps.pair_mk (Keeps.engWrite (hl := Area.sub_trans (by decide) hl) h ..)
    clear_value t st
    split
    · exact Keeps.modCore (hl := Area.sub_trans (by decide) hl) h2 ..
    · split
      · exact Keeps.stopSlot (hl := Area.sub_trans (by decide) hl) (Keeps.modCore (hl := Area.sub_trans (by decide) hl) h2 ..) ..
      · exact Keeps.finish (hl := Area.sub_trans (by decide) hl) (Keeps.progress (hl := Area.sub_trans (by decide) hl) (Keeps.modCore (hl := Area.sub_trans (by decide) hl) h2 ..) ..) ..

theorem Keeps.damsonResult (h : Keeps l u s) (x0 x1) (hl : Area.sub [.fresh, .mem, .host, .chk, .reported, .lines,
    .regs, .cores, .clusters, .mems, .damsons, .sync, .fab, .hif, .board,
    .husk] l = true) : Keeps l u ((State.damsonResult s x0 x1)) := by
  unfold State.damsonResult
  try extract_lets
  repeat' with_reducible (first
      | assumption | exact Keeps.refl u | exact Area.sub_trans (by decide) hl | apply Keeps.takeAnswer
      | apply Keeps.setDam | split | dsimp only)

theorem Keeps.seqRun (h : Keeps l u s) (x4 : State → Cmd → SeqRes) (hb : ∀ s w, Keeps l u s → Keeps l u ((x4 s w).st u)) (x0 x1 x2 x3) (hl : Area.sub [.fresh, .mem, .host, .chk, .reported, .lines, .regs, .cores, .clusters, .mems, .damsons, .sync, .fab, .hif, .board, .husk] l = true) : Keeps l u ((State.seqRun s x0 x1 x2 x3 x4)) := by
  unfold State.seqRun
  try extract_lets
  repeat' with_reducible (first
      | assumption | exact Keeps.refl u | exact Area.sub_trans (by decide) hl | apply Keeps.stopAtPc
      | apply Keeps.setSlot | apply Keeps.issued | apply Keeps.modSlot | apply Keeps.seqDone
      | (apply Keeps.ite <;> intro _) | apply hb | refine Keeps.of_seqres_done (by assumption) ?_
      | refine Keeps.of_seqres_issued (by assumption) ?_ | refine Keeps.of_seqres_held (by assumption) ?_ | split
      | dsimp only)

theorem Keeps.seqCmd (h : Keeps l u s) (x4 : State → Cmd → SeqRes) (hb : ∀ s w, Keeps l u s → Keeps l u ((x4 s w).st u)) (x0 x1 x2 x3) (hl : Area.sub [.fresh, .mem, .host, .chk, .reported, .lines, .regs, .cores, .clusters, .mems, .damsons, .sync, .fab, .hif, .board, .husk] l = true) : Keeps l u ((State.seqCmd s x0 x1 x2 x3 x4)) := by
  unfold State.seqCmd
  try extract_lets
  repeat' with_reducible (first
      | assumption | exact Keeps.refl u | exact Area.sub_trans (by decide) hl | apply Keeps.afterCore
      | apply Keeps.seqRun | refine fun _ _ _ _ => ?_ | refine fun _ _ _ => ?_ | apply hb
      | refine Keeps.of_seqres_done (by assumption) ?_ | refine Keeps.of_seqres_issued (by assumption) ?_
      | refine Keeps.of_seqres_held (by assumption) ?_ | dsimp only)

theorem Keeps.bodySync (h : Keeps l u s) (x0 x1 x2) (hl : Area.sub [.host, .reported, .regs, .cores, .sync, .fab,
    .hif, .board, .husk] l = true) : Keeps l u (((bodySync x0 x1 s x2)).st u) := by
  unfold Machine.bodySync
  try extract_lets
  repeat' with_reducible (first
      | assumption | exact Keeps.refl u | exact Area.sub_trans (by decide) hl | apply Keeps.syncIssue
      | apply Keeps.modSlot | (apply Keeps.ite <;> intro _) | (apply Keeps.iteSeqRes <;> intro _)
      | exact Keeps.seqres_stop | exact Keeps.seqres_wait | apply Keeps.seqres_done | apply Keeps.seqres_issued
      | split | refine Keeps.of_some (by assumption) ?_ | refine Keeps.of_eq_SeqRes (by assumption) ?_
      | refine Keeps.of_seqres_done (by assumption) ?_ | refine Keeps.of_seqres_issued (by assumption) ?_
      | dsimp only)

theorem Keeps.enterC3 (h : Keeps l u s) (x0) (hl : Area.sub [.fresh,
    .cores] l = true) : Keeps l u ((State.enterC3 s x0)) := by
  unfold State.enterC3
  try extract_lets
  repeat' with_reducible (first
      | assumption | exact Keeps.refl u | exact Area.sub_trans (by decide) hl | apply Keeps.setCore
      | fail_if_no_progress refine Keeps.upd_fresh ?_ (Area.sub_trans (by decide) hl) | dsimp only)

theorem Keeps.idleMove (h : Keeps l u s) (x0) (hl : Area.sub [.fresh,
    .cores] l = true) : Keeps l u ((State.idleMove s x0)) := by
  unfold State.idleMove
  try extract_lets
  repeat' with_reducible (first
      | assumption | exact Keeps.refl u | exact Area.sub_trans (by decide) hl | apply Keeps.setCore
      | apply Keeps.enterC3 | (apply Keeps.ite <;> intro _) | split | dsimp only)

theorem Keeps.setCached (h : Keeps l u s) (x0 x1) (hl : Area.sub [.hif] l = true) : Keeps l u ((State.setCached s x0 x1)) := by
  unfold State.setCached
  try extract_lets
  repeat' with_reducible (first
      | assumption | exact Keeps.refl u | exact Area.sub_trans (by decide) hl | (apply Keeps.ite <;> intro _)
      | fail_if_no_progress refine Keeps.upd_hif ?_ (Area.sub_trans (by decide) hl) | dsimp only)

theorem Keeps.cleanCached (h : Keeps l u s) (x0) (hl : Area.sub [.fresh, .mem, .host, .chk, .reported, .lines,
    .regs, .mems, .damsons, .hif, .board, .husk] l = true) : Keeps l u ((State.cleanCached s x0)) := by
  unfold State.cleanCached
  try extract_lets
  repeat' with_reducible (first
      | assumption | exact Keeps.refl u | exact Area.sub_trans (by decide) hl | apply Keeps.setCached
      | apply Keeps.writeVia | (apply Keeps.ite <;> intro _) | (apply Keeps.itePair <;> intro _)
      | (apply Keeps.iteTriple <;> intro _) | dsimp only)

theorem Keeps.writeSvn (h : Keeps l u s) (x0 x1) (hl : Area.sub [.sec] l = true) : Keeps l u ((State.writeSvn s x0 x1)) := by
  unfold State.writeSvn
  try extract_lets
  repeat' with_reducible (first
      | assumption | exact Keeps.refl u | exact Area.sub_trans (by decide) hl | (apply Keeps.ite <;> intro _)
      | fail_if_no_progress refine Keeps.upd_sec ?_ (Area.sub_trans (by decide) hl) | dsimp only)

theorem Keeps.setLatch (h : Keeps l u s) (x0 x1) (hl : Area.sub [.hif] l = true) : Keeps l u ((State.setLatch s x0 x1)) := by
  unfold State.setLatch
  try extract_lets
  repeat' with_reducible (first
      | assumption | exact Keeps.refl u | exact Area.sub_trans (by decide) hl | (apply Keeps.ite <;> intro _)
      | fail_if_no_progress refine Keeps.upd_hif ?_ (Area.sub_trans (by decide) hl) | split | dsimp only)

theorem Keeps.sampleAlerts (h : Keeps l u s) (x0) (hl : Area.sub [.regs] l = true) : Keeps l u ((State.sampleAlerts s x0)) := by
  unfold State.sampleAlerts
  try extract_lets
  repeat' with_reducible (first
      | assumption | exact Keeps.refl u | exact Area.sub_trans (by decide) hl | apply Keeps.eolAlert
      | apply Keeps.setRg | (apply Keeps.ite <;> intro _) | split | dsimp only)

theorem Keeps.sampleTelemetry (h : Keeps l u s) (x0) (hl : Area.sub [.regs, .sync,
    .fab] l = true) : Keeps l u ((State.sampleTelemetry s x0)) := by
  unfold State.sampleTelemetry
  try extract_lets
  repeat' with_reducible (first
      | assumption | exact Keeps.refl u | exact Area.sub_trans (by decide) hl | apply Keeps.setRg
      | apply Keeps.sampleAlerts | refine Keeps.foldl (fun _ _ _ => ?_) ?_
      | refine Keeps.foldlR (fun _ _ _ => ?_) ?_ | refine Keeps.foldlR2 (fun _ _ _ => ?_) ?_
      | refine Keeps.foldlL (fun _ _ _ => ?_) ?_
      | fail_if_no_progress refine Keeps.upd_sync_fab ?_ (Area.sub_trans (by decide) hl) | dsimp only)

theorem Keeps.remotePlace (h : Keeps l u s) (x0 x1 x2) (hl : Area.sub [.fresh, .host, .reported, .regs, .hif,
    .board, .husk] l = true) : Keeps l u (((State.remotePlace s x0 x1 x2)).2) := by
  unfold State.remotePlace
  try extract_lets
  repeat' with_reducible (first
      | assumption | exact Keeps.refl u | exact Area.sub_trans (by decide) hl | apply Keeps.walkNow
      | (apply Keeps.ite <;> intro _) | (apply Keeps.itePair <;> intro _) | split
      | refine Keeps.of_pair (by assumption) ?_ | dsimp only)

theorem Keeps.rputElem (h : Keeps l u s) (x0 x1 x2 x3 x4 x5) (hl : Area.sub [.fresh, .mem, .host, .chk, .reported,
    .lines, .regs, .cores, .mems, .damsons, .hif, .board,
    .husk] l = true) : Keeps l u (((State.rputElem s x0 x1 x2 x3 x4 x5)).2) := by
  unfold State.rputElem
  try extract_lets
  repeat' with_reducible (first
      | assumption | exact Keeps.refl u | exact Area.sub_trans (by decide) hl | apply Keeps.remotePlace
      | apply Keeps.putPlace | apply Keeps.readVia | (apply Keeps.ite <;> intro _)
      | (apply Keeps.itePair <;> intro _) | (apply Keeps.itePair <;> intro _)
      | (apply Keeps.iteTriple <;> intro _) | split | refine Keeps.of_pair (by assumption) ?_ | dsimp only)

theorem Keeps.rputPacket (h : Keeps l u s) (x0 x1) (hl : Area.sub [.fresh, .mem, .host, .chk, .reported, .lines,
    .regs, .cores, .mems, .damsons, .fab, .hif, .board,
    .husk] l = true) : Keeps l u ((State.rputPacket s x0 x1)) := by
  unfold State.rputPacket
  try extract_lets
  repeat' with_reducible (first
      | assumption | exact Keeps.refl u | exact Area.sub_trans (by decide) hl | apply Keeps.inject
      | apply Keeps.rputElem | (apply Keeps.ite <;> intro _) | refine Keeps.foldl (fun _ _ _ => ?_) ?_
      | refine Keeps.foldlR (fun _ _ _ => ?_) ?_ | refine Keeps.foldlR2 (fun _ _ _ => ?_) ?_
      | refine Keeps.foldlL (fun _ _ _ => ?_) ?_ | (apply Keeps.itePair <;> intro _)
      | (apply Keeps.iteTriple <;> intro _) | split | refine Keeps.of_pair (by assumption) ?_ | dsimp only)

end Sys2Proof.Machine
end

