-- ==== Sys2Proof/Laws/Keeps4.lean ====
section
/-! SUPPORT. What the operations keep, part 4 of 6: each operation changes only the parts it lists -/

namespace Sys2Proof.Machine

variable {l : List Area} {u s : State}

theorem Keeps.undeliver (h : Keeps l u s) (x0 x1) (hl : Area.sub [.fab] l = true) : Keeps l u ((State.undeliver s x0 x1)) := by
  unfold State.undeliver
  try extract_lets
  repeat' with_reducible (first
      | assumption | exact Keeps.refl u | exact Area.sub_trans (by decide) hl | (apply Keeps.ite <;> intro _)
      | fail_if_no_progress refine Keeps.upd_fab ?_ (Area.sub_trans (by decide) hl) | dsimp only)

theorem Keeps.applyProfile (h : Keeps l u s) (x0) (hl : Area.sub [.regs,
    .power] l = true) : Keeps l u ((State.applyProfile s x0)) := by
  unfold State.applyProfile
  try extract_lets
  repeat' with_reducible (first
      | assumption | exact Keeps.refl u | exact Area.sub_trans (by decide) hl | apply Keeps.setRf
      | apply Keeps.retargets | (apply Keeps.ite <;> intro _)
      | fail_if_no_progress refine Keeps.upd_power ?_ (Area.sub_trans (by decide) hl) | dsimp only)

theorem Keeps.postSecurity (h : Keeps l u s) (x0 x1) (hl : Area.sub [.host, .regs, .hif, .board,
    .husk] l = true) : Keeps l u ((State.postSecurity s x0 x1)) := by
  unfold State.postSecurity
  try extract_lets
  repeat' with_reducible (first
      | assumption | exact Keeps.refl u | exact Area.sub_trans (by decide) hl | apply Keeps.post | dsimp only)

theorem Keeps.lockViolation (h : Keeps l u s) (x0) (hl : Area.sub [.host, .regs, .hif, .board, .husk,
    .sec] l = true) : Keeps l u ((State.lockViolation s x0)) := by
  unfold State.lockViolation
  try extract_lets
  repeat' with_reducible (first
      | assumption | exact Keeps.refl u | exact Area.sub_trans (by decide) hl | apply Keeps.setRf
      | apply Keeps.postSecurity | (apply Keeps.ite <;> intro _)
      | fail_if_no_progress refine Keeps.upd_sec ?_ (Area.sub_trans (by decide) hl) | dsimp only)

theorem Keeps.writeTopo (h : Keeps l u s) (x0) (hl : Area.sub [.regs] l = true) : Keeps l u ((State.writeTopo s x0)) := by
  unfold State.writeTopo
  try extract_lets
  repeat' with_reducible (first
      | assumption | exact Keeps.refl u | exact Area.sub_trans (by decide) hl | apply Keeps.setRg
      | (apply Keeps.ite <;> intro _) | dsimp only)

theorem Keeps.freeRunning (h : Keeps l u s) (x0) (hl : Area.sub [.fresh, .mem, .host,
    .damsons] l = true) : Keeps l u ((State.freeRunning s x0)) := by
  unfold State.freeRunning
  try extract_lets
  repeat' with_reducible (first
      | assumption | exact Keeps.refl u | exact Area.sub_trans (by decide) hl | apply Keeps.freeParams
      | apply Keeps.setDam | apply Keeps.took | (apply Keeps.ite <;> intro _) | split | dsimp only)

theorem Keeps.freeAllRunning (h : Keeps l u s) (hl : Area.sub [.fresh, .mem, .host,
    .damsons] l = true) : Keeps l u ((State.freeAllRunning s)) := by
  unfold State.freeAllRunning
  try extract_lets
  repeat' with_reducible (first
      | assumption | exact Keeps.refl u | exact Area.sub_trans (by decide) hl | apply Keeps.freeRunning
      | refine Keeps.foldl (fun _ _ _ => ?_) ?_ | dsimp only)

theorem Keeps.writeSplit (h : Keeps l u s) (x0) (hl : Area.sub [.fresh, .mem, .host, .regs,
    .damsons] l = true) : Keeps l u ((State.writeSplit s x0)) := by
  unfold State.writeSplit
  try extract_lets
  repeat' with_reducible (first
      | assumption | exact Keeps.refl u | exact Area.sub_trans (by decide) hl | apply Keeps.freeAllRunning
      | apply Keeps.setRf | (apply Keeps.ite <;> intro _) | dsimp only)

theorem Keeps.dropCtx (h : Keeps l u s) (x0) (hl : Area.sub [.hif] l = true) : Keeps l u ((State.dropCtx s x0)) := by
  unfold State.dropCtx
  try extract_lets
  repeat' with_reducible (first
      | assumption | exact Keeps.refl u | exact Area.sub_trans (by decide) hl | (apply Keeps.ite <;> intro _)
      | fail_if_no_progress refine Keeps.upd_hif ?_ (Area.sub_trans (by decide) hl) | split | dsimp only)

theorem Keeps.startCtxInv (h : Keeps l u s) (x0) (hl : Area.sub [.hif] l = true) : Keeps l u ((State.startCtxInv s x0)) := by
  unfold State.startCtxInv
  try extract_lets
  repeat' with_reducible (first
      | assumption | exact Keeps.refl u | exact Area.sub_trans (by decide) hl | apply Keeps.dropCtx
      | (apply Keeps.ite <;> intro _)
      | fail_if_no_progress refine Keeps.upd_hif ?_ (Area.sub_trans (by decide) hl) | dsimp only)

theorem Keeps.writePart (h : Keeps l u s) (x0 x1) (hl : Area.sub [.regs] l = true) : Keeps l u ((State.writePart s x0 x1)) := by
  unfold State.writePart
  try extract_lets
  repeat' with_reducible (first
      | assumption | exact Keeps.refl u | exact Area.sub_trans (by decide) hl | apply Keeps.setRg | dsimp only)

theorem Keeps.postReady (h : Keeps l u s) (x0 x1) (hl : Area.sub [.host, .regs, .hif, .board,
    .husk] l = true) : Keeps l u ((State.postReady s x0 x1)) := by
  unfold State.postReady
  try extract_lets
  repeat' with_reducible (first
      | assumption | exact Keeps.refl u | exact Area.sub_trans (by decide) hl | apply Keeps.post
      | (apply Keeps.ite <;> intro _) | refine Keeps.foldl (fun _ _ _ => ?_) ?_ | dsimp only)

theorem Keeps.releaseReady (h : Keeps l u s) (hl : Area.sub [.host, .regs, .hif, .board,
    .husk] l = true) : Keeps l u ((State.releaseReady s)) := by
  unfold State.releaseReady
  try extract_lets
  repeat' with_reducible (first
      | assumption | exact Keeps.refl u | exact Area.sub_trans (by decide) hl | apply Keeps.postReady
      | apply Keeps.writeEv | (apply Keeps.ite <;> intro _) | refine Keeps.foldl (fun _ _ _ => ?_) ?_
      | refine Keeps.foldlR (fun _ _ _ => ?_) ?_ | refine Keeps.foldlR2 (fun _ _ _ => ?_) ?_
      | refine Keeps.foldlL (fun _ _ _ => ?_) ?_
      | fail_if_no_progress refine Keeps.upd_hif ?_ (Area.sub_trans (by decide) hl)
      | (apply Keeps.itePair <;> intro _) | (apply Keeps.iteTriple <;> intro _) | dsimp only)

theorem Keeps.enableEvq (h : Keeps l u s) (x0) (hl : Area.sub [.host, .regs, .hif, .board,
    .husk] l = true) : Keeps l u ((State.enableEvq s x0)) := by
  unfold State.enableEvq
  try extract_lets
  repeat' with_reducible (first
      | assumption | exact Keeps.refl u | exact Area.sub_trans (by decide) hl | apply Keeps.putNumHost
      | apply Keeps.putBytesHost | apply Keeps.putNumRing | apply Keeps.setEvq | apply Keeps.setRf
      | apply Keeps.releaseReady | (apply Keeps.ite <;> intro _) | dsimp only)

theorem Keeps.writeEvqCtl (h : Keeps l u s) (x0 x1 x2) (hl : Area.sub [.host, .regs, .hif, .board,
    .husk] l = true) : Keeps l u ((State.writeEvqCtl s x0 x1 x2)) := by
  unfold State.writeEvqCtl
  try extract_lets
  repeat' with_reducible (first
      | assumption | exact Keeps.refl u | exact Area.sub_trans (by decide) hl | apply Keeps.putNumHost
      | apply Keeps.putBytesHost | apply Keeps.putNumRing | apply Keeps.setRf | apply Keeps.enableEvq
      | (apply Keeps.ite <;> intro _) | split | dsimp only)

theorem Keeps.enterPolling (h : Keeps l u s) (x0 x1) (hl : Area.sub [.host,
    .regs] l = true) : Keeps l u ((State.enterPolling s x0 x1)) := by
  unfold State.enterPolling
  try extract_lets
  repeat' with_reducible (first
      | assumption | exact Keeps.refl u | exact Area.sub_trans (by decide) hl | apply Keeps.putNumHost
      | apply Keeps.putBytesHost | apply Keeps.putNumRing | apply Keeps.setRf | dsimp only)

theorem Keeps.enableRing (h : Keeps l u s) (x0 x1) (hl : Area.sub [.host, .regs,
    .hif] l = true) : Keeps l u ((State.enableRing s x0 x1)) := by
  unfold State.enableRing
  try extract_lets
  repeat' with_reducible (first
      | assumption | exact Keeps.refl u | exact Area.sub_trans (by decide) hl | apply Keeps.putNumHost
      | apply Keeps.putBytesHost | apply Keeps.putNumRing | apply Keeps.detachPreempts | apply Keeps.setRing
      | apply Keeps.setRf | apply Keeps.enterPolling | dsimp only)

theorem Keeps.disableRing (h : Keeps l u s) (x0 x1) (hl : Area.sub [.host,
    .regs] l = true) : Keeps l u ((State.disableRing s x0 x1)) := by
  unfold State.disableRing
  try extract_lets
  repeat' with_reducible (first
      | assumption | exact Keeps.refl u | exact Area.sub_trans (by decide) hl | apply Keeps.putNumHost
      | apply Keeps.putBytesHost | apply Keeps.putNumRing | apply Keeps.setRf | (apply Keeps.ite <;> intro _)
      | dsimp only)

theorem Keeps.writeRingCtl (h : Keeps l u s) (x0 x1 x2) (hl : Area.sub [.host, .regs,
    .hif] l = true) : Keeps l u ((State.writeRingCtl s x0 x1 x2)) := by
  unfold State.writeRingCtl
  try extract_lets
  repeat' with_reducible (first
      | assumption | exact Keeps.refl u | exact Area.sub_trans (by decide) hl | apply Keeps.setRf
      | apply Keeps.enableRing | apply Keeps.disableRing | (apply Keeps.ite <;> intro _) | split | dsimp only)

theorem Keeps.writeProfile (h : Keeps l u s) (x0) (hl : Area.sub [.host, .regs, .hif, .power, .board, .husk,
    .sec] l = true) : Keeps l u ((State.writeProfile s x0)) := by
  unfold State.writeProfile
  try extract_lets
  repeat' with_reducible (first
      | assumption | exact Keeps.refl u | exact Area.sub_trans (by decide) hl | apply Keeps.lockViolation
      | apply Keeps.applyProfile | (apply Keeps.ite <;> intro _)
      | fail_if_no_progress refine Keeps.upd_power ?_ (Area.sub_trans (by decide) hl) | dsimp only)

theorem Keeps.setEnable (h : Keeps l u s) (x0 x1) (hl : Area.sub [.regs] l = true) : Keeps l u ((State.setEnable s x0 x1)) := by
  unfold State.setEnable
  try extract_lets
  repeat' with_reducible (first
      | assumption | exact Keeps.refl u | exact Area.sub_trans (by decide) hl | apply Keeps.setRf | dsimp only)

theorem Keeps.setJoining (h : Keeps l u s) (x0 x1) (hl : Area.sub [.fab] l = true) : Keeps l u ((State.setJoining s x0 x1)) := by
  unfold State.setJoining
  try extract_lets
  repeat' with_reducible (first
      | assumption | exact Keeps.refl u | exact Area.sub_trans (by decide) hl
      | fail_if_no_progress refine Keeps.upd_fab ?_ (Area.sub_trans (by decide) hl) | dsimp only)

theorem Keeps.trainDim (h : Keeps l u s) (x0) (hl : Area.sub [.host, .regs, .fab, .hif, .board,
    .husk] l = true) : Keeps l u ((State.trainDim s x0)) := by
  unfold State.trainDim
  try dsimp only
  repeat' with_reducible (first
      | assumption | exact Keeps.refl u | exact Area.sub_trans (by decide) hl | apply Keeps.setPortSt
      | apply Keeps.clearFibres | apply Keeps.setJoining | dsimp only)

theorem Keeps.setDrive (h : Keeps l u s) (x0 x1) (hl : Area.sub [.fab] l = true) : Keeps l u ((State.setDrive s x0 x1)) := by
  unfold State.setDrive
  try extract_lets
  repeat' with_reducible (first
      | assumption | exact Keeps.refl u | exact Area.sub_trans (by decide) hl
      | fail_if_no_progress refine Keeps.upd_fab ?_ (Area.sub_trans (by decide) hl) | dsimp only)

theorem Keeps.driveSwitch (h : Keeps l u s) (x0) (hl : Area.sub [.regs,
    .fab] l = true) : Keeps l u ((State.driveSwitch s x0)) := by
  unfold State.driveSwitch
  try extract_lets
  repeat' with_reducible (first
      | assumption | exact Keeps.refl u | exact Area.sub_trans (by decide) hl | apply Keeps.moveSwitch
      | apply Keeps.setDrive | (apply Keeps.ite <;> intro _) | dsimp only)

theorem Keeps.joinDim (h : Keeps l u s) (x0) (hl : Area.sub [.host, .regs, .fab, .hif, .board,
    .husk] l = true) : Keeps l u ((State.joinDim s x0)) := by
  unfold State.joinDim
  try extract_lets
  repeat' with_reducible (first
      | assumption | exact Keeps.refl u | exact Area.sub_trans (by decide) hl | apply Keeps.trainDim
      | apply Keeps.driveSwitch | dsimp only)

theorem Keeps.releaseSwitch (h : Keeps l u s) (x0) (hl : Area.sub [.fab] l = true) : Keeps l u ((State.releaseSwitch s x0)) := by
  unfold State.releaseSwitch
  try extract_lets
  repeat' with_reducible (first
      | assumption | exact Keeps.refl u | exact Area.sub_trans (by decide) hl | apply Keeps.setDrive | dsimp only)

theorem Keeps.writeEnable (h : Keeps l u s) (x0 x1) (hl : Area.sub [.host, .regs, .fab, .hif, .board,
    .husk] l = true) : Keeps l u ((State.writeEnable s x0 x1)) := by
  unfold State.writeEnable
  try extract_lets
  repeat' with_reducible (first
      | assumption | exact Keeps.refl u | exact Area.sub_trans (by decide) hl | apply Keeps.setEnable
      | apply Keeps.setPortSt | apply Keeps.joinDim | apply Keeps.setJoining | apply Keeps.releaseSwitch
      | apply Keeps.clearFibres | (apply Keeps.ite <;> intro _) | dsimp only)

theorem Keeps.resetDim (h : Keeps l u s) (x0) (hl : Area.sub [.host, .regs, .fab, .hif, .board,
    .husk] l = true) : Keeps l u ((State.resetDim s x0)) := by
  unfold State.resetDim
  try extract_lets
  repeat' with_reducible (first
      | assumption | exact Keeps.refl u | exact Area.sub_trans (by decide) hl | apply Keeps.trainDim
      | apply Keeps.driveSwitch | apply Keeps.moveSwitch | apply Keeps.releaseSwitch
      | (apply Keeps.ite <;> intro _) | dsimp only)

theorem Keeps.writePortCtrl (h : Keeps l u s) (x0 x1) (hl : Area.sub [.host, .regs, .fab, .hif, .board,
    .husk] l = true) : Keeps l u ((State.writePortCtrl s x0 x1)) := by
  unfold State.writePortCtrl
  try extract_lets
  repeat' with_reducible (first
      | assumption | exact Keeps.refl u | exact Area.sub_trans (by decide) hl | apply Keeps.writeEnable
      | apply Keeps.setRf | apply Keeps.resetDim | (apply Keeps.ite <;> intro _) | dsimp only)

theorem Keeps.invalidate (h : Keeps l u s) (x0 x1 x2) (hl : Area.sub [.cores] l = true) : Keeps l u ((State.invalidate s x0 x1 x2)) := by
  unfold State.invalidate
  try extract_lets
  repeat' with_reducible (first
      | assumption | exact Keeps.refl u | exact Area.sub_trans (by decide) hl
      | fail_if_no_progress refine Keeps.upd_cores ?_ (Area.sub_trans (by decide) hl) | dsimp only)

theorem Keeps.startTlbInv (h : Keeps l u s) (x0) (hl : Area.sub [.cores,
    .tlbInv] l = true) : Keeps l u ((State.startTlbInv s x0)) := by
  unfold State.startTlbInv
  try extract_lets
  repeat' with_reducible (first
      | assumption | exact Keeps.refl u | exact Area.sub_trans (by decide) hl | apply Keeps.invalidate
      | (apply Keeps.ite <;> intro _)
      | fail_if_no_progress refine Keeps.upd_tlbInv ?_ (Area.sub_trans (by decide) hl) | split | dsimp only)

theorem Keeps.walkOver (h : Keeps l u s) (x0) (hl : Area.sub [.fresh, .mem, .host, .chk, .reported, .lines, .regs,
    .cores, .clusters, .mems, .damsons, .sync, .fab, .hif, .board,
    .husk] l = true) : Keeps l u ((State.walkOver s x0)) := by
  unfold State.walkOver
  try extract_lets
  repeat' with_reducible (first
      | assumption | exact Keeps.refl u | exact Area.sub_trans (by decide) hl | apply Keeps.afterCore
      | apply Keeps.runProgram | dsimp only)

theorem Keeps.xltResume (h : Keeps l u s) (x0) (hl : Area.sub [.fresh, .mem, .host, .chk, .reported, .lines,
    .regs, .cores, .clusters, .mems, .damsons, .sync, .fab, .hif, .board,
    .husk] l = true) : Keeps l u ((State.xltResume s x0)) := by
  unfold State.xltResume
  try extract_lets
  repeat' with_reducible (first
      | assumption | exact Keeps.refl u | exact Area.sub_trans (by decide) hl | apply Keeps.walkOver
      | apply Keeps.modCore | apply Keeps.afterCore | apply Keeps.modSlot | (apply Keeps.ite <;> intro _)
      | dsimp only)

theorem Keeps.writeStates (h : Keeps l u s) (x0 x1 x2) (hl : Area.sub [.mems] l = true) : Keeps l u ((State.writeStates s x0 x1 x2)) := by
  unfold State.writeStates
  try extract_lets
  repeat' with_reducible (first
      | assumption | exact Keeps.refl u | exact Area.sub_trans (by decide) hl | apply Keeps.setMem
      | (apply Keeps.ite <;> intro _) | refine Keeps.foldl (fun _ _ _ => ?_) ?_ | dsimp only)

theorem Keeps.undefineRegs (h : Keeps l u s) (x0 x1) (hl : Area.sub [.fresh,
    .cores] l = true) : Keeps l u ((State.undefineRegs s x0 x1)) := by
  unfold State.undefineRegs
  try extract_lets
  repeat' with_reducible (first
      | assumption | exact Keeps.refl u | exact Area.sub_trans (by decide) hl | apply Keeps.took
      | apply Keeps.modCore | (apply Keeps.ite <;> intro _) | refine Keeps.foldl (fun _ _ _ => ?_) ?_ | dsimp only)

theorem Keeps.abandonRun (h : Keeps l u s) (x0 x1) (hl : Area.sub [.fresh, .cores,
    .fab] l = true) : Keeps l u ((State.abandonRun s x0 x1)) := by
  unfold State.abandonRun
  try extract_lets
  repeat' with_reducible (first
      | assumption | exact Keeps.refl u | exact Area.sub_trans (by decide) hl | apply Keeps.modCore
      | apply Keeps.abandonFab | apply Keeps.undefineRegs | (apply Keeps.ite <;> intro _)
      | refine Keeps.foldl (fun _ _ _ => ?_) ?_ | split | dsimp only)

theorem Keeps.holdEngine (h : Keeps l u s) (x0 x1) (hl : Area.sub [.fresh, .cores,
    .fab] l = true) : Keeps l u ((State.holdEngine s x0 x1)) := by
  unfold State.holdEngine
  try extract_lets
  repeat' with_reducible (first
      | assumption | exact Keeps.refl u | exact Area.sub_trans (by decide) hl | apply Keeps.modCore
      | apply Keeps.abandonRun | dsimp only)

theorem Keeps.holdCore (h : Keeps l u s) (x0) (hl : Area.sub [.fresh, .cores,
    .fab] l = true) : Keeps l u ((State.holdCore s x0)) := by
  unfold State.holdCore
  try extract_lets
  repeat' with_reducible (first
      | assumption | exact Keeps.refl u | exact Area.sub_trans (by decide) hl | apply Keeps.modCore
      | apply Keeps.holdEngine | refine Keeps.foldl (fun _ _ _ => ?_) ?_ | dsimp only)

theorem Keeps.answerLost (h : Keeps l u s) (x0 x1 x2 x3) (hl : Area.sub [.mem, .host, .chk, .reported, .regs,
    .cores, .mems, .damsons, .hif, .board, .husk] l = true) : Keeps l u ((State.answerLost s x0 x1 x2 x3)) := by
  unfold State.answerLost
  try extract_lets
  repeat' with_reducible (first
      | assumption | exact Keeps.refl u | exact Area.sub_trans (by decide) hl | apply Keeps.engWrite
      | apply Keeps.setDam | (apply Keeps.ite <;> intro _) | (apply Keeps.itePair <;> intro _)
      | (apply Keeps.iteTriple <;> intro _) | dsimp only)

theorem Keeps.tearRunning (h : Keeps l u s) (x0) (hl : Area.sub [.fresh, .mem, .host, .chk, .reported, .regs,
    .cores, .mems, .damsons, .hif, .board, .husk] l = true) : Keeps l u ((State.tearRunning s x0)) := by
  unfold State.tearRunning
  try extract_lets
  repeat' with_reducible (first
      | assumption | exact Keeps.refl u | exact Area.sub_trans (by decide) hl | apply Keeps.freeParams
      | apply Keeps.setDam | apply Keeps.answerLost | (apply Keeps.ite <;> intro _) | split | dsimp only)

theorem Keeps.loseDescr (h : Keeps l u s) (x0 x1) (hl : Area.sub [.fresh,
    .damsons] l = true) : Keeps l u ((State.loseDescr s x0 x1)) := by
  unfold State.loseDescr
  try extract_lets
  repeat' with_reducible (first
      | assumption | exact Keeps.refl u | exact Area.sub_trans (by decide) hl | apply Keeps.setDam
      | apply Keeps.took | (apply Keeps.ite <;> intro _) | split | dsimp only)

theorem Keeps.setChan (h : Keeps l u s) (x0 x1) (hl : Area.sub [.channels] l = true) : Keeps l u ((State.setChan s x0 x1)) := by
  unfold State.setChan
  try extract_lets
  repeat' with_reducible (first
      | assumption | exact Keeps.refl u | exact Area.sub_trans (by decide) hl
      | fail_if_no_progress refine Keeps.upd_channels ?_ (Area.sub_trans (by decide) hl) | dsimp only)

theorem Keeps.undoRequest (h : Keeps l u s) (x0) (hl : Area.sub [.fresh, .mem, .host, .chk, .reported, .lines,
    .regs, .mems, .damsons, .hif, .board, .husk] l = true) : Keeps l u ((State.undoRequest s x0)) := by
  unfold State.undoRequest
  try extract_lets
  repeat' with_reducible (first
      | assumption | exact Keeps.refl u | exact Area.sub_trans (by decide) hl | apply Keeps.readTier
      | apply Keeps.took | apply Keeps.writeTier | (apply Keeps.ite <;> intro _)
      | (apply Keeps.itePair <;> intro _) | (apply Keeps.iteTriple <;> intro _) | split
      | refine Keeps.of_pair (by assumption) ?_ | dsimp only)

theorem Keeps.setTierReply (h : Keeps l u s) (x0) (hl : Area.sub [.hif] l = true) : Keeps l u ((State.setTierReply s x0)) := by
  unfold State.setTierReply
  try extract_lets
  repeat' with_reducible (first
      | assumption | exact Keeps.refl u | exact Area.sub_trans (by decide) hl | (apply Keeps.ite <;> intro _)
      | fail_if_no_progress refine Keeps.upd_hif ?_ (Area.sub_trans (by decide) hl) | dsimp only)

theorem Keeps.accessPartLost (h : Keeps l u s) (x0 x1) (hl : Area.sub [.cores] l = true) : Keeps l u ((State.accessPartLost s x0 x1)) := by
  unfold State.accessPartLost
  try dsimp only
  repeat' with_reducible (first
      | assumption | exact Keeps.refl u | exact Area.sub_trans (by decide) hl | apply Keeps.modCore | split
      | dsimp only)

theorem Keeps.fetchFails (h : Keeps l u s) (x0 x1 x2 x3) (hl : Area.sub [.fresh, .mem, .host, .chk, .reported,
    .lines, .regs, .cores, .clusters, .mems, .damsons, .sync, .fab, .hif, .board,
    .husk] l = true) : Keeps l u ((State.fetchFails s x0 x1 x2 x3)) := by
  unfold State.fetchFails
  try extract_lets
  repeat' with_reducible (first
      | assumption | exact Keeps.refl u | exact Area.sub_trans (by decide) hl | apply Keeps.modSlot
      | apply Keeps.afterCore | apply Keeps.settlePc | dsimp only)

theorem Keeps.walkFail (h : Keeps l u s) (x0 x1 x2 x3 x4) (hl : Area.sub [.fresh, .mem, .host, .chk, .reported,
    .lines, .regs, .cores, .clusters, .mems, .damsons, .sync, .fab, .hif, .board,
    .husk] l = true) : Keeps l u ((State.walkFail s x0 x1 x2 x3 x4)) := by
  unfold State.walkFail
  try extract_lets
  repeat' with_reducible (first
      | assumption | exact Keeps.refl u | exact Area.sub_trans (by decide) hl | apply Keeps.modCore
      | apply Keeps.stopSlot | apply Keeps.stopEntry | apply Keeps.modSlot | apply Keeps.settlePc
      | (apply Keeps.ite <;> intro _) | split | dsimp only)

theorem Keeps.walkLost (h : Keeps l u s) (x0 x1 x2) (hl : Area.sub [.fresh, .mem, .host, .chk, .reported, .lines,
    .regs, .cores, .clusters, .mems, .damsons, .sync, .fab, .hif, .board,
    .husk] l = true) : Keeps l u ((State.walkLost s x0 x1 x2)) := by
  unfold State.walkLost
  try extract_lets
  repeat' with_reducible (first
      | assumption | exact Keeps.refl u | exact Area.sub_trans (by decide) hl | apply Keeps.afterCore
      | apply Keeps.walkFail | split | dsimp only)

theorem Keeps.fabricFails (h : Keeps l u s) (x0 x1) (hl : Area.sub [.fab] l = true) : Keeps l u ((State.fabricFails s x0 x1)) := by
  unfold State.fabricFails
  try extract_lets
  repeat' with_reducible (first
      | assumption | exact Keeps.refl u | exact Area.sub_trans (by decide) hl | apply Keeps.inject
      | apply Keeps.undeliver | split | dsimp only)

theorem Keeps.lostReply (h : Keeps l u s) (x0) (hl : Area.sub [.fresh, .mem, .host, .chk, .reported, .lines,
    .regs, .cores, .clusters, .mems, .damsons, .sync, .fab, .hif, .board,
    .husk] l = true) : Keeps l u ((State.lostReply s x0)) := by
  unfold State.lostReply
  try extract_lets
  repeat' with_reducible (first
      | assumption | exact Keeps.refl u | exact Area.sub_trans (by decide) hl | apply Keeps.setTierReply
      | apply Keeps.accessPartLost | apply Keeps.fetchFails | apply Keeps.walkLost | apply Keeps.fabricFails
      | (apply Keeps.ite <;> intro _)
      | fail_if_no_progress refine Keeps.upd_hif ?_ (Area.sub_trans (by decide) hl) | split | dsimp only)

theorem Keeps.losePools (h : Keeps l u s) (x0) (hl : Area.sub [.fresh, .mem, .host, .chk, .reported, .lines,
    .regs, .cores, .clusters, .mems, .damsons, .channels, .sync, .fab, .hif, .board,
    .husk] l = true) : Keeps l u ((State.losePools s x0)) := by
  unfold State.losePools
  try extract_lets
  repeat' with_reducible (first
      | assumption | exact Keeps.refl u | exact Area.sub_trans (by decide) hl | apply Keeps.setChan
      | apply Keeps.undoRequest | apply Keeps.setDam | apply Keeps.lostReply
      | refine Keeps.foldl (fun _ _ _ => ?_) ?_ | dsimp only)

theorem Keeps.resetDamson (h : Keeps l u s) (x0) (hl : Area.sub [.fresh, .mem, .host, .chk, .reported, .lines,
    .regs, .cores, .clusters, .mems, .damsons, .channels, .sync, .fab, .hif, .board,
    .husk] l = true) : Keeps l u ((State.resetDamson s x0)) := by
  unfold State.resetDamson
  try extract_lets
  repeat' with_reducible (first
      | assumption | exact Keeps.refl u | exact Area.sub_trans (by decide) hl | apply Keeps.tearRunning
      | apply Keeps.setDam | apply Keeps.answerLost | apply Keeps.loseDescr | apply Keeps.losePools
      | refine Keeps.foldl (fun _ _ _ => ?_) ?_ | dsimp only)

theorem Keeps.clearDie (h : Keeps l u s) (hl : Area.sub [.regs, .cores, .clusters, .mems, .tlbInv, .flits,
    .lostFlits, .damsons, .sync, .fab, .hif, .power, .ras] l = true) : Keeps l u ((State.clearDie s)) := by
  unfold State.clearDie
  try extract_lets
  repeat' with_reducible (first
      | assumption | exact Keeps.refl u | exact Area.sub_trans (by decide) hl | apply Keeps.setRf
      | apply Keeps.setRg | (apply Keeps.ite <;> intro _) | refine Keeps.foldl (fun _ _ _ => ?_) ?_
      | fail_if_no_progress refine Keeps.upd_regs_cores_clusters_mems_tlbInv_flits_lostFlits_damsons_sync_fab_hif_power_ras ?_ (Area.sub_trans (by decide) hl) | dsimp only)

theorem Keeps.drainPools (h : Keeps l u s) (hl : Area.sub [.channels] l = true) : Keeps l u ((State.drainPools s)) := by
  unfold State.drainPools
  try extract_lets
  repeat' with_reducible (first
      | assumption | exact Keeps.refl u | exact Area.sub_trans (by decide) hl | apply Keeps.setChan
      | refine Keeps.foldl (fun _ _ _ => ?_) ?_ | dsimp only)

theorem Keeps.dieDown (h : Keeps l u s) (hl : Area.sub [.regs, .cores, .clusters, .mems, .tlbInv, .flits,
    .lostFlits, .damsons, .channels, .sync, .fab, .hif, .power,
    .ras] l = true) : Keeps l u (((State.dieDown s)).2) := by
  unfold State.dieDown
  try extract_lets
  repeat' with_reducible (first
      | assumption | exact Keeps.refl u | exact Area.sub_trans (by decide) hl | apply Keeps.clearDie
      | apply Keeps.drainPools | (apply Keeps.itePair <;> intro _) | dsimp only)

theorem Keeps.releaseSwitches (h : Keeps l u s) (hl : Area.sub [.fab] l = true) : Keeps l u ((State.releaseSwitches s)) := by
  unfold State.releaseSwitches
  try extract_lets
  repeat' with_reducible (first
      | assumption | exact Keeps.refl u | exact Area.sub_trans (by decide) hl | apply Keeps.releaseSwitch
      | dsimp only)

theorem Keeps.bootRecord (h : Keeps l u s) (x0 x1) (hl : Area.sub [.regs,
    .husk] l = true) : Keeps l u ((State.bootRecord s x0 x1)) := by
  unfold State.bootRecord
  try extract_lets
  repeat' with_reducible (first
      | assumption | exact Keeps.refl u | exact Area.sub_trans (by decide) hl | apply Keeps.husk' | dsimp only)

theorem Keeps.huskEvent (h : Keeps l u s) (x0) (hl : Area.sub [.regs,
    .husk] l = true) : Keeps l u ((State.huskEvent s x0)) := by
  unfold State.huskEvent
  try extract_lets
  repeat' with_reducible (first
      | assumption | exact Keeps.refl u | exact Area.sub_trans (by decide) hl | apply Keeps.husk' | dsimp only)

theorem Keeps.cycleRecords (h : Keeps l u s) (hl : Area.sub [.regs,
    .husk] l = true) : Keeps l u ((State.cycleRecords s)) := by
  unfold State.cycleRecords
  try extract_lets
  repeat' with_reducible (first
      | assumption | exact Keeps.refl u | exact Area.sub_trans (by decide) hl | apply Keeps.huskEvent
      | refine Keeps.foldl (fun _ _ _ => ?_) ?_
      | fail_if_no_progress refine Keeps.upd_husk ?_ (Area.sub_trans (by decide) hl) | dsimp only)

theorem Keeps.postHeld (h : Keeps l u s) (x0) (hl : Area.sub [.host, .regs, .hif, .board,
    .husk] l = true) : Keeps l u ((State.postHeld s x0)) := by
  unfold State.postHeld
  try extract_lets
  repeat' with_reducible (first
      | assumption | exact Keeps.refl u | exact Area.sub_trans (by decide) hl | apply Keeps.post
      | apply Keeps.husk' | (apply Keeps.ite <;> intro _)
      | fail_if_no_progress refine Keeps.upd_hif ?_ (Area.sub_trans (by decide) hl) | dsimp only)

theorem Keeps.runBank (h : Keeps l u s) (x0 x1) (hl : Area.sub [.fresh, .host, .regs, .hif, .board, .husk,
    .sec] l = true) : Keeps l u ((State.runBank s x0 x1)) := by
  unfold State.runBank
  try extract_lets
  repeat' with_reducible (first
      | assumption | exact Keeps.refl u | exact Area.sub_trans (by decide) hl | apply Keeps.setRg
      | apply Keeps.setRf | apply Keeps.postHeld | (apply Keeps.ite <;> intro _)
      | fail_if_no_progress refine Keeps.upd_fresh_board_sec ?_ (Area.sub_trans (by decide) hl) | dsimp only)

theorem Keeps.recover (h : Keeps l u s) (x0) (hl : Area.sub [.regs, .board, .husk,
    .sec] l = true) : Keeps l u ((State.recover s x0)) := by
  unfold State.recover
  try extract_lets
  repeat' with_reducible (first
      | assumption | exact Keeps.refl u | exact Area.sub_trans (by decide) hl | apply Keeps.setRg
      | apply Keeps.setRf | apply Keeps.huskEvent
      | fail_if_no_progress refine Keeps.upd_board_sec ?_ (Area.sub_trans (by decide) hl) | dsimp only)

theorem Keeps.secureBoot (h : Keeps l u s) (hl : Area.sub [.fresh, .host, .regs, .hif, .board, .husk,
    .sec] l = true) : Keeps l u ((State.secureBoot s)) := by
  unfold State.secureBoot
  try extract_lets
  repeat' with_reducible (first
      | assumption | exact Keeps.refl u | exact Area.sub_trans (by decide) hl | apply Keeps.runBank
      | apply Keeps.recover | fail_if_no_progress refine Keeps.upd_sec ?_ (Area.sub_trans (by decide) hl) | split
      | dsimp only)

theorem Keeps.raiseRestarts (h : Keeps l u s) (hl : Area.sub [.husk] l = true) : Keeps l u ((State.raiseRestarts s)) := by
  unfold State.raiseRestarts
  try extract_lets
  repeat' with_reducible (first
      | assumption | exact Keeps.refl u | exact Area.sub_trans (by decide) hl
      | fail_if_no_progress refine Keeps.upd_husk ?_ (Area.sub_trans (by decide) hl) | dsimp only)

theorem Keeps.requestRails (h : Keeps l u s) (hl : Area.sub [.board] l = true) : Keeps l u ((State.requestRails s)) := by
  unfold State.requestRails
  try extract_lets
  repeat' with_reducible (first
      | assumption | exact Keeps.refl u | exact Area.sub_trans (by decide) hl | (apply Keeps.ite <;> intro _)
      | fail_if_no_progress refine Keeps.upd_board ?_ (Area.sub_trans (by decide) hl) | dsimp only)

theorem Keeps.startRom (h : Keeps l u s) (x0) (hl : Area.sub [.fresh, .host, .regs, .hif, .board, .husk,
    .sec] l = true) : Keeps l u ((State.startRom s x0)) := by
  unfold State.startRom
  try extract_lets
  repeat' with_reducible (first
      | assumption | exact Keeps.refl u | exact Area.sub_trans (by decide) hl | apply Keeps.cutShort
      | apply Keeps.bootRecord | apply Keeps.cycleRecords | apply Keeps.secureBoot | apply Keeps.raiseRestarts
      | apply Keeps.requestRails
      | fail_if_no_progress refine Keeps.upd_board_husk ?_ (Area.sub_trans (by decide) hl) | dsimp only)

theorem Keeps.railsOff (h : Keeps l u s) (hl : Area.sub [.mem, .chk, .reported, .lines, .regs, .cores, .clusters,
    .mems, .tlbInv, .flits, .lostFlits, .dimmGib, .dimmBanks, .damsons, .channels, .sync, .fab, .hif, .power,
    .board, .ras, .sec] l = true) : Keeps l u ((State.railsOff s)) := by
  have h2 := Keeps.clearDie (hl := Area.sub_trans (by decide) hl) h
  unfold State.railsOff; dsimp only
  refine Keeps.upd_sec (Keeps.setRg (hl := Area.sub_trans (by decide) hl) ?_ ..) (Area.sub_trans (by decide) hl)
  refine ⟨fun p hp => ?_, fun hw => Memory.wf_filter _ (h2.mem hw), h2.map, h2.fuses⟩
  cases p <;> first
    | exact absurd (Area.mem_of_sub hl (by decide)) hp
    | exact h2.kept _ hp
    | exact fun a ha => (State.byte_filter rfl (fun _ => decide_eq_true ha)).trans (h2.kept _ hp a ha)

theorem Keeps.restartModule (h : Keeps l u s) (x0) (hl : Area.sub [.fresh, .mem, .host, .chk, .reported, .lines,
    .regs, .cores, .clusters, .mems, .tlbInv, .flits, .lostFlits, .dimmGib, .dimmBanks, .damsons, .channels,
    .sync, .fab, .hif, .power, .board, .ras, .husk, .sec] l = true) : Keeps l u ((State.restartModule s x0)) := by
  unfold State.restartModule
  try extract_lets
  repeat' with_reducible (first
      | assumption | exact Keeps.refl u | exact Area.sub_trans (by decide) hl | apply Keeps.startRom
      | apply Keeps.railsOff | apply Keeps.releaseSwitches | dsimp only)

theorem Keeps.writeRecord (h : Keeps l u s) (hl : Area.sub [.husk] l = true) : Keeps l u ((State.writeRecord s)) := by
  unfold State.writeRecord
  try extract_lets
  repeat' with_reducible (first
      | assumption | exact Keeps.refl u | exact Area.sub_trans (by decide) hl | (apply Keeps.ite <;> intro _)
      | fail_if_no_progress refine Keeps.upd_husk ?_ (Area.sub_trans (by decide) hl) | split | dsimp only)

theorem Keeps.writeQueue (h : Keeps l u s) (hl : Area.sub [.husk] l = true) : Keeps l u ((State.writeQueue s)) := by
  unfold State.writeQueue
  try extract_lets
  repeat' with_reducible (first
      | assumption | exact Keeps.refl u | exact Area.sub_trans (by decide) hl | apply Keeps.writeRecord
      | refine Keeps.foldl (fun _ _ _ => ?_) ?_ | dsimp only)

theorem Keeps.noteReset (h : Keeps l u s) (x0) (hl : Area.sub [.regs,
    .husk] l = true) : Keeps l u ((State.noteReset s x0)) := by
  unfold State.noteReset
  try extract_lets
  repeat' with_reducible (first
      | assumption | exact Keeps.refl u | exact Area.sub_trans (by decide) hl | apply Keeps.writeQueue
      | apply Keeps.husk' | dsimp only)

theorem Keeps.startReset (h : Keeps l u s) (x0) (hl : Area.sub [.fresh, .mem, .host, .chk, .reported, .lines,
    .regs, .cores, .clusters, .mems, .tlbInv, .flits, .lostFlits, .dimmGib, .dimmBanks, .damsons, .channels,
    .sync, .fab, .hif, .power, .board, .ras, .husk, .sec] l = true) : Keeps l u ((State.startReset s x0)) := by
  unfold State.startReset
  try dsimp only
  repeat' with_reducible (first
      | assumption | exact Keeps.refl u | exact Area.sub_trans (by decide) hl | apply Keeps.modCore
      | apply Keeps.holdEngine | apply Keeps.holdCore | apply Keeps.resetDim | apply Keeps.resetDamson
      | apply Keeps.dieDown | apply Keeps.releaseSwitches | apply Keeps.restartModule | apply Keeps.noteReset
      | refine Keeps.foldl (fun _ _ _ => ?_) ?_ | refine Keeps.foldlR (fun _ _ _ => ?_) ?_
      | refine Keeps.foldlR2 (fun _ _ _ => ?_) ?_ | refine Keeps.foldlL (fun _ _ _ => ?_) ?_
      | fail_if_no_progress refine Keeps.upd_ras ?_ (Area.sub_trans (by decide) hl) | split
      | refine Keeps.of_pair (by assumption) ?_ | dsimp only)

theorem Keeps.requestReset (h : Keeps l u s) (x0 x1 x2 x3 x4 x5) (hl : Area.sub [.fresh, .mem, .host, .chk,
    .reported, .lines, .regs, .cores, .clusters, .mems, .tlbInv, .flits, .lostFlits, .dimmGib, .dimmBanks,
    .damsons, .channels, .sync, .fab, .hif, .power, .board, .ras, .husk,
    .sec] l = true) : Keeps l u ((State.requestReset s x0 x1 x2 x3 x4 x5)) := by
  unfold State.requestReset
  try extract_lets
  repeat' with_reducible (first
      | assumption | exact Keeps.refl u | exact Area.sub_trans (by decide) hl | apply Keeps.startReset
      | (apply Keeps.ite <;> intro _)
      | fail_if_no_progress refine Keeps.upd_ras ?_ (Area.sub_trans (by decide) hl) | split | dsimp only)

theorem Keeps.commandReset (h : Keeps l u s) (x0 x1) (hl : Area.sub [.fresh, .mem, .host, .chk, .reported, .lines,
    .regs, .cores, .clusters, .mems, .tlbInv, .flits, .lostFlits, .dimmGib, .dimmBanks, .damsons, .channels,
    .sync, .fab, .hif, .power, .board, .ras, .husk, .sec] l = true) : Keeps l u ((State.commandReset s x0 x1)) := by
  unfold State.commandReset
  try extract_lets
  repeat' with_reducible (first
      | assumption | exact Keeps.refl u | exact Area.sub_trans (by decide) hl | apply Keeps.requestReset | dsimp only)

theorem Keeps.writeRasReset (h : Keeps l u s) (x0 x1) (hl : Area.sub [.fresh, .mem, .host, .chk, .reported,
    .lines, .regs, .cores, .clusters, .mems, .tlbInv, .flits, .lostFlits, .dimmGib, .dimmBanks, .damsons,
    .channels, .sync, .fab, .hif, .power, .board, .ras, .husk,
    .sec] l = true) : Keeps l u ((State.writeRasReset s x0 x1)) := by
  unfold State.writeRasReset
  try extract_lets
  repeat' with_reducible (first
      | assumption | exact Keeps.refl u | exact Area.sub_trans (by decide) hl | apply Keeps.commandReset | split
      | dsimp only)

theorem Keeps.clearCluster (h : Keeps l u s) (x0 x1) (hl : Area.sub [.fresh, .mem, .host, .chk, .reported, .lines,
    .regs, .cores, .clusters, .mems, .tlbInv, .flits, .lostFlits, .dimmGib, .dimmBanks, .damsons, .channels,
    .sync, .fab, .hif, .power, .board, .ras, .husk, .sec] l = true) : Keeps l u ((State.clearCluster s x0 x1)) := by
  unfold State.clearCluster
  try extract_lets
  repeat' with_reducible (first
      | assumption | exact Keeps.refl u | exact Area.sub_trans (by decide) hl | apply Keeps.requestReset
      | (apply Keeps.ite <;> intro _)
      | fail_if_no_progress refine Keeps.upd_ras ?_ (Area.sub_trans (by decide) hl) | dsimp only)

theorem Keeps.programAcked (h : Keeps l u s) (x0) (hl : Area.sub [.fresh, .mem, .host, .chk, .reported, .lines,
    .regs, .cores, .clusters, .mems, .damsons, .sync, .fab, .hif, .board,
    .husk] l = true) : Keeps l u ((State.programAcked s x0)) := by
  unfold State.programAcked
  try extract_lets
  repeat' with_reducible (first
      | assumption | exact Keeps.refl u | exact Area.sub_trans (by decide) hl | apply Keeps.programAdvance
      | apply Keeps.runProgram | split | dsimp only)

theorem Keeps.mcastAck (h : Keeps l u s) (x0 x1) (hl : Area.sub [.fresh, .mem, .host, .chk, .reported, .lines,
    .regs, .cores, .clusters, .mems, .damsons, .sync, .fab, .hif, .board,
    .husk] l = true) : Keeps l u ((State.mcastAck s x0 x1)) := by
  unfold State.mcastAck
  try dsimp only
  repeat' with_reducible (first
      | assumption | exact Keeps.refl u | exact Area.sub_trans (by decide) hl | apply Keeps.afterCore
      | apply Keeps.complete | apply Keeps.modCore | apply Keeps.setRunEnt | apply Keeps.programAcked
      | (apply Keeps.ite <;> intro _) | split | dsimp only)

theorem Keeps.ackAll (h : Keeps l u s) (x0) (hl : Area.sub [.fresh, .mem, .host, .chk, .reported, .lines, .regs,
    .cores, .clusters, .mems, .damsons, .sync, .fab, .hif, .board,
    .husk] l = true) : Keeps l u ((State.ackAll s x0)) := by
  unfold State.ackAll
  try extract_lets
  repeat' with_reducible (first
      | assumption | exact Keeps.refl u | exact Area.sub_trans (by decide) hl | apply Keeps.mcastAck
      | refine Keeps.foldl (fun _ _ _ => ?_) ?_ | dsimp only)

theorem Keeps.startFence (h : Keeps l u s) (x0 x1) (hl : Area.sub [.fresh, .mem, .host, .chk, .reported, .lines,
    .regs, .cores, .clusters, .mems, .damsons, .sync, .fab, .hif, .board, .ras,
    .husk] l = true) : Keeps l u ((State.startFence s x0 x1)) := by
  unfold State.startFence
  try extract_lets
  repeat' with_reducible (first
      | assumption | exact Keeps.refl u | exact Area.sub_trans (by decide) hl | apply Keeps.modCore
      | apply Keeps.ackAll | (apply Keeps.ite <;> intro _)
      | fail_if_no_progress refine Keeps.upd_ras_husk ?_ (Area.sub_trans (by decide) hl) | dsimp only)

theorem Keeps.postFence (h : Keeps l u s) (x0 x1 x2 x3 x4 x5) (hl : Area.sub [.host, .regs, .hif, .board,
    .husk] l = true) : Keeps l u ((State.postFence s x0 x1 x2 x3 x4 x5)) := by
  unfold State.postFence
  try extract_lets
  repeat' with_reducible (first
      | assumption | exact Keeps.refl u | exact Area.sub_trans (by decide) hl | apply Keeps.post
      | (apply Keeps.ite <;> intro _) | refine Keeps.foldl (fun _ _ _ => ?_) ?_ | dsimp only)

theorem Keeps.loseUnread (h : Keeps l u s) (x0) (hl : Area.sub [.cores] l = true) : Keeps l u ((State.loseUnread s x0)) := by
  unfold State.loseUnread
  try extract_lets
  repeat' with_reducible (first
      | assumption | exact Keeps.refl u | exact Area.sub_trans (by decide) hl | apply Keeps.dropUnread
      | (apply Keeps.ite <;> intro _) | dsimp only)

theorem Keeps.enterOff (h : Keeps l u s) (x0) (hl : Area.sub [.mem, .host, .chk, .reported, .cores,
    .mems] l = true) : Keeps l u ((State.enterOff s x0)) := by
  unfold State.enterOff
  try extract_lets
  repeat' with_reducible (first
      | assumption | exact Keeps.refl u | exact Area.sub_trans (by decide) hl | apply Keeps.setMem
      | apply Keeps.zeroMem | apply Keeps.loseUnread | dsimp only)

theorem Keeps.failTier (h : Keeps l u s) (x0) (hl : Area.sub [.mem, .host, .chk, .reported, .cores, .mems,
    .husk] l = true) : Keeps l u ((State.failTier s x0)) := by
  unfold State.failTier
  try extract_lets
  repeat' with_reducible (first
      | assumption | exact Keeps.refl u | exact Area.sub_trans (by decide) hl | apply Keeps.enterOff
      | refine Keeps.foldl (fun _ _ _ => ?_) ?_
      | fail_if_no_progress refine Keeps.upd_husk ?_ (Area.sub_trans (by decide) hl) | dsimp only)

theorem Keeps.fenceCluster (h : Keeps l u s) (x0 x1 x2) (hl : Area.sub [.fresh, .mem, .host, .chk, .reported,
    .lines, .regs, .cores, .clusters, .mems, .damsons, .sync, .fab, .hif, .board, .ras,
    .husk] l = true) : Keeps l u ((State.fenceCluster s x0 x1 x2)) := by
  unfold State.fenceCluster
  try extract_lets
  repeat' with_reducible (first
      | assumption | exact Keeps.refl u | exact Area.sub_trans (by decide) hl | apply Keeps.startFence
      | apply Keeps.postFence | apply Keeps.failTier | (apply Keeps.ite <;> intro _)
      | refine Keeps.foldl (fun _ _ _ => ?_) ?_
      | fail_if_no_progress refine Keeps.upd_ras_husk ?_ (Area.sub_trans (by decide) hl) | dsimp only)

theorem Keeps.clearCore (h : Keeps l u s) (x0 x1) (hl : Area.sub [.fresh, .mem, .host, .chk, .reported, .lines,
    .regs, .cores, .clusters, .mems, .tlbInv, .flits, .lostFlits, .dimmGib, .dimmBanks, .damsons, .channels,
    .sync, .fab, .hif, .power, .board, .ras, .husk, .sec] l = true) : Keeps l u ((State.clearCore s x0 x1)) := by
  unfold State.clearCore
  try extract_lets
  repeat' with_reducible (first
      | assumption | exact Keeps.refl u | exact Area.sub_trans (by decide) hl | apply Keeps.requestReset
      | (apply Keeps.ite <;> intro _)
      | fail_if_no_progress refine Keeps.upd_ras ?_ (Area.sub_trans (by decide) hl) | dsimp only)

theorem Keeps.writeFence (h : Keeps l u s) (x0 x1) (hl : Area.sub [.fresh, .mem, .host, .chk, .reported, .lines,
    .regs, .cores, .clusters, .mems, .tlbInv, .flits, .lostFlits, .dimmGib, .dimmBanks, .damsons, .channels,
    .sync, .fab, .hif, .power, .board, .ras, .husk, .sec] l = true) : Keeps l u ((State.writeFence s x0 x1)) := by
  unfold State.writeFence
  try extract_lets
  repeat' with_reducible (first
      | assumption | exact Keeps.refl u | exact Area.sub_trans (by decide) hl | apply Keeps.clearCluster
      | apply Keeps.fenceCluster | apply Keeps.clearCore | apply Keeps.startFence | (apply Keeps.ite <;> intro _)
      | split | dsimp only)

theorem Keeps.beat (h : Keeps l u s) (x0) (hl : Area.sub [.ras] l = true) : Keeps l u ((State.beat s x0)) := by
  unfold State.beat
  try extract_lets
  repeat' with_reducible (first
      | assumption | exact Keeps.refl u | exact Area.sub_trans (by decide) hl
      | fail_if_no_progress refine Keeps.upd_ras ?_ (Area.sub_trans (by decide) hl) | dsimp only)

theorem Keeps.writeUpdate (h : Keeps l u s) (x0 x1) (hl : Area.sub [.regs,
    .sec] l = true) : Keeps l u ((State.writeUpdate s x0 x1)) := by
  unfold State.writeUpdate
  try extract_lets
  repeat' with_reducible (first
      | assumption | exact Keeps.refl u | exact Area.sub_trans (by decide) hl | apply Keeps.setRg
      | (apply Keeps.ite <;> intro _)
      | fail_if_no_progress refine Keeps.upd_sec ?_ (Area.sub_trans (by decide) hl) | dsimp only)

theorem Keeps.regCommit (h : Keeps l u s) (x0 x1 x2 x3 x4 x5) (hl : Area.sub [.fresh, .mem, .host, .chk,
    .reported, .lines, .regs, .cores, .clusters, .mems, .tlbInv, .flits, .lostFlits, .dimmGib, .dimmBanks,
    .damsons, .channels, .sync, .fab, .hif, .power, .board, .ras, .husk,
    .sec] l = true) : Keeps l u ((State.regCommit s x0 x1 x2 x3 x4 x5)) := by
  unfold State.regCommit
  try dsimp only
  repeat' with_reducible (first
      | assumption | exact Keeps.refl u | exact Area.sub_trans (by decide) hl | apply Keeps.setRg
      | apply Keeps.lockViolation | apply Keeps.writeTopo | apply Keeps.writeSplit | apply Keeps.startCtxInv
      | apply Keeps.writePart | apply Keeps.writeEvqCtl | apply Keeps.writeRingCtl | apply Keeps.writeProfile
      | apply Keeps.writePortCtrl | apply Keeps.startTlbInv | apply Keeps.xltResume | apply Keeps.writeStates
      | apply Keeps.setRf | apply Keeps.writeRasReset | apply Keeps.writeFence | apply Keeps.beat
      | apply Keeps.selectRecord | apply Keeps.writeSvn | apply Keeps.writeUpdate | (apply Keeps.ite <;> intro _)
      | refine Keeps.foldl (fun _ _ _ => ?_) ?_ | split | dsimp only)

theorem Keeps.bodyTpost (h : Keeps l u s) (x0 x1 x2) (hl : Area.sub [.cores] l = true) : Keeps l u (((bodyTpost x0 x1 s x2)).st u) := by
  unfold Machine.bodyTpost
  try extract_lets
  repeat' with_reducible (first
      | assumption | exact Keeps.refl u | exact Area.sub_trans (by decide) hl | apply Keeps.setSlot
      | exact Keeps.seqres_stop | exact Keeps.seqres_wait | apply Keeps.seqres_done | split
      | refine Keeps.of_eq_SeqRes (by assumption) ?_ | refine Keeps.of_seqres_done (by assumption) ?_ | dsimp only)

theorem Keeps.countEnergy (h : Keeps l u s) (x0) (hl : Area.sub [.regs,
    .power] l = true) : Keeps l u ((State.countEnergy s x0)) := by
  unfold State.countEnergy
  try extract_lets
  repeat' with_reducible (first
      | assumption | exact Keeps.refl u | exact Area.sub_trans (by decide) hl | apply Keeps.setRg
      | fail_if_no_progress refine Keeps.upd_power ?_ (Area.sub_trans (by decide) hl) | dsimp only)

theorem Keeps.taperEv (h : Keeps l u s) (x0 x1 x2) (hl : Area.sub [.host, .regs, .clusters, .hif, .board,
    .husk] l = true) : Keeps l u ((State.taperEv s x0 x1 x2)) := by
  unfold State.taperEv
  try extract_lets
  repeat' with_reducible (first
      | assumption | exact Keeps.refl u | exact Area.sub_trans (by decide) hl | apply Keeps.powerEv
      | apply Keeps.setCluster | (apply Keeps.ite <;> intro _) | dsimp only)

theorem Keeps.setTemp (h : Keeps l u s) (x0 x1) (hl : Area.sub [.host, .regs, .clusters, .hif, .board,
    .husk] l = true) : Keeps l u ((State.setTemp s x0 x1)) := by
  unfold State.setTemp
  try extract_lets
  repeat' with_reducible (first
      | assumption | exact Keeps.refl u | exact Area.sub_trans (by decide) hl | apply Keeps.setCluster
      | apply Keeps.taperEv | apply Keeps.powerEv | (apply Keeps.ite <;> intro _) | dsimp only)

theorem Keeps.grantCluster (h : Keeps l u s) (x0 x1 x2) (hl : Area.sub [.clusters] l = true) : Keeps l u ((State.grantCluster s x0 x1 x2)) := by
  unfold State.grantCluster
  try extract_lets
  repeat' with_reducible (first
      | assumption | exact Keeps.refl u | exact Area.sub_trans (by decide) hl | apply Keeps.setCluster | dsimp only)

theorem Keeps.setCap (h : Keeps l u s) (x0) (hl : Area.sub [.host, .regs, .hif, .power, .board,
    .husk] l = true) : Keeps l u ((State.setCap s x0)) := by
  unfold State.setCap
  try extract_lets
  repeat' with_reducible (first
      | assumption | exact Keeps.refl u | exact Area.sub_trans (by decide) hl | apply Keeps.powerEv
      | (apply Keeps.ite <;> intro _)
      | fail_if_no_progress refine Keeps.upd_power ?_ (Area.sub_trans (by decide) hl) | dsimp only)

theorem Keeps.scanReady (h : Keeps l u s) (x0 x1) (hl : Area.sub [.fresh, .mem, .host, .chk, .reported, .regs,
    .cores, .mems, .hif, .board, .husk] l = true) : Keeps l u (((State.scanReady s x0 x1)).2) := by
  induction x1 generalizing s with
  | nil => exact h
  | cons y l ih =>
    have h1 := Keeps.readHead (hl := Area.sub_trans (by decide) hl) h x0 y
    unfold State.scanReady
    split
    · exact Keeps.of_pair (by assumption) h1
    · exact Keeps.of_pair (by assumption) h1
    · have h2 := ih (Keeps.of_pair (by assumption) h1)
      split
      · exact Keeps.of_pair (by assumption) h2
      · exact h2

theorem Keeps.passOver (h : Keeps l u s) (x0 x1) (hl : Area.sub [.cores,
    .clusters] l = true) : Keeps l u ((State.passOver s x0 x1)) := by
  unfold State.passOver
  try dsimp only
  repeat' with_reducible (first
      | assumption | exact Keeps.refl u | exact Area.sub_trans (by decide) hl | apply Keeps.modCore
      | apply Keeps.setCluster | (apply Keeps.ite <;> intro _) | split | dsimp only)

theorem Keeps.periodChoice (h : Keeps l u s) (x0) (hl : Area.sub [.fresh, .mem, .host, .chk, .reported, .regs,
    .cores, .clusters, .mems, .hif, .board, .husk] l = true) : Keeps l u ((State.periodChoice s x0)) := by
  unfold State.periodChoice
  try extract_lets
  repeat' with_reducible (first
      | assumption | exact Keeps.refl u | exact Area.sub_trans (by decide) hl | apply Keeps.modCore
      | apply Keeps.scanReady | apply Keeps.passOver | (apply Keeps.ite <;> intro _) | split
      | refine Keeps.of_pair (by assumption) ?_ | dsimp only)

theorem Keeps.lend (h : Keeps l u s) (x0) (hl : Area.sub [.cores, .clusters,
    .power] l = true) : Keeps l u ((State.lend s x0)) := by
  unfold State.lend
  try extract_lets
  repeat' with_reducible (first
      | assumption | exact Keeps.refl u | exact Area.sub_trans (by decide) hl | apply Keeps.modCore
      | apply Keeps.setCluster | fail_if_no_progress refine Keeps.upd_power ?_ (Area.sub_trans (by decide) hl)
      | dsimp only)

theorem Keeps.lendAgain (h : Keeps l u s) (x0) (hl : Area.sub [.cores, .clusters,
    .power] l = true) : Keeps l u ((State.lendAgain s x0)) := by
  unfold State.lendAgain
  try extract_lets
  repeat' with_reducible (first
      | assumption | exact Keeps.refl u | exact Area.sub_trans (by decide) hl | apply Keeps.lend
      | (apply Keeps.ite <;> intro _) | refine Keeps.foldl (fun _ _ _ => ?_) ?_ | dsimp only)

theorem Keeps.creditPeriod (h : Keeps l u s) (x0 x1 x2) (hl : Area.sub [.fresh, .mem, .host, .chk, .reported,
    .regs, .cores, .clusters, .mems, .hif, .power, .board,
    .husk] l = true) : Keeps l u ((State.creditPeriod s x0 x1 x2)) := by
  unfold State.creditPeriod
  try extract_lets
  repeat' with_reducible (first
      | assumption | exact Keeps.refl u | exact Area.sub_trans (by decide) hl | apply Keeps.countEnergy
      | apply Keeps.setTemp | apply Keeps.modCore | apply Keeps.grantCluster | apply Keeps.setCap
      | apply Keeps.periodChoice | apply Keeps.lendAgain | refine Keeps.foldl (fun _ _ _ => ?_) ?_
      | refine Keeps.foldlR (fun _ _ _ => ?_) ?_ | refine Keeps.foldlR2 (fun _ _ _ => ?_) ?_
      | refine Keeps.foldlL (fun _ _ _ => ?_) ?_
      | fail_if_no_progress refine Keeps.upd_power ?_ (Area.sub_trans (by decide) hl) | dsimp only)

theorem Keeps.placeWaiting (h : Keeps l u s) (x0 x1) (hl : Area.sub [.host, .regs, .cores, .hif, .board,
    .husk] l = true) : Keeps l u ((State.placeWaiting s x0 x1)) := by
  unfold State.placeWaiting
  try extract_lets
  repeat' with_reducible (first
      | assumption | exact Keeps.refl u | exact Area.sub_trans (by decide) hl | apply Keeps.placeDesc
      | apply Keeps.refuseDesc | (apply Keeps.ite <;> intro _) | split | dsimp only)

theorem Keeps.routerOut (h : Keeps l u s) (x0) (hl : Area.sub [.fresh, .mem, .host, .chk, .reported, .lines,
    .regs, .cores, .clusters, .mems, .damsons, .sync, .fab, .hif, .board, .ras,
    .husk] l = true) : Keeps l u ((State.routerOut s x0)) := by
  unfold State.routerOut; dsimp only; repeat' with_reducible (first
      | assumption | exact Keeps.refl u | exact Area.sub_trans (by decide) hl | apply Keeps.setRf
      | apply Keeps.startFence | split | dsimp only)

theorem Keeps.regRead (h : Keeps l u s) (x0 x1 x2) (hl : Area.sub [.hif] l = true) : Keeps l u ((optSnd (State.regRead s x0 x1 x2) u)) := by
  unfold State.regRead
  try extract_lets
  repeat' with_reducible (first
      | assumption | exact Keeps.refl u | exact Area.sub_trans (by decide) hl | apply Keeps.setLatch
      | (apply Keeps.ite <;> intro _) | (apply Keeps.iteOptR <;> intro _) | apply Keeps.optR_some
      | apply Keeps.optR_none | split | refine Keeps.of_someR (by assumption) ?_ | dsimp only)

theorem Keeps.setHcReply (h : Keeps l u s) (x0 x1) (hl : Area.sub [.hif] l = true) : Keeps l u ((State.setHcReply s x0 x1)) := by
  unfold State.setHcReply
  try extract_lets
  repeat' with_reducible (first
      | assumption | exact Keeps.refl u | exact Area.sub_trans (by decide) hl | (apply Keeps.ite <;> intro _)
      | fail_if_no_progress refine Keeps.upd_hif ?_ (Area.sub_trans (by decide) hl) | dsimp only)

theorem Keeps.fillCached (h : Keeps l u s) (x0) (hl : Area.sub [.mem, .host, .chk, .reported, .regs, .mems, .hif,
    .board, .husk] l = true) : Keeps l u (((State.fillCached s x0)).s) := by
  unfold State.fillCached
  try extract_lets
  repeat' with_reducible (first
      | assumption | exact Keeps.refl u | exact Area.sub_trans (by decide) hl | apply Keeps.readVia
      | apply Keeps.setCached | (apply Keeps.ite <;> intro _) | (apply Keeps.iteRd <;> intro _) | dsimp only)

theorem Keeps.hcRead (h : Keeps l u s) (x0 x1 x2 x3) (hl : Area.sub [.mem, .host, .chk, .reported, .regs, .mems,
    .hif, .board, .husk] l = true) : Keeps l u (((State.hcRead s x0 x1 x2 x3)).s) := by
  unfold State.hcRead
  try extract_lets
  repeat' with_reducible (first
      | assumption | exact Keeps.refl u | exact Area.sub_trans (by decide) hl | apply Keeps.readVia
      | apply Keeps.fillCached | (apply Keeps.iteRd <;> intro _) | split | dsimp only)

theorem Keeps.hcMemRead (h : Keeps l u s) (x0 x1 x2) (hl : Area.sub [.fresh, .mem, .host, .chk, .reported, .regs,
    .mems, .hif, .board, .husk] l = true) : Keeps l u (((State.hcMemRead s x0 x1 x2)).s) := by
  unfold State.hcMemRead
  try extract_lets
  repeat' with_reducible (first
      | assumption | exact Keeps.refl u | exact Area.sub_trans (by decide) hl | apply Keeps.placeNow
      | apply Keeps.hcRead | (apply Keeps.ite <;> intro _) | (apply Keeps.iteRd <;> intro _)
      | refine Keeps.foldl (fun _ _ _ => ?_) ?_ | refine Keeps.foldlRd (fun _ _ _ => ?_) ?_
      | refine Keeps.foldlR (fun _ _ _ => ?_) ?_ | refine Keeps.foldlR2 (fun _ _ _ => ?_) ?_
      | refine Keeps.foldlL (fun _ _ _ => ?_) ?_ | (apply Keeps.itePair <;> intro _)
      | (apply Keeps.iteTriple <;> intro _) | split | refine Keeps.of_pair (by assumption) ?_ | dsimp only)

theorem Keeps.flushCached (h : Keeps l u s) (x0) (hl : Area.sub [.fresh, .mem, .host, .chk, .reported, .lines,
    .regs, .mems, .damsons, .hif, .board, .husk] l = true) : Keeps l u ((State.flushCached s x0)) := by
  unfold State.flushCached
  try extract_lets
  repeat' with_reducible (first
      | assumption | exact Keeps.refl u | exact Area.sub_trans (by decide) hl | apply Keeps.setCached
      | apply Keeps.cleanCached | dsimp only)

theorem Keeps.evict (h : Keeps l u s) (x0) (hl : Area.sub [.fresh, .mem, .host, .chk, .reported, .lines, .regs,
    .mems, .damsons, .hif, .board, .husk] l = true) : Keeps l u ((State.evict s x0)) := by
  unfold State.evict
  try extract_lets
  repeat' with_reducible (first
      | assumption | exact Keeps.refl u | exact Area.sub_trans (by decide) hl | apply Keeps.flushCached
      | apply Keeps.took | (apply Keeps.ite <;> intro _) | refine Keeps.foldl (fun _ _ _ => ?_) ?_
      | refine Keeps.foldlR (fun _ _ _ => ?_) ?_ | refine Keeps.foldlR2 (fun _ _ _ => ?_) ?_
      | refine Keeps.foldlL (fun _ _ _ => ?_) ?_ | (apply Keeps.itePair <;> intro _)
      | (apply Keeps.iteTriple <;> intro _) | dsimp only)

end Sys2Proof.Machine
end

