-- ==== Sys2Proof/Laws/Keeps5.lean ====
section
/-! SUPPORT. What the operations keep, part 5 of 6: each operation changes only the parts it lists -/

namespace Sys2Proof.Machine

variable {l : List Area} {u s : State}

theorem Keeps.hcLoad (h : Keeps l u s) (x0 x1 x2) (hl : Area.sub [.fresh, .mem, .host, .chk, .reported, .lines,
    .regs, .mems, .damsons, .hif, .board, .husk] l = true) : Keeps l u ((State.hcLoad s x0 x1 x2)) := by
  unfold State.hcLoad
  try extract_lets
  repeat' with_reducible (first
      | assumption | exact Keeps.refl u | exact Area.sub_trans (by decide) hl | apply Keeps.regRead
      | apply Keeps.setHcReply | apply Keeps.windowAt | apply Keeps.hcMemRead | apply Keeps.evict | split
      | refine Keeps.of_someR (by assumption) ?_ | dsimp only)

theorem Keeps.portStart (h : Keeps l u s) (x0 x1 x2) (hl : Area.sub [.host, .reported, .regs, .cores, .sync, .fab,
    .hif, .board, .husk] l = true) : Keeps l u ((State.portStart s x0 x1 x2)) := by
  unfold State.portStart
  try extract_lets
  repeat' with_reducible (first
      | assumption | exact Keeps.refl u | exact Area.sub_trans (by decide) hl | apply Keeps.discard
      | apply Keeps.setPort | apply Keeps.portIssue | (apply Keeps.ite <;> intro _) | dsimp only)

theorem Keeps.portWrite (h : Keeps l u s) (x0 x1 x2 x3) (hl : Area.sub [.host, .reported, .regs, .cores, .sync,
    .fab, .hif, .board, .husk] l = true) : Keeps l u ((State.portWrite s x0 x1 x2 x3)) := by
  unfold State.portWrite
  try extract_lets
  repeat' with_reducible (first
      | assumption | exact Keeps.refl u | exact Area.sub_trans (by decide) hl | apply Keeps.discard
      | apply Keeps.setPort | apply Keeps.portStart | (apply Keeps.ite <;> intro _) | dsimp only)

theorem Keeps.regStore (h : Keeps l u s) (x0 x1 x2 x3 x4 x5 x6) (hl : Area.sub [.fresh, .mem, .host, .chk,
    .reported, .lines, .regs, .cores, .clusters, .mems, .tlbInv, .flits, .lostFlits, .dimmGib, .dimmBanks,
    .damsons, .channels, .sync, .fab, .hif, .power, .board, .ras, .husk,
    .sec] l = true) : Keeps l u ((State.regStore s x0 x1 x2 x3 x4 x5 x6)) := by
  unfold State.regStore
  try extract_lets
  repeat' with_reducible (first
      | assumption | exact Keeps.refl u | exact Area.sub_trans (by decide) hl | apply Keeps.portWrite
      | apply Keeps.regCommit | (apply Keeps.ite <;> intro _) | refine Keeps.foldl (fun _ _ _ => ?_) ?_
      | refine Keeps.foldlR (fun _ _ _ => ?_) ?_ | refine Keeps.foldlR2 (fun _ _ _ => ?_) ?_
      | refine Keeps.foldlL (fun _ _ _ => ?_) ?_
      | fail_if_no_progress refine Keeps.upd_hif ?_ (Area.sub_trans (by decide) hl)
      | (apply Keeps.itePair <;> intro _) | (apply Keeps.iteTriple <;> intro _) | dsimp only)

theorem Keeps.regWrite (h : Keeps l u s) (x0 x1 x2) (hl : Area.sub [.fresh, .mem, .host, .chk, .reported, .lines,
    .regs, .cores, .clusters, .mems, .tlbInv, .flits, .lostFlits, .dimmGib, .dimmBanks, .damsons, .channels,
    .sync, .fab, .hif, .power, .board, .ras, .husk,
    .sec] l = true) : Keeps l u ((optSnd (State.regWrite s x0 x1 x2) u)) := by
  unfold State.regWrite
  try extract_lets
  repeat' with_reducible (first
      | assumption | exact Keeps.refl u | exact Area.sub_trans (by decide) hl | apply Keeps.regStore
      | (apply Keeps.ite <;> intro _) | (apply Keeps.iteOptR <;> intro _) | apply Keeps.optR_some
      | apply Keeps.optR_none | split | refine Keeps.of_someR (by assumption) ?_ | dsimp only)

theorem Keeps.launch (h : Keeps l u s) (x0 x1 x2) (hl : Area.sub [.cores] l = true) : Keeps l u ((State.launch s x0 x1 x2)) := by
  unfold State.launch
  try extract_lets
  repeat' with_reducible (first
      | assumption | exact Keeps.refl u | exact Area.sub_trans (by decide) hl | apply Keeps.enterReady
      | apply Keeps.modCore | (apply Keeps.ite <;> intro _) | dsimp only)

theorem Keeps.windowStore (h : Keeps l u s) (x0 x1 x2) (hl : Area.sub [.fresh, .cores,
    .hif] l = true) : Keeps l u ((State.windowStore s x0 x1 x2)) := by
  unfold State.windowStore
  try extract_lets
  repeat' with_reducible (first
      | assumption | exact Keeps.refl u | exact Area.sub_trans (by decide) hl | apply Keeps.setHcReply
      | apply Keeps.launch | apply Keeps.windowRead | (apply Keeps.ite <;> intro _) | dsimp only)

theorem Keeps.storePlace (h : Keeps l u s) (x0 x1 x2 x3 x4) (hl : Area.sub [.fresh, .mem, .host, .chk, .reported,
    .lines, .regs, .cores, .mems, .damsons, .hif, .board,
    .husk] l = true) : Keeps l u (((State.storePlace s x0 x1 x2 x3 x4)).2) := by
  unfold State.storePlace
  try dsimp only
  repeat' with_reducible (first
      | assumption | exact Keeps.refl u | exact Area.sub_trans (by decide) hl | apply Keeps.rewritten
      | apply Keeps.writeVia | (apply Keeps.ite <;> intro _) | (apply Keeps.itePair <;> intro _) | split
      | refine Keeps.of_pair (by assumption) ?_ | dsimp only)

theorem Keeps.hcPut (h : Keeps l u s) (x0 x1 x2 x3) (hl : Area.sub [.fresh, .mem, .host, .chk, .reported, .lines,
    .regs, .cores, .mems, .damsons, .hif, .board, .husk] l = true) : Keeps l u (((State.hcPut s x0 x1 x2 x3)).2) := by
  unfold State.hcPut
  try extract_lets
  repeat' with_reducible (first
      | assumption | exact Keeps.refl u | exact Area.sub_trans (by decide) hl | apply Keeps.storePlace
      | apply Keeps.fillCached | apply Keeps.setCached | (apply Keeps.ite <;> intro _)
      | (apply Keeps.itePair <;> intro _) | split | refine Keeps.of_pair (by assumption) ?_ | dsimp only)

theorem Keeps.hcMemWrite (h : Keeps l u s) (x0 x1 x2) (hl : Area.sub [.fresh, .mem, .host, .chk, .reported,
    .lines, .regs, .cores, .mems, .damsons, .hif, .board,
    .husk] l = true) : Keeps l u (((State.hcMemWrite s x0 x1 x2)).2) := by
  unfold State.hcMemWrite
  try extract_lets
  repeat' with_reducible (first
      | assumption | exact Keeps.refl u | exact Area.sub_trans (by decide) hl | apply Keeps.placeNow
      | apply Keeps.hcPut | (apply Keeps.ite <;> intro _) | (apply Keeps.itePair <;> intro _)
      | refine Keeps.foldl (fun _ _ _ => ?_) ?_ | refine Keeps.foldlR (fun _ _ _ => ?_) ?_
      | refine Keeps.foldlR2 (fun _ _ _ => ?_) ?_ | refine Keeps.foldlL (fun _ _ _ => ?_) ?_
      | (apply Keeps.itePair <;> intro _) | (apply Keeps.iteTriple <;> intro _) | split
      | refine Keeps.of_pair (by assumption) ?_ | dsimp only)

theorem Keeps.hcStore (h : Keeps l u s) (x0 x1 x2) (hl : Area.sub [.fresh, .mem, .host, .chk, .reported, .lines,
    .regs, .cores, .clusters, .mems, .tlbInv, .flits, .lostFlits, .dimmGib, .dimmBanks, .damsons, .channels,
    .sync, .fab, .hif, .power, .board, .ras, .husk, .sec] l = true) : Keeps l u ((State.hcStore s x0 x1 x2)) := by
  unfold State.hcStore
  try extract_lets
  repeat' with_reducible (first
      | assumption | exact Keeps.refl u | exact Area.sub_trans (by decide) hl | apply Keeps.regWrite
      | apply Keeps.setHcReply | apply Keeps.windowStore | apply Keeps.hcMemWrite | apply Keeps.evict
      | (apply Keeps.ite <;> intro _) | (apply Keeps.itePair <;> intro _) | (apply Keeps.iteTriple <;> intro _)
      | split | refine Keeps.of_someR (by assumption) ?_ | refine Keeps.of_pair (by assumption) ?_ | dsimp only)

theorem Keeps.lineOp (h : Keeps l u s) (x0 x1) (hl : Area.sub [.fresh, .mem, .host, .chk, .reported, .lines,
    .regs, .mems, .damsons, .hif, .board, .husk] l = true) : Keeps l u ((State.lineOp s x0 x1)) := by
  unfold State.lineOp
  try extract_lets
  repeat' with_reducible (first
      | assumption | exact Keeps.refl u | exact Area.sub_trans (by decide) hl | apply Keeps.setCached
      | apply Keeps.cleanCached | apply Keeps.flushCached | split | dsimp only)

theorem Keeps.hcCacheOp (h : Keeps l u s) (x0 x1 x2) (hl : Area.sub [.fresh, .mem, .host, .chk, .reported, .lines,
    .regs, .mems, .damsons, .hif, .board, .husk] l = true) : Keeps l u ((State.hcCacheOp s x0 x1 x2)) := by
  unfold State.hcCacheOp; extract_lets onLine
  have h1 : Keeps l u onLine := by
    simp only [onLine]
    repeat' with_reducible (first
        | assumption | exact Keeps.refl u | exact Area.sub_trans (by decide) hl | apply Keeps.placeNow
        | apply Keeps.evict | apply Keeps.setHcReply | apply Keeps.lineOp | split
        | refine Keeps.of_pair (by assumption) ?_ | dsimp only)
  clear_value onLine
  split
  · exact h1
  · exact h1
  all_goals exact Keeps.setHcReply (hl := Area.sub_trans (by decide) hl) h ..

theorem Keeps.dropCache (h : Keeps l u s) (x0) (hl : Area.sub [.hif] l = true) : Keeps l u ((State.dropCache s x0)) := by
  unfold State.dropCache
  try extract_lets
  repeat' with_reducible (first
      | assumption | exact Keeps.refl u | exact Area.sub_trans (by decide) hl | (apply Keeps.ite <;> intro _)
      | fail_if_no_progress refine Keeps.upd_hif ?_ (Area.sub_trans (by decide) hl) | dsimp only)

theorem Keeps.gateHc (h : Keeps l u s) (x0 x1) (hl : Area.sub [.hif,
    .power] l = true) : Keeps l u ((State.gateHc s x0 x1)) := by
  unfold State.gateHc
  try extract_lets
  repeat' with_reducible (first
      | assumption | exact Keeps.refl u | exact Area.sub_trans (by decide) hl | apply Keeps.dropCache
      | (apply Keeps.ite <;> intro _)
      | fail_if_no_progress refine Keeps.upd_power ?_ (Area.sub_trans (by decide) hl) | dsimp only)

theorem Keeps.hcAccess (h : Keeps l u s) (x0 x1) (hl : Area.sub [.fresh, .mem, .host, .chk, .reported, .lines,
    .regs, .cores, .clusters, .mems, .tlbInv, .flits, .lostFlits, .dimmGib, .dimmBanks, .damsons, .channels,
    .sync, .fab, .hif, .power, .board, .ras, .husk, .sec] l = true) : Keeps l u ((State.hcAccess s x0 x1)) := by
  unfold State.hcAccess
  try extract_lets
  repeat' with_reducible (first
      | assumption | exact Keeps.refl u | exact Area.sub_trans (by decide) hl | apply Keeps.hcLoad
      | apply Keeps.hcStore | apply Keeps.hcCacheOp | apply Keeps.gateHc | apply Keeps.wakeCore
      | (apply Keeps.ite <;> intro _) | split | dsimp only)

theorem Keeps.bumpHalf (h : Keeps l u s) (x0 x1 x2) (hl : Area.sub [.regs] l = true) : Keeps l u ((State.bumpHalf s x0 x1 x2)) := by
  unfold State.bumpHalf
  try extract_lets
  repeat' with_reducible (first
      | assumption | exact Keeps.refl u | exact Area.sub_trans (by decide) hl | apply Keeps.setRf | dsimp only)

theorem Keeps.scrubPass (h : Keeps l u s) (x0) (hl : Area.sub [.regs,
    .mems] l = true) : Keeps l u ((State.scrubPass s x0)) := by
  unfold State.scrubPass
  try extract_lets
  repeat' with_reducible (first
      | assumption | exact Keeps.refl u | exact Area.sub_trans (by decide) hl | apply Keeps.bumpHalf
      | apply Keeps.setMem | (apply Keeps.ite <;> intro _) | dsimp only)

theorem Keeps.setAbsent (h : Keeps l u s) (x0 x1 x2 x3) (hl : Area.sub [.host, .regs, .hif, .board,
    .husk] l = true) : Keeps l u ((State.setAbsent s x0 x1 x2 x3)) := by
  unfold State.setAbsent
  try extract_lets
  repeat' with_reducible (first
      | assumption | exact Keeps.refl u | exact Area.sub_trans (by decide) hl | apply Keeps.postFabric
      | apply Keeps.setRf | (apply Keeps.ite <;> intro _) | dsimp only)

theorem Keeps.portServed (h : Keeps l u s) (x0 x1) (hl : Area.sub [.clusters] l = true) : Keeps l u ((State.portServed s x0 x1)) := by
  unfold State.portServed
  try extract_lets
  repeat' with_reducible (first
      | assumption | exact Keeps.refl u | exact Area.sub_trans (by decide) hl | apply Keeps.setCluster
      | (apply Keeps.ite <;> intro _) | dsimp only)

theorem Keeps.setSlabReply (h : Keeps l u s) (x0) (hl : Area.sub [.hif] l = true) : Keeps l u ((State.setSlabReply s x0)) := by
  unfold State.setSlabReply
  try extract_lets
  repeat' with_reducible (first
      | assumption | exact Keeps.refl u | exact Area.sub_trans (by decide) hl | (apply Keeps.ite <;> intro _)
      | fail_if_no_progress refine Keeps.upd_hif ?_ (Area.sub_trans (by decide) hl) | dsimp only)

theorem Keeps.engineAccess (h : Keeps l u s) (x0 x1 x2 x3) (hl : Area.sub [.mem, .host, .chk, .reported, .regs,
    .cores, .mems, .hif, .board, .husk] l = true) : Keeps l u ((State.engineAccess s x0 x1 x2 x3)) := by
  unfold State.engineAccess
  try extract_lets
  repeat' with_reducible (first
      | assumption | exact Keeps.refl u | exact Area.sub_trans (by decide) hl | apply Keeps.setSlabReply
      | apply Keeps.engRead | apply Keeps.engWrite | (apply Keeps.ite <;> intro _)
      | (apply Keeps.itePair <;> intro _) | (apply Keeps.iteTriple <;> intro _) | split
      | refine Keeps.of_pair (by assumption) ?_ | dsimp only)

theorem Keeps.evalRemote (h : Keeps l u s) (x0 x1 x2) (hl : Area.sub [.cores, .sync,
    .fab] l = true) : Keeps l u ((State.evalRemote s x0 x1 x2)) := by
  unfold State.evalRemote
  try dsimp only
  repeat' with_reducible (first
      | assumption | exact Keeps.refl u | exact Area.sub_trans (by decide) hl | apply Keeps.prune
      | apply Keeps.reply | (apply Keeps.ite <;> intro _) | refine Keeps.foldl (fun _ _ _ => ?_) ?_
      | fail_if_no_progress refine Keeps.upd_sync ?_ (Area.sub_trans (by decide) hl) | dsimp only)

theorem Keeps.syncRestart (h : Keeps l u s) (hl : Area.sub [.sync] l = true) : Keeps l u ((State.syncRestart s)) := by
  unfold State.syncRestart
  try extract_lets
  repeat' with_reducible (first
      | assumption | exact Keeps.refl u | exact Area.sub_trans (by decide) hl
      | fail_if_no_progress refine Keeps.upd_sync ?_ (Area.sub_trans (by decide) hl) | dsimp only)

theorem Keeps.bodyEndloop (h : Keeps l u s) (x0 x1 x2) (hl : Area.sub [.cores] l = true) : Keeps l u (((bodyEndloop x0 x1 s x2)).st u) := by
  unfold Machine.bodyEndloop
  try extract_lets
  repeat' with_reducible (first
      | assumption | exact Keeps.refl u | exact Area.sub_trans (by decide) hl | apply Keeps.setSlot
      | (apply Keeps.ite <;> intro _) | (apply Keeps.iteSeqRes <;> intro _) | exact Keeps.seqres_stop
      | exact Keeps.seqres_wait | apply Keeps.seqres_done | split | refine Keeps.of_eq_SeqRes (by assumption) ?_
      | refine Keeps.of_seqres_done (by assumption) ?_ | dsimp only)

theorem Keeps.putFabEnt (h : Keeps l u s) (x0 x1 x2 x3) (hl : Area.sub [.cores] l = true) : Keeps l u ((State.putFabEnt s x0 x1 x2 x3)) := by
  unfold State.putFabEnt
  try dsimp only
  repeat' with_reducible (first
      | assumption | exact Keeps.refl u | exact Area.sub_trans (by decide) hl | apply Keeps.modCore
      | (apply Keeps.ite <;> intro _) | dsimp only)

theorem Keeps.retryNotify (h : Keeps l u s) (hl : Area.sub [.cores,
    .fab] l = true) : Keeps l u ((State.retryNotify s)) := by
  unfold State.retryNotify
  try extract_lets
  repeat' with_reducible (first
      | assumption | exact Keeps.refl u | exact Area.sub_trans (by decide) hl | apply Keeps.fabAdvance
      | apply Keeps.putFabEnt | (apply Keeps.ite <;> intro _) | refine Keeps.foldl (fun _ _ _ => ?_) ?_
      | refine Keeps.foldlR (fun _ _ _ => ?_) ?_ | refine Keeps.foldlR2 (fun _ _ _ => ?_) ?_
      | refine Keeps.foldlL (fun _ _ _ => ?_) ?_ | (apply Keeps.itePair <;> intro _)
      | (apply Keeps.iteTriple <;> intro _) | dsimp only)

theorem Keeps.wakeHeld (h : Keeps l u s) (hl : Area.sub [.fresh, .mem, .host, .chk, .reported, .lines, .regs,
    .cores, .clusters, .mems, .damsons, .sync, .fab, .hif, .board,
    .husk] l = true) : Keeps l u ((State.wakeHeld s)) := by
  unfold State.wakeHeld
  try extract_lets
  repeat' with_reducible (first
      | assumption | exact Keeps.refl u | exact Area.sub_trans (by decide) hl | apply Keeps.retryNotify
      | apply Keeps.pump | (apply Keeps.ite <;> intro _) | refine Keeps.foldl (fun _ _ _ => ?_) ?_
      | refine Keeps.foldlR (fun _ _ _ => ?_) ?_ | refine Keeps.foldlR2 (fun _ _ _ => ?_) ?_
      | refine Keeps.foldlL (fun _ _ _ => ?_) ?_ | split | dsimp only)

theorem Keeps.pushRows (h : Keeps l u s) (x0 x1) (hl : Area.sub [.cores] l = true) : Keeps l u (((State.pushRows s x0 x1)).1) := by
  unfold State.pushRows
  try extract_lets
  repeat' with_reducible (first
      | assumption | exact Keeps.refl u | exact Area.sub_trans (by decide) hl | apply Keeps.modCore
      | (apply Keeps.itePairL <;> intro _) | split | refine Keeps.of_pairL (by assumption) ?_ | dsimp only)

theorem Keeps.answered (h : Keeps l u s) (x0 x1 x2) (hl : Area.sub [.fresh, .mem, .host, .chk, .reported, .lines,
    .regs, .cores, .clusters, .mems, .damsons, .sync, .fab, .hif, .board,
    .husk] l = true) : Keeps l u ((State.answered s x0 x1 x2)) := by
  unfold State.answered
  try extract_lets
  repeat' with_reducible (first
      | assumption | exact Keeps.refl u | exact Area.sub_trans (by decide) hl | apply Keeps.freeReq
      | apply Keeps.afterCore | apply Keeps.wakeHeld | apply Keeps.modCore | apply Keeps.dropReqs
      | apply Keeps.stopEntry | apply Keeps.pushRows | apply Keeps.fabAdvance | apply Keeps.putFabEnt
      | (apply Keeps.ite <;> intro _) | (apply Keeps.itePair <;> intro _) | (apply Keeps.iteTriple <;> intro _)
      | split | refine Keeps.of_pairL (by assumption) ?_ | dsimp only)

theorem Keeps.answerOk (h : Keeps l u s) (x0 x1) (hl : Area.sub [.fresh, .mem, .host, .chk, .reported, .lines,
    .regs, .cores, .clusters, .mems, .damsons, .sync, .fab, .hif, .board,
    .husk] l = true) : Keeps l u ((State.answerOk s x0 x1)) := by
  unfold State.answerOk
  try extract_lets
  repeat' with_reducible (first
      | assumption | exact Keeps.refl u | exact Area.sub_trans (by decide) hl | apply Keeps.answered
      | apply Keeps.progress | apply Keeps.count | dsimp only)

theorem Keeps.spdmFail (h : Keeps l u s) (hl : Area.sub [.sec] l = true) : Keeps l u ((State.spdmFail s)) := by
  unfold State.spdmFail
  try extract_lets
  repeat' with_reducible (first
      | assumption | exact Keeps.refl u | exact Area.sub_trans (by decide) hl
      | fail_if_no_progress refine Keeps.upd_sec ?_ (Area.sub_trans (by decide) hl) | dsimp only)

theorem Keeps.bankSpoiled (h : Keeps l u s) (hl : Area.sub [.regs,
    .sec] l = true) : Keeps l u ((State.bankSpoiled s)) := by
  unfold State.bankSpoiled
  try extract_lets
  repeat' with_reducible (first
      | assumption | exact Keeps.refl u | exact Area.sub_trans (by decide) hl | apply Keeps.setRf
      | fail_if_no_progress refine Keeps.upd_sec ?_ (Area.sub_trans (by decide) hl) | dsimp only)

theorem Keeps.reclaim (h : Keeps l u s) (x0) (hl : Area.sub [.cores, .clusters,
    .power] l = true) : Keeps l u ((State.reclaim s x0)) := by
  unfold State.reclaim
  try extract_lets
  repeat' with_reducible (first
      | assumption | exact Keeps.refl u | exact Area.sub_trans (by decide) hl | apply Keeps.modCore
      | apply Keeps.setCluster
      | fail_if_no_progress refine Keeps.upd_clusters_power ?_ (Area.sub_trans (by decide) hl) | split | dsimp only)

theorem Keeps.waitDone (h : Keeps l u s) (x0) (hl : Area.sub [.cores, .clusters,
    .power] l = true) : Keeps l u ((State.waitDone s x0)) := by
  unfold State.waitDone
  try extract_lets
  repeat' with_reducible (first
      | assumption | exact Keeps.refl u | exact Area.sub_trans (by decide) hl | apply Keeps.wakeCore
      | apply Keeps.reclaim | dsimp only)

theorem Keeps.slotResponse (h : Keeps l u s) (x0 x1 x2 x3) (hl : Area.sub [.fresh, .mem, .host, .chk, .reported,
    .lines, .regs, .cores, .clusters, .mems, .damsons, .sync, .fab, .hif, .power, .board,
    .husk] l = true) : Keeps l u ((State.slotResponse s x0 x1 x2 x3)) := by
  unfold State.slotResponse
  try extract_lets
  repeat' with_reducible (first
      | assumption | exact Keeps.refl u | exact Area.sub_trans (by decide) hl | apply Keeps.waitDone
      | apply Keeps.stopAtPc | apply Keeps.modSlot | apply Keeps.modCore | apply Keeps.seqDone
      | (apply Keeps.ite <;> intro _) | split | dsimp only)

theorem Keeps.syncResponse (h : Keeps l u s) (x0) (hl : Area.sub [.fresh, .mem, .host, .chk, .reported, .lines,
    .regs, .cores, .clusters, .mems, .damsons, .sync, .fab, .hif, .power, .board,
    .husk] l = true) : Keeps l u ((State.syncResponse s x0)) := by
  unfold State.syncResponse; dsimp only; repeat' with_reducible (first
      | assumption | exact Keeps.refl u | exact Area.sub_trans (by decide) hl | apply Keeps.slotResponse
      | apply Keeps.setPort | split | dsimp only)

theorem Keeps.drainPool (h : Keeps l u s) (x0) (hl : Area.sub [.channels,
    .hif] l = true) : Keeps l u ((State.drainPool s x0)) := by
  unfold State.drainPool
  try extract_lets
  repeat' with_reducible (first
      | assumption | exact Keeps.refl u | exact Area.sub_trans (by decide) hl | apply Keeps.setTierReply
      | apply Keeps.setChan | (apply Keeps.ite <;> intro _) | refine Keeps.foldl (fun _ _ _ => ?_) ?_ | dsimp only)

theorem Keeps.wakeRing (h : Keeps l u s) (x0 x1) (hl : Area.sub [.host,
    .regs] l = true) : Keeps l u ((State.wakeRing s x0 x1)) := by
  unfold State.wakeRing
  try extract_lets
  repeat' with_reducible (first
      | assumption | exact Keeps.refl u | exact Area.sub_trans (by decide) hl | apply Keeps.enterPolling
      | (apply Keeps.ite <;> intro _) | dsimp only)

theorem Keeps.lateAnswer (h : Keeps l u s) (x0 x1) (hl : Area.sub [.host, .regs, .fab, .hif, .board,
    .husk] l = true) : Keeps l u ((State.lateAnswer s x0 x1)) := by
  unfold State.lateAnswer
  try extract_lets
  repeat' with_reducible (first
      | assumption | exact Keeps.refl u | exact Area.sub_trans (by decide) hl | apply Keeps.bump32
      | apply Keeps.postFabric | (apply Keeps.ite <;> intro _)
      | fail_if_no_progress refine Keeps.upd_fab ?_ (Area.sub_trans (by decide) hl) | dsimp only)

theorem Keeps.atomicRsp (h : Keeps l u s) (x0 x1) (hl : Area.sub [.fresh, .mem, .host, .chk, .reported, .lines,
    .regs, .cores, .clusters, .mems, .damsons, .sync, .fab, .hif, .board,
    .husk] l = true) : Keeps l u ((State.atomicRsp s x0 x1)) := by
  unfold State.atomicRsp
  try extract_lets
  repeat' with_reducible (first
      | assumption | exact Keeps.refl u | exact Area.sub_trans (by decide) hl | apply Keeps.lateAnswer
      | apply Keeps.engWrite | apply Keeps.answered | split | refine Keeps.of_pair (by assumption) ?_ | dsimp only)

theorem Keeps.bodyEnd (h : Keeps l u s) (x0 x1 x2) (hl : Area.sub [.cores] l = true) : Keeps l u (((bodyEnd x0 x1 s x2)).st u) := by
  unfold Machine.bodyEnd
  try extract_lets
  repeat' with_reducible (first
      | assumption | exact Keeps.refl u | exact Area.sub_trans (by decide) hl | apply Keeps.modSlot
      | apply Keeps.modCore | exact Keeps.seqres_stop | exact Keeps.seqres_wait | apply Keeps.seqres_issued
      | dsimp only)

theorem Keeps.countCorrected (h : Keeps l u s) (x0) (hl : Area.sub [.regs] l = true) : Keeps l u ((State.countCorrected s x0)) := by
  unfold State.countCorrected
  try extract_lets
  repeat' with_reducible (first
      | assumption | exact Keeps.refl u | exact Area.sub_trans (by decide) hl | apply Keeps.bumpHalf | dsimp only)

theorem Keeps.fetchBlock (h : Keeps l u s) (x0 x1 x2 x3) (hl : Area.sub [.mem, .host, .chk, .reported, .regs,
    .cores, .mems, .hif, .board, .husk] l = true) : Keeps l u ((State.fetchBlock s x0 x1 x2 x3)) := by
  unfold State.fetchBlock; dsimp only; repeat' with_reducible (first
      | assumption | exact Keeps.refl u | exact Area.sub_trans (by decide) hl | apply Keeps.modSlot
      | apply Keeps.getPlace | apply Keeps.count | apply Keeps.walkStart | apply Keeps.modCore
      | apply Keeps.xltFaultSeq | (apply Keeps.ite <;> intro _) | refine Keeps.foldl (fun _ _ _ => ?_) ?_
      | refine Keeps.foldlR (fun _ _ _ => ?_) ?_ | refine Keeps.foldlR2 (fun _ _ _ => ?_) ?_
      | refine Keeps.foldlL (fun _ _ _ => ?_) ?_ | (apply Keeps.itePair <;> intro _)
      | (apply Keeps.iteTriple <;> intro _) | split | refine Keeps.of_pair (by assumption) ?_ | dsimp only)

theorem Keeps.transitionDone (h : Keeps l u s) (x0) (hl : Area.sub [.mem, .host, .chk, .reported, .cores,
    .mems] l = true) : Keeps l u ((State.transitionDone s x0)) := by
  unfold State.transitionDone
  try extract_lets
  repeat' with_reducible (first
      | assumption | exact Keeps.refl u | exact Area.sub_trans (by decide) hl | apply Keeps.setMem
      | apply Keeps.zeroMem | apply Keeps.enterOff | (apply Keeps.ite <;> intro _) | split | dsimp only)

theorem Keeps.bankWritten (h : Keeps l u s) (x0) (hl : Area.sub [.regs,
    .sec] l = true) : Keeps l u ((State.bankWritten s x0)) := by
  unfold State.bankWritten
  try extract_lets
  repeat' with_reducible (first
      | assumption | exact Keeps.refl u | exact Area.sub_trans (by decide) hl | apply Keeps.setRf
      | fail_if_no_progress refine Keeps.upd_sec ?_ (Area.sub_trans (by decide) hl) | dsimp only)

theorem Keeps.updateDone (h : Keeps l u s) (x0 x1) (hl : Area.sub [.host, .regs, .hif, .board, .husk,
    .sec] l = true) : Keeps l u ((State.updateDone s x0 x1)) := by
  unfold State.updateDone
  try extract_lets
  repeat' with_reducible (first
      | assumption | exact Keeps.refl u | exact Area.sub_trans (by decide) hl | apply Keeps.bankWritten
      | apply Keeps.bankSpoiled | apply Keeps.postSecurity | apply Keeps.setRg | (apply Keeps.ite <;> intro _)
      | dsimp only)

theorem Keeps.readLines (h : Keeps l u s) (x0 x1 x2) (hl : Area.sub [.host, .reported, .regs, .hif, .board,
    .husk] l = true) : Keeps l u (((State.readLines s x0 x1 x2)).2) := by
  induction x2 generalizing s x1 with
  | zero => exact h
  | succ n ih => unfold State.readLines; repeat' with_reducible (first
      | apply ih | assumption | exact Keeps.refl u | exact Area.sub_trans (by decide) hl | apply Keeps.readTier
      | (apply Keeps.itePair <;> intro _) | split | refine Keeps.of_pair (by assumption) ?_ | dsimp only)

theorem Keeps.readDoorbell (h : Keeps l u s) (x0 x1 x2) (hl : Area.sub [.host, .regs,
    .hif] l = true) : Keeps l u ((State.readDoorbell s x0 x1 x2)) := by
  unfold State.readDoorbell
  try extract_lets
  repeat' with_reducible (first
      | assumption | exact Keeps.refl u | exact Area.sub_trans (by decide) hl | apply Keeps.ringError
      | apply Keeps.setRing | (apply Keeps.ite <;> intro _) | dsimp only)

theorem Keeps.powered (h : Keeps l u s) (x0) (hl : Area.sub [.board,
    .sec] l = true) : Keeps l u ((State.powered s x0)) := by
  unfold State.powered
  try extract_lets
  repeat' with_reducible (first
      | assumption | exact Keeps.refl u | exact Area.sub_trans (by decide) hl
      | fail_if_no_progress refine Keeps.upd_board_sec ?_ (Area.sub_trans (by decide) hl) | dsimp only)

theorem Keeps.countCycle (h : Keeps l u s) (hl : Area.sub [.board] l = true) : Keeps l u ((State.countCycle s)) := by
  unfold State.countCycle
  try extract_lets
  repeat' with_reducible (first
      | assumption | exact Keeps.refl u | exact Area.sub_trans (by decide) hl | (apply Keeps.ite <;> intro _)
      | fail_if_no_progress refine Keeps.upd_board ?_ (Area.sub_trans (by decide) hl) | dsimp only)

theorem Keeps.railFails (h : Keeps l u s) (x0) (hl : Area.sub [.mem, .host, .chk, .reported, .lines, .regs,
    .cores, .clusters, .mems, .tlbInv, .flits, .lostFlits, .dimmGib, .dimmBanks, .damsons, .channels, .sync, .fab,
    .hif, .power, .board, .ras, .husk, .sec] l = true) : Keeps l u ((State.railFails s x0)) := by
  unfold State.railFails
  try extract_lets
  repeat' with_reducible (first
      | assumption | exact Keeps.refl u | exact Area.sub_trans (by decide) hl | apply Keeps.post
      | apply Keeps.railsOff | apply Keeps.releaseSwitches | apply Keeps.setRf | apply Keeps.countCycle
      | (apply Keeps.ite <;> intro _)
      | fail_if_no_progress refine Keeps.upd_board ?_ (Area.sub_trans (by decide) hl) | dsimp only)

theorem Keeps.refuseStart (h : Keeps l u s) (x0 x1 x2 x3 x4) (hl : Area.sub [.host, .reported, .regs, .cores,
    .clusters, .hif, .board, .husk] l = true) : Keeps l u ((State.refuseStart s x0 x1 x2 x3 x4)) := by
  unfold State.refuseStart
  try extract_lets
  repeat' with_reducible (first
      | assumption | exact Keeps.refl u | exact Area.sub_trans (by decide) hl | apply Keeps.leaveReady
      | apply Keeps.postCtx | apply Keeps.postComp | (apply Keeps.ite <;> intro _) | dsimp only)

theorem Keeps.charge (h : Keeps l u s) (x0 x1 x2) (hl : Area.sub [.cores,
    .clusters] l = true) : Keeps l u ((State.charge s x0 x1 x2)) := by
  unfold State.charge
  try extract_lets
  repeat' with_reducible (first
      | assumption | exact Keeps.refl u | exact Area.sub_trans (by decide) hl | apply Keeps.leaveReady
      | apply Keeps.count | apply Keeps.setCluster | dsimp only)

theorem Keeps.beginRestore (h : Keeps l u s) (x0 x1 x2) (hl : Area.sub [.fresh, .mem, .host, .chk, .reported,
    .lines, .regs, .cores, .clusters, .mems, .damsons, .sync, .fab, .hif, .board,
    .husk] l = true) : Keeps l u ((State.beginRestore s x0 x1 x2)) := by
  unfold State.beginRestore
  try dsimp only
  repeat' with_reducible (first
      | assumption | exact Keeps.refl u | exact Area.sub_trans (by decide) hl | apply Keeps.readDev
      | apply Keeps.refuseStart | apply Keeps.writeDev | apply Keeps.took | apply Keeps.setSlot
      | apply Keeps.charge | apply Keeps.modCore | apply Keeps.runProgram | (apply Keeps.ite <;> intro _)
      | refine Keeps.foldl (fun _ _ _ => ?_) ?_ | refine Keeps.foldlR (fun _ _ _ => ?_) ?_
      | refine Keeps.foldlR2 (fun _ _ _ => ?_) ?_ | refine Keeps.foldlL (fun _ _ _ => ?_) ?_
      | (apply Keeps.itePair <;> intro _) | (apply Keeps.iteTriple <;> intro _) | split
      | refine Keeps.of_pair (by assumption) ?_ | dsimp only)

theorem Keeps.spdmReply (h : Keeps l u s) (x0) (hl : Area.sub [.sec] l = true) : Keeps l u ((State.spdmReply s x0)) := by
  unfold State.spdmReply
  try extract_lets
  repeat' with_reducible (first
      | assumption | exact Keeps.refl u | exact Area.sub_trans (by decide) hl
      | fail_if_no_progress refine Keeps.upd_sec ?_ (Area.sub_trans (by decide) hl) | dsimp only)

theorem Keeps.spdmFree (h : Keeps l u s) (x0) (hl : Area.sub [.fresh,
    .sec] l = true) : Keeps l u ((State.spdmFree s x0)) := by
  unfold State.spdmFree
  try extract_lets
  repeat' with_reducible (first
      | assumption | exact Keeps.refl u | exact Area.sub_trans (by decide) hl | apply Keeps.spdmReply
      | apply Keeps.took | dsimp only)

theorem Keeps.completeRun (h : Keeps l u s) (x0 x1 x2) (hl : Area.sub [.fresh, .mem, .host, .chk, .reported,
    .lines, .regs, .cores, .clusters, .mems, .damsons, .sync, .fab, .hif, .board,
    .husk] l = true) : Keeps l u ((State.completeRun s x0 x1 x2)) := by
  unfold State.completeRun
  try extract_lets
  repeat' with_reducible (first
      | assumption | exact Keeps.refl u | exact Area.sub_trans (by decide) hl | apply Keeps.afterCore
      | apply Keeps.complete | apply Keeps.modCore | dsimp only)

theorem Keeps.resumeConsumer (h : Keeps l u s) (x0 x1 x2) (hl : Area.sub [.fresh, .mem, .host, .chk, .reported,
    .lines, .regs, .cores, .clusters, .mems, .damsons, .sync, .fab, .hif, .board,
    .husk] l = true) : Keeps l u ((State.resumeConsumer s x0 x1 x2)) := by
  unfold State.resumeConsumer; dsimp only; repeat' with_reducible (first
      | assumption | exact Keeps.refl u | exact Area.sub_trans (by decide) hl | apply Keeps.vldTake
      | apply Keeps.rowsQueue | apply Keeps.setRunEnt | apply Keeps.stopRun | (apply Keeps.ite <;> intro _)
      | split | refine Keeps.of_eq_Start (by assumption) ?_ | refine Keeps.of_start_go (by assumption) ?_
      | refine Keeps.of_start_stop (by assumption) ?_ | dsimp only)

theorem Keeps.resumeConsumers (h : Keeps l u s) (x0 x1 x2) (hl : Area.sub [.fresh, .mem, .host, .chk, .reported,
    .lines, .regs, .cores, .clusters, .mems, .damsons, .sync, .fab, .hif, .board,
    .husk] l = true) : Keeps l u ((State.resumeConsumers s x0 x1 x2)) := by
  unfold State.resumeConsumers
  try extract_lets
  repeat' with_reducible (first
      | assumption | exact Keeps.refl u | exact Area.sub_trans (by decide) hl | apply Keeps.resumeConsumer
      | refine Keeps.foldl (fun _ _ _ => ?_) ?_ | dsimp only)

theorem Keeps.powerlossRecord (h : Keeps l u s) (x0 x1 x2) (hl : Area.sub [.husk] l = true) : Keeps l u ((State.powerlossRecord s x0 x1 x2)) := by
  unfold State.powerlossRecord
  try extract_lets
  repeat' with_reducible (first
      | assumption | exact Keeps.refl u | exact Area.sub_trans (by decide) hl | (apply Keeps.ite <;> intro _)
      | fail_if_no_progress refine Keeps.upd_husk ?_ (Area.sub_trans (by decide) hl) | dsimp only)

theorem Keeps.takeFlit (h : Keeps l u s) (x0 x1) (hl : Area.sub [.flits] l = true) : Keeps l u ((State.takeFlit s x0 x1)) := by
  unfold State.takeFlit
  try extract_lets
  repeat' with_reducible (first
      | assumption | exact Keeps.refl u | exact Area.sub_trans (by decide) hl | (apply Keeps.ite <;> intro _)
      | fail_if_no_progress refine Keeps.upd_flits ?_ (Area.sub_trans (by decide) hl) | split | dsimp only)

theorem Keeps.holdFlit (h : Keeps l u s) (x0 x1) (hl : Area.sub [.flits] l = true) : Keeps l u ((State.holdFlit s x0 x1)) := by
  unfold State.holdFlit
  try extract_lets
  repeat' with_reducible (first
      | assumption | exact Keeps.refl u | exact Area.sub_trans (by decide) hl | (apply Keeps.ite <;> intro _)
      | fail_if_no_progress refine Keeps.upd_flits ?_ (Area.sub_trans (by decide) hl) | split | dsimp only)

theorem Keeps.forward (h : Keeps l u s) (x0 x1 x2) (hl : Area.sub [.flits,
    .lostFlits] l = true) : Keeps l u ((State.forward s x0 x1 x2)) := by
  unfold State.forward
  try extract_lets
  repeat' with_reducible (first
      | assumption | exact Keeps.refl u | exact Area.sub_trans (by decide) hl | (apply Keeps.ite <;> intro _)
      | fail_if_no_progress refine Keeps.upd_flits_lostFlits ?_ (Area.sub_trans (by decide) hl) | split | dsimp only)

theorem Keeps.ejectFlit (h : Keeps l u s) (x0 x1) (hl : Area.sub [.cores,
    .flits] l = true) : Keeps l u ((State.ejectFlit s x0 x1)) := by
  unfold State.ejectFlit
  try extract_lets
  repeat' with_reducible (first
      | assumption | exact Keeps.refl u | exact Area.sub_trans (by decide) hl | apply Keeps.modCore
      | (apply Keeps.ite <;> intro _)
      | fail_if_no_progress refine Keeps.upd_flits ?_ (Area.sub_trans (by decide) hl) | dsimp only)

theorem Keeps.toPort (h : Keeps l u s) (x0 x1 x2) (hl : Area.sub [.clusters,
    .flits] l = true) : Keeps l u ((State.toPort s x0 x1 x2)) := by
  unfold State.toPort
  try extract_lets
  repeat' with_reducible (first
      | assumption | exact Keeps.refl u | exact Area.sub_trans (by decide) hl | apply Keeps.takeFlit
      | apply Keeps.setCluster | apply Keeps.holdFlit | (apply Keeps.ite <;> intro _) | dsimp only)

theorem Keeps.arrived (h : Keeps l u s) (x0 x1) (hl : Area.sub [.cores, .clusters,
    .flits] l = true) : Keeps l u ((State.arrived s x0 x1)) := by
  unfold State.arrived
  try extract_lets
  repeat' with_reducible (first
      | assumption | exact Keeps.refl u | exact Area.sub_trans (by decide) hl | apply Keeps.ejectFlit
      | apply Keeps.takeFlit | apply Keeps.toPort | (apply Keeps.ite <;> intro _) | split | dsimp only)

theorem Keeps.flitArrival (h : Keeps l u s) (x0 x1) (hl : Area.sub [.cores, .clusters, .flits,
    .lostFlits] l = true) : Keeps l u ((State.flitArrival s x0 x1)) := by
  unfold State.flitArrival
  try extract_lets
  repeat' with_reducible (first
      | assumption | exact Keeps.refl u | exact Area.sub_trans (by decide) hl | apply Keeps.takeFlit
      | apply Keeps.holdFlit | apply Keeps.forward | apply Keeps.ejectFlit | apply Keeps.arrived
      | (apply Keeps.ite <;> intro _) | refine Keeps.foldl (fun _ _ _ => ?_) ?_
      | fail_if_no_progress refine Keeps.upd_lostFlits ?_ (Area.sub_trans (by decide) hl) | dsimp only)

theorem Keeps.thermalTrip (h : Keeps l u s) (x0 x1) (hl : Area.sub [.mem, .chk, .reported, .lines, .regs, .cores,
    .clusters, .mems, .tlbInv, .flits, .lostFlits, .dimmGib, .dimmBanks, .damsons, .channels, .sync, .fab, .hif,
    .power, .board, .ras, .husk, .sec] l = true) : Keeps l u ((State.thermalTrip s x0 x1)) := by
  unfold State.thermalTrip
  try extract_lets
  repeat' with_reducible (first
      | assumption | exact Keeps.refl u | exact Area.sub_trans (by decide) hl | apply Keeps.husk'
      | apply Keeps.railsOff | apply Keeps.releaseSwitches | (apply Keeps.ite <;> intro _)
      | fail_if_no_progress refine Keeps.upd_board ?_ (Area.sub_trans (by decide) hl) | dsimp only)

theorem Keeps.ctxQueue (h : Keeps l u s) (x0) (hl : Area.sub [.host, .reported, .regs, .hif, .board,
    .husk] l = true) : Keeps l u (((State.ctxQueue s x0)).2) := by
  unfold State.ctxQueue
  try extract_lets
  repeat' with_reducible (first
      | assumption | exact Keeps.refl u | exact Area.sub_trans (by decide) hl | apply Keeps.ctxEntry
      | (apply Keeps.ite <;> intro _) | (apply Keeps.itePair <;> intro _) | (apply Keeps.itePair <;> intro _)
      | (apply Keeps.iteTriple <;> intro _) | dsimp only)

theorem Keeps.postReset (h : Keeps l u s) (x0 x1 x2) (hl : Area.sub [.host, .reported, .regs, .hif, .board,
    .husk] l = true) : Keeps l u ((State.postReset s x0 x1 x2)) := by
  unfold State.postReset
  try extract_lets
  repeat' with_reducible (first
      | assumption | exact Keeps.refl u | exact Area.sub_trans (by decide) hl | apply Keeps.postHeld
      | apply Keeps.ctxQueue | apply Keeps.post | (apply Keeps.ite <;> intro _)
      | refine Keeps.foldl (fun _ _ _ => ?_) ?_ | refine Keeps.foldlR (fun _ _ _ => ?_) ?_
      | refine Keeps.foldlR2 (fun _ _ _ => ?_) ?_ | refine Keeps.foldlL (fun _ _ _ => ?_) ?_
      | (apply Keeps.itePair <;> intro _) | (apply Keeps.iteTriple <;> intro _) | dsimp only)

theorem Keeps.postHang (h : Keeps l u s) (x0) (hl : Area.sub [.host, .reported, .regs, .hif, .board,
    .husk] l = true) : Keeps l u ((State.postHang s x0)) := by
  unfold State.postHang
  try extract_lets
  repeat' with_reducible (first
      | assumption | exact Keeps.refl u | exact Area.sub_trans (by decide) hl | apply Keeps.postCtx | dsimp only)

theorem Keeps.failDim (h : Keeps l u s) (x0) (hl : Area.sub [.host, .regs, .fab, .hif, .board,
    .husk] l = true) : Keeps l u ((State.failDim s x0)) := by
  unfold State.failDim
  try dsimp only
  repeat' with_reducible (first
      | assumption | exact Keeps.refl u | exact Area.sub_trans (by decide) hl | apply Keeps.setPortSt
      | apply Keeps.clearFibres | apply Keeps.setJoining | apply Keeps.releaseSwitch
      | (apply Keeps.ite <;> intro _) | dsimp only)

theorem Keeps.moduleAgain (h : Keeps l u s) (x0) (hl : Area.sub [.fresh, .mem, .host, .chk, .reported, .lines,
    .regs, .cores, .clusters, .mems, .tlbInv, .flits, .lostFlits, .dimmGib, .dimmBanks, .damsons, .channels,
    .sync, .fab, .hif, .power, .board, .ras, .husk, .sec] l = true) : Keeps l u ((State.moduleAgain s x0)) := by
  unfold State.moduleAgain
  try extract_lets
  repeat' with_reducible (first
      | assumption | exact Keeps.refl u | exact Area.sub_trans (by decide) hl | apply Keeps.setRf
      | apply Keeps.releaseSwitches | apply Keeps.requestReset | apply Keeps.postReset
      | (apply Keeps.ite <;> intro _)
      | fail_if_no_progress refine Keeps.upd_board ?_ (Area.sub_trans (by decide) hl) | dsimp only)

theorem Keeps.boundPasses (h : Keeps l u s) (x0) (hl : Area.sub [.fresh, .mem, .host, .chk, .reported, .lines,
    .regs, .cores, .clusters, .mems, .tlbInv, .flits, .lostFlits, .dimmGib, .dimmBanks, .damsons, .channels,
    .sync, .fab, .hif, .power, .board, .ras, .husk, .sec] l = true) : Keeps l u ((State.boundPasses s x0)) := by
  unfold State.boundPasses
  try extract_lets
  repeat' with_reducible (first
      | assumption | exact Keeps.refl u | exact Area.sub_trans (by decide) hl | apply Keeps.requestReset
      | apply Keeps.postReset | apply Keeps.postHang | apply Keeps.startFence | apply Keeps.fenceCluster
      | apply Keeps.failDim | apply Keeps.moduleAgain | (apply Keeps.ite <;> intro _)
      | fail_if_no_progress refine Keeps.upd_power_ras ?_ (Area.sub_trans (by decide) hl) | split | dsimp only)

theorem Keeps.countRetry (h : Keeps l u s) (x0) (hl : Area.sub [.cores] l = true) : Keeps l u ((State.countRetry s x0)) := by
  unfold State.countRetry
  try extract_lets
  repeat' with_reducible (first
      | assumption | exact Keeps.refl u | exact Area.sub_trans (by decide) hl | apply Keeps.count | split
      | dsimp only)

theorem Keeps.finishSlot (h : Keeps l u s) (x0 x1) (hl : Area.sub [.cores,
    .sync] l = true) : Keeps l u ((State.finishSlot s x0 x1)) := by
  unfold State.finishSlot
  try extract_lets
  repeat' with_reducible (first
      | assumption | exact Keeps.refl u | exact Area.sub_trans (by decide) hl | apply Keeps.modCore
      | apply Keeps.addsTo | (apply Keeps.ite <;> intro _) | refine Keeps.foldl (fun _ _ _ => ?_) ?_ | dsimp only)

theorem Keeps.resetSlot (h : Keeps l u s) (x0 x1) (hl : Area.sub [.fresh, .mem, .host, .chk, .reported, .lines,
    .regs, .cores, .clusters, .mems, .damsons, .sync, .fab, .hif, .board,
    .husk] l = true) : Keeps l u ((State.resetSlot s x0 x1)) := by
  unfold State.resetSlot; extract_lets x s1 s2 s3 s4 s5
  split
  · exact h
  · have h1 : Keeps l u s1 := by
      simp only [s1]
      split
      · exact Keeps.leaveWaits (hl := Area.sub_trans (by decide) hl) h ..
      · exact h
    have h3 : Keeps l u s3 := Keeps.count (hl := Area.sub_trans (by decide) hl) (Keeps.count (hl := Area.sub_trans (by decide) hl) (Keeps.finishSlot (hl := Area.sub_trans (by decide) hl) (Keeps.modCore (hl := Area.sub_trans (by decide) hl) (Keeps.abandonFab (hl := Area.sub_trans (by decide) hl) h1 ..) ..) ..) ..) ..
    have h4 : Keeps l u s4 := by
      simp only [s4]
      split
      · exact Keeps.writeImage (hl := Area.sub_trans (by decide) hl) h3 ..
      · exact h3
    exact Keeps.freeSlot (hl := Area.sub_trans (by decide) hl) (Keeps.tellPreempt (hl := Area.sub_trans (by decide) hl) (Keeps.postComp (hl := Area.sub_trans (by decide) hl) (Keeps.settle (hl := Area.sub_trans (by decide) hl) h4 ..) ..) ..) ..

theorem Keeps.resetSlots (h : Keeps l u s) (x0 x1) (hl : Area.sub [.fresh, .mem, .host, .chk, .reported, .lines,
    .regs, .cores, .clusters, .mems, .damsons, .sync, .fab, .hif, .board,
    .husk] l = true) : Keeps l u (((State.resetSlots s x0 x1)).2.2) := by
  unfold State.resetSlots
  try extract_lets
  repeat' with_reducible (first
      | assumption | exact Keeps.refl u | exact Area.sub_trans (by decide) hl | apply Keeps.resetSlot
      | (apply Keeps.iteTriple <;> intro _) | refine Keeps.foldl (fun _ _ _ => ?_) ?_
      | refine Keeps.foldlR (fun _ _ _ => ?_) ?_ | refine Keeps.foldlR2 (fun _ _ _ => ?_) ?_
      | refine Keeps.foldlL (fun _ _ _ => ?_) ?_ | dsimp only)

theorem Keeps.resetLists (h : Keeps l u s) (x0) (hl : Area.sub [.fresh, .mem, .host, .chk, .reported, .lines,
    .regs, .cores, .clusters, .mems, .damsons, .sync, .fab, .hif, .board,
    .husk] l = true) : Keeps l u (((State.resetLists s x0)).2.2) := by
  unfold State.resetLists
  try extract_lets
  repeat' with_reducible (first
      | assumption | exact Keeps.refl u | exact Area.sub_trans (by decide) hl | apply Keeps.resetSlots
      | apply Keeps.withdrawEntry | (apply Keeps.iteTriple <;> intro _) | refine Keeps.foldl (fun _ _ _ => ?_) ?_
      | refine Keeps.foldlR (fun _ _ _ => ?_) ?_ | refine Keeps.foldlR2 (fun _ _ _ => ?_) ?_
      | refine Keeps.foldlL (fun _ _ _ => ?_) ?_ | dsimp only)

theorem Keeps.dropCoreReqs (h : Keeps l u s) (x0) (hl : Area.sub [.fab] l = true) : Keeps l u ((State.dropCoreReqs s x0)) := by
  unfold State.dropCoreReqs
  try extract_lets
  repeat' with_reducible (first
      | assumption | exact Keeps.refl u | exact Area.sub_trans (by decide) hl | apply Keeps.freeReq
      | refine Keeps.foldl (fun _ _ _ => ?_) ?_ | dsimp only)

theorem Keeps.endDrain (h : Keeps l u s) (x0) (hl : Area.sub [.fresh, .mem, .host, .chk, .reported, .lines, .regs,
    .cores, .clusters, .mems, .damsons, .sync, .fab, .hif, .board, .ras,
    .husk] l = true) : Keeps l u ((State.endDrain s x0)) := by
  unfold State.endDrain
  try extract_lets
  repeat' with_reducible (first
      | assumption | exact Keeps.refl u | exact Area.sub_trans (by decide) hl | apply Keeps.resetLists
      | apply Keeps.dropCoreReqs | apply Keeps.modCore | apply Keeps.postFence
      | fail_if_no_progress refine Keeps.upd_ras ?_ (Area.sub_trans (by decide) hl) | split
      | refine Keeps.of_triple (by assumption) ?_ | dsimp only)

theorem Keeps.linkTrain (h : Keeps l u s) (hl : Area.sub [.regs,
    .hif] l = true) : Keeps l u ((State.linkTrain s)) := by
  unfold State.linkTrain
  try extract_lets
  repeat' with_reducible (first
      | assumption | exact Keeps.refl u | exact Area.sub_trans (by decide) hl | apply Keeps.setRg
      | (apply Keeps.ite <;> intro _)
      | fail_if_no_progress refine Keeps.upd_hif ?_ (Area.sub_trans (by decide) hl)
      | (apply Keeps.itePair <;> intro _) | (apply Keeps.iteTriple <;> intro _) | split | dsimp only)

theorem Keeps.raiseReady (h : Keeps l u s) (x0) (hl : Area.sub [.host, .regs, .hif, .board,
    .husk] l = true) : Keeps l u ((State.raiseReady s x0)) := by
  unfold State.raiseReady
  try extract_lets
  repeat' with_reducible (first
      | assumption | exact Keeps.refl u | exact Area.sub_trans (by decide) hl | apply Keeps.setRf
      | apply Keeps.postReady | (apply Keeps.ite <;> intro _)
      | fail_if_no_progress refine Keeps.upd_hif ?_ (Area.sub_trans (by decide) hl) | dsimp only)

theorem Keeps.zeroDie (h : Keeps l u s) (hl : Area.sub [.mem, .chk,
    .reported] l = true) : Keeps l u ((State.zeroDie s)) := by
  refine ⟨fun p hp => ?_, fun hw => Memory.wf_filter _ (h.mem hw), h.map, h.fuses⟩
  cases p <;> first
    | exact h.kept _ hp
    | exact absurd (Area.mem_of_sub hl (by decide)) hp
    | exact fun a ha => (State.byte_filter rfl (by intro v; simp; omega)).trans (h.kept _ hp a ha)

theorem Keeps.dieUp (h : Keeps l u s) (hl : Area.sub [.mem, .host, .chk, .reported, .regs, .sync, .hif, .power,
    .board, .husk] l = true) : Keeps l u ((State.dieUp s)) := by
  unfold State.dieUp
  try extract_lets
  repeat' with_reducible (first
      | assumption | exact Keeps.refl u | exact Area.sub_trans (by decide) hl | apply Keeps.retargets
      | apply Keeps.raiseReady | apply Keeps.syncRestart | apply Keeps.zeroDie | dsimp only)

theorem Keeps.sequenceStep (h : Keeps l u s) (hl : Area.sub [.mem, .host, .chk, .reported, .regs, .sync, .hif,
    .power, .board, .husk] l = true) : Keeps l u ((State.sequenceStep s)) := by
  unfold State.sequenceStep
  try extract_lets
  repeat' with_reducible (first
      | assumption | exact Keeps.refl u | exact Area.sub_trans (by decide) hl | apply Keeps.linkTrain
      | apply Keeps.dieUp | apply Keeps.raiseReady | (apply Keeps.ite <;> intro _)
      | fail_if_no_progress refine Keeps.upd_board ?_ (Area.sub_trans (by decide) hl) | dsimp only)

theorem Keeps.suspendStart (h : Keeps l u s) (x0 x1 x2 x3 x4 x5) (hl : Area.sub [.host, .reported, .regs, .cores,
    .hif, .board, .husk] l = true) : Keeps l u ((State.suspendStart s x0 x1 x2 x3 x4 x5)) := by
  unfold State.suspendStart
  try extract_lets
  repeat' with_reducible (first
      | assumption | exact Keeps.refl u | exact Area.sub_trans (by decide) hl | apply Keeps.postFault
      | apply Keeps.setSlot | dsimp only)

theorem Keeps.beginList (h : Keeps l u s) (x0 x1 x2) (hl : Area.sub [.fresh, .mem, .host, .chk, .reported, .regs,
    .cores, .clusters, .mems, .hif, .board, .husk] l = true) : Keeps l u ((State.beginList s x0 x1 x2)) := by
  unfold State.beginList
  try dsimp only
  repeat' with_reducible (first
      | assumption | exact Keeps.refl u | exact Area.sub_trans (by decide) hl | apply Keeps.modCore
      | apply Keeps.setSlot | apply Keeps.charge | apply Keeps.fetchNow | apply Keeps.suspendStart
      | apply Keeps.refuseStart | (apply Keeps.ite <;> intro _) | refine Keeps.foldl (fun _ _ _ => ?_) ?_ | split
      | refine Keeps.of_pair (by assumption) ?_ | dsimp only)

theorem Keeps.walkFault (h : Keeps l u s) (x0 x1 x2 x3 x4) (hl : Area.sub [.host, .reported, .regs, .cores, .hif,
    .board, .husk] l = true) : Keeps l u ((State.walkFault s x0 x1 x2 x3 x4)) := by
  unfold State.walkFault
  try extract_lets
  repeat' with_reducible (first
      | assumption | exact Keeps.refl u | exact Area.sub_trans (by decide) hl | apply Keeps.xltFaultAcc
      | apply Keeps.xltFaultSeq | (apply Keeps.ite <;> intro _) | (apply Keeps.itePair <;> intro _)
      | (apply Keeps.iteTriple <;> intro _) | split | dsimp only)

theorem Keeps.walkLeaf (h : Keeps l u s) (x0 x1 x2 x3 x4 x5) (hl : Area.sub [.fresh, .mem, .host, .chk, .reported,
    .lines, .regs, .cores, .clusters, .mems, .damsons, .sync, .fab, .hif, .board,
    .husk] l = true) : Keeps l u ((State.walkLeaf s x0 x1 x2 x3 x4 x5)) := by
  unfold State.walkLeaf
  try dsimp only
  repeat' with_reducible (first
      | assumption | exact Keeps.refl u | exact Area.sub_trans (by decide) hl | apply Keeps.walkOver
      | apply Keeps.modCore | apply Keeps.walkFault | (apply Keeps.ite <;> intro _) | split | dsimp only)

theorem Keeps.closeFor (h : Keeps l u s) (x0 x1 x2) (hl : Area.sub [.cores] l = true) : Keeps l u ((State.closeFor s x0 x1 x2)) := by
  unfold State.closeFor
  try extract_lets
  repeat' with_reducible (first
      | assumption | exact Keeps.refl u | exact Area.sub_trans (by decide) hl | apply Keeps.modCore
      | (apply Keeps.ite <;> intro _) | dsimp only)

theorem Keeps.bodyClaim (h : Keeps l u s) (x0 x1 x2) (hl : Area.sub [.host, .reported, .regs, .cores, .sync, .fab,
    .hif, .board, .husk] l = true) : Keeps l u (((bodyClaim x0 x1 s x2)).st u) := by
  unfold Machine.bodyClaim
  try extract_lets
  repeat' with_reducible (first
      | assumption | exact Keeps.refl u | exact Area.sub_trans (by decide) hl | apply Keeps.bodySync
      | (apply Keeps.ite <;> intro _) | (apply Keeps.iteSeqRes <;> intro _) | exact Keeps.seqres_stop
      | exact Keeps.seqres_wait | dsimp only)

theorem Keeps.partComplete (h : Keeps l u s) (x0) (hl : Area.sub [.mem, .host, .chk, .reported, .regs, .cores,
    .mems, .damsons, .hif, .board, .husk] l = true) : Keeps l u ((State.partComplete s x0)) := by
  unfold State.partComplete
  try extract_lets
  repeat' with_reducible (first
      | assumption | exact Keeps.refl u | exact Area.sub_trans (by decide) hl | apply Keeps.setDam
      | apply Keeps.engWrite | apply Keeps.progress | (apply Keeps.ite <;> intro _)
      | (apply Keeps.itePair <;> intro _) | (apply Keeps.iteTriple <;> intro _) | split
      | refine Keeps.of_pair (by assumption) ?_ | dsimp only)

theorem Keeps.takeUpdate (h : Keeps l u s) (x0 x1 x2) (hl : Area.sub [.cores, .sync,
    .fab] l = true) : Keeps l u ((State.takeUpdate s x0 x1 x2)) := by
  unfold State.takeUpdate
  try extract_lets
  repeat' with_reducible (first
      | assumption | exact Keeps.refl u | exact Area.sub_trans (by decide) hl | apply Keeps.evalRemote
      | (apply Keeps.ite <;> intro _)
      | fail_if_no_progress refine Keeps.upd_sync ?_ (Area.sub_trans (by decide) hl) | dsimp only)

theorem Keeps.takeFreed (h : Keeps l u s) (x0) (hl : Area.sub [.cores, .sync,
    .fab] l = true) : Keeps l u ((State.takeFreed s x0)) := by
  unfold State.takeFreed
  try extract_lets
  repeat' with_reducible (first
      | assumption | exact Keeps.refl u | exact Area.sub_trans (by decide) hl | apply Keeps.reply
      | (apply Keeps.ite <;> intro _) | refine Keeps.foldl (fun _ _ _ => ?_) ?_
      | fail_if_no_progress refine Keeps.upd_sync ?_ (Area.sub_trans (by decide) hl) | dsimp only)

theorem Keeps.setPwrEn (h : Keeps l u s) (x0) (hl : Area.sub [.regs] l = true) : Keeps l u ((State.setPwrEn s x0)) := by
  unfold State.setPwrEn
  try extract_lets
  repeat' with_reducible (first
      | assumption | exact Keeps.refl u | exact Area.sub_trans (by decide) hl | apply Keeps.setRf | dsimp only)

theorem Keeps.shutHusk (h : Keeps l u s) (hl : Area.sub [.husk] l = true) : Keeps l u ((State.shutHusk s)) := by
  unfold State.shutHusk
  try extract_lets
  repeat' with_reducible (first
      | assumption | exact Keeps.refl u | exact Area.sub_trans (by decide) hl | apply Keeps.writeRecord
      | (apply Keeps.ite <;> intro _) | refine Keeps.foldl (fun _ _ _ => ?_) ?_
      | fail_if_no_progress refine Keeps.upd_husk ?_ (Area.sub_trans (by decide) hl) | dsimp only)

theorem Keeps.pwrEnOff (h : Keeps l u s) (hl : Area.sub [.mem, .chk, .reported, .lines, .regs, .cores, .clusters,
    .mems, .tlbInv, .flits, .lostFlits, .dimmGib, .dimmBanks, .damsons, .channels, .sync, .fab, .hif, .power,
    .board, .ras, .husk, .sec] l = true) : Keeps l u ((State.pwrEnOff s)) := by
  unfold State.pwrEnOff
  try extract_lets
  repeat' with_reducible (first
      | assumption | exact Keeps.refl u | exact Area.sub_trans (by decide) hl | apply Keeps.setPwrEn
      | apply Keeps.railsOff | apply Keeps.shutHusk | apply Keeps.releaseSwitches | (apply Keeps.ite <;> intro _)
      | fail_if_no_progress refine Keeps.upd_board ?_ (Area.sub_trans (by decide) hl) | split | dsimp only)

theorem Keeps.serveRead (h : Keeps l u s) (x0 x1 x2 x3) (hl : Area.sub [.fresh, .mem, .host, .chk, .reported,
    .regs, .mems, .hif, .board, .husk] l = true) : Keeps l u (((State.serveRead s x0 x1 x2 x3)).2) := by
  unfold State.serveRead
  try extract_lets
  repeat' with_reducible (first
      | assumption | exact Keeps.refl u | exact Area.sub_trans (by decide) hl | apply Keeps.remotePlace
      | apply Keeps.readVia | (apply Keeps.itePair <;> intro _) | refine Keeps.foldl (fun _ _ _ => ?_) ?_
      | refine Keeps.foldlR (fun _ _ _ => ?_) ?_ | refine Keeps.foldlR2 (fun _ _ _ => ?_) ?_
      | refine Keeps.foldlL (fun _ _ _ => ?_) ?_ | split | refine Keeps.of_pair (by assumption) ?_ | dsimp only)

theorem Keeps.getPacket (h : Keeps l u s) (x0 x1) (hl : Area.sub [.fresh, .mem, .host, .chk, .reported, .regs,
    .mems, .fab, .hif, .board, .husk] l = true) : Keeps l u ((State.getPacket s x0 x1)) := by
  unfold State.getPacket
  try extract_lets
  repeat' with_reducible (first
      | assumption | exact Keeps.refl u | exact Area.sub_trans (by decide) hl | apply Keeps.serveRead
      | apply Keeps.inject | (apply Keeps.ite <;> intro _) | (apply Keeps.itePair <;> intro _)
      | (apply Keeps.iteTriple <;> intro _) | dsimp only)

theorem Keeps.resetPcie (h : Keeps l u s) (hl : Area.sub [.hif, .board,
    .sec] l = true) : Keeps l u ((State.resetPcie s)) := by
  unfold State.resetPcie
  try extract_lets
  repeat' with_reducible (first
      | assumption | exact Keeps.refl u | exact Area.sub_trans (by decide) hl | (apply Keeps.ite <;> intro _)
      | fail_if_no_progress refine Keeps.upd_hif_board_sec ?_ (Area.sub_trans (by decide) hl) | dsimp only)

theorem Keeps.bodyFence (h : Keeps l u s) (x0 x1 x2) (hl : Area.sub [.cores] l = true) : Keeps l u (((bodyFence x0 x1 s x2)).st u) := by
  unfold Machine.bodyFence
  try extract_lets
  repeat' with_reducible (first
      | assumption | exact Keeps.refl u | exact Area.sub_trans (by decide) hl | apply Keeps.modSlot
      | (apply Keeps.ite <;> intro _) | (apply Keeps.iteSeqRes <;> intro _) | exact Keeps.seqres_stop
      | exact Keeps.seqres_wait | apply Keeps.seqres_done | apply Keeps.seqres_issued | dsimp only)

theorem Keeps.ejected (h : Keeps l u s) (x0) (hl : Area.sub [.cores] l = true) : Keeps l u ((State.ejected s x0)) := by
  unfold State.ejected
  try extract_lets
  repeat' with_reducible (first
      | assumption | exact Keeps.refl u | exact Area.sub_trans (by decide) hl | apply Keeps.modCore | dsimp only)

end Sys2Proof.Machine
end

