-- ==== Sys2Proof/Laws/Keeps6.lean ====
section
/-! SUPPORT. What the operations keep, part 6 of 6: each operation changes only the parts it lists -/

namespace Sys2Proof.Machine

variable {l : List Area} {u s : State}

theorem Keeps.inputOn (h : Keeps l u s) (x0 x1) (hl : Area.sub [.fresh, .mem, .host, .chk, .reported, .lines,
    .regs, .cores, .clusters, .mems, .tlbInv, .flits, .lostFlits, .dimmGib, .dimmBanks, .damsons, .channels,
    .sync, .fab, .hif, .power, .board, .ras, .husk, .sec] l = true) : Keeps l u ((State.inputOn s x0 x1)) := by
  unfold State.inputOn
  try extract_lets
  repeat' with_reducible (first
      | assumption | exact Keeps.refl u | exact Area.sub_trans (by decide) hl | apply Keeps.restartModule
      | apply Keeps.powered | apply Keeps.startRom | apply Keeps.setRf | (apply Keeps.ite <;> intro _)
      | fail_if_no_progress refine Keeps.upd_board ?_ (Area.sub_trans (by decide) hl) | dsimp only)

theorem Keeps.inputLoss (h : Keeps l u s) (x0 x1 x2) (hl : Area.sub [.mem, .chk, .reported, .lines, .regs, .cores,
    .clusters, .mems, .tlbInv, .flits, .lostFlits, .dimmGib, .dimmBanks, .damsons, .channels, .sync, .fab, .hif,
    .power, .board, .ras, .husk, .sec] l = true) : Keeps l u ((State.inputLoss s x0 x1 x2)) := by
  unfold State.inputLoss
  try extract_lets
  repeat' with_reducible (first
      | assumption | exact Keeps.refl u | exact Area.sub_trans (by decide) hl | apply Keeps.railsOff
      | apply Keeps.releaseSwitches | apply Keeps.powerlossRecord | (apply Keeps.ite <;> intro _)
      | fail_if_no_progress refine Keeps.upd_board ?_ (Area.sub_trans (by decide) hl) | dsimp only)

theorem Keeps.writeRegion (h : Keeps l u s) (x0 x1 x2 x3 x4 x5 x6 x7) (hl : Area.sub [.fresh, .mem, .host, .chk,
    .reported, .lines, .regs, .mems, .damsons, .hif, .board,
    .husk] l = true) : Keeps l u ((State.writeRegion s x0 x1 x2 x3 x4 x5 x6 x7)) := by
  unfold State.writeRegion
  try extract_lets
  repeat' with_reducible (first
      | assumption | exact Keeps.refl u | exact Area.sub_trans (by decide) hl | apply Keeps.writeTier
      | apply Keeps.readTier | (apply Keeps.ite <;> intro _) | refine Keeps.foldl (fun _ _ _ => ?_) ?_
      | refine Keeps.foldlR (fun _ _ _ => ?_) ?_ | refine Keeps.foldlR2 (fun _ _ _ => ?_) ?_
      | refine Keeps.foldlL (fun _ _ _ => ?_) ?_ | (apply Keeps.itePair <;> intro _)
      | (apply Keeps.iteTriple <;> intro _) | dsimp only)

theorem Keeps.gangCheck (h : Keeps l u s) (x0) (hl : Area.sub [.damsons] l = true) : Keeps l u (((State.gangCheck s x0)).getD u) := by
  unfold State.gangCheck
  try dsimp only
  repeat' with_reducible (first
      | assumption | exact Keeps.refl u | exact Area.sub_trans (by decide) hl | apply Keeps.setDam
      | (apply Keeps.ite <;> intro _) | (apply Keeps.iteOpt <;> intro _) | apply Keeps.opt_some
      | apply Keeps.opt_none | refine Keeps.foldl (fun _ _ _ => ?_) ?_ | split
      | refine Keeps.of_some (by assumption) ?_ | dsimp only)

theorem Keeps.readRegion (h : Keeps l u s) (x0 x1 x2 x3) (hl : Area.sub [.host, .reported, .regs, .hif, .board,
    .husk] l = true) : Keeps l u (((State.readRegion s x0 x1 x2 x3)).2) := by
  unfold State.readRegion
  try extract_lets
  repeat' with_reducible (first
      | assumption | exact Keeps.refl u | exact Area.sub_trans (by decide) hl | apply Keeps.readLines
      | (apply Keeps.itePair <;> intro _) | dsimp only)

theorem Keeps.writeCopy (h : Keeps l u s) (x0 x1 x2 x3) (hl : Area.sub [.fresh, .mem, .host, .chk, .reported,
    .lines, .regs, .mems, .damsons, .hif, .board, .husk] l = true) : Keeps l u ((State.writeCopy s x0 x1 x2 x3)) := by
  unfold State.writeCopy
  try extract_lets
  repeat' with_reducible (first
      | assumption | exact Keeps.refl u | exact Area.sub_trans (by decide) hl | apply Keeps.writeRegion
      | (apply Keeps.ite <;> intro _) | (apply Keeps.itePair <;> intro _) | (apply Keeps.iteTriple <;> intro _)
      | dsimp only)

theorem Keeps.writeShard (h : Keeps l u s) (x0 x1 x2 x3) (hl : Area.sub [.fresh, .mem, .host, .chk, .reported,
    .lines, .regs, .mems, .damsons, .hif, .board,
    .husk] l = true) : Keeps l u ((State.writeShard s x0 x1 x2 x3)) := by
  unfold State.writeShard
  try dsimp only
  repeat' with_reducible (first
      | assumption | exact Keeps.refl u | exact Area.sub_trans (by decide) hl | apply Keeps.writeRegion
      | apply Keeps.writeCopy | (apply Keeps.ite <;> intro _) | dsimp only)

theorem Keeps.runPart (h : Keeps l u s) (x0 x1 x2) (hl : Area.sub [.fresh, .mem, .host, .chk, .reported, .lines,
    .regs, .mems, .damsons, .hif, .board, .husk] l = true) : Keeps l u ((State.runPart s x0 x1 x2)) := by
  unfold State.runPart; dsimp only; repeat' with_reducible (first
      | assumption | exact Keeps.refl u | exact Area.sub_trans (by decide) hl | apply Keeps.setDam
      | apply Keeps.readRegion | apply Keeps.took | apply Keeps.writeShard | (apply Keeps.ite <;> intro _)
      | (apply Keeps.itePair <;> intro _) | (apply Keeps.iteTriple <;> intro _) | split
      | refine Keeps.of_pair (by assumption) ?_ | dsimp only)

theorem Keeps.partStart (h : Keeps l u s) (x0) (hl : Area.sub [.fresh, .mem, .host, .chk, .reported, .lines,
    .regs, .mems, .damsons, .hif, .board, .husk] l = true) : Keeps l u ((State.partStart s x0)) := by
  unfold State.partStart
  try extract_lets
  repeat' with_reducible (first
      | assumption | exact Keeps.refl u | exact Area.sub_trans (by decide) hl | apply Keeps.gangCheck
      | apply Keeps.runPart | (apply Keeps.ite <;> intro _) | split | refine Keeps.of_some (by assumption) ?_
      | dsimp only)

theorem Keeps.serveTier (h : Keeps l u s) (x0 x1) (hl : Area.sub [.fresh, .mem, .host, .chk, .reported, .lines,
    .regs, .mems, .damsons, .hif, .board, .husk] l = true) : Keeps l u (((State.serveTier s x0 x1)).2) := by
  unfold State.serveTier
  try extract_lets
  repeat' with_reducible (first
      | assumption | exact Keeps.refl u | exact Area.sub_trans (by decide) hl | apply Keeps.readTier
      | apply Keeps.writeTier | apply Keeps.dropWrite | (apply Keeps.ite <;> intro _)
      | (apply Keeps.itePair <;> intro _) | (apply Keeps.itePair <;> intro _)
      | (apply Keeps.iteTriple <;> intro _) | split | refine Keeps.of_pair (by assumption) ?_ | dsimp only)

theorem Keeps.pwrEnOn (h : Keeps l u s) (hl : Area.sub [.fresh, .host, .regs, .hif, .board, .husk,
    .sec] l = true) : Keeps l u ((State.pwrEnOn s)) := by
  unfold State.pwrEnOn
  try extract_lets
  repeat' with_reducible (first
      | assumption | exact Keeps.refl u | exact Area.sub_trans (by decide) hl | apply Keeps.setPwrEn
      | apply Keeps.startRom | apply Keeps.requestRails | (apply Keeps.ite <;> intro _)
      | fail_if_no_progress refine Keeps.upd_board ?_ (Area.sub_trans (by decide) hl) | dsimp only)

theorem Keeps.standWait (h : Keeps l u s) (x0 x1) (hl : Area.sub [.host, .reported, .regs, .sync, .hif, .board,
    .husk] l = true) : Keeps l u ((State.standWait s x0 x1)) := by
  unfold State.standWait
  try extract_lets
  repeat' with_reducible (first
      | assumption | exact Keeps.refl u | exact Area.sub_trans (by decide) hl | apply Keeps.waitTimed
      | (apply Keeps.ite <;> intro _)
      | fail_if_no_progress refine Keeps.upd_sync ?_ (Area.sub_trans (by decide) hl)
      | (apply Keeps.itePair <;> intro _) | (apply Keeps.iteTriple <;> intro _) | dsimp only)

theorem Keeps.unfenceCluster (h : Keeps l u s) (x0 x1) (hl : Area.sub [.fresh, .host, .regs, .cores, .hif, .board,
    .ras, .husk] l = true) : Keeps l u ((State.unfenceCluster s x0 x1)) := by
  unfold State.unfenceCluster
  try extract_lets
  repeat' with_reducible (first
      | assumption | exact Keeps.refl u | exact Area.sub_trans (by decide) hl | apply Keeps.took
      | apply Keeps.postFence | apply Keeps.modCore | (apply Keeps.ite <;> intro _)
      | refine Keeps.foldl (fun _ _ _ => ?_) ?_
      | fail_if_no_progress refine Keeps.upd_ras_husk ?_ (Area.sub_trans (by decide) hl) | dsimp only)

theorem Keeps.quietStop (h : Keeps l u s) (x0 x1) (hl : Area.sub [.fresh, .mem, .host, .chk, .reported, .lines,
    .regs, .cores, .clusters, .mems, .damsons, .sync, .fab, .hif, .board,
    .husk] l = true) : Keeps l u ((State.quietStop s x0 x1)) := by
  unfold State.quietStop
  try extract_lets
  repeat' with_reducible (first
      | assumption | exact Keeps.refl u | exact Area.sub_trans (by decide) hl | apply Keeps.count
      | apply Keeps.modSlot | apply Keeps.drainSlot | apply Keeps.startDrain | (apply Keeps.ite <;> intro _)
      | dsimp only)

theorem Keeps.standTake (h : Keeps l u s) (x0 x1) (hl : Area.sub [.host, .reported, .regs, .sync, .hif, .board,
    .husk] l = true) : Keeps l u ((State.standTake s x0 x1)) := by
  unfold State.standTake
  try extract_lets
  repeat' with_reducible (first
      | assumption | exact Keeps.refl u | exact Area.sub_trans (by decide) hl | apply Keeps.waitTimed
      | fail_if_no_progress refine Keeps.upd_sync ?_ (Area.sub_trans (by decide) hl) | dsimp only)

theorem Keeps.syncEnd (h : Keeps l u s) (x0 x1 x2) (hl : Area.sub [.host, .reported, .regs, .cores, .sync, .fab,
    .hif, .board, .husk] l = true) : Keeps l u ((State.syncEnd s x0 x1 x2)) := by
  unfold State.syncEnd
  try extract_lets
  repeat' with_reducible (first
      | assumption | exact Keeps.refl u | exact Area.sub_trans (by decide) hl | apply Keeps.freeSyncReq
      | apply Keeps.retryPorts | apply Keeps.reply | (apply Keeps.ite <;> intro _)
      | fail_if_no_progress refine Keeps.upd_sync ?_ (Area.sub_trans (by decide) hl) | dsimp only)

theorem Keeps.syncRsp (h : Keeps l u s) (x0 x1) (hl : Area.sub [.host, .reported, .regs, .cores, .sync, .fab,
    .hif, .board, .husk] l = true) : Keeps l u ((State.syncRsp s x0 x1)) := by
  unfold State.syncRsp
  try extract_lets
  repeat' with_reducible (first
      | assumption | exact Keeps.refl u | exact Area.sub_trans (by decide) hl | apply Keeps.discardMsg
      | apply Keeps.standTake | apply Keeps.retryPorts | apply Keeps.standWait | apply Keeps.freeSyncReq
      | apply Keeps.syncEnd | (apply Keeps.ite <;> intro _) | split | dsimp only)

theorem Keeps.savePreempted (h : Keeps l u s) (x0 x1 x2) (hl : Area.sub [.fresh, .mem, .host, .chk, .reported,
    .lines, .regs, .cores, .clusters, .mems, .damsons, .sync, .fab, .hif, .board,
    .husk] l = true) : Keeps l u ((State.savePreempted s x0 x1 x2)) := by
  unfold State.savePreempted
  try extract_lets
  repeat' with_reducible (first
      | assumption | exact Keeps.refl u | exact Area.sub_trans (by decide) hl | apply Keeps.writeImage
      | apply Keeps.postComp | apply Keeps.count | apply Keeps.settle | apply Keeps.afterCore
      | apply Keeps.freeSlot | apply Keeps.tellPreempt | dsimp only)

theorem Keeps.subscribe (h : Keeps l u s) (x0 x1) (hl : Area.sub [.sync,
    .fab] l = true) : Keeps l u ((State.subscribe s x0 x1)) := by
  unfold State.subscribe
  try dsimp only
  repeat' with_reducible (first
      | assumption | exact Keeps.refl u | exact Area.sub_trans (by decide) hl | apply Keeps.sendRsp
      | apply Keeps.inject | (apply Keeps.ite <;> intro _)
      | fail_if_no_progress refine Keeps.upd_sync ?_ (Area.sub_trans (by decide) hl) | split | dsimp only)

theorem Keeps.watchdogTrips (h : Keeps l u s) (hl : Area.sub [.fresh, .mem, .host, .chk, .reported, .lines, .regs,
    .cores, .clusters, .mems, .tlbInv, .flits, .lostFlits, .dimmGib, .dimmBanks, .damsons, .channels, .sync, .fab,
    .hif, .power, .board, .ras, .husk, .sec] l = true) : Keeps l u ((State.watchdogTrips s)) := by
  unfold State.watchdogTrips
  try extract_lets
  repeat' with_reducible (first
      | assumption | exact Keeps.refl u | exact Area.sub_trans (by decide) hl | apply Keeps.railsOff
      | apply Keeps.releaseSwitches | apply Keeps.countCycle | apply Keeps.startRom
      | (apply Keeps.ite <;> intro _)
      | fail_if_no_progress refine Keeps.upd_board ?_ (Area.sub_trans (by decide) hl) | split | dsimp only)

theorem Keeps.bodySetx (h : Keeps l u s) (x0 x1 x2) (hl : Area.sub [.cores] l = true) : Keeps l u (((bodySetx x0 x1 s x2)).st u) := by
  unfold Machine.bodySetx
  try extract_lets
  repeat' with_reducible (first
      | assumption | exact Keeps.refl u | exact Area.sub_trans (by decide) hl | apply Keeps.modSlot
      | exact Keeps.seqres_stop | exact Keeps.seqres_wait | apply Keeps.seqres_done | dsimp only)

theorem Keeps.resumeProducer (h : Keeps l u s) (x0) (hl : Area.sub [.fresh, .mem, .host, .chk, .reported, .lines,
    .regs, .cores, .clusters, .mems, .damsons, .sync, .fab, .hif, .board,
    .husk] l = true) : Keeps l u ((State.resumeProducer s x0)) := by
  unfold State.resumeProducer; dsimp only; repeat' with_reducible (first
      | assumption | exact Keeps.refl u | exact Area.sub_trans (by decide) hl | apply Keeps.modCore
      | apply Keeps.runProgram | (apply Keeps.ite <;> intro _) | split | dsimp only)

theorem Keeps.enterPool (h : Keeps l u s) (x0 x1) (hl : Area.sub [.fresh, .mem, .host, .chk, .reported, .lines,
    .regs, .mems, .damsons, .channels, .hif, .board, .husk] l = true) : Keeps l u ((State.enterPool s x0 x1)) := by
  unfold State.enterPool
  try extract_lets
  repeat' with_reducible (first
      | assumption | exact Keeps.refl u | exact Area.sub_trans (by decide) hl | apply Keeps.readTier
      | apply Keeps.serveTier | apply Keeps.setChan | apply Keeps.setTierReply | (apply Keeps.ite <;> intro _)
      | (apply Keeps.itePair <;> intro _) | (apply Keeps.iteTriple <;> intro _) | split
      | refine Keeps.of_pair (by assumption) ?_ | dsimp only)

theorem Keeps.accessRetryFails (h : Keeps l u s) (x0) (hl : Area.sub [.fresh, .mem, .host, .chk, .reported,
    .lines, .regs, .cores, .clusters, .mems, .damsons, .sync, .fab, .hif, .board,
    .husk] l = true) : Keeps l u ((State.accessRetryFails s x0)) := by
  unfold State.accessRetryFails
  try extract_lets
  repeat' with_reducible (first
      | assumption | exact Keeps.refl u | exact Area.sub_trans (by decide) hl | apply Keeps.afterCore
      | apply Keeps.stopSlot | apply Keeps.stopRun | apply Keeps.stopEntry | apply Keeps.modCore | split | dsimp only)

theorem Keeps.retryFails (h : Keeps l u s) (x0 x1 x2) (hl : Area.sub [.fresh, .mem, .host, .chk, .reported,
    .lines, .regs, .cores, .clusters, .mems, .damsons, .sync, .fab, .hif, .board,
    .husk] l = true) : Keeps l u ((State.retryFails s x0 x1 x2)) := by
  unfold State.retryFails
  cases hc : x2.client with
  | access c => exact Keeps.accessRetryFails (hl := Area.sub_trans (by decide) hl) h ..
  | fetch c sl => exact Keeps.fetchFails (hl := Area.sub_trans (by decide) hl) h ..
  | walk c => exact Keeps.walkLost (hl := Area.sub_trans (by decide) hl) h ..
  | fabric p => exact Keeps.setTierReply (hl := Area.sub_trans (by decide) hl) (Keeps.fabricFails (hl := Area.sub_trans (by decide) hl) h ..) ..
  | hostClass h' => exact Keeps.upd_hif h (Area.sub_trans (by decide) hl)
  | host =>
    cases ho : x2.op with
    | read n => exact Keeps.setTierReply (hl := Area.sub_trans (by decide) hl) h ..
    | write d => exact Keeps.setTierReply (hl := Area.sub_trans (by decide) hl) (Keeps.post (hl := Area.sub_trans (by decide) hl) (Keeps.dropWrite (hl := Area.sub_trans (by decide) hl) h ..) ..) ..
  | _ => exact Keeps.setTierReply (hl := Area.sub_trans (by decide) hl) h ..

theorem Keeps.retryAgain (h : Keeps l u s) (x0) (hl : Area.sub [.fresh, .mem, .host, .chk, .reported, .lines,
    .regs, .cores, .clusters, .mems, .damsons, .channels, .sync, .fab, .hif, .board,
    .husk] l = true) : Keeps l u ((State.retryAgain s x0)) := by
  unfold State.retryAgain
  try extract_lets
  repeat' with_reducible (first
      | assumption | exact Keeps.refl u | exact Area.sub_trans (by decide) hl | apply Keeps.lostReply
      | apply Keeps.setChan | apply Keeps.enterPool | apply Keeps.retryFails | apply Keeps.countRetry
      | (apply Keeps.ite <;> intro _) | split | dsimp only)

theorem Keeps.scrubHalf (h : Keeps l u s) (x0 x1) (hl : Area.sub [.host, .reported, .regs, .mems, .hif, .board,
    .husk] l = true) : Keeps l u ((State.scrubHalf s x0 x1)) := by
  unfold State.scrubHalf
  try extract_lets
  repeat' with_reducible (first
      | assumption | exact Keeps.refl u | exact Area.sub_trans (by decide) hl | apply Keeps.noteFixed
      | apply Keeps.noteBad | split | dsimp only)

theorem Keeps.counterAdd (h : Keeps l u s) (x0) (hl : Area.sub [.host, .regs, .cores, .sync, .fab, .hif, .board,
    .husk] l = true) : Keeps l u ((State.counterAdd s x0)) := by
  unfold State.counterAdd
  try extract_lets
  repeat' with_reducible (first
      | assumption | exact Keeps.refl u | exact Area.sub_trans (by decide) hl | apply Keeps.discardMsg
      | apply Keeps.discard | apply Keeps.changed | apply Keeps.setEnt | (apply Keeps.ite <;> intro _) | split
      | dsimp only)

theorem Keeps.walkResponse (h : Keeps l u s) (x0 x1 x2) (hl : Area.sub [.fresh, .mem, .host, .chk, .reported,
    .lines, .regs, .cores, .clusters, .mems, .damsons, .sync, .fab, .hif, .board,
    .husk] l = true) : Keeps l u ((State.walkResponse s x0 x1 x2)) := by
  unfold State.walkResponse
  try extract_lets
  repeat' with_reducible (first
      | assumption | exact Keeps.refl u | exact Area.sub_trans (by decide) hl | apply Keeps.walkStep
      | apply Keeps.modCore | apply Keeps.walkLeaf | apply Keeps.walkFault | apply Keeps.afterCore
      | apply Keeps.walkFail | split | refine Keeps.of_pair (by assumption) ?_ | dsimp only)

theorem Keeps.unfenceCore (h : Keeps l u s) (x0 x1) (hl : Area.sub [.host, .regs, .cores, .hif, .board, .ras,
    .husk] l = true) : Keeps l u ((State.unfenceCore s x0 x1)) := by
  unfold State.unfenceCore
  try extract_lets
  repeat' with_reducible (first
      | assumption | exact Keeps.refl u | exact Area.sub_trans (by decide) hl | apply Keeps.postFence
      | apply Keeps.modCore | fail_if_no_progress refine Keeps.upd_ras_husk ?_ (Area.sub_trans (by decide) hl)
      | dsimp only)

theorem Keeps.unfence (h : Keeps l u s) (x0) (hl : Area.sub [.fresh, .host, .regs, .cores, .hif, .board, .ras,
    .husk] l = true) : Keeps l u ((State.unfence s x0)) := by
  unfold State.unfence
  try extract_lets
  repeat' with_reducible (first
      | assumption | exact Keeps.refl u | exact Area.sub_trans (by decide) hl | apply Keeps.unfenceCluster
      | apply Keeps.unfenceCore | (apply Keeps.ite <;> intro _) | refine Keeps.foldl (fun _ _ _ => ?_) ?_
      | dsimp only)

theorem Keeps.noteAbsent (h : Keeps l u s) (x0 x1 x2) (hl : Area.sub [.host, .regs, .fab, .hif, .board,
    .husk] l = true) : Keeps l u ((State.noteAbsent s x0 x1 x2)) := by
  unfold State.noteAbsent
  try extract_lets
  repeat' with_reducible (first
      | assumption | exact Keeps.refl u | exact Area.sub_trans (by decide) hl | apply Keeps.postFabric
      | (apply Keeps.ite <;> intro _)
      | fail_if_no_progress refine Keeps.upd_fab ?_ (Area.sub_trans (by decide) hl) | dsimp only)

theorem Keeps.ageReg (h : Keeps l u s) (x0 x1) (hl : Area.sub [.host, .regs, .hif, .board,
    .husk] l = true) : Keeps l u ((State.ageReg s x0 x1)) := by
  unfold State.ageReg
  try extract_lets
  repeat' with_reducible (first
      | assumption | exact Keeps.refl u | exact Area.sub_trans (by decide) hl | apply Keeps.setEol
      | apply Keeps.postAgeing | (apply Keeps.ite <;> intro _)
      | fail_if_no_progress refine Keeps.upd_husk ?_ (Area.sub_trans (by decide) hl) | split | dsimp only)

theorem Keeps.portAccess (h : Keeps l u s) (x0 x1 x2 x3 x4) (hl : Area.sub [.mem, .host, .chk, .reported, .regs,
    .clusters, .mems, .hif, .board, .husk] l = true) : Keeps l u ((State.portAccess s x0 x1 x2 x3 x4)) := by
  unfold State.portAccess
  try extract_lets
  repeat' with_reducible (first
      | assumption | exact Keeps.refl u | exact Area.sub_trans (by decide) hl | apply Keeps.portServed
      | apply Keeps.setSlabReply | apply Keeps.readDie | apply Keeps.writeDie | (apply Keeps.ite <;> intro _)
      | (apply Keeps.itePair <;> intro _) | (apply Keeps.iteTriple <;> intro _) | split
      | refine Keeps.of_pair (by assumption) ?_ | dsimp only)

theorem Keeps.setEff (h : Keeps l u s) (x0 x1) (hl : Area.sub [.regs] l = true) : Keeps l u ((State.setEff s x0 x1)) := by
  unfold State.setEff
  try extract_lets
  repeat' with_reducible (first
      | assumption | exact Keeps.refl u | exact Area.sub_trans (by decide) hl | apply Keeps.setRf | dsimp only)

theorem Keeps.profileDone (h : Keeps l u s) (x0) (hl : Area.sub [.regs,
    .power] l = true) : Keeps l u ((State.profileDone s x0)) := by
  unfold State.profileDone
  try extract_lets
  repeat' with_reducible (first
      | assumption | exact Keeps.refl u | exact Area.sub_trans (by decide) hl | apply Keeps.setStage
      | apply Keeps.applyProfile | apply Keeps.retarget
      | fail_if_no_progress refine Keeps.upd_power ?_ (Area.sub_trans (by decide) hl) | split | dsimp only)

theorem Keeps.profileStep (h : Keeps l u s) (x0) (hl : Area.sub [.regs,
    .power] l = true) : Keeps l u ((State.profileStep s x0)) := by
  unfold State.profileStep
  try extract_lets
  repeat' with_reducible (first
      | assumption | exact Keeps.refl u | exact Area.sub_trans (by decide) hl | apply Keeps.setStage
      | apply Keeps.setEff | apply Keeps.profileDone | split | dsimp only)

theorem Keeps.wakeHalf (h : Keeps l u s) (x0) (hl : Area.sub [.power] l = true) : Keeps l u ((State.wakeHalf s x0)) := by
  unfold State.wakeHalf
  try extract_lets
  repeat' with_reducible (first
      | assumption | exact Keeps.refl u | exact Area.sub_trans (by decide) hl
      | fail_if_no_progress refine Keeps.upd_power ?_ (Area.sub_trans (by decide) hl) | dsimp only)

theorem Keeps.dieMesh (h : Keeps l u s) (hl : Area.sub [.host, .regs, .hif, .board,
    .husk] l = true) : Keeps l u ((State.dieMesh s)) := by
  unfold State.dieMesh
  try extract_lets
  repeat' with_reducible (first
      | assumption | exact Keeps.refl u | exact Area.sub_trans (by decide) hl | apply Keeps.setRf
      | apply Keeps.raiseReady | (apply Keeps.ite <;> intro _) | dsimp only)

theorem Keeps.releaseHc (h : Keeps l u s) (x0) (hl : Area.sub [.hif, .power,
    .ras] l = true) : Keeps l u ((State.releaseHc s x0)) := by
  unfold State.releaseHc
  try extract_lets
  repeat' with_reducible (first
      | assumption | exact Keeps.refl u | exact Area.sub_trans (by decide) hl | apply Keeps.dropCache
      | (apply Keeps.ite <;> intro _)
      | fail_if_no_progress refine Keeps.upd_hif_power_ras ?_ (Area.sub_trans (by decide) hl) | dsimp only)

theorem Keeps.coresBack (h : Keeps l u s) (x0 x1) (hl : Area.sub [.fresh, .mem, .host, .chk, .reported, .lines,
    .regs, .cores, .clusters, .mems, .damsons, .sync, .fab, .hif, .board,
    .husk] l = true) : Keeps l u (((State.coresBack s x0 x1)).2) := by
  unfold State.coresBack
  try extract_lets
  repeat' with_reducible (first
      | assumption | exact Keeps.refl u | exact Area.sub_trans (by decide) hl | apply Keeps.resetLists
      | apply Keeps.setCore | (apply Keeps.ite <;> intro _) | (apply Keeps.itePair <;> intro _)
      | refine Keeps.foldl (fun _ _ _ => ?_) ?_ | refine Keeps.foldlR (fun _ _ _ => ?_) ?_
      | refine Keeps.foldlR2 (fun _ _ _ => ?_) ?_ | refine Keeps.foldlL (fun _ _ _ => ?_) ?_
      | (apply Keeps.itePair <;> intro _) | (apply Keeps.iteTriple <;> intro _) | dsimp only)

theorem Keeps.dieBack (h : Keeps l u s) (hl : Area.sub [.mem, .host, .chk, .reported, .regs, .sync, .hif, .power,
    .board, .husk] l = true) : Keeps l u ((State.dieBack s)) := by
  unfold State.dieBack
  try extract_lets
  repeat' with_reducible (first
      | assumption | exact Keeps.refl u | exact Area.sub_trans (by decide) hl | apply Keeps.raiseReady
      | apply Keeps.dieUp | apply Keeps.raiseRestarts | dsimp only)

theorem Keeps.completeReset (h : Keeps l u s) (x0) (hl : Area.sub [.fresh, .mem, .host, .chk, .reported, .lines,
    .regs, .cores, .clusters, .mems, .damsons, .sync, .fab, .hif, .power, .board, .ras,
    .husk] l = true) : Keeps l u ((State.completeReset s x0)) := by
  unfold State.completeReset
  try extract_lets
  repeat' with_reducible (first
      | assumption | exact Keeps.refl u | exact Area.sub_trans (by decide) hl | apply Keeps.dieMesh
      | apply Keeps.resetSlots | apply Keeps.modCore | apply Keeps.afterCore | apply Keeps.postReset
      | apply Keeps.releaseHc | apply Keeps.coresBack | apply Keeps.unfence | apply Keeps.setDam
      | apply Keeps.dieBack | (apply Keeps.ite <;> intro _)
      | fail_if_no_progress refine Keeps.upd_ras ?_ (Area.sub_trans (by decide) hl)
      | (apply Keeps.itePair <;> intro _) | (apply Keeps.iteTriple <;> intro _) | split
      | refine Keeps.of_triple (by assumption) ?_ | refine Keeps.of_pair (by assumption) ?_ | dsimp only)

theorem Keeps.thermalRestore (h : Keeps l u s) (x0) (hl : Area.sub [.host, .regs, .hif, .power, .board,
    .husk] l = true) : Keeps l u ((State.thermalRestore s x0)) := by
  unfold State.thermalRestore
  try extract_lets
  repeat' with_reducible (first
      | assumption | exact Keeps.refl u | exact Area.sub_trans (by decide) hl | apply Keeps.retarget
      | apply Keeps.post | (apply Keeps.ite <;> intro _)
      | fail_if_no_progress refine Keeps.upd_power ?_ (Area.sub_trans (by decide) hl) | split | dsimp only)

theorem Keeps.endRemote (h : Keeps l u s) (x0) (hl : Area.sub [.cores, .sync,
    .fab] l = true) : Keeps l u ((State.endRemote s x0)) := by
  unfold State.endRemote
  try dsimp only
  repeat' with_reducible (first
      | assumption | exact Keeps.refl u | exact Area.sub_trans (by decide) hl | apply Keeps.resettle
      | (apply Keeps.ite <;> intro _)
      | fail_if_no_progress refine Keeps.upd_sync ?_ (Area.sub_trans (by decide) hl) | split | dsimp only)

theorem Keeps.trained (h : Keeps l u s) (x0 x1) (hl : Area.sub [.host, .regs, .fab, .hif, .board,
    .husk] l = true) : Keeps l u ((State.trained s x0 x1)) := by
  unfold State.trained
  try extract_lets
  repeat' with_reducible (first
      | assumption | exact Keeps.refl u | exact Area.sub_trans (by decide) hl | apply Keeps.setPortSt
      | apply Keeps.setRf | apply Keeps.clearFibres | apply Keeps.setAbsent | (apply Keeps.ite <;> intro _)
      | refine Keeps.foldl (fun _ _ _ => ?_) ?_ | split | dsimp only)

theorem Keeps.portTrained (h : Keeps l u s) (x0 x1) (hl : Area.sub [.host, .regs, .fab, .hif, .board,
    .husk] l = true) : Keeps l u ((State.portTrained s x0 x1)) := by
  unfold State.portTrained
  try extract_lets
  repeat' with_reducible (first
      | assumption | exact Keeps.refl u | exact Area.sub_trans (by decide) hl | apply Keeps.trained
      | apply Keeps.setJoining | (apply Keeps.ite <;> intro _) | dsimp only)

theorem Keeps.notifyPacket (h : Keeps l u s) (x0) (hl : Area.sub [.host, .regs, .cores, .sync, .fab, .hif, .board,
    .husk] l = true) : Keeps l u ((State.notifyPacket s x0)) := by
  unfold State.notifyPacket
  try extract_lets
  repeat' with_reducible (first
      | assumption | exact Keeps.refl u | exact Area.sub_trans (by decide) hl | apply Keeps.inject
      | apply Keeps.counterAdd | dsimp only)

theorem Keeps.serveWrite (h : Keeps l u s) (x0 x1 x2 x3 x4) (hl : Area.sub [.fresh, .mem, .host, .chk, .reported,
    .lines, .regs, .cores, .mems, .damsons, .hif, .board,
    .husk] l = true) : Keeps l u (((State.serveWrite s x0 x1 x2 x3 x4)).2) := by
  unfold State.serveWrite
  try extract_lets
  repeat' with_reducible (first
      | assumption | exact Keeps.refl u | exact Area.sub_trans (by decide) hl | apply Keeps.landData
      | apply Keeps.remotePlace | (apply Keeps.itePair <;> intro _) | refine fun _ _ _ _ => ?_
      | refine fun _ _ _ => ?_ | dsimp only)

theorem Keeps.missedBeats (h : Keeps l u s) (x0) (hl : Area.sub [.fresh, .mem, .host, .chk, .reported, .lines,
    .regs, .cores, .clusters, .mems, .tlbInv, .flits, .lostFlits, .dimmGib, .dimmBanks, .damsons, .channels,
    .sync, .fab, .hif, .power, .board, .ras, .husk, .sec] l = true) : Keeps l u ((State.missedBeats s x0)) := by
  unfold State.missedBeats
  try extract_lets
  repeat' with_reducible (first
      | assumption | exact Keeps.refl u | exact Area.sub_trans (by decide) hl | apply Keeps.postHang
      | apply Keeps.requestReset | apply Keeps.postReset | (apply Keeps.ite <;> intro _)
      | fail_if_no_progress refine Keeps.upd_ras ?_ (Area.sub_trans (by decide) hl) | dsimp only)

theorem Keeps.apWrite (h : Keeps l u s) (x0 x1 x2 x3) (hl : Area.sub [.fresh, .mem, .host, .chk, .reported,
    .lines, .regs, .cores, .mems, .damsons, .hif, .board,
    .husk] l = true) : Keeps l u (((State.apWrite s x0 x1 x2 x3)).2) := by
  unfold State.apWrite; dsimp only; repeat' with_reducible (first
      | assumption | exact Keeps.refl u | exact Area.sub_trans (by decide) hl | apply Keeps.storePlace
      | apply Keeps.bump32 | (apply Keeps.ite <;> intro _) | (apply Keeps.itePair <;> intro _)
      | (apply Keeps.itePair <;> intro _) | (apply Keeps.iteTriple <;> intro _) | split
      | refine Keeps.of_pair (by assumption) ?_ | dsimp only)

theorem Keeps.unmask (h : Keeps l u s) (x0 x1) (hl : Area.sub [.hif] l = true) : Keeps l u ((State.unmask s x0 x1)) := by
  unfold State.unmask
  try extract_lets
  repeat' with_reducible (first
      | assumption | exact Keeps.refl u | exact Area.sub_trans (by decide) hl | (apply Keeps.ite <;> intro _)
      | fail_if_no_progress refine Keeps.upd_hif ?_ (Area.sub_trans (by decide) hl) | dsimp only)

theorem Keeps.barMsix (h : Keeps l u s) (x0 x1 x2) (hl : Area.sub [.hif] l = true) : Keeps l u ((State.barMsix s x0 x1 x2)) := by
  unfold State.barMsix
  try extract_lets
  repeat' with_reducible (first
      | assumption | exact Keeps.refl u | exact Area.sub_trans (by decide) hl | apply Keeps.setReply
      | apply Keeps.unmask | (apply Keeps.ite <;> intro _)
      | fail_if_no_progress refine Keeps.upd_hif ?_ (Area.sub_trans (by decide) hl) | split | dsimp only)

theorem Keeps.apRequest (h : Keeps l u s) (x0 x1 x2 x3) (hl : Area.sub [.fresh, .mem, .host, .chk, .reported,
    .lines, .regs, .cores, .mems, .damsons, .hif, .board,
    .husk] l = true) : Keeps l u ((State.apRequest s x0 x1 x2 x3)) := by
  unfold State.apRequest
  try extract_lets
  repeat' with_reducible (first
      | assumption | exact Keeps.refl u | exact Area.sub_trans (by decide) hl | apply Keeps.apRead
      | apply Keeps.setReply | apply Keeps.apWrite | apply Keeps.writeReply
      | refine Keeps.foldl (fun _ _ _ => ?_) ?_ | refine Keeps.foldlR (fun _ _ _ => ?_) ?_
      | refine Keeps.foldlR2 (fun _ _ _ => ?_) ?_ | refine Keeps.foldlL (fun _ _ _ => ?_) ?_ | split
      | refine Keeps.of_triple (by assumption) ?_ | refine Keeps.of_pair (by assumption) ?_ | dsimp only)

theorem Keeps.barRegs (h : Keeps l u s) (x0 x1 x2 x3) (hl : Area.sub [.fresh, .mem, .host, .chk, .reported,
    .lines, .regs, .cores, .clusters, .mems, .tlbInv, .flits, .lostFlits, .dimmGib, .dimmBanks, .damsons,
    .channels, .sync, .fab, .hif, .power, .board, .ras, .husk,
    .sec] l = true) : Keeps l u ((State.barRegs s x0 x1 x2 x3)) := by
  unfold State.barRegs
  try extract_lets
  repeat' with_reducible (first
      | assumption | exact Keeps.refl u | exact Area.sub_trans (by decide) hl | apply Keeps.apRequest
      | apply Keeps.regRead | apply Keeps.setReply | apply Keeps.regWrite | apply Keeps.refuseWrite
      | (apply Keeps.ite <;> intro _) | split | refine Keeps.of_someR (by assumption) ?_ | dsimp only)

theorem Keeps.barWake (h : Keeps l u s) (x0 x1 x2) (hl : Area.sub [.host, .regs,
    .hif] l = true) : Keeps l u ((State.barWake s x0 x1 x2)) := by
  unfold State.barWake
  try extract_lets
  repeat' with_reducible (first
      | assumption | exact Keeps.refl u | exact Area.sub_trans (by decide) hl | apply Keeps.setReply
      | apply Keeps.wakeRing | (apply Keeps.ite <;> intro _) | split | dsimp only)

theorem Keeps.barAperture (h : Keeps l u s) (x0 x1 x2) (hl : Area.sub [.fresh, .mem, .host, .chk, .reported,
    .lines, .regs, .cores, .mems, .damsons, .hif, .board,
    .husk] l = true) : Keeps l u ((State.barAperture s x0 x1 x2)) := by
  unfold State.barAperture
  try extract_lets
  repeat' with_reducible (first
      | assumption | exact Keeps.refl u | exact Area.sub_trans (by decide) hl | apply Keeps.setReply
      | apply Keeps.refuseWrite | apply Keeps.apRequest | (apply Keeps.ite <;> intro _) | split | dsimp only)

theorem Keeps.hostRequest (h : Keeps l u s) (x0 x1 x2 x3 x4) (hl : Area.sub [.fresh, .mem, .host, .chk, .reported,
    .lines, .regs, .cores, .clusters, .mems, .tlbInv, .flits, .lostFlits, .dimmGib, .dimmBanks, .damsons,
    .channels, .sync, .fab, .hif, .power, .board, .ras, .husk,
    .sec] l = true) : Keeps l u ((State.hostRequest s x0 x1 x2 x3 x4)) := by
  unfold State.hostRequest
  try extract_lets
  repeat' with_reducible (first
      | assumption | exact Keeps.refl u | exact Area.sub_trans (by decide) hl | apply Keeps.setReply
      | apply Keeps.refuseWrite | apply Keeps.barMsix | apply Keeps.wakeHalf | apply Keeps.barRegs
      | apply Keeps.barWake | apply Keeps.barAperture | (apply Keeps.ite <;> intro _) | split | dsimp only)

theorem Keeps.postPower (h : Keeps l u s) (x0) (hl : Area.sub [.host, .regs, .hif, .board,
    .husk] l = true) : Keeps l u ((State.postPower s x0)) := by
  unfold State.postPower
  try extract_lets
  repeat' with_reducible (first
      | assumption | exact Keeps.refl u | exact Area.sub_trans (by decide) hl | apply Keeps.post | dsimp only)

theorem Keeps.tierRequest (h : Keeps l u s) (x0) (hl : Area.sub [.fresh, .mem, .host, .chk, .reported, .lines,
    .regs, .cores, .clusters, .mems, .damsons, .channels, .sync, .fab, .hif, .board,
    .husk] l = true) : Keeps l u ((State.tierRequest s x0)) := by
  unfold State.tierRequest
  try extract_lets
  repeat' with_reducible (first
      | assumption | exact Keeps.refl u | exact Area.sub_trans (by decide) hl | apply Keeps.setTierReply
      | apply Keeps.lostReply | apply Keeps.enterPool | apply Keeps.setChan | apply Keeps.countRetry
      | (apply Keeps.ite <;> intro _) | split | dsimp only)

theorem Keeps.engineHang (h : Keeps l u s) (x0 x1 x2 x3) (hl : Area.sub [.host, .reported, .regs, .hif, .board,
    .husk] l = true) : Keeps l u ((State.engineHang s x0 x1 x2 x3)) := by
  unfold State.engineHang
  try extract_lets
  repeat' with_reducible (first
      | assumption | exact Keeps.refl u | exact Area.sub_trans (by decide) hl | apply Keeps.postHang | split
      | dsimp only)

theorem Keeps.trainTier (h : Keeps l u s) (x0 x1) (hl : Area.sub [.host, .regs, .dimmGib, .dimmBanks, .hif,
    .board, .husk] l = true) : Keeps l u ((State.trainTier s x0 x1)) := by
  unfold State.trainTier
  try extract_lets
  repeat' with_reducible (first
      | assumption | exact Keeps.refl u | exact Area.sub_trans (by decide) hl | apply Keeps.setRg
      | apply Keeps.raiseReady | (apply Keeps.ite <;> intro _)
      | fail_if_no_progress refine Keeps.upd_dimmGib_dimmBanks ?_ (Area.sub_trans (by decide) hl) | split
      | dsimp only)

theorem Keeps.scrubRead (h : Keeps l u s) (x0) (hl : Area.sub [.host, .reported, .regs, .mems, .hif, .board,
    .husk] l = true) : Keeps l u ((State.scrubRead s x0)) := by
  unfold State.scrubRead
  try extract_lets
  repeat' with_reducible (first
      | assumption | exact Keeps.refl u | exact Area.sub_trans (by decide) hl | apply Keeps.setMem
      | apply Keeps.scrubHalf | apply Keeps.scrubPass | (apply Keeps.ite <;> intro _) | split | dsimp only)

theorem Keeps.getData (h : Keeps l u s) (x0 x1) (hl : Area.sub [.fresh, .mem, .host, .chk, .reported, .lines,
    .regs, .cores, .clusters, .mems, .damsons, .sync, .fab, .hif, .board,
    .husk] l = true) : Keeps l u ((State.getData s x0 x1)) := by
  unfold State.getData
  try extract_lets
  repeat' with_reducible (first
      | assumption | exact Keeps.refl u | exact Area.sub_trans (by decide) hl | apply Keeps.lateAnswer
      | apply Keeps.landGet | apply Keeps.answerOk | apply Keeps.answered | (apply Keeps.ite <;> intro _)
      | (apply Keeps.itePair <;> intro _) | (apply Keeps.iteTriple <;> intro _) | split
      | refine Keeps.of_pair (by assumption) ?_ | dsimp only)

theorem Keeps.atomicPacket (h : Keeps l u s) (x0 x1) (hl : Area.sub [.fresh, .mem, .host, .chk, .reported, .lines,
    .regs, .mems, .damsons, .fab, .hif, .board, .husk] l = true) : Keeps l u ((State.atomicPacket s x0 x1)) := by
  unfold State.atomicPacket
  try extract_lets
  repeat' with_reducible (first
      | assumption | exact Keeps.refl u | exact Area.sub_trans (by decide) hl | apply Keeps.inject
      | apply Keeps.remotePlace | apply Keeps.readVia | apply Keeps.writeVia | (apply Keeps.ite <;> intro _)
      | (apply Keeps.itePair <;> intro _) | (apply Keeps.iteTriple <;> intro _) | split
      | refine Keeps.of_pair (by assumption) ?_ | dsimp only)

theorem Keeps.sendOn (h : Keeps l u s) (x0 x1) (hl : Area.sub [.fab] l = true) : Keeps l u ((State.sendOn s x0 x1)) := by
  unfold State.sendOn
  try extract_lets
  repeat' with_reducible (first
      | assumption | exact Keeps.refl u | exact Area.sub_trans (by decide) hl | apply Keeps.setFibre
      | fail_if_no_progress refine Keeps.upd_fab ?_ (Area.sub_trans (by decide) hl) | dsimp only)

theorem Keeps.frameReceive (h : Keeps l u s) (x0 x1 x2) (hl : Area.sub [.host, .regs, .fab, .hif, .board,
    .husk] l = true) : Keeps l u ((State.frameReceive s x0 x1 x2)) := by
  unfold State.frameReceive
  try extract_lets
  repeat' with_reducible (first
      | assumption | exact Keeps.refl u | exact Area.sub_trans (by decide) hl | apply Keeps.setFibre
      | apply Keeps.fibreFails | (apply Keeps.ite <;> intro _)
      | fail_if_no_progress refine Keeps.upd_fab ?_ (Area.sub_trans (by decide) hl) | split | dsimp only)

theorem Keeps.bodyBrk (h : Keeps l u s) (x0 x1 x2) (hl : Area.sub [.cores] l = true) : Keeps l u (((bodyBrk x0 x1 s x2)).st u) := by
  unfold Machine.bodyBrk
  try extract_lets
  repeat' with_reducible (first
      | assumption | exact Keeps.refl u | exact Area.sub_trans (by decide) hl | apply Keeps.setSlot
      | (apply Keeps.ite <;> intro _) | (apply Keeps.iteSeqRes <;> intro _) | exact Keeps.seqres_stop
      | exact Keeps.seqres_wait | apply Keeps.seqres_done | split | refine Keeps.of_eq_SeqRes (by assumption) ?_
      | refine Keeps.of_seqres_done (by assumption) ?_ | dsimp only)

theorem Keeps.bodyCsnap (h : Keeps l u s) (x0 x1 x2) (hl : Area.sub [.fresh, .mem, .host, .chk, .reported, .regs,
    .cores, .mems, .hif, .board, .husk] l = true) : Keeps l u (((bodyCsnap x0 x1 s x2)).st u) := by
  unfold Machine.bodyCsnap
  try extract_lets
  repeat' with_reducible (first
      | assumption | exact Keeps.refl u | exact Area.sub_trans (by decide) hl | apply Keeps.engWrite
      | apply Keeps.took | (apply Keeps.ite <;> intro _) | (apply Keeps.iteSeqRes <;> intro _)
      | exact Keeps.seqres_stop | exact Keeps.seqres_wait | apply Keeps.seqres_done
      | (apply Keeps.itePair <;> intro _) | (apply Keeps.iteTriple <;> intro _) | dsimp only)

theorem Keeps.thermalThrottle (h : Keeps l u s) (x0) (hl : Area.sub [.host, .regs, .hif, .power, .board,
    .husk] l = true) : Keeps l u ((State.thermalThrottle s x0)) := by
  unfold State.thermalThrottle
  try extract_lets
  repeat' with_reducible (first
      | assumption | exact Keeps.refl u | exact Area.sub_trans (by decide) hl | apply Keeps.retarget
      | apply Keeps.post | (apply Keeps.ite <;> intro _)
      | fail_if_no_progress refine Keeps.upd_power ?_ (Area.sub_trans (by decide) hl) | dsimp only)

theorem Keeps.bodyAlux (h : Keeps l u s) (x0 x1 x2) (hl : Area.sub [.cores] l = true) : Keeps l u (((bodyAlux x0 x1 s x2)).st u) := by
  unfold Machine.bodyAlux
  try extract_lets
  repeat' with_reducible (first
      | assumption | exact Keeps.refl u | exact Area.sub_trans (by decide) hl | apply Keeps.setSlot
      | (apply Keeps.ite <;> intro _) | (apply Keeps.iteSeqRes <;> intro _) | exact Keeps.seqres_stop
      | exact Keeps.seqres_wait | apply Keeps.seqres_done | dsimp only)

theorem Keeps.monitorPoison (h : Keeps l u s) (x0 x1 x2) (hl : Area.sub [.damsons] l = true) : Keeps l u ((State.monitorPoison s x0 x1 x2)) := by
  unfold State.monitorPoison
  try extract_lets
  repeat' with_reducible (first
      | assumption | exact Keeps.refl u | exact Area.sub_trans (by decide) hl | apply Keeps.monitorWrite | split
      | dsimp only)

theorem Keeps.poisonLine (h : Keeps l u s) (x0 x1) (hl : Area.sub [.mem, .host, .chk, .reported, .lines, .mems,
    .damsons] l = true) : Keeps l u ((State.poisonLine s x0 x1)) := by
  unfold State.poisonLine
  try extract_lets
  repeat' with_reducible (first
      | assumption | exact Keeps.refl u | exact Area.sub_trans (by decide) hl | apply Keeps.monitorPoison
      | apply Keeps.storeLine | dsimp only)

theorem Keeps.fixTierHalf (h : Keeps l u s) (x0) (hl : Area.sub [.mem, .host,
    .chk] l = true) : Keeps l u ((State.fixTierHalf s x0)) := by
  unfold State.fixTierHalf
  try extract_lets
  repeat' with_reducible (first
      | assumption | exact Keeps.refl u | exact Area.sub_trans (by decide) hl | apply Keeps.putBytes
      | fail_if_no_progress refine Keeps.upd_chk ?_ (Area.sub_trans (by decide) hl) | split | dsimp only)

theorem Keeps.scrubLine (h : Keeps l u s) (x0 x1) (hl : Area.sub [.mem, .host, .chk, .reported, .lines, .regs,
    .mems, .damsons, .hif, .board, .husk] l = true) : Keeps l u ((State.scrubLine s x0 x1)) := by
  unfold State.scrubLine
  try dsimp only
  repeat' with_reducible (first
      | assumption | exact Keeps.refl u | exact Area.sub_trans (by decide) hl | apply Keeps.noteTier
      | apply Keeps.poisonLine | apply Keeps.countCorrected | apply Keeps.fixTierHalf
      | (apply Keeps.ite <;> intro _) | split | dsimp only)

theorem Keeps.setSpdm (h : Keeps l u s) (x0) (hl : Area.sub [.sec] l = true) : Keeps l u ((State.setSpdm s x0)) := by
  unfold State.setSpdm
  try extract_lets
  repeat' with_reducible (first
      | assumption | exact Keeps.refl u | exact Area.sub_trans (by decide) hl
      | fail_if_no_progress refine Keeps.upd_sec ?_ (Area.sub_trans (by decide) hl) | dsimp only)

theorem Keeps.runDescr (h : Keeps l u s) (x0 x1 x2) (hl : Area.sub [.damsons] l = true) : Keeps l u ((State.runDescr s x0 x1 x2)) := by
  unfold State.runDescr
  try extract_lets
  repeat' with_reducible (first
      | assumption | exact Keeps.refl u | exact Area.sub_trans (by decide) hl | apply Keeps.setDam
      | (apply Keeps.ite <;> intro _) | split | dsimp only)

theorem Keeps.descrArrival (h : Keeps l u s) (x0) (hl : Area.sub [.damsons] l = true) : Keeps l u ((State.descrArrival s x0)) := by
  unfold State.descrArrival
  try dsimp only
  repeat' with_reducible (first
      | assumption | exact Keeps.refl u | exact Area.sub_trans (by decide) hl | apply Keeps.runDescr | split
      | dsimp only)

theorem Keeps.registerWrite (h : Keeps l u s) (x0 x1 x2) (hl : Area.sub [.fresh, .mem, .host, .chk, .reported,
    .lines, .regs, .cores, .clusters, .mems, .tlbInv, .flits, .lostFlits, .dimmGib, .dimmBanks, .damsons,
    .channels, .sync, .fab, .hif, .power, .board, .ras, .husk,
    .sec] l = true) : Keeps l u ((State.registerWrite s x0 x1 x2)) := by
  unfold State.registerWrite
  try extract_lets
  repeat' with_reducible (first
      | assumption | exact Keeps.refl u | exact Area.sub_trans (by decide) hl | apply Keeps.hcStore
      | apply Keeps.regWrite | (apply Keeps.ite <;> intro _) | split | refine Keeps.of_someR (by assumption) ?_
      | dsimp only)

theorem Keeps.takePacket (h : Keeps l u s) (x0 x1) (hl : Area.sub [.fab] l = true) : Keeps l u ((State.takePacket s x0 x1)) := by
  unfold State.takePacket
  try extract_lets
  repeat' with_reducible (first
      | assumption | exact Keeps.refl u | exact Area.sub_trans (by decide) hl
      | fail_if_no_progress refine Keeps.upd_fab ?_ (Area.sub_trans (by decide) hl) | split | dsimp only)

theorem Keeps.dropPacket (h : Keeps l u s) (x0 x1) (hl : Area.sub [.fab] l = true) : Keeps l u ((State.dropPacket s x0 x1)) := by
  unfold State.dropPacket
  try extract_lets
  repeat' with_reducible (first
      | assumption | exact Keeps.refl u | exact Area.sub_trans (by decide) hl | apply Keeps.inject
      | (apply Keeps.ite <;> intro _) | dsimp only)

theorem Keeps.wakeBetween (h : Keeps l u s) (x0 x1 x2) (hl : Area.sub [.power] l = true) : Keeps l u ((State.wakeBetween s x0 x1 x2)) := by
  unfold State.wakeBetween
  try extract_lets
  repeat' with_reducible (first
      | assumption | exact Keeps.refl u | exact Area.sub_trans (by decide) hl | apply Keeps.wakeHalf | split
      | dsimp only)

theorem Keeps.routePacket (h : Keeps l u s) (x0 x1) (hl : Area.sub [.fab,
    .power] l = true) : Keeps l u ((State.routePacket s x0 x1)) := by
  unfold State.routePacket
  try extract_lets
  repeat' with_reducible (first
      | assumption | exact Keeps.refl u | exact Area.sub_trans (by decide) hl | apply Keeps.takePacket
      | apply Keeps.dropPacket | apply Keeps.sendOn | apply Keeps.wakeBetween | (apply Keeps.ite <;> intro _)
      | fail_if_no_progress refine Keeps.upd_fab ?_ (Area.sub_trans (by decide) hl) | split | dsimp only)

theorem Keeps.bodyNop (h : Keeps l u s) (x0) (hl : Area.sub [] l = true) : Keeps l u (((bodyNop s x0)).st u) := by
  unfold Machine.bodyNop
  try extract_lets
  repeat' with_reducible (first
      | assumption | exact Keeps.refl u | exact Area.sub_trans (by decide) hl | exact Keeps.seqres_stop
      | exact Keeps.seqres_wait | apply Keeps.seqres_done | dsimp only)

theorem Keeps.waitTimeout (h : Keeps l u s) (x0) (hl : Area.sub [.host, .reported, .regs, .cores, .sync, .fab,
    .hif, .board, .husk] l = true) : Keeps l u ((State.waitTimeout s x0)) := by
  unfold State.waitTimeout
  try extract_lets
  repeat' with_reducible (first
      | assumption | exact Keeps.refl u | exact Area.sub_trans (by decide) hl | apply Keeps.postCtx
      | apply Keeps.reply | apply Keeps.endTake | apply Keeps.prune | apply Keeps.resettle
      | (apply Keeps.ite <;> intro _)
      | fail_if_no_progress refine Keeps.upd_sync ?_ (Area.sub_trans (by decide) hl) | split | dsimp only)

theorem Keeps.i3cWrite (h : Keeps l u s) (x0) (hl : Area.sub [.regs,
    .board] l = true) : Keeps l u ((State.i3cWrite s x0)) := by
  unfold State.i3cWrite
  try extract_lets
  repeat' with_reducible (first
      | assumption | exact Keeps.refl u | exact Area.sub_trans (by decide) hl | apply Keeps.setRg
      | (apply Keeps.ite <;> intro _)
      | fail_if_no_progress refine Keeps.upd_board ?_ (Area.sub_trans (by decide) hl) | split | dsimp only)

theorem Keeps.syncNack (h : Keeps l u s) (x0 x1 x2) (hl : Area.sub [.host, .reported, .regs, .cores, .sync, .fab,
    .hif, .board, .husk] l = true) : Keeps l u ((State.syncNack s x0 x1 x2)) := by
  unfold State.syncNack
  try extract_lets
  repeat' with_reducible (first
      | assumption | exact Keeps.refl u | exact Area.sub_trans (by decide) hl | apply Keeps.syncEnd | dsimp only)

theorem Keeps.nackPacket (h : Keeps l u s) (x0 x1) (hl : Area.sub [.fresh, .mem, .host, .chk, .reported, .lines,
    .regs, .cores, .clusters, .mems, .damsons, .sync, .fab, .hif, .board,
    .husk] l = true) : Keeps l u ((State.nackPacket s x0 x1)) := by
  have ho : ∀ o p : Option State, Keeps l u (o.getD u) → Keeps l u (p.getD u) → Keeps l u ((o.orElse fun _ => p).getD (s.lateAnswer x0 x1)) := by
    intro o p h1 h2
    cases o with
    | some a => exact h1
    | none => cases p with
      | some b => exact h2
      | none => exact Keeps.lateAnswer (hl := Area.sub_trans (by decide) hl) h ..
  have hd : Keeps l u (((s.findReq x1).map (fun r => (s.noteAbsent x0 r.dest x1.status).answered r false x1.status)).getD u) := by
    cases s.findReq x1 with
    | none => exact Keeps.refl u
    | some r => exact Keeps.answered (hl := Area.sub_trans (by decide) hl) (Keeps.noteAbsent (hl := Area.sub_trans (by decide) hl) h ..) ..
  have hs : Keeps l u (((s.findSync x1).map (fun e => (s.noteAbsent x0 (syncTarget e.2) x1.status).syncNack e.1 e.2 x1.status)).getD u) := by
    cases s.findSync x1 with
    | none => exact Keeps.refl u
    | some r => exact Keeps.syncNack (hl := Area.sub_trans (by decide) hl) (Keeps.noteAbsent (hl := Area.sub_trans (by decide) hl) h ..) ..
  unfold State.nackPacket; dsimp only
  split
  · exact ho _ _ hs hd
  · exact ho _ _ hd hs

theorem Keeps.setMon (h : Keeps l u s) (x0 x1 x2) (hl : Area.sub [.cores] l = true) : Keeps l u ((State.setMon s x0 x1 x2)) := by
  unfold State.setMon
  try extract_lets
  repeat' with_reducible (first
      | assumption | exact Keeps.refl u | exact Area.sub_trans (by decide) hl | apply Keeps.modCore | dsimp only)

theorem Keeps.sampleCore (h : Keeps l u s) (x0) (hl : Area.sub [.fresh, .mem, .host, .chk, .reported, .lines,
    .regs, .cores, .clusters, .mems, .tlbInv, .flits, .lostFlits, .dimmGib, .dimmBanks, .damsons, .channels,
    .sync, .fab, .hif, .power, .board, .ras, .husk, .sec] l = true) : Keeps l u ((State.sampleCore s x0)) := by
  unfold State.sampleCore
  try dsimp only
  repeat' with_reducible (first
      | assumption | exact Keeps.refl u | exact Area.sub_trans (by decide) hl | apply Keeps.setMon
      | apply Keeps.engineHang | apply Keeps.requestReset | (apply Keeps.ite <;> intro _)
      | refine Keeps.foldl (fun _ _ _ => ?_) ?_ | refine Keeps.foldlR (fun _ _ _ => ?_) ?_
      | refine Keeps.foldlR2 (fun _ _ _ => ?_) ?_ | refine Keeps.foldlL (fun _ _ _ => ?_) ?_
      | (apply Keeps.itePair <;> intro _) | (apply Keeps.iteTriple <;> intro _) | split | dsimp only)

theorem Keeps.flrRegs (h : Keeps l u s) (x0) (hl : Area.sub [.regs,
    .hif] l = true) : Keeps l u ((State.flrRegs s x0)) := by
  unfold State.flrRegs
  try extract_lets
  repeat' with_reducible (first
      | assumption | exact Keeps.refl u | exact Area.sub_trans (by decide) hl | apply Keeps.setRf
      | (apply Keeps.ite <;> intro _) | refine Keeps.foldl (fun _ _ _ => ?_) ?_
      | fail_if_no_progress refine Keeps.upd_regs_hif ?_ (Area.sub_trans (by decide) hl) | dsimp only)

theorem Keeps.routerAccess (h : Keeps l u s) (x0 x1 x2 x3 x4) (hl : Area.sub [.mem, .host, .chk, .reported, .regs,
    .cores, .mems, .hif, .board, .husk] l = true) : Keeps l u ((State.routerAccess s x0 x1 x2 x3 x4)) := by
  unfold State.routerAccess
  try extract_lets
  repeat' with_reducible (first
      | assumption | exact Keeps.refl u | exact Area.sub_trans (by decide) hl | apply Keeps.setSlabReply
      | apply Keeps.readDie | apply Keeps.aliasWrite | apply Keeps.rewritten | apply Keeps.copyToSlab
      | apply Keeps.writeDie | (apply Keeps.ite <;> intro _) | (apply Keeps.itePair <;> intro _)
      | (apply Keeps.iteTriple <;> intro _) | split | refine Keeps.of_pair (by assumption) ?_ | dsimp only)

theorem Keeps.bodySkip (h : Keeps l u s) (x0 x1 x2) (hl : Area.sub [.fresh, .mem, .host, .chk, .reported, .regs,
    .cores, .mems, .hif, .board, .husk] l = true) : Keeps l u (((bodySkip x0 x1 s x2)).st u) := by
  unfold Machine.bodySkip; dsimp only; repeat' with_reducible (first
      | assumption | exact Keeps.refl u | exact Area.sub_trans (by decide) hl | apply Keeps.checkWith
      | apply Keeps.modSlot | (apply Keeps.ite <;> intro _) | (apply Keeps.iteSeqRes <;> intro _)
      | exact Keeps.seqres_stop | exact Keeps.seqres_wait | apply Keeps.seqres_done | refine fun _ _ _ _ => ?_
      | refine fun _ _ _ => ?_ | dsimp only)

theorem Keeps.flrCore (h : Keeps l u s) (x0 x1) (hl : Area.sub [.fresh, .mem, .host, .chk, .reported, .lines,
    .regs, .cores, .clusters, .mems, .damsons, .sync, .fab, .hif, .board,
    .husk] l = true) : Keeps l u ((State.flrCore s x0 x1)) := by
  unfold State.flrCore
  try extract_lets
  repeat' with_reducible (first
      | assumption | exact Keeps.refl u | exact Area.sub_trans (by decide) hl | apply Keeps.modCore
      | apply Keeps.leaveReady | apply Keeps.afterCore | apply Keeps.quietStop
      | refine Keeps.foldl (fun _ _ _ => ?_) ?_ | dsimp only)

theorem Keeps.flr (h : Keeps l u s) (x0) (hl : Area.sub [.fresh, .mem, .host, .chk, .reported, .lines, .regs,
    .cores, .clusters, .mems, .damsons, .sync, .fab, .hif, .board, .husk,
    .sec] l = true) : Keeps l u ((State.flr s x0)) := by
  unfold State.flr
  try extract_lets
  repeat' with_reducible (first
      | assumption | exact Keeps.refl u | exact Area.sub_trans (by decide) hl | apply Keeps.flrCore
      | apply Keeps.flrRegs | (apply Keeps.ite <;> intro _) | refine Keeps.foldl (fun _ _ _ => ?_) ?_
      | fail_if_no_progress refine Keeps.upd_sec ?_ (Area.sub_trans (by decide) hl) | dsimp only)

theorem Keeps.goIdle (h : Keeps l u s) (x0 x1 x2) (hl : Area.sub [.host, .regs,
    .hif] l = true) : Keeps l u ((State.goIdle s x0 x1 x2)) := by
  unfold State.goIdle
  try extract_lets
  repeat' with_reducible (first
      | assumption | exact Keeps.refl u | exact Area.sub_trans (by decide) hl | apply Keeps.putNumHost
      | apply Keeps.putBytesHost | apply Keeps.putNumRing | apply Keeps.setRf | apply Keeps.readDoorbell
      | apply Keeps.enterPolling | (apply Keeps.ite <;> intro _) | dsimp only)

theorem Keeps.syncPacket (h : Keeps l u s) (x0) (hl : Area.sub [.host, .reported, .regs, .cores, .sync, .fab,
    .hif, .board, .husk] l = true) : Keeps l u ((State.syncPacket s x0)) := by
  unfold State.syncPacket
  try extract_lets
  repeat' with_reducible (first
      | assumption | exact Keeps.refl u | exact Area.sub_trans (by decide) hl | apply Keeps.subscribe
      | apply Keeps.syncAt | apply Keeps.reply | (apply Keeps.ite <;> intro _) | split
      | refine Keeps.of_pair (by assumption) ?_ | dsimp only)

theorem Keeps.putPacket (h : Keeps l u s) (x0 x1) (hl : Area.sub [.fresh, .mem, .host, .chk, .reported, .lines,
    .regs, .cores, .mems, .damsons, .fab, .hif, .board, .husk] l = true) : Keeps l u ((State.putPacket s x0 x1)) := by
  unfold State.putPacket
  try extract_lets
  repeat' with_reducible (first
      | assumption | exact Keeps.refl u | exact Area.sub_trans (by decide) hl | apply Keeps.serveWrite
      | apply Keeps.inject | dsimp only)

theorem Keeps.choose (h : Keeps l u s) (x0 x1) (hl : Area.sub [.clusters,
    .power] l = true) : Keeps l u ((optSnd (State.choose s x0 x1) u)) := by
  unfold State.choose
  try dsimp only
  repeat' with_reducible (first
      | assumption | exact Keeps.refl u | exact Area.sub_trans (by decide) hl | apply Keeps.setCluster
      | (apply Keeps.ite <;> intro _) | (apply Keeps.iteOptR <;> intro _) | apply Keeps.optR_some
      | apply Keeps.optR_none | fail_if_no_progress refine Keeps.upd_power ?_ (Area.sub_trans (by decide) hl)
      | split | refine Keeps.of_someR (by assumption) ?_ | dsimp only)

theorem Keeps.listStart (h : Keeps l u s) (x0) (hl : Area.sub [.fresh, .mem, .host, .chk, .reported, .lines,
    .regs, .cores, .clusters, .mems, .damsons, .sync, .fab, .hif, .power, .board,
    .husk] l = true) : Keeps l u ((State.listStart s x0)) := by
  unfold State.listStart; dsimp only; repeat' with_reducible (first
      | assumption | exact Keeps.refl u | exact Area.sub_trans (by decide) hl | apply Keeps.scanReady
      | apply Keeps.refuseStart | apply Keeps.suspendStart | apply Keeps.choose | apply Keeps.afterCore
      | apply Keeps.beginRestore | apply Keeps.beginList | apply Keeps.modCore | (apply Keeps.ite <;> intro _)
      | split | refine Keeps.of_pair (by assumption) ?_ | refine Keeps.of_someR (by assumption) ?_ | dsimp only)

end Sys2Proof.Machine
end

