-- ==== Sys2Proof/Laws/Launch.lean ====
section
/-! SUPPORT. A command dispatched to an idle engine of a calm core: it starts, or completes at once. -/

namespace Sys2Proof.Machine

@[simp] theorem Core.bumpClaims_queue (k : Core) (ids : List Nat) (e : Nat) : (k.bumpClaims ids).queue e = k.queue e := rfl
@[simp] theorem Core.bumpClaims_run (k : Core) (ids : List Nat) (e : Nat) : (k.bumpClaims ids).run e = k.run e := rfl
@[simp] theorem Core.bumpClaims_slot (k : Core) (ids : List Nat) (i : Nat) : (k.bumpClaims ids).slot i = k.slot i := rfl
@[simp] theorem Core.setQueue_slot (k : Core) (e : Nat) (q : List QEnt) (i : Nat) : (k.setQueue e q).slot i = k.slot i := rfl
@[simp] theorem Core.setQueue_run (k : Core) (e : Nat) (q : List QEnt) (i : Nat) : (k.setQueue e q).run i = k.run i := rfl
@[simp] theorem Core.setSlot_queue (k : Core) (i : Nat) (x : Slot) (e : Nat) : (k.setSlot i x).queue e = k.queue e := rfl
@[simp] theorem Core.setSlot_run (k : Core) (i : Nat) (x : Slot) (e : Nat) : (k.setSlot i x).run e = k.run e := rfl

@[simp] theorem Core.counted_queue (k : Core) (a : KV (BitVec 64)) (b : KV Monitor) (n e : Nat) :
    Core.queue { k with counters := a, mons := b, served := n } e = k.queue e := rfl
@[simp] theorem Core.counted_run (k : Core) (a : KV (BitVec 64)) (b : KV Monitor) (n e : Nat) :
    Core.run { k with counters := a, mons := b, served := n } e = k.run e := rfl
@[simp] theorem Core.counted_slot (k : Core) (a : KV (BitVec 64)) (b : KV Monitor) (n e : Nat) :
    Core.slot { k with counters := a, mons := b, served := n } e = k.slot e := rfl

/-- What counting a command leaves alone. -/
theorem State.issued_core (s : State) (c sl : Nat) :
    ∃ cs ms, (s.issued c sl).core c = { s.core c with counters := cs, mons := ms, served := sl } := by
  unfold State.issued State.progress State.count
  rw [State.core_modCore, State.core_modCore, State.core_modCore]
  exact ⟨_, _, rfl⟩

theorem State.dispatched_core (s : State) (o : OpInfo) (c : CoreId) (sl : SlotId) (w : Cmd) :
    ∃ cs ms, (s.dispatched o c sl w).core c.val =
      Core.setSlot { ((s.core c.val).setQueue o.engine [s.queued o c sl w false]).bumpClaims
        (s.queued o c sl w false).claims with counters := cs, mons := ms, served := sl.val } sl.val
        { s.slot c.val sl.val with pc := BitVec.ofNat 32 ((s.queued o c sl w false).off.toNat + 1) } := by
  obtain ⟨cs, ms, hi⟩ := State.issued_core (s.setCore c.val (((s.core c.val).setQueue o.engine
    [s.queued o c sl w false]).bumpClaims (s.queued o c sl w false).claims)) c.val sl.val
  rw [State.core_setCore] at hi
  refine ⟨cs, ms, ?_⟩
  unfold State.dispatched State.modSlot State.setSlot
  simp only [State.core_modCore, State.slot, hi]
  rfl

theorem State.dispatchTo_ready {o : OpInfo} {s : State} {c : CoreId} {sl : SlotId} {w : Cmd} (h : HeadReady o s c sl w) :
    s.dispatchTo c.val sl.val w o = s.dispatched o c sl w := by
  obtain ⟨⟨hr, hf, hw⟩, he, hc, hu, hroom, htk, hn⟩ := h
  have hq := hc.1 o.engine he
  have hsl : BitVec.toFin (BitVec.ofNat 2 sl.val) = sl := by
    apply Fin.ext; simp
  unfold State.dispatchTo
  dsimp only
  rw [hr, hq]
  have h1 : (o.form w && o.within ((s.core c.val).slot sl.val).hdr (o.resolve ((s.core c.val).slot sl.val) w)) = true := by
    rw [Bool.and_eq_true]; exact ⟨hf, hw⟩
  rw [if_neg (by simp [Nat.not_le.mpr hroom]), h1, if_neg (by decide), hsl, List.nil_append]
  obtain ⟨cs, ms, hi⟩ := State.issued_core (s.setCore c.val (((s.core c.val).setQueue o.engine
    [s.queued o c sl w false]).bumpClaims (s.queued o c sl w false).claims)) c.val sl.val
  rw [State.core_setCore] at hi
  apply State.setPc_stands
  unfold State.slot
  have e : (((s.setCore c.val (((s.core c.val).setQueue o.engine
    [s.queued o c sl w false]).bumpClaims (s.queued o c sl w false).claims)).issued c.val sl.val).core c.val).slot sl.val
      = s.slot c.val sl.val := by rw [hi]; rfl
  exact e.symm ▸ hn

theorem State.headToken_ready {o : OpInfo} {s : State} {c : CoreId} {sl : SlotId} {w : Cmd} (h : HeadReady o s c sl w) :
    (s.dispatched o c sl w).headToken c.val o.engine (s.queued o c sl w false) =
      some (s.headState o c sl w, s.headEntry o c sl w) := by
  have htk := h.token
  obtain ⟨cs, ms, hd⟩ := State.dispatched_core s o c sl w
  unfold State.headToken State.headState State.headEntry
  have hw : (s.queued o c sl w false).w = resolved o s c sl w := rfl
  have hx : ((s.dispatched o c sl w).slot c.val sl.val).toks = (s.slot c.val sl.val).toks := by
    unfold State.slot; rw [hd, Core.slot_setSlot]; rfl
  have hs : (s.queued o c sl w false).slot = sl := rfl
  have hwt : (s.queued o c sl w false).tokenWait = false := rfl
  have htt : (s.queued o c sl w false).tokenTaken = false := rfl
  dsimp only
  rw [hw, hs, hwt, htt]
  cases hwen : cWen (resolved o s c sl w) with
  | false => rfl
  | true =>
    have htok := htk hwen
    have hx2 : ((s.dispatched o c sl w).slot c.val sl.val).tok (cWtok (resolved o s c sl w)) ≠ 0 := by
      unfold Slot.tok; rw [hx]; exact htok
    simp only [Bool.not_true, Bool.false_or, Bool.false_eq_true, if_false, if_true, hx2]
    rfl

/-- The core at which the engine starts the command. -/
theorem State.headState_core (s : State) (o : OpInfo) (c : CoreId) (sl : SlotId) (w : Cmd) :
    (∀ e, ((s.headState o c sl w).core c.val).run e = (s.core c.val).run e) ∧
    (∀ j, Slot.Alike ((s.core c.val).slot j) (((s.headState o c sl w).core c.val).slot j)) ∧
    ((s.headState o c sl w).core c.val).queue o.engine = [s.headEntry o c sl w] ∧
    (∀ f, f ≠ o.engine → ((s.headState o c sl w).core c.val).queue f = (s.core c.val).queue f) := by
  obtain ⟨cs, ms, hd⟩ := State.dispatched_core s o c sl w
  unfold State.headState
  dsimp only
  split
  · rename_i hwen
    have hx : Slot.Alike ((s.core c.val).slot sl.val) ((s.dispatched o c sl w).slot c.val sl.val) := by
      unfold State.slot; rw [hd, Core.slot_setSlot]; exact ⟨rfl, rfl, rfl, rfl, rfl⟩
    rw [State.core_modCore, State.setSlot, State.core_modCore]
    generalize State.slot (s.dispatched o c sl w) c.val sl.val = x at hx
    rw [hd]
    refine ⟨fun _ => rfl, fun j => ?_, ?_, fun f hf => ?_⟩
    · show Slot.Alike _ (Core.slot (Core.setSlot (Core.setSlot _ _ _) _ _) j)
      by_cases e : j = sl.val
      · subst e; rw [Core.slot_setSlot]; exact hx.trans ⟨rfl, rfl, rfl, rfl, rfl⟩
      · rw [Core.slot_setSlot_ne e, Core.slot_setSlot_ne e]; exact Slot.Alike.refl _
    · unfold Core.putHead
      rw [Core.queue_setQueue]
      simp
    · unfold Core.putHead
      rw [Core.queue_setQueue_ne hf]
      simp [Core.queue_setQueue_ne hf]
  · rename_i hwen
    rw [hd]
    refine ⟨fun _ => rfl, fun j => ?_, ?_, fun f hf => ?_⟩
    · show Slot.Alike _ (Core.slot (Core.setSlot _ _ _) j)
      by_cases e : j = sl.val
      · subst e; rw [Core.slot_setSlot]; exact ⟨rfl, rfl, rfl, rfl, rfl⟩
      · rw [Core.slot_setSlot_ne e]; exact Slot.Alike.refl _
    · simp only [Bool.not_eq_true] at hwen
      simp [State.headEntry, hwen]
    · simp [Core.queue_setQueue_ne hf]

/-- A command that its engine can take at once, and that starts, is in execution. -/
theorem State.engCmd_go {o : OpInfo} {s t : State} {c : CoreId} {sl : SlotId} {w : Cmd} {q' : QEnt}
    (h : HeadReady o s c sl w) (hg : startOn (s.headState o c sl w) c.val o.engine (s.headEntry o c sl w) = .go t q')
    (hk : Ctl (s.headState o c sl w) t) (hw : cOpc q'.w ≠ 0x5A) :
    s.engCmd c sl w o = t.launched c.val o.engine q' := by
  obtain ⟨cs, ms, hd⟩ := State.dispatched_core s o c sl w
  obtain ⟨hr, hh, hq, ho⟩ := State.headState_core s o c sl w
  have hc := h.calm
  have hqs : ∀ f, (t.core c.val).queue f = ((s.headState o c sl w).core c.val).queue f := fun f => by
    unfold Core.queue; rw [(hk.same c.val).2.1]
  have hsl : ∀ j, (t.core c.val).slot j = ((s.headState o c sl w).core c.val).slot j := fun j => by
    unfold Core.slot; rw [(hk.same c.val).1]
  have hp : (s.dispatched o c sl w).pump c.val = t.launched c.val o.engine q' := by
    refine State.pump_launch h.engine ?_ ?_ ?_ ?_ (State.headToken_ready h) rfl hg hw ?_ ?_
    · intro x hx; refine hc.2.1 x ?_; rw [hd] at hx; exact hx
    · rw [hd]; simp
    · intro f hf hne; rw [hd]; simp [Core.queue_setQueue_ne hne, hc.1 f hf]
    · rw [hd]; exact h.up
    · rw [hqs, hq]
    · intro f hf hne; rw [hqs, ho f hne]; exact hc.1 f hf
  unfold State.engCmd State.afterCore
  rw [State.dispatchTo_ready h, hp]
  refine State.releaseAll_none _ (fun j hj => ?_)
  have e : ((t.launched c.val o.engine q').core c.val).slot j = (t.core c.val).slot j := by
    obtain ⟨ms, hm⟩ := State.enters_core t c.val o.engine
    unfold State.launched; rw [State.core_modCore, hm]; rfl
  rw [e, hsl]
  exact (hh j).calm (hc.2.2 j (by simp at hj; omega))

/-! ### A command that completes at once -/

/-- Nothing that a core's slots wait for changes: queues, commands in execution, holds. -/
structure Core.Quiet (j k : Core) : Prop where
  queue : ∀ e, k.queue e = j.queue e
  run : ∀ e, k.run e = j.run e
  hold : ∀ i, Slot.Alike (j.slot i) (k.slot i)

theorem Core.Quiet.refl (k : Core) : Core.Quiet k k := ⟨fun _ => rfl, fun _ => rfl, fun _ => Slot.Alike.refl _⟩

theorem Core.Quiet.trans {i j k : Core} (h : Core.Quiet i j) (g : Core.Quiet j k) : Core.Quiet i k :=
  ⟨fun e => (g.queue e).trans (h.queue e), fun e => (g.run e).trans (h.run e), fun e => (h.hold e).trans (g.hold e)⟩

theorem Core.Quiet.setSlot {k : Core} {i : Nat} {x : Slot} (h : Slot.Alike (k.slot i) x) :
    Core.Quiet k (k.setSlot i x) := by
  refine ⟨fun _ => rfl, fun _ => rfl, fun j => ?_⟩
  by_cases e : j = i
  · subst e; rw [Core.slot_setSlot]; exact h
  · rw [Core.slot_setSlot_ne e]; exact Slot.Alike.refl _

theorem Slot.report_alike (x : Slot) (q : QEnt) : Slot.Alike x (x.report q) := by
  unfold Slot.report
  dsimp only
  split <;> exact ⟨rfl, rfl, rfl, rfl, rfl⟩

theorem Slot.post_alike {x y : Slot} {n k : Nat} (h : x.post n k = some y) : Slot.Alike x y := by
  unfold Slot.post at h
  split at h
  · cases h; exact ⟨rfl, rfl, rfl, rfl, rfl⟩
  · cases h

theorem Slot.posted_alike {x y : Slot} {w : Cmd} (h : x.posted w = some y) : Slot.Alike x y := by
  unfold Slot.posted at h
  split at h
  · exact Slot.post_alike h
  · cases h; exact Slot.Alike.refl _

/-- What `t` adds to `s` leaves the waiting of core `c` as it was, and its slots as they were. -/
def State.Stays (c : Nat) (s t : State) : Prop :=
  Core.Quiet (s.core c) (t.core c) ∧ ∀ i, t.slot c i = s.slot c i

theorem State.Stays.trans {c : Nat} {s t u : State} (h : State.Stays c s t) (g : State.Stays c t u) : State.Stays c s u :=
  ⟨h.1.trans g.1, fun i => (g.2 i).trans (h.2 i)⟩

theorem State.Stays.count (s : State) (c o n : Nat) : State.Stays c s (s.count c o n) := by
  unfold State.count
  constructor
  · rw [State.core_modCore]; exact ⟨fun _ => rfl, fun _ => rfl, fun _ => Slot.Alike.refl _⟩
  · intro i; unfold State.slot; rw [State.core_modCore]; rfl

theorem State.Stays.progress (s : State) (c e n : Nat) : State.Stays c s (s.progress c e n) := by
  unfold State.progress
  constructor
  · rw [State.core_modCore]; exact ⟨fun _ => rfl, fun _ => rfl, fun _ => Slot.Alike.refl _⟩
  · intro i; unfold State.slot; rw [State.core_modCore]; rfl

theorem State.Stays.addsTo (s : State) (c : Nat) (q : QEnt) : State.Stays c s (s.addsTo c q) := by
  unfold State.addsTo
  split <;> exact ⟨Core.Quiet.refl _, fun _ => rfl⟩

/-- The end of a command whose token fits leaves every queue as it is. -/
theorem State.finish_quiet {s : State} {c e : Nat} {q : QEnt}
    (hp : (((s.slot c q.slot.val).report q).posted q.w).isSome) :
    Core.Quiet (s.core c) ((s.finish c e q).core c) := by
  obtain ⟨y, hy⟩ := Option.isSome_iff_exists.mp hp
  unfold State.finish
  dsimp only
  rw [hy]
  dsimp only
  have key : ∀ t : State, State.Stays c s t →
      Core.Quiet (s.core c) ((t.modCore c (fun k => (k.setSlot q.slot.val y).dropClaims q.claims)).core c) := by
    intro t ht
    rw [State.core_modCore]
    refine ht.1.trans (Core.Quiet.trans (Core.Quiet.setSlot (x := y) ?_) ⟨fun _ => rfl, fun _ => rfl, fun _ => Slot.Alike.refl _⟩)
    have := ht.2 q.slot.val
    rw [show (t.core c).slot q.slot.val = s.slot c q.slot.val from this]
    exact (Slot.report_alike _ _).trans (Slot.posted_alike hy)
  split
  · exact key _ (State.Stays.count _ _ _ _)
  · exact key _ ⟨Core.Quiet.refl _, fun _ => rfl⟩

theorem State.complete_quiet {s : State} {c e : Nat} {q : QEnt}
    (hp : (((s.slot c q.slot.val).report q).posted q.w).isSome) :
    Core.Quiet (s.core c) ((s.complete c e q).core c) := by
  have key : ∀ t : State, State.Stays c s t → Core.Quiet (s.core c) ((t.finish c e q).core c) := fun t ht =>
    ht.1.trans (State.finish_quiet (by rw [ht.2]; exact hp))
  unfold State.complete
  dsimp only
  split
  · exact key _ (State.Stays.progress _ _ _ _)
  · refine key _ (State.Stays.trans ?_ (State.Stays.addsTo _ _ _))
    cases doneCounter e q.w with
    | none => exact State.Stays.progress _ _ _ _
    | some o => exact (State.Stays.progress _ _ _ _).trans (State.Stays.count _ _ _ _)

/-- A command that has nothing to do completes at once. -/
theorem State.engCmd_fin {o : OpInfo} {s t : State} {c : CoreId} {sl : SlotId} {w : Cmd} {q' : QEnt}
    (h : HeadReady o s c sl w) (hg : startOn (s.headState o c sl w) c.val o.engine (s.headEntry o c sl w) = .fin t q')
    (hk : Ctl (s.headState o c sl w) t)
    (hp : (((t.slot c.val q'.slot.val).report q').posted q'.w).isSome) :
    s.engCmd c sl w o = (t.modCore c.val (fun k => k.pop o.engine)).complete c.val o.engine q' := by
  obtain ⟨cs, ms, hd⟩ := State.dispatched_core s o c sl w
  obtain ⟨hr, hh, hq, ho⟩ := State.headState_core s o c sl w
  have hc := h.calm
  have hqs : ∀ f, (t.core c.val).queue f = ((s.headState o c sl w).core c.val).queue f := fun f => by
    unfold Core.queue; rw [(hk.same c.val).2.1]
  have hsl : ∀ j, (t.core c.val).slot j = ((s.headState o c sl w).core c.val).slot j := fun j => by
    unfold Core.slot; rw [(hk.same c.val).1]
  have hpop : ∀ f, f < 4 → (((t.modCore c.val (fun k => k.pop o.engine)).core c.val)).queue f = [] := by
    intro f hf
    rw [State.core_modCore]
    unfold Core.pop
    by_cases e : f = o.engine
    · subst e; rw [Core.queue_setQueue, hqs, hq]; rfl
    · rw [Core.queue_setQueue_ne e, hqs, ho f e]; exact hc.1 f hf
  have hpp : ((((t.modCore c.val (fun k => k.pop o.engine)).slot c.val q'.slot.val).report q').posted q'.w).isSome := by
    have e : (t.modCore c.val (fun k => k.pop o.engine)).slot c.val q'.slot.val = t.slot c.val q'.slot.val := by
      unfold State.slot; rw [State.core_modCore]; rfl
    rw [e]; exact hp
  have hQ := State.complete_quiet (e := o.engine) hpp
  have hp' : (s.dispatched o c sl w).pump c.val =
      (t.modCore c.val (fun k => k.pop o.engine)).complete c.val o.engine q' := by
    have hqd : ((s.dispatched o c sl w).core c.val).queue o.engine = [s.queued o c sl w false] := by rw [hd]; simp
    refine State.pump_one h.engine ?_ ?_ ?_ (fun f hf => (hQ.queue f).trans (hpop f hf))
    · intro x hx; refine hc.2.1 x ?_; rw [hd] at hx; exact hx
    · intro f hf hne; rw [hd]; simp [Core.queue_setQueue_ne hne, hc.1 f hf]
    · rw [hqd]
      show State.pumpEngine _ _ _ 2 = _
      unfold State.pumpEngine
      rw [hqd, show ((s.dispatched o c sl w).core c.val).stalled o.engine = false by rw [hd]; exact h.up]
      dsimp only
      rw [State.headToken_ready h]
      dsimp only
      rw [show (s.headEntry o c sl w).await = [] from rfl, hg]
      dsimp only [List.isEmpty, Bool.not_true]
      exact State.pumpEngine_empty ((hQ.queue _).trans (hpop _ h.engine)) _
  unfold State.engCmd State.afterCore
  rw [State.dispatchTo_ready h, hp']
  refine State.releaseAll_none _ (fun j hj => ?_)
  refine (hQ.hold j).calm ?_
  rw [State.core_modCore]
  show ((t.core c.val).slot j).calm
  rw [hsl]
  exact (hh j).calm (hc.2.2 j (by simp at hj; omega))

end Sys2Proof.Machine
end

