-- ==== Sys2Proof/Laws/Sequencer.lean ====
section
/-! SUPPORT. A command of the sequencer on a calm core ends, and what it leaves alone. -/

namespace Sys2Proof.Machine

/-- A core with its counters moved on. -/
theorem State.issued_ne {s : State} {c d sl : Nat} (h : d ≠ c) : (s.issued c sl).core d = s.core d := by
  unfold State.issued State.progress State.count
  rw [State.core_modCore_ne h, State.core_modCore_ne h, State.core_modCore_ne h]

theorem State.issued_slot (s : State) (c sl i : Nat) : (s.issued c sl).slot c i = s.slot c i := by
  obtain ⟨cs, ms, h⟩ := State.issued_core s c sl
  unfold State.slot; rw [h]; rfl

theorem State.issued_counter (s : State) (c sl : Nat) :
    KV.get 0 ((s.issued c sl).core c).counters 0x10 = KV.get 0 (s.core c).counters 0x10 + 1 := by
  unfold State.issued State.progress State.count
  rw [State.core_modCore, State.core_modCore, State.core_modCore]
  exact KV.get_put_self _ _ _

/-- A slot that waits for nothing and drains as a calm one is calm. -/
theorem Slot.calm_of {x y : Slot} (h : x.calm) (hh : y.hold = .none) (hd : y.draining = x.draining)
    (ha : y.accessOut = x.accessOut) (hq : y.quiet = x.quiet) (hs : y.stopping = x.stopping) : y.calm := by
  unfold Slot.calm at *
  rw [hh, hd, ha, hq, hs]
  exact ⟨trivial, h.2⟩

/-- The end of a command leaves a slot that waits for nothing, and drains as before. -/
theorem Slot.ended_alike {x y : Slot} {r : Cmd} {pc : Nat} (h : x.ended r pc = some y) : Slot.Alike x y := by
  unfold Slot.ended at h
  obtain ⟨z, hz, rfl⟩ := Option.map_eq_some_iff.mp h
  have : Slot.Alike x z := by
    split at hz
    · exact (Slot.report_alike _ _).trans (Slot.post_alike hz)
    · cases hz; exact Slot.report_alike _ _
  exact this.trans ⟨rfl, rfl, rfl, rfl, rfl⟩

/-- Writing a calm slot to a calm core leaves it calm. -/
theorem calm_put {s : State} {c sl : Nat} {y : Slot} (hc : (s.core c).calm) (hy : y.calm) :
    ((s.setSlot c sl y).core c).calm := by
  unfold State.setSlot; rw [State.core_modCore]
  refine ⟨hc.1, hc.2.1, fun j hj => ?_⟩
  by_cases e : j = sl
  · subst e; rw [Core.slot_setSlot]; exact hy
  · rw [Core.slot_setSlot_ne e]; exact hc.2.2 j hj

theorem calm_issued {s : State} {c sl : Nat} (hc : (s.core c).calm) : ((s.issued c sl).core c).calm := by
  obtain ⟨cs, ms, hi⟩ := State.issued_core s c sl
  rw [hi]
  exact ⟨fun e he => hc.1 e he, fun q hq => hc.2.1 q hq, fun j hj => hc.2.2 j hj⟩

/-- What the sequencer does with a command that its body completes with OK. -/
theorem State.seqCmd_done {o : OpInfo} {s d : State} {c : CoreId} {sl : SlotId} {w : Cmd} {body : State → Cmd → SeqRes}
    {pc : Option Nat} {y : Slot} (hr : Ready o s c sl w) (ht : TokenThere (s.slot c.val sl.val) (resolved o s c sl w))
    (hb : body (s.setSlot c.val sl.val ((s.slot c.val sl.val).takeToken (resolved o s c sl w))) (resolved o s c sl w) =
      .done d stOk pc)
    (hh : (d.slot c.val sl.val).hold = .none) (hc : (d.core c.val).calm)
    (hy : (d.slot c.val sl.val).ended (resolved o s c sl w) (pc.getD ((d.slot c.val sl.val).pc.toNat + 1)) = some y)
    (hs : y.stands (pc.getD ((d.slot c.val sl.val).pc.toNat + 1))) :
    ∃ z, s.seqCmd c sl w o body = ((d.issued c.val sl.val).setSlot c.val sl.val z).setSlot c.val sl.val y ∧
      y.hold = .none := by
  obtain ⟨h1, h2, h3⟩ := hr
  have hrun : s.seqRun c.val sl.val w o body =
      (d.issued c.val sl.val).seqDone c.val sl.val (resolved o s c sl w) stOk pc := by
    unfold State.seqRun
    dsimp only
    rw [h1]
    have e1 : (o.form w && o.within (s.slot c.val sl.val).hdr (o.resolve (s.slot c.val sl.val) w)) = true := by
      rw [Bool.and_eq_true]; exact ⟨h2, h3⟩
    have e2 : (cWen (o.resolve (s.slot c.val sl.val) w) &&
        decide ((s.slot c.val sl.val).tok (cWtok (o.resolve (s.slot c.val sl.val) w)) = 0)) = false := by
      rw [Bool.and_eq_false_imp]; intro hw; exact decide_eq_false (ht hw)
    simp only [Bool.not_true, Bool.false_eq_true, if_false, e1, e2]
    have e3 : body (s.setSlot c.val sl.val
        { (if cWen (o.resolve (s.slot c.val sl.val) w) then (s.slot c.val sl.val).setTok
            (cWtok (o.resolve (s.slot c.val sl.val) w))
            ((s.slot c.val sl.val).tok (cWtok (o.resolve (s.slot c.val sl.val) w)) - 1) else s.slot c.val sl.val) with
          hold := .none }) (o.resolve (s.slot c.val sl.val) w) = .done d stOk pc := hb
    rw [e3]
    rfl
  have hx : (d.issued c.val sl.val).slot c.val sl.val = d.slot c.val sl.val := State.issued_slot _ _ _ _
  have hq : { (d.slot c.val sl.val).report { w := resolved o s c sl w, status := stOk, off := (d.slot c.val sl.val).pc } with
      hold := .none } = (d.slot c.val sl.val).report { w := resolved o s c sl w, status := stOk, off := (d.slot c.val sl.val).pc } := by
    have : ((d.slot c.val sl.val).report { w := resolved o s c sl w, status := stOk, off := (d.slot c.val sl.val).pc }).hold = .none := by
      rw [(Slot.report_alike _ _).hold]; exact hh
    rw [← this]
  have hal := Slot.ended_alike hy
  have hcont : continuing stOk = false := by decide
  unfold Slot.ended at hy
  unfold State.seqCmd
  rw [hrun]
  have hdone : ∃ z, (d.issued c.val sl.val).seqDone c.val sl.val (resolved o s c sl w) stOk pc =
      ((d.issued c.val sl.val).setSlot c.val sl.val z).setSlot c.val sl.val y := by
    unfold State.seqDone
    dsimp only at hy ⊢
    rw [hx, hq, hcont]
    obtain ⟨z, hz, rfl⟩ := Option.map_eq_some_iff.mp hy
    unfold Slot.posted
    rw [hz]
    simp only [Bool.false_eq_true, if_false]
    refine ⟨z, ?_⟩
    rw [State.setPc_stands]
    · unfold State.modSlot; rw [State.slot_setSlot]
    · rw [State.slot_setSlot]; exact hs
  obtain ⟨z, hz⟩ := hdone
  refine ⟨z, ?_, hal.hold.trans hh⟩
  rw [hz]
  apply State.afterCore_calm
  unfold State.setSlot
  rw [State.core_modCore, State.core_modCore]
  have hi := calm_issued (sl := sl.val) hc
  refine ⟨fun e he => hi.1 e he, fun q hq => hi.2.1 q hq, fun j hj => ?_⟩
  by_cases e : j = sl.val
  · subst e; rw [Core.slot_setSlot]; exact hal.calm (hc.2.2 _ hj)
  · rw [Core.slot_setSlot_ne e, Core.slot_setSlot_ne e]; exact hi.2.2 j hj

/-- A command that its body issues and that holds its slot. -/
theorem State.seqCmd_issued {o : OpInfo} {s d : State} {c : CoreId} {sl : SlotId} {w : Cmd} {body : State → Cmd → SeqRes}
    (hr : Ready o s c sl w) (ht : TokenThere (s.slot c.val sl.val) (resolved o s c sl w))
    (hb : body (s.setSlot c.val sl.val ((s.slot c.val sl.val).takeToken (resolved o s c sl w))) (resolved o s c sl w) =
      .issued d) : s.seqCmd c sl w o body = (d.issued c.val sl.val).afterCore c.val := by
  obtain ⟨h1, h2, h3⟩ := hr
  unfold State.seqCmd State.seqRun
  dsimp only
  rw [h1]
  have e1 : (o.form w && o.within (s.slot c.val sl.val).hdr (o.resolve (s.slot c.val sl.val) w)) = true := by
    rw [Bool.and_eq_true]; exact ⟨h2, h3⟩
  have e2 : (cWen (o.resolve (s.slot c.val sl.val) w) &&
      decide ((s.slot c.val sl.val).tok (cWtok (o.resolve (s.slot c.val sl.val) w)) = 0)) = false := by
    rw [Bool.and_eq_false_imp]; intro hw; exact decide_eq_false (ht hw)
  simp only [Bool.not_true, Bool.false_eq_true, if_false, e1, e2]
  have e3 : body (s.setSlot c.val sl.val
      { (if cWen (o.resolve (s.slot c.val sl.val) w) then (s.slot c.val sl.val).setTok
          (cWtok (o.resolve (s.slot c.val sl.val) w))
          ((s.slot c.val sl.val).tok (cWtok (o.resolve (s.slot c.val sl.val) w)) - 1) else s.slot c.val sl.val) with
        hold := .none }) (o.resolve (s.slot c.val sl.val) w) = .issued d := hb
  rw [e3]

/-- The effect of a command of the sequencer, from what its body does. -/
theorem SeqEffect.of_body {i : Instr} {o : OpInfo} {s d : State} {c : CoreId} {sl : SlotId} {w : Cmd}
    {body : State → Cmd → SeqRes} {pc : Option Nat} {x : Slot} (hi : exec i s = .next (s.seqCmd c sl w o body))
    (hr : Ready o s c sl w) (ht : TokenThere (s.slot c.val sl.val) (resolved o s c sl w))
    (hb : body (s.setSlot c.val sl.val ((s.slot c.val sl.val).takeToken (resolved o s c sl w))) (resolved o s c sl w) =
      .done d stOk pc)
    (hx : d.slot c.val sl.val = x) (hh : x.hold = .none) (hc : (d.core c.val).calm) :
    SeqEffect i s d c sl (resolved o s c sl w) x (pc.getD (x.pc.toNat + 1)) := by
  intro y hy hs
  subst hx
  obtain ⟨z, hz, hyh⟩ := State.seqCmd_done hr ht hb hh hc hy hs
  refine ⟨_, hi, ?_⟩
  rw [hz]
  obtain ⟨cs, ms, hcore⟩ := State.issued_core d c.val sl.val
  have hcnt := State.issued_counter d c.val sl.val
  have hk : ((((d.issued c.val sl.val).setSlot c.val sl.val z).setSlot c.val sl.val y).core c.val) =
      Core.setSlot (Core.setSlot { d.core c.val with counters := cs, mons := ms, served := sl.val } sl.val z) sl.val y := by
    unfold State.setSlot; rw [State.core_modCore, State.core_modCore, hcore]
  refine ⟨by rw [State.slot_setSlot], ⟨?_, ?_, ?_, ?_⟩, ?_⟩
  · exact (((Keeps.refl d).issued _ _ (by decide)).setSlot _ _ _ (by decide) |>.setSlot _ _ _ (by decide)).kept
  · intro e he
    unfold State.setSlot
    rw [State.core_modCore_ne he, State.core_modCore_ne he, State.issued_ne he]
  · intro j hj
    unfold State.slot
    rw [hk, Core.slot_setSlot_ne hj, Core.slot_setSlot_ne hj]; rfl
  · exact ⟨_, cs, ms, hk⟩
  · rw [hk, ← hcnt, hcore]; rfl

/-! ### Small lemmas for the bodies -/

theorem answer_true {b : Bool} (h : b = true) (s : State) : answer b s = .next s := by rw [h]; rfl
theorem takeToken_pc (x : Slot) (r : Cmd) : (x.takeToken r).pc = x.pc := by
  unfold Slot.takeToken; dsimp only; split <;> rfl
theorem takeToken_sregs (x : Slot) (r : Cmd) : (x.takeToken r).sregs = x.sregs := by
  unfold Slot.takeToken; dsimp only; split <;> rfl
theorem takeToken_loops (x : Slot) (r : Cmd) : (x.takeToken r).loops = x.loops := by
  unfold Slot.takeToken; dsimp only; split <;> rfl
theorem takeToken_checked (x : Slot) (r : Cmd) : (x.takeToken r).checked = x.checked := by
  unfold Slot.takeToken; dsimp only; split <;> rfl
theorem takeToken_hdr (x : Slot) (r : Cmd) : (x.takeToken r).hdr = x.hdr := by
  unfold Slot.takeToken; dsimp only; split <;> rfl
theorem takeToken_sreg (x : Slot) (r : Cmd) (n : Nat) : (x.takeToken r).sreg n = x.sreg n := by
  unfold Slot.sreg; rw [takeToken_sregs]
theorem takeToken_condOf (x : Slot) (r w : Cmd) : condOf (x.takeToken r) w = condOf x w := by
  unfold condOf; simp only [takeToken_sreg]
theorem loopIndex_hold (x : Slot) (l : LoopLevel) : (x.loopIndex l).hold = x.hold := by
  unfold Slot.loopIndex; split <;> rfl
theorem loopIndex_pc (x : Slot) (l : LoopLevel) : (x.loopIndex l).pc = x.pc := by
  unfold Slot.loopIndex; split <;> rfl

theorem OnlySlot.of_set {c : CoreId} {sl : SlotId} {d t : State} {y : Slot}
    (h : OnlySlot c sl (d.setSlot c.val sl.val y) t) : OnlySlot c sl d t := by
  obtain ⟨h1, h2, h3, ss, cs, ms, h4⟩ := h
  refine ⟨?_, ?_, ?_, ss, cs, ms, ?_⟩
  · intro p hp
    have a := h1 p hp
    have b := ((Keeps.refl (l := [.cores]) d).setSlot c.val sl.val y (by decide)).kept p hp
    cases p <;> first | exact a.trans b | exact fun i hi => (a i hi).trans (b i hi)
  · intro e he; rw [h2 e he]; unfold State.setSlot; rw [State.core_modCore_ne he]
  · intro j hj
    rw [h3 j hj]; unfold State.slot State.setSlot; rw [State.core_modCore, Core.slot_setSlot_ne hj]
  · rw [h4]; unfold State.setSlot; rw [State.core_modCore]; rfl

theorem SeqEffect.of_set {i : Instr} {s d : State} {c : CoreId} {sl : SlotId} {r : Cmd} {x y : Slot} {pc : Nat}
    (h : SeqEffect i s (d.setSlot c.val sl.val y) c sl r x pc) : SeqEffect i s d c sl r x pc := by
  intro z hz hs
  obtain ⟨t, ht, h1, h2, h3⟩ := h z hz hs
  refine ⟨t, ht, h1, h2.of_set, ?_⟩
  rw [h3]; unfold State.setSlot; rw [State.core_modCore]; rfl

theorem takeToken_hold (x : Slot) (r : Cmd) : (x.takeToken r).hold = .none := rfl

theorem setSlot_setSlot_effect {i : Instr} {s d : State} {c : CoreId} {sl : SlotId} {r : Cmd} {x y z : Slot} {pc : Nat}
    (h : SeqEffect i s ((d.setSlot c.val sl.val y).setSlot c.val sl.val z) c sl r x pc) : SeqEffect i s d c sl r x pc :=
  h.of_set.of_set

end Sys2Proof.Machine
end

