-- ==== Sys2Proof/Laws/Slab.lean ====
section
/-! SUPPORT. Reads and writes of the die's memories where every half touched is sound: the data
are the bytes, a write changes just the bytes written. -/

namespace Sys2Proof.Machine

theorem State.bytes_length (s : State) (k : Nat) : ∀ n, (s.bytes k n).length = n
  | 0 => rfl
  | n + 1 => by simp [State.bytes, State.bytes_length s (k + 1) n]

theorem State.bytes_append (s : State) (k m : Nat) : ∀ n, s.bytes k n ++ s.bytes (k + n) m = s.bytes k (n + m) := by
  intro n
  induction n generalizing k with
  | zero => simp [State.bytes]
  | succ n ih =>
    have e : n + 1 + m = (n + m) + 1 := by omega
    have e' : k + (n + 1) = k + 1 + n := by omega
    rw [e, e']
    simp only [State.bytes, List.cons_append, ih (k + 1)]

theorem State.bytes_drop (s : State) (k n : Nat) : ∀ i, i ≤ n → (s.bytes k n).drop i = s.bytes (k + i) (n - i) := by
  intro i
  induction i generalizing k n with
  | zero => intro _; simp
  | succ i ih =>
    intro h
    obtain ⟨n, rfl⟩ : ∃ m, n = m + 1 := ⟨n - 1, by omega⟩
    simp only [State.bytes, List.drop_succ_cons]
    rw [ih (k + 1) n (by omega)]
    congr 1 <;> omega

theorem State.bytes_take (s : State) (k n : Nat) : ∀ i, i ≤ n → (s.bytes k n).take i = s.bytes k i := by
  intro i
  induction i generalizing k n with
  | zero => intro _; simp [State.bytes]
  | succ i ih =>
    intro h
    obtain ⟨n, rfl⟩ : ∃ m, n = m + 1 := ⟨n - 1, by omega⟩
    simp only [State.bytes, List.take_succ_cons]
    rw [ih (k + 1) n (by omega)]

theorem State.bytes_getElem (s : State) (k n i : Nat) (h : i < (s.bytes k n).length) : (s.bytes k n)[i] = s.byte (k + i) := by
  induction n generalizing k i with
  | zero => simp [State.bytes] at h
  | succ n ih =>
    cases i with
    | zero => rfl
    | succ i =>
      simp only [State.bytes, List.getElem_cons_succ]
      rw [ih (k + 1) i]; congr 1; omega

theorem State.readHalf_sound {s : State} {h : Nat} (hs : s.soundHalf h = true) (ctx : Nat) :
    s.readHalf ctx h = ⟨s.bytes (32 * h) 32, stOk, s⟩ := by
  unfold State.soundHalf at hs
  unfold State.readHalf
  split at hs
  · rename_i m hm
    simp only [Bool.and_eq_true, decide_eq_true_eq] at hs
    obtain ⟨⟨h1, h2⟩, h3⟩ := hs
    rw [hm]
    have ha : s.letIn m = some s := by
      unfold State.letIn; rw [h1]; simp [h2]
    have hd : dcheck (KV.get 0 s.chk h) = .good := by rw [h3]; rfl
    simp only [ha, hd]
  · cases hs

theorem State.readHalves_sound {s : State} (ctx : Nat) : ∀ (n h : Nat), (∀ i, i < n → s.soundHalf (h + i) = true) →
    s.readHalves ctx h n = ⟨s.bytes (32 * h) (32 * n), stOk, s⟩
  | 0, h, _ => by simp [State.readHalves, State.bytes]
  | n + 1, h, hs => by
    have h0 := State.readHalf_sound (hs 0 (by omega)) ctx
    have ih := State.readHalves_sound ctx n (h + 1) (fun i hi => by have := hs (i + 1) (by omega); rwa [show h + (i + 1) = h + 1 + i by omega] at this)
    unfold State.readHalves
    simp only [Nat.add_zero] at h0
    rw [h0]
    dsimp only
    rw [ih]
    have e := State.bytes_append s (32 * h) (32 * n) 32
    rw [show 32 * h + 32 = 32 * (h + 1) by omega, show 32 + 32 * n = 32 * (n + 1) by omega] at e
    simp [e]

theorem State.sound_half {s : State} {key n : Nat} (h : s.sound key n = true) {a : Nat} (h1 : key ≤ a) (h2 : a < key + n) :
    s.soundHalf (a / 32) = true := by
  unfold State.sound at h
  have := List.all_eq_true.mp h (a - key) (List.mem_range.mpr (by omega))
  rwa [show key + (a - key) = a by omega] at this

theorem State.sound_of {s : State} {key n : Nat} (h : ∀ a, key ≤ a → a < key + n → s.soundHalf (a / 32) = true) :
    s.sound key n = true :=
  List.all_eq_true.mpr fun i hi => h _ (by omega) (by have := List.mem_range.mp hi; omega)

/-- A read of sound bytes gives them and leaves the state as it is. -/
theorem State.readDie_sound {s : State} {key n : Nat} (h : s.sound key n = true) (ctx : Nat) :
    s.readDie ctx key n = ⟨s.bytes key n, stOk, s⟩ := by
  unfold State.readDie
  split
  · subst_vars; rfl
  · rename_i hn
    dsimp only
    rw [State.readHalves_sound ctx]
    · dsimp only
      rw [State.bytes_drop _ _ _ _ (by omega), State.bytes_take _ _ _ _ (by omega), show 32 * (key / 32) + key % 32 = key by omega]
    · intro i hi
      by_cases e : i = 0
      · subst e; exact State.sound_half h (a := key) (by omega) (by omega)
      · have := State.sound_half h (a := 32 * (key / 32 + i)) (by omega) (by omega)
        rwa [show 32 * (key / 32 + i) / 32 = key / 32 + i by omega] at this

/-- What a write leaves as it was: power states, and check bytes outside the halves written. -/
structure Wrote (s t : State) (key : Nat) (d : List Byte) : Prop where
  kept : KeptBut [.mem, .host, .chk, .reported, .mems] s t
  inside : ∀ i, (h : i < d.length) → t.byte (key + i) = d[i]
  outside : ∀ a, (a < key ∨ key + d.length ≤ a) → t.byte a = s.byte a
  sound : ∀ h, s.soundHalf h = true → t.soundHalf h = true

theorem State.memSt_congr {s t : State} (m : Nat) (h1 : t.sec = s.sec) (h2 : t.husk = s.husk)
    (h3 : (t.memU m).st = (s.memU m).st) : t.memSt m = s.memSt m := by
  unfold State.memSt State.memFailed; rw [h1, h2, h3]

theorem State.dropWb_memU (s : State) (h m : Nat) :
    ((s.dropWb h).memU m).st = (s.memU m).st ∧ ((s.dropWb h).memU m).target = (s.memU m).target := by
  unfold State.dropWb
  split
  · rename_i k hk
    dsimp only
    split
    · unfold State.memU State.setMem
      by_cases e : m = k
      · subst e; rw [KV.get_put_self]; exact ⟨rfl, rfl⟩
      · rw [KV.get_put_ne e]; exact ⟨rfl, rfl⟩
    · exact ⟨rfl, rfl⟩
  · exact ⟨rfl, rfl⟩

theorem State.putBytes_rest (s : State) (k : Nat) (l : List Byte) : s.putBytes k l = { s with mem := (s.putBytes k l).mem } := by
  induction l generalizing s k with
  | nil => rfl
  | cons b l ih => unfold State.putBytes; rw [ih]; rfl

theorem State.dropWb_rest (s : State) (h : Nat) : s.dropWb h = { s with mems := (s.dropWb h).mems } := by
  unfold State.dropWb
  split
  · dsimp only; split <;> rfl
  · rfl

theorem State.storeHalf_rest (s : State) (h : Nat) (d : List Byte) :
    s.storeHalf h d false = { s with mems := (s.dropWb h).mems, mem := (s.putBytes (32 * h) d).mem
                                     chk := KV.put 0 s.chk h 0, reported := KV.put false s.reported h false } := by
  unfold State.storeHalf
  dsimp only
  rw [State.putBytes_rest, State.dropWb_rest]
  have : ∀ (s : State) (m) (k : Nat) (l : List Byte), (State.putBytes { s with mems := m } k l).mem = (s.putBytes k l).mem := by
    intro s m k l
    induction l generalizing s k with
    | nil => rfl
    | cons b l ih => unfold State.putBytes; exact ih (s.putByte k b) (k + 1)
  rw [this]
  rfl

theorem State.storeHalf_wrote {s : State} {h key : Nat} {d e : List Byte} (he : e.length = 32)
    (hk : 32 * h ≤ key) (hn : key + d.length ≤ 32 * h + 32)
    (hd : ∀ i, (hi : i < d.length) → e[key - 32 * h + i]'(by omega) = d[i])
    (ho : ∀ j, (hj : j < 32) → (j < key - 32 * h ∨ key - 32 * h + d.length ≤ j) → e[j] = s.byte (32 * h + j)) :
    Wrote s (s.storeHalf h e false) key d := by
  have hb : ∀ a, (s.storeHalf h e false).byte a = (s.putBytes (32 * h) e).byte a := fun a => by
    rw [State.storeHalf_rest]; rfl
  refine ⟨?_, ?_, ?_, ?_⟩
  · rw [State.storeHalf_rest]
    intro p hp
    cases p
    case mem => exact absurd (by decide) hp
    case host => exact absurd (by decide) hp
    case chk => exact absurd (by decide) hp
    case reported => exact absurd (by decide) hp
    case mems => exact absurd (by decide) hp
    all_goals rfl
  · intro i hi
    rw [hb, show key + i = 32 * h + (key - 32 * h + i) by omega, State.putBytes_byte _ _ _ (by omega)]
    exact hd i hi
  · intro a ha
    rw [hb]
    by_cases hin : 32 * h ≤ a ∧ a < 32 * h + 32
    · have := ho (a - 32 * h) (by omega) (by omega)
      rw [show a = 32 * h + (a - 32 * h) by omega, State.putBytes_byte _ _ _ (by omega)]
      exact this
    · exact State.putBytes_byte_ne (by omega) s
  · intro g hg
    unfold State.soundHalf at hg ⊢
    split at hg
    · rename_i m hm
      simp only [Bool.and_eq_true, decide_eq_true_eq] at hg ⊢
      obtain ⟨⟨h1, h2⟩, h3⟩ := hg
      obtain ⟨k1, k2⟩ := State.dropWb_memU s h m
      have hmem : (s.storeHalf h e false).memU m = (s.dropWb h).memU m := by
        unfold State.memU; rw [State.storeHalf_rest]
      have hc : (s.storeHalf h e false).chk = KV.put 0 s.chk h 0 := by rw [State.storeHalf_rest]
      have hs : (s.storeHalf h e false).sec = s.sec := by rw [State.storeHalf_rest]
      have hu : (s.storeHalf h e false).husk = s.husk := by rw [State.storeHalf_rest]
      refine ⟨⟨?_, ?_⟩, ?_⟩
      · rw [State.memSt_congr m hs hu (by rw [hmem, k1])]; exact h1
      · rw [hmem, k2]; exact h2
      · rw [hc, KV.get_put]; split
        · rfl
        · exact h3
    · cases hg

theorem KeptBut.trans {l : List Area} {a b c : State} (h : KeptBut l a b) (g : KeptBut l b c) : KeptBut l a c := by
  intro p hp
  have x := h p hp
  have y := g p hp
  cases p <;> first | exact y.trans x | exact fun i hi => (y i hi).trans (x i hi)

theorem KeptBut.refl (l : List Area) (a : State) : KeptBut l a a := (Keeps.refl a).kept

theorem Wrote.append {s t u : State} {key : Nat} {d e : List Byte} (h : Wrote s t key d) (g : Wrote t u (key + d.length) e) :
    Wrote s u key (d ++ e) := by
  refine ⟨h.kept.trans g.kept, ?_, ?_, fun i hi => g.sound i (h.sound i hi)⟩
  · intro i hi
    by_cases k : i < d.length
    · rw [List.getElem_append_left k, g.outside _ (by omega)]; exact h.inside i k
    · rw [List.getElem_append_right (by omega)]
      have := g.inside (i - d.length) (by simp at hi; omega)
      rwa [show key + d.length + (i - d.length) = key + i by omega] at this
  · intro a ha
    simp only [List.length_append] at ha
    rw [g.outside _ (by omega), h.outside _ (by omega)]

theorem listSet_length {l d : List Byte} {o : Nat} (h : o + d.length ≤ l.length) : (listSet l o d).length = l.length := by
  simp [listSet]; omega

theorem listSet_in {l d : List Byte} {o i : Nat} (h : o + d.length ≤ l.length) (hi : i < d.length) :
    (listSet l o d)[o + i]'(by rw [listSet_length h]; omega) = d[i] := by
  simp only [listSet]
  rw [List.getElem_append_left (by simp; omega), List.getElem_append_right (by simp)]
  congr 1; simp; omega

theorem listSet_out {l d : List Byte} {o j : Nat} (h : o + d.length ≤ l.length) (hj : j < l.length)
    (ho : j < o ∨ o + d.length ≤ j) : (listSet l o d)[j]'(by rw [listSet_length h]; exact hj) = l[j] := by
  simp only [listSet]
  rcases ho with ho | ho
  · rw [List.getElem_append_left (by simp; omega), List.getElem_append_left (by simp; omega)]
    exact List.getElem_take
  · rw [List.getElem_append_right (by simp; omega)]
    simp only [List.length_append, List.length_take, List.getElem_drop]
    congr 1; omega

/-- Merging bytes into a sound half: the bytes given, the others as they were. -/
theorem State.mergeHalf_sound {s : State} {h : Nat} (hs : s.soundHalf h = true) (ctx o : Nat) (d : List Byte)
    (hd : o + d.length ≤ 32) :
    ∃ e, ∃ he : e.length = 32, s.mergeHalf ctx h o d = ⟨e, stOk, s⟩ ∧
      (∀ i, (hi : i < d.length) → e[o + i]'(by omega) = d[i]) ∧
      (∀ j, (hj : j < 32) → (j < o ∨ o + d.length ≤ j) → e[j] = s.byte (32 * h + j)) := by
  unfold State.mergeHalf
  split
  · rename_i h32
    have ho : o = 0 := by omega
    subst ho
    exact ⟨d, h32, rfl, fun i hi => by congr 1; omega, fun j hj hc => by omega⟩
  · have hl := State.bytes_length s (32 * h) 32
    rw [State.readHalf_sound hs ctx]
    refine ⟨listSet (s.bytes (32 * h) 32) o d, by rw [listSet_length (by rw [hl]; omega)]; exact hl, rfl, ?_, ?_⟩
    · intro i hi
      exact listSet_in (by rw [hl]; omega) hi
    · intro j hj hc
      rw [listSet_out (by rw [hl]; omega) (by rw [hl]; omega) (by omega), State.bytes_getElem]

theorem State.writeWord_sound {s : State} {key : Nat} {d : List Byte} (hs : s.sound key d.length = true)
    (h0 : 0 < d.length) (h64 : key % 64 + d.length ≤ 64) (ctx : Nat) :
    ∃ t, s.writeWord ctx key d false = (stOk, t) ∧ Wrote s t key d := by
  have hk := State.sound_half hs (a := key) (by omega) (by omega)
  have hs' := hk
  unfold State.soundHalf at hs'
  unfold State.writeWord
  dsimp only
  split at hs'
  · rename_i m hm
    simp only [Bool.and_eq_true, decide_eq_true_eq] at hs'
    obtain ⟨⟨h1, h2⟩, h3⟩ := hs'
    rw [hm]
    have ha : s.letIn m = some s := by
      unfold State.letIn; rw [h1]; simp [h2]
    simp only [ha]
    obtain ⟨e, he, hm1, hin, hout⟩ := State.mergeHalf_sound hk ctx (key % 32) (d.take (32 - key % 32)) (by simp; omega)
    rw [hm1]
    split
    · rename_i hle
      have hd : d.take (32 - key % 32) = d := List.take_of_length_le hle
      refine ⟨_, rfl, State.storeHalf_wrote he (by omega) (by omega) ?_ ?_⟩
      · intro i hi
        have := hin i (by rw [hd]; exact hi)
        simp only [hd] at this
        rw [← this]; congr 1; omega
      · intro j hj hc
        exact hout j hj (by rw [hd]; omega)
    · rename_i hgt
      have hlt : (d.take (32 - key % 32)).length = 32 - key % 32 := by simp; omega
      have hk2 := State.sound_half hs (a := 32 * (key / 32 + 1)) (by omega) (by omega)
      rw [show 32 * (key / 32 + 1) / 32 = key / 32 + 1 by omega] at hk2
      obtain ⟨f, hf, hm2, fin, fout⟩ := State.mergeHalf_sound hk2 ctx 0 (d.drop (32 - key % 32)) (by simp; omega)
      dsimp only
      rw [hm2]
      dsimp only
      have w1 : Wrote s (s.storeHalf (key / 32) e false) key (d.take (32 - key % 32)) := by
        refine State.storeHalf_wrote he (by omega) (by omega) ?_ ?_
        · intro i hi
          rw [← hin i hi]; congr 1; omega
        · intro j hj hc
          exact hout j hj (by omega)
      have w2 : Wrote (s.storeHalf (key / 32) e false) ((s.storeHalf (key / 32) e false).storeHalf (key / 32 + 1) f false)
          (key + (d.take (32 - key % 32)).length) (d.drop (32 - key % 32)) := by
        refine State.storeHalf_wrote hf (by omega) (by simp; omega) ?_ ?_
        · intro i hi
          rw [← fin i hi]; congr 1; omega
        · intro j hj hc
          rw [w1.outside _ (by omega)]
          exact fout j hj (by omega)
      have hcat := List.take_append_drop (32 - key % 32) d
      refine ⟨_, rfl, ?_⟩
      have := Wrote.append w1 w2
      rwa [hcat] at this
  · cases hs'

theorem State.writeFrom_sound (ctx : Nat) : ∀ (n : Nat) {s : State} {key : Nat} {d : List Byte},
    s.sound key d.length = true → key % 64 + d.length ≤ 64 * n →
    ∃ t, s.writeFrom ctx key d false n = (stOk, t) ∧ Wrote s t key d
  | 0, s, key, d, _, hn => by
    have : d = [] := List.eq_nil_of_length_eq_zero (by omega)
    subst this
    exact ⟨s, rfl, ⟨KeptBut.refl _ _, fun i hi => by simp at hi, fun _ _ => rfl, fun _ h => h⟩⟩
  | n + 1, s, key, d, hs, hn => by
    unfold State.writeFrom
    split
    · rename_i he
      have : d = [] := List.isEmpty_iff.mp he
      subst this
      exact ⟨s, rfl, ⟨KeptBut.refl _ _, fun i hi => by simp at hi, fun _ _ => rfl, fun _ h => h⟩⟩
    · rename_i he
      have hd : 0 < d.length := by
        rcases d with _ | ⟨x, d⟩
        · simp at he
        · simp
      obtain ⟨t, ht, hw⟩ := State.writeWord_sound (s := s) (key := key) (d := d.take (64 - key % 64))
        (State.sound_of fun a h1 h2 => State.sound_half hs (by omega) (by simp at h2; omega)) (by simp; omega)
        (by simp; omega) ctx
      have hsnd : t.sound (key + (64 - key % 64)) (d.drop (64 - key % 64)).length = true :=
        State.sound_of fun a h1 h2 => hw.sound _ (State.sound_half hs (by omega) (by simp at h2; omega))
      obtain ⟨u, hu, hv⟩ := State.writeFrom_sound ctx n hsnd (by simp; omega)
      dsimp only
      rw [ht]
      dsimp only
      rw [hu]
      refine ⟨u, by simp, ?_⟩
      have hcat := List.take_append_drop (64 - key % 64) d
      rw [← hcat]
      by_cases hlong : 64 - key % 64 ≤ d.length
      · refine Wrote.append hw ?_
        rw [show (d.take (64 - key % 64)).length = 64 - key % 64 by simp; omega]
        exact hv
      · have e1 : d.drop (64 - key % 64) = [] := List.drop_eq_nil_of_le (by omega)
        rw [e1] at hv ⊢
        rw [List.append_nil]
        exact ⟨hw.kept.trans hv.kept, fun i hi => by rw [hv.outside _ (by simp; omega)]; exact hw.inside i hi,
          fun a ha => by rw [hv.outside _ (by simp; omega)]; exact hw.outside a ha, fun i hi => hv.sound i (hw.sound i hi)⟩

/-- A write of sound bytes is carried out, and changes just the bytes written. -/
theorem State.writeDie_sound {s : State} {key : Nat} {d : List Byte} (h : s.sound key d.length = true) (ctx : Nat) :
    ∃ t, s.writeDie ctx key d = (stOk, t) ∧ Wrote s t key d :=
  State.writeFrom_sound ctx _ h (by omega)

/-- Soundness rests on four parts of the state. -/
theorem State.soundHalf_congr {s t : State} (h1 : t.mems = s.mems) (h2 : t.chk = s.chk) (h3 : t.sec = s.sec)
    (h4 : t.husk = s.husk) (g : Nat) : t.soundHalf g = s.soundHalf g := by
  unfold State.soundHalf State.memSt State.memFailed State.memU; rw [h1, h2, h3, h4]

theorem State.sound_congr {s t : State} (h1 : t.mems = s.mems) (h2 : t.chk = s.chk) (h3 : t.sec = s.sec)
    (h4 : t.husk = s.husk) (key n : Nat) : t.sound key n = s.sound key n := by
  unfold State.sound; simp only [State.soundHalf_congr h1 h2 h3 h4]

end Sys2Proof.Machine
end

