-- ==== Sys2Proof/Laws/ListEnd.lean ====
section
/-! SUPPORT. Counter snapshots, an engine's write of sound bytes, the end of a list. -/

namespace Sys2Proof.Machine


theorem leNat_natLe : ∀ (n v : Nat), leNat (natLe n v) = v % 256 ^ n
  | 0, v => by simp [natLe, leNat, Nat.mod_one]
  | n + 1, v => by
    simp only [natLe, leNat, leNat_natLe n (v / 256)]
    rw [Nat.pow_succ, Nat.mul_comm (256 ^ n) 256, Nat.mod_mul]
    simp

theorem bytes_eq_of {t : State} {key : Nat} : ∀ {d : List Byte}, (∀ i, (h : i < d.length) → t.byte (key + i) = d[i]) →
    t.bytes key d.length = d
  | [], _ => rfl
  | b :: d, h => by
    simp only [List.length_cons, State.bytes]
    have h0 := h 0 (by simp)
    simp only [Nat.add_zero, List.getElem_cons_zero] at h0
    rw [h0, bytes_eq_of (key := key + 1) (d := d)]
    intro i hi
    have := h (i + 1) (by simp; omega)
    simpa [show key + (i + 1) = key + 1 + i by omega] using this

theorem flat8 (f : Nat → List Byte) (hf : ∀ i, (f i).length = 8) (n : Nat) :
    (((List.range n).map f).flatten).length = 8 * n ∧
    ∀ i, i < n → ((((List.range n).map f).flatten).drop (8 * i)).take 8 = f i := by
  induction n with
  | zero => exact ⟨rfl, fun i hi => by omega⟩
  | succ n ih =>
    rw [List.range_succ, List.map_append, List.flatten_append]
    refine ⟨by simp only [List.length_append, ih.1]; simp [hf]; omega, fun i hi => ?_⟩
    by_cases e : i = n
    · subst e
      rw [List.drop_append_of_le_length (by rw [ih.1]), List.drop_of_length_le (by rw [ih.1])]
      simp only [List.nil_append, List.map_cons, List.map_nil, List.flatten_cons, List.flatten_nil, List.append_nil]
      exact List.take_of_length_le (by rw [hf])
    · rw [List.drop_append_of_le_length (by rw [ih.1]; omega), List.take_append_of_le_length (by simp [ih.1]; omega)]
      exact ih.2 i (by omega)

theorem natLe_length (n v : Nat) : (natLe n v).length = n := by
  induction n generalizing v with
  | zero => rfl
  | succ n ih => simp [natLe, ih]

theorem snapshot_length (s : State) (c : Nat) : (s.snapshot c).length = 512 :=
  (flat8 _ (fun _ => natLe_length _ _) 64).1

theorem dropUnread_core (s : State) (c : Nat) (p : Nat → Bool) :
    (∀ d, d ≠ c → (s.dropUnread c p).core d = s.core d) ∧
    (∃ un cs, (s.dropUnread c p).core c = { s.core c with unread := un, counters := cs }) := by
  unfold State.dropUnread
  dsimp only
  split
  · exact ⟨fun _ _ => rfl, _, _, rfl⟩
  · unfold State.count
    refine ⟨fun d hd => ?_, ?_⟩
    · rw [State.core_modCore_ne hd, State.core_modCore_ne hd]
    · rw [State.core_modCore, State.core_modCore]; exact ⟨_, _, rfl⟩

/-- An engine's write of sound bytes: the data stand there, and nothing else changes but the unread
bits that the write drops. -/
theorem State.engWrite_sound {s : State} {c a : Nat} {d : List Byte} (h : s.sound (slabKey c a) d.length = true) (ctx : Nat) :
    ∃ t, s.engWrite c ctx a d = (stOk, t) ∧ KeptBut [.mem, .host, .chk, .reported, .mems, .cores] s t ∧
      (∀ i, (hi : i < d.length) → t.byte (slabKey c a + i) = d[i]) ∧
      (∀ k, (k < slabKey c a ∨ slabKey c a + d.length ≤ k) → t.byte k = s.byte k) ∧
      (∀ e, e ≠ c → t.core e = s.core e) ∧
      (∃ un cs, t.core c = { s.core c with unread := un, counters := cs }) ∧
      ∀ g, s.soundHalf g = true → t.soundHalf g = true := by
  unfold State.engWrite
  dsimp only
  split
  · obtain ⟨t, ht, hw⟩ := State.writeDie_sound h ctx
    have hc : t.cores = s.cores := hw.kept .cores (by decide)
    refine ⟨t, ht, fun p hp => hw.kept p (fun hm => hp ?_), hw.inside, hw.outside, fun e _ => ?_,
      ⟨(s.core c).unread, (s.core c).counters, ?_⟩, hw.sound⟩
    · revert hm hp; cases p <;> decide
    · unfold State.core; rw [hc]
    · unfold State.core; rw [hc]
  · obtain ⟨h1, un, cs, h2⟩ := dropUnread_core s c (fun w => (wordsOf a d.length).contains w)
    have hk := (Keeps.refl (l := [.cores]) s).dropUnread c (fun w => (wordsOf a d.length).contains w) (by decide)
    have hmem : (s.dropUnread c (fun w => (wordsOf a d.length).contains w)).mems = s.mems := hk.kept .mems (by decide)
    have hchk : (s.dropUnread c (fun w => (wordsOf a d.length).contains w)).chk = s.chk := hk.kept .chk (by decide)
    have hsec : (s.dropUnread c (fun w => (wordsOf a d.length).contains w)).sec = s.sec := hk.kept .sec (by decide)
    have hhusk : (s.dropUnread c (fun w => (wordsOf a d.length).contains w)).husk = s.husk := hk.kept .husk (by decide)
    have hsh : ∀ g, (s.dropUnread c (fun w => (wordsOf a d.length).contains w)).soundHalf g = s.soundHalf g := fun g => by
      unfold State.soundHalf State.memSt State.memFailed State.memU; rw [hmem, hchk, hsec, hhusk]
    have hs : (s.dropUnread c (fun w => (wordsOf a d.length).contains w)).sound (slabKey c a) d.length = true := by
      unfold State.sound; simp only [hsh]; exact h
    obtain ⟨t, ht, hw⟩ := State.writeDie_sound hs ctx
    have hc : t.cores = (s.dropUnread c (fun w => (wordsOf a d.length).contains w)).cores := hw.kept .cores (by decide)
    have hby : ∀ k, (s.dropUnread c (fun w => (wordsOf a d.length).contains w)).byte k = s.byte k := fun k => by
      by_cases hk' : k < 2 ^ 65
      · exact hk.kept .mem (by decide) k hk'
      · exact hk.kept .host (by decide) k (by omega)
    have mono : ∀ p, p ∉ [Area.mem, .host, .chk, .reported, .mems, .cores] → p ∉ [Area.mem, .host, .chk, .reported, .mems] ∧ p ∉ [Area.cores] := by
      intro p hp; revert hp; cases p <;> decide
    refine ⟨t, ht, ?_, hw.inside, fun k hk' => by rw [hw.outside k hk', hby], fun e he => ?_, ⟨un, cs, ?_⟩,
      fun g hg => hw.sound g (by rw [hsh]; exact hg)⟩
    · intro p hp
      have a1 := hk.kept p (mono p hp).2
      have a2 := hw.kept p (mono p hp).1
      cases p <;> first | exact a2.trans a1 | exact fun i hi => (a2 i hi).trans (a1 i hi)
    · rw [← h1 e he]; unfold State.core; rw [hc]
    · rw [← h2]; unfold State.core; rw [hc]

/-- One slot may end: what the others hold does not let them go on. -/
theorem State.releaseAll_one {s : State} {c : Nat} {sl : SlotId}
    (h : ∀ j, j < 4 → j ≠ sl.val → ((s.core c).slot j).calm)
    (h' : ∀ j, j < 4 → j ≠ sl.val → (((s.releaseSlot c sl.val).core c).slot j).calm) :
    [0, 1, 2, 3].foldl (fun s j => s.releaseSlot c j) s = s.releaseSlot c sl.val := by
  have a : ∀ j, j < 4 → j ≠ sl.val → s.releaseSlot c j = s := fun j h1 h2 => State.releaseSlot_none (h j h1 h2)
  have b : ∀ j, j < 4 → j ≠ sl.val → (s.releaseSlot c sl.val).releaseSlot c j = s.releaseSlot c sl.val := fun j h1 h2 =>
    State.releaseSlot_none (h' j h1 h2)
  simp only [List.foldl_cons, List.foldl_nil]
  have h4 : sl.val = 0 ∨ sl.val = 1 ∨ sl.val = 2 ∨ sl.val = 3 := by omega
  rcases h4 with e | e | e | e <;> rw [e] at a b ⊢
  · rw [b 1 (by omega) (by omega), b 2 (by omega) (by omega), b 3 (by omega) (by omega)]
  · rw [a 0 (by omega) (by omega), b 2 (by omega) (by omega), b 3 (by omega) (by omega)]
  · rw [a 0 (by omega) (by omega), a 1 (by omega) (by omega), b 3 (by omega) (by omega)]
  · rw [a 0 (by omega) (by omega), a 1 (by omega) (by omega), a 2 (by omega) (by omega)]

theorem State.pump_idle {s : State} {c : Nat} (h1 : ∀ e, e < 4 → (s.core c).queue e = [])
    (h2 : ∀ q ∈ (s.core c).run 3, q.await ≠ [dmUnsent]) : s.pump c = s := by
  unfold State.pump
  rw [State.nextDamson_none h2]
  exact State.pumpAll_empty _ (fun e he => h1 e (by simp at he; omega))

theorem Core.tag_setTag_if (k : Core) (n m : Nat) (t : BitVec 128) : (k.setTag n t).tag m = if m = n then t else k.tag m :=
  KV.get_put _ _ _ _

theorem Core.tag_release (k : Core) (n m : Nat) : (k.release n).tag m = if m = n then 0 else k.tag m := by
  unfold Core.release
  dsimp only
  split
  · show ((k.setTag n 0).dropLatch n).tag m = _
    exact Core.tag_setTag_if k n m 0
  · exact Core.tag_setTag_if k n m 0

theorem Core.wipe_rest (k : Core) (n : Nat) : (k.wipe n).tags = k.tags ∧ (k.wipe n).slots = k.slots := by
  unfold Core.wipe
  dsimp only
  split
  · exact ⟨rfl, rfl⟩
  · split <;> exact ⟨rfl, rfl⟩

theorem Core.tag_wipe (k : Core) (n m : Nat) : (k.wipe n).tag m = k.tag m := by
  unfold Core.tag; rw [(Core.wipe_rest k n).1]

theorem Core.tag_releaseMask (k : Core) (mask m : Nat) :
    (k.releaseMask mask).tag m = if m < 28 ∧ mask / 2 ^ m % 2 = 1 then 0 else k.tag m := by
  unfold Core.releaseMask
  have : ∀ n, n ≤ 28 → ((List.range n).foldl (fun k i => if mask / 2 ^ i % 2 = 1 then (Core.release k i).wipe i else k) k).tag m =
      if m < n ∧ mask / 2 ^ m % 2 = 1 then 0 else k.tag m := by
    intro n
    induction n with
    | zero => intro _; simp
    | succ n ih =>
      intro hn
      rw [List.range_succ, List.foldl_append]
      simp only [List.foldl_cons, List.foldl_nil]
      split
      · rename_i hb
        rw [Core.tag_wipe, Core.tag_release, ih (by omega)]
        by_cases e : m = n
        · subst e; simp [hb]
        · rw [if_neg e]
          by_cases e' : m < n
          · simp [e', show m < n + 1 by omega]
          · simp [e', show ¬ m < n + 1 by omega]
      · rename_i hb
        rw [ih (by omega)]
        by_cases e : m = n
        · subst e; simp [hb]
        · by_cases e' : m < n
          · simp [e', show m < n + 1 by omega]
          · simp [e', show ¬ m < n + 1 by omega]
  exact this 28 (by omega)

theorem Core.release_slots (k : Core) (n : Nat) : (k.release n).slots = k.slots := by
  unfold Core.release; dsimp only; split <;> rfl

theorem Core.releaseMask_slots (k : Core) (mask : Nat) : (k.releaseMask mask).slots = k.slots := by
  unfold Core.releaseMask
  have : ∀ (l : List Nat) (k : Core), (l.foldl (fun k i => if mask / 2 ^ i % 2 = 1 then (Core.release k i).wipe i else k) k).slots = k.slots := by
    intro l
    induction l with
    | nil => intro k; rfl
    | cons a l ih => intro k; rw [List.foldl_cons, ih]; split <;> simp [Core.release_slots, (Core.wipe_rest _ _).2]
  exact this _ _

theorem Core.tag_setSlot (k : Core) (i : Nat) (x : Slot) (n : Nat) : (k.setSlot i x).tag n = k.tag n := rfl
theorem Core.closeClaims_tags (k : Core) (sl : Nat) (p : Claim → Bool) : (k.closeClaims sl p).tags = k.tags := rfl
theorem Core.closeClaims_slots (k : Core) (sl : Nat) (p : Claim → Bool) : (k.closeClaims sl p).slots = k.slots := rfl

theorem State.slot_cores {s t : State} (h : t.cores = s.cores) (c j : Nat) : t.slot c j = s.slot c j := by
  unfold State.slot State.core; rw [h]

/-- The slot that is freed, its neighbours, and the registers of its mask. -/
theorem State.freeSlot_core (s : State) (c : CoreId) (sl : SlotId) :
    ((s.freeSlot c.val sl.val).slot c.val sl.val = {}) ∧
    (∀ j, j ≠ sl.val → (s.freeSlot c.val sl.val).slot c.val j = s.slot c.val j) ∧
    (∀ n, n < 28 → hRegMask (s.slot c.val sl.val).hdr / 2 ^ n % 2 = 1 → ((s.freeSlot c.val sl.val).core c.val).tag n = 0) := by
  have hd : ∀ x, (s.dropWaits x).core c.val = s.core c.val := fun x => by
    have h : (s.dropWaits x).cores = s.cores :=
      ((Keeps.refl (l := [.sync, .fab]) s).dropWaits x (by decide)).kept .cores (by decide)
    unfold State.core; rw [h]
  unfold State.freeSlot
  dsimp only
  rw [dif_pos ⟨c.isLt, sl.isLt⟩]
  unfold State.slot
  rw [State.core_modCore, hd]
  refine ⟨Core.slot_setSlot _ _ _, fun j hj => ?_, fun n hn hb => ?_⟩
  · rw [Core.slot_setSlot_ne hj]
    show KV.get _ (Core.slots (Core.releaseMask _ _)) j = _
    rw [Core.releaseMask_slots]; rfl
  · rw [Core.tag_setSlot]
    unfold Core.tag
    dsimp only
    rw [Core.closeClaims_tags]
    have := Core.tag_releaseMask (s.core c.val) (hRegMask ((s.core c.val).slot sl.val).hdr) n
    rw [if_pos ⟨hn, hb⟩] at this
    exact this

theorem State.endSlot_core (s : State) (c : CoreId) (sl : SlotId) :
    ((s.endSlot c.val sl.val).slot c.val sl.val = {}) ∧
    (∀ j, j ≠ sl.val → (s.endSlot c.val sl.val).slot c.val j = s.slot c.val j) ∧
    (∀ n, n < 28 → hRegMask (s.slot c.val sl.val).hdr / 2 ^ n % 2 = 1 → ((s.endSlot c.val sl.val).core c.val).tag n = 0) := by
  have hset : ∀ (t : State) j, (t.settle c.val sl.val).slot c.val j = t.slot c.val j := by
    intro t j
    unfold State.settle State.count State.slot
    dsimp only
    rw [State.core_modCore]
    rfl
  have hctx : ∀ j, ((s.ctxEntry (s.slot c.val sl.val).ctx.toNat).2).slot c.val j = s.slot c.val j := by
    intro j
    have : ((s.ctxEntry (s.slot c.val sl.val).ctx.toNat).2).cores = s.cores :=
      ((Keeps.refl (l := [.mem, .host, .chk, .reported, .regs, .mems, .hif, .board, .husk]) s).ctxEntry (s.slot c.val sl.val).ctx.toNat (by decide)).kept .cores (by decide)
    exact State.slot_cores this _ _
  have hpost : ∀ (t : State) x j, (t.postComp x).slot c.val j = t.slot c.val j := by
    intro t x j
    have : (t.postComp x).cores = t.cores :=
      ((Keeps.refl (l := [.host, .reported, .regs, .hif, .board, .husk]) t).postComp x false (by decide)).kept .cores (by decide)
    exact State.slot_cores this _ _
  have key : ∀ w : State, (∀ j, w.slot c.val j = s.slot c.val j) →
      ((((w.tellPreempt c.val sl.val false).freeSlot c.val sl.val).slot c.val sl.val = {}) ∧
      (∀ j, j ≠ sl.val → ((w.tellPreempt c.val sl.val false).freeSlot c.val sl.val).slot c.val j = s.slot c.val j) ∧
      (∀ n, n < 28 → hRegMask (s.slot c.val sl.val).hdr / 2 ^ n % 2 = 1 →
        (((w.tellPreempt c.val sl.val false).freeSlot c.val sl.val).core c.val).tag n = 0)) := by
    intro w hws
    have hv : ∀ j, (w.tellPreempt c.val sl.val false).slot c.val j = s.slot c.val j := by
      intro j
      have : (w.tellPreempt c.val sl.val false).cores = w.cores :=
        ((Keeps.refl (l := [.host, .reported, .regs, .hif, .board, .husk]) w).tellPreempt c.val sl.val false (by decide)).kept .cores (by decide)
      rw [← hws j]
      exact State.slot_cores this _ _
    obtain ⟨h1, h2, h3⟩ := State.freeSlot_core (w.tellPreempt c.val sl.val false) c sl
    rw [hv] at h3
    exact ⟨h1, fun j hj => (h2 j hj).trans (hv j), h3⟩
  unfold State.endSlot
  dsimp only
  apply key
  intro j
  have hite : ∀ b : Bool, ∀ t : State, ∀ x, (if b = true then t.postComp x else t).slot c.val j = t.slot c.val j := by
    intro b t x
    cases b
    · rfl
    · exact hpost _ _ _
  rw [hite, hset, hctx]

/-- A core with counters moved on, and one slot given a value. -/
theorem State.issued_set {d : State} {c : CoreId} {sl : SlotId} {y : Slot} :
    ∃ cs ms, ((d.setSlot c.val sl.val y).issued c.val sl.val).core c.val =
      Core.setSlot { d.core c.val with counters := cs, mons := ms, served := sl.val } sl.val y := by
  obtain ⟨cs, ms, h⟩ := State.issued_core (d.setSlot c.val sl.val y) c.val sl.val
  refine ⟨cs, ms, ?_⟩
  rw [h]
  unfold State.setSlot
  rw [State.core_modCore]; rfl

end Sys2Proof.Machine
end

