-- ==== Sys2Proof/Laws/Resolve.lean ====
section
/-! SUPPORT. Resolution of a command's run-time fields leaves its opcode as it is. -/

namespace Sys2Proof.Machine

/-- A bit range that leaves the opcode alone. -/
def tameRange (hi lo : Nat) : Bool := decide (8 ≤ lo) && decide (lo ≤ hi) && decide (hi < 256)

/-- Every field that resolution may change lies above the opcode. -/
def OpInfo.tame (o : OpInfo) : Bool :=
  o.sels.all (fun x => tameRange x.hi x.lo && tameRange x.shi x.slo) && o.base.all (fun f => tameRange f.1 f.2) &&
  (match o.dst with | some f => tameRange f.1 f.2 | none => true)

theorem setFld_opc (w : Cmd) {hi lo : Nat} (v : Nat) (h : tameRange hi lo = true) : cOpc (setFld w hi lo v) = cOpc w := by
  simp only [tameRange, Bool.and_eq_true, decide_eq_true_eq] at h
  exact fld_setFld_ne w v h.1.2 h.2 (by omega)

theorem applySel_opc (f : Nat → BitVec 64) (w : Cmd) (x : Sel) (h : (tameRange x.hi x.lo && tameRange x.shi x.slo) = true) :
    cOpc (applySel f w x) = cOpc w := by
  rw [Bool.and_eq_true] at h
  unfold applySel
  dsimp only
  split
  · rfl
  · rw [setFld_opc _ _ h.2, setFld_opc _ _ h.1]

theorem OpInfo.resolve_opc (o : OpInfo) (x : Slot) (w : Cmd) (h : o.tame = true) : cOpc (o.resolve x w) = cOpc w := by
  unfold OpInfo.tame at h
  simp only [Bool.and_eq_true] at h
  obtain ⟨⟨hs, hb⟩, hd⟩ := h
  have e1 : ∀ (l : List Sel) (v : Cmd), l.all (fun x => tameRange x.hi x.lo && tameRange x.shi x.slo) = true →
      cOpc (l.foldl (fun w y => applySel x.sreg w y) v) = cOpc v := by
    intro l
    induction l with
    | nil => intro v _; rfl
    | cons a l ih =>
      intro v hl
      rw [List.all_cons, Bool.and_eq_true] at hl
      rw [List.foldl_cons, ih _ hl.2, applySel_opc _ _ _ hl.1]
  have e2 : ∀ (g : Cmd → Nat × Nat → Nat) (l : List (Nat × Nat)) (v : Cmd), l.all (fun f => tameRange f.1 f.2) = true →
      cOpc (l.foldl (fun v f => setFld v f.1 f.2 (g v f)) v) = cOpc v := by
    intro g l
    induction l with
    | nil => intro v _; rfl
    | cons a l ih =>
      intro v hl
      rw [List.all_cons, Bool.and_eq_true] at hl
      rw [List.foldl_cons, ih _ hl.2, setFld_opc _ _ hl.1]
  unfold OpInfo.resolve
  dsimp only
  split
  · rw [setFld_opc _ _ (by decide)]
    have hl : (if cBdst (o.sels.foldl (fun w y => applySel x.sreg w y) w) = true then
        (match o.dst with | some f => [f] | none => []) else o.base).all (fun f => tameRange f.1 f.2) = true := by
      split
      · cases hdst : o.dst
        · rfl
        · rw [hdst] at hd; simpa using hd
      · exact hb
    exact (e2 (fun _ f => (x.sreg (cBreg (o.sels.foldl (fun w y => applySel x.sreg w y) w))).toNat % 2 ^ 64 +
      fld (o.sels.foldl (fun w y => applySel x.sreg w y) w) f.1 f.2) _ _ hl).trans (e1 _ _ hs)
  · exact e1 _ _ hs

theorem opcIs_opc {w : Cmd} {n : Nat} (h : opcIs w n = true) : cOpc w = n := by
  unfold opcIs at h
  rw [decide_eq_true_eq] at h
  unfold cOpc fld
  simpa using h

end Sys2Proof.Machine
end

