-- ==== Sys2Proof/Laws/SyncIssue.lean ====
section
/-! SUPPORT. What a sync operation does to slots: it answers slots that await one, and touches no
queue. -/

namespace Sys2Proof.Machine

/-- Slots that awaited a response may have one; nothing else of any slot, and no queue, has
changed. -/
structure Wakes (u t : State) : Prop where
  queues : ∀ c, (t.core c).queues = (u.core c).queues
  running : ∀ c, (t.core c).running = (u.core c).running
  slot : ∀ c i, t.slot c i = u.slot c i ∨
    ∃ w r, (u.slot c i).hold = .sync w none ∧ t.slot c i = { u.slot c i with hold := .sync w (some r) }

theorem Wakes.of_cores {u t : State} (h : t.cores = u.cores) : Wakes u t := by
  have : ∀ c, t.core c = u.core c := fun c => by unfold State.core; rw [h]
  exact ⟨fun c => by rw [this], fun c => by rw [this], fun c i => .inl (State.slot_cores h c i)⟩

theorem Wakes.refl (u : State) : Wakes u u := .of_cores rfl

theorem Wakes.trans {a b c : State} (h : Wakes a b) (g : Wakes b c) : Wakes a c := by
  refine ⟨fun k => (g.queues k).trans (h.queues k), fun k => (g.running k).trans (h.running k), fun k i => ?_⟩
  rcases h.slot k i with e | ⟨w, r, e1, e2⟩
  · rcases g.slot k i with f | ⟨w', r', f1, f2⟩
    · exact .inl (f.trans e)
    · exact .inr ⟨w', r', by rw [← e]; exact f1, by rw [f2, e]⟩
  · rcases g.slot k i with f | ⟨w', r', f1, f2⟩
    · exact .inr ⟨w, r, e1, f.trans e2⟩
    · rw [e2] at f1; cases f1

/-- A slot that awaits nothing stays as it is. -/
theorem Wakes.slot_same {u t : State} (h : Wakes u t) {c i : Nat} (hn : ∀ w, (u.slot c i).hold ≠ .sync w none) :
    t.slot c i = u.slot c i := by
  rcases h.slot c i with e | ⟨w, r, e1, _⟩
  · exact e
  · exact absurd e1 (hn w)

theorem Wakes.calm {u t : State} (h : Wakes u t) {c : Nat} (hc : (u.core c).calm) : (t.core c).calm := by
  refine ⟨fun e he => ?_, fun q hq => ?_, fun j hj => ?_⟩
  · unfold Core.queue; rw [h.queues]; exact hc.1 e he
  · unfold Core.run at hq; rw [h.running] at hq; exact hc.2.1 q hq
  · rcases h.slot c j with e | ⟨w, r, _, e2⟩
    · unfold State.slot at e; rw [e]; exact hc.2.2 j hj
    · unfold State.slot at e2; rw [e2]; exact ⟨trivial, (hc.2.2 j hj).2⟩

theorem Wakes.reply (s : State) (who : Asker) (r : SyncReply) : Wakes s (s.reply who r) := by
  unfold State.reply
  split
  · rename_i c sl
    refine ⟨fun k => ?_, fun k => ?_, fun k i => ?_⟩
    · unfold State.modSlot State.setSlot
      by_cases e : k = c.val
      · subst e; rw [State.core_modCore]; rfl
      · rw [State.core_modCore_ne e]
    · unfold State.modSlot State.setSlot
      by_cases e : k = c.val
      · subst e; rw [State.core_modCore]; rfl
      · rw [State.core_modCore_ne e]
    · by_cases e : k = c.val
      · by_cases e' : i = sl.val
        · subst e; subst e'
          rw [State.slot_modSlot]
          split
          · rename_i w hw
            exact .inr ⟨w, r, hw, rfl⟩
          · exact .inl rfl
        · subst e
          left
          unfold State.modSlot State.setSlot State.slot
          rw [State.core_modCore, Core.slot_setSlot_ne e']
      · left
        unfold State.modSlot State.setSlot State.slot
        rw [State.core_modCore_ne e]
  · rename_i h n
    dsimp only
    split <;> exact .of_cores rfl
  · rename_i src tag inc f
    exact .of_cores (((Keeps.refl (l := [.fab]) s).sendRsp src tag inc f r (by decide)).kept .cores (by decide))

theorem Wakes.settleWaits : ∀ (n : Nat) (s : State) (ix : Nat), Wakes s (s.settleWaits ix n)
  | 0, s, _ => .refl s
  | n + 1, s, ix => by
    unfold State.settleWaits
    dsimp only
    split
    · exact .refl s
    · rename_i r v _
      refine .trans ?_ (Wakes.settleWaits n _ ix)
      have h1 : Wakes s { s with sync := { s.sync with waits := s.sync.waits.erase r } } := .of_cores rfl
      have h2 := h1.trans (Wakes.reply _ r.who (settledReply (s.ent ix) r.ven v))
      split
      · exact h2.trans (.of_cores rfl)
      · exact h2

theorem Wakes.changed (s : State) (ix : Nat) : Wakes s (s.changed ix) := by
  unfold State.changed
  refine (Wakes.settleWaits (s.sync.waits.length + 1) s ix).trans (.of_cores ?_)
  exact ((Keeps.refl (l := [.sync, .fab]) _).notifySubs ix (by decide)).kept .cores (by decide)

theorem Wakes.replies (l : List WaitRec) (r : SyncReply) : ∀ s : State, Wakes s (l.foldl (fun s x => s.reply x.who r) s) := by
  induction l with
  | nil => exact Wakes.refl
  | cons a l ih => intro s; exact (Wakes.reply s a.who r).trans (ih _)

theorem Wakes.sfreeAt (s : State) (ix : Nat) : Wakes s (s.sfreeAt ix) := by
  unfold State.sfreeAt
  dsimp only
  refine Wakes.trans ?_ (Wakes.replies _ _ _)
  exact .of_cores (((Keeps.refl (l := [.sync, .fab]) s).sendUpdates ix _ _ (by decide)).kept .cores (by decide))

theorem Wakes.discard (s : State) (h : Nat) : Wakes s (s.discard h) :=
  .of_cores (((Keeps.refl (l := [.regs]) s).discard h (by decide)).kept .cores (by decide))

theorem Wakes.discardMsg (s : State) (h hd src : Nat) : Wakes s (s.discardMsg h hd src) :=
  .of_cores (((Keeps.refl (l := [.host, .regs, .sync, .hif, .board, .husk]) s).discardMsg h hd src (by decide)).kept .cores (by decide))

theorem Wakes.waitTimed (s : State) (ctx n : Nat) : Wakes s (s.waitTimed ctx n).2 :=
  .of_cores (((Keeps.refl (l := [.mem, .host, .chk, .reported, .regs, .mems, .hif, .board, .husk]) s).waitTimed ctx n (by decide)).kept .cores (by decide))

theorem Wakes.syncAt (s : State) (who : Asker) (ctx : Nat) (w : Cmd) : Wakes s (s.syncAt who ctx w).2 := by
  have hset : ∀ (s : State) ix (e : SyncEnt), Wakes s ((s.setEnt ix e).changed ix) := fun s ix e =>
    (Wakes.of_cores (u := s) (t := s.setEnt ix e) rfl).trans (Wakes.changed _ ix)
  have hopt : ∀ (s : State) (o : Option SyncEnt), Wakes s (match o with
      | some e' => (s.setEnt (handleIx (syncHandle w)) e').changed (handleIx (syncHandle w))
      | none => s) := by
    intro s o; cases o
    · exact .refl s
    · exact hset _ _ _
  unfold State.syncAt
  dsimp only
  split
  · unfold State.sinitAt
    dsimp only
    split
    · exact .refl s
    · split <;> first | exact .refl s | exact .of_cores rfl
  · split
    · dsimp only
      split
      · split
        · exact Wakes.discardMsg _ _ _ _
        · exact Wakes.discard _ _
      · exact .refl s
    · split
      · exact hopt s _
      · split
        · exact (Wakes.waitTimed s ctx _).trans (.of_cores rfl)
        · dsimp only
          split
          · exact hset _ _ _
          · exact .refl s
      · dsimp only
        refine Wakes.trans ?_ (hopt _ _)
        split
        · exact Wakes.discard _ _
        · exact .refl s
      · split
        · exact .refl s
        · dsimp only
          split
          · exact .refl s
          · exact hset _ _ _
      · exact Wakes.sfreeAt s _
      · exact .refl s

theorem Wakes.syncIssue {s t : State} {x : Waiter} {ctx : Nat} {w : Cmd} (h : s.syncIssue x ctx w = some t) : Wakes s t := by
  unfold State.syncIssue at h
  split at h
  · dsimp only at h
    have ha := Wakes.syncAt s (.unit x) ctx w
    split at h
    · cases h; exact ha.trans (Wakes.reply _ _ _)
    · cases h; exact ha
  · unfold State.syncRemote at h
    split at h
    · split at h
      · cases h; exact .refl s
      · cases h; exact Wakes.reply _ _ _
    · split at h
      · cases h
      · cases h
        refine Wakes.trans ?_ (.of_cores (((Keeps.refl (l := [.fab]) _).inject _ (by decide)).kept .cores (by decide)))
        exact .of_cores rfl

end Sys2Proof.Machine
end

