-- ==== Sys2Proof/Tests/Slice0.lean ====
section
/-! SUPPORT. Tests of the model on small states: every check of well-formedness refuses an ill-formed term,
commands have the effect that the spec's tables and examples give, and the statements' hypotheses can be met. -/

namespace Sys2Proof.Machine

/-! ### Ill-formed terms are refused -/

theorem test_wrong_opcode_0 : ([.nop 0 0 0x01,
  .endList 0 0 0x00,
  .loop 0 0 0x01,
  .endloop 0 0 0x01,
  .skip 0 0 0x01,
  .brk 0 0 0x01,
  .setx 0 0 0x01,
  .alux 0 0 0x01,
  .tpost 0 0 0x01,
  .csnap 0 0 0x01] : List Instr).all (fun i => !wellFormed i) = true := by decide

theorem test_wrong_opcode_1 : ([.arrive 0 0 0x01,
  .wait 0 0 0x01,
  .signal 0 0 0x01,
  .claim 0 0 0x01,
  .fence 0 0 0x01,
  .sinit 0 0 0x01,
  .sfree 0 0 0x01,
  .mma 0 0 0x01,
  .mrd 0 0 0x01,
  .msd 0 0 0x01] : List Instr).all (fun i => !wellFormed i) = true := by decide

theorem test_wrong_opcode_2 : ([.mld 0 0 0x01,
  .mmove 0 0 0x01,
  .mrel 0 0 0x01,
  .vld 0 0 0x01,
  .vst 0 0 0x01,
  .vop 0 0 0x01,
  .vcvt 0 0 0x01,
  .vala 0 0 0x01,
  .vmove 0 0 0x01,
  .vrel 0 0 0x01] : List Instr).all (fun i => !wellFormed i) = true := by decide

theorem test_wrong_opcode_3 : ([.rred 0 0 0x01,
  .rnorm 0 0 0x01,
  .rnormb 0 0 0x01,
  .rsmax 0 0 0x01,
  .rsmaxb 0 0 0x01,
  .rspill 0 0 0x01,
  .rfill 0 0 0x01,
  .copy 0 0 0x01,
  .skewc 0 0 0x01,
  .tskewc 0 0 0x01] : List Instr).all (fun i => !wellFormed i) = true := by decide

theorem test_wrong_opcode_4 : ([.gather 0 0 0x01,
  .scatter 0 0 0x01,
  .mcast 0 0 0x01,
  .neighbour 0 0 0x01,
  .gcopy 0 0 0x01,
  .tload 0 0 0x01,
  .qcfg 0 0 0x01,
  .aprog 0 0 0x01,
  .put 0 0 0x01,
  .get 0 0 0x01] : List Instr).all (fun i => !wellFormed i) = true := by decide

theorem test_wrong_opcode_5 : ([.atomic 0 0 0x01,
  .rput 0 0 0x01,
  .dset 0 0 0x01,
  .dupd 0 0 0x01,
  .dnorm 0 0 0x01,
  .dread 0 0 0x01] : List Instr).all (fun i => !wellFormed i) = true := by decide

theorem test_wrong_length_0 : ([.hostClassCoreAccess 0 (.load 0 65), .hostClassCoreAccess 0 (.store 0 []),
  .slabAccess .row 0 63 (.read 2), .slabAccess .row 0 0 (.write []), .aliasWrite 0 true 0 [],
  .aliasWrite 0 false 0 (List.replicate 65 0), .clusterMemoryAccess 0 0 0 (.read 65), .ddrTraining [] [],
  .hostRequest 0 .bar0 0 (.read 0) false, .hostRequest 0 .bar0 0 (.write []) false] : List Instr).all
    (fun i => !wellFormed i) = true := by decide

theorem test_wrong_length_1 : ([.creditPeriodStart 0 0 [], .telemetrySample { power := 0, volt := 0, sensors := [] },
  .inputPowerOn [] 0, .registerWrite .pf 0 [], .registerWrite .pf 0 (List.replicate 65 0)] : List Instr).all
    (fun i => !wellFormed i) = true := by decide

/-- An ill-formed command faults and changes nothing. -/
theorem test_ill_formed_faults : (match exec (.setx 0 0 0x07) .reset with
  | .fault .illFormed => true
  | _ => false) = true := by decide

/-- No row of the table has bits. -/
theorem test_no_word_decodes : decodeTableWord 8 0 = none ∧ decodeTableWord 256 0x06 = none := by decide

/-! ### Small states

The kernel evaluates each test from here on; one after the other, or each would hold a thread of its own. -/

set_option Elab.async false

/-- A command word from its fields, each the lowest bit and the value. -/
def tWord (l : List (Nat × Nat)) : Cmd := BitVec.ofNat 256 ((l.map (fun p => p.2 * 2 ^ p.1)).foldl (· + ·) 0)

/-- A list of eight commands with every register, statistics and queue mask. -/
def tSlot : Slot :=
  { active := true, hdr := BitVec.ofNat 512 (pack [(24, 7), (8, 1), (32, 8), (32, 0), (32, 0xFFFFFFF), (8, 0xFF), (8, 0xFF)]), ctx := 7 }

/-- A core in C0 with that list in slot 0. -/
def tCore : Core := { cst := .c0, slots := [(0, tSlot)] }

/-- That list with a save area. -/
def tSaved : Slot := { tSlot with hdr := setFld tSlot.hdr 319 256 0x1000 }

/-- The die powered and Pip at work. -/
def tUp : State := { State.reset with board := { rails := 7 } }

/-- Core 0 alone, in a powered die. -/
def tState (k : Core) : State := { tUp with cores := [(0, k)] }

/-- What holds of the next state. -/
def tNext (i : Instr) (s : State) (p : State → Bool) : Bool :=
  match exec i s with
  | .next t => p t
  | _ => false

/-- A core without waiting work is calm. -/
theorem calm_of_still {k : Core}
    (h : ((List.range 4).all (fun e => (k.queue e).isEmpty) && (k.run 3).all (fun q => decide (q.await ≠ [dmUnsent])) &&
      (List.range 4).all (fun j => decide ((k.slot j).hold = .none) && !(k.slot j).draining)) = true) : k.calm := by
  simp only [Bool.and_eq_true, List.all_eq_true, List.mem_range, List.isEmpty_iff, decide_eq_true_eq,
    Bool.not_eq_true'] at h
  refine ⟨h.1.1, h.1.2, fun j hj => ⟨?_, fun hd => ?_⟩⟩
  · rw [(h.2 j hj).1]; trivial
  · rw [(h.2 j hj).2] at hd; cases hd

/-- The test of `calm_of_still`. -/
def tStill (k : Core) : Bool :=
  (List.range 4).all (fun e => (k.queue e).isEmpty) && (k.run 3).all (fun q => decide (q.await ≠ [dmUnsent])) &&
    (List.range 4).all (fun j => decide ((k.slot j).hold = .none) && !(k.slot j).draining)

theorem calm_of_tStill {k : Core} (h : tStill k = true) : k.calm := calm_of_still h

/-- The conditions of `HeadReady` as one test. -/
def tHead (o : OpInfo) (s : State) (c : CoreId) (sl : SlotId) (w : Cmd) : Bool :=
  let k := s.core c.val
  let x := s.slot c.val sl.val
  let r := resolved o s c sl w
  s.seqReady c.val sl.val w && o.form w && o.within x.hdr r && decide (o.engine < 4) &&
    ((List.range 4).all (fun e => (k.queue e).isEmpty) && (k.run 3).all (fun q => decide (q.await ≠ [dmUnsent])) &&
      (List.range 4).all (fun j => decide ((k.slot j).hold = .none) && !(k.slot j).draining)) &&
    !k.stalled o.engine && decide (k.depth o.engine < 64) && (!cWen r || decide (x.tok (cWtok r) ≠ 0)) &&
    (decide (x.pc.toNat + 1 < hLength x.hdr) && (x.bad.find? (fun e => e.1 = BitVec.ofNat 32 (x.pc.toNat + 1))).isNone &&
      (x.buffered (x.pc.toNat + 1)).isNone)

theorem headReady_of {o : OpInfo} {s : State} {c : CoreId} {sl : SlotId} {w : Cmd} (h : tHead o s c sl w = true) :
    HeadReady o s c sl w := by
  simp only [tHead, Bool.and_eq_true] at h
  obtain ⟨⟨⟨⟨⟨⟨⟨⟨h1, h2⟩, h3⟩, h4⟩, h5⟩, h6⟩, hr⟩, h7⟩, h8, h9⟩ := h
  refine ⟨⟨h1, h2, h3⟩, of_decide_eq_true h4, calm_of_still (by simpa using h5), by simpa using h6, of_decide_eq_true hr,
    fun hw => ?_, ?_⟩
  · simpa [hw] using h7
  · refine ⟨of_decide_eq_true h8.1, by simpa using h8.2, ?_⟩
    rw [Option.isNone_iff_eq_none.1 h9]; trivial

/-- An access command waits for none where the access engine is idle. -/
theorem accessReady_of {o : OpInfo} {s : State} {c : CoreId} {sl : SlotId} {w : Cmd} (h : tHead o s c sl w = true)
    (hr : (s.core c.val).run 3 = []) : AccessReady o s c sl w :=
  { headReady_of h with clear := by simp [Core.hazard, hr] }

/-- A command stands at an offset, as one test. -/
def tStands (x : Slot) (pc : Nat) : Bool :=
  decide (pc < hLength x.hdr) && (x.bad.find? (fun e => e.1 = BitVec.ofNat 32 pc)).isNone && (match x.buffered pc with
    | some w => listed (cOpc w)
    | none => true)

theorem stands_of {x : Slot} {pc : Nat} (h : tStands x pc = true) : x.stands pc := by
  simp only [tStands, Bool.and_eq_true] at h
  refine ⟨of_decide_eq_true h.1.1, Option.isNone_iff_eq_none.1 h.1.2, ?_⟩
  have h2 := h.2
  split <;> rename_i e <;> rw [e] at h2
  · exact h2
  · trivial

/-- n bytes at a device address are plain for router r, as one test. -/
def tPlain (s : State) (r a n : Nat) : Bool :=
  (match regionOf a with
   | .cluster => true
   | .slab _ 0 => true
   | _ => false) && spanOk a n && s.sound a n &&
    (List.range n).all (fun b => !s.lostTo r (.die (a + b)) && !s.lostFrom r (.die (a + b)))

theorem plain_of {s : State} {r a n : Nat} (h : tPlain s r a n = true) : s.plain r a n := by
  simp only [tPlain, Bool.and_eq_true] at h
  obtain ⟨⟨⟨h1, h2⟩, h3⟩, h4⟩ := h
  refine ⟨?_, h2, h3, fun b hb => by simpa using List.all_eq_true.mp h4 b (List.mem_range.mpr hb)⟩
  split at h1
  · exact .inl (by assumption)
  · exact .inr ⟨_, by assumption⟩
  · cases h1

/-- The slow tier up: ten DIMMs of 64 GiB in ten-DIMM mode, and the registers that say so. -/
def tTier : State := match exec (.ddrTraining ((List.range 20).map (fun i => ⟨decide (i % 2 = 0), true, 64, 1, 64⟩)) []) State.reset with
  | .next t => t
  | _ => State.reset

/-! ### The worked examples of the spec -/

/-- Core (30, 13) and its route to router (8, 0): west along row 13, then north along column 8, 35 links with the
edge port (the worked example of 01, R14, R19). -/
theorem test_core_30_13 : coreAt 30 13 = 654 ∧ halfOf 654 = 1 ∧ clusterOf 654 = 43 ∧ localIx 654 = 6 ∧
    (let go (r : Nat) : Nat := (routerAt r (xyDir r 8)).getD r
     let after (n : Nat) : Nat := (List.range n).foldl (fun r _ => go r) 654
     after 22 = coreAt 8 13 ∧ after 34 = coreAt 8 1 ∧ after 35 = coreAt 8 0) := by decide +kernel

/-- Four values to MXFP4: scale byte 0x82, codes 7, 6, 9, 0, and no flag (the worked example at R42). -/
theorem test_mxfp4_block : mxBlock fmMxfp4 (fun _ => .rne) (([0x42700000, 0x42140000, 0xC039999A, 0x3D75C28F] : List Nat).map fp32.decode) =
    (0x82, [7, 6, 9, 0], {}) := by decide +kernel

/-- 1 + 2^-9 + 2^-10 to BF16 (the worked example at R50). -/
theorem test_stochastic_rounding : ([.sr 0xB21C40, .sr 0x3E8000, .rne, .rtz] : List Rm).map (fun m => (bf16.encode m false (fp32.decode 0x3F806000)).1) =
    [0x3F81, 0x3F80, 0x3F80, 0x3F80] := by decide +kernel

/-- 2^24 + 1 + 1 at anchor 0 in two orders, and as FP32 (worked example 1 of ALA-192). -/
theorem test_ala_orders : let x := Ala.ofNum 0 (natNum (2 ^ 24))
    let y := Ala.ofNum 0 (natNum 1)
    ((x.add y).add y).word = 2 ^ 152 + 2 ^ 129 ∧ (x.add (y.add y)).word = 2 ^ 152 + 2 ^ 129 ∧
      (((x.add y).add y).toFF fp32 .rne false).1 = fp32.enc (natNum 16777218) := by decide +kernel

/-- 1 at anchor 0 plus 768 steps at anchor -10 (worked example 2 of ALA-192). -/
theorem test_ala_anchors : (Ala.ofWord (2 ^ 128)).add (Ala.ofWord (768 + 0xFFF6 * 2 ^ 192)) = { n := 2 ^ 128 + 1, a := 0, loss := true } := by decide +kernel

/-- LayerNorm of [1, 2, 3, 6] with EPS 0.5: y = [-1, -0.5, 0, 1.5] and the entry (the worked example at R172). -/
theorem test_layer_norm :
    let o := rnormRow (tWord [(0, 0x41), (132, 0x140C)]) (BitVec.ofNat 512 (4 + 0x3F000000 * 2 ^ 256))
      [0x3F800000, 0x40000000, 0x40400000, 0x40C00000] [] []
    o.out = [0xBF800000, 0xBF000000, 0, 0x3FC00000] ∧ o.entry = some 0x140C4040003F0000 := by decide +kernel

/-- Its backward row with dy = [1, 0, 0, -1]: dx and both column sums (the worked example at R174). -/
theorem test_layer_norm_backward :
    let o := rnormbRow (tWord [(0, 0x42), (132, 0x140C)]) (BitVec.ofNat 512 (4 + 2 ^ 37 + 2 ^ 38)) 0x140C4040003F0000
      [0x3F800000, 0x40000000, 0x40400000, 0x40C00000] [0x3F800000, 0, 0, 0xBF800000] [] (List.replicate 8 0)
    o.out = [0x3E400000, 0xBE200000, 0, 0xBD000000] ∧ o.sums = [0xBF800000, 0, 0, 0xBFC00000, 0x3F800000, 0, 0, 0xBF800000] := by decide +kernel

/-! ### Single commands on small states -/

/-- SETX writes its destination register and moves on (the SETX rows of chapter 04). -/
theorem test_setx : tNext (.setx 0 0 (tWord [(0, 6), (32, 15), (64, 2 ^ 64 - 1)])) (tState tCore) (fun t =>
    (t.slot 0 0).sreg 15 = BitVec.allOnes 64 && (t.slot 0 0).sreg 14 = 0 && (t.slot 0 0).pc = 1) = true := by decide +kernel

/-- Counter 5 of context 7 at 9. -/
def tEntT : State := { State.reset with sync := { ents := [(5, { st := .inUse, inc := 3, owner := 7, value := 9 })] } }

/-- A completion of that context adds 1 to its counter (R223). -/
theorem test_counter_add : (tNext (.completionCounterAdd 0) { tEntT with sync := { tEntT.sync with adds := [{ index := 5, inc := 3, ctx := 7 }] } }
    (fun t => (t.ent 5).value = 10 && t.sync.adds.isEmpty)) = true := by decide +kernel

/-- A write to the bit-set view sets the bits that are 1 in it alone (R184). -/
theorem test_alias_set : (tNext (.aliasWrite 0 true 64 [0x0F]) ((tState tCore).putByte (slabKey 0 64) 0x30) (fun t =>
    t.byte (slabKey 0 64) = 0x3F && t.byte (slabKey 0 65) = 0)) = true := by decide +kernel

/-- The tier in ten-DIMM mode: neighbouring 256-byte blocks alternate over the even channels (Table 10-4). -/
theorem test_tier_map : tTier.tierMap 0x100 = some (2, 0) ∧ tTier.tierMap 0xA05 = some (0, 0x105) := by decide +kernel

/-- THROTTLE_N reads back in the side-band status and a rising edge without it changes nothing (R471). -/
theorem test_throttle : (tNext .throttleNAssert State.reset (fun t => t.throttled && t.board.thrHold && t.rf oSbStat 7 6 = 3)) = true ∧
    (tNext .throttleNDeassert State.reset (fun t => decide (t = State.reset))) = true := by decide +kernel

/-- An unsafe case temperature doubles the refresh rate of its channel alone (R369). -/
theorem test_dimm_hot : (tNext (.dimmCaseTemperature 3 85) State.reset (fun t => bit (t.rg oMode) 5 && !bit (t.rg oMode) 4)) = true ∧
    (tNext (.dimmCaseTemperature 3 80) State.reset (fun t => decide (t = State.reset))) = true := by decide +kernel

/-- A sequencer command that can execute and whose successor stands. -/
def tSeq (o : OpInfo) (s : State) (w : Cmd) : Bool := tHead { o with engine := 0 } s 0 0 w

/-- The slot of `tSlot` in a loop of two commands around its program counter. -/
def tLoop (n : Nat) : Core := { tCore with slots := [(0, { tSlot with pc := 2, loops := [{ off := 0, body := 1, remaining := BitVec.ofNat 32 n, index := 0, isel := 0 }] })] }

def tBusy : Core := { tCore with running := [(0, [{ w := tWord [(0, 0x20)] }])] }

/-! ### Hypotheses that can be met: lists and the sequencer -/

theorem witness_IdleTick : State.reset.pending = [] := rfl

theorem witness_MemoryStaysCanonical : Memory.wf State.reset.mem = true := rfl

theorem witness_ScalarCommands : ([(nopInfo, tWord []), (setxInfo, tWord [(0, 6), (32, 15), (64, 2 ^ 64 - 1)]),
    (aluxInfo, tWord [(0, 7), (45, 9)]), (tpostInfo, tWord [(0, 8), (36, 65535)])] : List (OpInfo × Cmd)).all
    (fun p => tSeq p.1 (tState tCore) p.2) = true := by decide +kernel

theorem witness_CounterSnapshot : ([0, 0x180000 - 512] : List Nat).all (fun a => tSeq csnapInfo (tState tCore) (tWord [(0, 9), (32, a)]) &&
    (tState tCore).sound (slabKey 0 a) 512) = true := by decide +kernel

theorem witness_LoopCommands : (tSeq nopInfo (tState (tLoop 2)) (tWord [(0, 3)]) && tSeq nopInfo (tState (tLoop 1)) (tWord [(0, 3)]) &&
    tSeq (condInfo false) (tState (tLoop 1)) (tWord [(0, 5)]) && tSeq (condInfo false) (tState (tLoop 1)) (tWord [(0, 5), (41, 1)]) &&
    condOf tSlot (tWord [(0, 5)]) && !condOf tSlot (tWord [(0, 5), (41, 1)]) &&
    tSeq loopInfo (tState tCore) (tWord [(0, 2), (74, 1)]) && tSeq loopInfo (tState tCore) (tWord [(0, 2), (74, 1), (32, 5)]) &&
    tSeq (condInfo true) (tState tCore) (tWord [(0, 4), (44, 7)]) &&
    tSeq loopInfo (tState { tCore with slots := [(0, { tSlot with checked := [0] })] }) (tWord [(0, 2), (74, 6)]) &&
    tSeq (condInfo true) (tState { tCore with slots := [(0, { tSlot with checked := [0] })] }) (tWord [(0, 4), (44, 7)])) = true := by decide +kernel

/-- The check of a LOOP and of a SKIP reads the commands of its body from the buffer. -/
theorem witness_LoopCommands_check :
    let s := tState { tCore with slots := [(0, { tSlot with buf := [(2, tWord [(0, 3)]), (1, tWord [])] })] }
    (match s.cmdsAt 0 0 2 1 with
      | (.ok [v], u) => decide (cOpc v = 3) && decide (u = s)
      | _ => false) = true ∧
    (match s.cmdsAt 0 0 1 1 with
      | (.ok l, u) => matched l && decide (u = s)
      | _ => false) = true := by decide +kernel

theorem witness_FenceAndEnd : (tSeq fenceInfo (tState tCore) (tWord [(0, 0x14)]) && fenceMet tCore 0 (tWord [(0, 0x14)]) &&
    tSeq fenceInfo (tState tBusy) (tWord [(0, 0x14), (32, 1)]) && !fenceMet tBusy 0 (tWord [(0, 0x14), (32, 1)]) &&
    tSeq nopInfo (tState tCore) (tWord [(0, 1)]) && decide (tCore.live 0 = 0) && decide (tBusy.live 0 ≠ 0)) = true := by decide +kernel

/-! ### Synchronisation -/

theorem witness_SyncCommandsIssue : ([(arriveInfo, tWord [(0, 0x10)]), (arriveInfo, tWord [(0, 0x10), (128, 1)]), (waitInfo, tWord [(0, 0x11)]),
    (signalInfo, tWord [(0, 0x12), (155, 1)]), (sinitInfo, tWord [(0, 0x15)]), (sfreeInfo, tWord [(0, 0x16)]),
    (claimInfo, tWord [(0, 0x13)]), (claimInfo, tWord [(0, 0x13), (56, 5)])] : List (OpInfo × Cmd)).all (fun p => tSeq p.1 (tState tCore) p.2 &&
      handleOk (syncHandle p.2) && (decide (syncModule p.2 = (tState tCore).selfId) || (tState tCore).freeSyncTag.isSome)) = true ∧
    tCore.claims.length + tCore.claiming < 8 ∧ (State.reset.freeSyncTag.isSome = true) := by decide +kernel

/-- Entry 5 of the sync table in use, of a type. -/
def tEnt (e : SyncEnt) : State := { State.reset with sync := { ents := [(5, { e with st := .inUse, inc := 3, owner := 7 })] } }

theorem witness_SignalOnObjects : ([{ ty := tyCounter }, { ty := tySem }, { ty := tySem, value := 2 ^ 48 - 1 }, { ty := tyWork, limit := 1 },
    { ty := tyBarrier }] : List SyncEnt).all (fun e => !((tEnt e).ent 5).stale (mkHandle 0 3 5) 7 && decide (((tEnt e).ent 5).ty = e.ty)) = true := by
  decide +kernel

theorem witness_BarrierArrivals : (([0, 1, 2, 32767, 32768, 65535].map (fun d => (fld (tWord [(0, 0x10), (32, mkHandle 0 3 5), (101, d)]) 116 101 +
    65536 - ((tEnt { ty := tyBarrier, n := 4 }).ent 5).gen.toNat) % 65536)) = [0, 1, 2, 32767, 32768, 65535]) ∧
    ((tEnt { ty := tyBarrier, n := 4 }).ent 5).stale (mkHandle 0 3 5) 7 = false := by decide +kernel

theorem witness_WaitConditions : (waitEval { ty := tyCounter } (2 ^ 47) 0 false = .waits) ∧ (waitEval { ty := tyCounter } (2 ^ 47 + 1) 0 false = .range) ∧
    (waitEval { ty := tyCounter } (2 ^ 48 - 2 ^ 46) 0 false = .met) ∧ (waitEval { ty := tyBarrier } 2 0 false = .waits) ∧
    (waitEval { ty := tyBarrier } 3 0 false = .range) ∧ (waitEval { ty := tyBarrier } 32768 0 false = .met) := by decide

theorem witness_SyncObjectLife : sinitOk (tWord [(0, 0x15), (32, 5)]) = true ∧ sinitOk (tWord [(0, 0x15), (67, 4)]) = false ∧
    (State.reset.ent 5).st = .free ∧ (State.reset.ent 5).stale (mkHandle 0 3 5) 7 = true ∧
    ((tEnt { ty := tyWork, limit := 1 }).ent 5).value.toNat < 1 ∧ ((tEnt { ty := tyWork }).ent 5).limit.toNat ≤ 0 := by decide +kernel

/-! ### Lists, engines and preemption -/

theorem witness_ListsArrive : (userHc 2 && State.reset.available 0 && decide ((State.reset.core 0).ready.length < 16)) = true ∧
    userHc 1 = false := by decide +kernel

/-- A list header in cluster memory, whose list waits in the ready set of a core without a list. -/
def tReady : State := { (State.reset.putBytes 0x20000000 (bytesOf tSlot.hdr 64)) with
  cores := [(0, { cst := .c0, ready := [{ addr := 0x20000000, ctx := 7 }] })] }

theorem witness_ListsStart : (let k := tReady.core 0
    tStill k && decide (k.cst = .c0) && !k.down 4 && tReady.available 0 && decide (k.freeSlots = [0, 1, 2, 3]) &&
      (List.range 4).all (fun i => !(k.slot i).xltFault) && (match tReady.scanReady 0 k.ready with
        | (.all l, u) => (u.choose 0 (l.filter (fun y => (activeSlots k).all (fun i => masksApart (k.slot i).hdr y.hdr)))).isSome &&
            l.all (fun x => !x.ent.restore && decide (hParam x.hdr = 0))
        | _ => false)) = true := by decide +kernel

/-- A list at the end of a block of 512 bytes: command 0 alone lies in its block. -/
theorem witness_CommandsFetched :
    let x : Slot := { tSlot with listAddr := 0x20000000 + 512 - 96 }
    let s := tState { tCore with slots := [(0, x)] }
    (blockOffsets x 0 = [0] ∧ x.nextFetch = some 0 ∧ tStill (s.core 0) = true ∧ (s.core 0).down 4 = false ∧
      tPlain s 0 (0x20000000 + 512 - 32) 32 = true ∧ listed (cOpc (BitVec.ofNat 256 (s.num (0x20000000 + 512 - 32) 32))) = true) ∧
    (let t := s.putByte (0x20000000 + 512 - 32) 0xFF
     tPlain t 0 (0x20000000 + 512 - 32) 32 = true ∧ listed (cOpc (BitVec.ofNat 256 (t.num (0x20000000 + 512 - 32) 32))) = false ∧
       (t.core 0).live 0 = 0 ∧ t.owesAnswers 0 0 = false ∧ x.held = false) ∧
    (let y : Slot := { x with listAddr := 0x20000000000000 - 96, buf := [(0, tWord [])] }
     let z : Slot := { y with listAddr := 0x20000000000000 + 512 - 96 }
     blockOffsets z 1 = [1, 2, 3, 4, 5, 6, 7] ∧ z.nextFetch = some 1 ∧ tStands z 0 = true ∧
       (let tlb : List TlbEnt := [{ ctx := 7, vpn := 0x2000000000, phys := 0x40000000, writable := true }]
        (blockOffsets z 1).all (fun o => match placeOf tlb 7 (z.listAddr.toNat + 64 + 32 * o) false with
          | .at (.host _) => true
          | _ => false) = true) ∧
       (match placeOf tCore.tlbSeq 7 (z.listAddr.toNat + 64 + 32) false with
        | .miss => true
        | _ => false) = true ∧ tCore.walks = []) := by decide +kernel

/-- A core where engine e executes a command. -/
def tRun (e : Nat) (q : QEnt) : Core := { tCore with running := [(e, [q])] }

theorem witness_EnginesComplete :
    ((tRun 0 { w := tWord [(0, 0x20)] }).run 0).filter (fun p => cOpc p.w = 0x20 && mmaT p.w = 0) = [{ w := tWord [(0, 0x20)] }] ∧
    (((tRun 1 { w := tWord [(0, 0x30)] }).run 1).filter (fun p => cOpc p.w ≠ 0x20 && p.await.isEmpty))[0]? = some { w := tWord [(0, 0x30)] } ∧
    (((tRun 3 { w := tWord [(0, 0x50)] }).run 3).filter (fun p => p.await.isEmpty))[0]? = some { w := tWord [(0, 0x50)] } ∧
    (([[5 + 2], [5 + 2, 6 + 2]] : List (List Nat)).all (fun a =>
      decide (((tRun 3 { w := tWord [(0, 0x55)], await := a }).run 3).filter (fun r => cOpc r.w = 0x55 && r.await.contains (5 + 2)) =
        [{ w := tWord [(0, 0x55)], await := a }]))) = true ∧
    (tCore.program = none ∧ ({ tCore with program := some { ent := { await := [5 + 2] } } } : Core).program = some { ent := { await := [5 + 2] } } ∧
      tCore.run 3 = []) ∧
    (let w := tWord [(0, 0x20), (13, 1), (14, 3)]
     cPen w = true ∧ (({ tSlot with toks := [(cPtok w, 5)] } : Slot).posted w).isSome = true ∧
       ({ tSlot with toks := [(cPtok w, 0xFFFF)] } : Slot).posted w = none ∧
       tStill { tRun 0 { w := w } with slots := [(0, { tSlot with toks := [(cPtok w, 0xFFFF)] })] } = true) := by decide +kernel

theorem witness_EnginesWait :
    ({ tSlot with hold := .token, toks := [(2, 1)] } : Slot).hold = .token ∧
    (let q : QEnt := { w := tWord [(0, 0x20), (8, 1), (9, 2)], tokenWait := true }
     let k : Core := { tCore with slots := [(0, { tSlot with toks := [(2, 1)] })], queues := [(0, [q])] }
     k.queue 0 = [q] ∧ ([1, 2, 3].all (fun f => (k.queue f).isEmpty)) = true ∧ k.run 3 = [] ∧ k.stalled 0 = false ∧ cWen q.w = true ∧
       q.tokenTaken = false ∧ q.await = [] ∧ cOpc q.w ≠ 0x5A ∧ (k.slot 0).tok (cWtok q.w) ≠ 0) ∧
    (let q : QEnt := { w := tWord [(0, 0x50), (32, 0x20000000), (88, 0xF0000000000001), (144, 64), (162, 1), (176, 1)], await := [1] }
     let k : Core := { tCore with queues := [(3, [q])] }
     k.queue 3 = [q] ∧ ([0, 1, 2].all (fun f => (k.queue f).isEmpty)) = true ∧ k.stalled 3 = false ∧ q.tokenWait = false ∧ cWen q.w = false ∧
       cOpc q.w ≠ 0x5A) ∧
    (let q : QEnt := { w := tWord [(0, 0x30), (42, 1), (46, 1), (47, 1)], await := [0] }
     let k : Core := { tRun 1 q with opqs := [(1, { base := 0x1000, entry := 2, count := 2, consumer := 1, tail := 1 })] }
     (k.run 1).filter (fun r => waitsOn 1 r = some 1) = [q] ∧ k.program = none ∧ tStill k = true ∧
       (match vldTake (tState k) 0 q q.await with
        | .go _ p => p.await.isEmpty
        | _ => false) = true) := by decide +kernel

theorem witness_ListsPreempted : hSave tSaved.hdr ≠ 0 ∧ tSaved.ctx = 7 ∧ tSaved.active = true ∧ tSaved.draining = false ∧
    tSaved.doomed = false ∧ tSaved.stopping = none ∧ tSaved.quiet = false ∧
    (let x : Slot := { tSaved with draining := true, accessOut := true }
     let k : Core := { tCore with slots := [(0, x)] }
     k.drained 0 = true ∧ k.down 4 = false ∧ (tState k).owesAnswers 0 0 = false ∧ x.calm) ∧
    ({ tBusy with slots := [(0, { tSaved with draining := true })] } : Core).drained 0 = false ∧
    (tState tCore).clusterFenced (clusterOf 0) = false ∧ (tState tCore).fenced 0 = false ∧ (tState tCore).ras.resets = [] := by
  refine ⟨by decide +kernel, by decide +kernel, rfl, rfl, rfl, rfl, rfl, ⟨by decide +kernel, by decide +kernel, by decide +kernel, trivial,
    fun _ => ⟨rfl, rfl, rfl⟩⟩, by decide +kernel, by decide +kernel, by decide +kernel, rfl⟩

/-! ### The engines -/

/-- A core with registers in use: X0, X1 in E4M3, A0 of an MMA, V0 to V2 in FP32, V3 in FP64, V4 and V5 of ALA. -/
def tRegs : Core := { tCore with tags := [(0, mkTag 0 1 32 32 32), (1, mkTag 0 1 32 32 32), (8, accTag 0 1 1 false 0), (9, accTag 0 11 11 true 64),
  (12, vTag 0), (13, vTag 0), (14, vTag 0), (15, vTag fmFp64), (16, vTag fmAla), (17, vTag fmAla)] }

/-- An MMA of shape 0 on X0 and X1 into A0, which starts from zero. -/
def tMma : Cmd := tWord [(0, 0x20), (35, 1), (39, 1), (45, 1), (64, 32), (98, 1), (119, 32), (127, 32), (136, 32)]

theorem witness_MatrixProducts : tHead mmaInfo (tState tRegs) 0 0 tMma = true ∧ pairOk (mmaFa tMma) (mmaFb tMma) = true ∧
    mmaK tMma % granule (mmaFa tMma) = 0 ∧ mmaAccCheck tRegs tSlot tMma = stOk ∧ mmaBlocked tRegs tSlot tMma = false ∧
    (match mmaOperand tSlot tMma true, mmaOperand tSlot tMma false with
     | some oa, some ob => oa.ok 32 && ob.ok 32 && decide (mmaRegCheck tRegs oa 32 = stOk) &&
         decide (mmaRegCheck tRegs ob 32 = stOk)
     | _, _ => false) = true ∧ granule (mmaFa tMma) ≤ mmaK tMma ∧ mmaK tMma ≤ 1024 ∧ tRegs.regChk = [] ∧
    fld tMma 126 119 = shapeM 0 ∧ fld tMma 135 127 = shapeN 0 ∧ fld tMma 146 136 = mmaK tMma := by decide +kernel

theorem witness_MatrixRegisters : tHead msdInfo (tState tRegs) 0 0 (tWord [(0, 0x22), (59, 1)]) = true ∧
    tHead mldInfo (tState tRegs) 0 0 (tWord [(0, 0x23), (35, 1), (41, 32), (73, 64)]) = true ∧
    rowsOfCode 0 * (32 * laneBytes 1) ≤ 2048 ∧
    (tState tRegs).soundAll 0 ((List.range 32).map (fun l => (l * 64, 64))) = true ∧
    tHead mrelInfo (tState tRegs) 0 0 (tWord [(0, 0x25), (32, 0xFFF)]) = true ∧
    tHead mmoveInfo (tState tRegs) 0 0 (tWord [(0, 0x24)]) = true ∧ tHead mmoveInfo (tState tRegs) 0 0 (tWord [(0, 0x24), (32, 1)]) = true ∧
    tagCheck (tRegs.tag (tagX 0)) 32 (tRows (tRegs.tag (tagX 0)) = 32 && tFmt (tRegs.tag (tagX 0)) ≠ 0) = stOk ∧
    32 ≤ tPos (tRegs.tag (tagX 0)) * perStep (tFmt (tRegs.tag (tagX 0))) ∧
    tInUse (tRegs.tag (tagA 0)) = true ∧ tShape (tRegs.tag (tagA 0)) = 0 := by decide +kernel

theorem witness_Readouts : tHead mrdInfo (tState tRegs) 0 0 (tWord [(0, 0x21), (65, 128), (83, 32), (91, 32)]) = true ∧
    (tState tRegs).soundAll 0 ((List.range 32).map (fun i => (i * 128, 128))) = true ∧
    tHead mrdInfo (tState tRegs) 0 0 (tWord [(0, 0x21), (32, 1), (37, 14), (65, 1024), (83, 32), (91, 32)]) = true ∧
    tFix (tRegs.tag (tagA 1)) = true ∧ readBlocked tRegs 0 = false := by decide +kernel

theorem witness_VectorMemory : tHead vldInfo (tState tRegs) 0 0 (tWord [(0, 0x30), (42, 15), (71, 128)]) = true ∧
    tHead vldInfo (tState tRegs) 0 0 (tWord [(0, 0x30), (36, 5), (42, 1), (71, 64)]) = true ∧
    tHead vstInfo (tState tRegs) 0 0 (tWord [(0, 0x31), (40, 15), (68, 128)]) = true ∧ rowBytes 0 (vCols 0) = 128 ∧
    tagCheck (tRegs.tag (tagV 0)) (rowsRead 15 (vRows 0)) (vstPair 0 0) = stOk ∧
    vecBlocked tRegs (tWord [(0, 0x30), (42, 15), (71, 128)]) = false := by decide +kernel

theorem witness_VectorArithmetic : ([0x00, 0x03, 0x06, 0x0A, 0x10, 0x13, 0x20, 0x25, 0x30, 0x31] : List Nat).all (fun op =>
    tHead vopInfo (tState tRegs) 0 0 (tWord [(0, 0x32), (32, op), (42, 0), (46, 1), (50, 2), (56, 15)]) && vopFmtOk op 0) = true ∧
    tagCheck (tRegs.tag (tagV 0)) 32 true = stOk ∧ tagCheck (tRegs.tag (tagV 1)) 32 true = stOk ∧
    tagCheck (tRegs.tag (tagV 2)) 32 true = stOk ∧ tagCheck (tRegs.tag (tagV 3)) 32 (vopFmtOk 0 13) = stOk := by decide +kernel

theorem witness_VectorConversions : tHead vcvtInfo (tState tRegs) 0 0 (tWord [(0, 0x33), (36, 0), (40, 13), (44, 1)]) = true ∧
    vcvtOk 0 13 1 = true ∧ tagCheck (tRegs.tag (tagV 0)) (vcvtRows 0 13 1) true = stOk ∧
    tHead vcvtInfo (tState tRegs) 0 0 (tWord [(0, 0x33), (36, 3), (40, 0)]) = true ∧ vcvtOk 13 0 0 = true ∧
    tagCheck (tRegs.tag (tagV 3)) (vcvtRows 13 0 0) true = stOk ∧
    tHead valaInfo (tState tRegs) 0 0 (tWord [(0, 0x34), (34, 4), (38, 4), (42, 5)]) = true ∧
    tHead valaInfo (tState tRegs) 0 0 (tWord [(0, 0x34), (32, 1), (34, 4)]) = true ∧
    tHead valaInfo (tState tRegs) 0 0 (tWord [(0, 0x34), (32, 2), (34, 4), (38, 5)]) = true ∧
    tagCheck (tRegs.tag (tagV 4)) 4 true = stOk ∧
    tHead vmoveInfo (tState tRegs) 0 0 (tWord [(0, 0x35), (39, 1)]) = true ∧ tHead vmoveInfo (tState tRegs) 0 0 (tWord [(0, 0x35), (36, 7), (39, 3)]) = true ∧
    tHead vrelInfo (tState tRegs) 0 0 (tWord [(0, 0x36), (32, 0xFFFF)]) = true := by decide +kernel

/-- A slab with a parameter record at 0x1000: rows of 8 in FP32, one row at most. -/
def tRow : State := (tState tCore).putBytes (slabKey 0 0x1000) (bytesOf (BitVec.ofNat 512 (8 + 2 ^ 48)) 64)

theorem witness_RowCommands : ([0x40, 0x41, 0x43] : List Nat).all (fun n =>
    let w := tWord [(0, n), (53, 0x2000), (103, 1), (148, 0x1000)]
    let p := BitVec.ofNat 512 (tRow.num (slabKey 0 0x1000) 64)
    tHead rowInfo tRow 0 0 w && recordOk w p && !pQsrc p && decide (rNrows w ≤ pRcap p) && tRow.soundAll 0 (rowRanges w p) &&
      decide (rowCost w p ≤ 16384)) = true := by decide +kernel

theorem witness_RowResults : ([0x42, 0x44] : List Nat).all (fun n =>
    let w := tWord [(0, n), (53, 0x2000), (74, 0x3000), (103, 1), (132, 5), (148, 0x1000)]
    let s := { tRow with cores := [(0, { tCore with stats := [(0, 0xFFFF000000000000#64 ^^^ 0x0005000000000000#64)] })] }
    let p := BitVec.ofNat 512 (tRow.num (slabKey 0 0x1000) 64)
    tHead rowInfo s 0 0 w && recordOk w p && s.soundAll 0 (rowRanges w p) && decide (rowCost w p ≤ 16384) &&
      decide (statTag ((s.core 0).stat (rSidx w)) = rTag w)) = true := by decide +kernel

theorem witness_StatisticsMoves : tHead spillInfo (tState tCore) 0 0 (tWord [(0, 0x45), (32, 8191), (45, 1), (80, 1)]) = true ∧
    tHead spillInfo (tState tCore) 0 0 (tWord [(0, 0x46), (45, 8), (80, 1)]) = true ∧ (tState tCore).soundAll 0 [(0, 64)] = true ∧
    tCore.stat 7 = emptyStat := by decide +kernel

/-- One row of 64 bytes from cluster memory to the slab of core 0. -/
def tCopy (n : Nat) : Cmd := tWord [(0, n), (32, 0x20000000), (88, slabKey 0 0x1000), (144, 64), (162, 1), (176, 1)]

theorem witness_CopiesMove : tHead copyInfo (tState tCore) 0 0 (tCopy 0x50) = true ∧ tPlain (tState tCore) 0 0x20000000 64 = true ∧
    tPlain (tState tCore) 0 (slabKey 0 0x1000) 64 = true ∧
    tHead neighbourInfo (tState tCore) 0 0 (tWord [(0, 0x56), (53, 0x1000), (74, 2), (76, 64), (94, 1), (108, 1)]) = true ∧
    neighbourOf 0 2 = some 1 ∧ tPlain (tState tCore) 0 (slabKey 0 0) 64 = true ∧ tPlain (tState tCore) 0 (slabKey 1 0x1000) 64 = true ∧
    neighbourDst (tWord [(0, 0x56), (53, 0x1000), (74, 2), (76, 64), (94, 1), (108, 1)]) = some 0x1000 := by decide +kernel

/-- One item of 64 bytes by the index at 0x40 of the slab. -/
def tGather (n : Nat) : Cmd := tWord [(0, n), (32, 0x20000000), (88, slabKey 0 0x1000), (144, 0x40), (165, 1), (183, 1), (201, 1)]

theorem witness_ItemsMove : tHead gatherInfo (tState tCore) 0 0 (tGather 0x53) = true ∧ tHead gatherInfo (tState tCore) 0 0 (tGather 0x54) = true ∧
    itemBytes (tGather 0x53) = 64 ∧ tPlain (tState tCore) 0 0x20000000 64 = true ∧ tPlain (tState tCore) 0 (slabKey 0 0x1000) 64 = true ∧
    queueOf (slabKey 0 0x1000) = none ∧ (tState tCore).soundAll 0 [(0x40, 4)] = true ∧
    (let w := tWord [(0, 0x55), (32, 0x20000000), (88, 0x2000), (109, 1), (120, 2), (131, 64), (149, 1), (163, 1)]
     tHead mcastInfo (tState tCore) 0 0 w && mcastCores w == [1, 2] && (mcastCores w).all (fun y => (tState tCore).available y &&
       !(tState tCore).mcastCut 0 w y && (tState tCore).sound (slabKey y 0x2000) 64)) = true := by decide +kernel

theorem witness_SkewedCopies : ([0x51, 0x52] : List Nat).all (fun n =>
    let w := tWord [(0, n), (32, 0x20000000), (88, slabKey 0 0x1000), (144, 32), (162, 1), (176, 1), (190, 64), (252, 1)]
    tHead skewInfo (tState tCore) 0 0 w && (skSources w).all (fun p => tPlain (tState tCore) 0 p.1 p.2) &&
      decide (skStreams w = 1) && tPlain (tState tCore) 0 (slabKey 0 0x1000) (skBytes w)) = true := by decide +kernel

theorem witness_MovementsEnd :
    let s := tState tCore
    (match moveChecks 0 (tCopy 0x50) with
     | .go => true
     | _ => false) = true ∧
    (match runMove (s.headState copyInfo 0 0 (tCopy 0x50)) { c := 0, ctx := 7, q := s.headEntry copyInfo 0 0 (tCopy 0x50) } with
     | .ok _ p => decide (p.bitmap = 0) && !p.newer
     | _ => false) = true := by decide +kernel

/-- A load of V1 from cluster memory that waits for its first row. -/
def tLoad : QEnt := { w := tWord [(0, 0x58), (32, 0x20000000), (88, 128), (112, 1), (113, 1)], await := [1] }

theorem witness_TileLoads : tHead tloadInfo (tState tCore) 0 0 tLoad.w = true ∧
    (match tlCheck tLoad.w with
     | .go => true
     | _ => false) = true ∧
    (let k := tRun 3 tLoad
     ((k.run 3).filter (fun p => cOpc p.w = 0x58 && !p.await.isEmpty))[0]? = some tLoad ∧ tlV tLoad.w = true ∧
       tRowsValid (k.tag (tlTagIx tLoad.w)) < tlRows tLoad.w ∧ tPlain (tState k) 0 0x20000000 (tlRowBytes tLoad.w) = true ∧ 0 < tlRowBytes tLoad.w) ∧
    tRowsValid ((tRun 3 tLoad).setTag 13 (tlTag tLoad.w 31 true)|>.tag 13) + 1 = tlRows tLoad.w := by decide +kernel

/-- A program of one COPY that runs once. -/
def tProg : State := (tState tCore).putBytes (slabKey 0 0x100) (bytesOf (tCopy 0x50) 32)

theorem witness_QueuesAndPrograms :
    tHead qcfgInfo (tState tCore) 0 0 (tWord [(0, 0x59), (32, 0x1000), (53, 1), (60, 2), (71, 1), (73, 7)]) = true ∧
    (tCore.opq 7).occ = 0 ∧ inSlabSpace 0x1000 (2 * 1 * 64) = true ∧
    (let w := tWord [(0, 0x5A), (32, 0x100), (53, 1), (66, 1)]
     let d := tProg.headState aprogInfo 0 0 w
     let u := (d.modCore 0 (fun k => { k with program := some { ent := tProg.headEntry aprogInfo 0 0 w } })).modCore 0 (fun k => k.pop 3)
     tHead aprogInfo tProg 0 0 w = true ∧ (d.core 0).program = none ∧ u.soundAll 0 [(0x100, 32)] = true ∧ (u.core 0).unread = [] ∧
       programCmd (u.slot 0 0) (BitVec.ofNat 256 (u.num (slabKey 0 0x100) 32)) w 0 = some (tCopy 0x50) ∧ (u.slot 0 0).accessOut = false ∧
       (match runMove u { c := 0, ctx := 7, q := { tProg.headEntry aprogInfo 0 0 w with w := tCopy 0x50 }, prog := true } with
        | .ok t _ => decide ((t.core 0).program = (u.core 0).program) && decide ((t.core 0).run 3 = (u.core 0).run 3) && !(t.core 0).xltAcc &&
            !(t.core 0).down 3 && !(t.slot 0 0).accessOut
        | _ => false) = true ∧ tStill ((u.runProgram 0 3).core 0) = true) := by decide +kernel

/-- Module 0 reaches module 5 through port 0. -/
def tNet (k : Core) : State := (((tState k).setRg (oRt 5) 0x80).setPortSt 0 portUpSt codeOk)

theorem witness_FabricCommands : ([(putInfo, tWord [(0, 0x60), (32, 0x20000000), (88, 5 * 2 ^ 38 + 0x20000000), (140, 64), (156, 1), (168, 1)]),
    (getInfo, tWord [(0, 0x61), (32, 5 * 2 ^ 38 + 0x20000000), (84, 0x20000000), (140, 64), (156, 1), (168, 1)]),
    (atomicInfo, tWord [(0, 0x62), (32, 5 * 2 ^ 38 + 0x20000000)]),
    (rputInfo, tWord [(0, 0x63), (32, 0x20000000), (88, 5 * 2 ^ 38 + 0x20000000), (140, 1), (160, 1)])] : List (OpInfo × Cmd)).all (fun p =>
      tHead p.1 (tNet tCore) 0 0 p.2 && (match fabCheck (tNet tCore) p.2 with
        | .go => true
        | _ => false) && (decide (cOpc p.2 = 0x62) || decide ((fbParts p.2 {}).map (fun x => (x.row, x.off, x.len)) = [(0, 0, fbLen p.2)])) &&
      (match (tNet tCore).routeOut none (rModule (fbRemote p.2)) with
        | .leave 0 => true
        | _ => false) && !(tNet tCore).cut 0 (fibreRouter 0 (fbFibre (fbRemote p.2))) && decide ((tNet tCore).freeTag 0 = some 0)) = true ∧
    ((tNet tCore).core 0).run 3 = [] ∧ tPlain (tNet tCore) 0 0x20000000 64 = true ∧ (tNet tCore).fab.reqs = [] := by decide +kernel

/-- A PUT of no rows with a NOTIFY. -/
theorem witness_FabricCommands_notify :
    let w := tWord [(0, 0x60), (32, 0x20000000), (88, 5 * 2 ^ 38 + 0x20000000), (226, 1), (227, 5), (243, 3)]
    tHead putInfo (tNet tCore) 0 0 w = true ∧ fbNotify w = true ∧ (tNet tCore).cut 0 (fibreRouter 0 (fbRidx w % 8)) = false ∧
      (match fabCheck (tNet tCore) w with
        | .noop => true
        | _ => false) = true := by decide +kernel

theorem witness_DamsonCommands : ([(dsetInfo, tWord [(0, 0x68), (32, 0x201), (54, 0x1000)]),
    (dupdInfo, tWord [(0, 0x69), (28, 1), (32, 1), (220, 0x1000)]), (dnormInfo, tWord [(0, 0x6A), (28, 1), (32, 1), (220, 0x1000)]),
    (dreadInfo, tWord [(0, 0x6B), (28, 1), (32, 1), (54, 0x1000)])] : List (OpInfo × Cmd)).all (fun p =>
      tHead p.1 (tState tCore) 0 0 p.2 && !(dmNamed p.2).isEmpty && decide (dmBase p.2 % dmEntry p.2 = 0) &&
      (tState tCore).soundAll 0 ((dmNamed p.2).map (fun k => (dmBase p.2 + k * dmEntry p.2, dmEntry p.2)))) = true := by decide +kernel

/-! ### Translation, memories, the mesh and the slow tier -/

/-- A walk at a level, and the table entry it reads at slow-tier address 0. -/
def tWalk (n e : Nat) : State := tTier.setCore 0 { tCore with walks := [(1, { level := n })] }|>.putNum (tierKey 0 0) 8 e

theorem witness_Translations :
    (([(0, 0x10001), (1, 0x10001), (3, 0x10003), (2, 0x200007)] : List (Nat × Nat)).all (fun p =>
      let s := tWalk p.1 p.2
      match (s.core 0).walk (walkKey (some 0)) with
      | none => false
      | some w =>
        let x := s.readTier w.ctx.toNat (w.table.toNat + 8 * vaIndex w.level w.va.toNat) 8
        decide (x.st = stOk) && (match walkEntry (fun a => (x.s.tierMap a).isSome) w (BitVec.ofNat 64 (leNat x.data)) with
          | .more w' => decide (p.1 < 2) && decide (w'.level = p.1 + 1)
          | .leaf e via => !via && decide (1 < p.1) && decide (e.phys = p.2 / 0x10000 * 0x10000) && tStill (x.s.core 0) && (x.s.core 0).program.isNone
          | _ => false))) = true ∧
    (tUp.permits .pip .xltResume 0 && tUp.permits .pip .tlbInv 0 && !tUp.permits (.vf 0) .tlbInv 0 &&
      !tUp.permits (.vf 0) .xltResume 0 && tStill { tCore with xltAcc := true }) = true ∧ State.reset.tlbInv = none ∧
    fld (State.reset.rg oTlbLo) 51 16 ≤ fld (State.reset.rg oTlbHi) 51 16 ∧ fld (BitVec.ofNat 32 0xC00) 12 10 = 3 ∧
    fld (BitVec.ofNat 32 0x1000) 12 10 = 4 := by decide +kernel

theorem witness_MemoryRequests : (([(0, 64), (0x180000 - 64, 64)] : List (Nat × Nat)).all (fun p =>
      (Access.read p.2).inWord p.1 && (Access.write (List.replicate p.2 0xFF)).inWord p.1 && inSlabSpace p.1 p.2 &&
        (tState tCore).sound (slabKey 0 p.1) p.2 && !(tState tCore).routerDown 0) &&
      !inSlabSpace 0x700000 64 && (Access.read 64).inWord 0x700000 && decide (slabRegion 0 0x700000 = .unmapped) &&
      !(tState tCore).routerDown (portRouter 0 0) && (tState tCore).sound (clusKey 0 (0x3000000 - 64)) 64 &&
      { State.reset with regs := KV.put 0 [] (oRtDown 0) 1 }.routerDown 0) = true := by decide +kernel

/-- Segment 0 of cluster 0 with a transition under way. -/
def tMem (u : Mem) : State := { State.reset with mems := [(segMem 0 0, u)] }

theorem witness_MemoryPower : (tUp.permits .pip .slabState 0 && tUp.permits .pip .segState 0 && !tUp.permits (.vf 0) .slabState 0 &&
    !tUp.permits (.vf 0) .segState 0 &&
    ([{ st := .ret, target := some .on }, { st := .on, target := some .ret }, { st := .on, target := some .off }, { st := .off, target := some .on },
      { st := .ret }, { scrub := 65535 }, { scrub := 7 }, { wb := [(clusKey 0 0 / 32, 1)] }] : List Mem).all (fun u =>
        let s := tMem u
        let i := memIx (.seg 0 0)
        !s.memFailed i && decide (s.memU i = u) && (decide (u.st ≠ .on) || decide (s.memSt i = .on)) && (decide (u.st ≠ .ret) || decide (s.memSt i = .ret)) &&
          s.power.meshStopped.isEmpty && decide (KV.get 0 s.chk ((memPlace i).base / 32 + 2 * u.scrub) = 0)) &&
    decide (65535 + 1 = (memPlace (memIx (.seg 0 0))).size / 64)) = true := by decide +kernel

/-- A flit from a router to another, or over a rectangle. -/
def tFlit (vc : Fin 3) (src dst : CoreId) : Flit :=
  { vc := vc, src := src, dst := dst, out := .local, x0 := 0, x1 := 0, y0 := 0, y1 := 0, data := 1, chk := 0 }

theorem witness_MeshEvents :
    let s := tState tCore
    let down (r : Nat) : State := s.setRg (oRtDown (r / 32)) (BitVec.ofNat 64 (2 ^ (r % 32)))
    let off : State := { State.reset with power := { State.reset.power with hcGated := List.finRange 16 } }
    (!s.routerDown 0 && !s.routerDown 1 && !s.halfStands 0 && decide (routerAt 0 (s.routeDir 0 1) = some 1) &&
      s.linkFree 0 1 (tFlit 0 0 1) && decide ((s.core 0).eject.length < 32) && s.available 0 &&
      flitCovers (tFlit 2 0 0) 0 && s.canForward 0 (tFlit 2 0 0) (flitDirs (tFlit 2 0 0) 0) && !flitCovers (tFlit 2 0 0) 1 &&
      off.quiescent 0 && decide (off.rf oIdle 28 21 ≠ 0) && !s.quiescent 0 && decide ((s.setRf oIdle 28 21 0).rf oIdle 28 21 = 0)) = true ∧
    (let u := { s with flits := List.replicate 32 (960, tFlit 2 0 0) }
     let v := { s with flits := List.replicate 32 (960, tFlit 0 0 24) }
     let f := { tFlit 2 0 0 with x1 := 47 }
     u.canForward 23 f (flitDirs f 23) = false ∧ v.linkFree 23 24 (tFlit 0 0 24) = false ∧ routerAt 23 (v.routeDir 23 24) = some 24 ∧
       ({ s with power := { s.power with stages := [(0, .relockDown 3)] } } : State).halfStands 0 = true) ∧
    (edgeBlock 0 = some (.hostClass 0) ∧ edgeBlock (coreAt 5 5) = none ∧ verticalPort 0 = none ∧ verticalPort (coreAt 0 1) = some 0 ∧
      (s.cluster 0).waiting 0 = 0 ∧ ({ reqs := [(0, 112)] } : Cluster).waiting 0 = 112) ∧
    ((down 1).routerDown 1 && (down 0).routerDown 0) = true ∧
    32 ≤ ({ tCore with eject := List.replicate 32 (tFlit 0 1 0) } : Core).eject.length ∧
    (let k := tRun 3 { w := tCopy 0x50, await := [3] }
     let t := { tState k with lostFlits := [tFlit 1 0 1] }
     t.lostFlits.find? (fun g => g.src = (0 : CoreId)) = some (tFlit 1 0 1) ∧
       ((k.run 3).filter (fun q => movesData q.w))[(0 : Fin 64).val]? = some { w := tCopy 0x50, await := [3] } ∧ cOpc (tCopy 0x50) = 0x50) := by
  decide +kernel

/-- A request of the host at the slow tier. -/
def tReq (pa : Nat) (op : Access) : TierReq := { client := .host, pa := BitVec.ofNat 56 pa, op := op }

theorem witness_TierEvents :
    let s := tTier
    ((Access.read 32).inWord 0 && (Access.write (List.replicate 64 1)).inWord 256) = true ∧
    s.tierMap 0 = some (0, 0) ∧ s.tierMap 256 = some (2, 0) ∧ s.poolTakes (s.chan 0) .host 0 = true ∧ (s.chan 0).paused = false ∧
    s.selfRefresh 0 = false ∧ (s.setDam 0 { inReset := true }).selfRefresh 0 = true ∧ ({ refresh := true } : Channel).paused = true ∧
    (s.line (tierKey 0 0)).torn = false ∧ (s.line (tierKey 0 0)).poison = false ∧ s.populated 0 = true ∧
    (let full : State := { s with power := { s.power with cap := 0 } }
     full.poolTakes (full.chan 0) .host 0 = false ∧ full.tierMap 0 = some (0, 0)) ∧
    ((s.setChan 0 ((s.chan 0).setRefusals (tReq 0 (.read 32)) 255)).chan 0).refusals (tReq 0 (.read 32)) = 255 ∧
    ((s.setChan 0 ((s.chan 0).setRefusals (tReq 0 (.read 32)) 1)).chan 0).refusals (tReq 0 (.read 32)) = 1 ∧
    (let ds : List Dimm := (List.range 20).map (fun i => ⟨decide (i % 2 = 0), true, 64, 1, 64⟩)
     ds.length = 20 ∧ populationOk ds = true ∧ populationOk (ds.set 0 ⟨false, true, 64, 1, 64⟩) = false ∧ failedAt true [] 0 = 0 ∧
       State.reset.evqOn 0 = false) := by decide +kernel

/-- Damson 0 with work. -/
def tDam (d : Damson) : State := (tState tCore).setDam 0 d

def tDread : Part := { w := tWord [(0, 0x6B)], id := 1 }
def tDset (v : Nat) : Part := { w := tWord [(0, 0x68), (75, v)], id := 1, image := 3 }
def tDupd : Part := { w := tWord [(0, 0x69), (220, 0x1000)], id := 1 }

theorem witness_DamsonEvents :
    (tUp.permits .pip .dmsSplit 0 && tUp.permits .pip .dmsEpoch 9 && tUp.permits .pip .dmsEpochAll 0 &&
      !tUp.permits (.vf 0) .dmsSplit 0 && !tUp.permits (.vf 0) .dmsEpoch 9 && !tUp.permits (.vf 0) .dmsEpochAll 0 &&
      !State.reset.locked && (State.reset.setRg oSecCtrl 1).locked && (List.range 10).all (fun j => (State.reset.dam j).running.isNone)) = true ∧
    (([tDread, tDset 1, tDset 0] : List Part).all (fun p => let d := (tDam { descr := [p] }).dam 0
      decide (d.descr = [p]) && d.running.isNone && !d.inReset && !p.lost)) = true ∧
    (dsetGroup State.reset.windowSize 0 (tDset 1).image (tDset 1).w).isSome = true ∧
    (dsetGroup State.reset.windowSize 0 (tDset 0).image (tDset 0).w) = none ∧
    (((tDam { updates := [tDupd] }).dam 0).updates = [tDupd] ∧ bit tDupd.w 54 = false ∧ tDupd.gangBlocked = false ∧ partCheck 0 tDupd.w ≠ stOk) ∧
    (let r : RunPart := { part := tDupd, status := stOk, applied := true }
     ((tDam { running := some r }).dam 0).running = some r ∧ r.part.lost = false ∧
       inSlabSpace (dmBase tDupd.w) (dmEntry tDupd.w) = true ∧ (tState tCore).sound (slabKey 0 (dmBase tDupd.w)) (dmEntry tDupd.w) = true) ∧
    (([[0], [0, 3]] : List (List Nat)).all (fun l =>
      let y : Answer := { id := 1, status := stOk }
      let q : QEnt := { w := tDupd.w, id := 1, await := l }
      let k := tRun 3 q
      tStill k && decide ([y].find? (fun (z : Answer) => z.core.val = 0) = some y) && y.data.isNone &&
        decide ((k.run 3).find? (fun x => x.id = y.id && isDamson x.w && x.await.contains 0) = some q) && l.all (fun x => decide (x < 10)) &&
        decide ((l.erase 0 = []) ↔ l = [0]) && (dmStatus [(0, y.status)]).2.2.isNone)) = true ∧
    (let q : QEnt := { w := tWord [(0, 0x6B), (54, 0x1000)], id := 1, await := [0] }
     let y : Answer := { id := 1, status := stOk, data := some 3 }
     [y].find? (fun (z : Answer) => z.core.val = 0) = some y ∧ y.data ≠ none ∧ isDamson q.w = true ∧ inSlabSpace (dmBase q.w) 128 = true ∧
       (tState (tRun 3 q)).sound (slabKey 0 (dmBase q.w)) 128 = true) := by decide +kernel

/-- Slot 0 of core 0 waits for the response of a command. -/
def tHold (w : Cmd) (r : Option SyncReply) : State := tState { tCore with slots := [(0, { tSlot with hold := .sync w r })] }

/-- A wait with a timeout by that slot or by sync port 0 of HC2, on object 5. -/
def tWait (x : Waiter) : WaitRec := { who := .unit x, ctx := 7, handle := BitVec.ofNat 64 (mkHandle 0 3 5), target := 1, cond := 0, take := false, ven := false, timed := true, remote := false }

theorem witness_SyncEvents :
    (State.reset.port 2 0).reply = none ∧
    (let s := { State.reset with sync := { ports := [(2 * 16, { busy := true, reply := some { status := stOk } })], waits := [tWait (.port 2 0), tWait (.slot 0 0)] } }
     (s.port 2 0).reply = some { status := stOk } ∧ (s.port 2 0).busy = true ∧
       s.sync.waits.find? (fun r => r.who = .unit (.port 2 0) && r.timed) = some (tWait (.port 2 0)) ∧
       s.sync.waits.find? (fun r => r.who = .unit (.slot 0 0) && r.timed) = some (tWait (.slot 0 0))) ∧
    (([0x10, 0x11, 0x13] : List Nat).all (fun n =>
      let w := tWord [(0, n)]
      let s := tHold w (some { status := stOk })
      let x := s.slot 0 0
      decide (x.hold = .sync w (some { status := stOk })) && (s.core 0).lent.isNone && decide ((s.core 0).cst = .c0) &&
        (match ({ x with hold := .none } : Slot).ended w (x.pc.toNat + 1) with
         | some y => tStands y (x.pc.toNat + 1)
         | none => false))) = true ∧
    (let s := tEnt { ty := tyCounter }
     let e := s.ent 5
     e.st = .inUse ∧ e.inc = 3 ∧ e.owner = 7 ∧ s.sync.waits = [] ∧ s.sync.homeSubs = [] ∧
       [({ index := 5, inc := 3, ctx := 7 } : CounterAdd)].find? (fun a => homeHalf a.index.toNat = 0) = some { index := 5, inc := 3, ctx := 7 } ∧
       (s.ent 6).st ≠ .inUse ∧ [({ index := 6, inc := 3, ctx := 7, src := some 5 } : CounterAdd)].find? (fun a => homeHalf a.index.toNat = 0) =
         some { index := 6, inc := 3, ctx := 7, src := some 5 }) ∧
    (({ State.reset with sync := { ents := [(5, { st := .quarantined })] } } : State).ent 5).st = .quarantined ∧
    (let q : SyncReq := { who := .slot 0 0, ctx := 7, w := tWord [(0, 0x11)], posted := false }
     [(9, q)].find? (fun e => e.1 = (9 : Fin 4096).val && !e.2.standing) = some (9, q) ∧ ({ q with standing := true } : SyncReq).standing = true) ∧
    (let m : MySub := { half := 0, handle := 9, refused := true }
     [m].find? (fun m => m.half = 0 && m.handle = 9 && m.refused) = some m) ∧
    ((tHold (tWord [(0, 0x11)]) none).core 0).onlyWaits = true ∧ (tState tCore).available 0 = true ∧ bit (State.reset.rg oLend) 16 = false := by decide +kernel

/-! ### The fabric -/

/-- Module 0 of a line of eight in dimension 0, port 0 in a state. -/
def tLine (st : Nat) : State := ((State.reset.setRg oTopo 0x8001C000).setPortSt 0 st codeOk)

def tFrame (seq : BitVec 12) (ok : Bool) : Frame := { seq := seq, ack := 5, errs := [], crcOk := ok, packets := [], credits := [4] }

theorem witness_FabricLinks :
    let s := tLine portUpSt
    let t := tLine portTrain
    (decide (s.portSt 0 = portUpSt) && !(s.fibre 0).failed && s.frameGood 0 (tFrame 0 true) && !s.frameGood 0 (tFrame 0 false) &&
      decide ((tFrame 0 true).seq = (s.fibre 0).rxSeq) && (s.fibre 0).naks.isEmpty && decide (t.portSt 0 = portTrain) &&
      decide ((tLine portDown).portSt 0 = portDown) && decide (s.portSt 1 = portDisabled)) = true ∧
    (([(0, 1), (16, 17)] : List (Nat × Nat)).all (fun p =>
      let u := { s with fab := { s.fab with fibres := KV.put {} s.fab.fibres 0 { naks := List.replicate p.1 0, nakSeq := 9, replay := [(9, none)], replays := p.2 } } }
      !((u.fibre 0).replay.dropWhile (fun e => decide (e.1 ≠ 9))).isEmpty && decide ((u.fibre 0).nakSeq = 9) && decide ((u.fibre 0).replays = p.2) &&
        decide ((u.fibre 0).naks.length = p.1))) = true ∧
    linkWidth true true 3 3 = some (0, 0) ∧ linkWidth false true 1 3 = none ∧ t.selfId = 0 ∧ t.dimUsable 0 = true ∧
    t.judge 0 1 (BitVec.ofNat 14 (t.rf oTopo 27 14)) = some 1 ∧ t.judge 0 1 0 = none ∧
    (tUp.permits .pip .portCtrl 0 && tUp.permits .pip .portCtrl 5 && tUp.permits .pip .fabTopo 0 &&
      !tUp.permits (.vf 0) .portCtrl 0 && !tUp.permits (.vf 0) .fabTopo 0 && !State.reset.locked && !State.reset.portOn 0 && !State.reset.portOn 1 &&
      (List.range 6).all (fun q => decide (State.reset.portSt q = portDisabled)) && !State.reset.dimUsable 0) = true ∧
    (let u := ((t.setRf (oPortCtrl 0) 0 0 1).setRf (oPortCtrl 1) 0 0 1).setDrive 0 true
     u.portOn 0 = true ∧ u.dimOn 0 = true ∧ KV.get false u.fab.driven 0 = true ∧ u.portSt 1 ≠ portUpSt) ∧
    (let u := State.reset.moveSwitch 1 true
     KV.get false u.fab.driven 1 = false ∧ KV.get false u.fab.through 1 = true) := by decide +kernel

/-- A packet of a type for an address of cluster memory. -/
def tPk (t : BitVec 8) (dest n : Nat) : Packet :=
  { ptype := t, vc := 0, fibre := 0, dest := BitVec.ofNat 14 dest, src := 5, hops := 0, status := 0, ctx := 7, tag := 9, tagInc := 0
    len := BitVec.ofNat 16 n, addr := 0x20000000, body := 0, data := List.replicate n 3, bad := 0 }

theorem witness_FabricRequests :
    let s := tNet tCore
    (knownType 0 = false ∧ knownType pkPut = true ∧ s.selfId = 0 ∧ s.routeOut none 5 = .leave 0 ∧ s.routeOut (some 0) 5 = .drop stPathLost ∧
      s.routeOut none 6 = .drop stPathLost) ∧
    (let pk := tPk pkPut 5 64
     let full : State := s.setFibre 0 { owed := [(0, 384)] }
     let down := s.setRg (oRtDown (coreAt 24 0 / 32)) (BitVec.ofNat 64 (2 ^ (coreAt 24 0 % 32)))
     s.route none pk = .leave 0 ∧ s.route (some 2) pk = .leave 0 ∧ s.canSend 0 pk = true ∧ full.canSend 0 pk = false ∧
       s.lostBetween (some 2) 0 pk = false ∧ down.lostBetween (some 2) 0 pk = true ∧ s.lostBetween none 0 pk = false) ∧
    (tPlain s (packetRouter 0 (tPk pkPut 0 64)) 0x20000000 64 = true ∧ tPlain s (packetRouter 0 (tPk pkAtomic 0 4)) 0x20000000 4 = true ∧
      0x20000000 < 2 ^ 37 ∧ 0x20000000 % 4 = 0 ∧ rTier 0x20000000 = false) ∧
    (match regionOf 0x1000000000 with
      | .cluster => false
      | .slab _ _ => false
      | _ => true) = true ∧
    (let u := tEnt { ty := tyCounter }
     let b : BitVec 320 := BitVec.ofNat 320 (pack [(16, 5), (8, 3)])
     let e := u.ent (fld b 15 0)
     e.st = .inUse ∧ e.inc.toNat = fld b 23 16 ∧ e.owner = (tPk pkNotify 0 0).ctx ∧ e.ty = tyCounter ∧ u.sync.waits = [] ∧ u.sync.homeSubs = []) ∧
    (let u := tEnt { ty := tyCounter }
     let pk := { tPk pkSync 0 0 with status := 0x11, body := BitVec.ofNat 320 (mkHandle 0 3 5 + 2 ^ 69) }
     let w := packetCmd pk
     let e := u.ent (handleIx (syncHandle w))
     cOpc w = 0x11 ∧ bit w 156 = false ∧ e.stale (syncHandle w) pk.ctx.toNat = false ∧ waitEval e (fld w 148 101) (fld w 155 154) false = .waits ∧
       u.subsAt 0 < 4096) ∧
    (let u := tEnt { ty := tyCounter }
     let pk := { tPk pkSync 0 0 with status := 0x11, body := BitVec.ofNat 320 (mkHandle 0 3 5) }
     let w := packetCmd pk
     waitEval (u.ent (handleIx (syncHandle w))) (fld w 148 101) (fld w 155 154) false ≠ .waits ∧
       (u.syncAt (.remote pk.src pk.tag pk.tagInc pk.fibre) pk.ctx.toNat w).1.isSome = true) ∧
    (let m : HomeSub := { module := 5, index := 5, half := 0 }
     let u := { tEnt { ty := tyCounter } with sync := { (tEnt { ty := tyCounter }).sync with homeSubs := List.replicate 4096 m } }
     4096 ≤ u.subsAt (homeHalf 5)) ∧
    (bit (s.rg oSynCfg) 0 = false ∧ bit ((s.setRg oSynCfg 1).rg oSynCfg) 0 = true) ∧
    (handleMod (mkHandle 0 3 5) = s.selfId ∧ handleMod (mkHandle 6 3 5) ≠ s.selfId ∧ settles (s.ent 5) 5 [] false = none) ∧
    newerSeq none 1 = true ∧ newerSeq (some 0xFFFF) 0 = true ∧ newerSeq (some 1) 1 = false := by decide +kernel

/-- An outstanding request of a PUT of slot 0. -/
def tAsk (t : BitVec 8) : FabReq := { tag := 9, dest := 5, id := 1, ptype := t, len := 4, addr := some 0x1000 }

def tAsked (t : BitVec 8) (n : Nat) : State :=
  let s := tNet (tRun 3 { w := tWord [(0, n), (140, 64)], id := 1, await := [1] })
  { s with fab := { s.fab with reqs := [tAsk t] } }

theorem witness_FabricAnswers :
    (([(pkPut, 0x60), (pkGet, 0x61), (pkAtomic, 0x62), (pkRput, 0x63)] : List (BitVec 8 × Nat)).all (fun p =>
      let s := tAsked p.1 p.2
      let q : QEnt := { w := tWord [(0, p.2), (140, 64)], id := 1, await := [1] }
      tStill (s.core 0) && decide (s.findReq (tPk pkAck 0 4) = some (tAsk p.1)) && decide (p.1 ≠ pkNotify) &&
        decide (((s.core 0).run 3).find? (fun x => x.id = 1) = some q) && !fbNotify q.w && (queueOf (fbLocal q.w)).isNone &&
        s.cores.all (fun e => (e.2.queue 3).isEmpty) && s.sound (slabKey 0 0x1000) 4 && tPlain s 0 0x20000000 4 &&
        decide (s.fab.reqs.find? (fun r => r.port = 0 && r.tag = (9 : BitVec 16).toNat) = some (tAsk p.1)))) = true ∧
    (State.reset.findReq (tPk pkAck 0 4)).isNone = true ∧ (State.reset.findSync (tPk pkSyncRsp 0 0)).isNone = true ∧
    (let q : SyncReq := { who := .slot 0 0, ctx := 7, w := tWord [(0, 0x11), (157, 1)], posted := false }
     let h := tHold q.w none
     let s := { h with sync := { h.sync with reqs := [(9, q)] } }
     s.findSync (tPk pkSyncRsp 0 0) = some (9, q) ∧ (s.slot 0 0).hold = .sync q.w none ∧ 0 < fld q.w 188 157) ∧
    (let k := tPk pkPut 5 4
     let s := { State.reset with fab := { State.reset.fab with arrived := [(0, k)] } }
     (0, k) ∈ s.fab.arrived) := by decide +kernel

/-! ### Power, the board, the host interface -/

def tBoard (b : Board) : State := { tState tCore with board := b }
def tPower (p : Power) : State := { tState tCore with power := p }

theorem witness_EnergyEvents :
    let s := tState tCore
    (List.replicate 60 (0 : Byte)).length = 60 ∧ (s.cores.all (fun e => e.2.lent.isNone && e.2.ready.isEmpty)) = true ∧
    (s.permits .pip .pwrProfile 0 && !s.permits (.vf 0) .pwrProfile 0 && !s.locked && s.power.stages.isEmpty) = true ∧
    (([.relockDown 3, .rampUp 1, .rampDown 3, .relockUp 0] : List PStage).all (fun x =>
      let t := tPower { stages := [(0, x)] }
      decide (t.power.stages = [(0, x)]) && t.power.heldProfile.isNone && decide (t.wantProfile 0 = 0) && decide (t.effProfile 0 = 0))) = true ∧
    (([{ cst := .c0 }, { cst := .c1 }, { cst := .c2 }, { cst := .c3 }] : List Core).all (fun k =>
      (tState k).available 0 && !k.waking && k.idle && k.unloaded && (activeSlots k).isEmpty)) = true ∧ tCore.idle = false ∧
    s.rf oIdle 10 1 ≠ 0 ∧ (s.setRf oIdle 10 1 0).rf oIdle 10 1 = 0 ∧ s.rf oIdle 20 11 ≠ 0 ∧ (s.setRf oIdle 20 11 0).rf oIdle 20 11 = 0 ∧
    tStill { tCore with cst := .c2, waking := true } = true ∧
    (([0, 94, 95, 104, 105] : List Nat).all (fun n => let u := (s.setCluster 0 { temp := BitVec.ofNat 8 n })
      decide ((u.cluster (u.hottest 0)).temp.toNat = n))) = true ∧
    ((0 : HalfId) ∈ (tPower { thermalP4 := [0] }).power.thermalP4) ∧ s.throttleHeld = false ∧ s.board.thermtrip = false ∧
    ((tBoard { thrLow := true }).throttled && (tBoard { thrUnstable := true }).throttled && !s.throttled) = true ∧
    s.husk.stopped = false ∧ s.husk.queue.length < 32 := by decide +kernel

/-- A bank that the ROM accepts. -/
def tBank : Bank := { readable := true, sigOk := true, svn := 1, hashOk := true, digests := [] }

theorem witness_BoardEvents :
    (({ State.reset with sec := { State.reset.sec with banks := [tBank, noBank] } } : State).romFinds.run = some 0) ∧
    (({ State.reset with sec := { State.reset.sec with banks := [noBank, tBank] } } : State).romFinds.run = some 1) ∧
    (({ State.reset with sec := { State.reset.sec with banks := [noBank, noBank] } } : State).romFinds.run = none) ∧
    State.reset.sec.blowing = none ∧ bit (State.reset.rg oFwUpdate) 0 = false ∧ State.reset.pwrEn = false ∧ (State.reset.setPwrEn true).pwrEn = true ∧
    (([{ auxOn := true }, { auxOn := true, hold := true, holdCycle := true }, { auxOn := true, hold := true }, { auxOn := true, shut := true },
       { auxOn := true, sequencing := true, rails := 6 }, { auxOn := true, sequencing := true, rails := 7 },
       { auxOn := true, sequencing := true, rails := 7, pwrgd := true }, { auxOn := true, sequencing := true, rails := 7, pwrgd := true, upSteps := 1 }] : List Board).all (fun b =>
         !(tBoard b).board.thermtrip && !(tBoard b).board.pipReset && (tBoard b).board.auxOn && !(tBoard b).board.v48)) = true ∧
    (let t := { tBoard { v48 := true, auxOn := true, rails := 1, i3cAddr := some 8 } with aon := 50000000 }
     50000000 ≤ (t.aon - t.board.refreshAt).toNat ∧ t.board.v48 = true ∧ t.board.pipReset = false ∧ (0 : Fin 7).val < t.board.rails ∧ t.board.i3cAddr ≠ none) := by
  decide +kernel

/-- Ring 0 of function 0 on, polling, with a descriptor to take; queue 0 on; context 7 usable. -/
def tHost (r : Ring) : State :=
  let s := (tState tCore).setRf (oRingCtl 0 0) 1 0 3
  let s := s.setRf (oEvqCtl 0) 0 0 1
  { s with hif := { s.hif with linkUp := true, rings := [(0, r)], ctxCache := [(7, 1)] }, sec := { s.sec with booted := true } }

/-- A descriptor of an operation for context 7 at core 0. -/
def tDesc (op addr : Nat) : BitVec 512 := BitVec.ofNat 512 (pack [(4, op), (2, 0), (2, 0), (6, 0), (2, 0), (16, 7), (16, 0), (16, 0), (64, addr)])

theorem witness_RingEvents :
    let s := tHost { doorbell := 1 }
    (s.ringLive 0 0 && s.ringPolling 0 0 && !s.ringBusy 0 0 && s.canTake 0 0 && s.barOpen 0 && s.answers .ringCtl && ownsRing 0 0) = true ∧
    ¬ ringCount (s.rg (oRing 0 0)) < (1 - (s.ring 0 0).cons).toNat ∧ ringCount (s.rg (oRing 0 0)) < ((65 : BitVec 32) - (s.ring 0 0).cons).toNat ∧
    ((tHost {}).ring 0 0).cons = ((tHost {}).ring 0 0).doorbell ∧ ((tHost {}).setRf (oRingCtl 0 0) 1 1 0).ringPolling 0 0 = false ∧
    (([tDesc 0 0x20000000, tDesc 1 0x20000000, tDesc 2 0] : List (BitVec 512)).all (fun d => decide (s.evqOwner (dEvq d) = 0) && s.evqOn (dEvq d) &&
      (match (s.putNum (hostKey (s.entryAddr 0 0 (s.ring 0 0).cons)) 64 d.toNat).descCheck 0 d with
       | (none, u) => decide (u.placeOn d = some 0) && (u.core (dTarget d)).ready.isEmpty
       | _ => false))) = true ∧
    dOp (tDesc 0 0x20000000) = 0 ∧ dOp (tDesc 1 0) = 1 ∧ dOp (tDesc 2 0) = 2 ∧ (s.descCheck 0 (tDesc 3 0)).1 = some stIllegal ∧
    (s.descCheck 0 (tDesc 0 1)).1 = some stIllegal ∧
    (let t := (tHost {}).setCore 0 { cst := .c0, slots := [(0, tSaved)] }
     tStill (t.core 0) = true ∧ (t.slot 0 0).active = true ∧ (t.slot 0 0).ctx.toNat = dCtx (tDesc 2 0) ∧ (t.slot 0 0).draining = false ∧
       hSave (t.slot 0 0).hdr ≠ 0 ∧ (t.core 0).running = [] ∧ (t.core 0).program = none) ∧
    (let t := tHost { waiting := some (tDesc 0 0x20000000, 3) }
     (t.ring 0 0).waiting = some (tDesc 0 0x20000000, 3) ∧ t.dieResetting = false ∧ (t.targets (tDesc 0 0x20000000)).any t.available = true ∧
       t.placeOn (tDesc 0 0x20000000) = some 0) ∧
    s.rf (oRing 0 0) 3 0 ≤ 10 ∧ (s.setRf (oRing 0 0) 3 0 11).rf (oRing 0 0) 3 0 = 11 ∧ State.reset.ringOn 0 0 = false := by decide +kernel

theorem witness_HostInterface :
    let s := tHost {}
    (bit (1 : BitVec 64) 0 && s.reachesEvq 0 1 && s.barOpen 0 && s.answers .evqCtl && !s.evqOn 1 && decide (s.rf (oEvq 1) 3 0 ≤ 10)) = true ∧
    (let t := { s with hif := { s.hif with evqs := [(0, { prod := 64, unsent := 1 })] } }
     t.evqOn 0 = true ∧ t.evqFull 0 = true ∧ 0 < (t.evq 0).unsent ∧ (t.setRf (oEvqCtl 0) 29 22 5).rf (oEvqCtl 0) 29 22 ≠ 0) ∧
    s.evqFull 0 = false ∧
    (s.permits .pip .ctxInv 0 && s.permits .pip .part 63 && s.permits .pip .apt 63 && s.permits .pip .hcCtx 2 && userHc 2 && !s.permits (.vf 0) .part 0) = true ∧
    s.hif.ctxInv = none ∧ (Access.read 8).sized = true ∧ (Access.write [1]).sized = true ∧ State.reset.hif.linkUp = false ∧ s.hif.linkUp = true ∧
    s.dieResetting = false ∧ barSize 0 .bar4 = 2 ^ 38 ∧ barSize 1 .bar4 = 0 ∧
    (let t := s.setRg (oApt 0) (BitVec.ofNat 64 (3 * 2 ^ 62))
     let w := t.rg (oApt 0)
     bit w 63 = true ∧ bit w 62 = true ∧ fld w 23 0 * 2 ^ 32 + 0x20000000 % 2 ^ 32 = 0x20000000 ∧
       ((List.range 3).all (fun j => tPlain t (pcieRouter j) 0x20000000 8)) = true) ∧
    (s.dieAway = false ∧ barSize 0 .msix = 0x4000 ∧ 12 % 16 = 12 ∧ s.hif.held = [] ∧ s.hif.heldRecs = [] ∧
      ({ s with ras := { resets := [{ dom := .dieWarm }] } } : State).dieAway = true ∧ State.reset.pipLive = false ∧ s.pipLive = true) ∧
    (s.hif.hcCache = [] ∧ tPlain s (hcRouter 2) 0x20000000 8 = true ∧ firmwareHc 2 = false ∧ firmwareHc 0 = true ∧
      (let u := { s with hif := { s.hif with ctxCache := [(0, 1)] } }
       hcKey 2 (.host 64) = some (2 * 2 ^ 60 + 2 ^ 59 + 1) ∧ u.hcRuns 2 = true)) ∧
    s.hcRuns 2 = true ∧ State.reset.hcRuns 2 = false ∧ (HcAccess.load 0x20000000 8).sized = true ∧
    (match s.locate .pip (oIdle) 4 with
     | some (r, i, _, _, b) => decide (b = oIdle) && decide (r.bytes = 4) && decide (r.reg = .pwrIdle) && s.canWrite .pip r.reg i
     | none => false) = true ∧
    s.board.perstLow = true ∧ (tBoard { perstLow := false }).board.perstLow = false ∧ (tBoard { rails := 7, perstLow := false }).railsOn = true ∧ s.ras.resets = [] := by
  decide +kernel

/-! ### Security, recovery, Husk -/

def tSec (x : Sec) : State := { tHost {} with sec := { x with booted := true } }

theorem witness_SecurityEvents :
    let up (s : State) : Bool := s.hif.linkUp && s.sec.booted
    (([{ spdm := .idle }, { spdm := .version }, { spdm := .capabilities }, { spdm := .algorithms }, { keyExchange := true }, { session := true }] : List Sec).all (fun x =>
      up (tSec x) && decide ((tSec x).sec.spdm = x.spdm) && decide ((tSec x).sec.session = x.session))) = true ∧ up State.reset = false ∧
    (let s := (tSec {}).setRf oSvn 14 8 1
     s.permits .pf .secSvn 0 = true ∧ s.sec.blowing = none ∧ fld (BitVec.ofNat 32 (2 ^ 24)) 30 24 = s.rf oSvn 14 8 ∧ s.fusedCount < 1 ∧
       s.permits .pf .fwUpdate 0 = true ∧ bit (s.rg oFwUpdate) 0 = false) ∧
    (tSec { blowing := some 64 }).sec.blowing = some 64 ∧
    (let s := { tTier.setRg oFwUpdate 1 with sec := { tTier.sec with booted := true, updSrc := 256 } }
     bit (s.rg oFwUpdate) 0 = true ∧ s.updateReadable = true ∧ tBank.readable = true ∧ s.fusedCount ≤ tBank.svn.toNat ∧
       ({ s with sec := { s.sec with fuses := 0x7F } } : State).fusedCount = 2) ∧
    tUp.permits .pip .secCtrl 0 = true ∧ tUp.permits (.vf 0) .secCtrl 0 = false := by decide +kernel

def tReset (d : Domain) (retried : Bool) : State := { tState tCore with ras := { resets := [{ dom := d, retried := retried }] } }

theorem witness_RecoveryEvents :
    let s := tState tCore
    (([.engine 0 .matrix, .hostClass 2, .core 0, .cluster 0, .fabricPort 0, .damson 0, .dieWarm, .module] : List Domain).all (fun d =>
      !s.domFenced d && s.ras.resets.isEmpty && !State.reset.domFenced d &&
        (let t := (tReset d false)
         decide (t.ras.resets = [{ dom := d }]) &&
          ({ t with sec := { t.sec with banks := [tBank] }, board := { t.board with upSteps := 2 } } : State).canComplete d))) = true ∧
    (tReset .module true).ras.resets = [{ dom := .module, retried := true }] ∧ s.dieResetting = false ∧ (tReset .dieWarm false).dieResetting = true ∧
    s.fenced 0 = false ∧ s.clusterFenced 0 = false ∧ ({ s with husk := { s.husk with fences := 1 } } : State).fenced 0 = true ∧
    ({ s with husk := { s.husk with fencedClusters := 1 } } : State).clusterFenced 0 = true ∧
    ((tHost {}).permits (.hc 2) .rasHb 2 && !s.permits (.vf 0) .rasHb 2 && s.permits .pip .rasFence 0) = true ∧
    ((tReset .dieWarm false).meshBack = false ∧ ((tReset .dieWarm false).setRg oReady 1).meshBack = true ∧ (s.chan 0).pool = [] ∧
      ({ tBusy with running := [(3, [{ w := tWord [(0, 0x55)], await := [2] }])] } : Core).program = none) ∧
    (let v : BitVec 32 := BitVec.ofNat 32 (2 ^ 31)
     bit v 31 = true ∧ bit v 30 = false ∧ fld v 9 0 = 0) ∧
    ((List.range 5).all (fun j => !(s.sampleEngine 0 j).2)) = true ∧
    (let k := { tBusy with mons := [(0, { stale := 1000 })] }
     let t := { tHost {} with cores := [(0, k)] }
     ((List.range 5).all (fun j => decide ((t.sampleEngine 0 j).2 = decide (j = 0)))) = true ∧ k.headOf 0 = some (0, 0) ∧
       t.ctxMode (k.slot 0).ctx.toNat < 4 ∧ t.ras.resets = []) ∧
    (({ s with ras := { drains := [{ core := 0 }] } } : State).ras.drains.any (fun y => decide (y.core = 0))) = true := by decide +kernel

theorem witness_HuskAndTelemetry :
    let h := State.reset.husk
    State.reset.board.pipReset = false ∧ (tBoard { pipReset := true }).board.pipReset = true ∧ h.queue = [] ∧ h.slotFree = true ∧
    (([{ queue := [{}], sinceCkpt := 0 }, { queue := [{}], sinceCkpt := 1021 }, { queue := [{}], sinceCkpt := 1022, ringMode := true }] : List Husk).all (fun x =>
      x.slotFree && !x.queue.isEmpty)) = true ∧
    (([{ next := 256 }, { next := 256, badBlocks := List.range 64 }] : List Husk).all (fun x => !x.ringMode && decide (x.norNext + 256 ≤ x.next))) = true ∧
    0 < ({ next := 256 } : Husk).spares ∧ ({ next := 256, badBlocks := List.range 64 } : Husk).spares = 0 ∧
    (tUp.permits .pip .bbxSel 0 && !tUp.permits (.vf 0) .bbxSel 0) = true ∧ State.reset.rf oBbxStat 0 0 = 0 ∧
    (State.reset.setRg oBbxStat 1).rf oBbxStat 0 0 = 1 ∧ (List.replicate 136 (95 : BitVec 8)).length = 136 ∧ State.reset.rf oTelemEvt 15 0 = 0 ∧
    (let s := (tHost {}).setRg oTelemEvt 1
     s.rf oTelemEvt 15 0 ≠ 0 ∧ s.evqOn 0 = true ∧ s.hif.d3hot = false ∧ s.evqFull 0 = false ∧ (State.reset.setRg oTelemEvt 1).evqOn 0 = false) := by
  decide +kernel

/-! ### The machine as a whole, and commands for the engines -/

theorem witness_FusesNeverFall : ∃ t, step State.reset = .next t := ⟨_, rfl⟩

theorem witness_CommandFrames : ∃ t, exec .getVersion State.reset = .next t := ⟨_, rfl⟩

theorem witness_WellFormedRuns : wellFormed (.nop 0 0 0) = true ∧ wellFormed (.nop 0 0 1) = false := by decide

theorem witness_EngineCommandsStart : ∃ (i : Instr) (s : State) (c : CoreId) (sl : SlotId) (w : Cmd) (o : OpInfo) (n : Nat),
    engineRow i = some (c, sl, w, o, n) ∧ n ≠ 0x5A ∧ opcIs w n = true ∧ HeadReady o s c sl w :=
  ⟨.copy 0 0 (tCopy 0x50), tState tCore, 0, 0, tCopy 0x50, copyInfo, 0x50, rfl, by decide, by decide +kernel,
    headReady_of (by decide +kernel)⟩

/-- An engine whose 64 places are taken. -/
theorem witness_EngineCommandsStart_full :
    let k := { tCore with running := [(3, List.replicate 64 { w := tWord [(0, 0x60)], await := [1] })] }
    tStill k = true ∧ 64 ≤ k.depth 3 := by decide +kernel

theorem witness_DispatchFrame : HeadReady mmaInfo (tState tRegs) 0 0 tMma := headReady_of (by decide +kernel)

theorem witness_EmptyCommands : ([(vldInfo, 0x30, []), (vstInfo, 0x31, []), (vopInfo, 0x32, []), (rowInfo, 0x40, []), (rowInfo, 0x41, []), (rowInfo, 0x42, []),
    (rowInfo, 0x43, []), (rowInfo, 0x44, []), (spillInfo, 0x45, []), (spillInfo, 0x46, []), (copyInfo, 0x50, []), (skewInfo, 0x51, []), (skewInfo, 0x52, []),
    (gatherInfo, 0x53, []), (gatherInfo, 0x54, []), (mcastInfo, 0x55, []), (neighbourInfo, 0x56, []), (gcopyInfo, 0x57, []), (aprogInfo, 0x5A, [(53, 1)])] :
      List (OpInfo × Nat × List (Nat × Nat))).all (fun p =>
    let w := tWord ((0, p.2.1) :: p.2.2)
    let s := tState tCore
    tHead p.1 s 0 0 w && opcIs w p.2.1 && !vecBlocked ((s.headState p.1 0 0 w).core 0) (resolved p.1 s 0 0 w) &&
      ((s.headState p.1 0 0 w).core 0).running.isEmpty && (((s.headState p.1 0 0 w).slot 0 0).posted (resolved p.1 s 0 0 w)).isSome &&
      (s.core 0).running.isEmpty && decide (fld (resolved p.1 s 0 0 w) (if p.2.1 = 0x5A then 81 else 255) (if p.2.1 = 0x5A then 66 else 8) = 0)) = true := by decide +kernel

end Sys2Proof.Machine
end

section
/-! Steps of the machine: what `step` does with the queue. -/

namespace Sys2Proof.Machine

/-- The equation of `step` on a queue that is not empty: the front leaves the queue and is executed. -/
theorem step_of_pending_eq_cons {s : State} {c : Instr} {rest : List Instr} (h : s.pending = c :: rest) :
    step s = exec c { s with pending := rest } := by
  simp only [step, h]

/-- Settles O1: with `c` put in front, the queue's rest is the queue of `s`, so the state that `exec` gets is `s`
itself. The queue is the model's own; that a row is one whole step is `95_what_each_step_holds.md`. -/
theorem stepRunsFront : Obligations.StepRunsFront := by
  intro c s
  exact step_of_pending_eq_cons (s := { s with pending := c :: s.pending }) rfl

end Sys2Proof.Machine
end

section
/-! The owner of event queue 0 after an FLR (R386, R390). -/

namespace Sys2Proof.Machine

/-- A key that a filter drops reads as the default. -/
theorem KV.get_filter_out {α : Type} {d : α} {m : KV α} {p : Nat × α → Bool} {a : Nat} (hp : ∀ v, p (a, v) = false) :
    KV.get d (m.filter p) a = d := by
  induction m with
  | nil => rfl
  | cons e m ih =>
    obtain ⟨k, v⟩ := e
    rw [List.filter_cons]
    by_cases hk : a = k
    · subst hk; simpa [hp] using ih
    · split <;> simp [KV.get, hk, ih]

/-- A register that is not stored holds its reset value. -/
theorem State.rg_filter_out {s : State} {p : Nat × BitVec 64 → Bool} {o : Nat} (hp : ∀ v, p (o, v) = false) :
    ({ s with regs := s.regs.filter p } : State).rg o = resetOf o := by
  simp [State.rg, KV.get_filter_out hp]

/-- FLR writes the owners of the queues back but for queue 0 (R390): its control register is left as the resets of the
function's registers leave it. -/
theorem State.rg_evqCtl_zero_foldl (f : Nat) (qs : List Nat) (s : State) :
    (qs.foldl (fun s q => if q = 0 then s else s.setRf (oEvqCtl q) 51 48 f) s).rg (oEvqCtl 0) = s.rg (oEvqCtl 0) := by
  induction qs generalizing s with
  | nil => rfl
  | cons q qs ih =>
    rw [List.foldl_cons, ih]
    split
    · rfl
    · refine State.rg_setRf_ne ?_ _ _ _ _
      unfold oEvqCtl oEvq
      omega

/-- An FLR of the function that owns queue 0 gives the queue back to the PF. -/
theorem State.evqOwner_zero_flrRegs {s : State} {f : Nat} (h : s.evqOwner 0 = f) : (s.flrRegs f).evqOwner 0 = 0 := by
  have hin : s.flrReg f (oEvqCtl 0) = true := by simp [State.flrReg, oEvqCtl, oEvq, h]
  have hr := State.rg_filter_out (s := s) (p := fun e => !s.flrReg f e.1) (o := oEvqCtl 0) (fun _ => by simp [hin])
  have hrg : (s.flrRegs f).rg (oEvqCtl 0) = resetOf (oEvqCtl 0) := (State.rg_evqCtl_zero_foldl f _ _).trans hr
  unfold State.evqOwner State.rf
  rw [hrg]
  decide

theorem State.flr_regs {s : State} {f : Nat} (hc : s.cores = []) : (s.flr f).regs = (s.flrRegs f).regs := by
  unfold State.flr
  rw [hc]
  by_cases hf : f = 0
  · simp only [hf, if_true, List.map_nil, List.foldl_nil]
  · simp only [hf, if_false, List.map_nil, List.foldl_nil]

/-- With no core listed an FLR is the reset of the function's registers, and for the PF the end of IDE (R386). -/
theorem State.evqOwner_zero_flr {s : State} {f : Nat} (hc : s.cores = []) (h : s.evqOwner 0 = f) : (s.flr f).evqOwner 0 = 0 := by
  refine Eq.trans ?_ (State.evqOwner_zero_flrRegs h)
  unfold State.evqOwner State.rf State.rg
  rw [State.flr_regs hc]

/-- A state in which VF 4 is recorded as the owner of queue 0. No write to HIF_EVQ_CTL leaves it, as `writeEvqCtl` passes
the owner of queue 0 over; the statement speaks of every state. -/
def ownerOfQueueZero : State :=
  { State.reset with regs := [(oEvqCtl 0, 5 <<< 48)], hif := { linkUp := true } }

theorem ownerOfQueueZero_owner : ownerOfQueueZero.evqOwner 0 = 5 := by decide

theorem ownerOfQueueZero_cores : ownerOfQueueZero.cores = [] := rfl

theorem ownerOfQueueZero_linkUp : ownerOfQueueZero.hif.linkUp = true := rfl

/-- Refutes O57, in its clause on FLR: every queue that the function owned is said to keep its owner, but FLR restores
the owner field of the queues from 1 up only, and that of queue 0 falls to its reset value, the PF. In
`ownerOfQueueZero` function 5 owns queue 0, and after its FLR the PF does. -/
theorem not_hostInterface : ¬ Obligations.HostInterface := by
  unfold Obligations.HostInterface
  intro h
  obtain ⟨-, -, -, -, -, -, -, -, -, -, -, -, -, -, -, -, hflr, -⟩ := h ownerOfQueueZero .pf 5 0 0 0 0 0
  obtain ⟨t, ht, -, hq, -⟩ := hflr ownerOfQueueZero_linkUp
  have e : t = ownerOfQueueZero.flr (5 : FuncId).val := by
    simpa only [exec, execFlr, ownerOfQueueZero_linkUp, if_true, Host.Outcome.next.injEq, eq_comm] using ht
  have hkept : t.evqOwner 0 = 5 := (hq ownerOfQueueZero_cores 0 ownerOfQueueZero_owner).2.1
  have hfell : (ownerOfQueueZero.flr (5 : FuncId).val).evqOwner 0 = 0 := State.evqOwner_zero_flr ownerOfQueueZero_cores ownerOfQueueZero_owner
  rw [e, hfell] at hkept
  exact absurd hkept (by decide)

end Sys2Proof.Machine
end

section
/-! Flits at routers: what each operation on the links leaves alone, and where an arriving flit goes, case by case
(R182, R188, R229, R232, R420). -/

namespace Sys2Proof.Machine

/-! ### Operations on the links -/

/-- Taking a flit off its link changes the links alone. -/
theorem State.takeFlit_rest (s : State) (r : Nat) (f : Flit) : s.takeFlit r f = { s with flits := (s.takeFlit r f).flits } := by
  unfold State.takeFlit
  split <;> rfl

@[simp] theorem State.takeFlit_cores (s : State) (r : Nat) (f : Flit) : (s.takeFlit r f).cores = s.cores := by
  rw [State.takeFlit_rest]

@[simp] theorem State.takeFlit_regs (s : State) (r : Nat) (f : Flit) : (s.takeFlit r f).regs = s.regs := by
  rw [State.takeFlit_rest]

@[simp] theorem State.takeFlit_lostFlits (s : State) (r : Nat) (f : Flit) : (s.takeFlit r f).lostFlits = s.lostFlits := by
  rw [State.takeFlit_rest]

theorem State.core_congr {s t : State} (h : t.cores = s.cores) (c : Nat) : t.core c = s.core c := by
  unfold State.core
  rw [h]

theorem State.rg_congr {s t : State} (h : t.regs = s.regs) (o : Nat) : t.rg o = s.rg o := by
  unfold State.rg
  rw [h]

theorem State.routerDown_congr {s t : State} (h : t.regs = s.regs) (n : Nat) : t.routerDown n = s.routerDown n := by
  unfold State.routerDown
  rw [State.rg_congr h]

@[simp] theorem checkedFlit_vc (f : Flit) : (checkedFlit f).vc = f.vc := rfl

/-- A flit of the request and response channels is lost once. -/
theorem lostCopies_unicast {f : Flit} (h : f.vc ≠ 2) (t : Nat) : lostCopies f t = [f] := if_neg h

/-- Of a flit that is no multicast the router ejects the flit itself. -/
theorem hereOnly_unicast {f : Flit} (h : f.vc ≠ 2) (r : Nat) : hereOnly f r = f := if_neg h

theorem State.forward_up {s : State} {r d n : Nat} (f : Flit) (h : routerAt r d = some n) (up : s.routerDown n = false) :
    s.forward r f d = { s with flits := s.flits ++ [(linkKey r n, f)] } := by
  simp [State.forward, h, up]

theorem State.forward_down {s : State} {r d n : Nat} (f : Flit) (h : routerAt r d = some n) (dn : s.routerDown n = true) :
    s.forward r f d = { s with lostFlits := lostCopies f n ++ s.lostFlits } := by
  simp [State.forward, h, dn]

/-- Forwarding only adds to the links. -/
theorem State.mem_flits_forward {s : State} {x : Nat × Flit} (h : x ∈ s.flits) (r : Nat) (f : Flit) (d : Nat) :
    x ∈ (s.forward r f d).flits := by
  unfold State.forward
  split
  · exact h
  · split
    · exact h
    · exact List.mem_append_left _ h

@[simp] theorem State.forward_regs (s : State) (r : Nat) (f : Flit) (d : Nat) : (s.forward r f d).regs = s.regs :=
  ((Keeps.refl (l := [.flits, .lostFlits]) s).forward r f d (by decide)).kept .regs (by decide)

theorem State.ejectFlit_room {s : State} {r : Nat} (f : Flit) (h : (s.core r).eject.length < 32) :
    s.ejectFlit r f = s.modCore r (fun k => { k with eject := k.eject ++ [f] }) := if_pos h

theorem State.ejectFlit_full {s : State} {r : Nat} (f : Flit) (h : 32 ≤ (s.core r).eject.length) :
    s.ejectFlit r f = { s with flits := s.flits ++ [(r, hereOnly f r)] } := if_neg (by omega)

theorem State.mem_flits_ejectFlit {s : State} {x : Nat × Flit} (h : x ∈ s.flits) (r : Nat) (f : Flit) : x ∈ (s.ejectFlit r f).flits := by
  unfold State.ejectFlit
  split
  · exact h
  · exact List.mem_append_left _ h

/-! ### A multicast that leaves by several ways (R232) -/

/-- A flit passed on in each of some directions. -/
def State.forwardAll (s : State) (r : Nat) (f : Flit) (dirs : List Nat) : State := dirs.foldl (fun s d => s.forward r f d) s

theorem Keeps.forwardAll {l : List Area} {u s : State} (h : Keeps l u s) (r : Nat) (f : Flit) (dirs : List Nat)
    (hl : Area.sub [.flits, .lostFlits] l = true) : Keeps l u (s.forwardAll r f dirs) :=
  Keeps.foldl (fun _ d h => h.forward r f d hl) h

theorem State.mem_flits_forwardAll {s : State} {x : Nat × Flit} (h : x ∈ s.flits) (r : Nat) (f : Flit) (dirs : List Nat) :
    x ∈ (s.forwardAll r f dirs).flits := by
  induction dirs generalizing s with
  | nil => exact h
  | cons d dirs ih => exact ih (State.mem_flits_forward h r f d)

/-- Where the neighbour in one of the directions is in service, a copy goes to it. -/
theorem State.forwardAll_sends {s : State} {r n d : Nat} {f : Flit} {dirs : List Nat} (hd : d ∈ dirs) (h : routerAt r d = some n)
    (up : s.routerDown n = false) : (linkKey r n, f) ∈ (s.forwardAll r f dirs).flits := by
  induction dirs generalizing s with
  | nil => exact absurd hd (List.not_mem_nil)
  | cons e dirs ih =>
    rcases List.mem_cons.mp hd with rfl | hd
    · refine State.mem_flits_forwardAll ?_ r f dirs
      show _ ∈ (s.forward r f d).flits
      rw [State.forward_up f h up]
      exact List.mem_append_right _ (List.mem_singleton_self _)
    · exact ih hd ((State.routerDown_congr (State.forward_regs ..) n).trans up)

/-! ### Arrival, case by case -/

section
variable {s : State} {r : Nat} {f : Flit}

theorem State.canForward_one {d n : Nat} (h : routerAt r d = some n) : s.canForward r f [d] = s.linkFree r n f := by
  simp [State.canForward, h]

/-- At a router out of service a flit is lost. -/
theorem State.flitArrival_down (hd : s.routerDown r = true) :
    s.flitArrival r f = { s.takeFlit r f with lostFlits := lostCopies f r ++ s.lostFlits } := by
  simp only [State.flitArrival, hd, if_true]

/-- While the mesh of its half stands a flit waits. -/
theorem State.flitArrival_stands (hd : s.routerDown r = false) (hs : s.halfStands (halfOf r) = true) :
    s.flitArrival r f = s.holdFlit r f := by
  simp [State.flitArrival, hd, hs]

variable (hd : s.routerDown r = false) (hs : s.halfStands (halfOf r) = false)
include hd hs

theorem State.flitArrival_here (hv : f.vc ≠ 2) (ht : f.dst.val = r) : s.flitArrival r f = s.arrived r f := by
  simp [State.flitArrival, hd, hs, hv, ht]

/-- A flit for another router waits while the link of its route is taken. -/
theorem State.flitArrival_busy {n : Nat} (hv : f.vc ≠ 2) (ht : f.dst.val ≠ r) (hn : routerAt r (s.routeDir r f.dst.val) = some n)
    (hf : s.linkFree r n f = false) : s.flitArrival r f = s.holdFlit r f := by
  simp [State.flitArrival, hd, hs, hv, ht, State.canForward_one hn, hf]

/-- A flit for another router leaves by its route, checked. -/
theorem State.flitArrival_leaves {n : Nat} (hv : f.vc ≠ 2) (ht : f.dst.val ≠ r) (hn : routerAt r (s.routeDir r f.dst.val) = some n)
    (hf : s.linkFree r n f = true) :
    s.flitArrival r f = (s.takeFlit r f).forward r (checkedFlit f) (s.routeDir r f.dst.val) := by
  simp [State.flitArrival, hd, hs, hv, ht, State.canForward_one hn, hf]

theorem State.flitArrival_tree_busy (hv : f.vc = 2) (hf : s.canForward r f (flitDirs f r) = false) :
    s.flitArrival r f = s.holdFlit r f := by
  simp [State.flitArrival, hd, hs, hv, hf]

/-- A multicast goes every way of its tree, and to the core where the rectangle covers the router. -/
theorem State.flitArrival_tree (hv : f.vc = 2) (hf : s.canForward r f (flitDirs f r) = true) :
    s.flitArrival r f =
      if (flitCovers f r && s.available r) = true then
        ((s.takeFlit r f).forwardAll r (checkedFlit f) (flitDirs f r)).ejectFlit r (checkedFlit f)
      else (s.takeFlit r f).forwardAll r (checkedFlit f) (flitDirs f r) := by
  simp [State.flitArrival, State.forwardAll, hd, hs, hv, hf]

end

/-! ### A flit at its destination (R182, R188) -/

section
variable {s : State} {r : Nat} {f : Flit}

theorem State.arrived_local (h : f.out = .local) : s.arrived r f = (s.takeFlit r f).ejectFlit r (checkedFlit f) := by
  simp [State.arrived, h]

theorem State.arrived_edge (h : f.out = .edge) : s.arrived r f = if (edgeBlock r).isSome then s.takeFlit r f else s := by
  simp [State.arrived, h]

theorem State.arrived_vertical (h : f.out = .vertical) {i : Nat} (hi : verticalPort r = some i) : s.arrived r f = s.toPort r i f := by
  simp [State.arrived, h, hi]

theorem State.arrived_vertical_none (h : f.out = .vertical) (hi : verticalPort r = none) : s.arrived r f = s := by
  simp [State.arrived, h, hi]

theorem State.toPort_response (h : f.vc ≠ 0) (i : Nat) : s.toPort r i f = s.takeFlit r f := by
  simp [State.toPort, h]

theorem State.toPort_full (h : f.vc = 0) {i : Nat} (hi : 112 ≤ (s.cluster (clusterOf r)).waiting i) : s.toPort r i f = s.holdFlit r f := by
  simp [State.toPort, h, Nat.not_lt.mpr hi]

theorem Cluster.waiting_put (u : Cluster) (i n : Nat) : ({ u with reqs := KV.put 0 u.reqs i n } : Cluster).waiting i = n :=
  KV.get_put_self u.reqs i n

/-- A request takes a slot of the port controller. -/
theorem State.toPort_room (h : f.vc = 0) {i : Nat} (hi : (s.cluster (clusterOf r)).waiting i < 112) :
    let u := s.cluster (clusterOf r)
    s.toPort r i f = (s.takeFlit r f).setCluster (clusterOf r) { u with reqs := KV.put 0 u.reqs i (u.waiting i + 1) } := by
  simp [State.toPort, h, hi]

end

/-! ### Mesh clocks (R365, R366) -/

theorem mem_insertOnce {α : Type} [DecidableEq α] {l : List α} {a x : α} : x ∈ insertOnce l a ↔ x = a ∨ x ∈ l := by
  unfold insertOnce
  split
  · rename_i h
    constructor
    · exact Or.inr
    · rintro (rfl | hx)
      · exact h
      · exact hx
  · simp [or_comm]

theorem meshClockStop_completes {s : State} {h : HalfId} (hq : s.quiescent h.val = true) (hi : s.rf oIdle 28 21 ≠ 0) :
    Completes (.meshClockStop h) s (fun t => h ∈ t.power.meshStopped ∧
      (∀ x, x ≠ h → (x ∈ t.power.meshStopped ↔ x ∈ s.power.meshStopped)) ∧ KeptBut [.power] s t) := by
  have e : exec (.meshClockStop h) s = .next { s with power := { s.power with meshStopped := insertOnce s.power.meshStopped h } } := by
    simp [exec, execMeshClockStop, hq, hi]
  refine ⟨_, e, mem_insertOnce.mpr (Or.inl rfl), fun x hx => ?_, ((Keeps.refl s).upd_power (by decide)).kept⟩
  exact mem_insertOnce.trans (or_iff_right hx)

theorem meshClockStop_kept {s : State} {h : HalfId} (hq : s.quiescent h.val = false ∨ s.rf oIdle 28 21 = 0) :
    exec (.meshClockStop h) s = .next s := by
  rcases hq with hq | hq <;> simp [exec, execMeshClockStop, hq]

theorem meshWake_completes (s : State) (h : HalfId) :
    Completes (.meshWake h) s (fun t => h ∉ t.power.meshStopped ∧
      (∀ x, x ≠ h → (x ∈ t.power.meshStopped ↔ x ∈ s.power.meshStopped)) ∧ KeptBut [.power] s t) := by
  refine ⟨_, rfl, by simp, fun x hx => by simp [hx], ((Keeps.refl s).upd_power (by decide)).kept⟩

/-! ### A flit lost on its way (R420) -/

/-- The part of a COPY that a lost flit carried fails (R213): bit 20 stands for the die, which is not the slow tier. -/
theorem lostPart_copy {q : QEnt} (h : cOpc q.w = 0x50) (free : BitVec 5) (dst : Nat) :
    lostPart free q dst = { q with prog := { q.prog with bitmap := q.prog.bitmap ||| 0x100000 }, await := q.await.erase (dst + 2)
                                   status := stPartial, bitmap := q.prog.bitmap ||| 0x100000 } := by
  simp [lostPart, QEnt.moved', moveStatus, h]

theorem meshPathLostTimeout_copy {s : State} {c : CoreId} {n : Fin 64} {f : Flit} {q : QEnt}
    (hf : s.lostFlits.find? (fun g => g.src = c) = some f)
    (hq : (((s.core c.val).run 3).filter (fun q => movesData q.w))[n.val]? = some q) (ho : cOpc q.w = 0x50) :
    Completes (.meshPathLostTimeout c n) s (fun t => t.lostFlits = s.lostFlits.erase f ∧
      (t.core c.val).run 3 = ((s.core c.val).run 3).map (fun x => if x = q then
        { q with prog := { q.prog with bitmap := q.prog.bitmap ||| 0x100000 }, await := q.await.erase (f.dst.val + 2)
                 status := stPartial, bitmap := q.prog.bitmap ||| 0x100000 } else x) ∧
      (∀ d, d ≠ c.val → t.core d = s.core d) ∧ KeptBut [.cores, .lostFlits, .fresh] s t) := by
  let u : State := ({ s with lostFlits := s.lostFlits.erase f } : State).took
  have e : exec (.meshPathLostTimeout c n) s = .next (u.setRunEnt c.val 3 q (lostPart (s.freeVal 5) q f.dst.val)) := by
    simp only [exec, execMeshPathLostTimeout, hf, hq, u]
  refine ⟨_, e, rfl, ?_, fun d hd => State.core_modCore_ne hd u _, ?_⟩
  · rw [State.setRunEnt, State.core_modCore, Core.run_setRun, lostPart_copy ho]
    rfl
  · exact ((((Keeps.refl s).upd_lostFlits (by decide)).took (by decide)).setRunEnt _ _ _ _ (by decide)).kept

/-! ### The statement -/

theorem completes_flitArrival {s t : State} {r : CoreId} {f : Flit} {P : State → Prop} (e : s.flitArrival r.val f = t) (h : P t) :
    Completes (.flitArrival r f) s P := ⟨t, congrArg Host.Outcome.next e, h⟩

/-- A multicast that every link takes: a copy on each way of its tree, and one for the core that it covers (R232). -/
theorem multicast_completes {s : State} {r : CoreId} {f : Flit} (hd : s.routerDown r.val = false)
    (hs : s.halfStands (halfOf r.val) = false) (hv : f.vc = 2) (hf : s.canForward r.val f (flitDirs f r.val) = true) :
    Completes (.flitArrival r f) s (fun t => KeptBut [.flits, .lostFlits, .cores] s t ∧
      (∀ d n, d ∈ flitDirs f r.val → routerAt r.val d = some n → s.routerDown n = false → (linkKey r.val n, checkedFlit f) ∈ t.flits) ∧
      (flitCovers f r.val = true → s.available r.val = true → (s.core r.val).eject.length < 32 →
        (t.core r.val).eject = (s.core r.val).eject ++ [checkedFlit f]) ∧
      ((flitCovers f r.val = false ∨ s.available r.val = false) → t.cores = s.cores)) := by
  let v := (s.takeFlit r.val f).forwardAll r.val (checkedFlit f) (flitDirs f r.val)
  have hk : ∀ l, Area.sub [.flits, .lostFlits] l = true → Keeps l s v := fun l hl =>
    ((Keeps.refl s).takeFlit _ _ (Area.sub_trans (by decide) hl)).forwardAll _ _ _ hl
  have hcores : v.cores = s.cores := (hk [.flits, .lostFlits] (by decide)).kept .cores (by decide)
  have sent : ∀ d n, d ∈ flitDirs f r.val → routerAt r.val d = some n → s.routerDown n = false → (linkKey r.val n, checkedFlit f) ∈ v.flits :=
    fun d n hdir hn up => State.forwardAll_sends hdir hn ((State.routerDown_congr (State.takeFlit_regs ..) n).trans up)
  by_cases hc : (flitCovers f r.val && s.available r.val) = true
  · have e := (State.flitArrival_tree hd hs hv hf).trans (if_pos hc)
    refine completes_flitArrival e ⟨((hk _ (by decide)).ejectFlit _ _ (by decide)).kept, fun d n hdir hn up => ?_, fun _ _ hroom => ?_, fun hout => ?_⟩
    · exact State.mem_flits_ejectFlit (sent d n hdir hn up) _ _
    · have hroom' : (v.core r.val).eject.length < 32 := by rwa [State.core_congr hcores]
      rw [State.ejectFlit_room _ hroom', State.core_modCore, State.core_congr hcores]
    · rcases hout with hout | hout <;> simp [hout] at hc
  · have e := (State.flitArrival_tree hd hs hv hf).trans (if_neg hc)
    refine completes_flitArrival e ⟨(hk _ (by decide)).kept, sent, fun h1 h2 => absurd (by simp [h1, h2]) hc, fun _ => hcores⟩

/-- Settles O47: the cases of `flitArrival`, `arrived` and `toPort` one by one; the ways of a multicast by induction on
its directions. Which part a lost flit carried, and that it is the first movement in execution that is told, are the
model's choices (logs 18 and 49). -/
theorem meshEvents : Obligations.MeshEvents := by
  intro s r f h u runs k Kept Off Held
  have hne : f.dst ≠ r → f.dst.val ≠ r.val := fun hne e => hne (Fin.ext e)
  have took : Keeps [.flits] s u := (Keeps.refl s).takeFlit _ _ (by decide)
  refine ⟨?_, ?_, ?_, ?_, ?_, ?_, ?_, ?_, meshClockStop_completes, meshClockStop_kept, meshWake_completes s h,
    fun n q hf hq ho => meshPathLostTimeout_copy hf hq ho⟩
  · rintro ⟨hd, hs⟩ hv ht n hn
    refine ⟨fun hf => congrArg Host.Outcome.next (State.flitArrival_busy hd hs hv (hne ht) hn hf), fun hf up => ?_, fun hf dn => ?_⟩
    · have up' : u.routerDown n = false := (State.routerDown_congr (State.takeFlit_regs ..) n).trans up
      refine completes_flitArrival ((State.flitArrival_leaves hd hs hv (hne ht) hn hf).trans (State.forward_up _ hn up')) ⟨rfl, ?_⟩
      exact (took.upd_flits (by decide)).kept
    · have dn' : u.routerDown n = true := (State.routerDown_congr (State.takeFlit_regs ..) n).trans dn
      refine completes_flitArrival ((State.flitArrival_leaves hd hs hv (hne ht) hn hf).trans (State.forward_down _ hn dn')) ⟨rfl, ?_, ?_⟩
      · simp [lostCopies_unicast (f := checkedFlit f) hv]
      · exact (((Keeps.refl s).takeFlit _ _ (by decide)).upd_lostFlits (by decide)).kept
  · rintro ⟨hd, hs⟩ hv rfl ho hroom
    have hroom' : (u.core f.dst.val).eject.length < 32 := by rwa [State.core_congr (State.takeFlit_cores ..)]
    have e := (State.flitArrival_here hd hs hv rfl).trans ((State.arrived_local ho).trans (State.ejectFlit_room _ hroom'))
    refine completes_flitArrival e ⟨rfl, ?_, fun d hdn => ?_, ?_⟩
    · rw [State.core_modCore, State.core_congr (State.takeFlit_cores s _ f)]
    · rw [State.core_modCore_ne hdn, State.core_congr (State.takeFlit_cores s _ f)]
    · exact (((Keeps.refl s).takeFlit _ _ (by decide)).modCore _ _ (by decide)).kept
  · rintro ⟨hd, hs⟩ hv rfl ho hfull
    have hfull' : 32 ≤ (u.core f.dst.val).eject.length := by rwa [State.core_congr (State.takeFlit_cores ..)]
    have e := (State.flitArrival_here hd hs hv rfl).trans ((State.arrived_local ho).trans (State.ejectFlit_full _ hfull'))
    rw [hereOnly_unicast (f := checkedFlit f) hv] at e
    exact completes_flitArrival e ⟨rfl, (took.upd_flits (by decide)).kept⟩
  · rintro ⟨hd, hs⟩ hv rfl ho
    have e := (State.flitArrival_here hd hs hv rfl).trans (State.arrived_edge ho)
    refine ⟨fun hb => congrArg Host.Outcome.next (e.trans (if_pos (Option.isSome_iff_ne_none.mpr hb))), fun hb => ?_⟩
    exact congrArg Host.Outcome.next (e.trans (if_neg (by simp [hb])))
  · rintro ⟨hd, hs⟩ hv rfl ho
    have here := State.flitArrival_here hd hs hv rfl
    refine ⟨fun hn => congrArg Host.Outcome.next (here.trans (State.arrived_vertical_none ho hn)), fun i hi => ?_⟩
    have e := here.trans (State.arrived_vertical ho hi)
    refine ⟨fun h0 => congrArg Host.Outcome.next (e.trans (State.toPort_response h0 i)),
      fun h0 hw => congrArg Host.Outcome.next (e.trans (State.toPort_full h0 hw)), fun h0 hw => ?_⟩
    refine completes_flitArrival (e.trans (State.toPort_room h0 hw)) ⟨rfl, ?_, ?_⟩
    · rw [State.cluster_setCluster]
      exact Cluster.waiting_put _ _ _
    · exact (((Keeps.refl s).takeFlit _ _ (by decide)).setCluster _ _ (by decide)).kept
  · exact fun hd hs => congrArg Host.Outcome.next (State.flitArrival_stands hd hs)
  · intro hd
    exact completes_flitArrival (State.flitArrival_down hd) ⟨rfl, rfl, (((Keeps.refl s).takeFlit _ _ (by decide)).upd_lostFlits (by decide)).kept⟩
  · rintro ⟨hd, hs⟩ hv
    refine ⟨fun hf => congrArg Host.Outcome.next (State.flitArrival_tree_busy hd hs hv hf), fun hf => ?_⟩
    exact multicast_completes hd hs hv hf

end Sys2Proof.Machine
end

section
/-! Records: what posting one to event queue 0, or to Husk, leaves of the parts that it may touch (R391 to R397, R430). -/

namespace Sys2Proof.Machine

/-- The registers that a record for queue 0 may change: those of the queue, and BBX_STAT, which counts what Husk drops. -/
def recordReg (o : Nat) : Bool := (decide (0x1000 ≤ o) && decide (o < 0x1040)) || decide (o = oBbxStat)

/-- What posting records leaves of the host interface, the board, Husk and the registers: the link, every pin but WAKE_N,
the number of starts, and the registers that are no record's. -/
structure Told (s t : State) : Prop where
  link : t.hif.linkUp = s.hif.linkUp
  board : ∃ w, t.board = { s.board with wakeN := w }
  boots : t.husk.boots = s.husk.boots
  regs : ∀ o, recordReg o = false → t.rg o = s.rg o

variable {u s : State}

theorem Told.refl (s : State) : Told s s := ⟨rfl, ⟨_, rfl⟩, rfl, fun _ _ => rfl⟩

theorem Told.setRf (h : Told u s) {o : Nat} (ho : recordReg o = true) (hi lo v : Nat) : Told u (s.setRf o hi lo v) :=
  ⟨h.link, h.board, h.boots, fun o' ho' =>
    (State.rg_setRf_ne (fun e => by simp [e, ho] at ho') s hi lo v).trans (h.regs o' ho')⟩

theorem Told.hif (h : Told u s) {x : Hif} (hx : x.linkUp = s.hif.linkUp) : Told u { s with hif := x } :=
  ⟨hx.trans h.link, h.board, h.boots, h.regs⟩

theorem Told.putBytes (h : Told u s) (k : Nat) (d : List Byte) : Told u (s.putBytes k d) := by
  rw [State.putBytes_rest]
  exact ⟨h.link, h.board, h.boots, h.regs⟩

theorem Told.putNum (h : Told u s) (k n v : Nat) : Told u (s.putNum k n v) := h.putBytes k _

theorem Told.setEvq (h : Told u s) (q : Nat) (x : Evq) : Told u (s.setEvq q x) := h.hif rfl

theorem Told.husk' (h : Told u s) (kind : BitVec 8) (body : BitVec 512) (aux : BitVec 320) : Told u (s.husk' kind body aux) := by
  unfold State.husk'
  split
  · exact h
  · split
    · exact h.setRf (by decide) _ _ _
    · exact ⟨h.link, h.board, h.boots, h.regs⟩

theorem Told.huskEvent (h : Told u s) (e : Ev) : Told u (s.huskEvent e) := h.husk' _ _ _

theorem recordReg_evqDrop (j : Nat) (h : j < 4) : recordReg (oEvqDrop 0 j) = true := by
  simp [recordReg, oEvqDrop, oEvq]
  omega

/-- The type of a record is one of 16, so its count lies within its queue's registers. -/
theorem Told.dropEv (h : Told u s) {n : Nat} (hn : n < 16) : Told u (s.dropEv 0 n) :=
  h.setRf (recordReg_evqDrop _ (by omega)) _ _ _

theorem Told.lostEv (h : Told u s) {e : Ev} (he : e.typ < 16) : Told u (s.lostEv 0 e) := (h.setEvq _ _).dropEv he

theorem Told.sendMsix (h : Told u s) (q : Nat) : Told u (s.sendMsix q) := by
  have hq := h.setEvq q { s.evq q with unsent := 0 }
  unfold State.sendMsix
  extract_lets f v x t
  split
  · exact Told.hif (s := t) hq rfl
  · exact Told.hif (s := t) hq rfl

theorem Told.writeEv (h : Told u s) {e : Ev} (he : e.typ < 16) : Told u (s.writeEv 0 e) := by
  unfold State.writeEv
  extract_lets x a cb t1 t2 base t3 t4 t5
  split
  · exact (((h.setEvq _ _).dropEv he).setRf (by decide) _ _ _).putBytes _ _
  · have h5 : Told u t5 := ((h.putNum _ _ _).setEvq _ _).putNum _ _ _
    split
    · exact h5.sendMsix 0
    · exact h5

theorem Told.deliverEv (h : Told u s) {e : Ev} (he : e.typ < 16) : Told u (s.deliverEv 0 e) := by
  unfold State.deliverEv
  split
  · obtain ⟨w, hw⟩ := h.board
    exact ⟨h.link, ⟨_, by rw [hw]⟩, h.boots, h.regs⟩
  · exact h.writeEv he

theorem Told.post (h : Told u s) {e : Ev} (he : e.typ < 16) : Told u (s.post 0 e) := by
  unfold State.post
  extract_lets t t'
  have ht : Told u t := by
    show Told u (if e.husk then _ else _)
    split
    · exact h.husk' _ _ _
    · exact h
  split
  · exact ht.deliverEv he
  · rw [if_neg (by simp)]
    exact ht.lostEv he

theorem Told.postHeld (h : Told u s) {e : Ev} (he : e.typ < 16) : Told u (s.postHeld e) := by
  unfold State.postHeld
  split
  · exact h.post he
  · extract_lets t
    have ht : Told u t := by
      show Told u (if e.husk then _ else _)
      split
      · exact h.husk' _ _ _
      · exact h
    exact ht.hif rfl

theorem Told.foldl {α : Type} {f : State → α → State} {l : List α} (hf : ∀ s a, Told u s → Told u (f s a)) (h : Told u s) :
    Told u (l.foldl f s) := by
  induction l generalizing s with
  | nil => exact h
  | cons a l ih => exact ih (hf s a h)

theorem readyEv_typ (item part payload : Nat) (time : BitVec 64) : (readyEv item part payload time).typ < 16 := by
  show evPower < 16
  decide

theorem Told.postReady (h : Told u s) (item : Nat) (time : BitVec 64) : Told u (s.postReady item time) := by
  unfold State.postReady
  split
  · exact Told.foldl (fun _ _ h => h.post (readyEv_typ ..)) h
  · exact h.post (readyEv_typ ..)

/-- A readiness item sets its bit of HIF_READY, and is told. -/
theorem Told.raiseReady (s : State) (item : Nat) : Told (s.setRf oReady item item 1) (s.raiseReady item) := by
  unfold State.raiseReady
  extract_lets t
  split
  · exact (Told.refl t).postReady item _
  · exact (Told.refl t).hif rfl

end Sys2Proof.Machine
end

section
/-! The start of the ROM, and what the loss of the rails leaves (R31 to R33, R438 to R440, R463, R467). -/

namespace Sys2Proof.Machine

/-! ### What the ROM finds and does -/

/-- Where a bank is accepted it runs; where none is, the module is in recovery (R438, R440). -/
def RomDid (x : Found) (t : State) : Prop :=
  (∀ i, x.run = some i → t.sec.booted = true ∧ t.sec.running = i ∧ t.rf oReady 0 0 = 1 ∧ t.rf oBootStat 0 0 = i % 2) ∧
  (x.run = none → t.sec.booted = false ∧ t.board.faultPip = true ∧ t.rf oReady 4 4 = 1 ∧ t.rf oAlert 2 2 = 1)

/-- What a run of the ROM leaves: the link, the number of starts, the status of the sideband, and the board but for WAKE_N and
Pip's FAULT_N. -/
structure Ran (s t : State) : Prop where
  link : t.hif.linkUp = s.hif.linkUp
  boots : t.husk.boots = s.husk.boots
  board : ∃ w p, t.board = { s.board with wakeN := w, faultPip := p }
  sbStat : t.rg oSbStat = s.rg oSbStat

theorem State.rf_congr {s t : State} {o : Nat} (h : t.rg o = s.rg o) (hi lo : Nat) : t.rf o hi lo = s.rf o hi lo := by
  unfold State.rf
  rw [h]

theorem State.rf_setRg_ne {o o' : Nat} (h : o' ≠ o) (s : State) (v : BitVec 64) (hi lo : Nat) : (s.setRg o v).rf o' hi lo = s.rf o' hi lo :=
  State.rf_congr (State.rg_setRg_ne h s v) hi lo

theorem State.rf_setRf_ne {o o' : Nat} (h : o' ≠ o) (s : State) (hi lo v h' l' : Nat) :
    (s.setRf o hi lo v).rf o' h' l' = s.rf o' h' l' :=
  State.rf_congr (State.rg_setRf_ne h s hi lo v) h' l'

theorem State.rf_setRf_one (s : State) (o : Nat) {i : Nat} (hi : i < 64) : (s.setRf o i i 1).rf o i i = 1 := by
  rw [State.rf_setRf s o 1 le_rfl hi, Nat.sub_self]
  rfl

section
variable {s t : State}

/-- Records told after it do not change what the ROM has done. -/
theorem RomDid.told {x : Found} (h : RomDid x s) (ht : Told s t) (hsec : t.sec = s.sec) : RomDid x t := by
  obtain ⟨w, hw⟩ := ht.board
  have hr : ∀ o hi lo, recordReg o = false → t.rf o hi lo = s.rf o hi lo := fun o hi lo ho => State.rf_congr (ht.regs o ho) hi lo
  unfold RomDid
  rw [hsec, hw, hr oReady 0 0 (by decide), hr oReady 4 4 (by decide), hr oBootStat 0 0 (by decide), hr oAlert 2 2 (by decide)]
  exact h

theorem Ran.told {u : State} (h : Ran u s) (ht : Told s t) : Ran u t := by
  obtain ⟨w, hw⟩ := ht.board
  obtain ⟨v, p, hv⟩ := h.board
  exact ⟨ht.link.trans h.link, ht.boots.trans h.boots, ⟨w, p, by rw [hw, hv]⟩, (ht.regs _ (by decide)).trans h.sbStat⟩

end

/-- The lowest bit of a word packed from fields is that of the first. -/
theorem fld_pack_bit_zero (i : Nat) (l : List (Nat × Nat)) : fld (BitVec.ofNat 64 (pack ((1, i) :: l))) 0 0 = i % 2 := by
  simp only [fld, pack, BitVec.toNat_ofNat]
  omega

/-- The bank found runs. -/
theorem State.runBank_did (s : State) (i : Nat) (x : Found) (hx : x.run = some i) : RomDid x (s.runBank i x) ∧ Ran s (s.runBank i x) := by
  unfold State.runBank
  extract_lets b fb sec u1 board u2 u3 u4 u5
  have did : RomDid x u5 := by
    refine ⟨fun j hj => ⟨rfl, ?_, ?_, ?_⟩, fun hn => absurd (hx.symm.trans hn) (by simp)⟩
    · exact Option.some.inj (hx.symm.trans hj)
    · exact u4.rf_setRf_one oReady (by decide)
    · have e : u5.rf oBootStat 0 0 = u3.rf oBootStat 0 0 :=
        (State.rf_setRf_ne (by decide) _ _ _ _ _ _).trans (State.rf_setRg_ne (by decide) _ _ _ _)
      rw [e, ← Option.some.inj (hx.symm.trans hj)]
      unfold State.rf
      rw [State.rg_setRg]
      exact fld_pack_bit_zero _ _
  have ran : Ran s u5 := by
    refine ⟨rfl, rfl, ⟨_, _, rfl⟩, ?_⟩
    exact (State.rg_setRf_ne (by decide) _ _ _ _).trans ((State.rg_setRg_ne (by decide) _ _).trans (State.rg_setRg_ne (by decide) _ _))
  split
  · have told := (Told.refl u5).postHeld (e := securityEv secFallback 0) (by decide)
    exact ⟨did.told told (((Keeps.refl (l := eventParts) u5).postHeld _ (by decide)).kept .sec (by decide)), ran.told told⟩
  · exact ⟨did, ran⟩

/-- No bank is accepted: recovery. -/
theorem State.recover_did (s : State) (x : Found) (hx : x.run = none) : RomDid x (s.recover x) ∧ Ran s (s.recover x) := by
  unfold State.recover
  extract_lets board sec u1 u2 u3 u4
  have did : RomDid x u4 := by
    refine ⟨fun j hj => absurd (hx.symm.trans hj) (by simp), fun _ => ⟨rfl, rfl, ?_, ?_⟩⟩
    · exact (State.rf_setRf_ne (by decide) _ _ _ _ _ _).trans (State.rf_setRf_one u3 oReady (by decide))
    · exact State.rf_setRf_one _ oAlert (by decide)
  have ran : Ran s u4 := by
    refine ⟨rfl, rfl, ⟨_, _, rfl⟩, ?_⟩
    exact (State.rg_setRf_ne (by decide) _ _ _ _).trans ((State.rg_setRf_ne (by decide) _ _ _ _).trans
      ((State.rg_setRg_ne (by decide) _ _).trans (State.rg_setRg_ne (by decide) _ _)))
  have told := (Told.refl u4).huskEvent { typ := evSecurity, husk := true, kind := 8, payload := pack [(8, 0), (8, x.causeA), (8, x.causeB)] }
  exact ⟨did.told told (((Keeps.refl (l := eventParts) u4).huskEvent _ (by decide)).kept .sec (by decide)), ran.told told⟩

/-- What the ROM finds depends on the fuses and the flash alone. -/
theorem State.romFinds_congr {s t : State} (hfuses : t.sec.fuses = s.sec.fuses) (hbanks : t.sec.banks = s.sec.banks)
    (hfirst : t.sec.first = s.sec.first) : t.romFinds = s.romFinds := by
  unfold State.romFinds State.fusedCount State.bank
  rw [hfuses, hbanks, hfirst]

theorem State.secureBoot_did (s : State) : RomDid s.romFinds s.secureBoot ∧ Ran s s.secureBoot := by
  unfold State.secureBoot
  extract_lets sec u x
  have ran : ∀ {t : State}, Ran u t → Ran s t := fun {t} h => ⟨h.link, h.boots, h.board, h.sbStat⟩
  have hx : s.romFinds = x := (State.romFinds_congr rfl rfl rfl).symm
  rw [hx]
  split
  · rename_i i hi
    obtain ⟨did, r⟩ := u.runBank_did i x hi
    exact ⟨did, ran r⟩
  · rename_i hn
    obtain ⟨did, r⟩ := u.recover_did x hn
    exact ⟨did, ran r⟩

theorem Told.cycleRecords (s : State) : Told s s.cycleRecords := by
  unfold State.cycleRecords
  extract_lets n t
  have ht : Told s t := Told.foldl (fun _ _ h => h.huskEvent _) (Told.refl s)
  exact ⟨ht.link, ht.board, ht.boots, ht.regs⟩

theorem Told.bootRecord {u s : State} (h : Told u s) (cause new : Nat) : Told u (s.bootRecord cause new) := h.husk' _ _ _

theorem State.requestRails_rest (s : State) : ∃ q, s.requestRails = { s with board := { s.board with sequencing := q } } := by
  unfold State.requestRails
  split
  · exact ⟨_, rfl⟩
  · exact ⟨s.board.sequencing, rfl⟩

/-! ### A start of the ROM -/

/-- What is cut short when the ROM starts changes one register and what is stored in fuses and flash. -/
theorem State.cutShort_rg {o : Nat} (h : o ≠ oFwUpdate) (s : State) : s.cutShort.rg o = s.rg o := by
  unfold State.cutShort
  extract_lets sec t t' old
  have e : t'.rg o = s.rg o := by
    refine (State.rg_setRg_ne h t 0).trans ?_
    show (if _ then _ else _ : State).rg o = _
    split <;> rfl
  split
  · exact e
  · exact e

/-- With no update and no commit under way nothing is cut short. -/
theorem State.cutShort_whole {s : State} (hb : s.sec.blowing = none) (hu : bit (s.rg oFwUpdate) 0 = false) :
    s.cutShort = s.setRg oFwUpdate 0 := by
  simp [State.cutShort, hb, hu]

/-- The records that follow the ROM's run leave what it did. -/
theorem State.bootRecorded_did (u : State) (cause new : Nat) :
    RomDid u.romFinds (u.secureBoot.cycleRecords.bootRecord cause new) ∧ Ran u (u.secureBoot.cycleRecords.bootRecord cause new) := by
  obtain ⟨did, ran⟩ := u.secureBoot_did
  have told := (Told.cycleRecords u.secureBoot).bootRecord cause new
  have kept := (((Keeps.refl (l := [.regs, .husk]) u.secureBoot).cycleRecords (by decide)).bootRecord cause new (by decide)).kept
  exact ⟨did.told told (kept .sec (by decide)), ran.told told⟩

/-- The counts and the flags of the board as a start of the ROM sets them. -/
def State.romBegins (s : State) : State :=
  { s with
    husk := { s.husk with boots := s.husk.boots + 1, stopped := false, syncRestarts := s.husk.syncRestarts + 1 }
    board := { s.board with refreshAt := s.aon, shut := false, pipReset := false } }

theorem State.startRom_eq (s : State) (cause : Nat) : s.startRom cause = (s.cutShort.romBegins.secureBoot.cycleRecords.bootRecord cause
    (s.cutShort.board.cycles - s.cutShort.husk.cyclesSeen)).requestRails := rfl

/-- What a start of the ROM does, and leaves of the board, the link and the sideband. -/
structure RomStart (s t : State) : Prop where
  did : RomDid s.cutShort.romFinds t
  boots : t.husk.boots = s.husk.boots + 1
  link : t.hif.linkUp = s.hif.linkUp
  sbStat : t.rg oSbStat = s.rg oSbStat
  board : ∃ w p q, t.board = { s.board with refreshAt := s.aon, shut := false, pipReset := false, wakeN := w, faultPip := p, sequencing := q }

theorem State.startRom_did (s : State) (cause : Nat) : RomStart s (s.startRom cause) := by
  have kept := ((Keeps.refl (l := [.fresh, .regs, .sec]) s).cutShort (by decide)).kept
  have hhusk : s.cutShort.husk = s.husk := kept .husk (by decide)
  have hhif : s.cutShort.hif = s.hif := kept .hif (by decide)
  have hu : s.cutShort.romBegins.board = { s.board with refreshAt := s.aon, shut := false, pipReset := false } := by
    unfold State.romBegins
    rw [show s.cutShort.board = s.board from kept .board (by decide), show s.cutShort.aon = s.aon from kept .aon (by decide)]
  obtain ⟨did, ran⟩ := s.cutShort.romBegins.bootRecorded_did cause (s.cutShort.board.cycles - s.cutShort.husk.cyclesSeen)
  have found : s.cutShort.romBegins.romFinds = s.cutShort.romFinds := State.romFinds_congr rfl rfl rfl
  rw [found] at did
  rw [State.startRom_eq]
  generalize s.cutShort.romBegins.secureBoot.cycleRecords.bootRecord cause _ = v at did ran ⊢
  obtain ⟨q, hq⟩ := v.requestRails_rest
  obtain ⟨w, p, hb⟩ := ran.board
  rw [hu] at hb
  rw [hq]
  exact {
    did := did
    boots := ran.boots.trans (congrArg (fun h : Husk => h.boots + 1) hhusk)
    link := ran.link.trans (congrArg Hif.linkUp hhif)
    sbStat := ran.sbStat.trans (State.cutShort_rg (by decide) s)
    board := ⟨w, p, q, congrArg (fun b : Board => { b with sequencing := q }) hb⟩ }

end Sys2Proof.Machine
end

section
/-! What the loss of the rails leaves, and a start of the ROM as the statement on the board describes it (R31 to R33, R438,
R440, R463, R467). -/

namespace Sys2Proof.Machine

/-- The module without its rails: no core, no link, no drive of a switch, and every byte of the device zero. -/
def State.Dark (t : State) : Prop :=
  t.board.rails = 0 ∧ t.cores = [] ∧ t.hif.linkUp = false ∧ (∀ d, KV.get false t.fab.driven d = false) ∧ ∀ x, x < 2 ^ 65 → t.byte x = 0

/-- The ROM started once more, on the banks given; where no update and no commit was cut short, it did what it finds there. -/
def State.Boots (s t : State) (banks : List Bank) : Prop :=
  t.husk.boots = s.husk.boots + 1 ∧ t.board.pipReset = false ∧ t.board.shut = false ∧
    (s.sec.blowing = none ∧ bit (s.rg oFwUpdate) 0 = false → RomDid ({ s with sec := { s.sec with banks := banks } } : State).romFinds t)

/-! ### Registers and bytes that a filter leaves -/

theorem State.rg_filter {s t : State} {p : Nat × BitVec 64 → Bool} {o : Nat} (e : t.regs = s.regs.filter p) (hp : ∀ v, p (o, v) = true) :
    t.rg o = s.rg o := by
  unfold State.rg
  rw [e, KV.get_filter hp]

/-- The lowest bit of a word moves into another. -/
theorem bit_setFld_fld_zero (w v : BitVec 64) : bit (setFld w 0 0 (fld v 0 0)) 0 = bit v 0 := by
  rw [bit_setFld w _ 0 le_rfl (by decide), if_pos ⟨le_rfl, le_rfl⟩, fld_testBit]
  simp

/-! ### The loss of the rails -/

/-- The fold over the switches changes no register but those of the ports. -/
theorem State.rg_portStats {o : Nat} {l : List Nat} (h : ∀ d ∈ l, o ≠ oPortStat (2 * d) ∧ o ≠ oPortStat (2 * d + 1)) (s : State) :
    (l.foldl (fun s d => if KV.get false s.fab.through d then (s.setRf (oPortStat (2 * d)) 4 4 0).setRf (oPortStat (2 * d + 1)) 4 4 0
      else s) s).rg o = s.rg o := by
  induction l generalizing s with
  | nil => rfl
  | cons d l ih =>
    obtain ⟨⟨he, ho⟩, hl⟩ := List.forall_mem_cons.mp h
    rw [List.foldl_cons, ih hl]
    split
    · exact (State.rg_setRf_ne ho _ _ _ _).trans (State.rg_setRf_ne he _ _ _ _)
    · rfl

/-- What the loss of the die leaves of what the loss of the rails goes on from. -/
structure DieLost (s t : State) : Prop where
  cores : t.cores = []
  driven : t.fab.driven = []
  sbStat : t.rg oSbStat = s.rg oSbStat
  update : bit (t.rg oFwUpdate) 0 = bit (s.rg oFwUpdate) 0

theorem State.clearDie_lost (s : State) : DieLost s s.clearDie := by
  unfold State.clearDie
  extract_lets up link ras u v w
  have kept := (Keeps.foldl (l := [.regs]) (xs := List.range 3) (f := fun s d =>
      if KV.get false s.fab.through d then (s.setRf (oPortStat (2 * d)) 4 4 0).setRf (oPortStat (2 * d + 1)) 4 4 0 else s)
    (fun s d h => by
      split
      · exact (h.setRf _ _ _ _ (by decide)).setRf _ _ _ _ (by decide)
      · exact h) (Keeps.refl w)).kept
  exact {
    cores := kept .cores (by decide)
    driven := congrArg Fabric.driven (kept .fab (by decide))
    sbStat := by
      refine (State.rg_portStats (by decide) w).trans ?_
      refine (State.rg_setRg_ne (by decide) v link).trans ((State.rg_setRf_ne (by decide) u 0 0 up).trans ?_)
      exact State.rg_filter rfl (fun _ => by simp; decide)
    update := by
      have e : w.rg oFwUpdate = v.rg oFwUpdate := State.rg_setRg_ne (by decide) v link
      rw [State.rg_portStats (by decide) w, e]
      show bit ((u.setRf oFwUpdate 0 0 (fld (s.rg oFwUpdate) 0 0)).rg oFwUpdate) 0 = _
      unfold State.setRf
      rw [State.rg_setRg, bit_setFld_fld_zero] }

/-- What the loss of the rails leaves of the board, Husk, security and the sideband (R467). -/
structure RailsLost (s t : State) : Prop where
  dark : t.Dark
  board : t.board = { s.board with rails := 0, sequencing := false, upSteps := 0, pwrgd := false, wakeN := false }
  husk : t.husk = s.husk
  aon : t.aon = s.aon
  sec : t.sec = { s.sec with ideKeys := [], ideOn := [], session := false, keyExchange := false, spdm := .idle }
  sbStat : t.rg oSbStat = s.rg oSbStat
  update : bit (t.rg oFwUpdate) 0 = bit (s.rg oFwUpdate) 0

theorem State.railsOff_lost (s : State) : RailsLost s s.railsOff := by
  have lost := s.clearDie_lost
  have kept := ((Keeps.refl (l := [.regs, .cores, .clusters, .mems, .tlbInv, .flits, .lostFlits, .damsons, .sync, .fab, .hif, .power, .ras])
    s).clearDie (by decide)).kept
  have hboard : s.clearDie.board = s.board := kept .board (by decide)
  have hsec : s.clearDie.sec = s.sec := kept .sec (by decide)
  unfold State.railsOff
  generalize s.clearDie = c at lost kept hboard hsec ⊢
  extract_lets d keep board u v sec
  have stays : ∀ o, o ≠ oLink → keep o = true → v.rg o = c.rg o := fun o hl hk =>
    (State.rg_setRg_ne hl u 0).trans (State.rg_filter rfl (fun _ => hk))
  exact {
    dark := ⟨rfl, lost.cores, rfl, fun d => by show KV.get false c.fab.driven d = _; rw [lost.driven]; rfl,
      fun x hx => KV.get_filter_out (fun _ => by simpa using hx)⟩
    board := congrArg (fun b : Board => { b with rails := 0, sequencing := false, upSteps := 0, pwrgd := false, wakeN := false }) hboard
    husk := kept .husk (by decide)
    aon := kept .aon (by decide)
    sec := congrArg (fun x : Sec => { x with ideKeys := [], ideOn := [], session := false, keyExchange := false, spdm := .idle }) hsec
    sbStat := (stays oSbStat (by decide) (by decide)).trans lost.sbStat
    update := (congrArg (bit · 0) (stays oFwUpdate (by decide) (by decide))).trans lost.update }

/-- The switches are released first (R342). -/
theorem State.released_railsOff_lost (s : State) : RailsLost s s.releaseSwitches.railsOff := by
  obtain ⟨dark, board, husk, aon, sec, sbStat, update⟩ := s.releaseSwitches.railsOff_lost
  exact ⟨dark, board, husk, aon, sec, sbStat, update⟩

/-! ### A start of the ROM as the statement describes it -/

/-- One state has what another has of everything that a start of the ROM goes by, with these banks. -/
structure SameBoot (s u : State) (banks : List Bank) : Prop where
  boots : u.husk.boots = s.husk.boots
  banks : u.sec.banks = banks
  fuses : u.sec.fuses = s.sec.fuses
  first : u.sec.first = s.sec.first
  blowing : u.sec.blowing = s.sec.blowing
  update : bit (u.rg oFwUpdate) 0 = bit (s.rg oFwUpdate) 0

theorem SameBoot.startRom {s u : State} {banks : List Bank} (h : SameBoot s u banks) (cause : Nat) : s.Boots (u.startRom cause) banks := by
  obtain ⟨did, boots, _, _, w, p, q, board⟩ := u.startRom_did cause
  refine ⟨boots.trans (by rw [h.boots]), by rw [board], by rw [board], fun ⟨hb, hu⟩ => ?_⟩
  have whole := State.cutShort_whole (h.blowing.trans hb) (h.update.trans hu)
  have found : u.cutShort.romFinds = ({ s with sec := { s.sec with banks := banks } } : State).romFinds := by
    rw [whole]
    exact State.romFinds_congr h.fuses h.banks h.first
  exact found ▸ did

/-- The ROM runs without the rails. -/
theorem State.Dark.startRom {u : State} (h : u.Dark) (cause : Nat) : (u.startRom cause).Dark := by
  obtain ⟨rails, cores, link, driven, bytes⟩ := h
  have kept := ((Keeps.refl (l := [.fresh, .host, .regs, .hif, .board, .husk, .sec]) u).startRom cause (by decide)).kept
  obtain ⟨_, _, hlink, _, w, p, q, board⟩ := u.startRom_did cause
  refine ⟨by rw [board]; exact rails, (kept .cores (by decide)).trans cores, hlink.trans link, fun d => ?_, fun x hx => ?_⟩
  · rw [show (u.startRom cause).fab = u.fab from kept .fab (by decide)]
    exact driven d
  · exact (kept .mem (by decide) x hx).trans (bytes x hx)

end Sys2Proof.Machine
end

section
/-! Input power, PWR_EN, the rail sequence, the watchdog and rail faults (R28 to R33, R426, R455 to R469). -/

namespace Sys2Proof.Machine

variable {s u t : State} {banks : List Bank}

/-! ### Restarts -/

theorem SameBoot.refl (s : State) : SameBoot s s s.sec.banks := ⟨rfl, rfl, rfl, rfl, rfl, rfl⟩

/-- The loss of the rails leaves what a start of the ROM goes by. -/
theorem SameBoot.railsLost (h : SameBoot s u banks) (l : RailsLost u t) : SameBoot s t banks := by
  obtain ⟨_, _, husk, _, sec, _, update⟩ := l
  exact ⟨by rw [husk, h.boots], by rw [sec, ← h.banks], by rw [sec, ← h.fuses], by rw [sec, ← h.first], by rw [sec, ← h.blowing],
    update.trans h.update⟩

/-- A change of the board, or of PWR_EN and the straps, leaves what a start of the ROM goes by. -/
theorem SameBoot.setRf (h : SameBoot s u banks) {o : Nat} (ho : oFwUpdate ≠ o) (hi lo v : Nat) : SameBoot s (u.setRf o hi lo v) banks :=
  ⟨h.boots, h.banks, h.fuses, h.first, h.blowing, by rw [State.rg_setRf_ne ho, h.update]⟩

theorem SameBoot.onBoard (h : SameBoot s u banks) (b : Board) : SameBoot s { u with board := b } banks :=
  ⟨h.boots, h.banks, h.fuses, h.first, h.blowing, h.update⟩

theorem State.powered_sameBoot (s : State) (banks : List Bank) : SameBoot s (s.powered banks) banks := ⟨rfl, rfl, rfl, rfl, rfl, rfl⟩

/-- What a start of the ROM leaves of the board's flags. -/
theorem RomStart.flags (h : RomStart u t) : t.board.v48 = u.board.v48 ∧ t.board.auxOn = u.board.auxOn ∧ t.board.straps = u.board.straps ∧
    t.board.hold = u.board.hold ∧ t.board.faultPsc = u.board.faultPsc ∧ t.board.cycles = u.board.cycles ∧ t.board.recent = u.board.recent := by
  obtain ⟨w, p, q, hb⟩ := h.board
  rw [hb]
  exact ⟨rfl, rfl, rfl, rfl, rfl, rfl, rfl⟩

/-! ### Input power -/

theorem State.inputOn_aux (hv : s.board.v48 = false) (ha : s.board.auxOn = true) (banks : List Bank) (straps : BitVec 6) :
    s.inputOn banks straps = (s.powered banks).restartModule 4 := by
  simp [State.inputOn, hv, ha]

/-- The block as input power finds it without the always-on domain: straps sampled, and the banks of the flash. -/
def State.strapped (s : State) (banks : List Bank) (straps : BitVec 6) : State :=
  ({ s.powered banks with board := { (s.powered banks).board with straps := straps } }).setRf oSbStat 21 16 straps.toNat

theorem State.inputOn_dark (hv : s.board.v48 = false) (ha : s.board.auxOn = false) (banks : List Bank) (straps : BitVec 6) :
    s.inputOn banks straps = (s.strapped banks straps).startRom 0 := by
  simp [State.inputOn, State.strapped, hv, ha]

/-- Power returns within the hold-up: the module restarts from its rails. -/
theorem State.restart_powered (s : State) (banks : List Bank) :
    let t := (s.powered banks).restartModule 4
    t.board.v48 = true ∧ t.board.auxOn = true ∧ s.Boots t banks ∧ t.Dark ∧ t.board.straps = s.board.straps := by
  have lost := (s.powered banks).released_railsOff_lost
  obtain ⟨v48, auxOn, straps, _⟩ := (State.startRom_did (s.powered banks).releaseSwitches.railsOff 4).flags
  rw [lost.board] at v48 auxOn straps
  exact ⟨v48, auxOn, ((s.powered_sameBoot banks).railsLost lost).startRom 4, lost.dark.startRom 4, straps⟩

/-- Power comes to a module without any. -/
theorem State.start_strapped (s : State) (banks : List Bank) (straps : BitVec 6) :
    let t := (s.strapped banks straps).startRom 0
    t.board.v48 = true ∧ t.board.auxOn = true ∧ s.Boots t banks ∧ t.board.straps = straps ∧ t.rf oSbStat 21 16 = straps.toNat := by
  have start := (s.strapped banks straps).startRom_did 0
  obtain ⟨v48, auxOn, st, _⟩ := start.flags
  have same : SameBoot s (s.strapped banks straps) banks := ((s.powered_sameBoot banks).onBoard _).setRf (by decide) _ _ _
  refine ⟨v48, auxOn, same.startRom 0, st, (State.rf_congr start.sbStat 21 16).trans ?_⟩
  refine (State.rf_setRf _ oSbStat _ (by decide) (by decide)).trans ?_
  exact Nat.mod_eq_of_lt straps.isLt

/-- The record that the loss of power writes, and what it leaves. -/
theorem State.powerlossRecord_husk (s : State) (volt power : BitVec 32) (hot : BitVec 8) :
    ∃ h, s.powerlossRecord volt power hot = { s with husk := h } ∧ h.stopped = true ∧ h.queue = [] ∧
      h.next = s.husk.next + (if !s.board.pipReset && s.husk.slotFree then 1 else 0) := by
  unfold State.powerlossRecord
  split
  · rename_i hp
    exact ⟨_, rfl, rfl, rfl, by simp [hp]⟩
  · rename_i hp
    extract_lets queued h e
    have free : h.slotFree = s.husk.slotFree := rfl
    refine ⟨_, rfl, ?_⟩
    by_cases hf : s.husk.slotFree = true
    · rw [free, if_pos hf, if_pos (by simp [hp, hf])]
      exact ⟨rfl, rfl, rfl⟩
    · rw [free, if_neg hf, if_neg (by simp [hf])]
      exact ⟨rfl, rfl, rfl⟩

theorem State.inputLoss_lost (hv : s.board.v48 = true) (volt power : BitVec 32) (hot : BitVec 8) :
    let t := s.inputLoss volt power hot
    t.Dark ∧ t.board.v48 = false ∧ t.board.hold = false ∧ t.board.recent = [] ∧ t.husk.stopped = true ∧ t.husk.queue = [] ∧
      t.husk.next = s.husk.next + (if !s.board.pipReset && s.husk.slotFree then 1 else 0) := by
  obtain ⟨h, record, stopped, queue, next⟩ := s.powerlossRecord_husk volt power hot
  have lost := (s.powerlossRecord volt power hot).released_railsOff_lost
  have husk : (s.powerlossRecord volt power hot).releaseSwitches.railsOff.husk = h := by rw [lost.husk, record]
  unfold State.inputLoss
  rw [if_neg (by simp [hv])]
  generalize (s.powerlossRecord volt power hot).releaseSwitches.railsOff = x at lost husk ⊢
  obtain ⟨rails, cores, link, driven, bytes⟩ := lost.dark
  subst husk
  exact ⟨⟨rails, cores, link, driven, bytes⟩, rfl, rfl, rfl, stopped, queue, next⟩

/-! ### The end of the hold-up -/

/-- Of security, what is cut short changes the banks, the fuses and the commit under way. -/
theorem State.cutShort_sec (s : State) : s.cutShort.sec.first = s.sec.first ∧ (s.sec.blowing = none → s.cutShort.sec.fuses = s.sec.fuses) := by
  unfold State.cutShort
  extract_lets sec t t' old
  have first : t'.sec.first = s.sec.first := by
    show (if _ then _ else _ : State).sec.first = _
    split <;> rfl
  have fuses : t'.sec.fuses = s.sec.fuses := by
    show (if _ then _ else _ : State).sec.fuses = _
    split <;> rfl
  have blowing : t'.sec.blowing = s.sec.blowing := by
    show (if _ then _ else _ : State).sec.blowing = _
    split <;> rfl
  split
  · exact ⟨first, fun _ => fuses⟩
  · rename_i n hn
    exact ⟨first, fun h => absurd (hn.symm.trans (blowing.trans h)) (by simp)⟩

theorem State.auxOff_left (s : State) :
    let t := s.cutShort.auxOff
    t.board.auxOn = false ∧ t.board.cycles = s.board.cycles ∧ t.aon = 0 ∧ t.husk = { s.husk with queue := [], stopped := false } ∧
      t.sec.fusedMap = s.sec.fusedMap ∧ t.sec.first = s.sec.first ∧ (s.sec.blowing = none → t.sec.fuses = s.sec.fuses) ∧
      (∀ d, d < 3 → t.rg (oBypass d) = s.rg (oBypass d)) ∧ t.sec.booted = false := by
  have cut := (Keeps.refl (l := [.fresh, .regs, .sec]) s).cutShort (by decide)
  have board : s.cutShort.board = s.board := cut.kept .board (by decide)
  have husk : s.cutShort.husk = s.husk := cut.kept .husk (by decide)
  obtain ⟨first, fuses⟩ := s.cutShort_sec
  refine ⟨rfl, by rw [← board]; rfl, rfl, congrArg (fun h : Husk => { h with queue := [], stopped := false }) husk, cut.map, first,
    fuses, fun d hd => ?_, rfl⟩
  refine (State.rg_filter (s := s.cutShort) (p := fun e => decide (oBypass 0 ≤ e.1) && decide (e.1 < oBypass 3)) rfl fun _ => ?_).trans (State.cutShort_rg ?_ s)
  · refine Bool.and_eq_true_iff.mpr ⟨decide_eq_true ?_, decide_eq_true ?_⟩ <;> unfold oBypass <;> omega
  · unfold oBypass oFwUpdate
    omega

/-! ### PWR_EN -/

theorem State.pwrEn_setPwrEn (s : State) (on : Bool) : (s.setPwrEn on).pwrEn = on := by
  unfold State.pwrEn State.setPwrEn State.setRf
  rw [State.rg_setRg, bit_setFld_self _ _ _ (by decide)]

theorem State.pwrEn_congr (h : t.rg oSbStat = s.rg oSbStat) : t.pwrEn = s.pwrEn := congrArg (bit · 10) h

/-- PWR_EN is taken as asserted, and FAULT_N of the module is released. -/
def State.enabled (s : State) : State := { s.setPwrEn true with board := { s.board with faultModule := false } }

theorem State.pwrEnOn_eq (h : s.pwrEn = false) : s.pwrEnOn =
    if !s.board.auxOn then s.enabled
    else if s.board.hold && s.board.holdCycle then
      ({ s.enabled with board := { s.enabled.board with hold := false, holdCycle := false, faultPsc := false, recent := [] } }).startRom 3
    else if s.board.thermtrip && s.board.holdCycle && s.enabled.allCool then
      ({ s.enabled with board := { s.enabled.board with thermtrip := false, holdCycle := false } }).startRom 5
    else if s.heldOff then s.enabled
    else if s.board.shut then s.enabled.startRom 1
    else s.enabled.requestRails := by
  unfold State.pwrEnOn
  rw [if_neg (by simp [h])]
  rfl

theorem State.enabled_pwrEn (s : State) : s.enabled.pwrEn = true := s.pwrEn_setPwrEn true

theorem State.enabled_kept (s : State) : KeptBut [.regs, .board] s s.enabled :=
  (((Keeps.refl s).setRf _ _ _ _ (by decide)).upd_board (by decide)).kept

theorem State.enabled_sameBoot (s : State) (b : Board) : SameBoot s { s.enabled with board := b } s.sec.banks :=
  (((SameBoot.refl s).setRf (by decide) _ _ _).onBoard s.enabled.board).onBoard b

theorem State.startRom_pwrEn (s : State) (cause : Nat) : (s.startRom cause).pwrEn = s.pwrEn :=
  State.pwrEn_congr (s.startRom_did cause).sbStat

theorem State.requestRails_pwrEn (s : State) : s.requestRails.pwrEn = s.pwrEn := by
  obtain ⟨q, hq⟩ := s.requestRails_rest
  rw [hq]
  rfl

theorem State.pwrEnOn_pwrEn (h : s.pwrEn = false) : s.pwrEnOn.pwrEn = true := by
  have on := s.enabled_pwrEn
  rw [State.pwrEnOn_eq h]
  split
  · exact on
  split
  · exact (State.startRom_pwrEn _ _).trans on
  split
  · exact (State.startRom_pwrEn _ _).trans on
  split
  · exact on
  split
  · exact (State.startRom_pwrEn _ _).trans on
  · exact (State.requestRails_pwrEn _).trans on

/-- The cycle of PWR_EN that ends a hold starts the module (R33). -/
theorem State.pwrEnOn_ends_hold (h : s.pwrEn = false) (ha : s.board.auxOn = true) (hh : s.board.hold = true) (hc : s.board.holdCycle = true) :
    s.Boots s.pwrEnOn s.sec.banks ∧ s.pwrEnOn.board.hold = false ∧ s.pwrEnOn.board.faultPsc = false := by
  rw [State.pwrEnOn_eq h, if_neg (by simp [ha]), if_pos (by simp [hh, hc])]
  obtain ⟨_, _, _, hold, psc, _⟩ := (State.startRom_did { s.enabled with board :=
    { s.enabled.board with hold := false, holdCycle := false, faultPsc := false, recent := [] } } 3).flags
  exact ⟨(s.enabled_sameBoot _).startRom 3, hold, psc⟩

/-- Without such a cycle a hold stays. -/
theorem State.pwrEnOn_held (h : s.pwrEn = false) (ha : s.board.auxOn = true) (hh : s.board.hold = true) (hc : s.board.holdCycle = false)
    : s.pwrEnOn = s.enabled := by
  rw [State.pwrEnOn_eq h, if_neg (by simp [ha]), if_neg (by simp [hc]), if_neg (by simp [hc]), if_pos (by simp [State.heldOff, hh])]

/-- Nothing holds the rails off: a module that was shut down starts, and any other lets its rails sequence. -/
theorem State.pwrEnOn_free (h : s.pwrEn = false) (ha : s.board.auxOn = true) (hh : s.board.hold = false) (ht : s.board.thermtrip = false) :
    s.pwrEnOn = if s.board.shut then s.enabled.startRom 1 else s.enabled.requestRails := by
  rw [State.pwrEnOn_eq h, if_neg (by simp [ha]), if_neg (by simp [hh]), if_neg (by simp [ht]), if_neg (by simp [State.heldOff, hh, ht])]

theorem State.requestRails_sequences (he : s.pwrEn = true) (ha : s.board.auxOn = true) (hh : s.board.hold = false)
    (ht : s.board.thermtrip = false) (hp : s.board.pipReset = false) : s.requestRails.board.sequencing = true := by
  unfold State.requestRails
  rw [if_pos (by simp [he, ha, hp, State.heldOff, hh, ht])]

/-- PWR_EN is taken as deasserted; the cycle that ends a hold begins. -/
def State.disabled (s : State) : State :=
  { s.setPwrEn false with board := { s.board with holdCycle := s.board.hold || s.board.thermtrip } }

theorem State.pwrEnOff_eq (h : s.pwrEn = true) : s.pwrEnOff =
    if s.board.rails = 0 ∧ !s.board.sequencing then s.disabled
    else { s.disabled.releaseSwitches.shutHusk.railsOff with
      board := { s.disabled.releaseSwitches.shutHusk.railsOff.board with shut := true } } := by
  unfold State.pwrEnOff
  rw [if_neg (by simp [h])]
  rfl

theorem State.disabled_kept (s : State) : KeptBut [.regs, .board] s s.disabled :=
  (((Keeps.refl s).setRf _ _ _ _ (by decide)).upd_board (by decide)).kept

/-! Writing out what is queued never takes a record back. -/

theorem State.writeRecord_next (s : State) : s.husk.next ≤ s.writeRecord.husk.next := by
  unfold State.writeRecord
  split
  · extract_lets popped h
    have one : s.husk.next ≤ h.next := Nat.le_succ _
    show _ ≤ (if _ then _ else _ : Husk).next
    split
    · exact one.trans (Nat.le_succ _)
    · exact one
  · exact le_rfl

theorem State.writeRecords_next (l : List Nat) (s : State) : s.husk.next ≤ (l.foldl (fun s _ => s.writeRecord) s).husk.next := by
  induction l generalizing s with
  | nil => exact le_rfl
  | cons a l ih => exact s.writeRecord_next.trans (ih s.writeRecord)

theorem State.shutHusk_next (s : State) : s.husk.next ≤ s.shutHusk.husk.next := by
  unfold State.shutHusk
  extract_lets u h
  have queued : s.husk.next ≤ u.husk.next := State.writeRecords_next _ s
  have shutdown : s.husk.next ≤ h.next := by
    show _ ≤ (if _ then _ else _ : Husk).next
    split
    · exact queued.trans (Nat.le_succ _)
    · exact queued
  show _ ≤ (if _ then _ else _ : Husk).next
  split
  · exact shutdown.trans (Nat.le_succ _)
  · exact shutdown

/-- The orderly power-down (R467). -/
theorem State.pwrEnOff_shut (h : s.pwrEn = true) (hr : s.board.rails ≠ 0 ∨ s.board.sequencing = true) :
    s.pwrEnOff.Dark ∧ s.pwrEnOff.board.shut = true ∧ s.pwrEnOff.board.sequencing = false ∧ s.husk.next ≤ s.pwrEnOff.husk.next ∧
      s.pwrEnOff.pwrEn = false ∧ s.pwrEnOff.board.holdCycle = (s.board.hold || s.board.thermtrip) := by
  have kept := ((Keeps.refl (l := [.fab, .husk]) s.disabled).releaseSwitches (by decide) |>.shutHusk (by decide)).kept
  have next : s.husk.next ≤ s.disabled.releaseSwitches.shutHusk.husk.next := s.disabled.releaseSwitches.shutHusk_next
  have board : s.disabled.releaseSwitches.shutHusk.board = s.disabled.board := kept .board (by decide)
  have regs : s.disabled.releaseSwitches.shutHusk.regs = s.disabled.regs := kept .regs (by decide)
  have lost := s.disabled.releaseSwitches.shutHusk.railsOff_lost
  rw [State.pwrEnOff_eq h, if_neg (by rintro ⟨h0, hs⟩; simp [h0] at hr; simp [hr] at hs)]
  generalize s.disabled.releaseSwitches.shutHusk = x at next board regs lost ⊢
  generalize x.railsOff = y at lost ⊢
  obtain ⟨dark, hb, husk, _, _, sbStat, _⟩ := lost
  have off : y.pwrEn = false := by
    rw [State.pwrEn_congr sbStat, State.pwrEn_congr (s := s.disabled) (by unfold State.rg; rw [regs])]
    exact s.pwrEn_setPwrEn false
  have cycle : y.board.holdCycle = (s.board.hold || s.board.thermtrip) := by
    rw [hb, board]
    rfl
  exact ⟨dark, rfl, by rw [hb], husk ▸ next, off, cycle⟩

end Sys2Proof.Machine
end

section
/-! The rail sequence, the watchdog, rail faults and the I3C target (R31 to R33, R455, R460, R463, R485). -/

namespace Sys2Proof.Machine

variable {s t : State}

/-! ### The rail sequence (logs 31, 91) -/

theorem State.sequenceStep_rail (hs : s.board.sequencing = true) (hr : s.board.rails < 7) :
    s.sequenceStep = { s with board := { s.board with rails := s.board.rails + 1 } } := by
  simp [State.sequenceStep, hs, hr]

/-- The link trains where PERST_N allows. -/
theorem State.linkTrain_link (hp : s.board.pwrgd = true) : s.linkTrain.hif.linkUp = (s.hif.linkUp || !s.board.perstLow) := by
  unfold State.linkTrain
  by_cases h : s.board.perstLow = true
  · simp [h]
  · rw [if_neg (by simp [h, hp])]
    simp [h]

/-- After the rails PWRGD goes up, and the sequence goes on where Pip's firmware runs. -/
theorem State.sequenceStep_pwrgd (hs : s.board.sequencing = true) (hr : 7 ≤ s.board.rails) (hp : s.board.pwrgd = false) :
    s.sequenceStep.board.pwrgd = true ∧ s.sequenceStep.board.sequencing = s.sec.booted ∧
      s.sequenceStep.hif.linkUp = (s.hif.linkUp || !s.board.perstLow) := by
  have kept := ((Keeps.refl (l := [.regs, .hif]) { s with board := { s.board with pwrgd := true } }).linkTrain (by decide)).kept
  have link := State.linkTrain_link (s := { s with board := { s.board with pwrgd := true } }) rfl
  have board : _ = ({ s.board with pwrgd := true } : Board) := kept .board (by decide)
  have sec : _ = s.sec := kept .sec (by decide)
  unfold State.sequenceStep
  rw [if_neg (by simp [hs]), if_neg (by omega), if_pos (by simp [hp])]
  generalize ({ s with board := { s.board with pwrgd := true } } : State).linkTrain = u at link board sec ⊢
  have booted : u.sec.booted = s.sec.booted := congrArg Sec.booted sec
  have pwrgd : u.board.pwrgd = true := congrArg Board.pwrgd board
  have seq : u.board.sequencing = s.board.sequencing := by rw [board]
  show (if u.sec.booted then u else _ : State).board.pwrgd = true ∧ (if u.sec.booted then u else _ : State).board.sequencing = _ ∧
    (if u.sec.booted then u else _ : State).hif.linkUp = _
  by_cases hb : u.sec.booted = true
  · rw [if_pos hb]
    exact ⟨pwrgd, by rw [seq, hs, ← booted, hb], link⟩
  · rw [if_neg hb]
    exact ⟨pwrgd, by rw [← booted]; simpa using hb, link⟩

theorem State.rg_retarget {o : Nat} (ho : o ≠ oProfile) (s : State) (h : Nat) : (s.retarget h).rg o = s.rg o := by
  unfold State.retarget
  split
  · rfl
  · extract_lets w p
    split
    · rfl
    · exact State.rg_setRf_ne ho _ _ _ _

/-- The die comes up: its memories are zero, every sync entry is quarantined, and CORES is told (R193, R297). -/
theorem State.dieUp_did (s : State) : (∃ w, s.dieUp.board = { s.board with wakeN := w }) ∧ s.dieUp.rf oReady 1 1 = 1 ∧
    (∀ x, x < 2 ^ 64 → s.dieUp.byte x = 0) ∧ ∀ i, (s.dieUp.ent i).st = .quarantined := by
  have told := Told.raiseReady s.zeroDie.syncRestart rdCores
  have kept := ((Keeps.refl (l := [.host, .regs, .hif, .board, .husk, .power]) s.zeroDie.syncRestart).raiseReady rdCores (by decide)
    |>.retargets (by decide)).kept
  have profiles := ((Keeps.refl (l := [.regs, .power]) (s.zeroDie.syncRestart.raiseReady rdCores)).retargets (by decide)).kept
  have zero : ∀ x, x < 2 ^ 64 → s.zeroDie.syncRestart.byte x = 0 := fun x hx => KV.get_filter_out (fun _ => by simpa using hx)
  refine ⟨?_, ?_, fun x hx => ?_, fun i => ?_⟩
  · obtain ⟨w, hw⟩ := told.board
    exact ⟨w, (profiles .board (by decide)).trans hw⟩
  · have ready : s.dieUp.rg oReady = (s.zeroDie.syncRestart.setRf oReady 1 1 1).rg oReady :=
      (State.rg_retarget (by decide) _ 1).trans ((State.rg_retarget (by decide) _ 0).trans (told.regs _ (by decide)))
    exact (State.rf_congr ready 1 1).trans (State.rf_setRf_one _ _ (by decide))
  · exact (kept .mem (by decide) x (by omega)).trans (zero x hx)
  · unfold State.ent
    rw [show s.dieUp.sync = s.zeroDie.syncRestart.sync from kept .sync (by decide)]
    rfl

theorem State.sequenceStep_die (hs : s.board.sequencing = true) (hr : 7 ≤ s.board.rails) (hp : s.board.pwrgd = true) (hu : s.board.upSteps = 0) :
    s.sequenceStep = ({ s with board := { s.board with upSteps := 1 } }).dieUp := by
  unfold State.sequenceStep
  rw [if_neg (by simp [hs]), if_neg (by omega), if_neg (by simp [hp]), if_pos hu]

/-- The optics follow. -/
theorem State.sequenceStep_optics (hs : s.board.sequencing = true) (hr : 7 ≤ s.board.rails) (hp : s.board.pwrgd = true)
    (hu : s.board.upSteps ≠ 0) : s.sequenceStep.board.upSteps = 2 ∧ s.sequenceStep.board.sequencing = false ∧ s.sequenceStep.rf oReady 3 3 = 1 := by
  have told := Told.raiseReady { s with board := { s.board with upSteps := 2, sequencing := false } } rdOptics
  unfold State.sequenceStep
  rw [if_neg (by simp [hs]), if_neg (by omega), if_neg (by simp [hp]), if_neg hu]
  obtain ⟨w, hw⟩ := told.board
  refine ⟨congrArg Board.upSteps hw, congrArg Board.sequencing hw, ?_⟩
  exact (State.rf_congr (told.regs _ (by decide)) 3 3).trans (State.rf_setRf_one _ _ (by decide))

/-! ### The watchdog -/

/-- The power cycles within the last 60 minutes, this one with them. -/
def State.cyclesNow (s : State) : List Nat := (s.board.recent.filter (fun x => decide (s.aon.toNat - x < 180000000000))) ++ [s.aon.toNat]

theorem State.countCycle_eq (s : State) : s.countCycle = if s.cyclesNow.length < 3 then { s with board := { s.board with recent := s.cyclesNow } }
    else { s with board := { s.board with recent := s.cyclesNow, hold := true, holdCycle := false, faultPsc := true, pipReset := true, sequencing := false } } := rfl

/-- A count of a cycle changes the board alone, and never turns a rail on. -/
theorem State.countCycle_board (s : State) : ∃ b, s.countCycle = { s with board := b } ∧ b.rails = s.board.rails ∧
    (s.board.hold = true → b.hold = true) ∧ (s.board.faultPsc = true → b.faultPsc = true) := by
  rw [State.countCycle_eq]
  split
  · exact ⟨_, rfl, rfl, id, id⟩
  · exact ⟨_, rfl, rfl, fun _ => rfl, fun _ => rfl⟩

theorem State.Dark.onBoard (h : s.Dark) {b : Board} (hb : b.rails = s.board.rails) : ({ s with board := b } : State).Dark := by
  obtain ⟨rails, cores, link, driven, bytes⟩ := h
  exact ⟨hb.trans rails, cores, link, driven, bytes⟩

/-- The state as the watchdog leaves it before the cycle is counted. -/
def State.cycled (s : State) : State :=
  let t := s.releaseSwitches.railsOff
  { t with board := { t.board with cycles := t.board.cycles + 1, refreshAt := t.aon } }

theorem State.watchdogTrips_eq (hv : s.board.v48 = true) (hp : s.board.pipReset = false) (h : 50000000 ≤ (s.aon - s.board.refreshAt).toNat) :
    s.watchdogTrips = if s.cycled.countCycle.board.pipReset then s.cycled.countCycle else s.cycled.countCycle.startRom 2 := by
  unfold State.watchdogTrips
  rw [if_neg (by rw [hv, hp, decide_eq_false (Nat.not_lt.mpr h)]; decide)]
  rfl

theorem State.cycled_left (s : State) : s.cycled.Dark ∧ s.cycled.cyclesNow = s.cyclesNow ∧ s.cycled.board.cycles = s.board.cycles + 1 ∧
    s.cycled.board.hold = s.board.hold ∧ s.cycled.board.pipReset = s.board.pipReset ∧ SameBoot s s.cycled s.sec.banks ∧
    s.cycled.husk.boots = s.husk.boots := by
  have lost := s.released_railsOff_lost
  have same := (SameBoot.refl s).railsLost lost
  unfold State.cycled State.cyclesNow
  generalize s.releaseSwitches.railsOff = x at lost same ⊢
  obtain ⟨dark, board, husk, aon, _, _, _⟩ := lost
  refine ⟨dark.onBoard rfl, ?_, ?_, ?_, ?_, same.onBoard _, by rw [husk]⟩
  · show (x.board.recent.filter (fun y => decide (x.aon.toNat - y < 180000000000))) ++ [x.aon.toNat] = _
    rw [aon, board]
  · show x.board.cycles + 1 = _
    rw [board]
  · show x.board.hold = _
    rw [board]
  · show x.board.pipReset = _
    rw [board]

/-- Two cycles within the hour restart the module; the third holds it (R32, R33). -/
theorem State.watchdogTrips_did (hv : s.board.v48 = true) (hp : s.board.pipReset = false) (h : 50000000 ≤ (s.aon - s.board.refreshAt).toNat) :
    s.watchdogTrips.Dark ∧ s.watchdogTrips.board.cycles = s.board.cycles + 1 ∧ s.watchdogTrips.board.recent = s.cyclesNow ∧
      (s.cyclesNow.length < 3 → s.Boots s.watchdogTrips s.sec.banks ∧ s.watchdogTrips.board.hold = s.board.hold) ∧
      (3 ≤ s.cyclesNow.length → s.watchdogTrips.board.hold = true ∧ s.watchdogTrips.board.faultPsc = true ∧
        s.watchdogTrips.board.pipReset = true ∧ s.watchdogTrips.husk.boots = s.husk.boots) := by
  obtain ⟨dark, now, cycles, hold, reset, same, boots⟩ := s.cycled_left
  rw [State.watchdogTrips_eq hv hp h, State.countCycle_eq, now]
  by_cases hl : s.cyclesNow.length < 3
  · rw [if_pos hl, if_neg (by rw [show _ = s.board.pipReset from reset, hp]; simp)]
    have dark' : ({ s.cycled with board := { s.cycled.board with recent := s.cyclesNow } } : State).Dark := dark.onBoard rfl
    obtain ⟨_, _, _, hold', _, cycles', recent'⟩ :=
      (State.startRom_did { s.cycled with board := { s.cycled.board with recent := s.cyclesNow } } 2).flags
    exact ⟨dark'.startRom 2, cycles'.trans cycles, recent', fun _ => ⟨(same.onBoard _).startRom 2, hold'.trans hold⟩,
      fun h3 => absurd hl (by omega)⟩
  · rw [if_neg hl, if_pos rfl]
    exact ⟨dark.onBoard rfl, cycles, rfl, fun h3 => absurd h3 hl, fun _ => ⟨rfl, rfl, rfl, boots⟩⟩

/-! ### Rail faults -/

/-- A rail that fails takes the others with it and holds the module (R460). -/
theorem State.railFails_did {rail : Nat} (h : rail < s.board.rails) : (s.railFails rail).Dark ∧ (s.railFails rail).board.hold = true ∧
    (s.railFails rail).board.faultPsc = true ∧ (s.railFails rail).rf oAlert 3 3 = 1 := by
  unfold State.railFails
  rw [if_neg (by omega)]
  extract_lets u x board y
  obtain ⟨b, hb, rails, hold, psc⟩ := y.countCycle_board
  have dark : y.Dark := State.Dark.onBoard u.released_railsOff_lost.dark rfl
  rw [hb]
  exact ⟨dark.onBoard rails, hold rfl, psc rfl, State.rf_setRf_one _ oAlert (by decide)⟩

/-! ### The I3C target -/

theorem State.i3cReply_getD (b : List Byte) (n j : Nat) (hj : j < n) :
    (b.take n ++ List.replicate (n - b.length) 0xFF).getD j 0 = if j < b.length then b.getD j 0 else (0xFF : Byte) := by
  rw [List.getD_eq_getElem?_getD, List.getElem?_append, List.length_take]
  by_cases h : j < b.length
  · rw [if_pos (by omega), if_pos h, List.getElem?_take_of_lt hj, List.getD_eq_getElem?_getD]
  · rw [if_neg (by omega), if_neg h, List.getElem?_replicate, if_pos (by omega)]
    rfl

/-- A write selects a register; PIP_ALERT takes the bytes that follow as W1C (R485). -/
theorem State.i3cWrite_did {i : Byte} {d : List Byte} (h : s.board.i3cAddr ≠ none) :
    let t := s.i3cWrite (i :: d)
    t.board = { s.board with i3cSel := i } ∧
      t.rg oAlert = (if i = 2 then s.rg oAlert &&& ~~~(BitVec.ofNat 64 (leNat (d.take 4))) else s.rg oAlert) ∧
      (∀ o, o ≠ oAlert → t.rg o = s.rg o) ∧ KeptBut [.board, .regs] s t := by
  obtain ⟨a, ha⟩ := Option.ne_none_iff_exists'.mp h
  have keeps : Keeps [.board, .regs] s { s with board := { s.board with i3cSel := i } } := (Keeps.refl s).upd_board (by decide)
  unfold State.i3cWrite
  rw [ha]
  by_cases hi : i = 2
  · subst hi
    exact ⟨rfl, State.rg_setRg _ _ _, fun o ho => State.rg_setRg_ne ho _ _, (keeps.setRg _ _ (by decide)).kept⟩
  · rw [if_neg hi]
    extract_lets board t
    rw [show t = _ from if_neg hi]
    exact ⟨rfl, rfl, fun _ _ => rfl, keeps.kept⟩

end Sys2Proof.Machine
end

section
/-! The events of the board (R28 to R33, R426, R455 to R469), each as the statement puts it. -/

namespace Sys2Proof.Machine

variable {s t : State}

theorem exec_kept {i : Instr} (h : exec i s = .next t) (e : t = s) : exec i s = .next s := by rw [h, e]

theorem exec_inputPowerOn {banks : List Bank} (hl : banks.length = 2) (straps : BitVec 6) :
    exec (.inputPowerOn banks straps) s = .next (s.inputOn banks straps) := if_neg (not_not.mpr hl)

theorem State.inputOn_did (hv : s.board.v48 = false) (banks : List Bank) (straps : BitVec 6) :
    let t := s.inputOn banks straps
    t.board.v48 = true ∧ t.board.auxOn = true ∧ s.Boots t banks ∧ (s.board.auxOn = true → t.Dark ∧ t.board.straps = s.board.straps) ∧
      (s.board.auxOn = false → t.board.straps = straps ∧ t.rf oSbStat 21 16 = straps.toNat) := by
  cases ha : s.board.auxOn with
  | true =>
    obtain ⟨v48, auxOn, boots, dark, st⟩ := s.restart_powered banks
    rw [State.inputOn_aux hv ha]
    exact ⟨v48, auxOn, boots, fun _ => ⟨dark, st⟩, nofun⟩
  | false =>
    obtain ⟨v48, auxOn, boots, st⟩ := s.start_strapped banks straps
    rw [State.inputOn_dark hv ha]
    exact ⟨v48, auxOn, boots, nofun, fun _ => st⟩

theorem exec_holdUpRunOut : exec .holdUpRunOut s = .next (if s.board.v48 || !s.board.auxOn then s else s.cutShort.auxOff) := rfl

theorem State.pwrEnOn_did (h : s.pwrEn = false) :
    let t := s.pwrEnOn
    let b := s.board
    t.pwrEn = true ∧ (b.auxOn = false → KeptBut [.regs, .board] s t) ∧
      (b.auxOn = true → b.hold = true → b.holdCycle = true → s.Boots t s.sec.banks ∧ t.board.hold = false ∧ t.board.faultPsc = false) ∧
      (b.auxOn = true → b.hold = true → b.holdCycle = false → b.thermtrip = false → t.board.hold = true ∧ KeptBut [.regs, .board] s t) ∧
      (b.auxOn = true → b.hold = false → b.thermtrip = false → b.shut = true → s.Boots t s.sec.banks) ∧
      (b.auxOn = true → b.hold = false → b.thermtrip = false → b.shut = false → b.pipReset = false → t.board.sequencing = true ∧
        KeptBut [.regs, .board] s t) := by
  refine ⟨State.pwrEnOn_pwrEn h, fun ha => ?_, fun ha hh hc => State.pwrEnOn_ends_hold h ha hh hc, fun ha hh hc _ => ?_,
    fun ha hh ht hs => ?_, fun ha hh ht hs hp => ?_⟩
  · rw [State.pwrEnOn_eq h, if_pos (by simp [ha])]
    exact s.enabled_kept
  · rw [State.pwrEnOn_held h ha hh hc]
    exact ⟨hh, s.enabled_kept⟩
  · rw [State.pwrEnOn_free h ha hh ht, if_pos hs]
    exact (s.enabled_sameBoot s.enabled.board).startRom 1
  · rw [State.pwrEnOn_free h ha hh ht, if_neg (by simp [hs])]
    obtain ⟨q, hq⟩ := s.enabled.requestRails_rest
    refine ⟨State.requestRails_sequences s.enabled_pwrEn ha hh ht hp, ?_⟩
    exact (((Keeps.refl s).setRf _ _ _ _ (by decide)).upd_board (by decide) |>.requestRails (by decide)).kept

theorem State.pwrEnOff_did (h : s.pwrEn = true) :
    let t := s.pwrEnOff
    let b := s.board
    t.pwrEn = false ∧ t.board.holdCycle = (b.hold || b.thermtrip) ∧ (b.rails = 0 → b.sequencing = false → KeptBut [.regs, .board] s t) ∧
      (b.rails ≠ 0 ∨ b.sequencing = true → t.Dark ∧ t.board.shut = true ∧ t.board.sequencing = false ∧ s.husk.next ≤ t.husk.next) := by
  by_cases hr : s.board.rails = 0 ∧ s.board.sequencing = false
  · obtain ⟨h0, hs⟩ := hr
    rw [State.pwrEnOff_eq h, if_pos (by simp [h0, hs])]
    refine ⟨s.pwrEn_setPwrEn false, rfl, fun _ _ => s.disabled_kept, fun hr => ?_⟩
    exact absurd hr (by simp [h0, hs])
  · have hr' : s.board.rails ≠ 0 ∨ s.board.sequencing = true := by
      rw [not_and_or, Bool.not_eq_false] at hr
      exact hr
    obtain ⟨dark, shut, seq, next, off, cycle⟩ := State.pwrEnOff_shut h hr'
    exact ⟨off, cycle, fun h0 hs => absurd ⟨h0, hs⟩ hr, fun _ => ⟨dark, shut, seq, next⟩⟩

theorem State.sequenceStep_did (hs : s.board.sequencing = true) :
    let t := s.sequenceStep
    let b := s.board
    (b.rails < 7 → t.board = { b with rails := b.rails + 1 } ∧ KeptBut [.board] s t) ∧
      (7 ≤ b.rails → b.pwrgd = false → t.board.pwrgd = true ∧ t.board.sequencing = s.sec.booted ∧ t.hif.linkUp = (s.hif.linkUp || !b.perstLow)) ∧
      (7 ≤ b.rails → b.pwrgd = true → b.upSteps = 0 → t.board.upSteps = 1 ∧ t.rf oReady 1 1 = 1 ∧ (∀ x, x < 2 ^ 64 → t.byte x = 0) ∧
        ∀ i, (t.ent i).st = .quarantined) ∧
      (7 ≤ b.rails → b.pwrgd = true → b.upSteps ≠ 0 → t.board.upSteps = 2 ∧ t.board.sequencing = false ∧ t.rf oReady 3 3 = 1) := by
  refine ⟨fun hr => ?_, fun hr hp => State.sequenceStep_pwrgd hs hr hp, fun hr hp hu => ?_, fun hr hp hu => State.sequenceStep_optics hs hr hp hu⟩
  · rw [State.sequenceStep_rail hs hr]
    exact ⟨rfl, ((Keeps.refl s).upd_board (by decide)).kept⟩
  · rw [State.sequenceStep_die hs hr hp hu]
    obtain ⟨⟨w, hw⟩, up⟩ := State.dieUp_did { s with board := { s.board with upSteps := 1 } }
    exact ⟨congrArg Board.upSteps hw, up⟩

theorem State.watchdogTrips_kept (h : s.board.v48 = false ∨ s.board.pipReset = true ∨ (s.aon - s.board.refreshAt).toNat < 50000000) :
    s.watchdogTrips = s := by
  refine if_pos ?_
  rcases h with h | h | h
  · simp [h]
  · simp [h]
  · rw [decide_eq_true h]
    simp

/-- Settles O55: input power, PWR_EN and the watchdog each end in a loss of the rails, a start of the ROM, or both, and
the rest changes the board and a register. A rail at a time, then PWRGD, the die and the optics is log 31's order; that the
loss of 48 V ends a hold and empties the window of counted cycles is log 91's. -/
theorem boardEvents : Obligations.BoardEvents := by
  intro s Kept b Dark whole Boots
  refine ⟨fun banks straps hl => ⟨fun hv => ?on, fun hv => ?powered⟩, fun v p hot => ⟨fun hv => ?off, fun hv => ?lost⟩, fun h => ?held,
    fun hv ha => ?runOut, fun h => ?enabled, fun h => ?enable, fun h => ?disabled, fun h => ?disable, fun h => ?still, fun h => ?sequence,
    fun h => ?noRefresh, fun ha hp => ?refresh, fun h => ?noTrip, fun hv hp h => ?trip, fun rail => ⟨fun h => ?railOff, fun h => ?railFault⟩,
    fun x => ⟨fun h => ?noAddr, fun h => ?addr⟩, fun i d => ⟨fun h => ?noWrite, fun h => ?write⟩, fun n => ⟨fun h => ?noRead, fun h => ?read⟩⟩
  case on => exact exec_kept (exec_inputPowerOn hl straps) (if_pos hv)
  case powered => exact ⟨_, exec_inputPowerOn hl straps, State.inputOn_did hv banks straps⟩
  case off => exact exec_kept (t := s.inputLoss v p hot) rfl (if_pos (by rw [show s.board.v48 = false from hv]; rfl))
  case lost => exact ⟨_, rfl, State.inputLoss_lost hv v p hot⟩
  case held => exact exec_kept exec_holdUpRunOut (if_pos (by simpa using h))
  case runOut =>
    refine ⟨_, exec_holdUpRunOut, ?_⟩
    rw [if_neg (by rw [show s.board.v48 = false from hv, show s.board.auxOn = true from ha]; decide)]
    exact s.auxOff_left
  case enabled => exact exec_kept (t := s.pwrEnOn) rfl (if_pos h)
  case enable => exact ⟨_, rfl, State.pwrEnOn_did h⟩
  case disabled => exact exec_kept (t := s.pwrEnOff) rfl (if_pos (by rw [h]; rfl))
  case disable => exact ⟨_, rfl, State.pwrEnOff_did h⟩
  case still => exact exec_kept (t := s.sequenceStep) rfl (if_pos (by rw [show s.board.sequencing = false from h]; rfl))
  case sequence => exact ⟨_, rfl, State.sequenceStep_did h⟩
  case noRefresh =>
    have h : s.board.auxOn = false ∨ s.board.pipReset = true := h
    exact exec_kept rfl (if_neg (by rcases h with h | h <;> simp [h]))
  case refresh =>
    refine ⟨_, rfl, ?_⟩
    rw [if_pos (by rw [show s.board.auxOn = true from ha, show s.board.pipReset = false from hp]; rfl)]
    exact ⟨rfl, ((Keeps.refl s).upd_board (by decide)).kept⟩
  case noTrip => exact exec_kept rfl (State.watchdogTrips_kept h)
  case trip => exact ⟨_, rfl, State.watchdogTrips_did hv hp h⟩
  case railOff => exact exec_kept (t := s.railFails rail.val) rfl (if_pos h)
  case railFault => exact ⟨_, rfl, State.railFails_did h⟩
  case noAddr => exact exec_kept rfl (if_neg (by rw [show s.board.auxOn = false from h]; decide))
  case addr =>
    refine ⟨_, rfl, ?_⟩
    rw [if_pos (show s.board.auxOn = true from h)]
    exact ⟨rfl, ((Keeps.refl s).upd_board (by decide)).kept⟩
  case noWrite => exact exec_kept (t := s.i3cWrite (i :: d)) rfl (by unfold State.i3cWrite; rw [show s.board.i3cAddr = none from h])
  case write => exact ⟨_, rfl, State.i3cWrite_did h⟩
  case noRead => exact exec_kept rfl (if_neg (by rw [show s.board.i3cAddr = none from h]; decide))
  case read =>
    refine ⟨_, rfl, ?_⟩
    rw [if_pos (Option.isSome_iff_ne_none.mpr h)]
    exact ⟨by simp; omega, ((Keeps.refl s).upd_board (by decide)).kept, fun j hj => State.i3cReply_getD _ n j hj⟩

end Sys2Proof.Machine
end

section
/-! The engines of a core on sound bytes of its slabs: what reading ranges and writing pieces come to (R136, R179, R192,
R197). -/

namespace Sys2Proof.Machine

section
variable {s t u : State} {c : CoreId} {k : Core}

/-! ### Frames -/

theorem KeptBut.mono {l l' : List Area} (h : KeptBut l s t) (hl : Area.sub l l' = true) : KeptBut l' s t :=
  fun p hp => h p (fun hm => hp (Area.mem_of_sub hl hm))

/-- Outside device memory and host memory every byte is as it was. -/
theorem KeptBut.byte {l : List Area} (h : KeptBut l s t) (hm : Area.mem ∉ l) (hh : Area.host ∉ l) (a : Nat) : t.byte a = s.byte a := by
  by_cases ha : a < 2 ^ 65
  · exact h .mem hm a ha
  · exact h .host hh a (by omega)

theorem State.bytes_congr (h : ∀ a, t.byte a = s.byte a) (a n : Nat) : t.bytes a n = s.bytes a n := by
  induction n generalizing a with
  | zero => rfl
  | succ n ih => rw [State.bytes, State.bytes, h, ih]

/-- A change of the cores alone leaves every half sound that was. -/
theorem KeptBut.soundHalf (h : KeptBut [.cores] s t) (g : Nat) : t.soundHalf g = s.soundHalf g :=
  State.soundHalf_congr (h .mems (by decide)) (h .chk (by decide)) (h .sec (by decide)) (h .husk (by decide)) g

theorem KeptBut.soundAll (h : KeptBut [.cores] s t) (l : List (Nat × Nat)) : t.soundAll c l = s.soundAll c l := by
  unfold State.soundAll State.sound
  simp only [h.soundHalf]

theorem CoreIs.refl (c : CoreId) (s : State) : CoreIs c (s.core c.val) s s := ⟨⟨_, _, rfl⟩, fun _ _ => rfl⟩

theorem CoreIs.trans (h : CoreIs c k s t) (g : CoreIs c (t.core c.val) t u) : CoreIs c k s u := by
  obtain ⟨⟨un, cs, hk⟩, ho⟩ := h
  obtain ⟨⟨un', cs', hk'⟩, ho'⟩ := g
  exact ⟨⟨un', cs', by rw [hk', hk]⟩, fun x hx => (ho' x hx).trans (ho x hx)⟩

/-- Counting is what `CoreIs` leaves open. -/
theorem CoreIs.count (h : CoreIs c k s t) (o n : Nat) : CoreIs c k s (t.count c.val o n) := by
  obtain ⟨⟨un, cs, hk⟩, ho⟩ := h
  refine ⟨⟨un, ?_⟩, fun x hx => (State.core_modCore_ne hx t _).trans (ho x hx)⟩
  unfold State.count
  rw [State.core_modCore, hk]
  exact ⟨_, rfl⟩

theorem RegsOnly.trans (h : RegsOnly c k s t) (g : RegsOnly c (t.core c.val) t u) : RegsOnly c k s u :=
  ⟨h.1.trans g.1, h.2.trans g.2⟩

/-! ### Reads -/

theorem State.consumeUnread_regsOnly (s : State) (c : CoreId) (a n : Nat) : RegsOnly c (s.core c.val) s (s.consumeUnread c.val a n) := by
  refine ⟨?_, ((Keeps.refl s).consumeUnread c.val a n (by decide)).kept⟩
  unfold State.consumeUnread
  dsimp only
  split
  · exact CoreIs.refl c s
  · split
    · exact CoreIs.refl c s
    · refine CoreIs.count ⟨?_, fun x hx => State.core_modCore_ne hx s _⟩ _ _
      rw [State.core_modCore]
      exact ⟨_, _, rfl⟩

/-- Ranges of sound bytes read as they stand; the reads change unread marks and counters alone. -/
theorem State.engReads_sound (ctx : Nat) : ∀ (l : List (Nat × Nat)) (s : State), s.soundAll c l = true →
    ∃ t, s.engReads c.val ctx l = (s.pieces c l, stOk, t) ∧ RegsOnly c (s.core c.val) s t
  | [], s, _ => ⟨s, rfl, CoreIs.refl c s, KeptBut.refl _ s⟩
  | (a, n) :: l, s, h => by
    have hl : s.sound (slabKey c.val a) n = true ∧ s.soundAll c l = true := by
      unfold State.soundAll at h ⊢
      rw [List.all_cons, Bool.and_eq_true, Bool.and_eq_true] at h
      exact ⟨h.1.2, h.2⟩
    have h1 := State.consumeUnread_regsOnly s c a n
    obtain ⟨t, ht, h2⟩ := State.engReads_sound ctx l (s.consumeUnread c.val a n) (by rw [h1.2.soundAll]; exact hl.2)
    refine ⟨t, ?_, h1.trans h2⟩
    have hp : (s.consumeUnread c.val a n).pieces c l = s.pieces c l := by
      unfold State.pieces
      simp only [State.bytes_congr (h1.2.byte (by decide) (by decide))]
    unfold State.engReads State.engRead
    simp only [State.readDie_sound hl.1, ht, hp]
    rfl

/-! ### Writes -/

/-- The keys of a core's slab space. -/
theorem slabKey_lt {c : CoreId} {a n : Nat} (h : inSlabSpace a n = true) (hn : n ≠ 0) : slabKey c.val a + n < 2 ^ 65 := by
  have hc := c.isLt
  simp only [inSlabSpace, Bool.or_eq_true, decide_eq_true_eq, hn, false_or] at h
  unfold slabKey slabBase
  omega

/-- The memory of a byte of a core's slab space. -/
theorem memOf_slabKey {c : CoreId} {a : Nat} (h : a < 0x180000) : memOf (32 * (slabKey c.val a / 32)) = some (slabMem c.val (a / 0x30000)) := by
  have hc := c.isLt
  unfold memOf slabKey slabBase past
  rw [if_pos (by omega), if_pos (by omega)]
  congr 2 <;> omega

/-- A slab with a sound half admits accesses. -/
theorem State.letIn_of_soundHalf {h m : Nat} (hm : memOf (32 * h) = some m) (hs : s.soundHalf h = true) : s.letIn m = some s := by
  unfold State.soundHalf at hs
  rw [hm] at hs
  simp only [Bool.and_eq_true, decide_eq_true_eq] at hs
  obtain ⟨⟨hon, ht⟩, -⟩ := hs
  unfold State.letIn
  rw [hon]
  simp [ht]

theorem State.slabOff_sound {a n : Nat} (hi : inSlabSpace a n = true) (hs : s.sound (slabKey c.val a) n = true) :
    s.slabOff c.val a n = false := by
  unfold State.slabOff
  by_cases hn : n = 0
  · simp [hn]
  · simp only [inSlabSpace, Bool.or_eq_true, decide_eq_true_eq, hn, false_or] at hi
    rw [Bool.and_eq_false_iff]
    refine .inr (List.any_eq_false.mpr fun i hr => ?_)
    have hr := List.mem_range.mp hr
    -- the first byte of the range in slab a / 0x30000 + i
    have hb : ∃ b, a ≤ b ∧ b < a + n ∧ b / 0x30000 = a / 0x30000 + i := ⟨max a (0x30000 * (a / 0x30000 + i)), by omega⟩
    obtain ⟨b, h1, h2, h3⟩ := hb
    have hh := State.sound_half hs (a := slabKey c.val b) (by unfold slabKey; omega) (by unfold slabKey; omega)
    rw [← h3, State.letIn_of_soundHalf (memOf_slabKey (by omega)) hh]
    exact Bool.false_ne_true

/-- Every half that a write covers in part is one of a byte it writes. -/
theorem exists_of_mem_partHalves {a n h : Nat} (hm : h ∈ partHalves a n) : ∃ b, a ≤ b ∧ b < a + n ∧ h = b / 32 := by
  unfold partHalves at hm
  split at hm
  · simp at hm
  · rename_i hn
    dsimp only at hm
    rcases List.mem_append.mp hm with hm | hm <;> split at hm
    · exact ⟨a, by omega, by omega, by simpa using hm⟩
    · simp at hm
    · exact ⟨a + n - 1, by omega, by omega, by simpa using hm⟩
    · simp at hm

/-- Check bytes of a sound half are right. -/
theorem State.chk_of_soundHalf {h : Nat} (hs : s.soundHalf h = true) : KV.get 0 s.chk h = 0 := by
  unfold State.soundHalf at hs
  split at hs
  · simp only [Bool.and_eq_true, decide_eq_true_eq] at hs
    exact hs.2
  · cases hs

theorem State.badPart_sound {l : Pieces} (h : s.soundAll c (rangesOf l) = true) : s.badPart c.val l = none := by
  unfold State.badPart
  refine List.find?_eq_none.mpr fun g hg => ?_
  obtain ⟨x, hx, rfl⟩ := List.mem_map.mp hg
  obtain ⟨ys, hys, hxy⟩ := List.mem_flatten.mp hx
  obtain ⟨p, hp, rfl⟩ := List.mem_map.mp hys
  obtain ⟨b, h1, h2, rfl⟩ := exists_of_mem_partHalves hxy
  have hr := List.all_eq_true.mp h (p.1, p.2.length) (List.mem_map.mpr ⟨p, hp, rfl⟩)
  rw [Bool.and_eq_true] at hr
  have hk : slabKey c.val 0 / 32 + b / 32 = slabKey c.val b / 32 := by unfold slabKey slabBase; omega
  have hh := State.sound_half hr.2 (a := slabKey c.val b) (by unfold slabKey; omega) (by unfold slabKey; omega)
  rw [hk, State.chk_of_soundHalf hh]
  decide

/-- Storing pieces one after another: the bytes depend on the bytes before alone. -/
theorem State.putAll_byte_congr (h : ∀ a, t.byte a = s.byte a) (l : Pieces) (a : Nat) : (t.putAll c l).byte a = (s.putAll c l).byte a := by
  induction l generalizing s t with
  | nil => exact h a
  | cons p l ih =>
    refine ih fun b => ?_
    by_cases hb : slabKey c.val p.1 ≤ b ∧ b < slabKey c.val p.1 + p.2.length
    · obtain ⟨i, rfl⟩ : ∃ i, b = slabKey c.val p.1 + i := ⟨b - slabKey c.val p.1, by omega⟩
      rw [State.putBytes_byte _ _ _ (by omega), State.putBytes_byte _ _ _ (by omega)]
    · rw [State.putBytes_byte_ne (by omega), State.putBytes_byte_ne (by omega), h]

/-- A write of one piece to sound bytes of the core's slabs. -/
theorem State.engWrite_stores {a : Nat} {d : List Byte} (hi : inSlabSpace a d.length = true)
    (hs : s.sound (slabKey c.val a) d.length = true) (ctx : Nat) :
    ∃ t, s.engWrite c.val ctx a d = (stOk, t) ∧ Stores c (s.core c.val) [(a, d)] s t ∧ ∀ g, s.soundHalf g = true → t.soundHalf g = true := by
  obtain ⟨t, ht, hk, hin, hout, hoth, hcore, hsnd⟩ := State.engWrite_sound (c := c.val) hs ctx
  have hb : ∀ b, t.byte b = (s.putAll c [(a, d)]).byte b := fun b => by
    show t.byte b = (s.putBytes (slabKey c.val a) d).byte b
    by_cases hb : slabKey c.val a ≤ b ∧ b < slabKey c.val a + d.length
    · obtain ⟨i, rfl⟩ : ∃ i, b = slabKey c.val a + i := ⟨b - slabKey c.val a, by omega⟩
      rw [State.putBytes_byte _ _ _ (by omega), hin i (by omega)]
    · rw [State.putBytes_byte_ne (by omega), hout b (by omega)]
  refine ⟨t, ht, ⟨⟨hcore, hoth⟩, fun p hp => ?_, hb⟩, hsnd⟩
  by_cases hh : p = .host
  · subst hh
    intro b hb'
    refine hout b ?_
    by_cases hd : d.length = 0
    · omega
    · have := slabKey_lt (c := c) hi hd
      omega
  · exact hk p (by revert hp hh; cases p <;> decide)

theorem Stores.trans {l l' : Pieces} (h : Stores c k l s t) (g : Stores c (t.core c.val) l' t u) : Stores c k (l ++ l') s u := by
  obtain ⟨hc, hk, hb⟩ := h
  obtain ⟨hc', hk', hb'⟩ := g
  refine ⟨hc.trans hc', hk.trans hk', fun a => ?_⟩
  rw [hb', State.putAll_byte_congr hb]
  unfold State.putAll
  rw [List.foldl_append]

/-- The fold of `engWrites` over pieces, all of them sound. -/
theorem State.engWrite_foldl (ctx : Nat) : ∀ (l : Pieces) (s : State), s.soundAll c (rangesOf l) = true →
    ∃ t, l.foldl (fun (r : BitVec 8 × State) p =>
        let x := r.2.engWrite c.val ctx p.1 p.2
        (if r.1 = stOk then x.1 else r.1, x.2)) (stOk, s) = (stOk, t) ∧ Stores c (s.core c.val) l s t
  | [], s, _ => ⟨s, rfl, CoreIs.refl c s, KeptBut.refl _ s, fun _ => rfl⟩
  | p :: l, s, h => by
    unfold State.soundAll rangesOf at h
    rw [List.map_cons, List.all_cons, Bool.and_eq_true, Bool.and_eq_true] at h
    obtain ⟨⟨hi, hs⟩, hl⟩ := h
    obtain ⟨t, ht, h1, hsnd⟩ := State.engWrite_stores hi hs ctx
    have hl' : t.soundAll c (rangesOf l) = true := by
      refine List.all_eq_true.mpr fun r hr => ?_
      have hr := List.all_eq_true.mp hl r hr
      rw [Bool.and_eq_true] at hr ⊢
      exact ⟨hr.1, State.sound_of fun a ha hb => hsnd _ (State.sound_half hr.2 ha hb)⟩
    obtain ⟨u, hu, h2⟩ := State.engWrite_foldl ctx l t hl'
    refine ⟨u, ?_, h1.trans h2⟩
    rw [List.foldl_cons]
    simp only [ht]
    exact hu

/-- Pieces written to sound bytes of the core's slabs are all stored. -/
theorem State.engWrites_sound {l : Pieces} (h : s.soundAll c (rangesOf l) = true) (ctx : Nat) :
    ∃ t, s.engWrites c.val ctx l = (stOk, t) ∧ Stores c (s.core c.val) l s t := by
  obtain ⟨t, ht, hst⟩ := State.engWrite_foldl ctx l s h
  have hall : ∀ p ∈ l, inSlabSpace p.1 p.2.length = true ∧ s.sound (slabKey c.val p.1) p.2.length = true := fun p hp => by
    have hr := List.all_eq_true.mp h (p.1, p.2.length) (List.mem_map.mpr ⟨p, hp, rfl⟩)
    rwa [Bool.and_eq_true] at hr
  have hspace : l.any (fun p => !inSlabSpace p.1 p.2.length) = false :=
    List.any_eq_false.mpr fun p hp => by simp [(hall p hp).1]
  have hoff : l.any (fun p => s.slabOff c.val p.1 p.2.length) = false :=
    List.any_eq_false.mpr fun p hp => by simp [State.slabOff_sound (hall p hp).1 (hall p hp).2]
  refine ⟨t, ?_, hst⟩
  unfold State.engWrites
  dsimp only
  rw [hspace, hoff, State.badPart_sound h]
  exact ht

end

/-! ### A command that its engine takes and starts -/

/-- A command that its engine can take at once, and that it starts, is in execution with what the start did. -/
theorem Starts.of_go {i : Instr} {o : OpInfo} {s t : State} {c : CoreId} {sl : SlotId} {w : Cmd} {q : QEnt} {P : State → QEnt → Prop}
    (hi : exec i s = .next (s.engCmd c sl w o)) (h : HeadReady o s c sl w)
    (hg : startOn (s.headState o c sl w) c.val o.engine (s.headEntry o c sl w) = .go t q)
    (hk : Ctl (s.headState o c sl w) t) (hw : cOpc q.w ≠ 0x5A) (hP : P t q) : Starts i o s c P :=
  ⟨t, q, by rw [hi, State.engCmd_go h hg hk hw], hP⟩

end Sys2Proof.Machine
end

section
/-! The readout of a tile: MRD as its engine takes it (R87 to R89). -/

namespace Sys2Proof.Machine

theorem exec_mrd {w : Cmd} (h : opcIs w 0x21 = true) (c : CoreId) (sl : SlotId) (s : State) :
    exec (.mrd c sl w) s = .next (s.engCmd c sl w mrdInfo) := if_pos h

/-- The command of an entry keeps the opcode of its row. -/
theorem State.headEntry_opc {o : OpInfo} (ho : o.tame = true) {w : Cmd} {n : Nat} (h : opcIs w n = true) (s : State) (c : CoreId)
    (sl : SlotId) : cOpc (s.headEntry o c sl w).w = n :=
  (o.resolve_opc _ w ho).trans (opcIs_opc h)

theorem zipIdx_map_range {α : Type} (f : Nat → α) (n : Nat) : ((List.range n).map f).zipIdx = (List.range n).map (fun i => (f i, i)) := by
  refine List.ext_getElem (by simp) fun i h1 h2 => ?_
  simp

/-- The value and the narrowing flags of element j of row i of a readout. -/
def Core.mrdElem (k : Core) (x : Slot) (w : Cmd) (i j : Nat) : Nat × Cf :=
  readElem k (fld w 33 32) (fld w 36 34) (fld w 40 37) (narrowOf x w (fld w 42 41) (bit w 43)) (srIndex w i j) i j

/-- The rows that a readout stores. -/
def Core.mrdItems (k : Core) (x : Slot) (w : Cmd) : Pieces :=
  (List.range (fld w 90 83)).map (fun i => (fld w 64 44 + i * fld w 82 65,
    natLe (fld w 99 91 * (fmtBits (fld w 40 37) / 8)) (packElems (8 * (fmtBits (fld w 40 37) / 8))
      ((List.range (fld w 99 91)).map (fun j => (k.mrdElem x w i j).1)))))

/-- A readout passes every check of R87 to R89 and the checks of the words that it reads, with extents above 0. -/
structure Core.MrdPasses (k : Core) (w : Cmd) : Prop where
  inUse : tInUse (k.tag (tagA (fld w 33 32))) = true
  shape : tShape (k.tag (tagA (fld w 33 32))) = fld w 36 34
  ala : fld w 40 37 = fmAla → tFix (k.tag (tagA (fld w 33 32))) = true
  poison : tPoison (k.tag (tagA (fld w 33 32))) = false
  rows : 0 < fld w 90 83 ∧ fld w 90 83 ≤ shapeM (fld w 36 34)
  cols : 0 < fld w 99 91 ∧ fld w 99 91 ≤ shapeN (fld w 36 34)
  free : readBlocked k (fld w 33 32) = false
  words : k.regBad (tagA (fld w 33 32)) (cellWords (cellsOf (fld w 36 34) (fld w 90 83) (fld w 99 91))) = false

/-- A readout that passes its checks stores its rows in sound bytes. -/
theorem startMrd_stores {s : State} {c : CoreId} {q : QEnt} (h : (s.core c.val).MrdPasses q.w)
    (hs : s.soundAll c (rangesOf ((s.core c.val).mrdItems ((s.core c.val).slot q.slot.val) q.w)) = true) :
    ∃ t fl, startMrd s c.val q = .go t (readStatus ((s.core c.val).tag (tagA (fld q.w 33 32))) fl q) ∧
      Stores c (s.core c.val) ((s.core c.val).mrdItems ((s.core c.val).slot q.slot.val) q.w) s t := by
  obtain ⟨hu, hsh, hala, hp, hrows, hcols, hb, hw⟩ := h
  obtain ⟨t, ht, hst⟩ := State.engWrites_sound hs ((s.core c.val).slot q.slot.val).ctx.toNat
  have hgo : ∃ fl, startMrd s c.val q = .go t (readStatus ((s.core c.val).tag (tagA (fld q.w 33 32))) fl q) := by
    unfold startMrd
    dsimp only
    rw [if_neg (by simp [hu]), if_neg (by simp [hsh]), if_neg (by simpa using hala), if_neg (by simp [hp]), if_neg (by omega),
      if_neg (by simp [hb]), if_neg (by omega), if_neg (by simp [hw])]
    simp only [zipIdx_map_range, List.map_map, Function.comp_def]
    unfold Core.mrdItems Core.mrdElem at ht
    rw [ht]
    exact ⟨_, rfl⟩
  obtain ⟨fl, hgo⟩ := hgo
  exact ⟨t, fl, hgo, hst⟩

/-- Settles O29: past the checks the engine writes the rows to sound bytes, so all of them are stored in their order; the
status and LOSS are those that the tile's tag carries (R88). -/
theorem readouts : Obligations.Readouts := by
  intro s c sl w d r k tn tg fmt me ne el items hop hr hu hsh hala hp hm hM hn hN hb hw hs
  have hopc := State.headEntry_opc (o := mrdInfo) (by decide) hop s c sl
  obtain ⟨t, fl, ht, hst⟩ := startMrd_stores (s := d) (c := c) (q := s.headEntry mrdInfo c sl w)
    ⟨hu, hsh, hala, hp, ⟨hm, hM⟩, ⟨hn, hN⟩, hb, hw⟩ hs
  have hgo : startOn d c.val mrdInfo.engine (s.headEntry mrdInfo c sl w) = .go t (readStatus tg fl (s.headEntry mrdInfo c sl w)) := by
    show startMatrix _ _ _ = _
    unfold startMatrix
    rw [hopc]
    exact ht
  refine Starts.of_go (exec_mrd hop c sl s) hr hgo (Ctl.of_start_go ht ((Ctl.refl d).startMrd c.val _)) ?_ ⟨hst, rfl, fun hl => ?_, rfl, rfl⟩
  · show cOpc (s.headEntry mrdInfo c sl w).w ≠ 0x5A
    rw [hopc]
    decide
  · simp [readStatus, Cf.flags, hl]

end Sys2Proof.Machine
end

section
/-! The cells of an accumulator tile (R60, R79 to R84): what a cell holds once it is written, and that outputs stand in cells of
their own. -/

namespace Sys2Proof.Machine

/-! ### Reading a cell after writing one -/

theorem bit_setBit {n : Nat} (w : BitVec n) {i : Nat} (b : Bool) (j : Nat) (hi : i < n) : bit (setBit w i b) j = if j = i then b else bit w j := by
  unfold bit setBit
  by_cases hj : j < n
  · have hp : (BitVec.ofNat n (2 ^ i)).getLsbD j = decide (j = i) := by
      rw [BitVec.getLsbD_ofNat, Nat.testBit_two_pow]
      simp [hj, eq_comm]
    cases b
    · rw [if_neg Bool.false_ne_true, BitVec.getLsbD_and, BitVec.getLsbD_not, hp]
      by_cases e : j = i <;> simp [e, hj]
    · rw [if_pos rfl, BitVec.getLsbD_or, hp]
      by_cases e : j = i <;> simp [e]
  · rw [if_neg (show j ≠ i by omega), BitVec.getLsbD_of_ge _ _ (by omega), BitVec.getLsbD_of_ge _ _ (by omega)]

theorem bit_setFld_add {n : Nat} (w : BitVec n) {hi lo k : Nat} (v : Nat) (hk : lo + k ≤ hi) (hn : hi < n) :
    bit (setFld w hi lo v) (lo + k) = v.testBit k := by
  rw [bit_setFld _ _ _ (by omega) hn, if_pos (by omega), Nat.add_sub_cancel_left]

/-- A cell as a tile keeps it: 96 bits, of which SEQ holds an FP32 encoding and FIX the integer V. -/
def Cell.stored (int : Bool) (x : Cell) : Cell :=
  let raw := (if int then (x.v % 2 ^ 96).toNat else x.f) % 2 ^ 96
  { x with f := raw % 2 ^ 32, v := signed 96 raw, lost := 0 }

theorem pack_flags_testBit (a b c : Bool) : (pack [(1, b2n a), (1, b2n b), (1, b2n c)]).testBit 0 = a ∧
    (pack [(1, b2n a), (1, b2n b), (1, b2n c)]).testBit 1 = b ∧ (pack [(1, b2n a), (1, b2n b), (1, b2n c)]).testBit 2 = c := by
  cases a <;> cases b <;> cases c <;> decide

theorem Tile.cell_setCell (t : Tile) (int : Bool) {i : Nat} (hi : i < 1024) (x : Cell) : (t.setCell int i x).cell i = x.stored int := by
  obtain ⟨hnan, hpinf, hninf⟩ := pack_flags_testBit x.nan x.pinf x.ninf
  have h0 (v : Nat) : bit (setFld t.cflags (3 * i + 2) (3 * i) v) (3 * i) = v.testBit 0 := bit_setFld_add (k := 0) _ _ (by omega) (by omega)
  unfold Tile.cell Tile.setCell Cell.stored
  dsimp only
  rw [fld_setFld _ _ (by omega) (by omega), h0, bit_setFld_add _ _ (by omega) (by omega), bit_setFld_add _ _ (by omega) (by omega),
    bit_setBit _ _ _ hi, if_pos rfl, show 96 * i + 95 - 96 * i + 1 = 96 by omega, hnan, hpinf, hninf]

theorem Tile.cell_setCell_ne (t : Tile) (int : Bool) {i j : Nat} (hi : i < 1024) (h : j ≠ i) (x : Cell) : (t.setCell int i x).cell j = t.cell j := by
  unfold Tile.cell Tile.setCell
  dsimp only
  rw [fld_setFld_ne _ _ (by omega) (by omega) (by omega), bit_setFld _ _ _ (by omega) (by omega), bit_setFld _ _ _ (by omega) (by omega),
    bit_setFld _ _ _ (by omega) (by omega), bit_setBit _ _ _ hi, if_neg (by omega), if_neg (by omega), if_neg (by omega), if_neg h]

/-! ### V stays within 96 bits -/

/-- V as 96 bits in two's complement hold it. -/
def Cell.Fits (x : Cell) : Prop := -2 ^ 95 ≤ x.v ∧ x.v < 2 ^ 95

theorem signed_fits (v : Nat) : -2 ^ 95 ≤ signed 96 v ∧ signed 96 v < 2 ^ 95 := by
  unfold signed
  split <;> omega

theorem Tile.cell_fits (t : Tile) (i : Nat) : (t.cell i).Fits := signed_fits _

/-- Saturation keeps V within 96 bits (R82). -/
theorem Cell.Fits.fix {x : Cell} (h : x.Fits) (a : Int) (p : Num) : (x.fix a p).Fits := by
  obtain ⟨hlo, hhi⟩ := h
  unfold Cell.fix
  split
  · exact ⟨hlo, hhi⟩
  · split <;> exact ⟨hlo, hhi⟩
  · extract_lets q p below y
    have hy : y.v = x.v := by
      unfold y
      split <;> rfl
    unfold Cell.Fits fixMax
    split_ifs
    · omega
    all_goals
      dsimp only
      omega

/-- One product added to a cell, by SEQ or by FIX at an anchor. -/
def Cell.add (int : Bool) (a : Int) (x : Cell) (p : Num) : Cell := if int then x.fix a p else x.seq p

theorem Cell.Fits.foldl_add {ι : Type} {a : Int} {p : ι → Num} : ∀ {l : List ι} {x : Cell}, x.Fits →
    (l.foldl (fun y j => y.add true a (p j)) x).Fits
  | [], _, h => h
  | j :: l, _, h => Cell.Fits.foldl_add (l := l) (h.fix a (p j))

theorem Cell.stored_v {x : Cell} (h : x.Fits) : (x.stored true).v = x.v := by
  obtain ⟨hlo, hhi⟩ := h
  unfold Cell.stored signed
  simp only [if_true]
  split <;> omega

theorem Cell.stored_f (x : Cell) : (x.stored false).f = x.f % 2 ^ 32 := by
  unfold Cell.stored
  simp only [Bool.false_eq_true, if_false]
  omega

/-- What a cell that was written reads as: its encoding in SEQ, its V and flags in FIX. -/
theorem Cell.stored_reads {int : Bool} {x : Cell} (h : int = true → x.Fits) :
    (int = false → (x.stored int).f = x.f % 2 ^ 32) ∧
      (int = true → (x.stored int).v = x.v ∧ (x.stored int).nan = x.nan ∧ (x.stored int).pinf = x.pinf ∧ (x.stored int).ninf = x.ninf ∧
        (x.stored int).sat = x.sat) := by
  refine ⟨fun e => ?_, fun e => ⟨?_, rfl, rfl, rfl, rfl⟩⟩
  · rw [e, Cell.stored_f]
  · rw [e, Cell.stored_v (h e)]

/-! ### Outputs and their cells -/

/-- Cells of one output: four partials under shape code 5, else one. -/
def shapeParts (sh : Nat) : Nat := if sh = 5 then 4 else 1

theorem shape_le_five {sh : Nat} (h : 0 < shapeM sh) : sh ≤ 5 := by
  by_contra hn
  have : shapeM sh = 0 := by
    unfold shapeM
    exact List.getD_eq_default _ _ (by simp; omega)
  omega

theorem cellOf_lt {sh m n p : Nat} (hm : m < shapeM sh) (hn : n < shapeN sh) (hp : p < shapeParts sh) : cellOf sh m n p < 1024 := by
  have h5 := shape_le_five (by omega : 0 < shapeM sh)
  interval_cases sh <;> simp [shapeM, shapeN, shapeParts] at hm hn hp <;> simp only [cellOf] <;> omega

/-- Within the extents of a shape every cell belongs to one output and one partial (Table 03-3). -/
theorem cellOf_injective {sh m n p m' n' p' : Nat} (hm : m < shapeM sh) (hn : n < shapeN sh) (hp : p < shapeParts sh) (hm' : m' < shapeM sh)
    (hn' : n' < shapeN sh) (hp' : p' < shapeParts sh) (h : cellOf sh m n p = cellOf sh m' n' p') : m = m' ∧ n = n' ∧ p = p' := by
  have h5 := shape_le_five (by omega : 0 < shapeM sh)
  interval_cases sh <;> simp [shapeM, shapeN, shapeParts] at hm hn hp hm' hn' hp' <;> simp only [cellOf] at h <;> omega

/-! ### Cells updated one after another -/

/-- The cells at places of their own, each updated once: each holds its update of what stood there, every other is as it was. -/
theorem Tile.foldl_setCell {ι : Type} (int : Bool) (ix : ι → Nat) (upd : ι → Cell → Cell) : ∀ (l : List ι) (t : Tile), (∀ o ∈ l, ix o < 1024) →
    (l.map ix).Nodup →
    (∀ o ∈ l, (l.foldl (fun t o => t.setCell int (ix o) (upd o (t.cell (ix o)))) t).cell (ix o) = (upd o (t.cell (ix o))).stored int) ∧
      ∀ i, (∀ o ∈ l, ix o ≠ i) → (l.foldl (fun t o => t.setCell int (ix o) (upd o (t.cell (ix o)))) t).cell i = t.cell i
  | [], _, _, _ => ⟨fun _ h => absurd h (List.not_mem_nil), fun _ _ => rfl⟩
  | a :: l, t, hlt, hnd => by
    rw [List.map_cons, List.nodup_cons] at hnd
    have ha := hlt a (List.mem_cons_self)
    have hne : ∀ o ∈ l, ix o ≠ ix a := fun o ho e => hnd.1 (List.mem_map.mpr ⟨o, ho, e⟩)
    obtain ⟨ih, ih'⟩ := Tile.foldl_setCell int ix upd l (t.setCell int (ix a) (upd a (t.cell (ix a))))
      (fun o ho => hlt o (List.mem_cons_of_mem _ ho)) hnd.2
    refine ⟨fun o ho => ?_, fun i hi => ?_⟩
    · rw [List.foldl_cons]
      rcases List.mem_cons.mp ho with rfl | ho
      · rw [ih' _ hne, Tile.cell_setCell _ _ ha]
      · rw [ih o ho, Tile.cell_setCell_ne _ _ ha (hne o ho)]
    · rw [List.foldl_cons, ih' i (fun o ho => hi o (List.mem_cons_of_mem _ ho)),
        Tile.cell_setCell_ne _ _ ha (hi a (List.mem_cons_self)).symm]

end Sys2Proof.Machine
end

section
/-! The products of an MMA on a tile (R60, R76 to R84): each output's own cells, and no others. -/

namespace Sys2Proof.Machine

/-! ### Registers written and read -/

/-- The words that a write leaves listed are bad, and those no read corrects. -/
theorem fixReg_renew_self (k : Core) (t : Nat) (keep : Nat → Bool) {n : Nat} (d : BitVec n) : fixReg (k.renew t keep).regChk t d = d := by
  unfold fixReg Core.renew
  rw [List.foldl_filter]
  refine List.foldl_fixed' (fun e => ?_) _
  unfold badWord
  cases dcheck e.2 <;> split_ifs with h1 h2 <;> simp_all

theorem fixReg_renew_ne (k : Core) {t u : Nat} (h : u ≠ t) (keep : Nat → Bool) {n : Nat} (d : BitVec n) :
    fixReg (k.renew t keep).regChk u d = fixReg k.regChk u d := by
  unfold fixReg Core.renew
  rw [List.foldl_filter]
  congr
  funext d e
  by_cases he : e.1 / 512 = u
  · rw [if_pos (by simp [he, h])]
  · simp [he]

@[simp] theorem Core.setAcc_accs (k : Core) (n : Nat) (t : Tile) (tg : BitVec 128) (keep : Nat → Bool) :
    (k.setAcc n t tg keep).accs = KV.put {} k.accs n t := rfl

@[simp] theorem Core.setAcc_regChk (k : Core) (n : Nat) (t : Tile) (tg : BitVec 128) (keep : Nat → Bool) :
    (k.setAcc n t tg keep).regChk = (k.renew (tagA n) keep).regChk := rfl

theorem Core.acc_setAcc (k : Core) (n : Nat) (t : Tile) (tg : BitVec 128) (keep : Nat → Bool) : (k.setAcc n t tg keep).acc n = t := by
  unfold Core.acc
  dsimp only
  rw [Core.setAcc_regChk, fixReg_renew_self, Core.setAcc_accs, KV.get_put_self]

theorem Core.acc_setAcc_ne (k : Core) {n m : Nat} (h : m ≠ n) (t : Tile) (tg : BitVec 128) (keep : Nat → Bool) :
    (k.setAcc n t tg keep).acc m = k.acc m := by
  unfold Core.acc
  dsimp only
  rw [Core.setAcc_regChk, fixReg_renew_ne _ (by unfold tagA; omega), Core.setAcc_accs, KV.get_put_ne h]

/-! ### The products of one output -/

/-- The elements along K whose products enter partial p of an output (R78); without partials, all of them. -/
def partialSteps (sh u kr k0 p : Nat) : List Nat := (List.range kr).filter (fun j => decide (sh = 5 → (k0 + j / u) % 4 = p))

theorem mmaProducts_map_range (sh u kr k0 : Nat) (a b : Nat → Num) : mmaProducts sh u kr k0 ((List.range kr).map a) ((List.range kr).map b) =
    (List.range kr).map (fun j => (if sh = 5 then (k0 + j / u) % 4 else 0, (a j).mul (b j))) := by
  unfold mmaProducts
  rw [List.zipWith_map, List.zipWith_self, zipIdx_map_range, List.map_map, List.take_of_length_le (by simp)]
  rfl

theorem mmaProducts_of_partial {sh p : Nat} (hp : p < shapeParts sh) (u kr k0 : Nat) (a b : Nat → Num) :
    ((mmaProducts sh u kr k0 ((List.range kr).map a) ((List.range kr).map b)).filter (fun x => x.1 = p)).map (·.2) =
      (partialSteps sh u kr k0 p).map (fun j => (a j).mul (b j)) := by
  rw [mmaProducts_map_range, List.filter_map, List.map_map]
  unfold partialSteps
  congr 1
  refine List.filter_congr fun j _ => ?_
  unfold shapeParts at hp
  by_cases h5 : sh = 5
  · simp [h5]
  · rw [if_neg h5] at hp
    simp [h5]
    omega

/-! ### The outputs of a tile -/

/-- The first part of a fold over pairs, where each step's first part depends on the first part alone. -/
theorem foldl_fst {α β ι : Type} {f : α × β → ι → α × β} {g : α → ι → α} : ∀ {l : List ι} (r : α × β),
    (∀ r, ∀ i ∈ l, (f r i).1 = g r.1 i) → (l.foldl f r).1 = l.foldl g r.1
  | [], _, _ => rfl
  | i :: l, r, h => by
    rw [List.foldl_cons, List.foldl_cons, foldl_fst _ (fun r j hj => h r j (List.mem_cons_of_mem _ hj)), h r i List.mem_cons_self]

section
variable (int : Bool) (anchor : Int) (sh u kr k0 mr nr : Nat) (a b : Nat → Nat → Num)

/-- What an MMA adds to the cells of a tile, by rows of A and of B, and the products lost. -/
def mmaFold (t : Tile) : Tile × Nat :=
  (((List.range mr).map (fun l => (List.range kr).map (a l))).zipIdx).foldl (fun r x =>
    (((List.range nr).map (fun l => (List.range kr).map (b l))).zipIdx).foldl (fun r y =>
      mmaCell int anchor sh x.2 y.2 (mmaProducts sh u kr k0 x.1 y.1) r) r) (t, 0)

/-- Outputs and their partials: row, column, partial. -/
def mmaOutputs : List (Nat × Nat × Nat) := List.range mr ×ˢ (List.range nr ×ˢ List.range (shapeParts sh))

/-- The products of one partial added to a cell. -/
def mmaAdd (o : Nat × Nat × Nat) (x : Cell) : Cell :=
  (partialSteps sh u kr k0 o.2.2).foldl (fun y j => y.add int anchor ((a o.1 j).mul (b o.2.1 j))) x

/-- The cell of one output's partial, its products added. -/
def mmaUpdate (t : Tile) (o : Nat × Nat × Nat) : Tile :=
  t.setCell int (cellOf sh o.1 o.2.1 o.2.2) (mmaAdd int anchor sh u kr k0 a b o (t.cell (cellOf sh o.1 o.2.1 o.2.2)))

theorem mmaCell_fst (m n : Nat) (r : Tile × Nat) :
    (mmaCell int anchor sh m n (mmaProducts sh u kr k0 ((List.range kr).map (a m)) ((List.range kr).map (b n))) r).1 =
      (List.range (shapeParts sh)).foldl (fun t p => mmaUpdate int anchor sh u kr k0 a b t (m, n, p)) r.1 := by
  unfold mmaCell
  dsimp only
  refine foldl_fst r fun r p hp => ?_
  rw [mmaProducts_of_partial (List.mem_range.mp hp), List.foldl_map]
  rfl

theorem mmaFold_fst (t : Tile) :
    (mmaFold int anchor sh u kr k0 mr nr a b t).1 = (mmaOutputs sh mr nr).foldl (mmaUpdate int anchor sh u kr k0 a b) t := by
  unfold mmaFold mmaOutputs
  simp only [zipIdx_map_range, List.foldl_map, SProd.sprod, List.product, List.foldl_flatMap]
  exact foldl_fst _ fun r m _ => foldl_fst _ fun r n _ => mmaCell_fst int anchor sh u kr k0 a b m n r

variable {sh mr nr}

theorem mem_mmaOutputs {o : Nat × Nat × Nat} : o ∈ mmaOutputs sh mr nr ↔ o.1 < mr ∧ o.2.1 < nr ∧ o.2.2 < shapeParts sh := by
  unfold mmaOutputs
  rw [List.mem_product, List.mem_product, List.mem_range, List.mem_range, List.mem_range]

theorem mmaOutputs_cells_nodup (hm : mr ≤ shapeM sh) (hn : nr ≤ shapeN sh) :
    ((mmaOutputs sh mr nr).map (fun o => cellOf sh o.1 o.2.1 o.2.2)).Nodup := by
  refine List.Nodup.map_on (fun x hx y hy e => ?_) (List.nodup_range.product (List.nodup_range.product List.nodup_range))
  obtain ⟨h1, h2, h3⟩ := mem_mmaOutputs.mp hx
  obtain ⟨h1', h2', h3'⟩ := mem_mmaOutputs.mp hy
  obtain ⟨e1, e2, e3⟩ := cellOf_injective (by omega) (by omega) h3 (by omega) (by omega) h3' e
  exact Prod.ext e1 (Prod.ext e2 e3)

/-- Within the extents every partial of an output stands in its cell with its products added; every other cell is as before. -/
theorem mmaFold_cells (hm : mr ≤ shapeM sh) (hn : nr ≤ shapeN sh) (t : Tile) :
    (∀ m n p, m < mr → n < nr → p < shapeParts sh → (mmaFold int anchor sh u kr k0 mr nr a b t).1.cell (cellOf sh m n p) =
      (mmaAdd int anchor sh u kr k0 a b (m, n, p) (t.cell (cellOf sh m n p))).stored int) ∧
    ∀ i, (∀ m n p, m < mr → n < nr → p < shapeParts sh → cellOf sh m n p ≠ i) →
      (mmaFold int anchor sh u kr k0 mr nr a b t).1.cell i = t.cell i := by
  have hlt : ∀ o ∈ mmaOutputs sh mr nr, cellOf sh o.1 o.2.1 o.2.2 < 1024 := fun o ho => by
    obtain ⟨h1, h2, h3⟩ := mem_mmaOutputs.mp ho
    exact cellOf_lt (by omega) (by omega) h3
  obtain ⟨hin, hout⟩ := Tile.foldl_setCell int (fun o => cellOf sh o.1 o.2.1 o.2.2) (mmaAdd int anchor sh u kr k0 a b) (mmaOutputs sh mr nr) t hlt
    (mmaOutputs_cells_nodup hm hn)
  rw [mmaFold_fst]
  refine ⟨fun m n p h1 h2 h3 => hin (m, n, p) (mem_mmaOutputs.mpr ⟨h1, h2, h3⟩), fun i hi => hout i fun o ho => ?_⟩
  obtain ⟨h1, h2, h3⟩ := mem_mmaOutputs.mp ho
  exact hi _ _ _ h1 h2 h3

end

end Sys2Proof.Machine
end

section
/-! MMA as the matrix engine takes it (R60 to R93, R122): what its start does to the core, and that its tile is the one of R78. -/

namespace Sys2Proof.Machine

theorem exec_mma {w : Cmd} (h : opcIs w 0x20 = true) (c : CoreId) (sl : SlotId) (s : State) :
    exec (.mma c sl w) s = .next (s.engCmd c sl w mmaInfo) := if_pos h

/-- An operand of an MMA is in the format that the command gives for it. -/
theorem mmaOperand_fmt {x : Slot} {w : Cmd} {isA : Bool} {o : Operand} (h : mmaOperand x w isA = some o) :
    o.fmt = if isA then mmaFa w else mmaFb w := by
  unfold mmaOperand sdOperand at h
  dsimp only at h
  split_ifs at h <;> cases h <;> simp_all

/-! ### What an MMA reads -/

/-- K-steps read for the extents of an MMA: whole granules (R76). -/
def mmaSteps (f : Nat) (w : Cmd) : Nat := ceilDiv (fld w 146 136) (granule f) * granule f / perStep f

def Operand.regData (k : Core) (o : Operand) : BitVec 16384 := (o.reg.map k.xreg).getD 0

def Operand.regScales (k : Core) (o : Operand) : Nat := tSbase ((o.reg.map (fun n => k.tag (tagX n))).getD 0)

/-- Ranges of the slabs read for an operand: stream words and scales. -/
def Operand.reads (k : Core) (o : Operand) (steps : Nat) : List (Nat × Nat) :=
  match o.reg with
  | some _ => o.scales (o.regScales k) steps
  | none => ((List.range o.segs).map (fun g => o.words g steps ++ o.scales (o.sbase + g * o.sstride) steps)).flatten

/-- Ranges read for both operands. -/
def mmaReads (k : Core) (w : Cmd) (f : Nat) (oa ob : Operand) : List (Nat × Nat) :=
  oa.reads k (mmaSteps f w) ++ ob.reads k (mmaSteps f w)

/-- FIX, or the integer sum of an integer format. -/
def mmaInt (x : Slot) (w : Cmd) : Bool := mmaFix x w || isInt (mmaFa w)

def mmaAnchor (x : Slot) (w : Cmd) : Int := if mmaFix x w then signed 16 (fld w 63 48) else 64

/-- The tile that an MMA begins with. -/
def Core.mmaStart (k : Core) (w : Cmd) : Tile := if mmaZero w then {} else k.acc (mmaT w)

/-- The tile that an MMA leaves, of the slab data `d`, and the products lost. -/
def Core.mmaResult (k : Core) (x : Slot) (w : Cmd) (f : Nat) (oa ob : Operand) (d : Pieces) : Tile × Nat :=
  mmaFold (mmaInt x w) (mmaAnchor x w) (mmaShape w) (perStep f) (fld w 146 136) ob.k0 (fld w 126 119) (fld w 135 127)
    (oa.elem d (oa.regData k) (oa.regScales k)) (ob.elem d (ob.regData k) (ob.regScales k)) (k.mmaStart w)

/-- A word that an MMA reads of an operand's register fails its check (R93). -/
def Core.operandBad (k : Core) (w : Cmd) (f : Nat) (o : Operand) : Bool :=
  match o.reg with
  | some n => k.regBad (tagX n) (xWords o.rows 0 (mmaSteps f w * laneBytes o.fmt))
  | none => false

/-- A word that an MMA reads of its tile fails its check. -/
def Core.accBad (k : Core) (w : Cmd) : Bool :=
  !mmaZero w && k.regBad (tagA (mmaT w)) (cellWords (cellsOf (mmaShape w) (fld w 126 119) (fld w 135 127)))

theorem Core.operandBad_eq_false {k : Core} {w : Cmd} {f : Nat} {o : Operand}
    (h : ∀ n, o.reg = some n → k.regBad (tagX n) (xWords o.rows 0 (mmaSteps f w * laneBytes o.fmt)) = false) : k.operandBad w f o = false := by
  unfold Core.operandBad
  cases hreg : o.reg with
  | none => rfl
  | some n => exact h n hreg

theorem Core.accBad_eq_false {k : Core} {w : Cmd}
    (h : mmaZero w = false → k.regBad (tagA (mmaT w)) (cellWords (cellsOf (mmaShape w) (fld w 126 119) (fld w 135 127))) = false) :
    k.accBad w = false := by
  unfold Core.accBad
  cases hz : mmaZero w with
  | true => rfl
  | false => exact h hz

/-! ### The start -/

/-- What an MMA writes: its tile with the tag, the reuse latches, and two counters. -/
def State.mmaDone (s : State) (c : Nat) (w : Cmd) (t : Tile) (tg : BitVec 128) (keep : Nat → Bool) (la lb : Option Latch) (n m : Nat) : State :=
  ((s.modCore c (fun k => { k.setAcc (mmaT w) t tg keep with latchA := la, latchB := lb })).count c 0x48 n).count c 0x68 m

theorem State.mmaDone_regsOnly {s u : State} {c : CoreId} (h : RegsOnly c (s.core c.val) s u) (w : Cmd) (t : Tile) (tg : BitVec 128)
    (keep : Nat → Bool) (la lb : Option Latch) (n m : Nat) :
    RegsOnly c { (s.core c.val).setAcc (mmaT w) t tg keep with latchA := la, latchB := lb } s (u.mmaDone c.val w t tg keep la lb n m) := by
  refine ⟨CoreIs.count (CoreIs.count ⟨?_, fun y hy => ?_⟩ _ _) _ _,
    h.2.trans ((((Keeps.refl u).modCore _ _ (by decide)).count _ _ _ (by decide)).count _ _ _ (by decide)).kept⟩
  · obtain ⟨⟨un, cs, hcore⟩, -⟩ := h.1
    rw [State.core_modCore, hcore]
    exact ⟨un, cs, rfl⟩
  · rw [State.core_modCore_ne hy, h.1.2 y hy]

section
variable {s : State} {c : CoreId} {q : QEnt} {x : Slot} {oa ob : Operand} {f : Nat}

/-- With sound bytes and words, an MMA past its checks writes its tile, the tile's tag and the latches, and nothing else but unread
marks and counters. -/
theorem mmaRun_go (hf : oa.fmt = f) (hs : s.soundAll c (mmaReads (s.core c.val) q.w f oa ob) = true)
    (ha : (s.core c.val).operandBad q.w f oa = false) (hb : (s.core c.val).operandBad q.w f ob = false) (ht : (s.core c.val).accBad q.w = false) :
    ∃ t tg keep la lb, mmaRun s c.val q x oa ob = .go t q ∧ RegsOnly c { (s.core c.val).setAcc (mmaT q.w)
      ((s.core c.val).mmaResult x q.w f oa ob (s.pieces c (mmaReads (s.core c.val) q.w f oa ob))).1 tg keep with latchA := la, latchB := lb } s t := by
  subst hf
  obtain ⟨u, hu, hr⟩ := State.engReads_sound x.ctx.toNat _ s hs
  have hspace : (mmaReads (s.core c.val) q.w oa.fmt oa ob).any (fun r => !inSlabSpace r.1 r.2) = false :=
    List.any_eq_false.mpr fun r hr => by
      have hr := List.all_eq_true.mp hs r hr
      rw [Bool.and_eq_true] at hr
      simp [hr.1]
  have hbad : ((s.core c.val).operandBad q.w oa.fmt oa || (s.core c.val).operandBad q.w oa.fmt ob || (s.core c.val).accBad q.w) = false := by
    rw [ha, hb, ht]
    rfl
  have hgo : ∃ tg keep la lb n m, mmaRun s c.val q x oa ob = .go (u.mmaDone c.val q.w
      ((s.core c.val).mmaResult x q.w oa.fmt oa ob (s.pieces c (mmaReads (s.core c.val) q.w oa.fmt oa ob))).1 tg keep la lb n m) q := by
    unfold mmaRun
    dsimp only
    -- the reads, the checks of the words and the products, under the names of this file
    generalize hR : s.engReads c.val x.ctx.toNat _ = R
    obtain rfl : R = _ := hR.symm.trans hu
    dsimp only
    rw [if_neg (by rw [Bool.not_eq_true]; exact hspace)]
    generalize hB : (_ || _ || _) = B
    obtain rfl : B = false := hB.symm.trans hbad
    simp only [Bool.and_false, Bool.false_eq_true, if_false]
    rw [if_neg (by decide), if_neg (not_not_intro rfl)]
    generalize hT : List.foldl _ (_, 0) _ = T
    obtain rfl : T = (s.core c.val).mmaResult x q.w oa.fmt oa ob (s.pieces c (mmaReads (s.core c.val) q.w oa.fmt oa ob)) := hT.symm.trans rfl
    exact ⟨_, _, _, _, _, _, rfl⟩
  obtain ⟨tg, keep, la, lb, n, m, hgo⟩ := hgo
  exact ⟨_, tg, keep, la, lb, hgo, State.mmaDone_regsOnly hr q.w _ tg keep la lb n m⟩

/-- An MMA passes the checks of R60 to R63, R69, R75, R76, R91 and R122, is not held back, and has extents above 0. -/
structure Core.MmaPasses (k : Core) (x : Slot) (w : Cmd) (oa ob : Operand) : Prop where
  opA : mmaOperand x w true = some oa
  opB : mmaOperand x w false = some ob
  okA : oa.ok (mmaK w / perStep (mmaFa w)) = true
  okB : ob.ok (mmaK w / perStep (mmaFa w)) = true
  pair : pairOk (mmaFa w) (mmaFb w) = true
  wide : mmaFa w = 0 → mmaShape w = 0
  len : mmaK w % granule (mmaFa w) = 0 ∧ granule (mmaFa w) ≤ mmaK w ∧ mmaK w ≤ 1024
  regA : mmaRegCheck k oa (mmaK w / perStep (mmaFa w)) = stOk
  regB : mmaRegCheck k ob (mmaK w / perStep (mmaFa w)) = stOk
  acc : mmaAccCheck k x w = stOk
  free : mmaBlocked k x w = false
  rows : 0 < fld w 126 119 ∧ fld w 126 119 ≤ shapeM (mmaShape w)
  cols : 0 < fld w 135 127 ∧ fld w 135 127 ≤ shapeN (mmaShape w)
  depth : 0 < fld w 146 136 ∧ fld w 146 136 ≤ mmaK w

theorem startMma_run (h : (s.core c.val).MmaPasses ((s.core c.val).slot q.slot.val) q.w oa ob) :
    startMma s c.val q = mmaRun s c.val q ((s.core c.val).slot q.slot.val) oa ob := by
  obtain ⟨hopA, hopB, hokA, hokB, hpair, hwide, hlen, hregA, hregB, hacc, hfree, hrows, hcols, hdepth⟩ := h
  unfold startMma
  dsimp only
  rw [if_neg (by simpa [hpair, hlen] using hwide), hopA, hopB]
  dsimp only
  rw [if_neg (by simp [hokA, hokB]), if_neg (not_not_intro hregA), if_neg (not_not_intro hregB), if_neg (not_not_intro hacc),
    if_neg (by simp; omega), if_neg (by simp [hfree]), if_neg (by simp; omega)]

end

/-- Settles O28: the start writes the tile that `mmaFold` gives, whose cells are those of R78; the write leaves the tile's other
words, the other tiles and the other registers as they are delivered. That under shape code 5 the partial of a product follows
from its K-step within the stream is log 39's. -/
theorem matrixProducts : Obligations.MatrixProducts := by
  intro s c sl w oa ob d r k x sh fix int u ks mr nr kr steps anchor t0 reg base reads data product parts hop hr hopA hopB hokA hokB hpair hwide
    hg hg' hK hregA hregB hacc hfree hM hN hkr hm hn hk hs hx ht
  have hopc := State.headEntry_opc (o := mmaInfo) (by decide) hop s c sl
  have hf : oa.fmt = mmaFa r := mmaOperand_fmt hopA
  have hpass : (d.core c.val).MmaPasses x r oa ob :=
    ⟨hopA, hopB, hokA, hokB, hpair, hwide, ⟨hg, hg', hK⟩, hregA, hregB, hacc, hfree, ⟨hm, hM⟩, ⟨hn, hN⟩, ⟨hk, hkr⟩⟩
  obtain ⟨t, tg, keep, la, lb, hrun, hregs⟩ := mmaRun_go (s := d) (c := c) (q := s.headEntry mmaInfo c sl w) (x := x) (ob := ob) hf hs
    (Core.operandBad_eq_false fun n h => hx oa n (.inl rfl) h) (Core.operandBad_eq_false fun n h => hx ob n (.inr rfl) h)
    (Core.accBad_eq_false ht)
  have hstart : startMma d c.val (s.headEntry mmaInfo c sl w) = .go t (s.headEntry mmaInfo c sl w) := (startMma_run hpass).trans hrun
  have hgo : startOn d c.val mmaInfo.engine (s.headEntry mmaInfo c sl w) = .go t (s.headEntry mmaInfo c sl w) := by
    show startMatrix _ _ _ = _
    unfold startMatrix
    rw [hopc]
    exact hstart
  obtain ⟨⟨⟨un, cs, hcore⟩, hother⟩, hkept⟩ := hregs
  have hacc : ∀ n, (t.core c.val).acc n = (k.setAcc (mmaT r) (k.mmaResult x r (mmaFa r) oa ob data).1 tg keep).acc n := fun n => by
    rw [hcore]
    rfl
  have htile : (t.core c.val).acc (mmaT r) = (k.mmaResult x r (mmaFa r) oa ob data).1 := (hacc _).trans (Core.acc_setAcc k _ _ tg keep)
  obtain ⟨hin, hout⟩ := mmaFold_cells int anchor u kr ob.k0 (oa.elem data (reg oa) (base oa)) (ob.elem data (reg ob) (base ob)) hM hN t0
  refine Starts.of_go (exec_mma hop c sl s) hr hgo (Ctl.of_start_go hstart ((Ctl.refl d).startMma c.val _)) (by rw [hopc]; decide)
    ⟨rfl, fun m n p h1 h2 h3 => ?_, fun i _ h => ?_, fun n h => ?_, ?_, ?_, hother, hkept⟩
  · intro mine y z
    have hz : z = y.stored int := (congrArg (Tile.cell · _) htile).trans (hin m n p h1 h2 h3)
    rw [hz]
    exact Cell.stored_reads fun hint => by
      show Cell.Fits (mmaAdd int anchor sh u kr ob.k0 _ _ (m, n, p) _)
      rw [hint]
      exact (t0.cell_fits _).foldl_add
  · rw [htile]
    exact hout i fun m n p h1 h2 h3 => h m n p h1 h2 h3
  · rw [hacc, Core.acc_setAcc_ne k h]
  · rw [hcore]
    rfl
  · rw [hcore]
    rfl

end Sys2Proof.Machine
end

section
/-! Reads and writes of plain ranges: bytes of slabs and cluster memories that are sound and not cut off, as a movement on the die
reaches them (R205, R212, R235, R420). -/

namespace Sys2Proof.Machine

section
variable {s t u : State}

/-! ### What a movement on the die leaves alone -/

theorem CountsOnly.refl (s : State) : CountsOnly s s := fun _ => ⟨_, _, _, rfl⟩

theorem CountsOnly.trans (h : CountsOnly s t) (g : CountsOnly t u) : CountsOnly s u := fun x => by
  obtain ⟨u1, n1, m1, e1⟩ := h x
  obtain ⟨u2, n2, m2, e2⟩ := g x
  exact ⟨u2, n2, m2, by rw [e2, e1]⟩

theorem CountsOnly.of_cores (h : t.cores = s.cores) : CountsOnly s t := fun x => ⟨_, _, _, State.core_congr h x⟩

theorem CountsOnly.modCore (s : State) (c : Nat) {f : Core → Core}
    (hf : ∀ k : Core, ∃ u n m, f k = { k with unread := u, counters := n, mons := m }) : CountsOnly s (s.modCore c f) := fun x => by
  by_cases e : x = c
  · subst e
    rw [State.core_modCore]
    exact hf _
  · rw [State.core_modCore_ne e]
    exact ⟨_, _, _, rfl⟩

theorem CountsOnly.count (s : State) (c o n : Nat) : CountsOnly s (s.count c o n) := .modCore s c fun _ => ⟨_, _, _, rfl⟩

theorem CountsOnly.progress (s : State) (c e n : Nat) : CountsOnly s (s.progress c e n) := .modCore s c fun _ => ⟨_, _, _, rfl⟩

theorem CountsOnly.copied (s : State) (c a n : Nat) : CountsOnly s (s.copied c a n) := .modCore s c fun _ => ⟨_, _, _, rfl⟩

theorem CountsOnly.dropUnread (s : State) (c : Nat) (p : Nat → Bool) : CountsOnly s (s.dropUnread c p) := by
  unfold State.dropUnread
  dsimp only
  split
  · exact .refl s
  · exact (CountsOnly.modCore s c fun _ => ⟨_, _, _, rfl⟩).trans (.count _ _ _ _)

theorem CountsOnly.rewritten (s : State) (c a n : Nat) : CountsOnly s (s.rewritten c a n) := by
  unfold State.rewritten
  split
  · exact .refl s
  · exact .dropUnread s c _

theorem CountsOnly.consumeUnread (s : State) (c a n : Nat) : CountsOnly s (s.consumeUnread c a n) := by
  unfold State.consumeUnread
  dsimp only
  split
  · exact .refl s
  · split
    · exact .refl s
    · exact (CountsOnly.modCore s c fun _ => ⟨_, _, _, rfl⟩).trans (.count _ _ _ _)

/-- A movement that leaves the memories as fit for access as they were. -/
structure MovesSound (s t : State) : Prop where
  moves : Moves s t
  sound : ∀ g, s.soundHalf g = true → t.soundHalf g = true

theorem MovesSound.refl (s : State) : MovesSound s s := ⟨⟨.refl s, KeptBut.refl _ s⟩, fun _ h => h⟩

theorem MovesSound.trans (h : MovesSound s t) (g : MovesSound t u) : MovesSound s u :=
  ⟨⟨h.moves.1.trans g.moves.1, h.moves.2.trans g.moves.2⟩, fun x hx => g.sound x (h.sound x hx)⟩

theorem MovesSound.of_counts (h : CountsOnly s t) (hk : KeptBut [.cores] s t) : MovesSound s t :=
  ⟨⟨h, hk.mono (by decide)⟩, fun x hx => (hk.soundHalf x).trans hx⟩

theorem MovesSound.count (s : State) (c o n : Nat) : MovesSound s (s.count c o n) :=
  .of_counts (.count s c o n) ((Keeps.refl s).count c o n (by decide)).kept

theorem MovesSound.progress (s : State) (c e n : Nat) : MovesSound s (s.progress c e n) :=
  .of_counts (.progress s c e n) ((Keeps.refl s).progress c e n (by decide)).kept

theorem MovesSound.regs (h : MovesSound s t) : t.regs = s.regs := h.moves.2 .regs (by decide)

/-! ### Paths -/

theorem State.routeDir_congr (h : t.regs = s.regs) (r d : Nat) : t.routeDir r d = s.routeDir r d := by
  unfold State.routeDir
  simp only [State.rg_congr h]

theorem State.way_congr (h : t.regs = s.regs) (n r d : Nat) : t.way r d n = s.way r d n := by
  induction n generalizing r with
  | zero => rfl
  | succ n ih =>
    unfold State.way
    rw [State.routeDir_congr h]
    split
    · rfl
    · split
      · rw [ih]
      · rfl

theorem State.cut_congr (h : t.regs = s.regs) (r d : Nat) : t.cut r d = s.cut r d := by
  unfold State.cut
  rw [h, State.way_congr h, show t.routerDown = s.routerDown from funext (State.routerDown_congr h)]

theorem State.attachment_congr (h : t.regs = s.regs) (a : Nat) : t.attachment (.die a) = s.attachment (.die a) := by
  unfold State.attachment State.vportFor State.rf
  simp only [State.rg_congr h]

theorem State.lostTo_congr (h : t.regs = s.regs) (r a : Nat) : t.lostTo r (.die a) = s.lostTo r (.die a) := by
  unfold State.lostTo
  rw [State.attachment_congr h]
  simp only [State.cut_congr h]

theorem State.lostFrom_congr (h : t.regs = s.regs) (r a : Nat) : t.lostFrom r (.die a) = s.lostFrom r (.die a) := by
  unfold State.lostFrom
  rw [State.attachment_congr h]
  simp only [State.cut_congr h]

theorem State.plain.moves {r a n : Nat} (h : s.plain r a n) (g : MovesSound s t) : t.plain r a n := by
  obtain ⟨hr, hs, hsnd, hp⟩ := h
  refine ⟨hr, hs, State.sound_of fun b h1 h2 => g.sound _ (State.sound_half hsnd h1 h2), fun b hb => ?_⟩
  rw [State.lostTo_congr g.regs, State.lostFrom_congr g.regs]
  exact hp b hb

/-! ### Places -/

/-- A device address that is the key of a byte of the die. -/
def dieByte (a : Nat) : Prop := regionOf a = .cluster ∨ regionOf a = .slab a 0

theorem regionOf_cluster {a : Nat} : regionOf a = .cluster ↔ 0x20000000 ≤ a ∧ a < 0x110000000 ∧ (a - 0x20000000) % 0x4000000 < 0x3000000 := by
  unfold regionOf slabRegion past
  constructor
  · intro h
    split_ifs at h
    omega
  · rintro ⟨h1, h2, h3⟩
    rw [if_pos ⟨h1, h2⟩, if_pos (by omega)]

theorem regionOf_slab {a k : Nat} : regionOf a = .slab k 0 ↔
    0x200000000 ≤ a ∧ a < 0x3E0000000 ∧ (a - 0x200000000) % 0x800000 < 0x180000 ∧ k = a := by
  unfold regionOf slabRegion past slabKey slabBase
  constructor
  · intro h
    split_ifs at h
    · cases h
      omega
    · cases h
    · cases h
  · rintro ⟨h1, h2, h3, rfl⟩
    rw [if_neg (by omega), if_neg (by omega), if_neg (by omega), if_pos ⟨h1, h2⟩, if_pos (by omega)]
    congr 1
    omega

theorem State.plain.dieByte {r a n : Nat} (h : s.plain r a n) {b : Nat} (hb : b < n) : dieByte (a + b) := by
  obtain ⟨hr, hs, -, -⟩ := h
  unfold spanOk regionEnd past at hs
  rcases hr with hr | ⟨k, hr⟩
  · rw [hr] at hs
    rw [regionOf_cluster] at hr
    dsimp only at hs
    rw [decide_eq_true_eq] at hs
    exact .inl (regionOf_cluster.mpr (by omega))
  · rw [hr] at hs
    rw [regionOf_slab] at hr
    dsimp only at hs
    rw [decide_eq_true_eq] at hs
    exact .inr (regionOf_slab.mpr (by omega))

@[simp] theorem State.writeAt_die (s : State) (ctx a : Nat) (d : List Byte) (poison : Bool) :
    s.writeAt ctx (.die a) d poison = s.writeDie ctx a d poison := rfl

theorem dieByte.lt {a : Nat} (h : dieByte a) : a < 0x3E0000000 := by
  rcases h with h | h
  · rw [regionOf_cluster] at h
    omega
  · rw [regionOf_slab] at h
    omega

theorem dieByte.placeOf {a : Nat} (h : dieByte a) (tlb : List TlbEnt) (ctx : Nat) (write : Bool) : placeOf tlb ctx a write = .at (.die a) := by
  unfold Machine.placeOf
  rcases h with h | h
  · rw [h]
  · rw [h]
    rfl

theorem dieByte.queueOf {a : Nat} (h : dieByte a) : queueOf a = none := by
  unfold Machine.queueOf
  rcases h with h | h
  · rw [h]
  · rw [h]

/-- The places of pieces that begin at bytes of the die. -/
theorem placesOf_die (tlb : List TlbEnt) (ctx : Nat) (write : Bool) : ∀ {l : List (Nat × Nat)}, (∀ p ∈ l, dieByte p.1) →
    placesOf tlb ctx write l = .all (l.map (fun p => (p.1, p.2, .die p.1)))
  | [], _ => rfl
  | (a, n) :: l, h => by
    unfold placesOf
    rw [(h _ List.mem_cons_self).placeOf]
    dsimp only
    rw [placesOf_die tlb ctx write fun p hp => h p (List.mem_cons_of_mem _ hp)]
    rfl

/-! ### Pieces -/

/-- A range cut into pieces that follow one another, each within a 64-byte word. -/
inductive Cuts : Nat → Nat → List (Nat × Nat) → Prop
  | nil (a : Nat) : Cuts a 0 []
  | cons {a n m : Nat} {l : List (Nat × Nat)} (h : 0 < n) (hl : Cuts (a + n) m l) : Cuts a (n + m) ((a, n) :: l)

theorem pieces_cuts : ∀ (f a n : Nat), n = 0 ∨ a % 64 + n ≤ 64 * f → Cuts a n (pieces a n f)
  | 0, a, n, h => by
    obtain rfl : n = 0 := by omega
    exact .nil a
  | f + 1, a, n, h => by
    unfold pieces
    split
    · subst_vars
      exact .nil a
    · obtain ⟨k, hk⟩ : ∃ k, min n (64 - a % 64) = k := ⟨_, rfl⟩
      have hc := Cuts.cons (a := a) (n := k) (by omega) (pieces_cuts f (a + k) (n - k) (by omega))
      rwa [← hk, show min n (64 - a % 64) + (n - min n (64 - a % 64)) = n by omega] at hc

theorem piecesOf_cuts (a n : Nat) : Cuts a n (piecesOf a n) := pieces_cuts _ a n (.inr (by omega))

/-- Every piece lies in the range. -/
theorem Cuts.mem {a n : Nat} {l : List (Nat × Nat)} (h : Cuts a n l) : ∀ p ∈ l, a ≤ p.1 ∧ p.1 + p.2 ≤ a + n ∧ 0 < p.2 := by
  induction h with
  | nil a => exact fun p hp => absurd hp List.not_mem_nil
  | cons h hl ih =>
    intro p hp
    rcases List.mem_cons.mp hp with rfl | hp
    · exact ⟨le_rfl, by omega, h⟩
    · have := ih p hp
      omega

theorem State.plain.places {r a n : Nat} (h : s.plain r a n) (tlb : List TlbEnt) (ctx : Nat) (write : Bool) :
    placesOf tlb ctx write (piecesOf a n) = .all ((piecesOf a n).map (fun p => (p.1, p.2, .die p.1))) :=
  placesOf_die tlb ctx write fun p hp => by
    obtain ⟨h1, h2, h3⟩ := (piecesOf_cuts a n).mem p hp
    have hb := h.dieByte (b := p.1 - a) (by omega)
    rwa [show a + (p.1 - a) = p.1 by omega] at hb

/-- Nothing stands in the way of a plain range. -/
theorem State.plain.not_blocked {r a n : Nat} (h : s.plain r a n) (m : Mover) (v : State) (write : Bool) : blocked v m write a n = none := by
  unfold blocked
  dsimp only
  rw [h.places]

/-! ### One piece -/

/-- A piece of a plain range: sound, at bytes of the die, with no router out of service on the way. -/
structure State.Reach (s : State) (r a n : Nat) : Prop where
  pos : 0 < n
  sound : s.sound a n = true
  die : ∀ b, b < n → dieByte (a + b)
  there : s.lostTo r (.die a) = false
  back : s.lostFrom r (.die a) = false

theorem State.plain.reach {r a n : Nat} (h : s.plain r a n) {b k : Nat} (hk : 0 < k) (hb : a ≤ b ∧ b + k ≤ a + n) : s.Reach r b k := by
  have hsnd := h.2.2.1
  obtain ⟨hto, hback⟩ := h.2.2.2 (b - a) (by omega)
  rw [show a + (b - a) = b by omega] at hto hback
  refine ⟨hk, State.sound_of fun x h1 h2 => State.sound_half hsnd (by omega) (by omega), fun x hx => ?_, hto, hback⟩
  have hd := h.dieByte (b := b - a + x) (by omega)
  rwa [show a + (b - a + x) = b + x by omega] at hd

theorem State.Reach.moves {r a n : Nat} (h : s.Reach r a n) (g : MovesSound s t) : t.Reach r a n :=
  ⟨h.pos, State.sound_of fun _ h1 h2 => g.sound _ (State.sound_half h.sound h1 h2), h.die, (State.lostTo_congr g.regs r a).trans h.there,
    (State.lostFrom_congr g.regs r a).trans h.back⟩

/-- A read of a piece gives its bytes and changes unread marks and counters alone. -/
theorem State.Reach.getPlace {c a n : Nat} (h : s.Reach c a n) (ctx : Nat) :
    ∃ t, s.getPlace c ctx (.die a) n = ⟨s.bytes a n, stOk, t⟩ ∧ MovesSound s t ∧ ∀ b, t.byte b = s.byte b := by
  have hv : s.readVia c ctx (.die a) n = ⟨s.bytes a n, stOk, s⟩ := by
    unfold State.readVia
    rw [h.there, h.back]
    exact State.readDie_sound h.sound ctx
  unfold State.getPlace
  dsimp only
  rw [hv]
  split
  · have hk := ((Keeps.refl s).consumeUnread c (past a slabBase % 0x800000) n (l := [.cores]) (by decide)).kept
    exact ⟨_, rfl, .of_counts (.consumeUnread s c _ n) hk, hk.byte (by decide) (by decide)⟩
  · exact ⟨s, rfl, .refl s, fun _ => rfl⟩

/-- Bytes stored at a key by a movement: they stand there, every other byte is as it was. -/
structure Placed (s t : State) (key : Nat) (d : List Byte) : Prop where
  moves : MovesSound s t
  inside : ∀ i, (h : i < d.length) → t.byte (key + i) = d[i]
  outside : ∀ a, (a < key ∨ key + d.length ≤ a) → t.byte a = s.byte a

theorem Placed.nil (s : State) (key : Nat) : Placed s s key [] := ⟨.refl s, fun _ h => absurd h (Nat.not_lt_zero _), fun _ _ => rfl⟩

theorem Placed.append {key : Nat} {d e : List Byte} (h : Placed s t key d) (g : Placed t u (key + d.length) e) : Placed s u key (d ++ e) := by
  refine ⟨h.moves.trans g.moves, fun i hi => ?_, fun a ha => ?_⟩
  · rw [List.length_append] at hi
    by_cases k : i < d.length
    · rw [List.getElem_append_left k, g.outside _ (by omega), h.inside i k]
    · rw [List.getElem_append_right (by omega), ← g.inside (i - d.length) (by omega), show key + d.length + (i - d.length) = key + i by omega]
  · rw [List.length_append] at ha
    rw [g.outside _ (by omega), h.outside _ (by omega)]

/-- Marks and counts around a write are no part of it. -/
theorem Placed.around {v : State} {key : Nat} {d : List Byte} (hs : CountsOnly s t) (hks : KeptBut [.cores] s t) (h : Placed t u key d)
    (hu : CountsOnly u v) (hku : KeptBut [.cores] u v) : Placed s v key d :=
  ⟨(MovesSound.of_counts hs hks).trans (h.moves.trans (.of_counts hu hku)),
    fun i hi => (hku.byte (by decide) (by decide) _).trans (h.inside i hi),
    fun a ha => (hku.byte (by decide) (by decide) a).trans ((h.outside a ha).trans (hks.byte (by decide) (by decide) a))⟩

/-- A write of sound bytes of the die stores them. -/
theorem State.writeDie_placed {a : Nat} {d : List Byte} (hs : s.sound a d.length = true) (hd : a + d.length ≤ 2 ^ 65) (ctx : Nat) :
    ∃ t, s.writeDie ctx a d = (stOk, t) ∧ Placed s t a d := by
  obtain ⟨t, ht, hw⟩ := State.writeDie_sound hs ctx
  refine ⟨t, ht, ⟨⟨.of_cores (hw.kept .cores (by decide)), fun p hp => ?_⟩, hw.sound⟩, hw.inside, hw.outside⟩
  by_cases hh : p = .host
  · subst hh
    exact fun b hb => hw.outside b (by omega)
  · exact hw.kept p (by revert hp hh; cases p <;> decide)

theorem State.Reach.putPlace {c a : Nat} {d : List Byte} (h : s.Reach c a d.length) (ctx : Nat) :
    ∃ t, s.putPlace c ctx (.die a) d false = (stOk, t) ∧ Placed s t a d := by
  have hlt : a + d.length ≤ 2 ^ 65 := by
    have hpos := h.pos
    have := (h.die (d.length - 1) (by omega)).lt
    omega
  unfold State.putPlace
  dsimp only
  cases hc : slabCore a with
  | none =>
    obtain ⟨t, ht, hp⟩ := State.writeDie_placed h.sound hlt ctx
    refine ⟨t, ?_, hp⟩
    show s.writeVia c ctx (.die a) d false = _
    unfold State.writeVia
    rw [h.there, h.back, State.writeAt_die, ht]
    rfl
  | some x =>
    have hk := ((Keeps.refl s).rewritten x (past a slabBase % 0x800000) d.length (l := [.cores]) (by decide)).kept
    have hr := h.moves (.of_counts (.rewritten s x (past a slabBase % 0x800000) d.length) hk)
    obtain ⟨t, ht, hp⟩ := State.writeDie_placed hr.sound hlt ctx
    refine ⟨t.copied x (past a slabBase % 0x800000) d.length, ?_, .around (.rewritten s x _ _) hk hp (.copied t x _ _)
      ((Keeps.refl t).copied x _ _ (by decide)).kept⟩
    dsimp only [Option.map]
    simp only [h.there, h.back, State.writeAt_die, ht, Bool.false_eq_true, if_false, if_true]

end

end Sys2Proof.Machine
end

section
/-! Skewed copies (R215 to R217): the source rows as SKEWC and TSKEWC read them, the bytes of a stream, and the writes of the
streams in plain ranges. -/

namespace Sys2Proof.Machine

section
variable {s t u : State} {m : Mover} {w : Cmd} {x : SkSrc}

/-! ### Source rows -/

/-- The fold of `skRow` over the pieces of a range: the bytes follow those before, nothing is noted as bad. -/
theorem skRow_foldl {a n : Nat} {l : List (Nat × Nat)} (hc : Cuts a n l) : ∀ (s : State) (d : List Byte), (∀ p ∈ l, s.Reach m.c p.1 p.2) →
    ∃ t, (l.map (fun p => (p.1, p.2, Place.die p.1))).foldl (fun (r : SkSrc × List Byte × State) p =>
        let d := r.2.2.getPlace m.c m.ctx p.2.2 p.2.1
        let code := if d.st = stIllegal || d.st = stPathLost then 2 else 1
        let x := if d.st = stOk then r.1 else
          { r.1 with bad := (p.1, p.2.1, code) :: r.1.bad, bits := r.1.bits ||| 2 ^ r.2.2.partBit p.2.2 }
        (x, r.2.1 ++ d.data, d.s)) (x, d, s) = (x, d ++ s.bytes a n, t) ∧ MovesSound s t ∧ ∀ b, t.byte b = s.byte b := by
  induction hc with
  | nil a => exact fun s d _ => ⟨s, by simp [State.bytes], .refl s, fun _ => rfl⟩
  | cons h hl ih =>
    intro s d hr
    obtain ⟨t, ht, hm, hb⟩ := (hr _ List.mem_cons_self).getPlace m.ctx
    obtain ⟨u, hu, hm', hb'⟩ := ih t (d ++ s.bytes _ _) fun p hp => (hr p (List.mem_cons_of_mem _ hp)).moves hm
    refine ⟨u, ?_, hm.trans hm', fun b => (hb' b).trans (hb b)⟩
    rw [List.map_cons, List.foldl_cons]
    simp only [ht, if_true]
    rw [hu, State.bytes_congr hb, List.append_assoc, State.bytes_append]

/-- A plain source row reads as its bytes. -/
theorem skRow_plain {a n : Nat} (h : s.plain m.c a n) (x : SkSrc) :
    ∃ t, skRow m s a n x = ({ x with rows := x.rows ++ [s.bytes a n] }, t) ∧ MovesSound s t ∧ ∀ b, t.byte b = s.byte b := by
  have hc := piecesOf_cuts a n
  obtain ⟨t, ht, hm, hb⟩ := skRow_foldl (m := m) (x := x) hc s [] fun p hp => by
    obtain ⟨h1, h2, h3⟩ := hc.mem p hp
    exact h.reach h3 ⟨h1, h2⟩
  refine ⟨t, ?_, hm, hb⟩
  unfold skRow
  rw [h.places]
  dsimp only
  rw [ht, List.nil_append]

theorem skRow_rows : ∀ (l : List (Nat × Nat)) (s : State) (x : SkSrc), (∀ p ∈ l, s.plain m.c p.1 p.2) →
    ∃ t, l.foldl (fun r p => skRow m r.2 p.1 p.2 r.1) (x, s) = ({ x with rows := x.rows ++ l.map (fun p => s.bytes p.1 p.2) }, t) ∧
      MovesSound s t ∧ ∀ b, t.byte b = s.byte b
  | [], s, x, _ => ⟨s, by simp, .refl s, fun _ => rfl⟩
  | p :: l, s, x, h => by
    obtain ⟨t, ht, hm, hb⟩ := skRow_plain (h p List.mem_cons_self) x
    obtain ⟨u, hu, hm', hb'⟩ := skRow_rows l t { x with rows := x.rows ++ [s.bytes p.1 p.2] } fun q hq =>
      (h q (List.mem_cons_of_mem _ hq)).moves hm
    refine ⟨u, ?_, hm.trans hm', fun b => (hb' b).trans (hb b)⟩
    rw [List.foldl_cons, ht, hu]
    simp only [State.bytes_congr hb, List.map_cons, List.append_assoc, List.singleton_append]

/-- Plain source rows are read as they stand. -/
theorem skRead_plain {l : List (Nat × Nat)} (h : ∀ p ∈ l, s.plain m.c p.1 p.2) :
    ∃ t, skRead m s l = .inr ({ rows := l.map (fun p => s.bytes p.1 p.2) }, t) ∧ MovesSound s t ∧ ∀ b, t.byte b = s.byte b := by
  obtain ⟨t, ht, hm, hb⟩ := skRow_rows l s {} h
  refine ⟨t, ?_, hm, hb⟩
  unfold skRead
  rw [List.findSome?_eq_none_iff.mpr fun p hp => (h p hp).not_blocked m s false]
  dsimp only
  rw [ht]
  rfl

/-! ### The bytes of a stream -/

theorem skElem_sound (hx : x.bad = []) (i k : Nat) : (skElem w x i k).2 = 0 := by
  unfold skElem SkSrc.worst
  rw [hx]
  rfl

theorem foldl_max_zero {l : List Nat} (h : ∀ n ∈ l, n = 0) : l.foldl max 0 = 0 := by
  induction l with
  | nil => rfl
  | cons n l ih =>
    rw [List.foldl_cons, h n List.mem_cons_self, Nat.max_self]
    exact ih fun k hk => h k (List.mem_cons_of_mem _ hk)

theorem skLane_sound (hx : x.bad = []) (i k : Nat) : (skLane w x i k).2 = 0 := by
  unfold skLane
  split
  · rfl
  · refine foldl_max_zero fun n hn => ?_
    obtain ⟨e, he, rfl⟩ := List.mem_map.mp hn
    obtain ⟨j, -, rfl⟩ := List.mem_map.mp he
    exact skElem_sound hx _ _

/-- Bytes made from sound rows are sound. -/
theorem skStream_sound (hx : x.bad = []) (j : Nat) : ∀ e ∈ skStream w x j, e.2 = 0 := by
  intro e he
  unfold skStream at he
  obtain ⟨l, hl, hel⟩ := List.mem_flatten.mp he
  obtain ⟨v, hv, rfl⟩ := List.mem_map.mp hl
  obtain ⟨b, -, rfl⟩ := List.mem_map.mp hel
  dsimp only at hv ⊢
  split at hv
  · obtain ⟨i, -, rfl⟩ := List.mem_map.mp hv
    split
    · rfl
    · exact skElem_sound hx _ _
  · obtain ⟨i, -, rfl⟩ := List.mem_map.mp hv
    exact skLane_sound hx _ _

/-- Lanes of g bytes each, one after another. -/
theorem lanes_length {l : List (Nat × Nat × Nat)} {g : Nat} (h : ∀ v ∈ l, v.1 = g) :
    ((l.map (fun v => (natLe v.1 v.2.1).map (fun b => (b, v.2.2)))).flatten).length = l.length * g := by
  induction l with
  | nil => simp
  | cons v l ih =>
    rw [List.map_cons, List.flatten_cons, List.length_append, ih fun u hu => h u (List.mem_cons_of_mem _ hu), List.length_map, natLe_length,
      h v List.mem_cons_self, List.length_cons, Nat.add_mul, Nat.one_mul, Nat.add_comm]

theorem skStream_length (w : Cmd) (x : SkSrc) (j : Nat) : (skStream w x j).length = skBytes w := by
  unfold skStream skBytes
  dsimp only
  split
  · rw [lanes_length (g := 1)]
    · simp
    · intro v hv
      obtain ⟨i, -, rfl⟩ := List.mem_map.mp hv
      split <;> rfl
  · rw [lanes_length (g := skG w)]
    · simp
    · intro v hv
      obtain ⟨i, -, rfl⟩ := List.mem_map.mp hv
      rfl

/-! ### The write of a stream -/

/-- A piece of sound bytes is stored. -/
theorem writePlaces_one {a : Nat} {d : List Byte} (h : s.Reach m.c a d.length) :
    ∃ t, writePlaces m.c m.ctx d a false s [(a, d.length, .die a)] (0, 0) = ((0, d.length), t) ∧ Placed s t a d := by
  obtain ⟨t, ht, hp⟩ := h.putPlace m.ctx
  refine ⟨t, ?_, hp⟩
  unfold writePlaces writePlaces
  dsimp only
  rw [Nat.sub_self, List.drop_zero, List.take_length, ht]
  simp

/-- The fold of `skWrite` over the pieces of the rest of a stream that is sound throughout. -/
theorem skWrite_foldl {a : Nat} {d : List (Byte × Nat)} (hd : ∀ e ∈ d, e.2 = 0) {b n : Nat} {l : List (Nat × Nat)} (hc : Cuts b n l) :
    ∀ (s : State) (k : Nat), a ≤ b → b + n = a + d.length → (∀ p ∈ l, s.Reach m.c p.1 p.2) →
    ∃ t k', (l.map (fun p => (p.1, p.2, Place.die p.1))).foldl (fun (r : Nat × Nat × State) q =>
        let bs := (d.drop (q.1 - a)).take q.2.1
        let code := (bs.map (·.2)).foldl max 0
        if code = 2 then r
        else
          let w := writePlaces m.c m.ctx (bs.map (·.1)) q.1 (code = 1) r.2.2 [q] (0, 0)
          (r.1 ||| w.1.1, (if code = 1 then r.2.1 else r.2.1 + w.1.2), w.2)) (0, k, s) = (0, k', t) ∧
      Placed s t b ((d.drop (b - a)).map (·.1)) := by
  induction hc with
  | nil b =>
    intro s k hb hn _
    refine ⟨s, k, rfl, ?_⟩
    rw [List.drop_of_length_le (by omega)]
    exact .nil s b
  | @cons b n i l h hl ih =>
    intro s k hb hn hr
    have hlen : (((d.drop (b - a)).take n).map (·.1)).length = n := by simp; omega
    have hz : (((d.drop (b - a)).take n).map (·.2)).foldl max 0 = 0 := foldl_max_zero fun v hv => by
      obtain ⟨e, he, rfl⟩ := List.mem_map.mp hv
      exact hd e (List.mem_of_mem_drop (List.mem_of_mem_take he))
    have hreach : s.Reach m.c b (((d.drop (b - a)).take n).map (·.1)).length := by
      rw [hlen]
      exact hr _ List.mem_cons_self
    obtain ⟨t, ht, hp⟩ := writePlaces_one hreach
    obtain ⟨u, k', hu, hp'⟩ := ih t (k + n) (by omega) (by omega) fun p hp' => (hr p (List.mem_cons_of_mem _ hp')).moves hp.moves
    refine ⟨u, k', ?_, ?_⟩
    · rw [List.map_cons, List.foldl_cons]
      dsimp only
      rw [hz]
      rw [hlen] at ht
      simp only [ht, show ¬ (0 = 2) by decide, show ¬ (0 = 1) by decide, decide_false, if_false]
      exact hu
    · have hp := hp.append (by rwa [hlen])
      rwa [← List.map_append, show b + n - a = b - a + n by omega, ← List.drop_drop, List.take_append_drop] at hp

/-- A sound stream is stored in a plain range, with no part failed. -/
theorem skWrite_plain {a : Nat} {d : List (Byte × Nat)} (h : s.plain m.c a d.length) (hd : ∀ e ∈ d, e.2 = 0) (p : Progress) :
    ∃ t, skWrite m d a s p = .ok t p ∧ Placed s t a (d.map (·.1)) := by
  have hc := piecesOf_cuts a d.length
  obtain ⟨t, k, ht, hp⟩ := skWrite_foldl (m := m) (a := a) hd hc s 0 le_rfl rfl fun p hp => by
    obtain ⟨h1, h2, h3⟩ := hc.mem p hp
    exact h.reach h3 ⟨h1, h2⟩
  rw [Nat.sub_self, List.drop_zero] at hp
  refine ⟨((t.count m.c (moveCounter (aSrc m.q.w) a) k).progress m.c 3 (ceilDiv k 64)), ?_, .around (.refl s) (KeptBut.refl _ s) hp
    ((CountsOnly.count _ _ _ _).trans (.progress _ _ _ _)) (((Keeps.refl t).count _ _ _ (by decide)).progress _ _ _ (by decide)).kept⟩
  unfold skWrite
  rw [h.not_blocked, h.places]
  dsimp only
  rw [ht]
  simp

/-! ### The streams one after another -/

/-- Where stream j of a skewed copy stands. -/
def skDst (w : Cmd) (j : Nat) : Nat := aDst w + j * fld w 227 209

/-- The streams from j on are stored, every one made from `x`; every other byte is as it was. -/
structure SkStored (w : Cmd) (x : SkSrc) (j : Nat) (s t : State) : Prop where
  moves : MovesSound s t
  inside : ∀ i b, j ≤ i → i < skStreams w → b < skBytes w → t.byte (skDst w i + b) = ((skStream w x i).getD b (0, 0)).1
  outside : ∀ a, (∀ i, j ≤ i → i < skStreams w → a < skDst w i ∨ skDst w i + skBytes w ≤ a) → t.byte a = s.byte a

/-- A stream stored before later ones that lie apart from it. -/
theorem SkStored.cons {j : Nat} (hp : Placed s t (skDst w j) ((skStream w x j).map (·.1))) (h : SkStored w x (j + 1) t u) (hj : j < skStreams w)
    (ha : ∀ l, j < l → l < skStreams w → Apart (skDst w j) (skDst w l) (skBytes w)) : SkStored w x j s u := by
  have hlen : ((skStream w x j).map (·.1)).length = skBytes w := by rw [List.length_map, skStream_length]
  refine ⟨hp.moves.trans h.moves, fun i b hi hi' hb => ?_, fun a hout => ?_⟩
  · by_cases e : i = j
    · subst e
      rw [h.outside _ fun l hl hl' => ?_, hp.inside b (by omega), List.getElem_map, List.getD_eq_getElem _ _ (by rw [skStream_length]; exact hb)]
      have := ha l hl hl'
      unfold Apart at this
      omega
    · exact h.inside i b (by omega) hi' hb
  · rw [h.outside a fun i hi hi' => hout i (by omega) hi', hp.outside a (by rw [hlen]; exact hout j le_rfl hj)]

theorem skStreamsFrom_plain (hx : x.bad = []) (hq : queueOf (aDst m.q.w) = none)
    (ha : ∀ j l, j < skStreams m.q.w → l < skStreams m.q.w → j ≠ l → Apart (skDst m.q.w j) (skDst m.q.w l) (skBytes m.q.w))
    (hS : skStreams m.q.w < 2 ^ 32) : ∀ (f : Nat) (s : State) (p : Progress), skStreams m.q.w < p.rows.toNat + f →
    (∀ i, p.rows.toNat ≤ i → i < skStreams m.q.w → s.plain m.c (skDst m.q.w i) (skBytes m.q.w)) →
    ∃ t p', skStreamsFrom m x s p f = .ok t p' ∧ p'.bitmap = p.bitmap ∧ p'.newer = p.newer ∧ SkStored m.q.w x p.rows.toNat s t := by
  intro f
  induction f with
  | zero =>
    intro s p hf _
    exact ⟨s, p, rfl, rfl, rfl, .refl s, fun i b hi hi' => by omega, fun _ _ => rfl⟩
  | succ f ih =>
    intro s p hf hpl
    unfold skStreamsFrom
    dsimp only
    by_cases hj : skStreams m.q.w ≤ p.rows.toNat
    · rw [if_pos hj]
      exact ⟨s, _, rfl, rfl, rfl, .refl s, fun i b hi hi' => by omega, fun _ _ => rfl⟩
    · rw [if_neg hj, hq]
      dsimp only
      have hplain := hpl p.rows.toNat le_rfl (by omega)
      rw [← skStream_length m.q.w x p.rows.toNat] at hplain
      obtain ⟨t, ht, hp⟩ := skWrite_plain hplain (skStream_sound hx _) p
      have hrows : (p.rows + 1).toNat = p.rows.toNat + 1 := by
        rw [BitVec.toNat_add]
        show (p.rows.toNat + 1) % 2 ^ 32 = _
        omega
      obtain ⟨u, p', hu, hb, hn, hst⟩ := ih t { p with rows := p.rows + 1 } (by show _ < (p.rows + 1).toNat + f; omega)
        fun i hi hi' => (hpl i (by have : (p.rows + 1).toNat ≤ i := hi; omega) hi').moves hp.moves
      rw [show ({ p with rows := p.rows + 1 } : Progress).rows.toNat = p.rows.toNat + 1 from hrows] at hst
      refine ⟨u, p', ?_, hb, hn, .cons hp hst (by omega) fun l hl hl' => ha _ _ (by omega) hl' (by omega)⟩
      unfold skDst at ht
      rw [ht]
      exact hu

end

end Sys2Proof.Machine
end

section
/-! SKEWC and TSKEWC as the access engine takes them (R64, R68, R211, R215 to R217). -/

namespace Sys2Proof.Machine

/-- The commands described by `skewInfo`, the only description that reserves no bits. -/
theorem engineRow_skew {i : Instr} {c : CoreId} {sl : SlotId} {w : Cmd} {n : Nat} (h : engineRow i = some (c, sl, w, skewInfo, n)) :
    (i = .skewc c sl w ∧ n = 0x51) ∨ (i = .tskewc c sl w ∧ n = 0x52) := by
  have hr := congrArg (Option.map (fun x => x.2.2.2.1.rsv)) h
  cases i
  case skewc => cases h; exact .inl ⟨rfl, rfl⟩
  case tskewc => cases h; exact .inr ⟨rfl, rfl⟩
  all_goals cases hr

theorem exec_skew {i : Instr} {c : CoreId} {sl : SlotId} {w : Cmd} {n : Nat} (h : engineRow i = some (c, sl, w, skewInfo, n))
    (hop : opcIs w n = true) (s : State) : exec i s = .next (s.engCmd c sl w skewInfo) := by
  rcases engineRow_skew h with ⟨rfl, rfl⟩ | ⟨rfl, rfl⟩
  · exact if_pos hop
  · exact if_pos hop

/-- A skewed copy within its capacity, of whole granules unless it copies scales, whose source rows and streams lie in plain ranges. -/
structure State.SkewPlain (s : State) (c : Nat) (w : Cmd) : Prop where
  rows : 0 < fld w 175 162 ∧ fld w 175 162 ≤ fld w 189 176
  depth : 0 < fld w 161 144
  granule : bit w 255 = true ∨ fld w 161 144 % skGranule w = 0
  sources : ∀ p ∈ skSources w, s.plain c p.1 p.2
  streams : ∀ j, j < skStreams w → s.plain c (skDst w j) (skBytes w)
  apart : ∀ j l, j < skStreams w → l < skStreams w → j ≠ l → Apart (skDst w j) (skDst w l) (skBytes w)

theorem skR_mem (w : Cmd) : skR w = 32 ∨ skR w = 16 ∨ skR w = 8 ∨ skR w = 1 := by
  have h : fld w 251 250 < 4 := Nat.mod_lt _ (by decide)
  unfold skR rowsOfCode
  interval_cases fld w 251 250 <;> decide

section
variable {s : State} {c : Nat} {w : Cmd}

theorem skStreams_pos (h : 0 < fld w 175 162) : 0 < skStreams w := by
  unfold skStreams ceilDiv
  rcases skR_mem w with hr | hr | hr | hr <;> rw [hr] <;> omega

theorem skStreams_lt (w : Cmd) : skStreams w < 2 ^ 32 := by
  have h : fld w 175 162 < 2 ^ 14 := Nat.mod_lt _ (by decide)
  unfold skStreams ceilDiv
  rcases skR_mem w with hr | hr | hr | hr <;> rw [hr] <;> omega

theorem skBytes_pos (h : 0 < fld w 161 144) : 0 < skBytes w := by
  have hr : 0 < skR w := by rcases skR_mem w with hr | hr | hr | hr <;> omega
  have hg : 0 < skG w := by unfold skG; split <;> decide
  unfold skBytes
  split <;> positivity

/-- The streams of a skewed copy to plain ranges go to no operand queue. -/
theorem State.SkewPlain.no_queue (h : s.SkewPlain c w) : queueOf (aDst w) = none := by
  have hd := (h.streams 0 (skStreams_pos h.rows.1)).dieByte (skBytes_pos h.depth)
  rw [Nat.add_zero, skDst, Nat.zero_mul, Nat.add_zero] at hd
  exact hd.queueOf

theorem State.SkewPlain.check (h : s.SkewPlain c w) : skewCheck w = .go := by
  have hsrc : (skSources w).all (fun r => spanOk r.1 r.2) = true := List.all_eq_true.mpr fun p hp => (h.sources p hp).2.1
  have hdst : rowsOk (aDst w) (fld w 227 209) (skBytes w) (skStreams w) = true := List.all_eq_true.mpr fun j hj =>
    (h.streams j (List.mem_range.mp hj)).2.1
  have hg : (bit w 255 || decide (fld w 161 144 % skGranule w = 0)) = true := by simpa using h.granule
  obtain ⟨⟨h0, h1⟩, h2⟩ := And.intro h.rows h.depth
  unfold skewCheck checks
  dsimp only
  rw [if_neg (by simp; omega), if_neg (by simp; omega), hsrc, hdst, hg]
  simp

/-- The data of a skewed copy moves to its end: every stream stored from the source rows as they were. -/
theorem runSkew_plain {m : Mover} (h : s.SkewPlain m.c m.q.w) (hp : m.q.prog = {}) :
    ∃ t p, runSkew s m = .ok t p ∧ p.bitmap = 0 ∧ p.newer = false ∧
      SkStored m.q.w { rows := (skSources m.q.w).map (fun p => s.bytes p.1 p.2) } 0 s t := by
  obtain ⟨t, ht, hm, hb⟩ := skRead_plain (m := m) h.sources
  obtain ⟨u, p, hu, hbit, hnew, hst⟩ := skStreamsFrom_plain (m := m) (x := { rows := (skSources m.q.w).map (fun p => s.bytes p.1 p.2) }) rfl
    h.no_queue h.apart (skStreams_lt _) (skStreams m.q.w + 1) t
    { bitmap := 0 ||| BitVec.ofNat 32 0, skew := some { rows := (skSources m.q.w).map (fun p => s.bytes p.1 p.2) } } (by show _ < 0 + _; omega)
    (fun i _ hi => (h.streams i hi).moves hm)
  refine ⟨u, p, ?_, hbit.trans (by simp), hnew, hm.trans hst.moves, hst.inside, fun a ha => (hst.outside a ha).trans (hb a)⟩
  unfold runSkew
  rw [hp]
  dsimp only
  rw [ht]
  exact hu

end

/-- What held no command back before its dispatch holds none back at the head of the queue. -/
theorem AccessReady.unheld {o : OpInfo} {s : State} {c : CoreId} {sl : SlotId} {w : Cmd} (h : AccessReady o s c sl w) :
    ((s.headState o c sl w).core c.val).hazard c.val (resolved o s c sl w) = false := by
  unfold Core.hazard
  rw [(State.headState_core s o c sl w).1 3]
  exact h.clear

section
variable {s t : State} {c : Nat} {q : QEnt} {p : Progress}

/-- A skewed copy whose checks pass and whose data moves to its end goes on with its status. -/
theorem startMove_skew (hopc : cOpc q.w = 0x51 ∨ cOpc q.w = 0x52) (hcheck : skewCheck q.w = .go)
    (hrun : runSkew s { c := c, ctx := s.ctxOf c q.slot.val, q := q } = .ok t p) : startMove s c q = .go t (q.moved' p []) := by
  have hc : moveChecks c q.w = .go := by
    unfold moveChecks
    rcases hopc with h | h <;> rw [h] <;> exact hcheck
  have hr : runMove s { c := c, ctx := s.ctxOf c q.slot.val, q := q } = .ok t p := by
    unfold runMove
    dsimp only
    rcases hopc with h | h <;> rw [h] <;> exact hrun
  unfold startMove
  rw [hc]
  dsimp only
  rw [hr]
  dsimp only
  rw [if_neg (by omega)]

/-- The access engine takes a skewed copy that waits for no earlier command as a movement. -/
theorem startAccess_skew (hopc : cOpc q.w = 0x51 ∨ cOpc q.w = 0x52) (hfree : (s.core c).hazard c q.w = false) :
    startAccess s c q = startMove s c q := by
  unfold startAccess
  rw [hfree, if_neg Bool.false_ne_true]
  rcases hopc with h | h <;> simp [h, isDamson]

end

/-- Settles O38: the source rows are read before any stream is written, each stream is stored in its plain range, and those
written before it lie apart. That the rows are taken as they were where a stream overlaps them is log 51's. -/
theorem skewedCopies : Obligations.SkewedCopies := by
  intro i s c sl w n hrow hop hr d r x dst hcap hrows hdepth hgran hsrc hdst hapart
  have hplain : d.SkewPlain c.val r := ⟨⟨hrows, hcap⟩, hdepth, hgran, hsrc, hdst, hapart⟩
  have hn : n = 0x51 ∨ n = 0x52 := (engineRow_skew hrow).imp And.right And.right
  have hopc := State.headEntry_opc (o := skewInfo) (by decide) hop s c sl
  obtain ⟨t, p, ht, hbit, hnew, hst⟩ := runSkew_plain (s := d) (m := { c := c.val, ctx := d.ctxOf c.val sl.val, q := s.headEntry skewInfo c sl w })
    hplain rfl
  have hcopy : cOpc (s.headEntry skewInfo c sl w).w = 0x51 ∨ cOpc (s.headEntry skewInfo c sl w).w = 0x52 := by rw [hopc]; exact hn
  have hstart := startMove_skew hcopy hplain.check ht
  have hgo : startOn d c.val skewInfo.engine (s.headEntry skewInfo c sl w) = _ := (startAccess_skew hcopy hr.unheld).trans hstart
  refine Starts.of_go (exec_skew hrow hop s) hr.toHeadReady hgo (Ctl.of_start_go hstart ((Ctl.refl d).startMove c.val _)) ?_
    ⟨?_, hst.moves.moves, fun j b hj hb => hst.inside j b (Nat.zero_le j) hj hb, fun a ha => hst.outside a fun j _ hj => ha j hj⟩
  · show cOpc (s.headEntry skewInfo c sl w).w ≠ 0x5A
    rw [hopc]
    omega
  · simp [QEnt.moved', moveStatus, hbit, hnew]

end Sys2Proof.Machine
end

section
/-! The ten operations of ALUX as the statement describes them (R117). -/

namespace Sys2Proof.Machine

/-- Settles O8: each row of the table is its operation of 64-bit words, so every clause is that operation's law on `toNat`. -/
theorem aluTable : Obligations.AluTable := by
  intro a b sb imm
  refine ⟨BitVec.toNat_add a b, ?_, ?_, fun i => BitVec.getLsbD_and, fun i => BitVec.getLsbD_or, fun i => BitVec.getLsbD_xor, ?_, ?_, ?_, ?_⟩
  · show ((a - b).toNat + b.toNat) % 2 ^ 64 = a.toNat
    rw [← BitVec.toNat_add, BitVec.sub_add_cancel]
  · show (a * imm + sb).toNat = _
    rw [BitVec.toNat_add, BitVec.toNat_mul, Nat.mod_add_mod]
  · show (a <<< (b.toNat % 64)).toNat = _
    rw [BitVec.toNat_shiftLeft, Nat.shiftLeft_eq]
  · show (a >>> (b.toNat % 64)).toNat = _
    rw [BitVec.toNat_ushiftRight, Nat.shiftRight_eq_div_pow]
  · show (if a.toNat ≤ b.toNat then a else b).toNat = _
    rw [apply_ite BitVec.toNat, Nat.min_def]
  · show (if a.toNat ≤ b.toNat then b else a).toNat = _
    rw [apply_ite BitVec.toNat, Nat.max_def]

end Sys2Proof.Machine

end


section
/-! Well-formed commands run (log 120). -/

namespace Sys2Proof.Machine

/-- What O3 says of one command, given whether it is well formed and what it answers. -/
def RunsIf (b : Bool) (o : Host.Outcome State Fault Refusal) : Prop :=
  if b then ∃ t, o = .next t else o = .fault .illFormed

/-- A row without a condition on its operands always answers. -/
theorem RunsIf.next (t : State) : RunsIf true (.next t) := ⟨t, rfl⟩

/-- A row of a list command answers where the word carries its opcode. -/
theorem RunsIf.answer (b : Bool) (s : State) : RunsIf b (answer b s) := by
  cases b
  · rfl
  · exact ⟨s, rfl⟩

/-- A row that looks at the form of its operands first. -/
theorem RunsIf.guarded {p : Prop} [Decidable p] {b : Bool} (h : p ↔ b = false) (t : State) :
    RunsIf b (if p then .fault .illFormed else .next t) := by
  cases b
  · rw [if_pos (h.mpr rfl)]; rfl
  · rw [if_neg (fun hp => Bool.noConfusion (h.mp hp))]; exact ⟨t, rfl⟩


/-- Bytes are refused where there are none or more than n. -/
theorem bytes_guard (d : List Byte) (n : Nat) :
    (d.isEmpty || decide (n < d.length)) = true ↔ (!d.isEmpty && decide (d.length ≤ n)) = false := by
  cases d.isEmpty <;> simp

/-- Settles O3, row by row: a list command is checked for its opcode, twelve rows for the lengths of their operands, and
the others have no condition. -/
theorem wellFormedRuns : Obligations.WellFormedRuns := by
  intro i s
  show RunsIf (wellFormed i) (exec i s)
  cases i with
  | nop | endList | loop | endloop | skip | brk | setx | alux | tpost | csnap | arrive | wait | signal | claim | fence
  | sinit | sfree | mma | mrd | msd | mld | mmove | mrel | vld | vst | vop | vcvt | vala | vmove | vrel | rred | rnorm
  | rnormb | rsmax | rsmaxb | rspill | rfill | copy | skewc | tskewc | gather | scatter | mcast | neighbour | gcopy
  | tload | qcfg | aprog | put | get | atomic | rput | dset | dupd | dnorm | dread => exact RunsIf.answer _ _
  | hostClassCoreAccess | slabAccess | clusterMemoryAccess | slowTierRequest | bankRetry | hostRequest =>
    exact RunsIf.guarded (iff_of_eq (Bool.not_eq_true' _)) _
  | aliasWrite | registerWrite => exact RunsIf.guarded (bytes_guard _ 64) _
  | ddrTraining | creditPeriodStart | telemetrySample | inputPowerOn => exact RunsIf.guarded decide_eq_false_iff_not.symm _
  | _ => exact RunsIf.next _

end Sys2Proof.Machine
end

section
/-! Control commands of the sequencer on a calm core: what a command does whose body gives its slot a value (R102, R117 to
R119). -/

namespace Sys2Proof.Machine

section
variable {s : State} {c : CoreId} {sl : SlotId} {w : Cmd}

/-- Nothing waits to go on where nothing did: slots, queues and commands in execution are what `Core.calm` speaks of. -/
theorem Ctl.calm {t : State} (h : Ctl s t) {k : Nat} (hc : (s.core k).calm) : (t.core k).calm := by
  obtain ⟨hsl, hq, hrun⟩ := h.same k
  unfold Core.calm Core.queue Core.run Core.slot at hc ⊢
  rwa [hsl, hq, hrun]

theorem Ctl.slot_eq {t : State} (h : Ctl s t) (k j : Nat) : t.slot k j = s.slot k j := by
  unfold State.slot Core.slot
  rw [(h.same k).1]

/-- The state on which a body runs: the token of WEN is taken. -/
def State.tokenTaken (s : State) (c : CoreId) (sl : SlotId) (r : Cmd) : State :=
  s.setSlot c.val sl.val ((s.slot c.val sl.val).takeToken r)

@[simp] theorem State.slot_tokenTaken (s : State) (c : CoreId) (sl : SlotId) (r : Cmd) :
    (s.tokenTaken c sl r).slot c.val sl.val = (s.slot c.val sl.val).takeToken r := State.slot_setSlot ..

theorem State.core_tokenTaken_ne {d : Nat} (h : d ≠ c.val) (s : State) (r : Cmd) : (s.tokenTaken c sl r).core d = s.core d :=
  State.core_modCore_ne h s _

theorem Slot.calm_takeToken {x : Slot} (h : x.calm) (r : Cmd) : (x.takeToken r).calm := by
  refine Slot.calm_of h rfl ?_ ?_ ?_ ?_ <;> unfold Slot.takeToken <;> split <;> rfl

theorem Core.calm.slot (h : (s.core c.val).calm) (sl : SlotId) : (s.slot c.val sl.val).calm := h.2.2 sl.val sl.isLt

theorem calm_tokenTaken (h : (s.core c.val).calm) (r : Cmd) : ((s.tokenTaken c sl r).core c.val).calm :=
  calm_put h (Slot.calm_takeToken (Core.calm.slot h sl) r)

/-- A body that does nothing: the command takes its token and ends. -/
theorem SeqEffect.of_nothing {i : Instr} {o : OpInfo} {body : State → Cmd → SeqRes}
    (hi : exec i s = .next (s.seqCmd c sl w o body)) (hc : (s.core c.val).calm)
    (hr : Ready o s c sl w) (ht : TokenThere (s.slot c.val sl.val) (resolved o s c sl w))
    (hb : body (s.tokenTaken c sl (resolved o s c sl w)) (resolved o s c sl w) =
      .done (s.tokenTaken c sl (resolved o s c sl w)) stOk none) :
    SeqEffect i s s c sl (resolved o s c sl w) ((s.slot c.val sl.val).takeToken (resolved o s c sl w))
      ((s.slot c.val sl.val).pc.toNat + 1) := by
  have h := (SeqEffect.of_body (pc := none) hi hr ht hb (State.slot_tokenTaken ..) rfl (calm_tokenTaken hc _)).of_set
  rwa [Option.getD_none, takeToken_pc] at h

/-- A body that leaves the core's slots and engines as they are but for its own slot, which it gives another value `x`, one
that drains as before, and that goes on at the list offset n. -/
theorem SeqEffect.of_read {i : Instr} {o : OpInfo} {body : State → Cmd → SeqRes} {pc : Option Nat} {x : Slot} {n : Nat} {u : State}
    (hi : exec i s = .next (s.seqCmd c sl w o body)) (hc : (s.core c.val).calm)
    (hr : Ready o s c sl w) (ht : TokenThere (s.slot c.val sl.val) (resolved o s c sl w))
    (hu : Ctl (s.tokenTaken c sl (resolved o s c sl w)) u)
    (hb : body (s.tokenTaken c sl (resolved o s c sl w)) (resolved o s c sl w) = .done (u.setSlot c.val sl.val x) stOk pc)
    (hx : Slot.Alike ((s.slot c.val sl.val).takeToken (resolved o s c sl w)) x) (hn : pc.getD (x.pc.toNat + 1) = n) :
    SeqEffect i s u c sl (resolved o s c sl w) x n := by
  subst hn
  have hcx := Slot.calm_takeToken (Core.calm.slot hc sl) (resolved o s c sl w)
  exact (SeqEffect.of_body hi hr ht hb (State.slot_setSlot ..) hx.hold (calm_put (hu.calm (calm_put hc hcx)) (hx.calm hcx))).of_set

/-- A body that only gives its slot another value. -/
theorem SeqEffect.of_slot {i : Instr} {o : OpInfo} {body : State → Cmd → SeqRes} {pc : Option Nat} {x : Slot} {n : Nat}
    (hi : exec i s = .next (s.seqCmd c sl w o body)) (hc : (s.core c.val).calm)
    (hr : Ready o s c sl w) (ht : TokenThere (s.slot c.val sl.val) (resolved o s c sl w))
    (hb : body (s.tokenTaken c sl (resolved o s c sl w)) (resolved o s c sl w) =
      .done ((s.tokenTaken c sl (resolved o s c sl w)).setSlot c.val sl.val x) stOk pc)
    (hx : Slot.Alike ((s.slot c.val sl.val).takeToken (resolved o s c sl w)) x) (hn : pc.getD (x.pc.toNat + 1) = n) :
    SeqEffect i s s c sl (resolved o s c sl w) x n :=
  (SeqEffect.of_read hi hc hr ht (Ctl.refl _) hb hx hn).of_set

theorem takeToken_pc_next (x : Slot) (r : Cmd) : (x.takeToken r).pc.toNat + 1 = x.pc.toNat + 1 := by rw [takeToken_pc]

/-- Adding to a token a count that fits. -/
theorem Slot.post_fits {x : Slot} {n k : Nat} (h : (x.tok n).toNat + k ≤ 65535) :
    x.post n k = some (x.setTok n (BitVec.ofNat 16 ((x.tok n).toNat + k))) := by
  unfold Slot.post
  rw [if_pos h, BitVec.ofNat_add, BitVec.ofNat_toNat, BitVec.setWidth_eq]

end

/-- Settles O9: NOP does nothing, and each other body gives its slot the value that the statement names. -/
theorem scalarCommands : Obligations.ScalarCommands := by
  intro s c sl w hc x
  refine ⟨fun hop hr ht => ?nop, fun hop hr ht => ?setx, fun hop hr ht => ?alux, fun hop hr ht => ?tpost⟩
  case nop => exact SeqEffect.of_nothing (i := .nop c sl w) (answer_true hop _) hc hr ht rfl
  case setx =>
    refine SeqEffect.of_slot (i := .setx c sl w) (pc := none) (answer_true hop _) hc hr ht ?_ ⟨rfl, rfl, rfl, rfl, rfl⟩ (takeToken_pc_next ..)
    unfold bodySetx State.modSlot
    rw [State.slot_tokenTaken]
    rfl
  case alux =>
    refine SeqEffect.of_slot (i := .alux c sl w) (pc := none) (answer_true hop _) hc hr ht ?_ ⟨rfl, rfl, rfl, rfl, rfl⟩ (takeToken_pc_next ..)
    unfold bodyAlux
    dsimp only
    rw [State.slot_tokenTaken, takeToken_sreg, takeToken_sreg]
    rfl
  case tpost =>
    intro r v hv
    refine SeqEffect.of_slot (i := .tpost c sl w) (pc := none) (answer_true hop _) hc hr ht ?_ ⟨rfl, rfl, rfl, rfl, rfl⟩ (takeToken_pc_next ..)
    unfold bodyTpost
    rw [State.slot_tokenTaken, Slot.post_fits hv]

end Sys2Proof.Machine
end

section
/-! The snapshot of a core's counters (R131). -/

namespace Sys2Proof.Machine

/-- Counter n of a snapshot is the n-th 8-byte number of its bytes, wherever they stand. -/
theorem num_of_snapshot {s u : State} {c key n : Nat} (hn : n < 64)
    (h : ∀ i, (hi : i < (s.snapshot c).length) → u.byte (key + i) = (s.snapshot c)[i]) :
    u.num (key + 8 * n) 8 = (s.counter c (8 * n)).toNat := by
  have hb : u.bytes key 512 = s.snapshot c := by
    have := bytes_eq_of h
    rwa [snapshot_length] at this
  have h8 : u.bytes (key + 8 * n) 8 = natLe 8 (s.counter c (8 * n)).toNat := by
    rw [← State.bytes_take u (key + 8 * n) (512 - 8 * n) 8 (by omega), ← State.bytes_drop u key 512 (8 * n) (by omega), hb]
    exact (flat8 _ (fun _ => natLe_length _ _) 64).2 n hn
  unfold State.num
  rw [h8, leNat_natLe]
  exact Nat.mod_eq_of_lt (BitVec.isLt _)

/-- A counter that counts no time reads as it stands. -/
theorem State.counter_untimed {s : State} {c off : Nat} (h : off ∉ timedCounters) : s.counter c off = KV.get 0 (s.core c).counters off := by
  unfold State.counter
  rw [if_neg (by simpa using h)]

/-- Settles O10: CSNAP writes the snapshot to sound bytes with one engine write; what that write leaves alone is known of
every engine write. That the counters which count time are free is log 50's. -/
theorem counterSnapshot : Obligations.CounterSnapshot := by
  intro s c sl w hc hop hr x r a ht ha hs
  have hkd : KeptBut [.fresh, .cores] s (s.tokenTaken c sl r).took := (((Keeps.refl s).setSlot _ _ _ (by decide)).took (by decide)).kept
  have hsnd : (s.tokenTaken c sl r).took.sound (slabKey c.val a) ((s.tokenTaken c sl r).snapshot c.val).length = true := by
    rw [snapshot_length, State.sound_congr (hkd .mems (by decide)) (hkd .chk (by decide)) (hkd .sec (by decide)) (hkd .husk (by decide))]
    exact hs
  obtain ⟨u, hw, hk, hin, hout, hoth, ⟨un, cs, hcore⟩, -⟩ := State.engWrite_sound hsnd ((s.tokenTaken c sl r).ctxOf c.val sl.val)
  rw [snapshot_length] at hout
  have hslot : ∀ j, u.slot c.val j = (s.tokenTaken c sl r).slot c.val j := fun j => by unfold State.slot; rw [hcore]; rfl
  refine ⟨u, (hkd.mono (by decide)).trans (hk.mono (by decide)), fun n hn htime => ?_, fun k hk' => ?_, fun d hd => ?_, ?_⟩
  · have hkey : slabKey c.val (a + 8 * n) = slabKey c.val a + 8 * n := by unfold slabKey; omega
    rw [hkey, num_of_snapshot hn hin, State.counter_untimed (by rwa [Nat.mul_comm] at htime)]
    unfold State.tokenTaken State.setSlot
    rw [State.core_modCore]
    rfl
  · rw [hout k hk']
    exact hkd.byte (by decide) (by decide) k
  · rw [hoth d hd]
    exact State.core_tokenTaken_ne hd s r
  · have hcalm : (u.core c.val).calm := by
      rw [hcore]
      exact calm_tokenTaken hc r
    have hbody : bodyCsnap c.val sl.val (s.tokenTaken c sl r) r = .done u stOk none := by
      unfold bodyCsnap
      dsimp only
      rw [show inSlabSpace (fld r 52 32) 512 = true by unfold inSlabSpace; simp; omega, hw]
      rfl
    have h := SeqEffect.of_body (i := .csnap c sl w) (pc := none) (answer_true hop _) hr ht hbody
      ((hslot sl.val).trans (State.slot_tokenTaken ..)) rfl hcalm
    rwa [Option.getD_none, takeToken_pc] at h

end Sys2Proof.Machine
end

section
/-! Loops and skips (R118, R119): what the commands that a check reads leave alone, and what each body comes to. -/

namespace Sys2Proof.Machine

section
variable {s t u d : State} {c sl : Nat} {w r : Cmd}

/-! ### The commands that a check reads -/

theorem Ctl.of_cores (h : Ctl u s) (e : t.cores = s.cores) : Ctl u t := by
  refine ⟨fun k => ?_⟩
  rw [State.core_congr e]
  exact h.same k

theorem Ctl.walkNow (h : Ctl u s) (ctx a : Nat) (write : Bool) : Ctl u (s.walkNow ctx a write).2 :=
  h.of_cores (((Keeps.refl (l := [.fresh, .host, .reported, .regs, .hif, .board, .husk]) s).walkNow ctx a write (by decide)).kept .cores (by decide))

theorem Ctl.install (h : Ctl u s) (c : Nat) (acc : Bool) (e : TlbEnt) : Ctl u (s.modCore c (fun k => k.install acc e)) :=
  h.modCore c fun k => by cases acc <;> exact ⟨rfl, rfl, rfl⟩

/-- A fetch reads memory and may install a translation. -/
theorem Ctl.fetchNow (h : Ctl u s) (c ctx a n : Nat) : Ctl u (s.fetchNow c ctx a n).2 := by
  have hread : ∀ {t : State} (p : Place), Ctl u t → Ctl u (if (t.getPlace c ctx p n).st = stOk then
      (FetchRes.ok (t.getPlace c ctx p n).data, (t.getPlace c ctx p n).s)
      else (FetchRes.fail (fetchSt (t.getPlace c ctx p n).st), (t.getPlace c ctx p n).s)).2 := fun p ht =>
    Ctl.itePair (fun _ => ht.getPlace ..) (fun _ => ht.getPlace ..)
  unfold State.fetchNow
  dsimp only
  split
  · split
    · exact h
    · exact hread _ h
  · have hw := (h.count c 0x100 1).walkNow ctx a false
    split <;> rename_i e <;> rw [e] at hw
    · exact hread _ (hw.install c false _)
    all_goals exact hw
  · exact h

theorem Ctl.cmdAt (h : Ctl u s) (c sl off : Nat) : Ctl u (s.cmdAt c sl off).2 := by
  unfold State.cmdAt
  dsimp only
  split
  · exact h
  · have hf := h.fetchNow c (s.slot c sl).ctx.toNat ((s.slot c sl).listAddr.toNat + 64 + 32 * off) 32
    split <;> rename_i e <;> rw [e] at hf <;> exact hf

theorem Ctl.cmdsAt (c sl n : Nat) : ∀ {s : State} (off : Nat), Ctl u s → Ctl u (s.cmdsAt c sl off n).2 := by
  induction n with
  | zero => exact fun _ h => h
  | succ n ih =>
    intro s off h
    have h1 := h.cmdAt c sl off
    unfold State.cmdsAt
    split
    · rename_i e
      rw [e] at h1
      have h2 := ih (off + 1) h1
      split
      · rename_i e'
        rw [e'] at h2
        exact h2
      · exact h2
    · exact h1

/-! ### The bodies -/

theorem bodyEndloop_more {l : LoopLevel} {rest : List LoopLevel} (hl : (s.slot c sl).loops = l :: rest) (h : 1 < l.remaining.toNat) :
    bodyEndloop c sl s w = .done (s.setSlot c sl (({ s.slot c sl with
      loops := { l with remaining := l.remaining - 1, index := l.index + 1 } :: rest }).loopIndex
        { l with remaining := l.remaining - 1, index := l.index + 1 })) stOk (some (l.off.toNat + 1)) := by
  unfold bodyEndloop
  dsimp only
  rw [hl]
  exact if_neg (by omega)

theorem bodyEndloop_last {l : LoopLevel} {rest : List LoopLevel} (hl : (s.slot c sl).loops = l :: rest) (h : l.remaining.toNat ≤ 1) :
    bodyEndloop c sl s w = .done (s.setSlot c sl { s.slot c sl with loops := rest }) stOk none := by
  unfold bodyEndloop
  dsimp only
  rw [hl]
  exact if_pos h

theorem bodyBrk_eq {l : LoopLevel} {rest : List LoopLevel} (hl : (s.slot c sl).loops = l :: rest) :
    bodyBrk c sl s w = if condOf (s.slot c sl) w then
      .done (s.setSlot c sl { s.slot c sl with loops := rest }) stOk (some (l.off.toNat + l.body.toNat + 2)) else .done s stOk none := by
  unfold bodyBrk
  dsimp only
  rw [hl]

/-- What LOOP does once its ENDLOOP is known to stand where it must. -/
def loopEnter (c sl : Nat) (x : Slot) (w : Cmd) (s : State) : SeqRes :=
  if fld w 63 32 = 0 then .done (s.modSlot c sl Slot.check) stOk (some (x.pc.toNat + loopBody w + 2))
  else if 4 ≤ x.loops.length then .stop stIllegal
  else .done (s.modSlot c sl (fun y => ({ y.check with loops := { off := x.pc, body := BitVec.ofNat 32 (loopBody w)
                                                                  remaining := BitVec.ofNat 32 (fld w 63 32)
                                                                  isel := BitVec.ofNat 5 (fld w 73 69) } :: y.loops }).loopIndex
    { off := x.pc, body := BitVec.ofNat 32 (loopBody w), remaining := BitVec.ofNat 32 (fld w 63 32), isel := BitVec.ofNat 5 (fld w 73 69) }))
    stOk none

theorem bodyLoop_enters (h : ((s.slot c sl).pc ∈ (s.slot c sl).checked ∧ u = s) ∨ ((s.slot c sl).pc ∉ (s.slot c sl).checked ∧
      (s.slot c sl).pc.toNat + loopBody w + 1 < hLength (s.slot c sl).hdr ∧
      ∃ v, s.cmdsAt c sl ((s.slot c sl).pc.toNat + loopBody w + 1) 1 = (.ok [v], u) ∧ cOpc v = 0x03)) :
    bodyLoop c sl s w = loopEnter c sl (s.slot c sl) w u := by
  unfold bodyLoop
  dsimp only
  rcases h with ⟨hk, rfl⟩ | ⟨hk, hlen, v, hv, ho⟩
  · rw [if_pos (by simpa using hk)]
    rfl
  · rw [if_neg (by simpa using hk), if_neg (by omega)]
    unfold State.checkWith
    rw [hv]
    exact if_pos (by rw [List.map_singleton, ho])

theorem bodySkip_passes (hlen : (s.slot c sl).pc.toNat + fld w 57 44 + 1 ≤ hLength (s.slot c sl).hdr)
    (h : ((s.slot c sl).pc ∈ (s.slot c sl).checked ∧ u = s) ∨ ((s.slot c sl).pc ∉ (s.slot c sl).checked ∧
      ∃ l, s.cmdsAt c sl ((s.slot c sl).pc.toNat + 1) (fld w 57 44) = (.ok l, u) ∧ matched l = true)) :
    bodySkip c sl s w = .done (u.modSlot c sl Slot.check) stOk
      (if condOf (s.slot c sl) w then some ((s.slot c sl).pc.toNat + fld w 57 44 + 1) else none) := by
  unfold bodySkip
  dsimp only
  rw [if_neg (by omega)]
  unfold State.checkWith
  rcases h with ⟨hk, rfl⟩ | ⟨hk, l, hl, hm⟩
  · rw [if_pos (by simpa using hk)]
    rfl
  · rw [if_neg (by simpa using hk), hl]
    dsimp only
    rw [hm]
    rfl

end

theorem Slot.loopIndex_alike (x : Slot) (ls : List LoopLevel) (l : LoopLevel) : Slot.Alike x (({ x with loops := ls }).loopIndex l) := by
  unfold Slot.loopIndex
  split <;> exact ⟨rfl, rfl, rfl, rfl, rfl⟩

/-! ### The commands -/

section
variable {s u : State} {c : CoreId} {sl : SlotId} {w : Cmd}

theorem loops_tokenTaken {l : LoopLevel} {rest : List LoopLevel} (hl : (s.slot c.val sl.val).loops = l :: rest) (r : Cmd) :
    ((s.tokenTaken c sl r).slot c.val sl.val).loops = l :: rest := by
  rw [State.slot_tokenTaken, takeToken_loops, hl]

theorem endloop_effect {l : LoopLevel} {rest : List LoopLevel} (hc : (s.core c.val).calm) (hl : (s.slot c.val sl.val).loops = l :: rest)
    (hop : opcIs w 0x03 = true) (hr : Ready nopInfo s c sl w) (ht : TokenThere (s.slot c.val sl.val) (resolved nopInfo s c sl w)) :
    let r := resolved nopInfo s c sl w
    let x := s.slot c.val sl.val
    let l' := { l with remaining := l.remaining - 1, index := l.index + 1 }
    (1 < l.remaining.toNat → SeqEffect (.endloop c sl w) s s c sl r (({ x.takeToken r with loops := l' :: rest }).loopIndex l') (l.off.toNat + 1)) ∧
    (l.remaining.toNat ≤ 1 → SeqEffect (.endloop c sl w) s s c sl r { x.takeToken r with loops := rest } (x.pc.toNat + 1)) := by
  intro r x l'
  have hl' := loops_tokenTaken hl r
  refine ⟨fun hmore => ?_, fun hlast => ?_⟩
  · refine SeqEffect.of_slot (i := .endloop c sl w) (pc := some _) (answer_true hop _) hc hr ht ?_
      (Slot.loopIndex_alike ..) rfl
    rw [bodyEndloop_more hl' hmore, State.slot_tokenTaken]
  · refine SeqEffect.of_slot (i := .endloop c sl w) (pc := none) (answer_true hop _) hc hr ht ?_ ⟨rfl, rfl, rfl, rfl, rfl⟩ (takeToken_pc_next ..)
    rw [bodyEndloop_last hl' hlast, State.slot_tokenTaken]

theorem brk_effect {l : LoopLevel} {rest : List LoopLevel} (hc : (s.core c.val).calm) (hl : (s.slot c.val sl.val).loops = l :: rest)
    (hop : opcIs w 0x05 = true) (hr : Ready (condInfo false) s c sl w)
    (ht : TokenThere (s.slot c.val sl.val) (resolved (condInfo false) s c sl w)) :
    let r := resolved (condInfo false) s c sl w
    let x := s.slot c.val sl.val
    (condOf x r = true → SeqEffect (.brk c sl w) s s c sl r { x.takeToken r with loops := rest } (l.off.toNat + l.body.toNat + 2)) ∧
    (condOf x r = false → SeqEffect (.brk c sl w) s s c sl r (x.takeToken r) (x.pc.toNat + 1)) := by
  intro r x
  have hb := bodyBrk_eq (w := r) (loops_tokenTaken hl r)
  rw [State.slot_tokenTaken, takeToken_condOf] at hb
  refine ⟨fun hcond => ?_, fun hcond => ?_⟩
  · refine SeqEffect.of_slot (i := .brk c sl w) (pc := some _) (answer_true hop _) hc hr ht ?_ ⟨rfl, rfl, rfl, rfl, rfl⟩ rfl
    exact hb.trans (if_pos hcond)
  · refine SeqEffect.of_nothing (i := .brk c sl w) (answer_true hop _) hc hr ht ?_
    exact hb.trans (if_neg (by simp [x, r, hcond]))

theorem Slot.check_alike (x : Slot) : Slot.Alike x x.check := ⟨rfl, rfl, rfl, rfl, rfl⟩

theorem State.modSlot_of_ctl {r : Cmd} (h : Ctl (s.tokenTaken c sl r) u) (f : Slot → Slot) :
    u.modSlot c.val sl.val f = u.setSlot c.val sl.val (f ((s.slot c.val sl.val).takeToken r)) := by
  unfold State.modSlot
  rw [h.slot_eq, State.slot_tokenTaken]

/-- A LOOP whose ENDLOOP is where it must be: it is known from before, or read as `u` leaves it. -/
theorem loop_effect (hc : (s.core c.val).calm) (hop : opcIs w 0x02 = true) (hr : Ready loopInfo s c sl w)
    (ht : TokenThere (s.slot c.val sl.val) (resolved loopInfo s c sl w)) :
    let x := s.slot c.val sl.val
    let r := resolved loopInfo s c sl w
    let d := s.tokenTaken c sl r
    ((x.pc ∈ x.checked ∧ u = d) ∨ (x.pc ∉ x.checked ∧ x.pc.toNat + loopBody r + 1 < hLength x.hdr ∧
      ∃ v, d.cmdsAt c.val sl.val (x.pc.toNat + loopBody r + 1) 1 = (.ok [v], u) ∧ cOpc v = 0x03)) →
    (fld r 63 32 = 0 → SeqEffect (.loop c sl w) s u c sl r (x.takeToken r).check (x.pc.toNat + loopBody r + 2)) ∧
    (fld r 63 32 ≠ 0 → x.loops.length < 4 →
      let l : LoopLevel := { off := x.pc, body := BitVec.ofNat 32 (loopBody r), remaining := BitVec.ofNat 32 (fld r 63 32)
                             index := 0, isel := BitVec.ofNat 5 (fld r 73 69) }
      SeqEffect (.loop c sl w) s u c sl r (({ (x.takeToken r).check with loops := l :: x.loops }).loopIndex l) (x.pc.toNat + 1)) := by
  intro x r d hchk
  have hu : Ctl d u := by
    rcases hchk with ⟨-, rfl⟩ | ⟨-, -, v, hv, -⟩
    · exact Ctl.refl _
    · exact Ctl.of_pair hv (Ctl.cmdsAt _ _ _ _ (Ctl.refl d))
  have hslot : d.slot c.val sl.val = x.takeToken r := State.slot_tokenTaken ..
  have hb : bodyLoop c.val sl.val d r = loopEnter c.val sl.val (x.takeToken r) r u := by
    rw [← hslot]
    refine bodyLoop_enters ?_
    rw [hslot, takeToken_pc, takeToken_checked, takeToken_hdr]
    exact hchk
  unfold loopEnter at hb
  rw [takeToken_pc, takeToken_loops, State.modSlot_of_ctl hu, State.modSlot_of_ctl hu] at hb
  refine ⟨fun h0 => ?_, fun h0 h4 => ?_⟩
  · rw [if_pos h0] at hb
    exact SeqEffect.of_read (i := .loop c sl w) (pc := some _) (answer_true hop _) hc hr ht hu hb (Slot.check_alike _) rfl
  · rw [if_neg h0, if_neg (by omega), takeToken_loops] at hb
    refine SeqEffect.of_read (i := .loop c sl w) (pc := none) (answer_true hop _) hc hr ht hu hb
      ((Slot.check_alike _).trans (Slot.loopIndex_alike ..)) ?_
    rw [loopIndex_pc]
    exact takeToken_pc_next ..

theorem skip_effect (hc : (s.core c.val).calm) (hop : opcIs w 0x04 = true) (hr : Ready (condInfo true) s c sl w)
    (ht : TokenThere (s.slot c.val sl.val) (resolved (condInfo true) s c sl w)) :
    let x := s.slot c.val sl.val
    let r := resolved (condInfo true) s c sl w
    let d := s.tokenTaken c sl r
    let n := fld r 57 44
    x.pc.toNat + n + 1 ≤ hLength x.hdr →
    ((x.pc ∈ x.checked ∧ u = d) ∨ (x.pc ∉ x.checked ∧ ∃ l, d.cmdsAt c.val sl.val (x.pc.toNat + 1) n = (.ok l, u) ∧ matched l = true)) →
    SeqEffect (.skip c sl w) s u c sl r (x.takeToken r).check (x.pc.toNat + (if condOf x r then n else 0) + 1) := by
  intro x r d n hlen hchk
  have hu : Ctl d u := by
    rcases hchk with ⟨-, rfl⟩ | ⟨-, v, hv, -⟩
    · exact Ctl.refl _
    · exact Ctl.of_pair hv (Ctl.cmdsAt _ _ _ _ (Ctl.refl d))
  have hslot : d.slot c.val sl.val = x.takeToken r := State.slot_tokenTaken ..
  have hb := bodySkip_passes (s := d) (c := c.val) (sl := sl.val) (w := r) (u := u) (by rw [hslot, takeToken_pc, takeToken_hdr]; exact hlen)
    (by rw [hslot, takeToken_pc, takeToken_checked]; exact hchk)
  rw [hslot, takeToken_pc, takeToken_condOf, State.modSlot_of_ctl hu] at hb
  refine SeqEffect.of_read (i := .skip c sl w) (answer_true hop _) hc hr ht hu hb (Slot.check_alike _) ?_
  split
  · rfl
  · exact takeToken_pc_next ..

end

/-- Settles O11, command by command: with the stack or the check as the statement has it, each body gives its slot one
value and names the offset at which the list goes on. -/
theorem loopCommands : Obligations.LoopCommands := by
  refine ⟨?_, ?_⟩
  · intro s c sl w l rest hc x hl
    exact ⟨endloop_effect hc hl, brk_effect hc hl⟩
  · intro s u c sl w hc x
    exact ⟨loop_effect hc, skip_effect hc⟩

end Sys2Proof.Machine
end

section
/-! FENCE and END (R104, R139, R305): a slot that holds goes on where its commands are complete, the others wait for nothing. -/

namespace Sys2Proof.Machine

section
variable {s : State} {c : CoreId} {sl : SlotId} {w : Cmd} {o : OpInfo}

/-- Nothing of a core waits to go on but what one slot holds. -/
structure Core.CalmBut (k : Core) (sl : Nat) : Prop where
  queue : ∀ e, e < 4 → k.queue e = []
  run : ∀ q ∈ k.run 3, q.await ≠ [dmUnsent]
  slot : ∀ j, j < 4 → j ≠ sl → (k.slot j).calm

/-- What goes on is what that slot lets go on, where it leaves the others waiting for nothing. -/
theorem State.afterCore_one {t : State} (h : (t.core c.val).CalmBut sl.val)
    (h' : ∀ j, j < 4 → j ≠ sl.val → (((t.releaseSlot c.val sl.val).core c.val).slot j).calm) : t.afterCore c.val = t.releaseSlot c.val sl.val := by
  unfold State.afterCore
  rw [State.pump_idle h.queue h.run]
  exact State.releaseAll_one h.slot h'

/-- The state once the body of a command has given its slot the hold `h`, that of a command which waits for others. -/
def State.withHold (s : State) (c : CoreId) (sl : SlotId) (h : Hold) : State :=
  (s.modSlot c.val sl.val (fun x => { x with hold := h })).issued c.val sl.val

theorem State.withHold_core (s : State) (c : CoreId) (sl : SlotId) (h : Hold) : ∃ cs ms, (s.withHold c sl h).core c.val =
    Core.setSlot { s.core c.val with counters := cs, mons := ms, served := sl.val } sl.val { s.slot c.val sl.val with hold := h } :=
  State.issued_set

theorem State.withHold_slot (s : State) (c : CoreId) (sl : SlotId) (h : Hold) :
    (s.withHold c sl h).slot c.val sl.val = { s.slot c.val sl.val with hold := h } := by
  obtain ⟨cs, ms, hk⟩ := s.withHold_core c sl h
  unfold State.slot at hk ⊢
  rw [hk, Core.slot_setSlot]

theorem State.withHold_slot_ne {j : Nat} (hj : j ≠ sl.val) (s : State) (h : Hold) : (s.withHold c sl h).slot c.val j = s.slot c.val j := by
  obtain ⟨cs, ms, hk⟩ := s.withHold_core c sl h
  unfold State.slot
  rw [hk, Core.slot_setSlot_ne hj]
  rfl

theorem State.withHold_live (s : State) (h : Hold) (j : Nat) : ((s.withHold c sl h).core c.val).live j = (s.core c.val).live j := by
  obtain ⟨cs, ms, hk⟩ := s.withHold_core c sl h
  rw [hk]
  rfl

theorem State.withHold_calmBut (hc : (s.core c.val).calm) (h : Hold) : ((s.withHold c sl h).core c.val).CalmBut sl.val := by
  obtain ⟨cs, ms, hk⟩ := s.withHold_core c sl h
  obtain ⟨hq, hrun, hsl⟩ := hc
  refine ⟨fun e he => ?_, fun q hq' => ?_, fun j hj hne => ?_⟩
  · rw [hk]; exact hq e he
  · rw [hk] at hq'; exact hrun q hq'
  · rw [hk, Core.slot_setSlot_ne hne]; exact hsl j hj

/-- A slot whose list runs: not draining, not ended by a reset, on a core whose sequencer is in service. -/
structure State.Runs (s : State) (c sl : Nat) : Prop where
  active : (s.slot c sl).active = true
  draining : (s.slot c sl).draining = false
  doomed : (s.slot c sl).doomed = false
  up : (s.core c).down 4 = false

theorem State.seqReady_runs (h : s.seqReady c.val sl.val w = true) : s.Runs c.val sl.val := by
  simp only [State.seqReady, Bool.and_eq_true, Bool.not_eq_true'] at h
  obtain ⟨⟨⟨⟨⟨⟨⟨⟨⟨⟨⟨-, hact⟩, hdr⟩, hdoom⟩, -⟩, -⟩, hdown⟩, -⟩, -⟩, -⟩, -⟩, -⟩ := h
  exact ⟨hact, hdr, hdoom, hdown⟩

theorem State.Runs.tokenTaken (h : s.Runs c.val sl.val) (r : Cmd) : (s.tokenTaken c sl r).Runs c.val sl.val := by
  obtain ⟨ha, hd, hdm, hu⟩ := h
  have hx : ∀ x : Slot, (x.takeToken r).active = x.active ∧ (x.takeToken r).draining = x.draining ∧ (x.takeToken r).doomed = x.doomed :=
    fun x => by unfold Slot.takeToken; dsimp only; split <;> exact ⟨rfl, rfl, rfl⟩
  obtain ⟨h1, h2, h3⟩ := hx (s.slot c.val sl.val)
  refine ⟨?_, ?_, ?_, ?_⟩
  · rw [State.slot_tokenTaken, h1, ha]
  · rw [State.slot_tokenTaken, h2, hd]
  · rw [State.slot_tokenTaken, h3, hdm]
  · unfold State.tokenTaken State.setSlot
    rw [State.core_modCore]
    exact hu

theorem State.Runs.withHold (h : s.Runs c.val sl.val) (x : Hold) : (s.withHold c sl x).Runs c.val sl.val := by
  obtain ⟨ha, hd, hdm, hu⟩ := h
  obtain ⟨cs, ms, hk⟩ := s.withHold_core c sl x
  refine ⟨?_, ?_, ?_, ?_⟩
  · rw [State.withHold_slot]; exact ha
  · rw [State.withHold_slot]; exact hd
  · rw [State.withHold_slot]; exact hdm
  · rw [hk]; exact hu

/-- The slot of a running list is released as its hold allows. -/
theorem State.Runs.releaseSlot {t : State} (h : t.Runs c.val sl.val) (hd : ((t.releaseHold c.val sl.val).slot c.val sl.val).draining = false) :
    t.releaseSlot c.val sl.val = t.releaseHold c.val sl.val := by
  unfold State.releaseSlot
  dsimp only
  rw [h.active, h.doomed, h.up, hd]
  rfl

theorem State.releaseHold_fence {t : State} {r : Cmd} (h : (t.slot c.val sl.val).hold = .fence r) (hm : fenceMet (t.core c.val) sl.val r = false) :
    t.releaseHold c.val sl.val = t := by
  unfold State.releaseHold
  unfold State.slot at h
  dsimp only
  rw [h]
  exact if_neg (by simp [hm])

theorem State.releaseHold_ending_live {t : State} {r : Cmd} (h : (t.slot c.val sl.val).hold = .ending r) (hd : (t.slot c.val sl.val).draining = false)
    (hl : (t.core c.val).live sl.val ≠ 0) : t.releaseHold c.val sl.val = t := by
  unfold State.releaseHold
  unfold State.slot at h hd
  dsimp only
  rw [h, hd]
  exact if_pos hl

theorem State.releaseHold_ending {t : State} {r : Cmd} (h : (t.slot c.val sl.val).hold = .ending r) (hd : (t.slot c.val sl.val).draining = false)
    (hl : (t.core c.val).live sl.val = 0) (hp : cPen r = true → ((t.slot c.val sl.val).post (cPtok r) 1).isSome) :
    t.releaseHold c.val sl.val = t.endSlot c.val sl.val := by
  unfold State.releaseHold
  unfold State.slot at h hd hp
  dsimp only
  rw [h, hd]
  dsimp only
  rw [if_neg (not_not_intro hl), if_neg]
  rw [Bool.and_eq_true, not_and, Bool.not_eq_true]
  exact fun hpen => Option.isNone_eq_false_iff.mpr (hp hpen)

/-- A command that holds a slot on a core where nothing else waits: what its hold allows is what happens. -/
theorem State.seqCmd_holds {s e : State} {body : State → Cmd → SeqRes} {h : Hold} (hr : Ready o s c sl w)
    (ht : TokenThere (s.slot c.val sl.val) (resolved o s c sl w))
    (hb : body (s.tokenTaken c sl (resolved o s c sl w)) (resolved o s c sl w) = .issued (e.modSlot c.val sl.val (fun x => { x with hold := h })))
    (hc : (e.core c.val).calm) (he : e.Runs c.val sl.val) {t : State} (hrel : (e.withHold c sl h).releaseHold c.val sl.val = t)
    (hd : (t.slot c.val sl.val).draining = false) (hoth : ∀ j, j ≠ sl.val → t.slot c.val j = (e.withHold c sl h).slot c.val j) :
    s.seqCmd c sl w o body = t := by
  subst hrel
  have hbut := State.withHold_calmBut (sl := sl) hc h
  have hrel := (he.withHold h).releaseSlot hd
  rw [State.seqCmd_issued hr ht hb]
  show (e.withHold c sl h).afterCore c.val = _
  rw [← hrel]
  refine State.afterCore_one hbut fun j hj hne => ?_
  have := hoth j hne
  unfold State.slot at this
  rw [hrel, this]
  exact hbut.slot j hj hne

end

/-! ### FENCE -/

theorem fenceMet_tokenTaken (s : State) (c : CoreId) (sl : SlotId) (r w : Cmd) :
    fenceMet ((s.tokenTaken c sl r).core c.val) sl.val w = fenceMet (s.core c.val) sl.val w := by
  unfold State.tokenTaken State.setSlot
  rw [State.core_modCore]
  rfl

theorem OnlySlot.withHold (s : State) (c : CoreId) (sl : SlotId) (h : Hold) : OnlySlot c sl s (s.withHold c sl h) := by
  obtain ⟨cs, ms, hk⟩ := s.withHold_core c sl h
  refine ⟨(((Keeps.refl s).setSlot _ _ _ (by decide)).issued _ _ (by decide)).kept, fun d hd => ?_, fun j hj => State.withHold_slot_ne hj s h,
    ⟨_, cs, ms, hk⟩⟩
  exact (State.issued_ne hd).trans (State.core_modCore_ne hd s _)

theorem fence_effect {s : State} {c : CoreId} {sl : SlotId} {w : Cmd} (hc : (s.core c.val).calm) (hop : opcIs w 0x14 = true)
    (hr : Ready fenceInfo s c sl w) (ht : TokenThere (s.slot c.val sl.val) (resolved fenceInfo s c sl w)) :
    let x := s.slot c.val sl.val
    let r := resolved fenceInfo s c sl w
    (fenceMet (s.core c.val) sl.val r = true → SeqEffect (.fence c sl w) s s c sl r (x.takeToken r) (x.pc.toNat + 1)) ∧
    (fenceMet (s.core c.val) sl.val r = false → Completes (.fence c sl w) s (fun t =>
      t.slot c.val sl.val = { x.takeToken r with hold := .fence r } ∧ OnlySlot c sl s t)) := by
  intro x r
  have hb : bodyFence c.val sl.val (s.tokenTaken c sl r) r = if fenceMet (s.core c.val) sl.val r then .done (s.tokenTaken c sl r) stOk none
      else .issued ((s.tokenTaken c sl r).modSlot c.val sl.val (fun x => { x with hold := .fence r })) := by
    unfold bodyFence
    rw [fenceMet_tokenTaken]
  refine ⟨fun hm => ?_, fun hm => ?_⟩
  · refine SeqEffect.of_nothing (i := .fence c sl w) (answer_true hop _) hc hr ht ?_
    exact hb.trans (if_pos hm)
  · have hruns := (State.seqReady_runs hr.1).tokenTaken r
    have hrel : ((s.tokenTaken c sl r).withHold c sl (.fence r)).releaseHold c.val sl.val = (s.tokenTaken c sl r).withHold c sl (.fence r) := by
      refine State.releaseHold_fence (r := r) (by rw [State.withHold_slot]) ?_
      obtain ⟨cs, ms, hk⟩ := (s.tokenTaken c sl r).withHold_core c sl (.fence r)
      rw [hk]
      exact (fenceMet_tokenTaken s c sl r r).trans hm
    have hcmd := State.seqCmd_holds hr ht (hb.trans (if_neg (by simp [hm]))) (calm_tokenTaken hc r) hruns hrel (hruns.withHold _).draining (fun _ _ => rfl)
    refine ⟨_, (answer_true hop _).trans (congrArg _ hcmd), ?_, (OnlySlot.withHold ..).of_set⟩
    rw [State.withHold_slot, State.slot_tokenTaken]

/-! ### END -/

/-- The state in which END closes the claims of its slot. -/
def State.claimsClosed (s : State) (c : CoreId) (sl : SlotId) : State := s.modCore c.val (fun k => k.closeClaims sl.val (fun _ => true))

theorem State.claimsClosed_core (s : State) (c : CoreId) (sl : SlotId) :
    (s.claimsClosed c sl).core c.val = (s.core c.val).closeClaims sl.val (fun _ => true) := State.core_modCore ..

theorem State.claimsClosed_slot (s : State) (c : CoreId) (sl : SlotId) (j : Nat) : (s.claimsClosed c sl).slot c.val j = s.slot c.val j := by
  unfold State.slot
  rw [State.claimsClosed_core]
  rfl

theorem State.claimsClosed_live (s : State) (c : CoreId) (sl : SlotId) (j : Nat) :
    ((s.claimsClosed c sl).core c.val).live j = (s.core c.val).live j := by
  rw [State.claimsClosed_core]
  rfl

theorem calm_claimsClosed {s : State} {c : CoreId} (h : (s.core c.val).calm) (sl : SlotId) : ((s.claimsClosed c sl).core c.val).calm := by
  rw [State.claimsClosed_core]
  exact ⟨h.1, h.2.1, h.2.2⟩

theorem State.Runs.claimsClosed {s : State} {c : CoreId} {sl : SlotId} (h : s.Runs c.val sl.val) : (s.claimsClosed c sl).Runs c.val sl.val := by
  refine ⟨?_, ?_, ?_, ?_⟩
  · rw [State.claimsClosed_slot]; exact h.active
  · rw [State.claimsClosed_slot]; exact h.draining
  · rw [State.claimsClosed_slot]; exact h.doomed
  · rw [State.claimsClosed_core]; exact h.up

theorem State.tokenTaken_live (s : State) (c : CoreId) (sl : SlotId) (r : Cmd) (j : Nat) :
    ((s.tokenTaken c sl r).core c.val).live j = (s.core c.val).live j := by
  unfold State.tokenTaken State.setSlot
  rw [State.core_modCore]
  rfl

theorem State.tokenTaken_slot_ne {c : CoreId} {sl : SlotId} {j : Nat} (h : j ≠ sl.val) (s : State) (r : Cmd) :
    (s.tokenTaken c sl r).slot c.val j = s.slot c.val j := by
  unfold State.tokenTaken State.setSlot State.slot
  rw [State.core_modCore, Core.slot_setSlot_ne h]

/-- Whether a token takes an addition is a matter of the slot's tokens. -/
theorem Slot.post_isSome_of_tok {x y : Slot} {n k : Nat} (h : x.tok n = y.tok n) : (x.post n k).isSome = (y.post n k).isSome := by
  unfold Slot.post
  rw [h]
  split <;> rfl

theorem end_effect {s : State} {c : CoreId} {sl : SlotId} {w : Cmd} (hc : (s.core c.val).calm) (hop : opcIs w 0x01 = true)
    (hr : Ready nopInfo s c sl w) (ht : TokenThere (s.slot c.val sl.val) (resolved nopInfo s c sl w)) :
    let x := s.slot c.val sl.val
    let r := resolved nopInfo s c sl w
    let d := ((s.tokenTaken c sl r).claimsClosed c sl).withHold c sl (.ending r)
    ((s.core c.val).live sl.val ≠ 0 → Completes (.endList c sl w) s (fun t =>
      t = d ∧ t.slot c.val sl.val = { x.takeToken r with hold := .ending r } ∧ ∀ j, j ≠ sl.val → t.slot c.val j = s.slot c.val j)) ∧
    ((s.core c.val).live sl.val = 0 → (cPen r = true → ((x.takeToken r).post (cPtok r) 1).isSome) → Completes (.endList c sl w) s (fun t =>
      t = d.endSlot c.val sl.val ∧ t.slot c.val sl.val = {} ∧ (∀ n, n < 28 → hRegMask x.hdr / 2 ^ n % 2 = 1 → (t.core c.val).tag n = 0) ∧
        ∀ j, j ≠ sl.val → t.slot c.val j = s.slot c.val j)) := by
  intro x r d
  have hruns := ((State.seqReady_runs hr.1).tokenTaken r).claimsClosed
  have hcalm := calm_claimsClosed (calm_tokenTaken (sl := sl) hc r) sl
  have hslot : d.slot c.val sl.val = { x.takeToken r with hold := .ending r } := by
    rw [State.withHold_slot, State.claimsClosed_slot, State.slot_tokenTaken]
  have hoth : ∀ j, j ≠ sl.val → d.slot c.val j = s.slot c.val j := fun j hj => by
    rw [State.withHold_slot_ne hj, State.claimsClosed_slot, State.tokenTaken_slot_ne hj]
  have hlive : (d.core c.val).live sl.val = (s.core c.val).live sl.val := by
    rw [State.withHold_live, State.claimsClosed_live, State.tokenTaken_live]
  have hend : (d.slot c.val sl.val).hold = .ending r := by rw [hslot]
  have hd := (hruns.withHold (.ending r)).draining
  have hb : bodyEnd c.val sl.val (s.tokenTaken c sl r) r =
      .issued (((s.tokenTaken c sl r).claimsClosed c sl).modSlot c.val sl.val (fun x => { x with hold := .ending r })) := rfl
  refine ⟨fun hl => ?_, fun hl hp => ?_⟩
  · have hcmd := State.seqCmd_holds hr ht hb hcalm hruns (State.releaseHold_ending_live hend hd (by rwa [hlive])) hd (fun _ _ => rfl)
    exact ⟨d, (answer_true hop _).trans (congrArg _ hcmd), rfl, hslot, hoth⟩
  · obtain ⟨hfree, hkept, htags⟩ := State.endSlot_core d c sl
    have hrel := State.releaseHold_ending hend hd (by rwa [hlive]) fun hpen => by
      rw [hslot]
      exact (Slot.post_isSome_of_tok (x := { x.takeToken r with hold := .ending r }) (y := x.takeToken r) rfl).trans (hp hpen)
    have hcmd := State.seqCmd_holds hr ht hb hcalm hruns hrel (by rw [hfree]) hkept
    refine ⟨_, (answer_true hop _).trans (congrArg _ hcmd), rfl, hfree, ?_, fun j hj => (hkept j hj).trans (hoth j hj)⟩
    rw [hslot] at htags
    rwa [show ({ x.takeToken r with hold := .ending r } : Slot).hdr = x.hdr from takeToken_hdr x r] at htags

/-- Settles O12: a FENCE whose scope is met ends like any command, one that is not met holds its slot; END holds its slot
too, and the hold is released in its own step where no command of the slot is left. -/
theorem fenceAndEnd : Obligations.FenceAndEnd := by
  refine ⟨?_, ?_⟩
  · intro s c sl w hc hop hr x r ht
    exact fence_effect hc hop hr ht
  · intro s c sl w hc hop hr x r ht
    exact end_effect hc hop hr ht

end Sys2Proof.Machine
end

section
/-! What each of the 226 commands leaves alone (R94, R289): its row of `exec` is built of operations of which the laws of
`Keeps` say what they keep, so the parts outside `touchedBy` are the same after it. -/

namespace Sys2Proof.Machine

section
variable {l : List Area} {u s t : State}

/-! ### The shapes of a row -/

/-- A row that acts only where a condition holds. -/
theorem Keeps.row_if {p : Prop} [Decidable p] (h : Keeps l u t) : Keeps l u (outcome (.next (if p then t else u)) u) := by
  split
  · exact h
  · exact Keeps.refl u

/-- A row that acts only where a condition does not hold. -/
theorem Keeps.row_unless {p : Prop} [Decidable p] (h : Keeps l u t) : Keeps l u (outcome (.next (if p then u else t)) u) := by
  split
  · exact Keeps.refl u
  · exact h

/-- A row that faults where its operands are ill formed. -/
theorem Keeps.row_formed {p : Prop} [Decidable p] {f : Fault} (h : Keeps l u t) :
    Keeps l u (outcome (if p then .fault f else .next t) u) := by
  split
  · exact Keeps.refl u
  · exact h

/-- The row of a list command, which faults where the word is not of its opcode. -/
theorem Keeps.row_answer {b : Bool} (h : Keeps l u t) : Keeps l u (outcome (Machine.answer b t) u) := by
  unfold Machine.answer
  split
  · exact h
  · exact Keeps.refl u

/-- The row of a list command of an engine. -/
theorem Keeps.row_eng {b : Bool} (c : CoreId) (sl : SlotId) (w : Cmd) (o : OpInfo) :
    Keeps coreParts s (outcome (Machine.answer b (s.engCmd c sl w o)) s) := Keeps.row_answer ((Keeps.refl s).engCmd _ _ _ _ rfl)

/-- The row of a list command of the sequencer whose body keeps what lists at work keep. -/
theorem Keeps.row_seq {b : Bool} {c : CoreId} {sl : SlotId} {w : Cmd} {o : OpInfo} {body : State → Cmd → SeqRes}
    (h : ∀ v w, Keeps coreParts s v → Keeps coreParts s ((body v w).st s)) :
    Keeps coreParts s (outcome (Machine.answer b (s.seqCmd c sl w o body)) s) := Keeps.row_answer ((Keeps.refl s).seqCmd _ h _ _ _ _ rfl)

/-- A write of a register that the security lock guards. -/
theorem Keeps.row_locked {p q : Prop} [Decidable p] [Decidable q] {v : State} (hv : Keeps l u v) (ht : Keeps l u t) :
    Keeps l u (outcome (.next (if p then u else if q then v else t)) u) := by
  split
  · exact Keeps.refl u
  · split
    · exact hv
    · exact ht

/-- A message of the security processor, answered where its session is up. -/
theorem Keeps.row_spdm {p q : Prop} [Decidable p] [Decidable q] {v : State} (hv : Keeps l u v) (ht : Keeps l u t) :
    Keeps l u (outcome (.next (if p then u else if q then v else t)) u) := Keeps.row_locked hv ht

end

/-! ### Rows of more than one operation -/

section
variable {s : State}

theorem keeps_completionCounterAdd (h : HalfId) :
    Keeps (touchedBy (.completionCounterAdd h)) s (outcome (exec (.completionCounterAdd h) s) s) := by
  have k := Keeps.refl (l := touchedBy (.completionCounterAdd h)) s
  unfold exec execCompletionCounterAdd
  refine Keeps.outcome_next ?_
  split
  · exact k
  · exact (k.upd_sync rfl).counterAdd _ rfl

theorem keeps_remoteSyncTimeout (tag : Fin 4096) :
    Keeps (touchedBy (.remoteSyncTimeout tag)) s (outcome (exec (.remoteSyncTimeout tag) s) s) := by
  have k := Keeps.refl (l := touchedBy (.remoteSyncTimeout tag)) s
  unfold exec execRemoteSyncTimeout
  refine Keeps.outcome_next ?_
  split
  · exact k
  · dsimp only
    split
    · exact k.freeSyncReq _ _ rfl
    · exact (k.freeSyncReq _ _ rfl).reply _ _ rfl

theorem keeps_remoteStatePoll (h : HalfId) (handle : BitVec 64) (state : Option (BitVec 240)) :
    Keeps (touchedBy (.remoteStatePoll h handle state)) s (outcome (exec (.remoteStatePoll h handle state) s) s) := by
  have k := Keeps.refl (l := touchedBy (.remoteStatePoll h handle state)) s
  unfold exec execRemoteStatePoll
  refine Keeps.outcome_next ?_
  split
  · exact k
  · exact k.takeUpdate _ _ _ rfl
  · exact k.takeFreed _ rfl

theorem keeps_syncupd (p : PortId) (pk : Packet) : Keeps (touchedBy (.syncupd p pk)) s (outcome (exec (.syncupd p pk) s) s) := by
  have k := Keeps.refl (l := touchedBy (.syncupd p pk)) s
  unfold exec execSyncupd
  refine Keeps.outcome_next ?_
  dsimp only
  split
  · exact (k.undeliver _ _ rfl).endRemote _ rfl
  · refine Keeps.foldl (fun v m hv => ?_) (k.undeliver _ _ rfl)
    split
    · exact (hv.takeFreed _ rfl)
    · exact (hv.takeUpdate _ _ _ rfl)

theorem keeps_tokenWaitRelease (c : CoreId) (e : Engine) (sl : SlotId) :
    Keeps (touchedBy (.tokenWaitRelease c e sl)) s (outcome (exec (.tokenWaitRelease c e sl) s) s) := by
  have k := Keeps.refl (l := touchedBy (.tokenWaitRelease c e sl)) s
  unfold exec execTokenWaitRelease
  refine Keeps.outcome_next ?_
  split
  · exact k.modSlot _ _ _ rfl
  · split
    · split
      · exact (k.modCore _ _ rfl).afterCore _ rfl
      · exact k
    · exact k

theorem keeps_tileComplete (c : CoreId) (n : Fin 4) : Keeps (touchedBy (.tileComplete c n)) s (outcome (exec (.tileComplete c n) s) s) := by
  have k := Keeps.refl (l := touchedBy (.tileComplete c n)) s
  unfold exec execTileComplete
  refine Keeps.outcome_next ?_
  split
  · exact k.completeRun _ _ _ rfl
  · exact k

theorem keeps_engineCommandComplete (c : CoreId) (e : Engine) (n : Fin 64) :
    Keeps (touchedBy (.engineCommandComplete c e n)) s (outcome (exec (.engineCommandComplete c e n) s) s) := by
  have k := Keeps.refl (l := touchedBy (.engineCommandComplete c e n)) s
  unfold exec execEngineCommandComplete
  refine Keeps.row_unless ?_
  split
  · exact k.completeRun _ _ _ rfl
  · exact k

theorem keeps_tloadRowArrival (c : CoreId) (n : Fin 64) :
    Keeps (touchedBy (.tloadRowArrival c n)) s (outcome (exec (.tloadRowArrival c n) s) s) := by
  have k := Keeps.refl (l := touchedBy (.tloadRowArrival c n)) s
  unfold exec execTloadRowArrival
  refine Keeps.row_unless ?_
  split
  · exact k
  next q _ =>
    have hrow := k.tloadRow { c := c.val, ctx := s.ctxOf c.val q.slot.val, q := q } rfl
    split
    · exact (hrow.of_moveSum_inr ‹_›).setRunEnt _ _ _ _ rfl
    · exact hrow.of_moveSum_inl_ok ‹_›
    · exact hrow.of_moveSum_inl_block ‹_›
    · exact (hrow.of_moveSum_inl_stop ‹_›).stopRun _ _ _ _ _ rfl

theorem keeps_accessCommandComplete (c : CoreId) (n : Fin 64) :
    Keeps (touchedBy (.accessCommandComplete c n)) s (outcome (exec (.accessCommandComplete c n) s) s) := by
  have k := Keeps.refl (l := touchedBy (.accessCommandComplete c n)) s
  unfold exec execAccessCommandComplete
  refine Keeps.outcome_next ?_
  split
  · dsimp only
    split
    · exact ((k.completeRun _ _ _ rfl).resumeConsumers _ _ _ rfl).resumeConsumers _ _ _ rfl
    · exact k.completeRun _ _ _ rfl
  · exact k

theorem keeps_meshPathLostTimeout (c : CoreId) (n : Fin 64) :
    Keeps (touchedBy (.meshPathLostTimeout c n)) s (outcome (exec (.meshPathLostTimeout c n) s) s) := by
  have k := Keeps.refl (l := touchedBy (.meshPathLostTimeout c n)) s
  unfold exec execMeshPathLostTimeout
  refine Keeps.outcome_next ?_
  split
  · exact ((k.upd_lostFlits rfl).took rfl).setRunEnt _ _ _ _ rfl
  · exact k

theorem keeps_ack (p : PortId) (pk : Packet) : Keeps (touchedBy (.ack p pk)) s (outcome (exec (.ack p pk) s) s) := by
  have k := Keeps.refl (l := touchedBy (.ack p pk)) s
  unfold exec execAck
  refine Keeps.outcome_next ?_
  dsimp only
  split
  · exact k.undeliver _ _ rfl
  · split
    · exact (k.undeliver _ _ rfl).lateAnswer _ _ rfl
    · exact (k.undeliver _ _ rfl).answerOk _ _ rfl

/-- An answer that a cut off requester no longer awaits is taken and dropped. -/
theorem Keeps.row_undelivered {l : List Area} {q : Prop} [Decidable q] {p : PortId} {pk : Packet} {t : State} (h : Keeps l s (s.undeliver p pk))
    (ht : Keeps l s t) : Keeps l s (outcome (.next (if q then s.undeliver p pk else t)) s) := by
  split
  · exact h
  · exact ht

theorem keeps_dataRequestTimeout (p : PortId) (tag : BitVec 16) :
    Keeps (touchedBy (.dataRequestTimeout p tag)) s (outcome (exec (.dataRequestTimeout p tag) s) s) := by
  have k := Keeps.refl (l := touchedBy (.dataRequestTimeout p tag)) s
  unfold exec execDataRequestTimeout
  refine Keeps.outcome_next ?_
  split
  · exact k.answered _ _ _ rfl
  · exact k

theorem keeps_tagQuarantineEnd (p : Option PortId) (tag : BitVec 16) :
    Keeps (touchedBy (.tagQuarantineEnd p tag)) s (outcome (exec (.tagQuarantineEnd p tag) s) s) := by
  have k := Keeps.refl (l := touchedBy (.tagQuarantineEnd p tag)) s
  unfold exec execTagQuarantineEnd
  refine Keeps.outcome_next ?_
  split
  · exact (k.upd_fab rfl).wakeHeld rfl
  · exact (k.upd_sync rfl).retryPorts rfl

theorem keeps_packetRoute (arr : Option PortId) (pk : Packet) :
    Keeps (touchedBy (.packetRoute arr pk)) s (outcome (exec (.packetRoute arr pk) s) s) := by
  have k := Keeps.refl (l := touchedBy (.packetRoute arr pk)) s
  unfold exec execPacketRoute
  refine Keeps.outcome_next ?_
  split
  · exact (k.takePacket _ _ rfl).bump32 _ _ rfl
  · exact k.takePacket _ _ rfl
  · exact k.routePacket _ _ rfl

theorem keeps_packetResidenceExpiry (p : PortId) (pk : Packet) :
    Keeps (touchedBy (.packetResidenceExpiry p pk)) s (outcome (exec (.packetResidenceExpiry p pk) s) s) := by
  have k := Keeps.refl (l := touchedBy (.packetResidenceExpiry p pk)) s
  unfold exec execPacketResidenceExpiry
  refine Keeps.outcome_next ?_
  dsimp only
  split
  · exact (k.upd_fab rfl).dropPacket _ _ rfl
  · split
    · exact (k.upd_fab rfl).dropPacket _ _ rfl
    · split
      · exact (k.upd_fab rfl).dropPacket _ _ rfl
      · exact k

theorem keeps_dimmCaseTemperature (ch : ChanId) (temp : BitVec 8) :
    Keeps (touchedBy (.dimmCaseTemperature ch temp)) s (outcome (exec (.dimmCaseTemperature ch temp) s) s) := by
  have k := Keeps.refl (l := touchedBy (.dimmCaseTemperature ch temp)) s
  unfold exec execDimmCaseTemperature
  refine Keeps.outcome_next ?_
  split
  · exact k.setRf _ _ _ _ rfl
  · split
    · exact k.setRf _ _ _ _ rfl
    · exact k

theorem keeps_slabAccess (cl : SlabClient) (c : CoreId) (off : BitVec 23) (op : Access) :
    Keeps (touchedBy (.slabAccess cl c off op)) s (outcome (exec (.slabAccess cl c off op) s) s) := by
  have k := Keeps.refl (l := touchedBy (.slabAccess cl c off op)) s
  unfold exec execSlabAccess
  refine Keeps.row_formed ?_
  split
  · exact k.engineAccess _ _ _ _ rfl
  · split
    · exact ((k.took rfl).ejected _ rfl).routerAccess _ _ _ _ _ rfl
    · exact k.routerAccess _ _ _ _ _ rfl

theorem keeps_aliasWrite (c : CoreId) (set : Bool) (off : BitVec 21) (d : List Byte) :
    Keeps (touchedBy (.aliasWrite c set off d)) s (outcome (exec (.aliasWrite c set off d) s) s) := by
  have k := Keeps.refl (l := touchedBy (.aliasWrite c set off d)) s
  unfold exec execAliasWrite
  refine Keeps.row_formed ?_
  split
  · exact k.setSlabReply _ rfl
  · split
    · exact k.setSlabReply _ rfl
    · exact ((((k.took rfl).ejected _ rfl).rewritten _ _ _ rfl).aliasWrite _ _ _ _ _ rfl).setSlabReply _ rfl

theorem keeps_correctionWriteback (m : MemUnit) :
    Keeps (touchedBy (.correctionWriteback m)) s (outcome (exec (.correctionWriteback m) s) s) := by
  have k := Keeps.refl (l := touchedBy (.correctionWriteback m)) s
  unfold exec execCorrectionWriteback
  refine Keeps.outcome_next ?_
  dsimp only
  split
  · exact ((k.setMem _ _ rfl).putBytes _ _ rfl).upd_chk_reported rfl
  · exact k

theorem keeps_tlbInvDone : Keeps (touchedBy .tlbInvDone) s (outcome (exec .tlbInvDone s) s) := by
  have k := Keeps.refl (l := touchedBy .tlbInvDone) s
  unfold exec execTlbInvDone
  refine Keeps.outcome_next ?_
  split
  · exact (k.invalidate _ _ _ rfl).upd_tlbInv rfl
  · exact k

theorem keeps_onlineRetraining (ch : ChanId) (b : Bool) :
    Keeps (touchedBy (.onlineRetraining ch b)) s (outcome (exec (.onlineRetraining ch b) s) s) := by
  have k := Keeps.refl (l := touchedBy (.onlineRetraining ch b)) s
  exact Keeps.row_unless ((k.setChan _ _ rfl).drainPool _ rfl)

theorem keeps_patrolScrub (ch : ChanId) : Keeps (touchedBy (.patrolScrub ch)) s (outcome (exec (.patrolScrub ch) s) s) := by
  have k := Keeps.refl (l := touchedBy (.patrolScrub ch)) s
  unfold exec execPatrolScrub
  refine Keeps.row_unless ?_
  dsimp only
  split
  · exact ((k.scrubLine _ _ rfl).setChan _ _ rfl).bumpHalf _ _ _ rfl
  · exact (k.scrubLine _ _ rfl).setChan _ _ rfl

theorem keeps_dmsEpochAll (a : Agent) (v : BitVec 32) :
    Keeps (touchedBy (.dmsEpochAll a v)) s (outcome (exec (.dmsEpochAll a v) s) s) := by
  refine Keeps.row_if (Keeps.foldl (fun v _ k => ?_) (Keeps.refl s))
  exact k.setRf _ _ _ _ rfl

theorem keeps_hangSample : Keeps (touchedBy .hangSample) s (outcome (exec .hangSample s) s) := by
  refine Keeps.row_unless (Keeps.foldl (fun v _ k => ?_) (Keeps.refl s))
  split
  · exact k
  · exact k.sampleCore _ rfl

theorem keeps_heartbeatInterval : Keeps (touchedBy .heartbeatInterval) s (outcome (exec .heartbeatInterval s) s) := by
  have k := Keeps.refl (l := touchedBy .heartbeatInterval) s
  unfold exec execHeartbeatInterval
  refine Keeps.outcome_next ?_
  dsimp only
  split
  · exact k.upd_fab_ras rfl
  · refine Keeps.foldl (fun v _ hv => ?_) (k.upd_fab_ras rfl)
    split
    · exact (hv.upd_ras rfl)
    · split
      · exact (hv.missedBeats _ rfl)
      · exact (hv.upd_ras rfl)

theorem keeps_preemptBoundExpiry (c : CoreId) (sl : SlotId) :
    Keeps (touchedBy (.preemptBoundExpiry c sl)) s (outcome (exec (.preemptBoundExpiry c sl) s) s) := by
  have k := Keeps.refl (l := touchedBy (.preemptBoundExpiry c sl)) s
  unfold exec execPreemptBoundExpiry
  exact Keeps.row_unless (((k.postHang _ rfl).requestReset _ _ _ _ _ _ rfl).savePreempted _ _ _ rfl)

theorem keeps_ageingCalibration (samples : List AgeingSample) :
    Keeps (touchedBy (.ageingCalibration samples)) s (outcome (exec (.ageingCalibration samples) s) s) := by
  have k := Keeps.refl (l := touchedBy (.ageingCalibration samples)) s
  exact Keeps.row_unless ((((Keeps.husk' (k.took rfl) _ _ _ rfl).ageReg _ _ rfl).ageReg _ _ rfl).eolAlert rfl)

theorem keeps_ctxInvDone : Keeps (touchedBy .ctxInvDone) s (outcome (exec .ctxInvDone s) s) := by
  have k := Keeps.refl (l := touchedBy .ctxInvDone) s
  unfold exec execCtxInvDone
  refine Keeps.outcome_next ?_
  split
  · exact k
  · exact (k.dropCtx _ rfl).upd_hif rfl

theorem keeps_atsInvalidation (lo hi : BitVec 64) :
    Keeps (touchedBy (.atsInvalidation lo hi)) s (outcome (exec (.atsInvalidation lo hi) s) s) := by
  have k := Keeps.refl (l := touchedBy (.atsInvalidation lo hi)) s
  unfold exec execAtsInvalidation
  refine Keeps.outcome_next ?_
  dsimp only
  split
  · exact k.upd_cores rfl
  · exact k.upd_cores_hif rfl

theorem keeps_svnFuseBlowDone : Keeps (touchedBy .svnFuseBlowDone) s (outcome (exec .svnFuseBlowDone s) s) := by
  have k := Keeps.refl (l := touchedBy .svnFuseBlowDone) s
  unfold exec execSvnFuseBlowDone
  refine Keeps.outcome_next ?_
  split
  · exact k
  · exact (((k.blowTo _ rfl).upd_sec rfl).setRf _ _ _ _ rfl).postSecurity _ _ rfl

/-- An IDE key command changes keys and streams only. -/
theorem Keeps.upd_ideKm {l : List Area} {u : State} (h : Keeps l u s) (op : IdeOp) (hl : Area.sub [.sec] l = true) :
    Keeps l u { s with sec := s.sec.ideKm op } := by
  cases op with
  | program => exact h.upd_sec hl
  | stop => exact h.upd_sec hl
  | start n =>
    unfold Sec.ideKm
    dsimp only
    split
    · exact h.upd_sec hl
    · exact h

theorem keeps_ideKm (op : IdeOp) : Keeps (touchedBy (.ideKm op)) s (outcome (exec (.ideKm op) s) s) := by
  have k := Keeps.refl (l := touchedBy (.ideKm op)) s
  exact Keeps.row_spdm ((k.upd_ideKm op rfl).spdmReply _ rfl) (k.spdmFail rfl)

theorem keeps_perstNAssert : Keeps (touchedBy .perstNAssert) s (outcome (exec .perstNAssert s) s) := by
  have k := Keeps.refl (l := touchedBy .perstNAssert) s
  unfold exec execPerstNAssert
  refine Keeps.row_unless ?_
  dsimp only
  split
  · exact ((((k.upd_board rfl).setRf _ _ _ _ rfl).resetPcie rfl).setRg _ _ rfl).requestReset _ _ _ _ _ _ rfl
  · exact (k.upd_board rfl).setRf _ _ _ _ rfl

theorem keeps_d3hotExit : Keeps (touchedBy .d3hotExit) s (outcome (exec .d3hotExit s) s) := by
  have k := Keeps.refl (l := touchedBy .d3hotExit) s
  exact Keeps.outcome_next (Keeps.foldl (fun v r hv => (hv.writeEv _ _ rfl)) (k.upd_hif_board rfl))

end

/-! ### Every row -/

/-- Every command keeps what `touchedBy` does not list. -/
theorem keeps_exec (i : Instr) (s : State) : Keeps (touchedBy i) s (outcome (exec i s) s) := by
  have k := Keeps.refl (l := touchedBy i) s
  cases i with
  | nop c sl w => exact Keeps.row_seq fun _ _ h => h.bodyNop _ rfl
  | endList c sl w => exact Keeps.row_seq fun _ _ h => h.bodyEnd _ _ _ rfl
  | loop c sl w => exact Keeps.row_seq fun _ _ h => h.bodyLoop _ _ _ rfl
  | endloop c sl w => exact Keeps.row_seq fun _ _ h => h.bodyEndloop _ _ _ rfl
  | skip c sl w => exact Keeps.row_seq fun _ _ h => h.bodySkip _ _ _ rfl
  | brk c sl w => exact Keeps.row_seq fun _ _ h => h.bodyBrk _ _ _ rfl
  | setx c sl w => exact Keeps.row_seq fun _ _ h => h.bodySetx _ _ _ rfl
  | alux c sl w => exact Keeps.row_seq fun _ _ h => h.bodyAlux _ _ _ rfl
  | tpost c sl w => exact Keeps.row_seq fun _ _ h => h.bodyTpost _ _ _ rfl
  | csnap c sl w => exact Keeps.row_seq fun _ _ h => h.bodyCsnap _ _ _ rfl
  | arrive c sl w => exact Keeps.row_seq fun _ _ h => h.bodySync _ _ _ rfl
  | wait c sl w => exact Keeps.row_seq fun _ _ h => h.bodySync _ _ _ rfl
  | signal c sl w => exact Keeps.row_seq fun _ _ h => h.bodySync _ _ _ rfl
  | claim c sl w => exact Keeps.row_answer ((k.closeFor _ _ _ rfl).seqCmd _ (fun v w h => h.bodyClaim _ _ _ rfl) _ _ _ _ rfl)
  | fence c sl w => exact Keeps.row_seq fun _ _ h => h.bodyFence _ _ _ rfl
  | sinit c sl w => exact Keeps.row_seq fun _ _ h => h.bodySync _ _ _ rfl
  | sfree c sl w => exact Keeps.row_seq fun _ _ h => h.bodySync _ _ _ rfl
  | mma c sl w => exact Keeps.row_eng _ _ _ _
  | mrd c sl w => exact Keeps.row_eng _ _ _ _
  | msd c sl w => exact Keeps.row_eng _ _ _ _
  | mld c sl w => exact Keeps.row_eng _ _ _ _
  | mmove c sl w => exact Keeps.row_eng _ _ _ _
  | mrel c sl w => exact Keeps.row_eng _ _ _ _
  | vld c sl w => exact Keeps.row_eng _ _ _ _
  | vst c sl w => exact Keeps.row_eng _ _ _ _
  | vop c sl w => exact Keeps.row_eng _ _ _ _
  | vcvt c sl w => exact Keeps.row_eng _ _ _ _
  | vala c sl w => exact Keeps.row_eng _ _ _ _
  | vmove c sl w => exact Keeps.row_eng _ _ _ _
  | vrel c sl w => exact Keeps.row_eng _ _ _ _
  | rred c sl w => exact Keeps.row_eng _ _ _ _
  | rnorm c sl w => exact Keeps.row_eng _ _ _ _
  | rnormb c sl w => exact Keeps.row_eng _ _ _ _
  | rsmax c sl w => exact Keeps.row_eng _ _ _ _
  | rsmaxb c sl w => exact Keeps.row_eng _ _ _ _
  | rspill c sl w => exact Keeps.row_eng _ _ _ _
  | rfill c sl w => exact Keeps.row_eng _ _ _ _
  | copy c sl w => exact Keeps.row_eng _ _ _ _
  | skewc c sl w => exact Keeps.row_eng _ _ _ _
  | tskewc c sl w => exact Keeps.row_eng _ _ _ _
  | gather c sl w => exact Keeps.row_eng _ _ _ _
  | scatter c sl w => exact Keeps.row_eng _ _ _ _
  | mcast c sl w => exact Keeps.row_eng _ _ _ _
  | neighbour c sl w => exact Keeps.row_eng _ _ _ _
  | gcopy c sl w => exact Keeps.row_eng _ _ _ _
  | tload c sl w => exact Keeps.row_eng _ _ _ _
  | qcfg c sl w => exact Keeps.row_eng _ _ _ _
  | aprog c sl w => exact Keeps.row_eng _ _ _ _
  | put c sl w => exact Keeps.row_eng _ _ _ _
  | get c sl w => exact Keeps.row_eng _ _ _ _
  | atomic c sl w => exact Keeps.row_eng _ _ _ _
  | rput c sl w => exact Keeps.row_eng _ _ _ _
  | dset c sl w => exact Keeps.row_eng _ _ _ _
  | dupd c sl w => exact Keeps.row_eng _ _ _ _
  | dnorm c sl w => exact Keeps.row_eng _ _ _ _
  | dread c sl w => exact Keeps.row_eng _ _ _ _
  | listLaunch h c addr => exact Keeps.outcome_next (k.launch _ _ _ rfl)
  | listStart c => exact Keeps.outcome_next (k.listStart _ rfl)
  | commandFetch c sl off hostErr => exact Keeps.row_if (((k.fetchBlock _ _ _ _ rfl).settlePc _ _ rfl).afterCore _ rfl)
  | tokenWaitRelease c e sl => exact keeps_tokenWaitRelease _ _ _
  | tileComplete c t => exact keeps_tileComplete _ _
  | accessCommandComplete c n => exact keeps_accessCommandComplete _ _
  | tloadRowArrival c n => exact keeps_tloadRowArrival _ _
  | operandQueueRelease c q => exact Keeps.outcome_next ((((k.resumeConsumers _ _ _ rfl).resumeConsumers _ _ _ rfl).resumeProducer _ rfl).afterCore _ rfl)
  | mcastAck c dst => exact Keeps.outcome_next (k.mcastAck _ _ rfl)
  | preemptRequest r c ctx => exact Keeps.row_if (k.preemptCtx _ _ _ rfl)
  | preemptDrainComplete c sl => exact Keeps.row_if (k.savePreempted _ _ _ rfl)
  | preemptBoundExpiry c sl => exact keeps_preemptBoundExpiry _ _
  | walkResponse c fetchSlot ats => exact Keeps.outcome_next (k.walkResponse _ _ _ rfl)
  | memXltResume a v => exact Keeps.row_if (k.xltResume _ rfl)
  | memTlbInv a v => exact Keeps.row_if (k.startTlbInv _ rfl)
  | tlbInvDone => exact keeps_tlbInvDone
  | hostClassCoreAccess h acc => exact Keeps.row_formed (Keeps.ite (fun _ => (k.hcAccess _ _ rfl)) (fun _ => k))
  | slabAccess cl c off op => exact keeps_slabAccess _ _ _ _
  | aliasWrite c set off data => exact keeps_aliasWrite _ _ _ _
  | clusterMemoryAccess k port off op => exact Keeps.row_formed (Keeps.ite (fun _ => (k.setSlabReply _ rfl)) (fun _ => (((k.took rfl).wakeHalf _ rfl).portAccess _ _ _ _ _ rfl)))
  | memSlabState a c v => exact Keeps.row_if (k.writeStates _ _ _ rfl)
  | memSegState a k v => exact Keeps.row_if (k.writeStates _ _ _ rfl)
  | memoryStateTransitionDone m => exact Keeps.outcome_next (k.transitionDone _ rfl)
  | memoryWakeFromRet m => exact Keeps.row_if (k.setMem _ _ rfl)
  | scrubRead m => exact Keeps.outcome_next (k.scrubRead _ rfl)
  | correctionWriteback m => exact keeps_correctionWriteback _
  | flitArrival r f => exact Keeps.outcome_next (k.flitArrival _ _ rfl)
  | meshClockStop h => exact Keeps.row_if (k.upd_power rfl)
  | meshWake h => exact Keeps.outcome_next (k.upd_power rfl)
  | slowTierRequest r => exact Keeps.row_formed (k.tierRequest _ rfl)
  | bankRetry r => exact Keeps.row_formed (k.retryAgain _ rfl)
  | channelRefresh ch begins => exact Keeps.outcome_next ((k.setChan _ _ rfl).drainPool _ rfl)
  | onlineRetraining ch begins => exact keeps_onlineRetraining _ _
  | patrolScrub ch => exact keeps_patrolScrub _
  | ddrTraining dimms failed => exact Keeps.row_formed (k.trainTier _ _ rfl)
  | dmsSplit a v => exact Keeps.row_locked (k.lockViolation _ rfl) (k.writeSplit _ rfl)
  | dmsEpoch a k v => exact Keeps.row_if (k.setRf _ _ _ _ rfl)
  | dmsEpochAll a v => exact keeps_dmsEpochAll _ _
  | updatePartStart k => exact Keeps.outcome_next (k.partStart _ rfl)
  | updatePartComplete k => exact Keeps.outcome_next (k.partComplete _ rfl)
  | damsonResult c k => exact Keeps.outcome_next ((k.damsonResult _ _ rfl).afterCore _ rfl)
  | syncResponse x => exact Keeps.outcome_next (k.syncResponse _ rfl)
  | completionCounterAdd h => exact keeps_completionCounterAdd _
  | waitTimeout x => exact Keeps.outcome_next (k.waitTimeout _ rfl)
  | syncQuarantineEnd ix => exact Keeps.row_if (k.setEnt _ _ rfl)
  | remoteSyncTimeout tag => exact keeps_remoteSyncTimeout _
  | remoteStatePoll h handle state => exact keeps_remoteStatePoll _ _ _
  | creditLend c => exact Keeps.row_if (k.lend _ rfl)
  | frameReceive p f fr => exact Keeps.outcome_next (k.frameReceive _ _ _ rfl)
  | nakReceive p f seq => exact Keeps.outcome_next (k.nakReceive _ _ _ rfl)
  | packetRoute arrival pk => exact keeps_packetRoute _ _
  | putPacket p pk => exact Keeps.outcome_next ((k.undeliver _ _ rfl).putPacket _ _ rfl)
  | getPacket p pk => exact Keeps.outcome_next ((k.undeliver _ _ rfl).getPacket _ _ rfl)
  | atomicPacket p pk => exact Keeps.outcome_next ((k.undeliver _ _ rfl).atomicPacket _ _ rfl)
  | rputPacket p pk => exact Keeps.outcome_next ((k.undeliver _ _ rfl).rputPacket _ _ rfl)
  | notifyPacket p pk => exact Keeps.outcome_next ((k.undeliver _ _ rfl).notifyPacket _ rfl)
  | syncPacket p pk => exact Keeps.outcome_next ((k.undeliver _ _ rfl).syncPacket _ rfl)
  | syncupd p pk => exact keeps_syncupd _ _
  | getdata p pk => exact Keeps.row_undelivered (k.undeliver _ _ rfl) ((k.undeliver _ _ rfl).getData _ _ rfl)
  | atomicrsp p pk => exact Keeps.row_undelivered (k.undeliver _ _ rfl) ((k.undeliver _ _ rfl).atomicRsp _ _ rfl)
  | syncrsp p pk => exact Keeps.outcome_next ((k.undeliver _ _ rfl).syncRsp _ _ rfl)
  | ack p pk => exact keeps_ack _ _
  | nack p pk => exact Keeps.row_undelivered (k.undeliver _ _ rfl) ((k.undeliver _ _ rfl).nackPacket _ _ rfl)
  | dataRequestTimeout p tag => exact keeps_dataRequestTimeout _ _
  | tagQuarantineEnd p tag => exact keeps_tagQuarantineEnd _ _
  | packetResidenceExpiry p pk => exact keeps_packetResidenceExpiry _ _
  | lightLoss p => exact Keeps.outcome_next (k.portGoesDown _ rfl)
  | portTraining p o => exact Keeps.row_if (k.portTrained _ _ rfl)
  | trainingRetry p => exact Keeps.row_if (k.setPortSt _ _ _ rfl)
  | portEnable a d => exact Keeps.row_if ((k.writeEnable _ _ rfl).writeEnable _ _ rfl)
  | portDisable a p => exact Keeps.row_if (k.writeEnable _ _ rfl)
  | retrain a p => exact Keeps.row_if (k.resetDim _ rfl)
  | dimensionJoinTimeout d => exact Keeps.row_if (k.failDim _ rfl)
  | fabTopo a v => exact Keeps.row_locked (k.lockViolation _ rfl) (k.writeTopo _ rfl)
  | creditPeriodStart fixed input temps => exact Keeps.row_formed (k.creditPeriod _ _ _ rfl)
  | pwrProfile a v => exact Keeps.row_if (k.writeProfile _ rfl)
  | profileChangeProgress h => exact Keeps.outcome_next (k.profileStep _ rfl)
  | coreIdleTransition c => exact Keeps.outcome_next (k.idleMove _ rfl)
  | coreWake c => exact Keeps.row_if ((k.modCore _ _ rfl).afterCore _ rfl)
  | halfThermalThrottle h => exact Keeps.outcome_next (k.thermalThrottle _ rfl)
  | halfThermalRestore h => exact Keeps.outcome_next (k.thermalRestore _ rfl)
  | thermtrip sensor temp => exact Keeps.outcome_next (k.thermalTrip _ _ rfl)
  | doorbellPoll f r doorbell => exact Keeps.row_if (k.readDoorbell _ _ _ rfl)
  | ringGoIdle f r doorbell => exact Keeps.row_if (k.goIdle _ _ _ rfl)
  | ringIdlePoll f r doorbell => exact Keeps.row_if (k.enterPolling _ _ rfl)
  | wake f r => exact Keeps.outcome_next (k.wakeRing _ _ rfl)
  | submit f r d => exact Keeps.row_if (k.takeDesc _ _ _ rfl)
  | restore f r d => exact Keeps.row_if (k.takeDesc _ _ _ rfl)
  | preempt f r d => exact Keeps.row_if (k.takeDesc _ _ _ rfl)
  | descriptorPlacement f r => exact Keeps.outcome_next (k.placeWaiting _ _ rfl)
  | ringEnable f r v => exact Keeps.row_if (k.writeRingCtl _ _ _ rfl)
  | ringDisable f r v => exact Keeps.row_if (k.writeRingCtl _ _ _ rfl)
  | evqEnable f q v => exact Keeps.row_if (k.writeEvqCtl _ _ _ rfl)
  | evqConsumerReread q consumer => exact Keeps.row_if (k.setEvq _ _ rfl)
  | msixModerationTimeout q => exact Keeps.row_if (k.sendMsix _ rfl)
  | hifCtxInv a v => exact Keeps.row_if (k.startCtxInv _ rfl)
  | hifPart a n v => exact Keeps.row_if (k.writePart _ _ rfl)
  | hifApt a n v => exact Keeps.row_if (k.setRg _ _ rfl)
  | hifHcCtx a n v => exact Keeps.row_if (k.setRg _ _ rfl)
  | hostRequest f b off op poisoned => exact Keeps.row_formed (k.hostRequest _ _ _ _ _ rfl)
  | atsInvalidation lo hi => exact keeps_atsInvalidation _ _
  | flr f => exact Keeps.row_if (k.flr _ rfl)
  | d3hotEntry => exact Keeps.outcome_next (k.upd_hif rfl)
  | perstNAssert => exact keeps_perstNAssert
  | perstNDeassert width speed => exact Keeps.row_unless (((k.upd_board rfl).setRf _ _ _ _ rfl).linkTrain rfl)
  | getVersion => exact Keeps.row_if ((k.setSpdm _ rfl).spdmReply _ rfl)
  | getCapabilities => exact Keeps.row_spdm ((k.setSpdm _ rfl).spdmReply _ rfl) (k.spdmFail rfl)
  | negotiateAlgorithms supported => exact Keeps.row_spdm ((k.setSpdm _ rfl).spdmReply _ rfl) (k.spdmFail rfl)
  | getCertificate slot => exact Keeps.row_spdm (k.spdmFree _ rfl) (k.spdmFail rfl)
  | challenge slot nonce => exact Keeps.row_spdm (k.spdmFree _ rfl) (k.spdmFail rfl)
  | getMeasurements sign nonce => exact Keeps.row_spdm (Keeps.ite (fun _ => (k.spdmFree _ rfl)) (fun _ => (k.spdmReply _ rfl))) (k.spdmFail rfl)
  | keyExchange ephemeral => exact Keeps.row_spdm ((k.upd_sec rfl).spdmFree _ rfl) (k.spdmFail rfl)
  | finish macOk => exact Keeps.row_spdm (k.spdmFail rfl) (Keeps.ite (fun _ => ((k.upd_sec rfl).spdmReply _ rfl)) (fun _ => ((k.upd_sec rfl).spdmFail rfl)))
  | ideKm op => exact keeps_ideKm _
  | commit a v => exact Keeps.row_if (k.writeSvn _ _ rfl)
  | fwUpdate a v => exact Keeps.row_if (k.writeUpdate _ _ rfl)
  | fwUpdateDone image flashOk => exact Keeps.row_if (k.updateDone _ _ rfl)
  | secLock a => exact Keeps.row_if (k.setRf _ _ _ _ rfl)
  | hangSample => exact keeps_hangSample
  | rasHb a n => exact Keeps.row_if (k.beat _ rfl)
  | heartbeatInterval => exact keeps_heartbeatInterval
  | engineReset r c e => exact Keeps.outcome_next (k.commandReset _ _ rfl)
  | hostClassCoreReset r h => exact Keeps.outcome_next (k.commandReset _ _ rfl)
  | coreReset r c => exact Keeps.outcome_next (k.commandReset _ _ rfl)
  | clusterReset r k => exact Keeps.outcome_next (k.commandReset _ _ rfl)
  | fabricPortReset r d => exact Keeps.outcome_next (k.commandReset _ _ rfl)
  | damsonReset r k => exact Keeps.outcome_next (k.commandReset _ _ rfl)
  | dieWarmReset r => exact Keeps.outcome_next (k.commandReset _ _ rfl)
  | moduleReset r => exact Keeps.outcome_next (k.commandReset _ _ rfl)
  | resetComplete d => exact Keeps.outcome_next (k.completeReset _ rfl)
  | resetBoundExpiry d => exact Keeps.outcome_next (k.boundPasses _ rfl)
  | fenceCore r c => exact Keeps.outcome_next (k.startFence _ _ rfl)
  | fenceCluster r k portsAnswer => exact Keeps.outcome_next (k.fenceCluster _ _ _ rfl)
  | fenceDrainEnd c => exact Keeps.outcome_next (k.endDrain _ rfl)
  | fenceClear a v => exact Keeps.row_if (k.writeFence _ _ rfl)
  | routerOutOfService c => exact Keeps.outcome_next (k.routerOut _ rfl)
  | huskRecordWrite => exact Keeps.row_unless (k.writeRecord rfl)
  | norCopy blockFails => exact Keeps.row_unless (k.norCopy _ rfl)
  | bbxSel a v => exact Keeps.row_if (k.selectRecord _ rfl)
  | ageingCalibration samples => exact keeps_ageingCalibration _
  | telemetrySample t => exact Keeps.row_formed (Keeps.ite (fun _ => k) (fun _ => (k.sampleTelemetry _ rfl)))
  | telemetryEvent => exact Keeps.row_unless (k.post _ _ rfl)
  | inputPowerOn banks straps => exact Keeps.row_formed (k.inputOn _ _ rfl)
  | inputPowerLoss volt power hottest => exact Keeps.outcome_next (k.inputLoss _ _ _ rfl)
  | pwrEnAssert => exact Keeps.outcome_next (k.pwrEnOn rfl)
  | pwrEnDeassert => exact Keeps.outcome_next (k.pwrEnOff rfl)
  | railSequenceStep => exact Keeps.outcome_next (k.sequenceStep rfl)
  | watchdogRefresh => exact Keeps.row_if (k.upd_board rfl)
  | watchdogPowerCycle => exact Keeps.outcome_next (k.watchdogTrips rfl)
  | railFault rail => exact Keeps.outcome_next (k.railFails _ rfl)
  | throttleNAssert => exact Keeps.outcome_next ((((k.upd_board rfl).setRf _ _ _ _ rfl).throttleMoved _ rfl).throttleBegan _ _ rfl)
  | throttleNDeassert => exact Keeps.row_unless (((k.upd_board rfl).setRf _ _ _ _ rfl).throttleMoved _ rfl)
  | throttleHoldEnd => exact Keeps.outcome_next ((k.upd_board rfl).retargets rfl)
  | throttleUnstable => exact Keeps.outcome_next ((((((k.upd_board rfl).took rfl).setRf _ _ _ _ rfl).throttleMoved _ rfl).throttleBegan _ _ rfl).throttleEv _ rfl)
  | throttleStable => exact Keeps.row_unless (((k.upd_board rfl).throttleMoved _ rfl).throttleEv _ rfl)
  | throttleNote => exact Keeps.row_if (k.husk' _ _ _ rfl)
  | entdaa addr => exact Keeps.row_if (k.upd_board rfl)
  | i3cPrivateWrite data => exact Keeps.outcome_next (k.i3cWrite _ rfl)
  | i3cPrivateRead len => exact Keeps.row_if (k.upd_board rfl)
  | registerWrite a off data => exact Keeps.row_formed (k.registerWrite _ _ _ rfl)
  | engineCommandComplete c e n => exact keeps_engineCommandComplete _ _ _
  | descriptorPartArrival k => exact Keeps.outcome_next (k.descrArrival _ rfl)
  | meshPathLostTimeout c n => exact keeps_meshPathLostTimeout _ _
  | bypassSwitchSettled d => exact Keeps.row_unless (k.moveSwitch _ _ rfl)
  | holdUpRunOut => exact Keeps.row_unless ((k.cutShort rfl).auxOff rfl)
  | d3hotExit => exact keeps_d3hotExit
  | dimmCaseTemperature ch temp => exact keeps_dimmCaseTemperature _ _
  | ctxInvDone => exact keeps_ctxInvDone
  | bbxFetchDone => exact Keeps.row_if (k.setRf _ _ _ _ rfl)
  | svnFuseBlowDone => exact keeps_svnFuseBlowDone

/-- No command touches the queue of waiting commands, and only the loss of the always-on domain its counter. -/
theorem touchedBy_within (i : Instr) : Area.sub (touchedBy i) (.aon :: blockParts) = true := by
  cases i <;> rfl

theorem touchedBy_within_block {i : Instr} (h : i ≠ .holdUpRunOut) : Area.sub (touchedBy i) blockParts = true := by
  cases i with
  | holdUpRunOut => exact absurd rfl h
  | _ => rfl

/-- Settles O4: `keeps_exec`, whose parts say what is kept; neither the queue nor the always-on counter is listed. -/
theorem commandFrames : Obligations.CommandFrames := by
  intro i s t he
  have hk := (keeps_exec i s).kept
  rw [he] at hk
  exact ⟨hk, hk .pending fun hp => absurd (Area.mem_of_sub (touchedBy_within i) hp) (by decide),
    fun hi => hk .aon fun hp => absurd (Area.mem_of_sub (touchedBy_within_block hi) hp) (by decide)⟩

end Sys2Proof.Machine
end

section
/-! LIST_LAUNCH (R94, R95, R356): a list comes into a ready set, and its core begins to wake. -/

namespace Sys2Proof.Machine

section
variable {s : State} {c : Nat}

@[simp] theorem State.available_modCore (s : State) (c : Nat) (f : Core → Core) (d : Nat) :
    (s.modCore c f).available d = s.available d := rfl

/-- An available core that is not in C0 begins to wake; one in C0 goes on. -/
theorem State.wakeCore_core (h : s.available c = true) :
    (s.wakeCore c).core c = { s.core c with waking := (s.core c).waking || decide ((s.core c).cst ≠ .c0) } := by
  unfold State.wakeCore
  by_cases hc : (s.core c).cst = .c0
  · rw [if_neg (by simp [hc]), decide_eq_false (not_not_intro hc), Bool.or_false]
  · rw [if_pos (by simp [h, hc]), decide_eq_true hc, Bool.or_true, State.core_modCore]

theorem State.wakeCore_ne {d : Nat} (h : d ≠ c) : (s.wakeCore c).core d = s.core d := by
  unfold State.wakeCore
  split
  · exact State.core_modCore_ne h s _
  · rfl

theorem State.enterReady_core (h : s.available c = true) (e : ReadyEnt) : (s.enterReady c e).core c =
    { s.core c with ready := (s.core c).ready ++ [e], waking := (s.core c).waking || decide ((s.core c).cst ≠ .c0) } := by
  unfold State.enterReady
  rw [State.wakeCore_core (s := s.modCore c _) h, State.core_modCore]

theorem State.enterReady_ne {d : Nat} (h : d ≠ c) (e : ReadyEnt) : (s.enterReady c e).core d = s.core d :=
  (State.wakeCore_ne h).trans (State.core_modCore_ne h s _)

end

/-- A launch store that is accepted, and one that is not. -/
theorem State.launch_eq (s : State) (h c : Nat) (addr : BitVec 64) : s.launch h c addr =
    if (userHc h && s.available c && decide ((s.core c).ready.length < 16)) = true then
      (s.modCore c (fun k => { k with accepted := k.accepted + 1 })).enterReady c { addr := addr, ctx := BitVec.ofNat 16 (s.hcCtxOf h) }
    else s := rfl

/-- Settles O18: the store is counted, its list enters the set, and the core wakes; where it is not accepted the step is
the other branch of `launch`. -/
theorem listsArrive : Obligations.ListsArrive := by
  intro s h c addr ok
  have hexec : exec (.listLaunch h c addr) s = .next (s.launch h.val c.val addr) := rfl
  rw [hexec, State.launch_eq]
  refine ⟨fun hok => ?_, fun hok => congrArg _ (if_neg (ne_true_of_eq_false hok))⟩
  have hav : s.available c.val = true := by
    simp only [ok, Bool.and_eq_true] at hok
    exact hok.1.2
  refine ⟨_, hexec.trans (congrArg _ ((State.launch_eq ..).trans (if_pos hok))), ?_, fun d hd => ?_,
    (((Keeps.refl s).modCore _ _ rfl).enterReady _ _ rfl).kept⟩
  · rw [State.enterReady_core (s := s.modCore c.val _) hav, State.core_modCore]
  · exact (State.enterReady_ne hd _).trans (State.core_modCore_ne hd s _)

end Sys2Proof.Machine
end

section
/-! LIST_START (R96, R361): reading the headers moves no slot, queue or command; the chosen list starts in its slot. -/

namespace Sys2Proof.Machine

section
variable {s u v : State} {c : Nat}

/-! ### Reading the headers -/

theorem Ctl.readDev (h : Ctl u s) (r₀ ctx a n : Nat) : Ctl u (s.readDev r₀ ctx a n).s := by
  refine Ctl.foldlRd (fun r p hr => ?_) h
  have hp : Ctl u (r.s.placeNow ctx p.1 false).2 := hr.of_cores
    (((Keeps.refl (l := [.fresh, .host, .reported, .regs, .hif, .board, .husk]) r.s).placeNow ctx p.1 false (by decide)).kept .cores (by decide))
  split <;> rename_i e <;> rw [e] at hp
  · exact hp.readVia ..
  · exact hp

theorem Ctl.readHead (h : Ctl u s) (c : Nat) (e : ReadyEnt) : Ctl u (s.readHead c e).2 := by
  unfold State.readHead
  dsimp only
  split
  · have hf := h.fetchNow c e.ctx.toNat e.addr.toNat 32
    split <;> rename_i hr <;> rw [hr] at hf
    · split
      · exact hf
      · exact Ctl.itePair (fun _ => hf.readDev ..) (fun _ => hf.readDev ..)
    all_goals exact hf
  · have hf := h.fetchNow c e.ctx.toNat e.addr.toNat 64
    split
    · exact h
    · split <;> rename_i hr <;> rw [hr] at hf <;> exact hf

theorem Ctl.scanReady (c : Nat) (l : List ReadyEnt) : ∀ {s : State}, Ctl u s → Ctl u (s.scanReady c l).2 := by
  induction l with
  | nil => exact fun h => h
  | cons e l ih =>
    intro s h
    have h1 := h.readHead c e
    unfold State.scanReady
    split <;> rename_i hr <;> rw [hr] at h1
    · exact h1
    · exact h1
    · have h2 := ih h1
      split
      · rename_i hs
        rw [hs] at h2
        exact h2
      · exact h2

/-- The choice may draw from the pool of the half, and changes no core. -/
theorem State.choose_cores {l : List Cand} {x : Cand} (h : s.choose c l = some (x, v)) : v.cores = s.cores :=
  (Keeps.of_someR h ((Keeps.refl (l := [.clusters, .power]) s).choose c l (by decide))).kept .cores (by decide)

/-! ### The list starts -/

theorem Core.Steady.takeBlocks {j k : Core} (h : Core.Steady j k) (mask ctx : Nat) : Core.Steady j (k.takeBlocks mask ctx) :=
  Core.Steady.foldl (fun _ _ hk => Core.Steady.ite hk ⟨hk.1, hk.2, hk.3⟩) h

/-- The entries of the ready set are not its concern. -/
theorem Core.takeBlocks_ready (k : Core) (mask ctx : Nat) : (k.takeBlocks mask ctx).ready = k.ready := by
  unfold Core.takeBlocks
  refine List.foldlRecOn (motive := fun r : Core => r.ready = k.ready) _ _ rfl fun r hr b _ => ?_
  split <;> exact hr

theorem Core.Steady.slot {j k : Core} (h : Core.Steady j k) (i : Nat) : k.slot i = j.slot i := by
  unfold Core.slot
  rw [h.slots]

theorem Core.Steady.calm {j k : Core} (h : Core.Steady j k) (hj : j.calm) : k.calm := by
  obtain ⟨hsl, hq, hrun⟩ := h
  unfold Core.calm Core.queue Core.run Core.slot at hj ⊢
  rwa [hsl, hq, hrun]

/-- Putting a slot that waits for nothing into a calm core leaves it calm. -/
theorem Core.calm_setSlot {k : Core} (h : k.calm) (sl : Nat) {x : Slot} (hx : x.calm) : (k.setSlot sl x).calm := by
  refine ⟨h.1, h.2.1, fun j hj => ?_⟩
  by_cases e : j = sl
  · subst e
    rwa [Core.slot_setSlot]
  · rw [Core.slot_setSlot_ne e]
    exact h.2.2 j hj

/-- A list that is charged has left the ready set of its core. -/
theorem State.charge_core (s : State) (c : Nat) (e : ReadyEnt) (est : Nat) :
    ∃ cs, (s.charge c e est).core c = { s.core c with ready := (s.core c).ready.erase e, counters := cs } := by
  have hl : ∀ k y, ((s.leaveReady c e).setCluster k y).core c = { s.core c with ready := (s.core c).ready.erase e } := fun _ _ =>
    State.core_modCore s c (fun k => { k with ready := k.ready.erase e })
  unfold State.charge State.count
  rw [State.core_modCore, hl]
  exact ⟨_, rfl⟩

theorem State.charge_ne {d : Nat} (h : d ≠ c) (e : ReadyEnt) (est : Nat) : (s.charge c e est).core d = s.core d :=
  (State.core_modCore_ne h _ _).trans (State.core_modCore_ne h s (fun k => { k with ready := k.ready.erase e }))

/-- Its estimate is debited from the balance of the cluster. -/
theorem State.charge_balance (s : State) (c : Nat) (e : ReadyEnt) (est : Nat) : ((s.charge c e est).cluster (clusterOf c)).balance =
    (if 5 * (s.cluster (clusterOf c)).grant < est then -(4 * (s.cluster (clusterOf c)).grant : Int)
      else max ((s.cluster (clusterOf c)).balance - est) (-(4 * (s.cluster (clusterOf c)).grant : Int))) := by
  have hun : ∀ (y : Cluster) (d : CoreId) (a : BitVec 64), (y.unreserve d a).balance = y.balance ∧ (y.unreserve d a).grant = y.grant := by
    intro y d a
    unfold Cluster.unreserve
    dsimp only
    split <;> exact ⟨rfl, rfl⟩
  have hcl : (s.charge c e est).cluster (clusterOf c) = ((s.cluster (clusterOf c)).unreserve (coreId c) e.addr).debit est := by
    refine (State.cluster_setCluster _ _ _).trans (congrArg (Cluster.debit · est) ?_)
    exact State.cluster_setCluster _ _ _
  obtain ⟨hb, hg⟩ := hun (s.cluster (clusterOf c)) (coreId c) e.addr
  rw [hcl]
  unfold Cluster.debit Cluster.move
  split <;> simp only [hb, hg] at * <;> simp_all [max_comm, sub_eq_add_neg]

/-- The slot of a list that starts without a parameter block: Table 04-1. -/
def startSlot (x : Cand) (est : Nat) : Slot :=
  { active := true, listAddr := x.ent.addr, hdr := x.hdr, ctx := x.ent.ctx, origin := x.ent.origin, charged := est }

theorem State.beginList_eq {x : Cand} (h : hParam x.hdr = 0) (s : State) (c sl : Nat) : s.beginList c sl x =
    ((s.charge c x.ent (s.corrected c x.hdr)).setSlot c sl (startSlot x (s.corrected c x.hdr))).modCore c
      (fun k => { k.takeBlocks (hStatsMask x.hdr) x.ent.ctx.toNat with parked := false, cst := .c0 }) := by
  have hregs : ∀ l : List Nat, l.foldl (fun (y : Slot) i => y.setSreg i (BitVec.ofNat 64 (0 / 2 ^ (64 * i)))) (startSlot x (s.corrected c x.hdr)) =
      startSlot x (s.corrected c x.hdr) := by
    intro l
    refine List.foldl_fixed' (fun i => ?_) l
    rw [Nat.zero_div]
    rfl
  unfold State.beginList
  dsimp only
  rw [if_pos h]
  exact congrArg (fun y => ((s.charge c x.ent (s.corrected c x.hdr)).setSlot c sl y).modCore c
    (fun k => { k.takeBlocks (hStatsMask x.hdr) x.ent.ctx.toNat with parked := false, cst := .c0 })) (hregs _)

/-- What a list that starts without a parameter block leaves of the core: its slot, the counter of lists started, the ready
set and the statistics. -/
theorem State.beginList_core {x : Cand} (h : hParam x.hdr = 0) (s : State) (c sl : Nat) :
    ∃ k : Core, Core.Steady ((s.core c).setSlot sl (startSlot x (s.corrected c x.hdr))) k ∧ k.ready = (s.core c).ready.erase x.ent ∧
      k.parked = false ∧ (s.beginList c sl x).core c = k := by
  obtain ⟨cs, hc⟩ := State.charge_core s c x.ent (s.corrected c x.hdr)
  refine ⟨_, ?_, ?_, rfl, (congrArg (·.core c) (State.beginList_eq h s c sl)).trans (State.core_modCore ..)⟩
  · have hs := (Core.Steady.refl (((s.charge c x.ent (s.corrected c x.hdr)).setSlot c sl (startSlot x (s.corrected c x.hdr))).core c)).takeBlocks
      (hStatsMask x.hdr) x.ent.ctx.toNat
    unfold State.setSlot at hs ⊢
    rw [State.core_modCore, hc] at hs ⊢
    exact ⟨hs.1, hs.2, hs.3⟩
  · refine (Core.takeBlocks_ready ..).trans ?_
    unfold State.setSlot
    rw [State.core_modCore, hc]
    rfl

theorem State.beginList_ne {x : Cand} (h : hParam x.hdr = 0) {d : Nat} (hd : d ≠ c) (s : State) (sl : Nat) :
    (s.beginList c sl x).core d = s.core d := by
  rw [State.beginList_eq h, State.core_modCore_ne hd]
  exact (State.core_modCore_ne hd _ _).trans (State.charge_ne hd _ _)

theorem State.beginList_cluster {x : Cand} (h : hParam x.hdr = 0) (s : State) (sl k : Nat) :
    (s.beginList c sl x).cluster k = (s.charge c x.ent (s.corrected c x.hdr)).cluster k := by
  rw [State.beginList_eq h]
  rfl

/-- The step of a core that is awake and has a list to start in a free slot. -/
theorem State.listStart_begins {sl : Nat} {rest : List Nat} {l : List Cand} {x : Cand} (h0 : (s.core c).cst = .c0)
    (hdown : (s.core c).down 4 = false) (hav : s.available c = true) (hne : (s.core c).ready ≠ []) (hfree : (s.core c).freeSlots = sl :: rest)
    (hx : ∀ i, i < 4 → ((s.core c).slot i).xltFault = false) (hscan : s.scanReady c (s.core c).ready = (.all l, u))
    (hch : u.choose c (l.filter (fun y => (activeSlots (s.core c)).all (fun i => masksApart ((s.core c).slot i).hdr y.hdr))) = some (x, v))
    (hr : x.ent.restore = false) : s.listStart c = (v.beginList c sl x).afterCore c := by
  have hheld : [0, 1, 2, 3].filter (fun i => !((s.core c).slot i).active && ((s.core c).slot i).xltFault) = [] := by
    rw [List.filter_eq_nil_iff]
    intro i hi
    rw [hx i (by simp at hi; omega)]
    simp
  have hready : (s.core c).ready.filter (fun e => !(([] : List Nat).map (fun i => ((s.core c).slot i).listAddr)).contains e.addr) = (s.core c).ready := by
    simp
  unfold State.listStart
  simp only [hheld, hready, hfree, h0, hdown, hav]
  rw [List.isEmpty_eq_false_iff.mpr hne]
  simp only [hscan, hch, hr]
  rfl

end

/-- Settles O19: the headers are read, the choice falls on a list, and that list starts (`State.beginList_core`); on a core
where nothing waits nothing else goes on. -/
theorem listsStart : Obligations.ListsStart := by
  intro s u v c sl rest l x k hcalm h0 hdown hav hne hfree hxlt hscan hch hr hp
  have hctl : Ctl s u := by
    have := Ctl.scanReady c.val k.ready (Ctl.refl s)
    rwa [hscan] at this
  have hcalm' : (v.core c.val).calm := (hctl.of_cores (State.choose_cores hch)).calm hcalm
  obtain ⟨y, hy, hready, hparked, hcore⟩ := State.beginList_core hp v c.val sl
  have hend : (v.beginList c.val sl x).afterCore c.val = v.beginList c.val sl x := by
    refine State.afterCore_calm ?_
    rw [hcore]
    exact hy.calm (Core.calm_setSlot hcalm' sl ⟨trivial, fun h => absurd h Bool.false_ne_true⟩)
  have hstep : exec (.listStart c) s = .next (v.beginList c.val sl x) :=
    congrArg Host.Outcome.next ((State.listStart_begins h0 hdown hav hne hfree hxlt hscan hch hr).trans hend)
  refine ⟨_, hstep, ?_, fun j hj => ?_, ?_, ?_, fun d hd => State.beginList_ne hp hd v sl, ?_⟩
  · unfold State.slot
    rw [hcore, hy.slot, Core.slot_setSlot]
    rfl
  · unfold State.slot
    rw [hcore, hy.slot, Core.slot_setSlot_ne hj]
  · rw [hcore, hready]
  · rw [hcore, hparked]
  · rw [State.beginList_cluster hp, State.charge_balance]

end Sys2Proof.Machine
end

section
/-! COMMAND_FETCH (R98) of a list whose address is no multiple of 32. -/

namespace Sys2Proof.Machine

/-- A list of 64 commands at 31 bytes past a multiple of 32, its command 0 in the last 512 bytes before host memory and its
commands from 30 on in host memory; the program counter stands at command 29, which is a NOP in the buffer. -/
def unalignedList : Slot :=
  { active := true, listAddr := 0x20000000000000 - 512 + 31 - 64, hdr := BitVec.ofNat 512 (64 * 2 ^ 32), ctx := 7, pc := 29, buf := [(29, 0)] }

/-- That list on core 0, which has a translation of the page in host memory, but none of the page before it, whose walk is
under way. -/
def unalignedFetch : State :=
  { State.reset with cores := [(0, { slots := [(0, unalignedList)], tlbSeq := [{ ctx := 7, vpn := 0x2000000000, phys := 0x40000000, writable := true }]
                                     walks := [(1, {})] })] }

theorem unalignedFetch_slot : unalignedFetch.slot 0 0 = unalignedList := by decide +kernel

/-- The block said to hold command 0 holds commands 30 to 45 only. -/
theorem unalignedList_block : blockOffsets unalignedList 0 = [30, 31, 32, 33, 34, 35, 36, 37, 38, 39, 40, 41, 42, 43, 44, 45] := by decide +kernel

theorem unalignedList_nextFetch : unalignedList.nextFetch = some 30 := by decide +kernel

theorem unalignedList_stands : unalignedList.stands unalignedList.pc.toNat := stands_of (by decide +kernel)

theorem unalignedFetch_calm : (unalignedFetch.core 0).calm := calm_of_still (by decide +kernel)

/-- The commands of the block lie in host memory whose translation is held. -/
theorem unalignedFetch_host : ∀ o ∈ blockOffsets unalignedList 0,
    ∃ a, placeOf (unalignedFetch.core 0).tlbSeq unalignedList.ctx.toNat (unalignedList.listAddr.toNat + 64 + 32 * o) false = .at (.host a) := by
  have hall : (blockOffsets unalignedList 0).all (fun o =>
      match placeOf (unalignedFetch.core 0).tlbSeq unalignedList.ctx.toNat (unalignedList.listAddr.toNat + 64 + 32 * o) false with
      | .at (.host _) => true
      | _ => false) = true := by decide +kernel
  intro o ho
  have := List.all_eq_true.mp hall o ho
  split at this
  · exact ⟨_, ‹_›⟩
  · exact absurd this Bool.false_ne_true

/-- The translation of command 0 is not held, so nothing is fetched: its walk is under way. -/
theorem unalignedFetch_kept (hostErr : Bool) : unalignedFetch.fetchBlock 0 0 0 hostErr = unalignedFetch := by
  have hmiss : placeOf (unalignedFetch.core 0).tlbSeq (unalignedFetch.slot 0 0).ctx.toNat
      ((unalignedFetch.slot 0 0).listAddr.toNat + 64 + 32 * 0) false = .miss := by
    rw [unalignedFetch_slot]
    rfl
  have hwalk : (unalignedFetch.core 0).walks.any (fun e => e.1 = 0 + 1) = true := by decide +kernel
  unfold State.fetchBlock
  dsimp only
  rw [hmiss]
  exact if_pos hwalk

theorem exec_commandFetch_unaligned (hostErr : Bool) : exec (.commandFetch 0 0 0 hostErr) unalignedFetch = .next unalignedFetch := by
  have hsettle : unalignedFetch.settlePc 0 0 = unalignedFetch := State.settlePc_stands (by
    rw [unalignedFetch_slot]
    exact unalignedList_stands)
  have hgo : ((unalignedFetch.fetchBlock 0 0 0 hostErr).settlePc 0 0).afterCore 0 = unalignedFetch := by
    rw [unalignedFetch_kept, hsettle, State.afterCore_calm unalignedFetch_calm]
  refine congrArg Host.Outcome.next (Eq.trans (if_pos ?_) hgo)
  decide +kernel

/-- Refutes O20, in its clause on a host that answers with an error: a list address that is no multiple of 32 puts the
command that was asked for outside the block that its offset names. In `unalignedFetch` that command has no translation
while the block's commands have, so nothing is fetched and none of them is marked as failed. -/
theorem not_commandsFetched : ¬ Obligations.CommandsFetched := by
  unfold Obligations.CommandsFetched
  intro h
  obtain ⟨-, hdue⟩ := h unalignedFetch 0 0 0 true
  have hslot : unalignedFetch.slot (0 : CoreId).val (0 : SlotId).val = unalignedList := unalignedFetch_slot
  rw [hslot] at hdue
  obtain ⟨-, herr, -⟩ := hdue ⟨rfl, rfl, rfl, by decide +kernel, by decide +kernel, 30, by decide +kernel, unalignedList_nextFetch⟩
    unalignedFetch_calm (fun _ => unalignedList_stands)
  obtain ⟨t, ht, -, hbad⟩ := herr rfl (by decide +kernel) unalignedFetch_host
  have e : t = unalignedFetch := by
    rw [exec_commandFetch_unaligned, Host.Outcome.next.injEq] at ht
    exact ht.symm
  have hmem := (hbad 30 (by decide +kernel)).2
  rw [e, hslot] at hmem
  exact absurd hmem (List.not_mem_nil)

end Sys2Proof.Machine
end

section
/-! The completion of a command whose token does not fit (R102, R115), in a slot that is told to stop but does not drain. -/

namespace Sys2Proof.Machine

/-- Slot 0 of core 0 is neither free nor draining. -/
def goesOn (t : State) : Bool := decide (t.slot 0 0 ≠ {}) && !(t.slot 0 0).draining

theorem goesOn_of_next {i : Instr} {s t : State} (h : tNext i s goesOn = true) (ht : exec i s = .next t) :
    ¬ (t.slot 0 0 = {} ∨ (t.slot 0 0).draining = true) := by
  unfold tNext at h
  rw [ht] at h
  simp only [goesOn, Bool.and_eq_true, decide_eq_true_eq, Bool.not_eq_true'] at h
  obtain ⟨hslot, hdrain⟩ := h
  rintro (hfree | hd)
  · exact hslot hfree
  · exact absurd (hdrain.symm.trans hd) Bool.false_ne_true

/-- An MMA that posts token 3. -/
def postingMma : QEnt := { w := tWord [(0, 0x20), (13, 1), (14, 3)] }

/-- A slot whose token 3 is full; it has recorded a stop, and it does not drain. -/
def stoppingSlot : Slot := { active := true, stopping := some (stIllegal, {}), toks := [(3, 0xFFFF)] }

/-- Core 0 executes that MMA, and a vector command of the same slot. -/
def stoppingCore : State := { State.reset with cores := [(0, { slots := [(0, stoppingSlot)], running := [(0, [postingMma]), (1, [{}])] })] }

theorem stoppingCore_calm : (stoppingCore.core 0).calm := calm_of_still (by decide +kernel)

/-- The MMA completes: a stop is recorded already, so the slot neither begins to drain nor ends. -/
theorem stoppingCore_goes_on :
    tNext (.tileComplete 0 0) stoppingCore goesOn = true := by decide +kernel

/-- Refutes O21, in its clause on a token that does not fit: in `stoppingCore`, whose slot has recorded a stop and does not
drain, the slot is neither free nor draining after the completion. -/
theorem not_enginesComplete : ¬ Obligations.EnginesComplete := by
  unfold Obligations.EnginesComplete
  intro h
  obtain ⟨htile, -⟩ := h stoppingCore 0
  obtain ⟨-, hdone⟩ := htile 0
  obtain ⟨-, hstop⟩ := hdone postingMma (by decide +kernel)
  obtain ⟨t, ht, hor⟩ := hstop stoppingCore_calm (by decide +kernel) (by decide +kernel) (by decide +kernel) (fun _ => rfl)
  exact goesOn_of_next stoppingCore_goes_on ht hor

end Sys2Proof.Machine
end

section
/-! A command for an engine whose token does not fit (R102, R115), in a slot that is told to stop but does not drain. -/

namespace Sys2Proof.Machine

/-- An RSPILL of no entries that posts token 3. -/
def postingSpill : Cmd := tWord [(0, 0x45), (13, 1), (14, 3)]

/-- Core 0 executes an MMA of slot 0, whose token 3 is full and which has recorded a stop, but does not drain. -/
def stoppingHead : State :=
  tState { cst := .c0, slots := [(0, { tSlot with stopping := some (stIllegal, {}), toks := [(3, 0xFFFF)] })], running := [(0, [{}])] }

theorem stoppingHead_ready : HeadReady spillInfo stoppingHead 0 0 postingSpill := headReady_of (by decide +kernel)

/-- A command completes at once, and its token does not fit. -/
def finDoesNotFit (c : CoreId) : Start → Bool
  | .fin t q => ((t.slot c.val q.slot.val).posted q.w).isNone
  | _ => false

/-- Such a command is said to stop its slot. -/
theorem Comes.stops {i : Instr} {s : State} {c : CoreId} {sl : SlotId} {e : Nat} {off : BitVec 32} {r : Start} (h : Comes i s c sl e off r)
    (hr : finDoesNotFit c r = true) : ∃ t, Stops i s c sl e off t stIllegal 0 := by
  cases r with
  | fin t q =>
    have hnone : ((t.slot c.val q.slot.val).posted q.w).isNone = true := hr
    have hsome : ¬ ((t.slot c.val q.slot.val).posted q.w).isSome = true := by
      rw [Option.isNone_iff_eq_none.mp hnone]
      exact Bool.false_ne_true
    exact ⟨t, by simpa only [Comes, if_neg hsome] using h⟩
  | _ => exact absurd hr Bool.false_ne_true

theorem stoppingHead_fin : finDoesNotFit 0 (stoppingHead.starting spillInfo 0 0 postingSpill) = true := by decide +kernel

/-- A stop is recorded already and the MMA is in execution, so the slot neither begins to drain nor ends. -/
theorem stoppingHead_goes_on :
    tNext (.rspill 0 0 postingSpill) stoppingHead goesOn = true := by decide +kernel

/-- Refutes O24, in its clause on a token that does not fit: in `stoppingHead`, whose slot has recorded a stop and does not
drain, the slot is neither free nor draining after the command. -/
theorem not_engineCommandsStart : ¬ Obligations.EngineCommandsStart := by
  unfold Obligations.EngineCommandsStart
  intro h
  obtain ⟨hcomes, -⟩ := h (.rspill 0 0 postingSpill) stoppingHead 0 0 postingSpill spillInfo 0x45 rfl (by decide +kernel)
  obtain ⟨u, t, ht, hor, -⟩ := (hcomes (by decide) stoppingHead_ready).stops stoppingHead_fin
  exact goesOn_of_next stoppingHead_goes_on ht (hor.imp_right And.left)

end Sys2Proof.Machine
end

section
/-! An engine's head that takes its token and completes, where the token that it posts does not fit (R101, R102), in a slot
that is told to stop but does not drain. -/

namespace Sys2Proof.Machine

/-- An RSPILL of no entries that waits for token 1 and posts token 3, at the head of the row queue. -/
def waitingSpill : QEnt := { w := tWord [(0, 0x45), (8, 1), (9, 1), (13, 1), (14, 3)], tokenWait := true }

/-- Token 1 of slot 0 is there and its token 3 is full; the slot, which has a command in execution, has recorded a stop and
does not drain. -/
def stoppingWait : State :=
  tState { cst := .c0, slots := [(0, { tSlot with stopping := some (stIllegal, {}), toks := [(1, 1), (3, 0xFFFF)] })]
           queues := [(2, [waitingSpill])], running := [(0, [{}])] }

/-- The row engine's head is the only command that waits on the core. -/
theorem stoppingWait_alone : (∀ f, f < 4 → f ≠ 2 → (stoppingWait.core 0).queue f = []) ∧
    (∀ p ∈ (stoppingWait.core 0).run 3, p.await ≠ [dmUnsent]) ∧ ∀ j, j < 4 → ((stoppingWait.core 0).slot j).calm := by
  refine ⟨by decide +kernel, by decide +kernel, ?_⟩
  have hcalm : ({ stoppingWait.core 0 with queues := [] } : Core).calm := calm_of_still (by decide +kernel)
  exact hcalm.2.2

/-- A stop is recorded already and another command is in execution, so the slot neither begins to drain nor ends. -/
theorem stoppingWait_goes_on :
    tNext (.tokenWaitRelease 0 .row 0) stoppingWait goesOn = true := by decide +kernel

/-- Refutes O22, in its clause on a head whose token is there: in `stoppingWait` the head takes its token and completes, the
token that it posts does not fit, and its slot, which has recorded a stop and does not drain, is neither free nor draining
after it. -/
theorem not_enginesWait : ¬ Obligations.EnginesWait := by
  unfold Obligations.EnginesWait
  intro h
  obtain ⟨-, hrelease, -⟩ := h stoppingWait 0
  obtain ⟨-, hhead⟩ := hrelease .row 0 (by decide)
  have hcomes := hhead waitingSpill (by decide +kernel) stoppingWait_alone (by decide +kernel) rfl rfl (by decide +kernel) rfl rfl
    (by decide +kernel) (by decide +kernel)
  obtain ⟨u, t, ht, hor, -⟩ := Comes.stops hcomes (by decide +kernel)
  exact goesOn_of_next stoppingWait_goes_on ht (hor.imp_right And.left)

end Sys2Proof.Machine
end

section
/-! The registers of the matrix engine (R121, R123, R138, R141, R144, R145): what MSD, MLD, MREL and MMOVE leave in them. -/

namespace Sys2Proof.Machine

/-! ### Fields of packed numbers -/

theorem fld_ofNat {n h l x : Nat} (hl : l ≤ h) (hn : h < n) : fld (BitVec.ofNat n x) h l = x / 2 ^ l % 2 ^ (h - l + 1) := by
  apply Nat.eq_of_testBit_eq
  intro i
  rw [fld_testBit, Nat.testBit_mod_two_pow, Nat.testBit_div_two_pow]
  unfold bit
  rw [BitVec.getLsbD_ofNat]
  by_cases hi : i < h - l + 1
  · simp [hi, show l + i < n by omega, Nat.add_comm]
  · simp [hi]

/-- A field within the one that is written. -/
theorem fld_setFld_sub {n : Nat} (w : BitVec n) {hi lo h l : Nat} (v : Nat) (hn : hi < n) (h1 : lo ≤ l) (h2 : l ≤ h) (h3 : h ≤ hi) :
    fld (setFld w hi lo v) h l = v / 2 ^ (l - lo) % 2 ^ (h - l + 1) := by
  apply Nat.eq_of_testBit_eq
  intro i
  rw [fld_testBit, Nat.testBit_mod_two_pow, Nat.testBit_div_two_pow]
  by_cases hi' : i < h - l + 1
  · rw [bit_setFld w v _ (by omega) hn, if_pos (by omega), show l + i - lo = i + (l - lo) by omega]
  · simp [hi']

theorem pack_elem (n : Nat) (l : List Nat) (i : Nat) (hi : i < l.length) : packElems n l / 2 ^ (n * i) % 2 ^ n = l[i] % 2 ^ n := by
  induction l generalizing i with
  | nil => exact absurd hi (Nat.not_lt_zero i)
  | cons a l ih =>
    show (a % 2 ^ n + 2 ^ n * packElems n l) / 2 ^ (n * i) % 2 ^ n = _
    cases i with
    | zero => simp
    | succ i =>
      rw [Nat.mul_succ, Nat.add_comm (n * i), pow_add, ← Nat.div_div_eq_div_mul, Nat.add_mul_div_left _ _ (by positivity),
        Nat.div_eq_of_lt (Nat.mod_lt _ (by positivity)), Nat.zero_add]
      exact ih i (by simpa using hi)

/-- Elements of 32 bits packed in a vector register read back. -/
theorem vElem_packElems (l : List Nat) {i : Nat} (hi : i < l.length) (hn : i < 1024) :
    vElem (BitVec.ofNat 32768 (packElems 32 l)) 32 i = l[i] % 2 ^ 32 := by
  unfold vElem
  rw [fld_ofNat (by omega) (by omega), show 32 * i + 32 - 1 - 32 * i + 1 = 32 by omega]
  exact pack_elem 32 l i hi

theorem leNat_byte (l : List Byte) (j : Nat) (hj : j < l.length) : leNat l / 2 ^ (8 * j) % 2 ^ 8 = l[j].toNat := by
  induction l generalizing j with
  | nil => exact absurd hj (Nat.not_lt_zero j)
  | cons b l ih =>
    have hb := b.isLt
    rw [leNat]
    cases j with
    | zero => simp; omega
    | succ j =>
      rw [Nat.mul_succ, Nat.add_comm (8 * j), pow_add, ← Nat.div_div_eq_div_mul,
        show (b.toNat + 256 * leNat l) / 2 ^ 8 = leNat l by omega]
      exact ih j (by simpa using hj)

/-! ### A start that changes a slot -/

section
variable {o : OpInfo} {s t d : State} {c : CoreId} {sl : SlotId} {w : Cmd}

/-- A command that its engine can take at once and that starts is in execution, where its start leaves the queues alone and
no slot waiting. -/
theorem State.engCmd_starts {q' : QEnt} (h : HeadReady o s c sl w)
    (hg : startOn (s.headState o c sl w) c.val o.engine (s.headEntry o c sl w) = .go t q')
    (hqs : ∀ f, (t.core c.val).queue f = ((s.headState o c sl w).core c.val).queue f)
    (hsl : ∀ j, j < 4 → ((t.core c.val).slot j).calm) (hw : cOpc q'.w ≠ 0x5A) : s.engCmd c sl w o = t.launched c.val o.engine q' := by
  obtain ⟨cs, ms, hd⟩ := State.dispatched_core s o c sl w
  obtain ⟨-, -, hq, ho⟩ := State.headState_core s o c sl w
  obtain ⟨hempty, hrun, -⟩ := h.calm
  have hp : (s.dispatched o c sl w).pump c.val = t.launched c.val o.engine q' := by
    refine State.pump_launch h.engine ?_ ?_ ?_ ?_ (State.headToken_ready h) rfl hg hw ?_ ?_
    · intro x hx
      rw [hd] at hx
      exact hrun x hx
    · rw [hd]
      simp
    · intro f hf hne
      rw [hd]
      simp [Core.queue_setQueue_ne hne, hempty f hf]
    · rw [hd]
      exact h.up
    · rw [hqs, hq]
    · intro f hf hne
      rw [hqs, ho f hne]
      exact hempty f hf
  unfold State.engCmd State.afterCore
  rw [State.dispatchTo_ready h, hp]
  refine State.releaseAll_none _ fun j hj => ?_
  obtain ⟨ms, hm⟩ := State.enters_core t c.val o.engine
  unfold State.launched
  rw [State.core_modCore, hm]
  exact hsl j (by simp at hj; omega)

/-- The slots of a core wait for nothing once a command has been dispatched to an idle engine. -/
theorem HeadReady.slot_calm (h : HeadReady o s c sl w) {j : Nat} (hj : j < 4) : (((s.headState o c sl w).core c.val).slot j).calm :=
  ((State.headState_core s o c sl w).2.1 j).calm (h.calm.2.2 j hj)

/-- The sequencer has served the slot of the command. -/
theorem State.headState_served (s : State) (o : OpInfo) (c : CoreId) (sl : SlotId) (w : Cmd) :
    ((s.headState o c sl w).core c.val).served = sl.val := by
  obtain ⟨cs, ms, hd⟩ := State.dispatched_core s o c sl w
  unfold State.headState
  dsimp only
  split
  · unfold State.setSlot
    rw [State.core_modCore, State.core_modCore, hd]
    rfl
  · rw [hd]
    rfl

/-! ### MSD -/

theorem exec_msd (h : opcIs w 0x22 = true) (c : CoreId) (sl : SlotId) (s : State) :
    exec (.msd c sl w) s = .next (s.engCmd c sl w msdInfo) := if_pos h

theorem OnlySlot.modSlot (hd : (d.core c.val).served = sl.val) (f : Slot → Slot) : OnlySlot c sl d (d.modSlot c.val sl.val f) := by
  have hcore : (d.modSlot c.val sl.val f).core c.val = (d.core c.val).setSlot sl.val (f (d.slot c.val sl.val)) := State.core_modCore ..
  refine ⟨((Keeps.refl d).modSlot _ _ _ rfl).kept, fun x hx => State.core_modCore_ne hx d _, fun j hj => ?_, ?_⟩
  · unfold State.slot
    rw [hcore, Core.slot_setSlot_ne hj]
  · rw [hcore, ← hd]
    exact ⟨_, _, _, rfl⟩

/-- The slot once MSD has written its stream descriptor, with the valid mark. -/
def Slot.described (x : Slot) (r : Cmd) : Slot := { x with sds := KV.put 0 x.sds (fld r 35 32) (BitVec.ofNat 109 (fld r 139 32 + 2 ^ 108)) }

theorem Slot.calm_sds {x : Slot} (h : x.calm) (m : KV (BitVec 109)) : ({ x with sds := m } : Slot).calm := h

theorem Slot.calm_described {x : Slot} (h : x.calm) (r : Cmd) : (x.described r).calm := Slot.calm_sds h _

theorem msd_starts (hop : opcIs w 0x22 = true) (hr : HeadReady msdInfo s c sl w) :
    let d := s.headState msdInfo c sl w
    Starts (.msd c sl w) msdInfo s c (fun t q => q = s.headEntry msdInfo c sl w ∧ OnlySlot c sl d t ∧
      t.slot c.val sl.val = (d.slot c.val sl.val).described (resolved msdInfo s c sl w)) := by
  intro d
  let t := d.modSlot c.val sl.val (·.described (resolved msdInfo s c sl w))
  have hopc := State.headEntry_opc (o := msdInfo) (by decide) hop s c sl
  have hgo : startOn d c.val msdInfo.engine (s.headEntry msdInfo c sl w) = .go t (s.headEntry msdInfo c sl w) := by
    show startMatrix _ _ _ = _
    unfold startMatrix
    rw [hopc]
    rfl
  have hcore : t.core c.val = (d.core c.val).setSlot sl.val ((d.slot c.val sl.val).described (resolved msdInfo s c sl w)) := State.core_modCore ..
  have hcmd := State.engCmd_starts hr hgo (fun f => by rw [hcore]; rfl) (fun j hj => by
    rw [hcore]
    by_cases e : j = sl.val
    · subst e
      rw [Core.slot_setSlot]
      exact Slot.calm_described (hr.slot_calm hj) _
    · rw [Core.slot_setSlot_ne e]
      exact hr.slot_calm hj) (by rw [hopc]; decide)
  refine ⟨t, _, by rw [exec_msd hop, hcmd], rfl, OnlySlot.modSlot (State.headState_served ..) _, ?_⟩
  unfold State.slot
  rw [hcore, Core.slot_setSlot]
  rfl

/-! ### Reads, and then a register -/

/-- Reads of sound ranges and a change of core c that looks at neither its unread marks nor its counters. -/
theorem RegsOnly.modCore {k : Core} {f : Core → Core} (h : RegsOnly c k d t)
    (hf : ∀ un cs, ∃ un' cs', f { k with unread := un, counters := cs } = { f k with unread := un', counters := cs' }) :
    RegsOnly c (f k) d (t.modCore c.val f) := by
  obtain ⟨⟨⟨un, cs, hk⟩, ho⟩, hkept⟩ := h
  refine ⟨⟨?_, fun x hx => (State.core_modCore_ne hx t f).trans (ho x hx)⟩, hkept.trans ((Keeps.refl t).modCore _ _ rfl).kept⟩
  rw [State.core_modCore, hk]
  exact hf un cs

/-! ### MLD -/

theorem exec_mld (h : opcIs w 0x23 = true) (c : CoreId) (sl : SlotId) (s : State) :
    exec (.mld c sl w) s = .next (s.engCmd c sl w mldInfo) := if_pos h

/-- Rows of n bytes laid over a register, `span` bytes from one to the next. -/
def layRows (span n : Nat) (row : Nat → List Byte) (old : BitVec 16384) (rows : Nat) : BitVec 16384 :=
  (List.range rows).foldl (fun v l => setFld v (8 * (l * span + n) - 1) (8 * (l * span)) (leNat (row l))) old

theorem layRows_succ (span n : Nat) (row : Nat → List Byte) (old : BitVec 16384) (m : Nat) : layRows span n row old (m + 1) =
    setFld (layRows span n row old m) (8 * (m * span + n) - 1) (8 * (m * span)) (leNat (row m)) := by
  unfold layRows
  rw [List.range_succ, List.foldl_append]
  rfl

/-- A byte of a row comes from that row; a byte past it is as it was. -/
theorem layRows_byte {span n : Nat} {row : Nat → List Byte} {old : BitVec 16384} {m : Nat} (hn : 0 < n) (hs : n ≤ span) (hm : m * span ≤ 2048)
    (hlen : ∀ l, (row l).length = n) (l j : Nat) (hj : j < span) :
    fld (layRows span n row old m) (8 * (l * span + j) + 7) (8 * (l * span + j)) =
      if l < m ∧ j < n then ((row l).getD j 0).toNat else fld old (8 * (l * span + j) + 7) (8 * (l * span + j)) := by
  induction m with
  | zero => simp [layRows]
  | succ m ih =>
    rw [Nat.succ_mul] at hm
    have hih := ih (by omega)
    rw [layRows_succ]
    by_cases hlm : l = m
    · subst hlm
      by_cases hjn : j < n
      · rw [fld_setFld_sub _ _ (by omega) (by omega) (by omega) (by omega), if_pos ⟨by omega, hjn⟩,
          show 8 * (l * span + j) - 8 * (l * span) = 8 * j by omega, show 8 * (l * span + j) + 7 - 8 * (l * span + j) + 1 = 8 by omega,
          leNat_byte _ _ (by rw [hlen]; exact hjn), List.getD_eq_getElem _ _ (by rw [hlen]; exact hjn)]
      · rw [fld_setFld_ne _ _ (by omega) (by omega) (.inr (by omega)), hih, if_neg (by omega), if_neg (by omega)]
    · have hapart : 8 * (l * span + j) + 7 < 8 * (m * span) ∨ 8 * (m * span + n) - 1 < 8 * (l * span + j) := by
        rcases Nat.lt_or_gt_of_ne hlm with h | h
        · have := Nat.mul_le_mul_right span (Nat.succ_le_of_lt h)
          rw [Nat.succ_mul] at this
          omega
        · have := Nat.mul_le_mul_right span (Nat.succ_le_of_lt h)
          rw [Nat.succ_mul] at this
          omega
      rw [fld_setFld_ne _ _ (by omega) (by omega) (hapart.imp_left fun h => ⟨h, by omega⟩), hih]
      refine if_congr ?_ rfl rfl
      omega

/-- Among pieces of n bytes of the slabs, the piece at an address. -/
theorem pieceAt_pieces {l : List (Nat × Nat)} {a n : Nat} (hall : ∀ r ∈ l, r.2 = n) (ha : (a, n) ∈ l) :
    pieceAt (d.pieces c l) a n = d.bytes (slabKey c.val a) n := by
  unfold pieceAt
  split
  · rename_i p hp
    have hfit : p.1 ≤ a ∧ a + n ≤ p.1 + p.2.length := by simpa using List.find?_some hp
    obtain ⟨r, hr, rfl⟩ := List.mem_map.mp (List.mem_of_find?_eq_some hp)
    rw [hall r hr, State.bytes_length] at hfit
    obtain rfl : r.1 = a := by omega
    rw [hall r hr, Nat.sub_self, List.drop_zero, State.bytes_take _ _ _ _ (Nat.le_refl n)]
  · rename_i hp
    refine absurd (List.find?_eq_none.mp hp (a, d.bytes (slabKey c.val a) n) (List.mem_map.mpr ⟨_, ha, rfl⟩)) ?_
    simp [State.bytes_length]

theorem rowsOfCode_pos (rc : Nat) : 0 < rowsOfCode rc := by
  unfold rowsOfCode
  match rc with
  | 0 | 1 | 2 | 3 => decide
  | _ + 4 => exact Nat.zero_lt_succ 31

/-- Bytes of a row of a load, its source rows, and the load's value and tag. -/
def mldBytes (w : Cmd) : Nat := fld w 51 41 * laneBytes (fld w 38 35)
def mldSrc (w : Cmd) (l : Nat) : Nat := fld w 72 52 + l * fld w 90 73
def mldRanges (w : Cmd) : List (Nat × Nat) := (List.range (rowsOfCode (fld w 40 39))).map (fun l => (mldSrc w l, mldBytes w))
def mldTag (w : Cmd) : BitVec 128 :=
  mkTag 0 (fld w 38 35) (rowsOfCode (fld w 40 39)) (fld w 51 41) (rowsOfCode (fld w 40 39)) (scv := bit w 112) (sbase := fld w 111 91)
def State.mldValue (d : State) (c : CoreId) (w : Cmd) : BitVec 16384 :=
  layRows (2048 / rowsOfCode (fld w 40 39)) (mldBytes w) (fun l => pieceAt (d.pieces c (mldRanges w)) (mldSrc w l) (mldBytes w))
    ((d.core c.val).xreg (fld w 34 32)) (rowsOfCode (fld w 40 39))

theorem Core.setX_counted (k : Core) (n : Nat) (v : BitVec 16384) (t : BitVec 128) (un : KV Bool) (cs : KV (BitVec 64)) :
    ({ k with unread := un, counters := cs } : Core).setX n v t = { k.setX n v t with unread := un, counters := cs } := rfl

/-- A load that fits, into a register that is not loading, from sound bytes. -/
theorem startMld_loads {q : QEnt} (hload : tLoading ((d.core c.val).tag (tagX (fld q.w 34 32))) = false)
    (hcap : rowsOfCode (fld q.w 40 39) * mldBytes q.w ≤ 2048) (hsound : d.soundAll c (mldRanges q.w) = true) :
    ∃ t, startMld d c.val q = .go t q ∧ RegsOnly c ((d.core c.val).setX (fld q.w 34 32) (d.mldValue c q.w) (mldTag q.w)) d t := by
  obtain ⟨u, hu, hregs⟩ := State.engReads_sound ((d.core c.val).slot q.slot.val).ctx.toNat _ d hsound
  refine ⟨_, ?_, hregs.modCore (f := fun k => k.setX (fld q.w 34 32) (d.mldValue c q.w) (mldTag q.w)) fun un cs => ⟨un, cs, Core.setX_counted ..⟩⟩
  have hspace : (List.range (rowsOfCode (fld q.w 40 39))).all (fun l => inSlabSpace (mldSrc q.w l) (mldBytes q.w)) = true := by
    refine List.all_eq_true.mpr fun l hl => ?_
    have := List.all_eq_true.mp hsound (mldSrc q.w l, mldBytes q.w) (List.mem_map.mpr ⟨l, hl, rfl⟩)
    exact (Bool.and_eq_true_iff.mp this).1
  unfold mldRanges mldBytes mldSrc at hu
  unfold mldBytes mldSrc at hspace
  unfold mldBytes at hcap
  unfold startMld
  dsimp only
  rw [if_neg (by rw [hload]; exact Bool.false_ne_true), if_neg (by rw [hspace, Nat.mul_assoc]; simpa using hcap)]
  rw [hu]
  dsimp only
  rw [if_neg (not_not_intro rfl)]
  rfl

theorem mld_starts (hop : opcIs w 0x23 = true) (hr : HeadReady mldInfo s c sl w) :
    let d := s.headState mldInfo c sl w
    let r := resolved mldInfo s c sl w
    tLoading ((d.core c.val).tag (tagX (fld r 34 32))) = false → rowsOfCode (fld r 40 39) * mldBytes r ≤ 2048 →
    d.soundAll c (mldRanges r) = true →
    Starts (.mld c sl w) mldInfo s c (fun t q => q = s.headEntry mldInfo c sl w ∧
      RegsOnly c ((d.core c.val).setX (fld r 34 32) (d.mldValue c r) (mldTag r)) d t) := by
  intro d r hload hcap hsound
  have hopc := State.headEntry_opc (o := mldInfo) (by decide) hop s c sl
  obtain ⟨t, ht, hregs⟩ := startMld_loads (d := d) (c := c) (q := s.headEntry mldInfo c sl w) hload hcap hsound
  have hgo : startOn d c.val mldInfo.engine (s.headEntry mldInfo c sl w) = .go t (s.headEntry mldInfo c sl w) := by
    show startMatrix _ _ _ = _
    unfold startMatrix
    rw [hopc]
    exact ht
  exact Starts.of_go (exec_mld hop c sl s) hr hgo (Ctl.of_start_go ht ((Ctl.refl d).startMld c.val _)) (by rw [hopc]; decide) ⟨rfl, hregs⟩

/-- The bytes of a loaded register: those of each row in its place, and the register's own past them. -/
theorem State.mldValue_byte {r : Cmd} (hn : 0 < mldBytes r) (hcap : rowsOfCode (fld r 40 39) * mldBytes r ≤ 2048) (d : State) (c : CoreId)
    {l : Nat} (hl : l < rowsOfCode (fld r 40 39)) {j : Nat} (hj : j < 2048 / rowsOfCode (fld r 40 39)) :
    fld (d.mldValue c r) (8 * (l * (2048 / rowsOfCode (fld r 40 39)) + j) + 7) (8 * (l * (2048 / rowsOfCode (fld r 40 39)) + j)) =
      if j < mldBytes r then (d.byte (slabKey c.val (mldSrc r l + j))).toNat
      else fld ((d.core c.val).xreg (fld r 34 32)) (8 * (l * (2048 / rowsOfCode (fld r 40 39)) + j) + 7)
        (8 * (l * (2048 / rowsOfCode (fld r 40 39)) + j)) := by
  have hpos := rowsOfCode_pos (fld r 40 39)
  have hspan : mldBytes r ≤ 2048 / rowsOfCode (fld r 40 39) := (Nat.le_div_iff_mul_le hpos).mpr (by rwa [Nat.mul_comm])
  have hrow : ∀ l < rowsOfCode (fld r 40 39), pieceAt (d.pieces c (mldRanges r)) (mldSrc r l) (mldBytes r) =
      d.bytes (slabKey c.val (mldSrc r l)) (mldBytes r) := fun l hl =>
    pieceAt_pieces (fun p hp => by obtain ⟨i, -, rfl⟩ := List.mem_map.mp hp; rfl) (List.mem_map.mpr ⟨l, List.mem_range.mpr hl, rfl⟩)
  have hlen : ∀ l, (pieceAt (d.pieces c (mldRanges r)) (mldSrc r l) (mldBytes r)).length = mldBytes r := fun l => by
    unfold pieceAt
    split
    · rename_i p hp
      have hfit : p.1 ≤ mldSrc r l ∧ mldSrc r l + mldBytes r ≤ p.1 + p.2.length := by simpa using List.find?_some hp
      rw [List.length_take, List.length_drop]
      omega
    · exact List.length_replicate
  unfold State.mldValue
  rw [layRows_byte hn hspan (Nat.mul_div_le 2048 _) hlen l j hj]
  by_cases hjn : j < mldBytes r
  · rw [if_pos ⟨hl, hjn⟩, if_pos hjn, hrow l hl, List.getD_eq_getElem _ _ (by rw [State.bytes_length]; exact hjn), State.bytes_getElem,
      show slabKey c.val (mldSrc r l) + j = slabKey c.val (mldSrc r l + j) from Nat.add_assoc ..]
  · rw [if_neg (fun h => hjn h.2), if_neg hjn]

/-- A legal load has at least one byte in a row. -/
theorem mldBytes_pos (hr : HeadReady mldInfo s c sl w) : 0 < mldBytes (resolved mldInfo s c sl w) := by
  have hlegal : mldInfo.legal (resolved mldInfo s c sl w) = true := by
    have := hr.ready.2.2
    unfold OpInfo.within at this
    exact (Bool.and_eq_true_iff.mp this).2
  simp only [mldInfo, Bool.and_eq_true, decide_eq_true_eq] at hlegal
  obtain ⟨⟨⟨⟨⟨-, hpos⟩, -⟩, -⟩, -⟩, -⟩ := hlegal
  refine Nat.mul_pos hpos ?_
  unfold laneBytes
  split <;> decide

/-! ### MREL -/

theorem exec_mrel (h : opcIs w 0x25 = true) (c : CoreId) (sl : SlotId) (s : State) :
    exec (.mrel c sl w) s = .next (s.engCmd c sl w mrelInfo) := if_pos h

/-- What one register of the mask determines takes its released value, and what only another determines stays. -/
theorem Core.releaseMask_read {α : Type} {P : Core → α} {z : α} {i : Nat} (hi : i < 28) (hself : ∀ k : Core, P ((k.release i).wipe i) = z)
    (hne : ∀ (k : Core) j, j ≠ i → P ((k.release j).wipe j) = P k) (k : Core) (mask : Nat) :
    P (k.releaseMask mask) = if mask / 2 ^ i % 2 = 1 then z else P k := by
  have key : ∀ n, P ((List.range n).foldl (fun k j => if mask / 2 ^ j % 2 = 1 then (Core.release k j).wipe j else k) k) =
      if i < n ∧ mask / 2 ^ i % 2 = 1 then z else P k := by
    intro n
    induction n with
    | zero => simp
    | succ n ih =>
      rw [List.range_succ, List.foldl_append, List.foldl_cons, List.foldl_nil]
      by_cases hb : mask / 2 ^ n % 2 = 1
      · rw [if_pos hb]
        by_cases e : n = i
        · subst e
          rw [hself, if_pos ⟨Nat.lt_succ_self n, hb⟩]
        · rw [hne _ _ e, ih]
          exact if_congr (by omega) rfl rfl
      · rw [if_neg hb, ih]
        refine if_congr ⟨fun h => ⟨by omega, h.2⟩, fun h => ⟨?_, h.2⟩⟩ rfl rfl
        rcases Nat.lt_succ_iff_lt_or_eq.mp h.1 with hlt | rfl
        · exact hlt
        · exact absurd h.2 hb
  exact (key 28).trans (if_congr (and_iff_right hi) rfl rfl)

theorem Core.release_regs (k : Core) (n : Nat) : (k.release n).xregs = k.xregs ∧ (k.release n).accs = k.accs ∧ (k.release n).vregs = k.vregs := by
  unfold Core.release
  dsimp only
  split <;> exact ⟨rfl, rfl, rfl⟩

/-- The registers of a core with one wiped. -/
theorem Core.wipe_regs (k : Core) (n : Nat) :
    (k.wipe n).xregs = (if n < 8 then KV.del k.xregs n else k.xregs) ∧
    (k.wipe n).accs = (if 8 ≤ n ∧ n < 12 then KV.del k.accs (n - 8) else k.accs) ∧
    (n < 12 → (k.wipe n).vregs = k.vregs) := by
  unfold Core.wipe
  dsimp only
  by_cases h1 : n < 8
  · rw [if_pos h1, if_pos h1, if_neg (by omega)]
    exact ⟨rfl, rfl, fun _ => rfl⟩
  · by_cases h2 : n < 12
    · rw [if_neg h1, if_pos h2, if_neg h1, if_pos ⟨by omega, h2⟩]
      exact ⟨rfl, rfl, fun _ => rfl⟩
    · rw [if_neg h1, if_neg h2, if_neg h1, if_neg (by omega)]
      exact ⟨rfl, rfl, fun h => absurd h h2⟩

theorem Core.releaseMask_xregs (k : Core) (mask : Nat) {n : Nat} (hn : n < 8) :
    KV.get 0 (k.releaseMask mask).xregs n = if mask / 2 ^ n % 2 = 1 then 0 else KV.get 0 k.xregs n := by
  refine Core.releaseMask_read (P := fun k => KV.get 0 k.xregs n) (by omega) (fun k => ?_) (fun k j hj => ?_) k mask
  · rw [((k.release n).wipe_regs n).1, if_pos hn, KV.get_del_self]
  · rw [((k.release j).wipe_regs j).1, (k.release_regs j).1]
    split
    · exact KV.get_del_ne (Ne.symm hj) _
    · rfl

theorem Core.releaseMask_accs (k : Core) (mask : Nat) {n : Nat} (hn : n < 4) :
    KV.get {} (k.releaseMask mask).accs n = if mask / 2 ^ (8 + n) % 2 = 1 then {} else KV.get {} k.accs n := by
  refine Core.releaseMask_read (P := fun k => KV.get {} k.accs n) (i := 8 + n) (by omega) (fun k => ?_) (fun k j hj => ?_) k mask
  · rw [((k.release (8 + n)).wipe_regs (8 + n)).2.1, if_pos (by omega), Nat.add_sub_cancel_left, KV.get_del_self]
  · rw [((k.release j).wipe_regs j).2.1, (k.release_regs j).2.1]
    split
    · exact KV.get_del_ne (by omega) _
    · rfl

/-- A mask of X registers and accumulators leaves the vector registers. -/
theorem Core.releaseMask_vregs (k : Core) {mask : Nat} (hm : mask < 2 ^ 12) : (k.releaseMask mask).vregs = k.vregs := by
  unfold Core.releaseMask
  refine List.foldlRecOn (motive := fun r : Core => r.vregs = k.vregs) _ _ rfl fun r hr j _ => ?_
  split
  · rename_i hb
    have hj : j < 12 := by
      by_contra h
      have := Nat.div_eq_of_lt (Nat.lt_of_lt_of_le hm (Nat.pow_le_pow_right (by decide) (Nat.le_of_not_lt h)))
      omega
    rw [((r.release j).wipe_regs j).2.2 hj, (r.release_regs j).2.2, hr]
  · exact hr

theorem mrel_starts (hop : opcIs w 0x25 = true) (hr : HeadReady mrelInfo s c sl w) :
    let d := s.headState mrelInfo c sl w
    let r := resolved mrelInfo s c sl w
    (∀ n, n < 12 → fld r 43 32 / 2 ^ n % 2 = 1 → tLoading ((d.core c.val).tag n) = false) →
    (∀ p ∈ (d.core c.val).run 0, matrixRegs p.w &&& fld r 43 32 = 0) →
    Starts (.mrel c sl w) mrelInfo s c (fun t q => q = s.headEntry mrelInfo c sl w ∧
      t = d.modCore c.val (fun k => k.releaseMask (fld r 43 32))) := by
  intro d r hload hrun
  have hopc := State.headEntry_opc (o := mrelInfo) (by decide) hop s c sl
  have hstart : startMrel d c.val (s.headEntry mrelInfo c sl w) =
      .go (d.modCore c.val (fun k => k.releaseMask (fld r 43 32))) (s.headEntry mrelInfo c sl w) := by
    have h1 : (List.range 12).any (fun n => fld r 43 32 / 2 ^ n % 2 = 1 && tLoading ((d.core c.val).tag n)) = false :=
      List.any_eq_false.mpr fun n hn => by simpa using hload n (List.mem_range.mp hn)
    have h2 : ((d.core c.val).run 0).any (fun p => matrixRegs p.w &&& fld r 43 32 ≠ 0) = false :=
      List.any_eq_false.mpr fun p hp => by simpa using hrun p hp
    exact (if_neg (ne_true_of_eq_false h1)).trans (if_neg (ne_true_of_eq_false h2))
  have hgo : startOn d c.val mrelInfo.engine (s.headEntry mrelInfo c sl w) =
      .go (d.modCore c.val (fun k => k.releaseMask (fld r 43 32))) (s.headEntry mrelInfo c sl w) := by
    show startMatrix _ _ _ = _
    unfold startMatrix
    rw [hopc]
    exact hstart
  exact Starts.of_go (exec_mrel hop c sl s) hr hgo (Ctl.of_start_go hstart ((Ctl.refl d).startMrel c.val _)) (by rw [hopc]; decide) ⟨rfl, rfl⟩

/-! ### MMOVE -/

theorem exec_mmove (h : opcIs w 0x24 = true) (c : CoreId) (sl : SlotId) (s : State) :
    exec (.mmove c sl w) s = .next (s.engCmd c sl w mmoveInfo) := if_pos h

theorem Core.setV_counted (k : Core) (n : Nat) (v : BitVec 32768) (t : BitVec 128) (un : KV Bool) (cs : KV (BitVec 64)) :
    ({ k with unread := un, counters := cs } : Core).setV n v t = { k.setV n v t with unread := un, counters := cs } := rfl

/-- 1,024 elements of 32 bits written to a vector register. -/
def movedReg (es : List (Nat × Cf)) : BitVec 32768 := BitVec.ofNat 32768 (packElems 32 (es.map (·.1)))

/-- The flags of those elements together. -/
def movedFlags (es : List (Nat × Cf)) : Cf := es.foldl (fun (a : Cf) e => a.or e.2) {}

theorem movedReg_elem (f : Nat → Nat × Cf) {i : Nat} (hi : i < 1024) : vElem (movedReg ((List.range 1024).map f)) 32 i = (f i).1 % 2 ^ 32 := by
  unfold movedReg
  rw [vElem_packElems _ (by simpa using hi) hi]
  simp

/-- Elements that MMOVE widens from X register n: those of block `cq` of 32 columns. -/
def State.widened (d : State) (c : CoreId) (n cq : Nat) (l : List (Nat × Nat)) (i : Nat) : Nat × Cf :=
  fp32.encode .rne false (({ reg := some n, fmt := tFmt ((d.core c.val).tag (tagX n)), rows := 32, segs := 1 } : Operand).elem (d.pieces c l)
    ((d.core c.val).xreg n) (tSbase ((d.core c.val).tag (tagX n))) (i / 32) (32 * cq + i % 32))

/-- The ranges of slab bytes with the scales of that block, of an MX format. -/
def mxScales (tx : BitVec 128) (cq : Nat) : List (Nat × Nat) := if isMx (tFmt tx) then [(tSbase tx + 32 * cq, 32)] else []

/-- The vector register that MMOVE leaves of that block. -/
def State.widenedReg (d : State) (c : CoreId) (n cq : Nat) : BitVec 32768 :=
  movedReg ((List.range 1024).map (d.widened c n cq (mxScales ((d.core c.val).tag (tagX n)) cq)))

theorem moveX_moves {q : QEnt} {n vd : Nat} {tx : BitVec 128} {cq : Nat} (htx : (d.core c.val).tag (tagX n) = tx) (hcq : fld q.w 41 40 = cq)
    (hcheck : tagCheck tx 32 (tRows tx = 32 && tFmt tx ≠ 0) = stOk) (hcols : 32 * (cq + 1) ≤ tPos tx * perStep (tFmt tx))
    (hreg : (d.core c.val).regBad (tagX n) (xWords 32 (32 * cq / perStep (tFmt tx) * laneBytes (tFmt tx))
      (32 * (cq + 1) / perStep (tFmt tx) * laneBytes (tFmt tx))) = false)
    (hsound : d.soundAll c (mxScales tx cq) = true) (x : Slot) :
    ∃ t fl, moveX d c.val q x n vd = .go t { q with flags := fl } ∧ RegsOnly c ((d.core c.val).setV vd (d.widenedReg c n cq) (vTag 0)) d t := by
  subst htx hcq
  obtain ⟨u, hu, hregs⟩ := State.engReads_sound x.ctx.toNat _ d hsound
  have hspace : (mxScales ((d.core c.val).tag (tagX n)) (fld q.w 41 40)).any (fun r => !inSlabSpace r.1 r.2) = false := by
    refine List.any_eq_false.mpr fun r hr => ?_
    have := List.all_eq_true.mp hsound r hr
    simp [(Bool.and_eq_true_iff.mp this).1]
  have hgo : moveX d c.val q x n vd = .go (u.modCore c.val (fun k => k.setV vd (d.widenedReg c n (fld q.w 41 40)) (vTag 0)))
      { q with flags := (movedFlags ((List.range 1024).map (d.widened c n (fld q.w 41 40) (mxScales ((d.core c.val).tag (tagX n)) (fld q.w 41 40))))).flags } := by
    unfold mxScales at hu hspace
    unfold moveX
    dsimp only
    rw [if_neg (not_not_intro hcheck), if_neg (Nat.not_lt.mpr hcols), hu]
    dsimp only
    rw [hspace, if_neg Bool.false_ne_true, hreg, if_neg Bool.false_ne_true, if_neg (by decide), if_neg (not_not_intro rfl)]
    unfold State.widenedReg movedReg movedFlags State.widened mxScales
    rfl
  exact ⟨_, _, hgo, hregs.modCore (f := fun k => k.setV vd (d.widenedReg c n (fld q.w 41 40)) (vTag 0)) fun un cs => ⟨un, cs, Core.setV_counted ..⟩⟩

/-- Elements that MMOVE reads from a tile: an integer tile is read out as FP32. -/
def Core.tileElem (k : Core) (x : Slot) (w : Cmd) (n i : Nat) : Nat × Cf :=
  if tFix (k.tag (tagA n)) || isInt (tFmt (k.tag (tagA n))) then
    readElem k n 0 0 (narrowOf x w (fld w 44 43) (bit w 42)) (srIndex w (i / 32) (i % 32)) (i / 32) (i % 32)
  else (((k.acc n).cell i).f, {})

theorem moveA_moves {q : QEnt} {n vd : Nat} (huse : tInUse ((d.core c.val).tag (tagA n)) = true) (hshape : tShape ((d.core c.val).tag (tagA n)) = 0)
    (hpoison : tPoison ((d.core c.val).tag (tagA n)) = false) (hfree : readBlocked (d.core c.val) n = false)
    (hreg : (d.core c.val).regBad (tagA n) (fun _ => true) = false) (x : Slot) :
    ∃ t q', moveA d c.val q x n vd = .go t q' ∧ q'.w = q.w ∧
      RegsOnly c ((d.core c.val).setV vd (movedReg ((List.range 1024).map ((d.core c.val).tileElem x q.w n))) (vTag 0)) d t := by
  have hregs : RegsOnly c (d.core c.val) d d := ⟨CoreIs.refl c d, KeptBut.refl _ d⟩
  have hgo : moveA d c.val q x n vd =
      .go (d.modCore c.val (fun k => k.setV vd (movedReg ((List.range 1024).map ((d.core c.val).tileElem x q.w n))) (vTag 0)))
        (readStatus ((d.core c.val).tag (tagA n)) (movedFlags ((List.range 1024).map ((d.core c.val).tileElem x q.w n))) q) := by
    unfold moveA
    dsimp only
    rw [huse, hpoison, hfree, hreg, if_neg (by decide), if_neg (not_not_intro hshape), if_neg Bool.false_ne_true, if_neg Bool.false_ne_true,
      if_neg Bool.false_ne_true]
    unfold movedReg movedFlags Core.tileElem
    rfl
  exact ⟨_, _, hgo, rfl, hregs.modCore
    (f := fun k => k.setV vd (movedReg ((List.range 1024).map ((d.core c.val).tileElem x q.w n))) (vTag 0)) fun un cs => ⟨un, cs, Core.setV_counted ..⟩⟩

theorem Tile.cell_f_lt (t : Tile) (i : Nat) : (t.cell i).f < 2 ^ 32 := Nat.mod_lt _ (by decide)

theorem mmove_starts {t : State} {q' : QEnt} {P : State → QEnt → Prop} (hop : opcIs w 0x24 = true) (hr : HeadReady mmoveInfo s c sl w)
    (hstart : startMmove (s.headState mmoveInfo c sl w) c.val (s.headEntry mmoveInfo c sl w) = .go t q')
    (hw : q'.w = (s.headEntry mmoveInfo c sl w).w) (hP : P t q') : Starts (.mmove c sl w) mmoveInfo s c P := by
  have hopc := State.headEntry_opc (o := mmoveInfo) (by decide) hop s c sl
  have hgo : startOn (s.headState mmoveInfo c sl w) c.val mmoveInfo.engine (s.headEntry mmoveInfo c sl w) = .go t q' := by
    show startMatrix _ _ _ = _
    unfold startMatrix
    rw [hopc]
    exact hstart
  exact Starts.of_go (exec_mmove hop c sl s) hr hgo (Ctl.of_start_go hstart ((Ctl.refl _).startMmove c.val _)) (by rw [hw, hopc]; decide) hP

/-- The start of an MMOVE, from an X register or from a tile, into a register that is not loading. -/
theorem startMmove_eq {q : QEnt} (h : tLoading ((d.core c.val).tag (tagV (fld q.w 39 36))) = false) : startMmove d c.val q =
    if bit q.w 32 then moveA d c.val q ((d.core c.val).slot q.slot.val) (fld q.w 34 33) (fld q.w 39 36)
    else moveX d c.val q ((d.core c.val).slot q.slot.val) (fld q.w 35 33) (fld q.w 39 36) := if_neg (ne_true_of_eq_false h)

end

/-- Settles O27: each command goes past its checks to its start, whose effect on the registers is read off: the stream
descriptor (`msd_starts`), the rows in their places (`State.mldValue_byte`), the registers of the mask
(`Core.releaseMask_read`) and the elements moved (`movedReg_elem`). -/
theorem matrixRegisters : Obligations.MatrixRegisters := by
  intro s c sl w
  refine ⟨fun hop hr => msd_starts hop hr, fun hop hr hload hcap hsound => ?_, fun hop hr hload hrun => ?_, ?_⟩
  · obtain ⟨t, q, hexec, hq, hregs⟩ := mld_starts hop hr hload hcap hsound
    exact ⟨t, q, hexec, hq, _, hregs, fun l hl j hj => State.mldValue_byte (mldBytes_pos hr) hcap _ c hl hj⟩
  · obtain ⟨t, q, hexec, hq, rfl⟩ := mrel_starts hop hr hload hrun
    have hmask : fld (resolved mrelInfo s c sl w) 43 32 < 2 ^ 12 := Nat.mod_lt _ (by decide)
    refine ⟨_, q, hexec, hq, fun n hn => ?_, fun n hn => ?_, fun n hn => ?_, ?_, fun y hy => State.core_modCore_ne hy _ _,
      ((Keeps.refl _).modCore _ _ rfl).kept⟩
    · rw [State.core_modCore, Core.tag_releaseMask]
      exact if_congr (and_iff_right hn) rfl rfl
    · rw [State.core_modCore, Core.releaseMask_xregs _ _ hn]
    · rw [State.core_modCore, Core.releaseMask_accs _ _ hn]
    · rw [State.core_modCore, Core.releaseMask_vregs _ hmask]
  · intro d r k xn tx cq an ta int scales hop hr hload
    have hstart := startMmove_eq (d := d) (c := c) (q := s.headEntry mmoveInfo c sl w) hload
    refine ⟨fun hb hcheck hcols hreg hsound => ?_, fun hb huse hshape hpoison hfree hreg => ?_⟩
    · obtain ⟨t, fl, ht, hregs⟩ := moveX_moves (d := d) (c := c) (q := s.headEntry mmoveInfo c sl w) (n := xn) (vd := fld r 39 36)
        rfl rfl hcheck hcols hreg hsound ((d.core c.val).slot sl.val)
      refine mmove_starts hop hr (hstart.trans ((if_neg (ne_true_of_eq_false hb)).trans ht)) rfl ⟨_, hregs, fun i hi => ?_⟩
      exact movedReg_elem _ hi
    · obtain ⟨t, q', ht, hw, hregs⟩ := moveA_moves (d := d) (c := c) (q := s.headEntry mmoveInfo c sl w) (n := an) (vd := fld r 39 36)
        huse hshape hpoison hfree hreg ((d.core c.val).slot sl.val)
      refine mmove_starts hop hr (hstart.trans ((if_pos hb).trans ht)) hw ⟨_, hregs, fun hint i hi => ?_, fun hint i hi => ?_⟩
      · refine (movedReg_elem _ hi).trans ?_
        unfold Core.tileElem
        rw [if_neg (ne_true_of_eq_false hint)]
        exact Nat.mod_eq_of_lt (Tile.cell_f_lt _ _)
      · refine (movedReg_elem _ hi).trans ?_
        unfold Core.tileElem
        rw [if_pos hint]
        rfl

end Sys2Proof.Machine
end

section
/-! Commands with nothing to do (R155, R165, R172, R211): each engine finds such a command at the head of its queue and ends it. -/

namespace Sys2Proof.Machine

section
variable {i : Instr} {o : OpInfo} {s d : State} {c : CoreId} {sl : SlotId} {w : Cmd} {q : QEnt} {n : Nat}

/-- Every command for an engine goes to the queue of its engine. -/
theorem exec_engineRow (h : engineRow i = some (c, sl, w, o, n)) (hop : opcIs w n = true) (s : State) :
    exec i s = .next (s.engCmd c sl w o) := by
  cases i <;> cases h <;> exact if_pos hop

/-! ### A command that completes at once -/

@[simp] theorem Slot.report_toks (x : Slot) (q : QEnt) : (x.report q).toks = x.toks := by
  unfold Slot.report
  dsimp only
  split <;> rfl

/-- A report leaves the tokens, so a token fits after it if it did before. -/
theorem Slot.posted_report_isSome (x : Slot) (q : QEnt) : ((x.report q).posted q.w).isSome = (x.posted q.w).isSome := by
  unfold Slot.posted
  split
  · refine Slot.post_isSome_of_tok ?_
    unfold Slot.tok
    rw [Slot.report_toks]
  · rfl

/-- A command of opcode n, its engine idle and with nothing to do as `P` says, completes with no effect but its report. -/
def CompletesEmpty (i : Instr) (o : OpInfo) (n : Nat) (s : State) (c : CoreId) (sl : SlotId) (w : Cmd) (idle P : Prop) : Prop :=
  opcIs w n = true → HeadReady o s c sl w → (o.engine = 3 → (s.core c.val).hazard c.val (resolved o s c sl w) = false) → idle → P →
    (((s.headState o c sl w).slot c.val sl.val).posted (resolved o s c sl w)).isSome = true → exec i s = .next (s.emptied o c sl w)

/-- So it does where its engine, as it takes the command, ends it at once. -/
theorem CompletesEmpty.of_fin {idle P : Prop} (hi : engineRow i = some (c, sl, w, o, n))
    (h : opcIs w n = true → (o.engine = 3 → ((s.headState o c sl w).core c.val).hazard c.val (resolved o s c sl w) = false) → idle → P →
      s.starting o c sl w = .fin (s.headState o c sl w) (s.headEntry o c sl w)) : CompletesEmpty i o n s c sl w idle P := by
  intro hop hr hclear hidle hP hpost
  have hfin := h hop (fun he => AccessReady.unheld ⟨hr, hclear he⟩) hidle hP
  rw [exec_engineRow hi hop, State.engCmd_fin hr hfin (Ctl.refl _) ((Slot.posted_report_isSome _ _).trans hpost)]
  rfl

/-! ### The vector engine -/

/-- What starts a command of the vector engine, by its opcode. -/
def vectorStart (n : Nat) (s : State) (c : Nat) (q : QEnt) : Start :=
  match n with
  | 0x30 => startVld s c q
  | 0x31 => startVst s c q
  | 0x32 => startVop s c q
  | 0x33 => startVcvt s c q
  | 0x34 => startVala s c q
  | 0x35 => startVmove s c q
  | _ => startVrel s c q

theorem startVector_eq (hb : vecBlocked (s.core c.val) q.w = false) : startVector s c.val q = vectorStart (cOpc q.w) s c.val q := by
  unfold startVector
  rw [hb, if_neg Bool.false_ne_true]
  rfl

/-- The vector engine takes a command that nothing holds back. -/
theorem starting_vector (ho : o.tame = true) (he : o.engine = 1) (hop : opcIs w n = true)
    (hb : vecBlocked ((s.headState o c sl w).core c.val) (resolved o s c sl w) = false) :
    s.starting o c sl w = vectorStart n (s.headState o c sl w) c.val (s.headEntry o c sl w) := by
  unfold State.starting
  rw [he, ← State.headEntry_opc ho hop s c sl]
  exact startVector_eq hb

theorem vector_empty {P : Prop} (hi : engineRow i = some (c, sl, w, o, n)) (ho : o.tame = true) (he : o.engine = 1)
    (h : P → vectorStart n (s.headState o c sl w) c.val (s.headEntry o c sl w) = .fin (s.headState o c sl w) (s.headEntry o c sl w)) :
    CompletesEmpty i o n s c sl w (vecBlocked ((s.headState o c sl w).core c.val) (resolved o s c sl w) = false) P :=
  .of_fin hi fun hop _ hb hP => (starting_vector ho he hop hb).trans (h hP)

/-! ### The row engine -/

theorem startRow_idle (h : (s.core c.val).run 2 = []) : startRow s c.val q =
    if cOpc q.w = 0x45 then startRspill s c.val q else if cOpc q.w = 0x46 then startRfill s c.val q else startRowOp s c.val q := by
  unfold startRow
  rw [h, if_neg (by decide)]
  split
  · rw [if_pos ‹_›]
  · rw [if_neg (by omega), if_pos ‹_›]
  · rw [if_neg ‹_›, if_neg ‹_›]

theorem rows_empty (hi : engineRow i = some (c, sl, w, rowInfo, n)) (hn : n ≠ 0x45 ∧ n ≠ 0x46) :
    CompletesEmpty i rowInfo n s c sl w (((s.headState rowInfo c sl w).core c.val).run 2 = []) (rNrows (resolved rowInfo s c sl w) = 0) := by
  refine .of_fin hi fun hop _ hidle hrows => (startRow_idle hidle).trans ?_
  rw [State.headEntry_opc rfl hop, if_neg hn.1, if_neg hn.2]
  exact if_pos hrows

theorem rspill_empty : CompletesEmpty (.rspill c sl w) spillInfo 0x45 s c sl w (((s.headState spillInfo c sl w).core c.val).run 2 = [])
    (fld (resolved spillInfo s c sl w) 58 45 = 0) := by
  refine .of_fin rfl fun hop _ hidle hn => (startRow_idle hidle).trans ?_
  rw [State.headEntry_opc rfl hop, if_pos rfl]
  exact if_pos hn

theorem rfill_empty : CompletesEmpty (.rfill c sl w) spillInfo 0x46 s c sl w (((s.headState spillInfo c sl w).core c.val).run 2 = [])
    (fld (resolved spillInfo s c sl w) 58 45 = 0) := by
  refine .of_fin rfl fun hop _ hidle hn => (startRow_idle hidle).trans ?_
  rw [State.headEntry_opc rfl hop, if_neg (by decide), if_pos rfl]
  exact if_pos hn

/-! ### The access engine -/

/-- The movements: COPY to GCOPY (Table 04-4). -/
theorem startAccess_move (hop : 0x50 ≤ cOpc q.w ∧ cOpc q.w ≤ 0x57) (h : (s.core c.val).hazard c.val q.w = false) :
    startAccess s c.val q = startMove s c.val q := by
  unfold startAccess
  rw [h, if_neg Bool.false_ne_true]
  split
  · omega
  · omega
  · omega
  · rw [if_neg, if_neg (by omega)]
    unfold isDamson
    simp
    omega

theorem move_empty {P : Prop} (hi : engineRow i = some (c, sl, w, o, n)) (ho : o.tame = true) (he : o.engine = 3) (hn : 0x50 ≤ n ∧ n ≤ 0x57)
    (hcheck : cOpc (resolved o s c sl w) = n → P → moveChecks c.val (resolved o s c sl w) = .noop) :
    CompletesEmpty i o n s c sl w True P := by
  refine .of_fin hi fun hop hclear _ hP => ?_
  have hopc := State.headEntry_opc ho hop s c sl
  have hmove : startMove (s.headState o c sl w) c.val (s.headEntry o c sl w) = .fin (s.headState o c sl w) (s.headEntry o c sl w) := by
    unfold startMove
    rw [show moveChecks c.val (s.headEntry o c sl w).w = .noop from hcheck hopc hP]
  unfold State.starting
  rw [he]
  exact (startAccess_move (q := s.headEntry o c sl w) (by rwa [hopc]) (hclear he)).trans hmove

/-- Counts of zero within the capacity come before ranges and alignment (R211). -/
theorem checks_noop {cap zero legal space : Bool} (hc : cap = false) (hz : zero = true) : checks cap zero legal space = .noop := by
  unfold checks
  rw [hc, if_neg Bool.false_ne_true, if_pos hz]

/-- Rows or length 0, the rows within their capacity. -/
theorem checks_no_rows {rows cap len : Nat} {legal space : Bool} (h : rows ≤ cap ∧ (rows = 0 ∨ len = 0)) :
    checks (cap < rows) (rows = 0 || len = 0) legal space = .noop :=
  checks_noop (decide_eq_false (Nat.not_lt.mpr h.1)) (by simpa using h.2)

/-- Items or length 0 are within every capacity. -/
theorem checks_none {n cap : Nat} {legal space : Bool} (h : n = 0) : checks (cap < n) (n = 0) legal space = .noop :=
  checks_noop (decide_eq_false (by omega)) (decide_eq_true h)

theorem aprog_empty : CompletesEmpty (.aprog c sl w) aprogInfo 0x5A s c sl w True (fld (resolved aprogInfo s c sl w) 81 66 = 0) := by
  refine .of_fin rfl fun hop hclear _ hn => ?_
  show startAccess _ _ _ = _
  unfold startAccess
  rw [show ((s.headState aprogInfo c sl w).core c.val).hazard c.val (s.headEntry aprogInfo c sl w).w = false from hclear rfl,
    if_neg Bool.false_ne_true, State.headEntry_opc rfl hop]
  exact if_pos hn

end

/-- Settles O26: each engine ends the command at the head of its queue as soon as it finds its count zero, before it looks at a
tag, a range or an address. -/
theorem emptyCommands : Obligations.EmptyCommands := by
  intro s c sl w
  refine ⟨vector_empty rfl rfl rfl fun h => ?vld, vector_empty rfl rfl rfl fun h => ?vst, vector_empty rfl rfl rfl fun h => ?vop,
    rows_empty rfl ?_, rows_empty rfl ?_, rows_empty rfl ?_, rows_empty rfl ?_, rows_empty rfl ?_, rspill_empty, rfill_empty,
    move_empty rfl rfl rfl ?_ fun hop hn => ?copy, move_empty rfl rfl rfl ?_ fun hop hn => ?skewc,
    move_empty rfl rfl rfl ?_ fun hop hn => ?tskewc, move_empty rfl rfl rfl ?_ fun hop hn => ?gather,
    move_empty rfl rfl rfl ?_ fun hop hn => ?scatter, move_empty rfl rfl rfl ?_ fun hop hn => ?mcast,
    move_empty rfl rfl rfl ?_ fun hop hn => ?neighbour, move_empty rfl rfl rfl ?_ fun hop hn => ?gcopy, aprog_empty⟩
  case vld | vst | vop => exact if_pos h
  case copy | skewc | tskewc | mcast | neighbour =>
    unfold moveChecks
    rw [hop]
    exact checks_no_rows hn
  case gather | scatter | gcopy =>
    unfold moveChecks
    rw [hop]
    exact checks_none hn
  all_goals decide

end Sys2Proof.Machine
end

section
/-! Rows and elements of the vector registers (R135, R150): what a register holds once rows of it are written, and what the
vector engine leaves of a core. -/

namespace Sys2Proof.Machine

/-! ### Fields written one after another -/

section
variable {N : Nat} {hi lo v : Nat → Nat} {l h a : Nat} {rows : List Nat}

/-- A register with the field of each row written. -/
def setFlds (old : BitVec N) (hi lo v : Nat → Nat) (rows : List Nat) : BitVec N := rows.foldl (fun d r => setFld d (hi r) (lo r) (v r)) old

/-- A field apart from all that are written keeps its value. -/
theorem fld_setFlds_ne (old : BitVec N) (hin : ∀ r ∈ rows, lo r ≤ hi r ∧ hi r < N) (hl : l ≤ h)
    (hne : ∀ r ∈ rows, h < lo r ∨ hi r < l) : fld (setFlds old hi lo v rows) h l = fld old h l := by
  unfold setFlds
  refine List.foldlRecOn (motive := fun d => fld d h l = fld old h l) rows _ rfl fun d hd r hr => ?_
  obtain ⟨hle, hlt⟩ := hin r hr
  rw [fld_setFld_ne _ _ hle hlt ((hne r hr).imp_left fun h => ⟨h, hl⟩), hd]

/-- The field of one row, apart from those of the others. -/
theorem fld_setFlds (old : BitVec N) (hin : ∀ r ∈ rows, lo r ≤ hi r ∧ hi r < N)
    (hne : ∀ r ∈ rows, r ≠ a → hi a < lo r ∨ hi r < lo a) (hmem : a ∈ rows) :
    fld (setFlds old hi lo v rows) (hi a) (lo a) = v a % 2 ^ (hi a - lo a + 1) := by
  induction rows using List.reverseRecOn with
  | nil => exact absurd hmem List.not_mem_nil
  | append_singleton l r ih =>
    obtain ⟨hle, hlt⟩ := hin r (by simp)
    unfold setFlds at ih ⊢
    rw [List.foldl_append, List.foldl_cons, List.foldl_nil]
    by_cases e : r = a
    · subst e
      exact fld_setFld _ _ hle hlt
    · have hal : a ∈ l := (List.mem_append.mp hmem).resolve_right (by simpa using Ne.symm e)
      have hla := hin a (by simp [hal])
      rw [fld_setFld_ne _ _ hle hlt ((hne r (by simp) e).imp_left fun h => ⟨h, hla.1⟩)]
      exact ih (fun x hx => hin x (by simp [hx])) (fun x hx => hne x (by simp [hx])) hal

end

/-! ### Rows -/

section
variable {fmt : Nat} {rows : List Nat}

theorem vRows_pos (fmt : Nat) : 0 < vRows fmt := by
  unfold vRows
  split <;> decide

/-- A register of 32,768 bits is its rows. -/
theorem vRowBits_mul_vRows (fmt : Nat) : vRowBits fmt * vRows fmt = 32768 := by
  unfold vRowBits vRows
  split <;> rfl

theorem vRowBits_pos (fmt : Nat) : 0 < vRowBits fmt := by
  have := vRowBits_mul_vRows fmt
  exact Nat.pos_of_ne_zero fun h => by simp [h] at this

theorem mem_bandRows {mask n i : Nat} (h : i ∈ bandRows mask n) : i < n := List.mem_range.mp (List.mem_filter.mp h).1

theorem row_lt {i : Nat} (hi : i < vRows fmt) : vRowBits fmt * i + vRowBits fmt ≤ 32768 := by
  have := Nat.mul_le_mul_left (vRowBits fmt) (Nat.succ_le_of_lt hi)
  rwa [vRowBits_mul_vRows, Nat.mul_succ] at this

/-- A row that is written holds what it is written with, every other row what it held. -/
theorem vRow_setRows (d : BitVec 32768) (f : Nat → Nat) (h : ∀ r ∈ rows, r < vRows fmt) (i : Nat) :
    vRow (setRows d fmt (rows.map (fun r => (r, f r)))) fmt i = if i ∈ rows then f i % 2 ^ vRowBits fmt else vRow d fmt i := by
  have hpos := vRowBits_pos fmt
  have hfold : setRows d fmt (rows.map (fun r => (r, f r))) =
      setFlds d (fun r => vRowBits fmt * r + vRowBits fmt - 1) (fun r => vRowBits fmt * r) f rows := List.foldl_map ..
  have hin : ∀ r ∈ rows, vRowBits fmt * r ≤ vRowBits fmt * r + vRowBits fmt - 1 ∧ vRowBits fmt * r + vRowBits fmt - 1 < 32768 := by
    intro r hr
    have := row_lt (h r hr)
    omega
  have hapart : ∀ r, r ≠ i → vRowBits fmt * i + vRowBits fmt - 1 < vRowBits fmt * r ∨
      vRowBits fmt * r + vRowBits fmt - 1 < vRowBits fmt * i := by
    intro r hr
    rcases Nat.lt_or_gt_of_ne hr with h | h
    · have := Nat.mul_le_mul_left (vRowBits fmt) (Nat.succ_le_of_lt h)
      rw [Nat.mul_succ] at this
      omega
    · have := Nat.mul_le_mul_left (vRowBits fmt) (Nat.succ_le_of_lt h)
      rw [Nat.mul_succ] at this
      omega
  unfold vRow
  rw [hfold]
  split
  · rename_i hmem
    rw [fld_setFlds (hi := fun r => vRowBits fmt * r + vRowBits fmt - 1) (lo := fun r => vRowBits fmt * r) d hin (fun r _ hr => hapart r hr) hmem]
    congr 2
    omega
  · rename_i hmem
    exact fld_setFlds_ne d hin (by omega) fun r hr => hapart r fun e => hmem (e ▸ hr)

/-! ### Elements -/

/-- An element is a part of its row. -/
theorem vElem_eq_vRow {n cols i j : Nat} (d : BitVec 32768) (hn : 0 < n) (hrow : n * cols = vRowBits fmt) (hj : j < cols) :
    vElem d n (cols * i + j) = vRow d fmt i / 2 ^ (n * j) % 2 ^ n := by
  have hend : n * j + n ≤ vRowBits fmt := by
    rw [← hrow, ← Nat.mul_succ]
    exact Nat.mul_le_mul_left n hj
  have hat : n * (cols * i + j) = vRowBits fmt * i + n * j := by rw [← hrow]; ring
  apply Nat.eq_of_testBit_eq
  intro x
  unfold vElem vRow
  rw [fld_testBit, Nat.testBit_mod_two_pow, Nat.testBit_div_two_pow, fld_testBit, hat,
    show vRowBits fmt * i + n * j + n - 1 - (vRowBits fmt * i + n * j) + 1 = n by omega,
    show vRowBits fmt * i + vRowBits fmt - 1 - vRowBits fmt * i + 1 = vRowBits fmt by omega, Nat.add_comm x, ← Nat.add_assoc]
  by_cases hx : x < n
  · simp [hx, show n * j + x < vRowBits fmt by omega]
  · simp [hx]

theorem packElems_mod (n : Nat) (l : List Nat) {m : Nat} (h : n * l.length ≤ m) : packElems n l % 2 ^ m = packElems n l := by
  refine Nat.mod_eq_of_lt (Nat.lt_of_lt_of_le ?_ (Nat.pow_le_pow_right (by decide) h))
  induction l with
  | nil => exact Nat.one_pos
  | cons a l ih =>
    have hl := ih (le_trans (Nat.mul_le_mul_left n (Nat.le_succ _)) h)
    have ha : a % 2 ^ n < 2 ^ n := Nat.mod_lt _ (by positivity)
    show a % 2 ^ n + 2 ^ n * packElems n l < 2 ^ (n * (l.length + 1))
    rw [Nat.mul_succ, pow_add, Nat.mul_comm (2 ^ (n * l.length))]
    calc a % 2 ^ n + 2 ^ n * packElems n l < 2 ^ n * (packElems n l + 1) := by rw [Nat.mul_succ]; omega
      _ ≤ 2 ^ n * 2 ^ (n * l.length) := Nat.mul_le_mul_left _ hl

/-- The elements of a row that is written packed. -/
theorem vElem_setRows {n cols i j : Nat} (d : BitVec 32768) (f : Nat → Nat → Nat) (hn : 0 < n) (hrow : n * cols = vRowBits fmt)
    (h : ∀ r ∈ rows, r < vRows fmt) (hj : j < cols) :
    vElem (setRows d fmt (rows.map (fun r => (r, packElems n ((List.range cols).map (f r)))))) n (cols * i + j) =
      if i ∈ rows then f i j % 2 ^ n else vElem d n (cols * i + j) := by
  rw [vElem_eq_vRow _ hn hrow hj, vElem_eq_vRow d hn hrow hj, vRow_setRows d _ h]
  split
  · rw [packElems_mod _ _ (by simp [hrow]), pack_elem _ _ _ (by simpa using hj)]
    simp
  · rfl

/-- Elements packed in the whole register. -/
theorem vElem_ofNat_packElems {n i : Nat} {l : List Nat} (hn : 0 < n) (hi : i < l.length) (hl : n * l.length ≤ 32768) :
    vElem (BitVec.ofNat 32768 (packElems n l)) n i = l[i] % 2 ^ n := by
  have hend := Nat.mul_le_mul_left n (Nat.succ_le_of_lt hi)
  rw [Nat.mul_succ] at hend
  unfold vElem
  rw [fld_ofNat (by omega) (by omega), show n * i + n - 1 - n * i + 1 = n by omega]
  exact pack_elem n l i hi

end

/-! ### Registers of a core -/

section
variable {s t d : State} {c : CoreId} {k : Core}

/-- A write of rows by the band rule, the rows given by a function. -/
theorem Core.putRows_map (k : Core) (vd fmt : Nat) (rows : List Nat) (f : Nat → Nat) : k.putRows vd fmt (rows.map (fun r => (r, f r))) =
    k.setV vd (setRows (k.vBase vd fmt) fmt (rows.map (fun r => (r, f r)))) (vTag fmt) (fun n => !vWords fmt rows n) := by
  unfold Core.putRows
  simp only [List.map_map, Function.comp_def, List.map_id']

theorem RegsOnly.refl (c : CoreId) (s : State) : RegsOnly c (s.core c.val) s s := ⟨CoreIs.refl c s, KeptBut.refl _ s⟩

theorem Core.vBase_counted (k : Core) (vd fmt : Nat) (un : KV Bool) (cs : KV (BitVec 64)) :
    ({ k with unread := un, counters := cs } : Core).vBase vd fmt = k.vBase vd fmt := rfl

theorem Core.setV_keep_counted (k : Core) (n : Nat) (v : BitVec 32768) (t : BitVec 128) (keep : Nat → Bool) (un : KV Bool)
    (cs : KV (BitVec 64)) : ({ k with unread := un, counters := cs } : Core).setV n v t keep =
      { k.setV n v t keep with unread := un, counters := cs } := rfl

/-- Reads of slabs, and then rows of a vector register. -/
theorem RegsOnly.putRows (h : RegsOnly c k d t) (vd fmt : Nat) (l : List (Nat × Nat)) :
    RegsOnly c (k.putRows vd fmt l) d (t.modCore c.val (fun k => k.putRows vd fmt l)) :=
  h.modCore fun un cs => ⟨un, cs, by unfold Core.putRows; rw [Core.vBase_counted, Core.setV_keep_counted]⟩

/-- Among pieces of the slabs, the piece at an address. -/
theorem pieceAt_mem {l : List (Nat × Nat)} {a n : Nat} (ha : (a, n) ∈ l) : pieceAt (d.pieces c l) a n = d.bytes (slabKey c.val a) n := by
  unfold pieceAt
  split
  · rename_i p hp
    have hfit : p.1 ≤ a ∧ a + n ≤ p.1 + p.2.length := by simpa using List.find?_some hp
    obtain ⟨r, hr, rfl⟩ := List.mem_map.mp (List.mem_of_find?_eq_some hp)
    rw [State.bytes_length] at hfit
    rw [State.bytes_drop _ _ _ _ (by omega), State.bytes_take _ _ _ _ (by omega),
      show slabKey c.val r.1 + (a - r.1) = slabKey c.val a by unfold slabKey; omega]
  · rename_i hp
    refine absurd (List.find?_eq_none.mp hp (a, d.bytes (slabKey c.val a) n) (List.mem_map.mpr ⟨_, ha, rfl⟩)) ?_
    simp [State.bytes_length]

/-- Sound ranges lie in the slab space. -/
theorem State.soundAll_inSlabSpace {l : List (Nat × Nat)} (h : d.soundAll c l = true) : l.any (fun r => !inSlabSpace r.1 r.2) = false :=
  List.any_eq_false.mpr fun r hr => by simp [(Bool.and_eq_true_iff.mp (List.all_eq_true.mp h r hr)).1]

end

/-! ### A command of the vector engine that starts -/

/-- A command that the vector engine takes and that starts is in execution with what its start did. -/
theorem Starts.of_vector {i : Instr} {o : OpInfo} {s t : State} {c : CoreId} {sl : SlotId} {w : Cmd} {n : Nat} {q : QEnt}
    {P : State → QEnt → Prop} (hi : engineRow i = some (c, sl, w, o, n)) (ho : o.tame = true) (he : o.engine = 1) (hop : opcIs w n = true)
    (hr : HeadReady o s c sl w) (hb : vecBlocked ((s.headState o c sl w).core c.val) (resolved o s c sl w) = false)
    (hgo : vectorStart n (s.headState o c sl w) c.val (s.headEntry o c sl w) = .go t q) (hw : q.w = (s.headEntry o c sl w).w)
    (hn : n ≠ 0x5A) (hP : P t q) : Starts i o s c P := by
  have hstart : s.starting o c sl w = .go t q := (starting_vector ho he hop hb).trans hgo
  have hctl : Ctl (s.headState o c sl w) t := by
    refine Ctl.of_start_go (q := q) (r := startVector (s.headState o c sl w) c.val (s.headEntry o c sl w)) ?_ ((Ctl.refl _).startVector c.val _)
    rw [← hstart]
    unfold State.starting
    rw [he]
    rfl
  exact Starts.of_go (exec_engineRow hi hop s) hr hstart hctl (by rwa [hw, State.headEntry_opc ho hop]) hP

end Sys2Proof.Machine
end

section
/-! VLD and VST as the vector engine takes them (R154, R155). -/

namespace Sys2Proof.Machine

section
variable {d : State} {c : CoreId} {q : QEnt}

/-- Operands as R154 and R155 align them. -/
theorem not_misaligned {a p n b : Nat} {mx : Bool} (ha : a % 64 = 0) (hp : p = n ∨ p % 64 = 0) (hb : mx = true → b % 32 = 0) :
    ¬ (a % 64 ≠ 0 ∨ (p ≠ n ∧ p % 64 ≠ 0) ∨ (mx = true ∧ b % 32 ≠ 0)) := by
  rintro (h | ⟨h1, h2⟩ | ⟨h1, h2⟩)
  · exact h ha
  · exact hp.elim h1 h2
  · exact h2 (hb h1)

/-! ### VLD from memory -/

/-- Bytes of a source row, the rows of the bands, where a source row lies, and what a load reads: rows and, of an MX format, scales. -/
def vldBytes (w : Cmd) : Nat := rowBytes (fld w 39 36) (if fld w 39 36 = fmFp64 then 16 else 32)
def vldRows (w : Cmd) : List Nat := bandRows (fld w 45 42) (vRows (tileFmt (fld w 39 36)))
def vldSrc (w : Cmd) (i : Nat) : Nat := fld w 70 50 + i * fld w 88 71
def vldRanges (w : Cmd) : List (Nat × Nat) :=
  (vldRows w).map (fun i => (vldSrc w i, vldBytes w)) ++ if isMx (fld w 39 36) then (vldRows w).map (fun i => (fld w 109 89 + i, 1)) else []

/-- Row i as it enters the register, with its flags. -/
def State.vldRow (d : State) (c : CoreId) (w : Cmd) (i : Nat) : Nat × Cf :=
  loadRow (fld w 39 36) (d.byte (slabKey c.val (fld w 109 89 + i))).toNat (d.bytes (slabKey c.val (vldSrc w i)) (vldBytes w))

/-- A load from memory of some bands passes the checks of R154. -/
structure Core.VldPasses (k : Core) (w : Cmd) : Prop where
  bands : fld w 45 42 ≠ 0
  memory : bit w 46 = false
  free : tLoading (k.tag (tagV (fld w 35 32))) = false
  aligned : fld w 70 50 % 64 = 0
  pitch : fld w 88 71 = vldBytes w ∨ fld w 88 71 % 64 = 0
  scales : isMx (fld w 39 36) = true → fld w 109 89 % 32 = 0

/-- A scale is read for an MX format alone. -/
theorem loadRow_scale {f : Nat} (h : isMx f = false) (a b : Nat) (l : List Byte) : loadRow f a l = loadRow f b l := by
  unfold loadRow
  simp [h]

theorem State.leNat_bytes_one (d : State) (a : Nat) : leNat (d.bytes a 1) = (d.byte a).toNat := by simp [State.bytes, leNat]

/-- The pieces that a load reads give its rows. -/
theorem State.vldRow_pieces (d : State) (c : CoreId) {w : Cmd} {i : Nat} (hi : i ∈ vldRows w) :
    loadRow (fld w 39 36) (leNat (pieceAt (d.pieces c (vldRanges w)) (fld w 109 89 + i) 1))
      (pieceAt (d.pieces c (vldRanges w)) (vldSrc w i) (vldBytes w)) = d.vldRow c w i := by
  have hrow : (vldSrc w i, vldBytes w) ∈ vldRanges w := List.mem_append_left _ (List.mem_map.mpr ⟨i, hi, rfl⟩)
  unfold State.vldRow
  rw [pieceAt_mem hrow]
  cases hmx : isMx (fld w 39 36) with
  | false => exact loadRow_scale hmx ..
  | true =>
    have hscale : (fld w 109 89 + i, 1) ∈ vldRanges w := by
      unfold vldRanges
      rw [if_pos hmx]
      exact List.mem_append_right _ (List.mem_map.mpr ⟨i, hi, rfl⟩)
    rw [pieceAt_mem hscale, State.leNat_bytes_one]

/-- A load from memory that passes its checks writes its rows, of sound bytes. -/
theorem startVld_loads (h : (d.core c.val).VldPasses q.w) (hs : d.soundAll c (vldRanges q.w) = true) :
    ∃ t fl, startVld d c.val q = .go t { q with flags := fl } ∧
      RegsOnly c ((d.core c.val).putRows (fld q.w 35 32) (tileFmt (fld q.w 39 36)) ((vldRows q.w).map (fun i => (i, (d.vldRow c q.w i).1)))) d t := by
  obtain ⟨hbands, hmem, hfree, halign, hpitch, hscales⟩ := h
  obtain ⟨u, hu, hregs⟩ := State.engReads_sound ((d.core c.val).slot q.slot.val).ctx.toNat _ d hs
  have hspace := State.soundAll_inSlabSpace hs
  have hgot : (vldRows q.w).map (fun i => (i, loadRow (fld q.w 39 36) (leNat (pieceAt (d.pieces c (vldRanges q.w)) (fld q.w 109 89 + i) 1))
      (pieceAt (d.pieces c (vldRanges q.w)) (vldSrc q.w i) (vldBytes q.w)))) = (vldRows q.w).map (fun i => (i, d.vldRow c q.w i)) :=
    List.map_congr_left fun i hi => by rw [State.vldRow_pieces d c hi]
  have hgo : ∃ fl, startVld d c.val q = .go (u.modCore c.val (fun k => k.putRows (fld q.w 35 32) (tileFmt (fld q.w 39 36))
      ((vldRows q.w).map (fun i => (i, (d.vldRow c q.w i).1))))) { q with flags := fl } := by
    unfold vldRanges vldRows vldSrc vldBytes at hu hspace hgot
    unfold vldBytes at hpitch
    unfold startVld
    dsimp only
    rw [if_neg hbands, if_neg (ne_true_of_eq_false hfree), if_neg (ne_true_of_eq_false hmem), if_neg (not_misaligned halign hpitch hscales),
      hspace, if_neg Bool.false_ne_true, hu]
    dsimp only
    rw [if_neg (by decide), if_neg (not_not_intro rfl), hgot]
    simp only [List.map_map, Function.comp_def]
    exact ⟨_, rfl⟩
  obtain ⟨fl, hgo⟩ := hgo
  exact ⟨_, fl, hgo, hregs.putRows _ _ _⟩

/-! ### VST -/

/-- Format of the tile that a store reads, the rows of its bands, row i as it is stored with its scale byte, and all that is stored. -/
def Core.vstFmt (k : Core) (w : Cmd) : Nat := tFmt (k.tag (tagV (fld w 35 32)))
def Core.vstRows (k : Core) (w : Cmd) : List Nat := bandRows (fld w 43 40) (vRows (k.vstFmt w))
def Core.vstRow (k : Core) (x : Slot) (w : Cmd) (i : Nat) : Nat × Nat × Cf :=
  storeRow (k.vstFmt w) (fld w 39 36) (narrowOf x w (fld w 46 45) (bit w 44)) (fun j => srIndex w i j) (vRow (k.vreg (fld w 35 32)) (k.vstFmt w) i)
def Core.vstItems (k : Core) (x : Slot) (w : Cmd) : Pieces :=
  (k.vstRows w).map (fun i => (fld w 67 47 + i * fld w 85 68, natLe (rowBytes (fld w 39 36) (vCols (k.vstFmt w))) (k.vstRow x w i).1)) ++
    if isMx (fld w 39 36) then (k.vstRows w).map (fun i => (fld w 106 86 + i, natLe 1 (k.vstRow x w i).2.1)) else []

/-- A store of some bands passes the checks of R137 and R155, and those of the words that it reads. -/
structure Core.VstPasses (k : Core) (w : Cmd) : Prop where
  bands : fld w 43 40 ≠ 0
  tag : tagCheck (k.tag (tagV (fld w 35 32))) (rowsRead (fld w 43 40) (vRows (k.vstFmt w))) (vstPair (k.vstFmt w) (fld w 39 36)) = stOk
  aligned : fld w 67 47 % 64 = 0
  pitch : fld w 85 68 = rowBytes (fld w 39 36) (vCols (k.vstFmt w)) ∨ fld w 85 68 % 64 = 0
  scales : isMx (fld w 39 36) = true → fld w 106 86 % 32 = 0
  words : k.regBad (tagV (fld w 35 32)) (vWords (k.vstFmt w) (k.vstRows w)) = false

/-- A store that passes its checks stores its rows in sound bytes. -/
theorem startVst_stores (h : (d.core c.val).VstPasses q.w)
    (hs : d.soundAll c (rangesOf ((d.core c.val).vstItems ((d.core c.val).slot q.slot.val) q.w)) = true) :
    ∃ t fl, startVst d c.val q = .go t { q with flags := fl } ∧
      Stores c (d.core c.val) ((d.core c.val).vstItems ((d.core c.val).slot q.slot.val) q.w) d t := by
  obtain ⟨hbands, htag, halign, hpitch, hscales, hwords⟩ := h
  obtain ⟨t, ht, hst⟩ := State.engWrites_sound hs ((d.core c.val).slot q.slot.val).ctx.toNat
  have hgo : ∃ fl, startVst d c.val q = .go t { q with flags := fl } := by
    unfold Core.vstItems Core.vstRow Core.vstRows Core.vstFmt at ht
    unfold Core.vstRows Core.vstFmt at hwords
    unfold Core.vstFmt at htag hpitch
    unfold startVst
    dsimp only
    rw [if_neg hbands, if_neg (not_not_intro htag), if_neg (not_misaligned halign hpitch hscales), hwords, if_neg Bool.false_ne_true]
    simp only [List.map_map, Function.comp_def]
    rw [ht]
    exact ⟨_, if_neg (not_not_intro rfl)⟩
  obtain ⟨fl, hgo⟩ := hgo
  exact ⟨t, fl, hgo, hst⟩

end

/-- Sound ranges together. -/
theorem State.soundAll_append {d : State} {c : CoreId} {l m : List (Nat × Nat)} (hl : d.soundAll c l = true) (hm : d.soundAll c m = true) :
    d.soundAll c (l ++ m) = true := by
  unfold State.soundAll at *
  rw [List.all_append, hl, hm]
  rfl

/-- Settles O30: past its checks a load writes the rows that it read from sound bytes (`vRow_setRows`), and a store writes its
pieces to sound bytes. -/
theorem vectorMemory : Obligations.VectorMemory := by
  intro s c sl w
  refine ⟨?_, ?_⟩
  · intro d r k f nb rows at' hop hr hb hbands hmem hfree halign hpitch hscales hrows hmx
    have hsound : d.soundAll c (vldRanges r) = true := by
      refine State.soundAll_append hrows ?_
      split
      · exact hmx ‹_›
      · rfl
    obtain ⟨t, fl, ht, hregs⟩ := startVld_loads (q := s.headEntry vldInfo c sl w) ⟨hbands, hmem, hfree, halign, hpitch, hscales⟩ hsound
    rw [Core.putRows_map] at hregs
    exact Starts.of_vector rfl rfl rfl hop hr hb ht rfl (by decide)
      ⟨_, hregs, fun i _ => vRow_setRows _ _ (fun _ hi => mem_bandRows hi) i⟩
  · intro d r k f tg tf nb row rows items hop hr hb hbands htag halign hpitch hscales hwords hsound
    obtain ⟨t, fl, ht, hst⟩ := startVst_stores (q := s.headEntry vstInfo c sl w) ⟨hbands, htag, halign, hpitch, hscales, hwords⟩ hsound
    exact Starts.of_vector rfl rfl rfl hop hr hb ht rfl (by decide) ⟨hst, rfl, rfl⟩

end Sys2Proof.Machine
end

section
/-! VOP as the vector engine takes it (R150, R156). -/

namespace Sys2Proof.Machine

section
variable {d : State} {c : CoreId} {q : QEnt}

/-! ### Operands and results -/

/-- The element of VA at a place, at the mirrored place where the operation transposes, and that of VB as the mode gives it: whole,
its row 0, its column 0, or the immediate. -/
def vopA (op bits cols : Nat) (a : BitVec 32768) (i j : Nat) : Nat := if op = 0x30 then vElem a bits (cols * j + i) else vElem a bits (cols * i + j)
def vopB (w : Cmd) (bits cols : Nat) (b : BitVec 32768) (i j : Nat) : Nat :=
  match fld w 55 54 with
  | 0 => vElem b bits (cols * i + j)
  | 1 => vElem b bits j
  | 2 => vElem b bits (cols * i)
  | _ => fld w 127 64 % 2 ^ bits

theorem vopB_eq (w : Cmd) (bits cols : Nat) (b : BitVec 32768) (i j : Nat) : vopB w bits cols b i j =
    if fld w 55 54 = 0 then vElem b bits (cols * i + j) else if fld w 55 54 = 1 then vElem b bits j
    else if fld w 55 54 = 2 then vElem b bits (cols * i) else fld w 127 64 % 2 ^ bits := by
  unfold vopB
  split <;> simp_all

/-- Format of the operands, and element j of row i of the result, with its flags. -/
def Core.vopFmt (k : Core) (w : Cmd) : Nat := tFmt (k.tag (tagV (fld w 45 42)))
def Core.vopElem (k : Core) (w : Cmd) (i j : Nat) : Nat × Cf :=
  let f := if k.vopFmt w = 0 then fp32 else fp64
  let op := fld w 37 32
  let a := vopA op (fmtBits (k.vopFmt w)) (vCols (k.vopFmt w)) (k.vreg (fld w 45 42)) i j
  let b := vopB w (fmtBits (k.vopFmt w)) (vCols (k.vopFmt w)) (k.vreg (fld w 49 46)) i j
  let z := vElem (k.vreg (fld w 53 50)) (fmtBits (k.vopFmt w)) (vCols (k.vopFmt w) * i + j)
  (Machine.vopElem f op a b z, vopFlags f op a b z (Machine.vopElem f op a b z))

theorem Core.vopElem_fst (k : Core) (w : Cmd) (i j : Nat) : (k.vopElem w i j).1 =
    Machine.vopElem (if k.vopFmt w = 0 then fp32 else fp64) (fld w 37 32)
      (vopA (fld w 37 32) (fmtBits (k.vopFmt w)) (vCols (k.vopFmt w)) (k.vreg (fld w 45 42)) i j)
      (vopB w (fmtBits (k.vopFmt w)) (vCols (k.vopFmt w)) (k.vreg (fld w 49 46)) i j)
      (vElem (k.vreg (fld w 53 50)) (fmtBits (k.vopFmt w)) (vCols (k.vopFmt w) * i + j)) := rfl

/-- The rows that VOP writes: those of its bands, their elements packed. -/
def Core.vopRows (k : Core) (w : Cmd) : List (Nat × Nat) :=
  (bandRows (fld w 59 56) 32).map (fun i =>
    (i, packElems (fmtBits (k.vopFmt w)) ((List.range (vCols (k.vopFmt w))).map (fun j => (k.vopElem w i j).1))))

/-- A VOP on some bands passes the checks of R137 and R156, and those of the words that it reads. -/
structure Core.VopPasses (k : Core) (w : Cmd) : Prop where
  bands : fld w 59 56 ≠ 0
  a : tagCheck (k.tag (tagV (fld w 45 42))) (if fld w 37 32 = 0x30 then 32 else rowsRead (fld w 59 56) 32)
    ((k.vopFmt w = 0 || k.vopFmt w = 13) && vopFmtOk (fld w 37 32) (k.vopFmt w)) = stOk
  b : vopUnary (fld w 37 32) = false → fld w 55 54 ≠ 3 →
    tagCheck (k.tag (tagV (fld w 49 46))) (if fld w 55 54 = 1 then 1 else rowsRead (fld w 59 56) 32)
      (tFmt (k.tag (tagV (fld w 49 46))) = k.vopFmt w) = stOk
  c : vopUsesC (fld w 37 32) = true →
    tagCheck (k.tag (tagV (fld w 53 50))) (rowsRead (fld w 59 56) 32) (tFmt (k.tag (tagV (fld w 53 50))) = k.vopFmt w) = stOk
  free : tLoading (k.tag (tagV (fld w 41 38))) = false
  words : vopBad k w (k.vopFmt w) = false

/-! ### The start -/

/-- VOP goes past its checks to its rows. -/
theorem startVop_go (h : (d.core c.val).VopPasses q.w) : ∃ fl, startVop d c.val q =
    .go (d.modCore c.val (fun k => k.putRows (fld q.w 41 38) ((d.core c.val).vopFmt q.w) ((d.core c.val).vopRows q.w))) { q with flags := fl } := by
  obtain ⟨hbands, ha, hb, hc, hfree, hwords⟩ := h
  have hsb : (if (!vopUnary (fld q.w 37 32) && decide (fld q.w 55 54 ≠ 3)) = true then
      tagCheck ((d.core c.val).tag (tagV (fld q.w 49 46))) (if fld q.w 55 54 = 1 then 1 else rowsRead (fld q.w 59 56) 32)
        (tFmt ((d.core c.val).tag (tagV (fld q.w 49 46))) = (d.core c.val).vopFmt q.w) else stOk) = stOk := by
    split
    · rename_i hu
      obtain ⟨hu, hm⟩ := Bool.and_eq_true_iff.mp hu
      exact hb (by simpa using hu) (by simpa using hm)
    · rfl
  have hsc : (if vopUsesC (fld q.w 37 32) = true then tagCheck ((d.core c.val).tag (tagV (fld q.w 53 50))) (rowsRead (fld q.w 59 56) 32)
      (tFmt ((d.core c.val).tag (tagV (fld q.w 53 50))) = (d.core c.val).vopFmt q.w) else stOk) = stOk := by
    split
    · exact hc ‹_›
    · rfl
  unfold Core.vopFmt at ha hsb hsc hwords
  unfold startVop Core.vopRows Core.vopElem vopA vopB Core.vopFmt
  dsimp only
  rw [if_neg hbands, if_neg (not_not_intro ha), if_neg (not_not_intro hsb), if_neg (not_not_intro hsc), if_neg (ne_true_of_eq_false hfree),
    if_neg (ne_true_of_eq_false hwords)]
  simp only [List.map_map, Function.comp_def]
  exact ⟨_, rfl⟩

end

/-- A tag that passes its checks is one that the command accepts. -/
theorem tagCheck_accepts {t : BitVec 128} {n : Nat} {accepts : Bool} (h : tagCheck t n accepts = stOk) : accepts = true := by
  cases accepts with
  | true => rfl
  | false =>
    unfold tagCheck at h
    split at h
    · exact absurd h (by decide)
    · exact absurd ((if_pos rfl).symm.trans h) (by decide)

/-- The formats of VOP: a row is 1,024 bits. -/
theorem vop_row_bits {fmt : Nat} (h : fmt = 0 ∨ fmt = 13) : 0 < fmtBits fmt ∧ fmtBits fmt * vCols fmt = vRowBits fmt ∧ vRows fmt = 32 := by
  rcases h with rfl | rfl <;> decide

/-- Settles O31: past its checks VOP writes the packed rows of its bands (`Core.vopRows`), whose elements read back
(`vElem_setRows`); other rows are those of `Core.vBase` (`vRow_setRows`). -/
theorem vectorArithmetic : Obligations.VectorArithmetic := by
  intro s c sl w d r k op bm ta tb tc fmt hb bits cols da db hop hr hblock hbands ha hbs hcs hfree hwords
  have hfmt : fmt = 0 ∨ fmt = 13 := by
    have hacc := tagCheck_accepts ha
    simpa using (Bool.and_eq_true_iff.mp hacc).1
  obtain ⟨hpos, hrow, hrows⟩ := vop_row_bits hfmt
  have hlt : ∀ i ∈ bandRows (fld r 59 56) 32, i < vRows fmt := fun i hi => by rw [hrows]; exact mem_bandRows hi
  obtain ⟨fl, ht⟩ := startVop_go (d := d) (q := s.headEntry vopInfo c sl w) ⟨hbands, ha, hbs, hcs, hfree, hwords⟩
  have hregs := (RegsOnly.refl c d).putRows (fld r 41 38) fmt (k.vopRows r)
  unfold Core.vopRows at hregs
  rw [Core.putRows_map] at hregs
  refine Starts.of_vector rfl rfl rfl hop hr hblock ht rfl (by decide) ⟨_, hregs, rfl, fun i hi j hj => ?_, fun i _ hi => ?_⟩
  · refine ((vElem_setRows _ (fun i j => (k.vopElem r i j).1) hpos hrow hlt hj).trans (if_pos hi)).trans (congrArg (· % 2 ^ bits) ?_)
    rw [Core.vopElem_fst, vopB_eq]
    rfl
  · exact (vRow_setRows _ _ hlt i).trans (if_neg hi)

end Sys2Proof.Machine
end

section
/-! VCVT, VALA, VMOVE and VREL as the vector engine takes them (R138, R142, R143, R157, R158). -/

namespace Sys2Proof.Machine

section
variable {d t : State} {c : CoreId} {k : Core} {q : QEnt} {w : Cmd}

/-- Reads of slabs, and then a vector register. -/
theorem RegsOnly.setV (h : RegsOnly c k d t) (n : Nat) (v : BitVec 32768) (tag : BitVec 128) (keep : Nat → Bool) :
    RegsOnly c (k.setV n v tag keep) d (t.modCore c.val (fun k => k.setV n v tag keep)) :=
  h.modCore fun un cs => ⟨un, cs, Core.setV_keep_counted ..⟩

theorem Core.setX_keep_counted (k : Core) (n : Nat) (v : BitVec 16384) (tag : BitVec 128) (keep : Nat → Bool) (un : KV Bool)
    (cs : KV (BitVec 64)) : ({ k with unread := un, counters := cs } : Core).setX n v tag keep =
      { k.setX n v tag keep with unread := un, counters := cs } := rfl

/-- Reads of slabs, and then an X register. -/
theorem RegsOnly.setX (h : RegsOnly c k d t) (n : Nat) (v : BitVec 16384) (tag : BitVec 128) (keep : Nat → Bool) :
    RegsOnly c (k.setX n v tag keep) d (t.modCore c.val (fun k => k.setX n v tag keep)) :=
  h.modCore fun un cs => ⟨un, cs, Core.setX_keep_counted ..⟩

/-! ### VCVT -/

/-- Format of the source, the data that VD keeps, and the rows that the conversion writes with their flags. -/
def Core.vcvtSrc (k : Core) (w : Cmd) : Nat := tFmt (k.tag (tagV (fld w 39 36)))
def Core.vcvtOld (k : Core) (w : Cmd) : BitVec 32768 := k.vBase (fld w 35 32) (fld w 43 40)
def Core.vcvtOut (k : Core) (x : Slot) (w : Cmd) : List (Nat × Nat) × Cf :=
  vcvtRowsOut (narrowOf x w (fld w 70 69) (bit w 68)) w (k.vcvtSrc w) (fld w 43 40) (fld w 46 44) (signed 16 (fld w 62 47))
    (k.vreg (fld w 39 36)) (k.vcvtOld w)

/-- A conversion passes the checks of R137 and R157, and those of the words that it reads. -/
structure Core.VcvtPasses (k : Core) (w : Cmd) : Prop where
  tag : tagCheck (k.tag (tagV (fld w 39 36))) (vcvtRows (k.vcvtSrc w) (fld w 43 40) (fld w 46 44)) true = stOk
  pairing : vcvtOk (k.vcvtSrc w) (fld w 43 40) (fld w 46 44) = true
  free : tLoading (k.tag (tagV (fld w 35 32))) = false
  words : k.regBad (tagV (fld w 39 36)) (vcvtWords (k.vcvtSrc w) (fld w 43 40) (fld w 46 44)) = false

theorem startVcvt_go (h : (d.core c.val).VcvtPasses q.w) : ∃ fl, startVcvt d c.val q = .go (d.modCore c.val (fun k => k.setV (fld q.w 35 32)
      (setRows ((d.core c.val).vcvtOld q.w) (fld q.w 43 40) ((d.core c.val).vcvtOut ((d.core c.val).slot q.slot.val) q.w).1) (vTag (fld q.w 43 40))
      (vcvtKeeps ((d.core c.val).vcvtSrc q.w) (fld q.w 43 40) (fld q.w 46 44) ((d.core c.val).vcvtOut ((d.core c.val).slot q.slot.val) q.w).1)))
    { q with flags := fl } := by
  obtain ⟨htag, hpair, hfree, hwords⟩ := h
  unfold Core.vcvtOut Core.vcvtOld
  unfold Core.vcvtSrc at htag hpair hwords ⊢
  unfold startVcvt
  dsimp only
  rw [htag, if_neg (by decide), hpair, if_neg (by decide), if_neg (not_not_intro rfl), if_neg (ne_true_of_eq_false hfree),
    if_neg (ne_true_of_eq_false hwords)]
  exact ⟨_, rfl⟩

/-- FP32 to FP64: every row of VD holds 16 widened elements of the window. -/
theorem vcvtRowsOut_widen (n : Narrow) (w : Cmd) (win : Nat) (anchor : Int) (a old : BitVec 32768) : (vcvtRowsOut n w 0 13 win anchor a old).1 =
    (List.range 32).map (fun i => (i, packElems 64 ((List.range 16).map (fun j =>
      (fp64.encode .rne false (fp32.decode (vElem a 32 (32 * i + 16 * win + j)))).1)))) := by
  unfold vcvtRowsOut
  dsimp only
  rw [if_pos ⟨rfl, rfl⟩]
  simp only [List.map_map, Function.comp_def, Nat.zero_add]
  rfl

/-- FP64 to FP32: outside the window a row of VD keeps its elements. -/
theorem vcvtRowsOut_narrow (n : Narrow) (w : Cmd) (win : Nat) (anchor : Int) (a old : BitVec 32768) : (vcvtRowsOut n w 13 0 win anchor a old).1 =
    (List.range 32).map (fun i => (i, packElems 32 ((List.range 32).map (fun j =>
      (if j / 16 = win then fp32.encode (n.rm (srIndex w i (j % 16))) n.sat (fp64.decode (vElem a 64 (16 * i + j % 16)))
        else (vElem old 32 (32 * i + j), {})).1)))) := by
  unfold vcvtRowsOut
  dsimp only
  rw [if_neg (by omega), if_pos ⟨rfl, rfl⟩]
  simp only [List.map_map, Function.comp_def, Nat.zero_add]
  rfl

theorem vElem_lt (a : BitVec 32768) {n : Nat} (hn : 0 < n) (i : Nat) : vElem a n i < 2 ^ n := by
  unfold vElem fld
  rw [show n * i + n - 1 - n * i + 1 = n by omega]
  exact Nat.mod_lt _ (by positivity)

theorem Core.vcvtOut_widen {x : Slot} (hs : k.vcvtSrc w = 0) (hd : fld w 43 40 = 13) {i j : Nat} (hi : i < 32) (hj : j < 16) :
    vElem (setRows (k.vcvtOld w) (fld w 43 40) (k.vcvtOut x w).1) 64 (16 * i + j) =
      (fp64.encode .rne false (fp32.decode (vElem (k.vreg (fld w 39 36)) 32 (32 * i + 16 * fld w 46 44 + j)))).1 % 2 ^ 64 := by
  unfold Core.vcvtOut
  rw [hs, hd, vcvtRowsOut_widen]
  exact (vElem_setRows (rows := List.range 32) (fmt := 13) _ _ (by decide) (by decide) (fun r => List.mem_range.mp) hj).trans
    (if_pos (List.mem_range.mpr hi))

theorem Core.vcvtOut_narrow {x : Slot} (hs : k.vcvtSrc w = 13) (hd : fld w 43 40 = 0) {i j : Nat} (hi : i < 32) (hj : j < 32)
    (hwin : j / 16 ≠ fld w 46 44) :
    vElem (setRows (k.vcvtOld w) (fld w 43 40) (k.vcvtOut x w).1) 32 (32 * i + j) = vElem (k.vcvtOld w) 32 (32 * i + j) := by
  unfold Core.vcvtOut
  rw [hs, hd, vcvtRowsOut_narrow]
  refine ((vElem_setRows (rows := List.range 32) (fmt := 0) _ _ (by decide) (by decide) (fun r => List.mem_range.mp) hj).trans
    (if_pos (List.mem_range.mpr hi))).trans ?_
  rw [if_neg hwin]
  exact Nat.mod_eq_of_lt (vElem_lt _ (by decide) _)

/-! ### VALA -/

/-- A source of ALA-192 elements passes the checks of R137 and those of its words. -/
structure Core.AlaSource (k : Core) (n : Nat) : Prop where
  tag : tagCheck (k.tag (tagV n)) 4 (tFmt (k.tag (tagV n)) = fmAla) = stOk
  words : k.regBad (tagV n) (fun _ => true) = false

/-- Element i of an ALA-192 register. -/
def Core.ala (k : Core) (n i : Nat) : Ala := Ala.ofWord (vElem (k.vreg n) 256 i)

/-- The register that VALA leaves of 128 elements. -/
def alaReg (f : Nat → Nat) : BitVec 32768 := BitVec.ofNat 32768 (packElems 256 ((List.range 128).map f))

theorem vElem_alaReg (f : Nat → Nat) {i : Nat} (hi : i < 128) : vElem (alaReg f) 256 i = f i % 2 ^ 256 := by
  unfold alaReg
  rw [vElem_ofNat_packElems (by decide) (by simpa using hi) (by simp)]
  simp

/-- A read of sound bytes by an engine of the core. -/
theorem State.engRead_sound {a n : Nat} (h : d.soundAll c [(a, n)] = true) (ctx : Nat) :
    ∃ t, d.engRead c.val ctx a n = ⟨d.bytes (slabKey c.val a) n, stOk, t⟩ ∧ RegsOnly c (d.core c.val) d t := by
  unfold State.soundAll at h
  simp only [List.all_cons, List.all_nil, Bool.and_true, Bool.and_eq_true] at h
  unfold State.engRead
  rw [State.readDie_sound h.2]
  exact ⟨_, rfl, State.consumeUnread_regsOnly d c a n⟩

/-- AOP 0: two registers element by element. -/
theorem startVala_registers (hop : fld q.w 33 32 = 0) (hfree : tLoading ((d.core c.val).tag (tagV (fld q.w 37 34))) = false)
    (ha : (d.core c.val).AlaSource (fld q.w 41 38)) (hb : (d.core c.val).AlaSource (fld q.w 45 42)) :
    ∃ fl, startVala d c.val q = .go (d.modCore c.val (fun k => k.setV (fld q.w 37 34)
      (alaReg (fun i => (((d.core c.val).ala (fld q.w 41 38) i).add ((d.core c.val).ala (fld q.w 45 42) i)).word)) (vTag fmAla)))
      { q with flags := fl } := by
  unfold startVala alaReg Core.ala
  dsimp only
  rw [hop]
  simp only [ha.tag, hb.tag, ha.words, hb.words, hfree, List.find?_cons, List.find?_nil, List.any_cons, List.any_nil, List.map_map, Function.comp_def]
  exact ⟨_, rfl⟩

/-- Element i of 128 that stand at an address of the slabs. -/
theorem State.alaAt_bytes (d : State) (c : CoreId) (a : Nat) {i : Nat} (hi : i < 128) :
    leNat (((d.bytes (slabKey c.val a) 4096).drop (32 * i)).take 32) = d.num (slabKey c.val (a + 32 * i)) 32 := by
  rw [State.bytes_drop _ _ _ _ (by omega), State.bytes_take _ _ _ _ (by omega)]
  unfold State.num
  rw [show slabKey c.val a + 32 * i = slabKey c.val (a + 32 * i) from Nat.add_assoc ..]

/-- The word of element i that AOP 1 leaves: that of the register added to that in memory. -/
def State.alaWithMemory (d : State) (c : CoreId) (w : Cmd) (i : Nat) : Nat :=
  (((d.core c.val).ala (fld w 37 34) i).add (Ala.ofWord (d.num (slabKey c.val (fld w 66 46 + 32 * i)) 32))).word

/-- AOP 1: a register and sound memory. -/
theorem startVala_memory (hop : fld q.w 33 32 = 1) (hfree : tLoading ((d.core c.val).tag (tagV (fld q.w 37 34))) = false)
    (hv : (d.core c.val).AlaSource (fld q.w 37 34)) (hs : d.soundAll c [(fld q.w 66 46, 4096)] = true) :
    ∃ t fl, startVala d c.val q = .go t { q with flags := fl } ∧
      RegsOnly c ((d.core c.val).setV (fld q.w 37 34) (alaReg (d.alaWithMemory c q.w)) (vTag fmAla)) d t := by
  obtain ⟨u, hu, hregs⟩ := State.engRead_sound hs ((d.core c.val).slot q.slot.val).ctx.toNat
  have hspace : inSlabSpace (fld q.w 66 46) 4096 = true := by simpa using State.soundAll_inSlabSpace hs
  have hes : (List.range 128).map (fun i => (((d.core c.val).ala (fld q.w 37 34) i).add
      (Ala.ofWord (leNat (((d.bytes (slabKey c.val (fld q.w 66 46)) 4096).drop (32 * i)).take 32)))).word) =
      (List.range 128).map (d.alaWithMemory c q.w) :=
    List.map_congr_left fun i hi => by rw [State.alaAt_bytes d c _ (List.mem_range.mp hi)]; rfl
  have hgo : ∃ fl, startVala d c.val q =
      .go (u.modCore c.val (fun k => k.setV (fld q.w 37 34) (alaReg (d.alaWithMemory c q.w)) (vTag fmAla))) { q with flags := fl } := by
    unfold alaReg
    rw [← hes]
    unfold startVala Core.ala
    dsimp only
    rw [hop]
    simp only [hv.tag, hv.words, hfree, hspace, hu, List.find?_cons, List.find?_nil, List.any_cons, List.any_nil, List.map_map,
      Function.comp_def]
    exact ⟨_, rfl⟩
  obtain ⟨fl, hgo⟩ := hgo
  exact ⟨_, fl, hgo, hregs.setV _ _ _ _⟩

/-- The sum of a row's 32 elements, in their order. -/
def Core.alaSum (k : Core) (n i : Nat) : Ala := (List.range 31).foldl (fun a j => a.add (k.ala n (i + 1 + j))) (k.ala n i)

/-- AOP 2: the sum of each row stands in its first element, and the others are zero. -/
theorem startVala_rows (hop : fld q.w 33 32 = 2) (hfree : tLoading ((d.core c.val).tag (tagV (fld q.w 37 34))) = false)
    (ha : (d.core c.val).AlaSource (fld q.w 41 38)) :
    ∃ fl, startVala d c.val q = .go (d.modCore c.val (fun k => k.setV (fld q.w 37 34)
      (alaReg (fun i => if i % 32 ≠ 0 then 0 else ((d.core c.val).alaSum (fld q.w 41 38) i).word)) (vTag fmAla))) { q with flags := fl } := by
  have hfold (i : Nat) : ((List.range 31).foldl (fun (a : Ala × Cf) j =>
      ((alaAdd a.1 ((d.core c.val).ala (fld q.w 41 38) (i + 1 + j))).1, a.2.or (alaAdd a.1 ((d.core c.val).ala (fld q.w 41 38) (i + 1 + j))).2))
      ((d.core c.val).ala (fld q.w 41 38) i, {})).1 = (d.core c.val).alaSum (fld q.w 41 38) i :=
    foldl_fst _ fun _ _ _ => rfl
  unfold alaReg
  simp only [← hfold]
  unfold startVala Core.ala
  dsimp only
  rw [hop]
  simp only [ha.tag, ha.words, hfree, List.find?_cons, List.find?_nil, List.any_cons, List.any_nil, List.map_map,
    Function.comp_def, apply_ite Prod.fst]
  exact ⟨_, rfl⟩

/-! ### VMOVE -/

/-- An 8-bit format; columns of a row that one command moves, its first column, its bytes, and where in a lane row they begin (R142). -/
def vmSmall (f : Nat) : Bool := [3, 4, 11].contains f
def vmCols (f : Nat) : Nat := if f = 0 then 16 else 32
def vmCol0 (w : Cmd) : Nat := if fld w 42 39 = 0 then 16 * b2n (bit w 43) else 0
def vmBytes (f : Nat) : Nat := vmCols f * fmtBits f / 8
def vmOff (f : Nat) (half : Bool) : Nat := if vmSmall f then 32 * b2n half else 0

/-- HALF 1 of an 8-bit format merges (R143). -/
def vmMerges (w : Cmd) : Bool := vmSmall (fld w 42 39) && b2n (bit w 43) = 1
def vmTag (old : BitVec 128) (w : Cmd) : BitVec 128 :=
  if vmMerges w then setFld old 42 32 32 else mkTag 0 (fld w 42 39) 32 (if vmSmall (fld w 42 39) then 16 else vmCols (fld w 42 39)) 32

/-- Words of the source that a move reads. -/
def vmWords (w : Cmd) : Nat → Bool :=
  if fld w 42 39 = 0 then vColWords 0 32 (16 * b2n (bit w 43)) (16 * b2n (bit w 43) + 16) (List.range 32) else fun _ => true

/-- Row i as it is moved: its elements narrowed and packed. -/
def Core.vmRow (k : Core) (x : Slot) (w : Cmd) (i : Nat) : Nat :=
  packElems (fmtBits (fld w 42 39)) ((List.range (vmCols (fld w 42 39))).map (fun j =>
    (narrow (fld w 42 39) (narrowOf x w (fld w 46 45) (bit w 44)) (srIndex w i (vmCol0 w + j))
      (fp32.decode (vElem (k.vreg (fld w 35 32)) 32 (32 * i + vmCol0 w + j)))).1))

/-- The first byte of row i as it is moved, and its end. -/
def vmAt (w : Cmd) (i : Nat) : Nat := 64 * i + vmOff (fld w 42 39) (bit w 43)
def vmEnd (w : Cmd) (i : Nat) : Nat := vmAt w i + vmBytes (fld w 42 39)

/-- The X register with 32 rows moved into it. -/
def Core.vmReg (k : Core) (x : Slot) (w : Cmd) : BitVec 16384 :=
  setFlds (k.xreg (fld w 38 36)) (fun i => 8 * vmEnd w i - 1) (fun i => 8 * vmAt w i) (k.vmRow x w) (List.range 32)

/-- A move passes the checks of R137, R142 and R143, and those of the words that it reads. -/
structure Core.VmovePasses (k : Core) (w : Cmd) : Prop where
  tag : tagCheck (k.tag (tagV (fld w 35 32))) 32 (tFmt (k.tag (tagV (fld w 35 32))) = 0) = stOk
  free : tLoading (k.tag (tagX (fld w 38 36))) = false
  merged : vmSmall (fld w 42 39) = true → b2n (bit w 43) = 1 → tInUse (k.tag (tagX (fld w 38 36))) = true ∧
    tFmt (k.tag (tagX (fld w 38 36))) = fld w 42 39 ∧ tRows (k.tag (tagX (fld w 38 36))) = 32 ∧ tPos (k.tag (tagX (fld w 38 36))) = 16
  words : k.regBad (tagV (fld w 35 32)) (vmWords w) = false

theorem startVmove_go (h : (d.core c.val).VmovePasses q.w) : ∃ fl, startVmove d c.val q = .go (d.modCore c.val (fun k => k.setX (fld q.w 38 36)
      ((d.core c.val).vmReg ((d.core c.val).slot q.slot.val) q.w) (vmTag ((d.core c.val).tag (tagX (fld q.w 38 36))) q.w)
      (fun i => vmMerges q.w && decide (i % 2 = 0)))) { q with flags := fl } := by
  obtain ⟨htag, hfree, hmerged, hwords⟩ := h
  have hshape : (vmMerges q.w && !(tInUse ((d.core c.val).tag (tagX (fld q.w 38 36))) &&
      tFmt ((d.core c.val).tag (tagX (fld q.w 38 36))) = fld q.w 42 39 && tRows ((d.core c.val).tag (tagX (fld q.w 38 36))) = 32 &&
      tPos ((d.core c.val).tag (tagX (fld q.w 38 36))) = 16)) = false := by
    cases hm : vmMerges q.w with
    | false => rfl
    | true =>
      obtain ⟨hsmall, hhalf⟩ := Bool.and_eq_true_iff.mp hm
      obtain ⟨h1, h2, h3, h4⟩ := hmerged hsmall (by simpa using hhalf)
      simp [h1, h2, h3, h4]
  unfold vmMerges vmSmall at hshape
  unfold vmWords at hwords
  unfold startVmove Core.vmReg Core.vmRow setFlds vmTag vmMerges vmEnd vmAt vmOff vmBytes vmCols vmSmall vmCol0
  dsimp only
  rw [if_neg (not_not_intro htag), if_neg (ne_true_of_eq_false hfree), if_neg (ne_true_of_eq_false hshape), if_neg (ne_true_of_eq_false hwords)]
  simp only [zipIdx_map_range, List.foldl_map, List.map_map, Function.comp_def]
  exact ⟨_, rfl⟩

/-- A row moved lies in its 64 bytes. -/
theorem vm_span : ∀ f ∈ [0, 1, 2, 3, 4, 11], ∀ half : Bool, 0 < vmBytes f ∧ vmOff f half + vmBytes f ≤ 64 := by decide

theorem vm_span_of_legal (h : vmoveInfo.legal w = true) :
    0 < vmBytes (fld w 42 39) ∧ vmOff (fld w 42 39) (bit w 43) + vmBytes (fld w 42 39) ≤ 64 := by
  simp only [vmoveInfo, Bool.and_eq_true, List.contains_iff_mem] at h
  exact vm_span _ h.1.1 _

theorem Core.vmReg_row {x : Slot} (h : vmoveInfo.legal w = true) {i : Nat} (hi : i < 32) :
    fld (k.vmReg x w) (8 * vmEnd w i - 1) (8 * vmAt w i) = k.vmRow x w i % 2 ^ (8 * vmBytes (fld w 42 39)) := by
  obtain ⟨hpos, hspan⟩ := vm_span_of_legal h
  unfold Core.vmReg
  rw [fld_setFlds (hi := fun i => 8 * vmEnd w i - 1) (lo := fun i => 8 * vmAt w i) _ ?_ ?_ (List.mem_range.mpr hi)]
  · congr 2
    unfold vmEnd
    omega
  · intro r hr
    have := List.mem_range.mp hr
    unfold vmEnd vmAt
    omega
  · intro r _ hr
    unfold vmEnd vmAt
    omega

theorem Core.vmReg_byte {x : Slot} (h : vmoveInfo.legal w = true) {i j : Nat} (hj : j < 64)
    (hout : j < vmOff (fld w 42 39) (bit w 43) ∨ vmOff (fld w 42 39) (bit w 43) + vmBytes (fld w 42 39) ≤ j) :
    fld (k.vmReg x w) (8 * (64 * i + j) + 7) (8 * (64 * i + j)) = fld (k.xreg (fld w 38 36)) (8 * (64 * i + j) + 7) (8 * (64 * i + j)) := by
  obtain ⟨hpos, hspan⟩ := vm_span_of_legal h
  unfold Core.vmReg
  refine fld_setFlds_ne _ ?_ (by omega) ?_
  · intro r hr
    have := List.mem_range.mp hr
    unfold vmEnd vmAt
    omega
  · intro r _
    unfold vmEnd vmAt
    omega

/-! ### VREL -/

/-- A mask of the vector registers among the 28 registers of a core. -/
theorem vrel_mask (m n : Nat) : m * 2 ^ 12 / 2 ^ n % 2 = 1 ↔ 12 ≤ n ∧ m / 2 ^ (n - 12) % 2 = 1 := by
  by_cases h : 12 ≤ n
  · obtain ⟨j, rfl⟩ := Nat.exists_eq_add_of_le h
    rw [pow_add, Nat.mul_comm m, Nat.mul_div_mul_left _ _ (by positivity), Nat.add_sub_cancel_left]
    simp
  · have e : m * 2 ^ 12 / 2 ^ n = m * 2 ^ (11 - n) * 2 := by
      rw [show (2 : Nat) ^ 12 = 2 ^ n * (2 ^ (11 - n) * 2) by rw [← pow_succ, ← pow_add]; congr 1; omega, ← Nat.mul_assoc, Nat.mul_comm m,
        Nat.mul_assoc, Nat.mul_div_cancel_left _ (by positivity), Nat.mul_assoc]
    rw [e]
    omega

theorem Core.releaseMask_vreg (k : Core) (m : Nat) {n : Nat} (hn : n < 16) :
    KV.get 0 (k.releaseMask (m * 2 ^ 12)).vregs n = if m / 2 ^ n % 2 = 1 then 0 else KV.get 0 k.vregs n := by
  rw [Core.releaseMask_read (P := fun k => KV.get 0 k.vregs n) (z := 0) (i := 12 + n) (by omega)]
  · exact if_congr ((vrel_mask m (12 + n)).trans (by simp)) rfl rfl
  · intro k
    unfold Core.wipe
    dsimp only
    rw [if_neg (by omega), if_neg (by omega), Nat.add_sub_cancel_left, KV.get_del_self]
  · intro k j hj
    unfold Core.wipe
    dsimp only
    split
    · rw [(k.release_regs j).2.2]
    · split
      · rw [(k.release_regs j).2.2]
      · rw [KV.get_del_ne (by omega), (k.release_regs j).2.2]

/-- A mask of vector registers leaves the X registers and the accumulators. -/
theorem Core.releaseMask_matrix (k : Core) (m : Nat) :
    (k.releaseMask (m * 2 ^ 12)).xregs = k.xregs ∧ (k.releaseMask (m * 2 ^ 12)).accs = k.accs := by
  unfold Core.releaseMask
  refine List.foldlRecOn (motive := fun r : Core => r.xregs = k.xregs ∧ r.accs = k.accs) _ _ ⟨rfl, rfl⟩ fun r hr j _ => ?_
  obtain ⟨hx, ha⟩ := hr
  split
  · rename_i hb
    have hj := ((vrel_mask m j).mp hb).1
    obtain ⟨hwx, hwa, -⟩ := (r.release j).wipe_regs j
    rw [hwx, hwa, if_neg (by omega), if_neg (by omega), (r.release_regs j).1, (r.release_regs j).2.1]
    exact ⟨hx, ha⟩
  · exact ⟨hx, ha⟩

theorem startVrel_go (h : ∀ n, n < 16 → fld q.w 47 32 / 2 ^ n % 2 = 1 → tLoading ((d.core c.val).tag (tagV n)) = false) :
    startVrel d c.val q = .go (d.modCore c.val (fun k => k.releaseMask (fld q.w 47 32 * 2 ^ 12))) q := by
  have hany : (List.range 16).any (fun n => fld q.w 47 32 / 2 ^ n % 2 = 1 && tLoading ((d.core c.val).tag (tagV n))) = false :=
    List.any_eq_false.mpr fun n hn => by simpa using h n (List.mem_range.mp hn)
  exact if_neg (ne_true_of_eq_false hany)

end

theorem HeadReady.legal {o : OpInfo} {s : State} {c : CoreId} {sl : SlotId} {w : Cmd} (h : HeadReady o s c sl w) :
    o.legal (resolved o s c sl w) = true := by
  have hw := h.ready.2.2
  unfold OpInfo.within at hw
  exact (Bool.and_eq_true_iff.mp hw).2

/-- Settles O32: past their checks VCVT, VALA and VMOVE write one register, whose elements read back (`Core.vcvtOut_widen`,
`Core.vcvtOut_narrow`, `vElem_alaReg`, `Core.vmReg_row`); VREL releases the registers of its mask (`Core.releaseMask_vreg`). That
a move keeps the other bytes of its register is log 118's. -/
theorem vectorConversions : Obligations.VectorConversions := by
  intro s c sl w
  refine ⟨?_, ?_, ?_, ?_⟩
  · intro d r k src dst win old out hop hr hb htag hpair hfree hwords
    obtain ⟨fl, ht⟩ := startVcvt_go (d := d) (q := s.headEntry vcvtInfo c sl w) ⟨htag, hpair, hfree, hwords⟩
    exact Starts.of_vector rfl rfl rfl hop hr hb ht rfl (by decide) ⟨_, (RegsOnly.refl c d).setV _ _ _ _, rfl,
      fun hs hd i j hi hj => Core.vcvtOut_widen hs hd hi hj, fun hs hd i j hi hj hwin => Core.vcvtOut_narrow hs hd hi hj hwin⟩
  · intro d r k ok el hop hr hb hfree
    refine ⟨fun haop ha hb' => ?_, fun haop hv hsound => ?_, fun haop ha => ?_⟩
    · obtain ⟨fl, ht⟩ := startVala_registers (d := d) (q := s.headEntry valaInfo c sl w) haop hfree ⟨ha.1, ha.2⟩ ⟨hb'.1, hb'.2⟩
      exact Starts.of_vector rfl rfl rfl hop hr hb ht rfl (by decide) ⟨_, (RegsOnly.refl c d).setV _ _ _ _, fun i hi => vElem_alaReg _ hi⟩
    · obtain ⟨t, fl, ht, hregs⟩ := startVala_memory (d := d) (q := s.headEntry valaInfo c sl w) haop hfree ⟨hv.1, hv.2⟩ hsound
      exact Starts.of_vector rfl rfl rfl hop hr hb ht rfl (by decide) ⟨_, hregs, fun i hi => vElem_alaReg _ hi⟩
    · obtain ⟨fl, ht⟩ := startVala_rows (d := d) (q := s.headEntry valaInfo c sl w) haop hfree ⟨ha.1, ha.2⟩
      refine Starts.of_vector rfl rfl rfl hop hr hb ht rfl (by decide) ⟨_, (RegsOnly.refl c d).setV _ _ _ _, fun i hi => ?_⟩
      rw [vElem_alaReg _ (by omega), if_neg (by omega)]
      rfl
  · intro d r k f h old small cols nb off hop hr hb htag hfree hmerged hwords
    obtain ⟨fl, ht⟩ := startVmove_go (d := d) (q := s.headEntry vmoveInfo c sl w) ⟨htag, hfree, hmerged, hwords⟩
    exact Starts.of_vector rfl rfl rfl hop hr hb ht rfl (by decide) ⟨_, (RegsOnly.refl c d).setX _ _ _ _,
      fun i hi => Core.vmReg_row hr.legal hi, fun i j _ hj hout => Core.vmReg_byte hr.legal hj hout⟩
  · intro d r hop hr hb hload
    have ht := startVrel_go (d := d) (c := c) (q := s.headEntry vrelInfo c sl w) hload
    refine Starts.of_vector rfl rfl rfl hop hr hb ht rfl (by decide) ⟨rfl, fun n hn => ?_, ?_, ?_, fun n hn => ?_,
      fun y hy => State.core_modCore_ne hy _ _, ((Keeps.refl _).modCore _ _ rfl).kept⟩
    · rw [State.core_modCore, Core.tag_releaseMask]
      exact if_congr ((and_iff_right hn).trans (vrel_mask _ n)) rfl rfl
    · rw [State.core_modCore]
      exact (Core.releaseMask_matrix _ _).1
    · rw [State.core_modCore]
      exact (Core.releaseMask_matrix _ _).2
    · rw [State.core_modCore]
      exact Core.releaseMask_vreg _ _ hn

end Sys2Proof.Machine
end

section
/-! Tile loads (R146, R147, R222): the start of a TLOAD, the bytes that its arrivals read, and the row that each leaves in
the register. -/

namespace Sys2Proof.Machine

/-! ### The start of a load -/

section
variable {s : State} {c : CoreId} {q : QEnt} {w : Cmd}

/-- A load waits behind no other command: it reads no slab range that a write could meet, and loads do not wait for one another. -/
theorem hazard_tload (h : cOpc w = 0x58) (k : Core) (c : Nat) : k.hazard c w = false := by
  unfold Core.hazard readsOf
  simp [h]

theorem startAccess_tload (h : cOpc q.w = 0x58) : startAccess s c.val q = startTload s c.val q := by
  unfold startAccess
  rw [hazard_tload h, h]
  rfl

/-- What the start of a load does to its core. -/
def Core.tlMark (w : Cmd) (k : Core) : Core :=
  let k := k.setTag (tlTagIx w) (tlTag w 0 true)
  if tlV w then k else k.dropLatch (fld w 116 113)

theorem Core.tlMark_regs (k : Core) (w : Cmd) : (k.tlMark w).tags = KV.put 0 k.tags (tlTagIx w) (tlTag w 0 true) ∧
    (k.tlMark w).xregs = k.xregs ∧ (k.tlMark w).vregs = k.vregs := by
  unfold Core.tlMark
  dsimp only
  split <;> exact ⟨rfl, rfl, rfl⟩

theorem Core.tag_tlMark (k : Core) (w : Cmd) (j : Nat) : (k.tlMark w).tag j = if j = tlTagIx w then tlTag w 0 true else k.tag j := by
  unfold Core.tag
  rw [(k.tlMark_regs w).1, KV.get_put]

/-- A load that passes its checks and does not resume marks its register and awaits its rows. -/
theorem startTload_go (hcheck : tlCheck q.w = .go) (hnew : q.notify = false)
    (hload : tLoading ((s.core c.val).tag (tlTagIx q.w)) = false) :
    startTload s c.val q = .go (s.modCore c.val (Core.tlMark q.w)) { q with await := [1], notify := true } := by
  unfold startTload
  simp only [hcheck, hnew, hload, Bool.false_eq_true, if_false]
  rfl

end

/-! ### The bytes that an arrival reads -/

section
variable {s t : State} {c : CoreId} {a n : Nat}

/-- Reads for registers are no movement that stores. -/
theorem RegsOnly.movesSound (h : RegsOnly c (s.core c.val) s t) : MovesSound s t := by
  obtain ⟨⟨⟨un, cs, hk⟩, ho⟩, hkept⟩ := h
  refine .of_counts (fun x => ?_) hkept
  by_cases hx : x = c.val
  · exact ⟨un, cs, (s.core c.val).mons, by rw [hx, hk]⟩
  · exact ⟨_, _, _, ho x hx⟩

theorem State.Reach.readVia (h : s.Reach c.val a n) (ctx : Nat) : s.readVia c.val ctx (.die a) n = ⟨s.bytes a n, stOk, s⟩ := by
  unfold State.readVia
  rw [h.there, h.back]
  exact State.readDie_sound h.sound ctx

/-- A read of a piece for core c changes the unread marks and the counters of that core alone. -/
theorem State.Reach.getPlace_regsOnly (h : s.Reach c.val a n) (ctx : Nat) :
    ∃ t, s.getPlace c.val ctx (.die a) n = ⟨s.bytes a n, stOk, t⟩ ∧ RegsOnly c (s.core c.val) s t := by
  unfold State.getPlace
  dsimp only
  rw [h.readVia]
  split
  · exact ⟨_, rfl, s.consumeUnread_regsOnly c _ n⟩
  · exact ⟨s, rfl, RegsOnly.refl c s⟩

/-- The pieces of a plain range are read one after another: their bytes follow those before, nothing is noted as bad. -/
theorem readPlaces_cuts (ctx : Nat) {l : List (Nat × Nat)} (hc : Cuts a n l) : ∀ (s : State) (g : Got), (∀ p ∈ l, s.Reach c.val p.1 p.2) →
    ∃ t, readPlaces c.val ctx none s (l.map (fun p => (p.1, p.2, .die p.1))) g = ({ g with data := g.data ++ s.bytes a n }, t) ∧
      RegsOnly c (s.core c.val) s t := by
  induction hc with
  | nil a => exact fun s g _ => ⟨s, by simp [readPlaces, State.bytes], RegsOnly.refl c s⟩
  | cons h hl ih =>
    intro s g hr
    obtain ⟨t, ht, ht'⟩ := (hr _ List.mem_cons_self).getPlace_regsOnly ctx
    obtain ⟨u, hu, hu'⟩ := ih t { g with data := g.data ++ s.bytes _ _ } fun p hp =>
      (hr p (List.mem_cons_of_mem _ hp)).moves ht'.movesSound
    refine ⟨u, ?_, ht'.trans hu'⟩
    rw [State.bytes_congr (ht'.2.byte (by decide) (by decide)), List.append_assoc, State.bytes_append] at hu
    rw [← hu, List.map_cons, readPlaces]
    simp [ht, stOk, stEcc, stPoison, stIllegal, stPathLost]

theorem readPlaces_plain (h : s.plain c.val a n) (ctx : Nat) :
    ∃ t, readPlaces c.val ctx none s ((piecesOf a n).map (fun p => (p.1, p.2, .die p.1))) {} = ({ data := s.bytes a n }, t) ∧
      RegsOnly c (s.core c.val) s t := by
  have hc := piecesOf_cuts a n
  refine readPlaces_cuts ctx hc s {} fun p hp => ?_
  obtain ⟨h1, h2, h3⟩ := hc.mem p hp
  exact h.reach h3 ⟨h1, h2⟩

end

/-! ### The row in the register -/

section
variable {k : Core} {w : Cmd} {r j : Nat} {d : List Byte}

theorem Core.tlWrite_tags (k : Core) (w : Cmd) (r : Nat) (d : List Byte) : (k.tlWrite w r d).tags = k.tags := by
  unfold Core.tlWrite
  dsimp only
  split <;> rfl

/-- Bytes laid at an offset of a register, one by one; the bytes beside them stay. -/
theorem fld_setFld_bytes {N o b : Nat} (v : BitVec N) (hd : d.length = b) (hb : 0 < b) (hN : 8 * (o + b) ≤ N) :
    (∀ j, (h : j < b) → fld (setFld v (8 * (o + b) - 1) (8 * o) (leNat d)) (8 * (o + j) + 7) (8 * (o + j)) = (d[j]'(hd ▸ h)).toNat) ∧
    ∀ j, j < o ∨ o + b ≤ j → fld (setFld v (8 * (o + b) - 1) (8 * o) (leNat d)) (8 * j + 7) (8 * j) = fld v (8 * j + 7) (8 * j) := by
  refine ⟨fun j h => ?_, fun j h => fld_setFld_ne _ _ (by omega) (by omega) (by omega)⟩
  rw [fld_setFld_sub _ _ (by omega) (by omega) (by omega) (by omega), show 8 * (o + j) - 8 * o = 8 * j by omega,
    show 8 * (o + j) + 7 - 8 * (o + j) + 1 = 8 by omega, leNat_byte]

/-- A row of a vector register lies in the register. -/
theorem tlRow_v (h : tlV w = true) (hr : r < tlRows w) : tlRowBytes w * r + tlRowBytes w ≤ 4096 := by
  unfold tlRowBytes
  rw [if_pos h, ← Nat.mul_succ]
  exact (Nat.mul_le_mul_left _ hr).trans (Nat.div_mul_le_self _ _)

/-- A row of an X register lies in the register. -/
theorem tlRow_x (hr : r < tlRows w) (hcap : tlRows w * tlRowBytes w ≤ 2048) : r * (2048 / tlRows w) + tlRowBytes w ≤ 2048 := by
  have hle : tlRowBytes w ≤ 2048 / tlRows w := (Nat.le_div_iff_mul_le (by omega)).mpr (by rwa [Nat.mul_comm])
  calc r * (2048 / tlRows w) + tlRowBytes w ≤ (r + 1) * (2048 / tlRows w) := by rw [Nat.succ_mul]; omega
    _ ≤ tlRows w * (2048 / tlRows w) := Nat.mul_le_mul_right _ hr
    _ ≤ 2048 := Nat.mul_div_le _ _

end

/-! ### The arrival of a row -/

section
variable {s : State} {c : CoreId} {q : QEnt}

/-- The tag once the next row has arrived sound. -/
def tlNextTag (w : Cmd) (t : BitVec 128) : BitVec 128 :=
  setBit (setFld (setBit t 1 (!decide (tlRows w ≤ tRowsValid t + 1))) 31 26 (tRowsValid t + 1)) 18 (tPoison t)

/-- The registers once the row due at tag t has arrived: its bytes written, the tag set. -/
def Core.tlArrived (w : Cmd) (t : BitVec 128) (d : List Byte) (k : Core) : Core :=
  (k.tlWrite w (tRowsValid t) d).setTag (tlTagIx w) (tlNextTag w t)

theorem Core.tlArrived_counted (w : Cmd) (t : BitVec 128) (d : List Byte) (k : Core) (un : KV Bool) (cs : KV (BitVec 64)) :
    ∃ un' cs', Core.tlArrived w t d { k with unread := un, counters := cs } =
      { k.tlArrived w t d with unread := un', counters := cs' } := by
  unfold Core.tlArrived Core.tlWrite
  dsimp only
  split <;> exact ⟨un, cs, rfl⟩

theorem Core.tag_tlArrived (w : Cmd) (t : BitVec 128) (d : List Byte) (k : Core) (j : Nat) :
    (k.tlArrived w t d).tag j = if j = tlTagIx w then tlNextTag w t else k.tag j := by
  unfold Core.tlArrived
  rw [Core.tag_setTag_if]
  unfold Core.tag
  rw [Core.tlWrite_tags]

theorem Core.vreg_tlArrived {w : Cmd} (h : tlV w = true) (t : BitVec 128) (d : List Byte) (k : Core) :
    (k.tlArrived w t d).vreg (fld w 116 113) = setFld (k.vreg (fld w 116 113))
      (8 * (tlRowBytes w * tRowsValid t + tlRowBytes w) - 1) (8 * (tlRowBytes w * tRowsValid t)) (leNat d) := by
  unfold Core.tlArrived Core.tlWrite
  dsimp only
  rw [if_pos h]
  unfold Core.vreg Core.setTag
  dsimp only
  rw [KV.get_put_self, fixReg_renew_self, Nat.mul_assoc]

theorem Core.xreg_tlArrived {w : Cmd} (h : tlV w = false) (t : BitVec 128) (d : List Byte) (k : Core) :
    (k.tlArrived w t d).xreg (fld w 116 113) = setFld (k.xreg (fld w 116 113))
      (8 * (tRowsValid t * (2048 / tlRows w) + tlRowBytes w) - 1) (8 * (tRowsValid t * (2048 / tlRows w))) (leNat d) := by
  unfold Core.tlArrived Core.tlWrite
  dsimp only
  rw [if_neg (ne_true_of_eq_false h)]
  unfold Core.xreg Core.setTag
  dsimp only
  rw [KV.get_put_self, fixReg_renew_self]

/-- Where the row of the load that arrives next begins. -/
def tlNextSrc (w : Cmd) (t : BitVec 128) : Nat := aSrc w + tRowsValid t * fld w 111 88

/-- A load for which no element is expanded. -/
theorem tlPacked_eq_false {w : Cmd} (h : tlV w = true ∨ tlFmt w ≠ 7 ∧ tlFmt w ≠ 8) : (!tlV w && (tlFmt w = 7 || tlFmt w = 8)) = false := by
  rcases h with h | ⟨h7, h8⟩
  · simp [h]
  · simp [h7, h8]

theorem tlSrcBytes_unpacked {w : Cmd} (h : tlV w = true ∨ tlFmt w ≠ 7 ∧ tlFmt w ≠ 8) : tlSrcBytes w = tlRowBytes w :=
  if_neg (ne_true_of_eq_false (tlPacked_eq_false h))

/-- The arrival of a row of plain bytes that are not packed. -/
theorem tloadRow_plain {t : BitVec 128} (ht : (s.core c.val).tag (tlTagIx q.w) = t) (ctx : Nat)
    (hunpacked : tlV q.w = true ∨ tlFmt q.w ≠ 7 ∧ tlFmt q.w ≠ 8) (hguard : bit q.w 156 = false)
    (hplain : s.plain c.val (tlNextSrc q.w t) (tlRowBytes q.w)) :
    ∃ u n, RegsOnly c ((s.core c.val).tlArrived q.w t (s.bytes (tlNextSrc q.w t) (tlRowBytes q.w))) s u ∧
      ∃ q', tloadRow s { c := c.val, ctx := ctx, q := q } = .inr (u.progress c.val 3 n, q') := by
  obtain ⟨v, hv, hregs⟩ := readPlaces_plain hplain ctx
  have hrow := hregs.modCore (Core.tlArrived_counted q.w t (s.bytes (tlNextSrc q.w t) (tlRowBytes q.w)) _)
  refine ⟨_, ceilDiv (tlRowBytes q.w) 64, ⟨hrow.1.count (moveCounter (tlNextSrc q.w t) 0) (tlRowBytes q.w),
    hrow.2.trans ((Keeps.refl _).count _ _ _ rfl).kept⟩, ?_⟩
  unfold tlNextSrc at hplain hv
  unfold tloadRow
  dsimp only
  rw [tlSrcBytes_unpacked hunpacked, ht, hplain.places]
  dsimp only
  rw [hguard, if_neg Bool.false_ne_true, hv, tlPacked_eq_false hunpacked, if_neg Bool.false_ne_true]
  dsimp only
  rw [if_pos rfl, decide_eq_false (not_not_intro rfl), Bool.or_false]
  exact ⟨_, rfl⟩

/-- Core j delivers the tags, V registers and X registers of core k. -/
def Core.RegsAs (k j : Core) : Prop := (∀ n, j.tag n = k.tag n) ∧ (∀ n, j.vreg n = k.vreg n) ∧ ∀ n, j.xreg n = k.xreg n

/-- The arrival whose row is read goes on with its entry. -/
theorem arrives_of_row {n : Fin 64} {q' : QEnt} {k : Core} {u : State} {m : Nat} (hxlt : (s.core c.val).xltAcc = false)
    (hdown : (s.core c.val).down 3 = false)
    (hq : (((s.core c.val).run 3).filter (fun p => cOpc p.w = 0x58 && !p.await.isEmpty))[n.val]? = some q) (hregs : RegsOnly c k s u)
    (hrow : tloadRow s { c := c.val, ctx := s.ctxOf c.val q.slot.val, q := q } = .inr (u.progress c.val 3 m, q')) :
    Completes (.tloadRowArrival c n) s (fun t =>
      k.RegsAs (t.core c.val) ∧ (∀ y, y ≠ c.val → t.core y = s.core y) ∧ KeptBut [.cores] s t) := by
  obtain ⟨⟨⟨un, cs, hk⟩, ho⟩, hkept⟩ := hregs
  refine ⟨(u.progress c.val 3 m).setRunEnt c.val 3 q q', ?_, ?_, fun y hy => ?_, ?_⟩
  · show execTloadRowArrival c n s = _
    unfold execTloadRowArrival
    rw [hxlt, hdown, if_neg (by decide), hq]
    dsimp only
    rw [hrow]
  · unfold State.setRunEnt State.progress
    rw [State.core_modCore, State.core_modCore, hk]
    exact ⟨fun _ => rfl, fun _ => rfl, fun _ => rfl⟩
  · unfold State.setRunEnt State.progress
    rw [State.core_modCore_ne hy, State.core_modCore_ne hy, ho y hy]
  · exact hkept.trans (((Keeps.refl u).progress _ _ _ rfl).setRunEnt _ _ _ _ rfl).kept

end

/-- Settles O40: a load that starts marks its register (`startTload_go`); the row that arrives is read as it stands
(`tloadRow_plain`) and laid in the register (`fld_setFld_bytes`). That the register keeps its other bytes is log 118's. -/
theorem tileLoads : Obligations.TileLoads := by
  intro s c sl w n q
  refine ⟨?_, ?_⟩
  · intro d r hop hr hcheck hload
    have hopc := State.headEntry_opc (o := tloadInfo) rfl hop s c sl
    have hgo : startAccess d c.val (s.headEntry tloadInfo c sl w) =
        .go (d.modCore c.val (Core.tlMark r)) { s.headEntry tloadInfo c sl w with await := [1], notify := true } :=
      (startAccess_tload hopc).trans (startTload_go hcheck rfl hload)
    have ht := (startAccess_tload hopc).symm.trans hgo
    obtain ⟨-, hx, hv⟩ := (d.core c.val).tlMark_regs r
    refine Starts.of_go (exec_engineRow rfl hop s) hr hgo (Ctl.of_start_go ht ((Ctl.refl d).startTload c.val _)) (by rw [hopc]; decide)
      ⟨rfl, rfl, ?_, fun j hj => ?_, ?_, ?_, fun y hy => State.core_modCore_ne hy _ _, ((Keeps.refl _).modCore _ _ rfl).kept⟩
    · rw [State.core_modCore, Core.tag_tlMark, if_pos rfl]
    · rw [State.core_modCore, Core.tag_tlMark, if_neg hj]
    · rw [State.core_modCore, hx]
    · rw [State.core_modCore, hv]
  · intro k r src b last hxlt hdown hq hfits hunpacked hr hguard hb hplain
    obtain ⟨u, m, hregs, q', hrow⟩ := tloadRow_plain (t := k.tag (tlTagIx q.w)) rfl (s.ctxOf c.val q.slot.val) hunpacked hguard hplain
    obtain ⟨z, hz, ⟨htag, hv, hx⟩, ho, hkept⟩ := arrives_of_row hxlt hdown hq hregs hrow
    have hlen : (s.bytes src b).length = b := State.bytes_length ..
    refine ⟨z, hz, ?_, fun j hj => ?_, fun hV => ?_, fun hX => ?_, ho, hkept⟩
    · rw [htag, Core.tag_tlArrived, if_pos rfl]
      rfl
    · rw [htag, Core.tag_tlArrived, if_neg hj]
    · obtain ⟨hin, hout⟩ := fld_setFld_bytes (o := b * r) (k.vreg (fld q.w 116 113)) hlen hb (Nat.mul_le_mul_left 8 (tlRow_v hV hr))
      rw [hv, Core.vreg_tlArrived hV]
      exact ⟨fun j hj => (hin j hj).trans (by rw [State.bytes_getElem]), fun j _ hj => hout j hj⟩
    · have hcap : tlRows q.w * b ≤ 2048 := by
        rcases hfits with ⟨hV, -⟩ | ⟨-, -, hcap⟩
        · exact absurd hV (ne_true_of_eq_false hX)
        · exact hcap
      obtain ⟨hin, hout⟩ := fld_setFld_bytes (o := r * (2048 / tlRows q.w)) (k.xreg (fld q.w 116 113)) hlen hb
        (Nat.mul_le_mul_left 8 (tlRow_x hr hcap))
      rw [hx, Core.xreg_tlArrived hX]
      exact ⟨fun j hj => (hin j hj).trans (by rw [State.bytes_getElem]), fun j _ hj => hout j hj⟩

end Sys2Proof.Machine
end

section
/-! Statistics entries (R168, R199): what they read once some are written, and a core that writes them and counts. -/

namespace Sys2Proof.Machine

/-! ### Entries written and read -/

section
variable {k : Core}

theorem KV.get_foldl_put {α : Type} [DecidableEq α] {d : α} (f : Nat → α) (l : List Nat) (m : KV α) (j : Nat) :
    KV.get d (l.foldl (fun m j => KV.put d m j (f j)) m) j = if j ∈ l then f j else KV.get d m j := by
  induction l generalizing m with
  | nil => simp
  | cons i l ih =>
    rw [List.foldl_cons, ih, KV.get_put]
    by_cases hl : j ∈ l
    · simp [hl]
    · by_cases hi : j = i <;> simp [hl, hi]

/-- An entry whose word holds no error. -/
theorem Core.stat_of_chk {j : Nat} (h : KV.get 0 k.statChk (j / 4) = 0) : k.stat j = KV.get 0 k.stats j ^^^ emptyStat := by
  unfold Core.stat
  rw [h]
  rfl

theorem Core.stat_congr {k' : Core} {j : Nat} (hs : KV.get 0 k'.stats j = KV.get 0 k.stats j)
    (hc : KV.get 0 k'.statChk (j / 4) = KV.get 0 k.statChk (j / 4)) : k'.stat j = k.stat j := by
  unfold Core.stat
  rw [hs, hc]

theorem Core.setStat_statChk (k : Core) (i : Nat) (v : BitVec 64) (h : Nat) :
    KV.get 0 (k.setStat i v).statChk h = if h = i / 4 then 0 else KV.get 0 k.statChk h := by
  unfold Core.setStat
  dsimp only
  rw [KV.get_put]

/-- What a write stores for each entry: the others of a word with an error are rewritten as they read. -/
theorem Core.setStat_stats (k : Core) (i : Nat) (v : BitVec 64) (j : Nat) : KV.get 0 (k.setStat i v).stats j =
    if j = i then v ^^^ emptyStat
    else if j / 4 = i / 4 ∧ KV.get 0 k.statChk (i / 4) ≠ 0 then k.stat j ^^^ emptyStat
    else KV.get 0 k.stats j := by
  have hword : j ∈ [i / 4 * 4, i / 4 * 4 + 1, i / 4 * 4 + 2, i / 4 * 4 + 3] ↔ j / 4 = i / 4 := by
    simp only [List.mem_cons, List.not_mem_nil, or_false]
    omega
  unfold Core.setStat
  dsimp only
  rw [KV.get_put]
  by_cases hchk : KV.get 0 k.statChk (i / 4) = 0
  · simp only [hchk, if_true, ne_eq, not_true, and_false, if_false]
  · rw [if_neg hchk, KV.get_foldl_put (fun j => k.stat j ^^^ emptyStat)]
    simp only [hword, hchk, ne_eq, not_false_eq_true, and_true]

/-- A write gives its entry the value and leaves what the others read. -/
theorem Core.stat_setStat (k : Core) (i : Nat) (v : BitVec 64) (j : Nat) : (k.setStat i v).stat j = if j = i then v else k.stat j := by
  by_cases hw : j / 4 = i / 4
  · rw [Core.stat_of_chk (by rw [Core.setStat_statChk, if_pos hw]), Core.setStat_stats]
    by_cases hj : j = i
    · rw [if_pos hj, if_pos hj, BitVec.xor_assoc, BitVec.xor_self, BitVec.xor_zero]
    · rw [if_neg hj, if_neg hj]
      by_cases hchk : KV.get 0 k.statChk (i / 4) = 0
      · rw [if_neg (fun h => h.2 hchk), Core.stat_of_chk (by rw [hw, hchk])]
      · rw [if_pos ⟨hw, hchk⟩, BitVec.xor_assoc, BitVec.xor_self, BitVec.xor_zero]
  · have hj : j ≠ i := fun h => hw (by rw [h])
    rw [if_neg hj]
    refine Core.stat_congr ?_ ?_
    · rw [Core.setStat_stats, if_neg hj, if_neg (fun h => hw h.1)]
    · rw [Core.setStat_statChk, if_neg hw]

/-- A write leaves its word without an error, and the other words as they were. -/
theorem Core.statBad_setStat {j : Nat} (h : k.statBad j = false) (i : Nat) (v : BitVec 64) : (k.setStat i v).statBad j = false := by
  unfold Core.statBad Core.setStat at *
  dsimp only
  rw [KV.get_put]
  split
  · rfl
  · exact h

/-- Values written to entries i to i + n - 1. -/
def Core.setStats (k : Core) (i n : Nat) (v : Nat → BitVec 64) : Core := (List.range n).foldl (fun k j => k.setStat (i + j) (v j)) k

theorem Core.setStats_succ (k : Core) (i n : Nat) (v : Nat → BitVec 64) :
    k.setStats i (n + 1) v = (k.setStats i n v).setStat (i + n) (v n) := by
  unfold Core.setStats
  rw [List.range_succ, List.foldl_append]
  rfl

theorem Core.stat_setStats (k : Core) (i n : Nat) (v : Nat → BitVec 64) (j : Nat) :
    (k.setStats i n v).stat j = if i ≤ j ∧ j < i + n then v (j - i) else k.stat j := by
  induction n with
  | zero => exact (if_neg (by omega)).symm
  | succ n ih =>
    rw [Core.setStats_succ, Core.stat_setStat, ih]
    by_cases hj : j = i + n
    · rw [if_pos hj, if_pos (by omega), hj, Nat.add_sub_cancel_left]
    · simp only [if_neg hj, show (i ≤ j ∧ j < i + (n + 1)) ↔ (i ≤ j ∧ j < i + n) by omega]

theorem Core.setStats_congr (k : Core) (i : Nat) {n : Nat} {v v' : Nat → BitVec 64} (h : ∀ j, j < n → v j = v' j) :
    k.setStats i n v = k.setStats i n v' := by
  induction n with
  | zero => rfl
  | succ n ih => rw [Core.setStats_succ, Core.setStats_succ, ih (fun j hj => h j (by omega)), h n (by omega)]

/-- Core j is core k but for its statistics entries. -/
def Core.EntriesOnly (k j : Core) : Prop := ∃ st ch, j = { k with stats := st, statChk := ch }

theorem Core.EntriesOnly.refl (k : Core) : k.EntriesOnly k := ⟨_, _, rfl⟩

theorem Core.EntriesOnly.setStat {j : Core} (h : k.EntriesOnly j) (i : Nat) (v : BitVec 64) : k.EntriesOnly (j.setStat i v) := by
  obtain ⟨st, ch, rfl⟩ := h
  exact ⟨_, _, rfl⟩

theorem Core.EntriesOnly.setStats {j : Core} (h : k.EntriesOnly j) (i n : Nat) (v : Nat → BitVec 64) : k.EntriesOnly (j.setStats i n v) := by
  induction n with
  | zero => exact h
  | succ n ih =>
    rw [Core.setStats_succ]
    exact ih.setStat _ _

/-- The entries that fail a condition, where all of them meet it. -/
theorem Core.badStat_eq_none {i n : Nat} {ok : BitVec 64 → Bool} (h : ∀ j, j < n → ok (k.stat (i + j)) = true) : k.badStat i n ok = none := by
  unfold Core.badStat
  refine List.find?_eq_none.mpr fun x hx => ?_
  obtain ⟨j, hj, rfl⟩ := List.mem_map.mp hx
  simp [Nat.add_comm j i, h j (List.mem_range.mp hj)]

end

/-! ### Entries of a core that reads, writes and counts -/

section
variable {d s t u : State} {c : CoreId} {k : Core} {l : Pieces}

theorem CoreIs.stat (h : CoreIs c k d t) (j : Nat) : (t.core c.val).stat j = k.stat j := by
  obtain ⟨⟨un, cs, hk⟩, -⟩ := h
  rw [hk]
  rfl

theorem CoreIs.statBad (h : CoreIs c k d t) (j : Nat) : (t.core c.val).statBad j = k.statBad j := by
  obtain ⟨⟨un, cs, hk⟩, -⟩ := h
  rw [hk]
  rfl

theorem Core.setStat_counted (k : Core) (i : Nat) (v : BitVec 64) (un : KV Bool) (cs : KV (BitVec 64)) :
    ({ k with unread := un, counters := cs } : Core).setStat i v = { k.setStat i v with unread := un, counters := cs } := rfl

theorem Core.setStats_counted (k : Core) (i n : Nat) (v : Nat → BitVec 64) (un : KV Bool) (cs : KV (BitVec 64)) :
    ({ k with unread := un, counters := cs } : Core).setStats i n v = { k.setStats i n v with unread := un, counters := cs } := by
  induction n with
  | zero => rfl
  | succ n ih => rw [Core.setStats_succ, Core.setStats_succ, ih, Core.setStat_counted]

/-- Reads of slabs, and then statistics entries. -/
theorem RegsOnly.setStats (h : RegsOnly c k d t) (i n : Nat) (v : Nat → BitVec 64) :
    RegsOnly c (k.setStats i n v) d (t.modCore c.val (fun k => k.setStats i n v)) :=
  h.modCore fun un cs => ⟨un, cs, Core.setStats_counted ..⟩

theorem RegsOnly.count (h : RegsOnly c k d t) (o n : Nat) : RegsOnly c k d (t.count c.val o n) :=
  ⟨h.1.count o n, h.2.trans ((Keeps.refl t).count _ _ _ rfl).kept⟩

/-- Pieces stored, and then a change of core c that looks at neither its unread marks nor its counters. -/
theorem Stores.modCore {f : Core → Core} (h : Stores c k l d t)
    (hf : ∀ un cs, ∃ un' cs', f { k with unread := un, counters := cs } = { f k with unread := un', counters := cs' }) :
    Stores c (f k) l d (t.modCore c.val f) := by
  obtain ⟨⟨⟨un, cs, hk⟩, ho⟩, hkept, hbyte⟩ := h
  refine ⟨⟨?_, fun x hx => (State.core_modCore_ne hx t f).trans (ho x hx)⟩, hkept.trans ((Keeps.refl t).modCore _ _ rfl).kept, hbyte⟩
  rw [State.core_modCore, hk]
  exact hf un cs

theorem Stores.count (h : Stores c k l d t) (o n : Nat) : Stores c k l d (t.count c.val o n) :=
  ⟨h.1.count o n, h.2.1.trans ((Keeps.refl t).count _ _ _ rfl).kept, h.2.2⟩

end

end Sys2Proof.Machine
end

section
/-! RSPILL and RFILL as the row engine takes them (R168, R172). -/

namespace Sys2Proof.Machine

/-! ### A command of the row engine that starts -/

/-- A command that the row engine takes and that starts is in execution with what its start did. -/
theorem Starts.of_row {i : Instr} {o : OpInfo} {s t : State} {c : CoreId} {sl : SlotId} {w : Cmd} {n : Nat} {q : QEnt}
    {P : State → QEnt → Prop} (hi : engineRow i = some (c, sl, w, o, n)) (ho : o.tame = true) (he : o.engine = 2) (hop : opcIs w n = true)
    (hr : HeadReady o s c sl w) (hgo : startRow (s.headState o c sl w) c.val (s.headEntry o c sl w) = .go t q)
    (hw : q.w = (s.headEntry o c sl w).w) (hn : n ≠ 0x5A) (hP : P t q) : Starts i o s c P := by
  have hstart : startOn (s.headState o c sl w) c.val o.engine (s.headEntry o c sl w) = .go t q := by
    rw [he]
    exact hgo
  exact Starts.of_go (exec_engineRow hi hop s) hr hstart (Ctl.of_start_go hgo ((Ctl.refl _).startRow c.val _))
    (by rwa [hw, State.headEntry_opc ho hop]) hP

section
variable {d : State} {c : CoreId} {q : QEnt}

theorem slabKey_add (c a i : Nat) : slabKey c (a + i) = slabKey c a + i := (Nat.add_assoc ..).symm

/-! ### RSPILL -/

/-- The bytes of entries i to i + n - 1 as RSPILL stores them. -/
def Core.spillBytes (k : Core) (i n : Nat) : List Byte := ((List.range n).map (fun j => natLe 8 (k.stat (i + j)).toNat)).flatten

theorem Core.spillBytes_length (k : Core) (i n : Nat) : (k.spillBytes i n).length = 8 * n := (flat8 _ (fun _ => natLe_length _ _) n).1

/-- The entries once RSPILL is done with them. -/
def Core.spilled (k : Core) (w : Cmd) : Core := if bit w 80 then k.setStats (fld w 44 32) (fld w 58 45) (fun _ => emptyStat) else k

theorem Core.spilled_entriesOnly (k : Core) (w : Cmd) : k.EntriesOnly (k.spilled w) := by
  unfold Core.spilled
  split
  · exact (Core.EntriesOnly.refl k).setStats ..
  · exact Core.EntriesOnly.refl k

theorem Core.stat_spilled (k : Core) (w : Cmd) (j : Nat) : (k.spilled w).stat j =
    if bit w 80 = true ∧ fld w 44 32 ≤ j ∧ j < fld w 44 32 + fld w 58 45 then emptyStat else k.stat j := by
  unfold Core.spilled
  split
  · simp only [Core.stat_setStats, *, true_and]
  · rw [if_neg (fun h => absurd h.1 ‹_›)]

/-- A spill of entries that can be read to sound bytes stores them. -/
theorem startRspill_stores (hn : fld q.w 58 45 ≠ 0) (hok : ∀ j, j < fld q.w 58 45 → (d.core c.val).statBad (fld q.w 44 32 + j) = false)
    (hs : d.soundAll c [(fld q.w 79 59, 8 * fld q.w 58 45)] = true) :
    ∃ t, startRspill d c.val q = .go t q ∧
      Stores c ((d.core c.val).spilled q.w) [(fld q.w 79 59, (d.core c.val).spillBytes (fld q.w 44 32) (fld q.w 58 45))] d t := by
  have hranges : d.soundAll c (rangesOf [(fld q.w 79 59, (d.core c.val).spillBytes (fld q.w 44 32) (fld q.w 58 45))]) = true := by
    unfold rangesOf
    rw [List.map_cons, Core.spillBytes_length]
    exact hs
  obtain ⟨t, ht, hst⟩ := State.engWrites_sound hranges (d.ctxOf c.val q.slot.val)
  have hread : (List.range (fld q.w 58 45)).any (fun j => (d.core c.val).statBad (fld q.w 44 32 + j)) = false :=
    List.any_eq_false.mpr fun j hj => by simp [hok j (List.mem_range.mp hj)]
  unfold Core.spillBytes at ht
  unfold startRspill Core.spilled
  dsimp only
  rw [if_neg hn, hread, if_neg Bool.false_ne_true, ht, if_neg (not_not_intro rfl)]
  refine ⟨_, rfl, Stores.count ?_ _ _⟩
  split
  · exact hst.modCore fun un cs => ⟨un, cs, Core.setStats_counted ..⟩
  · exact hst

/-- Entry j of a spill stands in its eight bytes. -/
theorem Stores.num_spillBytes {k k' : Core} {t : State} {a i n : Nat} (h : Stores c k' [(a, k.spillBytes i n)] d t) {j : Nat} (hj : j < n) :
    t.num (slabKey c.val (a + 8 * j)) 8 = (k.stat (i + j)).toNat := by
  obtain ⟨hlen, hflat⟩ := flat8 (fun j => natLe 8 (k.stat (i + j)).toNat) (fun _ => natLe_length _ _) n
  have hall : t.bytes (slabKey c.val a) (k.spillBytes i n).length = k.spillBytes i n :=
    bytes_eq_of fun m hm => (h.2.2 _).trans (State.putBytes_byte _ _ m hm)
  have hmine : t.bytes (slabKey c.val (a + 8 * j)) 8 = natLe 8 (k.stat (i + j)).toNat := by
    rw [← hflat j hj]
    show _ = ((k.spillBytes i n).drop (8 * j)).take 8
    rw [← hall, Core.spillBytes_length, State.bytes_drop _ _ _ _ (by omega), State.bytes_take _ _ _ _ (by omega), slabKey_add]
  unfold State.num
  rw [hmine, leNat_natLe]
  exact Nat.mod_eq_of_lt (k.stat (i + j)).isLt

/-! ### RFILL -/

/-- The entry that RFILL writes for a word that it reads: the empty one for tag FFFF. -/
def fillWord (e : BitVec 64) : BitVec 64 := if statTag e = 0xFFFF then emptyStat else e

/-- The entry that RFILL writes for the eight bytes at place j. -/
def State.fillEntry (d : State) (c : CoreId) (a j : Nat) : BitVec 64 :=
  fillWord (BitVec.ofNat 64 (d.num (slabKey c.val (a + 8 * j)) 8))

theorem State.fillEntry_bytes (d : State) (c : CoreId) (a : Nat) {n j : Nat} (hj : j < n) :
    fillWord (BitVec.ofNat 64 (leNat (((d.bytes (slabKey c.val a) (8 * n)).drop (8 * j)).take 8))) = d.fillEntry c a j := by
  rw [State.bytes_drop _ _ _ _ (by omega), State.bytes_take _ _ _ _ (by omega), ← slabKey_add]
  rfl

/-- A fill from sound bytes, its first and last word readable where they are written in part. -/
structure Core.FillPasses (k : Core) (w : Cmd) : Prop where
  many : fld w 58 45 ≠ 0
  first : fld w 44 32 % 4 ≠ 0 → k.statBad (fld w 44 32) = false
  last : (fld w 44 32 + fld w 58 45) % 4 ≠ 0 → k.statBad (fld w 44 32 + fld w 58 45 - 1) = false
  empty : bit w 80 = true → ∀ j, j < fld w 58 45 → k.stat (fld w 44 32 + j) = emptyStat

theorem startRfill_fills (h : (d.core c.val).FillPasses q.w) (hs : d.soundAll c [(fld q.w 79 59, 8 * fld q.w 58 45)] = true) :
    ∃ t, startRfill d c.val q = .go t q ∧
      RegsOnly c ((d.core c.val).setStats (fld q.w 44 32) (fld q.w 58 45) (d.fillEntry c (fld q.w 79 59))) d t := by
  obtain ⟨hn, hfirst, hlast, hempty⟩ := h
  obtain ⟨u, hu, hregs⟩ := State.engRead_sound hs (d.ctxOf c.val q.slot.val)
  have hspace : inSlabSpace (fld q.w 79 59) (8 * fld q.w 58 45) = true := by simpa using State.soundAll_inSlabSpace hs
  have hbad : (if bit q.w 80 then (d.core c.val).badStat (fld q.w 44 32) (fld q.w 58 45) (fun e => decide (e = emptyStat)) else none) = none := by
    split
    · exact Core.badStat_eq_none fun j hj => decide_eq_true (hempty ‹_› j hj)
    · rfl
  have hwords : ¬ ((fld q.w 44 32 % 4 ≠ 0 && (d.core c.val).statBad (fld q.w 44 32)) ||
      ((fld q.w 44 32 + fld q.w 58 45) % 4 ≠ 0 && (d.core c.val).statBad (fld q.w 44 32 + fld q.w 58 45 - 1))) = true := by
    simpa using ⟨hfirst, hlast⟩
  have hgo : startRfill d c.val q = .go ((u.modCore c.val (fun k => k.setStats (fld q.w 44 32) (fld q.w 58 45) (fun j =>
      fillWord (BitVec.ofNat 64 (leNat (((d.bytes (slabKey c.val (fld q.w 79 59)) (8 * fld q.w 58 45)).drop (8 * j)).take 8)))))).count
      c.val 0xB0 (fld q.w 58 45)) q := by
    unfold startRfill
    dsimp only
    rw [if_neg hn, hspace, if_neg (by decide), if_neg hwords, hbad, hu]
    exact if_neg (not_not_intro rfl)
  refine ⟨_, hgo, RegsOnly.count ?_ _ _⟩
  rw [← Core.setStats_congr _ _ fun j hj => d.fillEntry_bytes c (fld q.w 79 59) hj]
  exact hregs.setStats ..

end

/-- Settles O35: a spill stores its entries in sound bytes and empties them with CLEAR; a fill writes its entries with the
bytes read, where with the check set all of them were empty. -/
theorem statisticsMoves : Obligations.StatisticsMoves := by
  intro s c sl w d r k a n i into hr hidle hn hs
  refine ⟨fun hop hok => ?_, fun hop hfirst hlast hempty => ?_⟩
  · obtain ⟨t, ht, hst⟩ := startRspill_stores (q := s.headEntry spillInfo c sl w) hn hok hs
    have hgo : startRow d c.val (s.headEntry spillInfo c sl w) = .go t (s.headEntry spillInfo c sl w) := by
      rw [startRow_idle hidle, if_pos (State.headEntry_opc rfl hop s c sl)]
      exact ht
    obtain ⟨st, ch, hk⟩ := k.spilled_entriesOnly r
    refine Starts.of_row rfl rfl rfl hop hr hgo rfl (by decide) ⟨⟨st, ch, hk ▸ hst.1⟩, hst.2.1, fun j hj => hst.num_spillBytes hj,
      fun b hb => ?_, fun j => (hst.1.stat j).trans (Core.stat_spilled ..)⟩
    rw [hst.2.2]
    exact State.putBytes_byte_ne (by rwa [Core.spillBytes_length]) d
  · obtain ⟨t, ht, hregs⟩ := startRfill_fills (q := s.headEntry spillInfo c sl w) ⟨hn, hfirst, hlast, hempty⟩ hs
    have hopc := State.headEntry_opc (o := spillInfo) rfl hop s c sl
    have hgo : startRow d c.val (s.headEntry spillInfo c sl w) = .go t (s.headEntry spillInfo c sl w) := by
      rw [startRow_idle hidle, hopc, if_neg (by decide), if_pos rfl]
      exact ht
    obtain ⟨st, ch, hk⟩ := (Core.EntriesOnly.refl k).setStats i n (d.fillEntry c a)
    exact Starts.of_row rfl rfl rfl hop hr hgo rfl (by decide)
      ⟨⟨st, ch, hk ▸ hregs⟩, fun j => (hregs.1.stat j).trans (Core.stat_setStats ..)⟩

end Sys2Proof.Machine
end

section
/-! One row of a row command (R160 to R174): the ranges that it reads and writes, its results, and what its step leaves. -/

namespace Sys2Proof.Machine

/-! ### Ranges within ranges -/

/-- Every byte of the ranges l lies in one of the ranges m. -/
def Covered (l m : List (Nat × Nat)) : Prop := ∀ x ∈ l, ∀ b, x.1 ≤ b → b < x.1 + x.2 → ∃ y ∈ m, y.1 ≤ b ∧ b < y.1 + y.2

theorem Covered.of_subset {l m : List (Nat × Nat)} (h : ∀ x ∈ l, x ∈ m) : Covered l m := fun x hx _ h1 h2 => ⟨x, h x hx, h1, h2⟩

theorem Covered.trans {l m n : List (Nat × Nat)} (h : Covered l m) (g : Covered m n) : Covered l n := fun x hx b h1 h2 => by
  obtain ⟨y, hy, h3, h4⟩ := h x hx b h1 h2
  exact g y hy b h3 h4

section
variable {s t u : State} {c : CoreId} {k : Core} {l : Pieces}

theorem State.soundAll_mem {l : List (Nat × Nat)} (h : s.soundAll c l = true) {x : Nat × Nat} (hx : x ∈ l) :
    inSlabSpace x.1 x.2 = true ∧ s.sound (slabKey c.val x.1) x.2 = true := Bool.and_eq_true_iff.mp (List.all_eq_true.mp h x hx)

/-- Bytes of sound ranges are sound, in whatever ranges they are taken. -/
theorem Covered.soundAll {l m : List (Nat × Nat)} (h : Covered l m) (hm : s.soundAll c m = true) : s.soundAll c l = true := by
  refine List.all_eq_true.mpr fun x hx => Bool.and_eq_true_iff.mpr ⟨?_, State.sound_of fun a h1 h2 => ?_⟩
  · by_cases hn : x.2 = 0
    · simp [inSlabSpace, hn]
    · obtain ⟨y, hy, h3, h4⟩ := h x hx (x.1 + x.2 - 1) (by omega) (by omega)
      have hin := (State.soundAll_mem hm hy).1
      simp only [inSlabSpace, Bool.or_eq_true, decide_eq_true_eq] at hin ⊢
      omega
  · obtain ⟨b, rfl⟩ : ∃ b, a = slabKey c.val b := ⟨a - slabKey c.val 0, by unfold slabKey at *; omega⟩
    obtain ⟨y, hy, h3, h4⟩ := h x hx b (by unfold slabKey at *; omega) (by unfold slabKey at *; omega)
    exact State.sound_half (State.soundAll_mem hm hy).2 (by unfold slabKey; omega) (by unfold slabKey; omega)

/-- Storing pieces leaves the bytes outside the ranges that they lie in. -/
theorem State.putAll_byte_ne {m : List (Nat × Nat)} (h : Covered (rangesOf l) m) {a : Nat}
    (ha : ∀ y ∈ m, a < slabKey c.val y.1 ∨ slabKey c.val y.1 + y.2 ≤ a) (s : State) : (s.putAll c l).byte a = s.byte a := by
  induction l generalizing s with
  | nil => rfl
  | cons p l ih =>
    have hp : a < slabKey c.val p.1 ∨ slabKey c.val p.1 + p.2.length ≤ a := by
      by_contra hin
      obtain ⟨y, hy, h3, h4⟩ := h (p.1, p.2.length) List.mem_cons_self (a - slabKey c.val 0) (by unfold slabKey at *; omega)
        (by unfold slabKey at *; omega)
      have := ha y hy
      unfold slabKey at *
      omega
    exact (ih (fun x hx => h x (List.mem_cons_of_mem _ hx)) _).trans (State.putBytes_byte_ne hp s)

/-! ### Writes that leave sound bytes sound -/

/-- Pieces stored, core c being `k`, and every half sound that was. -/
structure StoresSound (c : CoreId) (k : Core) (l : Pieces) (s t : State) : Prop where
  stores : Stores c k l s t
  sound : ∀ g, s.soundHalf g = true → t.soundHalf g = true

theorem StoresSound.of_stores (h : StoresSound c k l s t) {k' : Core} (g : Stores c k' l s u) (hu : KeptBut [.cores] t u) :
    StoresSound c k' l s u := ⟨g, fun x hx => (hu.soundHalf x).trans (h.sound x hx)⟩

theorem StoresSound.count (h : StoresSound c k l s t) (o n : Nat) : StoresSound c k l s (t.count c.val o n) :=
  h.of_stores (h.stores.count o n) ((Keeps.refl t).count _ _ _ rfl).kept

theorem StoresSound.setStat (h : StoresSound c k l s t) (i : Nat) (v : BitVec 64) :
    StoresSound c (k.setStat i v) l s (t.modCore c.val (fun k => k.setStat i v)) :=
  h.of_stores (h.stores.modCore fun un cs => ⟨un, cs, Core.setStat_counted ..⟩) ((Keeps.refl t).modCore _ _ rfl).kept

/-- Reads, and then writes. -/
theorem StoresSound.after_reads (h : RegsOnly c (s.core c.val) s t) (g : StoresSound c (t.core c.val) l t u) :
    StoresSound c (s.core c.val) l s u := by
  obtain ⟨⟨hcore, hkept, hbyte⟩, hsound⟩ := g
  refine ⟨⟨h.1.trans hcore, (h.2.mono (by decide)).trans hkept, fun a => ?_⟩, fun x hx => hsound x ((h.2.soundHalf x).trans hx)⟩
  rw [hbyte, State.putAll_byte_congr (h.2.byte (by decide) (by decide))]

theorem State.soundAll_mono (h : ∀ g, s.soundHalf g = true → t.soundHalf g = true) {m : List (Nat × Nat)} (hm : s.soundAll c m = true) :
    t.soundAll c m = true := by
  refine List.all_eq_true.mpr fun x hx => ?_
  have hx := State.soundAll_mem hm hx
  exact Bool.and_eq_true_iff.mpr ⟨hx.1, State.sound_of fun a h1 h2 => h _ (State.sound_half hx.2 h1 h2)⟩

/-- The fold of `engWrites` over pieces of sound bytes leaves sound what was. -/
theorem State.engWrite_foldl_sound (ctx : Nat) : ∀ (l : Pieces) (s t : State), s.soundAll c (rangesOf l) = true →
    l.foldl (fun (r : BitVec 8 × State) p =>
      let x := r.2.engWrite c.val ctx p.1 p.2
      (if r.1 = stOk then x.1 else r.1, x.2)) (stOk, s) = (stOk, t) → ∀ g, s.soundHalf g = true → t.soundHalf g = true
  | [], s, t, _, ht => by
    obtain ⟨-, rfl⟩ := Prod.mk.inj ht
    exact fun _ h => h
  | p :: l, s, t, hs, ht => by
    unfold rangesOf State.soundAll at hs
    rw [List.map_cons, List.all_cons, Bool.and_eq_true, Bool.and_eq_true] at hs
    obtain ⟨⟨hi, hp⟩, hl⟩ := hs
    obtain ⟨u, hu, -, hsound⟩ := State.engWrite_stores hi hp ctx
    rw [List.foldl_cons] at ht
    simp only [hu] at ht
    exact fun g hg => State.engWrite_foldl_sound ctx l u t (State.soundAll_mono hsound hl) ht g (hsound g hg)

/-- Pieces written to sound bytes of the core's slabs are stored, and what was sound is. -/
theorem State.engWrites_storesSound (h : s.soundAll c (rangesOf l) = true) (ctx : Nat) :
    ∃ t, s.engWrites c.val ctx l = (stOk, t) ∧ StoresSound c (s.core c.val) l s t := by
  obtain ⟨t, ht, hst⟩ := State.engWrites_sound h ctx
  refine ⟨t, ht, hst, ?_⟩
  unfold State.engWrites at ht
  dsimp only at ht
  split at ht
  · exact absurd (Prod.mk.inj ht).1 (by decide)
  · split at ht
    · exact absurd (Prod.mk.inj ht).1 (by decide)
    · rw [State.badPart_sound h] at ht
      exact State.engWrite_foldl_sound ctx l s t h ht

end

/-! ### Ranges of a row command -/

section
variable {w : Cmd} {p : BitVec 512} {r : Nat}

/-- The ranges that a row command may write. -/
def rowOuts (w : Cmd) (p : BitVec 512) : List (Nat × Nat) :=
  ((sOut w p ++ sSums w p).map (fun x => x.ranges (rNrows w))).flatten ++ (if cOpc w = 0x40 then [(rDst w, rNrows w * rResult w)] else [])

/-- The streams that a row reads. -/
def rowStreams (w : Cmd) (p : BitVec 512) : List RStream := sX w p ++ sDy w p ++ sGamma w p ++ sBeta w p ++ sSums w p

theorem RStream.mem_ranges (x : RStream) {n : Nat} (h : r < n) : (x.addr + r * x.pitch, fmtBytes x.fmt x.len) ∈ x.ranges n := by
  unfold RStream.ranges
  split
  · simp [*]
  · exact List.mem_map.mpr ⟨r, List.mem_range.mpr h, rfl⟩

theorem mem_ranges_of_stream {l : List RStream} {x : RStream} (hx : x ∈ l) (h : r < rNrows w) :
    (x.addr + r * x.pitch, fmtBytes x.fmt x.len) ∈ (l.map (fun x => x.ranges (rNrows w))).flatten :=
  List.mem_flatten.mpr ⟨_, List.mem_map.mpr ⟨x, hx, rfl⟩, x.mem_ranges h⟩

theorem rowOuts_covered (w : Cmd) (p : BitVec 512) : Covered (rowOuts w p) (rowRanges w p) := by
  refine Covered.of_subset fun x hx => ?_
  unfold rowOuts at hx
  unfold rowRanges
  simp only [List.map_append, List.flatten_append, List.mem_append] at hx ⊢
  tauto

theorem rowReads_covered (h : r < rNrows w) : Covered (rowReads w p r) (rowRanges w p) := by
  refine Covered.of_subset fun y hy => ?_
  obtain ⟨x, hx, rfl⟩ := List.mem_map.mp hy
  refine List.mem_append_left _ (mem_ranges_of_stream ?_ h)
  simp only [List.mem_append] at hx ⊢
  tauto

/-! ### The results of a row -/

theorem fZip_length (f : Nat → Nat → Cf → Fx) : ∀ (l m : List Nat) (fl : Cf), (fZip f l m fl).1.length = min l.length m.length
  | [], _, _ => by simp [fZip]
  | _ :: _, [], _ => by simp [fZip]
  | a :: l, b :: m, fl => by simp [fZip, fZip_length f l m]

/-- The column sums of RNORMB are as many as the elements of its operands. -/
theorem rnormbRow_sums_length (w : Cmd) (p : BitVec 512) (e : BitVec 64) (x dy g cs : List Nat) :
    (rnormbRow w p e x dy g cs).sums.length ≤ dy.length + if pBeta p then dy.length else 0 := by
  unfold rnormbRow
  extract_lets l ln mu rs d xh gg s1 c1 t s2 c2 w1 f dx pr sums bs
  split
  · have hsums : sums.1.length ≤ dy.length := by
      show (fZip ..).1.length ≤ _
      rw [fZip_length, fZip_length]
      omega
    have hbs : bs.1.length ≤ if pBeta p then dy.length else 0 := by
      show (if pBeta p then _ else _ : List Nat × Cf).1.length ≤ _
      split
      · rw [fZip_length]
        omega
      · exact Nat.zero_le _
    rw [List.length_append]
    omega
  · exact Nat.zero_le _

/-- A scale and a shift are used with AFFINE alone. -/
theorem affine_congr {g g' b b' : List Nat} (h : pAffine p = true → g = g' ∧ b = b') (y : List Nat) (fl : Cf) :
    affine p y g b fl = affine p y g' b' fl := by
  unfold affine
  split
  · obtain ⟨rfl, rfl⟩ := h ‹_›
    rfl
  · rfl

theorem rnormRow_congr {g g' b b' : List Nat} (h : pAffine p = true → g = g' ∧ b = b') (w : Cmd) (x : List Nat) :
    rnormRow w p x g b = rnormRow w p x g' b' := by
  unfold rnormRow
  simp only [affine_congr h]

theorem rnormbRow_congr {g g' : List Nat} (h : pAffine p = true → g = g') (w : Cmd) (e : BitVec 64) (x dy cs : List Nat) :
    rnormbRow w p e x dy g cs = rnormbRow w p e x dy g' cs := by
  by_cases ha : pAffine p = true
  · rw [h ha]
  · unfold rnormbRow
    simp only [if_neg ha]

/-- The results of row r, its operands by address and format and its statistics entry being given. -/
def rowResult (row : Nat → Nat → List Nat) (w : Cmd) (p : BitVec 512) (e : BitVec 64) (r : Nat) : RowOut :=
  let xs := row (rSrc w + r * pSp p) (pFi p)
  let dy := row (rAux w + r * pAp p) (pFd p)
  let g := row (pGamma p) (pFg p)
  let b := if pBeta p then row (pBetaA p) (pFg p) else List.replicate (pLen p) 0
  let cs := if rCsum w p then row (pCs p) 0 ++ (if pBeta p then row (pCs p + 4 * pLen p) 0 else []) else []
  match cOpc w with
  | 0x40 => rredRow w xs
  | 0x41 => rnormRow w p xs g b
  | 0x42 => rnormbRow w p e xs dy g cs
  | 0x43 => rsmaxRow w p r xs
  | _ => rsmaxbRow w p r e xs dy

/-- The output row narrowed. -/
def rowNarrowed (x : Slot) (w : Cmd) (p : BitVec 512) (r : Nat) (o : RowOut) : List (Nat × Cf) :=
  o.out.zipIdx.map (fun v => narrow (pFo p) (rowNarrow x w p) (BitVec.ofNat 64 (pBaseIx p + (rBase w + r) * pIpitch p + v.2)) (fp32.decode v.1))

/-- The pieces that row r stores. -/
def rowItems (x : Slot) (w : Cmd) (p : BitVec 512) (r : Nat) (o : RowOut) : Pieces :=
  (if cOpc w = 0x40 then [(rDst w + r * rResult w, natLe (rResult w) (packElems 32 o.red))]
    else [(rDst w + r * pDp p, natLe (fmtBytes (pFo p) (pLen p)) (packElems (fmtBits (pFo p)) ((rowNarrowed x w p r o).map (·.1))))]) ++
  (if rCsum w p then [(pCs p, natLe (4 * o.sums.length) (packElems 32 o.sums))] else [])

/-- An entry written, or left. -/
def Core.setEntry (k : Core) (i : Nat) : Option (BitVec 64) → Core
  | some v => k.setStat i v
  | none => k

theorem Core.stat_setEntry (k : Core) (i : Nat) (v : Option (BitVec 64)) (j : Nat) :
    (k.setEntry i v).stat j = if j = i then v.getD (k.stat i) else k.stat j := by
  cases v with
  | some v => exact Core.stat_setStat ..
  | none =>
    by_cases h : j = i
    · rw [if_pos h, h]
      rfl
    · exact (if_neg h).symm

theorem Core.statBad_setEntry {k : Core} {j : Nat} (h : k.statBad j = false) (i : Nat) (v : Option (BitVec 64)) :
    (k.setEntry i v).statBad j = false := by
  cases v with
  | some v => exact Core.statBad_setStat h ..
  | none => exact h

theorem Core.EntriesOnly.setEntry {k j : Core} (h : k.EntriesOnly j) (i : Nat) (v : Option (BitVec 64)) : k.EntriesOnly (j.setEntry i v) := by
  cases v with
  | some v => exact h.setStat ..
  | none => exact h

/-- The entry of row r once the row is done: the one that the row makes, the empty one after a backward row, with SWR alone. -/
def Core.rowNoted (k : Core) (w : Cmd) (r : Nat) (o : RowOut) : Core :=
  (k.setEntry (rSidx w + r) (if rSwr w then o.entry else none)).setEntry (rSidx w + r) (if rBack (cOpc w) && rSwr w then some emptyStat else none)

theorem Core.stat_rowNoted (k : Core) (w : Cmd) (r : Nat) (o : RowOut) (j : Nat) : (k.rowNoted w r o).stat j =
    if j = rSidx w + r then (if rSwr w then (if rBack (cOpc w) then emptyStat else o.entry.getD (k.stat j)) else k.stat j)
    else k.stat j := by
  unfold Core.rowNoted
  rw [Core.stat_setEntry]
  by_cases hj : j = rSidx w + r
  · rw [if_pos hj, if_pos hj, Core.stat_setEntry, if_pos rfl, hj]
    cases rSwr w <;> cases rBack (cOpc w) <;> rfl
  · rw [if_neg hj, if_neg hj, Core.stat_setEntry, if_neg hj]

/-- The elements of a vector in the slabs. -/
def State.rowVals (s : State) (c : CoreId) (p : BitVec 512) (a fmt : Nat) : List Nat :=
  widen fmt (pLen p) (s.bytes (slabKey c.val a) (fmtBytes fmt (pLen p)))

/-- What row r comes to. -/
def State.rowOut (s : State) (c : CoreId) (w : Cmd) (p : BitVec 512) (r : Nat) : RowOut :=
  rowResult (s.rowVals c p) w p ((s.core c.val).stat (rSidx w + r)) r

/-- A command of one of the five row operations. -/
def IsRowOp (w : Cmd) : Prop := 0x40 ≤ cOpc w ∧ cOpc w ≤ 0x44

/-- The results rest on the streams of the row. -/
theorem rowResult_congr {row row' : Nat → Nat → List Nat} (hop : IsRowOp w) (hq : pQsrc p = false)
    (h : ∀ x ∈ rowStreams w p, x.len = pLen p → row (x.addr + r * x.pitch) x.fmt = row' (x.addr + r * x.pitch) x.fmt) (e : BitVec 64) :
    rowResult row w p e r = rowResult row' w p e r := by
  have hmem {x : RStream} (hx : x ∈ sX w p ∨ x ∈ sDy w p ∨ x ∈ sGamma w p ∨ x ∈ sBeta w p ∨ x ∈ sSums w p) : x ∈ rowStreams w p := by
    simp only [rowStreams, List.mem_append]
    tauto
  have hx : row (rSrc w + r * pSp p) (pFi p) = row' (rSrc w + r * pSp p) (pFi p) :=
    h ⟨rSrc w, pSp p, pFi p, pLen p⟩ (hmem (.inl (by simp [sX, hq]))) rfl
  have hdy (hb : rBack (cOpc w) = true) : row (rAux w + r * pAp p) (pFd p) = row' (rAux w + r * pAp p) (pFd p) :=
    h ⟨rAux w, pAp p, pFd p, pLen p⟩ (hmem (.inr (.inl (by simp [sDy, hb])))) rfl
  have hg (hn : rNorm w = true) (ha : pAffine p = true) : row (pGamma p) (pFg p) = row' (pGamma p) (pFg p) :=
    h ⟨pGamma p, 0, pFg p, pLen p⟩ (hmem (.inr (.inr (.inl (by simp [sGamma, hn, ha]))))) rfl
  have hb (ho : cOpc w = 0x41) (ha : pAffine p = true) (hb : pBeta p = true) : row (pBetaA p) (pFg p) = row' (pBetaA p) (pFg p) :=
    h ⟨pBetaA p, 0, pFg p, pLen p⟩ (hmem (.inr (.inr (.inr (.inl (by simp [sBeta, ho, ha, hb])))))) rfl
  have hsums (hc : rCsum w p = true) : row (pCs p) 0 = row' (pCs p) 0 :=
    h ⟨pCs p, 0, 0, pLen p⟩ (hmem (.inr (.inr (.inr (.inr (by simp [sSums, hc])))))) rfl
  have hsums' (hc : rCsum w p = true) (hb : pBeta p = true) : row (pCs p + 4 * pLen p) 0 = row' (pCs p + 4 * pLen p) 0 :=
    h ⟨pCs p + 4 * pLen p, 0, 0, pLen p⟩ (hmem (.inr (.inr (.inr (.inr (by simp [sSums, hc, hb])))))) rfl
  unfold rowResult
  extract_lets xs dy g b cs xs' dy' g' b' cs'
  have hx : xs = xs' := hx
  have hcs : cs = cs' := by
    refine ite_congr rfl (fun hc => ?_) fun _ => rfl
    rw [hsums hc]
    exact congrArg _ (ite_congr rfl (hsums' hc) fun _ => rfl)
  obtain ⟨hlo, hhi⟩ := hop
  rw [hx, hcs]
  split
  case h_1 => rfl
  case h_2 ho =>
    have hn : rNorm w = true := by simp [rNorm, ho]
    exact rnormRow_congr (fun ha => ⟨hg hn ha, ite_congr rfl (hb ho ha) fun _ => rfl⟩) ..
  case h_3 ho =>
    have hn : rNorm w = true := by simp [rNorm, ho]
    have hdy : dy = dy' := hdy (by simp [rBack, ho])
    rw [hdy]
    exact rnormbRow_congr (hg hn) ..
  case h_4 => rfl
  case h_5 h0 h1 h2 h3 =>
    have hdy : dy = dy' := hdy (by
      have ho : cOpc w = 0x44 := by
        have hne : cOpc w ≠ 0x40 ∧ cOpc w ≠ 0x41 ∧ cOpc w ≠ 0x42 ∧ cOpc w ≠ 0x43 := ⟨h0, h1, h2, h3⟩
        omega
      simp [rBack, ho])
    rw [hdy]

end

/-! ### A row runs -/

section
variable {s : State} {c : CoreId} {q : QEnt} {p : BitVec 512} {r : Nat}

/-- The column sums of a row fill at most their vectors. -/
theorem State.rowOut_sums (s : State) (c : CoreId) {w : Cmd} (hc : rCsum w p = true) (r : Nat) :
    (s.rowOut c w p r).sums.length ≤ pLen p + if pBeta p then pLen p else 0 := by
  have ho : cOpc w = 0x42 := by
    unfold rCsum at hc
    simpa using (Bool.and_eq_true_iff.mp hc).1
  have hlen (a fmt : Nat) : (s.rowVals c p a fmt).length = pLen p := by simp [State.rowVals, widen]
  have h := rnormbRow_sums_length w p ((s.core c.val).stat (rSidx w + r)) (s.rowVals c p (rSrc w + r * pSp p) (pFi p))
    (s.rowVals c p (rAux w + r * pAp p) (pFd p)) (s.rowVals c p (pGamma p) (pFg p))
    (if rCsum w p then s.rowVals c p (pCs p) 0 ++ (if pBeta p then s.rowVals c p (pCs p + 4 * pLen p) 0 else []) else [])
  rw [hlen] at h
  unfold State.rowOut rowResult
  rw [ho]
  exact h

/-- Bytes of the column sums lie in their vectors. -/
theorem sSums_covered {w : Cmd} (hc : rCsum w p = true) {n : Nat} (hn : n ≤ pLen p + if pBeta p then pLen p else 0) :
    Covered [(pCs p, 4 * n)] (rowOuts w p) := by
  have hbytes : fmtBytes 0 (pLen p) = 4 * pLen p := by
    show (pLen p * 32 + 8 - 1) / 8 = _
    omega
  have hmem {x : RStream} (hx : x ∈ sSums w p) (hpitch : x.pitch = 0) : (x.addr, fmtBytes x.fmt x.len) ∈ rowOuts w p := by
    refine List.mem_append_left _ (List.mem_flatten.mpr ⟨x.ranges (rNrows w), List.mem_map.mpr ⟨x, List.mem_append_right _ hx, rfl⟩, ?_⟩)
    unfold RStream.ranges
    rw [if_pos hpitch]
    exact List.mem_singleton_self _
  have hfirst := hmem (x := ⟨pCs p, 0, 0, pLen p⟩) (by simp [sSums, hc]) rfl
  rintro x hx b h1 h2
  obtain rfl := List.mem_singleton.mp hx
  dsimp only at h1 h2
  by_cases hb : b < pCs p + 4 * pLen p
  · exact ⟨_, hfirst, h1, by dsimp only; omega⟩
  · have hbeta : pBeta p = true := by
      by_contra h
      rw [if_neg h] at hn
      omega
    rw [if_pos hbeta] at hn
    exact ⟨_, hmem (x := ⟨pCs p + 4 * pLen p, 0, 0, pLen p⟩) (by simp [sSums, hc, hbeta]) rfl, by dsimp only; omega, by dsimp only; omega⟩

theorem rowItems_covered (x : Slot) {w : Cmd} (h : r < rNrows w) : Covered (rangesOf (rowItems x w p r (s.rowOut c w p r))) (rowOuts w p) := by
  unfold rowItems rangesOf
  rw [List.map_append]
  refine List.forall_mem_append.mpr ⟨?_, ?_⟩
  · split
    · intro y hy b h1 h2
      obtain rfl := List.mem_singleton.mp hy
      dsimp only at h1 h2
      rw [natLe_length] at h2
      have hle : (r + 1) * rResult w ≤ rNrows w * rResult w := Nat.mul_le_mul_right _ h
      rw [Nat.succ_mul] at hle
      refine ⟨(rDst w, rNrows w * rResult w), List.mem_append_right _ (by simp [*]), by dsimp only; omega, by dsimp only; omega⟩
    · refine Covered.of_subset fun y hy => ?_
      obtain rfl := List.mem_singleton.mp hy
      dsimp only
      rw [natLe_length]
      exact List.mem_append_left _ (mem_ranges_of_stream (x := ⟨rDst w, pDp p, pFo p, pLen p⟩) (by simp [sOut, *]) h)
  · split
    · rw [List.map_singleton, natLe_length]
      exact sSums_covered ‹_› (s.rowOut_sums c ‹_› r)
    · exact fun y hy => absurd hy List.not_mem_nil

/-- The entry of a row command when n rows more are done, its flags now `fl`. -/
def QEnt.rowsDone (q : QEnt) (n : Nat) (fl : Flags) : QEnt :=
  { q with flags := fl, prog := { q.prog with rows := q.prog.rows + BitVec.ofNat 32 n } }

theorem QEnt.rowsDone_zero (q : QEnt) : q.rowsDone 0 q.flags = q := by simp [QEnt.rowsDone]

theorem QEnt.rowsDone_rowsDone (q : QEnt) (m n : Nat) (fl fl' : Flags) : (q.rowsDone m fl).rowsDone n fl' = q.rowsDone (m + n) fl' := by
  simp [QEnt.rowsDone, BitVec.ofNat_add, BitVec.add_assoc]

/-- A row in sound ranges, its entry readable where it has one, stores its pieces and notes its entry. -/
theorem rowStep_stores (hop : IsRowOp q.w) (hq : pQsrc p = false) (hr : r < rNrows q.w) (hs : s.soundAll c (rowRanges q.w p) = true)
    (hok : rUses q.w = true → (s.core c.val).statBad (rSidx q.w + r) = false) :
    ∃ t fl, rowStep s c.val q p r none = .go t (q.rowsDone 1 fl) ∧
      StoresSound c ((s.core c.val).rowNoted q.w r (s.rowOut c q.w p r))
        (rowItems (s.slot c.val q.slot.val) q.w p r (s.rowOut c q.w p r)) s t := by
  obtain ⟨u, hu, hregs⟩ := State.engReads_sound ((s.core c.val).slot q.slot.val).ctx.toNat _ s ((rowReads_covered hr).soundAll hs)
  obtain ⟨y, hy, hst⟩ := State.engWrites_storesSound (s := u) (c := c)
    (l := rowItems (s.slot c.val q.slot.val) q.w p r (s.rowOut c q.w p r))
    (by rw [hregs.2.soundAll]; exact ((rowItems_covered _ hr).trans (rowOuts_covered _ _)).soundAll hs)
    ((s.core c.val).slot q.slot.val).ctx.toNat
  have hst := hst.after_reads hregs
  have ho : rowResult (fun a fmt => widen fmt (pLen p) (pieceAt (s.pieces c (rowReads q.w p r)) a (fmtBytes fmt (pLen p)))) q.w p
      ((s.core c.val).stat (rSidx q.w + r)) r = s.rowOut c q.w p r := by
    refine rowResult_congr hop hq (fun x hx hlen => ?_) _
    unfold State.rowVals
    rw [pieceAt_mem]
    refine List.mem_map.mpr ⟨x, hx, ?_⟩
    rw [← hlen]
  have hbad : ¬ (rUses q.w && (s.core c.val).statBad (rSidx q.w + r)) = true := by
    rw [Bool.and_eq_true]
    exact fun h => absurd h.2 (ne_true_of_eq_false (hok h.1))
  unfold rowStep
  extract_lets w k x ctx n reads e nr ix prog
  rw [hu]
  change ∃ t fl, (if stOk ≠ stOk then _ else _) = _ ∧ _
  rw [if_neg (not_not_intro rfl), if_neg hbad]
  extract_lets row xs dy g b cs o outs fl items z s1 s2
  have ho : o = s.rowOut c w p r := ho
  have hz : z = (stOk, y) := by
    show u.engWrites _ _ (rowItems x w p r o) = _
    rw [ho]
    exact hy
  rw [← ho] at hst ⊢
  have h1 : StoresSound c (k.setEntry (rSidx w + r) (if rSwr w then o.entry else none)) (rowItems x w p r o) s s1 := by
    simp only [s1, hz]
    cases o.entry <;> cases rSwr w
    case some.true => exact (hst.setStat _ _).count _ _
    all_goals exact hst
  have h2 {k' : Core} (h : StoresSound c k' (rowItems x w p r o) s s1) : StoresSound c
      (k'.setEntry (rSidx w + r) (if rBack (cOpc w) && rSwr w then some emptyStat else none)) (rowItems x w p r o) s s2 := by
    simp only [s2]
    cases rBack (cOpc w) <;> cases rSwr w
    case true.true => exact (h.setStat _ _).count _ _
    case true.false => exact h.count _ _
    all_goals exact h
  rw [if_neg (not_not_intro (congrArg Prod.fst hz))]
  exact ⟨_, _, rfl, (h2 h1).count _ _⟩

end

end Sys2Proof.Machine
end

section
/-! RRED, RNORM, RNORMB, RSMAX and RSMAXB as the row engine takes them (R160 to R174): the checks of R165 and the rows one after
another. -/

namespace Sys2Proof.Machine

section
variable {d s t u : State} {c : CoreId} {q : QEnt} {p : BitVec 512}

/-! ### Rows one after another -/

/-- Between two states rows have run that store in ranges l: of core c the statistics entries may differ, words of entries that
can be read stay so, and what was sound is. -/
structure RowsRan (c : CoreId) (l : List (Nat × Nat)) (s t : State) : Prop where
  core : ∃ k, (s.core c.val).EntriesOnly k ∧ CoreIs c k s t
  kept : KeptBut [.mem, .chk, .reported, .mems, .cores] s t
  outside : ∀ a, (∀ x ∈ l, a < slabKey c.val x.1 ∨ slabKey c.val x.1 + x.2 ≤ a) → t.byte a = s.byte a
  sound : ∀ g, s.soundHalf g = true → t.soundHalf g = true
  readable : ∀ j, (s.core c.val).statBad j = false → (t.core c.val).statBad j = false

theorem RowsRan.of_regs (h : RegsOnly c (s.core c.val) s t) (l : List (Nat × Nat)) : RowsRan c l s t :=
  ⟨⟨_, Core.EntriesOnly.refl _, h.1⟩, h.2.mono (by decide), fun a _ => h.2.byte (by decide) (by decide) a,
    fun g hg => (h.2.soundHalf g).trans hg, fun j hj => (h.1.statBad j).trans hj⟩

theorem RowsRan.trans {l : List (Nat × Nat)} (h : RowsRan c l s t) (g : RowsRan c l t u) : RowsRan c l s u := by
  obtain ⟨⟨_, ⟨st, ch, rfl⟩, ⟨un, cs, hk⟩, ho⟩, hkept, hout, hsound, hread⟩ := h
  obtain ⟨⟨_, ⟨st', ch', rfl⟩, ⟨un', cs', hk'⟩, ho'⟩, hkept', hout', hsound', hread'⟩ := g
  exact ⟨⟨_, ⟨st', ch', rfl⟩, ⟨un', cs', by rw [hk', hk]⟩, fun x hx => (ho' x hx).trans (ho x hx)⟩, hkept.trans hkept',
    fun a ha => (hout' a ha).trans (hout a ha), fun x hx => hsound' x (hsound x hx), fun j hj => hread' j (hread j hj)⟩

/-- One row that runs. -/
theorem StoresSound.rowsRan {w : Cmd} {r : Nat} {o : RowOut} {l : Pieces} {m : List (Nat × Nat)}
    (h : StoresSound c ((s.core c.val).rowNoted w r o) l s t) (hm : Covered (rangesOf l) m) : RowsRan c m s t := by
  obtain ⟨⟨hcore, hkept, hbyte⟩, hsound⟩ := h
  exact ⟨⟨_, ((Core.EntriesOnly.refl _).setEntry _ _).setEntry _ _, hcore⟩, hkept,
    fun a ha => (hbyte a).trans (State.putAll_byte_ne hm ha s), hsound,
    fun j hj => (hcore.statBad j).trans (Core.statBad_setEntry (Core.statBad_setEntry hj _ _) _ _)⟩

/-- Rows r to r + n - 1 of a command whose ranges are sound and whose entries can be read all run. -/
theorem rowsFrom_ran (n : Nat) : ∀ {s : State} {q : QEnt} {r : Nat}, IsRowOp q.w → pQsrc p = false → r + n ≤ rNrows q.w →
    s.soundAll c (rowRanges q.w p) = true →
    (rUses q.w = true → ∀ j, j < rNrows q.w → (s.core c.val).statBad (rSidx q.w + j) = false) →
    ∃ t fl, rowsFrom s c.val q p r n = .go t { q.rowsDone n fl with await := [] } ∧ RowsRan c (rowOuts q.w p) s t := by
  induction n with
  | zero =>
    intro s q r _ _ _ _ _
    exact ⟨s, q.flags, by rw [rowsFrom, QEnt.rowsDone_zero], .of_regs (RegsOnly.refl c _) _⟩
  | succ n ih =>
    intro s q r hop hq hr hs hok
    obtain ⟨t, fl, ht, hst⟩ := rowStep_stores (r := r) hop hq (by omega) hs (fun hu => hok hu r (by omega))
    have hran := hst.rowsRan (rowItems_covered _ (by omega))
    obtain ⟨u, fl', hu, hran'⟩ := ih (q := q.rowsDone 1 fl) (r := r + 1) hop hq (show r + 1 + n ≤ rNrows q.w by omega)
      (State.soundAll_mono hran.sound hs) (fun hu j hj => hran.readable _ (hok hu j hj))
    refine ⟨u, fl', ?_, hran.trans hran'⟩
    rw [rowsFrom, ht]
    dsimp only
    rw [hu, QEnt.rowsDone_rowsDone, Nat.add_comm 1 n]

/-! ### The checks of R165 -/

/-- A row command with parameter record p passes the checks of R165. -/
structure State.RowPasses (d : State) (c : CoreId) (w : Cmd) (p : BitVec 512) : Prop where
  record : d.soundAll c [(fld w 168 148, 64)] = true
  read : BitVec.ofNat 512 (d.num (slabKey c.val (fld w 168 148)) 64) = p
  formed : recordOk w p = true
  noQueue : pQsrc p = false
  capacity : rNrows w ≤ pRcap p
  ranges : d.soundAll c (rowRanges w p) = true
  cost : rowCost w p ≤ 16384
  tags : rBack (cOpc w) = true → ∀ j, j < rNrows w → statTag ((d.core c.val).stat (rSidx w + j)) = rTag w
  empty : (cOpc w = 0x41 ∨ cOpc w = 0x43) → rSwr w = true → bit w 98 = true →
    ∀ j, j < rNrows w → (d.core c.val).stat (rSidx w + j) = emptyStat

/-- A row command that passes the checks runs its rows from the state in which its record has been read. -/
theorem startRowOp_eq (h : d.RowPasses c q.w p) (hn : rNrows q.w ≠ 0) :
    ∃ t, RegsOnly c (d.core c.val) d t ∧ startRowOp d c.val q = rowsFrom t c.val q p 0 (rNrows q.w) := by
  obtain ⟨t, ht, hregs⟩ := State.engRead_sound h.record ((d.core c.val).slot q.slot.val).ctx.toNat
  refine ⟨t, hregs, ?_⟩
  have hspace : inSlabSpace (fld q.w 168 148) 64 = true := by simpa using State.soundAll_inSlabSpace h.record
  have hoff : (rowRanges q.w p).any (fun r => t.slabOff c.val r.1 r.2) = false := List.any_eq_false.mpr fun x hx => by
    obtain ⟨hi, hx⟩ := State.soundAll_mem ((hregs.2.soundAll _).trans h.ranges) hx
    simp [State.slabOff_sound hi hx]
  unfold startRowOp
  extract_lets w k x n prec rd p' fresh bad
  have hrd : rd = ⟨d.bytes (slabKey c.val prec) 64, stOk, t⟩ := ht
  have hp : p' = p := by
    show BitVec.ofNat 512 (leNat rd.data) = p
    rw [hrd]
    exact h.read
  have hformed : ¬ (!recordOk w p || (pQsrc p && decide (hQueueMask x.hdr / 2 ^ pQix p % 2 = 0))) = true := by
    simp [h.noQueue, show recordOk w p = true from h.formed]
  have hcap : ¬ (decide (pRcap p < n) || (rowRanges w p).any (fun r => !inSlabSpace r.1 r.2)) = true := by
    rw [State.soundAll_inSlabSpace h.ranges, decide_eq_false (Nat.not_lt.mpr h.capacity)]
    decide
  have hbad : bad = none := by
    show ite _ _ (ite _ _ _) = none
    split
    · exact Core.badStat_eq_none fun j hj => decide_eq_true (h.tags ‹_› j hj)
    · split
      · rename_i hfresh
        simp only [fresh, Bool.and_eq_true, Bool.or_eq_true, decide_eq_true_eq] at hfresh
        obtain ⟨⟨hop, hswr⟩, hchk⟩ := hfresh
        exact Core.badStat_eq_none fun j hj => decide_eq_true (h.empty hop hswr hchk j hj)
      · rfl
  rw [if_neg hn, hspace, if_neg (by decide), hp, hrd, if_neg (not_not_intro rfl), if_neg hformed, if_neg hcap,
    if_neg (Nat.not_lt.mpr h.cost), hbad]
  dsimp only
  rw [hoff, if_neg Bool.false_ne_true, h.noQueue, if_neg Bool.false_ne_true]

end

/-! ### The commands -/

theorem engineRow_isRowOp {i : Instr} {c : CoreId} {sl : SlotId} {w : Cmd} {o : OpInfo} {n : Nat}
    (h : engineRow i = some (c, sl, w, o, n)) : (o.engine, o.rsv) = (rowInfo.engine, rowInfo.rsv) → 0x40 ≤ n ∧ n ≤ 0x44 := by
  cases i <;> cases h <;> decide

section
variable {i : Instr} {s : State} {c : CoreId} {sl : SlotId} {w : Cmd} {n : Nat} {P : State → QEnt → Prop}

/-- A row command that passes its checks starts where its rows run. -/
theorem Starts.of_rows {t : State} {q : QEnt} (hi : engineRow i = some (c, sl, w, rowInfo, n)) (hop : opcIs w n = true)
    (hr : HeadReady rowInfo s c sl w) (hidle : ((s.headState rowInfo c sl w).core c.val).run 2 = [])
    (hstart : startRowOp (s.headState rowInfo c sl w) c.val (s.headEntry rowInfo c sl w) = .go t q)
    (hw : q.w = (s.headEntry rowInfo c sl w).w) (hP : P t q) : Starts i rowInfo s c P := by
  have hn := engineRow_isRowOp hi rfl
  refine Starts.of_row hi rfl rfl hop hr ?_ hw (by omega) hP
  rw [startRow_idle hidle, State.headEntry_opc rfl hop, if_neg (by omega), if_neg (by omega)]
  exact hstart

end

/-- Settles O33: past the checks of R165 (`startRowOp_eq`) every row runs, its ranges being sound and its entry readable
(`rowsFrom_ran`). -/
theorem rowCommands : Obligations.RowCommands := by
  intro i s c sl w n hi hop hr d r k p outs hidle hn hok hrec hformed hq hcap hranges hcost htags hempty
  have hopc : cOpc r = n := State.headEntry_opc rfl hop s c sl
  have hrow : IsRowOp r := by
    unfold IsRowOp
    rw [hopc]
    exact engineRow_isRowOp hi rfl
  obtain ⟨u, hregs, heq⟩ := startRowOp_eq (q := s.headEntry rowInfo c sl w) ⟨hrec, rfl, hformed, hq, hcap, hranges, hcost, htags, hempty⟩ hn
  have hread := RowsRan.of_regs hregs (rowOuts r p)
  obtain ⟨t, fl, ht, hran⟩ := rowsFrom_ran (rNrows r) (q := s.headEntry rowInfo c sl w) (r := 0) hrow hq (by rw [Nat.zero_add]; rfl)
    (State.soundAll_mono hread.sound hranges) (fun hu j hj => hread.readable _ (hok hu j hj))
  obtain ⟨⟨_, ⟨st, ch, rfl⟩, hcore⟩, hkept, hout, -, -⟩ := hread.trans hran
  refine Starts.of_rows hi hop hr hidle (heq.trans ht) rfl ⟨?_, rfl, rfl, ⟨st, ch, hcore⟩, hkept, hout⟩
  have hlt : rNrows r < 2 ^ 11 := Nat.mod_lt _ (by decide)
  show (0#32 + BitVec.ofNat 32 (rNrows r)).toNat = rNrows r
  rw [BitVec.zero_add, BitVec.toNat_ofNat]
  exact Nat.mod_eq_of_lt (by omega)

/-! ### The results of one row -/

section
variable {s t : State} {c : CoreId} {q : QEnt} {p : BitVec 512}

theorem CoreIs.slot {k : Core} (h : CoreIs c k s t) (j : Nat) : t.slot c.val j = k.slot j := by
  obtain ⟨⟨un, cs, hk⟩, -⟩ := h
  unfold State.slot
  rw [hk]
  rfl

/-- Reads leave what a row comes to. -/
theorem RegsOnly.rowOut (h : RegsOnly c (s.core c.val) s t) (w : Cmd) (p : BitVec 512) (r : Nat) : t.rowOut c w p r = s.rowOut c w p r := by
  have hvals : t.rowVals c p = s.rowVals c p := by
    funext a fmt
    unfold State.rowVals
    rw [State.bytes_congr (h.2.byte (by decide) (by decide))]
  unfold State.rowOut
  rw [hvals, h.1.stat]

/-- The results of the first row by opcode; an operand is named where its variant uses it. -/
theorem rowResult_first {w : Cmd} {n : Nat} (hop : cOpc w = n) (hn : 0x40 ≤ n ∧ n ≤ 0x44) (row : Nat → Nat → List Nat) (e : BitVec 64) :
    let xs := row (rSrc w) (pFi p)
    let dy := row (rAux w) (pFd p)
    let g := row (pGamma p) (pFg p)
    let b := if pBeta p then row (pBetaA p) (pFg p) else List.replicate (pLen p) 0
    let cs := row (pCs p) 0 ++ (if pBeta p then row (pCs p + 4 * pLen p) 0 else [])
    rowResult row w p e 0 =
      if n = 0x40 then rredRow w xs
      else if n = 0x41 then rnormRow w p xs (if pAffine p then g else []) (if pAffine p then b else [])
      else if n = 0x42 then rnormbRow w p e xs dy (if pAffine p then g else []) (if pCsum p then cs else [])
      else if n = 0x43 then rsmaxRow w p 0 xs
      else rsmaxbRow w p 0 e xs dy := by
  unfold rowResult
  simp only [Nat.zero_mul, Nat.add_zero]
  have hcases : n = 0x40 ∨ n = 0x41 ∨ n = 0x42 ∨ n = 0x43 ∨ n = 0x44 := by omega
  rcases hcases with rfl | rfl | rfl | rfl | rfl <;> rw [hop]
  · rfl
  · exact rnormRow_congr (fun ha => ⟨(if_pos ha).symm, (if_pos ha).symm⟩) _ _
  · have hsums : rCsum w p = pCsum p := by simp [rCsum, hop]
    rw [hsums]
    exact rnormbRow_congr (fun ha => (if_pos ha).symm) ..
  · rfl
  · rfl

/-- The pieces of the first row by opcode. -/
theorem rowItems_first {w : Cmd} {n : Nat} (hop : cOpc w = n) (x : Slot) (o : RowOut) :
    let out := o.out.zipIdx.map (fun v =>
      (narrow (pFo p) (rowNarrow x w p) (BitVec.ofNat 64 (pBaseIx p + rBase w * pIpitch p + v.2)) (fp32.decode v.1)).1)
    rowItems x w p 0 o =
      (if n = 0x40 then [(rDst w, natLe (rResult w) (packElems 32 o.red))]
        else [(rDst w, natLe (fmtBytes (pFo p) (pLen p)) (packElems (fmtBits (pFo p)) out))]) ++
      (if n = 0x42 ∧ pCsum p = true then [(pCs p, natLe (4 * o.sums.length) (packElems 32 o.sums))] else []) := by
  have hsums : rCsum w p = true ↔ n = 0x42 ∧ pCsum p = true := by simp [rCsum, hop]
  unfold rowItems rowNarrowed
  simp only [Nat.zero_mul, Nat.add_zero, hop, hsums, List.map_map, Function.comp_def]

/-- A row command of one row. -/
theorem rowsFrom_one (hop : IsRowOp q.w) (hq : pQsrc p = false) (hn : rNrows q.w = 1) (hs : s.soundAll c (rowRanges q.w p) = true)
    (hok : rUses q.w = true → (s.core c.val).statBad (rSidx q.w) = false) :
    ∃ t fl, rowsFrom s c.val q p 0 1 = .go t { q.rowsDone 1 fl with await := [] } ∧
      Stores c ((s.core c.val).rowNoted q.w 0 (s.rowOut c q.w p 0))
        (rowItems (s.slot c.val q.slot.val) q.w p 0 (s.rowOut c q.w p 0)) s t := by
  obtain ⟨t, fl, ht, hst⟩ := rowStep_stores hop hq (r := 0) (by omega) hs hok
  refine ⟨t, fl, ?_, hst.stores⟩
  rw [rowsFrom, ht]
  rfl

end

/-- Settles O34: past the checks the one row stores its pieces and notes its entry (`rowStep_stores`); reading the record
before it leaves what the row comes to, and operands that a variant ignores are none of its results. -/
theorem rowResults : Obligations.RowResults := by
  intro i s c sl w n hi hop hr d r k p row xs dy g b cs e o out items hidle hone hok hrec hformed hq hranges hcost htags hempty
  have hopc : cOpc r = n := State.headEntry_opc rfl hop s c sl
  have hn := engineRow_isRowOp hi rfl
  have hrow : IsRowOp r := by
    unfold IsRowOp
    rwa [hopc]
  have hcap : rNrows r ≤ pRcap p := by
    rw [hone]
    simp only [recordOk, Bool.and_eq_true, decide_eq_true_eq] at hformed
    tauto
  have hpass : d.RowPasses c r p := by
    have hrows {j : Nat} (hj : j < rNrows r) : rSidx r + j = rSidx r := by omega
    refine ⟨hrec, rfl, hformed, hq, hcap, hranges, hcost, fun hb j hj => ?_, fun hop hswr hchk j hj => ?_⟩
    · rw [hrows hj]
      exact htags (hopc ▸ hb)
    · rw [hrows hj]
      exact hempty (hopc ▸ hop) hswr hchk
  obtain ⟨u, hregs, heq⟩ := startRowOp_eq (q := s.headEntry rowInfo c sl w) hpass (show rNrows r ≠ 0 by omega)
  rw [show rNrows (s.headEntry rowInfo c sl w).w = 1 from hone] at heq
  obtain ⟨t, fl, ht, hcore, -, hbyte⟩ := rowsFrom_one (q := s.headEntry rowInfo c sl w) hrow hq hone ((hregs.2.soundAll _).trans hranges)
    (fun hu => (hregs.1.statBad _).trans (hok hu))
  have ho : u.rowOut c r p 0 = o := (hregs.rowOut r p 0).trans (rowResult_first hopc hn (d.rowVals c p) e)
  have hitems : rowItems (u.slot c.val sl.val) r p 0 o = items := by
    rw [hregs.1.slot]
    exact rowItems_first hopc _ o
  have hstat (j : Nat) : (t.core c.val).stat j = if j = rSidx r then
      (if rSwr r then (if rBack n then emptyStat else o.entry.getD (k.stat j)) else k.stat j) else k.stat j := by
    rw [show k.stat j = (u.core c.val).stat j from (hregs.1.stat j).symm, ← ho, ← hopc]
    exact (hcore.stat j).trans (Core.stat_rowNoted ..)
  refine Starts.of_rows hi hop hr hidle (heq.trans ht) rfl ⟨fun a => ?_, (hstat _).trans (if_pos rfl), fun j hj => (hstat j).trans (if_neg hj)⟩
  rw [← hitems, ← ho, ← State.putAll_byte_congr (hregs.2.byte (by decide) (by decide))]
  exact hbyte a

end Sys2Proof.Machine
end

section
/-! The canonical form of memory (log 4): at reset and after every step. -/

namespace Sys2Proof.Machine

/-- Settles O6: nothing is listed at reset. That an unlisted byte reads 0 is the model's choice (log 4). -/
theorem resetMemoryCanonical : Obligations.ResetMemoryCanonical := by
  unfold Obligations.ResetMemoryCanonical
  rfl

/-- The equation of `step` on an empty queue: a tick of the always-on counter. -/
theorem step_of_pending_eq_nil {s : State} (h : s.pending = []) : step s = .next { s with aon := s.aon + 1 } := by
  simp only [step, h]

/-- A command leaves memory canonical; this is a part of `keeps_exec`. -/
theorem exec_wf {i : Instr} {s t : State} (hs : Memory.wf s.mem = true) (he : exec i s = .next t) : Memory.wf t.mem = true := by
  have hk := (keeps_exec i s).mem hs
  rwa [he] at hk

/-- Settles O5: an idle step leaves memory alone, any other is a command of the queue, which keeps the form. -/
theorem memoryStaysCanonical : Obligations.MemoryStaysCanonical := by
  intro s t hs hstep
  cases hq : s.pending with
  | nil =>
    rw [step_of_pending_eq_nil hq] at hstep
    cases hstep
    exact hs
  | cons c rest =>
    rw [step_of_pending_eq_cons hq] at hstep
    exact exec_wf (s := { s with pending := rest }) hs hstep

end Sys2Proof.Machine
end

section
/-! Requests at slabs and cluster memory (R178 to R189): what a request of sound bytes is answered and stores, whichever side
it comes from. -/

namespace Sys2Proof.Machine

section
variable {s t u : State}

/-! ### What is stored -/

/-- The parts of the cores that hold the state of lists, their slots and tags, are the same in two states. -/
def SameLists (s t : State) : Prop := ∀ x, (t.core x).slots = (s.core x).slots ∧ (t.core x).tags = (s.core x).tags

theorem SameLists.of_cores (h : t.cores = s.cores) : SameLists s t := fun x => by
  rw [State.core_congr h]
  exact ⟨rfl, rfl⟩

theorem SameLists.trans (h : SameLists s t) (g : SameLists t u) : SameLists s u := fun x =>
  ⟨(g x).1.trans (h x).1, (g x).2.trans (h x).2⟩

theorem CountsOnly.sameLists (h : CountsOnly s t) : SameLists s t := fun x => by
  obtain ⟨un, cs, ms, hx⟩ := h x
  rw [hx]
  exact ⟨rfl, rfl⟩

theorem CountsOnly.eject (h : CountsOnly s t) (x : Nat) : (t.core x).eject = (s.core x).eject := by
  obtain ⟨un, cs, ms, hx⟩ := h x
  rw [hx]

theorem State.ejected_sameLists (s : State) (c : Nat) : SameLists s (s.ejected c) := fun x => by
  by_cases hx : x = c
  · subst hx
    rw [State.ejected, State.core_modCore]
    exact ⟨rfl, rfl⟩
  · rw [State.ejected, State.core_modCore_ne hx]
    exact ⟨rfl, rfl⟩

theorem Placed.byte {key : Nat} {d : List Byte} (h : Placed s t key d) (a : Nat) :
    t.byte a = if key ≤ a ∧ a < key + d.length then d.getD (a - key) 0 else s.byte a := by
  split
  · rename_i ha
    have hi : a - key < d.length := by omega
    have hb := h.inside (a - key) hi
    rw [show key + (a - key) = a by omega] at hb
    rw [hb, List.getD_eq_getElem _ _ hi]
  · exact h.outside a (by omega)

/-- A write from a core's slab range on: its words are counted where they were unread, then the bytes are stored. -/
theorem State.rewritten_writeDie {key : Nat} {d : List Byte} (hs : s.sound key d.length = true) (hd : key + d.length ≤ 2 ^ 65)
    (c a n ctx : Nat) : ∃ t, (s.rewritten c a n).writeDie ctx key d = (stOk, t) ∧ Placed s t key d := by
  have hk := ((Keeps.refl s).rewritten c a n (l := [.cores]) (by decide)).kept
  have hr := State.sound_congr (hk .mems (by decide)) (hk .chk (by decide)) (hk .sec (by decide)) (hk .husk (by decide)) key d.length
  obtain ⟨t, ht, hp⟩ := State.writeDie_placed (hr.trans hs) hd ctx
  exact ⟨t, ht, .around (.rewritten s c a n) hk hp (.refl t) (KeptBut.refl _ t)⟩

/-- A copy into a slab marks its words unread besides (R235). -/
theorem State.copyToSlab_placed {c a : Nat} {d : List Byte} (hs : s.sound (slabKey c a) d.length = true)
    (hd : slabKey c a + d.length ≤ 2 ^ 65) (ctx : Nat) :
    ∃ t, s.copyToSlab c ctx a d false = (stOk, t) ∧ Placed s t (slabKey c a) d := by
  obtain ⟨t, ht, hp⟩ := State.rewritten_writeDie hs hd c a d.length ctx
  refine ⟨t.copied c a d.length, ?_, .around (.refl s) (KeptBut.refl _ s) hp (.copied t c a _) ((Keeps.refl t).copied c a _ (by decide)).kept⟩
  simp only [State.copyToSlab, ht, if_true]

/-! ### Answers -/

/-- A request at a key has been carried out: a read is answered with the bytes and changes none, a write is answered and
stores its bytes there alone; lists go on as they were. -/
def Answers (s t : State) (key : Nat) (op : Access) : Prop :=
  SameLists s t ∧ match op with
    | .read n => t.hif.slabReply = .data (s.bytes key n) ∧ ∀ a, t.byte a = s.byte a
    | .write d => t.hif.slabReply = .done ∧ ∀ a, t.byte a = if key ≤ a ∧ a < key + d.length then d.getD (a - key) 0 else s.byte a

/-- The state before may be any with the same bytes and lists. -/
theorem Answers.of_same {key : Nat} {op : Access} (hb : ∀ a, t.byte a = s.byte a) (hl : SameLists s t) (h : Answers t u key op) :
    Answers s u key op := by
  refine ⟨hl.trans h.1, ?_⟩
  cases op with
  | read n =>
    obtain ⟨-, hr, ha⟩ := h
    exact ⟨hr.trans (congrArg _ (State.bytes_congr hb key n)), fun a => (ha a).trans (hb a)⟩
  | write d =>
    obtain ⟨-, hr, ha⟩ := h
    refine ⟨hr, fun a => ?_⟩
    rw [ha a, hb a]

/-- A read of sound bytes, answered from a state with the same bytes. -/
theorem Answers.read {key n : Nat} (hc : CountsOnly s t) (hb : ∀ a, t.byte a = s.byte a) :
    Answers s (t.setSlabReply (Rd.reply ⟨s.bytes key n, stOk, t⟩)) key (.read n) := ⟨hc.sameLists, rfl, hb⟩

theorem Answers.write {key : Nat} {d : List Byte} (h : Placed s t key d) :
    Answers s (t.setSlabReply (statusReply stOk)) key (.write d) := ⟨h.moves.moves.1.sameLists, rfl, h.byte⟩

/-- An answered command, in the words of the statement. -/
theorem Answers.completes {i : Instr} {key n : Nat} {op : Access} (he : exec i s = .next t) (hn : accessBytes op = n) (h : Answers s t key op) :
    (op = .read n → Completes i s (fun t => t.hif.slabReply = .data (s.bytes key n) ∧ (∀ a, t.byte a = s.byte a) ∧ SameLists s t)) ∧
    (∀ d, op = .write d → d.length = n → Completes i s (fun t => t.hif.slabReply = .done ∧
      (∀ a, t.byte a = if key ≤ a ∧ a < key + n then d.getD (a - key) 0 else s.byte a) ∧ SameLists s t)) := by
  constructor
  · rintro rfl
    exact ⟨t, he, h.2.1, h.2.2, h.1⟩
  · rintro d rfl rfl
    exact ⟨t, he, h.2.1, h.2.2, h.1⟩

/-! ### The engine side and the router side of a slab -/

theorem accessBytes_pos {op : Access} {off : Nat} (h : op.inWord off = true) : 1 ≤ accessBytes op := by
  cases op with
  | read n =>
    simp only [Access.inWord, Bool.and_eq_true, decide_eq_true_eq] at h
    exact h.1
  | write d =>
    simp only [Access.inWord, Bool.and_eq_true, Bool.not_eq_true', List.isEmpty_eq_false_iff, ← List.length_pos_iff] at h
    exact h.1

theorem State.engineAccess_answers {c : CoreId} {off : Nat} {op : Access} (hi : inSlabSpace off (accessBytes op) = true)
    (hpos : 1 ≤ accessBytes op) (hs : s.sound (slabKey c.val off) (accessBytes op) = true) (ctx : Nat) :
    Answers s (s.engineAccess c.val ctx off op) (slabKey c.val off) op := by
  have hlt := slabKey_lt (c := c) hi (by omega)
  cases op with
  | read n =>
    have hk := (State.consumeUnread_regsOnly s c off n).2
    have hr : s.engRead c.val ctx off n = ⟨s.bytes (slabKey c.val off) n, stOk, s.consumeUnread c.val off n⟩ := by
      simp only [State.engRead, State.readDie_sound (show s.sound _ n = true from hs)]
    have ha : s.engineAccess c.val ctx off (.read n) = _ := if_neg (by rw [show inSlabSpace off n = true from hi]; decide)
    rw [ha, hr]
    exact .read (.consumeUnread s _ _ _) (hk.byte (by decide) (by decide))
  | write d =>
    obtain ⟨t, ht, hp⟩ := State.rewritten_writeDie hs hlt.le c.val off d.length ctx
    have ha : s.engineAccess c.val ctx off (.write d) = _ := if_neg (by rw [show inSlabSpace off d.length = true from hi]; decide)
    have hw : s.engWrite c.val ctx off d = (stOk, t) := ht
    rw [ha, hw]
    exact .write hp

/-- The plain view lies at the head of the slab region (Table 07-2). -/
theorem slabRegion_plain {off : Nat} (h : off < 0x180000) (c : Nat) : slabRegion c off = .slab (slabKey c off) 0 := if_pos h

/-- The core-local address of a key of a slab. -/
theorem past_slabKey {c : CoreId} {off : Nat} (h : off < 0x180000) : past (slabKey c.val off) slabBase % 0x800000 = off := by
  unfold past slabKey
  omega

theorem State.routerAccess_answers {c : CoreId} {off : Nat} {op : Access} (up : s.routerDown c.val = false)
    (hi : inSlabSpace off (accessBytes op) = true) (hpos : 1 ≤ accessBytes op)
    (hs : s.sound (slabKey c.val off) (accessBytes op) = true) (cl : SlabClient) (ctx : Nat) :
    Answers s (s.routerAccess cl c.val ctx off op) (slabKey c.val off) op := by
  have hlt := slabKey_lt (c := c) hi (by omega)
  have hoff : off < 0x180000 := by
    simp only [inSlabSpace, Bool.or_eq_true, decide_eq_true_eq] at hi
    omega
  unfold State.routerAccess
  rw [slabRegion_plain hoff, if_neg (by rw [up]; decide)]
  cases op with
  | read n =>
    simp only [State.readDie_sound (show s.sound _ n = true from hs)]
    exact .read (.refl s) fun _ => rfl
  | write d =>
    obtain ⟨v, hv, hpv⟩ := State.copyToSlab_placed hs hlt.le ctx
    obtain ⟨w, hw, hpw⟩ := State.rewritten_writeDie hs hlt.le c.val off d.length ctx
    simp only [past_slabKey hoff, ne_eq, not_true_eq_false, if_false]
    split
    · rw [hv]
      exact .write hpv
    · rw [hw]
      exact .write hpw

/-- What a request at a slab comes to (R180, R181). -/
def State.slabServed (s : State) (cl : SlabClient) (c off : Nat) (op : Access) : State :=
  if engineSide cl then s.engineAccess c (s.engineCtx c cl) off op
  else if cl = .inbound then (s.took.ejected c).routerAccess cl c s.anyCtx off op
  else s.routerAccess cl c (if cl = .access then s.engineCtx c cl else 0xFFFF) off op

theorem exec_slabAccess {cl : SlabClient} {c : CoreId} {off : BitVec 23} {op : Access} (h : op.inWord off.toNat = true) :
    exec (.slabAccess cl c off op) s = .next (s.slabServed cl c.val off.toNat op) := if_neg (by rw [h]; decide)

/-- The state that the router side of a slab starts from: an inbound request has left the ejection buffer (R182). -/
theorem State.slabServed_router {cl : SlabClient} (h : engineSide cl = false) (c off : Nat) (op : Access) :
    ∃ ctx, s.slabServed cl c off op = (if cl = .inbound then s.took.ejected c else s).routerAccess cl c ctx off op := by
  unfold State.slabServed
  rw [if_neg (by rw [h]; decide)]
  split
  · exact ⟨_, rfl⟩
  · exact ⟨_, rfl⟩

/-- Taking a request out of the ejection buffer changes no byte, no list, no memory and no router. -/
theorem State.took_ejected_kept (s : State) (c : Nat) : KeptBut [.fresh, .cores] s (s.took.ejected c) :=
  (((Keeps.refl s).took (by decide)).ejected c (by decide)).kept

theorem State.took_ejected_sound (s : State) (c key n : Nat) : (s.took.ejected c).sound key n = s.sound key n :=
  State.sound_congr rfl rfl rfl rfl key n

theorem State.slabServed_answers {cl : SlabClient} {c : CoreId} {off : Nat} {op : Access} (side : engineSide cl = true ∨ s.routerDown c.val = false)
    (hi : inSlabSpace off (accessBytes op) = true) (hpos : 1 ≤ accessBytes op)
    (hs : s.sound (slabKey c.val off) (accessBytes op) = true) :
    Answers s (s.slabServed cl c.val off op) (slabKey c.val off) op := by
  cases he : engineSide cl with
  | true =>
    unfold State.slabServed
    rw [if_pos he]
    exact State.engineAccess_answers hi hpos hs _
  | false =>
    have up := side.resolve_left (by rw [he]; decide)
    obtain ⟨ctx, hr⟩ := State.slabServed_router (s := s) he c.val off op
    rw [hr]
    split
    · refine .of_same ((s.took_ejected_kept c.val).byte (by decide) (by decide)) (s.took.ejected_sameLists c.val) ?_
      exact State.routerAccess_answers (s := s.took.ejected c.val) up hi hpos ((s.took_ejected_sound c.val _ _).trans hs) cl ctx
    · exact State.routerAccess_answers up hi hpos hs cl ctx

theorem State.engineAccess_outside {off : Nat} {op : Access} (h : inSlabSpace off (accessBytes op) = false) (c ctx : Nat) :
    s.engineAccess c ctx off op = s.setSlabReply (.status stCapacity) := by
  cases op with
  | read n => exact if_pos (by rw [show inSlabSpace off n = false from h]; rfl)
  | write d => exact if_pos (by rw [show inSlabSpace off d.length = false from h]; rfl)

theorem State.routerAccess_unmapped {c off : Nat} (up : s.routerDown c = false) (h : slabRegion c off = .unmapped) (cl : SlabClient)
    (ctx : Nat) (op : Access) : s.routerAccess cl c ctx off op = s.setSlabReply (.status stIllegal) := by
  unfold State.routerAccess
  rw [up, h]
  rfl

/-! ### Writes to the bit-set and bit-clear views (R184, R185) -/

/-- The operation of a bit view, bit-set or bit-clear, on one byte. -/
def aliasByte (set : Bool) (a b : Byte) : Byte := if set then a ||| b else a &&& ~~~b

theorem aliasBytes_length {set : Bool} {l d : List Byte} (h : l.length = d.length) : (aliasBytes set l d).length = d.length := by
  simp [aliasBytes, h]

theorem aliasBytes_getElem {set : Bool} {l d : List Byte} {i : Nat} (hl : i < l.length) (hd : i < d.length) :
    (aliasBytes set l d)[i]'(by simp [aliasBytes, hl, hd]) = aliasByte set l[i] d[i] := by
  simp only [aliasBytes, List.getElem_zipWith]
  rfl

/-- The bytes that a write of d to a bit view at a key leaves there. -/
def State.aliased (s : State) (set : Bool) (key : Nat) (d : List Byte) : List Byte := aliasBytes set (s.bytes key d.length) d

@[simp] theorem State.aliased_length (s : State) (set : Bool) (key : Nat) (d : List Byte) : (s.aliased set key d).length = d.length :=
  aliasBytes_length (State.bytes_length ..)

theorem State.aliased_append (s : State) (set : Bool) (key : Nat) (d e : List Byte) :
    s.aliased set key (d ++ e) = s.aliased set key d ++ s.aliased set (key + d.length) e := by
  unfold State.aliased aliasBytes
  rw [List.length_append, ← State.bytes_append, List.zipWith_append (State.bytes_length ..)]

theorem State.aliased_getD (s : State) (set : Bool) (key : Nat) {d : List Byte} {i : Nat} (h : i < d.length) :
    (s.aliased set key d).getD i 0 = aliasByte set (s.byte (key + i)) (d.getD i 0) := by
  have hl : i < (s.bytes key d.length).length := by rwa [State.bytes_length]
  rw [List.getD_eq_getElem _ _ (by rwa [State.aliased_length]), List.getD_eq_getElem _ _ h, ← State.bytes_getElem s key d.length i hl]
  exact aliasBytes_getElem hl h

/-- What a write to a bit view leaves rests on the bytes it covers alone. -/
theorem State.aliased_congr {key : Nat} {d : List Byte} (h : ∀ i, i < d.length → t.byte (key + i) = s.byte (key + i)) (set : Bool) :
    t.aliased set key d = s.aliased set key d := by
  have hb : t.bytes key d.length = s.bytes key d.length := by
    refine List.ext_getElem (by rw [State.bytes_length, State.bytes_length]) fun i h1 h2 => ?_
    rw [State.bytes_getElem, State.bytes_getElem, h i (by rwa [State.bytes_length] at h1)]
  rw [State.aliased, hb, State.aliased]

/-- A whole range stored of which all but a part is stored as it stood: the part is stored. -/
theorem Placed.part {base n o : Nat} {e : List Byte} (ho : o + e.length ≤ n) (h : Placed s t base (listSet (s.bytes base n) o e)) :
    Placed s t (base + o) e := by
  have hl : (s.bytes base n).length = n := State.bytes_length ..
  have hlen : (listSet (s.bytes base n) o e).length = n := (listSet_length (by omega)).trans hl
  refine ⟨h.moves, fun i hi => ?_, fun a ha => ?_⟩
  · rw [Nat.add_assoc, h.inside (o + i) (by omega)]
    exact listSet_in (by omega) hi
  · by_cases hin : base ≤ a ∧ a < base + n
    · have hb := h.inside (a - base) (by omega)
      rw [listSet_out (by omega) (by omega) (by omega), State.bytes_getElem] at hb
      rwa [show base + (a - base) = a by omega] at hb
    · exact h.outside a (by omega)

/-- A write to a bit view within a word of sound bytes: the bytes it names are stored, the others of the word stay. -/
theorem State.aliasWord_placed {key : Nat} {d : List Byte} (hs : s.sound (key / 64 * 64) 64 = true) (h64 : key % 64 + d.length ≤ 64)
    (hlt : key / 64 * 64 + 64 ≤ 2 ^ 65) (ctx : Nat) (set : Bool) :
    ∃ t, s.aliasWord ctx key set d = (stOk, t) ∧ Placed s t key (s.aliased set key d) := by
  have hkey : key / 64 * 64 + key % 64 = key := Nat.div_add_mod' key 64
  have hw : aliasBytes set (((s.bytes (key / 64 * 64) 64).drop (key % 64)).take d.length) d = s.aliased set key d := by
    rw [State.bytes_drop _ _ _ _ (by omega), State.bytes_take _ _ _ _ (by omega), hkey]
    rfl
  have hlen := s.aliased_length set key d
  have hset : (listSet (s.bytes (key / 64 * 64) 64) (key % 64) (s.aliased set key d)).length = 64 := by
    rw [listSet_length (by rw [State.bytes_length]; omega), State.bytes_length]
  obtain ⟨t, ht, hp⟩ := State.writeDie_placed (d := listSet (s.bytes (key / 64 * 64) 64) (key % 64) (s.aliased set key d))
    (by rwa [hset]) (by rwa [hset]) ctx
  have hpart := hp.part (by omega)
  rw [hkey] at hpart
  refine ⟨t, ?_, hpart⟩
  unfold State.aliasWord
  simp only [State.readDie_sound hs, hw, ht, if_true]

/-- A write to a bit view that touches one word or two, all of sound bytes. -/
theorem State.aliasWrite_placed {key : Nat} {d : List Byte} (h64 : d.length ≤ 64)
    (hs : s.sound (key / 64 * 64) (if key % 64 + d.length ≤ 64 then 64 else 128) = true) (hlt : key / 64 * 64 + 128 ≤ 2 ^ 65)
    (ctx : Nat) (set : Bool) : ∃ t, s.aliasWrite ctx key set d = (stOk, t) ∧ Placed s t key (s.aliased set key d) := by
  obtain ⟨k, hk⟩ : ∃ k, 64 - key % 64 = k := ⟨_, rfl⟩
  have hs1 : s.sound (key / 64 * 64) 64 = true := State.sound_of fun a h1 h2 => State.sound_half hs h1 (by split <;> omega)
  obtain ⟨v, hv, hpv⟩ := State.aliasWord_placed (d := d.take k) hs1 (by rw [List.length_take]; omega) (by omega) ctx set
  unfold State.aliasWrite
  simp only [hk, hv]
  split
  · rename_i hle
    rw [List.take_of_length_le hle] at hpv
    exact ⟨v, rfl, hpv⟩
  · rename_i hgt
    have hlen : (d.take k).length = k := by rw [List.length_take]; omega
    rw [if_neg (by omega)] at hs
    have hs2 : v.sound ((key + k) / 64 * 64) 64 = true :=
      State.sound_of fun a h1 h2 => hpv.moves.sound _ (State.sound_half hs (by omega) (by omega))
    obtain ⟨w, hw, hpw⟩ := State.aliasWord_placed (d := d.drop k) hs2 (by rw [List.length_drop]; omega) (by omega) ctx set
    refine ⟨w, by rw [hw]; rfl, ?_⟩
    have hold : v.aliased set (key + k) (d.drop k) = s.aliased set (key + k) (d.drop k) :=
      State.aliased_congr (fun i _ => hpv.outside _ (by rw [State.aliased_length]; omega)) set
    rw [← List.take_append_drop k d, State.aliased_append, hlen, ← hold]
    refine hpv.append ?_
    rwa [State.aliased_length, hlen]

end

section
variable {s t : State}

/-! ### Cluster memory (R186 to R189) -/

/-- The request that is served has left the slots of its port controller (R188). -/
theorem State.portServed_waiting (s : State) (k i : Nat) : ((s.portServed k i).cluster k).waiting i = (s.cluster k).waiting i - 1 := by
  unfold State.portServed
  dsimp only
  split
  · rename_i h
    rw [show (s.cluster k).waiting i = 0 from h]
  · rw [State.cluster_setCluster]
    exact Cluster.waiting_put ..

/-- Serving a request at its port changes no memory of the die and no core. -/
theorem State.portServed_kept (s : State) (k i : Nat) : KeptBut [.clusters] s (s.portServed k i) :=
  ((Keeps.refl s).portServed k i (by decide)).kept

theorem State.portAccess_outside {off : Nat} (h : 0x3000000 ≤ off) (ctx k i : Nat) (op : Access) :
    s.portAccess ctx k i off op = (s.portServed k i).setSlabReply (.status stIllegal) := if_pos h

/-- What a request does after it has left its port touches neither port controllers nor mesh clocks. -/
theorem State.portAccess_kept (s : State) (ctx k i off : Nat) (op : Access) :
    KeptBut [.mem, .host, .chk, .reported, .regs, .mems, .hif, .board, .husk] (s.portServed k i) (s.portAccess ctx k i off op) := by
  have hk := Keeps.refl (l := [.mem, .host, .chk, .reported, .regs, .mems, .hif, .board, .husk]) (s.portServed k i)
  unfold State.portAccess
  dsimp only
  split
  · exact (hk.setSlabReply _ (by decide)).kept
  · cases op with
    | read n => exact ((hk.readDie ctx _ n (by decide)).setSlabReply _ (by decide)).kept
    | write d => exact ((hk.writeDie ctx _ d _ (by decide)).setSlabReply _ (by decide)).kept

theorem State.portAccess_answers {k : ClusterId} {i off : Nat} {op : Access} (hoff : off < 0x3000000) (h64 : accessBytes op ≤ 64)
    (hs : s.sound (clusKey k.val off) (accessBytes op) = true) (ctx : Nat) :
    Answers s (s.portAccess ctx k.val i off op) (clusKey k.val off) op := by
  have hk := s.portServed_kept k.val i
  have hb := hk.byte (by decide) (by decide)
  have hsnd := (State.sound_congr (hk .mems (by decide)) (hk .chk (by decide)) (hk .sec (by decide)) (hk .husk (by decide)) _ _).trans hs
  have hlt : clusKey k.val off + accessBytes op ≤ 2 ^ 65 := by
    have := k.isLt
    unfold clusKey clusterBase
    omega
  refine .of_same hb (.of_cores (hk .cores (by decide))) ?_
  unfold State.portAccess
  rw [if_neg (by omega)]
  cases op with
  | read n =>
    simp only [State.readDie_sound (show (s.portServed k.val i).sound _ n = true from hsnd)]
    exact .read (.refl _) fun _ => rfl
  | write d =>
    obtain ⟨t, ht, hp⟩ := State.writeDie_placed hsnd hlt ctx
    simp only [ht]
    exact .write hp

theorem accessBytes_le {op : Access} {off : Nat} (h : op.inWord off = true) : accessBytes op ≤ 64 := by
  cases op with
  | read n =>
    simp only [Access.inWord, Bool.and_eq_true, decide_eq_true_eq] at h
    exact (Nat.le_add_left ..).trans h.2
  | write d =>
    simp only [Access.inWord, Bool.and_eq_true, decide_eq_true_eq] at h
    exact (Nat.le_add_left ..).trans h.2

theorem exec_clusterMemoryAccess {k : ClusterId} {port : Fin 8} {off : BitVec 26} {op : Access} (h : op.inWord off.toNat = true) :
    exec (.clusterMemoryAccess k port off op) s = .next (if s.routerDown (portRouter k.val port.val) then s.setSlabReply (.status stPathLost)
      else (s.took.wakeHalf (clusterHalf k.val)).portAccess s.anyCtx k.val port.val off.toNat op) := if_neg (by rw [h]; decide)

/-- With its router in service a request reaches its port. -/
theorem exec_clusterMemoryAccess_port {k : ClusterId} {port : Fin 8} {off : BitVec 26} {op : Access} (hw : op.inWord off.toNat = true)
    (up : s.routerDown (portRouter k.val port.val) = false) : exec (.clusterMemoryAccess k port off op) s =
      .next ((s.took.wakeHalf (clusterHalf k.val)).portAccess s.anyCtx k.val port.val off.toNat op) :=
  (exec_clusterMemoryAccess hw).trans (congrArg _ (if_neg (by rw [up]; decide)))

/-- A request that reaches its port wakes the half and leaves its slot there; one past the memory is refused and moves nothing. -/
theorem clusterMemoryAccess_port {k : ClusterId} {port : Fin 8} {off : BitVec 26} {op : Access} (hw : op.inWord off.toNat = true)
    (up : s.routerDown (portRouter k.val port.val) = false) :
    Completes (.clusterMemoryAccess k port off op) s (fun t =>
      (∀ h ∈ t.power.meshStopped, h.val ≠ clusterHalf k.val) ∧ (t.cluster k.val).waiting port.val = (s.cluster k.val).waiting port.val - 1 ∧
      (0x3000000 ≤ off.toNat → t.hif.slabReply = .status stIllegal ∧ KeptBut [.fresh, .power, .clusters, .hif] s t)) := by
  let u := s.took.wakeHalf (clusterHalf k.val)
  have hk := u.portAccess_kept s.anyCtx k.val port.val off.toNat op
  have hp := (hk .power (by decide)).trans (u.portServed_kept k.val port.val .power (by decide))
  have hc := hk .clusters (by decide)
  refine ⟨_, exec_clusterMemoryAccess_port hw up, fun h hh => ?_, ?_, fun hout => ?_⟩
  · rw [hp] at hh
    exact of_decide_eq_true (List.mem_filter.mp hh).2
  · unfold State.cluster
    rw [hc]
    exact u.portServed_waiting k.val port.val
  · rw [State.portAccess_outside hout]
    exact ⟨rfl, (((((Keeps.refl s).took (by decide)).wakeHalf _ (by decide)).portServed _ _ (by decide)).setSlabReply _ (by decide)).kept⟩

theorem clusterMemoryAccess_answers {k : ClusterId} {port : Fin 8} {off : BitVec 26} {op : Access} (hw : op.inWord off.toNat = true)
    (up : s.routerDown (portRouter k.val port.val) = false) (hoff : off.toNat < 0x3000000)
    (hs : s.sound (clusKey k.val off.toNat) (accessBytes op) = true) :
    ∃ t, exec (.clusterMemoryAccess k port off op) s = .next t ∧ Answers s t (clusKey k.val off.toNat) op := by
  let u := s.took.wakeHalf (clusterHalf k.val)
  have hsnd := (State.sound_congr (s := s) (t := u) rfl rfl rfl rfl _ _).trans hs
  have ha := State.portAccess_answers (s := u) (i := port.val) hoff (accessBytes_le hw) hsnd s.anyCtx
  exact ⟨_, exec_clusterMemoryAccess_port hw up, .of_same (t := u) (fun _ => rfl) (.of_cores rfl) ha⟩

/-! ### The statement -/

theorem exec_aliasWrite {c : CoreId} {set : Bool} {off : BitVec 21} {d : List Byte} (h1 : 1 ≤ d.length) (h64 : d.length ≤ 64) :
    exec (.aliasWrite c set off d) s = .next (if s.routerDown c.val then s.setSlabReply (.status stPathLost)
      else if !inSlabSpace off.toNat d.length then s.setSlabReply (.status stIllegal)
      else
        let r := ((s.took.ejected c.val).rewritten c.val off.toNat d.length).aliasWrite s.anyCtx (slabKey c.val off.toNat) set d
        r.2.setSlabReply (statusReply r.1)) := by
  have hne : d.isEmpty = false := by rwa [List.isEmpty_eq_false_iff, ← List.length_pos_iff]
  refine if_neg ?_
  rw [hne, Bool.false_or, decide_eq_true_eq]
  omega

/-- A write to a bit view of sound bytes sets or clears the bits it names, and leaves the ejection buffer. -/
theorem aliasWrite_completes {c : CoreId} {set : Bool} {off : BitVec 21} {d : List Byte} (h1 : 1 ≤ d.length) (h64 : d.length ≤ 64)
    (up : s.routerDown c.val = false) (hi : inSlabSpace off.toNat d.length = true)
    (hs : s.sound (slabKey c.val (off.toNat / 64 * 64)) (if off.toNat % 64 + d.length ≤ 64 then 64 else 128) = true) :
    Completes (.aliasWrite c set off d) s (fun t => t.hif.slabReply = .done ∧ (t.core c.val).eject = (s.core c.val).eject.drop 1 ∧
      ∀ a, t.byte a = if slabKey c.val off.toNat ≤ a ∧ a < slabKey c.val off.toNat + d.length then
          (if set then s.byte a ||| d.getD (a - slabKey c.val off.toNat) 0 else s.byte a &&& ~~~(d.getD (a - slabKey c.val off.toNat) 0))
        else s.byte a) := by
  obtain ⟨key, hkey⟩ : ∃ key, slabKey c.val off.toNat = key := ⟨_, rfl⟩
  have hbase : slabKey c.val (off.toNat / 64 * 64) = key / 64 * 64 ∧ off.toNat % 64 = key % 64 := by
    unfold slabKey slabBase at *
    omega
  rw [hbase.1, hbase.2] at hs
  have hlt : key / 64 * 64 + 128 ≤ 2 ^ 65 := by
    have := c.isLt
    unfold slabKey slabBase at hkey
    omega
  -- the state in which the write starts
  let u := (s.took.ejected c.val).rewritten c.val off.toNat d.length
  have hcount : CountsOnly (s.took.ejected c.val) u := .rewritten _ _ _ _
  have hk : KeptBut [.fresh, .cores] s u :=
    ((((Keeps.refl s).took (by decide)).ejected c.val (by decide)).rewritten _ _ _ (by decide)).kept
  have hb := hk.byte (by decide) (by decide)
  have hsnd := (State.sound_congr (hk .mems (by decide)) (hk .chk (by decide)) (hk .sec (by decide)) (hk .husk (by decide)) _ _).trans hs
  obtain ⟨t, ht, hp⟩ := State.aliasWrite_placed h64 hsnd hlt s.anyCtx set
  refine ⟨t.setSlabReply (statusReply stOk), ?_, rfl, ?_, fun a => ?_⟩
  · rw [exec_aliasWrite h1 h64, if_neg (by rw [up]; decide), if_neg (by rw [hi]; decide), hkey, ht]
  · have he := (hp.moves.moves.1.eject c.val).trans (hcount.eject c.val)
    refine he.trans ?_
    rw [State.ejected, State.core_modCore]
    rfl
  · rw [hkey]
    refine (hp.byte a).trans ?_
    rw [State.aliased_length, hb]
    split
    · rename_i ha
      rw [State.aliased_getD _ _ _ (by omega), show key + (a - key) = a by omega, hb]
      rfl
    · rfl

end

/-- Settles O45: a request of sound bytes is answered and stores its bytes on each side of a slab (`State.slabServed_answers`) and
at a port of cluster memory (`clusterMemoryAccess_answers`); a write to a bit view rewrites whole words, of which it changes the bits it
names (`State.aliasWrite_placed`); every refusal is a branch taken before any byte is reached. -/
theorem memoryRequests : Obligations.MemoryRequests := by
  intro s Answered Refused
  refine ⟨fun cl c off op n hw hn side hi hs => ?_, fun cl c off op hw => ⟨fun he hi => ?_, fun he hd => ?_, fun he up hr => ?_⟩,
    fun c set off d h1 h64 => ⟨fun hd => ?_, fun up hi => ?_, aliasWrite_completes h1 h64⟩,
    fun k port off op n hw hn => ⟨fun hd => ?_, clusterMemoryAccess_port hw, fun up hoff hs => ?_⟩⟩
  · subst hn
    exact (State.slabServed_answers side hi (accessBytes_pos hw) hs).completes (exec_slabAccess hw) rfl
  · refine (exec_slabAccess hw).trans (congrArg _ ?_)
    rw [State.slabServed, if_pos he]
    exact State.engineAccess_outside hi ..
  · obtain ⟨ctx, hserved⟩ := State.slabServed_router (s := s) he c.val off.toNat op
    refine (exec_slabAccess hw).trans (congrArg _ (hserved.trans ?_))
    exact if_pos (by split <;> exact hd)
  · obtain ⟨ctx, hserved⟩ := State.slabServed_router (s := s) he c.val off.toNat op
    refine (exec_slabAccess hw).trans (congrArg _ (hserved.trans ?_))
    exact State.routerAccess_unmapped (by split <;> exact up) hr ..
  · exact (exec_aliasWrite h1 h64).trans (congrArg _ (if_pos hd))
  · exact (exec_aliasWrite h1 h64).trans (congrArg _ ((if_neg (by rw [up]; decide)).trans (if_pos (by rw [hi]; rfl))))
  · exact (exec_clusterMemoryAccess hw).trans (congrArg _ (if_pos hd))
  · subst hn
    obtain ⟨t, ht, ha⟩ := clusterMemoryAccess_answers hw up hoff hs
    exact ha.completes ht rfl

end Sys2Proof.Machine
end

section
/-! Power states of slabs and segments, the scrubber and write-backs (R190 to R193, R199, R201). -/

namespace Sys2Proof.Machine

section
variable {s t : State}

theorem State.memU_setMem_ne {m x : Nat} (h : x ≠ m) (s : State) (u : Mem) : (s.setMem m u).memU x = s.memU x := KV.get_put_ne h _ _

theorem State.memU_congr (h : t.mems = s.mems) (m : Nat) : t.memU m = s.memU m := by
  unfold State.memU
  rw [h]

theorem State.setMem_kept (s : State) (m : Nat) (u : Mem) : KeptBut [.mems] s (s.setMem m u) := ((Keeps.refl s).setMem m u (by decide)).kept

/-- Which memories failed rests on fuses and on Husk. -/
theorem State.memFailed_congr (h1 : t.sec = s.sec) (h2 : t.husk = s.husk) (m : Nat) : t.memFailed m = s.memFailed m := by
  unfold State.memFailed
  rw [h1, h2]

/-! ### State fields written (R190, R191) -/

theorem State.writeStates_succ (s : State) (m n : Nat) (v : BitVec 32) :
    let t := s.writeStates m n v
    s.writeStates m (n + 1) v = if t.memFailed (m + n) then t else t.setMem (m + n) ((t.memU (m + n)).write (fld v (2 * n + 1) (2 * n))) := by
  dsimp only
  unfold State.writeStates
  rw [List.range_succ, List.foldl_append]
  rfl

theorem State.writeStates_kept (s : State) (m n : Nat) (v : BitVec 32) : KeptBut [.mems] s (s.writeStates m n v) :=
  ((Keeps.refl s).writeStates m n v (by decide)).kept

/-- Memories outside those of the register are left alone. -/
theorem State.writeStates_memU_ne (s : State) {m n x : Nat} (h : x < m ∨ m + n ≤ x) (v : BitVec 32) :
    (s.writeStates m n v).memU x = s.memU x := by
  induction n with
  | zero => rfl
  | succ n ih =>
    rw [State.writeStates_succ]
    split
    · exact ih (by omega)
    · exact (State.memU_setMem_ne (by omega) ..).trans (ih (by omega))

/-- Each memory of the register that has not failed is asked for the state its field names. -/
theorem State.writeStates_memU (s : State) {m n j : Nat} (h : j < n) (v : BitVec 32) : (s.writeStates m n v).memU (m + j) =
    if s.memFailed (m + j) then s.memU (m + j) else (s.memU (m + j)).write (fld v (2 * j + 1) (2 * j)) := by
  induction n with
  | zero => exact absurd h (Nat.not_lt_zero j)
  | succ n ih =>
    have hk := s.writeStates_kept m n v
    rw [State.writeStates_succ]
    by_cases hj : j = n
    · subst hj
      rw [State.memFailed_congr (hk .sec (by decide)) (hk .husk (by decide)), State.writeStates_memU_ne s (by omega)]
      split
      · exact State.writeStates_memU_ne s (by omega) v
      · exact State.memU_setMem ..
    · have hj' := ih (by omega)
      split
      · exact hj'
      · exact (State.memU_setMem_ne (by omega) ..).trans hj'

/-- A permitted write of a STATE register. -/
theorem completes_writeStates {i : Instr} {m n : Nat} {v : BitVec 32} (he : exec i s = .next (s.writeStates m n v)) :
    Completes i s (fun t => KeptBut [.mems] s t ∧
      (∀ j, j < n → t.memU (m + j) = if s.memFailed (m + j) then s.memU (m + j) else (s.memU (m + j)).write (fld v (2 * j + 1) (2 * j))) ∧
      ∀ x, (x < m ∨ m + n ≤ x) → t.memU x = s.memU x) :=
  ⟨_, he, s.writeStates_kept m n v, fun _ hj => s.writeStates_memU hj v, fun _ hx => s.writeStates_memU_ne hx v⟩

/-! ### Transitions (R190 to R193) -/

/-- Memories begin at a boundary of the 32-byte halves. -/
theorem memPlace_base (m : Nat) : (memPlace m).base % 32 = 0 := by
  unfold memPlace slabKey slabBase clusKey clusterBase
  split
  · dsimp only
    omega
  · dsimp only
    omega

/-- The size of a slab and that of a segment (R178, R186). -/
theorem memPlace_size (m : Nat) : (memPlace m).size = 0x30000 ∨ (memPlace m).size = 0x400000 := by
  unfold memPlace
  split
  · exact .inl rfl
  · exact .inr rfl

/-- The bytes of a cleared memory read zero, the others as before. -/
theorem State.zeroMem_byte (s : State) {m a : Nat} (h1 : (memPlace m).base ≤ a) (h2 : a < (memPlace m).base + (memPlace m).size) :
    (s.zeroMem m).byte a = 0 := KV.get_filter_out (fun _ => decide_eq_false (by dsimp only; omega))

theorem State.zeroMem_byte_ne (s : State) {m a : Nat} (h : a < (memPlace m).base ∨ (memPlace m).base + (memPlace m).size ≤ a) :
    (s.zeroMem m).byte a = s.byte a := KV.get_filter (fun _ => decide_eq_true h)

/-- Check bytes of a cleared memory are right. -/
theorem State.zeroMem_chk (s : State) {m a : Nat} (h1 : (memPlace m).base ≤ a) (h2 : a < (memPlace m).base + (memPlace m).size) :
    KV.get 0 (s.zeroMem m).chk (a / 32) = 0 := by
  have hb := memPlace_base m
  have hs := memPlace_size m
  exact KV.get_filter_out (fun _ => decide_eq_false (by dsimp only; omega))

section
variable {m : Nat} (hf : s.memFailed m = false)
include hf

theorem State.transitionDone_none (ht : (s.memU m).target = none) : s.transitionDone m = s := by
  simp only [State.transitionDone, hf, ht, Bool.false_eq_true, if_false]

theorem State.transitionDone_wakes (ht : (s.memU m).target = some .on) (hst : (s.memU m).st = .off) : s.transitionDone m =
    (s.zeroMem m).setMem m { (s.memU m).on with target := if (s.memU m).toRet then some .ret else none } := by
  simp only [State.transitionDone, hf, ht, hst, Bool.false_eq_true, if_false]

theorem State.transitionDone_on (ht : (s.memU m).target = some .on) (hst : (s.memU m).st ≠ .off) :
    s.transitionDone m = s.setMem m (s.memU m).on := by
  cases h : (s.memU m).st with
  | off => exact absurd h hst
  | on => simp only [State.transitionDone, hf, ht, h, Bool.false_eq_true, if_false]
  | ret => simp only [State.transitionDone, hf, ht, h, Bool.false_eq_true, if_false]

theorem State.transitionDone_ret (ht : (s.memU m).target = some .ret) :
    s.transitionDone m = s.setMem m { s.memU m with st := .ret, target := none } := by
  simp only [State.transitionDone, hf, ht, Bool.false_eq_true, if_false]

theorem State.transitionDone_off (ht : (s.memU m).target = some .off) : s.transitionDone m = s.enterOff m := by
  simp only [State.transitionDone, hf, ht, Bool.false_eq_true, if_false]

end

/-- A memory that leaves OFF for ON reads zero with right check bytes (R193); a write that named RET goes on to RET (R191). -/
theorem completes_transition_wakes {m : MemUnit} (hf : s.memFailed (memIx m) = false) (ht : (s.memU (memIx m)).target = some .on)
    (hst : (s.memU (memIx m)).st = .off) : Completes (.memoryStateTransitionDone m) s (fun t =>
      (t.memU (memIx m)).st = .on ∧ (t.memU (memIx m)).target = (if (s.memU (memIx m)).toRet then some .ret else none) ∧
      (∀ a, (memPlace (memIx m)).base ≤ a → a < (memPlace (memIx m)).base + (memPlace (memIx m)).size →
        t.byte a = 0 ∧ KV.get 0 t.chk (a / 32) = 0) ∧
      ∀ a, (a < (memPlace (memIx m)).base ∨ (memPlace (memIx m)).base + (memPlace (memIx m)).size ≤ a) → t.byte a = s.byte a) := by
  refine ⟨_, congrArg Host.Outcome.next (State.transitionDone_wakes hf ht hst), ?_⟩
  beta_reduce
  rw [State.memU_setMem]
  exact ⟨rfl, rfl, fun a h1 h2 => ⟨s.zeroMem_byte h1 h2, s.zeroMem_chk h1 h2⟩, fun a h => s.zeroMem_byte_ne h⟩

/-! ### The scrubber (R201, R365) -/

/-- A half with right check bytes is left as it is. -/
theorem State.scrubHalf_good {h : Nat} (hc : KV.get 0 s.chk h = 0) (m : Nat) : s.scrubHalf m h = s := by
  unfold State.scrubHalf
  rw [hc]
  rfl

/-- The memory as the read of word w leaves it before the scrubber moves on: a pass that begins is dated. -/
def State.scrubDated (s : State) (m : Nat) : State :=
  if (s.memU m).scrub = 0 then s.setMem m { s.memU m with passAt := s.aon } else s

theorem State.scrubDated_kept (s : State) (m : Nat) : KeptBut [.mems] s (s.scrubDated m) := by
  unfold State.scrubDated
  split
  · exact s.setMem_kept m _
  · exact KeptBut.refl _ s

theorem State.scrubDated_memU (s : State) (m : Nat) : (s.scrubDated m).memU m =
    { s.memU m with passAt := if (s.memU m).scrub = 0 then s.aon else (s.memU m).passAt } := by
  unfold State.scrubDated
  split
  · exact State.memU_setMem ..
  · rfl

/-- The scrubber reads a good word of a memory in ON whose mesh clock runs. -/
theorem State.scrubRead_good {m : Nat} (hon : s.memSt m = .on) (hrun : 7680 ≤ m → ∀ x ∈ s.power.meshStopped, x.val ≠ memHalf m)
    (h0 : KV.get 0 s.chk ((memPlace m).base / 32 + 2 * (s.memU m).scrub) = 0)
    (h1 : KV.get 0 s.chk ((memPlace m).base / 32 + 2 * (s.memU m).scrub + 1) = 0) :
    s.scrubRead m = if (memPlace m).size / 64 ≤ (s.memU m).scrub + 1 then (s.scrubDated m).scrubPass m
      else (s.scrubDated m).setMem m { (s.scrubDated m).memU m with scrub := (s.memU m).scrub + 1 } := by
  have hstop : (decide (7680 ≤ m) && s.power.meshStopped.any (fun h => decide (h.val = memHalf m))) = false := by
    by_cases hm : 7680 ≤ m
    · rw [Bool.and_eq_false_iff]
      exact .inr (List.any_eq_false.mpr fun x hx => by simpa using hrun hm x hx)
    · rw [decide_eq_false hm, Bool.false_and]
  rw [← (s.scrubDated_kept m .chk (by decide) : (s.scrubDated m).chk = s.chk)] at h0 h1
  unfold State.scrubRead
  dsimp only
  rw [hon, hstop, if_neg (by decide), ← State.scrubDated, State.scrubHalf_good h0, State.scrubHalf_good h1]

@[simp] theorem State.rf_setMem (s : State) (m : Nat) (u : Mem) (o hi lo : Nat) : (s.setMem m u).rf o hi lo = s.rf o hi lo := rfl

@[simp] theorem State.memU_bumpHalf (s : State) (o lo n m : Nat) : (s.bumpHalf o lo n).memU m = s.memU m := rfl

/-- A saturating count in the low half of a register. -/
theorem State.bumpHalf_rf_low (s : State) (o : Nat) : (s.bumpHalf o 0 1).rf o 31 0 = min (s.rf o 31 0 + 1) 0xFFFFFFFF := by
  refine (State.rf_setRf s o _ (Nat.zero_le 31) (by decide)).trans (Nat.mod_eq_of_lt ?_)
  exact (Nat.min_le_right ..).trans_lt (by decide)

/-- Counting in the high half leaves the low half. -/
theorem State.bumpHalf_rf_high (s : State) (o : Nat) : (s.bumpHalf o 32 1).rf o 31 0 = s.rf o 31 0 := by
  unfold State.bumpHalf State.setRf State.rf
  rw [State.rg_setRg]
  exact fld_setFld_ne _ _ (by decide) (by decide) (.inl (by decide))

/-- The end of a pass: it is counted, and the scrubber is back at word 0. -/
theorem State.scrubPass_done (s : State) (m : Nat) : (s.scrubPass m).memU m = { s.memU m with scrub := 0 } ∧
    (s.scrubPass m).rf (scrubReg m) 31 0 = min (s.rf (scrubReg m) 31 0 + 1) 0xFFFFFFFF := by
  unfold State.scrubPass
  dsimp only
  rw [State.memU_setMem, State.rf_setMem]
  split
  · rw [State.memU_bumpHalf, State.memU_bumpHalf, State.bumpHalf_rf_high, State.bumpHalf_rf_low]
    exact ⟨rfl, rfl⟩
  · rw [State.memU_bumpHalf, State.bumpHalf_rf_low]
    exact ⟨rfl, rfl⟩

section
variable {m : MemUnit} (hon : s.memSt (memIx m) = .on) (hrun : 7680 ≤ memIx m → ∀ x ∈ s.power.meshStopped, x.val ≠ memHalf (memIx m))
  (h0 : KV.get 0 s.chk ((memPlace (memIx m)).base / 32 + 2 * (s.memU (memIx m)).scrub) = 0)
  (h1 : KV.get 0 s.chk ((memPlace (memIx m)).base / 32 + 2 * (s.memU (memIx m)).scrub + 1) = 0)
include hon hrun h0 h1

/-- Within a pass the scrubber goes to the next word. -/
theorem completes_scrubRead_next (hw : (s.memU (memIx m)).scrub + 1 < (memPlace (memIx m)).size / 64) :
    Completes (.scrubRead m) s (fun t => t.memU (memIx m) = { s.memU (memIx m) with
        scrub := (s.memU (memIx m)).scrub + 1
        passAt := if (s.memU (memIx m)).scrub = 0 then s.aon else (s.memU (memIx m)).passAt } ∧ KeptBut [.mems] s t) := by
  refine ⟨_, congrArg Host.Outcome.next ((State.scrubRead_good hon hrun h0 h1).trans (if_neg (by omega))), ?_, ?_⟩
  · rw [State.memU_setMem, State.scrubDated_memU]
  · exact (s.scrubDated_kept _).trans (State.setMem_kept _ _ _)

/-- The last word ends the pass. -/
theorem completes_scrubRead_last (hw : (memPlace (memIx m)).size / 64 ≤ (s.memU (memIx m)).scrub + 1) :
    Completes (.scrubRead m) s (fun t => t.memU (memIx m) = { s.memU (memIx m) with scrub := 0 } ∧
      t.rf (scrubReg (memIx m)) 31 0 = min (s.rf (scrubReg (memIx m)) 31 0 + 1) 0xFFFFFFFF ∧ KeptBut [.mems, .regs] s t) := by
  -- a pass has more than one word, so this is not the read that dates it
  have hne : (s.memU (memIx m)).scrub ≠ 0 := by
    have := memPlace_size (memIx m)
    omega
  obtain ⟨hmem, hrf⟩ := s.scrubPass_done (memIx m)
  refine ⟨s.scrubPass (memIx m), congrArg Host.Outcome.next ((State.scrubRead_good hon hrun h0 h1).trans ?_), hmem, hrf,
    ((Keeps.refl s).scrubPass _ (by decide)).kept⟩
  rw [if_pos hw, State.scrubDated, if_neg hne]

end

/-! ### Write-backs (R199, R201) -/

/-- The oldest correction of a memory in ON is stored, with right check bytes. -/
theorem completes_correctionWriteback {m : MemUnit} {h : Nat} {d : BitVec 256} {l : List (Nat × BitVec 256)}
    (hwb : (s.memU (memIx m)).wb = (h, d) :: l) (hon : s.memSt (memIx m) = .on) :
    Completes (.correctionWriteback m) s (fun t => (t.memU (memIx m)).wb = l ∧
      KV.get 0 t.chk h = 0 ∧ (∀ i, i < 32 → t.byte (32 * h + i) = (bytesOf d 32).getD i 0) ∧
      ∀ a, (a < 32 * h ∨ 32 * h + 32 ≤ a) → t.byte a = s.byte a) := by
  have hlen : (bytesOf d 32).length = 32 := natLe_length ..
  -- the memory without the correction, and its bytes stored
  let u := s.setMem (memIx m) { s.memU (memIx m) with wb := l }
  let v := u.putBytes (32 * h) (bytesOf d 32)
  have he : exec (.correctionWriteback m) s =
      .next { v with chk := KV.put 0 v.chk h 0, reported := KV.put false v.reported h false } := by
    simp only [exec, execCorrectionWriteback, hwb, hon, u, v]
  have hv : v.memU (memIx m) = u.memU (memIx m) :=
    State.memU_congr (((Keeps.refl u).putBytes (l := [.mem, .host]) (32 * h) (bytesOf d 32) (by decide)).kept .mems (by decide)) _
  refine ⟨_, he, ?_, KV.get_put_self v.chk h 0, fun i hi => ?_, fun a ha => ?_⟩
  · refine (congrArg Mem.wb hv).trans ?_
    rw [State.memU_setMem]
  · rw [List.getD_eq_getElem _ _ (by omega)]
    exact State.putBytes_byte _ _ _ (by omega)
  · exact State.putBytes_byte_ne (by omega) u

end

/-- Settles O46: the fold over the fields of a STATE register field by field (`State.writeStates_memU`), the ends of a transition
by their target, and a scrubber's read of a good word, which stores nothing. -/
theorem memoryPower : Obligations.MemoryPower := by
  intro s Asked
  refine ⟨fun a c v => ⟨fun hp => completes_writeStates (congrArg _ (if_pos hp)), fun hp => congrArg _ (if_neg (by rw [hp]; decide))⟩,
    fun a k v => ⟨fun hp => completes_writeStates (congrArg _ (if_pos hp)), fun hp => congrArg _ (if_neg (by rw [hp]; decide))⟩,
    fun m hf => ⟨fun ht => congrArg _ (State.transitionDone_none hf ht), fun ht hst => ?_, fun ht => ?_, fun ht => ?_,
      completes_transition_wakes hf⟩,
    fun m => ⟨fun hr => ?_, fun hr => congrArg _ (if_neg hr)⟩,
    fun m => fun hon hrun h0 h1 => ⟨completes_scrubRead_next hon hrun h0 h1, completes_scrubRead_last hon hrun h0 h1⟩,
    fun m h d l => completes_correctionWriteback⟩
  · exact ⟨_, congrArg Host.Outcome.next (State.transitionDone_on hf ht hst), State.memU_setMem .., s.setMem_kept _ _⟩
  · exact ⟨_, congrArg Host.Outcome.next (State.transitionDone_ret hf ht), State.memU_setMem .., s.setMem_kept _ _⟩
  · refine ⟨_, congrArg Host.Outcome.next (State.transitionDone_off hf ht), ?_⟩
    beta_reduce
    rw [State.enterOff, State.memU_setMem]
    exact ⟨rfl, rfl, rfl⟩
  · exact ⟨_, congrArg Host.Outcome.next (if_pos hr), State.memU_setMem .., s.setMem_kept _ _⟩

end Sys2Proof.Machine
end

section
/-! Movements whose data moves to its end (R211, R213, R214): how each starts, and the status that it ends with. -/

namespace Sys2Proof.Machine

section
variable {s t : State} {c : CoreId} {sl : SlotId} {w : Cmd} {o : OpInfo} {i : Instr} {n : Nat} {q : QEnt} {p : Progress}

/-- The movements are commands of the access engine. -/
theorem engineRow_move (hi : engineRow i = some (c, sl, w, o, n)) (hn : 0x50 ≤ n ∧ n ≤ 0x57) : o.engine = 3 ∧ o.tame = true := by
  revert hn
  cases i <;> cases hi <;> decide

/-- The entry of a movement whose data has moved to its end. -/
def State.movedEntry (t : State) (q : QEnt) (p : Progress) : QEnt :=
  q.moved' p (if cOpc q.w = 0x55 then (t.mcastLive q.w p).map (· + 2) else [])

theorem startMove_go (hcheck : moveChecks c.val q.w = .go)
    (hrun : runMove s { c := c.val, ctx := s.ctxOf c.val q.slot.val, q := q } = .ok t p) :
    startMove s c.val q = .go t (t.movedEntry q p) := by
  unfold startMove
  rw [hcheck]
  dsimp only
  rw [hrun]
  rfl

/-- A movement that its engine takes, whose checks pass and whose data moves to its end, is in execution with its status. -/
theorem Starts.of_move {P : State → QEnt → Prop} (hi : engineRow i = some (c, sl, w, o, n)) (hn : 0x50 ≤ n ∧ n ≤ 0x57)
    (hop : opcIs w n = true) (hr : AccessReady o s c sl w) (hcheck : moveChecks c.val (resolved o s c sl w) = .go)
    (hrun : runMove (s.headState o c sl w) { c := c.val, ctx := (s.headState o c sl w).ctxOf c.val sl.val, q := s.headEntry o c sl w } = .ok t p)
    (hP : P t (t.movedEntry (s.headEntry o c sl w) p)) : Starts i o s c P := by
  obtain ⟨he, ht⟩ := engineRow_move hi hn
  have hopc := State.headEntry_opc ht hop s c sl
  have hstart := startMove_go (q := s.headEntry o c sl w) hcheck hrun
  have hgo : startOn (s.headState o c sl w) c.val o.engine (s.headEntry o c sl w) = .go t (t.movedEntry (s.headEntry o c sl w) p) := by
    rw [he]
    exact (startAccess_move (q := s.headEntry o c sl w) (by rwa [hopc]) hr.unheld).trans hstart
  refine Starts.of_go (exec_engineRow hi hop s) hr.toHeadReady hgo (Ctl.of_start_go hstart ((Ctl.refl _).startMove _ _)) ?_ hP
  show cOpc (s.headEntry o c sl w).w ≠ 0x5A
  omega

/-! ### The status of a movement (R213, R214) -/

theorem moveStatus_ok (hb : p.bitmap = 0) (hn : p.newer = false) (n : Nat) : moveStatus n p = (stOk, 0) := by
  simp [moveStatus, hb, hn]

theorem moveStatus_changed (hb : p.bitmap = 0) (hn : p.newer = true) (n : Nat) : moveStatus n p = (stSrcChanged, 0) := by
  simp [moveStatus, hb, hn]

theorem moveStatus_partial (hb : p.bitmap ≠ 0) (n : Nat) :
    moveStatus n p = (stPartial, if p.newer && (n = 0x57 || n = 0x58) then p.bitmap ||| 0x80000000 else p.bitmap) := if_pos hb

end

/-- Settles O39: past the checks the data moves to its end, and `moveStatus` gives the status case by case; only a MCAST, opcode
0x55, has answers to await. -/
theorem movementsEnd : Obligations.MovementsEnd := by
  intro i s t c sl w o n p hi h1 h2 hop hr d m hcheck hrun
  have hopc := State.headEntry_opc (engineRow_move hi ⟨h1, h2⟩).2 hop s c sl
  have hne : n ≠ 0x58 := by omega
  refine .of_move hi ⟨h1, h2⟩ hop hr hcheck hrun ⟨rfl, rfl, rfl, fun hb hnew => ?_, fun hb hnew => ?_, fun hb => ?_, fun h55 => ?_, fun h55 => ?_⟩
  all_goals simp only [State.movedEntry, QEnt.moved', hopc]
  · rw [moveStatus_ok hb hnew]
  · rw [moveStatus_changed hb hnew]
  · rw [moveStatus_partial hb]
    simp [hne]
  · rw [if_neg h55]
  · rw [if_pos h55]
    rfl

end Sys2Proof.Machine
end

section
/-! TLB_INV_DONE (R207) of a core that the map of cores lists twice. -/

namespace Sys2Proof.Machine

/-- An invalidation of the first 64 KiB of the slow tier under every context is under way; core 0 holds a translation of that page
and nothing else, and is listed once more, waking, behind that entry. -/
def listedTwice : State :=
  { State.reset with
    cores := [(0, { tlbSeq := [{ vpn := 0x1000000000 }] }), (0, { waking := true })]
    tlbInv := some (0x10000, 0, 0) }

/-- The translation is dropped, which leaves the entry in front with nothing to list, so that core 0 reads as the entry behind it. -/
theorem listedTwice_invalidate : ((listedTwice.invalidate 0x10000 0 0).core 0).waking = true := by decide +kernel

/-- Refutes O44, in its clause on TLB_INV_DONE: the state is any, and in `listedTwice` core 0 reads as another entry once the one in
front of it lists nothing. A map of cores in its canonical form lists no core twice, but the statement does not ask for one. -/
theorem not_translations : ¬ Obligations.Translations := by
  unfold Obligations.Translations
  intro h
  obtain ⟨-, -, -, -, -, -, hdone⟩ := h listedTwice 0 none .failure
  obtain ⟨t, ht, -, -, hcore⟩ := hdone 0x10000 0 0 rfl
  have e : t = { listedTwice.invalidate 0x10000 0 0 with tlbInv := none } := (Host.Outcome.next.inj ht).symm
  have hw : (t.core 0).waking = false := by
    rw [hcore 0]
    rfl
  rw [e] at hw
  exact absurd (hw.symm.trans listedTwice_invalidate) Bool.false_ne_true

end Sys2Proof.Machine
end

section
/-! Rows between plain ranges (R205, R212): chunks, rows and whole movements of the access engine, each of which stores the bytes of
its source at its destination and nothing else. -/

namespace Sys2Proof.Machine

section
variable {s t u : State} {m : Mover} {c : CoreId}

/-! ### Parts of plain ranges -/

theorem State.bytes_congr_on {a n : Nat} (h : ∀ i, i < n → t.byte (a + i) = s.byte (a + i)) : t.bytes a n = s.bytes a n := by
  have e := bytes_eq_of (t := t) (key := a) (d := s.bytes a n) fun i hi => by
    rw [State.bytes_getElem]
    exact h i (by rwa [State.bytes_length] at hi)
  rwa [State.bytes_length] at e

/-- Part of a plain range is plain. -/
theorem State.plain.part {r a n : Nat} (h : s.plain r a n) {b k : Nat} (hk : 0 < k) (hb : a ≤ b ∧ b + k ≤ a + n) : s.plain r b k := by
  obtain ⟨-, -, hsnd, hpath⟩ := id h
  have hdie (x : Nat) (hx : x < k) : Machine.dieByte (b + x) := by
    have := h.dieByte (b := b - a + x) (by omega)
    rwa [show a + (b - a + x) = b + x by omega] at this
  refine ⟨(hdie 0 hk).imp id fun h => ⟨b, h⟩, ?_, State.sound_of fun x h1 h2 => State.sound_half hsnd (by omega) (by omega), fun x hx => ?_⟩
  · obtain ⟨hr, hs, -, -⟩ := h
    unfold spanOk regionEnd past at hs ⊢
    rcases hr with hr | ⟨key, hr⟩
    · rw [hr] at hs
      rw [regionOf_cluster] at hr
      simp only [decide_eq_true_eq] at hs
      rw [show regionOf b = .cluster from regionOf_cluster.mpr (by omega)]
      simp only [decide_eq_true_eq]
      omega
    · rw [hr] at hs
      rw [regionOf_slab] at hr
      simp only [decide_eq_true_eq] at hs
      rw [show regionOf b = .slab b 0 from regionOf_slab.mpr (by omega)]
      simp only [decide_eq_true_eq]
      omega
  · have := hpath (b - a + x) (by omega)
    rwa [show a + (b - a + x) = b + x by omega] at this

/-! ### A chunk -/

/-- The pieces of the rest of some data, all of them reached, are stored one after another. -/
theorem writePlaces_cuts (ctx : Nat) {a : Nat} {d : List Byte} {b n : Nat} {l : List (Nat × Nat)} (hc : Cuts b n l) :
    ∀ (s : State) (k : Nat), a ≤ b → b + n = a + d.length → (∀ p ∈ l, s.Reach c.val p.1 p.2) →
    ∃ t k', writePlaces c.val ctx d a false s (l.map (fun p => (p.1, p.2, Place.die p.1))) (0, k) = ((0, k'), t) ∧
      Placed s t b (d.drop (b - a)) := by
  induction hc with
  | nil b =>
    intro s k hb hn _
    refine ⟨s, k, rfl, ?_⟩
    rw [List.drop_of_length_le (by omega)]
    exact .nil s b
  | @cons b n i l h hl ih =>
    intro s k hb hn hr
    have hlen : ((d.drop (b - a)).take n).length = n := by simp; omega
    obtain ⟨t, ht, hp⟩ := State.Reach.putPlace (d := (d.drop (b - a)).take n) (by rw [hlen]; exact hr _ List.mem_cons_self) ctx
    obtain ⟨u, k', hu, hp'⟩ := ih t (k + n) (by omega) (by omega) fun p hp' => (hr p (List.mem_cons_of_mem _ hp')).moves hp.moves
    refine ⟨u, k', ?_, ?_⟩
    · rw [List.map_cons, writePlaces, ht]
      exact hu
    · have hp := hp.append (by rwa [hlen])
      rwa [show b + n - a = b - a + n by omega, ← List.drop_drop, List.take_append_drop] at hp

/-- Data written to a plain range is stored, with no part failed. -/
theorem writePlaces_plain {a : Nat} {d : List Byte} (h : s.plain c.val a d.length) (ctx : Nat) :
    ∃ t k, writePlaces c.val ctx d a false s ((piecesOf a d.length).map (fun p => (p.1, p.2, Place.die p.1))) (0, 0) = ((0, k), t) ∧
      Placed s t a d := by
  have hc := piecesOf_cuts a d.length
  obtain ⟨t, k, ht, hp⟩ := writePlaces_cuts ctx (a := a) hc s 0 le_rfl rfl fun p hp => by
    obtain ⟨h1, h2, h3⟩ := hc.mem p hp
    exact h.reach h3 ⟨h1, h2⟩
  rw [Nat.sub_self, List.drop_zero] at hp
  exact ⟨t, k, ht, hp⟩

/-- A chunk between plain ranges: its bytes are stored, nothing is noted. -/
theorem moveChunk_plain (hm : m.c = c.val) {src dst n : Nat} (hs : s.plain c.val src n) (hd : s.plain c.val dst n) (p : Progress) (part : Option Nat) :
    ∃ t, moveChunk s m p src dst n none part = .ok t p ∧ Placed s t dst (s.bytes src n) := by
  obtain ⟨v, hv, hregs⟩ := readPlaces_plain hs m.ctx
  obtain ⟨w, k, hw, hp⟩ := writePlaces_plain (s := v) (a := dst) (d := s.bytes src n)
    (by rw [State.bytes_length]; exact hd.moves hregs.movesSound) m.ctx
  rw [State.bytes_length] at hw
  have hcounts := hregs.movesSound.moves.1
  refine ⟨_, ?_, .around hcounts hregs.2 hp ((CountsOnly.count w c.val (moveCounter src dst) k).trans (.progress _ c.val 3 1))
    (((Keeps.refl w).count _ _ _ rfl).progress _ _ _ rfl).kept⟩
  unfold moveChunk
  dsimp only
  rw [hs.places]
  dsimp only
  rw [hd.places, hm]
  dsimp only
  rw [hv]
  dsimp only
  rw [if_neg Bool.false_ne_true, hw]
  cases part <;> simp

/-! ### A row -/

/-- The parts of the progress that a row between plain ranges leaves alone. -/
def Progress.AtRow (p p' : Progress) : Prop := p'.rows = p.rows ∧ p'.bitmap = p.bitmap ∧ p'.newer = p.newer

/-- The rest of a row from the recorded byte on, its source apart from its destination, chunk by chunk. -/
theorem moveRow_plain (hm : m.c = c.val) {x : Plan} (hg : x.guard = none) {r dst : Nat} (hlen : x.len r < 2 ^ 32)
    (ha : Apart (x.src r) dst (x.len r)) : ∀ (f : Nat) (s : State) (p : Progress), x.len r ≤ p.bytes.toNat + 64 * f →
    s.plain c.val (x.src r) (x.len r) → s.plain c.val dst (x.len r) →
    ∃ t p', moveRow m x r dst s p f = .ok t p' ∧ p.AtRow p' ∧
      Placed s t (dst + p.bytes.toNat) (s.bytes (x.src r + p.bytes.toNat) (x.len r - p.bytes.toNat)) := by
  have hend (s : State) (p : Progress) (h : x.len r ≤ p.bytes.toNat) :
      Placed s s (dst + p.bytes.toNat) (s.bytes (x.src r + p.bytes.toNat) (x.len r - p.bytes.toNat)) := by
    rw [Nat.sub_eq_zero_of_le h]
    exact .nil s _
  intro f
  induction f with
  | zero => exact fun s p hf _ _ => ⟨s, p, rfl, ⟨rfl, rfl, rfl⟩, hend s p hf⟩
  | succ f ih =>
    intro s p hf hs hd
    unfold moveRow
    dsimp only
    by_cases ho : x.len r ≤ p.bytes.toNat
    · rw [if_pos ho]
      exact ⟨s, _, rfl, ⟨rfl, rfl, rfl⟩, hend s p ho⟩
    · rw [if_neg ho, hg]
      generalize hoff : p.bytes.toNat = o at *
      obtain ⟨n, hn⟩ : ∃ n, min 64 (x.len r - o) = n := ⟨_, rfl⟩
      obtain ⟨t, ht, hp⟩ := moveChunk_plain hm (hs.part (b := x.src r + o) (k := n) (by omega) (by omega))
        (hd.part (b := dst + o) (k := n) (by omega) (by omega)) p (x.part r)
      have hbytes : (BitVec.ofNat 32 (o + n)).toNat = o + n := by
        rw [BitVec.toNat_ofNat]
        exact Nat.mod_eq_of_lt (by omega)
      obtain ⟨u, p', hu, hrow, hp'⟩ := ih t { p with bytes := BitVec.ofNat 32 (o + n) } (by rw [hbytes]; omega) (hs.moves hp.moves)
        (hd.moves hp.moves)
      refine ⟨u, p', ?_, hrow, ?_⟩
      · rw [hn, ht]
        exact hu
      · -- the chunk lies apart from what is left of the source
        have hrest : t.bytes (x.src r + (o + n)) (x.len r - (o + n)) = s.bytes (x.src r + (o + n)) (x.len r - (o + n)) :=
          State.bytes_congr_on fun i hi => hp.outside _ (by rw [State.bytes_length]; unfold Apart at ha; omega)
        rw [hbytes, hrest] at hp'
        have := hp.append (e := s.bytes (x.src r + (o + n)) (x.len r - (o + n))) (by rwa [State.bytes_length, Nat.add_assoc])
        rwa [← Nat.add_assoc, State.bytes_append, show n + (x.len r - (o + n)) = x.len r - o by omega] at this

/-- A row between plain ranges that lie apart is stored. -/
theorem moveWhole_plain (hm : m.c = c.val) {x : Plan} (hg : x.guard = none) {r dst : Nat} (hlen : x.len r < 2 ^ 32)
    (ha : Apart (x.src r) dst (x.len r)) {p : Progress} (hb : p.bytes = 0) (hs : s.plain c.val (x.src r) (x.len r))
    (hd : s.plain c.val dst (x.len r)) :
    ∃ t p', moveWhole m x r dst s p = .ok t p' ∧ p.AtRow p' ∧ Placed s t dst (s.bytes (x.src r) (x.len r)) := by
  obtain ⟨t, p', ht, hrow, hp⟩ := moveRow_plain hm hg hlen ha (x.len r / 64 + 2) s p (by omega) hs hd
  have e : p.bytes.toNat = 0 := by rw [hb]; rfl
  rw [e] at hp
  refine ⟨t, p', ?_, hrow, hp⟩
  unfold moveWhole
  simp only [e, Nat.add_zero, Nat.sub_zero, hs.not_blocked, hd.not_blocked]
  exact ht

/-! ### Rows one after another -/

/-- The rows of a movement from row j on: from where to where, and how long they are. -/
structure Rows where
  rows : Nat
  len : Nat
  src : Nat → Nat
  dst : Nat → Nat

/-- Rows between plain ranges, the destinations apart from every source and from one another. -/
structure Rows.Plain (y : Rows) (c : CoreId) (s : State) : Prop where
  src : ∀ j, j < y.rows → s.plain c.val (y.src j) y.len
  dst : ∀ j, j < y.rows → s.plain c.val (y.dst j) y.len
  fromSrc : ∀ j l, j < y.rows → l < y.rows → Apart (y.src j) (y.dst l) y.len
  fromDst : ∀ j l, j < y.rows → l < y.rows → j ≠ l → Apart (y.dst j) (y.dst l) y.len

theorem Rows.Plain.moves {y : Rows} (h : y.Plain c s) (g : MovesSound s t) : y.Plain c t :=
  ⟨fun j hj => (h.src j hj).moves g, fun j hj => (h.dst j hj).moves g, h.fromSrc, h.fromDst⟩

/-- The rows from j on are stored; every other byte is as it was. -/
structure Rows.Stored (y : Rows) (j : Nat) (s t : State) : Prop where
  moves : MovesSound s t
  inside : ∀ i b, j ≤ i → i < y.rows → b < y.len → t.byte (y.dst i + b) = s.byte (y.src i + b)
  outside : ∀ a, (∀ i, j ≤ i → i < y.rows → a < y.dst i ∨ y.dst i + y.len ≤ a) → t.byte a = s.byte a

theorem Rows.Stored.none {y : Rows} {j : Nat} (h : y.rows ≤ j) (s : State) : y.Stored j s s :=
  ⟨.refl s, fun i b hi hi' => by omega, fun _ _ => rfl⟩

/-- A row stored before later ones. -/
theorem Rows.Stored.cons {y : Rows} {j : Nat} (hy : y.Plain c s) (hj : j < y.rows) (hp : Placed s t (y.dst j) (s.bytes (y.src j) y.len))
    (h : y.Stored (j + 1) t u) : y.Stored j s u := by
  have hlen : (s.bytes (y.src j) y.len).length = y.len := State.bytes_length ..
  refine ⟨hp.moves.trans h.moves, fun i b hi hi' hb => ?_, fun a hout => ?_⟩
  · by_cases e : i = j
    · subst e
      rw [h.outside _ fun l hl hl' => ?_, hp.inside b (by omega), State.bytes_getElem]
      have := hy.fromDst i l hi' hl' (by omega)
      unfold Apart at this
      omega
    · have := hy.fromSrc i j hi' hj
      unfold Apart at this
      rw [h.inside i b (by omega) hi' hb, hp.outside _ (by omega)]
  · rw [h.outside a fun i hi hi' => hout i (by omega) hi', hp.outside a (by rw [hlen]; exact hout j le_rfl hj)]

/-- The plan moves these rows, to no queue and with no guard. -/
structure Plan.Moves (x : Plan) (y : Rows) : Prop where
  rows : x.rows = y.rows
  len : x.len = fun _ => y.len
  src : x.src = y.src
  dst : x.dst = fun r => some (y.dst r)
  queue : x.queue = none
  guard : x.guard = none

theorem moveRows_plain (hm : m.c = c.val) {x : Plan} {y : Rows} (hx : x.Moves y) (hrows : y.rows < 2 ^ 32) (hlen : y.len < 2 ^ 32) :
    ∀ (f : Nat) (s : State) (p : Progress), y.rows < p.rows.toNat + f → p.bytes = 0 → y.Plain c s →
    ∃ t p', moveRows m x s p f = .ok t p' ∧ p'.bitmap = p.bitmap ∧ p'.newer = p.newer ∧ y.Stored p.rows.toNat s t := by
  intro f
  induction f with
  | zero => exact fun s p hf _ _ => ⟨s, p, rfl, rfl, rfl, .none (by omega) s⟩
  | succ f ih =>
    intro s p hf hb hy
    unfold moveRows
    dsimp only
    rw [hx.rows, hx.queue, hx.dst]
    by_cases hj : y.rows ≤ p.rows.toNat
    · rw [if_pos hj]
      exact ⟨s, p, rfl, rfl, rfl, .none hj s⟩
    · rw [if_neg hj]
      dsimp only
      have hj := Nat.lt_of_not_le hj
      have hl : x.len p.rows.toNat = y.len := congrFun hx.len _
      have hs : x.src p.rows.toNat = y.src p.rows.toNat := congrFun hx.src _
      obtain ⟨t, p', ht, ⟨hr, hbit, hnew⟩, hp⟩ := moveWhole_plain (s := s) (r := p.rows.toNat) (dst := y.dst p.rows.toNat) hm hx.guard (by rwa [hl])
        (by rw [hl, hs]; exact hy.fromSrc _ _ hj hj) hb (by rw [hl, hs]; exact hy.src _ hj) (by rw [hl]; exact hy.dst _ hj)
      rw [hl, hs] at hp
      have hnext : (p'.rows + 1).toNat = p.rows.toNat + 1 := by
        rw [hr, BitVec.toNat_add]
        show (p.rows.toNat + 1) % 2 ^ 32 = _
        omega
      obtain ⟨u, p'', hu, hbit', hnew', hst⟩ := ih t { p' with rows := p'.rows + 1, bytes := 0 } (by show _ < (p'.rows + 1).toNat + f; omega)
        rfl (hy.moves hp.moves)
      rw [show ({ p' with rows := p'.rows + 1, bytes := 0 } : Progress).rows.toNat = p.rows.toNat + 1 from hnext] at hst
      refine ⟨u, p'', ?_, hbit'.trans hbit, hnew'.trans hnew, .cons hy hj hp hst⟩
      rw [ht]
      exact hu

/-- A whole movement of rows between plain ranges. -/
theorem runPlan_plain (hm : m.c = c.val) {x : Plan} {y : Rows} (hx : x.Moves y) (hrows : y.rows < 2 ^ 32) (hlen : y.len < 2 ^ 32)
    (hp : m.q.prog = {}) (hy : y.Plain c s) :
    ∃ t p, runPlan s m x = .ok t p ∧ p.bitmap = 0 ∧ p.newer = false ∧ y.Stored 0 s t := by
  have h := moveRows_plain hm hx hrows hlen (x.rows + 1) s {} (by rw [hx.rows]; show _ < 0 + _; omega) rfl hy
  unfold runPlan
  rw [hp]
  exact h

end

end Sys2Proof.Machine
end

section
/-! COPY and NEIGHBOUR as the access engine takes them (R211 to R213, R220). -/

namespace Sys2Proof.Machine

/-- Checks of R211 that all pass. -/
theorem checks_go {cap zero legal space : Bool} (hc : cap = false) (hz : zero = false) (hl : legal = true) (hs : space = true) :
    checks cap zero legal space = .go := by
  rw [hc, hz, hl, hs]
  rfl

/-- Rows and length above 0, the rows within their capacity, and ranges accepted. -/
theorem checks_rows {rows cap len : Nat} {legal space : Bool} (h : rows ≤ cap ∧ 0 < rows ∧ 0 < len) (hl : legal = true) (hs : space = true) :
    checks (cap < rows) (rows = 0 || len = 0) legal space = .go :=
  checks_go (decide_eq_false (by omega)) (by simp; omega) hl hs

section
variable {s : State} {c : CoreId} {sl : SlotId} {w : Cmd} {o : OpInfo} {i : Instr} {n : Nat} {y : Rows}

/-- What the statement says of rows that are stored. -/
theorem Rows.Stored.effect {d t : State} (h : y.Stored 0 d t) : Moves d t ∧
    (∀ j b, j < y.rows → b < y.len → t.byte (y.dst j + b) = d.byte (y.src j + b)) ∧
    ∀ a, (∀ j, j < y.rows → a < y.dst j ∨ y.dst j + y.len ≤ a) → t.byte a = d.byte a :=
  ⟨h.moves.moves, fun j b hj hb => h.inside j b (Nat.zero_le j) hj hb, fun a ha => h.outside a fun j _ hj => ha j hj⟩

/-- A command whose plan moves rows between plain ranges starts with its rows stored and nothing awaited. -/
theorem Starts.of_rowsMoved {x : Plan} (hi : engineRow i = some (c, sl, w, o, n)) (hn : n = 0x50 ∨ n = 0x56) (hop : opcIs w n = true)
    (hr : AccessReady o s c sl w) (hcheck : moveChecks c.val (resolved o s c sl w) = .go)
    (hrun : ∀ m : Mover, m.c = c.val → m.q.w = resolved o s c sl w → runMove (s.headState o c sl w) m = runPlan (s.headState o c sl w) m x)
    (hx : x.Moves y) (hrows : y.rows < 2 ^ 32) (hlen : y.len < 2 ^ 32) (hy : y.Plain c (s.headState o c sl w)) :
    Starts i o s c (fun t q => q.status = stOk ∧ q.await = [] ∧ Moves (s.headState o c sl w) t ∧
      (∀ j b, j < y.rows → b < y.len → t.byte (y.dst j + b) = (s.headState o c sl w).byte (y.src j + b)) ∧
      ∀ a, (∀ j, j < y.rows → a < y.dst j ∨ y.dst j + y.len ≤ a) → t.byte a = (s.headState o c sl w).byte a) := by
  have hmove : 0x50 ≤ n ∧ n ≤ 0x57 := by omega
  have hopc := State.headEntry_opc (engineRow_move hi hmove).2 hop s c sl
  obtain ⟨t, p, ht, hbit, hnew, hst⟩ := runPlan_plain (s := s.headState o c sl w)
    (m := { c := c.val, ctx := (s.headState o c sl w).ctxOf c.val sl.val, q := s.headEntry o c sl w }) rfl hx hrows hlen rfl hy
  refine .of_move hi hmove hop hr hcheck ((hrun _ rfl rfl).trans ht) ⟨?_, ?_, hst.effect⟩
  · simp only [State.movedEntry, QEnt.moved', moveStatus_ok hbit hnew]
  · simp only [State.movedEntry, QEnt.moved', hopc]
    rw [if_neg (by omega)]

end

/-- Rows of a COPY or a NEIGHBOUR as the statement describes them. -/
theorem Rows.plain_of {d : State} {c : CoreId} {y : Rows} (h : ∀ j, j < y.rows → d.plain c.val (y.src j) y.len ∧ d.plain c.val (y.dst j) y.len)
    (ha : ∀ j l, j < y.rows → l < y.rows → Apart (y.src j) (y.dst l) y.len ∧ (j ≠ l → Apart (y.dst j) (y.dst l) y.len)) : y.Plain c d :=
  ⟨fun j hj => (h j hj).1, fun j hj => (h j hj).2, fun j l hj hl => (ha j l hj hl).1, fun j l hj hl => (ha j l hj hl).2⟩

theorem runMove_copy {s : State} {m : Mover} (h : cOpc m.q.w = 0x50) : runMove s m = runPlan s m (copyPlan m.q.w) := by
  unfold runMove
  dsimp only
  rw [h]
  rfl

theorem runMove_neighbour {s : State} {m : Mover} (h : cOpc m.q.w = 0x56) : runMove s m = runPlan s m (neighbourPlan m.c m.q.w) := by
  unfold runMove
  dsimp only
  rw [h]
  rfl

theorem moveChecks_copy {c : Nat} {w : Cmd} (h : cOpc w = 0x50) : moveChecks c w = copyCheck w := by
  unfold moveChecks
  rw [h]
  rfl

theorem moveChecks_neighbour {c : Nat} {w : Cmd} (h : cOpc w = 0x56) : moveChecks c w = neighbourCheck c w := by
  unfold moveChecks
  rw [h]
  rfl

/-- Rows of a COPY. -/
def copyRows (w : Cmd) : Rows :=
  { rows := fld w 175 162, len := fld w 161 144, src := fun j => aSrc w + j * fld w 208 190, dst := fun j => aDst w + j * fld w 227 209 }

/-- Rows of a NEIGHBOUR to core y, the first at offset e there. -/
def neighbourRows (c y e : Nat) (w : Cmd) : Rows :=
  { rows := fld w 107 94, len := fld w 93 76, src := fun j => slabKey c (fld w 52 32 + j * fld w 140 122)
    dst := fun j => slabKey y (e + j * fld w 159 141) }

/-- A COPY to plain ranges goes to no operand queue. -/
theorem copyPlan_moves {s : State} {c : CoreId} {w : Cmd} (h : (copyRows w).Plain c s) (hn : 0 < fld w 175 162 ∧ 0 < fld w 161 144) :
    (copyPlan w).Moves (copyRows w) := by
  have hd : dieByte (aDst w) := by simpa [copyRows] using (h.dst 0 hn.1).dieByte hn.2
  exact ⟨rfl, rfl, rfl, rfl, hd.queueOf, rfl⟩

theorem copyCheck_go {s : State} {c : CoreId} {w : Cmd} (h : (copyRows w).Plain c s)
    (hn : fld w 175 162 ≤ fld w 189 176 ∧ 0 < fld w 175 162 ∧ 0 < fld w 161 144) : copyCheck w = .go := by
  have hsrc : rowsOk (aSrc w) (fld w 208 190) (fld w 161 144) (fld w 175 162) = true :=
    List.all_eq_true.mpr fun j hj => (h.src j (List.mem_range.mp hj)).2.1
  have hdst : rowsOk (aDst w) (fld w 227 209) (fld w 161 144) (fld w 175 162) = true :=
    List.all_eq_true.mpr fun j hj => (h.dst j (List.mem_range.mp hj)).2.1
  exact checks_rows hn (by rw [hsrc, hdst, Bool.or_true, Bool.and_true]) rfl

theorem neighbourPlan_moves {c y e : Nat} {w : Cmd} (hy : neighbourOf c (fld w 75 74) = some y) (he : neighbourDst w = some e) :
    (neighbourPlan c w).Moves (neighbourRows c y e w) := by
  refine ⟨rfl, rfl, rfl, ?_, rfl, rfl⟩
  unfold neighbourPlan
  rw [hy, he]
  rfl

theorem neighbourCheck_go {c y e : Nat} {w : Cmd} (hn : fld w 107 94 ≤ fld w 121 108 ∧ 0 < fld w 107 94 ∧ 0 < fld w 93 76)
    (hb : cBdst w = false) (hy : neighbourOf c (fld w 75 74) = some y) (he : neighbourDst w = some e)
    (hspace : ∀ j, j < fld w 107 94 → inSlabSpace (fld w 52 32 + j * fld w 140 122) (fld w 93 76) = true ∧
      inSlabSpace (e + j * fld w 159 141) (fld w 93 76) = true) : neighbourCheck c w = .go := by
  refine checks_rows hn ?_ (List.all_eq_true.mpr fun j hj => ?_)
  · rw [hy, he, hb]
    rfl
  · rw [he]
    exact Bool.and_eq_true_iff.mpr (hspace j (List.mem_range.mp hj))

/-- Settles O36: both commands move rows (`Plan.Moves`), each row chunk by chunk in bytes that lie apart from its source and from
the rows before it, so every row is stored from its source as it was. -/
theorem copiesMove : Obligations.CopiesMove := by
  intro s c sl w Copied
  refine ⟨fun hop hr hcap hrows hlen hplain hapart => ?_, fun y e hop hr hcap hrows hlen hb hy he hspace hplain hapart => ?_⟩
  · have h : (copyRows (resolved copyInfo s c sl w)).Plain c (s.headState copyInfo c sl w) := Rows.plain_of hplain hapart
    have hopc : cOpc (resolved copyInfo s c sl w) = 0x50 := State.headEntry_opc rfl hop s c sl
    exact .of_rowsMoved rfl (.inl rfl) hop hr ((moveChecks_copy hopc).trans (copyCheck_go h ⟨hcap, hrows, hlen⟩))
      (fun m hm hw => by rw [runMove_copy (by rw [hw, hopc]), hw]) (copyPlan_moves h ⟨hrows, hlen⟩)
      ((Nat.mod_lt _ (by decide)).trans (by decide)) ((Nat.mod_lt _ (by decide)).trans (by decide)) h
  · have hopc : cOpc (resolved neighbourInfo s c sl w) = 0x56 := State.headEntry_opc rfl hop s c sl
    exact .of_rowsMoved rfl (.inr rfl) hop hr ((moveChecks_neighbour hopc).trans (neighbourCheck_go ⟨hcap, hrows, hlen⟩ hb hy he hspace))
      (fun m hm hw => by rw [runMove_neighbour (by rw [hw, hopc]), hw, hm]) (neighbourPlan_moves hy he)
      ((Nat.mod_lt _ (by decide)).trans (by decide)) ((Nat.mod_lt _ (by decide)).trans (by decide)) (Rows.plain_of hplain hapart)

end Sys2Proof.Machine
end

section
/-! GATHER and SCATTER of one item (R218): the index as it is read, and the item moved between plain ranges. -/

namespace Sys2Proof.Machine

theorem runMove_items {s : State} {m : Mover} (h : cOpc m.q.w = 0x53 ∨ cOpc m.q.w = 0x54) :
    runMove s m = moveItems m s m.q.prog (fld m.q.w 182 165 + 1) := by
  unfold runMove
  dsimp only
  rcases h with h | h
  all_goals
    rw [h]
    rfl

theorem moveChecks_items {c : Nat} {w : Cmd} (h : cOpc w = 0x53 ∨ cOpc w = 0x54) : moveChecks c w = gatherCheck w := by
  unfold moveChecks
  rcases h with h | h
  all_goals
    rw [h]
    rfl

section
variable {s t : State} {m : Mover} {c : CoreId} {w : Cmd}

/-- The index of the one item, in sound bytes, reads as it stands. -/
theorem itemIndex_sound (h : s.soundAll c [(fld w 164 144, 4)] = true) (ctx : Nat) :
    ∃ t, itemIndex s c.val ctx w 0 = (some (s.num (slabKey c.val (fld w 164 144)) 4), t) ∧ RegsOnly c (s.core c.val) s t := by
  have hs : s.sound (slabKey c.val (fld w 164 144)) 4 = true := by
    have := List.all_eq_true.mp h _ List.mem_cons_self
    exact (Bool.and_eq_true_iff.mp this).2
  refine ⟨_, ?_, s.consumeUnread_regsOnly c (fld w 164 144) 4⟩
  unfold itemIndex State.engRead
  rw [Nat.mul_zero, Nat.add_zero, State.readDie_sound hs]
  rfl

/-- From where to where the item with index `ix` moves: the place that the index names is the source of a GATHER and the destination
of a SCATTER. -/
def itemFar (w : Cmd) (ix : Nat) : Nat := (if cOpc w = 0x53 then aSrc w else aDst w) + ix * fld w 224 201 * 64
def itemSrc (w : Cmd) (ix : Nat) : Nat := if cOpc w = 0x53 then itemFar w ix else aSrc w
def itemDst (w : Cmd) (ix : Nat) : Nat := if cOpc w = 0x53 then aDst w else itemFar w ix

/-- The place of the item that the command itself names. -/
def itemFixed (w : Cmd) : Nat := if cOpc w = 0x53 then aDst w else aSrc w

/-- The item as a movement of one row. -/
def itemPlan (w : Cmd) (ix : Nat) : Plan :=
  { rows := 1, len := fun _ => itemBytes w, src := fun _ => itemSrc w ix, dst := fun _ => none, part := fun _ => some 0 }

theorem item_gather (h : cOpc w = 0x53) (ix : Nat) : itemFixed w = aDst w ∧ itemFar w ix = aSrc w + ix * fld w 224 201 * 64 ∧
    itemSrc w ix = aSrc w + ix * fld w 224 201 * 64 ∧ itemDst w ix = aDst w := by
  simp only [itemFixed, itemSrc, itemDst, itemFar, h, if_true, and_self]

theorem item_scatter (h : cOpc w = 0x54) (ix : Nat) : itemFixed w = aSrc w ∧ itemFar w ix = aDst w + ix * fld w 224 201 * 64 ∧
    itemSrc w ix = aSrc w ∧ itemDst w ix = aDst w + ix * fld w 224 201 * 64 := by
  simp [itemFixed, itemSrc, itemDst, itemFar, h]

/-- The first item whose index is none: nothing is done. -/
theorem moveItem_none {p : Progress} (hq : queueOf (aDst m.q.w) = none) (hp : p.rows = 0)
    (hix : itemIndex s m.c m.ctx m.q.w 0 = (some 0xFFFFFFFF, t)) :
    moveItem m s p = .ok t { p with rows := p.rows + 1, bytes := 0 } := by
  unfold moveItem
  simp only [hq, ite_self, Option.isSome_none, Bool.false_and, Bool.false_eq_true, if_false]
  rw [hp, show BitVec.toNat (0 : BitVec 32) = 0 from rfl, hix]
  rfl

/-- The first item whose index names an accepted place. -/
theorem moveItem_some {p p' : Progress} {u : State} {ix : Nat} (hq : queueOf (aDst m.q.w) = none) (hp : p.rows = 0)
    (hix : itemIndex s m.c m.ctx m.q.w 0 = (some ix, t)) (hne : ix ≠ 0xFFFFFFFF) (hspan : spanOk (itemFar m.q.w ix) (itemBytes m.q.w) = true)
    (hrun : moveWhole m (itemPlan m.q.w ix) 0 (itemDst m.q.w ix) t p = .ok u p') :
    moveItem m s p = .ok u { p' with rows := p'.rows + 1, bytes := 0 } := by
  unfold itemFar at hspan
  unfold itemPlan itemSrc itemDst itemFar at hrun
  unfold moveItem
  simp only [hq, ite_self, Option.isSome_none, Bool.false_and, Bool.false_eq_true, if_false]
  rw [hp, show BitVec.toNat (0 : BitVec 32) = 0 from rfl, hix]
  simp only [if_neg hne, hspan, Nat.zero_mul, Nat.add_zero, Nat.zero_mod, Bool.not_true, Bool.false_eq_true, if_false]
  rw [hrun]
  rfl

/-- A command of one item ends with it. -/
theorem moveItems_one {p p' : Progress} (hn : fld m.q.w 182 165 = 1) (hp : p.rows = 0) (hr : p'.rows = 1) (h : moveItem m s p = .ok t p') :
    moveItems m s p (fld m.q.w 182 165 + 1) = .ok t p' := by
  rw [hn]
  unfold moveItems
  rw [hn, hp, if_neg (by decide), h]
  dsimp only
  unfold moveItems
  rw [hn, hr, if_pos (by decide)]

/-! ### The item between plain ranges -/

/-- The index of the one item. -/
def State.itemIx (s : State) (c : CoreId) (w : Cmd) : Nat := s.num (slabKey c.val (fld w 164 144)) 4

/-- A GATHER or SCATTER of one item within its capacity, its index sound, its places plain and apart, to no operand queue. -/
structure State.ItemPlain (s : State) (c : CoreId) (w : Cmd) : Prop where
  one : fld w 182 165 = 1
  cap : 1 ≤ fld w 200 183
  src : aSrc w % 64 = 0
  dst : aDst w % 64 = 0
  list : fld w 164 144 % 64 = 0
  index : s.soundAll c [(fld w 164 144, 4)] = true
  queue : queueOf (aDst w) = none
  fixed : s.plain c.val (itemFixed w) (itemBytes w)
  far : s.itemIx c w ≠ 0xFFFFFFFF → s.plain c.val (itemFar w (s.itemIx c w)) (itemBytes w)
  apart : s.itemIx c w ≠ 0xFFFFFFFF → Apart (itemSrc w (s.itemIx c w)) (itemDst w (s.itemIx c w)) (itemBytes w)

theorem State.ItemPlain.check (h : s.ItemPlain c w) : gatherCheck w = .go := by
  have hspace : inSlabSpace (fld w 164 144) (4 * fld w 182 165) = true := by
    rw [h.one]
    exact (Bool.and_eq_true_iff.mp (List.all_eq_true.mp h.index _ List.mem_cons_self)).1
  have hspan := h.fixed.2.1
  unfold itemFixed at hspan
  refine checks_go ?_ ?_ ?_ hspace
  · have := h.cap
    have := h.one
    exact decide_eq_false (by omega)
  · rw [h.one]
    rfl
  · simp [h.one, h.src, h.dst, h.list, h.queue, hspan]

/-- The source and the destination of the item are its two places. -/
theorem itemSrc_itemDst (w : Cmd) (ix : Nat) : (itemSrc w ix = itemFar w ix ∧ itemDst w ix = itemFixed w) ∨
    (itemSrc w ix = itemFixed w ∧ itemDst w ix = itemFar w ix) := by
  unfold itemSrc itemDst itemFixed
  split
  · exact .inl ⟨rfl, rfl⟩
  · exact .inr ⟨rfl, rfl⟩

/-- What a command of one item stores: the item where its index names a place, and nothing else. -/
structure ItemStored (w : Cmd) (ix : Nat) (s t : State) : Prop where
  moves : MovesSound s t
  byte : ∀ a, t.byte a = if ix ≠ 0xFFFFFFFF ∧ itemDst w ix ≤ a ∧ a < itemDst w ix + itemBytes w then s.byte (itemSrc w ix + (a - itemDst w ix))
    else s.byte a

theorem itemBytes_small (w : Cmd) : itemBytes w < 2 ^ 32 := by
  have hf : fld w 230 225 < 2 ^ 6 := Nat.mod_lt _ (by decide)
  unfold itemBytes
  omega

/-- The item between plain ranges, moved as a row. -/
theorem moveWhole_item (hm : m.c = c.val) {p : Progress} {ix : Nat} (hb : p.bytes = 0) (hfar : s.plain c.val (itemFar m.q.w ix) (itemBytes m.q.w))
    (hfixed : s.plain c.val (itemFixed m.q.w) (itemBytes m.q.w)) (hapart : Apart (itemSrc m.q.w ix) (itemDst m.q.w ix) (itemBytes m.q.w)) :
    ∃ t p', moveWhole m (itemPlan m.q.w ix) 0 (itemDst m.q.w ix) s p = .ok t p' ∧ p'.rows = p.rows ∧ p'.bitmap = p.bitmap ∧
      p'.newer = p.newer ∧ Placed s t (itemDst m.q.w ix) (s.bytes (itemSrc m.q.w ix) (itemBytes m.q.w)) := by
  have hplain : s.plain c.val (itemSrc m.q.w ix) (itemBytes m.q.w) ∧ s.plain c.val (itemDst m.q.w ix) (itemBytes m.q.w) := by
    rcases itemSrc_itemDst m.q.w ix with ⟨h1, h2⟩ | ⟨h1, h2⟩
    · rw [h1, h2]
      exact ⟨hfar, hfixed⟩
    · rw [h1, h2]
      exact ⟨hfixed, hfar⟩
  obtain ⟨t, p', ht, ⟨hrow, hbit, hnew⟩, hp⟩ :=
    moveWhole_plain (x := itemPlan m.q.w ix) (r := 0) hm rfl (itemBytes_small _) hapart hb hplain.1 hplain.2
  exact ⟨t, p', ht, hrow, hbit, hnew, hp⟩

theorem moveItem_plain (hm : m.c = c.val) {p : Progress} (h : s.ItemPlain c m.q.w) (hr : p.rows = 0) (hb : p.bytes = 0) :
    ∃ t p', moveItem m s p = .ok t p' ∧ p'.rows = 1 ∧ p'.bitmap = p.bitmap ∧ p'.newer = p.newer ∧ ItemStored m.q.w (s.itemIx c m.q.w) s t := by
  obtain ⟨u, hread, hregs⟩ := itemIndex_sound h.index m.ctx
  have hu : itemIndex s m.c m.ctx m.q.w 0 = (some (s.itemIx c m.q.w), u) := by
    rw [hm]
    exact hread
  have hsame := hregs.2.byte (by decide) (by decide)
  by_cases hix : s.itemIx c m.q.w = 0xFFFFFFFF
  · rw [hix] at hu ⊢
    refine ⟨u, _, moveItem_none h.queue hr hu, by rw [hr]; rfl, rfl, rfl, hregs.movesSound, fun a => ?_⟩
    rw [if_neg fun hc => hc.1 rfl, hsame]
  · have hfar := h.far hix
    obtain ⟨t, p', ht, hrow, hbit, hnew, hp⟩ :=
      moveWhole_item hm hb (hfar.moves hregs.movesSound) (h.fixed.moves hregs.movesSound) (h.apart hix)
    refine ⟨t, _, moveItem_some h.queue hr hu hix hfar.2.1 ht, by show p'.rows + 1 = 1; rw [hrow, hr]; rfl, hbit, hnew,
      hregs.movesSound.trans hp.moves, fun a => ?_⟩
    by_cases ha : itemDst m.q.w (s.itemIx c m.q.w) ≤ a ∧ a < itemDst m.q.w (s.itemIx c m.q.w) + itemBytes m.q.w
    · obtain ⟨j, rfl⟩ := Nat.exists_eq_add_of_le ha.1
      have hj : j < (u.bytes (itemSrc m.q.w (s.itemIx c m.q.w)) (itemBytes m.q.w)).length := by
        rw [State.bytes_length]
        exact Nat.lt_of_add_lt_add_left ha.2
      rw [if_pos ⟨hix, ha⟩, hp.inside j hj, State.bytes_getElem, hsame, Nat.add_sub_cancel_left]
    · have hout : a < itemDst m.q.w (s.itemIx c m.q.w) ∨ itemDst m.q.w (s.itemIx c m.q.w) + itemBytes m.q.w ≤ a := by omega
      rw [if_neg fun hc => ha hc.2, hp.outside a (by rwa [State.bytes_length]), hsame]

end

section
variable {s : State} {c : CoreId} {sl : SlotId} {w : Cmd} {i : Instr} {n : Nat}

/-- A GATHER or SCATTER of one item between plain ranges, as the access engine takes it. -/
theorem Starts.of_item (hi : engineRow i = some (c, sl, w, gatherInfo, n)) (hn : n = 0x53 ∨ n = 0x54) (hop : opcIs w n = true)
    (hr : AccessReady gatherInfo s c sl w) (h : (s.headState gatherInfo c sl w).ItemPlain c (resolved gatherInfo s c sl w)) :
    Starts i gatherInfo s c (fun t q => q.status = stOk ∧ Moves (s.headState gatherInfo c sl w) t ∧
      ItemStored (resolved gatherInfo s c sl w) ((s.headState gatherInfo c sl w).itemIx c (resolved gatherInfo s c sl w))
        (s.headState gatherInfo c sl w) t) := by
  have hopc : cOpc (resolved gatherInfo s c sl w) = n := State.headEntry_opc rfl hop s c sl
  have hitems : cOpc (resolved gatherInfo s c sl w) = 0x53 ∨ cOpc (resolved gatherInfo s c sl w) = 0x54 := by rwa [hopc]
  obtain ⟨t, p, ht, hrow, hbit, hnew, hst⟩ := moveItem_plain (s := s.headState gatherInfo c sl w) (p := {})
    (m := { c := c.val, ctx := (s.headState gatherInfo c sl w).ctxOf c.val sl.val, q := s.headEntry gatherInfo c sl w }) rfl h rfl rfl
  refine .of_move hi (by omega) hop hr ((moveChecks_items hitems).trans h.check)
    ((runMove_items hitems).trans (moveItems_one h.one rfl hrow ht)) ⟨?_, hst.moves.moves, hst⟩
  simp only [State.movedEntry, QEnt.moved', moveStatus_ok hbit hnew]

end

end Sys2Proof.Machine
end

section
/-! MCAST of one row (R219, R232): what one source chunk stores at the cores of the rectangle, and the settling of O37. -/

namespace Sys2Proof.Machine

section
variable {s t u v : State} {m : Mover} {c : CoreId} {w : Cmd} {a : Nat} {d : List Byte}

/-- The data stands in the slab of every core of a list, and nothing else changed. -/
structure CastStored (l : List Nat) (a : Nat) (d : List Byte) (s t : State) : Prop where
  moves : MovesSound s t
  inside : ∀ y ∈ l, ∀ i, (h : i < d.length) → t.byte (slabKey y a + i) = d[i]
  outside : ∀ b, (∀ y ∈ l, b < slabKey y a ∨ slabKey y a + d.length ≤ b) → t.byte b = s.byte b

theorem CastStored.nil (s : State) (a : Nat) (d : List Byte) : CastStored [] a d s s :=
  ⟨.refl s, fun _ h => absurd h List.not_mem_nil, fun _ _ => rfl⟩

/-- Ranges of the slab space of two cores lie apart. -/
theorem slabKey_apart {x y a n i : Nat} (hn : a + n ≤ 0x180000) (hxy : x ≠ y) (hi : i < n) :
    slabKey x a + i < slabKey y a ∨ slabKey y a + n ≤ slabKey x a + i := by
  unfold slabKey
  omega

theorem CastStored.cons {x : Nat} {l : List Nat} (hn : a + d.length ≤ 0x180000) (hp : Placed s t (slabKey x a) d) (h : CastStored l a d t u) :
    CastStored (x :: l) a d s u := by
  refine ⟨hp.moves.trans h.moves, fun y hy i hi => ?_, fun b hb => ?_⟩
  · by_cases hl : y ∈ l
    · exact h.inside y hl i hi
    · obtain rfl := (List.mem_cons.mp hy).resolve_right hl
      rw [h.outside _ fun z hz => slabKey_apart hn (fun e : y = z => hl (by rwa [e])) hi, hp.inside i hi]
  · rw [h.outside b fun y hy => hb y (List.mem_cons_of_mem x hy), hp.outside b (hb x List.mem_cons_self)]

/-! ### Where every core is reached -/

/-- A core of the rectangle that takes n bytes at a slab address: live, reached, its bytes sound. -/
structure State.Casts (s : State) (c : Nat) (w : Cmd) (a n y : Nat) : Prop where
  live : s.available y = true
  reached : s.mcastCut c w y = false
  sound : s.sound (slabKey y a) n = true

theorem State.available_congr (hsec : t.sec = s.sec) (hhusk : t.husk = s.husk) (y : Nat) : t.available y = s.available y := by
  unfold State.available State.fused State.fenced
  rw [hsec, hhusk]

theorem State.available_lt {y : Nat} (h : s.available y = true) : y < 960 := by
  unfold State.available at h
  simp only [Bool.and_eq_true, decide_eq_true_eq] at h
  exact h.1.1

theorem MovesSound.available (h : MovesSound s t) (y : Nat) : t.available y = s.available y :=
  State.available_congr (h.moves.2 .sec (by decide)) (h.moves.2 .husk (by decide)) y

theorem State.Casts.moves {x y n : Nat} (h : s.Casts x w a n y) (g : MovesSound s t) : t.Casts x w a n y := by
  refine ⟨(g.available y).trans h.live, ?_, State.sound_of fun b h1 h2 => g.sound _ (State.sound_half h.sound h1 h2)⟩
  have hcut := h.reached
  unfold State.mcastCut at hcut ⊢
  rwa [show t.routerDown = s.routerDown from funext (State.routerDown_congr g.regs)]

/-! ### The chunk -/

/-- A chunk of good data at one core: where the core is out of service nothing, where the path of state `s` to it is cut a failed
part, else the copy to its slab. -/
def mcastTo (m : Mover) (a : Nat) (d : List Byte) (s : State) (r : State × Progress) (k : Nat) : State × Progress :=
  if !s.available k then r
  else
    let fail : Progress := { r.2 with bitmap := r.2.bitmap ||| BitVec.ofNat 32 (2 ^ (coreY k - mY0 m.q.w)) }
    let gone : Progress := { fail with gone := insertOnce r.2.gone k }
    if s.mcastCut m.c m.q.w k then (r.1, gone)
    else
      let x := r.1.copyToSlab k m.ctx a d false
      if x.1 = stOk then ((x.2.count m.c (moveCounter (aSrc m.q.w) (slabKey k a)) d.length).progress m.c 3 1, r.2) else (x.2, gone)

theorem mcastChunk_eq_foldl (m : Mover) (a : Nat) (d : List Byte) (s : State) (p : Progress) :
    mcastChunk m a d false s p = (mcastCores m.q.w).foldl (mcastTo m a d s) (s, p) := rfl

theorem mcastTo_casts {y : Nat} (hs : s.Casts m.c m.q.w a d.length y) (ht : t.Casts m.c m.q.w a d.length y) (hn : a + d.length ≤ 0x180000) (p : Progress) :
    ∃ u, mcastTo m a d s (t, p) y = (u, p) ∧ Placed t u (slabKey y a) d := by
  have hlt : slabKey y a + d.length ≤ 2 ^ 65 := by
    have := State.available_lt hs.live
    unfold slabKey slabBase
    omega
  obtain ⟨v, hv, hp⟩ := State.copyToSlab_placed ht.sound hlt m.ctx
  refine ⟨_, ?_, .around (.refl t) (KeptBut.refl _ t) hp ((CountsOnly.count v m.c (moveCounter (aSrc m.q.w) (slabKey y a)) d.length).trans
    (.progress _ m.c 3 1)) (((Keeps.refl v).count _ _ _ rfl).progress _ _ _ rfl).kept⟩
  simp only [mcastTo, hs.live, hs.reached, hv, Bool.not_true, Bool.false_eq_true, if_false, if_true]

/-- A chunk at cores that are all reached is stored at each of them. -/
theorem foldl_mcastTo (hn : a + d.length ≤ 0x180000) (p : Progress) : ∀ (l : List Nat) (t : State), MovesSound s t →
    (∀ y ∈ l, s.Casts m.c m.q.w a d.length y) → ∃ u, l.foldl (mcastTo m a d s) (t, p) = (u, p) ∧ CastStored l a d t u := by
  intro l
  induction l with
  | nil => exact fun t _ _ => ⟨t, rfl, .nil t a d⟩
  | cons y l ih =>
    intro t hst hl
    have hy := hl y List.mem_cons_self
    obtain ⟨v, hv, hp⟩ := mcastTo_casts hy (hy.moves hst) hn p
    obtain ⟨u, hu, hc⟩ := ih v (hst.trans hp.moves) fun z hz => hl z (List.mem_cons_of_mem y hz)
    refine ⟨u, ?_, hc.cons hn hp⟩
    rw [List.foldl_cons, hv, hu]

/-! ### The row and the command -/

theorem runMove_mcast (h : cOpc m.q.w = 0x55) : runMove s m = mcastRows m s m.q.prog (fld m.q.w 162 149 + 1) := by
  unfold runMove
  dsimp only
  rw [h]
  rfl

theorem moveChecks_mcast {n : Nat} (h : cOpc w = 0x55) : moveChecks n w = mcastCheck w := by
  unfold moveChecks
  rw [h]
  rfl

/-- A MCAST of one row of 1 to 64 bytes from a plain source to cores of a proper rectangle that are all reached. -/
structure State.McastPlain (s : State) (c : CoreId) (w : Cmd) : Prop where
  one : fld w 162 149 = 1
  cap : 1 ≤ fld w 176 163
  len : 0 < fld w 148 131 ∧ fld w 148 131 ≤ 64
  xs : mX0 w ≤ mX1 w ∧ mX1 w ≤ 47
  ys : mY0 w ≤ mY1 w ∧ mY1 w ≤ 19
  src : s.plain c.val (aSrc w) (fld w 148 131)
  space : inSlabSpace (fld w 108 88) (fld w 148 131) = true
  casts : ∀ y ∈ mcastCores w, s.Casts c.val w (fld w 108 88) (fld w 148 131) y

theorem State.McastPlain.check (h : s.McastPlain c w) : mcastCheck w = .go := by
  have hone := h.one
  have hcap := h.cap
  refine checks_rows ⟨by omega, by omega, h.len.1⟩ ?_ ?_
  · simp [h.xs, h.ys, rowsOk, h.one, h.src.2.1]
  · simp [h.one, h.space]

theorem State.McastPlain.fits (h : s.McastPlain c w) : fld w 108 88 + fld w 148 131 ≤ 0x180000 := by
  have hspace := h.space
  have hlen := h.len
  simp only [inSlabSpace, Bool.or_eq_true, decide_eq_true_eq] at hspace
  omega

/-- What a MCAST of one row stores. -/
def McastStored (w : Cmd) (s t : State) : Prop := CastStored (mcastCores w) (fld w 108 88) (s.bytes (aSrc w) (fld w 148 131)) s t

/-- A row whose bytes have all been moved. -/
theorem mcastRow_end {r f : Nat} {p : Progress} (h : fld m.q.w 148 131 ≤ p.bytes.toNat) : mcastRow m r s p (f + 1) = .ok s { p with bytes := 0 } := by
  unfold mcastRow
  exact if_pos h

theorem mcastRow_plain (hm : m.c = c.val) (h : s.McastPlain c m.q.w) {p : Progress} (hb : p.bytes = 0) :
    ∃ t p', mcastRow m 0 s p (fld m.q.w 148 131 / 64 + 2) = .ok t p' ∧ p'.rows = p.rows ∧ p'.bitmap = p.bitmap ∧ p'.newer = p.newer ∧
      p'.gone = p.gone ∧ McastStored m.q.w s t := by
  obtain ⟨v, hv, hregs⟩ := readPlaces_plain h.src m.ctx
  have hlen : (s.bytes (aSrc m.q.w) (fld m.q.w 148 131)).length = fld m.q.w 148 131 := State.bytes_length ..
  obtain ⟨t, ht, hc⟩ := foldl_mcastTo (s := v) (d := s.bytes (aSrc m.q.w) (fld m.q.w 148 131)) (by rw [hlen]; exact h.fits) p
    (mcastCores m.q.w) v (.refl v) fun y hy => by
      rw [hm, hlen]
      exact (h.casts y hy).moves hregs.movesSound
  rw [← mcastChunk_eq_foldl] at ht
  have he : p.bytes.toNat = 0 := by rw [hb]; rfl
  have hmin : min 64 (fld m.q.w 148 131) = fld m.q.w 148 131 := Nat.min_eq_right h.len.2
  have hend : (BitVec.ofNat 32 (fld m.q.w 148 131)).toNat = fld m.q.w 148 131 := by
    rw [BitVec.toNat_ofNat]
    have := h.len.2
    omega
  refine ⟨t, { p with bytes := 0 }, ?_, rfl, rfl, rfl, rfl, hregs.movesSound.trans hc.moves, hc.inside, fun b hb => ?_⟩
  · unfold mcastRow
    simp only [he, Nat.le_zero, h.len.1.ne', if_false, Nat.sub_zero, hmin, Nat.zero_mul, Nat.add_zero, Nat.zero_add, h.src.places, hm, hv,
      Bool.false_eq_true, ht]
    exact mcastRow_end hend.ge
  · exact (hc.outside b hb).trans (hregs.2.byte (by decide) (by decide) b)

/-- A MCAST of one row ends with it. -/
theorem mcastRows_one {p p' : Progress} (hn : fld m.q.w 162 149 = 1) (hp : p.rows = 0) (hr : p'.rows = p.rows)
    (h : mcastRow m 0 s p (fld m.q.w 148 131 / 64 + 2) = .ok t p') :
    mcastRows m s p (fld m.q.w 162 149 + 1) = .ok t { p' with rows := 1, bytes := 0 } := by
  rw [hn]
  unfold mcastRows
  rw [hn, hp, if_neg (by decide), show BitVec.toNat (0 : BitVec 32) = 0 from rfl, h]
  dsimp only
  rw [hr, hp]
  unfold mcastRows
  rw [hn]
  exact if_pos le_rfl

theorem runMove_mcast_plain (hm : m.c = c.val) (hopc : cOpc m.q.w = 0x55) (hp : m.q.prog = {}) (h : s.McastPlain c m.q.w) :
    ∃ t p, runMove s m = .ok t p ∧ p.bitmap = 0 ∧ p.newer = false ∧ p.gone = [] ∧ McastStored m.q.w s t := by
  obtain ⟨t, p, ht, hr, hb, hn, hg, hst⟩ := mcastRow_plain hm h (p := {}) rfl
  rw [runMove_mcast hopc, hp]
  exact ⟨t, _, mcastRows_one h.one rfl hr ht, hb, hn, hg, hst⟩

/-- The awaited acknowledgements: of every core of the rectangle, where none failed. -/
theorem State.mcastLive_all {p : Progress} (hg : p.gone = []) (h : ∀ y ∈ mcastCores w, s.available y = true) : s.mcastLive w p = mcastCores w := by
  unfold State.mcastLive
  refine List.filter_eq_self.mpr fun y hy => ?_
  rw [h y hy, hg]
  rfl

end

section
variable {s : State} {c : CoreId} {sl : SlotId} {w : Cmd}

/-- A MCAST of one row, as the access engine takes it. -/
theorem Starts.of_mcast (hop : opcIs w 0x55 = true) (hr : AccessReady mcastInfo s c sl w)
    (h : (s.headState mcastInfo c sl w).McastPlain c (resolved mcastInfo s c sl w)) :
    Starts (.mcast c sl w) mcastInfo s c (fun t q => q.status = stOk ∧ q.await = (mcastCores (resolved mcastInfo s c sl w)).map (· + 2) ∧
      McastStored (resolved mcastInfo s c sl w) (s.headState mcastInfo c sl w) t) := by
  have hopc : cOpc (resolved mcastInfo s c sl w) = 0x55 := State.headEntry_opc rfl hop s c sl
  obtain ⟨t, p, ht, hb, hn, hg, hst⟩ := runMove_mcast_plain (s := s.headState mcastInfo c sl w)
    (m := { c := c.val, ctx := (s.headState mcastInfo c sl w).ctxOf c.val sl.val, q := s.headEntry mcastInfo c sl w }) rfl hopc rfl h
  refine .of_move rfl (by decide) hop hr ((moveChecks_mcast hopc).trans h.check) ht ⟨?_, ?_, hst⟩
  · simp only [State.movedEntry, QEnt.moved', moveStatus_ok hb hn]
  · have hlive := State.mcastLive_all (s := t) (w := resolved mcastInfo s c sl w) hg fun y hy => (hst.moves.available y).trans (h.casts y hy).live
    show (if cOpc (resolved mcastInfo s c sl w) = 0x55 then (t.mcastLive (resolved mcastInfo s c sl w) p).map (· + 2) else []) = _
    rw [if_pos hopc, hlive]

/-- Settles O37: a GATHER or SCATTER of one item moves it as a row; a MCAST of one row copies its one chunk to each slab. -/
theorem itemsMove : Obligations.ItemsMove := by
  unfold Obligations.ItemsMove
  intro s c sl w
  refine ⟨fun hr hone hcap hsrc hdst hlist hix => ⟨fun hop hfix hfar => ?_, fun hop hfix hq hfar => ?_⟩,
    fun hop hr hone hcap hlen hlen' hx hy hx' hy' hsrc hspace hcasts => ?_⟩
  · obtain ⟨hF, hfar', hS, hD⟩ := item_gather (w := resolved gatherInfo s c sl w) (State.headEntry_opc rfl hop s c sl)
      ((s.headState gatherInfo c sl w).itemIx c (resolved gatherInfo s c sl w))
    have hb : 0 < itemBytes (resolved gatherInfo s c sl w) := Nat.succ_pos _
    obtain ⟨t, q, ht, hst, hm, hbytes⟩ := Starts.of_item (i := .gather c sl w) rfl (.inl rfl) hop hr ⟨hone, hcap, hsrc, hdst, hlist, hix,
      (hfix.dieByte hb).queueOf, by rwa [hF], by rw [hfar']; exact fun hne => (hfar hne).1, by rw [hS, hD]; exact fun hne => (hfar hne).2⟩
    have hbyte := hbytes.byte
    rw [hS, hD] at hbyte
    exact ⟨t, q, ht, hst, hm, hbyte⟩
  · obtain ⟨hF, hfar', hS, hD⟩ := item_scatter (w := resolved gatherInfo s c sl w) (State.headEntry_opc rfl hop s c sl)
      ((s.headState gatherInfo c sl w).itemIx c (resolved gatherInfo s c sl w))
    obtain ⟨t, q, ht, hst, hm, hbytes⟩ := Starts.of_item (i := .scatter c sl w) rfl (.inr rfl) hop hr ⟨hone, hcap, hsrc, hdst, hlist, hix,
      hq, by rwa [hF], by rw [hfar']; exact fun hne => (hfar hne).1, by rw [hS, hD]; exact fun hne => (hfar hne).2⟩
    have hbyte := hbytes.byte
    rw [hS, hD] at hbyte
    exact ⟨t, q, ht, hst, hm, hbyte⟩
  · obtain ⟨t, q, ht, hst, haw, hm, hin, hout⟩ := Starts.of_mcast hop hr ⟨hone, hcap, ⟨hlen, hlen'⟩, ⟨hx, hx'⟩, ⟨hy, hy'⟩, hsrc, hspace,
      fun y h => have ⟨h1, h2, h3⟩ := hcasts y h; ⟨h1, h2, h3⟩⟩
    have hl : ((s.headState mcastInfo c sl w).bytes (aSrc (resolved mcastInfo s c sl w)) (fld (resolved mcastInfo s c sl w) 148 131)).length =
      fld (resolved mcastInfo s c sl w) 148 131 := State.bytes_length ..
    refine ⟨t, q, ht, hst, haw, hm.moves, fun y hy b hb => ?_, fun a ha => hout a (by rwa [hl])⟩
    rw [hin y hy b (by rwa [hl]), State.bytes_getElem]

end

end Sys2Proof.Machine
end

section
/-! QCFG (R224) and APROG (R227): the operand queue as it is set up, and the access program as it is taken and run. -/

namespace Sys2Proof.Machine

section
variable {s t u : State} {c : CoreId} {sl : SlotId} {w : Cmd} {q : QEnt}

/-! ### QCFG -/

theorem startAccess_qcfg (h : cOpc q.w = 0x59) (hz : (s.core c.val).hazard c.val q.w = false) : startAccess s c.val q = startQcfg s c.val q := by
  unfold startAccess
  rw [hz, if_neg Bool.false_ne_true, h]
  rfl

theorem State.dropUnread_regsOnly (s : State) (c : CoreId) (p : Nat → Bool) : RegsOnly c (s.core c.val) s (s.dropUnread c.val p) := by
  obtain ⟨ho, hc⟩ := dropUnread_core s c.val p
  exact ⟨⟨hc, ho⟩, ((Keeps.refl s).dropUnread _ _ rfl).kept⟩

/-- The operand queue that QCFG sets up, with no entry. -/
def qcfgQueue (w : Cmd) : OpQueue :=
  { base := BitVec.ofNat 21 (fld w 52 32), entry := BitVec.ofNat 7 (fld w 59 53), count := BitVec.ofNat 11 (fld w 70 60)
    consumer := BitVec.ofNat 2 (fld w 72 71) }

/-- The core with the queue of QCFG set up. -/
def Core.configured (k : Core) (w : Cmd) : Core := { k with opqs := KV.put {} k.opqs (fld w 75 73) (qcfgQueue w) }

theorem Core.opq_configured (k : Core) (w : Cmd) (j : Nat) : (k.configured w).opq j = if j = fld w 75 73 then qcfgQueue w else k.opq j :=
  KV.get_put ..

theorem RegsOnly.opq {k : Core} (h : RegsOnly c k s t) (j : Nat) : (t.core c.val).opq j = k.opq j := by
  obtain ⟨⟨⟨un, cs, hcore⟩, -⟩, -⟩ := h
  rw [hcore]
  rfl

/-- The queue is free to be set up: its entries are to be dropped and no GET fills it, or it has none. -/
def Core.QueueFree (k : Core) (w : Cmd) : Prop := bit w 76 = true ∧ k.feeds (fld w 75 73) = false ∨ bit w 76 = false ∧ (k.opq (fld w 75 73)).occ = 0

theorem startQcfg_go (hsp : inSlabSpace (fld q.w 52 32) (fld q.w 70 60 * fld q.w 59 53 * 64) = true) (hfree : (s.core c.val).QueueFree q.w) :
    ∃ t, startQcfg s c.val q = .go t q ∧ RegsOnly c ((s.core c.val).configured q.w) s t := by
  have hwait : (if bit q.w 76 = true then (s.core c.val).feeds (fld q.w 75 73) else decide (((s.core c.val).opq (fld q.w 75 73)).occ ≠ 0)) = false := by
    rcases hfree with ⟨hb, hf⟩ | ⟨hb, ho⟩
    · rw [hb, if_pos rfl, hf]
    · rw [hb, if_neg Bool.false_ne_true, ho]
      rfl
  have hconf {v : State} (h : RegsOnly c (s.core c.val) s v) :
      RegsOnly c ((s.core c.val).configured q.w) s (v.modCore c.val (·.configured q.w)) := h.modCore fun un cs => ⟨un, cs, rfl⟩
  unfold startQcfg
  dsimp only
  rw [hsp, hwait]
  simp only [Bool.not_true, Bool.false_eq_true, if_false]
  split
  · exact ⟨_, rfl, hconf (State.dropUnread_regsOnly s c _)⟩
  · exact ⟨_, rfl, hconf (.refl c s)⟩

theorem Starts.of_qcfg (hop : opcIs w 0x59 = true) (hr : AccessReady qcfgInfo s c sl w)
    (hsp : inSlabSpace (fld (resolved qcfgInfo s c sl w) 52 32) (fld (resolved qcfgInfo s c sl w) 70 60 * fld (resolved qcfgInfo s c sl w) 59 53 * 64) = true)
    (hfree : ((s.headState qcfgInfo c sl w).core c.val).QueueFree (resolved qcfgInfo s c sl w)) :
    Starts (.qcfg c sl w) qcfgInfo s c (fun t q => q = s.headEntry qcfgInfo c sl w ∧
      RegsOnly c (((s.headState qcfgInfo c sl w).core c.val).configured (resolved qcfgInfo s c sl w)) (s.headState qcfgInfo c sl w) t) := by
  have hopc := State.headEntry_opc (o := qcfgInfo) rfl hop s c sl
  obtain ⟨t, ht, hregs⟩ := startQcfg_go (q := s.headEntry qcfgInfo c sl w) hsp hfree
  exact Starts.of_go (exec_engineRow rfl hop s) hr.toHeadReady ((startAccess_qcfg hopc hr.unheld).trans ht)
    (Ctl.of_start_go ht ((Ctl.refl _).startQcfg _ _)) (by rw [hopc]; decide) ⟨rfl, hregs⟩

/-! ### APROG taken by its engine -/

/-- The program of an entry stands, and the entry has left its queue. -/
def State.programmed (d : State) (c : Nat) (q : QEnt) : State :=
  (d.modCore c (fun k => { k with program := some { ent := q } })).modCore c (fun k => k.pop 3)

/-- A program of R211: iterations, its words accepted. -/
structure ProgramOk (w : Cmd) : Prop where
  iters : fld w 81 66 ≠ 0
  words : 1 ≤ fld w 65 53 ∧ fld w 65 53 ≤ 4096
  aligned : fld w 52 32 % 32 = 0
  space : inSlabSpace (fld w 52 32) (32 * fld w 65 53) = true

theorem startAprog_go (h : ProgramOk q.w) (hn : (s.core c.val).program = none) :
    startAprog s c.val q = .go (s.modCore c.val (fun k => { k with program := some { ent := q } })) q := by
  obtain ⟨hi, ⟨hw, hw'⟩, ha, hs⟩ := h
  have hbad : (fld q.w 65 53 = 0 || decide (4096 < fld q.w 65 53) || decide (fld q.w 52 32 % 32 ≠ 0)) = false := by simp; omega
  unfold startAprog
  dsimp only
  rw [if_neg hi, if_neg (by rw [hbad]; decide), hs, hn]
  rfl

theorem startAccess_aprog (h : cOpc q.w = 0x5A) (hz : (s.core c.val).hazard c.val q.w = false) : startAccess s c.val q = startAprog s c.val q := by
  unfold startAccess
  rw [hz, if_neg Bool.false_ne_true, h]
  rfl

theorem State.programmed_core (d : State) (c : Nat) (q : QEnt) :
    (d.programmed c q).core c = { (d.core c).pop 3 with program := some { ent := q } } := by
  unfold State.programmed
  rw [State.core_modCore, State.core_modCore]
  rfl

/-- The access engine with the program at the head of its queue runs it; where it then rests with nothing to do, that is all. -/
theorem State.pumpEngine_aprog {d d' : State} {q0 : QEnt} (hq : (d.core c.val).queue 3 = [q0]) (hs : (d.core c.val).stalled 3 = false)
    (ht : d.headToken c.val 3 q0 = some (d', q)) (ha : q.await = []) (hopc : cOpc q.w = 0x5A) (hz : (d'.core c.val).hazard c.val q.w = false)
    (hw : ProgramOk q.w) (hn : (d'.core c.val).program = none)
    (hv : (((d'.programmed c.val q).runProgram c.val (fld q.w 65 53 * fld q.w 81 66 + 2)).core c.val).queue 3 = []) :
    d.pumpEngine c.val 3 2 = (d'.programmed c.val q).runProgram c.val (fld q.w 65 53 * fld q.w 81 66 + 2) := by
  have hfuel : programFuel ((d'.programmed c.val q).core c.val) = fld q.w 65 53 * fld q.w 81 66 + 2 := by rw [State.programmed_core]; rfl
  have hgo : startOn d' c.val 3 q = _ := (startAccess_aprog hopc hz).trans (startAprog_go hw hn)
  unfold State.pumpEngine
  rw [hq, hs]
  dsimp only
  rw [ht]
  dsimp only
  rw [show (!q.await.isEmpty) = false by rw [ha]; rfl, if_neg Bool.false_ne_true, hgo]
  dsimp only
  rw [if_pos hopc]
  change (State.runProgram (d'.programmed c.val q) c.val (programFuel ((d'.programmed c.val q).core c.val))).pumpEngine c.val 3 1 = _
  rw [hfuel]
  exact State.pumpEngine_empty hv _

/-- A program that the access engine can take at once runs as far as it goes. -/
theorem exec_aprog_runs (hop : opcIs w 0x5A = true) (hr : AccessReady aprogInfo s c sl w) (hw : ProgramOk (resolved aprogInfo s c sl w))
    (hn : ((s.headState aprogInfo c sl w).core c.val).program = none)
    (hv : u = ((s.headState aprogInfo c sl w).programmed c.val (s.headEntry aprogInfo c sl w)).runProgram c.val
      (fld (resolved aprogInfo s c sl w) 65 53 * fld (resolved aprogInfo s c sl w) 81 66 + 2))
    (hcalm : (u.core c.val).calm) : exec (.aprog c sl w) s = .next u := by
  obtain ⟨cs, ms, hd⟩ := State.dispatched_core s aprogInfo c sl w
  have h := hr.toHeadReady
  obtain ⟨hempty, hrun, -⟩ := h.calm
  have hq : ((s.dispatched aprogInfo c sl w).core c.val).queue aprogInfo.engine = [s.queued aprogInfo c sl w false] := by
    rw [hd]
    simp
  have hp : (s.dispatched aprogInfo c sl w).pump c.val = u := by
    refine State.pump_one (e := 3) (by decide) (by rw [hd]; exact hrun) (fun f hf hne => ?_) ?_ hcalm.1
    · rw [hd]
      simp [aprogInfo, Core.queue_setQueue_ne hne, hempty f hf]
    · rw [show ((s.dispatched aprogInfo c sl w).core c.val).queue 3 = _ from hq, hv]
      exact State.pumpEngine_aprog hq (by rw [hd]; exact h.up) (State.headToken_ready h) rfl (State.headEntry_opc rfl hop s c sl) hr.unheld hw hn
        (hv ▸ hcalm.1 3 (by decide))
  rw [exec_engineRow rfl hop]
  unfold State.engCmd State.afterCore
  rw [State.dispatchTo_ready h, hp, State.releaseAll_none _ fun j hj => hcalm.2.2 j (by simp at hj; omega)]

/-! ### The steps of a program -/

variable {p : Program} {g : Progress} {x : Cmd}

/-- Nothing holds the program back: its core translates, the engine is up, it awaits no answer and its slot no resume. -/
structure State.ProgramFree (s : State) (c : CoreId) (p : Program) : Prop where
  program : (s.core c.val).program = some p
  xlt : (s.core c.val).xltAcc = false
  up : (s.core c.val).down 3 = false
  await : p.ent.await = []
  out : (s.slot c.val p.ent.slot.val).accessOut = false

theorem State.ProgramFree.goes (h : s.ProgramFree c p) : ((s.core c.val).xltAcc || (s.core c.val).down 3 || !p.ent.await.isEmpty ||
    ((s.core c.val).slot p.ent.slot.val).accessOut) = false := by
  rw [h.xlt, h.up, h.await, show ((s.core c.val).slot p.ent.slot.val).accessOut = false from h.out]
  rfl

/-- The entry of a program that has ended, with its status. -/
def Program.ending (p : Program) : QEnt :=
  { p.ent with status := if p.bitmap ≠ 0 then stPartial else if p.changed then stSrcChanged else stOk, bitmap := p.bitmap }

theorem State.programStep_end (h : s.ProgramFree c p) (hi : fld p.ent.w 81 66 ≤ p.iter.toNat) :
    s.programStep c.val = .rest (s.modCore c.val (fun k => ({ k with program := none } : Core).setRun 3 (k.run 3 ++ [p.ending]))) := by
  unfold State.programStep
  dsimp only
  rw [h.program]
  dsimp only
  rw [h.goes, if_neg Bool.false_ne_true, if_pos hi]
  rfl

/-- A command of a program whose data moves to its end, and that no destination acknowledges. -/
theorem State.programStep_moves {inc : BitVec 8} (h : s.ProgramFree c p) (hi : p.iter.toNat < fld p.ent.w 81 66)
    (hreach : s.programReach c.val p = .inr (x, inc, s)) (hcheck : moveChecks c.val x = .go) (hopc : cOpc x ≠ 0x55)
    (hrun : runMove s { c := c.val, ctx := s.ctxOf c.val p.ent.slot.val, q := { p.ent with w := x }, prog := true } = .ok t g) :
    s.programStep c.val = .on (t.programAdvance c.val { p with ent := { p.ent with prog := g } } x inc) := by
  unfold State.ctxOf at hrun
  unfold State.programStep
  dsimp only
  rw [h.program]
  dsimp only
  rw [h.goes, if_neg Bool.false_ne_true, if_neg (Nat.not_le.mpr hi), hreach]
  dsimp only
  rw [hcheck]
  dsimp only
  unfold State.slot at hrun
  rw [hrun]
  dsimp only
  rw [if_neg hopc]
  rfl

theorem State.consumeUnread_read (hun : (s.core c.val).unread = []) (a n : Nat) : s.consumeUnread c.val a n = s := by
  unfold State.consumeUnread
  exact if_pos (by rw [hun]; rfl)

/-- A read of sound bytes where no word is unread. -/
theorem State.engRead_read {a n : Nat} (hun : (s.core c.val).unread = []) (hs : s.sound (slabKey c.val a) n = true) (ctx : Nat) :
    s.engRead c.val ctx a n = ⟨s.bytes (slabKey c.val a) n, stOk, s⟩ := by
  unfold State.engRead
  rw [State.readDie_sound hs]
  exact congrArg _ (State.consumeUnread_read hun a n)

/-- The command that a program reaches, from a sound word of which no part is unread. -/
theorem State.programReach_sound (hcmd : p.cmd = none) (hs : s.soundAll c [(fld p.ent.w 52 32 + 32 * p.index.toNat, 32)] = true)
    (hun : (s.core c.val).unread = [])
    (hx : programCmd (s.slot c.val p.ent.slot.val) (BitVec.ofNat 256 (s.num (slabKey c.val (fld p.ent.w 52 32 + 32 * p.index.toNat)) 32)) p.ent.w
      p.iter.toNat = some x) : ∃ inc, s.programReach c.val p = .inr (x, inc, s) := by
  obtain ⟨hspace, hsound⟩ := Bool.and_eq_true_iff.mp (List.all_eq_true.mp hs _ List.mem_cons_self)
  unfold State.programReach
  rw [hcmd]
  dsimp only
  rw [hspace, State.engRead_read hun hsound]
  dsimp only
  rw [show leNat (s.bytes _ _) = s.num _ _ from rfl, hx]
  exact ⟨_, rfl⟩

theorem State.programAdvance_plain (hpen : cPen x = false) (hcen : cenIndex x = none) (s : State) (p : Program) (inc : BitVec 8) :
    s.programAdvance c.val p x inc = (s.saveProgram c.val (p.next (cOpc x))).progress c.val 3 1 := by
  unfold State.programAdvance State.programPost Slot.posted
  simp only [hpen, hcen, Bool.false_eq_true, if_false, Option.map_some]

/-! ### A program of one command and one iteration -/

/-- The state in which the program has completed its command. -/
def State.advanced (t : State) (c : Nat) (p : Program) : State := (t.saveProgram c p).progress c 3 1

theorem State.advanced_core (t : State) (c : Nat) (p : Program) :
    ∃ ms, (t.advanced c p).core c = { t.core c with program := some p, mons := ms } := by
  unfold State.advanced State.saveProgram State.progress
  rw [State.core_modCore, State.core_modCore]
  exact ⟨_, rfl⟩

theorem State.advanced_kept (t : State) (c : Nat) (p : Program) : KeptBut [.cores] t (t.advanced c p) :=
  (((Keeps.refl t).saveProgram _ _ rfl).progress _ _ _ rfl).kept

/-- The status of a movement that is the only one of its program. -/
def Progress.programStatus (g : Progress) : BitVec 8 := if g.bitmap ≠ 0 then stPartial else if g.newer then stSrcChanged else stOk

/-- The program of an entry after its one command. -/
def QEnt.programAfter (q : QEnt) (g : Progress) (x : Cmd) : Program := Program.next { ent := { q with prog := g } } (cOpc x)

theorem QEnt.programAfter_iter (h : fld q.w 65 53 = 1) (g : Progress) (x : Cmd) : (q.programAfter g x).iter = 1 := by
  unfold QEnt.programAfter Program.next
  simp [h]

theorem QEnt.programAfter_status (q : QEnt) (g : Progress) (x : Cmd) : (q.programAfter g x).ending.status = g.programStatus := by
  show (if 0#32 ||| (moveStatus (cOpc x) g).2 ≠ 0 then stPartial else
    if (false || decide ((moveStatus (cOpc x) g).1 = stSrcChanged)) = true then stSrcChanged else stOk) = _
  rw [BitVec.zero_or, Bool.false_or]
  unfold Progress.programStatus
  by_cases hb : g.bitmap = 0
  · cases hn : g.newer with
    | false => rw [moveStatus_ok hb hn, hb]; rfl
    | true => rw [moveStatus_changed hb hn, hb]; rfl
  · have hne : (moveStatus (cOpc x) g).2 ≠ 0 := by
      rw [moveStatus_partial hb]
      dsimp only
      split
      · exact fun h => hb (BitVec.or_eq_zero_iff.mp h).1
      · exact hb
    rw [if_pos hne, if_pos hb]

/-- Nothing holds the program back where nothing held it back before. -/
theorem State.advanced_free (hxlt : (t.core c.val).xltAcc = false) (hup : (t.core c.val).down 3 = false) (ha : p.ent.await = [])
    (hout : (t.slot c.val p.ent.slot.val).accessOut = false) : (t.advanced c.val p).ProgramFree c p := by
  obtain ⟨ms, hcore⟩ := State.advanced_core t c.val p
  refine ⟨?_, ?_, ?_, ha, ?_⟩
  · rw [hcore]
  · rw [hcore]
    exact hxlt
  · rw [hcore]
    exact hup
  · unfold State.slot
    rw [hcore]
    exact hout

/-- The core once a program has ended: its entry is in execution. -/
def Core.programEnds (k : Core) (p : Program) : Core := ({ k with program := none } : Core).setRun 3 (k.run 3 ++ [p.ending])

/-- The state in which a program has ended after its one command. -/
theorem State.advanced_ends (t : State) (c : Nat) (p : Program) :
    (((t.advanced c p).modCore c (·.programEnds p)).core c).program = none ∧
    (((t.advanced c p).modCore c (·.programEnds p)).core c).run 3 = (t.core c).run 3 ++ [p.ending] ∧
    ∀ a, ((t.advanced c p).modCore c (·.programEnds p)).byte a = t.byte a := by
  obtain ⟨ms, hcore⟩ := State.advanced_core t c p
  have hkept := (t.advanced_kept c p).trans ((Keeps.refl (t.advanced c p)).modCore c (·.programEnds p) rfl).kept
  rw [State.core_modCore, hcore]
  exact ⟨rfl, Core.run_setRun _ _ _, hkept.byte (by decide) (by decide)⟩

/-- The program of one command whose data moves to its end has ended in two steps. -/
theorem State.runProgram_single (h : u.ProgramFree c { ent := q }) (hlen : fld q.w 65 53 = 1) (hiter : fld q.w 81 66 = 1)
    (hs : u.soundAll c [(fld q.w 52 32, 32)] = true) (hun : (u.core c.val).unread = [])
    (hx : programCmd (u.slot c.val q.slot.val) (BitVec.ofNat 256 (u.num (slabKey c.val (fld q.w 52 32)) 32)) q.w 0 = some x)
    (hcheck : moveChecks c.val x = .go) (hopc : cOpc x ≠ 0x55) (hpen : cPen x = false) (hcen : cenIndex x = none)
    (hrun : runMove u { c := c.val, ctx := u.ctxOf c.val q.slot.val, q := { q with w := x }, prog := true } = .ok t g)
    (hxlt : (t.core c.val).xltAcc = false) (hup : (t.core c.val).down 3 = false) (hout : (t.slot c.val q.slot.val).accessOut = false) :
    u.runProgram c.val 3 = (t.advanced c.val (q.programAfter g x)).modCore c.val (·.programEnds (q.programAfter g x)) := by
  obtain ⟨inc, hreach⟩ := State.programReach_sound (s := u) (p := { ent := q }) (x := x) rfl hs hun hx
  have hfirst : u.programStep c.val = .on (t.advanced c.val (q.programAfter g x)) :=
    (State.programStep_moves h (hiter ▸ Nat.zero_lt_one) hreach hcheck hopc hrun).trans
      (congrArg Stepped.on (State.programAdvance_plain hpen hcen t _ inc))
  have hsecond := State.programStep_end (p := q.programAfter g x) (State.advanced_free hxlt hup rfl hout)
    (by rw [QEnt.programAfter_iter hlen]; exact hiter.le)
  unfold State.runProgram
  rw [hfirst]
  dsimp only
  unfold State.runProgram
  rw [hsecond]
  rfl

end

/-- Settles O41: QCFG writes its queue with no entry; the access engine runs the program that it takes, and one of a single command
advances once and then ends. -/
theorem queuesAndPrograms : Obligations.QueuesAndPrograms := by
  unfold Obligations.QueuesAndPrograms
  intro s c sl w
  refine ⟨fun hop hr hsp hfree => ?_, fun hop hr hi hw hw' ha hsp hn => ?_⟩
  · obtain ⟨t, q, ht, hq, hregs⟩ := Starts.of_qcfg hop hr hsp hfree
    have hopq (j : Nat) := (hregs.opq j).trans (Core.opq_configured _ _ j)
    exact ⟨t, q, ht, hq, (hopq _).trans (if_pos rfl), fun j hj => (hopq j).trans (if_neg hj), _, hregs⟩
  · have hruns (hcalm) := exec_aprog_runs (u := _) hop hr ⟨hi, ⟨hw, hw'⟩, ha, hsp⟩ hn rfl hcalm
    refine ⟨hruns, fun x t p hlen hiter hs hun hx hout hout' hcheck hopc hpen hcen hxlt hup hrun hprog hrun3 hxlt' hup' hcalm => ?_⟩
    have hfuel : fld (resolved aprogInfo s c sl w) 65 53 * fld (resolved aprogInfo s c sl w) 81 66 + 2 = 3 := by rw [hlen, hiter]
    have hone := State.runProgram_single (u := (s.headState aprogInfo c sl w).programmed c.val (s.headEntry aprogInfo c sl w))
      (q := s.headEntry aprogInfo c sl w) ⟨by rw [State.programmed_core], hxlt, hup, rfl, hout⟩ hlen hiter hs hun hx hcheck hopc hpen hcen hrun
      hxlt' hup' hout'
    obtain ⟨hnone, hrun3', hbyte⟩ := State.advanced_ends t c.val ((s.headEntry aprogInfo c sl w).programAfter p x)
    refine ⟨_, (hruns hcalm).trans (congrArg _ ((congrArg _ hfuel).trans hone)), hnone, _, hrun3'.trans (congrArg (· ++ _) hrun3), rfl, rfl,
      QEnt.programAfter_status _ p x, hbyte⟩

end Sys2Proof.Machine
end

section
/-! SYNC_RESPONSE (R293, R299, R300): the response of a port, and of a slot whose command it completes. -/

namespace Sys2Proof.Machine

section
variable {s t : State} {c : CoreId} {sl : SlotId} {k : Core} {x y : Slot} {w : Cmd} {r : SyncReply}

/-! ### A state in which one slot is set -/

/-- Slot sl of core c is `x` and its core otherwise `k`; the rest is as in `s`. -/
structure SlotSet (c : CoreId) (sl : SlotId) (k : Core) (s t : State) (x : Slot) : Prop where
  slot : t.slot c.val sl.val = x
  others : ∀ j, j ≠ sl.val → t.slot c.val j = s.slot c.val j
  core : ∃ ss, t.core c.val = { k with slots := ss }
  cores : ∀ d, d ≠ c.val → t.core d = s.core d
  kept : KeptBut [.cores] s t

theorem SlotSet.refl (c : CoreId) (sl : SlotId) (s : State) : SlotSet c sl (s.core c.val) s s (s.slot c.val sl.val) :=
  ⟨rfl, fun _ _ => rfl, ⟨_, rfl⟩, fun _ _ => rfl, KeptBut.refl _ s⟩

theorem SlotSet.setSlot (h : SlotSet c sl k s t x) (y : Slot) : SlotSet c sl k s (t.setSlot c.val sl.val y) y := by
  obtain ⟨ss, hcore⟩ := h.core
  have hset : (t.setSlot c.val sl.val y).core c.val = (t.core c.val).setSlot sl.val y := State.core_modCore ..
  refine ⟨State.slot_setSlot .., fun j hj => ?_, ?_, fun d hd => (State.core_modCore_ne hd t _).trans (h.cores d hd),
    h.kept.trans ((Keeps.refl t).setSlot _ _ _ rfl).kept⟩
  · rw [← h.others j hj]
    unfold State.slot
    rw [hset, Core.slot_setSlot_ne hj]
  · rw [hset, hcore]
    exact ⟨_, rfl⟩

theorem SlotSet.modSlot (h : SlotSet c sl k s t x) (f : Slot → Slot) : SlotSet c sl k s (t.modSlot c.val sl.val f) (f x) := by
  have := h.setSlot (f x)
  rwa [← h.slot] at this ⊢

/-- A change of the core that leaves its slots. -/
theorem SlotSet.modCore {f : Core → Core} (h : SlotSet c sl k s t x) (hslots : ∀ k, (f k).slots = k.slots)
    (hf : ∀ ss, ∃ ss', f { k with slots := ss } = { f k with slots := ss' }) : SlotSet c sl (f k) s (t.modCore c.val f) x := by
  obtain ⟨ss, hcore⟩ := h.core
  have hsl (j : Nat) : (t.modCore c.val f).slot c.val j = t.slot c.val j := by
    unfold State.slot Core.slot
    rw [State.core_modCore, hslots]
  refine ⟨(hsl _).trans h.slot, fun j hj => (hsl j).trans (h.others j hj), ?_, fun d hd => (State.core_modCore_ne hd t f).trans (h.cores d hd),
    h.kept.trans ((Keeps.refl t).modCore _ _ rfl).kept⟩
  rw [State.core_modCore, hcore]
  exact hf ss

/-! ### The response of a slot -/

theorem Slot.report_released (x : Slot) (q : QEnt) : ({ x with hold := .none } : Slot).report q = { x.report q with hold := .none } := by
  unfold Slot.report
  dsimp only
  split <;> rfl

/-- A sequencer command that its response ends with OK. -/
theorem State.seqDone_ok (h : SlotSet c sl k s t x) (hy : ({ x with hold := .none } : Slot).ended w (x.pc.toNat + 1) = some y)
    (hstands : y.stands (x.pc.toNat + 1)) : SlotSet c sl k s (t.seqDone c.val sl.val w stOk none) y := by
  unfold Slot.ended at hy
  dsimp only at hy
  rw [Slot.report_released] at hy
  obtain ⟨z, hz, rfl⟩ := Option.map_eq_some_iff.mp hy
  have hposted : ({ x.report { w := w, status := stOk, off := x.pc } with hold := .none } : Slot).posted w = some z := hz
  have hpc : ((t.setSlot c.val sl.val z).slot c.val sl.val).stands (x.pc.toNat + 1) := by
    rw [State.slot_setSlot]
    exact hstands
  unfold State.seqDone
  dsimp only
  rw [h.slot, hposted]
  dsimp only
  rw [show continuing stOk = false by decide, if_neg Bool.false_ne_true, Option.getD_none, State.setPc_stands hpc]
  exact (h.setSlot z).modSlot _

/-- A core in C0 that lends nothing does not change where a WAIT completes. -/
theorem State.waitDone_idle (hl : (s.core c.val).lent = none) (hc : (s.core c.val).cst = .c0) : s.waitDone c.val = s := by
  have hreclaim : s.reclaim c.val = s := by
    unfold State.reclaim
    rw [hl]
  unfold State.waitDone
  rw [hreclaim]
  unfold State.wakeCore
  simp [hc]

/-- The entry that the response of a CLAIM below LIMIT adds to the claim record (R247). -/
def Core.newClaims (k : Core) (sl : SlotId) (w : Cmd) (r : SyncReply) : List Claim :=
  if cOpc w = 0x13 ∧ r.spent = false then
    [{ id := k.nextClaim, slot := sl, ctx := (k.slot sl.val).ctx, handle := BitVec.ofNat 64 (syncHandle w), word := r.value }] else []

/-- The slot with the register that the command's response writes. -/
def Slot.answered (x : Slot) (w : Cmd) (r : SyncReply) : Slot :=
  match syncDest w with
  | some m => x.setSreg m r.value
  | none => x

/-- The core with entries added to the claim record. -/
def Core.claimed (k : Core) (l : List Claim) : Core := { k with claims := k.claims ++ l, nextClaim := k.nextClaim + l.length }

theorem Core.claimed_nil (k : Core) : k.claimed [] = k := by
  unfold Core.claimed
  rw [List.append_nil]
  rfl

theorem SlotSet.claimed (h : SlotSet c sl k s t x) (l : List Claim) : SlotSet c sl (k.claimed l) s (t.modCore c.val (·.claimed l)) x :=
  h.modCore (f := (·.claimed l)) (fun _ => rfl) fun ss => ⟨ss, rfl⟩

theorem Slot.answered_ctx (x : Slot) (w : Cmd) (r : SyncReply) : (x.answered w r).ctx = x.ctx := by
  unfold Slot.answered
  split <;> rfl

/-- The state once the register of the response is written and its claim recorded. -/
theorem State.claim_answered (h : SlotSet c sl (s.core c.val) s t ((s.slot c.val sl.val).answered w r)) :
    SlotSet c sl ((s.core c.val).claimed ((s.core c.val).newClaims sl w r)) s
      (if (cOpc w = 0x13 && !r.spent) = true then
        t.modCore c.val (fun k => { k with
          nextClaim := k.nextClaim + 1
          claims := k.claims ++ [{ id := k.nextClaim, slot := sl, ctx := (k.slot sl.val).ctx
                                   handle := BitVec.ofNat 64 (syncHandle w), word := r.value }] })
      else t) ((s.slot c.val sl.val).answered w r) := by
  unfold Core.newClaims
  by_cases hnew : cOpc w = 0x13 ∧ r.spent = false
  · rw [if_pos hnew, if_pos (by simp [hnew])]
    obtain ⟨ss, hcore⟩ := h.core
    have hctx : ((t.core c.val).slot sl.val).ctx = ((s.core c.val).slot sl.val).ctx := (congrArg Slot.ctx h.slot).trans (Slot.answered_ctx ..)
    have hnext : (t.core c.val).nextClaim = (s.core c.val).nextClaim := by rw [hcore]
    refine cast (congrArg (SlotSet c sl _ s · _) (congrArg (t.setCore c.val) ?_)) (h.claimed _)
    rw [← hctx, ← hnext]
    rfl
  · rw [if_neg hnew, Core.claimed_nil, if_neg (by simpa using hnew)]
    exact h

theorem State.slotResponse_ok (hst : r.status = stOk) (hwait : cOpc w = 0x11 → (s.core c.val).lent = none ∧ (s.core c.val).cst = .c0)
    (hy : ({ (s.slot c.val sl.val).answered w r with hold := .none } : Slot).ended w (((s.slot c.val sl.val).answered w r).pc.toNat + 1) = some y)
    (hstands : y.stands (((s.slot c.val sl.val).answered w r).pc.toNat + 1)) :
    SlotSet c sl ((s.core c.val).claimed ((s.core c.val).newClaims sl w r)) s (s.slotResponse c sl w r) y := by
  have hdone : (if cOpc w = 0x11 then s.waitDone c.val else s) = s := by
    split
    · rename_i h
      exact State.waitDone_idle (hwait h).1 (hwait h).2
    · rfl
  unfold State.slotResponse
  dsimp only
  rw [hdone, hst, show stopping stOk = false by decide, if_neg Bool.false_ne_true, if_pos rfl]
  refine State.seqDone_ok (x := (s.slot c.val sl.val).answered w r) ?_ hy hstands
  simp only [decide_true, Bool.and_true]
  refine State.claim_answered ?_
  unfold Slot.answered
  cases syncDest w with
  | none => exact .refl c sl s
  | some m => exact (SlotSet.refl c sl s).modSlot _

theorem exec_slotResponse (hhold : (s.slot c.val sl.val).hold = .sync w (some r)) :
    exec (.syncResponse (.slot c sl)) s = .next (s.slotResponse c sl w r) := by
  show Host.Outcome.next (s.syncResponse (.slot c sl)) = _
  unfold State.syncResponse
  dsimp only
  rw [hhold]

theorem exec_slotResponse_none (hhold : ∀ w r, (s.slot c.val sl.val).hold ≠ .sync w (some r)) : exec (.syncResponse (.slot c sl)) s = .next s := by
  show Host.Outcome.next (s.syncResponse (.slot c sl)) = _
  unfold State.syncResponse
  dsimp only
  split
  · rename_i w r h
    exact absurd h (hhold w r)
  · rfl

/-! ### The response of a port -/

variable {h : HcId} {n : Fin 16}

theorem State.port_setPort (s : State) (h n h' n' : Nat) (p : SyncPort) :
    (s.setPort h n p).port h' n' = if 16 * h' + n' = 16 * h + n then p else s.port h' n' := KV.get_put ..

theorem State.port_setPort_self (s : State) (h n : Nat) (p : SyncPort) : (s.setPort h n p).port h n = p :=
  (s.port_setPort h n h n p).trans (if_pos rfl)

theorem State.port_setPort_ne (s : State) {h' : HcId} {n' : Fin 16} (hne : (h', n') ≠ (h, n)) (p : SyncPort) :
    (s.setPort h.val n.val p).port h'.val n'.val = s.port h'.val n'.val := by
  refine (s.port_setPort ..).trans (if_neg fun e => hne ?_)
  exact Prod.ext (Fin.ext (show h'.val = h.val by omega)) (Fin.ext (show n'.val = n.val by omega))

theorem exec_portResponse_none (hp : (s.port h.val n.val).reply = none) : exec (.syncResponse (.port h n)) s = .next s := by
  show Host.Outcome.next (s.syncResponse (.port h n)) = _
  unfold State.syncResponse
  dsimp only
  rw [hp]

theorem portResponse_completes (hp : (s.port h.val n.val).reply = some r) : Completes (.syncResponse (.port h n)) s (fun t =>
    t.port h.val n.val = { s.port h.val n.val with busy := false, reply := none, result := r.status.setWidth 64, value := r.value } ∧
    (∀ (h' : HcId) (n' : Fin 16), (h', n') ≠ (h, n) → t.port h'.val n'.val = s.port h'.val n'.val) ∧ KeptBut [.sync] s t) := by
  refine ⟨_, ?_, State.port_setPort_self .., fun h' n' hne => State.port_setPort_ne s hne _, ((Keeps.refl s).setPort _ _ _ rfl).kept⟩
  show Host.Outcome.next (s.syncResponse (.port h n)) = _
  unfold State.syncResponse
  dsimp only
  rw [hp]

end

end Sys2Proof.Machine
end

section
/-! COMPLETION_COUNTER_ADD and SYNC_QUARANTINE_END (R223, R291, R297), and REMOTE_SYNC_TIMEOUT (R306). -/

namespace Sys2Proof.Machine

section
variable {s t : State} {f : HalfId} {a : CounterAdd} {e : SyncEnt} {ix : Nat}

theorem State.ent_setEnt (s : State) (i : Nat) (e : SyncEnt) (j : Nat) : (s.setEnt i e).ent j = if j = i then e else s.ent j := KV.get_put ..

/-! ### Objects that nothing waits on -/

/-- No record waits on an object. -/
theorem settles_none {l : List WaitRec} (h : ∀ r ∈ l, r.on ix = false) (e : SyncEnt) (taker : Bool) : settles e ix l taker = none := by
  induction l with
  | nil => rfl
  | cons r l ih =>
    unfold settles
    rw [h r List.mem_cons_self]
    exact ih fun x hx => h x (List.mem_cons_of_mem r hx)

theorem State.settleWaits_none (h : settles (s.ent ix) ix s.sync.waits false = none) (n : Nat) : s.settleWaits ix n = s := by
  cases n with
  | zero => rfl
  | succ n =>
    unfold State.settleWaits
    dsimp only
    rw [h]

/-- No half is subscribed to an object. -/
theorem State.notifySubs_none (h : ∀ m ∈ s.sync.homeSubs, m.index.toNat ≠ ix) : s.notifySubs ix = s := by
  have hmap : s.sync.homeSubs.map (fun m => if m.index.toNat = ix then { m with seq := m.seq + 1 } else m) = s.sync.homeSubs :=
    (List.map_congr_left (g := id) fun m hm => if_neg (h m hm)).trans (List.map_id _)
  have hfilter : s.sync.homeSubs.filter (fun m => decide (m.index.toNat = ix)) = [] :=
    List.filter_eq_nil_iff.mpr fun m hm => by simpa using h m hm
  unfold State.notifySubs State.sendUpdates
  dsimp only
  rw [hmap, hfilter]
  rfl

theorem State.changed_none (hw : ∀ r ∈ s.sync.waits, r.on ix = false) (hm : ∀ m ∈ s.sync.homeSubs, m.index.toNat ≠ ix) : s.changed ix = s := by
  unfold State.changed
  rw [State.settleWaits_none (settles_none hw _ _), State.notifySubs_none hm]

/-! ### Additions -/

/-- The addition fits its COUNTER: in use, its incarnation and its owner. -/
def SyncEnt.fits (e : SyncEnt) (a : CounterAdd) : Prop := e.st = .inUse ∧ e.inc = a.inc ∧ e.owner = a.ctx ∧ e.ty = tyCounter

theorem SyncEnt.fits_iff (e : SyncEnt) (a : CounterAdd) :
    (!(decide (e.st = .inUse) && e.inc = a.inc && e.owner = a.ctx && e.ty = tyCounter)) = true ↔ ¬ e.fits a := by
  rw [Bool.not_eq_true', ← Bool.not_eq_true, not_iff_not]
  unfold SyncEnt.fits
  simp [and_assoc]

/-- The state without a pending addition. -/
def State.withoutAdd (s : State) (a : CounterAdd) : State := { s with sync := { s.sync with adds := s.sync.adds.erase a } }

theorem State.withoutAdd_kept (s : State) (a : CounterAdd) : KeptBut [.sync] s (s.withoutAdd a) := ((Keeps.refl s).upd_sync rfl).kept

theorem exec_counterAdd_none (h : ∀ a ∈ s.sync.adds, homeHalf a.index.toNat ≠ f.val) : exec (.completionCounterAdd f) s = .next s := by
  have hfind : s.sync.adds.find? (fun a => homeHalf a.index.toNat = f.val) = none := List.find?_eq_none.mpr fun a ha => by simpa using h a ha
  show execCompletionCounterAdd f s = _
  unfold execCompletionCounterAdd
  rw [hfind]

theorem exec_counterAdd (h : s.sync.adds.find? (fun a => homeHalf a.index.toNat = f.val) = some a) :
    exec (.completionCounterAdd f) s = .next ((s.withoutAdd a).counterAdd a) := by
  show execCompletionCounterAdd f s = _
  unfold execCompletionCounterAdd
  rw [h]
  rfl

theorem State.counterAdd_fits (hfit : (s.ent a.index.toNat).fits a) (hw : ∀ r ∈ s.sync.waits, r.on a.index.toNat = false)
    (hm : ∀ m ∈ s.sync.homeSubs, m.index ≠ a.index) :
    s.counterAdd a = s.setEnt a.index.toNat { s.ent a.index.toNat with value := (s.ent a.index.toNat).value + 1 } := by
  unfold State.counterAdd
  dsimp only
  rw [if_neg (by rw [SyncEnt.fits_iff]; exact not_not_intro hfit)]
  exact State.changed_none hw fun m hm' e => hm m hm' (BitVec.eq_of_toNat_eq e)

theorem State.counterAdd_unfit_local (hfit : ¬ (s.ent a.index.toNat).fits a) (hsrc : a.src = none) :
    s.counterAdd a = s.discard (homeHalf a.index.toNat) := by
  unfold State.counterAdd
  dsimp only
  rw [if_pos ((SyncEnt.fits_iff _ a).mpr hfit), hsrc]

theorem State.counterAdd_unfit_remote {src : BitVec 14} (hfit : ¬ (s.ent a.index.toNat).fits a) (hsrc : a.src = some src) :
    s.counterAdd a = s.discardMsg (homeHalf a.index.toNat) (mkHandle s.selfId a.inc.toNat a.index.toNat) src.toNat := by
  unfold State.counterAdd
  dsimp only
  rw [if_pos ((SyncEnt.fits_iff _ a).mpr hfit), hsrc]

theorem homeHalf_found (h : s.sync.adds.find? (fun a => homeHalf a.index.toNat = f.val) = some a) : homeHalf a.index.toNat = f.val := by
  simpa using List.find?_some h

theorem counterAdd_adds (h : s.sync.adds.find? (fun a => homeHalf a.index.toNat = f.val) = some a) (hfit : (s.ent a.index.toNat).fits a)
    (hw : ∀ r ∈ s.sync.waits, r.on a.index.toNat = false) (hm : ∀ m ∈ s.sync.homeSubs, m.index ≠ a.index) :
    Completes (.completionCounterAdd f) s (fun t =>
      t.ent a.index.toNat = { s.ent a.index.toNat with value := (s.ent a.index.toNat).value + 1 } ∧
      (∀ i, i ≠ a.index.toNat → t.ent i = s.ent i) ∧ t.sync.adds = s.sync.adds.erase a ∧ KeptBut [.sync] s t) := by
  refine ⟨_, (exec_counterAdd h).trans (congrArg _ (State.counterAdd_fits (s := s.withoutAdd a) hfit hw hm)), ?_, fun i hi => ?_, rfl,
    (s.withoutAdd_kept a).trans ((Keeps.refl _).setEnt _ _ rfl).kept⟩
  · exact (State.ent_setEnt ..).trans (if_pos rfl)
  · exact (State.ent_setEnt ..).trans (if_neg hi)

theorem counterAdd_discards (h : s.sync.adds.find? (fun a => homeHalf a.index.toNat = f.val) = some a) (hfit : ¬ (s.ent a.index.toNat).fits a)
    (hsrc : a.src = none) : Completes (.completionCounterAdd f) s (fun t => t.sync = { s.sync with adds := s.sync.adds.erase a } ∧
      t.rg (oDiscard f.val) = BitVec.ofNat 64 (min ((s.rg (oDiscard f.val)).toNat + 1) 0xFFFFFFFF) ∧ KeptBut [.sync, .regs] s t) := by
  have hu := State.counterAdd_unfit_local (s := s.withoutAdd a) hfit hsrc
  rw [homeHalf_found h] at hu
  exact ⟨_, (exec_counterAdd h).trans (congrArg _ hu), rfl, State.rg_setRg .., ((s.withoutAdd_kept a).mono rfl).trans
    ((Keeps.refl _).discard _ rfl).kept⟩

theorem exec_counterAdd_discardMsg {src : BitVec 14} (h : s.sync.adds.find? (fun a => homeHalf a.index.toNat = f.val) = some a)
    (hfit : ¬ (s.ent a.index.toNat).fits a) (hsrc : a.src = some src) : exec (.completionCounterAdd f) s =
      .next ((s.withoutAdd a).discardMsg f.val (mkHandle s.selfId a.inc.toNat a.index.toNat) src.toNat) := by
  have hu := State.counterAdd_unfit_remote (s := s.withoutAdd a) hfit hsrc
  rw [homeHalf_found h] at hu
  exact (exec_counterAdd h).trans (congrArg _ hu)

/-! ### Quarantine -/

theorem exec_quarantineEnd_none {i : BitVec 16} (h : (s.ent i.toNat).st ≠ .quarantined) : exec (.syncQuarantineEnd i) s = .next s := by
  show execSyncQuarantineEnd i s = _
  unfold execSyncQuarantineEnd
  exact congrArg _ (if_neg h)

theorem quarantineEnd_frees {i : BitVec 16} (h : (s.ent i.toNat).st = .quarantined) : Completes (.syncQuarantineEnd i) s (fun t =>
    t.ent i.toNat = { s.ent i.toNat with st := .free } ∧ (∀ j, j ≠ i.toNat → t.ent j = s.ent j) ∧ KeptBut [.sync] s t) := by
  refine ⟨s.setEnt i.toNat { s.ent i.toNat with st := .free }, ?_, (State.ent_setEnt ..).trans (if_pos rfl),
    fun j hj => (State.ent_setEnt ..).trans (if_neg hj), ((Keeps.refl s).setEnt _ _ rfl).kept⟩
  show execSyncQuarantineEnd i s = _
  unfold execSyncQuarantineEnd
  exact congrArg _ (if_pos h)

end

end Sys2Proof.Machine
end

section
/-! WAIT_TIMEOUT (R308, R309), REMOTE_SYNC_TIMEOUT (R306) and REMOTE_STATE_POLL (R307): records that end, and the answers of their units. -/

namespace Sys2Proof.Machine

section
variable {s t u : State} {c : CoreId} {sl : SlotId} {h : HcId} {n : Fin 16} {r : SyncReply}

/-! ### Answers -/

/-- An answer changes no more of the synchronisation state than a port. -/
theorem State.reply_sync (s : State) (who : Asker) (r : SyncReply) : ∃ ps, (s.reply who r).sync = { s.sync with ports := ps } := by
  unfold State.reply
  split
  · exact ⟨_, rfl⟩
  · dsimp only
    split
    · exact ⟨_, rfl⟩
    · exact ⟨_, rfl⟩
  · exact ⟨s.sync.ports, ((Keeps.refl (l := [.fab]) s).sendRsp _ _ _ _ _ rfl).kept .sync (by decide)⟩

theorem State.reply_slot {w : Cmd} (hhold : (s.slot c.val sl.val).hold = .sync w none) (r : SyncReply) :
    ((s.reply (.unit (.slot c sl)) r).slot c.val sl.val).hold = .sync w (some r) := by
  unfold State.reply
  dsimp only
  rw [State.slot_modSlot, hhold]

theorem State.reply_slot_ne {j : Nat} (hj : j ≠ sl.val) (r : SyncReply) : (s.reply (.unit (.slot c sl)) r).slot c.val j = s.slot c.val j :=
  ((SlotSet.refl c sl s).modSlot _).others j hj

theorem State.reply_port (hb : (s.port h.val n.val).busy = true) (r : SyncReply) :
    (s.reply (.unit (.port h n)) r).port h.val n.val = { s.port h.val n.val with reply := some r } := by
  unfold State.reply
  dsimp only
  rw [if_pos hb]
  exact State.port_setPort_self ..

/-- An answer to a port changes nothing else. -/
theorem State.reply_port_kept (s : State) (h : HcId) (n : Fin 16) (r : SyncReply) : KeptBut [.sync] s (s.reply (.unit (.port h n)) r) := by
  unfold State.reply
  dsimp only
  split
  · exact ((Keeps.refl s).setPort _ _ _ rfl).kept
  · exact KeptBut.refl _ s

/-! ### A remote operation without a response -/

variable {tag : Fin 4096} {q : SyncReq}

theorem State.freeSyncReq_kept (s : State) (tag : Nat) (b : Bool) : KeptBut [.sync] s (s.freeSyncReq tag b) :=
  ((Keeps.refl s).freeSyncReq _ _ rfl).kept

theorem exec_syncTimeout_none (hreq : ∀ e ∈ s.sync.reqs, e.1 = tag.val → e.2.standing = true) : exec (.remoteSyncTimeout tag) s = .next s := by
  have hfind : s.sync.reqs.find? (fun e => e.1 = tag.val && !e.2.standing) = none :=
    List.find?_eq_none.mpr fun e he => by simpa using hreq e he
  show execRemoteSyncTimeout tag s = _
  unfold execRemoteSyncTimeout
  rw [hfind]

/-- The state in which a remote operation has timed out. -/
def State.syncTimedOut (s : State) (tag : Nat) (q : SyncReq) : State :=
  if q.posted then s.freeSyncReq tag true else (s.freeSyncReq tag true).reply (.unit q.who) { status := stTimeout }

theorem exec_syncTimeout (hreq : s.sync.reqs.find? (fun e => e.1 = tag.val && !e.2.standing) = some (tag.val, q)) :
    exec (.remoteSyncTimeout tag) s = .next (s.syncTimedOut tag.val q) := by
  show execRemoteSyncTimeout tag s = _
  unfold execRemoteSyncTimeout
  rw [hreq]
  rfl

/-- The tag is free, its next incarnation begun, and in quarantine. -/
theorem State.syncTimedOut_tag (s : State) (tag : Nat) (q : SyncReq) : (∀ e ∈ (s.syncTimedOut tag q).sync.reqs, e.1 ≠ tag) ∧
    KV.get false (s.syncTimedOut tag q).sync.tagQuar tag = true ∧
    KV.get 0 (s.syncTimedOut tag q).sync.tagInc tag = KV.get 0 s.sync.tagInc tag + 1 := by
  obtain ⟨ps, hps⟩ : ∃ ps, (s.syncTimedOut tag q).sync = { (s.freeSyncReq tag true).sync with ports := ps } := by
    unfold State.syncTimedOut
    split
    · exact ⟨_, rfl⟩
    · exact State.reply_sync ..
  rw [hps]
  refine ⟨fun e he => ?_, KV.get_put_self (d := false) s.sync.tagQuar tag true, KV.get_put_self (d := 0) s.sync.tagInc tag _⟩
  simpa using (List.mem_filter.mp he).2

theorem State.syncTimedOut_slot {w : Cmd} (hp : q.posted = false) (hw : q.who = .slot c sl) (hhold : (s.slot c.val sl.val).hold = .sync w none) (tag : Nat) :
    ((s.syncTimedOut tag q).slot c.val sl.val).hold = .sync w (some { status := stTimeout }) := by
  unfold State.syncTimedOut
  rw [hp, hw]
  exact State.reply_slot (s := s.freeSyncReq tag true) hhold _

theorem State.syncTimedOut_port (hp : q.posted = false) (hw : q.who = .port h n) (hb : (s.port h.val n.val).busy = true) (tag : Nat) :
    (s.syncTimedOut tag q).port h.val n.val = { s.port h.val n.val with reply := some { status := stTimeout } } := by
  unfold State.syncTimedOut
  rw [hp, hw]
  exact State.reply_port (s := s.freeSyncReq tag true) hb _

theorem State.syncTimedOut_posted (hp : q.posted = true) (s : State) (tag : Nat) : KeptBut [.sync] s (s.syncTimedOut tag q) := by
  unfold State.syncTimedOut
  rw [hp]
  exact s.freeSyncReq_kept tag true

/-! ### The timeout of a WAIT -/

variable {x : Waiter} {w : WaitRec}

/-- Of the synchronisation state no record, object or port changed, and of the cores nothing. -/
structure SyncQuiet (s t : State) : Prop where
  waits : t.sync.waits = s.sync.waits
  ents : t.sync.ents = s.sync.ents
  base : t.sync.base = s.sync.base
  ports : t.sync.ports = s.sync.ports
  cores : t.cores = s.cores

theorem SyncQuiet.trans (h : SyncQuiet s t) (g : SyncQuiet t u) : SyncQuiet s u :=
  ⟨g.waits.trans h.waits, g.ents.trans h.ents, g.base.trans h.base, g.ports.trans h.ports, g.cores.trans h.cores⟩

theorem SyncQuiet.of_kept {l : List Area} (hk : KeptBut l s t) (hs : Area.sync ∉ l) (hc : Area.cores ∉ l) : SyncQuiet s t := by
  have e : t.sync = s.sync := hk .sync hs
  exact ⟨by rw [e], by rw [e], by rw [e], by rw [e], hk .cores hc⟩

theorem SyncQuiet.inject (s : State) (p : Packet) : SyncQuiet s (s.inject p) :=
  .of_kept (l := [.fab]) ((Keeps.refl s).inject p rfl).kept (by decide) (by decide)

theorem SyncQuiet.injects {α : Type} (l : List α) (p : State → α → Packet) : ∀ s, SyncQuiet s (l.foldl (fun s m => s.inject (p s m)) s) := by
  induction l with
  | nil => exact fun s => ⟨rfl, rfl, rfl, rfl, rfl⟩
  | cons m l ih => exact fun s => (SyncQuiet.inject s _).trans (ih _)

theorem SyncQuiet.prune (s : State) : SyncQuiet s s.prune := by
  unfold State.prune
  dsimp only
  refine .trans ?_ (.injects _ (fun s (m : MySub) => s.endPacket m.handle m.half.val false 0 0) _)
  exact ⟨rfl, rfl, rfl, rfl, rfl⟩

theorem SyncQuiet.endTake (s : State) (x : Waiter) : SyncQuiet s (s.endTake x) := by
  unfold State.endTake
  split
  · exact ⟨rfl, rfl, rfl, rfl, rfl⟩
  · refine .trans ?_ (.inject _ _)
    exact ⟨rfl, rfl, rfl, rfl, rfl⟩

theorem SyncQuiet.ent (h : SyncQuiet s t) (i : Nat) : t.ent i = s.ent i := by
  unfold State.ent
  rw [h.ents, h.base]

theorem SyncQuiet.port (h : SyncQuiet s t) (i j : Nat) : t.port i j = s.port i j := by
  unfold State.port
  rw [h.ports]

theorem exec_waitTimeout_none (hw : ∀ w ∈ s.sync.waits, w.who = .unit x → w.timed = false) : exec (.waitTimeout x) s = .next s := by
  have hfind : s.sync.waits.find? (fun w => w.who = .unit x && w.timed) = none := List.find?_eq_none.mpr fun w hm => by simpa using hw w hm
  show Host.Outcome.next (s.waitTimeout x) = _
  unfold State.waitTimeout
  rw [hfind]

/-- The state in which a record has timed out, before its unit is told. -/
def State.waitEnded (s : State) (x : Waiter) (w : WaitRec) : State :=
  let s := s.postCtx (s.timeoutEv x w)
  let s : State := { s with sync := { s.sync with waits := s.sync.waits.erase w } }
  if w.remote && w.take then s.endTake x else s.prune

/-- A record that ends alters no other record, no object, no port, no core. -/
theorem State.waitEnded_quiet (s : State) (x : Waiter) (w : WaitRec) :
    SyncQuiet { s with sync := { s.sync with waits := s.sync.waits.erase w } } (s.waitEnded x w) := by
  have hpost : SyncQuiet s (s.postCtx (s.timeoutEv x w)) := .of_kept (l := [.host, .reported, .regs, .hif, .board, .husk])
    ((Keeps.refl s).postCtx _ rfl).kept (by decide) (by decide)
  refine SyncQuiet.trans (t := { s.postCtx (s.timeoutEv x w) with
    sync := { (s.postCtx (s.timeoutEv x w)).sync with waits := (s.postCtx (s.timeoutEv x w)).sync.waits.erase w } })
    ⟨congrArg (·.erase w) hpost.waits, hpost.ents, hpost.base, hpost.ports, hpost.cores⟩ ?_
  unfold State.waitEnded
  dsimp only
  split
  · exact .endTake _ x
  · exact .prune _

theorem State.waitEnded_kept (s : State) (x : Waiter) (w : WaitRec) : KeptBut ([.reported, .sync, .fab] ++ eventParts) s (s.waitEnded x w) := by
  have hpost := ((Keeps.refl (l := [.reported, .sync, .fab] ++ eventParts) s).postCtx (s.timeoutEv x w) rfl).upd_sync
    (v_sync := { (s.postCtx (s.timeoutEv x w)).sync with waits := (s.postCtx (s.timeoutEv x w)).sync.waits.erase w }) rfl
  unfold State.waitEnded
  dsimp only
  split
  · exact (hpost.endTake x rfl).kept
  · exact (hpost.prune rfl).kept

/-- No TAKE that stood behind the record is met. -/
def State.LastTake (s : State) (w : WaitRec) : Prop := w.take = true → w.remote = false →
  settles (s.ent (handleIx w.handle.toNat)) (handleIx w.handle.toNat) (s.sync.waits.erase w) false = none

theorem State.resettle_none {ix : Nat} (hs : settles (s.ent ix) ix s.sync.waits false = none) : s.resettle ix = s := by
  unfold State.resettle
  rw [hs]
  rfl

theorem exec_waitTimeout (hw : s.sync.waits.find? (fun w => w.who = .unit x && w.timed) = some w) (hl : s.LastTake w) :
    exec (.waitTimeout x) s = .next ((s.waitEnded x w).reply (.unit x) { status := stTimeout }) := by
  have hq := s.waitEnded_quiet x w
  obtain ⟨ps, hps⟩ := (s.waitEnded x w).reply_sync (.unit x) { status := stTimeout }
  have hent (i : Nat) : ((s.waitEnded x w).reply (.unit x) { status := stTimeout }).ent i = s.ent i := by
    unfold State.ent
    rw [hps]
    exact hq.ent i
  have hlast : (if (w.take && !w.remote) = true then
      ((s.waitEnded x w).reply (.unit x) { status := stTimeout }).resettle (handleIx w.handle.toNat)
      else (s.waitEnded x w).reply (.unit x) { status := stTimeout }) = (s.waitEnded x w).reply (.unit x) { status := stTimeout } := by
    split
    · rename_i hc
      rw [Bool.and_eq_true, Bool.not_eq_true'] at hc
      refine State.resettle_none ?_
      rw [hent, hps]
      exact (congrArg (settles _ _ · _) hq.waits).trans (hl hc.1 hc.2)
    · rfl
  show Host.Outcome.next (s.waitTimeout x) = _
  unfold State.waitTimeout
  rw [hw]
  exact congrArg _ hlast

theorem State.waitTimedOut_waits (s : State) (x : Waiter) (w : WaitRec) (r : SyncReply) :
    ((s.waitEnded x w).reply (.unit x) r).sync.waits = s.sync.waits.erase w := by
  obtain ⟨ps, hps⟩ := (s.waitEnded x w).reply_sync (.unit x) r
  rw [hps]
  exact (s.waitEnded_quiet x w).waits

theorem portTimeout_completes {w : WaitRec} (hw : s.sync.waits.find? (fun w => w.who = .unit (.port h n) && w.timed) = some w)
    (hb : (s.port h.val n.val).busy = true) (hl : s.LastTake w) : Completes (.waitTimeout (.port h n)) s (fun t =>
      t.sync.waits = s.sync.waits.erase w ∧ t.port h.val n.val = { s.port h.val n.val with reply := some { status := stTimeout } } ∧
      KeptBut ([.reported, .sync, .fab] ++ eventParts) s t) := by
  have hp : (s.waitEnded (.port h n) w).port h.val n.val = s.port h.val n.val := (s.waitEnded_quiet _ w).port ..
  refine ⟨_, exec_waitTimeout hw hl, s.waitTimedOut_waits .., ?_, (s.waitEnded_kept _ w).trans (KeptBut.mono (State.reply_port_kept _ _ _ _) rfl)⟩
  rw [State.reply_port (by rwa [hp]), hp]

theorem slotTimeout_completes {w : WaitRec} {v : Cmd} (hw : s.sync.waits.find? (fun w => w.who = .unit (.slot c sl) && w.timed) = some w)
    (hhold : (s.slot c.val sl.val).hold = .sync v none) (hl : s.LastTake w) : Completes (.waitTimeout (.slot c sl)) s (fun t =>
      t.sync.waits = s.sync.waits.erase w ∧ (t.slot c.val sl.val).hold = .sync v (some { status := stTimeout }) ∧
      (∀ j, j ≠ sl.val → t.slot c.val j = s.slot c.val j) ∧ KeptBut ([.reported, .cores, .sync, .fab] ++ eventParts) s t) := by
  have hslot (j : Nat) : (s.waitEnded (.slot c sl) w).slot c.val j = s.slot c.val j := State.slot_cores (s.waitEnded_quiet _ w).cores ..
  refine ⟨_, exec_waitTimeout hw hl, s.waitTimedOut_waits .., State.reply_slot (by rwa [hslot]) _,
    fun j hj => (State.reply_slot_ne hj _).trans (hslot j), ((s.waitEnded_kept _ w).mono rfl).trans ((Keeps.refl _).reply _ _ rfl).kept⟩

/-! ### A polled state -/

variable {f : HalfId} {handle : BitVec 64} {m : MySub} {v : Option (BitVec 240)}

/-- A record of a half that waits on a remote object. -/
def WaitRec.mine (w : WaitRec) (f : HalfId) (handle : BitVec 64) : Bool :=
  w.remote && !w.take && decide (w.handle = handle) && decide (recHalf w = some f.val)

/-- The refused subscription of a half to an object. -/
def State.refusedSub (s : State) (f : HalfId) (handle : BitVec 64) : Option MySub :=
  s.sync.mySubs.find? (fun m => m.half = f && m.handle = handle && m.refused)

theorem State.refusedSub_named (hm : s.refusedSub f handle = some m) : m.half = f ∧ m.handle = handle := by
  have := List.find?_some hm
  simp only [Bool.and_eq_true, decide_eq_true_eq] at this
  exact this.1

theorem exec_statePoll_none (hm : ∀ m ∈ s.sync.mySubs, m.half = f → m.handle = handle → m.refused = false) :
    exec (.remoteStatePoll f handle v) s = .next s := by
  have hfind : s.sync.mySubs.find? (fun m => m.half = f && m.handle = handle && m.refused) = none :=
    List.find?_eq_none.mpr fun m hm' => by simpa using hm m hm'
  show execRemoteStatePoll f handle v s = _
  unfold execRemoteStatePoll
  rw [hfind]

theorem exec_statePoll_freed (hm : s.refusedSub f handle = some m) : exec (.remoteStatePoll f handle none) s = .next (s.takeFreed m) := by
  show execRemoteStatePoll f handle none s = _
  unfold execRemoteStatePoll
  rw [show s.sync.mySubs.find? _ = some m from hm]

theorem exec_statePoll_taken {x : BitVec 240} (hm : s.refusedSub f handle = some m) :
    exec (.remoteStatePoll f handle (some x)) s = .next (s.takeUpdate m m.seq x) := by
  show execRemoteStatePoll f handle (some x) s = _
  unfold execRemoteStatePoll
  rw [show s.sync.mySubs.find? _ = some m from hm]

/-- Answers to a list of units change no more of the synchronisation state than ports. -/
theorem State.replies_sync (r : SyncReply) (l : List WaitRec) : ∀ s : State,
    ∃ ps, (l.foldl (fun s w => s.reply w.who r) s).sync = { s.sync with ports := ps } := by
  induction l with
  | nil => exact fun s => ⟨_, rfl⟩
  | cons w l ih =>
    intro s
    obtain ⟨ps, hps⟩ := s.reply_sync w.who r
    obtain ⟨ps', hps'⟩ := ih (s.reply w.who r)
    exact ⟨ps', by rw [List.foldl_cons, hps', hps]⟩

/-- Records outside the part of a list that a test picks. -/
theorem filter_not_contains (p : WaitRec → Bool) (l : List WaitRec) :
    l.filter (fun w => !(l.filter p).contains w) = l.filter (fun w => !p w) :=
  List.filter_congr fun w hw => by simp [hw]

/-- The state in which the records of a freed object have ended, before their units are told. -/
def State.recordsFreed (s : State) (m : MySub) : State :=
  { s with sync := { s.sync with waits := s.sync.waits.filter (fun w => !(s.sync.waits.filter (·.mine m.half m.handle)).contains w)
                                 mySubs := s.sync.mySubs.erase m } }

theorem State.takeFreed_eq (s : State) (m : MySub) : s.takeFreed m =
    (s.sync.waits.filter (·.mine m.half m.handle)).foldl (fun s w => s.reply w.who { status := stHandle }) (s.recordsFreed m) := rfl

theorem State.takeFreed_kept (s : State) (m : MySub) : KeptBut [.cores, .sync, .fab] s (s.takeFreed m) := by
  rw [State.takeFreed_eq]
  exact (Keeps.foldl (fun _ _ h => h.reply _ _ rfl) ((Keeps.refl s).upd_sync rfl)).kept

theorem freedPoll_completes (hm : s.refusedSub f handle = some m) : Completes (.remoteStatePoll f handle none) s (fun t =>
    t.sync.mySubs = s.sync.mySubs.erase m ∧ t.sync.waits = s.sync.waits.filter (fun w => !w.mine f handle) ∧ KeptBut [.cores, .sync, .fab] s t) := by
  obtain ⟨rfl, rfl⟩ := State.refusedSub_named hm
  refine ⟨_, exec_statePoll_freed hm, ?_⟩
  obtain ⟨ps, hps⟩ := State.replies_sync { status := stHandle } (s.sync.waits.filter (·.mine m.half m.handle)) (s.recordsFreed m)
  rw [State.takeFreed_eq, hps, ← State.takeFreed_eq]
  exact ⟨rfl, filter_not_contains _ _, s.takeFreed_kept m⟩

/-- The state in which a subscription has taken a state. -/
def State.subTaken (s : State) (m : MySub) (x : BitVec 240) : State :=
  { s with sync := { s.sync with mySubs := s.sync.mySubs.map (fun y => if y = m then { m with state := x } else y) } }

/-- An evaluation that settles no record. -/
theorem State.evalRemote_none {e : SyncEnt} (hw : ∀ w ∈ s.sync.waits, w.mine f handle = true →
    waitEval e w.target.toNat w.cond.toNat w.take = .waits) : s.evalRemote f.val handle e = s.prune := by
  have hdone : s.sync.waits.filter (fun w => w.mine f handle && decide (waitEval e w.target.toNat w.cond.toNat w.take ≠ .waits)) = [] :=
    List.filter_eq_nil_iff.mpr fun w hm => by
      simp only [Bool.and_eq_true, decide_eq_true_eq, not_and, not_not]
      exact hw w hm
  have hall : s.sync.waits.filter (fun w => !([] : List WaitRec).contains w) = s.sync.waits := List.filter_eq_self.mpr fun _ _ => rfl
  show (s.sync.waits.filter (fun w => w.mine f handle && decide (waitEval e w.target.toNat w.cond.toNat w.take ≠ .waits))).foldl _
    (State.prune { s with sync := { s.sync with waits := s.sync.waits.filter (fun w => !(s.sync.waits.filter (fun w => w.mine f handle &&
      decide (waitEval e w.target.toNat w.cond.toNat w.take ≠ .waits))).contains w) } }) = _
  rw [hdone, hall]
  rfl

theorem exec_statePoll_waits {x : BitVec 240} (hm : s.refusedSub f handle = some m)
    (hw : ∀ w ∈ s.sync.waits, w.mine f handle = true → waitEval (entOfFields m.ty m.map x) w.target.toNat w.cond.toNat w.take = .waits) :
    exec (.remoteStatePoll f handle (some x)) s = .next (s.subTaken m x).prune := by
  obtain ⟨rfl, rfl⟩ := State.refusedSub_named hm
  exact (exec_statePoll_taken hm).trans (congrArg _ (State.evalRemote_none (s := s.subTaken m x) hw))

end

end Sys2Proof.Machine
end

section
/-! CREDIT_LEND (R310, R364), and the settling of O50. -/

namespace Sys2Proof.Machine

section
variable {s : State} {c : CoreId}

/-- The core lends now. -/
def State.lends (s : State) (c : CoreId) : Bool :=
  (s.core c.val).onlyWaits && s.available c.val && !bit (s.rg oLend) 16 && (s.core c.val).lent.isNone

/-- The credit that a core of a cluster lends (R364). -/
def State.share (s : State) (k : Nat) : Nat := min ((s.cluster k).grant / max 1 (s.liveCores k)) (s.cluster k).balance.toNat

theorem exec_creditLend_none (h : s.lends c = false) : exec (.creditLend c) s = .next s := by
  show execCreditLend c s = _
  unfold execCreditLend
  exact congrArg _ (if_neg (by rw [show (_ && _) = false from h]; decide))

theorem State.cluster_setCluster_ne {j k : Nat} (h : j ≠ k) (s : State) (u : Cluster) : (s.setCluster k u).cluster j = s.cluster j := KV.get_put_ne h _ _

/-- The state in which a cluster has given up the share that a core lends. -/
def State.shared (s : State) (k : Nat) : State := s.setCluster k ((s.cluster k).move (-(s.share k : Int)))

theorem State.lend_core (s : State) (c : Nat) : (s.lend c).core c = { s.core c with lent := some (s.share (clusterOf c)) } :=
  State.core_modCore (s.shared (clusterOf c)) c (fun k => { k with lent := some (s.share (clusterOf c)) })

theorem State.lend_core_ne {d c : Nat} (h : d ≠ c) (s : State) : (s.lend c).core d = s.core d :=
  State.core_modCore_ne h (s.shared (clusterOf c)) (fun k => { k with lent := some (s.share (clusterOf c)) })

theorem creditLend_completes (h : s.lends c = true) : Completes (.creditLend c) s (fun t =>
    t.core c.val = { s.core c.val with lent := some (s.share (clusterOf c.val)) } ∧ (∀ d, d ≠ c.val → t.core d = s.core d) ∧
    t.cluster (clusterOf c.val) = (s.cluster (clusterOf c.val)).move (-(s.share (clusterOf c.val) : Int)) ∧
    (∀ j, j ≠ clusterOf c.val → t.cluster j = s.cluster j) ∧
    (∀ x, KV.get 0 t.power.pools x = KV.get 0 s.power.pools x + if x = halfOf c.val then s.share (clusterOf c.val) else 0) ∧
    KeptBut [.cores, .clusters, .power] s t) := by
  refine ⟨s.lend c.val, ?_, s.lend_core c.val, fun d hd => State.lend_core_ne hd s, State.cluster_setCluster ..,
    fun j hj => State.cluster_setCluster_ne hj s _, fun x => ?_, ((Keeps.refl s).lend _ rfl).kept⟩
  · show execCreditLend c s = _
    unfold execCreditLend
    exact congrArg _ (if_pos h)
  · refine (KV.get_put ..).trans ?_
    split
    · rename_i e
      subst e
      rfl
    · rfl

end

/-- Settles O50: each event is carried out at the one record, port, slot, object or tag that it names, and where there is none the
state stays as it is. -/
theorem syncEvents : Obligations.SyncEvents := by
  unfold Obligations.SyncEvents
  intro s c sl h n f
  refine ⟨exec_portResponse_none, fun r hp => portResponse_completes hp, exec_slotResponse_none, fun w r y hhold hst hwait hy hstands => ?_,
    exec_counterAdd_none, fun a ha => ⟨counterAdd_adds ha, fun src hfit hsrc => exec_counterAdd_discardMsg ha hfit hsrc, counterAdd_discards ha⟩,
    exec_waitTimeout_none, exec_waitTimeout_none, fun r hr hb hl => portTimeout_completes hr hb hl,
    fun r w hr hhold hl => slotTimeout_completes hr hhold hl, fun i => ⟨exec_quarantineEnd_none, quarantineEnd_frees⟩,
    fun tag => ⟨exec_syncTimeout_none, fun q hq => ?_⟩,
    fun handle x => ⟨exec_statePoll_none, fun m hm => ⟨fun hx => hx ▸ freedPoll_completes hm, fun st hx hw => hx ▸ exec_statePoll_waits hm hw⟩⟩,
    exec_creditLend_none, creditLend_completes⟩
  · obtain ⟨hslot, hothers, hcore, hcores, hkept⟩ := State.slotResponse_ok (r := r) hst hwait hy hstands
    exact ⟨_, exec_slotResponse hhold, hslot, hothers, hcore, hcores, hkept⟩
  · obtain ⟨hreqs, hquar, hinc⟩ := s.syncTimedOut_tag tag.val q
    exact ⟨_, exec_syncTimeout hq, hreqs, hquar, hinc, fun hp => State.syncTimedOut_posted hp s _,
      fun w hp hwho hhold => State.syncTimedOut_slot hp hwho hhold _, fun hp hwho hb => State.syncTimedOut_port hp hwho hb _⟩

end Sys2Proof.Machine
end

section
/-! Synchronisation commands at the sequencer (R247, R292, R293, R305): a POSTED one ends as soon as its operation is issued, any other
holds its slot, with the answer there where the operation has one already; a CLAIM first closes the claims of its slot on its handle. -/

namespace Sys2Proof.Machine

section
variable {s : State} {c : CoreId} {sl : SlotId} {w : Cmd} {o : OpInfo}

/-! ### The bodies -/

/-- An operation at home is always issued, a remote one where a tag is free (R306). -/
theorem State.syncIssue_issues {x : Waiter} {ctx : Nat} (h : syncModule w = s.selfId ∨ s.freeSyncTag.isSome = true) :
    ∃ u, s.syncIssue x ctx w = some u := by
  unfold State.syncIssue
  split
  · exact ⟨_, rfl⟩
  · rename_i hremote
    obtain ⟨tag, htag⟩ := Option.isSome_iff_exists.mp (h.resolve_left hremote)
    unfold State.syncRemote
    split
    · exact ⟨_, rfl⟩
    · rw [htag]
      exact ⟨_, rfl⟩

/-- The state in which the operation of a command that is not POSTED goes out: its token is taken, and its slot awaits the response. -/
def State.awaiting (s : State) (c : CoreId) (sl : SlotId) (r : Cmd) : State :=
  (s.tokenTaken c sl r).setSlot c.val sl.val { (s.slot c.val sl.val).takeToken r with hold := .sync r none }

theorem State.awaiting_slot (s : State) (c : CoreId) (sl : SlotId) (r : Cmd) :
    (s.awaiting c sl r).slot c.val sl.val = { (s.slot c.val sl.val).takeToken r with hold := .sync r none } := State.slot_setSlot ..

theorem calm_awaiting (hc : (s.core c.val).calm) (r : Cmd) : ((s.awaiting c sl r).core c.val).calm :=
  calm_put (calm_tokenTaken hc r) ⟨trivial, (Slot.calm_takeToken (Core.calm.slot hc sl) r).2⟩

theorem takeToken_ctx (x : Slot) (r : Cmd) : (x.takeToken r).ctx = x.ctx := by
  unfold Slot.takeToken
  dsimp only
  split <;> rfl

theorem State.ctxOf_tokenTaken (s : State) (c : CoreId) (sl : SlotId) (r : Cmd) :
    (s.tokenTaken c sl r).ctxOf c.val sl.val = (s.slot c.val sl.val).ctx.toNat := by
  unfold State.ctxOf
  rw [State.slot_tokenTaken, takeToken_ctx]

/-- A SINIT, or a handle whose reserved bits are zero, is not refused (R290). -/
theorem handle_passes (h : cOpc w = 0x15 ∨ handleOk (syncHandle w) = true) :
    (decide (cOpc w ≠ 0x15) && !handleOk (syncHandle w)) = false := by
  rcases h with h | h <;> simp [h]

theorem bodySync_posted {r : Cmd} {u : State} (hh : cOpc r = 0x15 ∨ handleOk (syncHandle r) = true) (hp : isPosted r = true)
    (hu : (s.tokenTaken c sl r).syncIssue (.slot c sl) (s.slot c.val sl.val).ctx.toNat r = some u) :
    bodySync c sl (s.tokenTaken c sl r) r = .done u stOk none := by
  unfold bodySync
  dsimp only
  rw [handle_passes hh, if_neg Bool.false_ne_true, if_pos hp, State.ctxOf_tokenTaken, hu]

theorem bodySync_issued {r : Cmd} {u : State} (hh : cOpc r = 0x15 ∨ handleOk (syncHandle r) = true) (hp : isPosted r = false)
    (hu : (s.awaiting c sl r).syncIssue (.slot c sl) (s.slot c.val sl.val).ctx.toNat r = some u) :
    bodySync c sl (s.tokenTaken c sl r) r = .issued u := by
  have hawait : (s.tokenTaken c sl r).modSlot c.val sl.val (fun x => { x with hold := .sync r none }) = s.awaiting c sl r := by
    unfold State.modSlot
    rw [State.slot_tokenTaken]
    rfl
  unfold bodySync
  dsimp only
  rw [handle_passes hh, if_neg Bool.false_ne_true, if_neg (by simp [hp]), State.ctxOf_tokenTaken, hawait, hu]

/-! ### The commands -/

/-- A POSTED command: the slot awaits nothing, so the operation leaves it as it is and the command ends (R293). -/
theorem sync_posted {i : Instr} (hi : exec i s = .next (s.seqCmd c sl w o (bodySync c sl))) (hc : (s.core c.val).calm)
    (hr : Ready o s c sl w) (ht : TokenThere (s.slot c.val sl.val) (resolved o s c sl w))
    (hh : cOpc (resolved o s c sl w) = 0x15 ∨ handleOk (syncHandle (resolved o s c sl w)) = true)
    (hm : syncModule (resolved o s c sl w) = s.selfId ∨ s.freeSyncTag.isSome = true) (hp : isPosted (resolved o s c sl w) = true) :
    let x := s.slot c.val sl.val
    let r := resolved o s c sl w
    ∃ u, (s.tokenTaken c sl r).syncIssue (.slot c sl) x.ctx.toNat r = some u ∧ SeqEffect i s u c sl r (x.takeToken r) (x.pc.toNat + 1) := by
  intro x r
  obtain ⟨u, hu⟩ := State.syncIssue_issues (s := s.tokenTaken c sl r) (x := .slot c sl) (ctx := x.ctx.toNat) hm
  have hwakes := Wakes.syncIssue hu
  have hnone : ((s.tokenTaken c sl r).slot c.val sl.val).hold = .none := by rw [State.slot_tokenTaken, takeToken_hold]
  have hslot : u.slot c.val sl.val = x.takeToken r :=
    (hwakes.slot_same fun v e => Hold.noConfusion (hnone.symm.trans e)).trans (State.slot_tokenTaken ..)
  have heffect := SeqEffect.of_body (pc := none) hi hr ht (bodySync_posted hh hp hu) hslot rfl (hwakes.calm (calm_tokenTaken hc r))
  rw [Option.getD_none, takeToken_pc] at heffect
  exact ⟨u, hu, heffect⟩

/-- Any other command: its slot holds it, and the operation can have answered nothing but that slot's wait (R292, R293). -/
theorem sync_holds {i : Instr} {s₀ : State} {body : State → Cmd → SeqRes} (hi : exec i s₀ = .next (s.seqCmd c sl w o body))
    (hb : body (s.tokenTaken c sl (resolved o s c sl w)) (resolved o s c sl w) =
      bodySync c sl (s.tokenTaken c sl (resolved o s c sl w)) (resolved o s c sl w))
    (hc : (s.core c.val).calm) (hr : Ready o s c sl w) (ht : TokenThere (s.slot c.val sl.val) (resolved o s c sl w))
    (hh : cOpc (resolved o s c sl w) = 0x15 ∨ handleOk (syncHandle (resolved o s c sl w)) = true)
    (hm : syncModule (resolved o s c sl w) = s.selfId ∨ s.freeSyncTag.isSome = true) (hp : isPosted (resolved o s c sl w) = false) :
    let x := s.slot c.val sl.val
    let r := resolved o s c sl w
    ∃ u, (s.awaiting c sl r).syncIssue (.slot c sl) x.ctx.toNat r = some u ∧
      Completes i s₀ (fun t => t = u.issued c.val sl.val ∧ ∃ a, t.slot c.val sl.val = { x.takeToken r with hold := .sync r a }) := by
  intro x r
  obtain ⟨u, hu⟩ := State.syncIssue_issues (s := s.awaiting c sl r) (x := .slot c sl) (ctx := x.ctx.toNat) hm
  have hwakes := Wakes.syncIssue hu
  have hcmd : s.seqCmd c sl w o body = u.issued c.val sl.val :=
    (State.seqCmd_issued hr ht (hb.trans (bodySync_issued hh hp hu))).trans
      (State.afterCore_calm (calm_issued (hwakes.calm (calm_awaiting hc r))))
  refine ⟨u, hu, _, hi.trans (congrArg _ hcmd), rfl, ?_⟩
  rw [State.issued_slot]
  rcases hwakes.slot c.val sl.val with hsame | ⟨v, a, hhold, hanswered⟩
  · exact ⟨none, hsame.trans (State.awaiting_slot ..)⟩
  · rw [State.awaiting_slot] at hhold hanswered
    cases hhold
    exact ⟨some a, hanswered⟩

/-! ### CLAIM -/

/-- The state in which the claims of a slot that satisfy `p` are closed. -/
def State.claimsShut (s : State) (c : CoreId) (sl : SlotId) (p : Claim → Bool) : State :=
  s.setCore c.val ((s.core c.val).closeClaims sl.val p)

theorem State.claimsShut_core (s : State) (c : CoreId) (sl : SlotId) (p : Claim → Bool) :
    (s.claimsShut c sl p).core c.val = (s.core c.val).closeClaims sl.val p := State.core_setCore ..

theorem State.claimsShut_slot (s : State) (c : CoreId) (sl : SlotId) (p : Claim → Bool) (j : Nat) :
    (s.claimsShut c sl p).slot c.val j = s.slot c.val j := by
  unfold State.slot
  rw [State.claimsShut_core]
  rfl

theorem calm_claimsShut (hc : (s.core c.val).calm) (p : Claim → Bool) : ((s.claimsShut c sl p).core c.val).calm := by
  rw [State.claimsShut_core]
  exact ⟨hc.1, hc.2.1, hc.2.2⟩

theorem resolved_claimsShut (o : OpInfo) (s : State) (c : CoreId) (sl : SlotId) (w : Cmd) (p : Claim → Bool) :
    resolved o (s.claimsShut c sl p) c sl w = resolved o s c sl w := by
  unfold resolved
  rw [State.claimsShut_slot]

/-- Claims play no part in what the sequencer serves. -/
theorem State.seqReady_claimsShut (s : State) (c : CoreId) (sl : SlotId) (w : Cmd) (p : Claim → Bool) :
    (s.claimsShut c sl p).seqReady c.val sl.val w = s.seqReady c.val sl.val w := by
  unfold State.seqReady
  rw [State.claimsShut_core]
  rfl

theorem Ready.claimsShut (hr : Ready o s c sl w) (p : Claim → Bool) : Ready o (s.claimsShut c sl p) c sl w := by
  obtain ⟨hready, hform, hwithin⟩ := hr
  refine ⟨(s.seqReady_claimsShut c sl w p).trans hready, hform, ?_⟩
  rwa [resolved_claimsShut, State.claimsShut_slot]

theorem State.closeFor_ready (h : s.seqReady c.val sl.val w = true) :
    s.closeFor c.val sl.val w = s.claimsShut c sl (fun e => e.handle.toNat = syncHandle (resolved claimInfo s c sl w)) := by
  unfold State.closeFor
  rw [if_pos h]
  rfl

/-- A slot that is given another value, and that holds nothing, counts for no CLAIM on its way. -/
theorem Core.claiming_setSlot_le {k : Core} {i : Nat} {x : Slot} (hact : x.active = (k.slot i).active) (hh : x.hold = .none) :
    (k.setSlot i x).claiming ≤ k.claiming := by
  have hactive : activeSlots (k.setSlot i x) = activeSlots k := by
    refine List.filter_congr fun j _ => ?_
    by_cases hj : j = i
    · subst hj
      rw [Core.slot_setSlot, hact]
    · rw [Core.slot_setSlot_ne hj]
  unfold Core.claiming
  rw [hactive]
  refine (List.monotone_filter_right _ fun j hclaims => ?_).length_le
  by_cases hj : j = i
  · subst hj
    rw [Core.slot_setSlot, hh] at hclaims
    exact absurd hclaims Bool.false_ne_true
  · rwa [Core.slot_setSlot_ne hj] at hclaims

theorem takeToken_active (x : Slot) (r : Cmd) : (x.takeToken r).active = x.active := by
  unfold Slot.takeToken
  dsimp only
  split <;> rfl

/-- A CLAIM goes out where the claim record has room for its entry (R247). -/
theorem bodyClaim_room {r : Cmd} (h : (s.core c.val).claims.length + (s.core c.val).claiming < 8) :
    bodyClaim c sl (s.tokenTaken c sl r) r = bodySync c sl (s.tokenTaken c sl r) r := by
  have hcore : (s.tokenTaken c sl r).core c.val = (s.core c.val).setSlot sl.val ((s.slot c.val sl.val).takeToken r) := State.core_modCore ..
  have hclaims : ((s.core c.val).setSlot sl.val ((s.slot c.val sl.val).takeToken r)).claims = (s.core c.val).claims := rfl
  have hclaiming := Core.claiming_setSlot_le (k := s.core c.val) (i := sl.val) (takeToken_active (s.slot c.val sl.val) r)
    (takeToken_hold _ r)
  unfold bodyClaim
  rw [hcore, hclaims]
  exact if_neg (by omega)

theorem isPosted_claim (h : cOpc w = 0x13) : isPosted w = false := by
  unfold isPosted
  rw [h]
  rfl

/-- CLAIM closes the claims of its slot on its handle, and then holds the slot as the other commands do (R247, R300). -/
theorem claim_holds (hc : (s.core c.val).calm) (hop : opcIs w 0x13 = true) (hr : Ready claimInfo s c sl w)
    (ht : TokenThere (s.slot c.val sl.val) (resolved claimInfo s c sl w)) (hh : handleOk (syncHandle (resolved claimInfo s c sl w)) = true)
    (hm : syncModule (resolved claimInfo s c sl w) = s.selfId ∨ s.freeSyncTag.isSome = true) :
    let x := s.slot c.val sl.val
    let r := resolved claimInfo s c sl w
    let d := s.claimsShut c sl (fun e => e.handle.toNat = syncHandle r)
    (d.core c.val).claims.length + (d.core c.val).claiming < 8 →
    ∃ u, (d.awaiting c sl r).syncIssue (.slot c sl) x.ctx.toNat r = some u ∧
      Completes (.claim c sl w) s (fun t => t = u.issued c.val sl.val ∧ ∃ a, t.slot c.val sl.val = { x.takeToken r with hold := .sync r a }) := by
  intro x r d hroom
  have hres : resolved claimInfo d c sl w = r := resolved_claimsShut ..
  have hslot : d.slot c.val sl.val = x := State.claimsShut_slot ..
  have hopc : cOpc r = 0x13 := (claimInfo.resolve_opc x w (by decide)).trans (opcIs_opc hop)
  have hi : exec (.claim c sl w) s = .next (d.seqCmd c sl w claimInfo (bodyClaim c sl)) :=
    (answer_true hop _).trans (by rw [State.closeFor_ready hr.1])
  have hholds := sync_holds hi (bodyClaim_room hroom) (calm_claimsShut hc _) (hr.claimsShut _)
    (by rwa [hres, hslot]) (.inr (by rwa [hres])) (by rwa [hres]) (by rw [hres]; exact isPosted_claim hopc)
  rwa [hres, hslot] at hholds

/-- The five synchronisation commands other than CLAIM run the same body. -/
theorem exec_sync {i : Instr} (h : (i, o) ∈ [(Instr.arrive c sl w, arriveInfo), (Instr.wait c sl w, waitInfo),
      (Instr.signal c sl w, signalInfo), (Instr.sinit c sl w, sinitInfo), (Instr.sfree c sl w, sfreeInfo)])
    (hw : wellFormed i = true) : exec i s = .next (s.seqCmd c sl w o (bodySync c sl)) := by
  simp only [List.mem_cons, Prod.mk.injEq, List.not_mem_nil, or_false] at h
  obtain ⟨rfl, rfl⟩ | ⟨rfl, rfl⟩ | ⟨rfl, rfl⟩ | ⟨rfl, rfl⟩ | ⟨rfl, rfl⟩ := h <;> exact answer_true hw _

end

/-- Settles O13: a POSTED command ends in its own step, any other and CLAIM hold their slot for the response. -/
theorem syncCommandsIssue : Obligations.SyncCommandsIssue := by
  refine ⟨?_, ?_⟩
  · intro s c sl w i o hc hio hwf hr x r ht hh hm d
    have hi := exec_sync (s := s) hio hwf
    exact ⟨sync_posted hi hc hr ht hh hm, sync_holds hi rfl hc hr ht hh hm⟩
  · intro s c sl w hc hop hr x r k ht hh hm hroom d
    have hholds := claim_holds hc hop hr ht hh hm (by rwa [State.claimsShut_core])
    unfold State.awaiting State.tokenTaken at hholds
    rwa [State.claimsShut_slot] at hholds

end Sys2Proof.Machine
end

section
/-! DSET, DUPD, DNORM and DREAD as the access engine takes them (R268, R273): the parts that go out, and the Damsons that they
reach. -/

namespace Sys2Proof.Machine

section
variable {s t u : State} {c : CoreId} {sl : SlotId} {w : Cmd} {o : OpInfo} {i : Instr} {n : Nat} {q : QEnt}

/-! ### Parts and the Damsons that they reach -/

theorem State.dam_setDam_ne {j k : Nat} (h : j ≠ k) (s : State) (d : Damson) : (s.setDam k d).dam j = s.dam j := KV.get_put_ne h _ _

theorem State.dam_congr (h : t.damsons = s.damsons) (k : Nat) : t.dam k = s.dam k := by
  unfold State.dam
  rw [h]

/-- The image that goes out with the part of a command for Damson k: none but of a DSET without CLRMON is read. -/
def State.partImage (d : State) (c : CoreId) (w : Cmd) (k : Nat) : BitVec 1024 :=
  if cOpc w = 0x68 ∧ bit w 75 = false then BitVec.ofNat 1024 (d.num (slabKey c.val (dmBase w + 128 * k)) 128) else 0

/-- The part of a command for Damson k. -/
def State.damsonPart (d : State) (c : CoreId) (q : QEnt) (k : Nat) : Part :=
  { core := c, slot := q.slot, off := q.off, ctx := (d.slot c.val q.slot.val).ctx, id := d.fab.nextId + 1, w := q.w
    seed := hSeed (d.slot c.val q.slot.val).hdr, image := d.partImage c q.w k }

/-- A Damson that a part has reached: it is the last of its descriptor parts or of its update parts. -/
def Damson.given (d : Damson) (p : Part) : Damson :=
  if cOpc p.w = 0x68 || cOpc p.w = 0x6B then { d with descr := d.descr ++ [p] } else { d with updates := d.updates ++ [p] }

/-- Each Damson of a list is given its part. -/
def State.give (s : State) (p : Nat → Part) (ks : List Nat) : State := ks.foldl (fun s k => s.setDam k ((s.dam k).given (p k))) s

theorem State.give_kept (s : State) (p : Nat → Part) (ks : List Nat) : KeptBut [.damsons] s (s.give p ks) :=
  (Keeps.foldl (fun _ _ h => h.setDam _ _ rfl) (Keeps.refl s)).kept

theorem State.dam_give (p : Nat → Part) {ks : List Nat} (h : ks.Nodup) (s : State) (k : Nat) :
    (s.give p ks).dam k = if k ∈ ks then (s.dam k).given (p k) else s.dam k := by
  induction ks generalizing s with
  | nil => rfl
  | cons j l ih =>
    obtain ⟨hj, hl⟩ := List.nodup_cons.mp h
    refine (ih hl (s.setDam j ((s.dam j).given (p j)))).trans ?_
    by_cases e : k = j
    · subst e
      rw [if_neg hj, State.dam_setDam, if_pos List.mem_cons_self]
    · simp [State.dam_setDam_ne e, e]

/-- Steps that each give a Damson its part, as long as the registers stand, come to giving all of them theirs. -/
theorem State.foldl_eq_give {f : State → Nat → State} {p : Nat → Part} : ∀ {ks : List Nat} {s : State},
    (∀ v k, v.regs = s.regs → k ∈ ks → f v k = v.setDam k ((v.dam k).given (p k))) → ks.foldl f s = s.give p ks
  | [], _, _ => rfl
  | k :: l, s, h => by
    rw [List.foldl_cons, h s k rfl List.mem_cons_self]
    exact State.foldl_eq_give fun v j hv hj => h v j hv (List.mem_cons_of_mem _ hj)

theorem dmNamed_nodup (w : Cmd) : (dmNamed w).Nodup := List.Nodup.filter _ List.nodup_range

/-! ### The parts are sent -/

/-- The ranges of a command's entries in the slabs of its core. -/
def dmRanges (w : Cmd) : List (Nat × Nat) := (dmNamed w).map (fun k => (dmBase w + k * dmEntry w, dmEntry w))

theorem leNat_replicate_zero (n : Nat) : leNat (List.replicate n 0) = 0 := by
  induction n with
  | zero => rfl
  | succ n ih =>
    rw [List.replicate_succ, leNat, ih]
    rfl

/-- The images of a command whose entries are sound are read as they stand. -/
theorem State.images_sound (h : s.soundAll c (dmRanges w) = true) (ctx : Nat) :
    ∃ l u, s.images c.val ctx w = (l, stOk, u) ∧ RegsOnly c (s.core c.val) s u ∧
      ∀ k ∈ dmNamed w, BitVec.ofNat 1024 (leNat (pieceAt l (dmBase w + 128 * k) 128)) = s.partImage c w k := by
  unfold State.images State.partImage
  by_cases hc : cOpc w = 0x68 ∧ bit w 75 = false
  · have hr : (dmNamed w).map (fun k => (dmBase w + 128 * k, 128)) = dmRanges w := by
      simp [dmRanges, dmEntry, hc.1, Nat.mul_comm]
    obtain ⟨u, hu, hk⟩ := State.engReads_sound (c := c) ctx _ s h
    rw [hc.1, hc.2, hr, hu]
    refine ⟨_, _, rfl, hk, fun k hm => ?_⟩
    rw [if_pos ⟨rfl, rfl⟩, pieceAt_mem (hr ▸ List.mem_map.mpr ⟨k, hm, rfl⟩)]
    rfl
  · refine ⟨[], s, if_neg (by simpa using hc), .refl c s, fun k _ => ?_⟩
    rw [if_neg hc]
    exact congrArg _ (leNat_replicate_zero 128)

/-- The state once the parts of a command are sent. -/
def State.damsonSent (s : State) (c : CoreId) (q : QEnt) (u : State) : State :=
  State.give { u with fab := { s.fab with nextId := s.fab.nextId + 1 } } (s.damsonPart c q) (dmNamed q.w)

/-- The entry of a command whose parts are sent. -/
def State.sentEntry (s : State) (q : QEnt) : QEnt := { q with id := s.fab.nextId + 1, sent := 1, await := dmNamed q.w }

theorem State.issueDamson_sent (hcut : ∀ k ∈ dmNamed q.w, s.cut c.val (damsonRouter k 0) = false) (h : s.soundAll c (dmRanges q.w) = true) :
    ∃ u, s.issueDamson c.val q = .sent (s.damsonSent c q u) (s.sentEntry q) ∧ RegsOnly c (s.core c.val) s u := by
  obtain ⟨l, u, hu, hk, himage⟩ := State.images_sound h (s.slot c.val q.slot.val).ctx.toNat
  have hoff : (dmNamed q.w).any (fun k => s.slabOff c.val (dmBase q.w + k * dmEntry q.w) (dmEntry q.w)) = false := by
    refine List.any_eq_false.mpr fun k hm => ?_
    have hr := List.all_eq_true.mp h _ (List.mem_map.mpr ⟨k, hm, rfl⟩)
    rw [Bool.and_eq_true] at hr
    simp [State.slabOff_sound hr.1 hr.2]
  have hregs : u.regs = s.regs := hk.2 .regs (by decide)
  have hfab : u.fab = s.fab := hk.2 .fab (by decide)
  refine ⟨u, ?_, hk⟩
  unfold State.issueDamson
  dsimp only
  rw [hoff, if_neg Bool.false_ne_true, hu]
  dsimp only
  rw [if_neg (by decide), hfab]
  refine congrArg (Issue.sent · _) (State.foldl_eq_give (p := s.damsonPart c q) fun v k hv hm => ?_)
  rw [dif_pos c.isLt, himage k hm, State.cut_congr (hv.trans hregs), hcut k hm, if_neg Bool.false_ne_true]
  exact (apply_ite (v.setDam k) _ _ _).symm

/-! ### The commands -/

/-- The four commands have their rows in the access engine. -/
theorem engineRow_damson (hi : engineRow i = some (c, sl, w, o, n)) (hn : 0x68 ≤ n ∧ n ≤ 0x6B) : o.engine = 3 ∧ o.tame = true := by
  revert hn
  cases i <;> cases hi <;> decide

theorem startAccess_damson (hd : 0x68 ≤ cOpc q.w ∧ cOpc q.w ≤ 0x6B) (hz : (s.core c.val).hazard c.val q.w = false) :
    startAccess s c.val q = startDamson s c.val q := by
  have hq : isDamson q.w = true := by simp [isDamson, hd]
  unfold startAccess
  rw [hz, if_neg Bool.false_ne_true]
  split
  · omega
  · omega
  · omega
  · rw [if_pos hq]

theorem dmCheck_go (hn : dmNamed w ≠ []) (ha : dmBase w % dmEntry w = 0) (h : s.soundAll c (dmRanges w) = true) : dmCheck w = .go := by
  refine checks_go rfl (by simpa using hn) (decide_eq_true ha) (List.all_eq_true.mpr fun k hm => ?_)
  exact (Bool.and_eq_true_iff.mp (List.all_eq_true.mp h _ (List.mem_map.mpr ⟨k, hm, rfl⟩))).1

/-- A command that the access engine takes while no other is in execution goes out to the Damsons named. -/
theorem startDamson_go (hn : dmNamed q.w ≠ []) (hcut : ∀ k ∈ dmNamed q.w, s.cut c.val (damsonRouter k 0) = false)
    (ha : dmBase q.w % dmEntry q.w = 0) (h : s.soundAll c (dmRanges q.w) = true) (hrun : ∀ e ∈ (s.core c.val).run 3, isDamson e.w = false) :
    ∃ u, startDamson s c.val q = .go (s.damsonSent c q u) (s.sentEntry q) ∧ RegsOnly c (s.core c.val) s u := by
  obtain ⟨u, hu, hk⟩ := State.issueDamson_sent hcut h
  refine ⟨u, ?_, hk⟩
  unfold startDamson
  rw [dmCheck_go hn ha h]
  dsimp only
  rw [if_neg (by simpa using hrun), hu]

/-- What sending leaves but for the Damsons named. -/
theorem State.damsonSent_rest (h : RegsOnly c (s.core c.val) s u) (q : QEnt) : CoreIs c (s.core c.val) s (s.damsonSent c q u) ∧
    KeptBut [.cores, .fab, .damsons] s (s.damsonSent c q u) ∧ (s.damsonSent c q u).fab = { s.fab with nextId := s.fab.nextId + 1 } := by
  have hg : KeptBut [.damsons] { u with fab := { s.fab with nextId := s.fab.nextId + 1 } } (s.damsonSent c q u) := State.give_kept _ _ _
  have hcores : (s.damsonSent c q u).cores = u.cores := hg .cores (by decide)
  obtain ⟨⟨hk, ho⟩, hrest⟩ := h
  refine ⟨?_, ?_, ?_⟩
  · unfold CoreIs
    simp only [State.core_congr hcores]
    exact ⟨hk, ho⟩
  · exact (hrest.mono rfl).trans ((((Keeps.refl u).upd_fab (l := [.fab]) rfl).kept.mono rfl).trans (hg.mono rfl))
  · exact hg .fab (by decide)

theorem State.damsonSent_dam (h : RegsOnly c (s.core c.val) s u) (q : QEnt) (k : Nat) :
    (s.damsonSent c q u).dam k = if k ∈ dmNamed q.w then (s.dam k).given (s.damsonPart c q k) else s.dam k := by
  have hd : State.dam { u with fab := { s.fab with nextId := s.fab.nextId + 1 } } k = s.dam k := State.dam_congr (h.2 .damsons (by decide)) k
  unfold State.damsonSent
  rw [State.dam_give _ (dmNamed_nodup q.w), hd]

end

/-- Settles O43: past the checks of R211 the images are read from sound bytes (`State.images_sound`), and each Damson named, none of
them twice, is given its part (`State.dam_give`). -/
theorem damsonCommands : Obligations.DamsonCommands := by
  intro i s c sl w o n hi h1 h2 hop hr d r x hn hcut ha hsound hrun
  obtain ⟨he, ht⟩ := engineRow_damson hi ⟨h1, h2⟩
  have hopc : cOpc (s.headEntry o c sl w).w = n := State.headEntry_opc ht hop s c sl
  obtain ⟨u, hgo, hk⟩ := startDamson_go (q := s.headEntry o c sl w) hn hcut ha hsound hrun
  have hstart : startOn d c.val o.engine (s.headEntry o c sl w) = .go (d.damsonSent c (s.headEntry o c sl w) u) (d.sentEntry (s.headEntry o c sl w)) := by
    rw [he]
    exact (startAccess_damson (q := s.headEntry o c sl w) (by rw [hopc]; exact ⟨h1, h2⟩) hr.unheld).trans hgo
  obtain ⟨hcore, hkept, hfab⟩ := State.damsonSent_rest hk (s.headEntry o c sl w)
  refine Starts.of_go (exec_engineRow hi hop s) hr.toHeadReady hstart (Ctl.of_start_go hgo ((Ctl.refl d).startDamson _ _)) ?_
    ⟨rfl, rfl, rfl, hcore, hkept, hfab, fun k _ => ⟨d.damsonPart c (s.headEntry o c sl w) k, rfl, rfl, rfl, rfl, rfl, rfl, rfl, rfl,
      fun hset hclr => ?_, ?_⟩⟩
  · show cOpc (s.headEntry o c sl w).w ≠ 0x5A
    omega
  · exact if_pos ⟨hopc.trans hset, hclr⟩
  · rw [State.damsonSent_dam hk]
    unfold Damson.given
    rw [show cOpc (State.damsonPart d c (s.headEntry o c sl w) k).w = n from hopc]
    simp only [Bool.or_eq_true, decide_eq_true_eq]
    rfl

end Sys2Proof.Machine
end

section
/-! Requests at the channels of the slow tier (R260 to R265): what a request of sound bytes is answered and stores, and what becomes
of one that its channel refuses. -/

namespace Sys2Proof.Machine

section
variable {s t u : State} {r : TierReq} {ch off o n pa : Nat} {a : Reply} {d : List Byte}

/-! ### Channels -/

theorem State.chan_setChan_ne {j k : Nat} (h : j ≠ k) (s : State) (x : Channel) : (s.setChan k x).chan j = s.chan j := KV.get_put_ne h _ _

theorem State.chan_congr (h : t.channels = s.channels) (k : Nat) : t.chan k = s.chan k := by
  unfold State.chan
  rw [h]

theorem State.line_setLine (s : State) (key : Nat) (l : LineTag) : (s.setLine key l).line key = l := KV.get_put_self ..

theorem State.setChan_kept (s : State) (k : Nat) (x : Channel) : KeptBut [.channels] s (s.setChan k x) := ((Keeps.refl s).setChan _ _ rfl).kept

theorem State.setTierReply_kept (s : State) (a : Reply) : KeptBut [.hif] s (s.setTierReply a) := ((Keeps.refl s).setTierReply _ rfl).kept

/-- A count of refusals reads back, zero among them. -/
@[simp] theorem Channel.refusals_setRefusals (x : Channel) (r : TierReq) (n : Nat) : (x.setRefusals r n).refusals r = n := by
  unfold Channel.refusals Channel.setRefusals
  by_cases h : n = 0
  · subst h
    dsimp only
    rw [if_pos rfl, List.find?_eq_none.mpr fun e he => by simpa using (List.mem_filter.mp he).2]
  · simp [h]

/-! ### Reads of a sound half (R261) -/

theorem State.tierHalf_good (ctx : Nat) (hm : s.tierMap (pa / 32 * 32) = some (ch, o)) (hr : s.selfRefresh ch = false)
    (ht : (s.line (tierKey ch o)).torn = false) (hp : (s.line (tierKey ch o)).poison = false) (hc : KV.get 0 s.chk (tierKey ch o / 32) = 0) :
    s.tierHalf ctx pa = ⟨s.bytes (tierKey ch o) 32, stOk, s⟩ := by
  unfold State.tierHalf
  rw [hm]
  dsimp only
  rw [hr, ht, hp, hc]
  rfl

/-- Bytes within one good half read as they stand. -/
theorem State.readTier_half (ctx : Nat) (hn : 1 ≤ n) (hin : pa % 32 + n ≤ 32) (hm : s.tierMap (pa / 32 * 32) = some (ch, o))
    (hr : s.selfRefresh ch = false) (ht : (s.line (tierKey ch o)).torn = false) (hp : (s.line (tierKey ch o)).poison = false)
    (hc : KV.get 0 s.chk (tierKey ch o / 32) = 0) : s.readTier ctx pa n = ⟨s.bytes (tierKey ch o + pa % 32) n, stOk, s⟩ := by
  have hhalf := State.tierHalf_good (pa := pa / 32 * 32) ctx (by rwa [Nat.mul_div_cancel _ (by decide)]) hr ht hp hc
  unfold State.readTier
  rw [if_neg (by omega), show (pa + n - 1) / 32 - pa / 32 + 1 = 1 by omega]
  unfold State.tierHalves
  dsimp only
  rw [hhalf]
  unfold State.tierHalves
  dsimp only
  rw [if_pos rfl, List.append_nil, State.bytes_drop _ _ _ _ (by omega), State.bytes_take _ _ _ _ (by omega)]

/-! ### Writes of a whole line (R260 to R262) -/

/-- A write of a whole line of the interleaved space stores the line. -/
theorem State.writeTier_line (ctx : Nat) (hd : d.length = 64) (ha : pa % 64 = 0) (hlow : pa < 0x80000000000) (hm : s.tierMap pa = some (ch, off))
    (hr : s.selfRefresh ch = false) : s.writeTier ctx pa d = (stOk, s.storeLine ch off d false) := by
  have hline : s.writeLine ctx pa d false = (stOk, s.storeLine ch off d false) := by
    unfold State.writeLine
    dsimp only
    rw [show pa / 64 * 64 = pa by omega, hm]
    dsimp only
    rw [if_pos hd, hr]
    dsimp only
    rw [if_neg Bool.false_ne_true, if_pos rfl, if_neg (by omega)]
  have hne : d.isEmpty = false := by
    cases d
    · cases hd
    · rfl
  unfold State.writeTier
  rw [hd]
  unfold State.writeLines
  rw [hne, if_neg Bool.false_ne_true]
  dsimp only
  rw [ha, List.take_of_length_le (by omega), List.drop_of_length_le (by omega), hline]
  unfold State.writeLines
  rfl

/-- A line is stored with right check bytes, its tag the epoch in force; every other byte is as it was. -/
structure LineStored (ch off : Nat) (d : List Byte) (s t : State) : Prop where
  bytes : ∀ a, t.byte a = if tierKey ch off ≤ a ∧ a < tierKey ch off + 64 then d.getD (a - tierKey ch off) 0 else s.byte a
  line : t.line (tierKey ch off) = { epoch := BitVec.ofNat 24 (s.rf (oEpoch (ch / 2)) 23 0), poison := false }
  chk : KV.get 0 t.chk (tierKey ch off / 32) = 0 ∧ KV.get 0 t.chk (tierKey ch off / 32 + 1) = 0

theorem tierKey_mod (ch : Nat) (h : off % 64 = 0) : tierKey ch off % 64 = 0 := by
  unfold tierKey
  omega

theorem State.storeLine_stored (hd : d.length = 64) (ho : off % 64 = 0) (s : State) : LineStored ch off d s (s.storeLine ch off d false) := by
  have hkey := tierKey_mod ch ho
  let v := s.storeHalf (tierKey ch off / 32) (d.take 32) false
  let u := v.storeHalf (tierKey ch off / 32 + 1) (d.drop 32) false
  have hfirst : Wrote s v (tierKey ch off) (d.take 32) :=
    State.storeHalf_wrote (by simp; omega) (by omega) (by simp; omega)
      (fun i hi => by simp only [show tierKey ch off - 32 * (tierKey ch off / 32) + i = i by omega]) (fun j hj hc => by simp at hc; omega)
  have hsecond : Wrote v u (tierKey ch off + (d.take 32).length) (d.drop 32) := by
    have hlen : (d.take 32).length = 32 := by simp; omega
    rw [hlen]
    exact State.storeHalf_wrote (by simp; omega) (by omega) (by simp; omega)
      (fun i hi => by simp only [show tierKey ch off + 32 - 32 * (tierKey ch off / 32 + 1) + i = i by omega]) (fun j hj hc => by simp at hc; omega)
  have hw := hfirst.append hsecond
  rw [List.take_append_drop] at hw
  have hchk : u.chk = KV.put 0 (KV.put 0 s.chk (tierKey ch off / 32) 0) (tierKey ch off / 32 + 1) 0 := by
    simp only [u, v, State.storeHalf_rest]
  have hregs : u.regs = s.regs := hw.kept .regs (by decide)
  refine ⟨fun a => ?_, ?_, ?_⟩
  · show u.byte a = _
    split
    · rename_i h
      obtain ⟨i, rfl⟩ : ∃ i, a = tierKey ch off + i := ⟨a - tierKey ch off, by omega⟩
      rw [hw.inside i (by omega), Nat.add_sub_cancel_left, List.getD_eq_getElem _ _ (by omega)]
    · exact hw.outside a (by omega)
  · refine (State.line_setLine u _ _).trans ?_
    exact congrArg (fun e => ({ epoch := BitVec.ofNat 24 e, poison := false } : LineTag)) (State.rf_congr (State.rg_congr hregs _) 23 0)
  · show KV.get 0 u.chk _ = 0 ∧ KV.get 0 u.chk _ = 0
    rw [hchk, KV.get_put_ne (by omega), KV.get_put_self, KV.get_put_self]
    exact ⟨rfl, rfl⟩

/-! ### A request that its channel takes (R264, R266) -/

/-- The state at which a channel takes a request: it has not been refused. -/
def State.taking (s : State) (ch : Nat) (r : TierReq) : State := s.setChan ch ((s.chan ch).setRefusals r 0)

/-- A request at a channel of the slow tier is answered, or its answer waits in the pool while the channel pauses. -/
def TierAnswered (s : State) (ch : Nat) (r : TierReq) (t : State) (a : Reply) : Prop :=
  ((s.chan ch).paused = false → t.hif.tierReply = a ∧ (t.chan ch).pool = (s.chan ch).pool) ∧
  ((s.chan ch).paused = true → t.hif.tierReply = s.hif.tierReply ∧ ∃ old, (t.chan ch).pool = (s.chan ch).pool ++
    [{ req := r, epoch := BitVec.ofNat 24 (s.rf (oEpoch (ch / 2)) 23 0), old := old, reply := a }])

/-- A request takes effect as it enters the pool (logs 17 and 20): what the pool adds is the answer, given or kept. -/
theorem State.enterPool_answers (h : (s.taking ch r).serveTier ch r = (a, u)) (hu : KeptBut [.mem, .host, .chk, .reported, .lines, .mems] (s.taking ch r) u) :
    TierAnswered s ch r ((s.taking ch r).enterPool ch r) a ∧ KeptBut [.channels, .hif] u ((s.taking ch r).enterPool ch r) := by
  have hchan : (s.taking ch r).chan ch = (s.chan ch).setRefusals r 0 := State.chan_setChan ..
  have hkeep : u.chan ch = (s.chan ch).setRefusals r 0 := (State.chan_congr (hu .channels (by decide)) ch).trans hchan
  have hhif : u.hif = s.hif := hu .hif (by decide)
  have hpause : ((s.taking ch r).chan ch).paused = (s.chan ch).paused := by rw [hchan]; rfl
  unfold TierAnswered State.enterPool
  rw [h, hpause]
  dsimp only
  cases hp : (s.chan ch).paused with
  | false =>
    rw [if_neg Bool.false_ne_true]
    refine ⟨⟨fun _ => ⟨rfl, (congrArg Channel.pool hkeep :)⟩, fun h => nomatch h⟩, (u.setTierReply_kept a).mono rfl⟩
  | true =>
    rw [if_pos rfl]
    refine ⟨⟨fun h => (nomatch h), fun _ => ⟨congrArg Hif.tierReply hhif, ?_⟩⟩, (u.setChan_kept ch _).mono rfl⟩
    rw [State.chan_setChan, hchan]
    exact ⟨_, rfl⟩

/-- What a request meets: it is in form, at a channel, and the Damson of that is not in reset. -/
structure TierUp (s : State) (r : TierReq) (ch off : Nat) : Prop where
  map : s.tierMap r.pa.toNat = some (ch, off)
  form : r.op.inWord r.pa.toNat = true
  awake : s.selfRefresh ch = false

theorem exec_slowTierRequest (h : r.op.inWord r.pa.toNat = true) : exec (.slowTierRequest r) s = .next (s.tierRequest r) :=
  if_neg (by rw [h]; decide)

theorem exec_bankRetry (h : r.op.inWord r.pa.toNat = true) : exec (.bankRetry r) s = .next (s.retryAgain r) :=
  if_neg (by rw [h]; decide)

/-- A request that its channel takes enters the pool. -/
theorem TierUp.exec_takes (h : TierUp s r ch off) (ht : s.poolTakes (s.chan ch) r.client off = true) :
    exec (.slowTierRequest r) s = .next ((s.taking ch r).enterPool ch r) := by
  rw [exec_slowTierRequest h.form]
  unfold State.tierRequest
  rw [h.map]
  dsimp only
  rw [h.awake, ht]
  rfl

theorem TierUp.read_completes (h : TierUp s r ch off) (ht : s.poolTakes (s.chan ch) r.client off = true) (hop : r.op = .read n)
    (hin : r.pa.toNat % 32 + n ≤ 32) (hm : s.tierMap (r.pa.toNat / 32 * 32) = some (ch, o)) (htorn : (s.line (tierKey ch o)).torn = false)
    (hp : (s.line (tierKey ch o)).poison = false) (hc : KV.get 0 s.chk (tierKey ch o / 32) = 0) :
    Completes (.slowTierRequest r) s (fun t => TierAnswered s ch r t (.data (s.bytes (tierKey ch o + r.pa.toNat % 32) n)) ∧
      KeptBut [.channels, .hif] s t) := by
  have hn : 1 ≤ n := by
    have hf := h.form
    rw [hop] at hf
    simp only [Access.inWord, Bool.and_eq_true, decide_eq_true_eq] at hf
    exact hf.1
  have hserve : (s.taking ch r).serveTier ch r = (.data (s.bytes (tierKey ch o + r.pa.toNat % 32) n), s.taking ch r) := by
    unfold State.serveTier
    rw [hop]
    dsimp only
    rw [State.readTier_half (s := s.taking ch r) _ hn hin hm h.awake htorn hp hc]
    exact Prod.ext (congrArg Reply.data (State.bytes_congr (s := s) (t := s.taking ch r) (fun _ => rfl) _ n)) rfl
  obtain ⟨hans, hk⟩ := State.enterPool_answers hserve (KeptBut.refl _ _)
  exact ⟨_, h.exec_takes ht, hans, ((s.setChan_kept ch _).mono rfl).trans hk⟩

theorem TierUp.write_completes (h : TierUp s r ch off) (ht : s.poolTakes (s.chan ch) r.client off = true) (hop : r.op = .write d)
    (hd : d.length = 64) (ha : r.pa.toNat % 64 = 0) (hlow : r.pa.toNat < 0x80000000000) (ho : off % 64 = 0) :
    Completes (.slowTierRequest r) s (fun t => TierAnswered s ch r t .done ∧ LineStored ch off d s t) := by
  have hserve : (s.taking ch r).serveTier ch r = (.done, (s.taking ch r).storeLine ch off d false) := by
    unfold State.serveTier
    rw [hop]
    dsimp only
    rw [State.writeTier_line (s := s.taking ch r) _ hd ha hlow h.map h.awake, if_neg (by simp)]
    rfl
  obtain ⟨hans, hk⟩ := State.enterPool_answers hserve (((Keeps.refl _).storeLine _ _ _ _ rfl).kept)
  obtain ⟨hb, hl, hc⟩ := State.storeLine_stored (ch := ch) hd ho (s.taking ch r)
  refine ⟨_, h.exec_takes ht, hans, fun b => ?_, ?_, ?_⟩
  · rw [hk.byte (by decide) (by decide), hb]
    rfl
  · unfold State.line
    rw [hk .lines (by decide)]
    exact hl
  · rw [hk .chk (by decide)]
    exact hc

/-! ### A request that is refused, or lost (R235, R265, R285) -/

/-- The state in which a request of a channel has been refused n times in a row. -/
def State.refusing (s : State) (ch : Nat) (r : TierReq) (n : Nat) : State :=
  (s.setChan ch ((s.chan ch).setRefusals r n)).countRetry r.client

theorem State.refusing_kept (s : State) (ch : Nat) (r : TierReq) (n : Nat) : KeptBut [.channels, .cores] s (s.refusing ch r n) :=
  (((Keeps.refl s).setChan _ _ rfl).countRetry _ rfl).kept

theorem State.refusing_refusals (s : State) (ch : Nat) (r : TierReq) (n : Nat) : ((s.refusing ch r n).chan ch).refusals r = n := by
  have hk := (Keeps.refl (l := [.cores]) (s.setChan ch ((s.chan ch).setRefusals r n))).countRetry r.client rfl
  rw [show (s.refusing ch r n).chan ch = _ from State.chan_congr (hk.kept .channels (by decide)) ch, State.chan_setChan,
    Channel.refusals_setRefusals]

theorem TierUp.refused_completes (h : TierUp s r ch off) (ht : s.poolTakes (s.chan ch) r.client off = false) :
    Completes (.slowTierRequest r) s (fun t => t.hif.tierReply = .status stRetry ∧ (t.chan ch).refusals r = (s.chan ch).refusals r + 1 ∧
      KeptBut [.channels, .hif, .cores] s t) := by
  refine ⟨(s.refusing ch r ((s.chan ch).refusals r + 1)).setTierReply (.status stRetry), ?_, rfl, s.refusing_refusals ch r _,
    ((s.refusing_kept ch r _).mono rfl).trans ((State.setTierReply_kept _ _).mono rfl)⟩
  rw [exec_slowTierRequest h.form]
  unfold State.tierRequest
  rw [h.map]
  dsimp only
  rw [h.awake, ht]
  rfl

/-- A request of the host to a Damson in reset is lost. -/
theorem exec_slowTierRequest_lost (hm : s.tierMap r.pa.toNat = some (ch, off)) (hf : r.op.inWord r.pa.toNat = true)
    (hr : s.selfRefresh ch = true) (hc : r.client = .host) :
    exec (.slowTierRequest r) s = .next (s.setTierReply (match r.op with | .read _ => .aborted | .write _ => .dropped)) := by
  rw [exec_slowTierRequest hf]
  unfold State.tierRequest State.lostReply
  rw [hm, hc]
  dsimp only
  rw [hr, if_pos rfl]
  cases r.op <;> rfl

/-- A request that was refused, sent again: taken, failed, or refused once more. -/
theorem TierUp.retryAgain (h : TierUp s r ch off) (hn : (s.chan ch).refusals r ≠ 0) : s.retryAgain r =
    if s.poolTakes (s.chan ch) r.client off then (s.taking ch r).enterPool ch r
    else if 255 ≤ (s.chan ch).refusals r ∧ !neverFails r.client then (s.refusing ch r 0).retryFails ch off r
    else s.refusing ch r ((s.chan ch).refusals r + 1) := by
  unfold State.retryAgain
  rw [h.map]
  dsimp only
  rw [if_neg hn, h.awake]
  rfl

theorem TierUp.refusedAgain_completes (h : TierUp s r ch off) (ht : s.poolTakes (s.chan ch) r.client off = false)
    (hn : (s.chan ch).refusals r ≠ 0) (hlt : (s.chan ch).refusals r < 255) :
    Completes (.bankRetry r) s (fun t => (t.chan ch).refusals r = (s.chan ch).refusals r + 1 ∧ KeptBut [.channels, .cores] s t) := by
  refine ⟨_, ?_, s.refusing_refusals ch r _, s.refusing_kept ch r _⟩
  rw [exec_bankRetry h.form, h.retryAgain hn, ht, if_neg Bool.false_ne_true, if_neg (by omega)]

/-- A read of the host that is refused for the 256th time in a row is aborted. -/
theorem TierUp.failed_completes (h : TierUp s r ch off) (ht : s.poolTakes (s.chan ch) r.client off = false)
    (hn : 255 ≤ (s.chan ch).refusals r) (hc : r.client = .host) (hop : r.op = .read n) :
    Completes (.bankRetry r) s (fun t => t.hif.tierReply = .aborted ∧ (t.chan ch).refusals r = 0 ∧ KeptBut [.channels, .hif] s t) := by
  have hhost : s.refusing ch r 0 = s.taking ch r := by
    unfold State.refusing
    rw [hc]
    rfl
  refine ⟨(s.taking ch r).setTierReply .aborted, ?_, rfl, ?_, ((s.setChan_kept ch _).mono rfl).trans ((State.setTierReply_kept _ _).mono rfl)⟩
  · rw [exec_bankRetry h.form, h.retryAgain (by omega), ht, if_neg Bool.false_ne_true, if_pos ⟨hn, by rw [hc]; rfl⟩, hhost]
    unfold State.retryFails
    rw [hc, hop]
  · rw [← hhost]
    exact s.refusing_refusals ch r 0

theorem TierUp.exec_retry (h : TierUp s r ch off) (ht : s.poolTakes (s.chan ch) r.client off = true) (hn : (s.chan ch).refusals r ≠ 0) :
    exec (.bankRetry r) s = .next ((s.taking ch r).enterPool ch r) := by
  rw [exec_bankRetry h.form, h.retryAgain hn, if_pos ht]

end

end Sys2Proof.Machine
end

section
/-! Pauses of a channel (R266), the patrol scrubber (R267), the training of the slow tier (R254, R255), and the settling of O48. -/

namespace Sys2Proof.Machine

section
variable {s t : State} {c : ChanId} {x : Channel}

/-! ### Pauses -/

/-- The answers that waited are given in their order: the last one stands. -/
theorem State.foldl_setTierReply (s : State) (l : List Pooled) :
    l.foldl (fun s e => s.setTierReply e.reply) s = s.setTierReply (l.getLast?.elim s.hif.tierReply (fun e => e.reply)) := by
  induction l using List.reverseRecOn with
  | nil => rfl
  | append_singleton l e ih =>
    rw [List.foldl_append, ih, List.getLast?_concat]
    rfl

/-- The pause of a channel ends as its flags are `x`'s: the pool is empty, and the last answer stands. -/
def PauseEnds (s : State) (c : ChanId) (x : Channel) (t : State) : Prop :=
  t.chan c.val = { x with pool := [] } ∧
  t.hif.tierReply = (s.chan c.val).pool.getLast?.elim s.hif.tierReply (fun e => e.reply) ∧
  (∀ d, d ≠ c.val → t.chan d = s.chan d) ∧ KeptBut [.channels, .hif] s t

theorem State.drainPool_paused (h : x.paused = true) : (s.setChan c.val x).drainPool c.val = s.setChan c.val x := by
  unfold State.drainPool
  dsimp only
  rw [State.chan_setChan, if_pos h]

theorem State.drainPool_ends (h : x.paused = false) (hp : x.pool = (s.chan c.val).pool) : PauseEnds s c x ((s.setChan c.val x).drainPool c.val) := by
  have hk := ((Keeps.refl (l := [.channels, .hif]) s).setChan c.val x rfl).drainPool c.val rfl
  have he : (s.setChan c.val x).drainPool c.val = ((s.setChan c.val x).setChan c.val { x with pool := [] }).setTierReply
      ((s.chan c.val).pool.getLast?.elim s.hif.tierReply (fun e => e.reply)) := by
    unfold State.drainPool
    dsimp only
    rw [State.chan_setChan, h, if_neg Bool.false_ne_true, State.foldl_setTierReply, hp]
    rfl
  refine ⟨?_, ?_, fun d hd => ?_, hk.kept⟩
  · rw [he]
    exact State.chan_setChan ..
  · rw [he]
    rfl
  · rw [he]
    exact (State.chan_setChan_ne hd _ _).trans (State.chan_setChan_ne hd s _)

/-- A channel retrains unless the other one of its Damson does. -/
theorem exec_retrains {b : Bool} (h : (b && (s.chan (if c.val % 2 = 0 then c.val + 1 else c.val - 1)).retrain) = false) :
    exec (.onlineRetraining c b) s = .next ((s.setChan c.val { s.chan c.val with retrain := b }).drainPool c.val) :=
  congrArg _ (if_neg (ne_true_of_eq_false h))

/-! ### The patrol scrubber -/

/-- A good line is left as it is. -/
theorem State.scrubLine_good {ch off : Nat} (ht : (s.line (tierKey ch off)).torn = false) (hp : (s.line (tierKey ch off)).poison = false)
    (h0 : KV.get 0 s.chk (tierKey ch off / 32) = 0) (h1 : KV.get 0 s.chk (tierKey ch off / 32 + 1) = 0) : s.scrubLine ch off = s := by
  have hd : dcheck 0 = .good := if_pos rfl
  have hlow : KV.get 0 s.chk (tierKey ch off / 32 + 0) = 0 := by rw [Nat.add_zero, h0]
  unfold State.scrubLine
  simp only [ht, hp, hlow, h1, hd]
  rfl

/-- The channel has DIMMs to scrub, and its next line is good. -/
structure ScrubGood (s : State) (c : ChanId) : Prop where
  runs : (s.chan c.val).paused = false
  awake : s.selfRefresh c.val = false
  here : s.populated c.val = true
  torn : (s.line (tierKey c.val (64 * (s.chan c.val).scrub))).torn = false
  poison : (s.line (tierKey c.val (64 * (s.chan c.val).scrub))).poison = false
  low : KV.get 0 s.chk (tierKey c.val (64 * (s.chan c.val).scrub) / 32) = 0
  high : KV.get 0 s.chk (tierKey c.val (64 * (s.chan c.val).scrub) / 32 + 1) = 0

theorem ScrubGood.exec (h : ScrubGood s c) : exec (.patrolScrub c) s = .next
    (if s.dimmGib * gib / 64 ≤ (s.chan c.val).scrub + 1 then
      (s.setChan c.val { s.chan c.val with scrub := 0 }).bumpHalf (oDmsScrub c.val) 0 1
    else s.setChan c.val { s.chan c.val with scrub := (s.chan c.val).scrub + 1 }) := by
  refine congrArg Host.Outcome.next ((if_neg ?_).trans ?_)
  · simp [h.runs, h.awake, h.here]
  · dsimp only
    rw [State.scrubLine_good h.torn h.poison h.low h.high]

theorem ScrubGood.next_completes (h : ScrubGood s c) (hl : (s.chan c.val).scrub + 1 < s.dimmGib * gib / 64) :
    Completes (.patrolScrub c) s (fun t => t.chan c.val = { s.chan c.val with scrub := (s.chan c.val).scrub + 1 } ∧ KeptBut [.channels] s t) :=
  ⟨_, h.exec.trans (congrArg _ (if_neg (by omega))), State.chan_setChan .., s.setChan_kept _ _⟩

/-- The last line of the channel ends the pass, which is counted. -/
theorem ScrubGood.last_completes (h : ScrubGood s c) (hl : s.dimmGib * gib / 64 ≤ (s.chan c.val).scrub + 1) :
    Completes (.patrolScrub c) s (fun t => t.chan c.val = { s.chan c.val with scrub := 0 } ∧ KeptBut [.channels, .regs] s t) :=
  ⟨_, h.exec.trans (congrArg _ (if_pos hl)), State.chan_setChan .., (((Keeps.refl s).setChan _ _ rfl).bumpHalf _ _ _ rfl).kept⟩

/-! ### Training -/

variable {ds : List Dimm} {failed : List (BitVec 20)}

theorem exec_ddrTraining (h : ds.length = 20) : exec (.ddrTraining ds failed) s = .next (s.trainTier ds failed) := if_neg (by simpa using h)

/-- Ten DIMMs, of twenty places. -/
def tenDimms (ds : List Dimm) : Bool := decide ((ds.filter (fun d => d.present)).length = 10)

/-- The first of a population, which the others equal. -/
def firstDimm (ds : List Dimm) : Dimm := ds.getD 0 ⟨false, false, 0, 0, 1⟩

/-- The slow tier as a training that ends at the first rate leaves it, but for its readiness record. -/
def State.trained' (s : State) (ds : List Dimm) : State :=
  State.setRg { s with dimmGib := (firstDimm ds).gib, dimmBanks := (firstDimm ds).banks } oPop
    (BitVec.ofNat 64 ((if tenDimms ds then 2 ^ 23 else 0) + 2 ^ 24 + 0 * 2 ^ 26))

theorem State.trained'_aon (s : State) (ds : List Dimm) : (s.trained' ds).aon = s.aon := State.setRg_aon ..

theorem State.trainTier_ok (hok : populationOk ds = true) (hf : failedAt (tenDimms ds) failed 0 = 0) :
    s.trainTier ds failed = (s.trained' ds).raiseReady rdTier := by
  have hfind : (List.range 3).find? (fun i => decide (failedAt (tenDimms ds) failed i = 0)) = some 0 :=
    List.find?_cons_of_pos (l := [1, 2]) (decide_eq_true hf)
  unfold State.trainTier
  rw [hok]
  dsimp only
  rw [if_neg (by decide)]
  change (match (List.range 3).find? (fun i => decide (failedAt (tenDimms ds) failed i = 0)) with
    | some i => _
    | none => _) = _
  rw [hfind]
  unfold State.trained' tenDimms
  simp only [decide_eq_true_eq]
  rfl

theorem State.evqOn_congr {q : Nat} (h : t.rg (oEvqCtl q) = s.rg (oEvqCtl q)) : t.evqOn q = s.evqOn q := by
  unfold State.evqOn
  rw [h]

/-- An item that is met while queue 0 is disabled: its bit is set, and its record is held. -/
def State.holdsReady (s : State) (item : Nat) : State :=
  { s.setRf oReady item item 1 with hif := { s.hif with held := s.hif.held.filter (fun e => e.1 ≠ item) ++ [(item, s.aon)] } }

theorem State.raiseReady_held (h : s.evqOn 0 = false) (item : Nat) : s.raiseReady item = s.holdsReady item := by
  have hoff : (s.setRf oReady item item 1).evqOn 0 = false := (State.evqOn_congr (State.rg_setRf_ne (by decide) ..)).trans h
  unfold State.raiseReady
  dsimp only
  rw [hoff, if_neg Bool.false_ne_true]
  rfl

theorem State.holdsReady_held (s : State) (item : Nat) : (item, s.aon) ∈ (s.holdsReady item).hif.held :=
  List.mem_append_right _ List.mem_cons_self

theorem State.holdsReady_rg (s : State) (item o : Nat) : (s.holdsReady item).rg o = (s.setRf oReady item item 1).rg o := State.rg_congr rfl o

theorem trained_completes (hl : ds.length = 20) (hok : populationOk ds = true) (hf : failedAt (tenDimms ds) failed 0 = 0) (hq : s.evqOn 0 = false) :
    Completes (.ddrTraining ds failed) s (fun t => t.tierReady = true ∧ t.mode10 = tenDimms ds ∧ t.rf oReady 2 2 = 1 ∧
      (rdTier, s.aon) ∈ t.hif.held ∧ t.dimmGib = (firstDimm ds).gib ∧ t.dimmBanks = (firstDimm ds).banks) := by
  have hregs : State.rg { s with dimmGib := (firstDimm ds).gib, dimmBanks := (firstDimm ds).banks } (oEvqCtl 0) = s.rg (oEvqCtl 0) :=
    State.rg_congr rfl _
  have hoff : (s.trained' ds).evqOn 0 = false := (State.evqOn_congr ((State.rg_setRg_ne (by decide) _ _).trans hregs)).trans hq
  have hpop : ((s.trained' ds).holdsReady rdTier).rg oPop = BitVec.ofNat 64 ((if tenDimms ds then 2 ^ 23 else 0) + 2 ^ 24 + 0 * 2 ^ 26) := by
    rw [State.holdsReady_rg, State.rg_setRf_ne (by decide)]
    exact State.rg_setRg ..
  have hheld := State.holdsReady_held (s.trained' ds) rdTier
  rw [State.trained'_aon] at hheld
  refine ⟨_, (exec_ddrTraining hl).trans (congrArg _ ((State.trainTier_ok hok hf).trans (State.raiseReady_held hoff rdTier))), ?_, ?_, ?_,
    hheld, rfl, rfl⟩
  · unfold State.tierReady
    rw [hpop]
    cases tenDimms ds <;> decide
  · unfold State.mode10
    rw [hpop]
    cases tenDimms ds <;> decide
  · exact (State.rf_congr (State.holdsReady_rg ..) 2 2).trans (State.rf_setRf_one _ oReady (by decide))

end

/-- Settles O48: a request takes effect as it enters the pool (`State.enterPool_answers`; logs 17 and 20), the answers that waited are
given in their order (`State.foldl_setTierReply`), and the scrubber stores nothing where it finds a line good. -/
theorem tierEvents : Obligations.TierEvents := by
  intro s
  refine ⟨fun r ch off hm => ?_, fun c b => ?_, fun ds failed hl => ⟨fun hno => ?_, fun hok hf hq => trained_completes hl hok hf hq⟩⟩
  · intro x e up Reply
    have hup (h : up) : TierUp s r ch off := ⟨hm, h.1, h.2⟩
    refine ⟨fun h ht => ⟨fun n o hop hin hmap htorn hp hc => (hup h).read_completes ht hop hin hmap htorn hp hc,
        fun d hop hd ha hlow ho => ?_⟩, exec_slowTierRequest_lost hm,
      fun h ht => ⟨(hup h).refused_completes ht, (hup h).refusedAgain_completes ht, fun n => (hup h).failed_completes ht⟩,
      fun h => (hup h).exec_retry⟩
    obtain ⟨t, he, hans, hst⟩ := (hup h).write_completes ht hop hd ha hlow ho
    exact ⟨t, he, hans, hst.bytes, hst.line, hst.chk⟩
  · intro y Ends
    have hends {i : Instr} {x : Channel} (he : exec i s = .next ((s.setChan c.val x).drainPool c.val)) (h : x.paused = false)
        (hp : x.pool = y.pool) : Ends i x := ⟨_, he, State.drainPool_ends h hp⟩
    refine ⟨fun hb => ?_, fun hb hr => ?_, fun hb hr => ?_, And.intro (fun hb ho => ?_) ⟨fun hb ho => ?_, fun hb hr => ?_, fun hb hr => ?_⟩,
      fun hrun hup hpop ht hp h0 h1 =>
        ⟨ScrubGood.next_completes ⟨hrun, hup, hpop, ht, hp, h0, h1⟩, ScrubGood.last_completes ⟨hrun, hup, hpop, ht, hp, h0, h1⟩⟩⟩ <;> subst hb
    · exact congrArg _ (State.drainPool_paused rfl)
    · exact congrArg _ (State.drainPool_paused (x := { y with refresh := false }) (Bool.or_eq_true_iff.mpr (.inr hr)))
    · exact hends rfl hr rfl
    · exact congrArg _ (if_pos ho)
    · exact (exec_retrains (by rw [ho]; rfl)).trans (congrArg _ (State.drainPool_paused (Bool.or_true _)))
    · exact (exec_retrains rfl).trans (congrArg _ (State.drainPool_paused (Bool.or_eq_true_iff.mpr (.inl hr))))
    · exact hends (exec_retrains rfl) ((Bool.or_false _).trans hr) rfl
  · exact ⟨_, (exec_ddrTraining hl).trans (congrArg _ (if_pos (by rw [hno]; rfl))), State.rg_setRg .., ((Keeps.refl s).setRg _ _ rfl).kept⟩

end Sys2Proof.Machine
end

section
/-! The split and the epochs of the Damsons (R257, R262), and the parts of Damson commands at their Damson (R273, R274, R279, R280,
R282). -/

namespace Sys2Proof.Machine

section
variable {s t u : State} {a : Agent} {k : DamId} {v : BitVec 32} {p : Part} {l : List Part} {r : RunPart}

/-! ### The split and the epochs -/

theorem State.freeRunning_idle {j : Nat} (h : (s.dam j).running = none) : s.freeRunning j = s := by
  unfold State.freeRunning
  rw [h]

theorem State.freeAllRunning_idle (h : ∀ j, j < 10 → (s.dam j).running = none) : s.freeAllRunning = s :=
  List.foldlRecOn (motive := fun t : State => t = s) _ _ rfl fun _ ht j hj =>
    (congrArg (State.freeRunning · j) ht).trans (State.freeRunning_idle (h j (List.mem_range.mp hj)))

/-- While no Damson runs an update a write of the split changes only the split. -/
theorem State.writeSplit_idle (h : ∀ j, j < 10 → (s.dam j).running = none) : (s.writeSplit v).rf oSplit 8 0 = min (fld v 8 0) s.dimmGib ∧
    (∀ o, o ≠ oSplit → (s.writeSplit v).rg o = s.rg o) ∧ KeptBut [.regs] s (s.writeSplit v) := by
  unfold State.writeSplit
  dsimp only
  split
  · rename_i he
    exact ⟨he.symm, fun _ _ => rfl, .refl _ _⟩
  · have hi : ∀ j, j < 10 → ((s.setRf oSplit 8 0 (min (fld v 8 0) s.dimmGib)).dam j).running = none := h
    rw [State.freeAllRunning_idle h, State.freeAllRunning_idle hi]
    refine ⟨?_, fun o ho => State.rg_setRf_ne ho .., ((Keeps.refl s).setRf _ _ _ _ rfl).kept⟩
    rw [State.rf_setRf _ _ _ (by decide) (by decide)]
    exact Nat.mod_eq_of_lt (lt_of_le_of_lt (Nat.min_le_left ..) (Nat.mod_lt _ (by decide)))

theorem State.epoch_setRf (s : State) (o : Nat) (v : BitVec 32) : (s.setRf o 23 0 (fld v 23 0)).rf o 23 0 = fld v 23 0 := by
  rw [State.rf_setRf _ _ _ (by decide) (by decide)]
  exact Nat.mod_eq_of_lt (Nat.mod_lt _ (by decide))

theorem oEpoch_inj {i j : Nat} (h : oEpoch i = oEpoch j) : i = j := by
  unfold oEpoch at h
  omega

/-- The epochs of a list of Damsons are set. -/
def State.setEpochs (s : State) (v : BitVec 32) (ks : List Nat) : State := ks.foldl (fun s k => s.setRf (oEpoch k) 23 0 (fld v 23 0)) s

theorem State.setEpochs_kept (s : State) (v : BitVec 32) (ks : List Nat) : KeptBut [.regs] s (s.setEpochs v ks) :=
  (Keeps.foldl (fun _ _ h => h.setRf _ _ _ _ rfl) (Keeps.refl s)).kept

theorem State.rg_setEpochs_ne {o : Nat} {ks : List Nat} (h : ∀ j ∈ ks, o ≠ oEpoch j) : (s.setEpochs v ks).rg o = s.rg o :=
  List.foldlRecOn (motive := fun t : State => t.rg o = s.rg o) _ _ rfl fun _ ht j hj => (State.rg_setRf_ne (h j hj) ..).trans ht

theorem State.rf_setEpochs {j : Nat} {ks : List Nat} (h : j ∈ ks) : (s.setEpochs v ks).rf (oEpoch j) 23 0 = fld v 23 0 := by
  induction ks generalizing s with
  | nil => cases h
  | cons i l ih =>
    by_cases hl : j ∈ l
    · exact ih hl
    · obtain rfl : j = i := (List.mem_cons.mp h).resolve_right hl
      have hrest : ∀ i ∈ l, oEpoch j ≠ oEpoch i := fun i hi he => hl (oEpoch_inj he ▸ hi)
      exact (State.rf_congr (State.rg_setEpochs_ne hrest) 23 0).trans (s.epoch_setRf (oEpoch j) v)

theorem dmsSplit_completes (hp : s.permits a .dmsSplit 0 = true) (hl : s.locked = false) (h : ∀ j, j < 10 → (s.dam j).running = none) :
    Completes (.dmsSplit a v) s (fun t => t.rf oSplit 8 0 = min (fld v 8 0) s.dimmGib ∧ (∀ o, o ≠ oSplit → t.rg o = s.rg o) ∧
      KeptBut [.regs] s t) := by
  refine ⟨s.writeSplit v, congrArg Host.Outcome.next ?_, State.writeSplit_idle h⟩
  rw [hp, hl]
  rfl

theorem dmsEpoch_completes (hp : s.permits a .dmsEpoch k.val = true) : Completes (.dmsEpoch a k v) s (fun t =>
    t.rf (oEpoch k.val) 23 0 = fld v 23 0 ∧ (∀ o, o ≠ oEpoch k.val → t.rg o = s.rg o) ∧ KeptBut [.regs] s t) :=
  ⟨_, congrArg Host.Outcome.next (if_pos hp), s.epoch_setRf _ v, fun _ ho => State.rg_setRf_ne ho .., ((Keeps.refl s).setRf _ _ _ _ rfl).kept⟩

theorem dmsEpochAll_completes (hp : s.permits a .dmsEpochAll 0 = true) : Completes (.dmsEpochAll a v) s (fun t =>
    (∀ j, j < 10 → t.rf (oEpoch j) 23 0 = fld v 23 0) ∧ (∀ o, (∀ j, j < 10 → o ≠ oEpoch j) → t.rg o = s.rg o) ∧ KeptBut [.regs] s t) :=
  ⟨s.setEpochs v (List.range 10), congrArg Host.Outcome.next (if_pos hp), fun _ hj => State.rf_setEpochs (List.mem_range.mpr hj),
    fun _ ho => State.rg_setEpochs_ne fun j hj => ho j (List.mem_range.mp hj), s.setEpochs_kept v _⟩

/-! ### Descriptor parts (R273, R282) -/

/-- No update runs on the group of the part. -/
def Damson.free (d : Damson) (p : Part) : Prop := ∀ r, d.running = some r → dmGroup r.part.w ≠ dmGroup p.w

/-- The test of a descriptor part, as DESCRIPTOR_PART_ARRIVAL makes it. -/
def Damson.isFree (d : Damson) (p : Part) : Bool := match d.running with
  | none => true
  | some r => dmGroup r.part.w ≠ dmGroup p.w

theorem Damson.isFree_iff (d : Damson) (p : Part) : d.isFree p = true ↔ d.free p := by
  unfold Damson.isFree Damson.free
  cases d.running with
  | none => simp
  | some r => simp

theorem Damson.setGroup_self (d : Damson) (n : Nat) (g : BitVec 1024) : (d.setGroup n g).group n = g := KV.get_put_self ..

theorem Damson.setGroup_ne {m n : Nat} (h : m ≠ n) (d : Damson) (g : BitVec 1024) : (d.setGroup n g).group m = d.group m := KV.get_put_ne h ..

theorem State.setDam_kept (s : State) (j : Nat) (d : Damson) : KeptBut [.damsons] s (s.setDam j d) := ((Keeps.refl s).setDam _ _ rfl).kept

/-- Damson k is `d`, and nothing else changed. -/
def DamIs (s : State) (k : Nat) (d : Damson) (t : State) : Prop := t.dam k = d ∧ (∀ j, j ≠ k → t.dam j = s.dam j) ∧ KeptBut [.damsons] s t

theorem State.setDam_is (s : State) (k : Nat) (d : Damson) : DamIs s k d (s.setDam k d) :=
  ⟨State.dam_setDam .., fun _ h => State.dam_setDam_ne h .., s.setDam_kept k d⟩

/-- The first free descriptor part of a Damson that is not in reset runs. -/
theorem State.descrArrival_eq (s : State) (j : Nat) : s.descrArrival j = if (s.dam j).inReset then s else
    ((s.dam j).descr.find? (s.dam j).isFree).elim s (fun p => s.runDescr j { s.dam j with descr := (s.dam j).descr.erase p } p) := by
  have hcases (b : Bool) (o : Option Part) (f : Part → State) :
      (match b, o with | false, some p => f p | _, _ => s) = if b then s else o.elim s f := by
    cases b
    · cases o <;> rfl
    · rfl
  exact hcases ..

theorem exec_descriptorPartArrival_kept (h : (s.dam k.val).inReset = true ∨ ∀ p ∈ (s.dam k.val).descr, ¬ (s.dam k.val).free p) :
    exec (.descriptorPartArrival k) s = .next s := by
  refine congrArg Host.Outcome.next ((s.descrArrival_eq k.val).trans ?_)
  rcases h with hr | hf
  · exact if_pos hr
  · rw [List.find?_eq_none.mpr fun p hp => hf p hp ∘ ((s.dam k.val).isFree_iff p).mp]
    exact ite_self _

theorem exec_descriptorPartArrival (hr : (s.dam k.val).inReset = false) (hd : (s.dam k.val).descr = p :: l) (hf : (s.dam k.val).free p) :
    exec (.descriptorPartArrival k) s = .next (s.runDescr k.val { s.dam k.val with descr := l } p) := by
  have hfind : (s.dam k.val).descr.find? (s.dam k.val).isFree = some p := by
    rw [hd]
    exact List.find?_cons_of_pos (((s.dam k.val).isFree_iff p).mpr hf)
  have hrest : (s.dam k.val).descr.erase p = l := by rw [hd, List.erase_cons_head]
  refine congrArg Host.Outcome.next ((s.descrArrival_eq k.val).trans ((if_neg (ne_true_of_eq_false hr)).trans ?_))
  rw [hfind, Option.elim_some, hrest]

/-- Completion of a descriptor part that a free group makes the first: Damson k becomes `d`. -/
theorem descriptorPartArrival_is {d : Damson} (hr : (s.dam k.val).inReset = false) (hd : (s.dam k.val).descr = p :: l) (hf : (s.dam k.val).free p)
    (h : s.runDescr k.val { s.dam k.val with descr := l } p = s.setDam k.val d) : Completes (.descriptorPartArrival k) s (DamIs s k.val d) :=
  ⟨_, (exec_descriptorPartArrival hr hd hf).trans (congrArg _ h), s.setDam_is k.val d⟩

theorem Damson.answer_sent {d : Damson} (h : p.lost = false) (st : BitVec 8) (data : Option (BitVec 1024)) :
    d.answer p st data = { d with answers := d.answers ++ [{ core := p.core, id := p.id, status := st, data := data }] } :=
  if_neg (ne_true_of_eq_false h)

theorem Damson.group_answer (d : Damson) (p : Part) (st : BitVec 8) (data : Option (BitVec 1024)) (n : Nat) : (d.answer p st data).group n = d.group n := by
  unfold Damson.answer
  split <;> rfl

theorem State.runDescr_dread {d : Damson} (h : cOpc p.w = 0x6B) (j : Nat) :
    s.runDescr j d p = s.setDam j (d.answer p stOk (some (d.group (dmGroup p.w)))) := if_pos h

theorem State.runDescr_dset {d : Damson} {g : BitVec 1024} (h : cOpc p.w = 0x68)
    (hg : dsetGroup s.windowSize (d.group (dmGroup p.w)) p.image p.w = some g) (j : Nat) :
    s.runDescr j d p = s.setDam j ((d.setGroup (dmGroup p.w) g).answer p stOk none) := by
  unfold State.runDescr
  dsimp only
  rw [hg, if_neg (by omega)]

theorem State.runDescr_refused {d : Damson} (h : cOpc p.w = 0x68)
    (hg : dsetGroup s.windowSize (d.group (dmGroup p.w)) p.image p.w = none) (j : Nat) :
    s.runDescr j d p = s.setDam j (d.answer p stIllegal none) := by
  unfold State.runDescr
  dsimp only
  rw [hg, if_neg (by omega)]

theorem dset_completes {g : BitVec 1024} (hr : (s.dam k.val).inReset = false) (hd : (s.dam k.val).descr = p :: l) (hf : (s.dam k.val).free p)
    (hl : p.lost = false) (hop : cOpc p.w = 0x68)
    (hg : dsetGroup s.windowSize ((s.dam k.val).group (dmGroup p.w)) p.image p.w = some g) :
    Completes (.descriptorPartArrival k) s (fun t => (t.dam k.val).group (dmGroup p.w) = g ∧
      (∀ n, n ≠ dmGroup p.w → (t.dam k.val).group n = (s.dam k.val).group n) ∧ (t.dam k.val).descr = l ∧
      (t.dam k.val).answers = (s.dam k.val).answers ++ [{ core := p.core, id := p.id, status := stOk, data := none }] ∧
      (∀ j, j ≠ k.val → t.dam j = s.dam j) ∧ KeptBut [.damsons] s t) := by
  obtain ⟨t, ht, hdam, hoth, hk⟩ := descriptorPartArrival_is hr hd hf (State.runDescr_dset (d := { s.dam k.val with descr := l }) hop hg k.val)
  refine ⟨t, ht, ?_, fun n hn => ?_, ?_, ?_, hoth, hk⟩ <;> rw [hdam]
  · exact (Damson.group_answer ..).trans (Damson.setGroup_self ..)
  · exact (Damson.group_answer ..).trans (Damson.setGroup_ne hn ..)
  · rw [Damson.answer_sent hl]
    rfl
  · rw [Damson.answer_sent hl]
    rfl

/-! ### Update parts that start (R274, R279) -/

/-- The Damson is about to run a part of command id. -/
def Damson.gangReady (d : Damson) (id : Nat) : Bool := d.running.isNone && (match d.updates with
  | p :: _ => decide (p.id = id)
  | [] => false)

theorem Damson.not_gangReady {d : Damson} {id : Nat} (h : d.running ≠ none ∨ ∀ x ∈ d.updates.head?, x.id ≠ id) : d.gangReady id = false := by
  unfold Damson.gangReady
  rcases h with hr | hu
  · rw [Option.isNone_eq_false_iff.mpr (Option.isSome_iff_ne_none.mpr hr), Bool.false_and]
  · cases hd : d.updates with
    | nil => exact Bool.and_false _
    | cons x l => simp [hu x (by rw [hd]; rfl)]

/-- The gang decision waits for every Damson that holds a part of the command (log 52). -/
theorem State.gangCheck_waits {j id : Nat} (hj : j < 10) (hx : ∃ x ∈ (s.dam j).updates, x.id = id) (hn : (s.dam j).gangReady id = false) :
    s.gangCheck id = none := by
  have hin : j ∈ s.holding id := List.mem_filter.mpr ⟨List.mem_range.mpr hj, List.any_eq_true.mpr (by simpa using hx)⟩
  have hall : (s.holding id).all (fun j => (s.dam j).gangReady id) = false := List.all_eq_false.mpr ⟨j, hin, ne_true_of_eq_false hn⟩
  exact if_pos (by rw [Bool.not_eq_true']; exact hall)

/-- The part has to wait for the gang decision. -/
def Part.inGang (p : Part) : Bool := decide (cOpc p.w = 0x69) && bit p.w 54 && !p.gangDone

theorem exec_updatePartStart_kept (h : (s.dam k.val).inReset = true ∨ (s.dam k.val).running ≠ none ∨ (s.dam k.val).updates = []) :
    exec (.updatePartStart k) s = .next s := by
  refine congrArg Host.Outcome.next ?_
  unfold State.partStart
  dsimp only
  rcases h with h | h | h
  · rw [h]
    rfl
  · rw [Option.isSome_iff_ne_none.mpr h, Bool.or_true]
    rfl
  · rw [h]
    exact ite_self _

theorem exec_updatePartStart_waits (hr : (s.dam k.val).inReset = false) (hn : (s.dam k.val).running = none) (hu : (s.dam k.val).updates = p :: l)
    (hg : p.inGang = true) (hw : s.gangCheck p.id = none) : exec (.updatePartStart k) s = .next s := by
  refine congrArg Host.Outcome.next ((if_neg (by rw [hr, hn]; decide)).trans ?_)
  rw [hu]
  refine (if_pos hg).trans ?_
  rw [hw]

theorem exec_updatePartStart (hr : (s.dam k.val).inReset = false) (hn : (s.dam k.val).running = none) (hu : (s.dam k.val).updates = p :: l)
    (hg : p.inGang = false) : exec (.updatePartStart k) s = .next (s.runPart k.val (s.dam k.val) p) := by
  refine congrArg Host.Outcome.next ((if_neg (by rw [hr, hn]; decide)).trans ?_)
  rw [hu]
  exact if_neg (ne_true_of_eq_false hg)

/-- The Damson runs `r`, which was the head of its updates. -/
def Damson.runs (d : Damson) (l : List Part) (r : RunPart) : Damson := { d with updates := l, running := some r }

/-- A part that fails a check runs to no effect: its status is of the first check that fails. -/
theorem State.runPart_fails {d : Damson} (hb : p.gangBlocked = false) (h : partCheck (d.group (dmGroup p.w)) p.w ≠ stOk) (j : Nat) :
    ∃ r : RunPart, s.runPart j d p = s.setDam j ((s.dam j).runs (d.updates.erase p) r) ∧ r.part = p ∧
      r.status = partCheck (d.group (dmGroup p.w)) p.w ∧ r.applied = false := by
  unfold State.runPart
  dsimp only
  rw [hb, Bool.false_and, if_neg Bool.false_ne_true, if_pos h]
  exact ⟨_, rfl, rfl, rfl, rfl⟩

theorem worst_cases (l : List Lines) : worst l = stOk ∨ worst l = stEcc ∨ worst l = stPoison := by
  unfold worst
  dsimp only
  split
  · exact .inr (.inl rfl)
  · split
    · exact .inr (.inr rfl)
    · exact .inl rfl

/-- A part that passes its checks runs: its status is of the lines that it read. -/
theorem State.runPart_runs {d : Damson} (hb : p.gangBlocked = false) (h : partCheck (d.group (dmGroup p.w)) p.w = stOk) (j : Nat) :
    ∃ (t : State) (r : RunPart), s.runPart j d p = t.setDam j ((t.dam j).runs (d.updates.erase p) r) ∧ r.part = p ∧
      (r.status = stOk ∨ r.status = stEcc ∨ r.status = stPoison) ∧ r.applied = decide (cOpc p.w ≠ 0x6A) := by
  unfold State.runPart
  dsimp only
  rw [hb, Bool.false_and, if_neg Bool.false_ne_true, if_neg (not_not_intro h)]
  split
  · rename_i hn
    exact ⟨_, _, rfl, rfl, worst_cases _, by simpa using hn⟩
  · rename_i hn
    exact ⟨_, _, rfl, rfl, worst_cases _, by simpa using hn⟩

theorem updatePartStart_fails (hr : (s.dam k.val).inReset = false) (hn : (s.dam k.val).running = none) (hu : (s.dam k.val).updates = p :: l)
    (hg : p.inGang = false) (hb : p.gangBlocked = false) (hst : partCheck ((s.dam k.val).group (dmGroup p.w)) p.w ≠ stOk) :
    Completes (.updatePartStart k) s (fun t => ∃ r : RunPart, t.dam k.val = (s.dam k.val).runs l r ∧ r.part = p ∧
      r.status = partCheck ((s.dam k.val).group (dmGroup p.w)) p.w ∧ r.applied = false ∧ (∀ j, j ≠ k.val → t.dam j = s.dam j) ∧
      KeptBut [.damsons] s t) := by
  obtain ⟨r, hrun, hpart, hstat, happ⟩ := State.runPart_fails (s := s) hb hst k.val
  rw [hu, List.erase_cons_head] at hrun
  obtain ⟨hdam, hoth, hk⟩ := s.setDam_is k.val ((s.dam k.val).runs l r)
  exact ⟨_, (exec_updatePartStart hr hn hu hg).trans (congrArg _ hrun), r, hdam, hpart, hstat, happ, hoth, hk⟩

theorem updatePartStart_runs (hr : (s.dam k.val).inReset = false) (hn : (s.dam k.val).running = none) (hu : (s.dam k.val).updates = p :: l)
    (hg : p.inGang = false) (hb : p.gangBlocked = false) (hst : partCheck ((s.dam k.val).group (dmGroup p.w)) p.w = stOk) :
    Completes (.updatePartStart k) s (fun t => (t.dam k.val).updates = l ∧ ∃ r : RunPart, (t.dam k.val).running = some r ∧ r.part = p ∧
      (r.status = stOk ∨ r.status = stEcc ∨ r.status = stPoison) ∧ r.applied = decide (cOpc p.w ≠ 0x6A)) := by
  obtain ⟨t, r, hrun, hpart, hstat, happ⟩ := State.runPart_runs (s := s) hb hst k.val
  rw [hu, List.erase_cons_head] at hrun
  have hdam := State.dam_setDam t k.val ((t.dam k.val).runs l r)
  exact ⟨_, (exec_updatePartStart hr hn hu hg).trans (congrArg _ hrun), congrArg Damson.updates hdam, r, congrArg Damson.running hdam, hpart,
    hstat, happ⟩

end

end Sys2Proof.Machine
end

section
/-! Runs that end (R280, R282), the answers of Damsons at their engine (R273), and the settling of O49. -/

namespace Sys2Proof.Machine

section
variable {s t u : State} {c : CoreId} {k : DamId} {r : RunPart} {p : Part} {y : Answer} {q : QEnt} {z : Slot} {a n : Nat}

/-! ### Bytes stored -/

theorem State.putBytes_byte_ite (s : State) (key : Nat) (l : List Byte) (x : Nat) :
    (s.putBytes key l).byte x = if key ≤ x ∧ x < key + l.length then l.getD (x - key) 0 else s.byte x := by
  split
  · rename_i h
    obtain ⟨i, rfl⟩ : ∃ i, x = key + i := ⟨x - key, by omega⟩
    rw [State.putBytes_byte _ _ _ (by omega), Nat.add_sub_cancel_left, List.getD_eq_getElem _ _ (by omega)]
  · exact State.putBytes_byte_ne (by omega) s

/-- The n bytes from `key` on are those of a list, and every other byte is as it was. -/
def BytesAre (key n : Nat) (d : List Byte) (s t : State) : Prop := ∀ x, t.byte x = if key ≤ x ∧ x < key + n then d.getD (x - key) 0 else s.byte x

/-- An engine's write of n bytes of a word to sound bytes of the slabs of its core. -/
theorem State.engWrite_word {m : Nat} (w : BitVec m) (hi : inSlabSpace a n = true) (hs : s.sound (slabKey c.val a) n = true) (ctx : Nat) :
    ∃ t, s.engWrite c.val ctx a (bytesOf w n) = (stOk, t) ∧ CoreIs c (s.core c.val) s t ∧ KeptBut [.mem, .chk, .reported, .mems, .cores] s t ∧
      BytesAre (slabKey c.val a) n (bytesOf w n) s t := by
  have hlen : (bytesOf w n).length = n := natLe_length ..
  obtain ⟨t, ht, ⟨hc, hk, hb⟩, -⟩ := State.engWrite_stores (c := c) (d := bytesOf w n) (by rwa [hlen]) (by rwa [hlen]) ctx
  refine ⟨t, ht, hc, hk, fun x => ?_⟩
  have hx := (hb x).trans (s.putBytes_byte_ite (slabKey c.val a) (bytesOf w n) x)
  rwa [hlen] at hx

/-! ### A run that ends (R280, R282) -/

/-- The Damson once its run has ended: LAST takes STEP and the monitor is clear where the update was applied. -/
def Damson.ended (d : Damson) (r : RunPart) : Damson :=
  if r.applied then
    { d with running := none }.setGroup (dmGroup r.part.w) (clearMonitor (setFld (d.group (dmGroup r.part.w)) 127 64 (dmStep r.part.w)))
  else { d with running := none }

theorem Damson.ended_running (d : Damson) (r : RunPart) : (d.ended r).running = none := by
  unfold Damson.ended
  split <;> rfl

theorem Damson.setGroup_answers (d : Damson) (m : Nat) (g : BitVec 1024) : (d.setGroup m g).answers = d.answers := rfl

theorem Damson.ended_answers (d : Damson) (r : RunPart) : (d.ended r).answers = d.answers := by
  unfold Damson.ended
  split
  · exact Damson.setGroup_answers ..
  · rfl

theorem Damson.group_ended (d : Damson) (r : RunPart) (m : Nat) : (d.ended r).group m = if m = dmGroup r.part.w ∧ r.applied = true then
    clearMonitor (setFld (d.group (dmGroup r.part.w)) 127 64 (dmStep r.part.w)) else d.group m := by
  unfold Damson.ended
  cases r.applied with
  | false =>
    rw [if_neg Bool.false_ne_true, if_neg (fun hm => Bool.false_ne_true hm.2)]
    rfl
  | true =>
    by_cases h : m = dmGroup r.part.w
    · subst h
      rw [if_pos rfl, if_pos ⟨rfl, rfl⟩, Damson.setGroup_self]
    · rw [if_pos rfl, if_neg (fun hm => h hm.1), Damson.setGroup_ne h]
      rfl

theorem exec_updatePartComplete_idle (h : (s.dam k.val).running = none) : exec (.updatePartComplete k) s = .next s := by
  refine congrArg Host.Outcome.next ?_
  unfold State.partComplete
  dsimp only
  rw [h]

/-- The run of a part whose command is gone ends, and answers nobody. -/
theorem exec_updatePartComplete_lost (h : (s.dam k.val).running = some r) (hl : r.part.lost = true) :
    exec (.updatePartComplete k) s = .next (s.setDam k.val ((s.dam k.val).ended r)) := by
  refine congrArg Host.Outcome.next ?_
  unfold State.partComplete Damson.ended
  dsimp only
  rw [h]
  exact if_pos hl

/-- Where the entry of a part goes in the slabs of its core. -/
def Part.entryAt (p : Part) (k : DamId) : Nat := dmBase p.w + k.val * dmEntry p.w

theorem exec_updatePartComplete (h : (s.dam k.val).running = some r) (hl : r.part.lost = false)
    (hw : s.engWrite r.part.core.val r.part.ctx.toNat (r.part.entryAt k) (bytesOf r.entry (dmEntry r.part.w)) = (stOk, t)) :
    ∃ n, exec (.updatePartComplete k) s =
      .next ((t.setDam k.val (((s.dam k.val).ended r).answer r.part r.status none)).progress r.part.core.val 3 n) := by
  have hstep : ∃ n, s.partComplete k.val =
      (t.setDam k.val (((s.dam k.val).ended r).answer r.part r.status none)).progress r.part.core.val 3 n := by
    unfold Part.entryAt at hw
    unfold State.partComplete Damson.ended
    dsimp only
    rw [h]
    dsimp only
    rw [hw, if_neg (ne_true_of_eq_false hl)]
    exact ⟨_, rfl⟩
  exact hstep.imp fun _ hn => congrArg Host.Outcome.next hn

theorem updatePartComplete_lost_completes (h : (s.dam k.val).running = some r) (hl : r.part.lost = true) :
    Completes (.updatePartComplete k) s (DamIs s k.val ((s.dam k.val).ended r)) :=
  ⟨_, exec_updatePartComplete_lost h hl, s.setDam_is k.val _⟩

theorem updatePartComplete_completes (h : (s.dam k.val).running = some r) (hl : r.part.lost = false)
    (hi : inSlabSpace (r.part.entryAt k) (dmEntry r.part.w) = true)
    (hs : s.sound (slabKey r.part.core.val (r.part.entryAt k)) (dmEntry r.part.w) = true) :
    Completes (.updatePartComplete k) s (fun t => t.dam k.val = ((s.dam k.val).ended r).answer r.part r.status none ∧
      (∀ j, j ≠ k.val → t.dam j = s.dam j) ∧
      BytesAre (slabKey r.part.core.val (r.part.entryAt k)) (dmEntry r.part.w) (bytesOf r.entry (dmEntry r.part.w)) s t) := by
  obtain ⟨t, ht, -, hk, hb⟩ := State.engWrite_word (c := r.part.core) r.entry hi hs r.part.ctx.toNat
  obtain ⟨n, hn⟩ := exec_updatePartComplete h hl ht
  exact ⟨_, hn, State.dam_setDam .., fun j hj => (State.dam_setDam_ne hj ..).trans (State.dam_congr (hk .damsons (by decide)) j), hb⟩

/-! ### An answer that reaches its engine (R273) -/

theorem Core.Quiet.calm {i j : Core} (h : Core.Quiet i j) (hi : i.calm) : j.calm :=
  ⟨fun e he => (h.queue e).trans (hi.1 e he), by rw [h.run]; exact hi.2.1, fun m hm => (h.hold m).calm (hi.2.2 m hm)⟩

theorem CoreIs.quiet {m : Core} (h : CoreIs c m s t) : Core.Quiet m (t.core c.val) := by
  obtain ⟨⟨un, cs, hk⟩, -⟩ := h
  rw [hk]
  exact ⟨fun _ => rfl, fun _ => rfl, fun _ => Slot.Alike.refl _⟩

/-- A calm core stays calm as the commands of its access engine change, none of them held back. -/
theorem Core.calm_setRun {m : Core} (h : m.calm) {l : List QEnt} (hl : ∀ x ∈ l, x.await ≠ [dmUnsent]) : (m.setRun 3 l).calm :=
  ⟨h.1, by rwa [Core.run_setRun], h.2.2⟩

/-- What an answer gives its command, and the state once its data are stored. -/
def State.storeAnswer (s : State) (c k : Nat) (q : QEnt) (y : Answer) : BitVec 8 × State :=
  match y.data with
  | none => (y.status, s)
  | some g =>
    let x := s.engWrite c (s.ctxOf c q.slot.val) (dmBase q.w + 128 * k) (bytesOf g 128)
    (if x.1 = stOk then stOk else stIllegal, x.2)

/-- The bytes of an answer's data, if it has any, are stored at `a` in the slabs of core c; of the cores only core c changed. -/
structure AnswerStored (c : CoreId) (a : Nat) (y : Answer) (s t : State) : Prop where
  cores : ∀ x, x ≠ c.val → t.core x = s.core x
  bare : y.data = none → KeptBut [.cores] s t
  data : ∀ g, y.data = some g → KeptBut [.mem, .chk, .reported, .mems, .cores] s t ∧ BytesAre (slabKey c.val a) 128 (bytesOf g 128) s t

/-- What follows in core c alone leaves the data stored. -/
theorem AnswerStored.andCore (h : AnswerStored c a y s t) (hk : KeptBut [.cores] t u) (hc : ∀ x, x ≠ c.val → u.core x = t.core x) :
    AnswerStored c a y s u :=
  ⟨fun x hx => (hc x hx).trans (h.cores x hx), fun hy => (h.bare hy).trans hk, fun g hy => ⟨(h.data g hy).1.trans (hk.mono rfl), fun x =>
    (hk.byte (by decide) (by decide) x).trans ((h.data g hy).2 x)⟩⟩

theorem AnswerStored.damsons (h : AnswerStored c a y s t) : t.damsons = s.damsons := by
  cases hy : y.data with
  | none => exact h.bare hy .damsons (by decide)
  | some g => exact (h.data g hy).1 .damsons (by decide)

/-- The data of an answer have sound bytes to go to. -/
def AnswerSound (s : State) (c : CoreId) (a : Nat) (y : Answer) : Prop :=
  y.data ≠ none → inSlabSpace a 128 = true ∧ s.sound (slabKey c.val a) 128 = true

/-- The status that an answer gives its command, where its data have sound bytes to go to. -/
def Answer.gives (y : Answer) : BitVec 8 := if y.data = none then y.status else stOk

theorem State.storeAnswer_stores (h : AnswerSound s c (dmBase q.w + 128 * n) y) :
    ∃ t, s.storeAnswer c.val n q y = (y.gives, t) ∧ CoreIs c (s.core c.val) s t ∧
      AnswerStored c (dmBase q.w + 128 * n) y s t := by
  unfold State.storeAnswer Answer.gives
  cases hy : y.data with
  | none => exact ⟨s, rfl, .refl c s, fun _ _ => rfl, fun _ => .refl _ s, fun g hg => absurd (hy.symm.trans hg) nofun⟩
  | some g =>
    obtain ⟨hi, hs⟩ := h (by rw [hy]; nofun)
    obtain ⟨t, ht, hc, hk, hb⟩ := State.engWrite_word g hi hs (s.ctxOf c.val q.slot.val)
    refine ⟨t, ?_, hc, hc.2, fun hg => absurd (hy.symm.trans hg) nofun, fun x hx => ?_⟩
    · dsimp only
      rw [ht]
      rfl
    · obtain rfl : g = x := Option.some.inj (hy.symm.trans hx)
      exact ⟨hk, hb⟩

/-- What finds the command that an answer is for. -/
def Answer.isFor (y : Answer) (k : Nat) (q : QEnt) : Bool := decide (q.id = y.id) && isDamson q.w && q.await.contains k

/-- The command once Damson k has answered it with a status. -/
def QEnt.answered (q : QEnt) (k : Nat) (st : BitVec 8) : QEnt := { q with await := q.await.erase k, got := q.got ++ [(k, st)] }

/-- The command that has its last answer, with the status and the bitmap of Table 10-11. -/
def QEnt.concluded (q : QEnt) : QEnt := { q with status := (dmStatus q.got).1, bitmap := (dmStatus q.got).2.1 }

/-- An answered command goes on to wait, or completes, or stops its slot. -/
def State.credit (t : State) (c : Nat) (q q' : QEnt) : State :=
  if !q'.await.isEmpty then t.modCore c (fun m => m.setRun 3 ((m.run 3).map (fun x => if x = q then q' else x)))
  else
    let u := t.modCore c (fun m => m.setRun 3 ((m.run 3).erase q))
    match (dmStatus q'.got).2.2 with
    | some n => u.stopSlot c q.slot.val (dmStatus q'.got).1 { engine := 3, off := q.off.toNat, detail := n } [(3, q)]
    | none => (u.progress c 3 1).finish c 3 q'.concluded

theorem State.takeAnswer_eq {c j : Nat} (hq : ((s.core c).run 3).find? (y.isFor j) = some q) :
    s.takeAnswer c j y = (s.storeAnswer c j q y).2.credit c q (q.answered j (s.storeAnswer c j q y).1) := by
  unfold State.takeAnswer
  unfold Answer.isFor at hq
  rw [hq]
  rfl

theorem State.credit_more {q' : QEnt} (h : q'.await ≠ []) (t : State) (c : Nat) :
    t.credit c q q' = t.modCore c (fun m => m.setRun 3 ((m.run 3).map (fun x => if x = q then q' else x))) := if_pos (by simpa using h)

theorem State.credit_last {q' : QEnt} (h : q'.await = []) (hd : (dmStatus q'.got).2.2 = none) (t : State) (c : Nat) :
    t.credit c q q' = ((t.modCore c (fun m => m.setRun 3 ((m.run 3).erase q))).progress c 3 1).finish c 3 q'.concluded := by
  unfold State.credit
  rw [h, hd]
  rfl

/-- A command that completes leaves its slot as its report and its token make it. -/
theorem State.finish_lands {e c : Nat} (h : ((s.slot c q.slot.val).report q).posted q.w = some z) : (s.finish c e q).slot c q.slot.val = z ∧
    (∀ j, j ≠ q.slot.val → (s.finish c e q).slot c j = s.slot c j) ∧ (∀ x, x ≠ c → (s.finish c e q).core x = s.core x) ∧
    KeptBut [.cores] s (s.finish c e q) := by
  have hfin : ∃ t, State.Stays c s t ∧ (∀ x, x ≠ c → t.core x = s.core x) ∧ KeptBut [.cores] s t ∧
      s.finish c e q = t.modCore c (fun k => (k.setSlot q.slot.val z).dropClaims q.claims) := by
    unfold State.finish
    dsimp only
    rw [h]
    refine ⟨_, ?_, fun x hx => ?_, ?_, rfl⟩
    all_goals split
    · exact .count s c _ _
    · exact ⟨.refl _, fun _ => rfl⟩
    · exact State.core_modCore_ne hx ..
    · rfl
    · exact ((Keeps.refl s).count _ _ _ rfl).kept
    · exact .refl _ s
  obtain ⟨t, ht, hoth, hk, hf⟩ := hfin
  have hslot (j : Nat) : (s.finish c e q).slot c j = ((t.core c).setSlot q.slot.val z).slot j := by
    unfold State.slot
    rw [hf, State.core_modCore]
    rfl
  rw [hslot, hf]
  refine ⟨Core.slot_setSlot .., fun j hj => ?_, fun x hx => (State.core_modCore_ne hx ..).trans (hoth x hx), hk.trans ((Keeps.refl t).modCore _ _ rfl).kept⟩
  rw [← hf, hslot, Core.slot_setSlot_ne hj]
  exact ht.2 j

/-- A step of DAMSON_RESULT: the oldest answer for the core leaves its Damson. -/
theorem State.damsonResult_eq (s : State) (c j : Nat) : s.damsonResult c j =
    ((s.dam j).answers.find? (fun (a : Answer) => a.core.val = c)).elim s (fun a =>
      (s.setDam j { s.dam j with answers := (s.dam j).answers.erase a }).takeAnswer c j a) := by
  unfold State.damsonResult
  dsimp only
  cases (s.dam j).answers.find? (fun (a : Answer) => a.core.val = c) <;> rfl

theorem exec_damsonResult_none (hc : (s.core c.val).calm) (h : (s.dam k.val).answers.find? (fun (y : Answer) => y.core.val = c.val) = none) :
    exec (.damsonResult c k) s = .next s := by
  refine congrArg Host.Outcome.next ?_
  rw [State.damsonResult_eq, h]
  exact State.afterCore_calm hc

/-- The Damson has handed an answer over, and its data are stored. -/
def AnswerGone (s : State) (c : CoreId) (k : DamId) (q : QEnt) (y : Answer) (t : State) : Prop :=
  AnswerStored c (dmBase q.w + 128 * k.val) y (s.setDam k.val { s.dam k.val with answers := (s.dam k.val).answers.erase y }) t

theorem AnswerSound.setDam (hs : AnswerSound s c a y) (d : Damson) : AnswerSound (s.setDam k.val d) c a y := by
  intro hy
  obtain ⟨hi, hb⟩ := hs hy
  exact ⟨hi, (State.sound_congr (s := s) (t := s.setDam k.val d) rfl rfl rfl rfl (slabKey c.val a) 128).trans hb⟩

theorem exec_damsonResult (h : (s.dam k.val).answers.find? (fun (x : Answer) => x.core.val = c.val) = some y)
    (hq : ((s.core c.val).run 3).find? (y.isFor k.val) = some q) (hs : AnswerSound s c (dmBase q.w + 128 * k.val) y) :
    ∃ t, exec (.damsonResult c k) s = .next ((t.credit c.val q (q.answered k.val y.gives)).afterCore c.val) ∧
      CoreIs c (s.core c.val) s t ∧ AnswerGone s c k q y t := by
  let u := s.setDam k.val { s.dam k.val with answers := (s.dam k.val).answers.erase y }
  have hsound : AnswerSound u c (dmBase q.w + 128 * k.val) y := hs.setDam _
  obtain ⟨t, ht, hcore, hst⟩ := State.storeAnswer_stores (s := u) (c := c) (q := q) (n := k.val) (y := y) hsound
  refine ⟨t, congrArg Host.Outcome.next (congrArg (State.afterCore · c.val) ?_), hcore, hst⟩
  rw [State.damsonResult_eq, h, Option.elim_some, State.takeAnswer_eq (s := u) hq, ht]

/-- What DAMSON_RESULT changes apart from core c: the answer has left its Damson, and the bytes of its data are stored. -/
def AnswerElse (s : State) (c : CoreId) (k : DamId) (q : QEnt) (y : Answer) (t : State) : Prop :=
  t.dam k.val = { s.dam k.val with answers := (s.dam k.val).answers.erase y } ∧ (∀ j, j ≠ k.val → t.dam j = s.dam j) ∧
    (∀ x, x ≠ c.val → t.core x = s.core x) ∧ (y.data = none → KeptBut [.cores, .damsons] s t) ∧
    ∀ g, y.data = some g → KeptBut [.mem, .chk, .reported, .mems, .cores, .damsons] s t ∧
      BytesAre (slabKey c.val (dmBase q.w + 128 * k.val)) 128 (bytesOf g 128) s t

theorem AnswerGone.answerElse (h : AnswerGone s c k q y t) (hk : KeptBut [.cores] t u) (hc : ∀ x, x ≠ c.val → u.core x = t.core x) :
    AnswerElse s c k q y u := by
  have hu := AnswerStored.andCore h hk hc
  have hd := s.setDam_kept k.val { s.dam k.val with answers := (s.dam k.val).answers.erase y }
  refine ⟨(State.dam_congr hu.damsons _).trans (State.dam_setDam ..), fun j hj => (State.dam_congr hu.damsons j).trans (State.dam_setDam_ne hj ..),
    hu.cores, fun hy => (hd.mono rfl).trans ((hu.bare hy).mono rfl), fun g hy => ?_⟩
  exact ⟨(hd.mono rfl).trans ((hu.data g hy).1.mono rfl), (hu.data g hy).2⟩

/-- A command that awaits Damsons only is not held back. -/
theorem await_ne_unsent {l : List Nat} (h : ∀ x ∈ l, x < 10) : l ≠ [dmUnsent] := by
  rintro rfl
  exact absurd (h dmUnsent List.mem_cons_self) (by decide)

theorem damsonResult_more (hc : (s.core c.val).calm) (h : (s.dam k.val).answers.find? (fun (x : Answer) => x.core.val = c.val) = some y)
    (hq : ((s.core c.val).run 3).find? (y.isFor k.val) = some q) (hw : ∀ x ∈ q.await, x < 10) (hs : AnswerSound s c (dmBase q.w + 128 * k.val) y)
    (hm : q.await.erase k.val ≠ []) : Completes (.damsonResult c k) s (fun t => AnswerElse s c k q y t ∧
      (t.core c.val).run 3 = ((s.core c.val).run 3).map (fun x => if x = q then q.answered k.val y.gives else x) ∧
      ∀ j, t.slot c.val j = s.slot c.val j) := by
  obtain ⟨t, ht, hcore, hgone⟩ := exec_damsonResult h hq hs
  have hquiet := hcore.quiet
  rw [State.credit_more (q' := q.answered k.val y.gives) hm] at ht
  let l := ((t.core c.val).run 3).map (fun x => if x = q then q.answered k.val y.gives else x)
  have hnew : (t.modCore c.val (fun m => m.setRun 3 ((m.run 3).map (fun x => if x = q then q.answered k.val y.gives else x)))).core c.val =
      (t.core c.val).setRun 3 l := State.core_modCore ..
  have hcalm : ((t.core c.val).setRun 3 l).calm := by
    refine Core.calm_setRun (hquiet.calm hc) fun x hx => ?_
    obtain ⟨z, hz, rfl⟩ := List.mem_map.mp hx
    split
    · exact await_ne_unsent fun i hi => hw i (List.mem_of_mem_erase hi)
    · exact (hquiet.calm hc).2.1 z hz
  rw [State.afterCore_calm (by rw [hnew]; exact hcalm)] at ht
  refine ⟨_, ht, hgone.answerElse ((Keeps.refl t).modCore _ _ rfl).kept fun x hx => State.core_modCore_ne hx .., ?_, fun j => ?_⟩
  · rw [hnew, Core.run_setRun, ← hquiet.run]
  · unfold State.slot
    rw [hnew]
    exact hcore.slot j

theorem damsonResult_last (hc : (s.core c.val).calm) (h : (s.dam k.val).answers.find? (fun (x : Answer) => x.core.val = c.val) = some y)
    (hq : ((s.core c.val).run 3).find? (y.isFor k.val) = some q) (hs : AnswerSound s c (dmBase q.w + 128 * k.val) y)
    (hm : q.await.erase k.val = []) (hd : (dmStatus (q.answered k.val y.gives).got).2.2 = none)
    (hz : ((s.slot c.val q.slot.val).report (q.answered k.val y.gives).concluded).posted q.w = some z) :
    Completes (.damsonResult c k) s (fun t => AnswerElse s c k q y t ∧ (t.core c.val).run 3 = ((s.core c.val).run 3).erase q ∧
      t.slot c.val q.slot.val = z ∧ ∀ j, j ≠ q.slot.val → t.slot c.val j = s.slot c.val j) := by
  obtain ⟨t, ht, hcore, hgone⟩ := exec_damsonResult h hq hs
  have hquiet := hcore.quiet
  rw [State.credit_last (q' := q.answered k.val y.gives) hm hd] at ht
  let v := t.modCore c.val (fun m => m.setRun 3 ((m.run 3).erase q))
  have hnew : v.core c.val = (t.core c.val).setRun 3 (((t.core c.val).run 3).erase q) := State.core_modCore ..
  have hcalm : ((t.core c.val).setRun 3 (((t.core c.val).run 3).erase q)).calm :=
    Core.calm_setRun (hquiet.calm hc) fun x hx => (hquiet.calm hc).2.1 x (List.mem_of_mem_erase hx)
  have hv (j : Nat) : v.slot c.val j = s.slot c.val j := by
    unfold State.slot
    rw [hnew]
    exact hcore.slot j
  have hstays := State.Stays.progress v c.val 3 1
  have hslot (j : Nat) : (v.progress c.val 3 1).slot c.val j = s.slot c.val j := (hstays.2 j).trans (hv j)
  have hz' : (((v.progress c.val 3 1).slot c.val q.slot.val).report (q.answered k.val y.gives).concluded).posted q.w = some z := by
    rw [hslot]
    exact hz
  have hfin : Core.Quiet (v.core c.val) (((v.progress c.val 3 1).finish c.val 3 (q.answered k.val y.gives).concluded).core c.val) :=
    hstays.1.trans (State.finish_quiet (q := (q.answered k.val y.gives).concluded) (Option.isSome_iff_exists.mpr ⟨z, hz'⟩))
  obtain ⟨hsl, hoth, hcores, hk⟩ := State.finish_lands (e := 3) (q := (q.answered k.val y.gives).concluded) hz'
  rw [State.afterCore_calm (hfin.calm (by rw [hnew]; exact hcalm))] at ht
  refine ⟨_, ht, hgone.answerElse ?_ fun x hx => ?_, ?_, hsl, fun j hj => (hoth j hj).trans (hslot j)⟩
  · exact (((Keeps.refl t).modCore _ _ rfl).progress _ _ _ rfl).kept.trans hk
  · exact (hcores x hx).trans ((State.core_modCore_ne hx ..).trans (State.core_modCore_ne hx t _))
  · rw [hfin.run, hnew, Core.run_setRun, hquiet.run]

end

/-- Settles O49: the split and the epochs are registers (`State.writeSplit_idle`, `State.rf_setEpochs`); a part runs by the branches of
`State.runDescr` and `State.runPart`, the gang decision by `State.gangCheck_waits` (log 52); a run that ends leaves its group as
`Damson.group_ended` says; and an answer credits its command as `State.credit` says, on a core where nothing waits. -/
theorem damsonEvents : Obligations.DamsonEvents := by
  intro s a k c v d Others Kept l
  refine ⟨fun hp => ?_, fun hp hl => ?_, fun hp hl hi => dmsSplit_completes hp hl hi, fun hp => ?_, fun hp => dmsEpoch_completes hp,
    fun hp => ?_, fun hp => dmsEpochAll_completes hp, ⟨fun h => exec_descriptorPartArrival_kept h, fun p l' hr hd hf hl => ⟨fun hop => ?_,
    fun g hop hg => ?_, fun hop hg => ?_⟩⟩, fun h => exec_updatePartStart_kept h, fun p l' hr hn hu => ?_,
    fun h => exec_updatePartComplete_idle h, fun r hr => ⟨fun hl => ?_, fun hl hi hs => ?_⟩, fun hc h => exec_damsonResult_none hc h,
    fun y q hc h hq hw => ?_⟩
  · refine congrArg Host.Outcome.next (if_pos ?_)
    rw [hp]
    rfl
  · refine congrArg Host.Outcome.next ((if_neg ?_).trans (if_pos hl))
    rw [hp]
    decide
  · exact congrArg Host.Outcome.next (if_neg (ne_true_of_eq_false hp))
  · exact congrArg Host.Outcome.next (if_neg (ne_true_of_eq_false hp))
  · exact descriptorPartArrival_is hr hd hf ((State.runDescr_dread hop k.val).trans (congrArg _ (Damson.answer_sent hl ..)))
  · exact dset_completes hr hd hf hl hop hg
  · exact descriptorPartArrival_is hr hd hf ((State.runDescr_refused (d := { d with descr := l' }) hop hg k.val).trans
      (congrArg _ (Damson.answer_sent hl ..)))
  · exact ⟨fun hg ⟨j, hj, hx, hw⟩ => exec_updatePartStart_waits hr hn hu hg (State.gangCheck_waits hj hx (Damson.not_gangReady hw)),
      fun hg hb hst => updatePartStart_fails hr hn hu hg hb hst, fun hg hb hst => updatePartStart_runs hr hn hu hg hb hst⟩
  · obtain ⟨t, ht, hdam, hoth, hk⟩ := updatePartComplete_lost_completes hr hl
    exact ⟨t, ht, ⟨by rw [hdam]; exact d.ended_running r, fun m => by rw [hdam]; exact d.group_ended r m⟩, by rw [hdam]; exact d.ended_answers r,
      hoth, hk⟩
  · obtain ⟨t, ht, hdam, hoth, hb⟩ := updatePartComplete_completes hr hl hi hs
    refine ⟨t, ht, ⟨?_, fun m => ?_⟩, ?_, hoth, hb⟩ <;> rw [hdam]
    · rw [Damson.answer_sent hl]
      exact d.ended_running r
    · exact (Damson.group_answer ..).trans (d.group_ended r m)
    · rw [Damson.answer_sent hl, ← d.ended_answers r]
  · intro a' key hs got Else
    exact ⟨fun hm => damsonResult_more hc h hq hw hs hm, fun z hm hd hz => damsonResult_last hc h hq hs hm hd hz⟩

end Sys2Proof.Machine
end

section
/-! SIGNAL and ARRIVE at the home engine (R295, R298, R302, R303), and how the condition of a WAIT compares (R294, R295, R304). -/

namespace Sys2Proof.Machine

theorem fld_lt {n : Nat} (w : BitVec n) (hi lo : Nat) : fld w hi lo < 2 ^ (hi - lo + 1) := Nat.mod_lt _ (Nat.two_pow_pos _)

theorem toNat_ofNat_fld {n : Nat} (w : BitVec n) (hi lo : Nat) : (BitVec.ofNat (hi - lo + 1) (fld w hi lo)).toNat = fld w hi lo := by
  rw [BitVec.toNat_ofNat, Nat.mod_eq_of_lt (fld_lt w hi lo)]

/-! ### SIGNAL (R295, R298) -/

section
variable {s : State} {who : Asker} {ctx : Nat} {w : Cmd} {e e' : SyncEnt} {v : BitVec 48} {set : Bool} {ix : Nat}

/-- A SIGNAL that its object takes, with the excess that was discarded. -/
theorem State.syncAt_signal {excess : Bool} (ho : cOpc w = 0x12) (hs : (s.ent (handleIx (syncHandle w))).stale (syncHandle w) ctx = false)
    (h : signalAt (s.ent (handleIx (syncHandle w))) (BitVec.ofNat 48 (fld w 148 101)) (bit w 154) = (stOk, some e', excess)) :
    s.syncAt who ctx w = (some { status := stOk }, ((if excess then s.discard (homeHalf (handleIx (syncHandle w))) else s).setEnt
      (handleIx (syncHandle w)) e').changed (handleIx (syncHandle w))) := by
  unfold State.syncAt
  dsimp only
  rw [ho, hs, h]
  rfl

theorem State.syncAt_signal_refused (ho : cOpc w = 0x12) (hs : (s.ent (handleIx (syncHandle w))).stale (syncHandle w) ctx = false)
    (h : signalAt (s.ent (handleIx (syncHandle w))) (BitVec.ofNat 48 (fld w 148 101)) (bit w 154) = (stIllegal, none, false)) :
    s.syncAt who ctx w = (some { status := stIllegal }, s) := by
  unfold State.syncAt
  dsimp only
  rw [ho, hs, h]
  rfl

theorem signalAt_barrier (ht : e.ty = tyBarrier) (v : BitVec 48) (set : Bool) : signalAt e v set = (stIllegal, none, false) := if_pos ht

theorem signalAt_work (ht : e.ty = tyWork) (hv : v.toNat ≤ e.limit.toNat) :
    signalAt e v true = (stOk, some { e with value := v, epoch := e.epoch + 1 }, false) := by
  unfold signalAt
  rw [ht, if_neg (by decide), if_pos rfl, if_neg (by decide), if_neg (Nat.not_lt.mpr hv)]

theorem signalAt_work_refused (ht : e.ty = tyWork) (hv : set = false ∨ e.limit.toNat < v.toNat) :
    signalAt e v set = (stIllegal, none, false) := by
  unfold signalAt
  rw [ht, if_neg (by decide), if_pos rfl]
  rcases hv with rfl | hv
  · exact if_pos rfl
  · rw [if_pos hv, ite_self]

theorem signalAt_set (ht : e.ty = tyCounter ∨ e.ty = tySem) (v : BitVec 48) : signalAt e v true = (stOk, some { e with value := v }, false) := by
  unfold signalAt
  rcases ht with ht | ht <;> rw [ht] <;> rfl

theorem signalAt_counter (ht : e.ty = tyCounter) (n : Nat) :
    signalAt e (BitVec.ofNat 48 n) false = (stOk, some { e with value := BitVec.ofNat 48 (e.value.toNat + n) }, false) := by
  unfold signalAt
  rw [ht, BitVec.ofNat_add, BitVec.ofNat_toNat, BitVec.setWidth_eq]
  rfl

theorem signalAt_sem (ht : e.ty = tySem) {n : Nat} (hn : (BitVec.ofNat 48 n).toNat = n) : signalAt e (BitVec.ofNat 48 n) false =
    if 2 ^ 48 ≤ e.value.toNat + n then (stOk, some { e with value := BitVec.ofNat 48 (2 ^ 48 - 1) }, true)
    else (stOk, some { e with value := BitVec.ofNat 48 (e.value.toNat + n) }, false) := by
  unfold signalAt
  rw [ht, hn, BitVec.ofNat_add, BitVec.ofNat_toNat, BitVec.setWidth_eq]
  rfl

end

/-- Settles O14, by the type and mode that `signalAt` tells apart; the excess of a SEMAPHORE is counted in the object's home half
(R311, log 53). -/
theorem signalOnObjects : Obligations.SignalOnObjects := by
  intro s who ctx w ho ix e v set hs
  have hv : (BitVec.ofNat 48 v).toNat = v := toNat_ofNat_fld w 148 101
  refine ⟨?_, ?_, ?_, ?_, ?_, ?_⟩
  · rintro ⟨ht, hset⟩
    refine State.syncAt_signal (excess := false) ho hs ?_
    rw [show bit w 154 = false from hset]
    exact signalAt_counter ht v
  · rintro ⟨ht, hset, hfits⟩
    refine State.syncAt_signal (excess := false) ho hs ?_
    rw [show bit w 154 = false from hset, signalAt_sem ht hv, if_neg (Nat.not_le.mpr hfits)]
  · rintro ⟨ht, hset, hexcess⟩
    refine State.syncAt_signal (excess := true) ho hs ?_
    rw [show bit w 154 = false from hset, signalAt_sem ht hv, if_pos hexcess]
  · rintro ⟨ht, hset⟩
    refine State.syncAt_signal (excess := false) ho hs ?_
    rw [show bit w 154 = true from hset]
    exact signalAt_set ht _
  · rintro ⟨ht, hset, hlim⟩
    rw [BitVec.ofNat_add, BitVec.ofNat_toNat, BitVec.setWidth_eq]
    refine State.syncAt_signal (excess := false) ho hs ?_
    rw [show bit w 154 = true from hset]
    exact signalAt_work ht (by rw [hv]; exact hlim)
  · intro h
    refine State.syncAt_signal_refused ho hs ?_
    rcases h with ht | ⟨ht, h⟩
    · exact signalAt_barrier ht ..
    · exact signalAt_work_refused ht (h.imp_right fun h => by rwa [hv])

/-! ### ARRIVE (R302, R303) -/

section
variable {s : State} {who : Asker} {ctx : Nat} {w : Cmd} {e e' : SyncEnt} {gen part d : Nat}

theorem State.syncAt_arrive (ho : cOpc w = 0x10) (hs : (s.ent (handleIx (syncHandle w))).stale (syncHandle w) ctx = false)
    (h : arriveAt (s.ent (handleIx (syncHandle w))) (fld w 116 101) (fld w 127 122) = (stOk, some e')) :
    s.syncAt who ctx w = (some { status := stOk }, (s.setEnt (handleIx (syncHandle w)) e').changed (handleIx (syncHandle w))) := by
  unfold State.syncAt
  dsimp only
  rw [ho, hs, h]
  rfl

theorem State.syncAt_arrive_dropped {st : BitVec 8} (ho : cOpc w = 0x10)
    (hs : (s.ent (handleIx (syncHandle w))).stale (syncHandle w) ctx = false)
    (h : arriveAt (s.ent (handleIx (syncHandle w))) (fld w 116 101) (fld w 127 122) = (st, none)) :
    s.syncAt who ctx w = (some { status := st }, s) := by
  unfold State.syncAt
  dsimp only
  rw [ho, hs, h]
  rfl

/-- A round that is full completes. -/
def SyncEnt.round (e : SyncEnt) : SyncEnt := if e.arrived = e.n.toNat then
  { e with gen := e.gen + 1, arrived := e.held, held := 0, curMap := e.nextMap, nextMap := 0 } else e

theorem SyncEnt.rounds_two (e : SyncEnt) : e.rounds 2 = e.round.round := by
  unfold SyncEnt.round SyncEnt.rounds SyncEnt.rounds
  by_cases h : e.arrived = e.n.toNat
  · rw [if_pos h, if_pos h]
    rfl
  · rw [if_neg h, if_neg h, if_neg h]

theorem arriveAt_bad_part (ht : e.ty = tyBarrier) (hm : e.map = true) (hp : e.n.toNat ≤ part) (gen : Nat) :
    arriveAt e gen part = (stIllegal, none) := by
  unfold arriveAt
  rw [ht, hm, decide_eq_true hp]
  rfl

/-- What an ARRIVE does whose PART is one of the barrier's. -/
theorem arriveAt_part (ht : e.ty = tyBarrier) (hp : if e.map then part < e.n.toNat else part = 0) (hd : (gen + 65536 - e.gen.toNat) % 65536 = d) :
    arriveAt e gen part =
      if d = 0 then
        if e.map && bit e.curMap part then (stStale, none)
        else (stOk, some (({ e with arrived := e.arrived + 1, curMap := if e.map then setBit e.curMap part true else e.curMap } : SyncEnt).rounds 2))
      else if d = 1 then
        if e.map && bit e.nextMap part then (stAhead, none)
        else (stOk, some { e with held := e.held + 1, nextMap := if e.map then setBit e.nextMap part true else e.nextMap })
      else (if d < 32768 then stAhead else stStale, none) := by
  subst hd
  unfold arriveAt
  rw [if_neg (not_not_intro ht)]
  cases hm : e.map with
  | true =>
    rw [hm, if_pos rfl] at hp
    rw [decide_eq_false (Nat.not_le.mpr hp)]
    rfl
  | false =>
    rw [hm, if_neg Bool.false_ne_true] at hp
    rw [decide_eq_false (not_not_intro hp)]
    rfl

end

/-- Settles O15: past the check of PART the distance decides, and `SyncEnt.rounds` runs at most two rounds. -/
theorem barrierArrivals : Obligations.BarrierArrivals := by
  intro s who ctx w ho ix e d part round hs ht
  refine ⟨fun ⟨hm, hp⟩ => State.syncAt_arrive_dropped ho hs (arriveAt_bad_part ht hm hp _), fun hp => ?_⟩
  have har := arriveAt_part (gen := fld w 116 101) (d := d) ht hp rfl
  have counted {e' : SyncEnt} (h : arriveAt e (fld w 116 101) part = (stOk, some e')) := State.syncAt_arrive (who := who) ho hs h
  have dropped {st : BitVec 8} (h : arriveAt e (fld w 116 101) part = (st, none)) := State.syncAt_arrive_dropped (who := who) ho hs h
  refine ⟨fun ⟨hd, hb⟩ => ?_, fun ⟨hd, hb⟩ => dropped ?_, fun ⟨hd, hb⟩ => counted ?_, fun ⟨hd, hb⟩ => dropped ?_, fun ⟨h2, hd⟩ => dropped ?_,
    fun hd => dropped ?_⟩
  · refine counted ?_
    rw [har, if_pos hd, if_neg (by rw [hb]; decide), SyncEnt.rounds_two]
    rfl
  · rw [har, if_pos hd, if_pos hb]
  · rw [har, if_neg (by omega), if_pos hd, if_neg (by rw [hb]; decide)]
  · rw [har, if_neg (by omega), if_pos hd, if_pos hb]
  · rw [har, if_neg (by omega), if_neg (by omega), if_pos hd]
  · rw [har, if_neg (by omega), if_neg (by omega), if_neg (by omega)]

/-! ### How a WAIT compares (R294, R295, R304) -/

section
variable {e : SyncEnt} {t d cond : Nat}

theorem waitEval_counter (ht : e.ty = tyCounter) (hd : (t + 2 ^ 48 - e.value.toNat) % 2 ^ 48 = d) : waitEval e t 0 false =
    if d = 0 then .met else if d ≤ 2 ^ 47 then .waits else if 2 ^ 48 - 2 ^ 46 ≤ d then .met else .range := by
  unfold waitEval
  dsimp only
  rw [ht, Bool.false_and, if_neg Bool.false_ne_true, if_neg (by decide), if_pos rfl, hd]
  rfl

theorem waitEval_barrier (ht : e.ty = tyBarrier) (htarget : t < 65536) (hd : (t + 65536 - e.gen.toNat) % 65536 = d) : waitEval e t 0 false =
    if d = 0 ∨ 32768 ≤ d then .met else if d ≤ 2 then .waits else .range := by
  subst hd
  unfold waitEval
  dsimp only
  rw [ht, Bool.false_and, if_neg Bool.false_ne_true, if_pos rfl, if_neg (by omega)]

theorem waitEval_barrier_refused (ht : e.ty = tyBarrier) (hc : cond ≠ 0) (t : Nat) : waitEval e t cond false = .illegal := by
  unfold waitEval
  dsimp only
  rw [ht, Bool.false_and, if_neg Bool.false_ne_true, if_pos rfl, if_pos (.inl hc)]

theorem waitEval_take_refused (ht : e.ty ≠ tySem) (t cond : Nat) : waitEval e t cond true = .illegal := by
  unfold waitEval
  rw [decide_eq_false ht]
  rfl

/-- EQ and NE of a COUNTER, by the distance. -/
theorem waitEval_counter_eq_ne (ht : e.ty = tyCounter) (hd : (t + 2 ^ 48 - e.value.toNat) % 2 ^ 48 = d) :
    waitEval e t 1 false = (if d = 0 then .met else .waits) ∧ waitEval e t 2 false = (if d = 0 then .waits else .met) := by
  constructor
  · unfold waitEval
    dsimp only
    rw [ht, Bool.false_and, if_neg Bool.false_ne_true, if_neg (by decide), if_pos rfl, hd]
    simp
  · unfold waitEval
    dsimp only
    rw [ht, Bool.false_and, if_neg Bool.false_ne_true, if_neg (by decide), if_pos rfl, hd]
    simp

theorem waitEval_sem (ht : e.ty = tySem) (t : Nat) (take : Bool) : waitEval e t 0 take = if t ≤ e.value.toNat then .met else .waits := by
  unfold waitEval
  dsimp only
  rw [ht, decide_eq_true rfl, decide_eq_true rfl, Bool.and_true, Bool.not_true, Bool.and_false, if_neg Bool.false_ne_true, if_neg (by decide),
    if_neg (by decide)]
  simp only [decide_eq_true_eq]

theorem waitEval_sem_eq_ne (ht : e.ty = tySem) (t : Nat) : waitEval e t 1 false = (if e.value.toNat = t then .met else .waits) ∧
    waitEval e t 2 false = (if e.value.toNat = t then .waits else .met) := by
  constructor
  · unfold waitEval
    dsimp only
    rw [ht, Bool.false_and, if_neg Bool.false_ne_true, if_neg (by decide), if_neg (by decide)]
    simp
  · unfold waitEval
    dsimp only
    rw [ht, Bool.false_and, if_neg Bool.false_ne_true, if_neg (by decide), if_neg (by decide)]
    simp

end

/-- Settles O16: `waitEval` for each type of object, by the bands of the distance. -/
theorem waitConditions : Obligations.WaitConditions := by
  intro e t
  refine ⟨fun ht htarget => ?_, fun ht => ⟨waitEval_sem ht t, waitEval_sem_eq_ne ht t⟩, fun ht htarget => ?_,
    fun ht cond => waitEval_take_refused ht t cond⟩
  · intro d
    have hc := waitEval_counter (t := t) (d := d) ht rfl
    obtain ⟨heq, hne⟩ := waitEval_counter_eq_ne (t := t) (d := d) ht rfl
    refine ⟨fun hd => ?_, fun hd => ?_, fun hd => ?_, fun hd => ?_, heq, hne⟩
    · rw [hc, if_pos hd]
    · rw [hc, if_neg (by omega), if_pos hd.2]
    · rw [hc, if_neg (by omega), if_neg (by omega), if_pos hd]
    · rw [hc, if_neg (by omega), if_neg (by omega), if_neg (by omega)]
  · intro d
    have hb := waitEval_barrier (d := d) ht htarget rfl
    refine ⟨fun hd => ?_, fun hd => ?_, fun hd => ?_, fun cond hc => waitEval_barrier_refused ht hc t⟩
    · rw [hb, if_pos hd]
    · rw [hb, if_neg (by omega), if_pos (by omega)]
    · rw [hb, if_neg (by omega), if_neg (by omega)]

end Sys2Proof.Machine
end

section
/-! The life of objects at the home engine (R291, R296, R297, R299, R300, R311): SINIT, stale operations, SFREE, CLAIM, and a WAIT that
is answered or takes a record. -/

namespace Sys2Proof.Machine

/-! ### SINIT and stale operations (R291, R296) -/

section
variable {s : State} {who : Asker} {ctx : Nat} {w : Cmd} {e e' : SyncEnt}

theorem State.syncAt_sinit (ho : cOpc w = 0x15) : s.syncAt who ctx w = (some (s.sinitAt ctx w).1, (s.sinitAt ctx w).2) := by
  unfold State.syncAt
  exact if_pos ho

theorem State.sinitAt_illegal (h : sinitOk w = false ∨ (s.ent (fld w 47 32)).st = .inUse) : s.sinitAt ctx w = ({ status := stIllegal }, s) := by
  unfold State.sinitAt
  dsimp only
  rcases h with h | h
  · rw [h]
    rfl
  · rw [h]
    exact ite_self _

theorem State.sinitAt_free (hok : sinitOk w = true) (h : (s.ent (fld w 47 32)).st = .free) : s.sinitAt ctx w =
    ({ status := stOk, value := BitVec.ofNat 64 (mkHandle s.selfId (s.ent (fld w 47 32)).inc.toNat (fld w 47 32)) },
      s.setEnt (fld w 47 32) (sinitEnt w (s.ent (fld w 47 32)).inc ctx)) := by
  unfold State.sinitAt
  dsimp only
  rw [hok, h]
  rfl

theorem State.sinitAt_quarantined (hok : sinitOk w = true) (h : (s.ent (fld w 47 32)).st = .quarantined) :
    s.sinitAt ctx w = ({ status := stQuarantine }, s) := by
  unfold State.sinitAt
  dsimp only
  rw [hok, h]
  rfl

theorem State.syncAt_stale (ho : cOpc w ≠ 0x15) (hs : (s.ent (handleIx (syncHandle w))).stale (syncHandle w) ctx = true)
    (hp : isPosted w = false) : s.syncAt who ctx w = (some { status := stHandle }, s) := by
  unfold State.syncAt
  dsimp only
  rw [if_neg ho, if_pos hs, hp]
  rfl

/-- A POSTED operation that is stale is counted as discarded, one of another module as a message (R311). -/
theorem State.syncAt_stale_posted (ho : cOpc w ≠ 0x15) (hs : (s.ent (handleIx (syncHandle w))).stale (syncHandle w) ctx = true)
    (hp : isPosted w = true) :
    (∀ x, who = .unit x → s.syncAt who ctx w = (some { status := stHandle }, s.discard (homeHalf (handleIx (syncHandle w))))) ∧
    (∀ src tag inc f, who = .remote src tag inc f → s.syncAt who ctx w =
      (some { status := stHandle }, s.discardMsg (homeHalf (handleIx (syncHandle w))) (syncHandle w) src.toNat)) := by
  constructor
  · rintro x rfl
    unfold State.syncAt
    dsimp only
    rw [if_neg ho, if_pos hs, hp]
    rfl
  · rintro src tag inc f rfl
    unfold State.syncAt
    dsimp only
    rw [if_neg ho, if_pos hs, hp]
    rfl

/-! ### SFREE (R297) -/

theorem State.syncAt_sfree (ho : cOpc w = 0x16) (hs : (s.ent (handleIx (syncHandle w))).stale (syncHandle w) ctx = false) :
    s.syncAt who ctx w = (some { status := stOk }, s.sfreeAt (handleIx (syncHandle w))) := by
  unfold State.syncAt
  dsimp only
  rw [ho, hs]
  rfl

/-- Updates change no record, object or port. -/
theorem SyncQuiet.sendUpdates (s : State) (ix : Nat) (e : SyncEnt) (st : BitVec 8) : SyncQuiet s (s.sendUpdates ix e st) := by
  unfold State.sendUpdates
  dsimp only
  refine .trans ?_ (.injects _ (fun s (m : HomeSub) => s.updPacket m e st) _)
  exact ⟨rfl, rfl, rfl, rfl, rfl⟩

/-- The state in which an object has been freed, before the units that waited on it are told. -/
def State.freed (s : State) (ix : Nat) : State :=
  let t := (s.sendUpdates ix (s.ent ix) stHandle).setEnt ix { s.ent ix with st := .quarantined, inc := (s.ent ix).inc + 1 }
  { t with sync := { t.sync with
      waits := t.sync.waits.filter (fun r => !r.on ix)
      homeSubs := t.sync.homeSubs.filter (fun m => m.index.toNat ≠ ix) } }

theorem State.sfreeAt_eq (s : State) (ix : Nat) : s.sfreeAt ix =
    (s.sync.waits.filter (fun r => r.on ix)).foldl (fun s r => s.reply r.who { status := stHandle }) (s.freed ix) := rfl

theorem State.freed_ent (s : State) (ix j : Nat) : (s.freed ix).ent j =
    if j = ix then { s.ent ix with st := .quarantined, inc := (s.ent ix).inc + 1 } else s.ent j := by
  refine (State.ent_setEnt (s.sendUpdates ix (s.ent ix) stHandle) ix _ j).trans ?_
  rw [(SyncQuiet.sendUpdates s ix (s.ent ix) stHandle).ent]

theorem State.sfreeAt_frees (s : State) (ix : Nat) :
    (s.sfreeAt ix).ent ix = { s.ent ix with st := .quarantined, inc := (s.ent ix).inc + 1 } ∧ (∀ j, j ≠ ix → (s.sfreeAt ix).ent j = s.ent j) ∧
      (s.sfreeAt ix).sync.waits = s.sync.waits.filter (fun r => !r.on ix) := by
  obtain ⟨ps, hps⟩ := State.replies_sync { status := stHandle } (s.sync.waits.filter (fun r => r.on ix)) (s.freed ix)
  rw [← State.sfreeAt_eq] at hps
  have hent (j : Nat) : (s.sfreeAt ix).ent j = (s.freed ix).ent j := by
    unfold State.ent
    rw [hps]
  refine ⟨?_, fun j hj => ?_, ?_⟩
  · rw [hent, State.freed_ent, if_pos rfl]
  · rw [hent, State.freed_ent, if_neg hj]
  · rw [hps]
    exact congrArg (List.filter _) (SyncQuiet.sendUpdates s ix (s.ent ix) stHandle).waits

/-! ### CLAIM (R300) -/

/-- CTR and EPOCH as a CLAIM answers them. -/
theorem pack_ctr_epoch (e : SyncEnt) : pack [(48, e.value.toNat), (16, e.epoch.toNat)] = e.value.toNat + 2 ^ 48 * e.epoch.toNat := by
  have hv := e.value.isLt
  have he := e.epoch.isLt
  unfold pack pack pack
  omega

theorem State.syncAt_claim (ho : cOpc w = 0x13) (hs : (s.ent (handleIx (syncHandle w))).stale (syncHandle w) ctx = false)
    (he : s.ent (handleIx (syncHandle w)) = e) (ht : e.ty = tyWork) (hv : e.value.toNat < e.limit.toNat) : s.syncAt who ctx w =
      (some { status := stOk, value := BitVec.ofNat 64 (e.value.toNat + 2 ^ 48 * e.epoch.toNat), spent := false },
        (s.setEnt (handleIx (syncHandle w)) { e with value := e.value + 1 }).changed (handleIx (syncHandle w))) := by
  unfold State.syncAt
  dsimp only
  rw [ho, hs, he, ht, pack_ctr_epoch, decide_eq_false (Nat.not_le.mpr hv)]
  rfl

theorem State.syncAt_claim_spent (ho : cOpc w = 0x13) (hs : (s.ent (handleIx (syncHandle w))).stale (syncHandle w) ctx = false)
    (he : s.ent (handleIx (syncHandle w)) = e) (ht : e.ty = tyWork) (hv : e.limit.toNat ≤ e.value.toNat) : s.syncAt who ctx w =
      (some { status := stOk, value := BitVec.ofNat 64 (e.value.toNat + 2 ^ 48 * e.epoch.toNat), spent := true }, s) := by
  unfold State.syncAt
  dsimp only
  rw [ho, hs, he, ht, pack_ctr_epoch, decide_eq_true hv]
  rfl

/-! ### WAIT (R299) -/

theorem State.syncAt_wait_met (ho : cOpc w = 0x11) (hs : (s.ent (handleIx (syncHandle w))).stale (syncHandle w) ctx = false)
    (he : s.ent (handleIx (syncHandle w)) = e) (htake : bit w 156 = false)
    (hv : waitEval e (fld w 148 101) (fld w 155 154) false = .met) :
    s.syncAt who ctx w = (some { status := stOk, value := if bit w 189 then e.val else 0 }, s) := by
  unfold State.syncAt
  dsimp only
  rw [ho, hs, he, htake, hv]
  rfl

/-- The record that a WAIT takes at its home. -/
def homeRec (who : Asker) (ctx : Nat) (w : Cmd) (timed : Bool) : WaitRec :=
  { who := who, ctx := BitVec.ofNat 16 ctx, handle := BitVec.ofNat 64 (syncHandle w), target := BitVec.ofNat 48 (fld w 148 101)
    cond := BitVec.ofNat 2 (fld w 155 154), take := bit w 156, ven := bit w 189, timed := timed, remote := false }

theorem State.syncAt_wait_waits (ho : cOpc w = 0x11) (hs : (s.ent (handleIx (syncHandle w))).stale (syncHandle w) ctx = false)
    (hv : waitEval (s.ent (handleIx (syncHandle w))) (fld w 148 101) (fld w 155 154) (bit w 156) = .waits) :
    s.syncAt who ctx w = (none, { (s.waitTimed ctx (fld w 188 157)).2 with sync := { (s.waitTimed ctx (fld w 188 157)).2.sync with
      waits := (s.waitTimed ctx (fld w 188 157)).2.sync.waits ++ [homeRec who ctx w (s.waitTimed ctx (fld w 188 157)).1] } }) := by
  unfold State.syncAt
  dsimp only
  rw [ho, hs, hv]
  rfl

theorem State.waitTimed_sync (s : State) (ctx tmo : Nat) : (s.waitTimed ctx tmo).2.sync = s.sync :=
  ((Keeps.refl s).waitTimed ctx tmo (l := [.host, .reported, .regs, .hif, .board, .husk]) rfl).kept .sync (by decide)

end

/-- Settles O17: `sinitAt` by the state of its entry; a stale operation by whether it is POSTED; SFREE ends the records on its object
(`State.sfreeAt_frees`); CLAIM and WAIT by their conditions. -/
theorem syncObjectLife : Obligations.SyncObjectLife := by
  intro s who ctx w h ix e i
  refine ⟨fun ho hok hst => ?_, fun ho hok hst => ?_, fun ho hbad => ?_, fun ho hs hp => State.syncAt_stale ho hs hp,
    fun ho hs hp => State.syncAt_stale_posted ho hs hp, fun hs => ⟨fun ho => ⟨_, State.syncAt_sfree ho hs, s.sfreeAt_frees ix⟩,
      fun ho ht hv => State.syncAt_claim ho hs rfl ht hv, fun ho ht hv => State.syncAt_claim_spent ho hs rfl ht hv,
      fun ho htake hv => State.syncAt_wait_met ho hs rfl htake hv, fun ho hv => ?_⟩⟩
  · rw [State.syncAt_sinit ho, State.sinitAt_free hok hst]
  · rw [State.syncAt_sinit ho, State.sinitAt_quarantined hok hst]
  · rw [State.syncAt_sinit ho, State.sinitAt_illegal hbad]
  · have hsync := s.waitTimed_sync ctx (fld w 188 157)
    refine ⟨_, _, State.syncAt_wait_waits ho hs hv, congrArg (·.waits ++ _) hsync, rfl, toNat_ofNat_fld w 95 32, toNat_ofNat_fld w 148 101,
      toNat_ofNat_fld w 155 154, rfl, rfl, ?_⟩
    exact congrArg (fun y => KV.get y.base y.ents ix) hsync

end Sys2Proof.Machine
end

section
/-! Packets on their way (R322, R326, R335 to R338): what PACKET_ROUTE does with a packet that is delivered, dropped, lost, or leaves by a
port, and with one that stays. -/

namespace Sys2Proof.Machine

section
variable {s u : State} {arr : Option PortId} {pk : Packet} {q : Nat}

theorem exec_packetRoute_known (h : knownType pk.ptype = true) : exec (.packetRoute arr pk) s = .next (s.routePacket arr pk) := by
  show execPacketRoute arr pk s = _
  unfold execPacketRoute
  rw [h]
  cases arr <;> rfl

theorem exec_packetRoute_unknown (h : knownType pk.ptype = false) : exec (.packetRoute none pk) s = .next (s.takePacket none pk) := by
  show execPacketRoute none pk s = _
  unfold execPacketRoute
  rw [h]

/-- A reserved type that arrives by a port is counted there (R326). -/
theorem packetRoute_counts {p : PortId} (h : knownType pk.ptype = false) : Completes (.packetRoute (some p) pk) s (fun t =>
    t.fab = (s.takePacket (some p) pk).fab ∧
    t.rg (oLate p.val) = BitVec.ofNat 64 (min ((s.rg (oLate p.val)).toNat + 1) 0xFFFFFFFF) ∧ KeptBut [.fab, .regs] s t) := by
  refine ⟨(s.takePacket (some p) pk).bump32 (oLate p.val) 1, ?_, rfl, State.rg_setRg .., ?_⟩
  · show execPacketRoute (some p) pk s = _
    unfold execPacketRoute
    rw [h]
  · exact ((Keeps.refl s).takePacket _ _ rfl |>.bump32 _ _ rfl).kept

theorem State.routePacket_deliver (h : s.route (arr.map (·.val)) pk = .deliver) : s.routePacket arr pk =
    { s.takePacket arr pk with fab := { (s.takePacket arr pk).fab with delivered := (s.takePacket arr pk).fab.delivered ++ [(arr, pk)] } } := by
  unfold State.routePacket
  rw [h]

theorem State.routePacket_drop {st : BitVec 8} (h : s.route (arr.map (·.val)) pk = .drop st) :
    s.routePacket arr pk = (s.takePacket arr pk).dropPacket pk st := by
  unfold State.routePacket
  rw [h]

/-- The packet as it leaves by a port: one hop more, on its channel there (R322, R337). -/
def State.hopped (s : State) (arr : Option PortId) (q : Nat) (pk : Packet) : Packet :=
  { pk with hops := pk.hops + 1, vc := s.leaveVc (arr.map (·.val)) q pk.vc }

theorem State.routePacket_leave (h : s.route (arr.map (·.val)) pk = .leave q) : s.routePacket arr pk =
    if 64 ≤ pk.hops.toNat then (s.takePacket arr pk).dropPacket pk stPathLost
    else if s.lostBetween arr q pk then s.takePacket arr pk
    else if s.canSend q (s.hopped arr q pk) then ((s.takePacket arr pk).wakeBetween arr q pk).sendOn q (s.hopped arr q pk)
    else s := by
  unfold State.routePacket
  rw [h]
  rfl

/-- What the fabric holds once a packet has been dropped (R338). -/
theorem State.dropPacket_fab (s : State) (pk : Packet) (st : BitVec 8) : (s.dropPacket pk st).fab = if isRequest pk.ptype then
    { s.fab with inject := s.fab.inject ++ [{ answerTo pk pkNack st with src := BitVec.ofNat 14 s.selfId, body := pk.ptype.setWidth 320 }] }
    else s.fab := by
  unfold State.dropPacket
  split <;> rfl

theorem packetRoute_delivers (hk : knownType pk.ptype = true) (h : pk.dest.toNat = s.selfId) : Completes (.packetRoute arr pk) s (fun t =>
    t.fab = { (s.takePacket arr pk).fab with delivered := (s.takePacket arr pk).fab.delivered ++ [(arr, pk)] } ∧ KeptBut [.fab] s t) := by
  have hr : s.route (arr.map (·.val)) pk = .deliver := if_pos h
  exact ⟨_, (exec_packetRoute_known hk).trans (congrArg _ (State.routePacket_deliver hr)), rfl,
    ((Keeps.refl s).takePacket arr pk rfl |>.upd_fab rfl).kept⟩

theorem packetRoute_drops {st : BitVec 8} (hk : knownType pk.ptype = true) (h : s.route (arr.map (·.val)) pk = .drop st) :
    Completes (.packetRoute arr pk) s (fun t => KeptBut [.fab] s t ∧ t.fab = if isRequest pk.ptype then
      { (s.takePacket arr pk).fab with inject := (s.takePacket arr pk).fab.inject ++
        [{ answerTo pk pkNack st with src := BitVec.ofNat 14 s.selfId, body := pk.ptype.setWidth 320 }] }
      else (s.takePacket arr pk).fab) := by
  refine ⟨_, (exec_packetRoute_known hk).trans (congrArg _ (State.routePacket_drop h)),
    ((Keeps.refl s).takePacket arr pk rfl |>.dropPacket pk st rfl).kept, (State.dropPacket_fab ..).trans ?_⟩
  cases arr <;> rfl

/-- What a fibre and the fabric hold once a packet has set out (R321, R322). -/
structure SentOn (s t : State) (q i : Nat) (k : Packet) : Prop where
  sent : t.fab.sent = (portOf q, k) :: s.fab.sent
  arrived : t.fab.arrived = s.fab.arrived
  inject : t.fab.inject = s.fab.inject
  seq : (t.fibre i).txSeq = (s.fibre i).txSeq + BitVec.ofNat 12 (s.framesOf q k)
  owed : KV.get 0 (t.fibre i).owed k.vc.toNat = KV.get 0 (s.fibre i).owed k.vc.toNat + packetSlots k
  others : ∀ j, j ≠ i → t.fibre j = s.fibre j

theorem State.fibre_setFibre (s : State) (i : Nat) (x : Fibre) (j : Nat) : (s.setFibre i x).fibre j = if j = i then x else s.fibre j :=
  KV.get_put ..

theorem State.sendOn_sends (s : State) (q : Nat) (k : Packet) : SentOn s (s.sendOn q k) q (q * 8 + s.carrier q k.fibre.toNat) k := by
  have hf (j : Nat) : (s.sendOn q k).fibre j = if j = q * 8 + s.carrier q k.fibre.toNat then
      (s.fibre (q * 8 + s.carrier q k.fibre.toNat)).send k (s.framesOf q k) else s.fibre j := s.fibre_setFibre ..
  refine ⟨rfl, rfl, rfl, ?_, ?_, fun j hj => (hf j).trans (if_neg hj)⟩
  · rw [hf, if_pos rfl]
    rfl
  · rw [hf, if_pos rfl]
    exact KV.get_put_self ..

/-- The state in which a packet that leaves sets out: it waits nowhere, and the halves that it crosses run. -/
def State.setOut (s : State) (arr : Option PortId) (q : Nat) (pk : Packet) : State := (s.takePacket arr pk).wakeBetween arr q pk

/-- Setting out leaves the fibres as they were, and what a port makes of them. -/
theorem State.setOut_fibres (s : State) (arr : Option PortId) (q : Nat) (pk : Packet) : (s.setOut arr q pk).fab = (s.takePacket arr pk).fab ∧
    (s.setOut arr q pk).fibre = s.fibre ∧ (s.setOut arr q pk).carrier = s.carrier ∧ (s.setOut arr q pk).framesOf = s.framesOf := by
  cases arr <;> exact ⟨rfl, rfl, rfl, rfl⟩

theorem State.takePacket_sent (s : State) (arr : Option PortId) (pk : Packet) : (s.takePacket arr pk).fab.sent = s.fab.sent := by
  cases arr <;> rfl

theorem packetRoute_sends (hk : knownType pk.ptype = true) (h : s.route (arr.map (·.val)) pk = .leave q) (hh : pk.hops.toNat < 64)
    (hl : s.lostBetween arr q pk = false) (hc : s.canSend q (s.hopped arr q pk) = true) :
    Completes (.packetRoute arr pk) s (fun t =>
      let k := s.hopped arr q pk
      let i := q * 8 + s.carrier q k.fibre.toNat
      t.fab.sent = (portOf q, k) :: s.fab.sent ∧ t.fab.arrived = (s.takePacket arr pk).fab.arrived ∧
      t.fab.inject = (s.takePacket arr pk).fab.inject ∧ (t.fibre i).txSeq = (s.fibre i).txSeq + BitVec.ofNat 12 (s.framesOf q k) ∧
      KV.get 0 (t.fibre i).owed k.vc.toNat = KV.get 0 (s.fibre i).owed k.vc.toNat + packetSlots k ∧
      (∀ j, j ≠ i → t.fibre j = s.fibre j) ∧ KeptBut [.fab, .power] s t ∧ (arr = none → t.power = s.power)) := by
  obtain ⟨hfab, hfibre, hcarrier, hframes⟩ := s.setOut_fibres arr q pk
  obtain ⟨hsent, harrived, hinject, hseq, howed, hothers⟩ := (s.setOut arr q pk).sendOn_sends q (s.hopped arr q pk)
  rw [hcarrier] at hseq howed hothers
  rw [hfab] at hsent harrived hinject
  rw [hfibre] at hseq howed hothers
  rw [hframes] at hseq
  refine ⟨(s.setOut arr q pk).sendOn q (s.hopped arr q pk), ?_, hsent.trans (congrArg _ (s.takePacket_sent arr pk)), harrived, hinject, hseq, howed,
    hothers, ((Keeps.refl s).takePacket arr pk rfl |>.wakeBetween arr q pk rfl |>.sendOn _ _ rfl).kept, ?_⟩
  · rw [exec_packetRoute_known hk, State.routePacket_leave h, if_neg (Nat.not_le.mpr hh), hl, if_neg Bool.false_ne_true, if_pos hc]
    rfl
  · rintro rfl
    rfl

/-! ### Packets resident too long (R337, R338) -/

/-- What has become of a packet taken out of the fabric `g`. -/
def State.Dropped (s t : State) (pk : Packet) (g : Fabric) : Prop := KeptBut [.fab] s t ∧ t.fab = if isRequest pk.ptype then
  { g with inject := g.inject ++ [{ answerTo pk pkNack stPathLost with src := BitVec.ofNat 14 s.selfId, body := pk.ptype.setWidth 320 }] }
  else g

theorem State.dropPacket_dropped (s : State) (pk : Packet) (g : Fabric) : s.Dropped (({ s with fab := g } : State).dropPacket pk stPathLost) pk g :=
  ⟨(((Keeps.refl s).upd_fab rfl).dropPacket pk _ rfl).kept, State.dropPacket_fab ..⟩

theorem packetResidenceExpiry_drops {p : PortId} :
    let f := s.fab
    ((p, pk) ∈ f.arrived → Completes (.packetResidenceExpiry p pk) s (fun t => s.Dropped t pk { f with arrived := f.arrived.erase (p, pk) })) ∧
    ((p, pk) ∉ f.arrived → pk ∈ f.inject →
      Completes (.packetResidenceExpiry p pk) s (fun t => s.Dropped t pk { f with inject := f.inject.erase pk })) ∧
    ((p, pk) ∉ f.arrived → pk ∉ f.inject → (some p, pk) ∈ f.delivered →
      Completes (.packetResidenceExpiry p pk) s (fun t => s.Dropped t pk { f with delivered := f.delivered.erase (some p, pk) })) ∧
    ((p, pk) ∉ f.arrived → pk ∉ f.inject → (some p, pk) ∉ f.delivered → exec (.packetResidenceExpiry p pk) s = .next s) := by
  have he : exec (.packetResidenceExpiry p pk) s = execPacketResidenceExpiry p pk s := rfl
  unfold execPacketResidenceExpiry at he
  simp only [List.contains_iff_mem] at he
  refine ⟨fun h => ⟨_, ?_, s.dropPacket_dropped pk _⟩, fun h1 h => ⟨_, ?_, s.dropPacket_dropped pk _⟩,
    fun h1 h2 h => ⟨_, ?_, s.dropPacket_dropped pk _⟩, fun h1 h2 h3 => ?_⟩
  · rw [he, if_pos h]
  · rw [he, if_neg h1, if_pos h]
  · rw [he, if_neg h1, if_neg h2, if_pos h]
  · rw [he, if_neg h1, if_neg h2, if_neg h3]

end

end Sys2Proof.Machine
end

section
/-! Requests served at plain bytes (R325, R328, R330 to R332): PUT, GET, ATOMIC and RPUT at their destination, and PUT and ATOMIC as they
are refused. -/

namespace Sys2Proof.Machine

section
variable {s t u v : State} {p : PortId} {pk : Packet} {r a b n : Nat} {d : List Byte}

/-! ### The destination's state -/

theorem State.undeliver_kept (s : State) (p : PortId) (pk : Packet) : KeptBut [.fab] s (s.undeliver p pk) := ((Keeps.refl s).undeliver p pk rfl).kept

theorem State.undeliver_regs (s : State) (p : PortId) (pk : Packet) : (s.undeliver p pk).regs = s.regs := s.undeliver_kept p pk .regs (by decide)

theorem State.undeliver_byte (s : State) (p : PortId) (pk : Packet) (a : Nat) : (s.undeliver p pk).byte a = s.byte a := rfl

theorem State.undeliver_bytes (s : State) (p : PortId) (pk : Packet) (a n : Nat) : (s.undeliver p pk).bytes a n = s.bytes a n :=
  State.bytes_congr (s.undeliver_byte p pk) a n

theorem State.undeliver_sound (s : State) (p : PortId) (pk : Packet) (a n : Nat) : (s.undeliver p pk).sound a n = s.sound a n :=
  State.sound_congr rfl rfl rfl rfl a n

theorem State.plain.undeliver (h : s.plain r a n) (p : PortId) (pk : Packet) : (s.undeliver p pk).plain r a n := by
  obtain ⟨hr, hs, hsnd, hpath⟩ := h
  refine ⟨hr, hs, (s.undeliver_sound p pk a n).trans hsnd, fun b hb => ?_⟩
  obtain ⟨hto, hfrom⟩ := hpath b hb
  exact ⟨(State.lostTo_congr (s.undeliver_regs p pk) r _).trans hto, (State.lostFrom_congr (s.undeliver_regs p pk) r _).trans hfrom⟩

/-- An answer sets out from a state that has stored bytes: they stand there, and the fabric holds it besides. -/
theorem Placed.answered (h : Placed (s.undeliver p pk) t a d) (k : Packet) :
    (t.inject k).fab = { (s.undeliver p pk).fab with inject := (s.undeliver p pk).fab.inject ++ [k] } ∧
    KeptBut [.mem, .chk, .reported, .mems, .cores, .fab] s (t.inject k) ∧ CountsOnly s (t.inject k) ∧
    ∀ x, (t.inject k).byte x = if a ≤ x ∧ x < a + d.length then d.getD (x - a) 0 else s.byte x := by
  have hfab : t.fab = (s.undeliver p pk).fab := h.moves.moves.2 .fab (by decide)
  refine ⟨?_, ?_, h.moves.moves.1, h.byte⟩
  · show { t.fab with inject := t.fab.inject ++ [k] } = _
    rw [hfab]
  · exact ((s.undeliver_kept p pk).mono rfl).trans ((h.moves.moves.2.mono rfl).trans ((Keeps.refl t).inject k rfl).kept)

/-! ### Places of remote addresses -/

theorem rTier_of_lt (h : a < 2 ^ 37) : rTier a = false := by
  unfold rTier
  rw [Nat.div_eq_of_lt h]
  rfl

theorem rOffset_of_lt (h : a < 2 ^ 37) : rOffset a = a := Nat.mod_eq_of_lt h

theorem dieByte.remotePlace (h : dieByte a) (s : State) (ctx : Nat) (write : Bool) : s.remotePlace ctx a write = (.inr (.die a), s) := by
  have hlt : a < 2 ^ 37 := h.lt.trans (by decide)
  unfold State.remotePlace
  dsimp only
  rw [rTier_of_lt hlt, rOffset_of_lt hlt]
  rcases h with h | h
  · rw [h]
    rfl
  · rw [h]
    rfl

theorem dieByte.placeNow (h : dieByte a) (s : State) (ctx : Nat) (write : Bool) : s.placeNow ctx a write = (some (.die a), s) := by
  unfold State.placeNow
  rcases h with h | h
  · rw [h]
  · rw [h]
    rfl

theorem dieByte.plainOffset (h : dieByte a) : plainOffset a = true := by
  unfold Machine.plainOffset
  rcases h with h | h
  · rw [h]
  · rw [h]
    rfl

/-! ### One piece -/

/-- A read of a piece from any router gives its bytes. -/
theorem State.Reach.reads (h : s.Reach r a n) (ctx : Nat) : s.readVia r ctx (.die a) n = ⟨s.bytes a n, stOk, s⟩ := by
  unfold State.readVia
  rw [h.there, h.back]
  exact State.readDie_sound h.sound ctx

/-- A write of a piece from any router stores it. -/
theorem State.Reach.writes (h : s.Reach r a d.length) (ctx : Nat) : ∃ t, s.writeVia r ctx (.die a) d false = (stOk, t) ∧ Placed s t a d := by
  have hlt := (h.die (d.length - 1) (by have := h.pos; omega)).lt
  obtain ⟨t, ht, hp⟩ := State.writeDie_placed h.sound (by omega) ctx
  refine ⟨t, ?_, hp⟩
  unfold State.writeVia
  rw [h.there, h.back, State.writeAt_die, ht]
  rfl

theorem State.Reach.first (h : s.Reach r a n) : dieByte a := h.die 0 h.pos

/-! ### Data that lands (R330) -/

/-- A fold over the pieces of a range that stores each piece of some data stores the data. -/
theorem Cuts.foldl_placed {f : BitVec 8 × State → Nat × Nat → BitVec 8 × State} {l : List (Nat × Nat)} (hc : Cuts b n l)
    (hf : ∀ t x e, t.Reach r x e.length → e = (d.drop (x - a)).take e.length → ∃ u, f (stOk, t) (x, e.length) = (stOk, u) ∧ Placed t u x e) :
    ∀ s, a ≤ b → b + n = a + d.length → (∀ p ∈ l, s.Reach r p.1 p.2) → ∃ t, l.foldl f (stOk, s) = (stOk, t) ∧ Placed s t b (d.drop (b - a)) := by
  induction hc with
  | nil b =>
    intro s hb hn _
    refine ⟨s, rfl, ?_⟩
    rw [List.drop_of_length_le (by omega)]
    exact .nil s b
  | @cons b n i l h hl ih =>
    intro s hb hn hr
    have hlen : ((d.drop (b - a)).take n).length = n := by simp; omega
    obtain ⟨t, ht, hp⟩ := hf s b ((d.drop (b - a)).take n) (by rw [hlen]; exact hr _ List.mem_cons_self) (by rw [hlen])
    obtain ⟨u, hu, hp'⟩ := ih t (by omega) (by omega) fun p hp' => (hr p (List.mem_cons_of_mem _ hp')).moves hp.moves
    rw [hlen] at ht
    refine ⟨u, ?_, ?_⟩
    · rw [List.foldl_cons, ht, hu]
    · have hp := hp.append (by rwa [hlen])
      rwa [show b + n - a = b - a + n by omega, ← List.drop_drop, List.take_append_drop] at hp

/-- Data that arrives sound at a plain range is stored, whichever way its bytes find their places. -/
theorem landData_plain {place : State → Nat → Bool → (BitVec 8 ⊕ Place) × State}
    (hplace : ∀ t x, dieByte x → place t x true = (.inr (.die x), t)) (h : s.plain r a d.length) (ctx : Nat) :
    ∃ t, landData place s r ctx a d 0 = (stOk, t) ∧ Placed s t a d := by
  have hnone (l : List (Nat × Nat)) : l.filter (fun p => decide (0 &&& halfMask (p.1 - a) p.2 ≠ 0)) = [] :=
    List.filter_eq_nil_iff.mpr fun p _ => by simp
  have hc := piecesOf_cuts a d.length
  unfold landData
  dsimp only
  rw [hnone, List.foldl_nil]
  refine (hc.foldl_placed (r := r) (a := a) (d := d) (fun t x e hr he => ?_) s le_rfl rfl fun p hp => ?_).imp fun t h => ⟨h.1, ?_⟩
  · obtain ⟨u, hu, hp⟩ := hr.putPlace ctx
    refine ⟨u, ?_, hp⟩
    dsimp only
    rw [hplace t x hr.first]
    dsimp only
    rw [← he, hu]
    rfl
  · obtain ⟨h1, h2, h3⟩ := hc.mem p hp
    exact h.reach h3 ⟨h1, h2⟩
  · have hp := h.2
    rwa [Nat.sub_self, List.drop_zero] at hp

theorem putPacket_plain (h : s.plain (packetRouter p.val pk) pk.addr.toNat pk.data.length) (hb : pk.bad = 0) :
    ∃ t, exec (.putPacket p pk) s = .next (t.inject (ackOf pk stOk)) ∧ Placed (s.undeliver p pk) t pk.addr.toNat pk.data := by
  obtain ⟨t, ht, hp⟩ := landData_plain (s := s.undeliver p pk) (place := fun s x write => s.remotePlace pk.ctx.toNat x write)
    (fun t x hx => hx.remotePlace t _ _) (h.undeliver p pk) pk.ctx.toNat
  refine ⟨t, ?_, hp⟩
  show Host.Outcome.next ((s.undeliver p pk).putPacket p pk) = _
  unfold State.putPacket State.serveWrite
  rw [hb, ht]

/-! ### Data that is read (R330) -/

theorem halvesOf_cuts (a n : Nat) : Cuts a n (halvesOf a n) := by
  unfold halvesOf
  generalize hl : piecesOf a n = l
  have hc := piecesOf_cuts a n
  rw [hl] at hc
  clear hl
  induction hc with
  | nil a => exact .nil a
  | @cons a n m l h hl ih =>
    rw [List.map_cons, List.flatten_cons]
    dsimp only
    obtain ⟨k, hk⟩ : ∃ k, min n (32 - a % 32) = k := ⟨_, rfl⟩
    rw [hk]
    split
    · have hc := Cuts.cons (a := a) (n := k) (by omega) (.cons (n := n - k) (by omega) (by rwa [show a + k + (n - k) = a + n by omega]))
      rwa [← Nat.add_assoc, show k + (n - k) = n by omega] at hc
    · exact .cons h ih

theorem PackData.add_sound (x d : List Byte) : ({ data := x } : PackData).add d stOk = { data := x ++ d } := rfl

/-- A fold over the pieces of a range that reads each piece reads the range. -/
theorem Cuts.foldl_read {f : PackData × State → Nat × Nat → PackData × State} {l : List (Nat × Nat)} (hc : Cuts b n l)
    (hf : ∀ x b n, s.Reach r b n → f ({ data := x }, s) (b, n) = ({ data := x ++ s.bytes b n }, s)) :
    ∀ x, (∀ p ∈ l, s.Reach r p.1 p.2) → l.foldl f ({ data := x }, s) = ({ data := x ++ s.bytes b n }, s) := by
  induction hc with
  | nil b => exact fun x _ => by rw [State.bytes, List.append_nil]; rfl
  | @cons b n m l h hl ih =>
    intro x hr
    rw [List.foldl_cons, hf _ _ _ (hr _ List.mem_cons_self), ih _ fun p hp => hr p (List.mem_cons_of_mem _ hp), List.append_assoc,
      State.bytes_append]

theorem State.serveRead_plain (h : s.plain r a n) (ctx : Nat) : s.serveRead r ctx a n = ({ data := s.bytes a n }, s) := by
  have hc := halvesOf_cuts a n
  refine hc.foldl_read (r := r) (fun x b n hr => ?_) [] fun p hp => ?_
  · dsimp only
    rw [hr.first.remotePlace]
    dsimp only
    rw [hr.reads, PackData.add_sound]
  · obtain ⟨h1, h2, h3⟩ := hc.mem p hp
    exact h.reach h3 ⟨h1, h2⟩

theorem getPacket_plain (h : s.plain (packetRouter p.val pk) pk.addr.toNat pk.len.toNat) :
    exec (.getPacket p pk) s = .next ((s.undeliver p pk).inject
      { answerTo pk pkGetData stOk with data := s.bytes pk.addr.toNat pk.len.toNat, len := pk.len }) := by
  show Host.Outcome.next ((s.undeliver p pk).getPacket p pk) = _
  unfold State.getPacket
  dsimp only
  rw [State.serveRead_plain (h.undeliver p pk), State.undeliver_bytes]
  dsimp only
  rw [if_pos rfl]
  rfl

/-! ### ATOMIC (R331) -/

theorem exec_atomicPacket_refused {n : Nat} (hn : (if fld pk.body 128 128 = 1 then 8 else 4) = n)
    (h : pk.addr.toNat % n ≠ 0 ∨ 8 ≤ fld pk.body 139 136 ∨ rTier pk.addr.toNat = true) :
    exec (.atomicPacket p pk) s = .next ((s.undeliver p pk).inject (ackOf pk stIllegal)) := by
  have hoff : rOffset pk.addr.toNat % n = pk.addr.toNat % n := by
    have hn' : n = 8 ∨ n = 4 := by
      rw [← hn]
      exact ite_eq_or_eq ..
    unfold rOffset
    rcases hn' with rfl | rfl <;> omega
  show Host.Outcome.next ((s.undeliver p pk).atomicPacket p pk) = _
  unfold State.atomicPacket
  dsimp only
  rw [hn, hoff, if_pos]
  simp only [Bool.or_eq_true, decide_eq_true_eq]
  tauto

/-- An ATOMIC on sound bytes answers the number that stood there and stores the new one, where there is one. -/
theorem atomicPacket_plain {n : Nat} (hn : (if fld pk.body 128 128 = 1 then 8 else 4) = n)
    (h : s.plain (packetRouter p.val pk) pk.addr.toNat n) (ha : pk.addr.toNat % n = 0) (hop : fld pk.body 139 136 < 8) :
    let new := atomicOp (fld pk.body 139 136) n (s.num pk.addr.toNat n) (fld pk.body 63 0) (fld pk.body 127 64)
    ∃ t, exec (.atomicPacket p pk) s = .next (t.inject { answerTo pk pkAtomicRsp stOk with body := BitVec.ofNat 320 (s.num pk.addr.toNat n) }) ∧
      MovesSound (s.undeliver p pk) t ∧ ∀ x, t.byte x =
        if pk.addr.toNat ≤ x ∧ x < pk.addr.toNat + n ∧ new ≠ none then (natLe n (new.getD 0)).getD (x - pk.addr.toNat) 0 else s.byte x := by
  intro new
  have hpos : 0 < n := by
    rw [← hn]
    split <;> decide
  have hr := (h.undeliver p pk).reach (b := pk.addr.toNat) hpos ⟨le_rfl, le_rfl⟩
  have hlt : pk.addr.toNat < 2 ^ 37 := hr.first.lt.trans (by decide)
  have hnum : leNat ((s.undeliver p pk).bytes pk.addr.toNat n) = s.num pk.addr.toNat n := congrArg leNat (s.undeliver_bytes ..)
  have hexec : exec (.atomicPacket p pk) s = .next ((s.undeliver p pk).atomicPacket p pk) := rfl
  unfold State.atomicPacket at hexec
  dsimp only at hexec
  rw [hn, rTier_of_lt hlt, rOffset_of_lt hlt, hr.first.plainOffset, ha, hr.first.remotePlace, decide_eq_false (Nat.not_le.mpr hop)] at hexec
  dsimp only at hexec
  rw [hr.reads, hnum] at hexec
  cases hnew : new with
  | none =>
    rw [show atomicOp _ _ _ _ _ = none from hnew] at hexec
    exact ⟨_, hexec, .refl _, fun x => by simp [State.undeliver_byte]⟩
  | some y =>
    have hlen : (natLe n y).length = n := natLe_length n y
    obtain ⟨t, ht, hp⟩ := State.Reach.writes (d := natLe n y) (by rwa [hlen]) pk.ctx.toNat
    rw [show atomicOp _ _ _ _ _ = some y from hnew] at hexec
    simp only [ht] at hexec
    refine ⟨t, hexec, hp.moves, fun x => ?_⟩
    rw [hp.byte, hlen, Option.getD_some]
    simp [State.undeliver_byte]

/-! ### RPUT (R332) -/

/-- An RPUT of one element. -/
theorem exec_rputPacket_one (ha : pk.addr.toNat % 32 = 0) (hdie : dieByte pk.addr.toNat) (hlen : pk.data.length = 32) (hb : pk.bad = 0)
    (he : (s.undeliver p pk).rputElem (packetRouter p.val pk) pk.ctx.toNat pk.addr.toNat pk.data (bit pk.body 0) false = (stOk, t)) :
    exec (.rputPacket p pk) s = .next (t.inject (ackOf pk stOk)) := by
  have hlt : pk.addr.toNat < 2 ^ 37 := hdie.lt.trans (by decide)
  have hexec : exec (.rputPacket p pk) s = .next ((s.undeliver p pk).rputPacket p pk) := rfl
  unfold State.rputPacket at hexec
  dsimp only at hexec
  rw [rTier_of_lt hlt, rOffset_of_lt hlt, hdie.plainOffset, ha, hlen, hb] at hexec
  rw [hexec]
  have htake : pk.data.take 32 = pk.data := List.take_of_length_le hlen.le
  simp [List.range_succ, htake, he]

/-- The element is stored, or added to the one that stands there. -/
theorem rputPacket_plain (h : s.plain (packetRouter p.val pk) pk.addr.toNat 32) (ha : pk.addr.toNat % 32 = 0) (hlen : pk.data.length = 32)
    (hb : pk.bad = 0) : ∃ t, exec (.rputPacket p pk) s = .next (t.inject (ackOf pk stOk)) ∧
      Placed (s.undeliver p pk) t pk.addr.toNat (if bit pk.body 0 then pk.data
        else natLe 32 ((Ala.ofWord (s.num pk.addr.toNat 32)).add (Ala.ofWord (leNat pk.data))).word) := by
  have hr := (h.undeliver p pk).reach (b := pk.addr.toNat) (k := 32) (by decide) ⟨le_rfl, le_rfl⟩
  have hnum : leNat ((s.undeliver p pk).bytes pk.addr.toNat 32) = s.num pk.addr.toNat 32 := congrArg leNat (s.undeliver_bytes ..)
  have stored {d : List Byte} (hd : d.length = 32) : ∃ t,
      (s.undeliver p pk).putPlace (packetRouter p.val pk) pk.ctx.toNat (.die pk.addr.toNat) d false = (stOk, t) ∧
      Placed (s.undeliver p pk) t pk.addr.toNat d := State.Reach.putPlace (by rwa [hd]) _
  cases hs : bit pk.body 0 with
  | true =>
    obtain ⟨t, ht, hp⟩ := stored hlen
    refine ⟨t, exec_rputPacket_one ha hr.first hlen hb ?_, hp⟩
    unfold State.rputElem
    rw [hr.first.remotePlace, hs]
    exact ht
  | false =>
    obtain ⟨t, ht, hp⟩ := stored (natLe_length 32 ((Ala.ofWord (s.num pk.addr.toNat 32)).add (Ala.ofWord (leNat pk.data))).word)
    refine ⟨t, exec_rputPacket_one ha hr.first hlen hb ?_, hp⟩
    unfold State.rputElem
    rw [hr.first.remotePlace, hs]
    dsimp only
    rw [hr.reads, hnum]
    exact ht

/-! ### A PUT that is refused (R325) -/

/-- No slab and no cluster memory holds the byte. -/
def offDie (a : Nat) : Prop := ∀ k w, regionOf a ≠ .cluster ∧ regionOf a ≠ .slab k w

theorem offDie_iff : offDie a ↔ ¬ (0x20000000 ≤ a ∧ a < 0x110000000 ∧ (a - 0x20000000) % 0x4000000 < 0x3000000) ∧
    ¬ (0x200000000 ≤ a ∧ a < 0x3E0000000 ∧ (a - 0x200000000) % 0x800000 % 0x200000 < 0x180000 ∧ (a - 0x200000000) % 0x800000 < 0x600000) := by
  unfold offDie regionOf slabRegion past
  split_ifs <;> simp <;> omega

/-- A 64-byte word lies off the die as a whole. -/
theorem offDie.word (h : offDie a) {k : Nat} (hk : k < 64 - a % 64) : offDie (a + k) := by
  rw [offDie_iff] at h ⊢
  omega

theorem offDie.remotePlace (h : offDie a) (hlt : a < 2 ^ 37) (s : State) (ctx : Nat) (write : Bool) :
    s.remotePlace ctx a write = (.inl stIllegal, s) := by
  unfold State.remotePlace
  dsimp only
  rw [rTier_of_lt hlt, rOffset_of_lt hlt, if_neg Bool.false_ne_true]
  split
  · rename_i e
    exact absurd e (h 0 0).1
  · rename_i k w e
    exact absurd e (h k w).2
  · rfl

theorem piecesOf_word (h1 : 1 ≤ n) (h2 : n ≤ 64 - a % 64) : piecesOf a n = [(a, n)] := by
  unfold piecesOf pieces pieces
  simp [Nat.min_eq_left h2]
  omega

/-- A fold that no element of the list moves. -/
theorem foldl_stays {α β : Type} {f : α → β → α} {x : α} {l : List β} (h : ∀ y ∈ l, f x y = x) : l.foldl f x = x := by
  induction l with
  | nil => rfl
  | cons y l ih =>
    rw [List.foldl_cons, h y List.mem_cons_self]
    exact ih fun z hz => h z (List.mem_cons_of_mem y hz)

/-- Data for a word off the die is refused with nothing written, whatever of it is poisoned. -/
theorem State.serveWrite_offDie (h : offDie a) (hlt : a < 2 ^ 37) (h1 : 1 ≤ d.length) (h2 : d.length ≤ 64 - a % 64) (ctx bad : Nat) :
    s.serveWrite r ctx a d bad = (stIllegal, s) := by
  have hplace (p : Nat × Nat) (hp : a ≤ p.1 ∧ p.1 < a + d.length) (t : State) : t.remotePlace ctx p.1 true = (.inl stIllegal, t) := by
    have := h.word (k := p.1 - a) (by omega)
    rw [show a + (p.1 - a) = p.1 by omega] at this
    exact this.remotePlace (by omega) t ctx true
  unfold State.serveWrite landData
  dsimp only
  rw [piecesOf_word h1 h2, List.foldl_cons, List.foldl_nil, hplace (a, d.length) ⟨le_rfl, by omega⟩]
  refine foldl_stays fun p hp => ?_
  have := (halvesOf_cuts a d.length).mem p (List.mem_of_mem_filter hp)
  dsimp only
  rw [hplace p (by omega)]
  rfl

theorem exec_putPacket_offDie (h : offDie pk.addr.toNat) (hlt : pk.addr.toNat < 2 ^ 37) (h1 : 1 ≤ pk.data.length)
    (h2 : pk.data.length ≤ 64 - pk.addr.toNat % 64) :
    exec (.putPacket p pk) s = .next ((s.undeliver p pk).inject (ackOf pk stIllegal)) := by
  show Host.Outcome.next ((s.undeliver p pk).putPacket p pk) = _
  unfold State.putPacket
  dsimp only
  rw [State.serveWrite_offDie h hlt h1 h2]

end

end Sys2Proof.Machine
end

section
/-! NOTIFY, SYNC and SYNCUPD at their destination (R306, R307, R330, R336), and the settling of O52. -/

namespace Sys2Proof.Machine

section
variable {s t u v : State} {p : PortId} {pk : Packet} {r : SyncReply}

/-! ### Answers that set out -/

/-- An answer that sets out from the destination's own state. -/
theorem State.injected (s : State) (p : PortId) (pk k : Packet) :
    ((s.undeliver p pk).inject k).fab = { (s.undeliver p pk).fab with inject := (s.undeliver p pk).fab.inject ++ [k] } ∧
      KeptBut [.fab] s ((s.undeliver p pk).inject k) :=
  ⟨rfl, ((Keeps.refl s).undeliver p pk rfl |>.inject k rfl).kept⟩

theorem State.inject_fab_of {f : Fabric} (h : t.fab = f) (k : Packet) : (t.inject k).fab = { f with inject := f.inject ++ [k] } := by
  subst h
  rfl

/-! ### NOTIFY (R330) -/

/-- The addition that a NOTIFY asks for. -/
def notifyAdd (pk : Packet) : CounterAdd :=
  { index := BitVec.ofNat 16 (fld pk.body 15 0), inc := BitVec.ofNat 8 (fld pk.body 23 16), ctx := pk.ctx, src := some pk.src }

theorem notifyAdd_index (pk : Packet) : (notifyAdd pk).index.toNat = fld pk.body 15 0 := toNat_ofNat_fld pk.body 15 0

theorem notifyAdd_inc (pk : Packet) : (notifyAdd pk).inc.toNat = fld pk.body 23 16 := toNat_ofNat_fld pk.body 23 16

theorem exec_notifyPacket (s : State) (p : PortId) (pk : Packet) :
    exec (.notifyPacket p pk) s = .next (((s.undeliver p pk).counterAdd (notifyAdd pk)).inject (ackOf pk stOk)) := rfl

theorem SyncEnt.fits_notify (e : SyncEnt) (pk : Packet) : e.fits (notifyAdd pk) ↔
    e.st = .inUse ∧ e.inc.toNat = fld pk.body 23 16 ∧ e.owner = pk.ctx ∧ e.ty = tyCounter := by
  unfold SyncEnt.fits
  rw [← notifyAdd_inc, BitVec.toNat_inj]
  rfl

theorem notifyPacket_adds (hfit : (s.ent (fld pk.body 15 0)).fits (notifyAdd pk)) (hw : ∀ r ∈ s.sync.waits, r.on (fld pk.body 15 0) = false)
    (hm : ∀ m ∈ s.sync.homeSubs, m.index.toNat ≠ fld pk.body 15 0) : Completes (.notifyPacket p pk) s (fun t =>
      t.fab = { (s.undeliver p pk).fab with inject := (s.undeliver p pk).fab.inject ++ [ackOf pk stOk] } ∧
      t.ent (fld pk.body 15 0) = { s.ent (fld pk.body 15 0) with value := (s.ent (fld pk.body 15 0)).value + 1 } ∧
      (∀ j, j ≠ fld pk.body 15 0 → t.ent j = s.ent j) ∧ KeptBut [.fab, .sync] s t) := by
  have hix := notifyAdd_index pk
  have hadd := State.counterAdd_fits (s := s.undeliver p pk) (a := notifyAdd pk) (by rw [hix]; exact hfit) (by rw [hix]; exact hw)
    fun m hm' e => hm m hm' (by rw [e, hix])
  rw [hix] at hadd
  have hexec := exec_notifyPacket s p pk
  rw [hadd] at hexec
  refine ⟨_, hexec, rfl, (State.ent_setEnt ..).trans (if_pos rfl),
    fun j hj => (State.ent_setEnt ..).trans (if_neg hj), ((Keeps.refl s).undeliver p pk rfl |>.setEnt _ _ rfl |>.inject _ rfl).kept⟩

theorem exec_notifyPacket_discards (hfit : ¬ (s.ent (fld pk.body 15 0)).fits (notifyAdd pk)) : exec (.notifyPacket p pk) s =
    .next (((s.undeliver p pk).discardMsg (homeHalf (fld pk.body 15 0)) (mkHandle s.selfId (fld pk.body 23 16) (fld pk.body 15 0))
      pk.src.toNat).inject (ackOf pk stOk)) := by
  have hadd := State.counterAdd_unfit_remote (s := s.undeliver p pk) (a := notifyAdd pk) (src := pk.src)
    (by rw [notifyAdd_index]; exact hfit) rfl
  rw [notifyAdd_index, notifyAdd_inc] at hadd
  rw [exec_notifyPacket, hadd]
  rfl

/-- Where no record is asked for, a discard counts and no more. -/
theorem State.discardMsg_counts (h : bit (s.rg oSynCfg) 0 = false) (half handle src : Nat) : s.discardMsg half handle src = s.discard half := by
  unfold State.discardMsg
  dsimp only
  rw [show (s.discard half).rg oSynCfg = s.rg oSynCfg from State.rg_setRg_ne (by unfold oSynCfg oDiscard; omega) s _, h]
  rfl

theorem notifyPacket_counts (hfit : ¬ (s.ent (fld pk.body 15 0)).fits (notifyAdd pk)) (hc : bit (s.rg oSynCfg) 0 = false) :
    Completes (.notifyPacket p pk) s (fun t =>
      t.fab = { (s.undeliver p pk).fab with inject := (s.undeliver p pk).fab.inject ++ [ackOf pk stOk] } ∧ KeptBut [.fab, .regs] s t ∧
      t.rg (oDiscard (homeHalf (fld pk.body 15 0))) =
        BitVec.ofNat 64 (min ((s.rg (oDiscard (homeHalf (fld pk.body 15 0)))).toNat + 1) 0xFFFFFFFF)) := by
  have hexec := exec_notifyPacket_discards (p := p) hfit
  rw [State.discardMsg_counts (s := s.undeliver p pk) hc] at hexec
  refine ⟨_, hexec, rfl,
    ((Keeps.refl s).undeliver p pk rfl |>.discard _ rfl |>.inject _ rfl).kept, State.rg_setRg ..⟩

/-! ### SYNC (R306) -/

/-- What every answer to an operation of another module carries (R328, log 24). -/
structure SyncAnswer (pk k : Packet) (r : SyncReply) : Prop where
  type : k.ptype = pkSyncRsp
  spent : bit k.addr 0 = r.spent
  dest : k.dest = pk.src
  tag : k.tag = pk.tag
  inc : k.tagInc = pk.tagInc
  fibre : k.fibre = pk.fibre
  status : k.status = r.status
  result : fld k.body 7 0 = r.status.toNat
  value : fld k.body 127 64 = r.value.toNat

/-- The packet that answers an operation of another module. -/
def State.syncAnswer (s : State) (pk : Packet) (r : SyncReply) : Packet :=
  { s.mkReq pkSyncRsp pk.fibre.toNat pk.src.toNat 0 pk.tag.toNat pk.tagInc with
    vc := 2, status := r.status, addr := BitVec.ofNat 64 (b2n r.spent), body := BitVec.ofNat 320 (pack [(64, r.status.toNat), (64, r.value.toNat)]) }

theorem pack_status_value (r : SyncReply) : pack [(64, r.status.toNat), (64, r.value.toNat)] = r.status.toNat + 2 ^ 64 * r.value.toNat := by
  have hs := r.status.isLt
  have hv := r.value.isLt
  unfold pack pack pack
  omega

theorem State.syncAnswer_answers (s : State) (pk : Packet) (r : SyncReply) : SyncAnswer pk (s.syncAnswer pk r) r := by
  have hs := r.status.isLt
  have hv := r.value.isLt
  refine ⟨rfl, ?_, ?_, ?_, rfl, ?_, rfl, ?_, ?_⟩
  · show bit (BitVec.ofNat 64 (b2n r.spent)) 0 = r.spent
    cases r.spent <;> rfl
  · exact BitVec.ofNat_toNat ..
  · exact BitVec.ofNat_toNat ..
  · exact BitVec.ofNat_toNat ..
  · unfold State.syncAnswer
    dsimp only
    rw [fld_ofNat (by decide) (by decide), pack_status_value]
    omega
  · unfold State.syncAnswer
    dsimp only
    rw [fld_ofNat (by decide) (by decide), pack_status_value]
    omega

/-- The operation is a WAIT that stands: its half is to subscribe (R307). -/
def State.remoteWaits (s : State) (pk : Packet) : Bool :=
  let w := packetCmd pk
  let e := s.ent (handleIx (syncHandle w))
  decide (cOpc w = 0x11) && !bit w 156 && !e.stale (syncHandle w) pk.ctx.toNat && decide (waitEval e (fld w 148 101) (fld w 155 154) false = .waits)

theorem exec_syncPacket_done (hw : (s.undeliver p pk).remoteWaits pk = false)
    (h : (s.undeliver p pk).syncAt (.remote pk.src pk.tag pk.tagInc pk.fibre) pk.ctx.toNat (packetCmd pk) = (some r, v)) :
    exec (.syncPacket p pk) s = .next (v.inject (v.syncAnswer pk r)) := by
  show Host.Outcome.next ((s.undeliver p pk).syncPacket pk) = _
  unfold State.syncPacket
  exact congrArg _ ((if_neg (ne_true_of_eq_false hw)).trans (by rw [show State.syncAt _ _ _ _ = _ from h]; rfl))

/-- The answer in progress to a WAIT on an object (log 24). -/
def inProgress (e : SyncEnt) (refused : Bool) : SyncReply := { status := 0xFF, value := subWord e refused }

theorem exec_syncPacket_record (hw : (s.undeliver p pk).remoteWaits pk = false)
    (h : (s.undeliver p pk).syncAt (.remote pk.src pk.tag pk.tagInc pk.fibre) pk.ctx.toNat (packetCmd pk) = (none, v)) : exec (.syncPacket p pk) s =
      .next (v.inject (v.syncAnswer pk (inProgress ((s.undeliver p pk).ent (handleIx (syncHandle (packetCmd pk)))) false))) := by
  show Host.Outcome.next ((s.undeliver p pk).syncPacket pk) = _
  unfold State.syncPacket
  exact congrArg _ ((if_neg (ne_true_of_eq_false hw)).trans (by rw [show State.syncAt _ _ _ _ = _ from h]; rfl))

theorem exec_syncPacket_waits (hw : (s.undeliver p pk).remoteWaits pk = true) :
    exec (.syncPacket p pk) s = .next ((s.undeliver p pk).subscribe pk (handleIx (syncHandle (packetCmd pk)))) := by
  show Host.Outcome.next ((s.undeliver p pk).syncPacket pk) = _
  unfold State.syncPacket
  exact congrArg _ (if_pos hw)

/-! ### Subscriptions at home (R307) -/

variable {ix : Nat}

/-- The subscription that the half of a packet has on an object. -/
def HomeSub.same (m : HomeSub) (pk : Packet) (ix : Nat) : Prop :=
  m.module = pk.src ∧ m.index.toNat = ix ∧ m.half = halfId (fld pk.addr 0 0)

/-- `HomeSub.same` as the home decides it. -/
def sameSub (pk : Packet) (ix : Nat) (m : HomeSub) : Bool :=
  m.module = pk.src && m.index = BitVec.ofNat 16 ix && m.half = halfId (fld pk.addr 0 0)

theorem sameSub_iff (m : HomeSub) (pk : Packet) (hix : ix < 65536) : sameSub pk ix m = true ↔ m.same pk ix := by
  have hidx : m.index = BitVec.ofNat 16 ix ↔ m.index.toNat = ix := by
    rw [← BitVec.toNat_inj, BitVec.toNat_ofNat, Nat.mod_eq_of_lt hix]
  unfold sameSub HomeSub.same
  simp [hidx, and_assoc]

theorem State.any_sameSub (s : State) (pk : Packet) (hix : ix < 65536) :
    s.sync.homeSubs.any (sameSub pk ix) = true ↔ ∃ m ∈ s.sync.homeSubs, m.same pk ix := by
  simp only [List.any_eq_true, sameSub_iff _ pk hix]

/-- The subscriptions at home with that of a packet's half, its next sequence number begun. -/
def State.subsWith (s : State) (pk : Packet) (ix : Nat) : List HomeSub :=
  (if s.sync.homeSubs.any (sameSub pk ix) then s.sync.homeSubs
    else s.sync.homeSubs ++ [{ module := pk.src, half := halfId (fld pk.addr 0 0), index := BitVec.ofNat 16 ix }]).map
      (fun m => if sameSub pk ix m then { m with seq := m.seq + 1 } else m)

theorem State.subsWith_mem (s : State) (pk : Packet) (ix : Nat) : ∃ m ∈ s.subsWith pk ix, sameSub pk ix m = true := by
  have key {l : List HomeSub} {m : HomeSub} (hm : m ∈ l) (h : sameSub pk ix m = true) :
      ∃ m ∈ l.map (fun m => if sameSub pk ix m then { m with seq := m.seq + 1 } else m), sameSub pk ix m = true :=
    ⟨_, List.mem_map_of_mem hm, by rw [if_pos h]; exact h⟩
  unfold State.subsWith
  split
  · rename_i h
    obtain ⟨m, hm, hs⟩ := List.any_eq_true.mp h
    exact key hm hs
  · exact key (List.mem_append_right _ List.mem_cons_self) (by simp [sameSub])

theorem State.subscribe_eq (s : State) (pk : Packet) (ix : Nat) : s.subscribe pk ix =
    if !s.sync.homeSubs.any (sameSub pk ix) && decide (4096 ≤ s.subsAt (homeHalf ix)) then s.inject (s.syncAnswer pk (inProgress (s.ent ix) true))
    else match (s.subsWith pk ix).find? (sameSub pk ix) with
      | none => s.inject (s.syncAnswer pk (inProgress (s.ent ix) false))
      | some m => (({ s.inject (s.syncAnswer pk (inProgress (s.ent ix) false)) with
          sync := { s.sync with homeSubs := s.subsWith pk ix } } : State).inject (s.updPacket m (s.ent ix) stOk)) := by
  unfold State.subscribe
  cases hr : !s.sync.homeSubs.any (sameSub pk ix) && decide (4096 ≤ s.subsAt (homeHalf ix)) with
  | true =>
    have hr' : (!s.sync.homeSubs.any (fun m => m.module = pk.src && m.index = BitVec.ofNat 16 ix && m.half = halfId (fld pk.addr 0 0)) &&
      decide (4096 ≤ s.subsAt (homeHalf ix))) = true := hr
    dsimp only
    rw [hr']
    rfl
  | false =>
    have hr' : (!s.sync.homeSubs.any (fun m => m.module = pk.src && m.index = BitVec.ofNat 16 ix && m.half = halfId (fld pk.addr 0 0)) &&
      decide (4096 ≤ s.subsAt (homeHalf ix))) = false := hr
    dsimp only
    rw [hr']
    rfl

theorem State.subscribe_refused (hix : ix < 65536) (hn : ∀ m ∈ s.sync.homeSubs, ¬ m.same pk ix) (hf : 4096 ≤ s.subsAt (homeHalf ix)) :
    s.subscribe pk ix = s.inject (s.syncAnswer pk (inProgress (s.ent ix) true)) := by
  have hany : s.sync.homeSubs.any (sameSub pk ix) = false :=
    eq_false_of_ne_true fun h => (s.any_sameSub pk hix |>.mp h).elim fun m hm => hn m hm.1 hm.2
  rw [State.subscribe_eq, hany, decide_eq_true hf]
  rfl

/-- A subscription that is taken: the object's subscriptions hold it, and it has the object's state as a first update. -/
theorem State.subscribe_taken (hix : ix < 65536) (h : s.subsAt (homeHalf ix) < 4096 ∨ ∃ m ∈ s.sync.homeSubs, m.same pk ix) :
    ∃ m, m ∈ s.subsWith pk ix ∧ m.same pk ix ∧ s.subscribe pk ix =
      (({ s.inject (s.syncAnswer pk (inProgress (s.ent ix) false)) with sync := { s.sync with homeSubs := s.subsWith pk ix } } : State).inject
        (s.updPacket m (s.ent ix) stOk)) := by
  have hrefused : (!s.sync.homeSubs.any (sameSub pk ix) && decide (4096 ≤ s.subsAt (homeHalf ix))) = false := by
    rcases h with h | h
    · rw [decide_eq_false (Nat.not_le.mpr h), Bool.and_false]
    · rw [(s.any_sameSub pk hix).mpr h]
      rfl
  obtain ⟨m, hm⟩ := Option.isSome_iff_exists.mp (List.find?_isSome.mpr (s.subsWith_mem pk ix))
  refine ⟨m, List.mem_of_find?_eq_some hm, (sameSub_iff m pk hix).mp (List.find?_some hm), ?_⟩
  rw [State.subscribe_eq, hrefused, hm]
  rfl

theorem SyncEnt.fields_lt (e : SyncEnt) : e.fields < 2 ^ 240 := by
  unfold SyncEnt.fields
  split
  · simp only [pack]
    omega
  · split
    · simp only [pack]
      omega
    · have := e.value.isLt
      omega

/-- An update carries the object's fields in its last 30 bytes (log 24). -/
theorem State.updPacket_fields (s : State) (m : HomeSub) (e : SyncEnt) (st : BitVec 8) : fld (s.updPacket m e st).body 319 80 = e.fields := by
  have he := e.fields_lt
  unfold State.updPacket
  dsimp only
  rw [fld_ofNat (by decide) (by decide)]
  simp only [pack]
  omega

theorem subWord_refused (e : SyncEnt) : (subWord e true).toNat.testBit 8 = true := by
  have key : ∀ (ty : BitVec 2) (map : Bool),
      (BitVec.ofNat 64 (pack [(2, ty.toNat), (1, b2n map), (5, 0), (1, b2n true)])).toNat.testBit 8 = true := by decide
  exact key e.ty e.map

/-- The answer to a refused subscription says so. -/
theorem State.syncAnswer_refused (s : State) (pk : Packet) (e : SyncEnt) : bit (s.syncAnswer pk (inProgress e true)).body 72 = true := by
  have hbit : (pack [(64, (inProgress e true).status.toNat), (64, (inProgress e true).value.toNat)]).testBit 72 = true := by
    rw [pack_status_value, Nat.add_comm, Nat.testBit_two_pow_mul_add _ (Nat.lt_trans (BitVec.isLt _) (by decide)), if_neg (by decide)]
    exact subWord_refused e
  exact (BitVec.getLsbD_ofNat ..).trans (by rw [hbit]; rfl)

theorem syncPacket_refuses (hw : (s.undeliver p pk).remoteWaits pk = true) (hix : ix = handleIx (syncHandle (packetCmd pk)))
    (hn : ∀ m ∈ s.sync.homeSubs, ¬ m.same pk ix) (hf : 4096 ≤ s.subsAt (homeHalf ix)) : Completes (.syncPacket p pk) s (fun t =>
      KeptBut [.fab] s t ∧ ∃ k, t.fab.inject = (s.undeliver p pk).fab.inject ++ [k] ∧ k.ptype = pkSyncRsp ∧
        k.status = 0xFF ∧ bit k.body 72 = true ∧ k.dest = pk.src ∧ k.tag = pk.tag) := by
  have hexec := exec_syncPacket_waits hw
  rw [← hix, State.subscribe_refused (s := s.undeliver p pk) (hix ▸ Nat.mod_lt _ (by decide)) hn hf] at hexec
  have ha := (s.undeliver p pk).syncAnswer_answers pk (inProgress ((s.undeliver p pk).ent ix) true)
  exact ⟨_, hexec, (s.injected p pk _).2, _, rfl, ha.type, ha.status, State.syncAnswer_refused .., ha.dest, ha.tag⟩

theorem syncPacket_subscribes (hw : (s.undeliver p pk).remoteWaits pk = true) (hix : ix = handleIx (syncHandle (packetCmd pk)))
    (h : s.subsAt (homeHalf ix) < 4096 ∨ ∃ m ∈ s.sync.homeSubs, m.same pk ix) : Completes (.syncPacket p pk) s (fun t =>
      KeptBut [.fab, .sync] s t ∧ (∃ m ∈ t.sync.homeSubs, m.same pk ix) ∧ t.sync.ents = s.sync.ents ∧ t.sync.waits = s.sync.waits ∧
        ∃ k y, t.fab.inject = (s.undeliver p pk).fab.inject ++ [k, y] ∧ k.ptype = pkSyncRsp ∧ k.status = 0xFF ∧ k.dest = pk.src ∧
          k.tag = pk.tag ∧ y.ptype = pkSyncUpd ∧ y.dest = pk.src ∧ fld y.body 319 80 = ((s.undeliver p pk).ent ix).fields) := by
  obtain ⟨m, hm, hsame, hsub⟩ := State.subscribe_taken (s := s.undeliver p pk) (pk := pk) (hix ▸ Nat.mod_lt _ (by decide)) h
  have hexec := exec_syncPacket_waits hw
  rw [← hix, hsub] at hexec
  have ha := (s.undeliver p pk).syncAnswer_answers pk (inProgress ((s.undeliver p pk).ent ix) false)
  refine ⟨_, hexec, ((Keeps.refl s).undeliver p pk rfl |>.inject _ rfl |>.upd_sync rfl |>.inject _ rfl).kept, ⟨m, hm, hsame⟩, rfl, rfl,
    _, _, List.append_assoc .., ha.type, ha.status, ha.dest, ha.tag, rfl, ?_, State.updPacket_fields ..⟩
  exact (BitVec.ofNat_toNat ..).trans (by rw [hsame.1]; exact BitVec.setWidth_eq _)

/-! ### SYNCUPD (R307) -/

/-- The handle that an update or an end names. -/
def updHandle (pk : Packet) : BitVec 64 := BitVec.ofNat 64 (fld pk.body 63 0)

theorem updHandle_toNat (pk : Packet) : (updHandle pk).toNat = fld pk.body 63 0 := toNat_ofNat_fld pk.body 63 0

theorem exec_syncupd_home (hh : handleMod (updHandle pk).toNat = s.selfId) :
    exec (.syncupd p pk) s = .next ((s.undeliver p pk).endRemote pk) :=
  congrArg Host.Outcome.next (if_pos hh)

theorem syncupd_endsSub (hh : handleMod (updHandle pk).toNat = s.selfId) (h0 : fld pk.addr 1 1 = 0) : Completes (.syncupd p pk) s (fun t =>
    t.fab = (s.undeliver p pk).fab ∧ KeptBut [.fab, .sync] s t ∧ ∀ m, m ∈ t.sync.homeSubs ↔ m ∈ s.sync.homeSubs ∧
      ¬ (m.module = pk.src ∧ m.index.toNat = handleIx (updHandle pk).toNat ∧ m.half.val = fld pk.addr 0 0)) := by
  have hexec := exec_syncupd_home (p := p) hh
  unfold State.endRemote at hexec
  rw [if_pos h0, ← updHandle_toNat] at hexec
  refine ⟨_, hexec, rfl, ((Keeps.refl s).undeliver p pk rfl |>.upd_sync rfl).kept, fun m => List.mem_filter.trans ?_⟩
  have hiff : (!(decide (m.module = pk.src) && decide (m.index.toNat = handleIx (updHandle pk).toNat) &&
      decide (m.half.val = fld pk.addr 0 0))) = true ↔
      ¬ (m.module = pk.src ∧ m.index.toNat = handleIx (updHandle pk).toNat ∧ m.half.val = fld pk.addr 0 0) := by
    simp only [Bool.not_eq_true', ← Bool.not_eq_true, Bool.and_eq_true, decide_eq_true_eq, and_assoc]
  exact and_congr_right fun _ => hiff

/-- The record of another module's WAIT with TAKE that the packet gives up. -/
def WaitRec.givenUp (w : WaitRec) (pk : Packet) : Bool :=
  match w.who with
  | .remote src tag inc _ => decide (src = pk.src) && decide (tag = pk.tag) && decide (inc = pk.tagInc)
  | .unit _ => false

theorem syncupd_endsTake (hh : handleMod (updHandle pk).toNat = s.selfId) (h1 : fld pk.addr 1 1 = 1)
    (hs : settles (s.ent (handleIx (updHandle pk).toNat)) (handleIx (updHandle pk).toNat)
      (s.sync.waits.filter (fun w => !w.givenUp pk)) false = none) :
    Completes (.syncupd p pk) s (fun t => t.fab = (s.undeliver p pk).fab ∧
      t.sync.waits = s.sync.waits.filter (fun w => !w.givenUp pk) ∧ KeptBut [.fab, .sync] s t) := by
  have hexec := exec_syncupd_home (p := p) hh
  unfold State.endRemote at hexec
  rw [if_neg (by rw [h1]; decide), ← updHandle_toNat] at hexec
  rw [State.resettle_none (by exact hs)] at hexec
  exact ⟨_, hexec, rfl, rfl, ((Keeps.refl s).undeliver p pk rfl |>.upd_sync rfl).kept⟩

/-- The subscriptions that take an update. -/
def State.updated (s : State) (pk : Packet) : List MySub :=
  s.sync.mySubs.filter (fun m => m.handle = updHandle pk && decide (m.half.val = fld pk.addr 0 0) &&
    newerSeq m.seq (BitVec.ofNat 16 (fld pk.body 79 64)))

theorem exec_syncupd_away (hh : handleMod (updHandle pk).toNat ≠ s.selfId) : exec (.syncupd p pk) s =
    .next ((s.updated pk).foldl (fun s m => if pk.status = stHandle then s.takeFreed m
      else s.takeUpdate m (some (BitVec.ofNat 16 (fld pk.body 79 64))) (BitVec.ofNat 240 (fld pk.body 319 80))) (s.undeliver p pk)) :=
  congrArg Host.Outcome.next (if_neg hh)

theorem exec_syncupd_none (hh : handleMod (updHandle pk).toNat ≠ s.selfId) (h : s.updated pk = []) :
    exec (.syncupd p pk) s = .next (s.undeliver p pk) := by
  rw [exec_syncupd_away hh, h]
  rfl

variable {m : MySub}

/-- The state's one subscription takes the update. -/
structure State.OneUpdated (s : State) (pk : Packet) (m : MySub) : Prop where
  away : handleMod (updHandle pk).toNat ≠ s.selfId
  only : s.sync.mySubs = [m]
  handle : m.handle = updHandle pk
  half : m.half.val = fld pk.addr 0 0
  newer : newerSeq m.seq (BitVec.ofNat 16 (fld pk.body 79 64)) = true

theorem State.OneUpdated.updated (h : s.OneUpdated pk m) : s.updated pk = [m] := by
  unfold State.updated
  rw [h.only]
  simp [h.handle, h.half, h.newer]

theorem syncupd_freed (h : s.OneUpdated pk m) (hst : pk.status = stHandle) : Completes (.syncupd p pk) s (fun t =>
    t.sync.mySubs = [] ∧ t.sync.waits = s.sync.waits.filter (fun w => !w.mine m.half (updHandle pk)) ∧ KeptBut [.cores, .fab, .sync] s t) := by
  have hexec := exec_syncupd_away (p := p) h.away
  rw [h.updated] at hexec
  refine ⟨(s.undeliver p pk).takeFreed m, hexec.trans (congrArg _ (if_pos hst)), ?_⟩
  obtain ⟨ps, hps⟩ := State.replies_sync { status := stHandle } ((s.undeliver p pk).sync.waits.filter (·.mine m.half m.handle))
    ((s.undeliver p pk).recordsFreed m)
  rw [State.takeFreed_eq, hps, ← State.takeFreed_eq, ← h.handle]
  refine ⟨?_, filter_not_contains _ _, ((s.undeliver_kept p pk).mono rfl).trans ((State.takeFreed_kept _ m).mono rfl)⟩
  show s.sync.mySubs.erase m = []
  rw [h.only, List.erase_cons_head]

/-- A subscription that has taken an update. -/
def MySub.taken (m : MySub) (pk : Packet) : MySub :=
  { m with seq := some (BitVec.ofNat 16 (fld pk.body 79 64)), state := BitVec.ofNat 240 (fld pk.body 319 80) }

/-- A half that a record of its own needs keeps its subscription. -/
theorem MySub.needed_of_mine {l : List WaitRec} (h : ∃ w ∈ l, w.mine m.half m.handle = true) : m.needed l = true := by
  obtain ⟨w, hw, hmine⟩ := h
  refine List.any_eq_true.mpr ⟨w, hw, ?_⟩
  unfold WaitRec.mine recHalf at hmine
  simp only [Bool.and_eq_true, decide_eq_true_eq] at hmine ⊢
  refine ⟨hmine.1, ?_⟩
  have hhalf := hmine.2
  split <;> split at hhalf <;> simp_all

theorem State.prune_needed (h : ∀ m ∈ s.sync.mySubs, m.needed s.sync.waits = true) : s.prune = s := by
  have hgone : s.sync.mySubs.filter (fun m => !m.needed s.sync.waits) = [] :=
    List.filter_eq_nil_iff.mpr fun m hm => by simp [h m hm]
  have hkept : s.sync.mySubs.filter (fun m => m.needed s.sync.waits) = s.sync.mySubs := List.filter_eq_self.mpr h
  unfold State.prune
  dsimp only
  rw [hgone, hkept]
  rfl

/-- The state in which the one subscription has taken an update. -/
def State.oneTaken (s : State) (p : PortId) (pk : Packet) (m : MySub) : State :=
  { s.undeliver p pk with sync := { s.sync with mySubs := [m.taken pk] } }

theorem syncupd_taken (h : s.OneUpdated pk m) (hst : pk.status ≠ stHandle)
    (hwaits : ∀ w ∈ s.sync.waits, w.mine m.half (updHandle pk) = true → waitEval (asEnt (m.taken pk)) w.target.toNat w.cond.toNat w.take = .waits)
    (hneed : ∃ w ∈ s.sync.waits, w.mine m.half (updHandle pk) = true) : Completes (.syncupd p pk) s (fun t =>
      KeptBut [.fab, .sync] s t ∧ t.sync.waits = s.sync.waits ∧ t.sync.mySubs = [m.taken pk]) := by
  rw [← h.handle] at hwaits hneed
  have hmap : s.sync.mySubs.map (fun y => if y = m then m.taken pk else y) = [m.taken pk] := by
    rw [h.only, List.map_singleton, if_pos rfl]
  have htake : (s.undeliver p pk).takeUpdate m (some (BitVec.ofNat 16 (fld pk.body 79 64))) (BitVec.ofNat 240 (fld pk.body 319 80)) =
      s.oneTaken p pk m := by
    calc _ = State.evalRemote { s.undeliver p pk with sync := { s.sync with mySubs := s.sync.mySubs.map (fun y => if y = m then m.taken pk else y) } }
          m.half.val m.handle (asEnt (m.taken pk)) := rfl
      _ = (s.oneTaken p pk m).evalRemote m.half.val m.handle (asEnt (m.taken pk)) := by
        rw [hmap]
        rfl
      _ = (s.oneTaken p pk m).prune := State.evalRemote_none (s := s.oneTaken p pk m) hwaits
      _ = s.oneTaken p pk m := State.prune_needed fun y hy => by
        obtain rfl := List.mem_singleton.mp hy
        exact MySub.needed_of_mine hneed
  have hexec := exec_syncupd_away (p := p) h.away
  rw [h.updated] at hexec
  exact ⟨_, hexec.trans (congrArg _ ((if_neg hst).trans htake)), ((Keeps.refl s).undeliver p pk rfl |>.upd_sync rfl).kept, rfl, rfl⟩

/-! ### O52 -/

/-- An answer that sets out with nothing else done. -/
theorem Completes.answered {i : Instr} {k : Packet} (h : exec i s = .next ((s.undeliver p pk).inject k)) :
    Completes i s (fun t => t.fab = { (s.undeliver p pk).fab with inject := (s.undeliver p pk).fab.inject ++ [k] } ∧ KeptBut [.fab] s t) :=
  ⟨_, h, s.injected p pk k⟩

/-- Data that is stored and acknowledged. -/
theorem Completes.placed {i : Instr} {d : List Byte} {a : Nat}
    (h : ∃ t, exec i s = .next (t.inject (ackOf pk stOk)) ∧ Placed (s.undeliver p pk) t a d) :
    Completes i s (fun t => t.fab = { (s.undeliver p pk).fab with inject := (s.undeliver p pk).fab.inject ++ [ackOf pk stOk] } ∧
      KeptBut [.mem, .chk, .reported, .mems, .cores, .fab] s t ∧ CountsOnly s t ∧
      ∀ x, t.byte x = if a ≤ x ∧ x < a + d.length then d.getD (x - a) 0 else s.byte x) := by
  obtain ⟨t, ht, hp⟩ := h
  exact ⟨_, ht, hp.answered _⟩

/-- The answer to an operation that is applied. -/
theorem syncPacket_answers (hw : (s.undeliver p pk).remoteWaits pk = false)
    (h : (s.undeliver p pk).syncAt (.remote pk.src pk.tag pk.tagInc pk.fibre) pk.ctx.toNat (packetCmd pk) = (some r, v)) :
    Completes (.syncPacket p pk) s (fun t => KeptBut [.fab] v t ∧ ∃ k, t.fab = { v.fab with inject := v.fab.inject ++ [k] } ∧
      SyncAnswer pk k r) :=
  ⟨_, exec_syncPacket_done hw h, ((Keeps.refl v).inject _ rfl).kept, _, rfl, v.syncAnswer_answers pk r⟩

/-- The answer in progress to a WAIT that takes a record. -/
theorem syncPacket_records (hw : (s.undeliver p pk).remoteWaits pk = false)
    (h : (s.undeliver p pk).syncAt (.remote pk.src pk.tag pk.tagInc pk.fibre) pk.ctx.toNat (packetCmd pk) = (none, v)) :
    Completes (.syncPacket p pk) s (fun t => KeptBut [.fab] v t ∧ ∃ k, t.fab = { v.fab with inject := v.fab.inject ++ [k] } ∧
      SyncAnswer pk k (inProgress ((s.undeliver p pk).ent (handleIx (syncHandle (packetCmd pk)))) false)) :=
  ⟨_, exec_syncPacket_record hw h, ((Keeps.refl v).inject _ rfl).kept, _, rfl, v.syncAnswer_answers ..⟩

end

/-- Settles O52: each request is served by the lemma for its type, at the state from which its packet has been taken. -/
theorem fabricRequests : Obligations.FabricRequests := by
  unfold Obligations.FabricRequests
  intro s p pk u a pr space0 Sends Bytes
  refine ⟨fun arr => ⟨fun hk harr => ?_, fun q hk harr => ?_, fun hk => ⟨packetRoute_delivers hk, fun st => packetRoute_drops hk, fun q hr => ?_⟩⟩,
    fun _ h hb => .placed (putPacket_plain h hb), fun hlt hoff h1 h2 => .answered (exec_putPacket_offDie hoff hlt h1 h2),
    fun _ h => ⟨_, getPacket_plain h, (s.injected p pk _).1, fun _ => rfl⟩, ?_, fun _ h ha hlen hb => ?_, ?_, ?_, ?_⟩
  · subst harr
    exact exec_packetRoute_unknown hk
  · subst harr
    exact packetRoute_counts hk
  · have hexec := (exec_packetRoute_known (s := s) hk).trans (congrArg _ (State.routePacket_leave hr))
    refine ⟨fun hh => ?_, fun hh hl => ?_, fun hh hl hc => ?_, fun hh hl hc => packetRoute_sends hk hr hh hl hc⟩
    · rwa [if_pos hh] at hexec
    · rwa [if_neg (Nat.not_le.mpr hh), if_pos hl] at hexec
    · rw [if_neg (Nat.not_le.mpr hh), if_neg (ne_true_of_eq_false hl)] at hexec
      exact hexec.trans (congrArg _ (if_neg (ne_true_of_eq_false hc)))
  · intro n op new
    refine ⟨fun _ h ha hop => ?_, fun h => .answered (exec_atomicPacket_refused rfl h)⟩
    obtain ⟨t, ht, hm, hbyte⟩ := atomicPacket_plain rfl h ha hop
    exact ⟨_, ht, State.inject_fab_of (hm.moves.2 .fab (by decide)) _, hbyte⟩
  · have hrput := rputPacket_plain h ha hlen hb
    refine ⟨fun hs => ?_, fun hs => ?_⟩
    · rw [hs, if_pos rfl] at hrput
      exact .placed hrput
    · rw [hs, if_neg Bool.false_ne_true] at hrput
      exact .placed hrput
  · intro ix e fits
    have hfits : e.fits (notifyAdd pk) ↔ fits := e.fits_notify pk
    exact ⟨fun h => notifyPacket_adds (hfits.mpr h), fun h _ => exec_notifyPacket_discards (mt hfits.mp h),
      fun h => notifyPacket_counts (mt hfits.mp h)⟩
  · intro w e waits
    refine ⟨fun r v hw h => ?_, fun v hw h => ?_, fun hw => syncPacket_refuses hw rfl, fun hw => syncPacket_subscribes hw rfl⟩
    · obtain ⟨t, ht, hkept, k, hfab, ha⟩ := syncPacket_answers hw h
      exact ⟨t, ht, hkept, k, hfab, ha.type, ha.spent, ha.dest, ha.tag, ha.inc, ha.fibre, ha.status, ha.result, ha.value⟩
    · obtain ⟨t, ht, hkept, k, hfab, ha⟩ := syncPacket_records hw h
      exact ⟨t, ht, hkept, k, hfab, ha.type, ha.dest, ha.tag, ha.inc, ha.status⟩
  · intro h st mine ix gone
    refine ⟨syncupd_endsSub, syncupd_endsTake, exec_syncupd_none, fun m hh honly hhandle hhalf hnew => ?_,
      fun m hh honly hhandle hhalf hnew hst hwaits hneed => ?_⟩
    · exact syncupd_freed ⟨hh, honly, hhandle, hhalf, hnew⟩
    · exact syncupd_taken ⟨hh, honly, hhandle, hhalf, hnew⟩ hst hwaits hneed

end Sys2Proof.Machine
end

section
/-! Answers to fabric requests (R328, R330, R331, R333): an answer with no request, and what an answer tells its command where no core
waits for a tag. -/

namespace Sys2Proof.Machine

/-! ### Entries of a map -/

section
variable {α : Type} {d : α} {m : KV α} {k : Nat} {v : α} {e : Nat × α}

theorem KV.mem_del (h : e ∈ KV.del m k) : e ∈ m := by
  induction m with
  | nil => exact h
  | cons x m ih =>
    unfold KV.del at h
    split at h
    · exact List.mem_cons_of_mem _ (ih h)
    · rcases List.mem_cons.mp h with rfl | h
      · exact List.mem_cons_self
      · exact List.mem_cons_of_mem _ (ih h)

theorem KV.mem_ins (h : e ∈ KV.ins m k v) : e ∈ m ∨ e = (k, v) := by
  induction m with
  | nil => exact .inr (List.mem_singleton.mp h)
  | cons x m ih =>
    unfold KV.ins at h
    split at h
    · rcases List.mem_cons.mp h with h | h
      · exact .inr h
      · exact .inl (List.mem_cons_of_mem _ h)
    · split at h
      · rcases List.mem_cons.mp h with h | h
        · exact .inr h
        · exact .inl h
      · rcases List.mem_cons.mp h with rfl | h
        · exact .inl List.mem_cons_self
        · exact (ih h).imp_left (List.mem_cons_of_mem _)

theorem KV.mem_put [DecidableEq α] (h : e ∈ KV.put d m k v) : e ∈ m ∨ e = (k, v) := by
  unfold KV.put at h
  split at h
  · exact .inl (KV.mem_del h)
  · exact KV.mem_ins h

/-- What a map gives is listed, or it is the default. -/
theorem KV.get_listed (d : α) (m : KV α) (k : Nat) : (k, KV.get d m k) ∈ m ∨ KV.get d m k = d := by
  induction m with
  | nil => exact .inr rfl
  | cons x m ih =>
    unfold KV.get
    split
    · rename_i h
      exact .inl (h ▸ List.mem_cons_self)
    · exact ih.imp_left (List.mem_cons_of_mem _)

end

section
variable {s t u : State} {p : PortId} {pk : Packet} {r : FabReq} {q : QEnt} {k : Core} {c : Nat} {st : BitVec 8} {quar : Bool}

/-! ### Cores that wait for no tag -/

/-- The access engine of a core holds no command that waits for a tag: none at the head of its queue, and no NOTIFY that is due. -/
def Core.tagIdle (k : Core) : Prop :=
  (∀ q, (k.queue 3).head? = some q → q.id = 0 ∨ q.await ≠ []) ∧
    ∀ q ∈ k.run 3, q.id = 0 ∨ fbNotify q.w = false ∨ q.notify = true ∨ q.await ≠ [1]

theorem Core.tagIdle_default : ({} : Core).tagIdle := by
  constructor
  · intro q hq
    rw [Core.queue, KV.get_nil] at hq
    exact absurd hq (by simp)
  · intro q hq
    rw [Core.run, KV.get_nil] at hq
    exact absurd hq (by simp)

theorem Core.tagIdle.steady (h : k.tagIdle) {j : Core} (hs : Core.Steady k j) : j.tagIdle := by
  unfold Core.tagIdle Core.queue Core.run at *
  rw [hs.queues, hs.running]
  exact h

/-- No core waits for a tag. -/
structure State.TagIdle (s : State) : Prop where
  cores : ∀ e ∈ s.cores, e.2.tagIdle

theorem State.TagIdle.core (h : s.TagIdle) (c : Nat) : (s.core c).tagIdle := by
  rcases KV.get_listed {} s.cores c with hc | hc
  · exact h.cores _ hc
  · unfold State.core
    rw [hc]
    exact Core.tagIdle_default

theorem State.TagIdle.of_cores (h : s.TagIdle) (hc : t.cores = s.cores) : t.TagIdle := by
  refine ⟨?_⟩
  rw [hc]
  exact h.cores

theorem State.TagIdle.modCore (h : s.TagIdle) {f : Core → Core} (hf : (f (s.core c)).tagIdle) : (s.modCore c f).TagIdle := by
  refine ⟨fun e he => ?_⟩
  rcases KV.mem_put he with he | rfl
  · exact h.cores e he
  · exact hf

theorem State.TagIdle.steady (h : s.TagIdle) {f : Core → Core} (hf : ∀ k, Core.Steady k (f k)) : (s.modCore c f).TagIdle :=
  h.modCore ((h.core c).steady (hf _))

theorem State.TagIdle.count (h : s.TagIdle) (c o n : Nat) : (s.count c o n).TagIdle := h.steady fun _ => ⟨rfl, rfl, rfl⟩

theorem State.TagIdle.progress (h : s.TagIdle) (c e n : Nat) : (s.progress c e n).TagIdle := h.steady fun _ => ⟨rfl, rfl, rfl⟩

theorem State.TagIdle.copied (h : s.TagIdle) (c a n : Nat) : (s.copied c a n).TagIdle := h.steady fun _ => ⟨rfl, rfl, rfl⟩

theorem State.TagIdle.dropUnread (h : s.TagIdle) (c : Nat) (f : Nat → Bool) : (s.dropUnread c f).TagIdle := by
  unfold State.dropUnread
  dsimp only
  split
  · exact h
  · exact (h.steady (f := fun k => { k with unread := k.unread.filter (fun e => !f e.1) }) fun _ => ⟨rfl, rfl, rfl⟩).count ..

theorem State.TagIdle.rewritten (h : s.TagIdle) (c a n : Nat) : (s.rewritten c a n).TagIdle := by
  unfold State.rewritten
  split
  · exact h
  · exact h.dropUnread ..

theorem State.TagIdle.writeDie (h : s.TagIdle) (ctx a : Nat) (d : List Byte) (poison : Bool) : (s.writeDie ctx a d poison).2.TagIdle :=
  have hk : KeptBut [.mem, .host, .chk, .reported, .regs, .mems, .hif, .board, .husk] s (s.writeDie ctx a d poison).2 :=
    ((Keeps.refl s).writeDie ctx a d poison rfl).kept
  h.of_cores (hk .cores (by decide))

theorem State.TagIdle.engWrite (h : s.TagIdle) (c ctx a : Nat) (d : List Byte) : (s.engWrite c ctx a d).2.TagIdle := by
  unfold State.engWrite
  dsimp only
  split
  · exact h.writeDie ..
  · exact (h.dropUnread ..).writeDie ..

theorem State.TagIdle.ite {a : Prop} [Decidable a] (h : s.TagIdle) (g : t.TagIdle) : (if a then s else t).TagIdle := by
  split
  · exact h
  · exact g

theorem State.TagIdle.writeAt (h : s.TagIdle) (ctx a : Nat) (d : List Byte) (poison : Bool) : (s.writeAt ctx (.die a) d poison).2.TagIdle :=
  h.writeDie ctx a d poison

theorem State.TagIdle.putPlace (h : s.TagIdle) (c ctx a : Nat) (d : List Byte) (poison : Bool) :
    (s.putPlace c ctx (.die a) d poison).2.TagIdle := by
  unfold State.putPlace State.writeVia
  dsimp only
  cases slabCore a with
  | none =>
    dsimp only [Option.map]
    split
    · exact h
    · split
      · exact h.writeAt ..
      · exact h.writeAt ..
  | some x =>
    dsimp only [Option.map]
    split
    · exact h
    · exact .ite (((h.rewritten ..).writeAt ..).copied ..) ((h.rewritten ..).writeAt ..)

/-- Data that lands on the die lets no core wait for a tag. -/
theorem State.TagIdle.landData {place : State → Nat → Bool → (BitVec 8 ⊕ Place) × State} {a : Nat} {d : List Byte}
    (hplace : ∀ t x, a ≤ x → x < a + d.length → place t x true = (.inr (.die x), t)) (h : s.TagIdle) (c ctx bad : Nat) :
    (Machine.landData place s c ctx a d bad).2.TagIdle := by
  have hpiece := (piecesOf_cuts a d.length).mem
  have hhalf := (halvesOf_cuts a d.length).mem
  unfold Machine.landData
  dsimp only
  refine List.foldlRecOn _ _ (motive := fun x : BitVec 8 × State => x.2.TagIdle)
    (List.foldlRecOn _ _ (motive := fun x : BitVec 8 × State => x.2.TagIdle) h fun x hx p hp => ?_) fun x hx p hp => ?_
  · have := hpiece p hp
    rw [hplace x.2 p.1 (by omega) (by omega)]
    exact hx.putPlace ..
  · have := hhalf p (List.mem_of_mem_filter hp)
    rw [hplace x.2 p.1 (by omega) (by omega)]
    exact hx.putPlace ..

theorem State.retryNotify_idle (h : s.TagIdle) : s.retryNotify = s := by
  unfold State.retryNotify
  refine foldl_stays fun e _ => foldl_stays fun q hq => if_neg ?_
  have := (h.core e.1).2 q hq
  simp only [Bool.and_eq_true, decide_eq_true_eq, Bool.not_eq_true']
  rintro ⟨⟨⟨⟨hid, hn⟩, hnot⟩, haw⟩, -⟩
  rcases this with h | h | h | h
  · exact hid h
  · rw [h] at hn
    exact Bool.false_ne_true hn
  · rw [h] at hnot
    exact Bool.false_ne_true hnot.symm
  · exact h haw

/-- A fold over what a filter leaves of a list, where it leaves nothing. -/
theorem foldl_filter_none {α β : Type} (f : α → β → α) (x : α) {g : β → Bool} {l : List β} (h : ∀ y ∈ l, g y = false) :
    (l.filter g).foldl f x = x := by
  rw [List.filter_eq_nil_iff.mpr fun y hy => ne_true_of_eq_false (h y hy)]
  rfl

/-- Where no core waits for a tag, one that comes free starts nothing. -/
theorem State.wakeHeld_idle (h : s.TagIdle) : s.wakeHeld = s := by
  unfold State.wakeHeld
  dsimp only
  rw [State.retryNotify_idle h]
  refine foldl_filter_none _ _ fun e he => ?_
  have hhead := (h.cores e he).1
  split
  · rename_i q l hq
    rw [hq] at hhead
    rw [Bool.and_eq_false_iff, decide_eq_false_iff_not, ← Bool.not_eq_true, List.isEmpty_iff]
    exact (hhead q rfl).imp_left not_not.mpr
  · rfl

end
end Sys2Proof.Machine
end

section
/-! What the outcome of one packet tells its command (R328, R333). -/

namespace Sys2Proof.Machine

section
variable {s t u : State} {p : PortId} {pk : Packet} {r : FabReq} {q : QEnt} {k : Core} {c : Nat} {st : BitVec 8} {quar : Bool}

/-! ### The entry -/

/-- The entry of a command that has the outcome of one packet. -/
def QEnt.packetDone (q : QEnt) (r : FabReq) (st : BitVec 8) : QEnt :=
  if r.ptype = pkNotify then (if st = stOk then q else q.addBit 4) else q.outcome st

theorem QEnt.packetDone_eq (q : QEnt) (r : FabReq) (st : BitVec 8) : ∃ g b, q.packetDone r st = { q with got := g, bitmap := b } := by
  unfold QEnt.packetDone
  split
  · split
    · exact ⟨_, _, rfl⟩
    · exact ⟨_, _, rfl⟩
  · exact ⟨_, _, rfl⟩

theorem QEnt.packetDone_w (q : QEnt) (r : FabReq) (st : BitVec 8) : (q.packetDone r st).w = q.w := by
  obtain ⟨g, b, h⟩ := q.packetDone_eq r st
  rw [h]

theorem QEnt.packetDone_id (q : QEnt) (r : FabReq) (st : BitVec 8) : (q.packetDone r st).id = q.id := by
  obtain ⟨g, b, h⟩ := q.packetDone_eq r st
  rw [h]

theorem QEnt.packetDone_notify (q : QEnt) (r : FabReq) (st : BitVec 8) : (q.packetDone r st).notify = q.notify := by
  obtain ⟨g, b, h⟩ := q.packetDone_eq r st
  rw [h]

theorem QEnt.packetDone_pushed (q : QEnt) (r : FabReq) (st : BitVec 8) : (q.packetDone r st).pushed = q.pushed := by
  obtain ⟨g, b, h⟩ := q.packetDone_eq r st
  rw [h]

theorem State.rowsDone_packetDone (s : State) (q : QEnt) (r : FabReq) (st : BitVec 8) : s.rowsDone (q.packetDone r st) = s.rowsDone q := by
  obtain ⟨g, b, h⟩ := q.packetDone_eq r st
  rw [h]
  rfl

/-- The operand queue that a GET fills (R225). -/
def QEnt.fills (q : QEnt) : Option Nat := if cOpc q.w = 0x61 then queueOf (fbLocal q.w) else none

/-- The entry once its rows are pushed: done, or with packets still to be answered. -/
def QEnt.told (b : QEnt) (last : Bool) (n : Nat) : QEnt :=
  if last then { b.fabStatus with await := [], pushed := n } else { b with await := [1], pushed := n }

theorem QEnt.told_w (b : QEnt) (last : Bool) (n : Nat) : (b.told last n).w = b.w := by cases last <;> rfl

theorem QEnt.told_notify (b : QEnt) (last : Bool) (n : Nat) : (b.told last n).notify = b.notify := by cases last <;> rfl

theorem QEnt.told_await (b : QEnt) (last : Bool) (n : Nat) : (b.told last n).await ≠ [dmUnsent] := by
  cases last
  · show [1] ≠ [100]
    decide
  · exact (List.cons_ne_nil _ _).symm

/-! ### The state -/

/-- An operand queue, where one is named, has n entries more. -/
def State.rowsPushed (s : State) (c : Nat) (o : Option Nat) (n : Nat) : State :=
  match o with
  | some i => s.modCore c (fun k => { k with opqs := KV.put {} k.opqs i { k.opq i with tail := (k.opq i).tail + BitVec.ofNat 32 n } })
  | none => s

/-- Rows that are pushed now. -/
def State.rowsNew (s : State) (q : QEnt) : Nat := if q.fills.isSome then s.rowsDone q - q.pushed else 0

theorem State.pushRows_eq (s : State) (c : Nat) (q : QEnt) :
    s.pushRows c q = (s.rowsPushed c q.fills (s.rowsNew q), { q with pushed := q.pushed + s.rowsNew q }) := by
  unfold State.pushRows State.rowsNew QEnt.fills
  by_cases ho : cOpc q.w = 0x61
  · rw [if_pos ho, decide_eq_true ho]
    cases queueOf (fbLocal q.w) with
    | none => rfl
    | some i => rfl
  · rw [if_neg ho, decide_eq_false ho]
    cases queueOf (fbLocal q.w) with
    | none => rfl
    | some i => rfl

/-- A command with no NOTIFY due waits for its packets or is done. -/
theorem State.fabAdvance_told (h : fbNotify q.w = false ∨ q.notify = true) (ctx : Nat) :
    s.fabAdvance c ctx q = (s, q.told (s.reqsOf q.id).isEmpty q.pushed) := by
  have hn : (fbNotify q.w && !q.notify) = false := by
    rcases h with h | h
    · rw [h]
      rfl
    · rw [h, Bool.not_true, Bool.and_false]
  unfold State.fabAdvance
  rw [hn]
  cases (s.reqsOf q.id).isEmpty <;> rfl

/-- The entry takes the place of another among the commands in execution. -/
def Core.replaceRun (k : Core) (q q' : QEnt) : Core := k.setRun 3 ((k.run 3).map (fun x => if x = q then q' else x))

theorem Core.run_replaceRun (k : Core) (q q' : QEnt) : (k.replaceRun q q').run 3 = (k.run 3).map (fun x => if x = q then q' else x) :=
  Core.run_setRun ..

/-- An entry with no NOTIFY due leaves the core waiting for no tag. -/
theorem Core.tagIdle.replaceRun {q' : QEnt} (h : k.tagIdle) (hn : fbNotify q'.w = false ∨ q'.notify = true) (q : QEnt) :
    (k.replaceRun q q').tagIdle := by
  refine ⟨h.1, fun x hx => ?_⟩
  rw [Core.run_replaceRun] at hx
  obtain ⟨y, hy, rfl⟩ := List.mem_map.mp hx
  split
  · exact .inr (hn.imp_right .inl)
  · exact h.2 y hy

/-- So does it leave the core calm where it waits for no Damson. -/
theorem Core.calm_replaceRun {q' : QEnt} (h : k.calm) (hq : q'.await ≠ [dmUnsent]) (q : QEnt) : (k.replaceRun q q').calm := by
  refine Core.calm_setRun h fun x hx => ?_
  obtain ⟨y, hy, rfl⟩ := List.mem_map.mp hx
  split
  · exact hq
  · exact h.2.1 y hy

/-- The state in which a command in execution has the outcome of one packet. -/
def State.packetTold (s : State) (r : FabReq) (quar : Bool) (q : QEnt) (st : BitVec 8) : State :=
  let v := s.freeReq r quar
  (v.rowsPushed r.core.val q.fills (v.rowsNew q)).modCore r.core.val fun k =>
    k.replaceRun q ((q.packetDone r st).told (v.reqsOf q.id).isEmpty (q.pushed + v.rowsNew q))

theorem QEnt.fills_packetDone (q : QEnt) (r : FabReq) (st : BitVec 8) : (q.packetDone r st).fills = q.fills := by
  unfold QEnt.fills
  rw [q.packetDone_w]

theorem State.rowsNew_packetDone (s : State) (q : QEnt) (r : FabReq) (st : BitVec 8) : s.rowsNew (q.packetDone r st) = s.rowsNew q := by
  unfold State.rowsNew
  rw [q.fills_packetDone, s.rowsDone_packetDone, q.packetDone_pushed]

theorem QEnt.told_pushed (b : QEnt) (last : Bool) (m n : Nat) : ({ b with pushed := m } : QEnt).told last n = b.told last n := by
  cases last <;> rfl

theorem State.rowsPushed_reqsOf (s : State) (c : Nat) (o : Option Nat) (n id : Nat) : (s.rowsPushed c o n).reqsOf id = s.reqsOf id := by
  cases o <;> rfl

/-- Rows are pushed, and the command goes on. -/
theorem State.pushed_advance (hn : fbNotify q.w = false ∨ q.notify = true) (c ctx : Nat) (r : FabReq) (st : BitVec 8) :
    (s.pushRows c (q.packetDone r st)).1.fabAdvance c ctx (s.pushRows c (q.packetDone r st)).2 =
      (s.rowsPushed c q.fills (s.rowsNew q), (q.packetDone r st).told (s.reqsOf q.id).isEmpty (q.pushed + s.rowsNew q)) := by
  rw [State.pushRows_eq, q.fills_packetDone, s.rowsNew_packetDone, q.packetDone_pushed]
  refine (State.fabAdvance_told ?_ ctx).trans ?_
  · rwa [q.packetDone_w, q.packetDone_notify]
  · rw [State.rowsPushed_reqsOf, QEnt.told_pushed, q.packetDone_id]

theorem State.answered_run (hq : ((s.core r.core.val).run 3).find? (fun x => x.id = r.id) = some q) (hr : st = stRetry → r.ptype = pkNotify)
    (hn : fbNotify q.w = false ∨ q.notify = true) :
    s.answered r quar st = ((s.packetTold r quar q st).wakeHeld).afterCore r.core.val := by
  have hent : (s.freeReq r quar).fabEnt r.core.val r.id = some (true, q) := by
    unfold State.fabEnt
    rw [show ((s.freeReq r quar).core r.core.val).run 3 = (s.core r.core.val).run 3 from rfl, hq]
  have hretry : (decide (st = stRetry) && decide (r.ptype ≠ pkNotify)) ≠ true := by
    simp only [ne_eq, Bool.and_eq_true, decide_eq_true_eq]
    exact fun ⟨h1, h2⟩ => h2 (hr h1)
  unfold State.answered
  dsimp only
  rw [hent]
  dsimp only
  rw [if_neg hretry]
  simp only [if_true]
  rw [show (if r.ptype = pkNotify then (if st = stOk then q else q.addBit 4) else q.outcome st) = q.packetDone r st from rfl,
    State.pushed_advance hn]
  rfl

/-- The lists of a core where the outcome of one packet is known. -/
theorem State.packetTold_core (s : State) (r : FabReq) (quar : Bool) (q : QEnt) (st : BitVec 8) : ∃ o,
    (s.packetTold r quar q st).core r.core.val = ({ s.core r.core.val with opqs := o } : Core).replaceRun q
      ((q.packetDone r st).told ((s.freeReq r quar).reqsOf q.id).isEmpty (q.pushed + (s.freeReq r quar).rowsNew q)) ∧
    ∀ n, ({ s.core r.core.val with opqs := o } : Core).opq n = if q.fills = some n then
      { (s.core r.core.val).opq n with tail := ((s.core r.core.val).opq n).tail + BitVec.ofNat 32 ((s.freeReq r quar).rowsNew q) }
      else (s.core r.core.val).opq n := by
  unfold State.packetTold
  dsimp only
  rw [State.core_modCore]
  cases hf : q.fills with
  | none => exact ⟨(s.core r.core.val).opqs, rfl, fun n => rfl⟩
  | some i =>
    unfold State.rowsPushed
    dsimp only
    rw [State.core_modCore]
    refine ⟨_, rfl, fun n => (KV.get_put ..).trans ?_⟩
    by_cases hn : n = i
    · subst hn
      rw [if_pos rfl, if_pos rfl]
      rfl
    · rw [if_neg hn, if_neg fun h => hn (Option.some.inj h).symm]
      rfl

/-- Where no core waits for a tag, none does once the outcome of a packet is known. -/
theorem State.TagIdle.packetTold (h : s.TagIdle) (hn : fbNotify q.w = false ∨ q.notify = true) : (s.packetTold r quar q st).TagIdle := by
  have hfree : (s.freeReq r quar).TagIdle := h.of_cores rfl
  have hpush (n : Nat) : ((s.freeReq r quar).rowsPushed r.core.val q.fills n).TagIdle := by
    cases q.fills with
    | none => exact hfree
    | some i =>
      exact hfree.steady (f := fun k => { k with opqs := KV.put {} k.opqs i { k.opq i with tail := (k.opq i).tail + BitVec.ofNat 32 n } })
        fun _ => ⟨rfl, rfl, rfl⟩
  refine State.TagIdle.modCore (f := fun k => k.replaceRun q _) (hpush _) (((hpush _).core _).replaceRun ?_ q)
  rwa [QEnt.told_w, q.packetDone_w, QEnt.told_notify, q.packetDone_notify]

theorem State.packetTold_calm (h : (s.core r.core.val).calm) : ((s.packetTold r quar q st).core r.core.val).calm := by
  obtain ⟨o, hcore, -⟩ := s.packetTold_core r quar q st
  obtain ⟨hqueue, hrun, hslot⟩ := h
  rw [hcore]
  exact Core.calm_replaceRun (k := { s.core r.core.val with opqs := o }) ⟨hqueue, hrun, hslot⟩ (QEnt.told_await _ _ _) q

/-- The outcome of a packet reaches a command in execution. -/
theorem State.answered_eq (hc : (s.core r.core.val).calm) (hi : s.TagIdle)
    (hq : ((s.core r.core.val).run 3).find? (fun x => x.id = r.id) = some q) (hr : st = stRetry → r.ptype = pkNotify)
    (hn : fbNotify q.w = false ∨ q.notify = true) : s.answered r quar st = s.packetTold r quar q st := by
  rw [State.answered_run hq hr hn, State.wakeHeld_idle (hi.packetTold hn), State.afterCore_calm (State.packetTold_calm hc)]

/-- Requests of a command that are still to be answered. -/
def State.left (s : State) (r : FabReq) : List FabReq := (s.fab.reqs.erase r).filter (fun x => x.id = r.id)

theorem State.freeReq_reqsOf (h : r.id ≠ 0) (hq : q.id = r.id) : (s.freeReq r quar).reqsOf q.id = s.left r := by
  unfold State.reqsOf
  rw [hq, if_neg h]
  rfl

theorem State.rowsNew_congr (h : t.fab.reqs = s.fab.reqs) : t.rowsNew q = s.rowsNew q := by
  unfold State.rowsNew State.rowsDone State.reqsOf
  rw [h]

/-- What a command and its request have become once the outcome of a packet is known (R328, R333). -/
structure State.Told (s t : State) (r : FabReq) (st : BitVec 8) (quar : Bool) (q : QEnt) : Prop where
  reqs : t.fab.reqs = s.fab.reqs.erase r
  inc : t.tagIncOf r.port.val r.tag = r.inc + 1
  quarantined : KV.get false t.fab.tagQuar (tagKey r.port.val r.tag) = quar
  run : (t.core r.core.val).run 3 = ((s.core r.core.val).run 3).map (fun x => if x = q then
    (q.packetDone r st).told (s.left r).isEmpty (q.pushed + (s.freeReq r quar).rowsNew q) else x)
  rows : ∀ n, ((t.core r.core.val).opq n).tail =
    ((s.core r.core.val).opq n).tail + BitVec.ofNat 32 (if q.fills = some n then (s.freeReq r quar).rowsNew q else 0)
  slots : ∀ j, t.slot r.core.val j = s.slot r.core.val j

theorem State.packetTold_fab (s : State) (r : FabReq) (quar : Bool) (q : QEnt) (st : BitVec 8) :
    (s.packetTold r quar q st).fab = (s.freeReq r quar).fab ∧ ∀ x, (s.packetTold r quar q st).byte x = s.byte x := by
  unfold State.packetTold
  cases q.fills <;> exact ⟨rfl, fun _ => rfl⟩

/-- An answer that comes once counts have moved tells its command of its packet. -/
theorem State.answered_told (hk : CountsOnly s t) (hreqs : t.fab.reqs = s.fab.reqs) (hi : t.TagIdle) (hc : (s.core r.core.val).calm) (hid : r.id ≠ 0)
    (hr : st = stRetry → r.ptype = pkNotify) (hq : ((s.core r.core.val).run 3).find? (fun x => x.id = r.id) = some q)
    (hn : fbNotify q.w = false ∨ q.notify = true) :
    s.Told (t.answered r quar st) r st quar q ∧ ∀ x, (t.answered r quar st).byte x = t.byte x := by
  obtain ⟨un, cs, ms, hcore⟩ := hk r.core.val
  have hrun : (t.core r.core.val).run 3 = (s.core r.core.val).run 3 := by
    rw [hcore]
    rfl
  have hcalm : (t.core r.core.val).calm := by
    rw [hcore]
    exact hc
  have hqid : q.id = r.id := by simpa using List.find?_some hq
  have hrows : (t.freeReq r quar).rowsNew q = (s.freeReq r quar).rowsNew q :=
    State.rowsNew_congr (congrArg (·.erase r) hreqs)
  have hleft : t.left r = s.left r := congrArg (fun l => (l.erase r).filter (fun x => x.id = r.id)) hreqs
  obtain ⟨hfab, hbyte⟩ := t.packetTold_fab r quar q st
  obtain ⟨o, htold, hopq⟩ := t.packetTold_core r quar q st
  rw [State.answered_eq hcalm hi (hrun ▸ hq) hr hn]
  refine ⟨⟨?_, ?_, ?_, ?_, fun n => ?_, fun j => ?_⟩, hbyte⟩
  · rw [hfab]
    exact congrArg (·.erase r) hreqs
  · unfold State.tagIncOf
    rw [hfab]
    exact KV.get_put_self ..
  · rw [hfab]
    exact KV.get_put_self ..
  · rw [htold, Core.run_replaceRun, State.freeReq_reqsOf hid hqid, hleft, hrows, ← hrun]
    rfl
  · rw [htold]
    refine (congrArg OpQueue.tail (hopq n)).trans ?_
    rw [hrows, hcore]
    split
    · rfl
    · exact (BitVec.add_zero _).symm
  · unfold State.slot
    rw [htold, hcore]
    rfl

end
end Sys2Proof.Machine
end

section
/-! GETDATA, ATOMICRSP, ACK, NACK and the timeout of a request (R328, R330, R331, R333). -/

namespace Sys2Proof.Machine

section
variable {s t u : State} {p : PortId} {pk : Packet} {r : FabReq} {q : QEnt} {i : Instr} {st : BitVec 8} {quar : Bool} {f : State → State}

/-! ### Answers that name no request, and answers that are lost -/

theorem exec_getdata (s : State) (p : PortId) (pk : Packet) : exec (.getdata p pk) s =
    .next (if (s.undeliver p pk).answerCut p pk then s.undeliver p pk else (s.undeliver p pk).getData p pk) := rfl

theorem exec_atomicrsp (s : State) (p : PortId) (pk : Packet) : exec (.atomicrsp p pk) s =
    .next (if (s.undeliver p pk).answerCut p pk then s.undeliver p pk else (s.undeliver p pk).atomicRsp p pk) := rfl

theorem exec_nack (s : State) (p : PortId) (pk : Packet) : exec (.nack p pk) s =
    .next (if (s.undeliver p pk).answerCut p pk && decide (fld pk.body 7 0 ≠ 8) then s.undeliver p pk else (s.undeliver p pk).nackPacket p pk) := rfl

theorem State.answerCut_none (h : s.findReq pk = none) : (s.undeliver p pk).answerCut p pk = false := by
  unfold State.answerCut
  rw [show (s.undeliver p pk).findReq pk = none from h]

theorem State.answerCut_some (h : s.findReq pk = some r) :
    (s.undeliver p pk).answerCut p pk = s.cut (packetRouter p.val pk) r.core.val := by
  unfold State.answerCut
  rw [show (s.undeliver p pk).findReq pk = some r from h]
  exact State.cut_congr (s.undeliver_regs p pk) ..

/-- Answers to no request are late. -/
theorem exec_answer_late (h : s.findReq pk = none) :
    exec (.getdata p pk) s = .next ((s.undeliver p pk).lateAnswer p pk) ∧
    exec (.atomicrsp p pk) s = .next ((s.undeliver p pk).lateAnswer p pk) ∧
    exec (.ack p pk) s = .next ((s.undeliver p pk).lateAnswer p pk) ∧
    (s.findSync pk = none → exec (.nack p pk) s = .next ((s.undeliver p pk).lateAnswer p pk)) := by
  have hcut := State.answerCut_none (p := p) h
  have hu : (s.undeliver p pk).findReq pk = none := h
  refine ⟨?_, ?_, ?_, fun hs => ?_⟩
  · rw [exec_getdata, hcut, if_neg Bool.false_ne_true]
    unfold State.getData
    rw [hu]
  · rw [exec_atomicrsp, hcut, if_neg Bool.false_ne_true]
    unfold State.atomicRsp
    rw [hu]
  · show execAck p pk s = _
    unfold execAck
    dsimp only
    rw [hcut, if_neg Bool.false_ne_true, hu]
  · rw [exec_nack, hcut, if_neg (by simp)]
    unfold State.nackPacket
    dsimp only
    rw [hu, show (s.undeliver p pk).findSync pk = none from hs]
    simp

/-- Answers whose way through the mesh is cut are lost. -/
theorem exec_answer_lost (h : s.findReq pk = some r) (hc : s.cut (packetRouter p.val pk) r.core.val = true) :
    exec (.getdata p pk) s = .next (s.undeliver p pk) ∧ exec (.atomicrsp p pk) s = .next (s.undeliver p pk) ∧
    exec (.ack p pk) s = .next (s.undeliver p pk) ∧ (fld pk.body 7 0 ≠ 8 → exec (.nack p pk) s = .next (s.undeliver p pk)) := by
  have hcut := (State.answerCut_some (p := p) h).trans hc
  refine ⟨?_, ?_, ?_, fun hb => ?_⟩
  · rw [exec_getdata, hcut, if_pos rfl]
  · rw [exec_atomicrsp, hcut, if_pos rfl]
  · show execAck p pk s = _
    unfold execAck
    dsimp only
    rw [hcut, if_pos rfl]
  · rw [exec_nack, hcut, if_pos (by simpa using hb)]

/-! ### Answers that reach their command -/

/-- Where nothing of its core waits to go on and no core waits for a tag, the instruction tells the request's command, in execution and with no
NOTIFY due, the outcome of its packet; the bytes are then those given. -/
def State.Tells (s : State) (i : Instr) (r : FabReq) (st : BitVec 8) (quar : Bool) (b : Nat → Byte) : Prop :=
  ∀ q, (s.core r.core.val).calm → s.TagIdle → r.id ≠ 0 → (st = stRetry → r.ptype = pkNotify) →
    ((s.core r.core.val).run 3).find? (fun x => x.id = r.id) = some q → (fbNotify q.w = false ∨ q.notify = true) →
    Completes i s (fun t => s.Told t r st quar q ∧ ∀ x, t.byte x = b x)

theorem State.Tells.of_answered {b : Nat → Byte} (h : exec i s = .next (t.answered r quar st)) (hk : CountsOnly s t)
    (hreqs : t.fab.reqs = s.fab.reqs) (hi : s.TagIdle → t.TagIdle) (hb : ∀ x, t.byte x = b x) : s.Tells i r st quar b := by
  intro q hc hidle hid hr hq hn
  obtain ⟨htold, hbyte⟩ := State.answered_told hk hreqs (hi hidle) hc hid hr hq hn
  exact ⟨_, h, htold, fun x => (hbyte x).trans (hb x)⟩

/-- An answer of which nothing is stored. -/
theorem State.Tells.bare (h : exec i s = .next ((s.undeliver p pk).answered r quar st)) : s.Tells i r st quar s.byte :=
  .of_answered h (.of_cores rfl) rfl (fun hi => hi.of_cores rfl) fun _ => rfl

/-- An answer that moves data or counts first. -/
theorem State.Tells.moved {b : Nat → Byte} (h : exec i s = .next (t.answered r quar st)) (hm : MovesSound (s.undeliver p pk) t)
    (hi : (s.undeliver p pk).TagIdle → t.TagIdle) (hb : ∀ x, t.byte x = b x) : s.Tells i r st quar b := by
  have hfab : t.fab = (s.undeliver p pk).fab := hm.moves.2 .fab (by decide)
  have hreqs : t.fab.reqs = (s.undeliver p pk).fab.reqs := congrArg Fabric.reqs hfab
  exact .of_answered h hm.moves.1 hreqs (fun hs => hi (hs.of_cores rfl)) hb

/-- What an answer that succeeds counts. -/
theorem MovesSound.answerCounts (h : MovesSound s t) (c n m : Nat) : MovesSound s ((t.count c 0xD8 n).progress c 3 m) :=
  h.trans ((MovesSound.count ..).trans (.progress ..))

theorem State.TagIdle.answerCounts (h : s.TagIdle) (c n m : Nat) : ((s.count c 0xD8 n).progress c 3 m).TagIdle :=
  (h.count ..).progress ..

theorem exec_getdata_at (h : s.findReq pk = some r) (hc : s.cut (packetRouter p.val pk) r.core.val = false) :
    exec (.getdata p pk) s = .next ((s.undeliver p pk).getData p pk) := by
  rw [exec_getdata, State.answerCut_some h, hc, if_neg Bool.false_ne_true]

theorem exec_atomicrsp_at (h : s.findReq pk = some r) (hc : s.cut (packetRouter p.val pk) r.core.val = false) :
    exec (.atomicrsp p pk) s = .next ((s.undeliver p pk).atomicRsp p pk) := by
  rw [exec_atomicrsp, State.answerCut_some h, hc, if_neg Bool.false_ne_true]

/-! ### GETDATA -/

/-- GETDATA of sound data for a plain range is stored there. -/
theorem State.landGet_plain {c a : Nat} {d : List Byte} (h : s.plain c a d.length) (ctx : Nat) :
    ∃ t, s.landGet c ctx a d 0 = (stOk, t) ∧ Placed s t a d ∧ (s.TagIdle → t.TagIdle) := by
  have hdie (x : Nat) (h1 : a ≤ x) (h2 : x < a + d.length) : dieByte x := (h.reach (b := x) (k := 1) (by decide) ⟨h1, h2⟩).first
  obtain ⟨t, ht, hp⟩ : ∃ t, s.landGet c ctx a d 0 = (stOk, t) ∧ Placed s t a d := by
    unfold State.landGet
    exact landData_plain (fun t x hx => by rw [hx.placeNow]) h ctx
  refine ⟨t, ht, hp, fun hi => ?_⟩
  have hland : (s.landGet c ctx a d 0).2.TagIdle := by
    unfold State.landGet
    exact hi.landData (fun t x h1 h2 => by rw [(hdie x h1 h2).placeNow]) ..
  rwa [ht] at hland

theorem getdata_stores {a : Nat} (h : s.findReq pk = some r) (hc : s.cut (packetRouter p.val pk) r.core.val = false) (ha : r.addr = some a)
    (hst : pk.status = stOk) (hb : pk.bad = 0) (hp : s.plain r.core.val a pk.data.length) :
    s.Tells (.getdata p pk) r stOk false (fun x => if a ≤ x ∧ x < a + pk.data.length then pk.data.getD (x - a) 0 else s.byte x) := by
  obtain ⟨t, ht, hplaced, hidle⟩ := State.landGet_plain (hp.undeliver p pk) r.ctx.toNat
  have hexec := exec_getdata_at (p := p) h hc
  unfold State.getData at hexec
  rw [show (s.undeliver p pk).findReq pk = some r from h] at hexec
  dsimp only at hexec
  rw [ha, hst, hb, decide_eq_true rfl, Bool.true_or, Bool.true_or] at hexec
  dsimp only at hexec
  rw [ht] at hexec
  exact .moved hexec (hplaced.moves.answerCounts ..) (fun hi => (hidle hi).answerCounts ..) hplaced.byte

theorem getdata_tells (h : s.findReq pk = some r) (hc : s.cut (packetRouter p.val pk) r.core.val = false)
    (hn : r.addr = none ∨ (pk.status ≠ stOk ∧ pk.status ≠ stEcc ∧ pk.status ≠ stPoison)) :
    s.Tells (.getdata p pk) r pk.status false s.byte := by
  have hexec := exec_getdata_at (p := p) h hc
  unfold State.getData at hexec
  rw [show (s.undeliver p pk).findReq pk = some r from h] at hexec
  dsimp only at hexec
  refine .bare (p := p) (pk := pk) (hexec.trans (congrArg _ ?_))
  rcases hn with ha | ⟨h1, h2, h3⟩
  · rw [ha]
  · rw [decide_eq_false h1, decide_eq_false h2, decide_eq_false h3]
    cases r.addr <;> rfl

/-! ### ATOMICRSP -/

/-- The old value is stored in the slabs of the core. -/
theorem State.engWrite_moves {c a : Nat} {d : List Byte} (h : s.sound (slabKey c a) d.length = true) (ctx : Nat) :
    ∃ t, s.engWrite c ctx a d = (stOk, t) ∧ CountsOnly s t ∧ t.fab = s.fab ∧ (s.TagIdle → t.TagIdle) ∧ ∀ x, t.byte x =
      if slabKey c a ≤ x ∧ x < slabKey c a + d.length then d.getD (x - slabKey c a) 0 else s.byte x := by
  obtain ⟨t, ht, hk, hin, hout, hcores, ⟨un, cs, hcore⟩, -⟩ := State.engWrite_sound h ctx
  refine ⟨t, ht, fun x => ?_, hk .fab (by decide), fun hi => ?_, fun x => ?_⟩
  · by_cases hx : x = c
    · subst hx
      exact ⟨un, cs, (s.core x).mons, hcore⟩
    · exact ⟨_, _, _, hcores x hx⟩
  · have := hi.engWrite c ctx a d
    rwa [ht] at this
  · split
    · rename_i hx
      have := hin (x - slabKey c a) (by omega)
      rw [show slabKey c a + (x - slabKey c a) = x by omega] at this
      rw [this, List.getD_eq_getElem]
    · exact hout x (by omega)

theorem atomicrsp_stores {a : Nat} (h : s.findReq pk = some r) (hc : s.cut (packetRouter p.val pk) r.core.val = false) (ha : r.addr = some a)
    (hst : pk.status = stOk) (hs : s.sound (slabKey r.core.val a) r.len = true) :
    s.Tells (.atomicrsp p pk) r stOk false (fun x => if slabKey r.core.val a ≤ x ∧ x < slabKey r.core.val a + r.len then
      (natLe r.len (fld pk.body 63 0)).getD (x - slabKey r.core.val a) 0 else s.byte x) := by
  have hlen : (natLe r.len (fld pk.body 63 0)).length = r.len := natLe_length ..
  have hsound : (s.undeliver p pk).sound (slabKey r.core.val a) (natLe r.len (fld pk.body 63 0)).length = true := by
    rw [hlen, State.undeliver_sound]
    exact hs
  obtain ⟨t, ht, hk, hfab, hidle, hbyte⟩ := State.engWrite_moves hsound r.ctx.toNat
  rw [hlen] at hbyte
  have hexec := exec_atomicrsp_at (p := p) h hc
  unfold State.atomicRsp at hexec
  rw [show (s.undeliver p pk).findReq pk = some r from h] at hexec
  dsimp only at hexec
  rw [ha, hst, decide_eq_true rfl] at hexec
  dsimp only at hexec
  rw [ht] at hexec
  have hreqs : t.fab.reqs = (s.undeliver p pk).fab.reqs := congrArg Fabric.reqs hfab
  exact .of_answered (t := t) hexec hk hreqs (fun hi => hidle (hi.of_cores rfl)) hbyte

theorem atomicrsp_tells (h : s.findReq pk = some r) (hc : s.cut (packetRouter p.val pk) r.core.val = false)
    (hn : r.addr = none ∨ pk.status ≠ stOk) : s.Tells (.atomicrsp p pk) r pk.status false s.byte := by
  have hexec := exec_atomicrsp_at (p := p) h hc
  unfold State.atomicRsp at hexec
  rw [show (s.undeliver p pk).findReq pk = some r from h] at hexec
  dsimp only at hexec
  refine .bare (p := p) (pk := pk) (hexec.trans (congrArg _ ?_))
  rcases hn with ha | h1
  · rw [ha]
  · rw [decide_eq_false h1]
    cases r.addr <;> rfl

/-! ### ACK, NACK, and the request that times out -/

theorem ack_tells (h : s.findReq pk = some r) (hc : s.cut (packetRouter p.val pk) r.core.val = false) :
    s.Tells (.ack p pk) r stOk false s.byte := by
  have hexec : exec (.ack p pk) s = .next ((s.undeliver p pk).answerOk r (if r.ptype = pkNotify then 0 else r.len)) := by
    show execAck p pk s = _
    unfold execAck
    dsimp only
    rw [State.answerCut_some h, hc, if_neg Bool.false_ne_true, show (s.undeliver p pk).findReq pk = some r from h]
  exact .moved hexec ((MovesSound.refl _).answerCounts ..) (fun hi => hi.answerCounts ..) fun _ => rfl

/-- An identity that is known to be absent, or a NACK that says something else, is not told again. -/
theorem State.noteAbsent_told {m : BitVec 14} (h : st = stAbsent → m ∈ s.fab.absentSent) : s.noteAbsent p m st = s := by
  refine if_neg ?_
  simp only [Bool.and_eq_true, decide_eq_true_eq, Bool.not_eq_true', not_and, Bool.not_eq_false, List.contains_iff_mem]
  exact h

theorem nack_tells (h : s.findReq pk = some r) (hc : s.cut (packetRouter p.val pk) r.core.val = false) (hb : fld pk.body 7 0 ≠ 8)
    (ha : pk.status = stAbsent → r.dest ∈ s.fab.absentSent) : s.Tells (.nack p pk) r pk.status false s.byte := by
  have hexec := exec_nack s p pk
  rw [State.answerCut_some h, hc, Bool.false_and, if_neg Bool.false_ne_true] at hexec
  refine .bare (p := p) (pk := pk) (hexec.trans (congrArg _ ?_))
  unfold State.nackPacket
  dsimp only
  rw [if_neg hb, show (s.undeliver p pk).findReq pk = some r from h]
  exact congrArg (State.answered · r false pk.status) (State.noteAbsent_told (s := s.undeliver p pk) ha)

theorem dataRequestTimeout_tells {tag : BitVec 16} (h : s.fab.reqs.find? (fun r => r.port = p && r.tag = tag.toNat) = some r) :
    s.Tells (.dataRequestTimeout p tag) r stPathLost true s.byte := by
  have hexec : exec (.dataRequestTimeout p tag) s = .next (s.answered r true stPathLost) := by
    show execDataRequestTimeout p tag s = _
    unfold execDataRequestTimeout
    rw [h]
  exact .of_answered hexec (.refl s) rfl id fun _ => rfl

theorem exec_dataRequestTimeout_none {tag : BitVec 16} (h : s.fab.reqs.find? (fun r => r.port = p && r.tag = tag.toNat) = none) :
    exec (.dataRequestTimeout p tag) s = .next s := by
  show execDataRequestTimeout p tag s = _
  unfold execDataRequestTimeout
  rw [h]

end
end Sys2Proof.Machine
end

section
/-! SYNCRSP, the NACK of a SYNC, the end of a quarantine (R301, R306, R307, R328), and the settling of O53. -/

namespace Sys2Proof.Machine

section
variable {s t u : State} {p : PortId} {pk : Packet} {n : Nat} {q : SyncReq} {c : CoreId} {sl : SlotId} {r : SyncReply} {tag : BitVec 16}

/-! ### The end of an operation -/

/-- No port waits for a tag. -/
def State.portsIdle (s : State) : Prop := ∀ e ∈ s.sync.ports, e.2.queued = false

theorem State.retryPorts_idle (h : s.portsIdle) : s.retryPorts = s := foldl_filter_none _ _ h

/-- The record is that of the operation's own WAIT with TAKE, which stands. -/
def SyncReq.holds (q : SyncReq) (y : WaitRec) : Bool := q.standing && decide (y.who = .unit q.who) && y.remote && y.take

/-- The state in which an operation has ended, before its unit is told. -/
def State.syncFreed (s : State) (n : Nat) (q : SyncReq) : State :=
  { s with sync := { (s.freeSyncReq n false).sync with waits := s.sync.waits.filter (fun y => !q.holds y) } }

/-- What the request of an ended operation leaves: its tag free, with the next incarnation (R306, R328). -/
structure State.SyncFreed (s t : State) (n : Nat) : Prop where
  reqs : t.sync.reqs = s.sync.reqs.filter (fun e => e.1 ≠ n)
  inc : KV.get 0 t.sync.tagInc n = KV.get 0 s.sync.tagInc n + 1
  free : KV.get false t.sync.tagQuar n = false

theorem State.freeSyncReq_freed (s : State) (n : Nat) : s.SyncFreed (s.freeSyncReq n false) n :=
  ⟨rfl, KV.get_put_self .., KV.get_put_self s.sync.tagQuar n false⟩

theorem State.syncFreed_freed (s : State) (n : Nat) (q : SyncReq) : s.SyncFreed (s.syncFreed n q) n :=
  ⟨rfl, KV.get_put_self .., KV.get_put_self s.sync.tagQuar n false⟩

theorem State.SyncFreed.of_sync (h : s.SyncFreed t n) (hu : u.sync = t.sync) : s.SyncFreed u n := by
  obtain ⟨hreqs, hinc, hfree⟩ := h
  rw [← hu] at hreqs hinc hfree
  exact ⟨hreqs, hinc, hfree⟩

theorem State.syncEnd_eq (s : State) (n : Nat) (q : SyncReq) (r : SyncReply) : s.syncEnd n q r =
    (if q.posted then s.syncFreed n q else (s.syncFreed n q).reply (.unit q.who) r).retryPorts := by
  have hfreed : (if q.standing then
      { s.freeSyncReq n false with sync := { (s.freeSyncReq n false).sync with
          waits := (s.freeSyncReq n false).sync.waits.filter (fun (y : WaitRec) => !(decide (y.who = .unit q.who) && y.remote && y.take)) } }
      else s.freeSyncReq n false) = s.syncFreed n q := by
    unfold State.syncFreed SyncReq.holds
    cases q.standing with
    | true => rfl
    | false =>
      have hall : s.sync.waits.filter (fun y => !(false && decide (y.who = .unit q.who) && y.remote && y.take)) = s.sync.waits :=
        List.filter_eq_self.mpr fun _ _ => rfl
      rw [hall]
      rfl
  unfold State.syncEnd
  dsimp only
  rw [hfreed]

/-- A posted operation ends with nobody told. -/
theorem State.syncEnd_posted (hp : s.portsIdle) (hq : q.posted = true) (r : SyncReply) : s.syncEnd n q r = s.syncFreed n q := by
  rw [State.syncEnd_eq, hq, if_pos rfl]
  exact State.retryPorts_idle hp

/-- The slot of an operation that ends is told. -/
theorem State.syncEnd_slot (hp : s.portsIdle) (hq : q.posted = false) (hw : q.who = .slot c sl) (r : SyncReply) :
    s.syncEnd n q r = (s.syncFreed n q).reply (.unit (.slot c sl)) r := by
  rw [State.syncEnd_eq, hq, hw, if_neg Bool.false_ne_true]
  exact State.retryPorts_idle hp

/-- A slot that awaits the operation has its answer. -/
theorem syncEnd_answers {i : Instr} (hexec : exec i s = .next ((s.undeliver p pk).syncEnd n q r)) (hp : s.portsIdle) (hq : q.posted = false)
    (hw : q.who = .slot c sl) (hh : (s.slot c.val sl.val).hold = .sync q.w none) : Completes i s (fun t =>
      s.SyncFreed t n ∧ (t.slot c.val sl.val).hold = .sync q.w (some r) ∧ t.sync.waits = s.sync.waits.filter (fun y => !q.holds y) ∧
        KeptBut [.cores, .fab, .sync] s t) := by
  rw [State.syncEnd_slot (s := s.undeliver p pk) hp hq hw] at hexec
  exact ⟨_, hexec, (s.syncFreed_freed n q).of_sync rfl, State.reply_slot (s := (s.undeliver p pk).syncFreed n q) hh r, rfl,
    ((Keeps.refl s).undeliver p pk rfl |>.upd_sync rfl |>.reply _ _ rfl).kept⟩

/-! ### SYNCRSP (R306, R307) -/

/-- The answer that a SYNCRSP carries. -/
def rspReply (pk : Packet) : SyncReply :=
  { status := BitVec.ofNat 8 (fld pk.body 7 0), value := BitVec.ofNat 64 (fld pk.body 127 64), spent := bit pk.addr 0 }

theorem exec_syncrsp_late (h : s.findSync pk = none) : exec (.syncrsp p pk) s =
    .next ((s.undeliver p pk).discardMsg (if p.val = 2 ∨ 4 ≤ p.val then 1 else 0) (KV.get 0 s.sync.tagHandle pk.tag.toNat).toNat pk.src.toNat) := by
  show Host.Outcome.next ((s.undeliver p pk).syncRsp p pk) = _
  unfold State.syncRsp
  rw [show (s.undeliver p pk).findSync pk = none from h]
  rfl

/-- A SYNCRSP that names an outstanding operation. -/
theorem State.syncRsp_at (h : s.findSync pk = some (n, q)) : s.syncRsp p pk =
    if (rspReply pk).status = 0xFF ∧ bit q.w 156 = true then s.standTake n q
    else if (rspReply pk).status = 0xFF then ((s.freeSyncReq n false).standWait q (rspReply pk).value).retryPorts
    else s.syncEnd n q (rspReply pk) := by
  unfold State.syncRsp
  rw [h]
  rfl

theorem exec_syncrsp_done (h : s.findSync pk = some (n, q)) (hst : (rspReply pk).status ≠ 0xFF) :
    exec (.syncrsp p pk) s = .next ((s.undeliver p pk).syncEnd n q (rspReply pk)) := by
  show Host.Outcome.next ((s.undeliver p pk).syncRsp p pk) = _
  rw [State.syncRsp_at (s := s.undeliver p pk) h, if_neg fun hc => hst hc.1, if_neg hst]

theorem exec_syncrsp_take (h : s.findSync pk = some (n, q)) (hst : (rspReply pk).status = 0xFF) (ht : bit q.w 156 = true) :
    exec (.syncrsp p pk) s = .next ((s.undeliver p pk).standTake n q) := by
  show Host.Outcome.next ((s.undeliver p pk).syncRsp p pk) = _
  rw [State.syncRsp_at (s := s.undeliver p pk) h, if_pos ⟨hst, ht⟩]

theorem exec_syncrsp_wait (h : s.findSync pk = some (n, q)) (hst : (rspReply pk).status = 0xFF) (ht : bit q.w 156 = false) :
    exec (.syncrsp p pk) s = .next ((((s.undeliver p pk).freeSyncReq n false).standWait q (rspReply pk).value).retryPorts) := by
  show Host.Outcome.next ((s.undeliver p pk).syncRsp p pk) = _
  rw [State.syncRsp_at (s := s.undeliver p pk) h, if_neg fun hc => ne_true_of_eq_false ht hc.2, if_pos hst]

theorem syncrsp_posted (h : s.findSync pk = some (n, q)) (hp : s.portsIdle) (hq : q.posted = true) (hst : (rspReply pk).status ≠ 0xFF) :
    Completes (.syncrsp p pk) s (fun t => s.SyncFreed t n ∧ KeptBut [.fab, .sync] s t) := by
  have hexec := exec_syncrsp_done (p := p) h hst
  rw [State.syncEnd_posted (s := s.undeliver p pk) hp hq] at hexec
  exact ⟨_, hexec, (s.syncFreed_freed n q).of_sync rfl, ((Keeps.refl s).undeliver p pk rfl |>.upd_sync rfl).kept⟩

/-! ### A WAIT that stands (R307, R308) -/

/-- A WAIT with a time limit of its own. -/
theorem State.waitTimed_stated {tmo : Nat} (h : 0 < tmo) (ctx : Nat) : s.waitTimed ctx tmo = (decide (tmo ≠ 0xFFFFFFFF), s) :=
  if_pos (Nat.ne_of_gt h)

/-- The record of a WAIT that stands. -/
def SyncReq.record (q : SyncReq) : WaitRec := waitRecOf q (decide (fld q.w 188 157 ≠ 0xFFFFFFFF))

theorem SyncReq.record_timed (q : SyncReq) : q.record.timed = true ↔ fld q.w 188 157 ≠ 0xFFFFFFFF := decide_eq_true_iff

theorem State.standTake_eq (h : 0 < fld q.w 188 157) : s.standTake n q =
    { s with sync := { s.sync with waits := s.sync.waits ++ [q.record], reqs := KV.ins s.sync.reqs n { q with standing := true } } } := by
  unfold State.standTake
  dsimp only
  rw [State.waitTimed_stated h]
  rfl

theorem syncrsp_standsTake (h : s.findSync pk = some (n, q)) (hst : (rspReply pk).status = 0xFF) (ht : bit q.w 156 = true)
    (htmo : 0 < fld q.w 188 157) : Completes (.syncrsp p pk) s (fun t => KeptBut [.fab, .sync] s t ∧
      KV.get q t.sync.reqs n = { q with standing := true } ∧ KV.get 0 t.sync.tagInc n = KV.get 0 s.sync.tagInc n ∧
      t.sync.waits = s.sync.waits ++ [q.record]) := by
  have hexec := exec_syncrsp_take (p := p) h hst ht
  rw [State.standTake_eq htmo] at hexec
  exact ⟨_, hexec, ((Keeps.refl s).undeliver p pk rfl |>.upd_sync rfl).kept, KV.get_ins_self .., rfl, rfl⟩

/-- The subscription that a half begins with the answer to its WAIT. -/
def SyncReq.subscription (q : SyncReq) (v : BitVec 64) : MySub :=
  { half := halfId (waiterHalf q.who), handle := BitVec.ofNat 64 (syncHandle q.w)
    ty := BitVec.ofNat 2 (fld v 1 0), map := bit v 2, refused := bit v 8 }

/-- The half of a unit subscribes to the object of its WAIT. -/
def SyncReq.subscribed (q : SyncReq) (m : MySub) : Bool := m.half.val = waiterHalf q.who && m.handle = BitVec.ofNat 64 (syncHandle q.w)

theorem State.standWait_eq (h : 0 < fld q.w 188 157) (v : BitVec 64) : s.standWait q v =
    { s with sync := { s.sync with
        waits := s.sync.waits ++ [q.record]
        mySubs := if s.sync.mySubs.any q.subscribed then s.sync.mySubs else s.sync.mySubs ++ [q.subscription v] } } := by
  unfold State.standWait
  dsimp only
  rw [State.waitTimed_stated h]
  rfl

theorem halfId_val {h : Nat} (hh : h < 2) : (halfId h).val = h := by
  unfold halfId
  split
  · omega
  · show 1 = h
    omega

theorem waiterHalf_lt (x : Waiter) : waiterHalf x < 2 := by
  cases x with
  | slot c sl =>
    show c.val % 48 / 24 < 2
    omega
  | port h n =>
    show h.val / 8 < 2
    omega

/-- A WAIT that stands has its half's subscription. -/
theorem State.subscription_there (s : State) (q : SyncReq) (v : BitVec 64) :
    ∃ m ∈ (if s.sync.mySubs.any q.subscribed then s.sync.mySubs else s.sync.mySubs ++ [q.subscription v]),
      m.half.val = waiterHalf q.who ∧ m.handle = BitVec.ofNat 64 (syncHandle q.w) := by
  split
  · rename_i h
    obtain ⟨m, hm, hsub⟩ := List.any_eq_true.mp h
    unfold SyncReq.subscribed at hsub
    rw [Bool.and_eq_true, decide_eq_true_iff, decide_eq_true_iff] at hsub
    exact ⟨m, hm, hsub⟩
  · exact ⟨_, List.mem_append_right _ List.mem_cons_self, halfId_val (waiterHalf_lt _), rfl⟩

theorem syncrsp_standsWait (h : s.findSync pk = some (n, q)) (hp : s.portsIdle) (hst : (rspReply pk).status = 0xFF) (ht : bit q.w 156 = false)
    (htmo : 0 < fld q.w 188 157) : Completes (.syncrsp p pk) s (fun t =>
      s.SyncFreed t n ∧ KeptBut [.fab, .sync] s t ∧ t.sync.waits = s.sync.waits ++ [q.record] ∧
      ∃ m ∈ t.sync.mySubs, m.half.val = waiterHalf q.who ∧ m.handle = BitVec.ofNat 64 (syncHandle q.w)) := by
  have hexec := exec_syncrsp_wait (p := p) h hst ht
  rw [State.standWait_eq htmo, State.retryPorts_idle (by exact hp)] at hexec
  exact ⟨_, hexec, ⟨rfl, (s.freeSyncReq_freed n).inc, (s.freeSyncReq_freed n).free⟩,
    ((Keeps.refl s).undeliver p pk rfl |>.upd_sync rfl).kept, rfl, s.subscription_there q _⟩

/-! ### The NACK of a SYNC -/

theorem exec_nack_sync (h : s.findSync pk = some (n, q)) (h8 : fld pk.body 7 0 = 8) (ha : pk.status = stAbsent → syncTarget q ∈ s.fab.absentSent) :
    exec (.nack p pk) s = .next ((s.undeliver p pk).syncEnd n q { status := pk.status }) := by
  have hexec := exec_nack s p pk
  rw [decide_eq_false (not_not.mpr h8), Bool.and_false, if_neg Bool.false_ne_true] at hexec
  refine hexec.trans (congrArg _ ?_)
  unfold State.nackPacket
  dsimp only
  rw [if_pos h8, show (s.undeliver p pk).findSync pk = some (n, q) from h]
  exact congrArg (State.syncNack · n q pk.status) (State.noteAbsent_told (s := s.undeliver p pk) ha)

/-! ### The end of a quarantine (R328) -/

theorem syncQuarantine_ends (hp : s.portsIdle) : Completes (.tagQuarantineEnd none tag) s (fun t => KV.get false t.sync.tagQuar tag.toNat = false ∧
    (∀ x, x ≠ tag.toNat → KV.get false t.sync.tagQuar x = KV.get false s.sync.tagQuar x) ∧ KeptBut [.sync] s t) :=
  ⟨_, congrArg Host.Outcome.next (State.retryPorts_idle (by exact hp)), KV.get_put_self s.sync.tagQuar _ false,
    fun _ hx => KV.get_put_ne hx s.sync.tagQuar false, ((Keeps.refl s).upd_sync rfl).kept⟩

theorem dataQuarantine_ends (hi : s.TagIdle) : Completes (.tagQuarantineEnd (some p) tag) s (fun t =>
    KV.get false t.fab.tagQuar (tagKey p.val tag.toNat) = false ∧
    (∀ x, x ≠ tagKey p.val tag.toNat → KV.get false t.fab.tagQuar x = KV.get false s.fab.tagQuar x) ∧ KeptBut [.fab] s t) :=
  ⟨_, congrArg Host.Outcome.next (State.wakeHeld_idle (hi.of_cores rfl)), KV.get_put_self s.fab.tagQuar _ false,
    fun _ hx => KV.get_put_ne hx s.fab.tagQuar false, ((Keeps.refl s).upd_fab rfl).kept⟩

/-! ### O53 -/

theorem QEnt.told_isEmpty (b : QEnt) (l : List FabReq) (n : Nat) : b.told l.isEmpty n =
    if l = [] then { b.fabStatus with await := [], pushed := n } else { b with await := [1], pushed := n } := by
  cases l <;> rfl

end

/-- Settles O53: each answer by whether it names a request, whether it is lost, and what it stores before its command is told; the operations
of other modules by how their requests end or stand. -/
theorem fabricAnswers : Obligations.FabricAnswers := by
  unfold Obligations.FabricAnswers
  intro s p pk tag u idle noQ cut Lost absentTold Late Told
  have told {i : Instr} {r : FabReq} {st : BitVec 8} {quar : Bool} {b : Nat → Byte} (h : s.Tells i r st quar b) :
      Told i r st quar (fun t => ∀ x, t.byte x = b x) := by
    intro q hc hidle _ hid hr hq hn left qi rows b' q'
    obtain ⟨t, ht, ⟨hreqs, hinc, hquar, hrun, hrows, hslots⟩, hbyte⟩ := h q hc ⟨hidle⟩ hid hr hq hn
    rw [QEnt.told_isEmpty] at hrun
    exact ⟨t, ht, hreqs, hinc, hquar, hrun, hrows, hslots, hbyte⟩
  refine ⟨exec_answer_late, fun r h hc => exec_answer_lost h hc, fun r h hc => ⟨fun a ha hst hb hp => told (getdata_stores h hc ha hst hb hp),
      fun hn => told (getdata_tells h hc hn), fun a ha hst hs => told (atomicrsp_stores h hc ha hst hs), fun hn => told (atomicrsp_tells h hc hn),
      told (ack_tells h hc), fun hb ha => told (nack_tells h hc hb ha)⟩,
    fun r h => told (dataRequestTimeout_tells h), exec_dataRequestTimeout_none, exec_syncrsp_late, fun n q c sl h hp => ?_,
    fun hp => syncQuarantine_ends hp, fun hi => dataQuarantine_ends ⟨hi⟩, packetResidenceExpiry_drops⟩
  intro st val Freed Answered
  refine ⟨fun hq _ hst => ?_, fun hq hw hh => ⟨fun hst => ?_, fun h8 ha => ?_, fun hst ht htmo => ?_, fun hst ht htmo => ?_⟩⟩
  · obtain ⟨t, ht, ⟨hreqs, hinc, hfree⟩, hkept⟩ := syncrsp_posted (p := p) h hp hq hst
    exact ⟨t, ht, ⟨hreqs, hinc, hfree⟩, hkept⟩
  · obtain ⟨t, ht, ⟨hreqs, hinc, hfree⟩, hhold, hwaits, hkept⟩ := syncEnd_answers (exec_syncrsp_done (p := p) h hst) hp hq hw hh
    exact ⟨t, ht, ⟨hreqs, hinc, hfree⟩, hhold, hwaits, hkept⟩
  · obtain ⟨t, ht, ⟨hreqs, hinc, hfree⟩, hhold, hwaits, hkept⟩ := syncEnd_answers (exec_nack_sync (p := p) h h8 ha) hp hq hw hh
    exact ⟨t, ht, ⟨hreqs, hinc, hfree⟩, hhold, hwaits, hkept⟩
  · obtain ⟨t, hexec, hkept, hreq, hinc, hwaits⟩ := syncrsp_standsTake (p := p) h hst ht htmo
    exact ⟨t, hexec, hkept, hreq, hinc, q.record, hwaits, congrArg Asker.unit hw, ht, rfl, q.record_timed⟩
  · have hhalf : waiterHalf q.who = halfOf c.val := by rw [hw]; rfl
    obtain ⟨t, hexec, ⟨hreqs, hinc, hfree⟩, hkept, hwaits, m, hm, hmhalf, hmhandle⟩ := syncrsp_standsWait (p := p) h hp hst ht htmo
    exact ⟨t, hexec, ⟨hreqs, hinc, hfree⟩, hkept, q.record, hwaits, congrArg Asker.unit hw, toNat_ofNat_fld q.w 95 32,
      toNat_ofNat_fld q.w 148 101, toNat_ofNat_fld q.w 155 154, rfl, q.record_timed, m, hm, hmhalf.trans hhalf, hmhandle⟩

end Sys2Proof.Machine
end
